-- ==== Sys2Proof/Word.lean ====
section
/-! DEFINITION. The number containers of the W9 (R29): every value is an unbounded integer that a
named narrowing function of R8 brings into the range of its container. -/

namespace Sys2Proof

/-- A word of 27 balanced trits, held as its balanced value (R4, R29). -/
abbrev Word := Int

/-- A dword of 54 balanced trits, held as its balanced value (R29). -/
abbrev Dword := Int

/-- A tryte of 9 balanced trits, held as its balanced value (R29). -/
abbrev Tryte := Int

/-- A table of plain data by number: the keys that are not listed hold the table's default. -/
abbrev Tab (α : Type) := List (Nat × α)

end Sys2Proof
end

