-- ==== Sys2Proof/Machine/Trits.lean ====
section
/-! DEFINITION. Balanced-ternary arithmetic: the named functions of R8, trit fields (R2, R4), the
tritwise operations (R183), rounding to nearest (R33, R35), and tables of plain data. -/

namespace Sys2Proof.Machine

/-- 3^n. -/
def pow3 (n : Nat) : Int := Int.ofNat (Nat.pow 3 n)

/-- (3^n - 1)/2, the largest balanced value of n trits (R4). -/
def half (n : Nat) : Int := (pow3 n - 1) / 2

/-- wrap(x, n) of R8. -/
def wrap (x : Int) (n : Nat) : Int := (x + half n) % pow3 n - half n

/-- sat(x, n) of R8. -/
def sat (x : Int) (n : Nat) : Int :=
  if x > half n then half n else if x < - half n then - half n else x

/-- x without its k low trits, divided by 3^k: the nearest integer to x / 3^k (R33). -/
def shr (x : Int) (k : Nat) : Int := (x + half k) / pow3 k

/-- x[lo+n-1..lo], the balanced reading of n trits from position lo (R8). -/
def fld (x : Int) (lo n : Nat) : Int := wrap (shr x lo) n

/-- off(x[lo+n-1..lo]), the offset reading (R4). -/
def offF (x : Int) (lo n : Nat) : Nat := (fld x lo n + half n).toNat

/-- Trit i of x. -/
def trit (x : Int) (i : Nat) : Int := fld x i 1

/-- The n low trits of x, least significant first. -/
def trits : Nat → Int → List Int
  | 0, _ => []
  | n + 1, x => wrap x 1 :: trits n (shr x 1)

/-- The value of a trit list, least significant first (R2). -/
def ofTrits : List Int → Int
  | [] => 0
  | t :: ts => t + 3 * ofTrits ts

/-- Whether x is a legal value of an n-trit container (R29). -/
def inRange (x : Int) (n : Nat) : Bool := decide (- half n ≤ x) && decide (x ≤ half n)

/-- A binary operation applied trit by trit to n-trit values (R183). -/
def tritwise (f : Int → Int → Int) (n : Nat) (a b : Int) : Int :=
  ofTrits (List.zipWith f (trits n a) (trits n b))

/-- tsum of R8 on single trits. -/
def tsum1 (a b : Int) : Int := wrap (a + b) 1

/-- The consensus of two trits (R183). -/
def tcons1 (a b : Int) : Int := if a = b then a else 0

def tand (n : Nat) (a b : Int) : Int := tritwise min n a b
def tor (n : Nat) (a b : Int) : Int := tritwise max n a b
def tsum (n : Nat) (a b : Int) : Int := tritwise tsum1 n a b
def tmult (n : Nat) (a b : Int) : Int := tritwise (· * ·) n a b
def tcons (n : Nat) (a b : Int) : Int := tritwise tcons1 n a b

/-- The sign of an integer as a trit. -/
def sgn (x : Int) : Int := if x < 0 then -1 else if x = 0 then 0 else 1

/-- The integer nearest to p / q for q > 0, a midway value going to the even one (R35). -/
def nearestPos (p q : Int) : Int :=
  let f := p / q
  let r := p % q
  if 2 * r < q then f else if 2 * r > q then f + 1 else if f % 2 = 0 then f else f + 1

/-- The integer nearest to p / q for q ≠ 0, ties to even (R35). -/
def nearest (p q : Int) : Int := if q < 0 then nearestPos (-p) (-q) else nearestPos p q

/-- The number of trits of x equal to v among the n low ones (R186). -/
def countTrits (n : Nat) (v x : Int) : Nat := (trits n x).countP (· = v)

/-- Zero trits above the most significant nonzero trit of an n-trit value (R186). -/
def leadingZeros (n : Nat) (x : Int) : Nat := ((trits n x).reverse.takeWhile (· = 0)).length

/-- Rotation of the n trits of x by s places upward (R184). -/
def rotl (n s : Nat) (x : Int) : Int :=
  let ts := trits n x
  ofTrits (ts.drop (n - s) ++ ts.take (n - s))

/-- SHL of R184 for a count of any sign. -/
def shiftL (n : Nat) (a k : Int) : Int :=
  if k ≥ 0 then (if k ≥ n then 0 else wrap (a * pow3 k.toNat) n)
  else if -k ≥ n then 0 else shr a (-k).toNat

/-- SHR of R184 for a count of any sign. -/
def shiftR (n : Nat) (a k : Int) : Int := shiftL n a (-k)

/-- Replaces trits lo+n-1..lo of x by the n low trits of v. -/
def setFld (x : Int) (lo n : Nat) (v : Int) : Int := x + (wrap v n - fld x lo n) * pow3 lo

/-- Part j of a word of three trytes (R172). -/
def part (x : Int) (j : Nat) : Int := fld x (9 * j) 9

/-- A word from three trytes, tryte 0 first (R172). -/
def ofParts (a b c : Int) : Int := a + b * pow3 9 + c * pow3 18

/-- The balanced dword of a register pair (R30). -/
def pair (lo hi : Int) : Int := lo + hi * pow3 27

/-- The low and high words of a dword (R30). -/
def loW (x : Int) : Int := wrap x 27
def hiW (x : Int) : Int := fld x 27 27

/-! Tables of plain data. -/

/-- What a table holds at a key: the listed value, or the default. -/
def Tab.get {α : Type} (z : α) : Tab α → Nat → α
  | [], _ => z
  | (j, v) :: t, k => if j = k then v else Tab.get z t k

/-- The value listed at a key, if any. -/
def Tab.find {α : Type} : Tab α → Nat → Option α
  | [], _ => none
  | (j, v) :: t, k => if j = k then some v else Tab.find t k

/-- Writes an entry, keeping rising keys rising. -/
def Tab.put {α : Type} (k : Nat) (v : α) : Tab α → Tab α
  | [] => [(k, v)]
  | (j, w) :: t =>
    if k < j then (k, v) :: (j, w) :: t
    else if k = j then (k, v) :: t
    else (j, w) :: Tab.put k v t

/-- Removes every entry at a key. -/
def Tab.del {α : Type} (k : Nat) : Tab α → Tab α
  | [] => []
  | (j, w) :: t => if j = k then Tab.del k t else (j, w) :: Tab.del k t

/-- Writes a value in canonical form: the default leaves no entry. -/
def Tab.set {α : Type} [DecidableEq α] (z : α) (k : Nat) (v : α) (t : Tab α) : Tab α :=
  if v = z then Tab.del k t else Tab.put k v t

/-- The keys rise strictly. -/
def Tab.sorted {α : Type} : Tab α → Bool
  | [] => true
  | [_] => true
  | (j, _) :: (k, w) :: t => decide (j < k) && Tab.sorted ((k, w) :: t)

/-- Natural-number key of a signed index of fewer than 54 trits. -/
def ikey (x : Int) : Nat := (x + half 54).toNat

end Sys2Proof.Machine
end

