-- ==== Sys2Proof/Machine/Float.lean ====
section
/-! DEFINITION. The float formats T27F, T9F and T9S and the arithmetic that rounds once
(R38-R45, R197-R208, R295, R307, R339). -/

namespace Sys2Proof.Machine

/-- The parameters of a float format (R41): fraction trits, exponent range of the finite values. -/
structure FmtF where
  p : Nat
  emin : Int
  emax : Int
  et : Nat
  deriving DecidableEq, Repr

/-- T27F (R38). -/
def f27 : FmtF := { p := 21, emin := -121, emax := 120, et := 5 }
/-- T9F (R44). -/
def f9 : FmtF := { p := 5, emin := -13, emax := 12, et := 3 }

/-- The exact value of a float operand (R39): a NaN, an infinity of a sign, or m * 3^e. -/
inductive FVal where
  | nan
  | inf (s : Int)
  | fin (m : Int) (e : Int)
  deriving DecidableEq, Repr

/-- floor(log3 n) for n ≥ 1, by at most `fuel` tests. -/
def log3 : Nat → Nat → Nat → Nat
  | 0, k, _ => k
  | fuel + 1, k, n => if n < 3 then k else log3 fuel (k + 1) (n / 3)

/-- The number of trits that a log3 of n needs. -/
def flog3 (n : Nat) : Nat := log3 (n.log2 + 1) 0 n

/-- The exponent e of R41 of a nonzero |x| = p / q: the one with 3^e ≤ 2p/q < 3^(e+1). -/
def expOf (p q : Nat) : Int :=
  if 2 * p ≥ q then Int.ofNat (flog3 (2 * p / q))
  else
    let k := flog3 (q / (2 * p))
    if pow3 k * (2 * p) ≥ q then -(Int.ofNat k) else -(Int.ofNat k) - 1

/-- The encoding of exponent e and significand integer M (R38, R44). -/
def encF (f : FmtF) (e m : Int) : Int := e * pow3 (f.p + 1) + m

def nanF (f : FmtF) : Int := encF f (f.emax + 1) 0
def infF (f : FmtF) (s : Int) : Int := encF f (f.emax + 1) (sgn s * pow3 f.p)

/-- round_F of R41 on the rational p / q * 3^k (q > 0). -/
def roundQ (f : FmtF) (p q k : Int) : Int :=
  if p = 0 then 0
  else
    let e0 := expOf p.natAbs q.toNat + k
    if e0 > f.emax then infF f p
    else
      let e := if e0 < f.emin then f.emin else e0
      -- q := x / 3^(e - P)
      let sh := k - (e - f.p)
      let m := if sh ≥ 0 then nearest (p * pow3 sh.toNat) q else nearest p (q * pow3 (-sh).toNat)
      if m = 0 then 0 else encF f e m

/-- round_F of R41 on an exact operand value. -/
def roundF (f : FmtF) : FVal → Int
  | .nan => nanF f
  | .inf s => infF f s
  | .fin m e => roundQ f m 1 e

/-- Exponent and significand integer of an encoding (R38). -/
def expF (f : FmtF) (x : Int) : Int := fld x (f.p + 1) f.et
def sigF (f : FmtF) (x : Int) : Int := wrap x (f.p + 1)

/-- The value of an encoding (R39). -/
def valF (f : FmtF) (x : Int) : FVal :=
  let e := expF f x
  let m := sigF f x
  if e = f.emax + 1 then
    (if m = pow3 f.p then .inf 1 else if m = - pow3 f.p then .inf (-1) else .nan)
  else if m = 0 then .fin 0 0 else .fin m (e - f.p)

/-- Exact sum of two finite values. -/
def addFin (m e n g : Int) : FVal :=
  let l := min e g
  .fin (m * pow3 (e - l).toNat + n * pow3 (g - l).toNat) l

/-- A + B with the specials of R202. -/
def addV : FVal → FVal → FVal
  | .nan, _ => .nan
  | _, .nan => .nan
  | .inf s, .inf t => if s = t then .inf s else .nan
  | .inf s, _ => .inf s
  | _, .inf t => .inf t
  | .fin m e, .fin n g => addFin m e n g

/-- -A. -/
def negV : FVal → FVal
  | .nan => .nan
  | .inf s => .inf (-s)
  | .fin m e => .fin (-m) e

/-- |A|. -/
def absV : FVal → FVal
  | .nan => .nan
  | .inf _ => .inf 1
  | .fin m e => .fin m.natAbs e

/-- A * B with the specials of R202. -/
def mulV : FVal → FVal → FVal
  | .nan, _ => .nan
  | _, .nan => .nan
  | .inf s, .inf t => .inf (s * t)
  | .inf s, .fin n _ => if n = 0 then .nan else .inf (s * sgn n)
  | .fin n _, .inf s => if n = 0 then .nan else .inf (s * sgn n)
  | .fin m e, .fin n g => .fin (m * n) (e + g)

/-- A scaled by 3^k; beyond the clamp every result of a format is the same (R201, R41). -/
def scaleV (k : Int) : FVal → FVal
  | .nan => .nan
  | .inf s => .inf s
  | .fin m e => .fin m (e + (if k > 1000 then 1000 else if k < -1000 then -1000 else k))

/-- Sign of A - B of two values that are no NaN; none when either is NaN (R205). -/
def cmpV : FVal → FVal → Option Int
  | .nan, _ => none
  | _, .nan => none
  | .inf s, .inf t => some (sgn (s - t))
  | .inf s, .fin _ _ => some s
  | .fin _ _, .inf t => some (-t)
  | .fin m e, .fin n g =>
    let l := min e g
    some (sgn (m * pow3 (e - l).toNat - n * pow3 (g - l).toNat))

/-- FMIN and FMAX (R203). -/
def minV (a b : FVal) : FVal :=
  match cmpV a b with
  | none => .nan
  | some c => if c ≤ 0 then a else b
def maxV (a b : FVal) : FVal :=
  match cmpV a b with
  | none => .nan
  | some c => if c ≥ 0 then a else b

/-- The integer nearest to m * 3^e (R194, R33). -/
def nearestFin (m e : Int) : Int := if e ≥ 0 then m * pow3 e.toNat else shr m (-e).toNat

/-- FRND to a multiple of 3^k (R207). Past the clamp every finite operand gives the same result. -/
def rndV (k0 : Int) : FVal → FVal
  | .fin m e =>
    let k := if k0 > 400 then 400 else if k0 < -400 then -400 else k0
    if e ≥ k then .fin m e else .fin (nearestFin m (e - k)) k
  | v => v

/-- The class code of FCLASS (R206): class plus 27 when the encoding is not canonical. -/
def classF (f : FmtF) (x : Int) : Int :=
  let e := expF f x
  let m := sigF f x
  let canon := roundF f (valF f x) = x
  let n : Int := if canon then 0 else 27
  if e = f.emax + 1 then
    (if m = pow3 f.p then 4 else if m = - pow3 f.p then -4 else 9 + n)
  else if m = 0 then n
  else if e = f.emin then sgn m + n
  else if trit x f.p = 0 then 2 * sgn m + n
  else 3 * sgn m + n

/-- Whether a tryte is a valid T9S scale (R45). -/
def validScale (x : Int) : Bool := decide (trit x 5 = 1) && decide (expF f9 x ≤ 12)

/-- The unit scale 1.0 (R45). -/
def unitScale : Int := 243

/-- A scale after the validity check of R45: the scale used, and whether SCALE is set. -/
def useScale (x : Int) : Int × Bool :=
  let t := wrap x 9
  if validScale t then (t, false) else (unitScale, true)

/-- Value of a valid scale as significand and exponent. -/
def scaleM (x : Int) : Int := sigF f9 x
def scaleE (x : Int) : Int := expF f9 x - 5

/-- round_T27F(sa * sb / so) of R295, and sr / so of R305 with sb = 1.0. -/
def combScale (sa sb so : Int) : Int :=
  roundQ f27 (scaleM sa * scaleM sb) (scaleM so) (scaleE sa + scaleE sb - scaleE so)

/-- p / q * 3^k as a comparison of two positive rationals: p/q*3^k ≤ r*3^j. -/
def leScaled (p q k r j : Int) : Bool :=
  let l := min k j
  decide (p * pow3 (k - l).toNat ≤ r * q * pow3 (j - l).toNat)

/-- The smallest valid T9S at or above a positive p / q * 3^k inside the range of R307. -/
def scaleCeil (p q k : Int) : Int :=
  let e := expOf p.natAbs q.toNat + k
  let sh := k - (e - 5)
  let num := if sh ≥ 0 then p * pow3 sh.toNat else p
  let den := if sh ≥ 0 then q else q * pow3 (-sh).toNat
  let m := -((-num) / den)
  -- above 364/243 the next exponent starts at 122/243
  if m > 364 then encF f9 (e + 1) 122 else if m < 122 then encF f9 e 122 else encF f9 e m

end Sys2Proof.Machine
end

