-- ==== Sys2Proof/Machine/Binary.lean ====
section
/-! DEFINITION. The binary element types and their conversions (R46-R49, R55, R215, R232). -/

namespace Sys2Proof.Machine

/-- Binary element types, in the codes of R215. -/
inductive BType where
  | i8 | u8 | i16 | u16 | i32 | u32 | i64 | u64 | h16 | bf16 | f32
  deriving DecidableEq, Repr

/-- Ternary element types, in the codes of R215. -/
inductive TType where
  | t27 | t9 | t54 | f27 | f9
  deriving DecidableEq, Repr

def BType.code : BType → Nat
  | .i8 => 0 | .u8 => 1 | .i16 => 2 | .u16 => 3 | .i32 => 4 | .u32 => 5
  | .i64 => 6 | .u64 => 7 | .h16 => 8 | .bf16 => 9 | .f32 => 10

def BType.ofCode : Int → Option BType
  | 0 => some .i8 | 1 => some .u8 | 2 => some .i16 | 3 => some .u16 | 4 => some .i32
  | 5 => some .u32 | 6 => some .i64 | 7 => some .u64 | 8 => some .h16 | 9 => some .bf16
  | 10 => some .f32 | _ => none

def TType.code : TType → Nat
  | .t27 => 0 | .t9 => 1 | .t54 => 2 | .f27 => 3 | .f9 => 4

def TType.ofCode : Int → Option TType
  | 0 => some .t27 | 1 => some .t9 | 2 => some .t54 | 3 => some .f27 | 4 => some .f9 | _ => none

/-- Byte count n of a binary type (R215). -/
def BType.bytes : BType → Nat
  | .i8 => 1 | .u8 => 1 | .i16 => 2 | .u16 => 2 | .i32 => 4 | .u32 => 4
  | .i64 => 8 | .u64 => 8 | .h16 => 2 | .bf16 => 2 | .f32 => 4

def BType.isFloat : BType → Bool
  | .h16 => true | .bf16 => true | .f32 => true | _ => false

def BType.signed : BType → Bool
  | .i8 => true | .i16 => true | .i32 => true | .i64 => true | _ => false

def TType.isFloat : TType → Bool
  | .f27 => true | .f9 => true | _ => false

/-- Trits of a ternary type. -/
def TType.width : TType → Nat
  | .t27 => 27 | .t9 => 9 | .t54 => 54 | .f27 => 27 | .f9 => 9

/-- Trytes of a ternary type. -/
def TType.trytes (t : TType) : Nat := t.width / 9

/-- The pairings of LDB, and of .b2t (R215). -/
def pairLoad : BType → TType → Bool
  | .i8, .t9 => true | .i8, .t27 => true | .u8, .t9 => true | .u8, .t27 => true
  | .i16, .t9 => true | .i16, .t27 => true | .u16, .t9 => true | .u16, .t27 => true
  | .i32, .t27 => true | .u32, .t27 => true | .i64, .t54 => true | .u64, .t54 => true
  | .h16, .f9 => true | .h16, .f27 => true | .bf16, .f9 => true | .bf16, .f27 => true
  | .f32, .f9 => true | .f32, .f27 => true
  | _, _ => false

/-- The pairings of STB, and of .t2b (R215). -/
def pairStore : BType → TType → Bool
  | .i8, .t9 => true | .u8, .t9 => true | .i16, .t9 => true | .u16, .t9 => true
  | .i16, .t27 => true | .i32, .t27 => true | .u32, .t27 => true
  | .i64, .t54 => true | .u64, .t54 => true
  | .h16, .f9 => true | .h16, .f27 => true | .bf16, .f9 => true | .bf16, .f27 => true
  | .f32, .f9 => true | .f32, .f27 => true
  | _, _ => false

/-- Little-endian value of bytes (R55). -/
def ofBytes : List Nat → Nat
  | [] => 0
  | b :: bs => b + 256 * ofBytes bs

/-- The n little-endian bytes of a number (R55). -/
def toBytes : Nat → Nat → List Nat
  | 0, _ => []
  | n + 1, x => x % 256 :: toBytes n (x / 256)

/-- Range of an integer binary type (R46). -/
def BType.lo (b : BType) : Int := if b.signed then -(Int.ofNat (Nat.pow 2 (8 * b.bytes - 1))) else 0
def BType.hi (b : BType) : Int :=
  if b.signed then Int.ofNat (Nat.pow 2 (8 * b.bytes - 1)) - 1 else Int.ofNat (Nat.pow 2 (8 * b.bytes)) - 1

/-- The integer that bytes of an integer type hold (R46). -/
def BType.toInt (b : BType) (x : Nat) : Int :=
  if b.signed ∧ x ≥ Nat.pow 2 (8 * b.bytes - 1) then (x : Int) - Int.ofNat (Nat.pow 2 (8 * b.bytes)) else x

/-- The bit pattern of an integer in the range of a type. -/
def BType.ofInt (b : BType) (v : Int) : Nat := (v % Int.ofNat (Nat.pow 2 (8 * b.bytes))).toNat

/-- Fraction bits and exponent bits of a binary float type (R48). -/
def BType.fracBits : BType → Nat
  | .h16 => 10 | .bf16 => 7 | .f32 => 23 | _ => 0
def BType.expBits : BType → Nat
  | .h16 => 5 | .bf16 => 8 | .f32 => 8 | _ => 0

/-- R48: the ternary encoding of a binary float's bits. -/
def binToFloat (f : FmtF) (b : BType) (x : Nat) : Int :=
  let fb := b.fracBits
  let eb := b.expBits
  let frac := x % Nat.pow 2 fb
  let ex := x / Nat.pow 2 fb % Nat.pow 2 eb
  let neg := x / Nat.pow 2 (fb + eb) % 2 = 1
  let bias := Nat.pow 2 (eb - 1) - 1
  if ex = Nat.pow 2 eb - 1 then
    (if frac ≠ 0 then nanF f else infF f (if neg then -1 else 1))
  else
    let m : Int := if ex = 0 then frac else frac + Nat.pow 2 fb
    -- value m * 2^(max(ex,1) - bias - fb)
    let e : Int := (if ex = 0 then 1 else (ex : Int)) - bias - fb
    let m1 := if neg then -m else m
    if e ≥ 0 then roundQ f (m1 * Int.ofNat (Nat.pow 2 e.toNat)) 1 0
    else roundQ f m1 (Int.ofNat (Nat.pow 2 (-e).toNat)) 0

/-- 2-adic exponent: the e with 2^e ≤ p/q < 2^(e+1), for p, q > 0. -/
def exp2Of (p q : Nat) : Int :=
  if p ≥ q then Int.ofNat (Nat.log2 (p / q))
  else
    let k := Nat.log2 (q / p)
    if p * Nat.pow 2 k ≥ q then -(Int.ofNat k) else -(Int.ofNat k) - 1

/-- R49: the bits of a binary float nearest to a ternary value, ties to even. -/
def floatToBin (b : BType) (v : FVal) : Nat :=
  let fb := b.fracBits
  let eb := b.expBits
  let bias : Int := Int.ofNat (Nat.pow 2 (eb - 1)) - 1
  let sign (s : Bool) : Nat := if s then Nat.pow 2 (fb + eb) else 0
  let infBits := (Nat.pow 2 eb - 1) * Nat.pow 2 fb
  match v with
  | .nan => infBits + Nat.pow 2 (fb - 1)
  | .inf s => infBits + sign (decide (s < 0))
  | .fin m e =>
    if m = 0 then 0
    else
      let p := if e ≥ 0 then m.natAbs * (pow3 e.toNat).toNat else m.natAbs
      let q := if e ≥ 0 then 1 else (pow3 (-e).toNat).toNat
      let e2 := exp2Of p q
      let emin := 1 - bias
      let g := (if e2 < emin then emin else e2) - fb
      -- integer significand nearest to p/q / 2^g
      let n := if g ≥ 0 then nearestPos p ((q : Int) * Int.ofNat (Nat.pow 2 g.toNat))
               else nearestPos ((p : Int) * Int.ofNat (Nat.pow 2 (-g).toNat)) q
      -- a carry into the next exponent is arithmetic on the packed bits
      let bits := if e2 < emin then n.toNat
                  else ((e2 + bias).toNat * Nat.pow 2 fb + (n.toNat - Nat.pow 2 fb))
      -- what rounds to zero is +0
      if bits = 0 then 0 else (if bits ≥ infBits then infBits else bits) + sign (decide (m < 0))

/-- What a conversion gave: the exact value, or the nearer bound of R46 when the source is out of range. -/
structure Conv where
  val : Int
  out : Bool
  deriving DecidableEq, Repr

def clampConv (x lo hi : Int) : Conv :=
  if x < lo then { val := lo, out := true } else if x > hi then { val := hi, out := true }
  else { val := x, out := false }

/-- Binary element to ternary value (R46, R48). -/
def convIn (b : BType) (t : TType) (x : Nat) : Conv :=
  match t with
  | .f27 => { val := binToFloat f27 b x, out := false }
  | .f9 => { val := binToFloat f9 b x, out := false }
  | _ => clampConv (b.toInt x) (- half t.width) (half t.width)

/-- Ternary source to the bits of a binary element (R46, R49, R222). -/
def convOut (b : BType) (t : TType) (s : Int) : Conv :=
  match t with
  | .f27 => { val := floatToBin b (valF f27 s), out := false }
  | .f9 => { val := floatToBin b (valF f9 (wrap s 9)), out := false }
  | _ =>
    let c := clampConv (wrap s t.width) b.lo b.hi
    { val := b.ofInt c.val, out := c.out }

/-- The exact value of a binary float as a rational, or what it is instead (R339). -/
inductive BFloat where
  | nan
  | inf (s : Int)
  | rat (p : Int) (q : Nat)
  deriving DecidableEq, Repr

def binFloatVal (b : BType) (x : Nat) : BFloat :=
  let fb := b.fracBits
  let eb := b.expBits
  let frac := x % Nat.pow 2 fb
  let ex := x / Nat.pow 2 fb % Nat.pow 2 eb
  let neg := x / Nat.pow 2 (fb + eb) % 2 = 1
  let bias := Nat.pow 2 (eb - 1) - 1
  if ex = Nat.pow 2 eb - 1 then (if frac ≠ 0 then .nan else .inf (if neg then -1 else 1))
  else
    let m : Int := if ex = 0 then frac else frac + Nat.pow 2 fb
    let e : Int := (if ex = 0 then 1 else (ex : Int)) - bias - fb
    let m1 := if neg then -m else m
    if e ≥ 0 then .rat (m1 * Int.ofNat (Nat.pow 2 e.toNat)) 1
    else .rat m1 (Nat.pow 2 (-e).toNat)

end Sys2Proof.Machine
end

