-- ==== Sys2Proof/Syntax.lean ====
section
/-! DEFINITION. The table's rows as one inductive: the instruction forms of R163 with their operands, and
the events of the device with what names them. A register field is its register number 0..242 (R148), a
predicate field its predicate number. -/

namespace Sys2Proof

open Sys2Proof.Machine (BType TType)

/-- The scope of an access; `dflt` is code 0 (R214, R162). -/
inductive Scope where
  | dflt | thread | warp | block | cluster | die | pkg | domain | sys
  deriving DecidableEq, Repr

/-- The order kind of an access; `dflt` is code 0 (R214). -/
inductive Ord where
  | dflt | rlx | acq | rel | acqrel
  deriving DecidableEq, Repr

/-- The requested lease class; `page` is code 0 (R214). -/
inductive Lease where
  | page | l27 | l81 | l243
  deriving DecidableEq, Repr

/-- The size of an access (R214). -/
inductive Sz where
  | tr | wd | dw
  deriving DecidableEq, Repr

/-- The operation of an atomic, and of BARV (R229, R238). -/
inductive AOp where
  | add | adds | min | max | and | or | sum | xchg | fadd | fmin | fmax
  deriving DecidableEq, Repr

/-- The level of a barrier (R238). -/
inductive Level where
  | warp | block | cluster | die | domain
  deriving DecidableEq, Repr

/-- The operand format of rows 5 to 7 (R197). -/
inductive FFmt where
  | word | s9 | t3
  deriving DecidableEq, Repr

/-- A shift count: a register, or the field n5 (R184). -/
inductive Count where
  | reg (b : Nat)
  | imm (n : Nat)
  deriving DecidableEq, Repr

/-- Target widths of CVT (R176, R193). -/
inductive IntTy where
  | t27 | t9 | t6 | t3 | t1
  deriving DecidableEq, Repr

/-- Types of CVTF (R176, R194). -/
inductive CvtTy where
  | t27 | t9 | f27 | f9
  deriving DecidableEq, Repr

/-- Operand types of the Nib (R289). -/
inductive NTy where
  | t9 | t6 | t3 | t1
  deriving DecidableEq, Repr

/-- Output types of the Nib (R289). -/
inductive OTy where
  | t9 | t6 | t3 | t1 | f9
  deriving DecidableEq, Repr

/-- Planes of B (R293). -/
inductive PB where
  | p1 | p3 | p6 | p9
  deriving DecidableEq, Repr

/-- The mode of a copy (R316). -/
inductive CMode where
  | tt | raw | b2t | t2b | up6 | pk6 | q | sqp
  deriving DecidableEq, Repr

/-- The prefix PXS (R162). -/
structure Pxs where
  scope : Scope
  ord : Ord
  lease : Lease
  deriving DecidableEq, Repr

/-- What every unit holds besides its operands: guard, control trits, prefixes (R145, R160). -/
structure Hdr where
  gpred : Nat
  gcond : Nat
  lag : Int
  cede : Int
  last : Int
  pxi : Option Int
  pxs : Option Pxs
  pxiFirst : Bool
  deriving DecidableEq, Repr

/-- A memory operand (R155): base pair, index register, scale exponent, displacement. -/
structure MOp where
  a : Nat
  b : Nat
  k : Nat
  disp : Int
  deriving DecidableEq, Repr

/-- Order and scope of an access (R214). -/
structure Acc where
  ord : Ord
  scope : Scope
  deriving DecidableEq, Repr

/-- When a timed instruction falls due: at the pair in c, or after issue (R238). -/
inductive When where
  | at_ (c : Nat)
  | after
  deriving DecidableEq, Repr

/-- The options of a copy (R316, R317). -/
structure CpOpt where
  mode : CMode
  tok : Bool
  sring : Option Nat
  dring : Option Nat
  btype : BType
  tty : TType
  qw : Nat
  tag : Int
  deriving DecidableEq, Repr

/-- The register operands and options of MDRAIN (R305). -/
structure DrainOp where
  res : Bool
  drop : Bool
  z : Bool
  tok : Bool
  slot : Nat
  ro : Nat
  rr : Nat
  a : Nat
  b : Nat
  c : Nat
  deriving DecidableEq, Repr

/-- The configuration that MCFG's imm holds (R293). -/
structure CfgOp where
  slot : Nat
  atype : NTy
  btype : NTy
  otype : OTy
  pa : Nat
  pb : PB
  otag : Int
  deriving DecidableEq, Repr

/-- What a barrier's signal says: how many blocks arrive, and the sender's count when it left (R83, R121). -/
structure Arrivals where
  blocks : Nat
  sent : Int
  deriving DecidableEq, Repr

/-- The messages of an SPDM requester's algorithm negotiation (R465). -/
structure SpdmAlg where
  asym : Bool
  hash : Bool
  deriving DecidableEq, Repr

/-- One row of the table: an instruction with its operands, or an event with its parameters. A warp is
named by (core key) * 28 + wid, a thread by (warp key) * 16 + lane, a core by die * 81 + core. -/
inductive Instr where
  -- rows 0 to 4
  | add (h : Hdr) (t3 sat : Bool) (d a b : Nat)
  | addi (h : Hdr) (t3 sat x : Bool) (d a : Nat) (imm : Int)
  | sub (h : Hdr) (t3 sat : Bool) (d a b : Nat)
  | neg (h : Hdr) (t3 : Bool) (d a : Nat)
  | abs (h : Hdr) (t3 : Bool) (d a : Nat)
  | sgn (h : Hdr) (t3 : Bool) (d a : Nat)
  | mul (h : Hdr) (t3 sat : Bool) (d a b : Nat)
  | mulh (h : Hdr) (t3 : Bool) (d a b : Nat)
  | mulw (h : Hdr) (d a b : Nat)
  | mad (h : Hdr) (t3 sat : Bool) (d a b c : Nat)
  | div (h : Hdr) (t3 : Bool) (d a b : Nat)
  | rem (h : Hdr) (t3 : Bool) (d a b : Nat)
  | min (h : Hdr) (t3 : Bool) (d a b : Nat)
  | max (h : Hdr) (t3 : Bool) (d a b : Nat)
  | clamp (h : Hdr) (t3 : Bool) (d a b c : Nat)
  | addx (h : Hdr) (d a b : Nat)
  | subx (h : Hdr) (d a b : Nat)
  | lea (h : Hdr) (d : Nat) (m : MOp)
  | cmp (h : Hdr) (t3 x : Bool) (d a b : Nat)
  | cmpi (h : Hdr) (x : Bool) (d a : Nat) (imm : Int)
  | tand (h : Hdr) (d a b : Nat)
  | tor (h : Hdr) (d a b : Nat)
  | tsum (h : Hdr) (d a b : Nat)
  | tmult (h : Hdr) (d a b : Nat)
  | tcons (h : Hdr) (d a b : Nat)
  | shl (h : Hdr) (t3 : Bool) (d a : Nat) (n : Count)
  | shr (h : Hdr) (t3 : Bool) (d a : Nat) (n : Count)
  | rot (h : Hdr) (t3 : Bool) (d a : Nat) (n : Count)
  | fext (h : Hdr) (d a l w : Nat)
  | fins (h : Hdr) (d a b l w : Nat)
  | tcnt (h : Hdr) (v : Int) (d a : Nat)
  | tlz (h : Hdr) (d a : Nat)
  | trev (h : Hdr) (d a : Nat)
  | mov (h : Hdr) (x : Bool) (d a : Nat)
  | movNb (h : Hdr) (d a c : Nat)
  | movi (h : Hdr) (x : Bool) (d : Nat) (imm : Int)
  | sel3 (h : Hdr) (p d a b c : Nat)
  | pset (h : Hdr) (d : Nat) (v : Int)
  | psetTrit (h : Hdr) (d a t : Nat)
  | pmov (h : Hdr) (d a : Nat)
  | pmovTw (h : Hdr) (d a : Nat)
  | pmovFw (h : Hdr) (d a : Nat)
  | pand (h : Hdr) (d a b : Nat)
  | por (h : Hdr) (d a b : Nat)
  | pnot (h : Hdr) (d a : Nat)
  | cvt (h : Hdr) (t3 sat : Bool) (ty : IntTy) (d a : Nat)
  | cvtf (h : Hdr) (sat : Bool) (ty dty : CvtTy) (d a : Nat)
  | rng (h : Hdr) (d a b : Nat)
  -- rows 5 to 7
  | fadd (h : Hdr) (f : FFmt) (d a b : Nat)
  | fsub (h : Hdr) (f : FFmt) (d a b : Nat)
  | fmul (h : Hdr) (f : FFmt) (d a b : Nat)
  | ffma (h : Hdr) (f : FFmt) (d a b c : Nat)
  | fmin (h : Hdr) (f : FFmt) (d a b : Nat)
  | fmax (h : Hdr) (f : FFmt) (d a b : Nat)
  | fneg (h : Hdr) (f : FFmt) (d a : Nat)
  | fabs (h : Hdr) (f : FFmt) (d a : Nat)
  | fscl (h : Hdr) (f : FFmt) (d a b : Nat) (imm : Int)
  | fcmp (h : Hdr) (f : FFmt) (d a b : Nat)
  | fclass (h : Hdr) (f : FFmt) (d a : Nat)
  | frnd (h : Hdr) (f : FFmt) (d a : Nat) (imm : Int)
  | fcvtF9 (h : Hdr) (d a : Nat)
  | fcvtF27 (h : Hdr) (d a : Nat)
  | fdiv (h : Hdr) (f : FFmt) (d a b : Nat)
  | fsqrt (h : Hdr) (f : FFmt) (d a : Nat)
  | frcp (h : Hdr) (f : FFmt) (d a : Nat)
  | frsq (h : Hdr) (f : FFmt) (d a : Nat)
  | fexp (h : Hdr) (f : FFmt) (d a : Nat)
  | fexp3 (h : Hdr) (f : FFmt) (d a : Nat)
  | flog (h : Hdr) (f : FFmt) (d a : Nat)
  | flog3 (h : Hdr) (f : FFmt) (d a : Nat)
  | fsin (h : Hdr) (f : FFmt) (d a : Nat)
  | fcos (h : Hdr) (f : FFmt) (d a : Nat)
  | ftanh (h : Hdr) (f : FFmt) (d a : Nat)
  | fsigm (h : Hdr) (f : FFmt) (d a : Nat)
  | ferf (h : Hdr) (f : FFmt) (d a : Nat)
  | functionResultWrite (w : Nat)
  -- rows 8 to 10
  | ld (h : Hdr) (sz : Sz) (o : Acc) (lease : Lease) (d : Nat) (m : MOp)
  | st (h : Hdr) (sz : Sz) (o : Acc) (d : Nat) (m : MOp)
  | ldb (h : Hdr) (bt : BType) (tt : TType) (sat : Bool) (o : Acc) (d : Nat) (m : MOp)
  | stb (h : Hdr) (bt : BType) (tt : TType) (sat : Bool) (o : Acc) (d : Nat) (m : MOp)
  | ldnb (h : Hdr) (sz : Sz) (o : Acc) (lease : Lease) (d : Nat) (m : MOp) (c : Nat)
  | stva (h : Hdr) (sz : Sz) (o : Acc) (d : Nat) (m : MOp) (c : Nat)
  | pref (h : Hdr) (lease : Lease) (m : MOp)
  | wb (h : Hdr) (m : MOp)
  | wbAll (h : Hdr)
  | inv (h : Hdr) (m : MOp)
  | invAll (h : Hdr)
  | atom (h : Hdr) (op : AOp) (sz : Sz) (o : Acc) (d : Nat) (m : MOp) (c : Nat)
  | cas (h : Hdr) (sz : Sz) (o : Acc) (d : Nat) (m : MOp) (c : Nat)
  | red (h : Hdr) (op : AOp) (sz : Sz) (o : Acc) (m : MOp) (c : Nat)
  | atomo (h : Hdr) (op : AOp) (sz : Sz) (o : Acc) (d a k : Nat) (disp : Int) (c : Nat)
  -- rows 11 and 12
  | fence (h : Hdr) (o : Acc)
  | fenceComplete (w : Nat)
  | tnow (h : Hdr) (d : Nat)
  | twait (h : Hdr) (t : When) (scope : Scope) (imm : Int)
  | timedWaitDeadline (t : Nat)
  | talarm (h : Hdr) (t : When) (a : Nat) (imm : Int)
  | alarmDue (c : Nat)
  | bar (h : Hdr) (l : Level) (k : Nat) (rlx : Bool)
  | bara (h : Hdr) (l : Level) (k : Nat) (rlx : Bool) (d : Nat)
  | barw (h : Hdr) (l : Level) (k : Nat) (rlx : Bool) (a : Nat)
  | barv (h : Hdr) (l : Level) (k : Nat) (rlx : Bool) (op : AOp) (a b : Nat) (n : Int)
  | barrierPhaseComplete (l : Level) (key k : Nat)
  | barrierSignal (key k : Nat) (n : Arrivals) (op : Option (AOp × Nat)) (part : List Int)
  | tkt (h : Hdr) (s : Nat) (d : Nat) (m : MOp)
  | tktOpen (h : Hdr) (s : Nat) (m : MOp)
  | tktClose (h : Hdr) (s : Nat) (m : MOp)
  | tkp (h : Hdr) (m : MOp) (c : Nat)
  | msg (h : Hdr) (rlx : Bool) (a b : Nat) (nb : Option Nat)
  | messageArrival (id : Nat)
  | qstat (h : Hdr) (d a : Nat)
  | queueServe (w : Nat)
  | draft (h : Hdr) (imm : Int)
  | ink (h : Hdr)
  | draftPrepare (id : Nat)
  | draftDecision (w : Nat)
  | draftCommitArrival (id : Nat)
  | inkRetire (w : Nat)
  | erase (h : Hdr) (code : Int)
  | dstat (h : Hdr) (d : Nat)
  -- rows 13 and 14
  | br (h : Hdr) (imm : Int)
  | call (h : Hdr) (d : Nat) (imm : Int)
  | callt (h : Hdr) (d a : Nat) (sig : Int)
  | ret (h : Hdr) (a : Nat)
  | setmr (h : Hdr) (imm : Int)
  | setmrClr (h : Hdr)
  | movmrGet (h : Hdr) (d : Nat)
  | movmrPut (h : Hdr) (a : Nat)
  | exit (h : Hdr)
  | brk (h : Hdr) (code : Int)
  | trap (h : Hdr) (code : Int)
  | yld (h : Hdr)
  | nop (h : Hdr)
  | hint (raw : Int)
  | spawn (h : Hdr) (a b : Nat) (imm : Int)
  | spawnBinTimer (c b : Nat)
  | spawnWarpCreate (c b : Nat)
  | rclaim (h : Hdr) (g : Int)
  | rgive (h : Hdr) (g : Int)
  | claimGrant (c : Nat)
  | wait (h : Hdr) (bld bst bcp btl : Nat)
  | icpf (h : Hdr) (cnt : Nat) (imm : Int)
  | ifence (h : Hdr)
  | icinv (h : Hdr) (imm : Int)
  | icinvAll (h : Hdr)
  | instructionFetchFill (id : Nat)
  -- rows 15 and 16
  | mcfg (h : Hdr) (a : Nat) (g : CfgOp)
  | ring (h : Hdr) (r first count : Nat)
  | fstat (h : Hdr) (wsel d a : Nat) (off : Int)
  | fsetReady (h : Hdr) (full : Bool) (a b : Nat) (off : Int)
  | fsetEmpty (h : Hdr) (full : Bool) (a : Nat) (off : Int)
  | mzero (h : Hdr) (slot : Nat)
  | mloop (h : Hdr) (bhold tok : Bool) (a slot ra rb kc : Nat)
  | mrdy (h : Hdr)
  | mdrain (h : Hdr) (o : DrainOp)
  | qscale (h : Hdr) (tok : Bool) (d c slot : Nat)
  | fitr (h : Hdr) (clr : Bool) (d slot : Nat)
  | mbudg (h : Hdr) (d : Nat)
  | nibStepStart (c : Nat)
  | nibStepComplete (c : Nat)
  | nibZeroPerform (c : Nat)
  | nibDrainComplete (c : Nat)
  | nibQscaleComplete (c : Nat)
  | nibCommandComplete (c : Nat)
  | budgetRefill (die : Nat)
  -- row 17
  | cpy (h : Hdr) (o : CpOpt) (d a b : Nat)
  | cpys (h : Hdr) (o : CpOpt) (d a c : Nat)
  | cpyg (h : Hdr) (o : CpOpt) (d a b c : Nat)
  | cpyx (h : Hdr) (o : CpOpt) (d a b c : Nat)
  | cpyc (h : Hdr) (tok : Bool) (tag : Int) (d a b : Nat)
  | cpyv (h : Hdr) (tok : Bool) (tag : Int) (d a b : Nat)
  | copyElementTransfer (c i : Nat)
  | scaleQueueMatch (c i : Nat)
  | copyStop (c i : Nat)
  | copyComplete (c i : Nat)
  | scrb (h : Hdr) (a b len g : Nat) (imm : Int)
  | scrh (h : Hdr) (d : Nat)
  | scrhStop (h : Hdr) (d : Nat)
  | sloop (h : Hdr) (a : Nat) (k : Int) (len : Nat)
  | scribeProgramEnd (c : Nat)
  | decode (ctx bid : Nat)
  | decodeFlush (ctx bid : Nat)
  | decodeReset (ctx bid : Nat)
  | decodeFrameOutput (ctx bid : Nat)
  -- row 18
  | phase (h : Hdr)
  | phaseEnd (ctx : Nat)
  -- row 19 and the system events
  | csrr (h : Hdr) (d n : Nat)
  | csrw (h : Hdr) (a n : Nat)
  | tret (h : Hdr)
  | clrc (h : Hdr) (mask : Int)
  | launch (h : Hdr) (d a : Nat)
  | launchRes (h : Hdr) (d a b : Nat)
  | kill (h : Hdr) (a : Nat)
  | killComplete (ctx : Nat)
  | preempt (h : Hdr) (a : Nat)
  | preemptBlk (h : Hdr) (a b : Nat)
  | saveComplete (ctx bid : Nat)
  | replay (h : Hdr) (d a b : Nat)
  | deny (h : Hdr) (a b : Nat)
  | tlbi (h : Hdr) (a b : Nat)
  | tlbiCtx (h : Hdr) (a b : Nat)
  | tlbiDie (h : Hdr) (b : Nat)
  | halt (h : Hdr)
  | trapEntry (w : Nat)
  | doubleTrap (w : Nat)
  | unhandledTrap (w : Nat)
  | deferredCause (t : Nat)
  | hang (ctx : Nat)
  | loadReply (id : Nat)
  | writeCompletion (id : Nat)
  | homeRequest (id : Nat)
  | sectorFill (id : Nat)
  | l1Fill (id : Nat)
  | leaseEnd (c : Nat) (line : Int)
  | l1Eviction (c : Nat) (line : Int)
  | l2Eviction (sec : Nat)
  | stvaArrival (id : Nat)
  | stvaPerform (id : Nat)
  | atomoArrival (id : Nat)
  | atomoResend (id : Nat)
  | blockEnd (ctx bid : Nat)
  | vellumWindowEnd (id : Nat)
  | vwinAdvance (die : Nat)
  | pageFault (id : Nat)
  | faultRecordPush (die : Nat)
  | deferredWriteBackFault (id : Nat)
  | blockEligible (ctx bid : Nat)
  | placement (die : Nat)
  | blockStart (ctx bid : Nat)
  | contextCompletion (ctx : Nat)
  | hostWrite (req : Nat)
  | powerUp
  | getVersion
  | getCapabilities
  | getDigests
  | holdoverEntry
  | holdoverExit
  | hairlineArrival (id : Nat)
  | hairlineUndeliverable (id : Nat)
  | ownerAnswer (id : Nat)
  | syncInterval
  -- what reaches the package from outside
  | inbox (req part addr : Nat) (bytes : List (BitVec 8))
  | sectorApertureRead (req part off n : Nat)
  | sectorApertureWrite (req part off : Nat) (bytes : List (BitVec 8))
  | windowApertureRead (req part off n : Nat)
  | windowApertureWrite (req part off : Nat) (bytes : List (BitVec 8))
  | flush (part : Nat)
  | claim (master : Nat) (value : Nat)
  | partctlApply (master : Nat)
  | mgmtRegisterWrite (master addr value : Nat)
  | functionLevelReset (fn : Nat)
  | fwgo (master : Nat)
  | bringUpComplete (ok : Bool)
  | getCertificate (slot off len : Nat)
  | challenge (slot nonce : Nat)
  | getMeasurements (idx nonce : Nat)
  | spdmUnsupportedRequest (code : Nat)
  | negotiateAlgorithms (alg : SpdmAlg)
  | powerWindow (watts temp : Nat)
  | thermalShutdown (temp : Nat)
  | sync (offset : Int) (accepted : Bool)
  | softError (store key : Nat) (fatal : Bool)
  | atsTranslationCompletion (id : Nat) (spa : Option Nat)
  | hairlinePortTraining (port : Nat) (ok : Bool)
  | pdelay (port : Nat) (delay : Option Int)
  | firmwareWindowWrite (master off : Nat) (bytes : List (BitVec 8))
  | priResponse (grp : Nat) (ok : Bool)
  | atsInvalidation (pasid page : Nat)
  deriving DecidableEq, Repr

end Sys2Proof
end

