-- ==== Sys2Proof/Machine/Codes.lean ====
section
/-! DEFINITION. The codes of the modifier sub-fields (R162, R176, R200, R214, R238, R289, R316) and the
fields of one 81-trit unit (R145). -/

namespace Sys2Proof

open Sys2Proof.Machine

def Scope.code : Scope → Int
  | .dflt => 0 | .thread => 1 | .warp => 2 | .block => 3 | .cluster => 4 | .die => 5 | .pkg => 6
  | .domain => 7 | .sys => 8
def Scope.ofCode (x : Int) : Scope :=
  if x = 1 then .thread else if x = 2 then .warp else if x = 3 then .block else if x = 4 then .cluster
  else if x = 5 then .die else if x = 6 then .pkg else if x = 7 then .domain else if x = 8 then .sys
  else .dflt

def Ord.code : Ord → Int
  | .dflt => 0 | .rlx => 1 | .acq => 2 | .rel => 3 | .acqrel => 4
def Ord.ofCode (x : Int) : Ord :=
  if x = 1 then .rlx else if x = 2 then .acq else if x = 3 then .rel else if x = 4 then .acqrel else .dflt

def Lease.code : Lease → Int
  | .page => 0 | .l27 => 1 | .l81 => 2 | .l243 => 3
def Lease.ofCode (x : Int) : Lease :=
  if x = 1 then .l27 else if x = 2 then .l81 else if x = 3 then .l243 else .page

def Sz.code : Sz → Int
  | .tr => -1 | .wd => 0 | .dw => 1
def Sz.ofCode (x : Int) : Sz := if x = -1 then .tr else if x = 1 then .dw else .wd

def AOp.code : AOp → Int
  | .add => 0 | .adds => 1 | .min => 2 | .max => 3 | .and => 4 | .or => 5 | .sum => 6 | .xchg => 7
  | .fadd => 8 | .fmin => 9 | .fmax => 10
def AOp.ofCode (x : Int) : AOp :=
  if x = 1 then .adds else if x = 2 then .min else if x = 3 then .max else if x = 4 then .and
  else if x = 5 then .or else if x = 6 then .sum else if x = 7 then .xchg else if x = 8 then .fadd
  else if x = 9 then .fmin else if x = 10 then .fmax else .add

def Level.code : Level → Int
  | .warp => 1 | .block => 2 | .cluster => 3 | .die => 4 | .domain => 5
def Level.ofCode (x : Int) : Level :=
  if x = 2 then .block else if x = 3 then .cluster else if x = 4 then .die else if x = 5 then .domain
  else .warp

def IntTy.code : IntTy → Nat
  | .t27 => 0 | .t9 => 1 | .t6 => 2 | .t3 => 3 | .t1 => 4
def IntTy.ofCode (x : Nat) : IntTy :=
  if x = 1 then .t9 else if x = 2 then .t6 else if x = 3 then .t3 else if x = 4 then .t1 else .t27
/-- Width in trits (R193). -/
def IntTy.width : IntTy → Nat
  | .t27 => 27 | .t9 => 9 | .t6 => 6 | .t3 => 3 | .t1 => 1

def CvtTy.code : CvtTy → Nat
  | .t27 => 0 | .t9 => 1 | .f27 => 2 | .f9 => 3
def CvtTy.ofCode (x : Nat) : CvtTy :=
  if x = 1 then .t9 else if x = 2 then .f27 else if x = 3 then .f9 else .t27
def CvtTy.isFloat : CvtTy → Bool
  | .f27 => true | .f9 => true | _ => false

def NTy.code : NTy → Nat
  | .t9 => 0 | .t6 => 1 | .t3 => 2 | .t1 => 3
def NTy.ofCode (x : Nat) : NTy := if x = 1 then .t6 else if x = 2 then .t3 else if x = 3 then .t1 else .t9
def NTy.width : NTy → Nat
  | .t9 => 9 | .t6 => 6 | .t3 => 3 | .t1 => 1

def OTy.code : OTy → Nat
  | .t9 => 0 | .t6 => 1 | .t3 => 2 | .t1 => 3 | .f9 => 4
def OTy.ofCode (x : Nat) : OTy :=
  if x = 1 then .t6 else if x = 2 then .t3 else if x = 3 then .t1 else if x = 4 then .f9 else .t9
def OTy.width : OTy → Nat
  | .t9 => 9 | .t6 => 6 | .t3 => 3 | .t1 => 1 | .f9 => 9

def PB.code : PB → Nat
  | .p1 => 0 | .p3 => 1 | .p6 => 2 | .p9 => 3
def PB.ofCode (x : Nat) : PB := if x = 1 then .p3 else if x = 2 then .p6 else if x = 3 then .p9 else .p1
def PB.planes : PB → Nat
  | .p1 => 1 | .p3 => 3 | .p6 => 6 | .p9 => 9

def CMode.code : CMode → Int
  | .tt => 0 | .raw => 1 | .b2t => 2 | .t2b => 3 | .up6 => 4 | .pk6 => 5 | .q => 6 | .sqp => 7
def CMode.ofCode (x : Int) : CMode :=
  if x = 1 then .raw else if x = 2 then .b2t else if x = 3 then .t2b else if x = 4 then .up6
  else if x = 5 then .pk6 else if x = 6 then .q else if x = 7 then .sqp else .tt

def FFmt.t3c : FFmt → Int
  | .t3 => 1 | _ => 0
def FFmt.s9c : FFmt → Int
  | .s9 => 1 | _ => 0
def FFmt.ofCodes (t3 s9 : Int) : FFmt := if t3 = 1 then .t3 else if s9 = 1 then .s9 else .word

namespace Machine

/-- A trit that is + for true and 0 for false. -/
def bt (b : Bool) : Int := if b then 1 else 0

/-- The field value whose offset reading is u (R4). -/
def eo (u w : Nat) : Int := (u : Int) - half w

/-- The offset reading of a reserved register field, 0t00000 (R150). -/
def fz : Nat := 121

/-- The register number of z (R59). -/
def rz : Nat := 234

/-- The fields of one unit that is no prefix (R145): offset readings of opcode, guard and register fields,
balanced readings of the rest. -/
structure Raw where
  op : Nat
  gpred : Nat
  gcond : Nat
  d : Nat
  a : Nat
  b : Nat
  c : Nat
  lag : Int
  cede : Int
  last : Int
  md : Int
  imm : Int
  deriving DecidableEq, Repr

/-- The 81-trit value of the fields (R145). -/
def Raw.pack (r : Raw) : Int :=
  r.imm + r.md * pow3 27 + r.last * pow3 42 + r.cede * pow3 44 + r.lag * pow3 45
  + eo r.c 5 * pow3 48 + eo r.b 5 * pow3 53 + eo r.a 5 * pow3 58 + eo r.d 5 * pow3 63
  + eo r.gcond 2 * pow3 68 + eo r.gpred 5 * pow3 70 + eo r.op 6 * pow3 75

/-- The fields of an 81-trit value (R145). -/
def Raw.unpack (u : Int) : Raw :=
  { op := offF u 75 6, gpred := offF u 70 5, gcond := offF u 68 2, d := offF u 63 5, a := offF u 58 5
    b := offF u 53 5, c := offF u 48 5, lag := fld u 45 3, cede := fld u 44 1, last := fld u 42 2
    md := fld u 27 15, imm := fld u 0 27 }

/-- Modifier trits p+n-1..p (R153). -/
def Raw.mf (r : Raw) (p n : Nat) : Int := fld r.md (p - 27) n
/-- Modifier trits p+n-1..p, offset reading. -/
def Raw.mo (r : Raw) (p n : Nat) : Nat := offF r.md (p - 27) n
/-- One modifier trit as an option that is set by +. -/
def Raw.mb (r : Raw) (p : Nat) : Bool := decide (r.mf p 1 = 1)
/-- A value at modifier trit p. -/
def mp (p : Nat) (v : Int) : Int := v * pow3 (p - 27)

end Machine
end Sys2Proof
end

