-- ==== Sys2Proof/Machine/Legal.lean ====
section
/-! DEFINITION. The checks on an encoding that need no context: steps 2 to 4 of R159 with each
instruction's own reserved values, and the prefixes a form accepts (R160-R162, R237). -/

namespace Sys2Proof.Machine

/-- Privilege that an access of a control register needs (R397). -/
inductive Need where
  | handler | super | never
  deriving DecidableEq, Repr

/-- A control register's entry in the table of R397. -/
structure CsrInfo where
  isPair : Bool
  read : Need
  write : Need
  deriving DecidableEq, Repr

/-- The table of R397. -/
def csrInfo (n : Nat) : Option CsrInfo :=
  if n = 0 ∨ n = 3 then some { isPair := false, read := .handler, write := .never }
  else if n = 1 ∨ n = 2 ∨ n = 5 ∨ n = 6 then some { isPair := true, read := .handler, write := .handler }
  else if n = 4 then some { isPair := true, read := .handler, write := .never }
  else if n = 9 then some { isPair := false, read := .handler, write := .super }
  else if n = 10 ∨ n = 11 then some { isPair := true, read := .handler, write := .super }
  else if n = 12 ∨ n = 14 ∨ n = 15 then some { isPair := true, read := .handler, write := .never }
  else if n = 13 ∨ n = 16 then some { isPair := false, read := .handler, write := .never }
  else if n = 17 ∨ n = 27 ∨ n = 28 ∨ n = 29 then some { isPair := false, read := .super, write := .super }
  else if n = 18 ∨ n = 19 then some { isPair := true, read := .super, write := .super }
  else if n = 30 then some { isPair := false, read := .super, write := .never }
  else if 36 ≤ n ∧ n ≤ 45 then some { isPair := false, read := .super, write := .super }
  else none

/-- Register field kinds (R148, R78). -/
def isW (r : Nat) : Bool := decide (r < 216)
def isPort (r : Nat) : Bool := decide (216 ≤ r) && decide (r < 234)
def isSpecial (r : Nat) : Bool := decide (234 ≤ r) && decide (r ≤ 242)

/-- The header of an instruction; an event has none. -/
def hdr : Instr → Option Hdr
  | .add h .. => some h | .addi h .. => some h | .sub h .. => some h | .neg h .. => some h
  | .abs h .. => some h | .sgn h .. => some h | .mul h .. => some h | .mulh h .. => some h
  | .mulw h .. => some h | .mad h .. => some h | .div h .. => some h | .rem h .. => some h
  | .min h .. => some h | .max h .. => some h | .clamp h .. => some h | .addx h .. => some h
  | .subx h .. => some h | .lea h .. => some h | .cmp h .. => some h | .cmpi h .. => some h
  | .tand h .. => some h | .tor h .. => some h | .tsum h .. => some h | .tmult h .. => some h
  | .tcons h .. => some h | .shl h .. => some h | .shr h .. => some h | .rot h .. => some h
  | .fext h .. => some h | .fins h .. => some h | .tcnt h .. => some h | .tlz h .. => some h
  | .trev h .. => some h | .mov h .. => some h | .movNb h .. => some h | .movi h .. => some h
  | .sel3 h .. => some h | .pset h .. => some h | .psetTrit h .. => some h | .pmov h .. => some h
  | .pmovTw h .. => some h | .pmovFw h .. => some h | .pand h .. => some h | .por h .. => some h
  | .pnot h .. => some h | .cvt h .. => some h | .cvtf h .. => some h | .rng h .. => some h
  | .fadd h .. => some h | .fsub h .. => some h | .fmul h .. => some h | .ffma h .. => some h
  | .fmin h .. => some h | .fmax h .. => some h | .fneg h .. => some h | .fabs h .. => some h
  | .fscl h .. => some h | .fcmp h .. => some h | .fclass h .. => some h | .frnd h .. => some h
  | .fcvtF9 h .. => some h | .fcvtF27 h .. => some h | .fdiv h .. => some h | .fsqrt h .. => some h
  | .frcp h .. => some h | .frsq h .. => some h | .fexp h .. => some h | .fexp3 h .. => some h
  | .flog h .. => some h | .flog3 h .. => some h | .fsin h .. => some h | .fcos h .. => some h
  | .ftanh h .. => some h | .fsigm h .. => some h | .ferf h .. => some h
  | .ld h .. => some h | .st h .. => some h | .ldb h .. => some h | .stb h .. => some h
  | .ldnb h .. => some h | .stva h .. => some h | .pref h .. => some h | .wb h .. => some h
  | .wbAll h => some h | .inv h .. => some h | .invAll h => some h | .atom h .. => some h
  | .cas h .. => some h | .red h .. => some h | .atomo h .. => some h | .fence h .. => some h
  | .tnow h .. => some h | .twait h .. => some h | .talarm h .. => some h | .bar h .. => some h
  | .bara h .. => some h | .barw h .. => some h | .barv h .. => some h | .tkt h .. => some h
  | .tktOpen h .. => some h | .tktClose h .. => some h | .tkp h .. => some h | .msg h .. => some h
  | .qstat h .. => some h | .draft h .. => some h | .ink h => some h | .erase h .. => some h
  | .dstat h .. => some h | .br h .. => some h | .call h .. => some h | .callt h .. => some h
  | .ret h .. => some h | .setmr h .. => some h | .setmrClr h => some h | .movmrGet h .. => some h
  | .movmrPut h .. => some h | .exit h => some h | .brk h .. => some h | .trap h .. => some h
  | .yld h => some h | .nop h => some h | .spawn h .. => some h | .rclaim h .. => some h
  | .rgive h .. => some h | .wait h .. => some h | .icpf h .. => some h | .ifence h => some h
  | .icinv h .. => some h | .icinvAll h => some h | .mcfg h .. => some h | .ring h .. => some h
  | .fstat h .. => some h | .fsetReady h .. => some h | .fsetEmpty h .. => some h | .mzero h .. => some h
  | .mloop h .. => some h | .mrdy h => some h | .mdrain h .. => some h | .qscale h .. => some h
  | .fitr h .. => some h | .mbudg h .. => some h | .cpy h .. => some h | .cpys h .. => some h
  | .cpyg h .. => some h | .cpyx h .. => some h | .cpyc h .. => some h | .cpyv h .. => some h
  | .scrb h .. => some h | .scrh h .. => some h | .scrhStop h .. => some h | .sloop h .. => some h
  | .phase h => some h | .csrr h .. => some h | .csrw h .. => some h | .tret h => some h
  | .clrc h .. => some h | .launch h .. => some h | .launchRes h .. => some h | .kill h .. => some h
  | .preempt h .. => some h | .preemptBlk h .. => some h | .replay h .. => some h | .deny h .. => some h
  | .tlbi h .. => some h | .tlbiCtx h .. => some h | .tlbiDie h .. => some h | .halt h => some h
  | _ => none

/-- The effective immediate of a unit: its own, or the X of its PXI (R161). -/
def effImm (h : Hdr) (imm : Int) : Int := h.pxi.getD imm

/-- Forms that accept PXI (R161, R237); WB.all and INV.all, which have no operand for it, do not (DEDUCED, log 59). -/
def takesPxi : Instr → Bool
  | .addi .. => true | .cmpi .. => true | .movi .. => true | .lea .. => true | .br .. => true
  | .call .. => true | .twait .. => true | .talarm .. => true | .ld .. => true | .st .. => true
  | .ldb .. => true | .stb .. => true | .ldnb .. => true | .stva .. => true | .pref .. => true
  | .wb .. => true | .inv .. => true | .atom .. => true | .cas .. => true | .red .. => true
  | .atomo .. => true | .tkt .. => true | .tktOpen .. => true | .tktClose .. => true | .tkp .. => true
  | _ => false

/-- The order kind that is in force under a PXS (R216). -/
def effOrd (h : Hdr) (o : Ord) : Ord :=
  match h.pxs with
  | some p => if p.ord = .dflt then o else p.ord
  | none => o
def effScope (h : Hdr) (s : Scope) : Scope :=
  match h.pxs with
  | some p => if p.scope = .dflt then s else p.scope
  | none => s
def effLease (h : Hdr) (l : Lease) : Lease :=
  match h.pxs with
  | some p => if p.lease = .page then l else p.lease
  | none => l

/-- Order kinds of R130 and R216. -/
def ordLoad (o : Ord) : Bool := decide (o = .dflt) || decide (o = .rlx) || decide (o = .acq)
def ordStore (o : Ord) : Bool := decide (o = .dflt) || decide (o = .rlx) || decide (o = .rel)

/-- Whether the unit holds no lease request of a PXS. -/
def noLease (h : Hdr) : Bool :=
  match h.pxs with
  | some p => decide (p.lease = .page)
  | none => true

/-- Prefix and order rules of a form: R160 (a form takes PXI or PXS only where listed; the form's own
imm is zero under PXI), R162, R216. -/
def prefixOk (i : Instr) : Bool :=
  match hdr i with
  | none => true
  | some h =>
    (h.pxi.isNone || takesPxi i) &&
    (match i with
     | .ld _ _ o .. => ordLoad (effOrd h o.ord)
     | .ldnb _ _ o .. => ordLoad (effOrd h o.ord)
     | .ldb _ _ _ _ o .. => ordLoad (effOrd h o.ord)
     | .pref .. => (match h.pxs with
        | some p => decide (p.ord = .dflt) || decide (p.ord = .rlx)
        | none => true)
     | .st _ _ o .. => ordStore (effOrd h o.ord) && noLease h
     | .stb _ _ _ _ o .. => ordStore (effOrd h o.ord) && noLease h
     | .stva _ _ o .. => ordStore (effOrd h o.ord) && noLease h
     | .atom .. => noLease h
     | .cas .. => noLease h
     | .red .. => noLease h
     | .atomo .. => noLease h
     | .fence _ o => decide (o.ord ≠ .rlx) && decide (effOrd h o.ord ≠ .rlx) && noLease h
     | _ => h.pxs.isNone)

/-- The own immediate of a form that accepts PXI. -/
def ownImm : Instr → Int
  | .addi _ _ _ _ _ _ v => v | .cmpi _ _ _ _ v => v | .movi _ _ _ v => v | .lea _ _ m => m.disp
  | .br _ v => v | .call _ _ v => v | .twait _ _ _ v => v | .talarm _ _ _ v => v
  | .ld _ _ _ _ _ m => m.disp | .st _ _ _ _ m => m.disp | .ldb _ _ _ _ _ _ m => m.disp
  | .stb _ _ _ _ _ _ m => m.disp | .ldnb _ _ _ _ _ m _ => m.disp | .stva _ _ _ _ m _ => m.disp
  | .pref _ _ m => m.disp | .wb _ m => m.disp | .inv _ m => m.disp | .atom _ _ _ _ _ m _ => m.disp
  | .cas _ _ _ _ m _ => m.disp | .red _ _ _ _ m _ => m.disp | .atomo _ _ _ _ _ _ _ v _ => v
  | .tkt _ _ _ m => m.disp | .tktOpen _ _ m => m.disp | .tktClose _ _ m => m.disp | .tkp _ m _ => m.disp
  | _ => 0

/-- The guard rules of R151; NOP's guard is not checked (R274). -/
def guardOk (i : Instr) : Bool :=
  match i, hdr i with
  | .nop _, some h => decide (h.last ≠ -4)
  | _, some h => decide (h.gcond ≤ 6) && (decide (h.gcond ≠ 0) || decide (h.gpred = fz)) && decide (h.last ≠ -4)
  | _, none => true

/-- A tryte immediate of a .t3 or .s9 form has trits 26..9 zero (R172, R201). -/
def tryteImm (v : Int) : Bool := inRange v 9

/-- A field of MDRAIN that its options leave unused names z (R305). -/
def noReg (r : Nat) : Bool := decide (r = rz)
/-- The own checks of step 4 (each instruction's description). -/
def valueOk : Instr → Bool
  | .addi h t3 _ x _ _ v =>
    !(t3 && x) && (!t3 || tryteImm (effImm h v)) && (x || inRange (effImm h v) 27)
  | .cmp _ t3 x d _ _ => !(t3 && x) && (!t3 || decide (d ≤ 240))
  | .movi h x _ v => x || inRange (effImm h v) 27
  | .fext _ _ _ l w => decide (l ≤ 26) && decide (1 ≤ w) && decide (w ≤ 27) && decide (l + w ≤ 27)
  | .fins _ _ _ _ l w => decide (l ≤ 26) && decide (1 ≤ w) && decide (w ≤ 27) && decide (l + w ≤ 27)
  | .pset _ _ v => inRange v 1
  | .psetTrit _ _ _ t => decide (t ≤ 26)
  | .pmovTw _ _ a => decide (a ≤ 216)
  | .pmovFw _ d _ => decide (d ≤ 216)
  | .movNb _ d a _ => isPort d != isPort a
  | .mov _ x d a => x || !(isPort d && isPort a)
  | .cvt _ t3 _ ty _ _ => !(t3 && decide (ty = .t27))
  | .cvtf _ _ ty dty _ _ => ty.isFloat != dty.isFloat
  | .fscl _ f _ _ _ v => decide (f = .word) || tryteImm v
  | .frnd _ f _ _ v => decide (f = .word) || tryteImm v
  | .fcmp _ f d _ _ => if f = .t3 then decide (d ≤ 237) else decide (d ≤ 241)
  | .ldb _ b t .. => pairLoad b t
  | .stb _ b t .. => pairStore b t
  | .atom _ op sz .. => !(decide (sz = .dw) && (decide (op = .fadd) || decide (op = .fmin) || decide (op = .fmax)))
  | .atomo _ op sz .. => !(decide (sz = .dw) && (decide (op = .fadd) || decide (op = .fmin) || decide (op = .fmax)))
  | .red _ op sz .. =>
    !(decide (sz = .dw) && (decide (op = .fadd) || decide (op = .fmin) || decide (op = .fmax)))
      && decide (op ≠ .xchg)
  | .bar _ l k _ => decide (l ≠ .warp) || decide (k ≤ 2)
  | .bara _ l k _ _ => decide (l ≠ .warp) || decide (k ≤ 2)
  | .barw _ l k _ _ => decide (l ≠ .warp) || decide (k ≤ 2)
  | .barv _ l _ _ op _ _ n =>
    decide (l ≠ .warp) && decide (1 ≤ n) && decide (n ≤ 81)
      && (op = .add || op = .adds || op = .min || op = .max || op = .fadd || op = .fmin || op = .fmax)
  | .qstat _ _ a => isPort a
  | .erase _ c => inRange c 5
  | .callt _ _ _ sig => decide (sig ≠ 0)
  | .brk _ c => inRange c 9
  | .trap _ c => inRange c 9
  | .rclaim _ g => decide (1 ≤ g) && decide (g ≤ 24)
  | .rgive _ g => decide (1 ≤ g) && decide (g ≤ 24)
  | .mcfg _ _ g => decide (g.slot ≤ 8)
  | .ring _ _ first count => decide (count ≤ 27) && (decide (count = 0) || decide (first + count ≤ 243))
  | .mzero _ k => decide (k ≤ 8)
  | .fstat _ w _ _ _ => decide (w ≤ 3)
  | .mloop _ _ _ _ k _ _ _ => decide (k ≤ 8)
  | .mdrain _ o =>
    decide (o.slot ≤ 8) && (o.drop || (noReg o.a && noReg o.b)) && (o.drop || o.res || noReg o.c) && (o.res || decide (o.rr = 13))
  | .qscale _ _ _ _ k => decide (k ≤ 8)
  | .fitr _ _ _ k => decide (k ≤ 8)
  | .cpyc _ _ tag _ _ _ => inRange tag 9
  | .cpyv _ _ tag _ _ _ => inRange tag 9
  | .scrb _ _ _ len g _ => decide (1 ≤ len) && decide (len ≤ 243) && decide (1 ≤ g) && decide (g ≤ 9)
  | .sloop _ _ _ len => decide (1 ≤ len) && decide (len ≤ 242)
  | .csrr _ d n =>
    (match csrInfo n with
     | some c => decide (c.read ≠ .never) && (if c.isPair then isW d && decide (d % 2 = 0) else !isPort d)
     | none => false)
  | .csrw _ a n =>
    (match csrInfo n with
     | some c => decide (c.write ≠ .never) && (if c.isPair then isW a && decide (a % 2 = 0) else !isPort a)
     | none => false)
  | .clrc _ mask => (trits 27 mask).all (fun t => decide (t ≠ -1))
  | _ => true

/-- Whether the copy type fields agree with the mode (R319): a field the mode does not use holds 0. -/
def copyFieldsOk : Instr → Bool
  | .cpy _ o d a _ => f o && ring o.dring d && ring o.sring a
  | .cpys _ o d a _ => f o && ring o.dring d && ring o.sring a
  | .cpyg _ o d _ _ _ => f o && ring o.dring d && o.sring.isNone
  | .cpyx _ o _ a _ _ => f o && ring o.sring a && o.dring.isNone && decide (o.qw = 0)
  | _ => true
where
  -- the field of an address whose place a ring takes is reserved (R315)
  ring (o : Option Nat) (x : Nat) : Bool := o.isNone || decide (x = fz)
  f (o : CpOpt) : Bool :=
    (match o.mode with
     | .tt => decide (o.btype = .i8)
     | .raw => decide (o.btype = .i8) && decide (o.tty = .t27)
     | .b2t => true
     | .t2b => true
     | .up6 => decide (o.btype = .i8) && decide (o.tty = .t27)
     | .pk6 => decide (o.btype = .i8) && decide (o.tty = .t27)
     | .sqp => decide (o.btype = .i8) && decide (o.tty = .t27)
     | .q => decide (o.tty = .t27))
    && (if o.mode = .q then decide (o.qw ≤ 3) else decide (o.qw = 0))

/-- The memory operand of a form (R155). -/
def memOp : Instr → Option MOp
  | .lea _ _ m => some m | .ld _ _ _ _ _ m => some m | .st _ _ _ _ m => some m | .ldb _ _ _ _ _ _ m => some m
  | .stb _ _ _ _ _ _ m => some m | .ldnb _ _ _ _ _ m _ => some m | .stva _ _ _ _ m _ => some m
  | .pref _ _ m => some m | .wb _ m => some m | .inv _ m => some m | .atom _ _ _ _ _ m _ => some m
  | .cas _ _ _ _ m _ => some m | .red _ _ _ _ m _ => some m | .tkt _ _ _ m => some m | .tktOpen _ _ m => some m
  | .tktClose _ _ m => some m | .tkp _ m _ => some m | _ => none
/-- The index scale is 3^k for k = 0..3 (R153). -/
def scaleOk (i : Instr) : Bool :=
  match memOp i with
  | some m => decide (m.k ≤ 3)
  | none => true

/-- Steps 3 and 4 of R159 on a unit whose fields have been read. -/
def legal (i : Instr) : Bool :=
  guardOk i && prefixOk i && valueOk i && copyFieldsOk i && scaleOk i
    && (match hdr i with
        | some h => h.pxi.isNone || decide (ownImm i = 0)
        | none => false)

end Sys2Proof.Machine
end

