-- ==== Sys2Proof/Decode.lean ====
section
/-! DEFINITION. Decoding one unit (R145, R159-R162) and encoding it. The tables of R175, R199, R213-R215,
R237, R238, R259, R260, R291-R293, R315-R317, R364, R396, R406, R431 and R443 are written once as the
encoder `rawOf`; the reader `readRaw` takes the fields out, and the decoder refuses a unit whose fields the
encoder would not give back (reserved trits, reserved fields, reserved values: R150, R153). -/

namespace Sys2Proof

open Sys2Proof.Machine

/-- Why a unit is no instruction: every one of these traps ILL (R159). -/
inductive Reject where
  | opcode    -- rows 21..24, or an unassigned cell (step 2)
  | prefix_   -- the prefix rules of R160 (step 3)
  | reserved  -- reserved trits, fields or values (step 4)
  | short     -- fewer than the unit's instructions were given
  deriving DecidableEq, Repr

namespace Machine

/-- A unit's fields with the header's guard and control trits. -/
def mk (h : Hdr) (op d a b c : Nat) (md imm : Int) : Raw :=
  { op := op, gpred := h.gpred, gcond := h.gcond, d := d, a := a, b := b, c := c, lag := h.lag
    cede := h.cede, last := h.last, md := md, imm := imm }

/-- ord, scope and sz of R214. -/
def accM (sz : Sz) (o : Acc) : Int := mp 39 sz.code + mp 37 o.ord.code + mp 34 o.scope.code

/-- Count operand of R184: the field b, and sel with n5. -/
def countB : Count → Nat
  | .reg b => b
  | .imm _ => fz
def countM : Count → Int
  | .reg _ => 0
  | .imm n => mp 38 1 + mp 33 (eo n 5)

/-- The time operand of R238: field c, and sel. -/
def whenC : When → Nat
  | .at_ c => c
  | .after => fz
def whenM : When → Int
  | .at_ _ => 0
  | .after => mp 38 1

/-- MCFG's imm (R293). -/
def cfgImm (g : CfgOp) : Int :=
  eo g.slot 3 + eo g.atype.code 2 * pow3 3 + eo g.btype.code 2 * pow3 5 + eo g.otype.code 2 * pow3 7
  + eo (g.pa - 1) 2 * pow3 9 + eo g.pb.code 2 * pow3 11 + g.otag * pow3 13

/-- A ring field, 0t000 when no ring is named (R317). -/
def ringF : Option Nat → Int
  | some n => eo n 3
  | none => 0

/-- Modifier and imm of a copy (R316, R317). -/
def cpMd (o : CpOpt) : Int :=
  mp 37 o.mode.code + mp 36 (bt o.tok) + mp 35 (bt o.sring.isSome) + mp 34 (bt o.dring.isSome)
  + mp 31 (o.btype.code : Int) + mp 29 (o.tty.code : Int)
  + (if o.mode = .q then mp 27 (eo o.qw 2) else 0)
def cpImm (o : CpOpt) : Int := o.tag + ringF o.dring * pow3 9 + ringF o.sring * pow3 12

/-- The fields of an instruction's own unit; an event has none (R163). -/
def rawOf : Instr → Option Raw
  | .add h t3 sat d a b => some (mk h 0 d a b fz (mp 40 (bt t3) + mp 39 (bt sat)) (0))
  | .sub h t3 sat d a b => some (mk h 2 d a b fz (mp 40 (bt t3) + mp 39 (bt sat)) (0))
  | .mul h t3 sat d a b => some (mk h 6 d a b fz (mp 40 (bt t3) + mp 39 (bt sat)) (0))
  | .addi h t3 sat x d a v => some (mk h 1 d a fz fz (mp 40 (bt t3) + mp 39 (bt sat) + mp 38 (bt x)) (v))
  | .neg h t3 d a => some (mk h 3 d a fz fz (mp 40 (bt t3)) (0))
  | .abs h t3 d a => some (mk h 4 d a fz fz (mp 40 (bt t3)) (0))
  | .sgn h t3 d a => some (mk h 5 d a fz fz (mp 40 (bt t3)) (0))
  | .mulh h t3 d a b => some (mk h 7 d a b fz (mp 40 (bt t3)) (0))
  | .div h t3 d a b => some (mk h 10 d a b fz (mp 40 (bt t3)) (0))
  | .rem h t3 d a b => some (mk h 11 d a b fz (mp 40 (bt t3)) (0))
  | .min h t3 d a b => some (mk h 12 d a b fz (mp 40 (bt t3)) (0))
  | .max h t3 d a b => some (mk h 13 d a b fz (mp 40 (bt t3)) (0))
  | .mulw h d a b => some (mk h 8 d a b fz (0) (0))
  | .addx h d a b => some (mk h 15 d a b fz (0) (0))
  | .subx h d a b => some (mk h 16 d a b fz (0) (0))
  | .tand h d a b => some (mk h 29 d a b fz (0) (0))
  | .tor h d a b => some (mk h 30 d a b fz (0) (0))
  | .tsum h d a b => some (mk h 31 d a b fz (0) (0))
  | .tmult h d a b => some (mk h 32 d a b fz (0) (0))
  | .tcons h d a b => some (mk h 33 d a b fz (0) (0))
  | .pand h d a b => some (mk h 86 d a b fz (0) (0))
  | .por h d a b => some (mk h 87 d a b fz (0) (0))
  | .rng h d a b => some (mk h 110 d a b fz (0) (0))
  | .mad h t3 sat d a b c => some (mk h 9 d a b c (mp 40 (bt t3) + mp 39 (bt sat)) (0))
  | .clamp h t3 d a b c => some (mk h 14 d a b c (mp 40 (bt t3)) (0))
  | .lea h d m => some (mk h 17 d m.a m.b fz (mp 27 (m.k : Int)) (m.disp))
  | .cmp h t3 x d a b => some (mk h 27 d a b fz (mp 40 (bt t3) + mp 38 (bt x)) (0))
  | .cmpi h x d a v => some (mk h 28 d a fz fz (mp 38 (bt x)) (v))
  | .shl h t3 d a n => some (mk h 54 d a (countB n) fz (mp 40 (bt t3) + countM n) (0))
  | .shr h t3 d a n => some (mk h 55 d a (countB n) fz (mp 40 (bt t3) + countM n) (0))
  | .rot h t3 d a n => some (mk h 56 d a (countB n) fz (mp 40 (bt t3) + countM n) (0))
  | .fext h d a l w => some (mk h 57 d a fz fz (mp 33 (eo l 5) + mp 28 (eo w 5)) (0))
  | .fins h d a b l w => some (mk h 58 d a b fz (mp 33 (eo l 5) + mp 28 (eo w 5)) (0))
  | .tcnt h v d a => some (mk h 59 d a fz fz (mp 38 v) (0))
  | .tlz h d a => some (mk h 60 d a fz fz (0) (0))
  | .trev h d a => some (mk h 61 d a fz fz (0) (0))
  | .pnot h d a => some (mk h 88 d a fz fz (0) (0))
  | .mov h x d a => some (mk h 81 d a fz fz (mp 38 (bt x)) (0))
  | .movNb h d a c => some (mk h 81 d a fz c (mp 41 1) (0))
  | .movi h x d v => some (mk h 82 d fz fz fz (mp 38 (bt x)) (v))
  | .sel3 h p d a b c => some (mk h 83 d a b c (mp 33 (eo p 5)) (0))
  | .pset h d v => some (mk h 84 d fz fz fz (0) (v))
  | .psetTrit h d a t => some (mk h 84 d a fz fz (mp 38 1 + mp 33 (eo t 5)) (0))
  | .pmov h d a => some (mk h 85 d a fz fz (0) (0))
  | .pmovTw h d a => some (mk h 85 d a fz fz (mp 38 1) (0))
  | .pmovFw h d a => some (mk h 85 d a fz fz (mp 38 (-1)) (0))
  | .cvt h t3 sat ty d a => some (mk h 108 d a fz fz (mp 40 (bt t3) + mp 39 (bt sat) + mp 36 (eo ty.code 2)) (0))
  | .cvtf h sat ty dty d a => some (mk h 109 d a fz fz (mp 39 (bt sat) + mp 36 (eo ty.code 2) + mp 34 (eo dty.code 2)) (0))
  | .fadd h f d a b => some (mk h 135 d a b fz (mp 40 f.t3c + mp 39 f.s9c) (0))
  | .fsub h f d a b => some (mk h 136 d a b fz (mp 40 f.t3c + mp 39 f.s9c) (0))
  | .fmul h f d a b => some (mk h 137 d a b fz (mp 40 f.t3c + mp 39 f.s9c) (0))
  | .fmin h f d a b => some (mk h 139 d a b fz (mp 40 f.t3c + mp 39 f.s9c) (0))
  | .fmax h f d a b => some (mk h 140 d a b fz (mp 40 f.t3c + mp 39 f.s9c) (0))
  | .fcmp h f d a b => some (mk h 162 d a b fz (mp 40 f.t3c + mp 39 f.s9c) (0))
  | .fdiv h f d a b => some (mk h 189 d a b fz (mp 40 f.t3c + mp 39 f.s9c) (0))
  | .ffma h f d a b c => some (mk h 138 d a b c (mp 40 f.t3c + mp 39 f.s9c) (0))
  | .fneg h f d a => some (mk h 141 d a fz fz (mp 40 f.t3c + mp 39 f.s9c) (0))
  | .fabs h f d a => some (mk h 142 d a fz fz (mp 40 f.t3c + mp 39 f.s9c) (0))
  | .fclass h f d a => some (mk h 163 d a fz fz (mp 40 f.t3c + mp 39 f.s9c) (0))
  | .fsqrt h f d a => some (mk h 190 d a fz fz (mp 40 f.t3c + mp 39 f.s9c) (0))
  | .frcp h f d a => some (mk h 191 d a fz fz (mp 40 f.t3c + mp 39 f.s9c) (0))
  | .frsq h f d a => some (mk h 192 d a fz fz (mp 40 f.t3c + mp 39 f.s9c) (0))
  | .fexp h f d a => some (mk h 193 d a fz fz (mp 40 f.t3c + mp 39 f.s9c) (0))
  | .fexp3 h f d a => some (mk h 194 d a fz fz (mp 40 f.t3c + mp 39 f.s9c) (0))
  | .flog h f d a => some (mk h 195 d a fz fz (mp 40 f.t3c + mp 39 f.s9c) (0))
  | .flog3 h f d a => some (mk h 196 d a fz fz (mp 40 f.t3c + mp 39 f.s9c) (0))
  | .fsin h f d a => some (mk h 197 d a fz fz (mp 40 f.t3c + mp 39 f.s9c) (0))
  | .fcos h f d a => some (mk h 198 d a fz fz (mp 40 f.t3c + mp 39 f.s9c) (0))
  | .ftanh h f d a => some (mk h 199 d a fz fz (mp 40 f.t3c + mp 39 f.s9c) (0))
  | .fsigm h f d a => some (mk h 200 d a fz fz (mp 40 f.t3c + mp 39 f.s9c) (0))
  | .ferf h f d a => some (mk h 201 d a fz fz (mp 40 f.t3c + mp 39 f.s9c) (0))
  | .fscl h f d a b v => some (mk h 143 d a b fz (mp 40 f.t3c + mp 39 f.s9c) (v))
  | .frnd h f d a v => some (mk h 164 d a fz fz (mp 40 f.t3c + mp 39 f.s9c) (v))
  | .fcvtF9 h d a => some (mk h 165 d a fz fz (mp 38 1) (0))
  | .fcvtF27 h d a => some (mk h 165 d a fz fz (mp 38 (-1)) (0))
  | .ld h sz o l d m => some (mk h 216 d m.a m.b fz (accM sz o + mp 27 (m.k : Int) + mp 32 l.code) (m.disp))
  | .st h sz o d m => some (mk h 217 d m.a m.b fz (accM sz o + mp 27 (m.k : Int)) (m.disp))
  | .ldb h bt tt sat o d m => some (mk h 218 d m.a m.b fz (mp 37 (bt.code : Int) + mp 35 (tt.code : Int) + mp 34 (Machine.bt sat) + mp 32 o.ord.code + mp 29 o.scope.code + mp 27 (m.k : Int)) (m.disp))
  | .stb h bt tt sat o d m => some (mk h 219 d m.a m.b fz (mp 37 (bt.code : Int) + mp 35 (tt.code : Int) + mp 34 (Machine.bt sat) + mp 32 o.ord.code + mp 29 o.scope.code + mp 27 (m.k : Int)) (m.disp))
  | .ldnb h sz o l d m c => some (mk h 220 d m.a m.b c (accM sz o + mp 27 (m.k : Int) + mp 32 l.code) (m.disp))
  | .stva h sz o d m c => some (mk h 221 d m.a m.b c (accM sz o + mp 27 (m.k : Int)) (m.disp))
  | .pref h l m => some (mk h 243 fz m.a m.b fz (mp 32 l.code + mp 27 (m.k : Int)) (m.disp))
  | .wb h m => some (mk h 244 fz m.a m.b fz (mp 27 (m.k : Int)) (m.disp))
  | .wbAll h => some (mk h 244 fz fz fz fz (mp 39 1) (0))
  | .inv h m => some (mk h 245 fz m.a m.b fz (mp 27 (m.k : Int)) (m.disp))
  | .invAll h => some (mk h 245 fz fz fz fz (mp 39 1) (0))
  | .atom h op sz o d m c => some (mk h 270 d m.a m.b c (accM sz o + mp 27 (m.k : Int) + mp 29 op.code) (m.disp))
  | .cas h sz o d m c => some (mk h 271 d m.a m.b c (accM sz o + mp 27 (m.k : Int)) (m.disp))
  | .red h op sz o m c => some (mk h 272 fz m.a m.b c (accM sz o + mp 27 (m.k : Int) + mp 29 op.code) (m.disp))
  | .atomo h op sz o d a k v c => some (mk h 273 d a k c (accM sz o + mp 29 op.code) (v))
  | .fence h o => some (mk h 297 fz fz fz fz (mp 37 o.ord.code + mp 34 o.scope.code) (0))
  | .tnow h d => some (mk h 298 d fz fz fz (0) (0))
  | .twait h t s v => some (mk h 299 fz fz fz (whenC t) (whenM t + mp 34 s.code) (v))
  | .talarm h t a v => some (mk h 300 fz a fz (whenC t) (whenM t) (v))
  | .bar h l k rlx => some (mk h 301 fz fz fz fz (mp 37 l.code + mp 35 (eo k 2) + mp 33 (bt rlx)) (0))
  | .bara h l k rlx d => some (mk h 302 d fz fz fz (mp 37 l.code + mp 35 (eo k 2) + mp 33 (bt rlx)) (0))
  | .barw h l k rlx a => some (mk h 303 fz a fz fz (mp 37 l.code + mp 35 (eo k 2) + mp 33 (bt rlx)) (0))
  | .tkt h s d m => some (mk h 304 d m.a m.b fz (mp 35 (eo s 3) + mp 27 (m.k : Int)) (m.disp))
  | .tktOpen h s m => some (mk h 304 fz m.a m.b fz (mp 38 1 + mp 35 (eo s 3) + mp 27 (m.k : Int)) (m.disp))
  | .tktClose h s m => some (mk h 304 fz m.a m.b fz (mp 38 (-1) + mp 35 (eo s 3) + mp 27 (m.k : Int)) (m.disp))
  | .tkp h m c => some (mk h 305 fz m.a m.b c (mp 27 (m.k : Int)) (m.disp))
  | .msg h rlx a b nb => some (mk h 306 fz a b (nb.getD fz) (mp 41 (bt nb.isSome) + mp 37 (bt rlx)) (0))
  | .qstat h d a => some (mk h 307 d a fz fz (0) (0))
  | .barv h l k rlx op a b n => some (mk h 308 fz a b fz (mp 37 l.code + mp 35 (eo k 2) + mp 33 (bt rlx) + mp 29 op.code) (n))
  | .draft h v => some (mk h 324 fz fz fz fz (0) (v))
  | .ink h => some (mk h 325 fz fz fz fz (0) (0))
  | .erase h v => some (mk h 326 fz fz fz fz (0) (v))
  | .dstat h d => some (mk h 327 d fz fz fz (0) (0))
  | .br h v => some (mk h 351 fz fz fz fz (0) (v))
  | .call h d v => some (mk h 352 d fz fz fz (0) (v))
  | .callt h d a v => some (mk h 353 d a fz fz (0) (v))
  | .ret h a => some (mk h 354 fz a fz fz (0) (0))
  | .setmr h v => some (mk h 355 fz fz fz fz (0) (v))
  | .setmrClr h => some (mk h 355 fz fz fz fz (mp 38 1) (0))
  | .movmrGet h d => some (mk h 356 d fz fz fz (mp 38 1) (0))
  | .movmrPut h a => some (mk h 356 fz a fz fz (mp 38 (-1)) (0))
  | .exit h => some (mk h 357 fz fz fz fz (0) (0))
  | .brk h v => some (mk h 358 fz fz fz fz (0) (v))
  | .trap h v => some (mk h 359 fz fz fz fz (0) (v))
  | .yld h => some (mk h 360 fz fz fz fz (0) (0))
  | .nop h => some (mk h 364 fz fz fz fz (0) (0))
  | .spawn h a b v => some (mk h 378 fz a b fz (0) (v))
  | .rclaim h v => some (mk h 379 fz fz fz fz (0) (v))
  | .rgive h v => some (mk h 380 fz fz fz fz (0) (v))
  | .wait h p q u v => some (mk h 381 fz fz fz fz (0) (eo p 5 * pow3 15 + eo q 5 * pow3 10 + eo u 5 * pow3 5 + eo v 5))
  | .icpf h n v => some (mk h 382 fz fz fz fz (mp 36 (eo n 2)) (v))
  | .ifence h => some (mk h 383 fz fz fz fz (0) (0))
  | .icinv h v => some (mk h 384 fz fz fz fz (0) (v))
  | .icinvAll h => some (mk h 384 fz fz fz fz (mp 39 1) (0))
  | .mcfg h a g => some (mk h 405 fz a fz fz (0) (cfgImm g))
  | .ring h r first n => some (mk h 406 fz fz fz fz (0) (eo r 3 + eo first 5 * pow3 3 + eo n 4 * pow3 8))
  | .fstat h w d a v => some (mk h 407 d a fz fz (mp 37 (eo w 2)) (v))
  | .fsetReady h full a b v => some (mk h 408 fz a b fz (mp 39 1 + mp 38 (bt full)) (v))
  | .fsetEmpty h full a v => some (mk h 408 fz a rz fz (mp 39 (-1) + mp 38 (bt full)) (v))
  | .mzero h k => some (mk h 409 fz fz fz fz (0) (eo k 3))
  | .mloop h bh tok a k ra rb kc => some (mk h 432 fz a fz fz (mp 39 (bt bh) + mp 36 (bt tok)) (eo k 3 + eo ra 3 * pow3 3 + eo rb 3 * pow3 6 + eo kc 9 * pow3 9))
  | .mrdy h => some (mk h 433 fz fz fz fz (0) (0))
  | .mdrain h o => some (mk h 434 fz o.a o.b o.c (mp 39 (bt o.res) + mp 38 (bt o.drop) + mp 37 (bt o.z) + mp 36 (bt o.tok)) (eo o.slot 3 + eo o.ro 3 * pow3 3 + eo o.rr 3 * pow3 6))
  | .qscale h tok d c k => some (mk h 435 d fz fz c (mp 36 (bt tok)) (eo k 3))
  | .fitr h clr d k => some (mk h 436 d fz fz fz (mp 39 (bt clr)) (eo k 3))
  | .mbudg h d => some (mk h 437 d fz fz fz (0) (0))
  | .cpy h o d a b => some (mk h 459 d a b fz (cpMd o) (cpImm o))
  | .cpys h o d a c => some (mk h 460 d a fz c (cpMd o) (cpImm o))
  | .cpyg h o d a b c => some (mk h 461 d a b c (cpMd o) (cpImm o))
  | .cpyx h o d a b c => some (mk h 462 d a b c (cpMd o) (cpImm o))
  | .cpyc h tok tag d a b => some (mk h 463 d a b fz (mp 36 (bt tok)) (tag))
  | .cpyv h tok tag d a b => some (mk h 464 d a b fz (mp 36 (bt tok)) (tag))
  | .scrb h a b len g v => some (mk h 465 fz a b fz (mp 33 (eo (len - 1) 5) + mp 31 (eo (g - 1) 2)) (v))
  | .scrh h d => some (mk h 466 d fz fz fz (0) (0))
  | .scrhStop h d => some (mk h 466 d fz fz fz (mp 39 1) (0))
  | .sloop h a k len => some (mk h 467 fz a fz fz (0) ((len : Int) + k * pow3 9))
  | .phase h => some (mk h 486 fz fz fz fz (0) (0))
  | .csrr h d n => some (mk h 513 d fz fz fz (0) ((n : Int)))
  | .csrw h a n => some (mk h 514 fz a fz fz (0) ((n : Int)))
  | .tret h => some (mk h 515 fz fz fz fz (0) (0))
  | .clrc h v => some (mk h 516 fz fz fz fz (0) (v))
  | .launch h d a => some (mk h 517 d a fz fz (0) (0))
  | .launchRes h d a b => some (mk h 517 d a b fz (mp 38 1) (0))
  | .kill h a => some (mk h 518 fz a fz fz (0) (0))
  | .preempt h a => some (mk h 519 fz a fz fz (0) (0))
  | .preemptBlk h a b => some (mk h 519 fz a b fz (mp 38 1) (0))
  | .replay h d a b => some (mk h 520 d a b fz (0) (0))
  | .deny h a b => some (mk h 521 fz a b fz (0) (0))
  | .tlbi h a b => some (mk h 522 fz a b fz (0) (0))
  | .tlbiCtx h a b => some (mk h 522 fz a b fz (mp 38 1) (0))
  | .tlbiDie h b => some (mk h 522 fz fz b fz (mp 38 (-1)) (0))
  | .halt h => some (mk h 523 fz fz fz fz (0) (0))  | _ => none

/-- The operands that several forms read alike. -/
def readM (r : Raw) : MOp := { a := r.a, b := r.b, k := (r.mf 27 2).toNat, disp := r.imm }
def readAcc (r : Raw) : Acc := { ord := Ord.ofCode (r.mf 37 2), scope := Scope.ofCode (r.mf 34 3) }
def readF (r : Raw) : FFmt := FFmt.ofCodes (r.mf 40 1) (r.mf 39 1)
def readCount (r : Raw) : Count := if r.mb 38 then .imm (r.mo 33 5) else .reg r.b
def readWhen (r : Raw) : When := if r.mb 38 then .after else .at_ r.c
def readCfg (v : Int) : CfgOp :=
  { slot := offF v 0 3, atype := NTy.ofCode (offF v 3 2), btype := NTy.ofCode (offF v 5 2)
    otype := OTy.ofCode (offF v 7 2), pa := offF v 9 2 + 1, pb := PB.ofCode (offF v 11 2)
    otag := fld v 13 9 }
def readCp (r : Raw) : CpOpt :=
  { mode := CMode.ofCode (r.mf 37 3), tok := r.mb 36
    sring := if r.mb 35 then some (offF r.imm 12 3) else none
    dring := if r.mb 34 then some (offF r.imm 9 3) else none
    btype := (BType.ofCode (r.mf 31 3)).getD .i8, tty := (TType.ofCode (r.mf 29 2)).getD .t27
    qw := if CMode.ofCode (r.mf 37 3) = .q then r.mo 27 2 else 0
    tag := fld r.imm 0 9 }

/-- Reads the operands of an assigned opcode; none for an unassigned one (R163). -/
def readRaw (h : Hdr) (r : Raw) : Option Instr :=
  match r.op with
  | 0 => some (.add h (r.mb 40) (r.mb 39) r.d r.a r.b)
  | 2 => some (.sub h (r.mb 40) (r.mb 39) r.d r.a r.b)
  | 6 => some (.mul h (r.mb 40) (r.mb 39) r.d r.a r.b)
  | 1 => some (.addi h (r.mb 40) (r.mb 39) (r.mb 38) r.d r.a r.imm)
  | 3 => some (.neg h (r.mb 40) r.d r.a)
  | 4 => some (.abs h (r.mb 40) r.d r.a)
  | 5 => some (.sgn h (r.mb 40) r.d r.a)
  | 7 => some (.mulh h (r.mb 40) r.d r.a r.b)
  | 10 => some (.div h (r.mb 40) r.d r.a r.b)
  | 11 => some (.rem h (r.mb 40) r.d r.a r.b)
  | 12 => some (.min h (r.mb 40) r.d r.a r.b)
  | 13 => some (.max h (r.mb 40) r.d r.a r.b)
  | 8 => some (.mulw h r.d r.a r.b)
  | 15 => some (.addx h r.d r.a r.b)
  | 16 => some (.subx h r.d r.a r.b)
  | 29 => some (.tand h r.d r.a r.b)
  | 30 => some (.tor h r.d r.a r.b)
  | 31 => some (.tsum h r.d r.a r.b)
  | 32 => some (.tmult h r.d r.a r.b)
  | 33 => some (.tcons h r.d r.a r.b)
  | 86 => some (.pand h r.d r.a r.b)
  | 87 => some (.por h r.d r.a r.b)
  | 110 => some (.rng h r.d r.a r.b)
  | 9 => some (.mad h (r.mb 40) (r.mb 39) r.d r.a r.b r.c)
  | 14 => some (.clamp h (r.mb 40) r.d r.a r.b r.c)
  | 17 => some (.lea h r.d (readM r))
  | 27 => some (.cmp h (r.mb 40) (r.mb 38) r.d r.a r.b)
  | 28 => some (.cmpi h (r.mb 38) r.d r.a r.imm)
  | 54 => some (.shl h (r.mb 40) r.d r.a (readCount r))
  | 55 => some (.shr h (r.mb 40) r.d r.a (readCount r))
  | 56 => some (.rot h (r.mb 40) r.d r.a (readCount r))
  | 57 => some (.fext h r.d r.a (r.mo 33 5) (r.mo 28 5))
  | 58 => some (.fins h r.d r.a r.b (r.mo 33 5) (r.mo 28 5))
  | 59 => some (.tcnt h (r.mf 38 1) r.d r.a)
  | 60 => some (.tlz h r.d r.a)
  | 61 => some (.trev h r.d r.a)
  | 88 => some (.pnot h r.d r.a)
  | 81 => some (if r.mb 41 then .movNb h r.d r.a r.c else .mov h (r.mb 38) r.d r.a)
  | 82 => some (.movi h (r.mb 38) r.d r.imm)
  | 83 => some (.sel3 h (r.mo 33 5) r.d r.a r.b r.c)
  | 84 => some (if r.mb 38 then .psetTrit h r.d r.a (r.mo 33 5) else .pset h r.d r.imm)
  | 85 => some (if r.mb 38 then .pmovTw h r.d r.a else if r.mf 38 1 = -1 then .pmovFw h r.d r.a else .pmov h r.d r.a)
  | 108 => some (.cvt h (r.mb 40) (r.mb 39) (IntTy.ofCode (r.mo 36 2)) r.d r.a)
  | 109 => some (.cvtf h (r.mb 39) (CvtTy.ofCode (r.mo 36 2)) (CvtTy.ofCode (r.mo 34 2)) r.d r.a)
  | 135 => some (.fadd h (readF r) r.d r.a r.b)
  | 136 => some (.fsub h (readF r) r.d r.a r.b)
  | 137 => some (.fmul h (readF r) r.d r.a r.b)
  | 139 => some (.fmin h (readF r) r.d r.a r.b)
  | 140 => some (.fmax h (readF r) r.d r.a r.b)
  | 162 => some (.fcmp h (readF r) r.d r.a r.b)
  | 189 => some (.fdiv h (readF r) r.d r.a r.b)
  | 138 => some (.ffma h (readF r) r.d r.a r.b r.c)
  | 141 => some (.fneg h (readF r) r.d r.a)
  | 142 => some (.fabs h (readF r) r.d r.a)
  | 163 => some (.fclass h (readF r) r.d r.a)
  | 190 => some (.fsqrt h (readF r) r.d r.a)
  | 191 => some (.frcp h (readF r) r.d r.a)
  | 192 => some (.frsq h (readF r) r.d r.a)
  | 193 => some (.fexp h (readF r) r.d r.a)
  | 194 => some (.fexp3 h (readF r) r.d r.a)
  | 195 => some (.flog h (readF r) r.d r.a)
  | 196 => some (.flog3 h (readF r) r.d r.a)
  | 197 => some (.fsin h (readF r) r.d r.a)
  | 198 => some (.fcos h (readF r) r.d r.a)
  | 199 => some (.ftanh h (readF r) r.d r.a)
  | 200 => some (.fsigm h (readF r) r.d r.a)
  | 201 => some (.ferf h (readF r) r.d r.a)
  | 143 => some (.fscl h (readF r) r.d r.a r.b r.imm)
  | 164 => some (.frnd h (readF r) r.d r.a r.imm)
  | 165 => some (if r.mb 38 then .fcvtF9 h r.d r.a else .fcvtF27 h r.d r.a)
  | 216 => some (.ld h (Sz.ofCode (r.mf 39 1)) (readAcc r) (Lease.ofCode (r.mf 32 2)) r.d (readM r))
  | 217 => some (.st h (Sz.ofCode (r.mf 39 1)) (readAcc r) r.d (readM r))
  | 218 => some (.ldb h ((BType.ofCode (r.mf 37 3)).getD .i8) ((TType.ofCode (r.mf 35 2)).getD .t27) (r.mb 34) { ord := Ord.ofCode (r.mf 32 2), scope := Scope.ofCode (r.mf 29 3) } r.d (readM r))
  | 219 => some (.stb h ((BType.ofCode (r.mf 37 3)).getD .i8) ((TType.ofCode (r.mf 35 2)).getD .t27) (r.mb 34) { ord := Ord.ofCode (r.mf 32 2), scope := Scope.ofCode (r.mf 29 3) } r.d (readM r))
  | 220 => some (.ldnb h (Sz.ofCode (r.mf 39 1)) (readAcc r) (Lease.ofCode (r.mf 32 2)) r.d (readM r) r.c)
  | 221 => some (.stva h (Sz.ofCode (r.mf 39 1)) (readAcc r) r.d (readM r) r.c)
  | 243 => some (.pref h (Lease.ofCode (r.mf 32 2)) (readM r))
  | 244 => some (if r.mb 39 then .wbAll h else .wb h (readM r))
  | 245 => some (if r.mb 39 then .invAll h else .inv h (readM r))
  | 270 => some (.atom h (AOp.ofCode (r.mf 29 3)) (Sz.ofCode (r.mf 39 1)) (readAcc r) r.d (readM r) r.c)
  | 271 => some (.cas h (Sz.ofCode (r.mf 39 1)) (readAcc r) r.d (readM r) r.c)
  | 272 => some (.red h (AOp.ofCode (r.mf 29 3)) (Sz.ofCode (r.mf 39 1)) (readAcc r) (readM r) r.c)
  | 273 => some (.atomo h (AOp.ofCode (r.mf 29 3)) (Sz.ofCode (r.mf 39 1)) (readAcc r) r.d r.a r.b r.imm r.c)
  | 297 => some (.fence h (readAcc r))
  | 298 => some (.tnow h r.d)
  | 299 => some (.twait h (readWhen r) (Scope.ofCode (r.mf 34 3)) r.imm)
  | 300 => some (.talarm h (readWhen r) r.a r.imm)
  | 301 => some (.bar h (Level.ofCode (r.mf 37 3)) (r.mo 35 2) (decide (r.mf 33 2 = 1)))
  | 302 => some (.bara h (Level.ofCode (r.mf 37 3)) (r.mo 35 2) (decide (r.mf 33 2 = 1)) r.d)
  | 303 => some (.barw h (Level.ofCode (r.mf 37 3)) (r.mo 35 2) (decide (r.mf 33 2 = 1)) r.a)
  | 304 => some (if r.mb 38 then .tktOpen h (r.mo 35 3) (readM r) else if r.mf 38 1 = -1 then .tktClose h (r.mo 35 3) (readM r) else .tkt h (r.mo 35 3) r.d (readM r))
  | 305 => some (.tkp h (readM r) r.c)
  | 306 => some (.msg h (decide (r.mf 37 2 = 1)) r.a r.b (if r.mb 41 then some r.c else none))
  | 307 => some (.qstat h r.d r.a)
  | 308 => some (.barv h (Level.ofCode (r.mf 37 3)) (r.mo 35 2) (decide (r.mf 33 2 = 1)) (AOp.ofCode (r.mf 29 3)) r.a r.b r.imm)
  | 324 => some (.draft h r.imm)
  | 325 => some (.ink h)
  | 326 => some (.erase h r.imm)
  | 327 => some (.dstat h r.d)
  | 351 => some (.br h r.imm)
  | 352 => some (.call h r.d r.imm)
  | 353 => some (.callt h r.d r.a r.imm)
  | 354 => some (.ret h r.a)
  | 355 => some (if r.mb 38 then .setmrClr h else .setmr h r.imm)
  | 356 => some (if r.mb 38 then .movmrGet h r.d else .movmrPut h r.a)
  | 357 => some (.exit h)
  | 358 => some (.brk h r.imm)
  | 359 => some (.trap h r.imm)
  | 360 => some (.yld h)
  | 364 => some (.nop h)
  | 378 => some (.spawn h r.a r.b r.imm)
  | 379 => some (.rclaim h r.imm)
  | 380 => some (.rgive h r.imm)
  | 381 => some (.wait h (offF r.imm 15 5) (offF r.imm 10 5) (offF r.imm 5 5) (offF r.imm 0 5))
  | 382 => some (.icpf h (r.mo 36 2) r.imm)
  | 383 => some (.ifence h)
  | 384 => some (if r.mb 39 then .icinvAll h else .icinv h r.imm)
  | 405 => some (.mcfg h r.a (readCfg r.imm))
  | 406 => some (.ring h (offF r.imm 0 3) (offF r.imm 3 5) (offF r.imm 8 4))
  | 407 => some (.fstat h (r.mo 37 2) r.d r.a r.imm)
  | 408 => some (if r.mb 39 then .fsetReady h (r.mb 38) r.a r.b r.imm else .fsetEmpty h (r.mb 38) r.a r.imm)
  | 409 => some (.mzero h (offF r.imm 0 3))
  | 432 => some (.mloop h (r.mb 39) (r.mb 36) r.a (offF r.imm 0 3) (offF r.imm 3 3) (offF r.imm 6 3) (offF r.imm 9 9))
  | 433 => some (.mrdy h)
  | 434 => some (.mdrain h { res := r.mb 39, drop := r.mb 38, z := r.mb 37, tok := r.mb 36, slot := offF r.imm 0 3, ro := offF r.imm 3 3, rr := offF r.imm 6 3, a := r.a, b := r.b, c := r.c })
  | 435 => some (.qscale h (r.mb 36) r.d r.c (offF r.imm 0 3))
  | 436 => some (.fitr h (r.mb 39) r.d (offF r.imm 0 3))
  | 437 => some (.mbudg h r.d)
  | 459 => some (.cpy h (readCp r) r.d r.a r.b)
  | 460 => some (.cpys h (readCp r) r.d r.a r.c)
  | 461 => some (.cpyg h (readCp r) r.d r.a r.b r.c)
  | 462 => some (.cpyx h (readCp r) r.d r.a r.b r.c)
  | 463 => some (.cpyc h (r.mb 36) r.imm r.d r.a r.b)
  | 464 => some (.cpyv h (r.mb 36) r.imm r.d r.a r.b)
  | 465 => some (.scrb h r.a r.b (r.mo 33 5 + 1) (r.mo 31 2 + 1) r.imm)
  | 466 => some (if r.mb 39 then .scrhStop h r.d else .scrh h r.d)
  | 467 => some (.sloop h r.a (fld r.imm 9 18) (fld r.imm 0 9).toNat)
  | 486 => some (.phase h)
  | 513 => some (.csrr h r.d r.imm.toNat)
  | 514 => some (.csrw h r.a r.imm.toNat)
  | 515 => some (.tret h)
  | 516 => some (.clrc h r.imm)
  | 517 => some (if r.mb 38 then .launchRes h r.d r.a r.b else .launch h r.d r.a)
  | 518 => some (.kill h r.a)
  | 519 => some (if r.mb 38 then .preemptBlk h r.a r.b else .preempt h r.a)
  | 520 => some (.replay h r.d r.a r.b)
  | 521 => some (.deny h r.a r.b)
  | 522 => some (if r.mb 38 then .tlbiCtx h r.a r.b else if r.mf 38 1 = -1 then .tlbiDie h r.b else .tlbi h r.a r.b)
  | 523 => some (.halt h)  | _ => none

/-- The prefixes of a unit (R161, R162): X of PXI, and PXS. -/
structure Pfx where
  pxi : Option Int
  pxs : Option Pxs
  pxiFirst : Bool
  deriving DecidableEq, Repr

/-- The imm trits of a PXS (R162). -/
def pxsImm (p : Pxs) : Int := p.scope.code * pow3 6 + p.ord.code * pow3 4 + p.lease.code * pow3 2

/-- The units of the two prefixes. -/
def pxiUnit (x : Int) : Int := x + eo 540 6 * pow3 75
def pxsUnit (p : Pxs) : Int := pxsImm p + eo 541 6 * pow3 75

/-- The PXS that a unit holds, if its reserved trits and values are legal. -/
def readPxs (u : Int) : Option Pxs :=
  let p : Pxs := { scope := Scope.ofCode (fld u 6 3), ord := Ord.ofCode (fld u 4 2), lease := Lease.ofCode (fld u 2 2) }
  if pxsUnit p = u then some p else none

/-- Decodes the final instruction of a unit under its prefixes. -/
def decodeFinal (p : Pfx) (u : Int) : Except Reject Instr :=
  let r := Raw.unpack u
  if 675 ≤ r.op then
    (if p.pxi.isNone ∧ p.pxs.isNone then .ok (.hint u) else .error .prefix_)
  else
    let h : Hdr := { gpred := r.gpred, gcond := r.gcond, lag := r.lag, cede := r.cede, last := r.last
                     pxi := p.pxi, pxs := p.pxs, pxiFirst := p.pxiFirst }
    match readRaw h r with
    | none => .error .opcode
    | some i => if rawOf i = some r ∧ legal i then .ok i else .error .reserved

/-- Whether a prefix at an index stands in the last slot of a line that does not continue (R160). -/
def lineEnds (n : Int) : Bool := decide (wrap n 9 = half 9)

/-- Decodes the unit that begins at index n; answers the instruction and the unit's length. -/
def decodeUnit (n : Int) (us : List Int) : Except Reject (Instr × Nat) :=
  let fin (p : Pfx) (k : Nat) (u : Int) : Except Reject (Instr × Nat) :=
    match decodeFinal p u with
    | .ok i => .ok (i, k)
    | .error e => .error e
  let opOf (u : Int) : Nat := offF u 75 6
  match us with
  | [] => .error .short
  | u :: us1 =>
    if opOf u = 540 then
      if lineEnds n ∨ pxiUnit (fld u 0 54) ≠ u then .error .prefix_
      else match us1 with
        | [] => .error .short
        | v :: us2 =>
          if opOf v = 540 then .error .prefix_
          else if opOf v = 541 then
            if lineEnds (n + 1) then .error .prefix_
            else match readPxs v, us2 with
              | some s, w :: _ =>
                if opOf w = 540 ∨ opOf w = 541 then .error .prefix_
                else fin { pxi := some (fld u 0 54), pxs := some s, pxiFirst := true } 3 w
              | some _, [] => .error .short
              | none, _ => .error .reserved
          else fin { pxi := some (fld u 0 54), pxs := none, pxiFirst := true } 2 v
    else if opOf u = 541 then
      if lineEnds n then .error .prefix_
      else match readPxs u, us1 with
        | none, _ => .error .reserved
        | some _, [] => .error .short
        | some s, v :: us2 =>
          if opOf v = 541 then .error .prefix_
          else if opOf v = 540 then
            if lineEnds (n + 1) ∨ pxiUnit (fld v 0 54) ≠ v then .error .prefix_
            else match us2 with
              | [] => .error .short
              | w :: _ =>
                if opOf w = 540 ∨ opOf w = 541 then .error .prefix_
                else fin { pxi := some (fld v 0 54), pxs := some s, pxiFirst := false } 3 w
          else fin { pxi := none, pxs := some s, pxiFirst := true } 2 v
    else fin { pxi := none, pxs := none, pxiFirst := true } 1 u

end Machine

open Machine

/-- The units of an instruction, prefixes first (R160); none for an event. -/
def encode (i : Instr) : Option (List Int) :=
  match i with
  | .hint u => some [u]
  | _ =>
    match rawOf i, hdr i with
    | some r, some h =>
      let x := match h.pxi with
        | some v => [pxiUnit v]
        | none => []
      let s := match h.pxs with
        | some p => [pxsUnit p]
        | none => []
      some ((if h.pxiFirst then x ++ s else s ++ x) ++ [r.pack])
    | _, _ => none

/-- An 81-trit unit from its image of 17 pentad bytes, byte b holding trits 5b+4..5b as an atom does
(R50); the top byte holds trit 80. A rejected code reads as zero trits (R52). -/
def unitOfBytes (w : Nat) (k : Nat) : Int :=
  (List.range 17).foldl (fun acc b =>
    let x := w / Nat.pow 256 (17 * k + b) % 256
    acc + (if b = 16 then (if x ≤ 2 then (x : Int) - 1 else 0)
           else (if x ≤ 242 then (x : Int) - 121 else 0)) * pow3 (5 * b)) 0

/-- The instruction that the decoder reads from bits numbered as the opcode table numbers them: the bits
are the pentad image of the units (DESIGN CHOICE, log 7). The table gives no row any bits. -/
def decodeTableWord (nbits w : Nat) : Option Instr :=
  let v := w % Nat.pow 2 nbits
  match decodeUnit 0 [unitOfBytes v 0, unitOfBytes v 1, unitOfBytes v 2] with
  | .ok (i, _) => some i
  | .error _ => none

end Sys2Proof
end

