-- ==== Sys2Proof/Machine/Sector.lean ====
section
/-! DEFINITION. The sector image at the binary edge (R50-R54) and the compressed chunk
(R332-R336). -/

namespace Sys2Proof.Machine

/-- The value of a list of trytes, the first one lowest (R30). -/
def ofTrytes : List Int → Int
  | [] => 0
  | t :: ts => t + pow3 9 * ofTrytes ts

/-- n trytes of a value, lowest first (R30). -/
def toTrytes : Nat → Int → List Int
  | 0, _ => []
  | n + 1, x => wrap x 9 :: toTrytes n (shr x 9)

/-- The 49 data bytes of a sector given by its 27 trytes (R50). -/
def pentads (ts : List Int) : List Nat :=
  let s := ofTrytes ts
  (List.range 48).map (fun b => offF s (5 * b) 5) ++ [offF s 240 3]

/-- The 64-byte image of a sector with a metadata tag in byte 49 and bytes 56..63 (R50, R51, R332). -/
def atomImage (ts : List Int) (tag : Nat) (crc : List Nat) : List Nat :=
  pentads ts ++ [tag] ++ List.replicate 6 0 ++ (if crc.length = 8 then crc else List.replicate 8 0)

/-- What the binary shell reads from an atom (R52): the trytes, with the trits of rejected codes zero,
and whether a code was rejected. -/
structure AtomRead where
  trytes : List Int
  rejected : Bool
  deriving DecidableEq, Repr

/-- Decodes the 49 data bytes of an atom (R50, R52). -/
def readAtom (bs : List Nat) : AtomRead :=
  let data := bs.take 49
  let ok (b : Nat) (x : Nat) : Bool := if b = 48 then decide (x ≤ 26) else decide (x ≤ 242)
  let vals := data.zipIdx.map (fun (x, b) =>
    if ok b x then (if b = 48 then (x : Int) - 13 else (x : Int) - 121) else 0)
  let s := vals.zipIdx.foldl (fun acc (v, b) => acc + v * pow3 (5 * b)) 0
  { trytes := toTrytes 27 s
    rejected := (data.zipIdx.any (fun (x, b) => !ok b x)) }

/-- A metadata fault of an atom of a page not marked compressed (R53). -/
def badMeta (bs : List Nat) : Bool := (bs.drop 49).any (· ≠ 0)

/-- Nonzero bytes among 50..55 (R335). -/
def badMid (bs : List Nat) : Bool := ((bs.drop 50).take 6).any (· ≠ 0)

/-- The byte that an atom nothing has written holds at its place b: the zero sector (DESIGN CHOICE, log 1). -/
def zeroByte (b : Nat) : Nat := if b < 48 then 121 else if b = 48 then 13 else 0

/-- The encoding of one sector (R333, R334): presence word and present trytes. -/
def encSector (ts : List Int) : List Int :=
  let prev := 0 :: ts
  let marks := (ts.zip prev).zipIdx.map (fun ((t, p), i) =>
    if t = 0 then (0 : Int) else if i > 0 ∧ t = p then -1 else 1)
  let present := (ts.zip marks).filterMap (fun (t, m) => if m = 1 then some t else none)
  toTrytes 3 (ofTrits marks) ++ present

/-- Decodes one sector of length len at the head of a body; none when the encoding is not valid
(R333, R335). -/
def decSector (body : List Int) (len : Int) : Option (List Int) :=
  let pres := ofTrytes (body.take 3)
  let marks := trits 27 pres
  let plus := marks.countP (· = 1)
  if len < 3 ∨ len > 30 ∨ body.length < len.toNat ∨ marks.head? = some (-1) ∨ (3 + plus : Int) ≠ len then none
  else
    let step (st : List Int × List Int) (m : Int) : List Int × List Int :=
      -- st: decoded so far (last first), stream left
      if m = 0 then (0 :: st.1, st.2)
      else if m = 1 then (st.2.headD 0 :: st.1, st.2.tail)
      else (st.1.headD 0 :: st.1, st.2)
    some ((marks.foldl step ([], body.drop 3)).1.reverse)

/-- One bit step of the CRC-64 of R334 (ECMA-182, most significant bit first). -/
def crcBit (c : Nat) : Nat :=
  let c2 := c * 2 % 18446744073709551616
  if c ≥ 9223372036854775808 then c2 ^^^ 0x42F0E1EBA9EA3693 else c2

/-- One byte step of the CRC-64. -/
def crcByte (c : Nat) (b : Nat) : Nat :=
  let c0 := c ^^^ (b * 72057594037927936)
  crcBit (crcBit (crcBit (crcBit (crcBit (crcBit (crcBit (crcBit c0)))))))

/-- The CRC over the 49 data bytes of each sector in order (R334). -/
def crcSectors (secs : List (List Int)) : Nat :=
  secs.foldl (fun c s => (pentads s).foldl crcByte c) 18446744073709551615

/-- The eight bytes of a CRC, least significant first (R334). -/
def crcBytes (c : Nat) : List Nat := (List.range 8).map (fun i => c / Nat.pow 256 i % 256)

/-- The sectors of a list of trytes, 27 each. -/
def chunksOf (n : Nat) : Nat → List Int → List (List Int)
  | 0, _ => []
  | k + 1, l => l.take n :: chunksOf n k (l.drop n)

/-- The atoms that CPYC writes for 729 trytes: the number of the atom in the slot and its image (R334). The trytes after the last body
tryte in its atom are given: R334 states none (DESIGN CHOICE, log 80). -/
def encChunk (pad : Nat → Int) (ts : List Int) : List (Nat × List Nat) :=
  let secs := chunksOf 27 27 ts
  let encs := secs.map encSector
  let lens := encs.map (fun e => (e.length : Int))
  let crc := crcBytes (crcSectors secs)
  if lens.sum ≤ 702 then
    let body := encs.flatten
    let n := (body.length + 26) / 27
    (0, atomImage lens 0xC1 crc) ::
      (List.range n).map (fun k =>
        let b := (body.drop (27 * k)).take 27
        (k + 1, atomImage (b ++ (List.range (27 - b.length)).map (fun i => wrap (pad i) 9)) 0xC2 []))
  else
    secs.zipIdx.map (fun (s, k) => if k = 0 then (0, atomImage s 0xC3 crc) else (k, atomImage s 0xC4 []))

/-- The atoms of a packed chunk that hold sector j's encoding, and where it begins and how long it is (R333); none when
the header's lengths are not valid. -/
def bodyAtoms (head : List Int) (j : Nat) : Option (Nat × Int × List Nat) :=
  let lens := head.take (j + 1)
  let len := head[j]?.getD 0
  let b := (head.take j).sum
  if lens.any (fun l => decide (l < 3) || decide (l > 30)) || decide (b + len > 702) then none
  else
    let k0 := b.toNat / 27
    some (b.toNat - 27 * k0, len, (List.range ((b + len - 1).toNat / 27 - k0 + 1)).map (· + k0 + 1))
/-- The atoms of a chunk that a read of sector j reads: the header, and those that hold the sector (R117). -/
def chunkReads (atom : List (List Nat)) (j : Nat) : List Nat :=
  let a0 := (atom[0]?).getD []
  let tag := a0[49]?.getD 0
  if tag = 0xC1 then (match bodyAtoms (readAtom a0).trytes j with
    | some b => 0 :: b.2.2
    | none => [0])
  else if tag = 0xC3 ∧ j ≠ 0 then [0, j]
  else [0]

/-- What reading one sector of a compressed chunk gave (R335): the trytes (27 zeros when the encoding is
not valid), whether it was valid, and how many atoms read held a rejected code or bad metadata. -/
structure ChunkRead where
  trytes : List Int
  valid : Bool
  code : Nat
  deriving DecidableEq, Repr

/-- Reads sector j of a chunk whose atom k holds bytes atom k (R332, R335). -/
def readChunkSector (atom : List (List Nat)) (j : Nat) : ChunkRead :=
  let at_ (k : Nat) : List Nat := (atom[k]?).getD []
  let tag (k : Nat) : Nat := (at_ k)[49]?.getD 0
  let zero : List Int := List.replicate 27 0
  let head := readAtom (at_ 0)
  let bad (k : Nat) : Nat := if (readAtom (at_ k)).rejected || badMid (at_ k) then 1 else 0
  if tag 0 = 0 then { trytes := zero, valid := true, code := bad 0 }
  else if tag 0 = 0xC1 then
    match bodyAtoms head.trytes j with
    | none => { trytes := zero, valid := false, code := bad 0 }
    | some (skip, len, ks) =>
      let body := (ks.map (fun k => (readAtom (at_ k)).trytes)).flatten.drop skip
      let code := bad 0 + (ks.map bad).sum
      if ks.any (fun k => tag k ≠ 0xC2) then { trytes := zero, valid := false, code := code }
      else match decSector (body.take len.toNat) len with
        | some t => { trytes := t, valid := true, code := code }
        | none => { trytes := zero, valid := false, code := code }
  else if tag 0 = 0xC3 then
    if j = 0 then { trytes := head.trytes, valid := true, code := bad 0 }
    else { trytes := if tag j = 0xC4 then (readAtom (at_ j)).trytes else zero, valid := decide (tag j = 0xC4), code := bad 0 + bad j }
  else { trytes := zero, valid := false, code := bad 0 }

/-- A chunk read whole (R336): its 729 trytes, whether it failed, and how many of the atoms that it reads met CODE (R52). -/
def readChunk (atom : List (List Nat)) : List Int × Bool × Nat :=
  let rs := (List.range 27).map (readChunkSector atom)
  let tag0 := ((atom[0]?).getD [])[49]?.getD 0
  let stored := ((atom[0]?).getD []).drop 56
  let secs := rs.map (·.trytes)
  let fail := tag0 ≠ 0 && (rs.any (fun r => !r.valid) || decide (crcBytes (crcSectors secs) ≠ stored))
  let code := ((List.range 27).flatMap (chunkReads atom)).eraseDups.countP (fun k => (readAtom ((atom[k]?).getD [])).rejected || badMid ((atom[k]?).getD []))
  (if fail then List.replicate 729 0 else secs.flatten, fail, code)

end Sys2Proof.Machine
end

