-- ==== Sys2Proof/Config.lean ====
section
/-! DEFINITION. What an implementation fixes and the spec leaves open: free values. None has a body, so no
proof can see one (log 6, 8, 9). -/

namespace Sys2Proof.Config

/-- A value of the possible set that the spec does not constrain (R13): applied to the counter `fresh` (DESIGN CHOICE, log 6). -/
opaque freeWord : Nat → Int
/-- The trytes after the last body tryte of a packed chunk, a function of its data (R334; DESIGN CHOICE, log 80). -/
opaque chunkPad : List Int → Nat → Int
/-- The fixed hash of R111: which of nine slices a line of an owner has as home (DESIGN CHOICE, log 8). -/
opaque homeHash : Nat → Int → Fin 9
/-- What decoding the last unit of a stream gives: none when it is rejected, else the frames that leave the decoder in
display order. A stream is the list of its units with their codecs; an empty unit is a FLUSH (DESIGN CHOICE, log 9). -/
opaque codecFrames : List (Nat × List (BitVec 8)) → Option Nat
/-- Whether a frame has concealed errors (DESIGN CHOICE, log 9). -/
opaque codecConcealed : List (Nat × List (BitVec 8)) → Nat → Bool
/-- A decoded sample: stream, frame, plane, x, y (DESIGN CHOICE, log 9). -/
opaque codecSample : List (Nat × List (BitVec 8)) → Nat → Nat → Nat → Nat → Nat
/-- The frame size, whether samples have ten bits, and whether the stream is monochrome (DESIGN CHOICE, log 9). -/
opaque codecShape : List (Nat × List (BitVec 8)) → Nat × Nat × Bool × Bool
/-- SHA-384 (PRESUMED, log 10). -/
opaque sha384 : List (BitVec 8) → List (BitVec 8)
/-- The fused key hashes, which of them are revoked, and the fused minimum version (PRESUMED, log 10). -/
opaque fusedHashes : List (List (BitVec 8))
opaque revoked : Nat → Bool
opaque fusedMin : Nat
/-- Whether an ECDSA P-384 signature verifies: key, message digest, signature (PRESUMED, log 10). -/
opaque ecdsaOk : List (BitVec 8) → List (BitVec 8) → List (BitVec 8) → Bool
/-- The alias key's signature (digest of the firmware image, message digest), and the certificate chain of slot 0 (PRESUMED, log 10). -/
opaque aliasSign : List (BitVec 8) → List (BitVec 8) → List (BitVec 8)
opaque certChain : List (BitVec 8) → List (BitVec 8)
/-- The boot ROM's bytes (PRESUMED, log 10). -/
opaque bootRom : List (BitVec 8)
/-- Whether the package is strapped for two ports (R452; DESIGN CHOICE, log 16). -/
opaque twoPorts : Bool
/-- Where the firmware starts the supervisor of a partition (DESIGN CHOICE, log 17). -/
opaque supEntry : Nat → Int
/-- The domain's time when a package joins (R463; DESIGN CHOICE, log 6). -/
opaque domainTime : Nat → Nat

end Sys2Proof.Config
end

