-- ==== Sys2Proof/Machine/State.lean ====
section
/-! DEFINITION. The machine's state as plain data (log 3 names every value at reset that the spec does not
state). Keys: an owner is pkg * 27 + die; a core of the own package die * 81 + core; a warp core * 28 + wid;
a thread warp * 16 + lane. A user context has its number 1..27, the supervisor context of partition p 27 + p. -/

namespace Sys2Proof.Machine

/-- Why the machine stops with a fault. -/
inductive Fault where
  | none_  -- never raised: every trap, miss and error of the spec is a next state. Safe.
  deriving DecidableEq, Repr

/-- Why an instruction has no meaning. -/
inductive Refusal where
  | notModelled (mnemonic : String)  -- raised by Dispatch's arm of an instruction not yet reached. Safe.
  deriving DecidableEq, Repr

/-- The states of R65. -/
inductive TState where
  | runnable | held | waiting | parked | stopped | exited
  deriving DecidableEq, Repr

/-- Counter classes (R158). -/
inductive Cls where
  | ld | st | cp | tl
  deriving DecidableEq, Repr

/-- What a watched wait that has moved nothing waits for (R416, R418): ports with what each must serve (a pop is
positive), the mailbox of a block with the words for it, a sequence register (owner, slice, number), a folio, a spawn bin, a counter at its limit. -/
inductive WKind where
  | queue (needs : List (Nat × Int)) | mail (bid n : Nat) | ticket (own slice seq : Nat) | folio (f : Nat) | spawn (b : Nat) | limit (c : Cls)
  deriving DecidableEq, Repr

/-- What a WAITING thread waits for (R65, R414). `reissue` and `timed` issue their unit again, once `due`; in `fence`
the steps of R132 are in progress, for a FENCE (`ends`) or in front of the unit's own effect, which `fenced` lets follow:
`ph` is 0 in step 1, 1 in steps 2 and 3, and 2 in step 4. -/
inductive Wait where
  | none_ | reissue (k : WKind) (due : Bool) | timed (due : Bool) | until_ | fence (sc : Scope) (rel ends : Bool) (ph : Nat) | fenced (sc : Scope)
  | barrier (l : Level) (key k : Nat) (phase : Int) (bv : Bool) | barw (l : Level) (key k : Nat) (phase : Int)
  | phase | claim | ink | tret | counters (bounds : List Nat) (due : Bool) | nib (id : Nat)
  deriving DecidableEq, Repr

/-- A raised cause: its trit, the reported PC and the information of R400 and R397. -/
structure Raise where
  cause : Nat
  pc : Int := 0
  code : Int := 0
  status : Int := 0
  ea : Int := 0
  deferred : Bool := false
  deriving DecidableEq, Repr

/-- One level of a Scribe thread's loop state (R343). -/
structure Loop where
  start : Int
  stop : Int
  left : Int
  deriving DecidableEq, Repr

/-- One thread (R57, R397, R257, R343). `einfo` is the all-zero word at reset, as R397 says of the register, not the word
whose field `first` is 0 (R400; DESIGN CHOICE, log 3). -/
structure Thread where
  pc : Int := 0
  mr : Int := 0
  st : TState := .exited
  prior : TState := .exited
  wait : Wait := .none_
  busy : Bool := false          -- waits for the owner's answer or a fetch; not selected (R219, R277)
  next : Int := 0               -- where the unit that it last issued ends
  regs : Tab Int := []
  preds : Tab Int := []
  cause : Int := 0
  epc : Int := 0
  emr : Int := 0
  einfo : Int := 0
  eaddr : Int := 0
  hscr0 : Int := 0
  hscr1 : Int := 0
  deadline : Option Int := none
  dcode : Int := 0
  dinfo : Int := 0
  inH : Bool := false
  tret : Bool := false
  pend : Option Raise := none   -- the first trapping raising since the last entry (R402)
  early : Option Raise := none  -- the first raising since the last entry, trapping or not (R400)
  later : List Raise := []      -- deferred causes due at the next issue boundary (R403)
  unhandled : Bool := false     -- state 8 of R414
  loops : List Loop := []
  stamp : Nat := 0              -- the issue of the unit in which it is: lanes of one issue share it (R62)
  last : Nat := 0               -- when it last issued (R63)
  ready : Option Int := none    -- since when it may issue (R449)
  kept : Option (Nat × List Int) := none   -- of a lane that waits in its memory unit: its counted group, its port words (R78, R158)
  ldnb : Option Int := none     -- the time of the LDNB or TALARM that it waits in, as computed at its issue (R123, R242, R243)
  deriving DecidableEq, Repr

/-- An issued instruction of a counter class, with its lanes not yet done (R158). -/
structure Grp where
  gid : Nat
  cls : Cls
  left : Nat
  deriving DecidableEq, Repr

/-- A float result not yet written (R211): thread, register, width of the write. -/
structure Owed where
  thr : Nat
  d : Nat
  val : Int
  deriving DecidableEq, Repr

/-- A drafted thread's checkpoint (R252). -/
structure Ckpt where
  lane : Nat
  regs : Tab Int
  preds : Tab Int
  mr : Int
  deriving DecidableEq, Repr

/-- A line in a draft's read set: its virtual line index, its earliest grant, named by the number of writes that the
line's home had performed then, and the earliest lease end (R252). -/
structure RdLine where
  line : Int
  grant : Int
  stop : Option Int
  deriving DecidableEq, Repr

/-- The phases of a commit (R254). -/
inductive InkSt where
  | idle | sent (v : Int) | going (v : Int)
  deriving DecidableEq, Repr

/-- Draft state (R252). -/
structure Draft where
  depth : Nat := 0
  lanes : List Nat := []
  handler : Int := 0
  ckpt : List Ckpt := []
  grans : List Nat := []
  reads : List RdLine := []
  inked : List Nat := []
  ink : InkSt := .idle
  deriving DecidableEq, Repr

/-- One line of instructions: the line's index and its nine units (R276, R280). -/
structure FLine where
  line : Int
  units : List Int
  stamp : Nat := 0
  deriving DecidableEq, Repr

/-- One warp (R60, R131, R158, R395, R414). -/
structure Warp where
  ctx : Nat := 0
  bid : Nat := 0
  idx : Nat := 0
  spawned : Bool := false
  n : Nat := 9
  pl : Int := -1
  hm : Bool := false
  stopping : Bool := false
  rtC : Int := 0
  rtD : Int := 0
  rtP : Int := 0
  rtN : Int := 0
  out : List Grp := []
  owed : List Owed := []
  bph : Tab Int := []
  barr : Tab (List Nat) := []
  draft : Draft := {}
  fetch : Option FLine := none
  xsel : Int := 0
  lastHost : Int := 0           -- the address of the latest host-space write (R144)
  fguard : Option (Int × Int) := none   -- the guards, package and domain, with which a waiting fence began (R123)
  cpW : Int := 0                -- the latest W of its completed copies (R140)
  yld : Option (Nat × Int) := none  -- the place of a YLD among the issues, and when its effect ends (R273)
  deriving DecidableEq, Repr

/-- A folio's entry (R101): state 0 EMPTY, 1 FILLING, 2 READY, 3 DRAINING; nz0 first. -/
structure Folio where
  st : Nat := 0
  ring : Nat := 0
  slot : Nat := 0
  stag : Int := 0
  nz : List Nat := [0, 0, 0, 0, 0, 0, 0, 0, 0]
  deriving DecidableEq, Repr

/-- A ring (R102). -/
structure Ring where
  mem : List Nat := []
  p : Nat := 0
  c : Nat := 0
  deriving DecidableEq, Repr

/-- An accumulator slot (R288). -/
structure Slot where
  acc : Tab Int := []
  atype : NTy := .t9
  btype : NTy := .t9
  otype : OTy := .t9
  pa : Nat := 9
  pb : PB := .p9
  sa : Int := 243
  sb : Int := 243
  so : Int := 243
  s : Int := pow3 21
  otag : Int := 0
  fit : Int := 0
  deriving DecidableEq, Repr

/-- A Nib command's kind with what it captured at issue (R299-R308). -/
inductive NibOp where
  | zero
  | loop (ra rb k : Nat) (bhold : Bool) (at_ bt_ : NTy) (pa pb : Nat)
  | drain (o : DrainOp) (ot : OTy) (s so sr row col key theta otag : Int)
  | qscale (d c : Nat) (sa sb : Int) (ot : OTy)
  | fitr (d : Nat) (clr : Bool)
  deriving DecidableEq, Repr

/-- A queued Nib command: `now` while a step, drain or QSCALE of it is in progress, `fin` once all its work is done;
`order` counts commands as they end (R304); `waited` says that a refill found its next piece of work waiting, `front` that
it waited a whole refill period (R312). -/
structure NibCmd where
  id : Nat
  part : Nat
  warp : Nat
  widx : Nat := 0               -- the launch index of its warp
  lanes : List Nat
  gid : Nat
  slot : Nat
  op : NibOp
  tok : Option Int
  done : Nat := 0
  bFolio : Option Nat := none
  aFolio : Option Nat := none
  now : Bool := false
  fin : Bool := false
  soft : Bool := false
  order : Nat := 0
  waited : Bool := false
  front : Bool := false
  deriving DecidableEq, Repr

/-- The form of a copy (R322-R326). -/
inductive CpForm where
  | lin | strided (e s t : List Int) | gather | scatter | chunks | vellum
  deriving DecidableEq, Repr

/-- A copy in flight (R318, R331). -/
structure Copy where
  id : Nat
  warp : Nat
  lanes : List Nat
  gid : Nat
  pc : Int
  form : CpForm
  o : CpOpt
  src : Int
  dst : Int
  count : Nat
  rowLen : Nat := 1
  idxPort : Option Nat := none
  idxs : List Int := []
  pos : Nat := 0
  dfol : List Nat := []
  sfol : List Nat := []
  scale : Int := 243
  matched : Bool := false
  drop : Bool := false
  soft : Bool := false
  stopped : Bool := false
  parked : Option Int := none
  parkW : Bool := false         -- the access that waits is a write
  bad : List Int := []
  good : List Int := []
  buf : List (Nat × Int × List Int) := []   -- the source sectors read: owner and kind, index, trytes or bytes (R139)
  nz : List (List Nat) := []    -- nonzero counts of the trits written to each folio taken (R101)
  heard : Int := 0              -- the latest count of a home that it has read (R121)
  w : Int := 0
  deriving DecidableEq, Repr

/-- A scale-queue entry (R337). -/
structure SqEnt where
  tag : Int
  scale : Int
  used : Bool := false
  deriving DecidableEq, Repr

/-- An armed alarm (R243). -/
structure Alarm where
  at_ : Int
  word : Int
  deriving DecidableEq, Repr

/-- A spawn bin (R72, R73). -/
structure Bin where
  entry : Int
  args : List (Int × Int)
  due : Int
  flush : Bool := false
  slot : Option Nat := none
  deriving DecidableEq, Repr

/-- Who queued a claim (R74, R76, R340). -/
inductive ClaimBy where
  | warp (w g : Nat) (lanes : List Nat) | bin (b : Nat) | scribe (w : Nat)
  deriving DecidableEq, Repr

structure Claim where
  by_ : ClaimBy
  words : Nat
  deriving DecidableEq, Repr

/-- A drafted tryte (R253): order of entry, lane, address, value. -/
structure BTryte where
  warp : Nat
  lane : Nat
  ea : Int
  val : Int
  deriving DecidableEq, Repr

/-- A lease's end: a time, or without limit (R125). -/
inductive LEnd where
  | none_ | at_ (e : Int) | unlim
  deriving DecidableEq, Repr

/-- A tryte of an L1 or L2 line; `lost` of a written one of L2 that cannot be corrected (R438). -/
structure LTryte where
  written : Bool
  val : Int
  lost : Bool := false
  deriving DecidableEq, Repr

/-- An L1 line (R106, R107): trytes by position 0..80, per-sector lease end, grant (as in RdLine) and storing warp slot, and
the warps whose stores it holds, with their launch indexes. -/
structure L1Line where
  tr : Tab LTryte := []
  ends : Tab LEnd := []
  grant : Tab Int := []
  stw : Tab Nat := []
  by_ : List (Nat × Nat) := []
  stamp : Nat := 0
  deriving DecidableEq, Repr

/-- Scribe program state (R340, R344). -/
structure Scribe where
  state : Nat := 0
  warp : Nat := 0               -- the group that loads the program
  lanes : List Nat := []
  start : Int := 0
  len : Nat := 0
  units : List Int := []
  grans : Nat := 0
  alloc : Bool := false
  deriving DecidableEq, Repr

/-- A phase-buffer entry (R361); `lost` of one that cannot be corrected (R438). -/
inductive PEnt where
  | store (warpIdx : Nat) (warp : Nat) (sector : Int) (tr : Tab Int) (lost : Bool)
  | red (warpIdx : Nat) (warp : Nat) (ea : Int) (op : AOp) (sz : Sz) (v : Int) (lost : Bool)
  deriving DecidableEq, Repr

/-- A deferred write-back fault held by a core (R436). -/
structure HeldWbf where
  own : Nat
  ea : Int
  malformed : Bool
  recorded : Bool := false
  deriving DecidableEq, Repr

/-- One thread's arrival (R244, R246): its block (context * 2000000 + bid), launch index of its warp, lane; BARV's
operands. -/
structure Arr where
  blk : Nat
  idx : Nat
  lane : Nat
  bv : Option (AOp × Nat)
  src : Int := 0
  dst : Int := 0
  deriving DecidableEq, Repr

/-- A member's arrival: a warp, with its contribution at block level. -/
structure WArr where
  blk : Nat
  idx : Nat
  bv : Option (AOp × Nat)
  src : Int := 0
  dst : Int := 0
  vec : List Int := []
  deriving DecidableEq, Repr

/-- A barrier (R83, R244, R246): arrivals of threads, of warps and of blocks, and those of other packages. -/
structure Bar where
  phase : Int := 0
  arr : List Arr := []
  warps : List WArr := []
  blocks : List WArr := []
  ext : Nat := 0
  extBv : List (Option (AOp × Nat) × List Int) := []
  heard : Option Int := none     -- the latest time at which a signal was sent (R121)
  inPhase : Nat := 0             -- the phase of its latest arrival, at a phase-ending barrier (R365)
  deriving DecidableEq, Repr

/-- One core. -/
structure CoreSt where
  blk : Option (Nat × Nat) := none
  ports : Tab (List Int) := []
  claims : List Claim := []
  scr : Tab Int := []
  folio : Tab Folio := []
  rings : Tab Ring := []
  slots : Tab Slot := []
  nib : List NibCmd := []
  copies : List Copy := []
  sq : List SqEnt := []
  alarms : List Alarm := []
  bins : Tab Bin := []
  spawned : Nat := 0
  blot : List BTryte := []
  l1 : Tab L1Line := []
  ic : Tab FLine := []
  scribe : Scribe := {}
  tokW : Tab (List Int) := []   -- by port 9 or 14: the W that each token or completion word announces (R140, R348)
  pbuf : List PEnt := []
  wbf : List HeldWbf := []
  bars : Tab Bar := []
  clid : Nat := 0
  deriving DecidableEq, Repr

/-- A translation (R423): kind of page and where it lies; `pa` is the physical tryte of its centre. -/
structure Leaf where
  size : Nat
  r : Bool
  w : Bool
  x : Bool
  cmp : Bool
  place : Nat
  lease : Nat
  clown : Nat
  pa : Int
  deriving DecidableEq, Repr

/-- A TLB entry: context, virtual centre, leaf (R421). -/
structure TlbE where
  ctx : Nat
  va : Int
  leaf : Leaf
  deriving DecidableEq, Repr

/-- A window register (R426). -/
structure Win where
  vbase : Int := 0
  blen : Int := 0
  pbase : Int := 0
  ctx : Int := 0
  r : Int := 0
  w : Int := 0
  low : Int := 0
  high : Int := 0
  deriving DecidableEq, Repr

/-- A record bound for a q17 (R417, R429): the receiving core and its words. -/
structure Rec where
  core : Nat
  deferred : Bool
  words : List Int
  deriving DecidableEq, Repr

/-- A fault-buffer entry (R429). -/
structure FbEnt where
  ctx : Nat
  page : Int
  deriving DecidableEq, Repr

/-- A sequence register (R247): open for a context, N, D, drawn numbers with their blocks. -/
structure Seq where
  ctx : Nat
  n : Int := 0
  d : Int := 0
  drawn : List (Int × Nat) := []
  deriving DecidableEq, Repr

/-- A lease granted or a cap held on a line (R125, R134, R142). -/
structure Grant where
  core : Nat
  stop : Int
  deriving DecidableEq, Repr

/-- A prepare (`wr`) or a validation accepted on a line (R254). -/
structure Prep where
  warp : Nat
  v : Int
  wr : Bool
  deriving DecidableEq, Repr

/-- A line's record at its home; `writes` counts the writes performed on it (R254). -/
structure HLine where
  grants : List Grant := []
  preps : List Prep := []
  writes : Int := 0
  deriving DecidableEq, Repr

/-- A sector in L2: its trytes by position, the context of the latest write, its slice and its last use (R110, R112, R54). -/
structure L2Sec where
  tr : Tab LTryte := []
  ctx : Nat := 0
  slice : Nat := 0
  stamp : Nat := 0
  deriving DecidableEq, Repr

/-- A block waiting for placement (R447). -/
structure Queued where
  ctx : Nat
  bid : Nat
  since : Int
  resume : Bool
  deriving DecidableEq, Repr

/-- One owner (die of a package): its home side and, for the own package, what its cores share. -/
structure DieSt where
  clk : Int := 0
  vwin : Int := 0
  vel : Tab Int := []
  roots : Tab Int := []
  wins : Tab Win := []
  tlb : List TlbE := []         -- level 2 (R421)
  tlb1 : Tab (List TlbE) := []  -- level 1: the tables beside the nine clusters' paths, and at the crossing ingress, 9 (R421)
  fb : List FbEnt := []
  missed : List FbEnt := []     -- pairs that found the fault buffer full (R467)
  dropped : List Nat := []
  budget : Tab Int := []
  budgF : Int := 1594323
  refill : Int := 0
  full : Int := 1594323         -- the units that the last refill gave (R311)
  seqs : Tab Seq := []
  queue : List Queued := []
  lines : Tab HLine := []
  l2 : Tab L2Sec := []
  deriving DecidableEq, Repr

/-- Where a block is (R70, R410, R446-R448): `taken` has its core and has not started; `saving` since a time. -/
inductive BlkSt where
  | wait (met : Bool) | queued | taken (core : Nat) (resume : Bool) | placed (core : Nat) | held (met : Bool)
  | saving (core : Nat) (since : Int) | saved (core : Nat) | ended
  deriving DecidableEq, Repr

/-- A shared range (R357). -/
structure Range where
  base : Int
  kind : Int
  lines : Int
  deriving DecidableEq, Repr

/-- The launch parameters of R441. -/
structure Launch where
  ilock : Bool := false
  det : Bool := false
  prio : Int := 0
  spint : Nat := 2
  ftent : Int := 0
  entry : Int := 0
  folios : Nat := 0
  preds : Nat := 1
  regs : Nat := 9
  group : Nat := 1
  warps : Nat := 1
  rings : Nat := 0
  blocks : Nat := 1
  dies : List Nat := []
  dkey : Int := 0
  nbt : Int := 0
  depa : Int := 0
  depth : Int := 0
  cmpa : Int := 0
  pasid : Int := -1
  dgrant : List Nat := []
  init : List Int := []
  counts : Tab Int := []
  ranges : List Range := []
  deriving DecidableEq, Repr

/-- A saved block: what its record gives no layout for (R412; DESIGN CHOICE, log 11). -/
structure Saved where
  at_ : Nat
  core : CoreSt
  warps : Tab Warp
  thr : Tab Thread
  deriving DecidableEq, Repr

/-- A frame decoded but not yet put out: the stream decoded so far, each unit with its codec (an empty unit is a FLUSH),
and the frame's number among those that its last unit put out. -/
structure Frame where
  hist : List (Nat × List (BitVec 8))
  num : Nat
  deriving DecidableEq, Repr

/-- A decode session of one block (R346, R348): commands, slots (descriptor index and words), the stream since the last
RESET, completion words with the time that their writes wait for, a FLUSH in progress, a fault. -/
structure Session where
  cmds : List Int := []
  slots : List (Int × List Int) := []
  hist : List (Nat × List (BitVec 8)) := []
  frames : List Frame := []
  outw : List (Int × Int) := []
  flushing : Option Int := none
  parked : Option Int := none
  deriving DecidableEq, Repr

/-- One context (R397, R441-R446). `dbg` is the all-zero word at reset, as R397 and R442 say of the register, not the word
whose fields are each 0 (R401; DESIGN CHOICE, log 3). -/
structure Ctx where
  part : Nat := 0
  live : Bool := false
  order : Nat := 0              -- the order of acceptance (R447)
  killing : Bool := false
  killNeg : Bool := false
  tmask : Int := 0
  tvec : Int := 0
  hsave : Int := 0
  ftbase : Int := 0
  ftlen : Int := 0
  decbase : Int := 0
  k0 : Int := 0
  k1 : Int := 0
  dbg : Int := 0
  waddr : Int := 0
  savebase : Int := 0
  counters : Tab Int := []      -- die * 16 + number - 36
  lr : Launch := {}
  blk : Tab BlkSt := []
  depMet : Bool := false
  saved : Tab Saved := []
  place1 : Tab Nat := []        -- cluster of a block's first placement (R70)
  hang : Option Int := none
  own : Tab Nat := []           -- first block of a private line (R359)
  detSeen : List (Int × Nat) := []
  closed : List (Nat × Nat) := []  -- (bid, thread) that closed the phase (R363)
  phaseW : Int := 0
  phaseNo : Nat := 0            -- the phases that have ended (R363)
  phaseApplied : Bool := false
  pend : Tab (List PEnt) := []  -- phase-buffer entries of blocks that have ended (R363)
  sess : Tab Session := []
  rtN : Int := 0
  barRes : List (Nat × Option (Int × List Int) × Wait) := []   -- results kept for saved blocks (R246)
  recPark : Tab Int := []       -- pages that record writes wait for: bid + 1, 0 for the graph (R413)
  graph : Option (Int × List Int) := none  -- the time of a HANG and its graph, not yet written (R413, R416)
  deriving DecidableEq, Repr

/-- What a request in flight does (R90, R113, R128). -/
inductive RK where
  | load (sz : Sz) (d : Nat) (lease : Lease) (nb : Bool)
  | store (sz : Sz) (v : Int)
  | drafted (sz : Sz) (v : Int)
  | stva (sz : Sz) (v : Int) (t : Int)
  | atom (op : AOp) (sz : Sz) (v : Int) (d : Nat)
  | cas (sz : Sz) (e v : Int) (d : Nat)
  | atomo (op : AOp) (sz : Sz) (v : Int) (d : Nat) (s : Nat) (t : Int)
  | tkp (s : Nat) (t : Int)
  | tkt (s : Nat) (d : Nat)
  | tktOpen (s : Nat)
  | tktClose (s : Nat)
  | ldb (b : BType) (t : TType) (sat : Bool) (d : Nat)
  | stb (n : Nat) (bits : Nat) (clamped : Bool)
  | pref (lease : Lease)
  | wb (tr : Tab Int) (by_ : Nat)
  | fetch (line : Int)
  | callt (d : Nat) (sig : Int)
  | icpf (line : Int)
  | launch (d : Nat)
  | prep (warp : Nat) (v : Int) (check : Option Int) (wr : Bool)
  | commit (warp : Nat) (v : Int) (tr : List (Int × Int))
  | flush                       -- the zero-length read of a system release (R144)
  | msg (target : Nat) (word : Int)
  deriving DecidableEq, Repr

/-- How far a request is. -/
inductive Stage where
  | owner            -- on its way to the owner (R90)
  | faulted (mal : Bool)  -- its walk ended in a page fault (R422)
  | parked           -- its lane is parked (R428)
  | l1               -- to be served by the L1 (R107); for a line of code, by another request's fill (R378)
  | home             -- on its way to the home slice (R113)
  | buffered         -- in an ordered-atomic buffer or a pending STVA table (R234, R134)
  | refused          -- to be sent again (R234)
  | filled (tr : Tab Int) (e : LEnd) (s : Int)  -- fill data on its way to the L1 (R108)
  | reply (v : Int) (w : Int)       -- the home's reply on its way (R127)
  | pri              -- awaits a PRI response (R427)
  deriving DecidableEq, Repr

/-- A request in flight: `core` asks for `warp` and `lane`; `own`, `pa`, `leaf` once translated. -/
structure Req where
  id : Nat
  kind : RK
  stage : Stage := .owner
  ctx : Nat := 0
  core : Nat := 0
  warp : Nat := 0
  lane : Nat := 0
  widx : Nat := 0                -- the launch index of its warp: another warp may take the slot (R269)
  lanes : List Nat := []
  pc : Int := 0
  next : Int := 0
  gid : Nat := 0
  ea : Int := 0
  ea2 : Option Int := none
  t : Int := 0
  ord : Ord := .rlx
  scope : Scope := .dflt
  own : Nat := 0
  pa : Int := 0
  leaf : Option Leaf := none
  leaf2 : Option Leaf := none
  got : Tab Int := []
  causes : List Nat := []
  first : Bool := false
  drafted : Bool := false
  late : Bool := false
  held : Bool := false           -- on its way between packages (R121, R462)
  away : Bool := false           -- its warp is saved: the reply waits for the resumption (R235)
  bid : Nat := 0
  ws : List (Nat × Nat) := []    -- the warps whose stores a write-back carries, with their launch indexes (R131)
  arr : Nat := 0                 -- the order of arrival at the home (R134), or of a fault at level 2 (R429)
  words : List Int := []         -- the port words that its lane has taken (R78)
  sent : Int := 0                -- the sender's count when the message last left (R121)
  deriving DecidableEq, Repr

/-- The issue group that an instruction acts on: its warp, its lanes, the index n of the unit's final
instruction, the unit's first index and the next unit's index (R160, R259). -/
structure Cur where
  warp : Nat := 0
  lanes : List Nat := []
  n : Int := 0
  first : Int := 0
  next : Int := 0
  deriving DecidableEq, Repr

/-- What the next step is, when `inputs` names it (DESIGN CHOICE, log 5). -/
inductive Move where
  | issue (warp : Nat)
  | event (i : Instr)
  | tick
  deriving DecidableEq, Repr

/-- A posted write that the I/O die has accepted and not yet performed (R143, R456): its number, requester and partition,
the owner and byte, the bytes of one atom, and whether it is a whole sector. -/
structure Posted where
  no : Nat
  req : Nat
  part : Nat
  own : Nat
  byte : Nat
  bytes : List Nat
  sector : Bool
  deriving DecidableEq, Repr

/-- An inbox message on its way to q16 (R440, R456): its number, requester and word, and the latest W of the writes before
it. -/
structure InMsg where
  no : Nat
  req : Nat
  word : Int
  w : Option Int                -- the latest W of its requester's earlier writes, when there are any (R456)
  deriving DecidableEq, Repr

/-- A message that the package sends on a Hairline port for its clocks (R463). -/
inductive Clk where
  | sync | pdelayReq | pdelayResp
  deriving DecidableEq, Repr

/-- The management registers and the boot and security controller's state (R459-R466). -/
structure Mgmt where
  owner : Nat := 0
  claimst : Nat := 0
  partcfg : Nat := 0x100
  pending : Nat := 0x100
  p2p : Nat := 0
  bootst : Nat := 1
  fwlen : Nat := 0
  fwstat : Nat := 0
  domcfg : Nat := 1
  domain : Nat := 1             -- the packages of the domain that the firmware formed
  applying : Bool := false      -- a partition apply is in progress (R459)
  posted : List Posted := []
  flushes : List (Nat × Option Int) := []   -- reads of FLUSH that wait: when received, the latest W of the writes before (R457)
  lastW : Tab Int := []         -- latest W of a requester's writes to a partition: requester * 16 + partition
  pcap : Nat := 1500
  therm : Nat := 0
  clk : Nat := 1300
  hdisc : Nat := 0
  aer : Nat := 0                -- Unsupported Requests that AER has logged (R455)
  mdisc : Nat := 0
  fw : List Host.Cell := []
  msix : List Nat := []
  holdover : Bool := false
  noSync : Nat := 0             -- intervals without an accepted Sync
  goodSync : Nat := 0
  offset : Int := 0
  slewed : Nat := 0              -- nanoseconds since the counts were last corrected (R120)
  delays : Tab Int := []
  trained : Tab Bool := []
  powerOff : Bool := false
  fwImage : List (BitVec 8) := []
  spdmVer : Bool := false
  spdmCap : Bool := false
  spdmAlg : Bool := false
  spdmOut : List (List (BitVec 8)) := []
  stopped : List Nat := []
  clkOut : List (Nat × Clk × Int) := []   -- port, message, timestamp
  hostRd : List (List (BitVec 8)) := []
  deriving DecidableEq, Repr

/-- A partition: its dies, inbox buffer, discards, hang threshold, whether its supervisor runs. -/
structure Part where
  dies : List Nat := []
  msgs : List InMsg := []
  inbox : List Int := []
  flr : Bool := false           -- a function-level reset is in progress (R461)
  discards : Nat := 0
  hangth : Int := 1000000
  up : Bool := false
  portB : Bool := false
  deriving DecidableEq, Repr

/-- The whole machine: one package with the homes of the domain it reaches. -/
structure State where
  thr : Tab Thread
  wrp : Tab Warp
  cor : Tab CoreSt
  die : Tab DieSt
  ctxs : Tab Ctx
  parts : Tab Part
  reqs : List Req
  recs : List Rec
  bad : List (Nat × Nat)     -- uncorrectable data not yet read: store and key (R438)
  bars : Tab Bar             -- cluster, die and domain barriers (R83)
  mem : List Host.Cell
  host : List Host.Cell
  ats : List (Int × Int × Nat × Bool)  -- PASID, page, where it lies, whether writes are permitted (R427)
  mg : Mgmt
  pkg : Nat
  inputs : List Move
  cur : Cur
  fresh : Nat
  stamp : Nat
  nextId : Nat
  deriving DecidableEq, Repr

/-- The dies of the reset partition: PARTCFG resets to 0x100, one partition of dies 0..8 (R459, R461). -/
def resetPart : Part := { dies := [0, 1, 2, 3, 4, 5, 6, 7, 8] }

/-- The machine right after package reset (R397, R459; DESIGN CHOICE, log 3): no context exists, no core holds a block. -/
def State.reset : State :=
  { thr := [], wrp := [], cor := [], die := [], ctxs := [], parts := [(1, resetPart)], reqs := [], recs := [], bad := []
    bars := [], mem := [], host := [], ats := [], mg := {}, pkg := 0, inputs := [], cur := {}, fresh := 0
    stamp := 0, nextId := 1 }

end Sys2Proof.Machine
end

