-- ==== Sys2Proof/Machine/Ops.lean ====
section
/-! DEFINITION. The named operations over the state: registers (R58, R59), time (R120, R122), causes and
their delivery (R398-R407, R409), reconvergence (R67), drafts' rollback (R256), ports (R78-R82), counters
(R104, R158), records to q17 (R417, R429). -/

namespace Sys2Proof.Machine

/-! Parts of the state. -/

def State.thread (s : State) (t : Nat) : Thread := Tab.get {} s.thr t
def State.setThread (s : State) (t : Nat) (x : Thread) : State := { s with thr := Tab.put t x s.thr }
def State.warp (s : State) (w : Nat) : Warp := Tab.get {} s.wrp w
def State.setWarp (s : State) (w : Nat) (x : Warp) : State := { s with wrp := Tab.put w x s.wrp }
def State.core (s : State) (c : Nat) : CoreSt := Tab.get {} s.cor c
def State.setCore (s : State) (c : Nat) (x : CoreSt) : State := { s with cor := Tab.put c x s.cor }
def State.dieSt (s : State) (k : Nat) : DieSt := Tab.get {} s.die k
def State.setDie (s : State) (k : Nat) (x : DieSt) : State := { s with die := Tab.put k x s.die }
def State.ctx (s : State) (c : Nat) : Ctx := Tab.get {} s.ctxs c
def State.setCtx (s : State) (c : Nat) (x : Ctx) : State := { s with ctxs := Tab.put c x s.ctxs }
def State.part (s : State) (p : Nat) : Part := Tab.get {} s.parts p
def State.setPart (s : State) (p : Nat) (x : Part) : State := { s with parts := Tab.put p x s.parts }

/-- Keys (State.lean). -/
def coreOf (w : Nat) : Nat := w / 28
def widOf (w : Nat) : Nat := w % 28
def dieIdx (c : Nat) : Nat := c / 81
def warpOf (t : Nat) : Nat := t / 16
def threadOf (w lane : Nat) : Nat := w * 16 + lane
/-- The owner key of a die of the own package. -/
def State.ownKey (s : State) (d : Nat) : Nat := s.pkg * 27 + d
/-- The sixteen threads of a warp. -/
def threadsOf (w : Nat) : List Nat := (List.range 16).map (threadOf w)
/-- The warp slots of a core that hold a warp (R60). -/
def State.warpsOf (s : State) (c : Nat) : List Nat :=
  ((List.range 28).map (fun i => c * 28 + i)).filter (fun w => (Tab.find s.wrp w).isSome)
/-- The number of a context's supervisor (R395). -/
def supOf (p : Nat) : Nat := 27 + p
def isSup (c : Nat) : Bool := decide (28 ≤ c)

/-- The Ductus count that a core reads (R120). -/
def State.now (s : State) (c : Nat) : Int := (s.dieSt (s.ownKey (dieIdx c))).clk

/-! Time scopes. -/

/-- guard(s) (R122). -/
def State.guard (s : State) : Scope → Int
  | .pkg => if s.mg.holdover then 27 else 2
  | .domain => if s.mg.holdover then 243 else 20
  | .sys => if s.mg.holdover then 243 else 20
  | _ => 0
/-- lead(s) (R122). -/
def State.lead (s : State) : Scope → Int
  | .pkg => if s.mg.holdover then 725 else 700
  | .domain => if s.mg.holdover then 2223 else 2000
  | .sys => if s.mg.holdover then 2223 else 2000
  | _ => 400
/-- The narrowest scope that holds a core and an owner's slice (R122). -/
def State.natScope (s : State) (c own : Nat) (slice : Nat) : Scope :=
  if own / 27 ≠ s.pkg then .domain
  else if own % 27 ≠ dieIdx c then .pkg
  else if c % 81 / 9 = slice then .cluster else .die
/-- The wider of two scopes. -/
def wider (a b : Scope) : Scope := if a.code < b.code then b else a
/-- RT(s) raised by a W (R131); a fence that waits keeps the guards it began with (R123). -/
def State.raiseRT (s : State) (w : Nat) (t : Int) : State :=
  match Tab.find s.wrp w with
  | none => s
  | some x =>
    let g := x.fguard.getD (s.guard .pkg, s.guard .domain)
    s.setWarp w { x with rtC := max x.rtC t, rtD := max x.rtD t, rtP := max x.rtP (t + g.1), rtN := max x.rtN (t + g.2) }
/-- The latest release time of a context's writes, which its completion awaits (R446). -/
def State.ctxRT (s : State) (ctx : Nat) (t : Int) : State :=
  let x := s.ctx ctx
  s.setCtx ctx { x with rtN := max x.rtN (t + s.guard .domain) }
/-- RT(s) of a warp (R131). -/
def rtOf (x : Warp) : Scope → Int
  | .cluster => x.rtC | .die => x.rtD | .pkg => x.rtP | .domain => x.rtN | .sys => x.rtN | _ => 0

/-! Registers. -/

/-- The launch a warp belongs to. -/
def State.launchOf (s : State) (w : Nat) : Launch := (s.ctx (s.warp w).ctx).lr

/-- A special register of a thread (R59). -/
def State.special (s : State) (t r : Nat) : Int :=
  let w := warpOf t
  if r = 235 then 16 * (widOf w : Int) + (t % 16 : Nat) else if r = 236 then ((t % 16 : Nat) : Int)
  else if r = 237 then (widOf w : Int) else if r = 238 then ((s.warp w).bid : Int)
  else if r = 239 then ((s.core (coreOf w)).clid : Int)
  else if r = 240 then (dieIdx (coreOf w) : Int) else if r = 241 then (s.pkg : Int)
  else if r = 242 then 16 * ((s.launchOf w).warps : Int) else 0

/-- Reads a word field that names no port (R59). -/
def State.reg (s : State) (t r : Nat) : Int :=
  if r < 216 then Tab.get 0 (s.thread t).regs r else s.special t r
/-- Reads a pair (R30); where a form takes z for a pair, it reads 0 (R59, R217). -/
def State.regPair (s : State) (t r : Nat) : Int := if r < 216 then pair (s.reg t r) (s.reg t (r + 1)) else 0
/-- Writes a word; z discards (R59). -/
def State.setReg (s : State) (t r : Nat) (v : Int) : State :=
  if r < 216 then
    let x := s.thread t
    s.setThread t { x with regs := Tab.set 0 r v x.regs }
  else s
/-- Writes a pair (R30); a destination z discards. -/
def State.setPair (s : State) (t r : Nat) (v : Int) : State :=
  if r < 216 then (s.setReg t r (loW v)).setReg t (r + 1) (hiW v) else s
/-- Predicates (R57). -/
def State.pred (s : State) (t f : Nat) : Int := Tab.get 0 (s.thread t).preds f
def State.setPred (s : State) (t f : Nat) (v : Int) : State :=
  let x := s.thread t
  s.setThread t { x with preds := Tab.set 0 f v x.preds }

/-! Counters of R104 and R158. -/

/-- Adds to a context's counter on a die; saturating (R105). Numbers are those of R397, 36..45. -/
def State.count (s : State) (ctx die n : Nat) (k : Int) : State :=
  let x := s.ctx ctx
  let key := die * 16 + (n - 36)
  s.setCtx ctx { x with counters := Tab.set 0 key (min (Tab.get 0 x.counters key + k) (half 27)) x.counters }

/-- The value of a warp's counter (R158). -/
def cntOf (c : Cls) (x : Warp) : Nat := x.out.countP (fun g => decide (g.cls = c))
/-- Starts a counted instruction with a number of lanes; answers its group's id. -/
def State.openGrp (s : State) (w : Nat) (c : Cls) (n : Nat) : State × Nat :=
  let x := s.warp w
  ({ (s.setWarp w { x with out := x.out ++ [{ gid := s.nextId, cls := c, left := n }] }) with nextId := s.nextId + 1 }, s.nextId)
/-- One lane of a counted instruction is done, or parks (R158). -/
def State.doneLane (s : State) (w gid : Nat) : State :=
  match Tab.find s.wrp w with
  | none => s
  | some x =>
    s.setWarp w { x with out := (x.out.map (fun g => if g.gid = gid then { g with left := g.left - 1 } else g)).filter
                                  (fun g => decide (g.gid ≠ gid) || decide (g.left ≠ 0)) }

/-! Queue ports. -/

def portDepth (q : Nat) : Nat := if q ≤ 8 then 27 else 81
def State.port (s : State) (c q : Nat) : List Int := Tab.get [] (s.core c).ports q
def State.setPort (s : State) (c q : Nat) (v : List Int) : State :=
  let x := s.core c
  s.setCore c { x with ports := Tab.set [] q v x.ports }
/-- A closed port (R79). -/
def State.portClosed (s : State) (c ctx q : Nat) : Bool :=
  if q = 11 ∨ q = 12 then decide ((s.core c).scribe.state ≠ 2) && (s.port c q).isEmpty
  else if q = 14 then (s.ctx ctx).lr.dgrant.isEmpty else false
/-- Words a push to a port may still take; a push to q14 hands commands to the block's session (R346). -/
def State.portRoom (s : State) (c ctx bid q : Nat) : Nat :=
  if q = 14 then 81 - (Tab.get {} (s.ctx ctx).sess bid).cmds.length else portDepth q - (s.port c q).length
def State.portPush (s : State) (c ctx bid q : Nat) (v : List Int) : State :=
  if q = 14 then
    let x := s.ctx ctx
    let y := Tab.get {} x.sess bid
    s.setCtx ctx { x with sess := Tab.put bid { y with cmds := y.cmds ++ v } x.sess }
  else s.setPort c q (s.port c q ++ v)

/-- An engine pushes a word to a port with the W that it announces. -/
def State.pushToken (s : State) (c q : Nat) (v w : Int) : State :=
  let x := s.core c
  (s.setCore c { x with tokW := Tab.put q (Tab.get [] x.tokW q ++ [w]) x.tokW }).setPort c q (s.port c q ++ [v])
/-- Takes the first words of a port for a warp: what they announce raises its release times (R78, R140, R348). -/
def State.portPop (s : State) (w q n : Nat) : State :=
  let c := coreOf w
  let s1 := s.setPort c q ((s.port c q).drop n)
  if q = 9 ∨ q = 14 then
    let x := s1.core c
    let ws := Tab.get [] x.tokW q
    (ws.take n).foldl (fun a t => a.raiseRT w t) (s1.setCore c { x with tokW := Tab.put q (ws.drop n) x.tokW })
  else s1

/-! Records bound for q17 (R417, R429, R436). -/

/-- Moves the waiting records of a core into its q17 in order while they fit. -/
def State.flushRecs (s : State) (c : Nat) : State :=
  s.recs.foldl (fun (acc : State × Bool) r =>
    if acc.2 ∧ r.core = c then
      if (acc.1.port c 17).length + r.words.length ≤ 81 then
        ({ (acc.1.setPort c 17 (acc.1.port c 17 ++ r.words)) with recs := acc.1.recs.erase r }, true)
      else (acc.1, false)
    else acc) (s, true) |>.1
/-- Queues a record; a deferred record that finds 27 waiting is lost (R436). -/
def State.pushRec (s : State) (r : Rec) : State :=
  if r.deferred ∧ 27 ≤ s.recs.countP (fun x => x.deferred && decide (x.core = r.core)) then s
  else { s with recs := s.recs ++ [r] }.flushRecs r.core
/-- A field of offset reading placed at a trit (R4). -/
def oAt (u w p : Nat) : Int := eo u w * pow3 p
/-- The header word of R417. -/
def recHead (kind : Int) (len : Nat) (ctx : Int) (die : Nat) : Int :=
  kind * pow3 24 + oAt len 6 18 + ctx * pow3 9 + oAt die 3 6
/-- The context number that a record names: 1..27, or 0 for a supervisor context. -/
def recCtx (c : Nat) : Int := if isSup c then 0 else (c : Int)
/-- The Scriptorium core that receives the records of a context for an owner (R429). -/
def State.q17Core (s : State) (ctx own : Nat) : Nat :=
  let p := s.part (s.ctx ctx).part
  if own / 27 = s.pkg ∧ own % 27 ∈ p.dies then own % 27 * 81 else p.dies.headD 0 * 81
/-- A notice of kinds 2 to 6 with its body (R417). -/
def State.notice (s : State) (kind : Int) (ctx die : Nat) (body : List Int) : State :=
  s.pushRec { core := s.q17Core ctx (s.ownKey die), deferred := false
              words := recHead kind body.length (recCtx ctx) die :: body }

/-! Thread states. -/

/-- The re-examination of R67 for one warp. -/
def State.meetingFull (s : State) (w : Nat) (v : Int) : Bool :=
  (threadsOf w).all (fun t => decide ((s.thread t).st = .exited) || decide ((s.thread t).mr ≠ v)
    || decide ((s.thread t).st = .held))
/-- The threads of a warp whose meeting is complete. -/
def State.met (s : State) (w : Nat) : List Nat :=
  (threadsOf w).filter (fun t => decide ((s.thread t).st = .held) && decide ((s.thread t).mr ≠ 0) && s.meetingFull w (s.thread t).mr)
/-- The threads of a complete meeting go on together: they share a new issue stamp, and no lane that was with one of them
before holds it back (R67). -/
def State.meet (s : State) (w : Nat) : State :=
  if (s.met w).isEmpty then s
  else (s.met w).foldl (fun a t => a.setThread t { s.thread t with st := .runnable, mr := 0, stamp := s.stamp + 1 }) { s with stamp := s.stamp + 1 }

/-- Every non-exited thread of a warp becomes STOPPED, keeping its prior state (R66). -/
def State.stopWarp (s : State) (w : Nat) : State :=
  (threadsOf w).foldl (fun a t =>
    let x := a.thread t
    if x.st = .exited ∨ x.st = .stopped then a else a.setThread t { x with st := .stopped, prior := x.st }) s

/-- Where a Scribe thread goes that reaches a PC: back to the start of a body with passes left, or on (R343). -/
def routeLoops : List Loop → Int → List Loop × Int
  | [], pc => ([], pc)
  | l :: ls, pc =>
    if pc = l.stop then (if 1 < l.left then ({ l with left := l.left - 1 } :: ls, l.start) else routeLoops ls pc) else (l :: ls, pc)
/-- A lane gives up the unit in which it waits: it counts no longer, and its words are lost (R158). -/
def State.dropKept (s : State) (t : Nat) : State :=
  let x := s.thread t
  match x.kept with
  | some k => (s.doneLane (warpOf t) k.1).setThread t { x with kept := none, ldnb := none }
  | none => s
/-- A thread's end: what is owed to it is discarded (R269). -/
def State.endThread (s0 : State) (t : Nat) : State :=
  let s := s0.dropKept t
  let w := warpOf t
  let x := s.warp w
  { (s.setWarp w { x with owed := x.owed.filter (fun o => decide (o.thr ≠ t)) }) with thr := Tab.del t s.thr }
/-- Retires a unit in a lane: the PC moves on (R152); a Scribe thread outside a handler loops, or exits past its
program (R342, R343). -/
def State.retire (s : State) (t : Nat) (pc : Int) : State :=
  let x := s.thread t
  let y : Thread := { x with pc := pc, st := if x.st = .stopped then .stopped else .runnable
                             prior := if x.st = .stopped then .runnable else x.prior
                             wait := .none_, busy := false, deadline := none, kept := none, ldnb := none }
  if widOf (warpOf t) = 27 ∧ !x.inH then
    let k := (s.core (coreOf (warpOf t))).scribe
    let r := routeLoops x.loops pc
    if k.start + (k.len : Int) ≤ r.2 then s.endThread t else s.setThread t { y with pc := r.2, loops := r.1 }
  else s.setThread t y
/-- A wait is satisfied and its unit retires (R65). -/
def State.endWait (s : State) (t : Nat) : State := s.retire t (s.thread t).next
/-- A lane begins a wait (R66). -/
def State.waitLane (s : State) (t : Nat) (k : Wait) : State :=
  let x := s.thread t
  s.setThread t { x with st := if x.st = .stopped then .stopped else .waiting
                         prior := if x.st = .stopped then .waiting else x.prior, wait := k }

/-! Drafts (R252, R256). -/

/-- Whether a lane of a warp is a draft lane. -/
def State.drafting (s : State) (w lane : Nat) : Bool :=
  decide ((s.warp w).draft.depth ≠ 0) && (s.warp w).draft.lanes.contains lane

/-- Lifts what a warp's draft holds at the homes (R254). -/
def State.liftPreps (s : State) (w : Nat) : State :=
  { s with die := s.die.map (fun (k, d) =>
      (k, { d with lines := d.lines.map (fun (j, l) => (j, { l with preps := l.preps.filter (fun p => decide (p.warp ≠ w) || s.reqs.any (fun r => match r.kind with
        | .commit v u _ => decide (v = w) && decide (u = p.v) && decide (r.stage = .home)
        | _ => false)) })) }))
           reqs := s.reqs.filter (fun r => match r.kind with
             | .prep v _ _ _ => decide (v ≠ w)
             | _ => true) }

/-- A lane whose draft an abort or a rollback has ended since the unit began: it stands at the handler (R256). -/
def State.rolled (s0 s : State) (t : Nat) : Bool := s0.drafting (warpOf t) (t % 16) && !s.drafting (warpOf t) (t % 16)
/-- Restores one draft lane and sends it to the handler; its drafted requests are dropped and count no longer, and it waits for no
fetch of its group any more (R256). -/
def State.rollLane (s0 : State) (w lane : Nat) (code info : Int) : State :=
  let fetch (r : Req) : Bool := decide (r.warp = w) && (match r.kind with
    | .fetch _ => true
    | _ => false)
  let mine (r : Req) : Bool := decide (r.warp = w) && !fetch r && decide (r.lane = lane) && r.drafted
  let s := (s0.reqs.filter mine).foldl (fun a r => a.doneLane w r.gid) (s0.dropKept (threadOf w lane))
  let d := (s.warp w).draft
  let t := threadOf w lane
  let x := s.thread t
  match d.ckpt.find? (fun c => decide (c.lane = lane)) with
  | none => s
  | some c =>
    let st := if x.st = .stopped then TState.stopped else .runnable
    { (s.setThread t { x with regs := c.regs, preds := c.preds, mr := c.mr, pc := d.handler, st := st
                              prior := .runnable, wait := .none_, busy := false, deadline := none, ldnb := none
                              dcode := code, dinfo := info, pend := none }) with
      reqs := ((s.reqs.filter (fun r => !mine r)).map (fun r => if fetch r && r.lanes.contains lane then
        { r with lanes := r.lanes.filter (fun l => decide (l ≠ lane)), lane := (r.lanes.filter (fun l => decide (l ≠ lane))).headD 0 } else r)).filter
          (fun r => !(fetch r && r.lanes.isEmpty))
      cor := (s.setCore (coreOf w) { s.core (coreOf w) with
        blot := (s.core (coreOf w)).blot.filter (fun b => !(decide (b.warp = w) && decide (b.lane = lane))) }).cor }

/-- Rolls back some lanes; when none is left the draft ends (R255, R256). -/
def State.rollback (s : State) (w : Nat) (lanes : List Nat) (code info : Int) : State :=
  let s1 := lanes.foldl (fun a l => a.rollLane w l code info) s
  let x := s1.warp w
  let rest := x.draft.lanes.filter (fun l => !lanes.contains l)
  let owed := x.owed.filter (fun o => !(lanes.map (threadOf w)).contains o.thr)
  if rest.isEmpty then (s1.setWarp w { x with draft := {}, owed := owed }).liftPreps w
  else s1.setWarp w { x with draft := { x.draft with lanes := rest }, owed := owed }
/-- A warp rollback (R256); a draft whose commit has been sent ends by its commit. -/
def State.abort (s : State) (w : Nat) (code info : Int) : State :=
  let d := (s.warp w).draft
  let going : Bool := match d.ink with
    | .going _ => true
    | _ => false
  if d.depth = 0 ∨ going then s else s.rollback w (s.warp w).draft.lanes code info

/-! Raising (R398-R405). -/

/-- The soft causes (R399). -/
def isSoft (c : Nat) : Bool :=
  c = 9 || c = 10 || c = 16 || c = 17 || c = 18 || c = 23 || c = 24
/-- Whether a raising traps in a context (R399). -/
def State.traps (s : State) (ctx c : Nat) : Bool :=
  decide (c ≠ 19) && (!isSoft c || decide (trit (s.ctx ctx).tmask c = 1))
/-- Sets a cause's trit (R398). -/
def setCause (x : Int) (c : Nat) : Int := setFld x c 1 1

/-- Sets the cause in a thread and, when it traps, marks the warp as stopping. -/
def State.raiseSet (s : State) (t : Nat) (r : Raise) : State :=
  let x := s.thread t
  let w := warpOf t
  if s.traps (s.warp w).ctx r.cause then
    let s1 := s.setThread t { x with cause := setCause x.cause r.cause, pend := some (x.pend.getD r), early := some (x.early.getD r), busy := false }
    s1.setWarp w { s1.warp w with stopping := true }
  else s.setThread t { x with cause := setCause x.cause r.cause, early := some (x.early.getD r) }

/-- Raises a cause in a thread (R398); inside a draft as R256 states: a deferred cause is no fault of the lane's own access. -/
def State.raise (s : State) (t : Nat) (r : Raise) : State :=
  let w := warpOf t
  if (s.thread t).st = .exited then s
  else if (s.warp w).draft.depth ≠ 0 ∧ s.traps (s.warp w).ctx r.cause then
    if s.drafting w (t % 16) then
      if (r.cause = 4 ∨ r.cause = 5 ∨ r.cause = 6) ∧ !r.deferred then s.rollback w [t % 16] 5 0
      else s.abort w 9 (r.cause : Int)
    else (s.abort w 9 (r.cause : Int)).raiseSet t r
  else s.raiseSet t r

/-- Raises a precise cause in each of some lanes at the unit's first index (R403); lanes that an earlier lane's cause has
rolled back stand at their handler (R256). -/
def State.raiseAll (s : State) (ts : List Nat) (r : Raise) : State := ts.foldl (fun a t => if s.rolled a t then a else a.raise t r) s
/-- A cause that arrives after its unit retired is raised at the next issue boundary, with its status (R400, R403). -/
def State.defer (s : State) (t c : Nat) (ea : Int) (status : Int := 0) : State :=
  let x := s.thread t
  if x.st = .exited then s
  else s.setThread t { x with later := x.later ++ [{ cause := c, status := status, ea := ea, deferred := true }] }

/-! Forced saves and kills (R407, R409, R413, R415). -/

/-- SAVEBASE is the lowest tryte of a unit of 3^12 (R412). -/
def saveBaseOk (b : Int) : Bool := decide (wrap b 12 = - half 12) && decide (trit b 53 = 1)

/-- A kill begins: the context's warps stop; KILL_COMPLETE ends it (R415). -/
def State.startKill (s : State) (ctx : Nat) (neg : Bool) : State :=
  let x := s.ctx ctx
  (s.wrp.foldl (fun a (w, v) => if v.ctx = ctx then a.stopWarp w else a) s).setCtx ctx
    { x with killing := true, killNeg := neg }

/-- A save of a resident block begins: drafts abort and its warps stop (R410). -/
def State.startSave (s : State) (ctx bid : Nat) : State :=
  let x := s.ctx ctx
  match Tab.find x.blk bid with
  | some (.placed c) =>
    let s1 := (s.warpsOf c).foldl (fun a w => (a.abort w 7 0).stopWarp w) s
    s1.setCtx ctx { s1.ctx ctx with blk := Tab.put bid (.saving c (s.now c)) (s1.ctx ctx).blk }
  | _ => s
/-- A core's block is being saved, or its context killed: nothing new begins there (R410, R415). -/
def State.savingCore (s : State) (c : Nat) : Bool :=
  (s.core c).blk.any (fun b => match Tab.find (s.ctx b.1).blk b.2 with
    | some (.saving ..) => true
    | _ => (s.ctx b.1).killing)
/-- A save that the device forces (R413). -/
def State.forceSave (s : State) (ctx bid : Nat) : State :=
  if saveBaseOk (s.ctx ctx).savebase then s.startSave ctx bid else s.startKill ctx true

/-- A Scriptorium core stops, with every warp on it, and the boot controller is told; BOOTST's change raises vector 1 (R407,
R409, R464). -/
def State.supStop (s : State) (w : Nat) : State :=
  { ((s.warpsOf (coreOf w)).foldl (fun a v => a.stopWarp v) s) with
    mg := { s.mg with bootst := 6, stopped := s.mg.stopped ++ [coreOf w], msix := if s.mg.bootst = 6 then s.mg.msix else s.mg.msix ++ [1] } }

/-! Taking a trap (R402). -/

/-- What EINFO holds after an entry (R400): the first cause raised since the previous entry, also one that did not trap, with
the status and the code of the first that trapped (DEDUCED, log 64). -/
def einfoOf (f r : Raise) : Int :=
  (if f.deferred then pow3 26 else 0) + oAt f.cause 5 21 + r.status * pow3 18 + r.code
/-- A thread's registers as entry sets them (R402, R409); a deferred cause reports the thread's PC (R403). -/
def entryRegs (x : Thread) (r : Raise) : Thread :=
  { x with epc := if r.deferred then x.pc else r.pc, emr := x.mr, einfo := einfoOf (x.early.getD r) r, eaddr := r.ea, pend := none
           early := none, ldnb := none }
/-- A thread of H enters the handler (R402). -/
def enterThread (tvec : Int) (x : Thread) (r : Raise) : Thread :=
  { entryRegs x r with mr := 0, pc := wrap tvec 52, st := .runnable, inH := true, tret := false, wait := .none_
                       deadline := none }

/-- Requests that bring a result to a register, or that their unit's end awaits at the core. -/
def owesResult : RK → Bool
  | .load .. => true | .atom .. => true | .cas .. => true | .ldb .. => true | .tkt .. => true
  | .store .. => true | .drafted .. => true | .callt .. => true | .atomo _ _ _ d _ _ => decide (d < 216)
  | _ => false
/-- Whether a stopped warp stands precise without a request: no result of it is owed, and its lane has retired its unit
or is parked at it (R212, R405). -/
def Req.rests (r : Req) : Bool :=
  match r.stage, r.kind with
  | .parked, _ => true
  | .pri, _ => true
  | _, .fetch _ => true
  | .owner, k => decide (r.lane = 16) && !owesResult k
  | .faulted _, k => decide (r.lane = 16) && !owesResult k
  | _, k => !owesResult k
/-- No result of the warp is outstanding, and every lane has retired its unit or not begun it (R212, R405). -/
def State.quiet (s : State) (w : Nat) : Bool :=
  (s.warp w).owed.isEmpty && (match (s.warp w).draft.ink with
    | .going _ => false
    | _ => true) && s.reqs.all (fun r => decide (r.warp ≠ w) || r.rests)
    && (s.core (coreOf w)).nib.all (fun c => decide (c.warp ≠ w) || decide (c.widx ≠ (s.warp w).idx) || c.fin || (match c.op with
      | .qscale .. => false
      | _ => true))
/-- Whether no trap of a warp is delivered now: its block is being saved or its context killed, or its core has stopped
(R407, R410, R415). -/
def State.frozen (s : State) (w : Nat) : Bool :=
  s.savingCore (coreOf w) || (s.ctx (s.warp w).ctx).killing || s.mg.stopped.contains (coreOf w)

/-- The threads whose raisings await delivery. -/
def State.raisers (s : State) (w : Nat) : List Nat := (threadsOf w).filter (fun t => (s.thread t).pend.isSome)

/-- Entry into the handler: R402 for a stopped warp without outstanding results. -/
def State.enter (s : State) (w : Nat) : State :=
  let x := s.warp w
  let tv := (s.ctx x.ctx).tvec
  let s1 := (s.raisers w).foldl (fun a t =>
    let y := a.thread t
    match y.pend with
    | some r =>
      let b := a.dropKept t
      b.setThread t (enterThread tv (b.thread t) r)
    | none => a) s
  (s1.setWarp w { s1.warp w with pl := if isSup x.ctx then x.pl else 0, hm := true, stopping := false }).meet w

/-- A double trap (R407). -/
def State.double (s : State) (w : Nat) : State :=
  let x := s.warp w
  let s0 := s.setWarp w { x with stopping := false }
  if isSup x.ctx then s0.supStop w
  else
    let s1 := (s0.raisers w).foldl (fun a t =>
      let y := a.thread t
      if y.inH then a.setThread t { y with pend := none } else a) s0
    (s1.notice 2 x.ctx (dieIdx (coreOf w)) [(x.bid : Int), ((coreOf w % 81 : Nat) : Int) + (widOf w : Int) * pow3 9]).forceSave x.ctx x.bid

/-- An unhandled trap (R409). -/
def State.unhandledTrap (s : State) (w : Nat) : State :=
  let x := s.warp w
  let s0 := s.setWarp w { x with stopping := false }
  if isSup x.ctx then s0.supStop w
  else
    let s1 := (s0.raisers w).foldl (fun a t =>
      let y := a.thread t
      match y.pend with
      | some r =>
        let b := a.dropKept t
        let z := entryRegs (b.thread t) r
        b.setThread t { z with emr := y.emr, pc := z.epc, unhandled := true, wait := .none_, deadline := none }
      | none => a) s0
    (s1.notice 6 x.ctx (dieIdx (coreOf w)) [(x.bid : Int), ((coreOf w % 81 : Nat) : Int) + (widOf w : Int) * pow3 9]).forceSave x.ctx x.bid

/-- Whether a thread of H raised a trapping cause (R407). -/
def State.doubled (s : State) (w : Nat) : Bool := (s.raisers w).any (fun t => (s.thread t).inH)

/-- Delivery of the raisings of a warp once its results are written: TRAP_ENTRY, DOUBLE_TRAP or
UNHANDLED_TRAP (R402, R407, R409). A raising outside H in handler mode waits for TRET (R406). -/
def State.deliver (s : State) (w : Nat) : State :=
  let x := s.warp w
  if !x.stopping ∨ (s.raisers w).isEmpty ∨ s.frozen w then s
  else if x.hm then
    if s.doubled w then (s.stopWarp w).double w else s.setWarp w { x with stopping := false }
  else if !s.quiet w then s.stopWarp w
  else if (s.ctx x.ctx).tvec = 0 then (s.stopWarp w).unhandledTrap w
  else (s.stopWarp w).enter w

/-- A warp whose threads have all exited frees its slot once its ld counter is 0 (R269); its RT(domain) stays with the
context (R446). -/
def State.freeWarp (s : State) (w : Nat) : State :=
  match Tab.find s.wrp w with
  | none => s
  | some x =>
    if (threadsOf w).all (fun t => decide ((s.thread t).st = .exited)) && decide (cntOf .ld x = 0) && (decide (widOf w ≠ 27) || decide ((s.core (coreOf w)).scribe.state ≠ 2)) then
      let c := s.core (coreOf w)
      let y := s.ctx x.ctx
      ({ (s.setCtx x.ctx { y with rtN := max y.rtN x.rtN }) with
          wrp := Tab.del w s.wrp, thr := s.thr.filter (fun p => decide (warpOf p.1 ≠ w)) }).setCore (coreOf w)
        { c with claims := c.claims.filter (fun k => match k.by_ with
          | .warp v _ _ => decide (v ≠ w)
          | _ => true) }
    else s
/-- After a unit or an event: traps are delivered, meetings re-examined, and an ended warp leaves (R405, R67, R269). -/
def State.settle (s : State) (w : Nat) : State := ((s.deliver w).meet w).freeWarp w

/-- Whether every thread of H that has not exited has executed TRET (R406). -/
def State.allReturn (s : State) (w : Nat) : Bool :=
  (s.warp w).hm && (threadsOf w).any (fun t => (s.thread t).inH && (s.thread t).tret)
    && (threadsOf w).all (fun t => !(s.thread t).inH || (s.thread t).tret || decide ((s.thread t).st = .exited))
/-- TRET's step once every thread of H has executed it (R406). -/
def State.leave (s : State) (w : Nat) : State :=
  let x := s.warp w
  let s1 := (threadsOf w).foldl (fun a t =>
    let y := a.thread t
    if y.st = .exited then a
    else if y.inH then
      let b := a.setThread t { y with pc := wrap y.epc 52, mr := wrap y.emr 52, st := .runnable, inH := false, tret := false
                                      wait := .none_ }
      if widOf w = 27 then b.retire t (wrap y.epc 52) else b
    else if y.st = .stopped then a.setThread t { y with st := y.prior }
    else a) s
  let s2 := s1.setWarp w { s1.warp w with pl := if isSup x.ctx then x.pl else -1, hm := false
                                          stopping := !(s1.raisers w).isEmpty }
  (s2.meet w).settle w

end Sys2Proof.Machine
end

