-- ==== Sys2Proof/Machine/Flags.lean ====
section
/-! DEFINITION. Predicates as flags: the guard (R151), integer and float comparison trits (R182, R205),
predicate logic words (R191), and which trits a t3 compare writes. -/

namespace Sys2Proof.Machine

/-- Whether a condition holds of a predicate (R151). -/
def guardHolds (gcond : Nat) (p : Int) : Bool :=
  if gcond = 0 then true
  else if gcond = 1 then decide (p = 1) else if gcond = 2 then decide (p = 0)
  else if gcond = 3 then decide (p = -1) else if gcond = 4 then decide (0 ≤ p)
  else if gcond = 5 then decide (p ≤ 0) else decide (p ≠ 0)

/-- Whether a lane is active for a unit (R151, R152). -/
def State.laneOn (s : State) (h : Hdr) (t : Nat) : Bool := guardHolds h.gcond (s.pred t h.gpred)

/-- The comparison trit of two integers (R182). -/
def cmpTrit (a b : Int) : Int := sgn (a - b)

/-- The order trit and the unordered trit of FCMP (R205). -/
def fcmpTrits (x y : FVal) : Int × Int :=
  match cmpV x y with
  | some r => (r, 0)
  | none => (0, 1)

/-- A word that holds 27 predicates from `a` on, lowest in trit 0 (R191). -/
def predsWord (p : Nat → Int) (a : Nat) : Int := ofTrits ((List.range 27).map (fun i => p (a + i)))

end Sys2Proof.Machine
end

