-- ==== Sys2Proof/Machine/Operands.lean ====
section
/-! DEFINITION. The operand forms (R148-R155, R171-R174) and the issue of one unit: the checks of R159 from
step 5 on, the guard, ports in one step (R80), a draft's granules (R253), and the lanes' results. -/

namespace Sys2Proof.Machine

/-- The level that a form needs (R395). -/
inductive Level3 where
  | user | handler | sup
  deriving DecidableEq, Repr

/-- The operand fields of a unit by role (R171): `src` and `dst` may name ports, the others may not. -/
structure Uses where
  src : List Nat := []
  srcR : List Nat := []
  srcP : List Nat := []
  dst : List Nat := []
  dstR : List Nat := []
  dstP : List Nat := []
  zPair : Bool := false       -- a pair destination may name z (R217)
  preds : List Nat := []
  names : List Nat := []      -- a field that names a port without access (QSTAT)
  level : Level3 := .user
  forbid : Bool := false
  sloop : Bool := false
  deriving DecidableEq, Repr

/-- The registers a unit reads or writes. -/
def Uses.regs (u : Uses) : List Nat :=
  u.src ++ u.srcR ++ u.dst ++ u.dstR ++ u.srcP ++ u.dstP ++ u.srcP.map (· + 1) ++ u.dstP.map (· + 1)
/-- The port fields of a unit. -/
def Uses.ports (u : Uses) : List Nat := (u.src ++ u.dst ++ u.names).filter isPort

/-- The registers that a request still owes (R156). -/
def reqDst : RK → List Nat
  | .load sz d .. => if sz = .dw then [d, d + 1] else [d]
  | .atom _ sz _ d => if sz = .dw then [d, d + 1] else [d]
  | .cas sz _ _ d => if sz = .dw then [d, d + 1] else [d]
  | .atomo _ sz _ d .. => if sz = .dw then [d, d + 1] else [d]
  | .ldb _ t _ d => if t = .t54 then [d, d + 1] else [d]
  | .tkt _ d => [d]
  | _ => []

/-- Registers of a lane whose values are still owed (R156, R211, R307). -/
def State.owedRegs (s : State) (t : Nat) : List Nat :=
  ((s.warp (warpOf t)).owed.filter (fun o => decide (o.thr = t))).map (·.d)
  ++ (s.reqs.filter (fun r => decide (threadOf r.warp r.lane = t))).flatMap (fun r => (reqDst r.kind).filter (· < 216))
  ++ ((s.core (coreOf (warpOf t))).nib.filter (fun c => decide (c.warp = warpOf t) && c.lanes.contains (t % 16))).flatMap
      (fun c => match c.op, c.fin with
        | .qscale d .., false => [d]
        | _, _ => [])
/-- Predicates still owed by QSCALE (R307). -/
def State.owedPreds (s : State) (t : Nat) : List Nat :=
  ((s.core (coreOf (warpOf t))).nib.filter (fun c => decide (c.warp = warpOf t) && c.lanes.contains (t % 16))).flatMap
      (fun c => match c.op, c.fin with
        | .qscale _ p .., false => [p]
        | _, _ => [])
/-- No operand of the unit waits for an earlier result (R156). -/
def State.ready (s : State) (h : Hdr) (u : Uses) : Bool :=
  s.cur.lanes.all (fun l =>
    let t := threadOf s.cur.warp l
    u.regs.all (fun r => !(s.owedRegs t).contains r) && ((if h.gcond = 0 then [] else [h.gpred]) ++ u.preds).all (fun p => !(s.owedPreds t).contains p))

/-- Step 5 of R159 and R395: whether the level is too low. A user's q16 or q17 counts only in a field that may name a
port; in a pair field or a field without ports it is step 6's ILL (DESIGN CHOICE, log 58). -/
def State.privFault (s : State) (u : Uses) : Bool :=
  let x := s.warp s.cur.warp
  let sup := isSup x.ctx
  (match u.level with
   | .user => false
   | .handler => !sup && decide (x.pl = -1)
   | .sup => !sup) || (!sup && u.ports.any (fun r => decide (232 ≤ r)))

/-- Directions of R79. -/
def portReads (r : Nat) : Bool := isPort r
def portWrites (r : Nat) : Bool := (decide (216 ≤ r) && decide (r ≤ 224)) || decide (r = 230)

/-- Step 6 of R159: the cause that the register fields raise (R58, R59, R79, R173). A form with a
port both as source and as destination is refused here, after step 5, and before the destination's direction is looked at: such a form
raises ILL also where its destination port may not be written; MOV and MOV.nb are at step 4 (DESIGN CHOICE, log 61). A pair
destination z of a load is taken (R217; DEDUCED, log 62). -/
def State.fieldFault (s : State) (u : Uses) : Option Nat :=
  let n := (s.warp s.cur.warp).n
  let badW (r : Nat) : Bool := decide (r < 216) && decide (n ≤ r)
  let badP (r : Nat) : Bool := (decide (216 ≤ r) || decide (r % 2 = 1) || decide (n ≤ r + 1)) && !(u.zPair && u.dstP.contains r && decide (r = 234))
  let badD (r : Nat) : Bool := isSpecial r && decide (r ≠ 234)
  let scribe := decide (widOf s.cur.warp = 27)
  if (u.src ++ u.srcR ++ u.dst ++ u.dstR).any badW || (u.srcP ++ u.dstP).any badP
      || (u.dst ++ u.dstR).any badD || (u.srcR ++ u.dstR).any isPort
      || (u.src.any isPort && u.dst.any isPort) then some 0
  else if u.dst.any (fun r => isPort r && !(portWrites r || (scribe && (r = 227 || r = 228)))) then some 15
  else none

/-- Free words of a core's register pool (R75). -/
def State.poolFree (s : State) (c : Nat) : Int :=
  59049 - (((s.warpsOf c).filter (fun w => decide (widOf w ≠ 27))).map (fun w => 16 * ((s.warp w).n : Int)
      + (if (s.warp w).draft.depth = 0 then 0 else 288) + 144 * ((s.warp w).draft.grans.length : Int))).sum
    - (if (s.core c).scribe.alloc then 144 * ((s.core c).scribe.grans : Int) else 0)

/-- Takes the checkpoint granules of a unit's first writes (R253): none when space is short. -/
def State.takeGrans (s : State) (w : Nat) (u : Uses) : Option State :=
  let regs := ((u.dst ++ u.dstR ++ u.dstP ++ u.dstP.map (· + 1)).filter (· < 216)).map (· / 9)
  let x := s.warp w
  let new := (regs.filter (fun g => !x.draft.grans.contains g)).dedup
  if new.isEmpty then some s
  else if s.poolFree (coreOf w) < 144 * (new.length : Int) then none
  else some (s.setWarp w { x with draft := { x.draft with grans := x.draft.grans ++ new } })

/-- What a lane's execution does. -/
inductive Wr where
  | reg (r : Nat) (v : Int)
  | pair (r : Nat) (v : Int)
  | pred (f : Nat) (v : Int)
  | push (r : Nat) (v : Int)
  | mr (v : Int)
  | jump (pc : Int)
  | owe (r : Nat) (v : Int)
  deriving DecidableEq, Repr

/-- A lane's outcome: its writes, or the cause it raises; conversions that saturated (R47). -/
structure Out where
  wr : List Wr := []
  fault : Option Raise := none
  sat : Int := 0
  deriving DecidableEq, Repr

/-- One write of a lane. -/
def State.applyWr (s : State) (t : Nat) : Wr → State
  | .reg r v => s.setReg t r v
  | .pair r v => s.setPair t r v
  | .pred f v => s.setPred t f v
  | .push r v =>
    let w := warpOf t
    s.portPush (coreOf w) (s.warp w).ctx (s.warp w).bid (r - 216) [v]
  | .mr v => let x := s.thread t
    s.setThread t { x with mr := v }
  | .jump pc => s.retire t pc
  | .owe r v => let w := warpOf t
    s.setWarp w { s.warp w with owed := (s.warp w).owed ++ [{ thr := t, d := r, val := v }] }

/-- A result to a W destination: a register, or a port (R171). -/
def wrW (d : Nat) (v : Int) : Wr := if isPort d then .push d v else .reg d v

/-- A lane's outcome takes effect: a raising lane writes nothing and does not retire (R174). -/
def State.applyOut (s : State) (t : Nat) (o : Out) : State :=
  let s0 := if o.sat = 0 then s else s.count (s.warp (warpOf t)).ctx (dieIdx (coreOf (warpOf t))) 37 o.sat
  match o.fault with
  | some r => s0.raise t { r with pc := s.cur.first }
  | none => o.wr.foldl (fun a x => a.applyWr t x) (s0.retire t s.cur.next)

/-- The threads of the current group. -/
def State.curThreads (s : State) (lanes : List Nat) : List Nat := lanes.map (threadOf s.cur.warp)

/-- Whether a lane has retired the unit that it issued: it waits for nothing, and has raised no cause but one of those whose
unit retires (TRAP's, or SCALE at issue), even where a sibling's cause has stopped it (R401, R403, R405). -/
def hasRetired (x : Thread) : Bool :=
  (decide (x.st = .runnable) || (decide (x.st = .stopped) && decide (x.prior = .runnable))) && !x.busy && decide (x.wait = .none_)
    && x.pend.all (fun r => decide (r.cause = 3) || decide (r.cause = 10))
/-- STEP in each lane that retired a unit (R401, R403). -/
def State.stepTrap (s : State) (w : Nat) (lanes : List Nat) : State :=
  if trit (s.ctx (s.warp w).ctx).dbg 0 = 1 ∧ !(s.warp w).hm then
    lanes.foldl (fun a l =>
      let t := threadOf w l
      if hasRetired (s.thread t) ∧ s.rolled a t = false then a.raise t { cause := 20, pc := (s.thread t).pc } else a) s
  else s

/-- The lanes of the group take their issue stamp and the place where their unit ends; lanes that issue their unit again
keep the stamp of its first issue. -/
def State.started (s : State) : State :=
  (s.curThreads s.cur.lanes).foldl (fun a t => let x := a.thread t
    a.setThread t { x with stamp := if x.st = .waiting then x.stamp else a.stamp, last := a.stamp, ready := none, next := a.cur.next })
    { s with stamp := s.stamp + 1 }
/-- The line of an effective address (R88). -/
def lineOf (ea : Int) : Int := shr ea 4
/-- The slice of a line whose page asks for no near placement (R111). -/
def hashSlice (own : Nat) (l : Int) : Nat := (Config.homeHash own l).val
/-- The slice that is a line's home (R111). -/
def sliceOf (own : Nat) (leaf : Leaf) (pa : Int) : Nat :=
  if leaf.place = 1 then leaf.clown else hashSlice own (lineOf pa)
/-- The home slices of a page's lines (R111). -/
def Leaf.slices (own : Nat) (leaf : Leaf) (l : Int) : Nat := sliceOf own leaf (81 * l)
/-- The slice of a translated request. -/
def Req.slice (r : Req) : Nat :=
  match r.leaf with
  | some l => sliceOf r.own l r.pa
  | none => 0
/-- A sequence register (R233). -/
def State.seq (s : State) (own slice q : Nat) : Option Seq := Tab.find (s.dieSt own).seqs (slice * 27 + q)
/-- The ticket wait of a request: an ordered atomic or pass that its sequence still holds back (R234), a draw that finds
243 numbers outstanding (R247). -/
def State.ticketOf (s : State) (r : Req) : Option (Nat × Nat × Nat) :=
  let held : Bool := decide (r.stage = .buffered) || decide (r.stage = .refused)
  match r.kind with
  | .atomo _ _ _ _ q _ => if held then some (r.own, r.slice, q) else none
  | .tkp q _ => if held then some (r.own, r.slice, q) else none
  | .tkt q _ => match s.seq r.own r.slice q with
    | some x => if r.stage = .home ∧ 243 ≤ x.d - x.n then some (r.own, r.slice, q) else none
    | none => none
  | _ => none
/-- The ticket wait of a group that needs a result which a sequence still holds back (R86, R234, R247). -/
def State.ticketStall (s : State) (u : Uses) : Option WKind :=
  (s.reqs.find? (fun r => decide (r.warp = s.cur.warp) && s.cur.lanes.contains r.lane && (s.ticketOf r).isSome
    && (reqDst r.kind).any (u.regs.contains ·))).bind (fun r => (s.ticketOf r).map (fun p => .ticket p.1 p.2.1 p.2.2))
/-- The issue of a unit (R159 steps 5 to 8): `body` gets the active lanes. A unit that needs a result still owed stays. -/
def State.issue (s : State) (h : Hdr) (u : Uses) (body : List Nat → State → State) : State :=
  let w := s.cur.warp
  if !s.ready h u then
    match s.ticketStall u with
    | some k => (s.curThreads s.cur.lanes).foldl (fun a t => a.waitLane t (.reissue k false)) s
    | none => s
  else
    let s0 := s.started
    let ill (c : Nat) : State := (s0.raiseAll (s0.curThreads s0.cur.lanes) { cause := c, pc := s0.cur.first }).settle w
    if s0.privFault u then ill 1
    else match s0.fieldFault u with
      | some c => ill c
      | none =>
        let act := s0.cur.lanes.filter (fun l => s0.laneOn h (threadOf w l))
        let off := s0.cur.lanes.filter (fun l => !s0.laneOn h (threadOf w l))
        let s1 := off.foldl (fun a l => a.retire (threadOf w l) s0.cur.next) s0
        let fin (x : State) : State := (x.stepTrap w (s0.cur.lanes.filter (fun l => !s1.rolled x (threadOf w l)))).settle w
        if act.isEmpty then fin s1
        else if act.any (fun l => s1.drafting w l) then
          if u.forbid || !u.ports.isEmpty then fin (s1.abort w 6 0)
          else match s1.takeGrans w u with
            | some s2 => fin (body act s2)
            | none => fin (s1.abort w 2 0)
        else fin (body act s1)

/-! Ports served in one step (R80, R173). -/

/-- How many words a unit pops from a port for a number of lanes. -/
def popNeed (u : Uses) (r k : Nat) : Nat := k * u.src.count r
/-- A blocking unit's ports: closed, not yet able to serve the group, or ready. -/
inductive PortSt where
  | closed | short | ready
  deriving DecidableEq, Repr
def State.portSt (s : State) (u : Uses) (k : Nat) : PortSt :=
  let w := s.cur.warp
  let c := coreOf w
  let x := s.warp w
  if (u.src ++ u.dst).any (fun r => isPort r && s.portClosed c x.ctx (r - 216) && !(decide (widOf w = 27) && u.dst.contains r)) then .closed
  else if u.src.any (fun r => isPort r && decide ((s.port c (r - 216)).length < popNeed u r k))
      || u.dst.any (fun r => isPort r && decide (s.portRoom c x.ctx x.bid (r - 216) < k)) then .short
  else .ready

/-- The ports that cannot serve a group, in field order, with what they must serve (R80, R418). -/
def State.shortPorts (s : State) (u : Uses) (k : Nat) : WKind :=
  let x := s.warp s.cur.warp
  let c := coreOf s.cur.warp
  .queue ((((u.src.filter isPort).eraseDups.filter (fun r => decide ((s.port c (r - 216)).length < popNeed u r k))).map
      (fun r => (r - 216, (popNeed u r k : Int))))
    ++ (((u.dst.filter isPort).filter (fun r => decide (s.portRoom c x.ctx x.bid (r - 216) < k))).map (fun r => (r - 216, -(k : Int)))))

/-- The values of one W source field, one per thread; a port gives one word per lane in lane order. -/
def State.readField (s : State) (ts : List Nat) (r : Nat) : State × List Int :=
  if isPort r then
    let c := coreOf s.cur.warp
    let p := s.port c (r - 216)
    (s.portPop s.cur.warp (r - 216) ts.length, p.take ts.length)
  else (s, ts.map (fun t => s.reg t r))

/-- The values of the W source fields in field order (R173): all lanes' words of one field before the next field's
(DESIGN CHOICE, log 60). -/
def State.readFields (s : State) (ts : List Nat) : List Nat → State × List (List Int)
  | [] => (s, [])
  | r :: rs =>
    let p := s.readField ts r
    let q := State.readFields p.1 ts rs
    (q.1, p.2 :: q.2)

/-- A word of a field's values. -/
def fieldVal (vs : List (List Int)) (i : Nat) : List Int := vs.map (fun v => v.getD i 0)

/-- Each active lane performs its outcome in ascending lane order, operands read before (R7, R9); a lane that an earlier
lane's cause has rolled back does nothing (R256). -/
def State.runLanes (s : State) (f : State → Nat → List Int → Out) (s0 : State) (vs : List (List Int)) : Nat → List Nat → State
  | _, [] => s
  | i, t :: ts => State.runLanes (if s0.rolled s t then s else s.applyOut t (f s0 t (fieldVal vs i))) f s0 vs (i + 1) ts

/-- The body of a per-lane unit. -/
def laneBody (u : Uses) (f : State → Nat → List Int → Out) (act : List Nat) (s : State) : State :=
  let ts := s.curThreads act
  match s.portSt u act.length with
  | .closed => s.raiseAll ts { cause := 15, pc := s.cur.first }
  | .short => ts.foldl (fun a t => a.waitLane t (.reissue (s.shortPorts u act.length) false)) s
  | .ready =>
    let p := s.readFields ts u.src
    p.1.runLanes f p.1 p.2 0 ts

/-- A unit that acts lane by lane. -/
def State.perLane (s : State) (h : Hdr) (u : Uses) (f : State → Nat → List Int → Out) : State :=
  s.issue h u (laneBody u f)

/-- A unit that acts once per issue group, without ports; `g` gets the lowest active lane's thread. -/
def State.perGroup (s : State) (h : Hdr) (u : Uses) (g : List Nat → Nat → State → State) : State :=
  s.issue h u (fun act x => g act (threadOf x.cur.warp (act.headD 0)) x)

/-- Retires every active lane. -/
def State.retireAll (s : State) (act : List Nat) : State :=
  (s.curThreads act).foldl (fun a t => a.retire t s.cur.next) s
/-- Every active lane waits to issue its unit again (R414). -/
def State.waitAll (s : State) (act : List Nat) (k : Wait) : State :=
  (s.curThreads act).foldl (fun a t => a.waitLane t k) s
/-- Every active lane raises a precise cause at the unit. -/
def State.faultAll (s : State) (act : List Nat) (c : Nat) (status : Int) : State :=
  s.raiseAll (s.curThreads act) { cause := c, pc := s.cur.first, status := status }

/-- The effective address of a memory operand (R155), its index word given. -/
def eaOf (s : State) (t : Nat) (m : MOp) (disp idx : Int) : Int :=
  wrap (s.regPair t m.a + idx * pow3 m.k + disp) 54

end Sys2Proof.Machine
end

