-- ==== Sys2Proof/Machine/IntArith.lean ====
section
/-! DEFINITION. Integer arithmetic and comparison, rows 0 and 1 (R177-R182). -/

namespace Sys2Proof.Machine

/-- The outcome of one step. -/
abbrev R := Host.Outcome State Fault Refusal

/-- A value narrowed to n trits, by wrapping or saturation (R177). -/
def narrow (isSat : Bool) (n : Nat) (x : Int) : Int := if isSat then sat x n else wrap x n

/-- OP on the parts of up to three words (R172, R177). -/
def partOp (t3 isSat : Bool) (op : Nat → Int → Int → Int → Int) (a b c : Int) : Int :=
  if t3 then
    let p (j : Nat) : Int := narrow isSat 9 (op 9 (part a j) (part b j) (part c j))
    ofParts (p 0) (p 1) (p 2)
  else narrow isSat 27 (op 27 a b c)

/-- A per-lane result to d from a list of source words. -/
def opW (d : Nat) (f : List Int → Int) : State → Nat → List Int → Out :=
  fun _ _ v => { wr := [wrW d (f v)] }

/-- Word i of a lane's sources. -/
def arg (v : List Int) (i : Nat) : Int := v.getD i 0

def alu (h : Hdr) (t3 isSat : Bool) (op : Nat → Int → Int → Int → Int) (d : Nat) (fs : List Nat) (s : State) : R :=
  .next (s.perLane h { src := fs, dst := [d] }
    (opW d (fun v => partOp t3 isSat op (arg v 0) (arg v 1) (arg v 2))))

/-- ADD (R177). -/
def execAdd (h : Hdr) (t3 sat : Bool) (d a b : Nat) (s : State) : R := alu h t3 sat (fun _ x y _ => x + y) d [a, b] s
/-- SUB (R177). -/
def execSub (h : Hdr) (t3 sat : Bool) (d a b : Nat) (s : State) : R := alu h t3 sat (fun _ x y _ => x - y) d [a, b] s
/-- NEG (R177). -/
def execNeg (h : Hdr) (t3 : Bool) (d a : Nat) (s : State) : R := alu h t3 false (fun _ x _ _ => -x) d [a] s
/-- ABS (R177). -/
def execAbs (h : Hdr) (t3 : Bool) (d a : Nat) (s : State) : R := alu h t3 false (fun _ x _ _ => (x.natAbs : Int)) d [a] s
/-- SGN (R177). -/
def execSgn (h : Hdr) (t3 : Bool) (d a : Nat) (s : State) : R := alu h t3 false (fun _ x _ _ => sgn x) d [a] s
/-- MUL (R177). -/
def execMul (h : Hdr) (t3 sat : Bool) (d a b : Nat) (s : State) : R := alu h t3 sat (fun _ x y _ => x * y) d [a, b] s
/-- MULH (R177). -/
def execMulh (h : Hdr) (t3 : Bool) (d a b : Nat) (s : State) : R :=
  alu h t3 false (fun n x y _ => (x * y - wrap (x * y) n) / pow3 n) d [a, b] s
/-- MAD (R177). -/
def execMad (h : Hdr) (t3 sat : Bool) (d a b c : Nat) (s : State) : R :=
  alu h t3 sat (fun _ x y z => x * y + z) d [a, b, c] s
/-- MIN (R177). -/
def execMin (h : Hdr) (t3 : Bool) (d a b : Nat) (s : State) : R := alu h t3 false (fun _ x y _ => min x y) d [a, b] s
/-- MAX (R177). -/
def execMax (h : Hdr) (t3 : Bool) (d a b : Nat) (s : State) : R := alu h t3 false (fun _ x y _ => max x y) d [a, b] s
/-- CLAMP (R177). -/
def execClamp (h : Hdr) (t3 : Bool) (d a b c : Nat) (s : State) : R :=
  alu h t3 false (fun _ x y z => min (max x y) z) d [a, b, c] s

/-- ADDI (R177, R178): words, trytes, or pairs under .x. -/
def execAddi (h : Hdr) (t3 sat_ x : Bool) (d a : Nat) (imm : Int) (s : State) : R :=
  let v := effImm h imm
  if x then
    .next (s.perLane h { srcP := [a], dstP := [d] }
      (fun s t _ => { wr := [.pair d (narrow sat_ 54 (s.regPair t a + v))] }))
  else
    .next (s.perLane h { src := [a], dst := [d] }
      (opW d (fun w => partOp t3 sat_ (fun _ x _ _ => x + v) (arg w 0) 0 0)))

/-- MULW (R178). -/
def execMulw (h : Hdr) (d a b : Nat) (s : State) : R :=
  .next (s.perLane h { src := [a, b], dstP := [d] } (fun _ _ v => { wr := [.pair d (arg v 0 * arg v 1)] }))

/-- DIV and REM of one part (R179). -/
def divPart (rem : Bool) (a b : Int) : Int := if rem then a - nearest a b * b else nearest a b

/-- DIV and REM (R179): a zero divisor in any part raises DIVZ for the lane. -/
def divide (h : Hdr) (rem t3 : Bool) (d a b : Nat) (s : State) : R :=
  .next (s.perLane h { src := [a, b], dst := [d] } (fun _ _ v =>
    let x := arg v 0
    let y := arg v 1
    if (if t3 then part y 0 = 0 ∨ part y 1 = 0 ∨ part y 2 = 0 else y = 0) then { fault := some { cause := 8 } }
    else { wr := [wrW d (partOp t3 false (fun _ p q _ => divPart rem p q) x y 0)] }))
/-- DIV (R179). -/
def execDiv (h : Hdr) (t3 : Bool) (d a b : Nat) (s : State) : R := divide h false t3 d a b s
/-- REM (R179). -/
def execRem (h : Hdr) (t3 : Bool) (d a b : Nat) (s : State) : R := divide h true t3 d a b s

/-- ADDX (R180). -/
def execAddx (h : Hdr) (d a b : Nat) (s : State) : R :=
  .next (s.perLane h { srcP := [a, b], dstP := [d] }
    (fun s t _ => { wr := [.pair d (wrap (s.regPair t a + s.regPair t b) 54)] }))
/-- SUBX (R180). -/
def execSubx (h : Hdr) (d a b : Nat) (s : State) : R :=
  .next (s.perLane h { srcP := [a, b], dstP := [d] }
    (fun s t _ => { wr := [.pair d (wrap (s.regPair t a - s.regPair t b) 54)] }))
/-- LEA (R181). -/
def execLea (h : Hdr) (d : Nat) (m : MOp) (s : State) : R :=
  .next (s.perLane h { src := [m.b], srcP := [m.a], dstP := [d] }
    (fun s t v => { wr := [.pair d (eaOf s t m (effImm h m.disp) (arg v 0))] }))

/-- CMP (R182). -/
def execCmp (h : Hdr) (t3 x : Bool) (d a b : Nat) (s : State) : R :=
  if x then
    .next (s.perLane h { srcP := [a, b], preds := [d] }
      (fun s t _ => { wr := [.pred d (cmpTrit (s.regPair t a) (s.regPair t b))] }))
  else
    .next (s.perLane h { src := [a, b], preds := if t3 then [d, d + 1, d + 2] else [d] } (fun _ _ v =>
      if t3 then { wr := (List.range 3).map (fun j => .pred (d + j) (cmpTrit (part (arg v 0) j) (part (arg v 1) j))) }
      else { wr := [.pred d (cmpTrit (arg v 0) (arg v 1))] }))
/-- CMPI (R182). -/
def execCmpi (h : Hdr) (x : Bool) (d a : Nat) (imm : Int) (s : State) : R :=
  if x then
    .next (s.perLane h { srcP := [a], preds := [d] } (fun s t _ => { wr := [.pred d (cmpTrit (s.regPair t a) (effImm h imm))] }))
  else
    .next (s.perLane h { src := [a], preds := [d] } (fun _ _ v => { wr := [.pred d (cmpTrit (arg v 0) (effImm h imm))] }))

end Sys2Proof.Machine
end

