-- ==== Sys2Proof/Machine/Home.lean ====
section
/-! DEFINITION. The owner's side: device addresses (R89), physical memory (R419, R50-R54), translation
(R420-R426), the home L2 slices (R110-R113), leases and write completion (R124-R127, R134, R142). -/

namespace Sys2Proof.Machine

/-! Addresses. -/

def pkgOf (ea : Int) : Nat := offF ea 50 3
def dieFld (ea : Int) : Nat := offF ea 47 3
def offOf (ea : Int) : Int := fld ea 0 47
def spaceOf (ea : Int) : Int := trit ea 53
/-- The owner key of a device address (R89). -/
def ownerOf (ea : Int) : Nat := pkgOf ea * 27 + dieFld ea
/-- The address of a trit string on an owner (R89). -/
def devAddr (own : Nat) (off : Int) : Int :=
  pow3 53 + eo (own / 27) 3 * pow3 50 + eo (own % 27) 3 * pow3 47 + off
/-- Whether a package is in the domain (R459, R463). -/
def State.present (s : State) (p : Nat) : Bool := s.mg.domain.testBit p
/-- Whether an address names an owner that exists (R90). -/
def State.ownerOk (s : State) (ea : Int) : Bool := s.present (pkgOf ea) && decide (dieFld ea ≤ 9)
/-- The small page and the line of an address (R95). -/
def pageOf (ea : Int) : Int := shr ea 11
def secOf (ea : Int) : Int := shr ea 3
/-- The place of a tryte in its sector, 0..26, and in its line, 0..80. -/
def secPos (ea : Int) : Nat := offF ea 0 3
def linePos (ea : Int) : Nat := offF ea 0 4

/-! Bytes. -/

/-- The key of a byte of an owner's memory. -/
def cellKey (own byte : Nat) : Nat := own * 2199023255552 + byte
/-- What a byte that nothing has written reads as (DESIGN CHOICE, log 1). -/
def zeroCell (k : Nat) : BitVec 8 := BitVec.ofNat 8 (zeroByte (k % 64))
/-- One byte of memory. -/
def State.byte (s : State) (own b : Nat) : Nat := (Tab.get (zeroCell (cellKey own b)) s.mem (cellKey own b)).toNat
def State.setByte (s : State) (own b v : Nat) : State :=
  { s with mem := Tab.set (zeroCell (cellKey own b)) (cellKey own b) (BitVec.ofNat 8 v) s.mem }
def State.bytes (s : State) (own b n : Nat) : List Nat := (List.range n).map (fun i => s.byte own (b + i))
def State.setBytes (s : State) (own b : Nat) : List Nat → State
  | [] => s
  | v :: vs => State.setBytes (s.setByte own b v) own (b + 1) vs
/-- Host memory (DESIGN CHOICE, log 2). -/
def State.hostByte (s : State) (b : Nat) : Nat := (Tab.get (0 : BitVec 8) s.host b).toNat
def State.setHost (s : State) (b : Nat) : List Nat → State
  | [] => s
  | v :: vs => State.setHost { s with host := Tab.set (0 : BitVec 8) b (BitVec.ofNat 8 v) s.host } (b + 1) vs
def State.hostBytes (s : State) (b n : Nat) : List Nat := (List.range n).map (fun i => s.hostByte (b + i))

/-- Half of an owner's sectors (R419). -/
def halfSecs (own : Nat) : Int := if own % 27 = 9 then 8000000000 else 402653184
/-- The atom of a sector index (R419). -/
def atomNo (own : Nat) (k : Int) : Nat := (k + halfSecs own).toNat
def memBytes (own : Nat) : Nat := (128 * halfSecs own).toNat
/-- Whether a physical tryte exists (R419). -/
def physOk (own : Nat) (a : Int) : Bool := decide (- halfSecs own ≤ shr a 3) && decide (shr a 3 < halfSecs own)
def State.atom (s : State) (own : Nat) (k : Int) : List Nat := s.bytes own (64 * atomNo own k) 64
def State.setAtom (s : State) (own : Nat) (k : Int) (bs : List Nat) : State := s.setBytes own (64 * atomNo own k) bs

/-! The home L2 (R110, R112). -/

def l2Key (k : Int) (cmp : Bool) : Nat := 2 * ikey k + (if cmp then 1 else 0)
def State.sec (s : State) (own : Nat) (k : Int) (cmp : Bool) : L2Sec := Tab.get {} (s.dieSt own).l2 (l2Key k cmp)
def State.setSec (s : State) (own : Nat) (k : Int) (cmp : Bool) (x : L2Sec) : State :=
  let d := s.dieSt own
  s.setDie own { d with l2 := Tab.set {} (l2Key k cmp) x d.l2 }
/-- The atoms of a chunk (R332). -/
def State.chunkAtoms (s : State) (own : Nat) (k : Int) : List (List Nat) :=
  let k0 := 27 * shr k 3 - 13
  (List.range 27).map (fun (i : Nat) => s.atom own (k0 + i))

/-- Whether an atom of a sector's chunk cannot be corrected (R438). -/
def State.chunkLost (s : State) (own : Nat) (k : Int) : Bool :=
  (List.range 27).any (fun (i : Nat) => s.bad.contains (0, cellKey own (atomNo own (27 * shr k 3 - 13 + (i : Int)))))
/-- What a fill of a sector reads: its trytes and the soft events met (R52, R53, R117, R438). A compressed sector reads
its chunk's header and the atoms that hold it. -/
def State.readSec (s : State) (own : Nat) (k : Int) (cmp : Bool) : List Int × List Nat :=
  let lost (i : Int) : Bool := s.bad.contains (0, cellKey own (atomNo own i))
  if cmp then
    let atoms := s.chunkAtoms own k
    if (chunkReads atoms (offF k 0 3)).any (fun (i : Nat) => lost (27 * shr k 3 - 13 + (i : Int))) then (List.replicate 27 0, [17])
    else
      let r := readChunkSector atoms (offF k 0 3)
      (r.trytes, List.replicate r.code 16 ++ (if r.valid then [] else [18]))
  else if lost k then (List.replicate 27 0, [17])
  else
    let bs := s.atom own k
    let r := readAtom bs
    (r.trytes, if r.rejected || badMeta bs then [16] else [])

/-- The counter of a soft cause (R397). -/
def ctrOf (c : Nat) : Nat := if c = 16 then 36 else if c = 9 then 38 else if c = 17 then 39 else if c = 18 then 40 else 41
/-- Counts soft events in a context on a die. -/
def State.countAll (s : State) (ctx die : Nat) (cs : List Nat) : State :=
  cs.foldl (fun a c => a.count ctx die (ctrOf c) 1) s

/-- Whether a slice holds some trytes of a sector. -/
def State.secHas (s : State) (own : Nat) (pas : List Int) (cmp : Bool) : Bool :=
  pas.all (fun a => (Tab.find (s.sec own (secOf a) cmp).tr (secPos a)).isSome)
/-- A tryte as the home reads it, with an implied fill where it is absent; a written one that cannot be corrected reads as zero (R438). -/
def State.homeTryte (s : State) (own : Nat) (a : Int) (cmp : Bool) : Int :=
  match Tab.find (s.sec own (secOf a) cmp).tr (secPos a) with
  | some t => if t.lost then 0 else t.val
  | none => (s.readSec own (secOf a) cmp).1.getD (secPos a) 0
/-- Whether a read meets written trytes of L2 that cannot be corrected (R438). -/
def State.lostAt (s : State) (own : Nat) (pas : List Int) (cmp : Bool) : Bool :=
  pas.any (fun a => (Tab.find (s.sec own (secOf a) cmp).tr (secPos a)).any (·.lost))
/-- One read at a home counts DATA once when it meets such trytes (R438). -/
def State.lostRead (s : State) (own : Nat) (pas : List Int) (cmp : Bool) (ctx die : Nat) : State × List Nat :=
  if s.lostAt own pas cmp then (s.count ctx die 39 1, [17]) else (s, [])
/-- Whether a sector leaves L2 by read, merge and write (R54). -/
def L2Sec.partly (x : L2Sec) : Bool :=
  x.tr.any (fun p => p.2.written) && !(decide (x.tr.length = 27) && x.tr.all (fun p => p.2.written))
/-- A sector leaves L2: written whole, or by read, merge and write, which counts what it meets in the context of the
latest write at the home's die (R54, R112; DESIGN CHOICE, log 26); what has not been written comes from the atom. The atom that is written holds no error any more (R438). -/
def State.evictSec (s0 : State) (own : Nat) (k : Int) (cmp : Bool) : State :=
  let x := s0.sec own k cmp
  let r := s0.readSec own k cmp
  let s := if !cmp && x.partly && decide (own / 27 = s0.pkg) && decide (x.ctx ≠ 0) then s0.countAll x.ctx (own % 27) r.2 else s0
  let ts := (List.range 27).map (fun i => match Tab.find x.tr i with
    | some t => if t.written then (if t.lost then 0 else t.val) else r.1.getD i 0
    | none => r.1.getD i 0)
  if cmp ∨ x.tr.all (fun p => !p.2.written) then s.setSec own k cmp {}
  else
    (({ s with bad := s.bad.filter (fun b => b ≠ (0, cellKey own (atomNo own k))) }).setAtom own k (atomImage ts 0 [])).setSec own k cmp {}
/-- The three sectors of a line leave L2 together, so that its mask is kept until then (R112). -/
def State.evictLine (s : State) (own : Nat) (l : Int) (cmp : Bool) : State :=
  [3 * l - 1, 3 * l, 3 * l + 1].foldl (fun a k => a.evictSec own k cmp) s
/-- The lines that a slice holds in the set of a line, each with its last use: 2,187 sets by the line's low trits
(R110; DESIGN CHOICE, log 14). -/
def State.l2Set (s : State) (own slice : Nat) (l : Int) : List ((Int × Bool) × Nat) :=
  ((s.dieSt own).l2.filter (fun p => decide (p.2.slice = slice))).filterMap (fun p =>
    let k : Int := (p.1 / 2 : Nat) - half 54
    if offF (shr k 1) 0 7 = offF l 0 7 then some ((shr k 1, decide (p.1 % 2 = 1)), p.2.stamp) else none)
/-- Room for a line in its set of nine ways: the line used longest ago leaves (R110; DESIGN CHOICE, log 14). -/
def State.l2Room (s : State) (own slice : Nat) (l : Int) (cmp : Bool) : State :=
  let set := s.l2Set own slice l
  let lines := (set.map (·.1)).dedup
  if lines.contains (l, cmp) || decide (lines.length < 9) then s
  else
    let v := set.foldl (fun b p => if p.2 < b.2 then p else b) (set.headD ((l, cmp), 0))
    s.evictLine own v.1.1 v.1.2
/-- A sector fill: only trytes that the slice does not hold are placed (R112). -/
def State.fillSec (s0 : State) (own : Nat) (k : Int) (cmp : Bool) (ctx die : Nat) (sl : Nat := hashSlice own (shr k 1)) : State × List Nat :=
  let s := s0.l2Room own sl (shr k 1) cmp
  let x := s.sec own k cmp
  let r := s.readSec own k cmp
  let tr := (List.range 27).foldl (fun t i =>
    if (Tab.find t i).isSome then t else Tab.put i { written := false, val := r.1.getD i 0 : LTryte } t) x.tr
  (((s.setSec own k cmp { x with tr := tr, slice := sl, stamp := s.stamp }).countAll ctx die r.2), r.2)
/-- Fills the sectors of some trytes (the fills of one access at its home). -/
def State.fillFor (s : State) (own : Nat) (pas : List Int) (cmp : Bool) (ctx die : Nat) (sl : Int → Nat := hashSlice own) : State × List Nat :=
  pas.foldl (fun (acc : State × List Nat) a =>
    if acc.1.secHas own [a] cmp then acc
    else
      let r := acc.1.fillSec own (secOf a) cmp ctx die (sl (lineOf a))
      (r.1, acc.2 ++ r.2)) (s, [])
/-- Merges a context's written trytes into the slice (R112). -/
def State.homePut (s : State) (own : Nat) (cmp : Bool) (ctx : Nat) (tr : List (Int × Int)) (sl : Int → Nat := hashSlice own) : State :=
  tr.foldl (fun b (p, v) =>
    let a := b.l2Room own (sl (lineOf p)) (lineOf p) cmp
    let x := a.sec own (secOf p) cmp
    a.setSec own (secOf p) cmp { tr := Tab.put (secPos p) { written := true, val := wrap v 9 : LTryte } x.tr, ctx := ctx
                                 slice := sl (lineOf p), stamp := a.stamp }) s

/-! Lines at a home. -/

def State.hline (s : State) (own : Nat) (l : Int) : HLine := Tab.get {} (s.dieSt own).lines (ikey l)
def State.setHline (s : State) (own : Nat) (l : Int) (x : HLine) : State :=
  let d := s.dieSt own
  s.setDie own { d with lines := Tab.set {} (ikey l) x d.lines }
/-- W of a write performed now (R127). -/
def State.wOf (s : State) (own : Nat) (l : Int) : Int :=
  ((s.hline own l).grants.map (·.stop)).foldl max (s.dieSt own).clk
/-- A write to a line is performed (R254). -/
def State.wrote (s : State) (own : Nat) (l : Int) : State :=
  s.setHline own l { s.hline own l with writes := (s.hline own l).writes + 1 }
/-- The lease length of a class (R125, R423). -/
def leaseLen (k : Nat) : Int := if k = 0 then 27 else if k = 1 then 81 else 243
/-- The class that a request takes: the shorter of the page's and its own (R125). -/
def leaseOf (leaf : Leaf) (l : Lease) : Int :=
  match l with
  | .page => leaseLen leaf.lease
  | .l27 => 27
  | .l81 => min 81 (leaseLen leaf.lease)
  | .l243 => leaseLen leaf.lease
/-- Width in trits of a page offset. -/
def Leaf.width (l : Leaf) : Nat := 11 + 3 * l.size
/-- The physical tryte of an address under a leaf. -/
def Leaf.phys (l : Leaf) (off : Int) : Int := l.pa + wrap off l.width
/-- The leaf of one address of a request. -/
def Req.leafAt (r : Req) (a : Int) : Leaf :=
  let l := r.leaf.getD { size := 0, r := false, w := false, x := false, cmp := false, place := 0, lease := 0, clown := 0, pa := 0 }
  if lineOf a = lineOf r.ea then l else r.leaf2.getD l
/-- The physical tryte of one address of a request. -/
def Req.physAt (r : Req) (a : Int) : Int := (r.leafAt a).phys (offOf a)
/-- The owner at which a walk for the request ended: the second part of a dword may lie with another (R96). -/
def Req.faultOwner (r : Req) : Nat := if r.ea2.isSome then ownerOf r.t else r.own
/-- The physical trytes that a timed store covers. -/
def Req.pas (r : Req) : List Int :=
  match r.kind with
  | .stva sz .. => ((List.range (match sz with
      | .tr => 1
      | .wd => 3
      | .dw => 6)).map (fun (i : Nat) => (if sz = .tr then r.ea else r.ea - 1) + (i : Int))).map r.physAt
  | _ => []
/-- The times at which new leases on a line are capped (R134, R142). -/
def State.caps (s : State) (own : Nat) (l : Int) : List Int :=
  (((s.hline own l).preps.filter (fun p => p.wr || decide ((s.dieSt own).clk < p.v))).map (·.v)) ++ (s.reqs.filterMap (fun r =>
    match r.kind, r.stage with
    | .stva _ _ t, .buffered => if r.own = own ∧ (r.pas.map lineOf).contains l then some t else none
    | .stva _ _ t, .home => if r.first ∧ r.own = own ∧ (r.pas.map lineOf).contains l then some t else none
    | _, _ => none))
/-- Grants a lease on a sector fill (R125). -/
def State.grantLease (s : State) (own : Nat) (l : Int) (core : Nat) (leaf : Leaf) (cls : Lease) : State × LEnd :=
  if !leaf.w then (s, .unlim)
  else
    let now := (s.dieSt own).clk
    let e := (s.caps own l).foldl min (now + leaseOf leaf cls)
    let x := s.hline own l
    (s.setHline own l { x with grants := { core := core, stop := e } :: x.grants.filter (fun g => decide (now < g.stop)) }, .at_ e)
/-- The distinct lines of a timed store at its home. -/
def Req.plines (r : Req) : List Int := (r.pas.map lineOf).dedup
/-- A prepare is held from V on until the decision comes: requests to the line wait (R142). -/
def State.prepHeld (s : State) (own : Nat) (l : Int) : Bool :=
  (s.hline own l).preps.any (fun p => p.wr && decide (p.v ≤ (s.dieSt own).clk))
/-- A pending timed store to the line whose time has come (R134). -/
def State.stvaDue (s : State) (own : Nat) (l : Int) : Bool :=
  s.reqs.any (fun q => decide (q.own = own) && decide (q.stage = .buffered) && (match q.kind with
    | .stva _ _ t => decide (t ≤ (s.dieSt own).clk)
    | _ => false) && q.plines.contains l)
/-- Whether requests to a line wait: for a prepare's decision, or for a timed store whose time has come and which is
performed before any of them (R134, R136, R142). -/
def State.lineHeld (s : State) (own : Nat) (l : Int) : Bool := s.prepHeld own l || s.stvaDue own l

/-! Translation. -/

/-- Whether a tryte must be read from an uncorrectable atom (R438). -/
def State.badAt (s : State) (own : Nat) (a : Int) : Bool :=
  (s.bad.contains (0, cellKey own (atomNo own (secOf a))) && (Tab.find (s.sec own (secOf a) false).tr (secPos a)).isNone)
    || s.lostAt own [a] false
/-- A dword read at its homes in home order (R422); one that cannot be read is an invalid entry (R438). -/
def State.physDword (s : State) (own : Nat) (low : Int) : Int :=
  let ps := (List.range 6).map (fun (i : Nat) => low + (i : Int))
  if ps.any (s.badAt own) then 0 else ofTrytes (ps.map (fun a => s.homeTryte own a false))
def State.physWord (s : State) (own : Nat) (c : Int) : Int :=
  ofTrytes ((List.range 3).map (fun (i : Nat) => s.homeTryte own (c - 1 + i) false))

/-- How a walk ends (R422). -/
inductive Walk where
  | leaf (x : Leaf)
  | miss (malformed : Bool)
  deriving DecidableEq, Repr

/-- Reads a leaf entry at a level; none when malformed (R423). -/
def readLeaf (own : Nat) (lvl : Nat) (e : Int) : Option Leaf :=
  let o (p n : Nat) : Nat := offF e p n
  let b (p : Nat) : Int := trit e p
  let size := o 51 2
  let fr := fld e 0 36
  let ok := decide (size ≤ 2) && decide (if size = 2 then lvl = 4 else lvl = 5)
    && decide (b 50 ≠ -1) && decide (b 49 ≠ -1) && decide (b 48 ≠ -1) && decide (b 47 ≠ -1)
    && decide (o 45 2 ≤ 2) && decide (o 43 2 ≤ 2) && decide (o 39 4 ≤ 8) && decide (fld e 36 3 = 0)
    && decide (if size = 1 then fld fr 0 3 = 0 else if size = 2 then fld fr 0 6 = 0 else True)
    && physOk own (fr * pow3 11 - half (11 + 3 * size)) && physOk own (fr * pow3 11 + half (11 + 3 * size))
  if ok then some { size := size, r := b 50 = 1, w := b 49 = 1, x := b 48 = 1, cmp := b 47 = 1, place := o 45 2
                    lease := o 43 2, clown := o 39 4, pa := fr * pow3 11 } else none

/-- A walk from a level with the node's lowest tryte (R422). -/
def State.walk (s : State) (own : Nat) (off : Int) (low : Int) : Nat → Nat → Walk
  | 0, _ => .miss true
  | n + 1, lvl =>
    let e := s.physDword own (low + 6 * (offF off (41 - 6 * lvl) 6 : Int))
    if trit e 53 = 0 then .miss false
    else if trit e 53 = 1 then
      match readLeaf own lvl e with
      | some x => .leaf x
      | none => .miss true
    else
      let c := fld e 0 47
      if lvl = 5 ∨ fld e 47 6 ≠ 0 ∨ fld c 0 8 ≠ 0 ∨ !physOk own (c - 3280) ∨ !physOk own (c + 3280) then .miss true
      else State.walk s own off (c - 3280) n (lvl + 1)

/-- The lowest trytes of the entries that a walk reads (R422). -/
def State.walkPath (s : State) (own : Nat) (off : Int) (low : Int) : Nat → Nat → List Int
  | 0, _ => []
  | n + 1, lvl =>
    let p := low + 6 * (offF off (41 - 6 * lvl) 6 : Int)
    let e := s.physDword own p
    p :: (if trit e 53 = -1 ∧ lvl ≠ 5 then State.walkPath s own off (fld e 0 47 - 3280) n (lvl + 1) else [])
/-- What a walk's reads of its entries fill and count for the requesting context (R52, R112, R438). -/
def State.walkFills (s : State) (own ctx die : Nat) (root off : Int) : State :=
  let path := s.walkPath own off root 6 0
  path.foldl (fun a p => (a.lostRead own ((List.range 6).map (fun (i : Nat) => p + (i : Int))) false ctx die).1)
    (s.fillFor own (path.flatMap (fun p => [p, p + 5])) false ctx die).1
/-- The lowest tryte of a context's root in an owner block (R420). -/
def rootAt (ctx : Nat) : Int := -364 + 6 * ((ctx : Int) - 1)
/-- The root of a context as an owner block gives it; 0 means no tables (R420). -/
def State.readRoot (s : State) (own ctx : Nat) : Int :=
  let r := s.physDword own (rootAt ctx)
  if wrap (r + 3280) 8 = 0 then r else 0
/-- A window register as the owner block gives it (R426). -/
def State.readWin (s : State) (own j : Nat) : Win :=
  let w (i : Nat) : Int := s.physWord own (-363 + 3 * (54 + 5 * (j : Int) + i))
  let v := pair (w 0) (w 1)
  { vbase := fld v 0 47, high := fld v 47 7, blen := w 2, pbase := w 3, ctx := fld (w 4) 18 9, r := trit (w 4) 17
    w := trit (w 4) 16, low := fld (w 4) 0 16 }
/-- The identity translation of a supervisor context to which an owner was given no tables (DEDUCED, log 12). -/
def supLeaf (off : Int) : Leaf :=
  { size := 0, r := true, w := true, x := true, cmp := false, place := 0, lease := 1, clown := 0, pa := shr off 11 * pow3 11 }
/-- Whether an owner may hold tables for a partition's contexts: in the own package no other partition's compute die (R21, R90). -/
def State.partOwner (s : State) (own part : Nat) : Bool :=
  decide (own / 27 ≠ s.pkg) || decide (own % 27 = 9) || (s.part part).dies.contains (own % 27)
/-- Whether an owner holds tables for a context (R90). -/
def State.hasTables (s : State) (own ctx : Nat) : Bool :=
  s.partOwner own (s.ctx ctx).part
    && (if isSup ctx then decide (own / 27 = s.pkg) else decide (Tab.get 0 (s.dieSt own).roots ctx ≠ 0))
/-- Whether a TLB entry gives an address's translation (R421). -/
def TlbE.has (ctx : Nat) (off : Int) (e : TlbE) : Bool := decide (e.ctx = ctx) && decide (shr off e.leaf.width = shr e.va e.leaf.width)
/-- The level-1 table that a core's requests meet at an owner (R421). -/
def State.tlbPath (s : State) (own core : Nat) : Nat :=
  if own / 27 = s.pkg ∧ own % 27 = dieIdx core then core % 81 / 9 else 9
/-- The entry of the level-1 table on the way of a core's request (R421). -/
def State.tlbNear (s : State) (own ctx core : Nat) (off : Int) : Option Leaf :=
  ((Tab.get [] (s.dieSt own).tlb1 (s.tlbPath own core)).find? (TlbE.has ctx off)).map (·.leaf)
/-- An entry enters that table, whose oldest entry leaves it when it is full (R421; DESIGN CHOICE, log 14). -/
def State.tlbKeep (s : State) (own core : Nat) (e : TlbE) : State :=
  let d := s.dieSt own
  let k := s.tlbPath own core
  s.setDie own { d with tlb1 := Tab.put k ((e :: Tab.get [] d.tlb1 k).take 729) d.tlb1 }
/-- Whether the level-2 miss table holds a fault entry for an address's pair (R428, R467). -/
def State.faultHeld (s : State) (own ctx : Nat) (off : Int) : Bool :=
  let e : FbEnt := { ctx := ctx, page := pageOf (devAddr own off) }
  (s.dieSt own).fb.contains e || (s.dieSt own).missed.contains e
/-- Translation at the owner: an entry of the TLB's levels, or a walk that both then keep (R421, R422). An owner without
tables for the context gives none (R90, R436). -/
def State.translate (s : State) (own ctx core : Nat) (off : Int) : State × Walk :=
  if !s.hasTables own ctx then (s, .miss false)
  else if isSup ctx ∧ Tab.get 0 (s.dieSt own).roots ctx = 0 then (s, if physOk own off then .leaf (supLeaf off) else .miss false)
  else match s.tlbNear own ctx core off with
  | some l => (s, .leaf l)
  | none =>
    match (s.dieSt own).tlb.find? (TlbE.has ctx off) with
    | some e => (s.tlbKeep own core e, .leaf e.leaf)
    | none =>
      if s.faultHeld own ctx off then (s, .miss false)
      else
        let s1 := s.walkFills own ctx (dieIdx core) (Tab.get 0 (s.dieSt own).roots ctx) off
        match s.walk own off (Tab.get 0 (s.dieSt own).roots ctx) 6 0 with
        | .leaf l =>
          let d := s1.dieSt own
          let e : TlbE := { ctx := ctx, va := off, leaf := l }
          ((s1.setDie own { d with tlb := (e :: d.tlb).take 19683 }).tlbKeep own core e, .leaf l)
        | .miss m => (s1, .miss m)

/-! Binary windows (R426). -/

def Win.okAlone (own : Nat) (w : Win) : Bool :=
  decide (0 < w.blen) && decide (w.high = 0) && decide (w.low = 0) && decide (1 ≤ w.ctx) && decide (w.ctx ≤ 27)
    && decide (w.r ≠ -1) && decide (w.w ≠ -1) && decide (0 ≤ w.pbase) && decide (w.pbase % 64 = 0)
    && decide (w.pbase + w.blen ≤ (memBytes own : Int))
/-- The valid windows of an owner in register order (R426). -/
def State.validWins (s : State) (own : Nat) : List Win :=
  ((List.range 9).map (fun j => Tab.get {} (s.dieSt own).wins j)).foldl (fun acc w =>
    if w.okAlone own && acc.all (fun v => decide (v.vbase + v.blen ≤ w.vbase) || decide (w.vbase + w.blen ≤ v.vbase))
    then acc ++ [w] else acc) []
/-- Whether a window of a context holds a tryte of a range of offsets. -/
def State.winHits (s : State) (own ctx : Nat) (lo hi : Int) : Bool :=
  (s.validWins own).any (fun w => decide (w.ctx = (ctx : Int)) && decide (w.vbase ≤ hi) && decide (lo < w.vbase + w.blen))
/-- The window of a context that holds an offset. -/
def State.winAt (s : State) (own ctx : Nat) (off : Int) : Option Win :=
  (s.validWins own).find? (fun w => decide (w.ctx = (ctx : Int)) && decide (w.vbase ≤ off) && decide (off < w.vbase + w.blen))

/-- The owner reads a context's root again (R420, R434). -/
def State.reloadRoot (s : State) (own ctx : Nat) : State :=
  let d := s.dieSt own
  s.setDie own { d with roots := Tab.set 0 ctx (s.readRoot own ctx) d.roots }
/-- The owner reads every root and window register again (R434). -/
def State.reloadOwner (s : State) (own : Nat) : State :=
  let d := s.dieSt own
  s.setDie own { d with roots := (List.range 27).foldl (fun t i => Tab.set 0 (i + 1) (s.readRoot own (i + 1)) t) (d.roots.filter (fun p => isSup p.1))
                        wins := (List.range 9).foldl (fun t j => Tab.set {} j (s.readWin own j) t) [] }

end Sys2Proof.Machine
end

