-- ==== Sys2Proof/Machine/L1.lean ====
section
/-! DEFINITION. The core's side of memory: local regions (R92, R93), the scratchpad (R99, R100), the counter
window (R104), Vellum (R114-R116), the L1 (R106-R109), the Blotter (R253), release fences (R132). -/

namespace Sys2Proof.Machine

/-- The regions that an address selects (R218); device windows are the owner's matter. -/
inductive Region where
  | device | host | scratch | counters | vellum | hole
  deriving DecidableEq, Repr
def regionOf (ea : Int) : Region :=
  if spaceOf ea = 1 then .device
  else if spaceOf ea = -1 then .host
  else if -88573 ≤ ea ∧ ea ≤ 88573 then .scratch
  else if -265720 ≤ ea ∧ ea ≤ -88574 then .counters
  else if 21523361 ≤ ea ∧ ea ≤ 64570081 then .vellum
  else .hole

/-- Trytes of a size and the lowest one (R30, R96). -/
def szLen : Sz → Nat
  | .tr => 1 | .wd => 3 | .dw => 6
def szLow (sz : Sz) (ea : Int) : Int := if sz = .tr then ea else ea - 1
/-- The trytes that an access covers, lowest first. -/
def covers (sz : Sz) (ea : Int) : List Int := (List.range (szLen sz)).map (fun (i : Nat) => szLow sz ea + i)
/-- Trits of a size. -/
def szTrits : Sz → Nat
  | .tr => 9 | .wd => 27 | .dw => 54

/-! Scratchpad, Vellum, counters. -/

/-- The base of the keys by which events and `bad` name a part of a core, a die or an owner. -/
def partBase : Nat := 1237940039285380274899124224
def State.isBad (s : State) (store key : Nat) : Bool := s.bad.contains (store, key)
/-- A write replaces what could not be corrected (R438). -/
def State.healed (s : State) (store key : Nat) : List (Nat × Nat) := s.bad.filter (fun b => b ≠ (store, key))
def scrKey (a : Int) : Nat := (a + 88573).toNat
/-- A scratchpad tryte; one that cannot be corrected reads as zero (R438). -/
def State.scr (s : State) (c : Nat) (a : Int) : Int :=
  if s.isBad 2 (c * partBase + scrKey a) then 0 else Tab.get 0 (s.core c).scr (scrKey a)
def State.setScr (s : State) (c : Nat) (a v : Int) : State :=
  let x := s.core c
  { s.setCore c { x with scr := Tab.set 0 (scrKey a) (wrap v 9) x.scr } with bad := s.healed 2 (c * partBase + scrKey a) }
def State.setScrs (s : State) (c : Nat) (a : Int) : List Int → State
  | [] => s
  | v :: vs => State.setScrs (s.setScr c a v) c (a + 1) vs
/-- A word of the scratchpad centred on an address (R30). -/
def State.scrWord (s : State) (c : Nat) (a : Int) : Int := ofTrytes [s.scr c (a - 1), s.scr c a, s.scr c (a + 1)]
def State.setScrWord (s : State) (c : Nat) (a v : Int) : State := s.setScrs c (a - 1) (toTrytes 3 v)
/-- Vellum by local address (R92, R114). -/
def State.vel (s : State) (own : Nat) (a : Int) : Int :=
  if s.isBad 3 (own * partBase + ikey a) then 0 else Tab.get 0 (s.dieSt own).vel (ikey a)
def State.setVel (s : State) (own : Nat) (a v : Int) : State :=
  let d := s.dieSt own
  { s.setDie own { d with vel := Tab.set 0 (ikey a) (wrap v 9) d.vel } with bad := s.healed 3 (own * partBase + ikey a) }
/-- The end of the refresh window that an address's bank is in, if it is (R115, R116). -/
def State.velBusy (s : State) (own : Nat) (a : Int) : Option Int :=
  let d := s.dieSt own
  let k : Int := (offF (a - 43046721) 4 3 : Nat)
  let ph := (d.clk - d.vwin) % 2187
  if ph / 81 = k then some (d.clk - ph % 81 + 81) else none
/-- VWIN as it reads: the start of the rotation that is in progress (R115). -/
def State.vwinNow (s : State) (own : Nat) : Int :=
  let d := s.dieSt own
  d.vwin + 2187 * ((d.clk - d.vwin) / 2187)
/-- A word of the counter window of a context on a die (R104). -/
def State.ctrWord (s : State) (ctx c : Nat) (a : Int) : Int :=
  let own := s.ownKey (dieIdx c)
  if a = -177147 then loW (s.vwinNow own)
  else if a = -177144 then hiW (s.vwinNow own)
  else if -177141 ≤ a ∧ a ≤ -177114 ∧ a % 3 = 0 then Tab.get 0 (s.ctx ctx).counters (dieIdx c * 16 + ((a + 177141) / 3).toNat)
  else 0
/-! The L1. -/

def State.l1 (s : State) (c : Nat) (l : Int) : L1Line := Tab.get {} (s.core c).l1 (ikey l)
def State.setL1 (s : State) (c : Nat) (l : Int) (x : L1Line) : State :=
  let k := s.core c
  s.setCore c { k with l1 := if x.tr.isEmpty then Tab.del (ikey l) k.l1 else Tab.put (ikey l) x k.l1 }
/-- The sector of a line, 0..2. -/
def secIn (ea : Int) : Nat := offF ea 3 1
/-- Whether a lease is current (R126). -/
def leaseOn (now : Int) : LEnd → Bool
  | .none_ => false
  | .at_ e => decide (now < e)
  | .unlim => true
/-- What the L1 serves of a tryte now (R107). -/
def State.l1Serve (s : State) (c : Nat) (ea : Int) : Option Int :=
  let x := s.l1 c (lineOf ea)
  match Tab.find x.tr (linePos ea) with
  | some t => if t.written || leaseOn (s.now c) (Tab.get .none_ x.ends (secIn ea)) then some t.val else none
  | none => none
/-- Stores enter the L1 (R107). -/
def State.l1Store (s : State) (c w : Nat) (ea : Int) (vs : List Int) : State :=
  vs.zipIdx.foldl (fun a (v, i) =>
    let p := ea + i
    let x := a.l1 c (lineOf p)
    a.setL1 c (lineOf p) { x with tr := Tab.put (linePos p) { written := true, val := wrap v 9 : LTryte } x.tr
                                  stw := Tab.put (secIn p) (widOf w) x.stw, by_ := if x.by_.contains (w, (s.warp w).idx) then x.by_ else (w, (s.warp w).idx) :: x.by_ }) s
/-- Fill data of some sectors of a line reaches the L1: written trytes keep their values (R108). -/
def State.l1Place (s : State) (c : Nat) (line : Int) (tr : Tab Int) (secs : List Nat) (e : LEnd) (g : Int) : State :=
  let x := s.l1 c line
  let t := tr.foldl (fun (t : Tab LTryte) (p, v) =>
    match Tab.find t p with
    | some o => if o.written then t else Tab.put p { written := false, val := v } t
    | none => Tab.put p { written := false, val := v } t) x.tr
  s.setL1 c line { x with tr := t, ends := secs.foldl (fun a k => Tab.put k e a) x.ends
                          grant := secs.foldl (fun a k => Tab.put k g a) x.grant, stamp := s.stamp }
/-- Clean words of a line become invalid (R107, R227). -/
def L1Line.clean (x : L1Line) (secs : List Nat) : L1Line :=
  { x with tr := x.tr.filter (fun p => p.2.written || !secs.contains (p.1 / 27)), ends := secs.foldl (fun t k => Tab.del k t) x.ends }
def State.l1Clean (s : State) (c : Nat) (l : Int) (secs : List Nat) : State := s.setL1 c l ((s.l1 c l).clean secs)
/-- Every clean word of a core becomes invalid. -/
def State.l1CleanAll (s : State) (c : Nat) : State :=
  let k := s.core c
  s.setCore c { k with l1 := (k.l1.map (fun p => (p.1, p.2.clean [0, 1, 2]))).filter (fun p => !p.2.tr.isEmpty) }
/-- The line index of an L1 key. -/
def unKey (k : Nat) : Int := (k : Int) - half 54

/-- A request leaves its core; one to another package travels by Hairline (R121, R462). -/
def State.addReq (s : State) (r : Req) : State :=
  { s with nextId := s.nextId + 1
           reqs := s.reqs ++ [{ r with id := s.nextId, sent := s.now r.core, bid := (s.warp r.warp).bid, widx := (s.warp r.warp).idx
                                       held := decide (spaceOf r.ea = 1) && decide (r.own / 27 ≠ s.pkg) }] }
/-- Fills of a line that are on their way to a core come to nothing: its loads ask again, behind what the core has now sent
to the line's home, and its prefetches are dropped (R128, R129). -/
def State.dropFills (s : State) (c : Nat) (l : Int) : State :=
  let here (r : Req) : Bool := decide (r.core = c) && decide (lineOf r.t = l) && (match r.stage with
    | .filled .. => true
    | _ => false)
  { s with reqs := (s.reqs.filter (fun r => !(here r && (match r.kind with
      | .pref _ => true
      | _ => false)))).map (fun r => if here r && (match r.kind with
      | .load .. => true
      | _ => false) then { r with stage := .l1 } else r) }
/-- A core's own copies of a line, and those on their way to it, are used no more. -/
def State.dropCopies (s : State) (c : Nat) (l : Int) : State := (s.l1Clean c l [0, 1, 2]).dropFills c l
/-- Writes back the written trytes of a line as one request (R109, R138); every word that held one is then clean without a
lease, and so invalid. `by_` is 0 for an eviction, 1 for a fence, a release or the warp's own access, 2 for WB, 3 for a save. -/
def State.wbLine (s : State) (c w : Nat) (l : Int) (by_ gid : Nat) (lanes : List Nat) (pc : Int) : State :=
  let x := s.l1 c l
  let mine := x.tr.filter (fun p => p.2.written)
  let tr : Tab Int := mine.map (fun p => (p.1, p.2.val))
  if tr.isEmpty then s
  else
    let s1 := (s.setL1 c l { x with tr := x.tr.filter (fun p => !mine.any (fun q => decide (q.1 / 3 = p.1 / 3))), by_ := [] }).dropFills c l
    s1.addReq { id := 0, kind := .wb tr by_, stage := .home, ctx := (s.warp w).ctx, core := c, warp := w, lane := 16
                lanes := lanes, pc := pc, gid := gid, ea := 81 * l, own := ownerOf (81 * l)
                ws := if by_ = 0 ∨ x.by_.contains (w, (s.warp w).idx) then x.by_ else (w, (s.warp w).idx) :: x.by_ }
/-- Makes room for a line in its L1 set; the oldest line leaves, written back (R106, R109; DESIGN CHOICE, log 14). -/
def State.l1Room (s : State) (c w : Nat) (l : Int) : State :=
  let k := s.core c
  let inSet := k.l1.filter (fun p => decide (offF (unKey p.1) 0 4 = offF l 0 4))
  if (Tab.find k.l1 (ikey l)).isSome ∨ inSet.length < 9 then s
  else
    let v := inSet.foldl (fun (b : Nat × L1Line) p => if p.2.stamp < b.2.stamp then p else b) (inSet.headD (0, {}))
    let s1 := s.wbLine c w (unKey v.1) 0 0 [] 0
    let k1 := s1.core c
    s1.setCore c { k1 with l1 := Tab.del v.1 k1.l1 }
/-- Whether a sector of Vellum holds a tryte that cannot be corrected (R438). -/
def State.velLost (s : State) (own : Nat) (k : Int) : Bool :=
  (List.range 27).any (fun (i : Nat) => s.isBad 3 (own * partBase + ikey (27 * k - 13 + i)))
/-- A sector of Vellum enters the L1 of a core, under a lease without limit (R106, R114); the fill counts what cannot be
corrected (R438). -/
def State.velFill (s : State) (c w : Nat) (k : Int) : State :=
  let own := s.ownKey (dieIdx c)
  let l := shr k 1
  let i := offF k 0 1
  let s1 := (s.l1Room c w l).l1Place c l ((List.range 27).map (fun j => (27 * i + j, s.vel own (27 * k - 13 + j)))) [i] .unlim (s.now c)
  if s.velLost own k then s1.count (s.warp w).ctx (dieIdx c) 39 1 else s1

/-- The lines of a core's L1 that hold written trytes. -/
def State.dirtyLines (s : State) (c : Nat) : List Int :=
  ((s.core c).l1.filter (fun p => p.2.tr.any (fun q => q.2.written))).map (fun p => unKey p.1)
/-- Writes back every written line of a core. -/
def State.wbCore (s : State) (c w by_ gid : Nat) (lanes : List Nat) (pc : Int) : State :=
  (s.dirtyLines c).foldl (fun a l => a.wbLine c w l by_ gid lanes pc) s

/-! Release fences (R132, R144). -/

/-- A load, whose value a fence awaits (R130, R132); an atomic that returns a value reads as a load does, and a draw of a
number, or an atomic that waits for its turn, is none (R240). -/
def isLoadReq (k : RK) : Bool :=
  match k with
  | .load .. => true | .ldb .. => true | .atom _ _ _ d => decide (d < 216) | .cas _ _ _ d => decide (d < 216)
  | _ => false
/-- A store that the L1 or the scratchpad has still to accept (R132). -/
def isStoreReq (k : RK) : Bool :=
  match k with
  | .store .. => true | .drafted .. => true | _ => false
/-- A request whose W step 2 awaits (R132). -/
def isWriter (k : RK) : Bool :=
  match k with
  | .stva .. => true | .atom .. => true | .cas .. => true | .atomo .. => true | .stb .. => true | .wb .. => true
  | .tkp .. => true | _ => false
/-- Requests that wait for a page or an answer of the pager do not count as earlier (R66). -/
def Req.live (r : Req) : Bool :=
  match r.stage with
  | .parked => false
  | .pri => false
  | _ => true
def State.loadsDone (s : State) (w : Nat) : Bool := s.reqs.all (fun r => !(decide (r.warp = w) && r.live && isLoadReq r.kind))
def State.storesDone (s : State) (w : Nat) : Bool := s.reqs.all (fun r => !(decide (r.warp = w) && r.live && isStoreReq r.kind))
/-- Whether a request's W raises the release times of a warp, which has a launch index (R131): its own request, a write-back that carries its stores,
or an eviction of its core. -/
def Req.raises (r : Req) (w idx : Nat) : Bool :=
  (decide (r.warp = w) && decide (r.widx = idx)) || r.ws.contains (w, idx) || (decide (r.core = coreOf w) && (match r.kind with
    | .wb _ by_ => decide (by_ = 0)
    | _ => false))
def State.writesDone (s : State) (w : Nat) : Bool :=
  s.reqs.all (fun r => !(r.raises w (s.warp w).idx && r.live && isWriter r.kind))
  && (s.core (coreOf w)).copies.all (fun c => decide (c.warp ≠ w))
/-- Cluster scope or wider. -/
def wide (sc : Scope) : Bool := decide (4 ≤ sc.code)

/-- The record of a deferred write-back fault (R430, R436). -/
def State.wbfRec (s : State) (ctx own core wid lane : Nat) (ea pc : Int) (mal : Bool) : State :=
  s.pushRec { core := s.q17Core ctx own, deferred := true
              words := [recHead 1 5 (recCtx ctx) (own % 27), loW ea, hiW ea,
                        oAt 7 3 24 + pow3 23 + (if (s.dieSt own).dropped.contains ctx then pow3 22 else 0) + (if mal then pow3 21 else 0)
                          + oAt (core % 81) 4 17 + oAt wid 4 13 + oAt (dieIdx core) 3 10 + oAt lane 3 7 + oAt s.pkg 3 4, loW pc, hiW pc] }

/-- The held deferred write-back faults of a core are attributed to a unit (R220, R436). -/
def State.attribute (s : State) (w : Nat) (lanes : List Nat) (pc : Int) : State :=
  let c := coreOf w
  let x := s.core c
  x.wbf.foldl (fun a f =>
    let a1 := lanes.foldl (fun b l => b.defer (threadOf w l) 11 f.ea) a
    if f.recorded then a1 else a1.wbfRec (s.warp w).ctx f.own c (widOf w) (lanes.headD 0) f.ea pc f.malformed)
    (s.setCore c { x with wbf := [] })

/-- The zero-length read of a system release is on its way (R144). -/
def State.flushing (s : State) (w : Nat) : Bool := s.reqs.any (fun r => decide (r.warp = w) && decide (r.kind = .flush))
/-- Step 4 of R132: a zero-length read of the warp's latest host-space write, or of host address 0 (R144). -/
def State.flushRead (s : State) (w : Nat) : State :=
  let a := (s.warp w).lastHost
  s.addReq { id := 0, kind := .flush, ctx := (s.warp w).ctx, core := coreOf w, warp := w, lane := 16
             ea := if spaceOf a = -1 then a else - pow3 53, own := s.ownKey 9 }
/-- The steps of a fence, from the one that is in progress on (R132, R144; an acquire awaits the warp's loads, R240): the
step that is now in progress, or none when the fence is complete. -/
def State.fenceRun (s : State) (w : Nat) (sc : Scope) (rel : Bool) (lanes : List Nat) (pc : Int) : Nat → State × Option Nat
  | 0 =>
    if !s.loadsDone w || (rel && !s.storesDone w) then (s, some 0)
    else if !rel || !wide sc then (s, none)
    else ((s.attribute w lanes pc).wbCore (coreOf w) w 1 0 lanes pc, some 1)
  | 1 =>
    if !s.writesDone w || decide (s.now (coreOf w) < rtOf (s.warp w) sc) then (s, some 1)
    else if sc = .sys then (s.flushRead w, some 2)
    else (s, none)
  | _ => (s, if s.flushing w then some 2 else none)
/-- The start of a fence: step 1, and the write-back if step 1 is done already. -/
def State.fenceStart (s : State) (w : Nat) (sc : Scope) (rel : Bool) (lanes : List Nat) (pc : Int) : State × Option Nat :=
  match s.fenceRun w sc rel lanes pc 0 with
  | (a, some 1) => a.fenceRun w sc rel lanes pc 1
  | r => r
/-- Lanes wait in a fence, which keeps the guards that are in force (R123). -/
def State.fenceWait (s : State) (act : List Nat) (sc : Scope) (rel ends : Bool) (ph : Nat) : State :=
  let s1 := s.waitAll act (.fence sc rel ends ph)
  s1.setWarp s.cur.warp { s1.warp s.cur.warp with fguard := some (s.guard .pkg, s.guard .domain) }

/-- Whether the fence in front of this unit is complete, at its scope or a wider one. -/
def State.isFenced (s : State) (act : List Nat) (sc : Scope) : Bool :=
  act.all (fun l => match (s.thread (threadOf s.cur.warp l)).wait with
    | .fenced f => decide (sc.code ≤ f.code)
    | _ => false)

/-- A release fence before a unit's own effect: the effect runs once the fence is complete (R132). -/
def State.afterFence (s : State) (act : List Nat) (sc : Scope) (k : State → State) : State :=
  if s.isFenced act sc then k s
  else match s.fenceStart s.cur.warp sc true act s.cur.first with
    | (a, none) => k a
    | (a, some ph) => a.fenceWait act sc true false ph

/-! The Blotter (R253). -/

/-- A lane's own drafted tryte. -/
def State.blotRead (s : State) (w lane : Nat) (ea : Int) : Option Int :=
  ((s.core (coreOf w)).blot.find? (fun b => decide (b.warp = w) && decide (b.lane = lane) && decide (b.ea = ea))).map (·.val)
/-- Sector entries in use: one for each sector that a lane of a warp has drafted. -/
def blotUsed (bs : List BTryte) : Nat := (bs.map (fun b => (b.warp, b.lane, secOf b.ea))).dedup.length
/-- A drafted store; none when no entry is free. -/
def State.blotStore (s : State) (w lane : Nat) (ea : Int) (vs : List Int) : Option State :=
  let c := coreOf w
  let x := s.core c
  let bs := vs.zipIdx.foldl (fun b (v, i) =>
    b.filter (fun e => !(decide (e.warp = w) && decide (e.lane = lane) && decide (e.ea = ea + i)))
      ++ [{ warp := w, lane := lane, ea := ea + i, val := wrap v 9 : BTryte }]) x.blot
  if 512 < blotUsed bs then none else some (s.setCore c { x with blot := bs })

end Sys2Proof.Machine
end

