-- ==== Sys2Proof/Machine/Mem.lean ====
section
/-! DEFINITION. Loads and stores, rows 8 and 9 (R213-R227): what a lane does at the issuing core, steps 1 to 3
of R219, and the requests that leave for the owner. -/

namespace Sys2Proof.Machine

/-- A region's fate for a form (R218): allowed, ALIGN with the format mismatch, or PERM with a status. -/
inductive Fate where
  | ok | align (status : Int) | perm (status : Int)
  deriving DecidableEq, Repr

/-- Forms by their column in R218. -/
inductive FormK where
  | ld | st | stva | bin | atom
  deriving DecidableEq, Repr

/-- R218 and step 1 of R219; statuses by R400 (DEDUCED, log 13). -/
def State.regionFate (s : State) (k : FormK) (sz : Sz) (ea : Int) : Fate :=
  match regionOf ea with
  | .device => if s.ownerOk ea then .ok else .perm 4
  | .host =>
    if k = .bin then
      (if 0 ≤ fld ea 0 53 ∧ fld ea 0 53 < 18446744073709551616 then .ok else .perm 2) else .align 1
  | .scratch => if k = .ld ∨ k = .st then .ok else if k = .stva then .perm 0 else .align 1
  | .counters => if k = .ld then (if sz = .tr then .perm 0 else .ok) else if k = .st ∨ k = .stva then .perm 0 else .align 1
  | .vellum => if k = .ld then .ok else if k = .st ∨ k = .stva then .perm 0 else .align 1
  | .hole => if k = .ld ∨ k = .st ∨ k = .stva then .perm 2 else .align 1

/-- Step 2 of R219 for trytes, words and dwords (R96). -/
def misaligned (sz : Sz) (ea : Int) : Bool := decide (sz ≠ .tr) && decide (trit ea 0 ≠ 0)
/-- A dword that crosses a line (R96). -/
def crosses (sz : Sz) (ea : Int) : Bool := decide (sz = .dw) && decide (fld ea 1 3 = 13)

/-- The region's fate of an access by ternary loads and stores: a dword that crosses a line is two word accesses (R96), and
each has its own region (R218). -/
def State.accessFate (s : State) (k : FormK) (sz : Sz) (ea : Int) : Fate :=
  match s.regionFate k sz ea with
  | .ok => if crosses sz ea then s.regionFate k .wd (ea + 3) else .ok
  | f => f

/-- The kind of the shared range that holds a line of a deterministic context (R357, R358). -/
def State.shared (s : State) (ctx : Nat) (ea : Int) : Option Int :=
  let x := s.ctx ctx
  if x.lr.det && decide (spaceOf ea = 1) then
    (x.lr.ranges.find? (fun r => decide (lineOf r.base ≤ lineOf ea) && decide (lineOf ea < lineOf r.base + r.lines))).map (·.kind)
  else none

/-- A request of the current unit. -/
def State.mkReq (s : State) (t gid : Nat) (k : RK) (ea : Int) : Req :=
  let w := warpOf t
  { id := 0, kind := k, ctx := (s.warp w).ctx, core := coreOf w, warp := w, lane := t % 16, lanes := s.cur.lanes
    pc := s.cur.first, next := s.cur.next, gid := gid, ea := ea, own := if spaceOf ea = -1 then s.ownKey 9 else ownerOf ea, drafted := s.drafting w (t % 16) }
/-- The lane waits for the owner's answer (R219). -/
def State.await (s : State) (t : Nat) : State :=
  let x := s.thread t
  s.setThread t { x with busy := true, wait := .none_, st := if x.st = .stopped then .stopped else .runnable
                         prior := if x.st = .stopped then .runnable else x.prior }

/-- The bytes of a binary-typed access, one address each (R55). -/
def bytesAt (ea : Int) (n : Nat) : List Int := (List.range n).map (fun (i : Nat) => ea + (i : Int))
/-- Trytes, or bytes of a window or of host space, that a request in flight touches. -/
def reqTrytes (r : Req) : List Int :=
  match r.kind with
  | .ldb b .. => bytesAt r.ea b.bytes
  | .stb n .. => bytesAt r.ea n
  | .load sz .. => covers sz r.ea
  | .store sz _ => covers sz r.ea
  | .drafted sz _ => covers sz r.ea
  | .stva sz .. => covers sz r.ea
  | .atom _ sz .. => covers sz r.ea
  | .cas sz .. => covers sz r.ea
  | .atomo _ sz .. => covers sz r.ea
  | _ => []
/-- An earlier access of the thread that overlaps some trytes or bytes is not yet performed (R128). -/
def State.hazardOn (s : State) (t : Nat) (as : List Int) : Bool :=
  s.reqs.any (fun r => decide (threadOf r.warp r.lane = t) && (reqTrytes r).any (fun a => as.contains a))
/-- The same for a ternary access (R128, R224). -/
def State.hazard (s : State) (t : Nat) (sz : Sz) (ea : Int) : Bool := s.hazardOn t (covers sz ea)
/-- An acquire access of a thread of the group has not returned (R130). -/
def State.acqPending (s : State) : Bool :=
  s.reqs.any (fun r => decide (r.warp = s.cur.warp) && s.cur.lanes.contains r.lane
    && (decide (r.ord = .acq) || decide (r.ord = .acqrel)))

/-- Runs a unit's effect once its ports can serve the group (R79, R80). -/
def State.withPorts (s : State) (u : Uses) (act : List Nat) (k : State → State) : State :=
  match s.portSt u act.length with
  | .closed => s.raiseAll (s.curThreads act) { cause := 15, pc := s.cur.first }
  | .short => s.waitAll act (.reissue (s.shortPorts u act.length) false)
  | .ready => k s
/-- Each active lane performs its part, with its W sources popped in one step; a lane that an earlier lane's cause has
rolled back does nothing but `skip` (R256). -/
def State.eachLane (s : State) (u : Uses) (act : List Nat) (k : State → Nat → List Int → State) (skip : State → Nat → State := fun a _ => a) : State :=
  let ts := s.curThreads act
  let p := s.readFields ts u.src
  ts.zipIdx.foldl (fun a (t, i) => if s.rolled a t then skip a t else k a t (fieldVal p.2 i)) p.1
/-- A unit that acts lane by lane on the whole state. -/
def laneSteps (u : Uses) (k : State → Nat → List Int → State) (act : List Nat) (s : State) : State :=
  s.withPorts u act (fun s => s.eachLane u act k)

/-- Whether every lane has begun the unit and waits inside it: it has its group and its words (R78, R158). -/
def State.begun (s : State) (act : List Nat) : Bool := (s.curThreads act).all (fun t => (s.thread t).kept.isSome)
/-- The source words of a lane that goes on: a port's are those that it has taken, a register is read (R78). -/
def State.wordsOn (s : State) (u : Uses) (t : Nat) (kept : List Int) : List Int :=
  u.src.zipIdx.map (fun (r, i) => if isPort r then kept.getD i 0 else s.reg t r)
/-- Lanes that waited inside their unit go on with it. -/
def State.goOn (s : State) (u : Uses) (act : List Nat) (k : Nat → State → Nat → List Int → State) : State :=
  (s.curThreads act).foldl (fun a t =>
    let x := a.thread t
    match x.kept with
    | some g => if s.rolled a t then a else k g.1 (a.setThread t { x with kept := none }) t (a.wordsOn u t g.2)
    | none => a) s
/-- A lane that waits inside its unit keeps the words that it has taken, or its request does (R78). -/
def State.keepWords (s : State) (t : Nat) (v : List Int) : State :=
  let x := s.thread t
  match x.kept with
  | some g => s.setThread t { x with kept := some (g.1, v) }
  | none => { s with reqs := s.reqs.map (fun r => if r.id + 1 = s.nextId ∧ threadOf r.warp r.lane = t then { r with words := v } else r) }
/-- The lanes of a counted memory unit: the instruction counts once its lanes begin (R158); `k` gets the group's id, the
thread and the popped words, and calls doneLane for a lane that is done at once. -/
def State.memLanes (s : State) (u : Uses) (cls : Cls) (act : List Nat) (k : Nat → State → Nat → List Int → State) : State :=
  if 242 ≤ cntOf cls (s.warp s.cur.warp) then s.waitAll act (.reissue (.limit cls) false)
  else
    let p := s.openGrp s.cur.warp cls act.length
    p.1.eachLane u act (fun a t v => (k p.2 a t v).keepWords t v) (fun a t => a.doneLane (warpOf t) p.2)
/-- A counted memory unit: it waits for earlier acquires, for its ports and for room in its counter (R80, R130, R158). -/
def State.memUnit (s : State) (h : Hdr) (u : Uses) (cls : Cls) (k : Nat → State → Nat → List Int → State) : State :=
  if s.acqPending then s
  else s.issue h u (fun act s =>
    if s.begun act then s.goOn u act (fun g a t v => (k g a t v).keepWords t v)
    else s.withPorts u act (fun s => s.memLanes u cls act k))

/-- The lanes of a unit of no counter class begin it, or go on with it. -/
def freeLanes (u : Uses) (k : State → Nat → List Int → State) (act : List Nat) (s : State) : State :=
  if s.begun act then s.goOn u act (fun _ a t v => (k a t v).keepWords t v)
  else laneSteps u (fun a t v => (k a t v).keepWords t v) act s
/-- A memory unit of no counter class. -/
def State.freeUnit (s : State) (h : Hdr) (u : Uses) (k : State → Nat → List Int → State) : State :=
  if s.acqPending then s
  else s.issue h u (freeLanes u k)

/-- Retires a lane that is done at once. -/
def State.laneDone (s : State) (t gid : Nat) : State := (s.retire t s.cur.next).doneLane (warpOf t) gid
/-- A lane traps: it no longer counts. -/
def State.laneTrap (s : State) (t gid cause : Nat) (status ea : Int) : State :=
  (s.doneLane (warpOf t) gid).raise t { cause := cause, pc := s.cur.first, status := status, ea := ea }
/-- A lane waits inside its unit, which goes on counting (R158). -/
def State.laneWait (s : State) (t gid : Nat) (k : Wait) : State :=
  let s1 := s.waitLane t k
  s1.setThread t { s1.thread t with kept := some (gid, []) }

/-- Writes a loaded value (R221); what is owed to an exited lane is discarded (R269). -/
def State.putLoad (s : State) (t : Nat) (sz : Sz) (d : Nat) (v : Int) : State :=
  if (s.thread t).st = .exited then s else if sz = .dw then s.setPair t d v else s.setReg t d v

/-- DATA met by a load of local storage (R438). -/
def State.dataHit (s : State) (t : Nat) (hit : Bool) : State :=
  if hit then (s.count (s.warp (warpOf t)).ctx (dieIdx (coreOf (warpOf t))) 39 1).defer t 17 0 else s

/-- A tryte of the scratchpad as a lane reads it: its own drafted value first (R236). -/
def State.scrOf (s : State) (t : Nat) (a : Int) : Int :=
  ((if s.drafting (warpOf t) (t % 16) then s.blotRead (warpOf t) (t % 16) a else none)).getD (s.scr (coreOf (warpOf t)) a)
/-- Whether a lane's read of scratchpad trytes meets one that cannot be corrected (R438). -/
def State.scrLost (s : State) (t : Nat) (as : List Int) : Bool :=
  let w := warpOf t
  as.any (fun a => (if s.drafting w (t % 16) then s.blotRead w (t % 16) a else none).isNone
    && s.isBad 2 (coreOf w * partBase + scrKey a))
/-- A load of local space (R92, R96, R100, R104, R116, R236). -/
def State.localLoad (s : State) (t gid : Nat) (sz : Sz) (d : Nat) (ea : Int) : State :=
  let w := warpOf t
  let c := coreOf w
  let own := s.ownKey (dieIdx c)
  match regionOf ea with
  | .scratch => ((s.laneDone t gid).putLoad t sz d (ofTrytes ((covers sz ea).map (s.scrOf t)))).dataHit t (s.scrLost t (covers sz ea))
  | .counters =>
    let lo := s.ctrWord (s.warp w).ctx c ea
    if sz = .dw ∧ regionOf (ea + 3) = .scratch then
      ((s.laneDone t gid).putLoad t sz d (pair lo (ofTrytes ((covers .wd (ea + 3)).map (s.scrOf t))))).dataHit t (s.scrLost t (covers .wd (ea + 3)))
    else (s.laneDone t gid).putLoad t sz d (if sz = .dw then pair lo (s.ctrWord (s.warp w).ctx c (ea + 3)) else lo)
  | .vellum =>
    let need := ((covers sz ea).filter (fun a => (s.l1Serve c a).isNone)).map secOf
    if need.any (fun k => (s.velBusy own (27 * k)).isSome) then
      let x := s.thread t
      (s.setThread t { x with deadline := need.findSome? (fun k => s.velBusy own (27 * k)) }).laneWait t gid (.timed false)
    else
      let lost := need.any (s.velLost own)
      let s2 := need.dedup.foldl (fun a k => a.velFill c w k) s
      let s3 := (s2.laneDone t gid).putLoad t sz d (ofTrytes ((covers sz ea).map (fun a => (s2.l1Serve c a).getD 0)))
      if lost then s3.defer t 17 0 else s3
  | _ => s.laneTrap t gid 5 2 ea

/-- One lane of LD and LDNB at the core (R219 steps 1 and 2). -/
def State.loadLane (s : State) (sz : Sz) (o : Ord) (sc : Scope) (l : Lease) (d gid t : Nat) (ea : Int) : State :=
  match s.accessFate .ld sz ea with
  | .align st => s.laneTrap t gid 4 st ea
  | .perm st => s.laneTrap t gid 5 st ea
  | .ok =>
    if misaligned sz ea then s.laneTrap t gid 4 0 ea
    else if s.hazard t sz ea then s.laneWait t gid (.timed false)
    else if regionOf ea = .device then
      (s.addReq { s.mkReq t gid (.load sz d l false) ea with ord := o, scope := sc
                                                             ea2 := if crosses sz ea then some (ea + 3) else none }).await t
    else s.localLoad t gid sz d ea

def ldUses (sz : Sz) (d : Nat) (m : MOp) : Uses :=
  if sz = .dw then { src := [m.b], srcP := [m.a], dstP := [d], zPair := true } else { src := [m.b], srcP := [m.a], dstR := [d] }

/-- LD (R221). -/
def execLd (h : Hdr) (sz : Sz) (o : Acc) (l : Lease) (d : Nat) (m : MOp) (s : State) : R :=
  .next (s.memUnit h (ldUses sz d m) .ld (fun gid s t v =>
    s.loadLane sz (effOrd h o.ord) (effScope h o.scope) (effLease h l) d gid t (eaOf s t m (effImm h m.disp) (arg v 0))))

/-- The scope of an access for time: the natural scope, widened by a stated one (R216). -/
def State.accScope (s : State) (c : Nat) (sc : Scope) (ea : Int) : Scope :=
  if spaceOf ea = 1 then wider sc (s.natScope c (ownerOf ea) 0) else sc

/-- LDNB (R136, R223): a lane before T + guard(s) waits, with the guard that is in force when it begins (R123); then it
loads. A stated scope of a relaxed access counts here (DESIGN CHOICE, log 54). -/
def execLdnb (h : Hdr) (sz : Sz) (o : Acc) (l : Lease) (d : Nat) (m : MOp) (c : Nat) (s : State) : R :=
  let u := ldUses sz d m
  .next (s.memUnit h { u with srcP := u.srcP ++ [c] } .ld (fun gid s t v =>
    let ea := eaOf s t m (effImm h m.disp) (arg v 0)
    let k := coreOf (warpOf t)
    let x := s.thread t
    let due := x.ldnb.getD (s.regPair t c + s.guard (s.accScope k (effScope h o.scope) ea))
    if s.accessFate .ld sz ea = .ok ∧ !misaligned sz ea ∧ s.now k < due then
      (s.setThread t { x with deadline := some due, ldnb := some due }).laneWait t gid (.timed false)
    else s.loadLane sz (effOrd h o.ord) (effScope h o.scope) (effLease h l) d gid t ea))

/-- A store's value: a word field, or a pair (R217). -/
def State.srcVal (s : State) (sz : Sz) (t d : Nat) : Int :=
  match sz with
  | .tr => wrap (s.reg t d) 9
  | .wd => s.reg t d
  | .dw => s.regPair t d
def stUses (sz : Sz) (d : Nat) (m : MOp) : Uses :=
  if sz = .dw then { src := [m.b], srcP := [m.a, d] } else { src := [m.b], srcP := [m.a], srcR := [d] }

/-- A lower lane of the same instruction waits inside it: the updates of one instruction to a phased range enter the buffer
in lane order (R361). -/
def State.lowerWaits (s : State) (t gid : Nat) : Bool :=
  (List.range (t % 16)).any (fun l => (s.thread (threadOf (warpOf t) l)).kept.any (fun k => decide (k.1 = gid)))
/-- One lane of ST at the core (R219 steps 1 and 2, R236, R358). -/
def State.storeLane (s : State) (sz : Sz) (d gid t : Nat) (ea : Int) : State :=
  let w := warpOf t
  let v := s.srcVal sz t d
  match s.accessFate .st sz ea with
  | .align st => s.laneTrap t gid 4 st ea
  | .perm st => s.laneTrap t gid 5 st ea
  | .ok =>
    if misaligned sz ea then s.laneTrap t gid 4 0 ea
    else if s.hazard t sz ea then s.laneWait t gid (.timed false)
    else if regionOf ea = .device then
      let dr := s.drafting w (t % 16)
      let kinds := (if crosses sz ea then [ea, ea + 3] else [ea]).filterMap (s.shared (s.warp w).ctx)
      if kinds ≠ [] ∧ dr then (s.doneLane w gid).abort w 6 0
      else if kinds.any (fun k => decide (k ≠ 1)) then s.laneTrap t gid 5 3 ea
      else if kinds ≠ [] ∧ s.lowerWaits t gid then s.laneWait t gid (.timed false)
      else
        (s.addReq { s.mkReq t gid (if dr then .drafted sz v else .store sz v) ea with
          ea2 := if crosses sz ea then some (ea + 3) else none }).await t
    else if s.drafting w (t % 16) then
      match s.blotStore w (t % 16) (szLow sz ea) (toTrytes (szLen sz) v) with
      | some s1 => s1.laneDone t gid
      | none => (s.doneLane w gid).abort w 2 0
    else (s.setScrs (coreOf w) (szLow sz ea) (toTrytes (szLen sz) v)).laneDone t gid

/-- The scope of a release by an access: the widest natural scope of its lanes' homes, widened (R216); `idx` gives the
lanes' index words, also those that a port is about to give. -/
def State.relScope (s : State) (h : Hdr) (o : Acc) (m : MOp) (act : List Nat) (idx : List Int) : Scope :=
  act.zipIdx.foldl (fun a (l, i) =>
    let ea := eaOf s (threadOf s.cur.warp l) m (effImm h m.disp) (idx.getD i 0)
    wider a (if spaceOf ea = 1 then s.natScope (coreOf s.cur.warp) (ownerOf ea) 0 else if spaceOf ea = -1 then .sys else .block))
    (effScope h o.scope)

/-- Runs a release fence of the access's scope first when the order asks for one (R130, R221); the write-back faults that the
core holds are attributed to a release access of any scope (R436). -/
def State.released (s : State) (h : Hdr) (o : Acc) (m : MOp) (act : List Nat) (k : State → State) : State :=
  if effOrd h o.ord = .rel ∨ effOrd h o.ord = .acqrel then
    let sc := s.relScope h o m act (s.readField (s.curThreads act) m.b).2
    (if wide sc then s else s.attribute s.cur.warp act s.cur.first).afterFence act sc k
  else k s

/-- A counted memory unit of the st or ld class with a release in front. -/
def State.relUnit (s : State) (h : Hdr) (u : Uses) (cls : Cls) (o : Acc) (m : MOp)
    (k : Nat → State → Nat → List Int → State) : State :=
  if s.acqPending then s
  else s.issue h u (fun act s =>
    if s.begun act then s.goOn u act (fun g a t v => (k g a t v).keepWords t v)
    else s.withPorts u act (fun s => s.released h o m act (fun s => s.memLanes u cls act k)))

/-- ST (R221). -/
def execSt (h : Hdr) (sz : Sz) (o : Acc) (d : Nat) (m : MOp) (s : State) : R :=
  .next (s.relUnit h (stUses sz d m) .st o m (fun gid s t v =>
    s.storeLane sz d gid t (eaOf s t m (effImm h m.disp) (arg v 0))))

/-- One lane of STVA at the core (R218, R224). -/
def State.stvaLane (s : State) (sz : Sz) (d c gid t : Nat) (ea : Int) : State :=
  match s.accessFate .stva sz ea with
  | .align st => s.laneTrap t gid 4 st ea
  | .perm st => s.laneTrap t gid 5 st ea
  | .ok =>
    if misaligned sz ea then s.laneTrap t gid 4 0 ea
    else if s.hazard t sz ea then s.laneWait t gid (.timed false)
    else if (if crosses sz ea then [ea, ea + 3] else [ea]).any (fun a => (s.shared (s.warp (warpOf t)).ctx a).isSome) then s.laneTrap t gid 5 3 ea
    else
      (s.addReq { s.mkReq t gid (.stva sz (s.srcVal sz t d) (s.regPair t c)) ea with
        ea2 := if crosses sz ea then some (ea + 3) else none }).await t
/-- STVA (R134, R224). -/
def execStva (h : Hdr) (sz : Sz) (o : Acc) (d : Nat) (m : MOp) (c : Nat) (s : State) : R :=
  let u := stUses sz d m
  .next (s.relUnit h { u with srcP := u.srcP ++ [c], forbid := true } .st o m (fun gid s t v =>
    s.stvaLane sz d c gid t (eaOf s t m (effImm h m.disp) (arg v 0))))

/-- Steps 1 and 2 of R219 for a binary-typed access (R218): the cause with its status, or none. -/
def State.binFate (s : State) (n : Nat) (ea : Int) : Option (Nat × Int) :=
  match s.regionFate .bin .wd ea with
  | .align st => some (4, st)
  | .perm st => some (5, st)
  | .ok => if regionOf ea = .host ∧ fld ea 0 53 % (n : Int) ≠ 0 then some (4, 0) else none
/-- One lane of a binary-typed access leaves the core; a host access needs a PASID (R427). -/
def State.binLane (s : State) (n : Nat) (kind : RK) (o : Ord) (sc : Scope) (gid t : Nat) (ea : Int) : State :=
  match s.binFate n ea with
  | some (c, st) => s.laneTrap t gid c st ea
  | none =>
    if regionOf ea = .host ∧ (s.ctx (s.warp (warpOf t)).ctx).lr.pasid = -1 then s.laneTrap t gid 5 4 ea
    else if s.hazardOn t (bytesAt ea n) then s.laneWait t gid (.timed false)
    else (s.addReq { s.mkReq t gid kind ea with ord := o, scope := sc }).await t

/-- LDB (R222). -/
def execLdb (h : Hdr) (bt : BType) (tt : TType) (sat : Bool) (o : Acc) (d : Nat) (m : MOp) (s : State) : R :=
  let u : Uses := if tt = .t54 then { src := [m.b], srcP := [m.a], dstP := [d], zPair := true, forbid := true }
    else { src := [m.b], srcP := [m.a], dstR := [d], forbid := true }
  .next (s.memUnit h u .ld (fun gid s t v =>
    s.binLane bt.bytes (.ldb bt tt sat d) (effOrd h o.ord) (effScope h o.scope) gid t
      (eaOf s t m (effImm h m.disp) (arg v 0))))

/-- STB's source (R222). -/
def State.stbSrc (s : State) (tt : TType) (t d : Nat) : Int :=
  if tt = .t54 then s.regPair t d else wrap (s.reg t d) tt.width
/-- STB (R222): step 3 of R219 is made at the core after steps 1 and 2; a lane that saturates counts once it stores (R47). -/
def execStb (h : Hdr) (bt : BType) (tt : TType) (sat : Bool) (o : Acc) (d : Nat) (m : MOp) (s : State) : R :=
  let u : Uses := if tt = .t54 then { src := [m.b], srcP := [m.a, d], forbid := true }
    else { src := [m.b], srcP := [m.a], srcR := [d], forbid := true }
  .next (s.relUnit h u .st o m (fun gid s t v =>
    let ea := eaOf s t m (effImm h m.disp) (arg v 0)
    let cv := convOut bt tt (s.stbSrc tt t d)
    if (s.binFate bt.bytes ea).isNone ∧ cv.out ∧ !sat then s.laneTrap t gid 7 0 ea
    else s.binLane bt.bytes (.stb bt.bytes cv.val.toNat cv.out) (effOrd h o.ord) (effScope h o.scope) gid t ea))

/-- A unit of row 9 that acts per lane and never faults (R219). -/
def State.quietUnit (s : State) (h : Hdr) (m : MOp) (k : State → Nat → Int → State) : State :=
  s.issue h { src := [m.b], srcP := [m.a] } (laneSteps { src := [m.b], srcP := [m.a] } (fun s t v =>
    (k s t (eaOf s t m (effImm h m.disp) (arg v 0))).retire t s.cur.next))

/-- PREF (R225): the sectors of a device line are asked for; those of a Vellum line fill, after the window of a bank that
is being refreshed (R116); anything else is dropped. -/
def execPref (h : Hdr) (l : Lease) (m : MOp) (s : State) : R :=
  .next (s.quietUnit h m (fun s t ea =>
    let w := warpOf t
    let c := coreOf w
    let secs : List Int := [3 * lineOf ea - 1, 3 * lineOf ea, 3 * lineOf ea + 1]
    match regionOf ea with
    | .device =>
      if s.ownerOk ea then secs.foldl (fun a k => a.addReq { a.mkReq t 0 (.pref (effLease h l)) (27 * k) with lane := 16 }) s
      else s
    | .vellum =>
      if (s.velBusy (s.ownKey (dieIdx c)) ea).isSome then
        secs.foldl (fun a k => a.addReq { a.mkReq t 0 (.pref (effLease h l)) (27 * k) with lane := 16, stage := .home, own := a.ownKey (dieIdx c) }) s
      else secs.foldl (fun a k => a.velFill c w k) s
    | _ => s))

/-- The requests of a warp's write-backs of one instruction. -/
def State.wbCount (s : State) (gid : Nat) : Nat := s.reqs.countP (fun r => decide (r.gid = gid))
/-- WB counts until every write-back it caused is performed (R226). -/
def State.wbGroup (s : State) (act : List Nat) (k : Nat → State → State) : State :=
  let w := s.cur.warp
  if 242 ≤ cntOf .st (s.warp w) then s.waitAll act (.reissue (.limit .st) false)
  else
    let p := (s.attribute w act s.cur.first).openGrp w .st 1
    let s1 := k p.2 p.1
    let n := s1.wbCount p.2
    let x := s1.warp w
    s1.setWarp w { x with out := if n = 0 then x.out.filter (fun g => decide (g.gid ≠ p.2))
                                 else x.out.map (fun g => if g.gid = p.2 then { g with left := n } else g) }
/-- WB of single lines (R226). -/
def execWb (h : Hdr) (m : MOp) (s : State) : R :=
  let u : Uses := { src := [m.b], srcP := [m.a] }
  .next (s.issue h u (fun act s => s.withPorts u act (fun s => s.wbGroup act (fun gid s => s.eachLane u act (fun s t v =>
    let ea := eaOf s t m (effImm h m.disp) (arg v 0)
    (if regionOf ea = .device then s.wbLine (coreOf (warpOf t)) (warpOf t) (lineOf ea) 2 gid act s.cur.first else s).retire t s.cur.next)))))
/-- WB.all (R226). -/
def execWbAll (h : Hdr) (s : State) : R :=
  .next (s.issue h {} (fun act s => s.wbGroup act (fun gid s =>
    (s.wbCore (coreOf s.cur.warp) s.cur.warp 2 gid act s.cur.first).retireAll act)))
/-- INV (R227). -/
def execInv (h : Hdr) (m : MOp) (s : State) : R :=
  .next (s.quietUnit h m (fun s t ea =>
    if regionOf ea = .device ∨ regionOf ea = .vellum then s.l1Clean (coreOf (warpOf t)) (lineOf ea) [0, 1, 2] else s))
/-- INV.all (R227). -/
def execInvAll (h : Hdr) (s : State) : R :=
  .next (s.issue h {} (fun act s => (s.l1CleanAll (coreOf s.cur.warp)).retireAll act))

end Sys2Proof.Machine
end

