-- ==== Sys2Proof/Machine/Atomics.lean ====
section
/-! DEFINITION. Atomics and tickets, rows 10 and 11 (R228-R234, R247, R248): the core's part of each form and
the operations that a home performs. -/

namespace Sys2Proof.Machine

/-- The new value of an atomic at a location (R229). -/
def atomOp (op : AOp) (sz : Sz) (old v : Int) : Int :=
  let n := szTrits sz
  let f := if sz = .tr then f9 else f27
  match op with
  | .add => wrap (old + v) n
  | .adds => sat (old + v) n
  | .min => min old v
  | .max => max old v
  | .and => tand n old v
  | .or => tor n old v
  | .sum => tsum n old v
  | .xchg => v
  | .fadd => roundF f (addV (valF f old) (valF f v))
  | .fmin => roundF f (minV (valF f old) (valF f v))
  | .fmax => roundF f (maxV (valF f old) (valF f v))

/-- The counter class of an atomic (R158, R228). -/
def atomCls (d : Nat) : Cls := if d < 216 then .ld else .st

/-- Whether a host atomic is one of R232. -/
def hostAtomOk (k : RK) : Bool :=
  match k with
  | .atom op sz _ _ => (decide (op = .add) || decide (op = .xchg)) && decide (sz ≠ .tr)
  | .cas sz _ _ _ => decide (sz ≠ .tr)
  | _ => false
/-- The binary size of a host atomic (R232). -/
def hostBytesOf (sz : Sz) : Nat := if sz = .dw then 8 else 4
/-- Whether a value converts exactly to the signed binary integer of some bytes (R46, R232). -/
def fitsBin (n : Nat) (v : Int) : Bool :=
  decide (-(Int.ofNat (Nat.pow 2 (8 * n - 1))) ≤ v) && decide (v < Int.ofNat (Nat.pow 2 (8 * n - 1)))
def rkSz : RK → Sz
  | .atom _ sz _ _ => sz | .cas sz _ _ _ => sz | .atomo _ sz .. => sz | .load sz .. => sz | .store sz _ => sz
  | .drafted sz _ => sz | .stva sz .. => sz | _ => .wd
def rkVals : RK → List Int
  | .atom _ _ v _ => [v] | .cas _ e v _ => [e, v] | _ => []

/-- One lane of an atomic or a ticket form at the core (R218, R219 steps 1 to 3, R232, R358). -/
def State.atomLane (s : State) (kind : RK) (ticket : Bool) (o : Ord) (gid t : Nat) (ea : Int) : State :=
  let sz := rkSz kind
  match s.regionFate .atom sz ea with
  | .perm st => s.laneTrap t gid 5 st ea
  | .align st =>
    if regionOf ea = .host ∧ hostAtomOk kind then
      if ¬ (0 ≤ fld ea 0 53 ∧ fld ea 0 53 < 18446744073709551616) then s.laneTrap t gid 5 2 ea
      else if fld ea 0 53 % (hostBytesOf sz : Int) ≠ 0 then s.laneTrap t gid 4 0 ea
      else if !(rkVals kind).all (fitsBin (hostBytesOf sz)) then s.laneTrap t gid 7 0 ea
      else if (s.ctx (s.warp (warpOf t)).ctx).lr.pasid = -1 then s.laneTrap t gid 5 4 ea
      else (s.addReq { s.mkReq t gid kind ea with ord := o, scope := .sys }).await t
    else s.laneTrap t gid 4 st ea
  | .ok =>
    if misaligned sz ea ∨ crosses sz ea then s.laneTrap t gid 4 0 ea
    else if s.hazard t sz ea then s.laneWait t gid (.timed false)
    else if (match s.shared (s.warp (warpOf t)).ctx ea with
        | some k => !(ticket && decide (k = -1))
        | none => false) then s.laneTrap t gid 5 3 ea
    else (s.addReq { s.mkReq t gid kind ea with ord := o }).await t

def atomUses (sz : Sz) (d c : Nat) (m : MOp) : Uses :=
  if sz = .dw then { src := [m.b], srcP := [m.a, c], dstP := [d], zPair := true, forbid := true }
  else { src := [m.b, c], srcP := [m.a], dstR := [d], forbid := true }
/-- The value operand of an atomic: the popped or read word, or the pair (R217). -/
def State.atomVal (s : State) (sz : Sz) (t c : Nat) (w : Int) : Int :=
  match sz with
  | .tr => wrap w 9
  | .wd => w
  | .dw => s.regPair t c

/-- ATOM (R229). -/
def execAtom (h : Hdr) (op : AOp) (sz : Sz) (o : Acc) (d : Nat) (m : MOp) (c : Nat) (s : State) : R :=
  .next (s.relUnit h (atomUses sz d c m) (atomCls d) o m (fun gid s t v =>
    s.atomLane (.atom op sz (s.atomVal sz t c (arg v 1)) d) false (effOrd h o.ord) gid t
      (eaOf s t m (effImm h m.disp) (arg v 0))))

/-- RED (R229, R358, R361): in a phased range of a deterministic context the update goes to the phase buffer,
once the owner has confirmed it. -/
def execRed (h : Hdr) (op : AOp) (sz : Sz) (o : Acc) (m : MOp) (c : Nat) (s : State) : R :=
  let u : Uses := if sz = .dw then { src := [m.b], srcP := [m.a, c], forbid := true }
    else { src := [m.b, c], srcP := [m.a], forbid := true }
  .next (s.relUnit h u .st o m (fun gid s t v =>
    let ea := eaOf s t m (effImm h m.disp) (arg v 0)
    let k : RK := .atom op sz (s.atomVal sz t c (arg v 1)) 234
    if s.shared (s.warp (warpOf t)).ctx ea = some 1 ∧ !misaligned sz ea ∧ !crosses sz ea then
      (s.addReq { s.mkReq t gid k ea with ord := effOrd h o.ord, first := true }).await t
    else s.atomLane k false (effOrd h o.ord) gid t ea))

/-- CAS (R230): d gives the expected value and receives the old one. -/
def execCas (h : Hdr) (sz : Sz) (o : Acc) (d : Nat) (m : MOp) (c : Nat) (s : State) : R :=
  .next (s.relUnit h (atomUses sz d c m) (atomCls d) o m (fun gid s t v =>
    s.atomLane (.cas sz (s.srcVal sz t d) (s.atomVal sz t c (arg v 1)) d) false (effOrd h o.ord) gid t
      (eaOf s t m (effImm h m.disp) (arg v 0))))

/-- The sequence and number of a ticket word (R233). -/
def tktSeq (w : Int) : Nat := offF w 24 3
def tktNum (w : Int) : Int := fld w 0 24
def tktWord (s : Nat) (n : Int) : Int := oAt s 3 24 + n

/-- ATOMO (R229, R233): b names the ticket word. -/
def execAtomo (h : Hdr) (op : AOp) (sz : Sz) (o : Acc) (d a k : Nat) (disp : Int) (c : Nat) (s : State) : R :=
  let m : MOp := { a := a, b := 234, k := 0, disp := disp }
  let u := atomUses sz d c m
  .next (s.relUnit h { u with src := k :: u.src.drop 1 } (atomCls d) o m (fun gid s t v =>
    let tk := arg v 0
    s.atomLane (.atomo op sz (s.atomVal sz t c (arg v 1)) d (tktSeq tk) (tktNum tk)) true (effOrd h o.ord) gid t
      (eaOf s t m (effImm h disp) 0)))

/-- TKT, drawing a number (R247); a port takes the words once all lanes have theirs (R171). -/
def execTkt (h : Hdr) (q d : Nat) (m : MOp) (s : State) : R :=
  .next (s.memUnit h { src := [m.b], srcP := [m.a], dst := [d], forbid := true } .ld (fun gid s t v =>
    s.atomLane (.tkt q d) true .rlx gid t (eaOf s t m (effImm h m.disp) (arg v 0))))
/-- TKT.open (R247); it belongs to no counter class (R239). -/
def execTktOpen (h : Hdr) (q : Nat) (m : MOp) (s : State) : R :=
  .next (s.freeUnit h { src := [m.b], srcP := [m.a], forbid := true } (fun s t v =>
    s.atomLane (.tktOpen q) true .rlx 0 t (eaOf s t m (effImm h m.disp) (arg v 0))))
/-- TKT.close (R247); it belongs to no counter class (R239). -/
def execTktClose (h : Hdr) (q : Nat) (m : MOp) (s : State) : R :=
  .next (s.freeUnit h { src := [m.b], srcP := [m.a], forbid := true } (fun s t v =>
    s.atomLane (.tktClose q) true .rlx 0 t (eaOf s t m (effImm h m.disp) (arg v 0))))
/-- TKP (R248). -/
def execTkp (h : Hdr) (m : MOp) (c : Nat) (s : State) : R :=
  .next (s.memUnit h { src := [m.b, c], srcP := [m.a], forbid := true } .st (fun gid s t v =>
    s.atomLane (.tkp (tktSeq (arg v 1)) (tktNum (arg v 1))) true .rlx gid t
      (eaOf s t m (effImm h m.disp) (arg v 0))))

/-! At the home. -/

/-- The value at a location of a size, and the fills it needed. -/
def State.homeVal (s : State) (own : Nat) (pa : Int) (sz : Sz) : Int :=
  ofTrytes ((covers sz pa).map (fun a => s.homeTryte own a false))
/-- Writes a value at a location and answers W (R127). -/
def State.homeStore (s : State) (own ctx : Nat) (pa : Int) (sz : Sz) (v : Int) (sl : Int → Nat := hashSlice own) : State × Int :=
  let w := s.wOf own (lineOf pa)
  ((s.homePut own false ctx (List.zip (covers sz pa) (toTrytes (szLen sz) v)) sl).wrote own (lineOf pa), w)
/-- The home slices of a request's lines (R111). -/
def Req.slices (r : Req) : Int → Nat :=
  match r.leaf with
  | some l => l.slices r.own
  | none => hashSlice r.own

/-- What a home atomic writes and answers: new value, old value. -/
def rmwOf (k : RK) (old : Int) : Option Int :=
  match k with
  | .atom op sz v _ => some (atomOp op sz old v)
  | .atomo op sz v .. => some (atomOp op sz old v)
  | .cas _ e v _ => if old = e then some v else none
  | _ => none

/-- The ownership check of deterministic contexts at a line's home, for a block's access (R359, R360): whether another
block's line was met; `key` names the instruction, for the count of once per instruction and line. -/
def State.touchAs (s : State) (ctx core bid key : Nat) (wr : Bool) (va : Int) : State × Bool :=
  let x := s.ctx ctx
  if !x.lr.det ∨ (s.shared ctx va).isSome ∨ !wr then (s, false)
  else
    match Tab.find x.own (ikey (lineOf va)) with
    | none => (s.setCtx ctx { x with own := Tab.put (ikey (lineOf va)) bid x.own }, false)
    | some b =>
      if b = bid then (s, false)
      else if x.detSeen.contains (lineOf va, key) then (s, true)
      else ((s.setCtx ctx { x with detSeen := (lineOf va, key) :: x.detSeen }).count ctx (dieIdx core) 41 1, true)
/-- The same for a request. -/
def State.touch (s : State) (r : Req) (va : Int) : State × Bool :=
  s.touchAs r.ctx r.core r.bid (if r.gid = 0 then r.id else r.gid) (r.leaf.isSome && (r.leafAt va).w) va

/-- Replaces a request in flight. -/
def State.setReq (s : State) (r : Req) : State := { s with reqs := s.reqs.map (fun q => if q.id = r.id then r else q) }
/-- A home's message to the core leaves, with the home's count (R121). -/
def State.answer (s : State) (r : Req) (st : Stage) : State := s.setReq { r with stage := st, sent := (s.dieSt r.own).clk }
/-- The home's reply: a value and W (R127). -/
def State.reply (s : State) (r : Req) (v w : Int) : State := s.answer r (.reply v w)
/-- The home's message has reached the core, by the core's count (R121). -/
def State.arrived (s : State) (r : Req) : Bool := decide (r.sent ≤ s.now r.core)
def State.delReq (s : State) (id : Nat) : State := { s with reqs := s.reqs.filter (fun q => decide (q.id ≠ id)) }
def State.req (s : State) (id : Nat) : Option Req := s.reqs.find? (fun r => decide (r.id = id))

/-- The W of an ordered atomic of a deterministic context counts at the end of its phase (R363). -/
def State.notePhase (s : State) (r : Req) (w : Int) : State :=
  match r.kind with
  | .atomo .. =>
    let x := s.ctx r.ctx
    if x.lr.det then s.setCtx r.ctx { x with phaseW := max x.phaseW w } else s
  | _ => s
/-- An atomic is performed at its home as one step of the home order (R137, R229, R230). -/
def State.perform (s : State) (r : Req) : State :=
  let p := s.touch r r.ea
  let f := p.1.fillFor r.own (covers (rkSz r.kind) r.pa) false r.ctx (dieIdx r.core) r.slices
  let s1 := f.1
  let old := s1.homeVal r.own r.pa (rkSz r.kind)
  let cs := r.causes ++ f.2 ++ (if p.2 then [24] else [])
  match rmwOf r.kind old with
  | some v =>
    let q := s1.homeStore r.own r.ctx r.pa (rkSz r.kind) v r.slices
    (q.1.notePhase r q.2).reply { r with causes := cs } old q.2
  | none => s1.reply { r with causes := cs } old (s1.dieSt r.own).clk

/-! Sequence registers (R233, R234, R247, R248). -/

def State.setSeq (s : State) (own slice q : Nat) (x : Option Seq) : State :=
  let d := s.dieSt own
  s.setDie own { d with seqs := match x with
    | some v => Tab.put (slice * 27 + q) v d.seqs
    | none => Tab.del (slice * 27 + q) d.seqs }
/-- The sequence and number that an ATOMO or a TKP carries. -/
def seqOf : RK → Option (Nat × Int)
  | .atomo _ _ _ _ q t => some (q, t)
  | .tkp q t => some (q, t)
  | _ => none
/-- Requests that fill a slice's ordered-atomic buffer. -/
def State.oabUsed (s : State) (own slice : Nat) : Nat :=
  s.reqs.countP (fun r => decide (r.own = own) && decide (r.stage = .buffered) && (seqOf r.kind).isSome && decide (r.slice = slice))
/-- The dependence word as its home holds it. -/
def State.depWord (s : State) (ctx : Nat) : Option Int :=
  let x := s.ctx ctx
  match (s.translate (ownerOf x.lr.depa) ctx 0 (offOf x.lr.depa)).2 with
  | .leaf l => some (s.homeVal (ownerOf x.lr.depa) (l.phys (offOf x.lr.depa)) .wd)
  | .miss _ => none
/-- The Inkwell's examination of the dependence words, after every write: a condition once met stays met (R446). -/
def State.noteDeps (s : State) : State :=
  { s with ctxs := s.ctxs.map (fun p =>
      if p.2.live ∧ p.2.lr.depa ≠ 0 ∧ !p.2.depMet ∧ (match s.depWord p.1 with
        | some v => decide (p.2.lr.depth ≤ v)
        | none => false) = true then (p.1, { p.2 with depMet := true }) else p) }
/-- An ordered atomic or pass takes effect out of the buffer's order rules. -/
def State.performSeq (s : State) (r : Req) (det : Bool) : State :=
  let s1 := if det then s.count r.ctx (dieIdx r.core) 41 1 else s
  let r1 := if det then { r with causes := r.causes ++ [24] } else r
  match r.kind with
  | .tkp .. => s1.reply r1 0 (s1.dieSt r.own).clk
  | _ => s1.perform r1
/-- N advances past a number. -/
def Seq.pass (x : Seq) : Seq := { x with n := x.n + 1, drawn := x.drawn.filter (fun p => decide (p.1 ≠ x.n)) }

/-- The mark of a drawn number that a block's end has passed (R249). -/
def passedMark : Nat := 1000000000

/-- Performs the buffered requests and passes that are now awaited, in ascending number (R234, R249); one whose line is held
arrives again once it is free (R142). -/
def State.drainSeq : Nat → State → Nat → Nat → Nat → State
  | 0, s, _, _, _ => s
  | fuel + 1, s, own, slice, q =>
    match s.seq own slice q with
    | none => s
    | some x =>
      if x.drawn.contains (x.n, passedMark) then State.drainSeq fuel (s.setSeq own slice q (some x.pass)) own slice q
      else match s.reqs.find? (fun r => decide (r.own = own) && decide (r.stage = .buffered) && decide (r.slice = slice)
          && decide (seqOf r.kind = some (q, x.n))) with
      | some r =>
        if s.lineHeld own (lineOf r.pa) then s.setReq { r with stage := .home }
        else State.drainSeq fuel ((s.performSeq r false).noteDeps.setSeq own slice q (some x.pass)) own slice q
      | none => s

/-- The lines that a request reaches. -/
def Req.lines (r : Req) : List Int := lineOf r.ea :: (reqTrytes r).map lineOf
/-- An earlier request of the same core to the same line, or of the same instruction to the same home, is still on its
way there (R128, R231). -/
def State.behind (s : State) (r : Req) : Bool :=
  s.reqs.any (fun q => decide (q.id < r.id) && decide (q.stage = .home)
    && (decide (q.core = r.core) && decide (q.ctx = r.ctx) && q.lines.any (fun l => r.lines.contains l)
      || decide (q.warp = r.warp) && decide (q.gid = r.gid) && decide (q.pc = r.pc) && decide (q.own = r.own) && decide (q.slice = r.slice)))
/-- ATOMO_ARRIVAL: an ordered atomic or a pass arrives at its slice (R233, R234, R248); its number may have been passed when the
block that drew it ended, and then it is late (R249). -/
def execAtomoArrival (id : Nat) (s : State) : R :=
  match s.req id with
  | none => .next s
  | some r =>
    match seqOf r.kind, decide (r.stage = .home) && !r.held && decide (r.sent ≤ (s.dieSt r.own).clk) && !s.behind r && !s.lineHeld r.own (lineOf r.pa) with
    | some (q, t), true =>
      match s.seq r.own r.slice q with
      | none => .next (s.performSeq r true)
      | some x =>
        let isTkp : Bool := match r.kind with
          | .tkp .. => true
          | _ => false
        if t < x.n ∨ (isTkp = true ∧ x.d ≤ t) ∨ x.drawn.contains (t, passedMark) then .next (s.performSeq r true)
        else if t = x.n then
          .next (State.drainSeq 300 ((s.performSeq r false).noteDeps.setSeq r.own r.slice q (some x.pass)) r.own r.slice q)
        else if s.oabUsed r.own r.slice ≤ 25 then .next (s.setReq { r with stage := .buffered })
        else .next (s.setReq { r with stage := .refused })
    | _, _ => .next s
/-- ATOMO_RESEND: a refused request is sent again (R234). -/
def execAtomoResend (id : Nat) (s : State) : R :=
  match s.req id with
  | some r => if r.stage = .refused then .next (s.setReq { r with stage := .home }) else .next s
  | none => .next s

/-- Passes the numbers of an owner's registers that a block of a context has drawn and that no request has reached; one
that waits in the buffer has (R249). -/
def State.passDrawn (s : State) (own ctx : Nat) (mine : Nat → Bool) : State :=
  let d := s.dieSt own
  let buffered (k : Nat) (n : Int) : Bool := s.reqs.any (fun r => decide (r.own = own) && decide (r.slice = k / 27) && decide (r.stage = .buffered)
    && decide (seqOf r.kind = some (k % 27, n)))
  let s1 := s.setDie own { d with seqs := d.seqs.map (fun (k, x) =>
    if x.ctx = ctx then (k, { x with drawn := x.drawn.map (fun p => if mine p.2 && !buffered k p.1 then (p.1, passedMark) else p) }) else (k, x)) }
  d.seqs.foldl (fun a (k, _) => State.drainSeq 300 a own (k / 27) (k % 27)) s1

end Sys2Proof.Machine
end

