-- ==== Sys2Proof/Machine/Faults.lean ====
section
/-! DEFINITION. The owner's answer (R219, R401, R425, R426), page faults and their records (R428-R430), and
deferred write-back faults (R436). -/

namespace Sys2Proof.Machine

/-- The thread of a lane's request. -/
def Req.thr (r : Req) : Nat := threadOf r.warp r.lane
/-- Whether the warp that made a request still runs: another may have taken its slot (R269, R403). -/
def State.owns (s : State) (r : Req) : Bool :=
  decide ((s.warp r.warp).idx = r.widx) && decide ((s.warp r.warp).bid = r.bid) && decide ((s.warp r.warp).ctx = r.ctx)
/-- Requests for a line of code. -/
def isCode : RK → Bool
  | .fetch _ => true | .callt .. => true | .icpf _ => true | _ => false
/-- A request for a line of code that waits for the fill of another (R378). -/
def Req.joined (r : Req) : Bool := decide (r.stage = .l1) && isCode r.kind
/-- A fill of a line of an instruction cache is under way: no other is started (R378). -/
def State.fillUnderWay (s : State) (c : Nat) (line : Int) : Bool :=
  s.reqs.any (fun r => decide (r.core = c) && decide (lineOf r.ea = line) && isCode r.kind && !r.late && (match r.stage with
    | .owner => true
    | .home => true
    | .filled .. => true
    | _ => false))
/-- Requests for a whole group: instruction fetches. -/
def isFetch : RK → Bool
  | .fetch _ => true | _ => false
/-- Requests that never fault: PREF and ICPF (R225, R279). -/
def isQuiet : RK → Bool
  | .pref _ => true | .icpf _ => true | _ => false
/-- The threads that wait for a request. -/
def Req.thrs (r : Req) : List Nat :=
  match r.kind with
  | .fetch _ => r.lanes.map (threadOf r.warp)
  | .launch _ => r.lanes.map (threadOf r.warp)
  | _ => if r.lane = 16 then [] else [r.thr]

/-- The lanes of a request stop waiting for its answer. -/
def State.unbusy (s : State) (ts : List Nat) : State :=
  ts.foldl (fun a t => let x := a.thread t
    a.setThread t { x with busy := false }) s

/-- A refused fetch of a Scribe program returns the program's allocation (R340). -/
def State.scribeBack (s : State) (r : Req) : State :=
  let c := s.core r.core
  if isFetch r.kind ∧ c.scribe.state = 1 ∧ c.scribe.warp = r.warp ∧ c.scribe.alloc ∧ r.lanes.any (c.scribe.lanes.contains ·) then
    s.setCore r.core { c with scribe := {} }
  else s
/-- A request ends in a precise trap of its lanes (R219); a quiet request is dropped. -/
def State.refuse (s : State) (r : Req) (cause : Nat) (status : Int) : State :=
  let s1 := (s.delReq r.id).scribeBack r
  if isQuiet r.kind then s1
  else
    let s2 := (s1.unbusy r.thrs).doneLane r.warp r.gid
    let park (a : State) (t : Nat) : State :=
      let x := a.thread t
      if x.st = .parked then a.setThread t { x with st := .runnable }
      else if x.st = .stopped ∧ x.prior = .parked then a.setThread t { x with prior := .runnable } else a
    (r.thrs.foldl (fun a t => (park a t).raise t { cause := cause, pc := r.pc, status := status
                                                   ea := if isFetch r.kind then 0 else r.ea }) s2).settle r.warp

/-- A lane whose request the owner has accepted retires (R219), by itself: another lane's fault does not keep it parked, as in the
example of R66 (DESIGN CHOICE, log 79). -/
def State.retireReq (s : State) (r : Req) : State :=
  if r.lane = 16 then s
  else ((s.retire r.thr r.next).stepTrap r.warp [r.lane]).settle r.warp

/-- The kind of access in a fault record (R430). -/
def akind : RK → Nat
  | .load .. => 0 | .ldb .. => 0 | .pref _ => 0 | .launch _ => 0
  | .store .. => 1 | .drafted .. => 1 | .stva .. => 1 | .stb .. => 1 | .wb .. => 7
  | .fetch _ => 3 | .callt .. => 3 | .icpf _ => 3
  | _ => 2

/-- Adds a fault of a pair to the owner's buffer with its record, which names an address (R428-R430). -/
def State.addFault (s : State) (own ctx : Nat) (page ea : Int) (ak core wid lane : Nat) (pc : Int) (mal : Bool) : State :=
  let d := s.dieSt own
  let new : FbEnt := { ctx := ctx, page := pageOf page }
  if d.fb.contains new || d.missed.contains new then s
  else if 8 ≤ d.fb.length then
    s.setDie own { d with dropped := if d.dropped.contains ctx then d.dropped else ctx :: d.dropped, missed := d.missed ++ [new] }
  else
    let s1 := s.setDie own { d with fb := d.fb ++ [new] }
    s1.pushRec { core := s.q17Core ctx own, deferred := false
                 words := [recHead 1 5 (recCtx ctx) (own % 27), loW ea, hiW ea,
                   oAt ak 3 24 + (if d.dropped.contains ctx then pow3 22 else 0) + (if mal then pow3 21 else 0)
                     + oAt (core % 81) 4 17 + oAt wid 4 13 + oAt (dieIdx core) 3 10 + oAt lane 3 7 + oAt s.pkg 3 4,
                   loW pc, hiW pc] }

/-- Parks the lanes of a request, which no longer counts (R65, R158). -/
def State.parkReq (s : State) (r : Req) (st : Stage) : State :=
  let s1 := r.thrs.foldl (fun a t =>
    let x := a.thread t
    a.setThread t { x with busy := false, wait := .none_, st := if x.st = .stopped then .stopped else .parked
                           prior := if x.st = .stopped then .parked else x.prior }) (s.doneLane r.warp r.gid)
  (s1.setReq { r with stage := st, gid := 0 }).settle r.warp

/-- A request whose walk has ended in a fault is recorded and parks; inside a draft its lanes roll back, and the other lanes of a
fetch ask again (R256, R428, R430). -/
def State.takeFault (s : State) (r : Req) (m : Bool) : State :=
  if isQuiet r.kind then s.delReq r.id
  else
    let fetch := isFetch r.kind
    let s1 := s.addFault r.faultOwner r.ctx r.t (if fetch then 9 * r.pc else r.t) (akind r.kind) r.core (widOf r.warp)
      (if fetch then r.lanes.headD 0 else r.lane) r.pc m
    let dl := (if fetch then r.lanes else [r.lane]).filter (fun l => s.drafting r.warp l)
    if dl.isEmpty then s1.parkReq r .parked
    else
      let rest := r.lanes.filter (fun l => !dl.contains l)
      let s2 := if fetch && !rest.isEmpty then s1.setReq { r with lanes := rest, lane := rest.headD 0, stage := .owner }
        else (s1.delReq r.id).doneLane r.warp r.gid
      (s2.rollback r.warp dl 5 0).settle r.warp
/-- A walk for a request has ended in a fault: the request parks at once while the miss table holds its pair (R428, R467), or waits
for its turn among the first requests of their pairs: those of one issue group have one place (R429). -/
def State.missed (s : State) (r : Req) (m : Bool) : State :=
  if s.faultHeld r.faultOwner r.ctx (offOf r.t) then s.takeFault r m
  else
    let mate := s.reqs.find? (fun q => decide (q.id ≠ r.id) && decide (q.warp = r.warp) && decide (q.gid = r.gid) && decide (q.pc = r.pc)
      && decide (q.faultOwner = r.faultOwner) && (match q.stage with
        | .faulted _ => true
        | _ => false))
    { s.setReq { r with stage := .faulted m, arr := (mate.map (·.arr)).getD s.nextId } with nextId := s.nextId + 1 }

/-- What a form needs of a leaf (R425): the failing cause with its status; an atomic on a page with host placement takes
status 0 (R228; DEDUCED, log 13). -/
def permOf (k : RK) (l : Leaf) : Option (Nat × Int) :=
  match k with
  | .load .. => if l.r then none else some (5, 0)
  | .pref _ => if l.r then none else some (5, 0)
  | .store .. => if l.w && !l.cmp then none else some (5, 3)
  | .drafted .. => if l.w && !l.cmp then none else some (5, 3)
  | .stva .. => if l.w && !l.cmp then none else some (5, 3)
  | .wb .. => if l.w && !l.cmp then none else some (5, 3)
  | .fetch _ => if l.x then none else some (6, 0)
  | .icpf _ => if l.x then none else some (6, 0)
  | .callt .. => if l.x then none else some (6, 0)
  | _ => if l.r && l.w && !l.cmp then (if l.place = 2 then some (5, 0) else none) else some (5, 3)

/-- A watchpoint on a request's trytes (R401). -/
def State.watched (s : State) (r : Req) : Bool :=
  let x := s.ctx r.ctx
  let j := offF x.dbg 3 3
  let k := offF x.dbg 1 2
  let isLd := match r.kind with
    | .load .. => true | .ldb .. => true | _ => false
  !(s.warp r.warp).hm && (if isLd then k = 1 || k = 3 else k = 2 || k = 3)
    && (reqTrytes r).any (fun a => decide (shr a j = shr x.waddr j))

/-- An entry that cannot be corrected (R438). -/
def PEnt.fail : PEnt → PEnt
  | .store i w k tr _ => .store i w k tr true
  | .red i w ea op sz v _ => .red i w ea op sz v true
/-- Whether an entry belongs to a warp. -/
def PEnt.of (w : Nat) : PEnt → Bool
  | .store _ v .. => decide (v = w)
  | .red _ v .. => decide (v = w)
/-- Merges trytes of a sector into a warp's most recent entry, the entries newest first; none when that entry is no
store to the sector (R361). -/
def mergeNewest (w : Nat) (k : Int) (tr : Tab Int) : List PEnt → Option (List PEnt)
  | [] => none
  | e :: es =>
    if e.of w then
      match e with
      | .store i v k' old x => if k' = k then some (.store i v k' (tr.foldl (fun t p => Tab.put p.1 p.2 t) (if x then old.map (fun p => (p.1, 0)) else old)) x :: es) else none
      | .red .. => none
    else (mergeNewest w k tr es).map (e :: ·)
/-- Stored trytes enter the phase buffer (R361); none when it is full. -/
def State.phaseStore (s : State) (r : Req) (ts : List (Int × Int)) : Option State :=
  let c := s.core r.core
  let merge (es : List PEnt) (k : Int) : List PEnt :=
    let mine : Tab Int := (ts.filter (fun p => decide (secOf p.1 = k))).map (fun p => (ikey p.1, p.2))
    match mergeNewest r.warp k mine es.reverse with
    | some l => l.reverse
    | none => es ++ [.store (s.warp r.warp).idx r.warp k mine false]
  let es := (ts.map (fun p => secOf p.1)).dedup.foldl merge c.pbuf
  if 729 < es.length then none else some (s.setCore r.core { c with pbuf := es })
/-- A RED enters the phase buffer (R361). -/
def State.phaseRed (s : State) (r : Req) (op : AOp) (sz : Sz) (v : Int) : Option State :=
  let c := s.core r.core
  if 729 ≤ c.pbuf.length then none
  else some (s.setCore r.core { c with pbuf := c.pbuf ++ [.red (s.warp r.warp).idx r.warp r.ea op sz v false] })

/-- The request leaves the core for its home: the core's own copies of the trytes go first (R128, R138). A fault of that
write-back is recorded at once with the access's unit and raises WBF in no thread (DESIGN CHOICE, log 67). -/
def State.leaveCore (s : State) (r : Req) (pa : Int) (l : Leaf) : State :=
  let s1 := ((s.wbLine r.core r.warp (lineOf r.ea) 1 0 [] r.pc).dropCopies r.core (lineOf r.ea)).delReq r.id
  { s1 with nextId := s1.nextId + 1, reqs := s1.reqs ++ [{ r with id := s1.nextId, stage := .home, pa := pa, leaf := some l, sent := s.now r.core }] }
/-- A counted instruction has one request more to wait for. -/
def State.oneMore (s : State) (w gid : Nat) : State :=
  let x := s.warp w
  s.setWarp w { x with out := x.out.map (fun g => if g.gid = gid then { g with left := g.left + 1 } else g) }
/-- A timed store leaves the core; one that crosses a line is two, with the same time (R96, R224). -/
def State.stvaLeave (s : State) (r : Req) (sz : Sz) (v t : Int) (l : Leaf) : State :=
  match r.ea2 with
  | none => s.leaveCore r (l.phys (offOf r.ea)) l
  | some e2 =>
    let l2 := r.leaf2.getD l
    let hi : Req := { r with kind := .stva .wd (hiW v) t, ea := e2, ea2 := none, leaf2 := none, own := ownerOf e2 }
    let lo : Req := { r with kind := .stva .wd (loW v) t, ea2 := none, leaf2 := none }
    if sz = .dw then ((s.oneMore r.warp r.gid).leaveCore lo (l.phys (offOf r.ea)) l).leaveCore hi (l2.phys (offOf e2)) l2
    else s.leaveCore r (l.phys (offOf r.ea)) l
/-- A store's trytes, each with its value. -/
def storeTrytes (sz : Sz) (ea v : Int) : List (Int × Int) := List.zip (covers sz ea) (toTrytes (szLen sz) v)

/-- What an accepted device request does next. -/
def State.accept (s : State) (r : Req) (l : Leaf) : State :=
  let pa := l.phys (offOf r.ea)
  let r1 : Req := { r with pa := pa, leaf := some l }
  let slice := sliceOf r.own l pa
  match r.kind with
  | .load .. => (s.setReq { r1 with stage := .l1 }).retireReq r1
  | .store sz v =>
    let ts := storeTrytes sz r.ea v
    let phased := ts.filter (fun p => (s.shared r.ctx p.1).isSome)
    let plain := ts.filter (fun p => (s.shared r.ctx p.1).isNone)
    match (if phased.isEmpty then some s else s.phaseStore r phased) with
    | none => s.refuse r 5 0
    | some s0 =>
      let s1 := (plain.map (fun p => lineOf p.1)).dedup.foldl (fun a q => a.l1Room r.core r.warp q) s0
      (((plain.foldl (fun a p => a.l1Store r.core r.warp p.1 [p.2]) s1).delReq r.id).doneLane r.warp r.gid).retireReq r
  | .drafted sz v =>
    match s.blotStore r.warp r.lane (szLow sz r.ea) (toTrytes (szLen sz) v) with
    | some s1 => ((s1.delReq r.id).doneLane r.warp r.gid).retireReq r
    | none => (((s.delReq r.id).doneLane r.warp r.gid).abort r.warp 2 0).settle r.warp
  | .stva sz v t => (s.stvaLeave r1 sz v t l).retireReq r
  | .atom op sz v _ =>
    if r.first then
      match s.phaseRed r op sz v with
      | some s1 => ((s1.delReq r.id).doneLane r.warp r.gid).retireReq r
      | none => s.refuse r 5 0
    else (s.leaveCore r pa l).retireReq r
  | .cas .. => (s.leaveCore r pa l).retireReq r
  | .atomo _ _ _ _ q _ =>
    (match s.seq r.own slice q with
     | some x => if x.ctx = r.ctx then (s.leaveCore r pa l).retireReq r else s.refuse r 5 5
     | none => s.refuse r 5 5)
  | .tkp q _ =>
    (match s.seq r.own slice q with
     | some x => if x.ctx = r.ctx then (s.setReq { r1 with stage := .home }).retireReq r else s.refuse r 5 5
     | none => s.refuse r 5 5)
  | .tkt q _ =>
    (match s.seq r.own slice q with
     | some x =>
       if x.ctx ≠ r.ctx then s.refuse r 5 5
       else if half 24 ≤ x.d + (s.reqs.countP (fun p => decide (p.own = r.own) && decide (p.stage = .home) && decide (p.slice = slice) && (match p.kind with
           | .tkt n _ => decide (n = q)
           | _ => false)) : Int) then s.refuse r 5 0
       else (s.setReq { r1 with stage := .home }).retireReq r
     | none => s.refuse r 5 5)
  | .tktOpen q =>
    (match s.seq r.own slice q with
     | some _ => s.refuse r 5 5
     | none => (((s.setSeq r.own slice q (some { ctx := r.ctx })).delReq r.id).doneLane r.warp r.gid).retireReq r)
  | .tktClose q =>
    (match s.seq r.own slice q with
     | some x =>
       if x.ctx ≠ r.ctx then s.refuse r 5 5
       else if x.n = x.d then (((s.setSeq r.own slice q none).delReq r.id).doneLane r.warp r.gid).retireReq r
       else ((((s.delReq r.id).unbusy [r.thr]).laneWait r.thr r.gid (.reissue (.ticket r.own slice q) false)).keepWords r.thr r.words)
     | none => s.refuse r 5 5)
  | _ => s.setReq { r1 with stage := .home }

/-- A store that saturated counts when it is accepted (R47). -/
def State.clampedStore (s : State) (r : Req) : State :=
  match r.kind with
  | .stb _ _ true => s.count r.ctx (dieIdx r.core) 37 1
  | _ => s
/-- A window access at the owner (R119, R426): n bytes at an offset. -/
def State.windowAnswer (s : State) (r : Req) (n : Nat) (wr : Bool) : State :=
  let off := offOf r.ea
  match s.winAt r.own r.ctx off with
  | none => s.refuse r 4 1
  | some w =>
    let o := off - w.vbase
    if o % (n : Int) ≠ 0 then s.refuse r 4 0
    else if w.blen < o + n then s.refuse r 5 2
    else if (if wr then w.w ≠ 1 else w.r ≠ 1) then s.refuse r 5 3
    else if s.watched r then s.refuse r 21 0
    else
      let s1 := (s.clampedStore r).setReq { r with stage := .home, pa := w.pbase + o }
      if wr then s1.retireReq r else s1

/-- How far the code that a request names reaches on either side of its address: the entry of CALLT, else a line (R265, R277). -/
def Req.codeSpan (r : Req) : Int :=
  match r.kind with
  | .callt .. => 4
  | _ => 40
/-- Step 4 of R219 for a ternary access: every owner that it reaches holds tables, and none of it lies in a window; code in a
window is met as FETCH with the format mismatch (R56, R426; DEDUCED, log 66). -/
def State.ownersFate (s : State) (r : Req) (cause : Nat) : Option (Nat × Int) :=
  let as := r.ea :: r.ea2.toList
  if as.any (fun a => !s.hasTables (ownerOf a) r.ctx) then some (cause, 4)
  else if cause = 5 ∧ as.any (fun a => (s.winAt (ownerOf a) r.ctx (offOf a)).isSome) then some (4, 1)
  else if cause = 6 ∧ s.winHits r.own r.ctx (offOf r.ea - r.codeSpan) (offOf r.ea + r.codeSpan) then some (6, 1)
  else none
/-- Step 5 of R219, with both words of a crossing dword translated before either is performed (R97); a miss parks the lane
also where the other word is refused (DESIGN CHOICE, log 55). -/
def State.translated (s : State) (r : Req) : State :=
  let p := s.translate r.own r.ctx r.core (offOf r.ea)
  let e2 := r.ea2.getD r.ea
  let q := if r.ea2.isSome then p.1.translate (ownerOf e2) r.ctx r.core (offOf e2) else p
  match p.2, q.2 with
  | .miss m, _ => p.1.missed { r with t := r.ea } m
  | _, .miss m => q.1.missed { r with t := e2 } m
  | .leaf l, .leaf l2 =>
    match (permOf r.kind l).orElse (fun _ => permOf r.kind l2) with
    | some (c, st) => q.1.refuse r c st
    | none => q.1.accept (if r.ea2.isSome then { r with leaf2 := some l2 } else r) l
/-- The owner's checks of steps 4 and 5 (R219). -/
def State.ownerAnswer (s : State) (r : Req) : State :=
  let cause : Nat := match r.kind with
    | .fetch _ => 6 | .callt .. => 6 | .icpf _ => 6 | _ => 5
  match r.kind with
  | .ldb b .. => if s.hasTables r.own r.ctx then s.windowAnswer r b.bytes false else s.refuse r 5 4
  | .stb n .. => if s.hasTables r.own r.ctx then s.windowAnswer r n true else s.refuse r 5 4
  | _ =>
    match s.ownersFate r cause with
    | some (c, st) => s.refuse r c st
    | none => if s.watched r then s.refuse r 21 0 else s.translated r

/-! Host space (R143, R232, R427). -/

/-- Whether a host access needs write permission (R427). -/
def writesHost : RK → Bool
  | .stb .. => true | .atom .. => true | .cas .. => true | .atomo .. => true | _ => false
/-- The cached translation of a host address of a PASID, by 4 KiB page, that permits a read, or a write (`wr`). -/
def State.atsFind (s : State) (pasid : Int) (ea : Int) (wr : Bool) : Option Nat :=
  (s.ats.find? (fun e => decide (e.1 = pasid) && decide (e.2.1 = fld ea 0 53 / 4096) && (e.2.2.2 || !wr))).map (fun e => e.2.2.1 * 4096 + (fld ea 0 53 % 4096).toNat)
/-- The binary value of an integer in n bytes, and back (R46, R232). -/
def toBin (n : Nat) (v : Int) : Nat := (v % Int.ofNat (Nat.pow 2 (8 * n))).toNat
def ofBin (n : Nat) (x : Nat) : Int :=
  if x < Nat.pow 2 (8 * n - 1) then (x : Int) else (x : Int) - Int.ofNat (Nat.pow 2 (8 * n))

/-- LDB's end (R219 step 6, R222): conversion, and the destination or CONV; its soft causes follow (R438, R462). -/
def State.finishLdb (s : State) (r : Req) (b : BType) (t : TType) (sat : Bool) (d : Nat) (bits : Nat) : State :=
  let cv := convIn b t bits
  if cv.out && !sat then s.refuse r 7 0
  else
    let s1 := if cv.out then s.count r.ctx (dieIdx r.core) 37 1 else s
    let s2 := (((s1.delReq r.id).doneLane r.warp r.gid).retire r.thr r.next)
    let s3 := r.causes.foldl (fun a c => a.defer r.thr c 0) (if t = .t54 then s2.setPair r.thr d cv.val else s2.setReg r.thr d cv.val)
    (s3.stepTrap r.warp [r.lane]).settle r.warp

/-- A host access is performed (R143, R232). -/
def State.hostPerform (s : State) (r : Req) (a : Nat) : State :=
  let s0 := s.setWarp r.warp { s.warp r.warp with lastHost := r.ea }
  let now := (s.dieSt (s.ownKey 9)).clk
  match r.kind with
  | .ldb b t sat d => s.finishLdb r b t sat d (ofBytes (s.hostBytes a b.bytes))
  | .stb n bits _ => (((s0.clampedStore r).setHost a (toBytes n bits)).reply r 0 now).retireReq r
  | .atom op sz v _ =>
    let n := hostBytesOf sz
    let old := ofBytes (s.hostBytes a n)
    let new := if op = .xchg then toBin n v else toBin n ((old : Int) + v)
    ((s0.setHost a (toBytes n new)).reply r (ofBin n old) now).retireReq r
  | .cas sz e v _ =>
    let n := hostBytesOf sz
    let old := ofBytes (s.hostBytes a n)
    ((if old = toBin n e then s0.setHost a (toBytes n (toBin n v)) else s0).reply r (ofBin n old) now).retireReq r
  | _ => s.delReq r.id

/-- Whether an earlier host access of the warp has not gone out: writes keep program order, and a read does not pass
an earlier write (R143). -/
def State.hostBefore (s : State) (r : Req) : Bool :=
  s.reqs.any (fun q => decide (q.id < r.id) && decide (q.warp = r.warp) && decide (spaceOf q.ea = -1) && decide (q.stage = .owner)
    && (match q.kind with
      | .ldb .. => false
      | .flush => false
      | _ => true))
/-- Whether an earlier request of the same instruction to the same owner is still on its way there: the requests of
one instruction keep ascending lane order (R231), in a deterministic context at all owners (R361). -/
def State.ownerBefore (s : State) (r : Req) : Bool :=
  s.reqs.any (fun q => decide (q.id < r.id) && decide (q.warp = r.warp) && decide (q.gid = r.gid) && decide (q.pc = r.pc)
    && (decide (q.own = r.own) || (s.ctx r.ctx).lr.det) && decide (q.stage = .owner))
/-- OWNER_ANSWER (R219): the owner's answer reaches the core; a host request goes on when the I/O die holds its
translation (R427). The zero-length read of a system release completes behind the warp's host writes (R144). A request for a
line of code that waited for another's fill, which is under way no more, goes to the owner itself (R378). -/
def execOwnerAnswer (id : Nat) (s : State) : R :=
  match s.req id with
  | none => .next s
  | some r =>
    if r.joined ∧ !s.fillUnderWay r.core (lineOf r.ea) then .next (s.setReq { r with stage := .owner, sent := s.now r.core })
    else if r.stage ≠ .owner ∨ r.held ∨ (s.dieSt r.own).clk < r.sent then .next s
    else if spaceOf r.ea = -1 then
      if s.hostBefore r then .next s
      else if r.kind = .flush then .next (s.delReq id)
      else match s.atsFind (s.ctx r.ctx).lr.pasid r.ea (writesHost r.kind) with
        | some a => .next (s.hostPerform r a)
        | none => .next s
    else if s.ownerBefore r then .next s
    else .next (s.ownerAnswer r)

/-- ATS_INVALIDATION (R427): entries of a PASID's page are removed. Requests translated under them are performed
in the step that translates them, so none is outstanding. -/
def execAtsInvalidation (pasid page : Nat) (s : State) : R :=
  .next { s with ats := s.ats.filter (fun e => !(decide (e.1 = (pasid : Int)) && decide (e.2.1 = (page : Int)))) }

/-- Whether a fault of the same owner comes first: one of a lower lane of the same instruction, whose fate may be open, or one that
reached level 2 before (R9, R429). -/
def State.faultBefore (s : State) (r : Req) : Bool :=
  s.reqs.any (fun q => decide (q.id ≠ r.id) && decide (q.warp = r.warp) && decide (q.gid = r.gid) && decide (q.pc = r.pc)
    && decide (q.lane < r.lane) && !isQuiet q.kind && (match q.stage with
      | .owner => (q.ea :: q.ea2.toList).any (fun a => decide (ownerOf a = r.faultOwner))
      | .faulted _ => decide (q.faultOwner = r.faultOwner)
      | _ => false))
  || s.reqs.any (fun q => decide (q.arr < r.arr) && !isQuiet q.kind && decide (q.faultOwner = r.faultOwner) && (match q.stage, q.kind with
      | .faulted _, .wb .. => false
      | .faulted _, _ => true
      | _, _ => false))
/-- PAGE_FAULT (R428): the owner tells the requester, which parks; every other request that awaits the same pair parks with it. -/
def execPageFault (id : Nat) (s : State) : R :=
  match s.req id with
  | none => .next s
  | some r =>
    match r.stage, r.kind with
    | .faulted _, .wb .. => .next s
    | .faulted m, _ =>
      if s.faultBefore r then .next s
      else
        let mates := s.reqs.filter (fun q => decide (q.id ≠ id) && decide (q.ctx = r.ctx) && decide (q.faultOwner = r.faultOwner)
          && decide (pageOf q.t = pageOf r.t))
        .next (mates.foldl (fun a q => match a.req q.id with
          | none => a
          | some p => match p.stage, p.kind with
            | .faulted _, .wb .. => a
            | .faulted n, _ => a.takeFault p n
            | _, _ => a) (s.takeFault r m))
    | _, _ => .next s
/-- FAULT_RECORD_PUSH (R429): waiting records enter the q17 of a die's Scriptorium core. -/
def execFaultRecordPush (die : Nat) (s : State) : R := .next (s.flushRecs (die * 81))

/-- DEFERRED_WRITE_BACK_FAULT (R436): the written trytes of a refused write-back are dropped at the home. -/
def execDeferredWriteBackFault (id : Nat) (s : State) : R :=
  match s.req id with
  | none => .next s
  | some r =>
    match r.stage, r.kind with
    | .faulted m, .wb tr by_ =>
      let secs := (tr.map (fun p => p.1 / 27)).dedup
      let centre (k : Nat) : Int := r.ea + 27 * ((k : Int) - 1)
      let s1 := (s.count r.ctx (dieIdx r.core) 44 secs.length).delReq id
      let s2 := secs.foldl (fun a k =>
        if by_ = 0 then
          let full := decide (27 ≤ (a.core r.core).wbf.length)
          let b := if full then a.wbfRec r.ctx r.own r.core (widOf r.warp) 0 (centre k) 0 m else a
          let x := b.core r.core
          b.setCore r.core { x with wbf := x.wbf ++ [{ own := r.own, ea := centre k, malformed := m, recorded := full }] }
        else (if s.owns r then r.lanes else []).foldl (fun b l => b.defer (threadOf r.warp l) 11 (centre k))
          (a.wbfRec r.ctx r.own r.core (widOf r.warp) (r.lanes.headD 0) (centre k) r.pc m)) s1
      .next ((s2.doneLane r.warp r.gid).settle r.warp)
    | _, _ => .next s

end Sys2Proof.Machine
end

