-- ==== Sys2Proof/Machine/MemEvents.lean ====
section
/-! DEFINITION. The events of memory: requests at their homes (R113, R125, R127), sector fills (R112, R117), fills
and replies at the core (R108, R158), write completions (R131), leases' ends and evictions (R126, R109, R112), timed
stores (R134), Vellum's windows (R115, R116), Hairline (R121, R462) and storage errors (R437, R438). -/

namespace Sys2Proof.Machine

/-- A dword load whose two words lie in two sectors of one line. -/
def twoSecs (r : Req) : Bool :=
  match r.kind with
  | .load .dw .. => decide (lineOf r.ea = lineOf (r.ea + 3)) && decide (secOf r.ea ≠ secOf (r.ea + 3))
  | _ => false
/-- A tryte of a load that neither a fill, the L1 nor the lane's own draft has given yet (R107, R108). -/
def State.lacks (s : State) (r : Req) (a : Int) : Bool :=
  (Tab.find r.got (ikey a)).isNone && (s.l1Serve r.core a).isNone && !(r.drafted && (s.blotRead r.warp r.lane a).isSome)
/-- A clean copy that a load would use. -/
def State.usesCopy (s : State) (r : Req) (a : Int) : Bool :=
  (Tab.find r.got (ikey a)).isNone && !(r.drafted && (s.blotRead r.warp r.lane a).isSome)
    && (match Tab.find (s.l1 r.core (lineOf a)).tr (linePos a) with
      | some t => !t.written
      | none => false)
/-- The trytes that a load still needs. A dword whose words lie in two sectors of a line takes both copies from one moment
of the line, so that it observes no part of a dword atomic (R138). -/
def State.missing (s : State) (r : Req) : List Int :=
  let m := (reqTrytes r).filter (s.lacks r)
  let copies := (reqTrytes r).filter (s.usesCopy r)
  let g (a : Int) : Int := Tab.get 0 (s.l1 r.core (lineOf a)).grant (secIn a)
  if twoSecs r && (!m.isEmpty || copies.any (fun a => copies.any (fun b => decide (g a ≠ g b)))) then
    (reqTrytes r).filter (fun a => s.lacks r a || s.usesCopy r a)
  else m
/-- The address whose line a request needs at its home next. -/
def State.target (s : State) (r : Req) : Option Int :=
  match r.kind with
  | .load .. => (s.missing r).head?
  | .pref _ => if (s.l1Serve r.core r.ea).isSome then none else some r.ea
  | _ => some r.ea
/-- The sectors, by address, that a request needs whole (R112, R138, R277). -/
def State.needSecs (s : State) (r : Req) : List Int :=
  match r.kind, s.target r with
  | .load .., some a => if twoSecs r then ((s.missing r).map (fun b => 27 * secOf b)).dedup else [27 * secOf a]
  | .pref _, some a => [27 * secOf a]
  | .fetch _, some a => [81 * lineOf a - 27, 81 * lineOf a, 81 * lineOf a + 27]
  | .icpf _, some a => [81 * lineOf a - 27, 81 * lineOf a, 81 * lineOf a + 27]
  | .callt .., some a => [81 * lineOf a - 27, 81 * lineOf a, 81 * lineOf a + 27]
  | _, _ => []
/-- Whether a slice holds every tryte of a sector. -/
def State.secFull (s : State) (own : Nat) (k : Int) (cmp : Bool) : Bool := decide ((s.sec own k cmp).tr.length = 27)
/-- Whether a request waits for the home to perform it. -/
def atHome (r : Req) : Bool :=
  match r.stage, r.kind with
  | .home, _ => true
  | .l1, .load .. => true
  | _, _ => false
/-- A write-back of the same core to the line is on its way to the home: a fill follows it (R128). -/
def State.behindWb (s : State) (r : Req) : Bool :=
  (match r.kind with
   | .load .. => true
   | _ => false) && s.reqs.any (fun q => decide (q.stage = .home) && decide (q.core = r.core) && decide (lineOf q.ea = lineOf r.ea) && (match q.kind with
      | .wb .. => true
      | _ => false))
/-- Whether the home can take a request now (R113, R121, R142). -/
def State.homeReady (s : State) (r : Req) : Bool :=
  atHome r && !r.held && decide (r.sent ≤ (s.dieSt r.own).clk) && !s.behind r && !s.behindWb r
    && (s.target r).all (fun a => !s.lineHeld r.own (lineOf (r.physAt a)))
/-- Whether the slice holds every sector that a request needs. -/
def State.secsFull (s : State) (r : Req) : Bool :=
  (s.needSecs r).all (fun a => s.secFull r.own (secOf (r.physAt a)) (r.leafAt a).cmp)

/-- The physical trytes of the sector of an address. -/
def Req.secTrytes (r : Req) (b : Int) : List Int := (List.range 27).map (fun (i : Nat) => 27 * secOf (r.physAt b) - 13 + (i : Int))
/-- A load's or a prefetch's sectors at the home: a lease is granted, and the fill leaves (R125); a prefetch is no access of
R359. -/
def State.fillReply (s : State) (r : Req) (a : Int) (lease : Lease) : State :=
  let l := r.leafAt a
  let pa := r.physAt a
  let p := if isQuiet r.kind then (s, false) else s.touch r a
  let g := p.1.grantLease r.own (lineOf pa) r.core l lease
  let q := g.1.lostRead r.own ((s.needSecs r).flatMap r.secTrytes) l.cmp r.ctx (dieIdx r.core)
  let tr : Tab Int := (s.needSecs r).flatMap (fun b => (List.range 27).map (fun i =>
    (27 * secIn b + i, q.1.homeTryte r.own (27 * secOf (r.physAt b) - 13 + (i : Int)) l.cmp)))
  q.1.answer { r with t := a, causes := r.causes ++ (if p.2 then [24] else []) ++ (if isQuiet r.kind then [] else q.2) } (.filled tr g.2 (s.hline r.own (lineOf pa)).writes)
/-- A line of code at the home, read in one step of the home order (R277). -/
def State.lineReply (s : State) (r : Req) : State :=
  let low := r.physAt (81 * lineOf r.ea) - 40
  let cmp := (r.leafAt r.ea).cmp
  let p := s.lostRead r.own ((List.range 81).map (fun (i : Nat) => low + (i : Int))) cmp r.ctx (dieIdx r.core)
  let tr : Tab Int := (List.range 81).map (fun i => (i, s.homeTryte r.own (low + (i : Int)) cmp))
  p.1.answer { r with causes := r.causes ++ p.2 } (.filled tr .unlim (s.dieSt r.own).clk)
/-- A write-back at its home: the windows, translation and permission, then the masked trytes as one request (R138, R426, R436). -/
def State.wbArrive (s : State) (r : Req) (tr : Tab Int) : State :=
  let p := s.translate r.own r.ctx r.core (offOf r.ea)
  match p.2 with
  | .miss m => p.1.setReq { r with stage := .faulted m }
  | .leaf l =>
    match (if s.winHits r.own r.ctx (offOf r.ea - 40) (offOf r.ea + 40) then some (4, 1) else permOf r.kind l) with
    | some _ => p.1.setReq { r with stage := .faulted false }
    | none =>
      let pa := l.phys (offOf r.ea)
      let q := p.1.touch { r with leaf := some l } r.ea
      let w := q.1.wOf r.own (lineOf pa)
      let s1 := (q.1.homePut r.own false r.ctx (tr.map (fun x => (pa - 40 + (x.1 : Int), x.2))) (l.slices r.own)).wrote r.own (lineOf pa)
      s1.reply { r with leaf := some l, pa := pa, causes := if q.2 then [24] else [] } 0 w
/-- The bytes of a window's atom that an access meets: those of one that cannot be corrected become zero, and DATA is counted
(R438). -/
def State.atomLost (s : State) (own a ctx die : Nat) : State × List Nat :=
  if s.bad.contains (0, cellKey own a) then
    (({ s with bad := s.healed 0 (cellKey own a) }.setBytes own (64 * a) (List.replicate 64 0)).count ctx die 39 1, [17])
  else (s, [])
/-- The same for a request. -/
def State.winLost (s : State) (r : Req) : State × List Nat := s.atomLost r.own (r.pa.toNat / 64) r.ctx (dieIdx r.core)
/-- A window access at its home (R119); what a load reads travels to the core (R121). -/
def State.windowArrive (s : State) (r : Req) : State :=
  match r.kind with
  | .ldb b .. =>
    let p := s.winLost r
    p.1.reply { r with causes := r.causes ++ p.2 } (ofBytes (p.1.bytes r.own r.pa.toNat b.bytes) : Int) 0
  | .stb n bits _ =>
    let p := s.winLost r
    (p.1.setBytes r.own r.pa.toNat (toBytes n bits)).reply { r with causes := r.causes ++ p.2 } 0 (s.dieSt r.own).clk
  | _ => s
/-- A number is drawn at a sequence register; none is free while 243 are outstanding (R247). -/
def State.draw (s : State) (r : Req) (q : Nat) : State :=
  match s.seq r.own r.slice q with
  | none => s.refuse r 5 5
  | some x =>
    if 243 ≤ x.d - x.n then s
    else (s.setSeq r.own r.slice q (some { x with d := x.d + 1, drawn := x.drawn ++ [(x.d, r.bid)] })).reply r (tktWord q x.d) 0

/-- HOME_REQUEST (R113): one request is performed whole at its line's home. A load whose sector is not held waits
for SECTOR_FILL; ordered atomics and timed stores arrive by their own rows. -/
def execHomeRequest (id : Nat) (s : State) : R :=
  match s.req id with
  | none => .next s
  | some r =>
    if regionOf r.ea = .vellum then
      -- a prefetch of Vellum that waited for its bank's window (R116, R225)
      (if r.stage = .home ∧ (s.velBusy r.own r.ea).isNone then .next ((s.velFill r.core r.warp (secOf r.ea)).delReq id) else .next s)
    else if !s.homeReady r then .next s
    else match r.kind, s.target r with
      | .load _ _ lease _, some a => if s.secsFull r then .next (s.fillReply r a lease) else .next s
      | .pref lease, some a => if s.secsFull r then .next (s.fillReply r a lease) else .next s
      | .pref _, none => .next (s.delReq id)
      | .fetch _, _ => if s.secsFull r then .next (s.lineReply r) else .next s
      | .icpf _, _ => if s.secsFull r then .next (s.lineReply r) else .next s
      | .callt .., _ => if s.secsFull r then .next (s.lineReply r) else .next s
      | .wb tr _, _ => .next (s.wbArrive r tr)
      | .atom .., _ => .next (s.perform r)
      | .cas .., _ => .next (s.perform r)
      | .ldb .., _ => .next (s.windowArrive r)
      | .stb .., _ => .next (s.windowArrive r)
      | .tkt q _, _ => .next (s.draw r q)
      | _, _ => .next s

/-- SECTOR_FILL (R52, R112, R117): the memory's answer for a sector that a request needs; the requests that the
fill satisfies take its soft causes, a prefetch none; a load of the same core still on its way to the owner, which
the same sector answers, is among them, and so is a load that waits on a prefetch's fill (R404; DEDUCED, log 34). -/
def execSectorFill (id : Nat) (s : State) : R :=
  match s.req id with
  | none => .next s
  | some r =>
    let k (q : Req) (a : Int) : Int := secOf (q.physAt a)
    match (s.needSecs r).find? (fun a => !s.secFull r.own (k r a) (r.leafAt a).cmp), atHome r with
    | some a, true =>
      let p := s.fillSec r.own (k r a) (r.leafAt a).cmp r.ctx (dieIdx r.core) ((r.leafAt a).slices r.own (lineOf (r.physAt a)))
      .next { p.1 with reqs := p.1.reqs.map (fun q =>
        if atHome q && decide (q.own = r.own) && decide ((q.leafAt q.ea).cmp = (r.leafAt a).cmp)
            && (s.needSecs q).any (fun b => decide (k q b = k r a))
          || decide (q.stage = .owner) && decide (q.core = r.core) && decide (q.ctx = r.ctx)
            && (s.needSecs q).any (fun b => decide (secOf b = secOf a)) then { q with causes := q.causes ++ p.2 } else q) }
    | _, _ => .next s

/-- A draft's read set takes a read of a copy (R252). -/
def State.noteRead (s : State) (r : Req) (a : Int) (g : Int) (e : LEnd) : State :=
  if !r.drafted then s
  else
    let x := s.warp r.warp
    let stop : Option Int := match e with
      | .at_ v => some v
      | _ => none
    let old := x.draft.reads.find? (fun l => decide (l.line = lineOf a))
    let new : RdLine := match old with
      | none => { line := lineOf a, grant := g, stop := stop }
      | some o => { line := o.line, grant := min o.grant g, stop := match o.stop, stop with
          | some u, some v => some (min u v)
          | some u, none => some u
          | none, v => v }
    s.setWarp r.warp { x with draft := { x.draft with reads := new :: x.draft.reads.filter (fun l => decide (l.line ≠ lineOf a)) } }

/-- An older fill of the same sectors is still on its way: fills of a sector reach the L1 in the order of their grants (R129). -/
def State.fillBefore (s : State) (r : Req) (g : Int) : Bool :=
  s.reqs.any (fun q => decide (q.id ≠ r.id) && decide (q.core = r.core) && decide (lineOf q.t = lineOf r.t) && (match q.stage, q.kind with
    | .filled _ _ h, .load .. => decide (h < g)
    | .filled _ _ h, .pref _ => decide (h < g)
    | _, _ => false))
/-- L1_FILL (R108): the fill reaches the L1, no earlier than it was sent (R121); the trytes that its load needs are served
at this point. -/
def execL1Fill (id : Nat) (s : State) : R :=
  match s.req id with
  | none => .next s
  | some r =>
    match r.stage, r.kind with
    | .filled tr e g, .pref _ =>
      if !s.arrived r || s.fillBefore r g then .next s
      else .next (((s.l1Room r.core r.warp (lineOf r.t)).l1Place r.core (lineOf r.t) tr (tr.map (·.1 / 27)).dedup e g).delReq id)
    | .filled tr e g, .load .. =>
      if !s.arrived r || s.fillBefore r g then .next s
      else
        let s1 := (s.l1Room r.core r.warp (lineOf r.t)).l1Place r.core (lineOf r.t) tr (tr.map (·.1 / 27)).dedup e g
        let mine := (reqTrytes r).filter (fun a => decide (lineOf a = lineOf r.t) && (Tab.find tr (linePos a)).isSome && (Tab.find r.got (ikey a)).isNone)
        let line := s1.l1 r.core (lineOf r.t)
        let got := mine.foldl (fun t a => match Tab.find line.tr (linePos a) with
          | some y => Tab.put (ikey a) y.val t
          | none => t) r.got
        .next ((s1.setReq { r with stage := .l1, got := got }).noteRead r r.t g e)
    | _, _ => .next s

/-- The value of a tryte of a load that is served now (R107, R236). -/
def State.loadTryte (s : State) (r : Req) (a : Int) : Int :=
  ((if r.drafted then s.blotRead r.warp r.lane a else none).orElse (fun _ => (Tab.find r.got (ikey a)).orElse (fun _ => s.l1Serve r.core a))).getD 0
/-- A load's lines that the L1 serves enter the draft's read set: by their copy's grant, or, where the core's own written
trytes are served, as they are at the home now (R252). -/
def State.noteServed (s : State) (r : Req) : State :=
  (reqTrytes r).foldl (fun a p =>
    let x := a.l1 r.core (lineOf p)
    match Tab.find r.got (ikey p), Tab.find x.tr (linePos p) with
    | none, some t =>
      if r.drafted && (a.blotRead r.warp r.lane p).isSome then a
      else if t.written then a.noteRead r p (a.hline r.own (lineOf (r.physAt p))).writes .none_
      else a.noteRead r p (Tab.get 0 x.grant (secIn p)) (Tab.get .none_ x.ends (secIn p))
    | _, _ => a) s
/-- The threads in which a reply raises its soft causes: the lane that it answers; for a write-back, the non-exited threads
of the warps whose stores it carries; for a commit, the lanes that stored (R360, R404; DEDUCED, log 56). A warp that has taken
the slot of an exited one receives nothing (R403). -/
def State.softThreads (s : State) (r : Req) : List Nat :=
  match r.kind with
  | .wb .. => (r.ws.filter (fun p => decide ((s.warp p.1).idx = p.2))).flatMap (fun p => threadsOf p.1)
  | .commit .. => if s.owns r then r.lanes.map (threadOf r.warp) else []
  | _ => if r.lane = 16 ∨ !s.owns r then [] else [r.thr]
/-- A request has been answered: its soft causes follow, and it counts no longer (R158, R404). -/
def State.answered (s : State) (r : Req) : State :=
  (r.causes.foldl (fun a c => (s.softThreads r).foldl (fun b t => b.defer t c 0) a) ((s.delReq r.id).doneLane r.warp r.gid)).settle r.warp

/-- An atomic's reply: its old value, its W, and the core's copies of the line, which predate it, are used no more (R128). -/
def State.atomReply (s : State) (r : Req) (sz : Sz) (d : Nat) (v w : Int) : State :=
  let s1 := s.dropCopies r.core (lineOf r.ea)
  if d < 216 then (((if s.owns r then (s1.putLoad r.thr sz d v).raiseRT r.warp w else s1).ctxRT r.ctx w).answered r) else s
/-- The draws of one TKT that has a port for its words: once all lanes have theirs and the port has room, they are pushed in
lane order (R80, R171). -/
def State.tktPush (s : State) (r : Req) (d : Nat) : State :=
  let mine := s.reqs.filter (fun q => decide (q.warp = r.warp) && decide (q.gid = r.gid) && decide (q.pc = r.pc) && (match q.kind with
    | .tkt _ e => decide (e = d)
    | _ => false))
  let w := s.warp r.warp
  let words := mine.filterMap (fun q => match q.stage with
    | .reply v _ => some v
    | _ => none)
  if words.length ≠ mine.length ∨ s.portRoom r.core w.ctx w.bid (d - 216) < words.length then s
  else mine.foldl (fun a q => a.answered q) (s.portPush r.core w.ctx w.bid (d - 216) words)
/-- LOAD_REPLY (R158, R221, R229): a load whose trytes are all there, or an atomic's or a ticket's reply, writes its
destination; what is owed to an exited lane is discarded (R269). -/
def execLoadReply (id : Nat) (s : State) : R :=
  match s.req id with
  | none => .next s
  | some r =>
    if r.away || !s.arrived r then .next s else
    match r.stage, r.kind with
    | .l1, .load sz d _ _ =>
      if !(s.missing r).isEmpty then .next s
      else .next (((s.noteServed r).putLoad r.thr sz d (ofTrytes ((reqTrytes r).map (s.loadTryte r)))).answered r)
    | .reply v w, .atom _ sz _ d => .next (s.atomReply r sz d v w)
    | .reply v w, .cas sz _ _ d => .next (s.atomReply r sz d v w)
    | .reply v w, .atomo _ sz _ d _ _ => .next (s.atomReply r sz d v w)
    | .reply v _, .ldb b t sat d => .next (s.finishLdb r b t sat d v.toNat)
    | .reply v _, .tkt _ d => if isPort d then .next (s.tktPush r d) else .next ((s.putLoad r.thr .wd d v).answered r)
    | _, _ => .next s

/-- Whether WRITE_COMPLETION ends a request, and not LOAD_REPLY. -/
def endsAsWrite : RK → Bool
  | .atom _ _ _ d => decide (216 ≤ d)
  | .cas _ _ _ d => decide (216 ≤ d)
  | .atomo _ _ _ d _ _ => decide (216 ≤ d)
  | .wb .. => true | .stva .. => true | .stb .. => true | .tkp .. => true | .commit .. => true
  | _ => false
/-- WRITE_COMPLETION (R127, R131, R134): W raises RT(s) of the warps whose writes it completes, for every resident warp
when an eviction wrote back; the core's copies that predate a store that passed the L1 by are used no more (R128). -/
def execWriteCompletion (id : Nat) (s : State) : R :=
  match s.req id with
  | none => .next s
  | some r =>
    match r.stage, endsAsWrite r.kind && !r.away && s.arrived r with
    | .reply _ w, true =>
      let s0 := match r.kind with
        | .wb .. => s
        | _ => if spaceOf r.ea = 1 then s.dropCopies r.core (lineOf r.ea) else s
      let s1 := (((s0.warpsOf r.core).filter (fun x => r.raises x (s0.warp x).idx)).foldl (fun a x => a.raiseRT x w) s0).ctxRT r.ctx w
      if r.late then .next ((s1.count r.ctx (dieIdx r.core) 38 1).answered { r with causes := r.causes ++ [9] })
      else .next (s1.answered r)
    | _, _ => .next s

/-- LEASE_END (R126): clean words whose sector lease has ended become invalid. -/
def execLeaseEnd (c : Nat) (line : Int) (s : State) : R :=
  let x := s.l1 c line
  let ended := [0, 1, 2].filter (fun k => match Tab.get .none_ x.ends k with
    | .at_ e => decide (e ≤ s.now c)
    | _ => false)
  .next (s.l1Clean c line ended)
/-- L1_EVICTION (R109). -/
def execL1Eviction (c : Nat) (line : Int) (s : State) : R :=
  .next ((s.wbLine c (c * 28 + Tab.get 0 (s.l1 c line).stw 0) line 0 0 [] 0).setL1 c line {})
/-- L2_EVICTION (R112): the line of a sector leaves L2, and its trytes go to memory. -/
def execL2Eviction (sec : Nat) (s : State) : R :=
  .next (s.evictLine (sec / partBase) (shr (unKey (sec % partBase / 2)) 1) (decide (sec % 2 = 1)))

/-! Timed stores (R134). -/

/-- Performs a timed store at its home (R127, R134). -/
def State.stvaStore (s : State) (r : Req) (sz : Sz) (v : Int) (w : Int) (late : Bool) : State :=
  let p := s.touch r r.ea
  let s1 := p.1.homePut r.own false r.ctx (List.zip r.pas (toTrytes (szLen sz) v)) r.slices
  (r.plines.foldl (fun a l => a.wrote r.own l) s1).reply { r with late := late, causes := if p.2 then [24] else [] } 0 w
/-- Entries of a slice's pending table in use. -/
def State.pendUsed (s : State) (own slice : Nat) : Nat :=
  s.reqs.countP (fun r => decide (r.own = own) && decide (r.stage = .buffered) && decide (r.slice = slice) && !(seqOf r.kind).isSome)
/-- STVA_ARRIVAL (R134): held until its time, or applied late. A store that found the table full takes an entry when
one is free, and is late when that is past its time. -/
def execStvaArrival (id : Nat) (s : State) : R :=
  match s.req id with
  | none => .next s
  | some r =>
    match r.stage, r.kind with
    | .home, .stva sz v t =>
      if r.held ∨ (s.dieSt r.own).clk < r.sent ∨ s.behind r ∨ r.plines.any (s.lineHeld r.own) then .next s
      else
        let now := (s.dieSt r.own).clk
        let overrun := r.plines.any (fun l => (s.hline r.own l).grants.any (fun g => decide (t < g.stop) && decide (now < g.stop)))
        let room := decide (s.pendUsed r.own r.slice < 243)
        let w := (r.plines.map (s.wOf r.own)).foldl max now
        if t < now ∧ (r.first = false ∨ room = true) then .next (s.stvaStore r sz v w true)
        else if overrun ∧ r.first = false then .next (s.stvaStore r sz v w true)
        else if room then .next { s.setReq { r with stage := .buffered, arr := s.nextId } with nextId := s.nextId + 1 }
        else .next (s.setReq { r with first := true })
    | _, _ => .next s
/-- STVA_PERFORM (R134): at its time a pending store is performed with W = T; of two, the one of the earlier time first, and
of equal times the one that arrived first. -/
def execStvaPerform (id : Nat) (s : State) : R :=
  match s.req id with
  | none => .next s
  | some r =>
    match r.stage, r.kind with
    | .buffered, .stva sz v t =>
      let earlier := s.reqs.any (fun q => decide (q.own = r.own) && decide (q.stage = .buffered) && (match q.kind with
        | .stva _ _ u => decide (u < t) || (decide (u = t) && decide (q.arr < r.arr))
        | _ => false))
      if (s.dieSt r.own).clk < t ∨ earlier ∨ r.plines.any (s.prepHeld r.own) then .next s
      else .next (s.stvaStore r sz v t false)
    | _, _ => .next s

/-! Vellum (R115, R116). -/

/-- Whether a lane waits for a time that has come before it issues its unit again. -/
def State.windowDue (s : State) (t : Nat) : Bool :=
  let x := s.thread t
  decide (x.st = .waiting) && x.deadline.any (fun d => decide (d ≤ s.now (coreOf (warpOf t)))) && (match x.wait with
    | .timed _ => true
    | _ => false)
/-- VELLUM_WINDOW_END (R116): a lane that waited for a bank's window is served once the window has ended: it issues
its load again, with the other lanes of its warp whose time has come. -/
def execVellumWindowEnd (id : Nat) (s : State) : R :=
  if !s.windowDue id then .next s
  else .next (((threadsOf (warpOf id)).filter s.windowDue).foldl (fun a u =>
    a.setThread u { a.thread u with wait := .timed true, deadline := none }) s)
/-- VWIN_ADVANCE (R115): at the end of a rotation VWIN advances by 2,187. -/
def execVwinAdvance (die : Nat) (s : State) : R :=
  let d := s.dieSt (s.ownKey die)
  if d.vwin + 2187 ≤ d.clk then .next (s.setDie (s.ownKey die) { d with vwin := d.vwin + 2187 }) else .next s

/-! Hairline (R121, R462). -/

/-- The coordinate of a package in a dimension (R462). -/
def coord (p d : Nat) : Int := trit ((p : Int) - 13) d
/-- Whether the first hop of the way to a package is up: its port, or the spare of its dimension. -/
def State.routeUp (s : State) (p : Nat) : Bool :=
  let up (q : Nat) : Bool := Tab.get true s.mg.trained q
  match [0, 1, 2].find? (fun d => decide (coord s.pkg d ≠ coord p d)) with
  | none => true
  | some d => up (if wrap (coord p d - coord s.pkg d) 1 = 1 then 2 * d else 2 * d + 1) || up (6 + d)
/-- HAIRLINE_ARRIVAL (R121): a message is delivered when the receiver's count has reached its timestamp. -/
def execHairlineArrival (id : Nat) (s : State) : R :=
  match s.req id with
  | none => .next s
  | some r =>
    if r.held ∧ s.routeUp (r.own / 27) ∧ r.sent ≤ (s.dieSt r.own).clk then .next (s.setReq { r with held := false }) else .next s
/-- What a request that cannot be delivered comes to: a load reads zero and a write is dropped, with DATA, and an atomic, a
ticket form or a prepare returns zero (R462). -/
def State.bestEffort (s : State) (r : Req) : State :=
  let data := s.count r.ctx (dieIdx r.core) 39 1
  let none_ : Req := { r with held := false, stage := .reply 0 0 }
  let lost : Req := { r with held := false, causes := r.causes ++ [17] }
  let zeros : Tab Int := (List.range 81).map (fun i => (i, (0 : Int)))
  match r.kind with
  | .load .. =>
    (data.setReq { lost with stage := .l1, got := (reqTrytes r).foldl (fun t a => Tab.put (ikey a) 0 t) [] }).retireReq r
  | .pref _ => s.delReq r.id
  | .icpf _ => s.delReq r.id
  | .fetch _ => data.setReq { lost with stage := .filled zeros .unlim 0 }
  | .callt .. => data.setReq { lost with stage := .filled zeros .unlim 0 }
  | .atom .. => (s.setReq none_).retireReq r
  | .cas .. => (s.setReq none_).retireReq r
  | .atomo .. => (s.setReq none_).retireReq r
  | .tkt .. => (s.setReq none_).retireReq r
  | .tkp .. => (s.setReq none_).retireReq r
  | .tktOpen _ => (s.delReq r.id).retireReq r
  | .tktClose _ => (s.delReq r.id).retireReq r
  | .ldb b t sat d => data.finishLdb lost b t sat d 0
  | .wb .. => data.setReq { lost with stage := .reply 0 0 }
  | .prep .. => s.setReq none_
  | .commit .. => data.setReq { lost with stage := .reply 0 0 }
  | _ => (((data.delReq r.id).doneLane r.warp r.gid).defer r.thr 17 0).retireReq r
/-- HAIRLINE_UNDELIVERABLE (R462): a request undelivered for 10 ms is completed best-effort. -/
def execHairlineUndeliverable (id : Nat) (s : State) : R :=
  match s.req id with
  | none => .next s
  | some r =>
    if r.held ∧ !s.routeUp (r.own / 27) ∧ r.sent + 10000000 ≤ s.now r.core then .next (s.bestEffort r) else .next s

/-! Storage errors (R437, R438). -/

/-- SOFT_ERROR (R437, R438): a corrected error changes nothing. What cannot be corrected is lost: clean copies are
discarded, and other data reads as zero with DATA. Stores: 0 an atom of memory (the key of cellKey with the atom's
number), 1 an L1 line and 7 an instruction-cache line (core and line), 2 a tryte of scratchpad (core and place; here and below a part and a place are part * partBase + place),
3 of Vellum (owner and address), 4 an element of an accumulator (core and slot * 729 + element), 5 a register and 6 a predicate
(thread * 256 + number), 8 a sector of L2 (the key of L2_EVICTION), 9 a Blotter entry and 10 a phase-buffer entry
(core * 1024 + place). A folio's data are scratchpad (R99; DEDUCED, log 81). The written trytes of an L1 line are left unharmed:
R438 names no fate for them (DESIGN CHOICE, log 68). Those of L2, and a phase-buffer entry, are met by their reads. -/
def execSoftError (store key : Nat) (fatal : Bool) (s : State) : R :=
  if !fatal then .next s
  else
    let c := key / partBase
    let lost (t : Nat) (cs : Nat) (a : State) : State :=
      (a.count (a.warp (warpOf t)).ctx (dieIdx cs) 39 1).defer t 17 0
    if store = 0 ∨ store = 2 ∨ store = 3 ∨ store = 4 then
      .next { s with bad := if s.bad.contains (store, key) then s.bad else (store, key) :: s.bad }
    else if store = 1 then .next (s.l1Clean c (unKey (key % partBase)) [0, 1, 2])
    else if store = 7 then
      let k := s.core c
      .next (s.setCore c { k with ic := Tab.del (key % partBase) k.ic })
    else if store = 5 then
      let t := key / 256
      if (s.thread t).st = .exited then .next s else .next ((lost t (coreOf (warpOf t)) (s.setReg t (key % 256) 0)).settle (warpOf t))
    else if store = 6 then
      let t := key / 256
      if (s.thread t).st = .exited then .next s else .next ((lost t (coreOf (warpOf t)) (s.setPred t (key % 256) 0)).settle (warpOf t))
    else if store = 8 then
      let x := s.sec c (unKey (key % partBase / 2)) (decide (key % 2 = 1))
      .next (s.setSec c (unKey (key % partBase / 2)) (decide (key % 2 = 1))
        { x with tr := (x.tr.filter (fun p => p.2.written)).map (fun p => (p.1, { p.2 with lost := true })) })
    else if store = 9 then
      let k := s.core (key / 1024)
      match k.blot[key % 1024]? with
      | none => .next s
      | some b =>
        let s1 := s.setCore (key / 1024) { k with blot := k.blot.set (key % 1024) { b with val := 0 } }
        .next ((lost (threadOf b.warp b.lane) (key / 1024) s1).settle b.warp)
    else if store = 10 then
      let k := s.core (key / 1024)
      match k.pbuf[key % 1024]? with
      | none => .next s
      | some e => .next (s.setCore (key / 1024) { k with pbuf := k.pbuf.set (key % 1024) e.fail })
    else .next s

end Sys2Proof.Machine
end

