-- ==== Sys2Proof/Machine/Time.lean ====
section
/-! DEFINITION. Fences and time, row 11 (R240-R243): FENCE, TNOW, TWAIT, TALARM and their events; QSTAT (R251), and
the event by which a waiting unit is issued again (R80, R414). -/

namespace Sys2Proof.Machine

/-- Whether an order kind releases; 0 is acquire-release (R238). -/
def ordRel (o : Ord) : Bool := decide (o ≠ .acq)
/-- The scope of a fence; 0 is die (R238). -/
def fenceScope (sc : Scope) : Scope := if sc = .dflt then .die else sc
/-- FENCE (R240). -/
def execFence (h : Hdr) (o : Acc) (s : State) : R :=
  .next (s.issue h {} (fun act s =>
    let sc := fenceScope (effScope h o.scope)
    let rel := ordRel (effOrd h o.ord)
    match s.fenceStart s.cur.warp sc rel act s.cur.first with
    | (a, none) => a.retireAll act
    | (a, some ph) => a.fenceWait act sc rel true ph))

/-- The lanes of a warp that wait in a fence, with the fence; the warp issues nothing else meanwhile (R132). -/
def State.fenceLanes (s : State) (w : Nat) : List (Nat × Scope × Bool × Bool × Nat) :=
  (threadsOf w).filterMap (fun t => match (s.thread t).wait with
    | .fence sc rel ends ph => if (s.thread t).st = .waiting then some (t, sc, rel, ends, ph) else none
    | _ => none)
/-- FENCE_COMPLETE (R132): a warp's fence takes its next steps; when all are done a FENCE ends, and a fence in front of
another unit's effect lets that unit be issued again. A fence of no scope is IFENCE's wait (R281). -/
def execFenceComplete (w : Nat) (s : State) : R :=
  match s.fenceLanes w with
  | [] => .next s
  | (t, sc, rel, ends, ph) :: more =>
    let ts := t :: more.map (·.1)
    let r := s.fenceRun w sc rel (ts.map (· % 16)) (s.thread t).pc ph
    match r.2 with
    | some q =>
      if q = ph then .next s
      else .next (ts.foldl (fun a u => a.setThread u { a.thread u with wait := .fence sc rel ends q }) r.1)
    | none =>
      let x := r.1.warp w
      let s1 := r.1.setWarp w { x with fguard := none, fetch := if sc = .dflt then none else x.fetch }
      if ends then .next (((ts.foldl State.endWait s1).stepTrap w (ts.map (· % 16))).settle w)
      else .next ((ts.foldl (fun a u => a.setThread u { a.thread u with wait := .fenced sc }) s1).settle w)

/-- TNOW (R241). -/
def execTnow (h : Hdr) (d : Nat) (s : State) : R :=
  let n := s.now (coreOf s.cur.warp)
  .next (s.perLane h { dstP := [d] } (fun _ _ _ => { wr := [.pair d n] }))

/-- When a timed instruction of a lane falls due (R242, R243). -/
def State.dueOf (s : State) (t : Nat) (w : When) (imm : Int) (sc : Scope) : Int :=
  (match w with
   | .at_ c => s.regPair t c
   | .after => s.now (coreOf (warpOf t))) + imm + (if sc = .dflt then 0 else s.guard sc)
def whenUses (w : When) : List Nat :=
  match w with
  | .at_ c => [c]
  | .after => []
/-- TWAIT (R242): each lane waits for its own deadline. -/
def execTwait (h : Hdr) (t : When) (scope : Scope) (imm : Int) (s : State) : R :=
  .next (s.issue h { srcP := whenUses t } (fun act s =>
    (s.curThreads act).foldl (fun a q =>
      let x := a.thread q
      let due := x.deadline.getD (s.dueOf q t (effImm h imm) scope)
      if due ≤ s.now (coreOf s.cur.warp) then a.retire q s.cur.next
      else (a.setThread q { x with deadline := some due }).waitLane q .until_) s))
/-- Whether the count has reached the deadline that a WAITING thread has. -/
def State.dueNow (s : State) (t : Nat) : Bool :=
  let x := s.thread t
  decide (x.st = .waiting) && x.deadline.any (fun d => decide (d ≤ s.now (coreOf (warpOf t))))
/-- TIMED_WAIT_DEADLINE (R242): the count has reached a lane's deadline, and so that of every lane of its warp that waits
for this count or an earlier one. A TWAIT retires; a unit that waits for a time before its own effect is issued again. -/
def execTimedWaitDeadline (t : Nat) (s : State) : R :=
  let w := warpOf t
  let go (x : Thread) : Bool := match x.wait with
    | .until_ => true
    | .timed _ => true
    | _ => false
  if !s.dueNow t || !go (s.thread t) then .next s
  else
    let due := (threadsOf w).filter (fun u => s.dueNow u && go (s.thread u))
    let ends := due.filter (fun u => decide ((s.thread u).wait = .until_))
    let s1 := due.foldl (fun a u =>
      let x := a.thread u
      if x.wait = .until_ then a.endWait u else a.setThread u { x with wait := .timed true, deadline := none }) s
    .next ((s1.stepTrap w (ends.map (· % 16))).settle w)

/-- TALARM (R243): it waits until the alarm table holds an entry for each lane; a lane's time is the one at its issue. -/
def execTalarm (h : Hdr) (t : When) (a : Nat) (imm : Int) (s : State) : R :=
  let u : Uses := { src := [a], srcP := whenUses t, forbid := true }
  .next (s.issue h u (fun act s =>
    let c := coreOf s.cur.warp
    let due (s : State) (q : Nat) : Int := (s.thread q).ldnb.getD (s.dueOf q t (effImm h imm) .dflt)
    if 81 < (s.core c).alarms.length + act.length then
      ((s.curThreads act).foldl (fun a q => a.setThread q { a.thread q with ldnb := some (due s q) }) s).waitAll act (.timed false)
    else laneSteps u (fun s q v =>
      let k := s.core c
      (s.setCore c { k with alarms := k.alarms ++ [{ at_ := due s q, word := arg v 0 }] }).retire q s.cur.next) act s))
/-- ALARM_DUE (R243): the earliest due alarm, the first armed of equal ones, pushes its word when q15 has room. -/
def execAlarmDue (c : Nat) (s : State) : R :=
  let k := s.core c
  let due := k.alarms.filter (fun a => decide (a.at_ ≤ s.now c))
  match due.foldl (fun (b : Option Alarm) a => match b with
    | none => some a
    | some x => if a.at_ < x.at_ then some a else b) none with
  | none => .next s
  | some a =>
    if 81 ≤ (s.port c 15).length then .next s
    else .next ((s.setCore c { k with alarms := k.alarms.erase a }).setPort c 15 (s.port c 15 ++ [a.word]))

/-- QSTAT (R251). -/
def execQstat (h : Hdr) (d a : Nat) (s : State) : R :=
  .next (s.perLane h { dst := [d], names := [a], forbid := true } (fun s t _ =>
    let w := warpOf t
    let c := coreOf w
    let x := s.warp w
    let q := a - 216
    { wr := [wrW d ((if s.portClosed c x.ctx q then pow3 18 else 0) + (s.portRoom c x.ctx x.bid q : Int) * pow3 9
                      + ((s.port c q).length : Int))] }))
/-- QUEUE_SERVE (R80, R86, R414): the warp's groups in waits that have moved nothing are issued again. -/
def execQueueServe (w : Nat) (s : State) : R :=
  let again (t : Nat) : Bool := decide ((s.thread t).st = .waiting) && (match (s.thread t).wait with
    | .reissue _ due => !due
    | .timed due => !due && (s.thread t).deadline.isNone
    | .counters _ due => !due
    | _ => false)
  .next (((threadsOf w).filter again).foldl (fun a t =>
    let x := a.thread t
    match x.wait with
    | .reissue k _ => a.setThread t { x with wait := .reissue k true }
    | .counters b _ => a.setThread t { x with wait := .counters b true }
    | _ => a.setThread t { x with wait := .timed true }) s)

end Sys2Proof.Machine
end

