-- ==== Sys2Proof/Machine/Barriers.lean ====
section
/-! DEFINITION. Barriers (R83-R85, R244-R246): BAR, BARA, BARW, BARV, completion of a phase, and arrivals signalled by
other packages. -/

namespace Sys2Proof.Machine

/-- Where a block is resident. -/
def State.coreOfBlk (s : State) (ctx bid : Nat) : Option Nat :=
  match Tab.find (s.ctx ctx).blk bid with
  | some (.placed c) => some c
  | some (.saving c _) => some c
  | _ => none
/-- A block's key in arrivals. -/
def blkKey (ctx bid : Nat) : Nat := ctx * 2000000 + bid
/-- The instance of a level that a warp belongs to (R83). -/
def State.barKey (s : State) (l : Level) (w : Nat) : Nat :=
  let c := coreOf w
  match l with
  | .warp => w
  | .block => c
  | .cluster => (s.warp w).ctx * 1000 + dieIdx c * 9 + (s.core c).clid
  | .die => (s.warp w).ctx * 1000 + dieIdx c
  | .domain => ((s.launchOf w).dkey + 9841).toNat
def gBarKey (l : Level) (key k : Nat) : Nat := (l.code.toNat * 1000000 + key) * 9 + k
/-- A barrier of block level or above. -/
def State.bar (s : State) (l : Level) (key k : Nat) : Bar :=
  if l = .block then Tab.get {} (s.core key).bars k else Tab.get {} s.bars (gBarKey l key k)
def State.setBar (s : State) (l : Level) (key k : Nat) (b : Bar) : State :=
  if l = .block then
    let c := s.core key
    s.setCore key { c with bars := Tab.set {} k b c.bars }
  else { s with bars := Tab.set {} (gBarKey l key k) b s.bars }
/-- A launch record's count for a barrier (R373, R441). -/
def barCount (lr : Launch) (l : Level) (k : Nat) : Int := Tab.get 0 lr.counts (9 * (l.code.toNat - 2) + k)
/-- Whether a warp is a member of a barrier (R244). -/
def State.barMember (s : State) (w : Nat) (l : Level) (k : Nat) : Bool :=
  let x := s.warp w
  let n := barCount (s.launchOf w) l k
  match l with
  | .warp => decide (k ≤ 2)
  | .block => decide ((x.idx : Int) < n)
  | .domain => decide (n ≠ 0) && !x.spawned && decide ((s.launchOf w).dkey ≠ 0)
  | _ => decide (n ≠ 0) && !x.spawned
/-- The current phase (R244). -/
def State.barPhase (s : State) (w : Nat) (l : Level) (k : Nat) : Int :=
  if l = .warp then Tab.get 0 (s.warp w).bph k else (s.bar l (s.barKey l w) k).phase

/-- Words of a scratchpad region (R246). -/
def State.scrVec (s : State) (c : Nat) (a : Int) (n : Nat) : List Int := (List.range n).map (fun (i : Nat) => s.scrWord c (a + 3 * (i : Int)))
/-- The threads of a warp that have not exited. -/
def State.alive (s : State) (w : Nat) : List Nat := (threadsOf w).filter (fun t => decide ((s.thread t).st ≠ .exited))

/-- A warp's arrival, when every thread that has not exited has arrived (R84). -/
def State.warpArr (s : State) (w : Nat) (l : Level) (b : Bar) : Option WArr :=
  let x := s.warp w
  let mine := b.arr.filter (fun a => decide (a.blk = blkKey x.ctx x.bid) && decide (a.idx = x.idx))
  match mine with
  | [] => none
  | a :: _ =>
    if (b.warps.any (fun y => decide (y.blk = a.blk) && decide (y.idx = a.idx)))
        || !((s.alive w).all (fun t => mine.any (fun q => decide (q.lane = t % 16)))) then none
    else
      let bv := if mine.all (fun q => decide (q.bv = a.bv)) then a.bv else none
      some { blk := a.blk, idx := a.idx, bv := bv, src := a.src, dst := a.dst
             vec := match l, bv with
               | .block, some (_, n) => s.scrVec (coreOf w) a.src n
               | _, _ => [] }
/-- The cause of a bad BARV region: ALIGN, or PERM (R246). -/
def regionCause (a : Int) (n : Nat) : Option Nat :=
  if trit a 0 ≠ 0 then some 4
  else if a - 1 < -88573 ∨ 88573 < a + 3 * ((n : Int) - 1) + 1 then some 5 else none
/-- Whether the regions of an arrival that names its block's contribution are good: one whose warp's regions did not count when it
arrived has not been checked, and spoils the phase (DESIGN CHOICE, log 71). -/
def regionsOk (y : WArr) : Bool :=
  match y.bv with
  | some (_, n) => (regionCause y.src n).isNone && (regionCause y.dst n).isNone
  | none => true
/-- A block's arrival: each initial warp has arrived or exited, and one has arrived (R84). -/
def State.blockArr (s : State) (ctx bid c : Nat) (b : Bar) : Option WArr :=
  let key := blkKey ctx bid
  let mine := b.warps.filter (fun y => decide (y.blk = key))
  let pending := (s.warpsOf c).any (fun w => !(s.warp w).spawned && !(s.alive w).isEmpty && decide (widOf w ≠ 27)
    && !mine.any (fun y => decide (y.idx = (s.warp w).idx)))
  match mine.foldl (fun (m : Option WArr) y => match m with
    | none => some y
    | some x => if y.idx < x.idx then some y else some x) none with
  | none => none
  | some y =>
    if pending || b.blocks.any (fun z => decide (z.blk = key)) then none
    else some { y with bv := if mine.all (fun z => decide (z.bv = y.bv)) && regionsOk y then y.bv else none
                       vec := match y.bv with
                         | some (_, n) => s.scrVec c y.src n
                         | none => [] }
/-- Arrivals of a warp and its block at one barrier are examined again. -/
def State.noteArr (s : State) (w : Nat) (l : Level) (k : Nat) : State :=
  let key := s.barKey l w
  let b := s.bar l key k
  if b.arr.isEmpty then s
  else
    let b1 := match s.warpArr w l b with
      | some y => { b with warps := b.warps ++ [y] }
      | none => b
    let b2 := if l = .block then b1 else match s.blockArr (s.warp w).ctx (s.warp w).bid (coreOf w) b1 with
      | some y => { b1 with blocks := b1.blocks ++ [y] }
      | none => b1
    s.setBar l key k b2
/-- Every barrier that a thread's exit may complete for its warp or block (R84, R245). -/
def State.noteExit (s : State) (w : Nat) : State :=
  [Level.block, .cluster, .die, .domain].foldl (fun a l =>
    if l = .domain ∧ (s.launchOf w).dkey = 0 then a else (List.range 9).foldl (fun a k => a.noteArr w l k) a) s

/-- Whether a barrier ends phases of a deterministic launch (R365). -/
def phaseEnding (lr : Launch) (l : Level) (k : Nat) : Bool :=
  lr.det && (decide (l = .die) || decide (l = .domain)) && decide (barCount lr l k = (lr.blocks : Int))
/-- A barrier that ends phases notes the phase of an arrival: it completes once that phase has ended (R365). -/
def State.noteInPhase (s : State) (ctx : Nat) (l : Level) (key k : Nat) : State :=
  s.setBar l key k { s.bar l key k with inPhase := (s.ctx ctx).phaseNo }
/-- A thread closes its block's phase (R363, R365). -/
def State.closePhase (s : State) (t : Nat) : State :=
  let x := s.warp (warpOf t)
  let c := s.ctx x.ctx
  s.setCtx x.ctx { c with closed := if c.closed.contains (x.bid, t % 448) then c.closed else (x.bid, t % 448) :: c.closed }

/-- Whether a thread has arrived in the current phase. -/
def State.hasArrived (s : State) (t : Nat) (l : Level) (k : Nat) : Bool :=
  let w := warpOf t
  let x := s.warp w
  if l = .warp then (Tab.get [] x.barr k).contains (t % 16)
  else (s.bar l (s.barKey l w) k).arr.any (fun a => decide (a.blk = blkKey x.ctx x.bid) && decide (a.idx = x.idx) && decide (a.lane = t % 16))
/-- A thread arrives (R244). -/
def State.arrive (s : State) (t : Nat) (l : Level) (k : Nat) (bv : Option (AOp × Nat)) (src dst : Int) : State :=
  let w := warpOf t
  let x := s.warp w
  if l = .warp then s.setWarp w { x with barr := Tab.set [] k (Tab.get [] x.barr k ++ [t % 16]) x.barr }
  else
    let key := s.barKey l w
    let b := s.bar l key k
    let s1 := s.setBar l key k { b with arr := b.arr ++ [{ blk := blkKey x.ctx x.bid, idx := x.idx, lane := t % 16, bv := bv, src := src, dst := dst }] }
    let s2 := s1.noteArr w l k
    if phaseEnding (s.launchOf w) l k then (s2.noteInPhase x.ctx l key k).closePhase t else s2

/-- The scope of a barrier's release fence (R244). -/
def barScope : Level → Scope
  | .warp => .warp | .block => .block | .cluster => .cluster | .die => .die | .domain => .domain
/-- The common part of the arriving forms: membership, the release fence, and a second arrival's wait. -/
def State.barUnit (s : State) (h : Hdr) (u : Uses) (l : Level) (k : Nat) (rlx : Bool)
    (go : List Nat → State → State) : State :=
  s.issue h { u with forbid := true } (fun act s =>
    let w := s.cur.warp
    if !s.barMember w l k then s.faultAll act 0 0
    else
      let run (s : State) : State :=
        let twice := act.filter (fun i => s.hasArrived (threadOf w i) l k)
        let rest := act.filter (fun i => !s.hasArrived (threadOf w i) l k)
        let s1 := s.waitAll twice (.barw l (s.barKey l w) k (s.barPhase w l k))
        if rest.isEmpty then s1 else go rest s1
      if rlx then run s else s.afterFence act (barScope l) run)

/-- BAR (R244). -/
def execBar (h : Hdr) (l : Level) (k : Nat) (rlx : Bool) (s : State) : R :=
  .next (s.barUnit h {} l k rlx (fun act s =>
    let w := s.cur.warp
    let p := s.barPhase w l k
    (s.curThreads act).foldl (fun a t => (a.arrive t l k none 0 0).waitLane t (.barrier l (s.barKey l w) k p false)) s))
/-- BARA (R244): the phase is written when the arrival is made. -/
def execBara (h : Hdr) (l : Level) (k : Nat) (rlx : Bool) (d : Nat) (s : State) : R :=
  let u : Uses := { dst := [d] }
  .next (s.barUnit h u l k rlx (fun act s =>
    let p := s.barPhase s.cur.warp l k
    laneSteps u (fun a t _ => ((a.arrive t l k none 0 0).retire t s.cur.next).applyWr t (wrW d p)) act s))
/-- BARW (R244): it waits while the current phase is the one that word(a) names; a thread that passes is acquire-ordered. -/
def execBarw (h : Hdr) (l : Level) (k : Nat) (rlx : Bool) (a : Nat) (s : State) : R :=
  let u : Uses := { src := [a], forbid := true }
  .next (s.issue h u (fun act s =>
    let w := s.cur.warp
    if !s.barMember w l k then s.faultAll act 0 0
    else
      let p := s.barPhase w l k
      let vs := (s.readField (s.curThreads act) a).2
      if isPort a && decide (s.portSt u act.length = .ready) && vs.any (fun v => decide (v = p)) then
        s.waitAll act (.barw l (s.barKey l w) k p)
      else laneSteps u (fun x t v =>
        if arg v 0 = p then x.waitLane t (.barw l (s.barKey l w) k p)
        else if rlx || x.loadsDone w then x.retire t s.cur.next
        else x.waitLane t (.fence (barScope l) false true 0)) act s))

/-- The regions that a warp's earlier group named for its BARV of this phase (R246). -/
def State.barvNamed (s : State) (w : Nat) (l : Level) (k : Nat) : Option (Int × Int) :=
  let x := s.warp w
  ((s.bar l (s.barKey l w) k).arr.find? (fun a => decide (a.blk = blkKey x.ctx x.bid) && decide (a.idx = x.idx) && a.bv.isSome)).map (fun a => (a.src, a.dst))
/-- Whether the regions that a warp names count at a barrier's level: at block level every warp's, above it those of the block's
initial warp of lowest launch index, among those that run or have arrived (R246; DESIGN CHOICE, log 71). -/
def State.barvCounts (s : State) (w : Nat) (l : Level) (k : Nat) : Bool :=
  let x := s.warp w
  decide (l = .block) || !((s.warpsOf (coreOf w)).any (fun v => decide ((s.warp v).idx < x.idx) && !(s.warp v).spawned && decide (widOf v ≠ 27) && !(s.alive v).isEmpty)
    || (s.bar l (s.barKey l w) k).warps.any (fun a => decide (a.blk = blkKey x.ctx x.bid) && decide (a.idx < x.idx)))
/-- BARV (R246): the warp's first group in the phase names the regions, which are checked then where they count. -/
def execBarv (h : Hdr) (l : Level) (k : Nat) (rlx : Bool) (op : AOp) (a b : Nat) (n : Int) (s : State) : R :=
  let u : Uses := { src := [a, b] }
  .next (s.barUnit h u l k rlx (fun act s =>
    let w := s.cur.warp
    match s.portSt u act.length with
    | .closed => s.faultAll act 15 0
    | .short => s.waitAll act (.reissue (s.shortPorts u act.length) false)
    | .ready =>
      let p := s.readFields (s.curThreads act) u.src
      let v := fieldVal p.2 0
      let named := s.barvNamed w l k
      let a := named.getD (arg v 0, arg v 1)
      match if named.isSome || !s.barvCounts w l k then none else (regionCause a.1 n.toNat).orElse (fun _ => regionCause a.2 n.toNat) with
      | some c => s.faultAll act c 0
      | none =>
        let ph := s.barPhase w l k
        (s.curThreads act).foldl (fun x t => (x.arrive t l k (some (op, n.toNat)) a.1 a.2).waitLane t
          (.barrier l (s.barKey l w) k ph true)) p.1))

/-- The reduction of the members' vectors (R246). -/
def barvRes (op : AOp) (n : Nat) (vecs : List (List Int)) : List Int :=
  (List.range n).map (fun e =>
    let col := vecs.map (fun v => v.getD e 0)
    let fl (f : FVal → FVal → FVal) : Int := match col.map (valF f27) with
      | [] => 0
      | x :: xs => roundF f27 (xs.foldl f x)
    match op with
    | .add => wrap col.sum 27
    | .adds => sat col.sum 27
    | .min => col.tail.foldl min (col.headD 0)
    | .max => col.tail.foldl max (col.headD 0)
    | .fmin => fl minV
    | .fmax => fl maxV
    | _ => fl addV)
/-- Writes a result region. -/
def State.putVec (s : State) (c : Nat) (a : Int) (v : List Int) : State :=
  v.zipIdx.foldl (fun x (y, i) => x.setScrWord c (a + 3 * (i : Int)) y) s

/-- The result of a phase: none when the phase gives none or is spoiled. -/
def phaseResult (b : Bar) (ms : List WArr) : Option (List Int) :=
  let bvs := ms.map (·.bv) ++ b.extBv.map (·.1)
  match bvs with
  | some (op, n) :: rest =>
    if rest.all (fun x => decide (x = some (op, n))) then some (barvRes op n (ms.map (·.vec) ++ b.extBv.flatMap (fun e =>
      (List.range ((e.2.length + n - 1) / n)).map (fun i => (e.2.drop (n * i)).take n)))) else none
  | _ => none

/-- The threads that wait in a phase of a barrier leave it: they retire, or a spoiled BARV raises ILL (R244, R246);
BARW and second arrivals are issued again. Those of a block being saved leave it when the block resumes (R245, R246). -/
def State.releaseBar (s : State) (l : Level) (key k : Nat) (phase : Int) (ok : Bool) : State :=
  let ts := (s.thr.filter (fun p => !s.savingCore (coreOf (warpOf p.1)) && (match p.2.wait with
    | .barrier a b c d _ => decide ((a, b, c, d) = (l, key, k, phase))
    | .barw a b c d => decide ((a, b, c, d) = (l, key, k, phase))
    | _ => false))).map (·.1)
  let s1 := ts.foldl (fun a t =>
    let x := a.thread t
    match x.wait with
    | .barrier _ _ _ _ bv =>
      if bv && !ok then (a.setThread t { x with wait := .none_, st := if x.st = .waiting then .runnable else x.st
                                                prior := if x.st = .stopped then .runnable else x.prior }).raise t { cause := 0, pc := x.pc }
      else (a.endWait t).stepTrap (warpOf t) [t % 16]
    | _ => a.setThread t { x with wait := .timed true }) s
  (ts.map warpOf).dedup.foldl (fun a w => a.settle w) s1

/-- BARRIER_PHASE_COMPLETE (R83, R244, R246): every member has arrived; the result is written before the release. -/
def execBarrierPhaseComplete (l : Level) (key k : Nat) (s : State) : R :=
  match l with
  | .warp =>
    let x := s.warp key
    let lanes := Tab.get [] x.barr k
    let p := Tab.get 0 x.bph k
    if lanes.isEmpty ∨ !((s.alive key).all (fun t => lanes.contains (t % 16))) then .next s
    else .next ((s.setWarp key { x with barr := Tab.del k x.barr, bph := Tab.set 0 k (wrap (p + 1) 9) x.bph }).releaseBar .warp key k p true)
  | _ =>
    let b := s.bar l key k
    let ms := if l = .block then b.warps else b.blocks
    let ctx := match l with
      | .block => ((s.core key).blk.getD (0, 0)).1
      | .domain => (ms.headD { blk := 0, idx := 0, bv := none }).blk / 2000000
      | _ => key / 1000
    let lr := (s.ctx ctx).lr
    if ms.isEmpty ∨ (ms.length + b.ext : Nat) ≠ (barCount lr l k).toNat ∨ (phaseEnding lr l k && decide ((s.ctx ctx).phaseNo ≤ b.inPhase))
        ∨ b.heard.any (fun t => decide (s.now 0 < t)) then .next s
    else
      let res := phaseResult b ms
      let s1 := s.setBar l key k { phase := wrap (b.phase + 1) 9 }
      let s2 := ms.foldl (fun a m =>
        match Tab.find (a.ctx (m.blk / 2000000)).blk (m.blk % 2000000) with
        | some (.placed c) => match res with
          | some v => a.putVec c m.dst v
          | none => a
        | _ =>
          let c := a.ctx (m.blk / 2000000)
          a.setCtx (m.blk / 2000000) { c with barRes := c.barRes ++ [(m.blk % 2000000, res.map (fun v => (m.dst, v)), .barrier l key k b.phase true)] }) s1
      .next (s2.releaseBar l key k b.phase res.isSome)

/-- BARRIER_SIGNAL (R83, R246): n blocks of other packages arrive at a domain barrier, with their contributions; the phase
completes no earlier than they were sent (R121). -/
def execBarrierSignal (key k : Nat) (n : Arrivals) (op : Option (AOp × Nat)) (part : List Int) (s : State) : R :=
  let b := s.bar .domain key k
  .next (s.setBar .domain key k { b with
    ext := b.ext + n.blocks, extBv := b.extBv ++ [(op, part)], heard := some (max n.sent (b.heard.getD n.sent)) })

end Sys2Proof.Machine
end

