-- ==== Sys2Proof/Machine/Messages.lean ====
section
/-! DEFINITION. Mailboxes (R250): MSG and the arrival of its messages. -/

namespace Sys2Proof.Machine

/-- A message's target: no such block, not able to take messages now, or resident on a core. -/
inductive MsgTo where
  | bad | later | at_ (c : Nat)
  deriving DecidableEq, Repr
def State.msgTo (s : State) (ctx : Nat) (bid : Int) : MsgTo :=
  if bid < 0 ∨ ((s.ctx ctx).lr.blocks : Int) ≤ bid then .bad
  else match Tab.find (s.ctx ctx).blk bid.toNat with
    | some (.placed c) => .at_ c
    | some .ended => .bad
    | _ => .later
/-- Words a block's mailbox may still take, those on their way counted. -/
def State.msgRoom (s : State) (ctx : Nat) (bid c : Nat) : Nat :=
  81 - (s.port c 13).length - s.reqs.countP (fun r => decide (r.ctx = ctx) && (match r.kind with
    | .msg b _ => decide (b = bid)
    | _ => false))
/-- The narrowest scope that holds two cores of the package. -/
def coreScope (a b : Nat) : Scope :=
  if a = b then .block else if dieIdx a ≠ dieIdx b then .pkg
  else if a % 81 / 9 = b % 81 / 9 then .cluster else .die
/-- Sends one word. -/
def State.send (s : State) (t : Nat) (bid : Nat) (v : Int) : State :=
  let w := warpOf t
  s.addReq { id := 0, kind := .msg bid v, stage := .home, ctx := (s.warp w).ctx, core := coreOf w, warp := w, lane := 16
             own := s.ownKey (dieIdx (coreOf w)) }

/-- The narrowest scope that holds a warp's block and the target blocks as they are placed now (R250). -/
def State.msgScope (s : State) (w : Nat) (bids : List Int) : Scope :=
  bids.foldl (fun sc b => match s.msgTo (s.warp w).ctx b with
    | .at_ c => wider sc (coreScope (coreOf w) c)
    | _ => sc) Scope.block

/-- MSG (R250). A group that cannot send waits first; the release fence is of the scope that the targets need when they are
sent to. In the blocking form the lanes with valid targets are sent together; those with invalid targets then
raise QPORT. -/
def execMsg (h : Hdr) (rlx : Bool) (a b : Nat) (nb : Option Nat) (s : State) : R :=
  let u : Uses := { src := [a, b], preds := nb.toList, forbid := true }
  .next (s.issue h u (fun act s =>
    let w := s.cur.warp
    let ctx := (s.warp w).ctx
    match s.portSt u act.length with
    | .closed => s.faultAll act 15 0
    | .short => s.waitAll act (.reissue (s.shortPorts u act.length) false)
    | .ready =>
      let ts := s.curThreads act
      let p := s.readFields ts u.src
      let ls : List (Nat × Int × Int) := ts.zipIdx.map (fun (t, i) => (t, arg (fieldVal p.2 i) 0, arg (fieldVal p.2 i) 1))
      let good := ls.filter (fun x => decide (s.msgTo ctx x.2.2 ≠ .bad))
      let bad := ls.filter (fun x => decide (s.msgTo ctx x.2.2 = .bad))
      let can := good.all (fun x => match s.msgTo ctx x.2.2 with
        | .at_ c => decide ((good.filter (fun y => decide (y.2.2 = x.2.2))).length ≤ s.msgRoom ctx x.2.2.toNat c)
        | _ => false)
      let scope := s.msgScope w (ls.map (·.2.2))
      let run (s : State) : State :=
        match nb with
        | some f => ls.foldl (fun x (t, v, bid) =>
            let y := x.retire t s.cur.next
            match x.msgTo ctx bid with
            | .bad => y.setPred t f (-1)
            | .later => y.setPred t f 0
            | .at_ c => if 0 < x.msgRoom ctx bid.toNat c then (y.send t bid.toNat v).setPred t f 1 else y.setPred t f 0)
            (s.readFields ts u.src).1
        | none =>
          let s1 := good.foldl (fun x (t, v, bid) => (x.send t bid.toNat v).retire t s.cur.next) (s.readFields ts u.src).1
          s1.raiseAll (bad.map (·.1)) { cause := 15, pc := s.cur.first }
      if nb.isNone && !can then
        let full := (good.filter (fun (x : Nat × Int × Int) => match s.msgTo ctx x.2.2 with
          | .at_ c => decide (s.msgRoom ctx x.2.2.toNat c < (good.filter (fun (y : Nat × Int × Int) => decide (y.2.2 = x.2.2))).length)
          | _ => true)).map (·.2.2.toNat)
        let b := full.headD 0
        s.waitAll act (.reissue (.mail b (good.filter (fun x => decide (x.2.2 = (b : Int)))).length) false)
      else if rlx then run s else s.afterFence act scope run))

/-- MESSAGE_ARRIVAL (R250): messages of one block to one mailbox arrive in the order sent, no earlier than they were sent (R121). -/
def execMessageArrival (id : Nat) (s : State) : R :=
  match s.req id with
  | none => .next s
  | some r =>
    match r.kind with
    | .msg bid v =>
      let before := s.reqs.any (fun q => decide (q.id < id) && decide (q.ctx = r.ctx) && decide (q.bid = r.bid) && (match q.kind with
        | .msg b _ => decide (b = bid)
        | _ => false))
      if before then .next s
      else
        let s1 := s.delReq id
        match s.coreOfBlk r.ctx bid, Tab.find (s.ctx r.ctx).saved bid with
        | some c, _ => if s.now c < r.sent then .next s else .next (s1.setPort c 13 (s.port c 13 ++ [v]))
        | none, some y =>
          if s.now y.at_ < r.sent then .next s
          else
          let x := s1.ctx r.ctx
          let k := { y.core with ports := Tab.set [] 13 (Tab.get [] y.core.ports 13 ++ [v]) y.core.ports }
          .next (s1.setCtx r.ctx { x with saved := Tab.put bid { y with core := k } x.saved })
        | none, none => .next s1
    | _ => .next s

end Sys2Proof.Machine
end

