-- ==== Sys2Proof/Machine/Drafts.lean ====
section
/-! DEFINITION. Drafts, row 12 (R142, R252-R257): DRAFT, INK with the prepares, the decision and the commits, ERASE,
DSTAT. -/

namespace Sys2Proof.Machine

/-- DRAFT (R252). The checkpoint holds every register, predicate and MR of the lanes; it is taken once the results that
earlier instructions owe them are written (R156). -/
def execDraft (h : Hdr) (imm : Int) (s : State) : R :=
  let w := s.cur.warp
  if s.cur.lanes.any (fun l => !(s.owedRegs (threadOf w l)).isEmpty || !(s.owedPreds (threadOf w l)).isEmpty) then .next s
  else .next (s.issue h {} (fun act s =>
    let x := s.warp w
    let mine := act.any (s.drafting w)
    if x.draft.depth = 0 then
      let target := wrap (s.cur.n + imm) 52
      if s.poolFree (coreOf w) < 288 then
        (s.curThreads act).foldl (fun a t =>
          let b := a.retire t target
          b.setThread t { b.thread t with dcode := 2, dinfo := 0 }) s
      else
        let ck := act.map (fun l =>
          let y := s.thread (threadOf w l)
          { lane := l, regs := y.regs, preds := y.preds, mr := y.mr : Ckpt })
        let s1 := s.setWarp w { x with draft := { depth := 1, lanes := act, handler := target, ckpt := ck } }
        ((s.curThreads act).foldl (fun a t => a.setThread t { a.thread t with dcode := 0, dinfo := 0 }) s1).retireAll act
    else if !mine then s.retireAll act
    else if x.draft.depth < 9 then
      (s.setWarp w { x with draft := { x.draft with depth := x.draft.depth + 1 } }).retireAll act
    else (s.retireAll (act.filter (fun l => !s.drafting w l))).abort w 8 0))

/-- The drafted trytes of a warp's draft lanes, in ascending lane order. -/
def State.drafted (s : State) (w : Nat) : List BTryte :=
  (s.warp w).draft.lanes.mergeSort.flatMap (fun l => (s.core (coreOf w)).blot.filter (fun b => decide (b.warp = w) && decide (b.lane = l)))
/-- The lines with drafted device stores (R254). -/
def State.draftLw (s : State) (w : Nat) : List Int :=
  (((s.drafted w).filter (fun b => decide (spaceOf b.ea = 1))).map (fun b => lineOf b.ea)).dedup
/-- The lines read and not written. -/
def State.draftLr (s : State) (w : Nat) : List Int :=
  ((s.warp w).draft.reads.map (·.line)).filter (fun l => !(s.draftLw w).contains l)
/-- Scratchpad entries are performed. -/
def State.draftScr (s : State) (w : Nat) : State :=
  ((s.drafted w).filter (fun b => decide (regionOf b.ea = .scratch))).foldl (fun a b => a.setScr (coreOf w) b.ea b.val) s
/-- The draft has ended committed: its entries are freed and INK retires in its lanes. -/
def State.draftEnd (s : State) (w : Nat) : State :=
  let lanes := (s.warp w).draft.lanes
  let s1 := s.draftScr w
  let c := s1.core (coreOf w)
  let s2 := (s1.setCore (coreOf w) { c with blot := c.blot.filter (fun b => decide (b.warp ≠ w)) }).setWarp w { s1.warp w with draft := {} }
  (((lanes.map (threadOf w)).foldl (fun a t => a.endWait t) s2).stepTrap w lanes).settle w

/-- Every draft lane has executed INK and every access of the draft is done: the prepares and validations are sent
(R254). -/
def State.draftSend (s : State) (w : Nat) : State :=
  let d := (s.warp w).draft
  if d.depth = 0 ∨ d.ink ≠ .idle ∨ !(d.lanes.all (fun l => d.inked.contains l)) ∨ s.reqs.any (fun r => decide (r.warp = w) && r.drafted) then s
  else
    let lw := s.draftLw w
    let lr := s.draftLr w
    if lw.isEmpty ∧ lr.isEmpty then s.draftEnd w
    else
      let c := coreOf w
      let sc := (lw ++ lr).foldl (fun a l => wider a (s.natScope c (ownerOf (81 * l)) 9)) Scope.cluster
      let v := s.now c + s.lead sc
      let s2 := (lw ++ lr).foldl (fun a l => a.addReq
        { id := 0, kind := .prep w v ((d.reads.find? (fun x => decide (x.line = l))).map (·.grant)) (lw.contains l), stage := .home
          ctx := (s.warp w).ctx, core := c, warp := w, lane := 16, ea := 81 * l, own := ownerOf (81 * l) }) s
      s2.setWarp w { s2.warp w with draft := { (s2.warp w).draft with ink := .sent v } }

/-- INK (R254). -/
def execInk (h : Hdr) (s : State) : R :=
  .next (s.issue h {} (fun act s =>
    let w := s.cur.warp
    let x := s.warp w
    let mine := act.filter (s.drafting w)
    if mine.isEmpty then s.retireAll act
    else if 2 ≤ x.draft.depth then
      (s.setWarp w { x with draft := { x.draft with depth := x.draft.depth - 1 } }).retireAll act
    else
      let s1 := s.retireAll (act.filter (fun l => !s.drafting w l))
      let s2 := s1.waitAll mine .ink
      (s2.setWarp w { s2.warp w with draft := { (s2.warp w).draft with inked := (s2.warp w).draft.inked ++ mine } }).draftSend w))

/-- Extends a core's read lease on a line to V; one that has ended begins again (R254; DEDUCED, log 57). -/
def extendLease (gs : List Grant) (core : Nat) (v : Int) : List Grant :=
  gs.filter (fun g => decide (g.core ≠ core)) ++ [{ core := core, stop := (gs.filter (fun g => decide (g.core = core))).foldl (fun a g => max a g.stop) v : Grant }]
/-- DRAFT_PREPARE (R254): the home of a line accepts a prepare or a validation, or refuses it. -/
def execDraftPrepare (id : Nat) (s : State) : R :=
  match s.req id with
  | none => .next s
  | some r =>
    match r.stage, r.kind with
    | .home, .prep w v check wr =>
      if r.held ∨ (s.dieSt r.own).clk < r.sent ∨ s.behind r then .next s
      else
        let p := s.translate r.own r.ctx r.core (offOf r.ea)
        match p.2 with
        | .miss _ => .next (p.1.reply r 0 0)
        | .leaf l =>
          let pa := l.phys (offOf r.ea)
          let x := p.1.hline r.own (lineOf pa)
          let now := (s.dieSt r.own).clk
          let stva := p.1.reqs.any (fun q => (match q.kind with
            | .stva .. => decide (q.stage = .buffered) || (decide (q.stage = .home) && q.first)
            | _ => false) && decide (q.own = r.own) && q.plines.contains (lineOf pa))
          let no := x.grants.any (fun g => decide (g.core ≠ r.core) && decide (v < g.stop) && decide (now < g.stop))
            || x.preps.any (fun q => q.wr && decide (q.warp ≠ w)) || stva
            || check.any (fun n => decide (n < x.writes)) || (wr && !(l.w && !l.cmp))
          if no then .next (p.1.reply { r with pa := pa, leaf := some l } 0 0)
          else .next ((p.1.setHline r.own (lineOf pa)
              { x with preps := x.preps ++ [{ warp := w, v := v, wr := wr }]
                       grants := if check.isSome && l.w then extendLease x.grants r.core v else x.grants }).reply
            { r with pa := pa, leaf := some l } 1 0)
    | _, _ => .next s

/-- The trytes that a commit writes on a line: the highest lane's value stands. -/
def State.commitTrytes (s : State) (w : Nat) (line pa : Int) : List (Int × Int) :=
  ((s.drafted w).filter (fun b => decide (lineOf b.ea = line))).map (fun b => (pa + (b.ea - 81 * line), b.val))
/-- The drafted trytes supersede what the core's L1 and its write-backs under way hold of them, and older copies of their
lines are used no more (R128, R142; DEDUCED, log 57). -/
def State.supersede (s : State) (w : Nat) : State :=
  let c := coreOf w
  let lines := s.draftLw w
  let mine (line : Int) (p : Nat) : Bool := (s.drafted w).any (fun b => decide (lineOf b.ea = line) && decide (linePos b.ea = p))
  let s1 := { s with reqs := s.reqs.map (fun r => match r.kind with
    | .wb tr b => if r.core = c ∧ r.stage = .home ∧ lineOf r.ea ∈ lines then { r with kind := .wb (tr.filter (fun q => !mine (lineOf r.ea) q.1)) b } else r
    | _ => r) }
  lines.foldl (fun a l =>
    let x := a.l1 c l
    (a.setL1 c l { x with tr := x.tr.filter (fun q => !mine l q.1) }).dropCopies c l) s1
/-- At V the draft of a warp takes effect on its core and INK retires in every draft lane (R142, R254). -/
def State.inkAt (s : State) (w : Nat) : State :=
  match (s.warp w).draft.ink with
  | .going v => if s.now (coreOf w) < v then s else ((s.supersede w).raiseRT w v).draftEnd w
  | _ => s
/-- DRAFT_DECISION (R254): with every answer back the draft aborts or its commits leave; a draft whose last lanes have
reached INK sends its prepares. -/
def execDraftDecision (w : Nat) (s : State) : R :=
  let d := (s.warp w).draft
  match d.ink with
  | .idle => .next (s.draftSend w)
  | .going _ => .next s
  | .sent v =>
    let mine := s.reqs.filter (fun r => decide (r.warp = w) && (match r.kind with
      | .prep .. => true
      | _ => false))
    let back := mine.all (fun r => s.arrived r && (match r.stage with
      | .reply .. => true
      | _ => false))
    let no := mine.any (fun r => decide (r.stage = .reply 0 0)) || decide (mine.length < (s.draftLw w ++ s.draftLr w).length)
    if !back then .next s
    else if no then .next ((s.abort w 3 0).settle w)
    else if v < s.now (coreOf w) then .next (((s.count (s.warp w).ctx (dieIdx (coreOf w)) 38 1).abort w 4 0).settle w)
    else
      let s1 := mine.foldl (fun a r =>
        let b := a.delReq r.id
        match r.kind with
        | .prep _ _ _ true => b.addReq { r with kind := .commit w v (s.commitTrytes w (lineOf r.ea) r.pa), stage := .home
                                                lanes := ((s.drafted w).filter (fun b => decide (lineOf b.ea = lineOf r.ea))).map (·.lane) |>.eraseDups }
        | _ => b) s
      .next ((s1.setWarp w { s1.warp w with draft := { d with ink := .going v } }).inkAt w)

/-- DRAFT_COMMIT_ARRIVAL (R142, R254): the home performs the drafted stores of a line at V, or on arrival if that is
later, before any request that it holds; what the ownership check finds goes to the lanes that stored (R360). -/
def execDraftCommitArrival (id : Nat) (s : State) : R :=
  match s.req id with
  | none => .next s
  | some r =>
    match r.kind with
    | .commit w v tr =>
      if r.stage ≠ .home ∨ r.held ∨ (s.dieSt r.own).clk < v ∨ (s.dieSt r.own).clk < r.sent then .next s
      else
        let p := s.touch r r.ea
        let s1 := (p.1.homePut r.own false r.ctx tr r.slices).wrote r.own (lineOf r.pa)
        let x := s1.hline r.own (lineOf r.pa)
        .next ((s1.setHline r.own (lineOf r.pa) { x with preps := x.preps.filter (fun q => !(decide (q.warp = w) && decide (q.v = v))) }).reply
          { r with causes := if p.2 then [24] else [] } 0 v)
    | _ => .next s

/-- INK_RETIRE (R254): at V INK retires in every draft lane, and RT(s) is raised; the passing of time brings it about. -/
def execInkRetire (w : Nat) (s : State) : R := .next (s.inkAt w)

/-- ERASE (R255). -/
def execErase (h : Hdr) (code : Int) (s : State) : R :=
  .next (s.issue h {} (fun act s =>
    let w := s.cur.warp
    let mine := act.filter (s.drafting w)
    let s1 := s.retireAll (act.filter (fun l => !s.drafting w l))
    if mine.isEmpty then s1 else s1.rollback w mine 1 code))

/-- DSTAT (R257). -/
def execDstat (h : Hdr) (d : Nat) (s : State) : R :=
  .next (s.perLane h { dst := [d] } (fun s t _ =>
    let x := s.thread t
    { wr := [wrW d (x.dinfo * pow3 9 + ((s.warp (warpOf t)).draft.depth : Int) * pow3 6 + x.dcode)] }))

end Sys2Proof.Machine
end

