-- ==== Sys2Proof/Machine/Fetch.lean ====
section
/-! DEFINITION. The instruction cache and the fetch of a unit (R276-R281), and the unit's read from a line (R146). -/

namespace Sys2Proof.Machine

/-- The line of an instruction and its slot, 0..8 for -4..+4 (R146, R276). -/
def codeLine (n : Int) : Int := shr n 2
def codeSlot (n : Int) : Nat := offF n 0 2
/-- The nine units of a line given by its trytes (R146). -/
def unitsOf (tr : Tab Int) : List Int :=
  (List.range 9).map (fun j => ofTrytes ((List.range 9).map (fun i => Tab.get 0 tr (9 * j + i))))
/-- A line that a core's instruction cache holds. -/
def State.icLine (s : State) (c : Nat) (line : Int) : Option FLine := Tab.find (s.core c).ic (ikey line)
/-- A line is placed: 27 sets of nine ways, the least recently used way replaced (R276). -/
def State.icPlace (s : State) (c : Nat) (line : Int) (units : List Int) : State :=
  let k := s.core c
  let inSet := k.ic.filter (fun p => decide (offF p.2.line 0 3 = offF line 0 3) && decide (p.2.line ≠ line))
  let ic := if inSet.length < 9 then k.ic
    else Tab.del (inSet.foldl (fun (b : Nat × FLine) p => if p.2.stamp < b.2.stamp then p else b) (inSet.headD (0, { line := 0, units := [] }))).1 k.ic
  { (s.setCore c { k with ic := Tab.put (ikey line) { line := line, units := units, stamp := s.stamp } ic }) with stamp := s.stamp + 1 }
/-- A line that the instruction cache holds is used now (R276). -/
def State.touchLine (s : State) (c : Nat) (line : Int) : State :=
  match s.icLine c line with
  | some g =>
    let k := s.core c
    { (s.setCore c { k with ic := Tab.put (ikey line) { g with stamp := s.stamp } k.ic }) with stamp := s.stamp + 1 }
  | none => s
/-- The line that a warp fetches from: its fetch buffer, or the instruction cache (R277, R280). -/
def State.lineFor (s : State) (w : Nat) (line : Int) : Option FLine :=
  match (s.warp w).fetch with
  | some f => if f.line = line then some f else s.icLine (coreOf w) line
  | none => s.icLine (coreOf w) line
/-- The unit of one index, when its line is at hand. -/
def State.unitAt (s : State) (w : Nat) (n : Int) : Option Int :=
  (s.lineFor w (codeLine n)).map (fun f => f.units.getD (codeSlot n) 0)
/-- A group asks for a line; its lanes are not selected until the line arrives (R277), and lanes that went another way go
on without them (R63). A fill of the line that is under way is waited for (R378). -/
def State.askLine (s : State) (w : Nat) (lanes : List Nat) (pc line : Int) : State :=
  let c := coreOf w
  (lanes.foldl (fun (a : State) l =>
      let x := a.thread (threadOf w l)
      a.setThread (threadOf w l) { x with busy := true, stamp := s.stamp + 1 }) { s with stamp := s.stamp + 1 }).addReq
    { id := 0, kind := .fetch line, stage := if s.fillUnderWay c line then .l1 else .owner, ctx := (s.warp w).ctx, core := c, warp := w, lane := lanes.headD 0, lanes := lanes, pc := pc, next := pc
      ea := 81 * line, own := ownerOf (81 * line), drafted := lanes.any (s.drafting w) }
/-- Instructions that a branch or a fetch may name: their addresses lie in device space (R94, R261). -/
def deviceIndex (t : Int) : Bool := inRange t 52 && decide (trit t 51 = 1)

/-- The trits of a function-table entry (R266). -/
def entrySig (e : Int) : Int := fld e 54 27
def entryTarget (e : Int) : Int := fld e 0 52
/-- CALLT's end in a lane (R265). -/
def State.calltEnd (s : State) (t d : Nat) (sig pc next e : Int) : State :=
  if entrySig e ≠ sig ∨ fld e 52 2 ≠ 0 then s.raise t { cause := 12, pc := pc }
  else if !deviceIndex (entryTarget e) then s.raise t { cause := 6, pc := pc }
  else (s.retire t (entryTarget e)).setPair t d next

/-- A request for a line of code that has arrived ends: its lanes go on, with the soft causes of the fill (R277, R378, R404). -/
def State.codeEnd (s : State) (units : List Int) (causes : List Nat) (r : Req) : State :=
  let soft (a : State) : State := r.thrs.foldl (fun b t => causes.foldl (fun b c => b.defer t c 0) b) a
  let s1 := s.delReq r.id
  match r.kind with
  | .fetch _ => (soft (s1.unbusy r.thrs)).settle r.warp
  | .callt d sig => (((soft (s1.unbusy [r.thr])).calltEnd r.thr d sig r.pc r.next (units.getD (codeSlot (shr r.ea 2)) 0)).stepTrap r.warp [r.lane]).settle r.warp
  | _ => s1
/-- INSTRUCTION_FETCH_FILL (R277, R280, R378): the line reaches the instruction cache, no earlier than it was sent (R121), and
every request that waits for it goes on. A fill that an ICINV overtook is discarded; lanes that wait for it ask again. An
ICPF's fill finds its block still on the core, or is discarded: the cache holds lines of one context (R279). -/
def execInstructionFetchFill (id : Nat) (s : State) : R :=
  match s.req id with
  | none => .next s
  | some r =>
    match r.stage with
    | .filled tr _ _ =>
      let ahead : Bool := match r.kind with
        | .icpf _ => true
        | _ => false
      if !isCode r.kind ∨ !s.arrived r then .next s
      else if ahead && (r.late || !decide ((s.core r.core).blk = some (r.ctx, r.bid))) then .next (s.delReq id)
      else if r.late then .next (s.setReq { r with stage := .home, late := false })
      else
        let units := unitsOf tr
        let mates := s.reqs.filter (fun q => q.joined && decide (q.core = r.core) && decide (lineOf q.ea = lineOf r.ea))
        .next (mates.foldl (fun a q => match a.req q.id with
          | some p => a.codeEnd units r.causes p
          | none => a) ((s.icPlace r.core (lineOf r.ea) units).codeEnd units r.causes r))
    | _ => .next s

/-- ICPF (R279). -/
def execIcpf (h : Hdr) (cnt : Nat) (imm : Int) (s : State) : R :=
  .next (s.issue h {} (fun act s =>
    let w := s.cur.warp
    let l0 := codeLine (s.cur.n + imm)
    ((List.range (cnt + 1)).foldl (fun a (i : Nat) =>
      let line := l0 + (i : Int)
      if (a.icLine (coreOf w) line).isSome ∨ a.fillUnderWay (coreOf w) line ∨ spaceOf (81 * line) ≠ 1 ∨ !a.ownerOk (81 * line) then a
      else a.addReq { id := 0, kind := .icpf line, ctx := (a.warp w).ctx, core := coreOf w, warp := w, lane := 16, pc := a.cur.first
                      ea := 81 * line, own := ownerOf (81 * line) }) s).retireAll act))
/-- IFENCE (R281): the warp fetches nothing until its loads are done. It waits as an acquire fence does, of no scope; the event
that ends the wait discards the fetch buffer once more. -/
def execIfence (h : Hdr) (s : State) : R :=
  .next (s.issue h { forbid := true } (fun act s =>
    let w := s.cur.warp
    let s1 := s.setWarp w { s.warp w with fetch := none }
    if s.loadsDone w then s1.retireAll act else s1.fenceWait act .dflt false true 0))
/-- Fills in flight of some lines are discarded on arrival (R280). -/
def State.dropCode (s : State) (c : Nat) (p : Int → Bool) : State :=
  { s with reqs := s.reqs.map (fun r => if r.core = c ∧ p (lineOf r.ea) ∧ (match r.kind with
      | .fetch _ => true
      | .icpf _ => true
      | .callt .. => true
      | _ => false) = true then { r with late := true } else r) }
/-- ICINV (R280). -/
def execIcinv (h : Hdr) (imm : Int) (s : State) : R :=
  .next (s.issue h { forbid := true } (fun act s =>
    let c := coreOf s.cur.warp
    let line := codeLine (s.cur.n + imm)
    let k := s.core c
    ((s.setCore c { k with ic := Tab.del (ikey line) k.ic }).dropCode c (fun l => decide (l = line))).retireAll act))
/-- ICINV.all (R280). -/
def execIcinvAll (h : Hdr) (s : State) : R :=
  .next (s.issue h { forbid := true } (fun act s =>
    let c := coreOf s.cur.warp
    ((s.setCore c { s.core c with ic := [] }).dropCode c (fun _ => true)).retireAll act))

end Sys2Proof.Machine
end

