-- ==== Sys2Proof/Machine/Control.lean ====
section
/-! DEFINITION. Control flow, row 13 (R261-R269, R273-R275): transfers, meetings, EXIT, software traps, NOP, hints. -/

namespace Sys2Proof.Machine

/-- A transfer's outcome: the jump with what the lane writes, or FETCH (R261). -/
def transfer (t : Int) (wr : List Wr) : Out :=
  if deviceIndex t then { wr := wr ++ [.jump t] } else { fault := some { cause := 6 } }

/-- BR (R262). -/
def execBr (h : Hdr) (imm : Int) (s : State) : R :=
  .next (s.perLane h {} (fun s _ _ => transfer (s.cur.n + effImm h imm) []))
/-- CALL (R263). -/
def execCall (h : Hdr) (d : Nat) (imm : Int) (s : State) : R :=
  .next (s.perLane h { dstP := [d] } (fun s _ _ => transfer (s.cur.n + effImm h imm) [.pair d (s.cur.n + 1)]))
/-- RET (R264). -/
def execRet (h : Hdr) (a : Nat) (s : State) : R :=
  .next (s.perLane h { srcP := [a] } (fun s t _ => transfer (s.regPair t a) []))

/-- CALLT (R265): the entry is read by the fetch path. -/
def execCallt (h : Hdr) (d a : Nat) (sig : Int) (s : State) : R :=
  let u : Uses := { src := [a], dstP := [d] }
  .next (s.issue h u (freeLanes u (fun s t v =>
    let w := warpOf t
    let x := s.ctx (s.warp w).ctx
    let i := arg v 0
    let ea := x.ftbase + 9 * i
    if i < 0 ∨ x.ftlen ≤ i then s.raise t { cause := 12, pc := s.cur.first }
    else if spaceOf ea ≠ 1 ∨ !s.ownerOk ea then s.raise t { cause := 6, pc := s.cur.first }
    else match s.icLine (coreOf w) (lineOf ea) with
      | some f => (s.touchLine (coreOf w) (lineOf ea)).calltEnd t d sig s.cur.first s.cur.next (f.units.getD (codeSlot (shr ea 2)) 0)
      | none => (s.addReq { s.mkReq t 0 (.callt d sig) ea with stage := if s.fillUnderWay (coreOf w) (lineOf ea) then .l1 else .owner }).await t)))

/-- SETMR (R267). -/
def execSetmr (h : Hdr) (imm : Int) (s : State) : R :=
  .next (s.perLane h {} (fun s _ _ => { wr := [.mr (wrap (s.cur.n + imm) 52)] }))
/-- SETMR.clr (R267). -/
def execSetmrClr (h : Hdr) (s : State) : R := .next (s.perLane h {} (fun _ _ _ => { wr := [.mr 0] }))
/-- MOVMR.get (R268). -/
def execMovmrGet (h : Hdr) (d : Nat) (s : State) : R :=
  .next (s.perLane h { dstP := [d] } (fun s t _ => { wr := [.pair d (s.thread t).mr] }))
/-- MOVMR.put (R268). -/
def execMovmrPut (h : Hdr) (a : Nat) (s : State) : R :=
  .next (s.perLane h { srcP := [a] } (fun s t _ => { wr := [.mr (wrap (s.regPair t a) 52)] }))

/-- EXIT (R269); what it completes is released (R67, R84, R245), a return of the other threads of H included (R406). -/
def execExit (h : Hdr) (s : State) : R :=
  .next (s.issue h { forbid := true } (fun act s =>
    let b := ((s.curThreads act).foldl (fun a t => a.endThread t) s).noteExit s.cur.warp
    if b.allReturn s.cur.warp then b.leave s.cur.warp else b))

/-- BRK (R275). -/
def execBrk (h : Hdr) (code : Int) (s : State) : R :=
  .next (s.issue h {} (fun act s => s.raiseAll (s.curThreads act) { cause := 2, pc := s.cur.first, code := code }))
/-- TRAP (R275): the lane retires and reports the next unit. -/
def execTrap (h : Hdr) (code : Int) (s : State) : R :=
  .next (s.issue h { forbid := true } (fun act s =>
    (s.retireAll act).raiseAll (s.curThreads act) { cause := 3, pc := s.cur.next, code := code }))
/-- YLD (R273): it retires, and its warp stands back. -/
def execYld (h : Hdr) (s : State) : R :=
  .next (s.issue h {} (fun act s =>
    let w := s.cur.warp
    (s.setWarp w { s.warp w with yld := some (s.stamp, s.now (coreOf w) + 27) }).retireAll act))
/-- NOP (R274): it ignores its guard, and does not wait for it. -/
def execNop (h : Hdr) (s : State) : R := .next (s.issue { h with gcond := 0 } {} (fun act s => s.retireAll act))
/-- A hint (R164): it retires without reading anything. -/
def execHint (_raw : Int) (s : State) : R :=
  let s1 := s.started
  .next (((s1.retireAll s1.cur.lanes).stepTrap s1.cur.warp s1.cur.lanes).settle s1.cur.warp)

end Sys2Proof.Machine
end

