-- ==== Sys2Proof/Machine/Convert.lean ====
section
/-! DEFINITION. Conversions and Flourish, row 4 (R193-R196). -/

namespace Sys2Proof.Machine

/-- CVT (R193). -/
def execCvt (h : Hdr) (t3 isSat : Bool) (ty : IntTy) (d a : Nat) (s : State) : R :=
  .next (s.perLane h { src := [a], dst := [d] } (fun _ _ v =>
    let ps := if t3 then [part (arg v 0) 0, part (arg v 0) 1, part (arg v 0) 2] else [arg v 0]
    let bad := ps.any (fun p => !inRange p ty.width)
    let ys := ps.map (fun p => sat p ty.width)
    let r := if t3 then ofParts (ys.getD 0 0) (ys.getD 1 0) (ys.getD 2 0) else ys.getD 0 0
    if bad && !isSat then { fault := some { cause := 7 } }
    else { wr := [wrW d r], sat := if bad then 1 else 0 }))

/-- The float format of a type code. -/
def cvtFmt : CvtTy → FmtF
  | .f9 => f9
  | _ => f27
def cvtBits : CvtTy → Nat
  | .t9 => 9 | .f9 => 9 | _ => 27

/-- The integer that CVTF writes, and whether the source was out of range (R194). -/
def floatToInt (m : Nat) : FVal → Int × Bool
  | .nan => (0, true)
  | .inf sg => (if sg < 0 then - half m else half m, true)
  | .fin x e => let k := nearestFin x e
    (sat k m, !inRange k m)

/-- CVTF (R194). -/
def execCvtf (h : Hdr) (isSat : Bool) (ty dty : CvtTy) (d a : Nat) (s : State) : R :=
  .next (s.perLane h { src := [a], dst := [d] } (fun _ _ v =>
    let x := wrap (arg v 0) (cvtBits ty)
    if ty.isFloat then
      let r := floatToInt (cvtBits dty) (valF (cvtFmt ty) x)
      if r.2 && !isSat then { fault := some { cause := 7 } }
      else { wr := [wrW d r.1], sat := if r.2 then 1 else 0 }
    else { wr := [wrW d (roundF (cvtFmt dty) (.fin x 0))] }))

/-- The constants of Flourish (R195). -/
def flM : Int := 2718281828459
def flW0 : Int := 1414213562373
def flW1 : Int := 1732050807568

/-- Rounds r.. of Flourish (R195). -/
def flRounds : Nat → Nat → Int → Int → Int → Int → Int × Int
  | 0, _, _, _, x0, x1 => (x0, x1)
  | n + 1, r, k0, k1, x0, x1 =>
    let p := flM * x0
    let l := wrap p 27
    let hh := (p - l) / pow3 27
    let k := if r % 2 = 0 then k0 else k1
    flRounds n (r + 1) (wrap (k0 + flW0) 27) (wrap (k1 + flW1) 27) (tsum 27 (tsum 27 hh x1) k) l

/-- flourish(k0, k1, c0, c1) (R195). -/
def flourish (k0 k1 c0 c1 : Int) : Int × Int := flRounds 9 0 k0 k1 c0 c1

/-- RNG (R196). -/
def execRng (h : Hdr) (d a b : Nat) (s : State) : R :=
  .next (s.perLane h { srcP := [a, b], dstP := [d] } (fun s t _ =>
    let x := flourish (s.reg t a) (s.reg t (a + 1)) (s.reg t b) (s.reg t (b + 1))
    { wr := [.pair d (pair x.1 x.2)] }))

end Sys2Proof.Machine
end

