-- ==== Sys2Proof/Machine/Threads.lean ====
section
/-! DEFINITION. Threads and registers, row 14 (R72-R77, R270-R272): SPAWN with its bins, RCLAIM, RGIVE, the claim
queue, and WAIT. -/

namespace Sys2Proof.Machine

/-- The spawn interval in ns (R73). -/
def spawnNs (v : Nat) : Int := 27 * pow3 v
/-- The bin of an entry, or the first empty one. -/
def binFor (bins : Tab Bin) (t : Int) : Option Nat :=
  match bins.find? (fun p => decide (p.2.entry = t)) with
  | some p => some p.1
  | none => (List.range 9).find? (fun b => (Tab.find bins b).isNone)
/-- The oldest bin: its timer ends first. -/
def oldestBin (bins : Tab Bin) : Nat :=
  (bins.foldl (fun (b : Nat × Int) p => if p.2.due < b.2 then (p.1, p.2.due) else b)
    ((bins.headD (0, { entry := 0, args := [], due := 0 })).1, (bins.headD (0, { entry := 0, args := [], due := 0 })).2.due)).1

/-- SPAWN (R72, R74, R270). Every lane names one entry; the lanes that find room join in lane order and retire, and the
rest wait for the bin, or for the bin that is flushed for them, to become a warp. -/
def execSpawn (h : Hdr) (a b : Nat) (imm : Int) (s : State) : R :=
  let u : Uses := { src := [a, b], forbid := true }
  .next (s.issue h u (fun act s =>
    let w := s.cur.warp
    let c := coreOf w
    let lr := s.launchOf w
    let t := s.cur.n + imm
    let k := s.core c
    if lr.det then s.faultAll act 5 0
    else if !deviceIndex t then s.faultAll act 6 0
    else match s.portSt u act.length with
      | .closed => s.faultAll act 15 0
      | .short => s.waitAll act (.reissue (s.shortPorts u act.length) false)
      | .ready =>
        match binFor k.bins t with
        | none =>
          let o := oldestBin k.bins
          let y := Tab.get { entry := 0, args := [], due := 0 } k.bins o
          (s.setCore c { k with bins := Tab.put o { y with flush := true } k.bins }).waitAll act (.reissue (.spawn o) false)
        | some i =>
          let y : Bin := (Tab.find k.bins i).getD { entry := t, args := [], due := s.now c + spawnNs lr.spint }
          let now := act.take (16 - y.args.length)
          let rest := act.drop (16 - y.args.length)
          let p := s.readFields (s.curThreads now) u.src
          let new := (List.range now.length).map (fun j => (arg (fieldVal p.2 j) 0, arg (fieldVal p.2 j) 1))
          let k1 := p.1.core c
          let s1 := if now.isEmpty then s else p.1.setCore c { k1 with bins := Tab.put i { y with args := y.args ++ new } k1.bins }
          (s1.retireAll now).waitAll rest (.reissue (.spawn i) false)))

/-- SPAWN_BIN_TIMER (R73): the timer of a bin expires. -/
def execSpawnBinTimer (c b : Nat) (s : State) : R :=
  let k := s.core c
  match Tab.find k.bins b with
  | some y => if y.due ≤ s.now c then .next (s.setCore c { k with bins := Tab.put b { y with flush := true } k.bins }) else .next s
  | none => .next s

/-- The free warp slot that a created warp takes: the partition with the fewest resident warps, its lowest free slot
(R61). Slots that other bins have reserved are not free, and hold no resident warp. -/
def State.freeSlot (s : State) (c : Nat) : Option Nat :=
  let k := s.core c
  let slots (p : Nat) : List Nat := (List.range 9).map (fun i => 9 * p + i)
  let warpIn (i : Nat) : Bool := (Tab.find s.wrp (c * 28 + i)).isSome
  let free (i : Nat) : Bool := !warpIn i && !k.bins.any (fun p => decide (p.2.slot = some i))
  let cnt (p : Nat) : Nat := (slots p).countP warpIn
  let p := ([0, 1, 2].filter (fun q => (slots q).any free)).foldl (fun (b : Option Nat) q => match b with
    | none => some q
    | some j => if cnt q < cnt j then some q else b) none
  p.bind (fun q => (slots q).find? free)

/-- A warp is created from a bin at the grant of its claim (R73). -/
def State.createWarp (s : State) (c b : Nat) : State :=
  let k := s.core c
  match Tab.find k.bins b with
  | none => s
  | some y =>
    let blk := k.blk.getD (0, 0)
    let lr := (s.ctx blk.1).lr
    let w := c * 28 + y.slot.getD 0
    let x : Warp := { ctx := blk.1, bid := blk.2, idx := lr.warps + k.spawned, spawned := true, n := lr.regs
                      pl := if isSup blk.1 then 1 else -1 }
    let s1 := (s.setWarp w x).setCore c { k with bins := Tab.del b k.bins, spawned := k.spawned + 1 }
    y.args.zipIdx.foldl (fun a (p, l) =>
      a.setThread (threadOf w l) { pc := y.entry, st := .runnable, regs := Tab.set 0 0 p.1 (Tab.set 0 1 p.2 []), stamp := s.stamp }) s1

/-- Registers of a warp at or above a number are lost, in an open draft's checkpoint too (R76, R271). -/
def State.loseRegs (s : State) (w n : Nat) : State :=
  let keep (r : Tab Int) : Tab Int := r.filter (fun p => decide (p.1 < n))
  let x := s.warp w
  let s0 := if x.draft.ckpt.isEmpty then s
    else s.setWarp w { x with draft := { x.draft with ckpt := x.draft.ckpt.map (fun (k : Ckpt) => { k with regs := keep k.regs }) } }
  (threadsOf w).foldl (fun a t => match Tab.find a.thr t with
    | some x => a.setThread t { x with regs := keep x.regs }
    | none => a) s0
/-- The head claim is granted when the free space covers it (R76). -/
def State.grantHead (s : State) (c : Nat) : State :=
  let k := s.core c
  match k.claims with
  | [] => s
  | q :: rest =>
    if s.poolFree c < (q.words : Int) || s.savingCore c then s
    else
      let s1 := s.setCore c { k with claims := rest }
      match q.by_ with
      | .warp w g lanes =>
        let x := s1.warp w
        if 216 < x.n + 9 * g then
          let back (a : State) (l : Nat) : State :=
            let y := a.thread (threadOf w l)
            (a.setThread (threadOf w l) { y with wait := .none_, st := if y.st = .waiting then .runnable else y.st
                                                 prior := if y.st = .stopped then .runnable else y.prior }).raise (threadOf w l) { cause := 22, pc := y.pc }
          (lanes.foldl back s1).settle w
        else
          let s2 := s1.loseRegs w x.n
          (((lanes.map (threadOf w)).foldl (fun a t => a.endWait t) (s2.setWarp w { s2.warp w with n := x.n + 9 * g })).stepTrap w lanes).settle w
      | .bin b => s1.createWarp c b
      | .scribe w =>
        ((k.scribe.lanes.map (threadOf w)).foldl (fun a t =>
          let y := a.thread t
          a.setThread t { y with wait := .reissue (.queue []) true }) s1).setCore c { s1.core c with scribe := { k.scribe with alloc := true } }
/-- Grants claims while the head fits. -/
def State.grantAll (s : State) (c : Nat) : Nat → State
  | 0 => s
  | n + 1 => State.grantAll (s.grantHead c) c n
def State.regrant (s : State) (c : Nat) : State := s.grantAll c ((s.core c).claims.length)
/-- CLAIM_GRANT (R76). -/
def execClaimGrant (c : Nat) (s : State) : R := .next (s.grantHead c)
/-- Queues a claim; it is granted at once when it is the head and fits (R76). -/
def State.claim (s : State) (c : Nat) (q : Claim) : State :=
  let k := s.core c
  (s.setCore c { k with claims := k.claims ++ [q] }).regrant c
/-- SPAWN_WARP_CREATE (R73, R74): a bin whose creation condition holds reserves a slot and queues its claim. -/
def execSpawnWarpCreate (c b : Nat) (s : State) : R :=
  let k := s.core c
  match Tab.find k.bins b, s.freeSlot c with
  | some y, some i =>
    if y.slot.isSome ∨ y.args.isEmpty ∨ s.savingCore c ∨ !(y.flush || decide (y.args.length = 16)) then .next s
    else
      let lr := (s.ctx (k.blk.getD (0, 0)).1).lr
      .next ((s.setCore c { k with bins := Tab.put b { y with slot := some i } k.bins }).claim c { by_ := .bin b, words := 16 * lr.regs })
  | _, _ => .next s

/-- RCLAIM (R271). -/
def execRclaim (h : Hdr) (g : Int) (s : State) : R :=
  .next (s.issue h { forbid := true } (fun act s =>
    let w := s.cur.warp
    if 216 < ((s.warp w).n : Int) + 9 * g then s.faultAll act 22 0
    else (s.waitAll act .claim).claim (coreOf w) { by_ := .warp w g.toNat act, words := 144 * g.toNat }))
/-- RGIVE (R271): it retires once no result is owed to the registers given (R156). -/
def execRgive (h : Hdr) (g : Int) (s : State) : R :=
  let w := s.cur.warp
  let n := (((s.warp w).n : Int) - 9 * g).toNat
  if (threadsOf w).any (fun t => (s.owedRegs t).any (fun r => decide (n ≤ r) && decide (r < 216))) then .next s
  else .next (s.issue h { forbid := true } (fun act s =>
    if ((s.warp w).n : Int) - 9 * g < 9 then s.faultAll act 22 0
    else (((s.setWarp w { s.warp w with n := n }).loseRegs w n).retireAll act).regrant (coreOf w)))

/-- The counters of a warp in the order ld, st, cp, tl (R272). -/
def State.counters (s : State) (w : Nat) : List Nat := [Cls.ld, .st, .cp, .tl].map (fun c => cntOf c (s.warp w))
/-- WAIT (R272); one on cp observes the warp's completed copies (R140). -/
def execWait (h : Hdr) (bld bst bcp btl : Nat) (s : State) : R :=
  .next (s.issue h {} (fun act s =>
    if (List.zip (s.counters s.cur.warp) [bld, bst, bcp, btl]).all (fun p => decide (p.1 ≤ p.2)) then
      (if bcp < 242 then s.raiseRT s.cur.warp (s.warp s.cur.warp).cpW else s).retireAll act
    else s.waitAll act (.counters [bld, bst, bcp, btl] false)))

end Sys2Proof.Machine
end

