-- ==== Sys2Proof/Machine/Nib.lean ====
section
/-! DEFINITION. The Nib, rows 15 and 16 (R99-R103, R285-R314): folios and rings, configuration, the commands and their
order, steps, drains, quantisation, and the power budget. -/

namespace Sys2Proof.Machine

/-! Folios and rings. -/

def State.folio (s : State) (c f : Nat) : Folio := Tab.get {} (s.core c).folio f
def State.setFolio (s : State) (c f : Nat) (x : Folio) : State :=
  let k := s.core c
  s.setCore c { k with folio := Tab.set {} f x k.folio }
def State.ringOf (s : State) (c r : Nat) : Ring := Tab.get {} (s.core c).rings r
def State.setRing (s : State) (c r : Nat) (x : Ring) : State :=
  let k := s.core c
  s.setCore c { k with rings := Tab.set {} r x k.rings }
/-- The folio at a pointer of a ring (R102). -/
def Ring.at_ (r : Ring) (p : Nat) : Option Nat := r.mem[p]?
def Ring.nextP (r : Ring) : Ring := { r with p := if r.p + 1 < r.mem.length then r.p + 1 else 0 }
def Ring.nextC (r : Ring) : Ring := { r with c := if r.c + 1 < r.mem.length then r.c + 1 else 0 }
/-- A folio's state changes (R103). -/
def State.folioSt (s : State) (c f st : Nat) : State := s.setFolio c f { s.folio c f with st := st }
/-- The ring that a folio belongs to now. -/
def State.folioRing (s : State) (c f : Nat) : Option Nat :=
  let r := (s.folio c f).ring
  if r = 0 then none else some (r - 1)
/-- A producer's folio becomes READY and P advances (R103). -/
def State.folioReady (s : State) (c f : Nat) (stag : Int) (nz : List Nat) : State :=
  let s1 := s.setFolio c f { s.folio c f with st := 2, stag := stag, nz := nz }
  match s.folioRing c f with
  | some r => s1.setRing c r (s1.ringOf c r).nextP
  | none => s1
/-- A consumer's folio becomes EMPTY and C advances (R103). -/
def State.folioDone (s : State) (c f : Nat) : State :=
  let s1 := s.folioSt c f 0
  match s.folioRing c f with
  | some r => s1.setRing c r (s1.ringOf c r).nextC
  | none => s1

/-- The address of word j = 27 q + i of a folio (R99). -/
def folioWord (f j : Nat) : Int := 729 * ((f : Int) - 121) + 3 * ((j : Int) - 121)
/-- The trits of plane q, row i of a folio, column 0 first. -/
def State.planeRow (s : State) (c f q i : Nat) : List Int := trits 27 (s.scrWord c (folioWord f (27 * q + i)))
/-- Whether an element lies in a word that cannot be corrected, in one of the planes that a read takes (R314). -/
def State.badElem (s : State) (c f i j w p : Nat) : Bool :=
  !s.bad.isEmpty && (List.range p).any (fun q =>
    s.isBad 2 (c * partBase + scrKey (folioWord f (27 * (w - p + q) + i) - 1 + ((j / 9 : Nat) : Int))))
/-- read(folio, i, c, w, p) of R285 for a whole row. -/
def State.readRow (s : State) (c f i w p : Nat) : List Int :=
  let rows := (List.range p).map (fun k => (w - p + k, s.planeRow c f (w - p + k) i))
  (List.range 27).map (fun j =>
    if s.badElem c f i j w p then 0 else rows.foldl (fun a (q, r) => a + r.getD j 0 * pow3 q) 0)
/-- The whole folio at a precision. -/
def State.readFolio (s : State) (c f w p : Nat) : List (List Int) := (List.range 27).map (fun i => s.readRow c f i w p)
/-- Whether some element of a folio, read at a precision, cannot be corrected. -/
def State.badFolio (s : State) (c f w p : Nat) : Bool :=
  !s.bad.isEmpty && (List.range 729).any (fun n => s.badElem c f (n / 27) (n % 27) w p)
/-- Writes 729 elements into a folio's nine planes (R99). -/
def State.writeFolio (s : State) (c f : Nat) (ys : List Int) : State :=
  (List.range 243).foldl (fun a n =>
    let q := n / 27
    let i := n % 27
    a.setScrWord c (folioWord f n) (ofTrits ((List.range 27).map (fun j => trit (ys.getD (27 * i + j) 0) q)))) s
/-- Nonzero-trit counts by plane, plane 0 first (R101). -/
def nzOf (ys : List Int) : List Nat := (List.range 9).map (fun q => ys.countP (fun y => decide (trit y q ≠ 0)))

/-! Forms of rows 15 and 16 that act at issue (R294-R298, R303, R313). -/

def State.slotOf (s : State) (c k : Nat) : Slot := Tab.get {} (s.core c).slots k
def State.setSlot (s : State) (c k : Nat) (x : Slot) : State :=
  let y := s.core c
  s.setCore c { y with slots := Tab.set {} k x y.slots }

/-- A form of these rows: forbidden in a draft, acting once. -/
def State.nibUnit (s : State) (h : Hdr) (u : Uses) (g : List Nat → Nat → State → State) : State :=
  s.perGroup h { u with forbid := true } g
/-- SCALE raised by an instruction's own check, after the unit has taken effect (R403). For MDRAIN and QSCALE R403 and R404 name no
thread and no moment: it is raised at issue, in the lowest active lane, as R295 has it for MCFG (DESIGN CHOICE, log 74). -/
def State.scaleAt (s : State) (t : Nat) (bad : Bool) : State :=
  if bad then s.raise t { cause := 10, pc := s.cur.next } else s

/-- MCFG (R295). -/
def execMcfg (h : Hdr) (a : Nat) (g : CfgOp) (s : State) : R :=
  .next (s.nibUnit h { srcR := [a] } (fun act t s =>
    let c := coreOf s.cur.warp
    let w := s.reg t a
    let sa := useScale (part w 0)
    let sb := useScale (part w 1)
    let so := useScale (part w 2)
    let x := s.slotOf c g.slot
    ((s.setSlot c g.slot { x with atype := g.atype, btype := g.btype, otype := g.otype, pa := g.pa, pb := g.pb, otag := g.otag
                                  sa := sa.1, sb := sb.1, so := so.1, s := combScale sa.1 sb.1 so.1 }).retireAll act).scaleAt t
      (sa.2 || sb.2 || so.2)))

/-- RING (R296): one step of the folio table. -/
def execRing (h : Hdr) (r first count : Nat) (s : State) : R :=
  .next (s.nibUnit h {} (fun act _ s =>
    let c := coreOf s.cur.warp
    let new := (List.range count).map (first + ·)
    let old := (s.ringOf c r).mem
    let busy (f : Nat) : Bool := decide ((s.folio c f).st = 1) || decide ((s.folio c f).st = 3)
    if (new ++ old).any busy || new.any (fun f => decide ((s.folio c f).ring ≠ 0) && decide ((s.folio c f).ring ≠ r + 1))
        || new.any (fun f => decide ((s.launchOf s.cur.warp).folios ≤ f)) then s.faultAll act 14 0
    else
      let s1 := old.foldl (fun a f => a.setFolio c f { a.folio c f with st := 0, ring := 0, slot := 0 }) s
      let s2 := new.zipIdx.foldl (fun a (f, i) => a.setFolio c f { a.folio c f with st := 0, ring := r + 1, slot := i }) s1
      (s2.setRing c r { mem := new }).retireAll act))

/-- One word of a folio's entry (R101). -/
def folioEntry (x : Folio) (k : Nat) : Int :=
  let z (i : Nat) : Int := (x.nz.getD i 0 : Int)
  let tri (a b d : Nat) : Int := (z a - half 9) * pow3 18 + (z b - half 9) * pow3 9 + (z d - half 9)
  if k = 0 then oAt x.st 2 25 + oAt x.ring 4 21 + oAt x.slot 3 18 + x.stag * pow3 9
  else if k = 1 then tri 8 7 6 else if k = 2 then tri 5 4 3 else tri 2 1 0
/-- FSTAT (R297), per active lane. -/
def execFstat (h : Hdr) (wsel d a : Nat) (off : Int) (s : State) : R :=
  .next (s.perLane h { srcR := [a], dstR := [d], forbid := true } (fun s t _ =>
    let f := s.reg t a + off
    if f < 0 ∨ ((s.launchOf (warpOf t)).folios : Int) ≤ f then { fault := some { cause := 14 } }
    else { wr := [.reg d (folioEntry (s.folio (coreOf (warpOf t)) f.toNat) wsel)] }))
/-- A state change by FSET (R298): none when the rules of the table refuse it. -/
def State.fset (s : State) (c f : Nat) (ready : Bool) : Option State :=
  let x := s.folio c f
  match s.folioRing c f, ready with
  | some r, true => if x.st = 0 ∧ (s.ringOf c r).at_ (s.ringOf c r).p = some f then some ((s.folioSt c f 2).setRing c r (s.ringOf c r).nextP) else none
  | some r, false => if x.st = 2 ∧ (s.ringOf c r).at_ (s.ringOf c r).c = some f then some ((s.folioSt c f 0).setRing c r (s.ringOf c r).nextC) else none
  | none, true => if x.st = 0 ∨ x.st = 2 then some (s.folioSt c f 2) else none
  | none, false => if x.st = 0 ∨ x.st = 2 then some (s.folioSt c f 0) else none
/-- The common part of FSET. -/
def State.fsetUnit (s : State) (h : Hdr) (u : Uses) (a : Nat) (off : Int) (ready full : Bool) (tag : State → Nat → Option Int) : State :=
  s.nibUnit h u (fun act t s =>
    let c := coreOf s.cur.warp
    let f := s.reg t a + off
    if f < 0 ∨ ((s.launchOf s.cur.warp).folios : Int) ≤ f then s.faultAll act 14 0
    else match s.fset c f.toNat ready with
      | none => s.faultAll act 14 0
      | some s1 =>
        let x := s1.folio c f.toNat
        (s1.setFolio c f.toNat { x with stag := (tag s t).getD x.stag, nz := if full then List.replicate 9 729 else x.nz }).retireAll act)
/-- FSET.ready (R298). -/
def execFsetReady (h : Hdr) (full : Bool) (a b : Nat) (off : Int) (s : State) : R :=
  .next (s.fsetUnit h { srcR := [a, b] } a off true full (fun s t => some (wrap (s.reg t b) 9)))
/-- FSET.empty (R298). -/
def execFsetEmpty (h : Hdr) (full : Bool) (a : Nat) (off : Int) (s : State) : R :=
  .next (s.fsetUnit h { srcR := [a] } a off false full (fun _ _ => none))
/-- MRDY (R303): a scratchpad store is performed when it issues, so the fence is complete at once. -/
def execMrdy (h : Hdr) (s : State) : R := .next (s.nibUnit h {} (fun act _ s => s.retireAll act))

/-- The cluster of a core. -/
def clusterOf (c : Nat) : Nat := c % 81 / 9
/-- The remaining units of a cluster's budget (R311). -/
def State.budgetOf (s : State) (c : Nat) : Int :=
  let d := s.dieSt (s.ownKey (dieIdx c))
  Tab.get d.full d.budget (clusterOf c)
/-- MBUDG (R313). -/
def execMbudg (h : Hdr) (d : Nat) (s : State) : R :=
  let c := coreOf s.cur.warp
  .next (s.perLane h { dstP := [d], forbid := true } (fun s _ _ =>
    { wr := [.pair d (pair (s.budgetOf c) (s.dieSt (s.ownKey (dieIdx c))).budgF)] }))

/-! Commands (R289, R290, R299). -/

/-- Whether types are a row of R289's table, with precisions within the widths. -/
def mtypeOk (x : Slot) : Bool :=
  (match x.atype, x.btype with
   | .t9, .t9 => x.otype = .t9 || x.otype = .t6 || x.otype = .f9
   | .t9, .t6 => x.otype = .t9 || x.otype = .t6 || x.otype = .f9
   | .t6, .t9 => x.otype = .t9 || x.otype = .t6 || x.otype = .f9
   | .t6, .t6 => x.otype = .t9 || x.otype = .t6 || x.otype = .t3 || x.otype = .f9
   | .t3, .t9 => x.otype = .t9 || x.otype = .t6 || x.otype = .f9
   | .t3, .t3 => x.otype ≠ .f9
   | .t1, .t9 => x.otype = .t9 || x.otype = .t6 || x.otype = .f9
   | .t1, .t6 => x.otype = .t9 || x.otype = .t6 || x.otype = .t3
   | .t1, .t1 => x.otype ≠ .f9
   | _, _ => false) && decide (x.pa ≤ x.atype.width) && decide (x.pb.planes ≤ x.btype.width)

/-- The partition of a warp (R60). -/
def partOf (w : Nat) : Nat := widOf w / 9
/-- A partition's queue has room for a command (R299). -/
def State.nibRoom (s : State) (w : Nat) : Bool :=
  decide ((s.core (coreOf w)).nib.countP (fun c => decide (c.part = partOf w)) < 27)
/-- Enqueues a command; it counts in tl when `counted`. -/
def State.nibPush (s : State) (w : Nat) (lanes : List Nat) (slot : Nat) (op : NibOp) (tok : Option Int) (counted soft : Bool) : State :=
  let p := if counted then s.openGrp w .tl 1 else ({ s with nextId := s.nextId + 1 }, s.nextId)
  let k := p.1.core (coreOf w)
  p.1.setCore (coreOf w) { k with nib := k.nib ++ [{ id := p.2, part := partOf w, warp := w, widx := (s.warp w).idx, lanes := lanes, gid := p.2, slot := slot
                                                     op := op, tok := tok, soft := soft }] }
/-- The wait of an issue that finds its queue full, or the tl counter at its limit (R299, R158). -/
def State.nibWait (s : State) (act : List Nat) : Option State :=
  let w := s.cur.warp
  if !s.nibRoom w then some (s.waitAll act (.counters [242, 242, 242, 0] false))
  else if 242 ≤ cntOf .tl (s.warp w) then some (s.waitAll act (.reissue (.limit .tl) false)) else none
/-- The token's tag when one is asked for (R304). -/
def tokOf (tok : Bool) (tag : Int) : Option Int := if tok then some tag else none

/-- MZERO (R301). -/
def execMzero (h : Hdr) (slot : Nat) (s : State) : R :=
  .next (s.nibUnit h {} (fun act _ s =>
    let w := s.cur.warp
    if !s.nibRoom w then s.waitAll act (.counters [242, 242, 242, 0] false)
    else (s.nibPush w act slot .zero none false false).retireAll act))
/-- MLOOP (R302). -/
def execMloop (h : Hdr) (bhold tok : Bool) (a slot ra rb kc : Nat) (s : State) : R :=
  .next (s.nibUnit h { srcR := [a] } (fun act t s =>
    let w := s.cur.warp
    let c := coreOf w
    let k := (kc : Int) + s.reg t a
    let x := s.slotOf c slot
    if k < 1 ∨ 729 < k then s.faultAll act 0 0
    else if (s.ringOf c ra).mem.isEmpty ∨ (s.ringOf c rb).mem.isEmpty ∨ ra = rb then s.faultAll act 14 0
    else if !mtypeOk x then s.faultAll act 13 0
    else match s.nibWait act with
      | some s1 => s1
      | none => (s.nibPush w act slot (.loop ra rb k.toNat bhold x.atype x.btype x.pa x.pb.planes) (tokOf tok x.otag) true false).retireAll act))
/-- MDRAIN (R305). -/
def execMdrain (h : Hdr) (o : DrainOp) (s : State) : R :=
  let u : Uses := if o.drop then { srcP := [o.a], srcR := [o.b, o.c] } else if o.res then { srcR := [o.c] } else {}
  .next (s.nibUnit h u (fun act t s =>
    let w := s.cur.warp
    let c := coreOf w
    let x := s.slotOf c o.slot
    let wc := s.reg t o.c
    if (s.ringOf c o.ro).mem.isEmpty ∨ (o.res ∧ (s.ringOf c o.rr).mem.isEmpty) ∨ (o.res ∧ o.ro = o.rr) then s.faultAll act 14 0
    else if !mtypeOk x then s.faultAll act 13 0
    else match s.nibWait act with
      | some s1 => s1
      | none =>
        let sr := useScale (part wc 0)
        let bad := o.res && sr.2
        ((s.nibPush w act o.slot (.drain o x.otype x.s x.so (combScale sr.1 unitScale x.so) (s.reg t o.a) (s.reg t (o.a + 1))
          (s.reg t o.b) (part wc 1) x.otag) (tokOf o.tok x.otag) true bad).retireAll act).scaleAt t bad))
/-- QSCALE (R307). -/
def execQscale (h : Hdr) (tok : Bool) (d c slot : Nat) (s : State) : R :=
  .next (s.nibUnit h { dstR := [d], preds := [c] } (fun act t s =>
    let w := s.cur.warp
    let x := s.slotOf (coreOf w) slot
    if !mtypeOk x ∨ x.otype = .f9 then s.faultAll act 13 0
    else match s.nibWait act with
      | some s1 => s1
      | none =>
        let sa := useScale x.sa
        let sb := useScale x.sb
        let bad := sa.2 || sb.2
        ((s.nibPush w act slot (.qscale d c sa.1 sb.1 x.otype) (tokOf tok x.otag) true bad).retireAll act).scaleAt t bad))
/-- FITR (R308): its group waits until the earlier conflicting commands are done. -/
def execFitr (h : Hdr) (clr : Bool) (d slot : Nat) (s : State) : R :=
  .next (s.nibUnit h { dstR := [d] } (fun act _ s =>
    let w := s.cur.warp
    if !s.nibRoom w then s.waitAll act (.counters [242, 242, 242, 0] false)
    else (s.nibPush w act slot (.fitr d clr) none false false).waitAll act (.nib s.nextId)))

/-- The rings that a command names (R299). -/
def NibCmd.rings (x : NibCmd) : List Nat :=
  match x.op with
  | .loop ra rb .. => [ra, rb]
  | .drain o .. => if o.res then [o.ro, o.rr] else [o.ro]
  | _ => []
def nibConflict (x y : NibCmd) : Bool := decide (x.slot = y.slot) || x.rings.any (fun r => y.rings.contains r)
/-- The commands that no earlier one conflicts with, oldest first (R299). -/
def State.nibFree (s : State) (c : Nat) : List NibCmd :=
  let q := (s.core c).nib
  q.filter (fun x => (q.takeWhile (fun y => decide (y.id ≠ x.id))).all (fun y => !nibConflict y x))

/-- The folio that a consumer, or a producer, of a ring takes next, when it is READY, or EMPTY: those already taken on
that side lie between the pointer and it (R102, R103). -/
def State.nextOf (s : State) (c r p held : Nat) : Option Nat :=
  let g := s.ringOf c r
  if g.mem.isEmpty then none else g.at_ ((p + g.mem.countP (fun f => decide ((s.folio c f).st = held))) % g.mem.length)
def State.atC (s : State) (c r st : Nat) : Option Nat :=
  (s.nextOf c r (s.ringOf c r).c 3).bind (fun f => if (s.folio c f).st = st then some f else none)
def State.atP (s : State) (c r st : Nat) : Option Nat :=
  (s.nextOf c r (s.ringOf c r).p 1).bind (fun f => if (s.folio c f).st = st then some f else none)
/-- The planes that a read takes, by their counts (R310). -/
def nzSum (x : Folio) (w p : Nat) : Nat := ((List.range p).map (fun k => x.nz.getD (w - p + k) 0)).sum
/-- The estimate of a command's next piece of work when it can start: its folios are at hand (R310). -/
def State.nibEst (s : State) (c : Nat) (x : NibCmd) : Option Int :=
  if x.now ∨ x.fin then none
  else match x.op with
    | .loop ra rb _ bhold at_ bt_ pa pb =>
      let b := if bhold ∧ x.done ≠ 0 then x.bFolio else s.atC c rb 2
      (match s.atC c ra 2, b with
       | some fa, some fb =>
         let n := nzSum (s.folio c fa) at_.width pa * nzSum (s.folio c fb) bt_.width pb
         some (1 + (((n + 19682) / 19683 : Nat) : Int))
       | _, _ => none)
    | .drain o .. => if x.aFolio.isSome && (x.bFolio.isSome || !o.res) then some 81 else none
    | .qscale .. => some 27
    | _ => none
/-- Whether the unit that a command needs is free: the step array, or the drain unit (R287). -/
def State.unitFree (s : State) (c : Nat) (x : NibCmd) : Bool :=
  let isLoop (y : NibCmd) : Bool := match y.op with
    | .loop .. => true
    | _ => false
  !(s.core c).nib.any (fun y => y.now && decide (isLoop y = isLoop x))
/-- The next piece of work of each partition's queue, with its estimate: that of its oldest command which is free of
earlier conflicting ones and has its folios (R312). -/
def State.nibHeads (s : State) (c : Nat) : List (NibCmd × Int) :=
  let q := (s.nibFree c).filterMap (fun x => (s.nibEst c x).map (fun e => (x, e)))
  [0, 1, 2].filterMap (fun p => q.find? (fun x => decide (x.1.part = p)))
/-- The work that can start on a core; none while its block is being saved (R300, R312). -/
def State.eligible (s : State) (c : Nat) : List (NibCmd × Int) :=
  if s.savingCore c then [] else (s.nibHeads c).filter (fun x => s.unitFree c x.1)
/-- The folios that a drain which is being performed takes now, each when it is ready (R306). -/
def State.drainTakes (s : State) (c : Nat) (x : NibCmd) : Option Nat × Option Nat :=
  match x.op with
  | .drain o .. =>
    if x.now ∨ x.fin then (none, none)
    else (if x.aFolio.isNone then s.atP c o.ro 0 else none, if o.res ∧ x.bFolio.isNone then s.atC c o.rr 2 else none)
  | _ => (none, none)
/-- The first free drain that can take a folio, with what it takes. -/
def State.pickTake (s : State) (c : Nat) : Option (NibCmd × Option Nat × Option Nat) :=
  if s.savingCore c then none
  else ((s.nibFree c).map (fun x => (x, s.drainTakes c x))).find? (fun p => p.2.1.isSome || p.2.2.isSome)
/-- The work that starts next (R311, R312). -/
def State.pickWork (s : State) (c : Nat) : Option (NibCmd × Int) :=
  let b := s.budgetOf c
  let d := s.dieSt (s.ownKey (dieIdx c))
  let fits (p : NibCmd × Int) : Bool := decide (p.2 ≤ b) || (decide (d.full < p.2) && decide (b = d.full) && decide (d.clk = d.refill))
  let es := s.eligible c
  let mates := (List.range 9).map (fun i => c - c % 9 + i)
  match es.find? (fun p => p.1.front && fits p) with
  | some p => some p
  | none =>
    if mates.any (fun m => decide (m ≠ c) && (s.eligible m).any (fun p => p.1.front && fits p)) then none
    else
      let ok := es.filter fits
      if ok.length = es.length then ok.foldl (fun (m : Option (NibCmd × Int)) p => match m with
        | none => some p
        | some q => if p.1.id < q.1.id then some p else some q) none
      else ok.foldl (fun (m : Option (NibCmd × Int)) p => match m with
        | none => some p
        | some q => if p.2 < q.2 ∨ (p.2 = q.2 ∧ p.1.part < q.1.part) then some p else some q) none

def State.setCmd (s : State) (c : Nat) (x : NibCmd) : State :=
  let k := s.core c
  s.setCore c { k with nib := k.nib.map (fun y => if y.id = x.id then x else y) }
/-- NIB_STEP_START (R306, R311, R312): a drain that is being performed takes a folio that is ready for it; else a step,
drain or QSCALE starts, its operand folios taken and its units drawn. -/
def execNibStepStart (c : Nat) (s : State) : R :=
  match s.pickTake c, s.pickWork c with
  | some (x, fo, fr), _ =>
    let s1 := fo.toList.foldl (fun a f => a.folioSt c f 1) s
    let s2 := fr.toList.foldl (fun a f => a.folioSt c f 3) s1
    .next (s2.setCmd c { x with aFolio := fo.orElse (fun _ => x.aFolio), bFolio := fr.orElse (fun _ => x.bFolio) })
  | none, none => .next s
  | none, some (x, e) =>
    let own := s.ownKey (dieIdx c)
    let d := s.dieSt own
    let b := s.budgetOf c
    let s1 := s.setDie own { d with budget := Tab.put (clusterOf c) (if e ≤ b then b - e else 0) d.budget }
    let y := { x with now := true, waited := false, front := false }
    match x.op with
    | .loop ra rb _ bhold .. =>
      let fa := s.atC c ra 2
      let fb := if bhold ∧ x.done ≠ 0 then x.bFolio else s.atC c rb 2
      let s2 := fa.toList.foldl (fun a f => a.folioSt c f 3) s1
      let s3 := fb.toList.foldl (fun a f => a.folioSt c f 3) s2
      .next (s3.setCmd c { y with aFolio := fa, bFolio := fb })
    | _ => .next (s1.setCmd c y)

/-- A command has ended: it takes its place in the order of completion (R304). -/
def State.endCmd (s : State) (c : Nat) (x : NibCmd) : State :=
  ({ s with nextId := s.nextId + 1 }).setCmd c { x with now := false, fin := true, order := s.nextId }

/-- An accumulator element; one that cannot be corrected reads as 0 (R314). -/
def State.accElem (s : State) (c k n : Nat) : Int :=
  if s.isBad 4 (c * partBase + k * 729 + n) then 0 else Tab.get 0 (s.slotOf c k).acc n
def State.badAcc (s : State) (c k : Nat) : Bool := s.bad.any (fun b => decide (b.1 = 4) && decide (c * partBase + k * 729 ≤ b.2) && decide (b.2 < c * partBase + k * 729 + 729))
def State.healAcc (s : State) (c k : Nat) : State :=
  { s with bad := s.bad.filter (fun b => !(decide (b.1 = 4) && decide (c * partBase + k * 729 ≤ b.2) && decide (b.2 < c * partBase + k * 729 + 729))) }
/-- A table of a slot's 729 values. -/
def accTab (vs : List Int) : Tab Int := (vs.zipIdx.filter (fun p => decide (p.1 ≠ 0))).map (fun p => (p.2, p.1))
/-- Whether the warp that issued a command still runs: another may have taken its slot (R269). -/
def State.issues (s : State) (x : NibCmd) : Bool := decide ((s.warp x.warp).idx = x.widx) && (Tab.find s.wrp x.warp).isSome
/-- DATA of a Nib command (R314, R404); an exited warp's threads receive nothing (R403). -/
def State.nibData (s : State) (c : Nat) (x : NibCmd) (hit : Bool) : State × NibCmd :=
  if !hit then (s, x)
  else
    ((if s.issues x then x.lanes else []).foldl (fun a l => a.defer (threadOf x.warp l) 17 0)
      (s.count ((s.core c).blk.getD (0, 0)).1 (dieIdx c) 39 1), { x with soft := true })

/-- The sums of one step (R286). -/
def stepSums (as bs : List (List Int)) : List Int :=
  let cols := (List.range 27).map (fun j => bs.map (fun r => r.getD j 0))
  as.flatMap (fun r => cols.map (fun q => (List.zipWith (· * ·) r q).sum))
/-- NIB_STEP_COMPLETE (R286, R302): the step in progress ends. An accumulator element that cannot be corrected is added to as 0, raises
and counts nothing, and holds no error any more: R314 names accumulator reads for drains and QSCALE alone (DESIGN CHOICE, log 73). -/
def execNibStepComplete (c : Nat) (s : State) : R :=
  match (s.core c).nib.find? (fun x => x.now && (match x.op with
    | .loop .. => true
    | _ => false)) with
  | none => .next s
  | some x =>
    match x.op, x.aFolio, x.bFolio with
    | .loop _ _ k bhold at_ bt_ pa pb, some fa, some fb =>
      let p := s.nibData c x (s.badFolio c fa at_.width pa || s.badFolio c fb bt_.width pb)
      let sums := stepSums (s.readFolio c fa at_.width pa) (s.readFolio c fb bt_.width pb)
      let acc := sums.zipIdx.map (fun (v, n) => wrap (s.accElem c x.slot n + v) 27)
      let y := s.slotOf c x.slot
      let last := decide (x.done + 1 = k)
      let s1 := (p.1.setSlot c x.slot { y with acc := accTab acc }).healAcc c x.slot
      let s2 := s1.folioDone c fa
      let s3 := if !bhold || last then s2.folioDone c fb else s2
      let z := { p.2 with now := false, done := x.done + 1, aFolio := none, bFolio := if bhold && !last then some fb else none }
      .next (if last then s3.endCmd c z else s3.setCmd c z)
    | _, _, _ => .next s

/-- NIB_ZERO_PERFORM (R301). -/
def execNibZeroPerform (c : Nat) (s : State) : R :=
  match if s.savingCore c then none else (s.nibFree c).find? (fun x => decide (x.op = .zero)) with
  | none => .next s
  | some x =>
    let y := s.slotOf c x.slot
    let s1 := (s.setSlot c x.slot { y with acc := [] }).healAcc c x.slot
    let k := s1.core c
    .next (s1.setCore c { k with nib := k.nib.filter (fun q => decide (q.id ≠ x.id)) })

/-- One element of a drain (R306): the output, and whether it saturated. -/
def drainElem (o : DrainOp) (ot : OTy) (S Sr acc r : Int) (dropped : Bool) : Int × Bool :=
  let x0 := mulV (.fin acc 0) (valF f27 S)
  let rv : FVal := if ot = .f9 then valF f9 r else .fin r 0
  let x1 := if o.res then addV x0 (mulV rv (valF f27 Sr)) else x0
  let x := if o.drop && decide (x1 ≠ .nan) && dropped then .fin 0 0 else x1
  if ot = .f9 then
    let y := roundF f9 x
    (y, match x, valF f9 y with
      | .fin .., .inf _ => true
      | _, _ => false)
  else match x with
    | .fin m e =>
      let y := nearestFin m e
      (sat y ot.width, decide (half ot.width < (y.natAbs : Int)))
    | _ => (0, false)
/-- NIB_DRAIN_COMPLETE (R305, R306): the drain in progress ends. -/
def execNibDrainComplete (c : Nat) (s : State) : R :=
  match (s.core c).nib.find? (fun x => x.now && (match x.op with
    | .drain .. => true
    | _ => false)) with
  | none => .next s
  | some x =>
    match x.op, x.aFolio with
    | .drain o ot S _ Sr row col key theta otag, some fo =>
      let ctx := s.ctx ((s.core c).blk.getD (0, 0)).1
      let res := match x.bFolio with
        | some fr => s.readFolio c fr ot.width ot.width
        | none => []
      let p := s.nibData c x (s.badAcc c x.slot || x.bFolio.any (fun f => s.badFolio c f ot.width ot.width))
      let ys := (List.range 729).map (fun (n : Nat) =>
        let i : Nat := n / 27
        let j : Nat := n % 27
        let x0 := if o.drop then (flourish ctx.k0 (tsum 27 ctx.k1 key) (wrap (row + (i : Int)) 27) (wrap (col + (j : Int)) 27)).1 else 0
        drainElem o ot S Sr (s.accElem c x.slot n) ((res.getD i []).getD j 0) (decide (part x0 0 < theta)))
      let sats := (ys.countP (·.2) : Int)
      let vals := ys.map (·.1)
      let y := s.slotOf c x.slot
      let s1 := p.1.writeFolio c fo vals
      let s2 := (s1.setSlot c x.slot { y with fit := min (half 27) (y.fit + sats), acc := if o.z then [] else y.acc })
      let s3 := if o.z then s2.healAcc c x.slot else s2
      let s4 := s3.folioReady c fo otag (nzOf vals)
      let s5 := x.bFolio.toList.foldl (fun a f => a.folioDone c f) s4
      .next (s5.endCmd c { p.2 with soft := p.2.soft || decide (sats ≠ 0) })
    | _, _ => .next s

/-- QSCALE's scale and predicate for the largest magnitude of a slot (R307). -/
def qscaleOf (m sa sb : Int) (w : Nat) : Int × Int :=
  if m = 0 then (unitScale, 0)
  else
    let p := m * scaleM sa * scaleM sb
    let e := scaleE sa + scaleE sb
    let q := half w
    if !leScaled p q e 796068 0 then (encF f9 12 364, -1)
    else if !leScaled (122 * q) 1 (-18) p e then (encF f9 (-13) 122, -1)
    else (scaleCeil p q e, 1)
/-- NIB_QSCALE_COMPLETE (R307): the QSCALE in progress writes d and f(c) of the threads that issued it. -/
def execNibQscaleComplete (c : Nat) (s : State) : R :=
  match (s.core c).nib.find? (fun x => x.now && (match x.op with
    | .qscale .. => true
    | _ => false)) with
  | none => .next s
  | some x =>
    match x.op with
    | .qscale d f sa sb ot =>
      let m := (List.range 729).foldl (fun b n => max b ((s.accElem c x.slot n).natAbs : Int)) 0
      let r := qscaleOf m sa sb ot.width
      let p := s.nibData c x (s.badAcc c x.slot)
      let s1 := (if s.issues x then x.lanes else []).foldl (fun a l =>
        let t := threadOf x.warp l
        if (a.thread t).st = .exited then a else (a.setReg t d r.1).setPred t f r.2) p.1
      .next ((s1.endCmd c p.2).settle x.warp)
    | _ => .next s

/-- The token of a command (R304). -/
def nibToken (x : NibCmd) (tag : Int) : Int :=
  let kind : Int := match x.op with
    | .loop .. => 1
    | .drain .. => 2
    | _ => 3
  tag * pow3 9 + (if x.soft then 0 else pow3 6) + kind * pow3 3 + oAt x.slot 3 0
/-- The ended command whose completion is next: the first to have ended, of those with no token or with room for it (R304). -/
def State.nibDone (s : State) (c : Nat) : Option NibCmd :=
  let room := decide ((s.port c 10).length < 81)
  ((s.core c).nib.filter (fun x => x.fin && (x.tok.isNone || room))).foldl (fun (m : Option NibCmd) x => match m with
    | none => some x
    | some y => if x.order < y.order then some x else some y) none
/-- NIB_COMMAND_COMPLETE (R304, R308): an ended command pushes its token, when q10 has room, and counts no longer;
a FITR whose earlier conflicting commands are done writes the count. -/
def execNibCommandComplete (c : Nat) (s : State) : R :=
  let without (a : State) (x : NibCmd) : State :=
    let y := a.core c
    a.setCore c { y with nib := y.nib.filter (fun q => decide (q.id ≠ x.id)) }
  match s.nibDone c with
  | some x =>
    let s1 := (without s x).doneLane x.warp x.gid
    let s2 := match x.tok with
      | some tag => s1.setPort c 10 (s1.port c 10 ++ [nibToken x tag])
      | none => s1
    .next (s2.settle x.warp)
  | none =>
    match if s.savingCore c then none else (s.nibFree c).find? (fun x => match x.op with
      | .fitr .. => true
      | _ => false) with
    | some x =>
      match x.op with
      | .fitr d clr =>
        let y := s.slotOf c x.slot
        let s1 := (without s x).setSlot c x.slot { y with fit := if clr then 0 else y.fit }
        let s2 := x.lanes.foldl (fun a l =>
          let t := threadOf x.warp l
          if (a.thread t).wait = .nib x.id then (a.endWait t).setReg t d y.fit else a) s1
        .next ((s2.stepTrap x.warp x.lanes).settle x.warp)
      | _ => .next s
    | none => .next s

/-- BUDGET_REFILL (R311, R312): at each multiple of 81 ns every cluster of a die has F units; work that waited through a
whole period goes first. Time does not pass such a multiple without it. -/
def execBudgetRefill (die : Nat) (s : State) : R :=
  let own := s.ownKey die
  let d := s.dieSt own
  let t := d.clk - d.clk % 81
  if t ≤ d.refill then .next s
  else
    let s1 := s.setDie own { d with budget := [], refill := t, full := d.budgF }
    .next ((s.cor.filter (fun p => decide (dieIdx p.1 = die))).foldl (fun a (c, _) =>
      let hs := (s.nibHeads c).map (fun (p : NibCmd × Int) => p.1.id)
      (s.core c).nib.foldl (fun b x =>
        b.setCmd c (if hs.contains x.id then { x with waited := true, front := x.waited } else { x with waited := false, front := false })) a) s1)

end Sys2Proof.Machine
end

