-- ==== Sys2Proof/Machine/Copy.lean ====
section
/-! DEFINITION. The copy engine, row 17 (R315-R331), compressed chunks read whole and written (R325, R334, R336), and the
scale queue (R337-R339). -/

namespace Sys2Proof.Machine

/-! Sides of a copy (R319). -/

/-- What the elements of one side are: trytes, words or dwords; binary elements of n bytes; packed T6; or none. -/
inductive Side where
  | tern (sz : Sz) | bin (n : Nat) | packed | none_
  deriving DecidableEq, Repr
def tySz : TType → Sz
  | .t9 => .tr | .f9 => .tr | .t54 => .dw | _ => .wd
def srcSide (o : CpOpt) : Side :=
  match o.mode with
  | .tt => .tern (tySz o.tty) | .raw => .bin 1 | .b2t => .bin o.btype.bytes | .t2b => .tern (tySz o.tty)
  | .up6 => .packed | .pk6 => .tern .tr | .q => .bin o.btype.bytes | .sqp => .tern .wd
def dstSide (o : CpOpt) : Side :=
  match o.mode with
  | .tt => .tern (tySz o.tty) | .raw => .bin 1 | .b2t => .tern (tySz o.tty) | .t2b => .bin o.btype.bytes
  | .up6 => .tern .tr | .pk6 => .packed | .q => .tern .tr | .sqp => .none_
/-- Addresses between consecutive elements. -/
def Side.step : Side → Nat
  | .tern sz => szLen sz | .bin n => n | _ => 1
/-- The addresses that element k of a side covers, its address given, or the base for a packed side (R37). -/
def Side.cells (sd : Side) (a : Int) (k : Nat) : List Int :=
  match sd with
  | .tern sz => covers sz a
  | .bin n => (List.range n).map (fun (i : Nat) => a + (i : Int))
  | .packed => [a + 2 * ((k / 3 : Nat) : Int), a + 2 * ((k / 3 : Nat) : Int) + 1]
  | .none_ => []
/-- Width in trits of a quantised element (R316). -/
def qWidth (qw : Nat) : Nat := if qw = 0 then 9 else if qw = 1 then 6 else if qw = 2 then 3 else 1

/-! Issue (R318, R320, R321). -/

/-- What the issuing core decides of an address from itself alone (R320, R321): the cause with its status. -/
def State.sideFate (s : State) (ctx : Nat) (sd : Side) (wr : Bool) (ea : Int) : Option (Nat × Int) :=
  let hostOk : Bool := decide (0 ≤ fld ea 0 53) && decide (fld ea 0 53 < 18446744073709551616)
  match sd, regionOf ea with
  | .none_, _ => none
  | .bin n, .host =>
    if !hostOk then some (5, 2) else if (s.ctx ctx).lr.pasid = -1 then some (5, 4) else if fld ea 0 53 % (n : Int) ≠ 0 then some (4, 0) else none
  | .bin _, .device => if s.ownerOk ea then none else some (5, 4)
  | .bin _, .counters => some (5, 0)
  | .bin _, .hole => some (4, 1)
  | .bin _, _ => some (if wr then (5, 0) else (4, 1))
  | .packed, .device => if s.ownerOk ea then none else some (5, 4)
  | .packed, _ => some (5, 0)
  | .tern sz, .device => if !s.ownerOk ea then some (5, 4) else if misaligned sz ea then some (4, 0) else none
  | .tern _, .host => some (4, 1)
  | .tern sz, .scratch => if wr then some (5, 0) else if misaligned sz ea then some (4, 0) else none
  | .tern sz, .vellum => if wr then some (5, 0) else if misaligned sz ea then some (4, 0) else none
  | .tern _, .hole => some (5, 2)
  | .tern _, .counters => some (5, 0)
/-- The fate of the first and the last element of a side. -/
def State.endsFate (s : State) (ctx : Nat) (sd : Side) (wr : Bool) (base : Int) (count : Nat) : Option (Nat × Int) :=
  let k : Int := ((count - 1 : Nat) : Int)
  let ends := if sd = .packed then sd.cells base 0 ++ sd.cells base (count - 1) else [base, base + k * (sd.step : Int)]
  if count = 0 then none else ends.findSome? (s.sideFate ctx sd wr)
/-- Whether a ring may stand on a side: its elements are trytes (R319). -/
def ringSide (o : CpOpt) (dst : Bool) : Bool :=
  match o.mode, dst with
  | .tt, _ => decide (tySz o.tty = .tr) | .b2t, true => decide (tySz o.tty = .tr) | .t2b, false => decide (tySz o.tty = .tr)
  | .up6, true => true | .q, true => true | .pk6, false => true
  | _, _ => false
/-- Check 1 of R321 on the mode, the types and the rings. -/
def copyTypesOk (o : CpOpt) : Bool :=
  (match o.mode with
   | .b2t => pairLoad o.btype o.tty
   | .t2b => pairStore o.btype o.tty
   | .q => o.btype.isFloat && decide (o.qw ≤ 3)
   | _ => true)
  && (o.sring.isNone || ringSide o false) && (o.dring.isNone || ringSide o true)
/-- Check 2 of R321. -/
def State.copyRingsBad (s : State) (c : Nat) (folios : Nat) (o : CpOpt) : Bool :=
  (o.sring.toList ++ o.dring.toList).any (fun r => (s.ringOf c r).mem.isEmpty || (s.ringOf c r).mem.any (fun f => decide (folios ≤ f)))
  || (o.sring.isSome && decide (o.sring = o.dring))

/-- What a copy form decided at issue: a cause, or the copy to enqueue. -/
inductive Issue where
  | bad (c : Nat) (status : Int)
  | go (x : Copy)
  deriving DecidableEq, Repr

/-- The common part of the copy forms: once per group, at most 81 copies on a core (R318). -/
def State.copyUnit (s : State) (h : Hdr) (u : Uses) (k : State → Nat → Copy → Issue) : State :=
  s.perGroup h { u with forbid := true } (fun act t s =>
    let w := s.cur.warp
    let c := coreOf w
    let blank : Copy := { id := 0, warp := w, lanes := act, gid := 0, pc := s.cur.first, form := .lin
                          o := { mode := .tt, tok := false, sring := none, dring := none, btype := .i8, tty := .t9, qw := 0, tag := 0 }
                          src := 0, dst := 0, count := 0 }
    match k s t blank with
    | .bad cs st => s.faultAll act cs st
    | .go x =>
      if 81 ≤ (s.core c).copies.length then s.waitAll act (.counters [242, 242, 0, 242] false)
      else if 242 ≤ cntOf .cp (s.warp w) then s.waitAll act (.reissue (.limit .cp) false)
      else
        let p := s.openGrp w .cp 1
        let y := p.1.core c
        (p.1.setCore c { y with copies := y.copies ++ [{ x with id := p.2, gid := p.2 }] }).retireAll act)

/-- The register fields of a copy form: a ring takes the place of a pair (R316), an index port is only named (R315). -/
def cpUses (o : CpOpt) (d a : Nat) (idx rest : List Nat) : Uses :=
  { srcP := (if o.dring.isSome then [] else [d]) ++ (if o.sring.isSome then [] else [a])
    srcR := rest ++ idx.filter (fun r => !(r = 227 || r = 228)), names := idx.filter (fun r => r = 227 || r = 228) }

/-- Checks 1 to 3 of a copy whose count is known. -/
def State.cpCheck (s : State) (o : CpOpt) (ok ends : Bool) (x : Copy) : Issue :=
  let c := coreOf x.warp
  let ctx := (s.warp x.warp).ctx
  if !ok ∨ !copyTypesOk o then .bad 0 0
  else if s.copyRingsBad c (s.ctx ctx).lr.folios o then .bad 14 0
  else
    let fs := if o.sring.isSome then none else s.endsFate ctx (srcSide o) false x.src x.count
    let fd := if o.dring.isSome then none else s.endsFate ctx (dstSide o) true x.dst x.count
    match ends, fs, fd with
    | true, some (k, st), _ => .bad k st
    | true, none, some (k, st) => .bad k st
    | _, _, _ => .go x
/-- CPY (R322). -/
def execCpy (h : Hdr) (o : CpOpt) (d a b : Nat) (s : State) : R :=
  .next (s.copyUnit h (cpUses o d a [] [b]) (fun s t x =>
    let n := s.reg t b
    s.cpCheck o (decide (0 ≤ n) && decide (n ≤ 1594323)) true
      { x with o := o, src := s.regPair t a, dst := s.regPair t d, count := n.toNat }))
/-- The words of a table in the scratchpad, up to the first that does not lie in it. -/
def State.scrTable (s : State) (c : Nat) (a : Int) (n : Nat) : List Int :=
  (((List.range n).map (fun (i : Nat) => a + 3 * (i : Int))).takeWhile (fun p => decide (regionOf (p - 1) = .scratch) && decide (regionOf (p + 1) = .scratch)
    && decide (trit a 0 = 0))).map (s.scrWord c)
/-- CPYS (R323). -/
def execCpys (h : Hdr) (o : CpOpt) (d a c : Nat) (s : State) : R :=
  .next (s.copyUnit h (cpUses o d a [] [c]) (fun s t x =>
    let ws := s.scrTable (coreOf s.cur.warp) (s.reg t c) 12
    let e := ws.take 4
    let n := e.foldl (· * ·) 1
    s.cpCheck o (decide (ws.length = 12) && e.all (fun v => decide (1 ≤ v)) && decide (n ≤ 1594323)
        && decide (o.mode ≠ .up6) && decide (o.mode ≠ .pk6) && decide (o.mode ≠ .sqp)) false
      { x with o := o, src := s.regPair t a, dst := s.regPair t d, count := n.toNat
               form := .strided e ((ws.drop 4).take 4) (ws.drop 8) }))
/-- The rows of a gather or a scatter (R324): its offsets are read at issue from the scratchpad, or popped later. -/
def State.rowCopy (s : State) (o : CpOpt) (ok : Bool) (t b c : Nat) (form : CpForm) (x : Copy) : Issue :=
  let v := s.reg t c
  let len := fld v 0 9
  let rows := fld v 9 9
  s.cpCheck o (ok && decide (1 ≤ len) && decide (len ≤ 729) && decide (1 ≤ rows) && decide (len * rows ≤ 1594323)
      && decide (o.mode ≠ .up6) && decide (o.mode ≠ .pk6) && decide (o.mode ≠ .sqp)) false
    { x with o := o, count := (len * rows).toNat, rowLen := len.toNat, form := form
             idxPort := if isPort b then some (b - 216) else none
             idxs := if isPort b then [] else s.scrTable (coreOf s.cur.warp) (s.reg t b) rows.toNat }
/-- CPYG (R324). -/
def execCpyg (h : Hdr) (o : CpOpt) (d a b c : Nat) (s : State) : R :=
  .next (s.copyUnit h (cpUses o d a [b] [c]) (fun s t x =>
    s.rowCopy o true t b c .gather { x with src := s.regPair t a, dst := s.regPair t d }))
/-- CPYX (R324). -/
def execCpyx (h : Hdr) (o : CpOpt) (d a b c : Nat) (s : State) : R :=
  .next (s.copyUnit h (cpUses o d a [b] [c]) (fun s t x =>
    s.rowCopy o (decide (o.mode ≠ .q)) t b c .scatter { x with src := s.regPair t a, dst := s.regPair t d }))
/-- The options of a plain copy of trytes. -/
def tryteOpt (tok : Bool) (tag : Int) : CpOpt :=
  { mode := .tt, tok := tok, sring := none, dring := none, btype := .i8, tty := .t9, qw := 0, tag := tag }
/-- CPYC (R325): the count is in chunks. -/
def execCpyc (h : Hdr) (tok : Bool) (tag : Int) (d a b : Nat) (s : State) : R :=
  .next (s.copyUnit h { srcP := [d, a], srcR := [b] } (fun s t x =>
    let n := s.reg t b
    let ctx := (s.warp s.cur.warp).ctx
    let src := s.regPair t a
    let dst := s.regPair t d
    if n < 1 ∨ 2187 < n then .bad 0 0
    else match s.endsFate ctx (.tern .tr) false src (729 * n.toNat), s.endsFate ctx (.tern .tr) true dst (729 * n.toNat) with
      | some (k, st), _ => .bad k st
      | none, some (k, st) => .bad k st
      | none, none =>
        if fld dst 0 6 ≠ 0 then .bad 5 0
        else .go { x with o := tryteOpt tok tag, form := .chunks, src := src, dst := dst, count := n.toNat }))
/-- Whether a user context of a partition exists (R114, R326). -/
def State.userLive (s : State) (p : Nat) : Bool := s.ctxs.any (fun q => !isSup q.1 && q.2.live && decide (q.2.part = p))
/-- CPYV (R326). -/
def execCpyv (h : Hdr) (tok : Bool) (tag : Int) (d a b : Nat) (s : State) : R :=
  .next (s.copyUnit h { srcP := [d, a], srcR := [b], level := .sup } (fun s t x =>
    let n := s.reg t b
    let ctx := (s.warp s.cur.warp).ctx
    let src := s.regPair t a
    let dst := s.regPair t d
    if n < 1 ∨ 43046721 < n then .bad 0 0
    else if s.userLive (s.ctx ctx).part then .bad 5 0
    else match s.endsFate ctx (.tern .tr) false src n.toNat with
      | some (k, st) => .bad k st
      | none =>
        if regionOf src ≠ .device ∨ regionOf (src + n - 1) ≠ .device ∨ regionOf dst ≠ .vellum ∨ regionOf (dst + n - 1) ≠ .vellum then .bad 5 0
        else .go { x with o := tryteOpt tok tag, form := .vellum, src := src, dst := dst, count := n.toNat }))

/-! Elements in flight (R139, R327, R330). -/

/-- Why an address is used. -/
inductive CUse where
  | read | write | chunk | vellum
  deriving DecidableEq, Repr
/-- Where one address of a copy lies, or why it cannot be used now. -/
inductive CAt where
  | mem (own : Nat) (pa : Int) (l : Leaf) | win (own byte : Nat) | host (a : Nat) | scr | vel (own : Nat)
  | wait | park (m : Bool) | ats | stop (st : Int)
  deriving DecidableEq, Repr
def CAt.ok : CAt → Bool
  | .wait => false | .park _ => false | .ats => false | .stop _ => false
  | _ => true

/-- Decides one address (R320, R330): `n` is the size that a window offset must be a multiple of, and that the window must
hold (R55). Vellum is written only while no user context exists (R114). The home acts no earlier than it was asked (R121). An
address that stops the copy gives the status that EINFO takes (R400, R425). -/
def State.copyAt (s : State) (c ctx : Nat) (tern : Bool) (k : CUse) (n : Nat) (ea : Int) : State × CAt :=
  let wr := decide (k ≠ .read)
  match regionOf ea with
  | .device =>
    let own := ownerOf ea
    if k = .vellum then (s, .stop 0)
    else if !s.ownerOk ea ∨ !s.hasTables own ctx then (s, .stop 4)
    else if (own / 27 ≠ s.pkg ∧ !s.routeUp (own / 27)) ∨ (s.dieSt own).clk < s.now c then (s, .wait)
    else match s.winAt own ctx (offOf ea) with
      | some w =>
        let o := offOf ea - w.vbase
        if tern then (s, .stop 1)
        else if o % (n : Int) ≠ 0 then (s, .stop 0)
        else if w.blen < o + n then (s, .stop 2)
        else if (if wr then w.w ≠ 1 else w.r ≠ 1) then (s, .stop 3) else (s, .win own (w.pbase + o).toNat)
      | none =>
        if !tern then (s, .stop 1)
        else
          let p := s.translate own ctx c (offOf ea)
          match p.2 with
          | .miss m => (p.1, .park m)
          | .leaf l =>
            let pa := l.phys (offOf ea)
            if wr && (!l.w || l.cmp != decide (k = .chunk)) then (p.1, .stop 3)
            else if (if wr then (s.shared ctx ea).isSome else !l.r) then (p.1, .stop 0)
            else if p.1.lineHeld own (lineOf pa) then (p.1, .wait)
            else (p.1, .mem own pa l)
  | .host =>
    if tern then (s, .stop 1)
    else if fld ea 0 53 < 0 ∨ 18446744073709551616 ≤ fld ea 0 53 then (s, .stop 2)
    else if (s.ctx ctx).lr.pasid = -1 then (s, .stop 4)
    else if fld ea 0 53 % (n : Int) ≠ 0 then (s, .stop 0)
    else match s.atsFind (s.ctx ctx).lr.pasid ea wr with
      | some a => (s, .host a)
      | none => (s, .ats)
  | .scratch => (s, if tern ∧ k = .read then .scr else .stop 0)
  | .vellum =>
    let own := s.ownKey (dieIdx c)
    (s, if !tern ∨ !(k = .read ∨ (k = .vellum ∧ !s.userLive (s.ctx ctx).part)) then .stop 0 else if (s.velBusy own ea).isSome then .wait else .vel own)
  | _ => (s, .stop 0)
/-- Decides addresses in order up to the first that cannot be used. -/
def State.copyAts (s : State) (c ctx : Nat) (tern : Bool) (k : CUse) (n : Nat) : List Int → State × List (Int × CAt)
  | [] => (s, [])
  | a :: as =>
    let p := s.copyAt c ctx tern k n a
    if p.2.ok then
      let q := State.copyAts p.1 c ctx tern k 1 as
      (q.1, (a, p.2) :: q.2)
    else (p.1, [(a, p.2)])

/-- A cause that a copy meets is deferred to the warp that issued it, while that warp runs (R52, R330, R403). -/
def State.copyCause (s : State) (x : Copy) (c : Nat) (status : Int) : State :=
  if (s.warp x.warp).out.any (fun g => decide (g.gid = x.gid)) then x.lanes.foldl (fun a l => a.defer (threadOf x.warp l) c 0 status) s else s
/-- Soft events of a copy reach its warp and its token (R52, R329). -/
def State.copySoft (s : State) (x : Copy) (cs : List Nat) : State := cs.foldl (fun a c => a.copyCause x c 0) s
def Copy.softly (x : Copy) (cs : List Nat) : Copy := { x with soft := x.soft || cs.any (fun c => decide (c ≠ 24)) }

/-- Whether runs of addresses cover n addresses from one on. -/
def covered (runs : List (Int × Int)) : Nat → Int → Int → Bool
  | 0, _, _ => false
  | f + 1, a, n =>
    if n ≤ 0 then true
    else match runs.find? (fun r => decide (r.1 ≤ a) && decide (a < r.1 + r.2)) with
      | some r => covered runs f (r.1 + r.2) (n - (r.1 + r.2 - a))
      | none => false
/-- The indices of element k in a loop of four extents, innermost first (R323). -/
def loopIdx (e : List Int) (k : Nat) : List Int :=
  (e.foldl (fun (a : List Int × Int) n => (a.1 ++ [a.2 % n], a.2 / n)) ([], (k : Int))).1
def dotI (a b : List Int) : Int := (List.zipWith (· * ·) a b).sum
/-- The address of element k of the source or the destination (R322-R324); a packed side's base. -/
def Copy.srcAddr (x : Copy) (k : Nat) : Int :=
  let st : Int := (srcSide x.o).step
  match x.form with
  | .strided e s _ => x.src + dotI (loopIdx e k) s * st
  | .gather => x.src + (x.idxs.getD (k / x.rowLen) 0 + ((k % x.rowLen : Nat) : Int)) * st
  | _ => if srcSide x.o = .packed then x.src else x.src + (k : Int) * st
def Copy.dstAddr (x : Copy) (k : Nat) : Int :=
  let st : Int := (dstSide x.o).step
  match x.form with
  | .strided e _ t => x.dst + dotI (loopIdx e k) t * st
  | .scatter => x.dst + (x.idxs.getD (k / x.rowLen) 0 + ((k % x.rowLen : Nat) : Int)) * st
  | _ => if dstSide x.o = .packed then x.dst else x.dst + (k : Int) * st
/-- The trytes of a copy's source elements, as runs; a gather's rows as far as their offsets are known (R336). -/
def Copy.srcRuns (x : Copy) : List (Int × Int) :=
  let st : Int := (srcSide x.o).step
  let low (a : Int) : Int := if st = 1 then a else a - 1
  match x.form with
  | .strided .. => (List.range x.count).map (fun k => (low (x.srcAddr k), st))
  | .gather => x.idxs.map (fun o => (low (x.src + o * st), (x.rowLen : Int) * st))
  | .chunks => [(x.src, 729 * (x.count : Int))]
  | _ => if srcSide x.o = .packed then [(x.src, 2 * (((x.count + 2) / 3 : Nat) : Int))] else [(low x.src, (x.count : Int) * st)]

/-- The sector at a home in which a source's unit lies, a window's being the bytes of an atom, and the unit's place in it. -/
def CAt.place (a : Int) : CAt → Option (Nat × Int × Nat)
  | .mem own pa l => some (own * 4 + l.cmp.toNat, secOf pa, secPos pa)
  | .win own b => some (own * 4 + 2, ((b / 64 : Nat) : Int), b % 64)
  | .vel own => some (own * 4 + 3, secOf a, secPos a)
  | _ => none
/-- Whether the copy has not read a unit's sector yet. -/
def Copy.lacks (x : Copy) (p : Int × CAt) : Bool :=
  (p.2.place p.1).any (fun q => !x.buf.any (fun b => decide (b.1 = q.1) && decide (b.2.1 = q.2.1)))
/-- Whether a copy reads a chunk whole: its elements include all of it; the rows of a gather are taken one by one (R336, R391). -/
def Copy.whole (x : Copy) (u : Int) : Bool :=
  match x.form with
  | .gather => x.srcRuns.any (fun r => covered [r] 2 (729 * u - 364) 729)
  | _ => covered x.srcRuns 730 (729 * u - 364) 729
/-- What the read of a source's sector at its home gives: its units, with what it counts; a chunk that the copy reads whole is
checked first (R52, R139, R336, R438). -/
def State.copyRead (s : State) (c ctx : Nat) (x : Copy) (a : Int) (p : CAt) : State × Copy × List Int :=
  let die := dieIdx c
  match p with
  | .mem own pa l =>
    let u := shr a 6
    let t := s.touchAs ctx c ((s.core c).blk.getD (0, 0)).2 x.gid l.w a
    let det := if t.2 then [24] else []
    let read (x : Copy) : State × Copy × List Int :=
      let ps := (List.range 27).map (fun (i : Nat) => 27 * secOf pa - 13 + (i : Int))
      let f := t.1.fillFor own ps l.cmp ctx die (l.slices own)
      let g := f.1.lostRead own ps l.cmp ctx die
      (g.1.copySoft x (f.2 ++ g.2 ++ det), x.softly (f.2 ++ g.2), ps.map (fun a => g.1.homeTryte own a l.cmp))
    if x.bad.contains u then (t.1.copySoft x det, x, List.replicate 27 0)
    else if l.cmp ∧ !x.good.contains u ∧ x.whole u ∧ !s.chunkLost own (secOf pa) then
      let r := readChunk (t.1.chunkAtoms own (secOf pa))
      if r.2.1 then
        let cs := List.replicate r.2.2 16 ++ [18]
        ((t.1.countAll ctx die cs).copySoft x (cs ++ det), ({ x with bad := u :: x.bad }).softly cs, List.replicate 27 0)
      else read { x with good := u :: x.good }
    else read x
  | .win own b =>
    let q := s.atomLost own (b / 64) ctx die
    (q.1.copySoft x q.2, x.softly q.2, (q.1.bytes own (64 * (b / 64)) 64).map (fun (v : Nat) => (v : Int)))
  | .vel own =>
    let as := (List.range 27).map (fun (i : Nat) => 27 * secOf a - 13 + (i : Int))
    let lost (a : Int) : Bool := s.isBad 3 (own * partBase + ikey a)
    let s1 := if as.any lost then (s.count ctx die 39 1).copySoft x [17] else s
    (s1, if as.any lost then x.softly [17] else x, as.map (fun a => if lost a then 0 else s.vel own a))
  | _ => (s, x, [])
/-- A source sector is read whole at its home, at one moment (R139). -/
def State.copyLoad (s : State) (c ctx : Nat) (x : Copy) (a : Int) (p : CAt) : State × Copy :=
  match p.place a with
  | none => (s, x)
  | some q =>
    let r := s.copyRead c ctx x a p
    (r.1, { r.2.1 with buf := (q.1, q.2.1, r.2.2) :: x.buf, heard := max x.heard (s.dieSt (q.1 / 4)).clk })
/-- Reads the sectors of some source units that the copy has not read yet. -/
def State.copyLoads (s : State) (c ctx : Nat) (x : Copy) (ps : List (Int × CAt)) : State × Copy :=
  ps.foldl (fun (a : State × Copy) p => if a.2.lacks p then a.1.copyLoad c ctx a.2 p.1 p.2 else a) (s, x)
/-- Whether some source units lie in sectors that the copy has not read yet. -/
def Copy.unread (x : Copy) (ps : List (Int × CAt)) : Bool := ps.any x.lacks
/-- One unit of a source: of a home's memory as the sector was when it was read. -/
def State.copyGet (s : State) (c ctx : Nat) (x : Copy) (a : Int) (p : CAt) : State × Copy × Int :=
  match p.place a with
  | some q => (s, x, ((x.buf.find? (fun b => decide (b.1 = q.1) && decide (b.2.1 = q.2.1))).map (·.2.2.getD q.2.2 0)).getD 0)
  | none =>
    match p with
    | .host h => (s, x, (s.hostByte h : Int))
    | .scr =>
      if s.isBad 2 (c * partBase + scrKey a) then ((s.count ctx (dieIdx c) 39 1).copySoft x [17], x.softly [17], 0) else (s, x, s.scr c a)
    | _ => (s, x, 0)
def State.copyGets (s : State) (c ctx : Nat) (x : Copy) : List (Int × CAt) → State × Copy × List Int
  | [] => (s, x, [])
  | p :: ps =>
    let r := s.copyGet c ctx x p.1 p.2
    let q := State.copyGets r.1 c ctx r.2.1 ps
    (q.1, q.2.1, r.2.2 :: q.2.2)
/-- One unit of a destination is performed at its home; the copy keeps the latest W (R127, R139). -/
def State.copyPut (s : State) (c ctx : Nat) (x : Copy) (a : Int) (p : CAt) (v : Int) : State × Copy :=
  match p with
  | .mem own pa l =>
    let t := s.touchAs ctx c ((s.core c).blk.getD (0, 0)).2 x.gid l.w a
    let w := t.1.wOf own (lineOf pa)
    (((t.1.homePut own false ctx [(pa, v)] (l.slices own)).wrote own (lineOf pa)).copySoft x (if t.2 then [24] else []), { x with w := max x.w w })
  | .win own b =>
    let q := s.atomLost own (b / 64) ctx (dieIdx c)
    ((q.1.copySoft x q.2).setByte own b v.toNat, { x.softly q.2 with w := max x.w (s.dieSt own).clk })
  | .host h => (s.setHost h [v.toNat], { x with w := max x.w (s.dieSt (s.ownKey 9)).clk })
  | .vel own => (s.setVel own a v, { x with w := max x.w (s.dieSt own).clk })
  | _ => (s, x)
def State.copyPuts (s : State) (c ctx : Nat) (x : Copy) : List ((Int × CAt) × Int) → State × Copy
  | [] => (s, x)
  | (p, v) :: ps =>
    let r := s.copyPut c ctx x p.1 p.2 v
    State.copyPuts r.1 c ctx r.2 ps

/-- Trit positions of an element (i, j) of a folio. -/
def State.folioElem (s : State) (c f n : Nat) : Int :=
  ofTrits ((List.range 9).map (fun q => trit (s.scrWord c (folioWord f (27 * q + n / 27))) (n % 27)))
def State.setFolioElem (s : State) (c f n : Nat) (v : Int) : State :=
  (List.range 9).foldl (fun a q =>
    let p := folioWord f (27 * q + n / 27)
    a.setScrWord c p (setFld (a.scrWord c p) (n % 27) 1 (trit v q))) s

/-- A quantised element with whether it is counted (R339). -/
def quant (b : BType) (w : Nat) (sc : Int) (bits : Nat) : Int × Bool :=
  match binFloatVal b bits with
  | .nan => (0, true)
  | .inf g => (g * half w, true)
  | .rat p q =>
    let e := scaleE sc
    let y := nearest (p * (if e < 0 then pow3 (-e).toNat else 1)) ((q : Int) * scaleM sc * (if e < 0 then 1 else pow3 e.toNat))
    if half w < (y.natAbs : Int) then (sat y w, true) else (y, false)
/-- The conversion of one source element, as trytes or bytes of the destination, with whether it saturated (R319). -/
def convElem (x : Copy) (k : Nat) (vs : List Int) : List Int × Bool :=
  let o := x.o
  let bits := ofBytes (vs.map (·.toNat))
  match o.mode with
  | .tt => (vs, false)
  | .raw => (vs, false)
  | .b2t => let r := convIn o.btype o.tty bits
    (toTrytes o.tty.trytes r.val, r.out)
  | .t2b => let r := convOut o.btype o.tty (ofTrytes vs)
    ((toBytes o.btype.bytes r.val.toNat).map (fun (b : Nat) => (b : Int)), r.out)
  | .up6 => ([fld (ofTrytes vs) (6 * (k % 3)) 6], false)
  | .pk6 => ([wrap (ofTrytes vs) 6], false)
  | .q => let r := quant o.btype (qWidth o.qw) x.scale bits
    ([r.1], r.2)
  | .sqp => (vs, false)

/-- What the next piece of a copy's work comes to now. -/
inductive Move1 where
  | done (s : State) | wait | park (ea : Int) (m wr : Bool) | ats (ea : Int) (wr : Bool) | stop (st : Int)
  deriving DecidableEq, Repr
/-- Why a list of addresses cannot be used. -/
def notOk (wr : Bool) (l : List (Int × CAt)) : Option Move1 :=
  l.findSome? (fun p => match p.2 with
    | .wait => some .wait
    | .park m => some (.park p.1 m wr)
    | .ats => some (.ats p.1 wr)
    | .stop st => some (.stop st)
    | _ => none)

def State.copyOf (s : State) (c i : Nat) : Option Copy := (s.core c).copies.find? (fun x => decide (x.id = i))
def State.setCopy (s : State) (c : Nat) (x : Copy) : State :=
  let k := s.core c
  s.setCore c { k with copies := k.copies.map (fun y => if y.id = x.id then x else y) }
/-- Copies of the core issued before one. -/
def State.earlier (s : State) (c : Nat) (x : Copy) : List Copy := (s.core c).copies.takeWhile (fun y => decide (y.id ≠ x.id))
/-- Whether a copy has taken all its folios on a side, and needs none more (R327). -/
def Copy.tookAll (x : Copy) (dst : Bool) : Bool :=
  x.stopped || decide ((x.count + 728) / 729 ≤ (if dst then x.dfol else x.sfol).length)
/-- Whether a copy may take its next folio of a ring (R327). -/
def State.ringTurn (s : State) (c : Nat) (x : Copy) (dst : Bool) : Bool :=
  (s.earlier c x).all (fun y => y.tookAll dst || decide ((if dst then y.o.dring else y.o.sring) ≠ (if dst then x.o.dring else x.o.sring)))
/-- The folio that element `pos` of a copy goes to, or comes from, taken when it is the first of its folio (R102, R103). -/
def State.copyFolio (s : State) (c : Nat) (x : Copy) (dst : Bool) (r : Nat) : Option (State × Copy × Nat) :=
  let taken := if dst then x.dfol else x.sfol
  match taken[x.pos / 729]? with
  | some f => some (s, x, f)
  | none =>
    if !s.ringTurn c x dst then none
    else match if dst then s.atP c r 0 else s.atC c r 2 with
      | none => none
      | some f => some (s.folioSt c f (if dst then 1 else 3), if dst then { x with dfol := x.dfol ++ [f] } else { x with sfol := x.sfol ++ [f] }, f)
/-- Whether a copy may act on the scale queue (R337). -/
def State.sqTurn (s : State) (c : Nat) (x : Copy) : Bool :=
  (s.earlier c x).all (fun y => y.stopped || (match y.o.mode with
    | .q => y.matched || decide (y.count = 0)
    | .sqp => decide (y.count ≤ y.pos)
    | _ => true))

/-- The elements read for one piece of work: a packed destination takes a whole pair. -/
def Copy.batch (x : Copy) : Nat := if dstSide x.o = .packed then min 3 (x.count - x.pos) else 1
/-- Reads and converts some source elements; a sector of memory that is not at hand is read first, as a piece of work of its
own (R139). -/
def State.copyReads (s : State) (c ctx : Nat) (x : Copy) (k : Nat) : Nat → Except Move1 (State × Copy × List (List Int))
  | 0 => .ok (s, x, [])
  | n + 1 =>
    let sd := srcSide x.o
    let tern : Bool := match sd with
      | .bin _ => false
      | _ => true
    let al := s.copyAts c ctx tern .read (if tern then 1 else sd.step) (sd.cells (x.srcAddr k) k)
    let mis : Bool := match sd with
      | .tern sz => misaligned sz (x.srcAddr k)
      | _ => false
    if mis then .error (.stop 0)
    else match notOk false al.2 with
      | some m => .error m
      | none =>
        if x.unread al.2 then
          let r := al.1.copyLoads c ctx x al.2
          .error (.done (r.1.setCopy c r.2))
        else
        let g := al.1.copyGets c ctx x al.2
        let v := convElem g.2.1 k g.2.2
        let s1 := if v.2 then g.1.count ctx (dieIdx c) 37 1 else g.1
        match State.copyReads s1 c ctx (if v.2 then { g.2.1 with soft := true } else g.2.1) (k + 1) n with
        | .ok r => .ok (r.1, r.2.1, v.1 :: r.2.2)
        | .error m => .error m
/-- The element that a source ring gives (R327). -/
def State.ringRead (s : State) (c ctx : Nat) (x : Copy) (f : Nat) (n k : Nat) : State × Copy × List (List Int) :=
  let rs := (List.range n).map (fun j => (k + j, (k + j) % 729))
  rs.foldl (fun (a : State × Copy × List (List Int)) p =>
    let bad := a.1.badElem c f (p.2 / 27) (p.2 % 27) 9 9
    let v := convElem a.2.1 p.1 [if bad then 0 else a.1.folioElem c f p.2]
    let s1 := if bad then (a.1.count ctx (dieIdx c) 39 1).copySoft x [17] else a.1
    let s2 := if v.2 then s1.count ctx (dieIdx c) 37 1 else s1
    (s2, { a.2.1 with soft := a.2.1.soft || bad || v.2 }, a.2.2 ++ [v.1])) (s, x, [])
/-- The rest of a last folio is written as zero (R327). -/
def State.padFolio (s : State) (c f n : Nat) : State :=
  (List.range (729 - n)).foldl (fun a i => a.setFolioElem c f (n + i) 0) s
/-- The trits of an element that a copy writes enter the counts of its folio (R101). -/
def Copy.noteNz (x : Copy) (v : Int) : Copy :=
  let z : List Nat := List.replicate 9 0
  let i := x.pos / 729
  { x with nz := (List.range (max x.nz.length (i + 1))).map (fun j =>
      if j = i then List.zipWith (· + ·) (x.nz.getD j z) (nzOf [v]) else x.nz.getD j z) }
/-- Writes the converted elements of one piece of work. -/
def State.copyWrites (s : State) (c ctx : Nat) (x : Copy) (vs : List (List Int)) : Move1 :=
  let n := vs.length
  let after (s : State) (x : Copy) : State :=
    let last := decide (x.count ≤ x.pos + n)
    let f := x.sfol.getLast?
    let s1 := if x.o.sring.isSome ∧ (last ∨ (x.pos + n) % 729 = 0) then f.toList.foldl (fun a f => a.folioDone c f) s else s
    s1.setCopy c { x with pos := x.pos + n }
  match x.o.dring with
  | some r =>
    (match s.copyFolio c x true r with
     | none => .wait
     | some (s1, y, f) =>
       let s2 := s1.setFolioElem c f (x.pos % 729) (ofTrytes (vs.headD []))
       let s3 := if x.count ≤ x.pos + 1 then s2.padFolio c f (x.pos % 729 + 1) else s2
       .done (after s3 { y.noteNz (ofTrytes (vs.headD [])) with w := max y.w (s.now c) }))
  | none =>
    match dstSide x.o with
    | .none_ =>
      if !s.sqTurn c x ∨ 27 ≤ (s.core c).sq.length then .wait
      else
        let w := ofTrytes (vs.headD [])
        let k := s.core c
        .done (after (s.setCore c { k with sq := k.sq ++ [{ tag := fld w 9 9, scale := wrap w 9 }] }) x)
    | .packed =>
      let al := s.copyAts c ctx true .write 1 ((Side.packed).cells x.dst x.pos)
      let v := (vs.zipIdx.map (fun (e, i) => e.headD 0 * pow3 (6 * i))).sum
      (match notOk true al.2 with
       | some m => m
       | none =>
         let p := al.1.copyPuts c ctx x (List.zip al.2 (toTrytes 2 v))
         .done (after p.1 p.2))
    | sd =>
      let tern : Bool := match sd with
        | .tern _ => true
        | _ => false
      let mis : Bool := match sd with
        | .tern sz => misaligned sz (x.dstAddr x.pos)
        | _ => false
      let al := s.copyAts c ctx tern (if x.form = .vellum then .vellum else .write) (if tern then 1 else sd.step) (sd.cells (x.dstAddr x.pos) x.pos)
      if mis then .stop 0
      else match notOk true al.2 with
        | some m => m
        | none =>
          let p := al.1.copyPuts c ctx x (List.zip al.2 (vs.headD []))
          .done (after p.1 p.2)

/-- Reads source trytes of any number, sector after sector. -/
def State.copyReadAll (s : State) (c ctx : Nat) (x : Copy) (ps : List (Int × CAt)) : State × Copy × List Int :=
  (List.range ((ps.length + 26) / 27)).foldl (fun (b : State × Copy × List Int) (j : Nat) =>
    let qs := (ps.drop (27 * j)).take 27
    let r := b.1.copyLoads c ctx b.2.1 qs
    let g := r.1.copyGets c ctx r.2 qs
    (g.1, g.2.1, b.2.2 ++ g.2.2)) (s, x, [])
/-- One chunk of CPYC (R325, R334): its atoms are written, and copies of it in L2 leave. -/
def State.chunkMove (s : State) (c ctx : Nat) (x : Copy) : Move1 :=
  let a0 := x.src + 729 * (x.pos : Int)
  let d := x.dst + 729 * (x.pos : Int)
  let al := s.copyAts c ctx true .read 1 ((List.range 729).map (fun (i : Nat) => a0 + (i : Int)))
  match notOk false al.2 with
  | some m => m
  | none =>
    let g := al.1.copyReadAll c ctx x al.2
    let p := g.1.copyAt c ctx true .chunk 1 d
    match p.2 with
    | .mem own pa l =>
      let k0 := 27 * shr pa 6 - 13
      let lines := (List.range 9).map (fun (i : Nat) => lineOf pa - 4 + (i : Int))
      if lines.any (p.1.lineHeld own) then .wait
      else
        let t := (List.range 9).foldl (fun (b : State × Bool) (i : Nat) =>
          let q := b.1.touchAs ctx c ((s.core c).blk.getD (0, 0)).2 x.gid l.w (d + 81 * ((i : Int) - 4))
          (q.1, b.2 || q.2)) (p.1, false)
        let w := (lines.map (t.1.wOf own)).foldl max 0
        let s1 := (encChunk (Config.chunkPad g.2.2) g.2.2).foldl (fun a (j, bs) =>
          { (a.setAtom own (k0 + (j : Int)) bs) with bad := a.healed 0 (cellKey own (atomNo own (k0 + (j : Int)))) }) t.1
        let s2 := (List.range 27).foldl (fun a (j : Nat) => (a.setSec own (k0 + (j : Int)) true {}).setSec own (k0 + (j : Int)) false {}) s1
        let s3 := lines.foldl (fun a q => a.wrote own q) s2
        .done ((s3.copySoft x (if t.2 then [24] else [])).setCopy c { g.2.1 with pos := x.pos + 1, w := max g.2.1.w w })
    | .wait => .wait
    | .park m => .park d m true
    | .ats => .ats d true
    | .stop st => .stop st
    | _ => .stop 0

/-- The next piece of a copy's work: a row's index is popped, a source folio is taken, a source sector is read, or elements are
written. A piece that cannot be done now leaves the state as it is. -/
def State.copyMove (s : State) (c : Nat) (x0 : Copy) : Move1 :=
  let ctx := ((s.core c).blk.getD (0, 0)).1
  if x0.stopped ∨ x0.parked.isSome ∨ x0.count ≤ x0.pos ∨ s.now c < x0.heard ∨ s.savingCore c then .wait
  else if x0.form = .chunks then s.chunkMove c ctx x0
  else if x0.o.mode = .q ∧ !x0.matched then .wait
  else if x0.drop then
    (match x0.o.dring with
     | none => .done (s.setCopy c { x0 with pos := x0.count })
     | some r =>
       match s.copyFolio c x0 true r with
       | none => .wait
       | some (s1, y, f) => .done ((s1.padFolio c f 0).setCopy c { y with pos := min x0.count (x0.pos + 729), w := max y.w (s.now c) }))
  else
    let row := x0.pos / x0.rowLen
    let byRow : Bool := decide (x0.form = .gather) || decide (x0.form = .scatter)
    if byRow ∧ x0.idxs.length ≤ row then
      match x0.idxPort with
      | none => .stop 0
      | some q => match s.port c q with
        | v :: rest => .done ((s.setPort c q rest).setCopy c { x0 with idxs := x0.idxs ++ [v] })
        | [] => if s.portClosed c ctx q then .stop 0 else .wait
    else
      match x0.o.sring with
      | some r =>
        (match s.copyFolio c x0 false r with
         | none => .wait
         | some (s1, y, f) =>
           if y.sfol.length ≠ x0.sfol.length then .done (s1.setCopy c y)
           else
             let g := s1.ringRead c ctx y f (min x0.batch (729 - x0.pos % 729)) x0.pos
             g.1.copyWrites c ctx g.2.1 g.2.2)
      | none =>
        match s.copyReads c ctx x0 x0.pos x0.batch with
        | .error m => m
        | .ok g => g.1.copyWrites c ctx g.2.1 g.2.2

/-- A copy stops (R330): PERM with a status in the issuing warp at its next issue boundary, status -1 at completion; a source folio
half read becomes EMPTY. -/
def State.stopCopy (s : State) (c : Nat) (x : Copy) (st : Int) : State :=
  let s1 := s.copyCause x 5 st
  let s2 := if x.o.sring.isSome ∧ x.pos < 729 * x.sfol.length then x.sfol.getLast?.toList.foldl (fun a f => if (a.folio c f).st = 3 then a.folioDone c f else a) s1 else s1
  s2.setCopy c { x with stopped := true, parked := none }

/-- COPY_ELEMENT_TRANSFER (R139, R322-R328, R330): the next elements of a copy are read and written; a page fault adds
its record and the copy waits at that element. -/
def execCopyElementTransfer (c i : Nat) (s : State) : R :=
  match s.copyOf c i with
  | none => .next s
  | some x =>
    match s.copyMove c x with
    | .done s1 => .next s1
    | .park ea m wr =>
      let ctx := ((s.core c).blk.getD (0, 0)).1
      let s1 := (s.translate (ownerOf ea) ctx c (offOf ea)).1
      .next ((s1.addFault (ownerOf ea) ctx ea ea (if wr then 5 else 4) c (widOf x.warp) (x.lanes.headD 0) x.pc m).setCopy c { x with parked := some ea, parkW := wr })
    | _ => .next s
/-- COPY_STOP (R330): a violation met in flight. -/
def execCopyStop (c i : Nat) (s : State) : R :=
  match s.copyOf c i with
  | none => .next s
  | some x => match s.copyMove c x with
    | .stop st => .next (s.stopCopy c x st)
    | _ => .next s

/-- The match of R338 on the queue: what is left, the head's scale if one was found, tags passed unused; none while the
queue is empty. -/
def matchQ (t : Int) : List SqEnt → Option (List SqEnt × Option Int × Int)
  | [] => none
  | h :: q =>
    let d := wrap (t - h.tag) 9
    if d = 0 then some ({ h with used := true } :: q, some h.scale, 0)
    else if 0 < d then (matchQ t q).map (fun r => (r.1, r.2.1, r.2.2 + (if h.used then 0 else 1)))
    else some (h :: q, none, 0)
/-- The head entries that a match finding the queue empty has passed. -/
def passedQ (t : Int) (q : List SqEnt) : Int := (q.countP (fun h => decide (0 < wrap (t - h.tag) 9) && !h.used) : Int)
/-- SCALE_QUEUE_MATCH (R337, R338). -/
def execScaleQueueMatch (c i : Nat) (s : State) : R :=
  match s.copyOf c i with
  | none => .next s
  | some x =>
    let k := s.core c
    let ctx := (k.blk.getD (0, 0)).1
    if x.o.mode ≠ .q ∨ x.matched ∨ x.stopped ∨ !s.sqTurn c x then .next s
    else match matchQ x.o.tag k.sq with
      | none => if k.sq.isEmpty then .next s else .next ((s.setCore c { k with sq := [] }).count ctx (dieIdx c) 42 (passedQ x.o.tag k.sq))
      | some (q, some sc, n) =>
        let u := useScale sc
        let s1 := (s.setCore c { k with sq := q }).count ctx (dieIdx c) 42 n
        let cs := if u.2 then [10] else []
        .next ((s1.copySoft x cs).setCopy c (({ x with matched := true, scale := u.1 }).softly cs))
      | some (q, none, n) =>
        let s1 := ((s.setCore c { k with sq := q }).count ctx (dieIdx c) 42 n).count ctx (dieIdx c) 43 1
        .next ((s1.copySoft x [10]).setCopy c (({ x with matched := true, drop := true }).softly [10]))

/-- Nonzero counts of the trits that a copy wrote into its i-th folio (R101, R329). -/
def Copy.counts (x : Copy) (i : Nat) : List Nat := x.nz.getD i (List.replicate 9 0)
/-- Whether a copy has written its i-th folio to the end; one that it stopped in stays FILLING (R329, R330, R394). -/
def Copy.filled (x : Copy) (i : Nat) : Bool := !x.stopped || decide (min x.count (729 * (i + 1)) ≤ x.pos)
/-- Vellum lines in the L1s of a die become invalid (R326). -/
def State.velForget (s : State) (die : Nat) (lo n : Int) : State :=
  { s with cor := s.cor.map (fun p => if dieIdx p.1 = die then
      (p.1, { p.2 with l1 := p.2.l1.filter (fun q => decide (regionOf (81 * unKey q.1) ≠ .vellum) || decide (unKey q.1 < lineOf lo)
        || decide (lineOf (lo + n - 1) < unKey q.1)) }) else p) }
/-- COPY_COMPLETE (R140, R329): every write performed, the die's count at W, and room for the token. The copy's W raises
the release times of a warp that observes the completion: its own by a WAIT on cp, or the one that pops the token. -/
def execCopyComplete (c i : Nat) (s : State) : R :=
  match s.copyOf c i with
  | none => .next s
  | some x =>
    let ctx := ((s.core c).blk.getD (0, 0)).1
    if !(x.stopped || decide (x.count ≤ x.pos)) ∨ s.now c < max x.w x.heard ∨ (x.o.mode = .q ∧ !x.matched ∧ !x.stopped ∧ x.count ≠ 0)
        ∨ (x.o.tok ∧ 81 ≤ (s.port c 9).length) then .next s
    else
      let status : Int := if x.stopped then -1 else if x.soft then 0 else 1
      let s1 := if x.o.tok then s.pushToken c 9 (x.o.tag + status * pow3 9) x.w else s
      let s2 := x.dfol.zipIdx.foldl (fun a (f, j) => if x.filled j then a.folioReady c f x.o.tag (x.counts j) else a) s1
      let k := s2.core c
      let s3 := s2.setCore c { k with copies := k.copies.filter (fun y => decide (y.id ≠ i)) }
      let s4 := if x.form = .vellum then s3.velForget (dieIdx c) x.dst (x.count : Int) else s3
      let s5 := match Tab.find s4.wrp x.warp with
        | some y => (s4.setWarp x.warp { y with cpW := max y.cpW x.w }).ctxRT ctx x.w
        | none => s4.ctxRT ctx x.w
      .next ((s5.doneLane x.warp x.gid).settle x.warp)

end Sys2Proof.Machine
end

