-- ==== Sys2Proof/Machine/FloatFn.lean ====
section
/-! DEFINITION. The correctly rounded functions of row 7 (R209, R210). A quotient and a root are
decided exactly. The other functions are enclosed between two rationals at a precision of 3^-w and
rounded when both ends round alike, at growing w; the exact value is never midway (R209), so a
precision that decides exists. -/

namespace Sys2Proof.Machine

/-- Fixed point with w fraction trits: a product. -/
def fxMul (w : Nat) (a b : Int) : Int := shr (a * b) w
def fxDiv (w : Nat) (a b : Int) : Int := if b = 0 then 0 else nearest (a * pow3 w) b

/-- Σ over i of ±z^(2i+1)/(2i+1), with sg = 1 (atanh) or -1 (atan). -/
def atanSum (w : Nat) (sg : Int) (z2 : Int) : Nat → Nat → Int → Int → Int
  | 0, _, _, acc => acc
  | fuel + 1, i, t, acc =>
    if t = 0 then acc
    else atanSum w sg z2 fuel (i + 1) (sg * fxMul w t z2) (acc + t / (2 * (i : Int) + 1))

def atanh (w : Nat) (z : Int) : Int := atanSum w 1 (fxMul w z z) (3 * w + 10) 0 z 0
def atan (w : Nat) (z : Int) : Int := atanSum w (-1) (fxMul w z z) (3 * w + 10) 0 z 0

/-- ln 3 = 2 atanh(1/2). -/
def fxLn3 (w : Nat) : Int := 2 * atanh w (pow3 w / 2)

/-- π by Machin's formula. -/
def fxPi (w : Nat) : Int := 16 * atan w (pow3 w / 5) - 4 * atan w (pow3 w / 239)

/-- Σ x^i/i!. -/
def expSum (w : Nat) (x : Int) : Nat → Nat → Int → Int → Int
  | 0, _, _, acc => acc
  | fuel + 1, i, t, acc =>
    if t = 0 then acc else expSum w x fuel (i + 1) (fxMul w t x / ((i : Int) + 1)) (acc + t)

/-- e^x as a fixed-point significand and a power of three. -/
def fxExp (w : Nat) (x : Int) : Int × Int :=
  let l := fxLn3 w
  let n := nearest x l
  (expSum w (x - n * l) (3 * w + 10) 0 (pow3 w) 0, n)

/-- ln of m * 3^e for m > 0. -/
def fxLn (w : Nat) (m e : Int) : Int :=
  let k := flog3 (2 * m.toNat / 3 + 1)
  -- y = m / 3^k lies between 1/2 and 3
  let y := if w ≥ k then m * pow3 (w - k) else shr m (k - w)
  let z := fxDiv w (y - pow3 w) (y + pow3 w)
  2 * atanh w z + (e + k) * fxLn3 w

/-- Sum of the sine (from t = r) or cosine (from t = 1) series; i is the index of the next factor. -/
def trigSum (w : Nat) (r2 : Int) : Nat → Nat → Int → Int → Int
  | 0, _, _, acc => acc
  | fuel + 1, i, t, acc =>
    if t = 0 then acc
    else trigSum w r2 fuel (i + 2) (- (fxMul w t r2 / (((i : Int) + 1) * ((i : Int) + 2)))) (acc + t)

/-- sin of m * 3^e plus quad quarter turns. -/
def fxSin (w : Nat) (m e : Int) (quad : Int) : Int :=
  let x := if e + w ≥ 0 then m * pow3 (e + w).toNat else shr m (-(e + w)).toNat
  let p2 := fxPi w
  let q := nearest (2 * x) p2
  let r := x - q * p2 / 2
  let r2 := fxMul w r r
  let s := trigSum w r2 (3 * w + 10) 1 r 0
  let c := trigSum w r2 (3 * w + 10) 0 (pow3 w) 0
  let t := (q + quad) % 4
  if t = 0 then s else if t = 1 then c else if t = 2 then -s else -c

/-- Σ (-1)^n x^(2n+1)/(n!(2n+1)). -/
def erfSum (w : Nat) (x2 : Int) : Nat → Nat → Int → Int → Int
  | 0, _, _, acc => acc
  | fuel + 1, n, t, acc =>
    if t = 0 then acc
    else erfSum w x2 fuel (n + 1) (- (fxMul w t x2 / ((n : Int) + 1))) (acc + t / (2 * (n : Int) + 1))

/-- The functions of the enclosure. -/
inductive FnK where
  | exp | exp3 | ln | log3 | sin | cos | tanh | sigm | erf
  deriving DecidableEq, Repr

/-- Fixed-point image of m * 3^e with w fraction trits. -/
def fxOf (w : Nat) (m e : Int) : Int :=
  if e + w ≥ 0 then m * pow3 (e + w).toNat else shr m (-(e + w)).toNat

/-- An approximation a * 3^k of f(m * 3^e) with w fraction trits, off by at most 3^150 units of a. -/
def fxFn (w : Nat) (f : FnK) (m e : Int) : Int × Int :=
  let one := pow3 w
  let back (v : Int × Int) : Int :=
    if v.2 ≥ 0 then v.1 * pow3 v.2.toNat else shr v.1 (-v.2).toNat
  match f with
  | .exp => let v := fxExp w (fxOf w m e); (v.1, v.2 - w)
  | .exp3 => let v := fxExp w (fxMul w (fxOf w m e) (fxLn3 w)); (v.1, v.2 - w)
  | .ln => (fxLn w m e, -(w : Int))
  | .log3 => (fxDiv w (fxLn w m e) (fxLn3 w), -(w : Int))
  | .sin => (fxSin w m e 0, -(w : Int))
  | .cos => (fxSin w m e 1, -(w : Int))
  | .tanh =>
    let a := if m < 0 then -m else m
    let t := back (fxExp w (-2 * fxOf w a e))
    (sgn m * fxDiv w (one - t) (one + t), -(w : Int))
  | .sigm =>
    let t := back (fxExp w (- fxOf w (if m < 0 then -m else m) e))
    (if m ≥ 0 then fxDiv w one (one + t) else fxDiv w t (one + t), -(w : Int))
  | .erf =>
    let x := fxOf w m e
    let rp := Int.ofNat (Nat.sqrt (fxPi w * one).toNat)
    (fxDiv w (2 * erfSum w (fxMul w x x) (8 * w + 400) 0 x 0) rp, -(w : Int))

/-- Rounds by enclosures of growing precision (R209, R211). -/
def roundFn (fm : FmtF) (f : FnK) (m e : Int) : List Nat → Int
  | [] => 0
  | w :: ws =>
    let v := fxFn w f m e
    let lo := roundQ fm (v.1 - pow3 150) 1 v.2
    let hi := roundQ fm (v.1 + pow3 150) 1 v.2
    if lo = hi then lo
    else match ws with
      | [] => roundQ fm v.1 1 v.2
      | _ => roundFn fm f m e ws

/-- |m * 3^e| ≥ b. -/
def absGe (m e b : Int) : Bool := leScaled b 1 0 m.natAbs e

def precisions : List Nat := [600, 1200, 3000]

/-- The exact square root of p / q * 3^k for p, q > 0, as 2r + 1 halves, or r when exact: no rounding
boundary of either format lies strictly between two neighbouring r (R209). -/
def sqrtQ (p q k : Int) : Int × Int × Int :=
  -- p/q*3^k = (p * 3^(k mod 2) / q) * 9^(k div 2); 130 further pairs of trits
  let p1 := if k % 2 = 0 then p else 3 * p
  let k1 := k / 2
  let n := 4 * p1 * pow3 600
  let r := Int.ofNat (Nat.sqrt (n / q).toNat)
  if r * r * q = n then (r, 2, k1 - 300) else (2 * r + 1, 4, k1 - 300)

/-- FDIV (R209, R210). -/
def divV (fm : FmtF) : FVal → FVal → Int
  | .nan, _ => nanF fm
  | _, .nan => nanF fm
  | .inf _, .inf _ => nanF fm
  | .inf s, .fin n _ => if n = 0 then nanF fm else infF fm (s * sgn n)
  | .fin _ _, .inf _ => 0
  | .fin m e, .fin n g =>
    if n = 0 then nanF fm else roundQ fm (m * sgn n) n.natAbs (e - g)

/-- FSQRT and FRSQ (R209, R210). -/
def sqrtV (fm : FmtF) : FVal → Int
  | .nan => nanF fm
  | .inf s => if s > 0 then infF fm 1 else nanF fm
  | .fin m e =>
    if m < 0 then nanF fm else if m = 0 then 0
    else let r := sqrtQ m 1 e; roundQ fm r.1 r.2.1 r.2.2
def rsqV (fm : FmtF) : FVal → Int
  | .nan => nanF fm
  | .inf s => if s > 0 then 0 else nanF fm
  | .fin m e =>
    if m < 0 then nanF fm else if m = 0 then infF fm 1
    else let r := sqrtQ 1 m (-e); roundQ fm r.1 r.2.1 r.2.2

/-- Whether m is a power of three, and which. -/
def pow3Log (m : Int) : Option Nat :=
  let k := flog3 m.toNat
  if m = pow3 k then some k else none

/-- FEXP through FERF on an operand value (R209, R210). -/
def fnV (fm : FmtF) (f : FnK) : FVal → Int
  | .nan => nanF fm
  | .inf s =>
    match f with
    | .exp => if s > 0 then infF fm 1 else 0
    | .exp3 => if s > 0 then infF fm 1 else 0
    | .sigm => if s > 0 then roundQ fm 1 1 0 else 0
    | .ln => if s > 0 then infF fm 1 else nanF fm
    | .log3 => if s > 0 then infF fm 1 else nanF fm
    | .sin => nanF fm
    | .cos => nanF fm
    | .tanh => roundQ fm s 1 0
    | .erf => roundQ fm s 1 0
  | .fin m e =>
    match f with
    | .exp =>
      if m = 0 then roundQ fm 1 1 0
      else if absGe m e 400 then (if m > 0 then infF fm 1 else 0)
      else roundFn fm .exp m e precisions
    | .exp3 =>
      if m = 0 then roundQ fm 1 1 0
      else if absGe m e 400 then (if m > 0 then infF fm 1 else 0)
      else if e ≥ 0 then roundQ fm 1 1 (m * pow3 e.toNat)
      else if wrap m (-e).toNat = 0 then roundQ fm 1 1 (shr m (-e).toNat)
      else roundFn fm .exp3 m e precisions
    | .ln =>
      if m < 0 then nanF fm else if m = 0 then infF fm (-1)
      else if pow3Log m = some (-e).toNat ∧ e ≤ 0 then 0
      else roundFn fm .ln m e precisions
    | .log3 =>
      if m < 0 then nanF fm else if m = 0 then infF fm (-1)
      else match pow3Log m with
        | some k => roundQ fm (k + e) 1 0
        | none => roundFn fm .log3 m e precisions
    | .sin => if m = 0 then 0 else roundFn fm .sin m e precisions
    | .cos => if m = 0 then roundQ fm 1 1 0 else roundFn fm .cos m e precisions
    | .tanh =>
      if m = 0 then 0 else if absGe m e 60 then roundQ fm (sgn m) 1 0
      else roundFn fm .tanh m e precisions
    | .sigm =>
      if m = 0 then roundQ fm 1 2 0
      else if absGe m e 400 then (if m > 0 then roundQ fm 1 1 0 else 0)
      else roundFn fm .sigm m e precisions
    | .erf =>
      if m = 0 then 0 else if absGe m e 9 then roundQ fm (sgn m) 1 0
      else roundFn fm .erf m e precisions

end Sys2Proof.Machine
end

