-- ==== Sys2Proof/Machine/FloatOps.lean ====
section
/-! DEFINITION. Float instructions, rows 5 to 7 (R197-R212). -/

namespace Sys2Proof.Machine

/-- The parts of an operand format (R197). -/
def fparts (f : FFmt) (x : Int) : List Int :=
  match f with
  | .word => [x]
  | .s9 => [part x 0]
  | .t3 => [part x 0, part x 1, part x 2]
def ffmt : FFmt → FmtF
  | .word => f27
  | _ => f9
/-- A word from the parts of a result (R197). -/
def fjoin (ys : List Int) : Int := ofParts (ys.getD 0 0) (ys.getD 1 0) (ys.getD 2 0)

/-- A float operation on the parts of up to three words: encodings in, encodings out. -/
def floatOp (f : FFmt) (op : FmtF → Int → Int → Int → Int) (a b c : Int) : Int :=
  match f with
  | .word => op f27 a b c
  | .s9 => op f9 (part a 0) (part b 0) (part c 0)
  | .t3 => ofParts (op f9 (part a 0) (part b 0) (part c 0)) (op f9 (part a 1) (part b 1) (part c 1))
      (op f9 (part a 2) (part b 2) (part c 2))

def falu (h : Hdr) (f : FFmt) (op : FmtF → Int → Int → Int → Int) (d : Nat) (fs : List Nat) (s : State) : R :=
  .next (s.perLane h { src := fs, dst := [d] } (opW d (fun v => floatOp f op (arg v 0) (arg v 1) (arg v 2))))

/-- FADD (R201, R202). -/
def execFadd (h : Hdr) (f : FFmt) (d a b : Nat) (s : State) : R :=
  falu h f (fun m x y _ => roundF m (addV (valF m x) (valF m y))) d [a, b] s
/-- FSUB (R201, R202). -/
def execFsub (h : Hdr) (f : FFmt) (d a b : Nat) (s : State) : R :=
  falu h f (fun m x y _ => roundF m (addV (valF m x) (negV (valF m y)))) d [a, b] s
/-- FMUL (R201, R202). -/
def execFmul (h : Hdr) (f : FFmt) (d a b : Nat) (s : State) : R :=
  falu h f (fun m x y _ => roundF m (mulV (valF m x) (valF m y))) d [a, b] s
/-- FFMA (R201, R202). -/
def execFfma (h : Hdr) (f : FFmt) (d a b c : Nat) (s : State) : R :=
  falu h f (fun m x y z => roundF m (addV (mulV (valF m x) (valF m y)) (valF m z))) d [a, b, c] s
/-- FMIN (R203). -/
def execFmin (h : Hdr) (f : FFmt) (d a b : Nat) (s : State) : R :=
  falu h f (fun m x y _ => roundF m (minV (valF m x) (valF m y))) d [a, b] s
/-- FMAX (R203). -/
def execFmax (h : Hdr) (f : FFmt) (d a b : Nat) (s : State) : R :=
  falu h f (fun m x y _ => roundF m (maxV (valF m x) (valF m y))) d [a, b] s
/-- FNEG (R204). -/
def execFneg (h : Hdr) (f : FFmt) (d a : Nat) (s : State) : R :=
  falu h f (fun m x _ _ => roundF m (negV (valF m x))) d [a] s
/-- FABS (R204). -/
def execFabs (h : Hdr) (f : FFmt) (d a : Nat) (s : State) : R :=
  falu h f (fun m x _ _ => roundF m (absV (valF m x))) d [a] s
/-- FSCL (R201): K is the part of b plus IMM; .s9 reads tryte 0. -/
def execFscl (h : Hdr) (f : FFmt) (d a b : Nat) (imm : Int) (s : State) : R :=
  falu h f (fun m x y _ => roundF m (scaleV (y + imm) (valF m x))) d [a, b] s
/-- FCLASS (R206). -/
def execFclass (h : Hdr) (f : FFmt) (d a : Nat) (s : State) : R := falu h f (fun m x _ _ => classF m x) d [a] s
/-- FRND (R207). -/
def execFrnd (h : Hdr) (f : FFmt) (d a : Nat) (imm : Int) (s : State) : R :=
  falu h f (fun m x _ _ => roundF m (rndV imm (valF m x))) d [a] s
/-- FCVT.f9 (R208). -/
def execFcvtF9 (h : Hdr) (d a : Nat) (s : State) : R := falu h .word (fun _ x _ _ => roundF f9 (valF f27 x)) d [a] s
/-- FCVT.f27 (R208). -/
def execFcvtF27 (h : Hdr) (d a : Nat) (s : State) : R :=
  falu h .word (fun _ x _ _ => roundF f27 (valF f9 (part x 0))) d [a] s
/-- FCMP (R205). -/
def execFcmp (h : Hdr) (f : FFmt) (d a b : Nat) (s : State) : R :=
  .next (s.perLane h { src := [a, b], preds := (List.range (if f = .t3 then 6 else 2)).map (d + ·) } (fun _ _ v =>
    { wr := ((List.zip (fparts f (arg v 0)) (fparts f (arg v 1))).zipIdx).flatMap (fun x =>
        let r := fcmpTrits (valF (ffmt f) x.1.1) (valF (ffmt f) x.1.2)
        [.pred (d + 2 * x.2) r.1, .pred (d + 2 * x.2 + 1) r.2]) }))

/-- A row-7 form: it retires when it issues and its result follows (R211, R212); a result to a port is
pushed at issue. -/
def ffun (h : Hdr) (f : FFmt) (op : FmtF → Int → Int → Int → Int) (d : Nat) (fs : List Nat) (s : State) : R :=
  .next (s.perLane h { src := fs, dst := [d] } (fun _ _ v =>
    let y := floatOp f op (arg v 0) (arg v 1) (arg v 2)
    { wr := [if d < 216 then .owe d y else wrW d y] }))

/-- FDIV (R209, R210). -/
def execFdiv (h : Hdr) (f : FFmt) (d a b : Nat) (s : State) : R :=
  ffun h f (fun m x y _ => divV m (valF m x) (valF m y)) d [a, b] s
/-- FRCP (R209, R210). -/
def execFrcp (h : Hdr) (f : FFmt) (d a : Nat) (s : State) : R :=
  ffun h f (fun m x _ _ => divV m (.fin 1 0) (valF m x)) d [a] s
/-- FSQRT (R209, R210). -/
def execFsqrt (h : Hdr) (f : FFmt) (d a : Nat) (s : State) : R := ffun h f (fun m x _ _ => sqrtV m (valF m x)) d [a] s
/-- FRSQ (R209, R210). -/
def execFrsq (h : Hdr) (f : FFmt) (d a : Nat) (s : State) : R := ffun h f (fun m x _ _ => rsqV m (valF m x)) d [a] s
/-- FEXP (R209, R210). -/
def execFexp (h : Hdr) (f : FFmt) (d a : Nat) (s : State) : R := ffun h f (fun m x _ _ => fnV m .exp (valF m x)) d [a] s
/-- FEXP3 (R209, R210). -/
def execFexp3 (h : Hdr) (f : FFmt) (d a : Nat) (s : State) : R := ffun h f (fun m x _ _ => fnV m .exp3 (valF m x)) d [a] s
/-- FLOG (R209, R210). -/
def execFlog (h : Hdr) (f : FFmt) (d a : Nat) (s : State) : R := ffun h f (fun m x _ _ => fnV m .ln (valF m x)) d [a] s
/-- FLOG3 (R209, R210). -/
def execFlog3 (h : Hdr) (f : FFmt) (d a : Nat) (s : State) : R := ffun h f (fun m x _ _ => fnV m .log3 (valF m x)) d [a] s
/-- FSIN (R209, R210). -/
def execFsin (h : Hdr) (f : FFmt) (d a : Nat) (s : State) : R := ffun h f (fun m x _ _ => fnV m .sin (valF m x)) d [a] s
/-- FCOS (R209, R210). -/
def execFcos (h : Hdr) (f : FFmt) (d a : Nat) (s : State) : R := ffun h f (fun m x _ _ => fnV m .cos (valF m x)) d [a] s
/-- FTANH (R209, R210). -/
def execFtanh (h : Hdr) (f : FFmt) (d a : Nat) (s : State) : R := ffun h f (fun m x _ _ => fnV m .tanh (valF m x)) d [a] s
/-- FSIGM (R209, R210). -/
def execFsigm (h : Hdr) (f : FFmt) (d a : Nat) (s : State) : R := ffun h f (fun m x _ _ => fnV m .sigm (valF m x)) d [a] s
/-- FERF (R209, R210). -/
def execFerf (h : Hdr) (f : FFmt) (d a : Nat) (s : State) : R := ffun h f (fun m x _ _ => fnV m .erf (valF m x)) d [a] s

/-- FUNCTION_RESULT_WRITE: the oldest owed result of a warp is written (R211), and a trap that waited for it
may be delivered (R212). -/
def execFunctionResultWrite (w : Nat) (s : State) : R :=
  let x := s.warp w
  match x.owed with
  | o :: os => .next (((s.setReg o.thr o.d o.val).setWarp w { x with owed := os }).settle w)
  | [] => .next s

end Sys2Proof.Machine
end

