-- ==== Sys2Proof/Machine/Phase.lean ====
section
/-! DEFINITION. Phases of deterministic contexts, row 18 (R361-R365). -/

namespace Sys2Proof.Machine

/-- PHASE (R364): each active thread closes and waits. -/
def execPhase (h : Hdr) (s : State) : R :=
  .next (s.issue h { forbid := true } (fun act s =>
    if !(s.launchOf s.cur.warp).det then s.faultAll act 0 0
    else (s.curThreads act).foldl (fun a t => (a.closePhase t).waitLane t .phase) s))

/-- The threads of a resident or a saved block that have not exited, without the Scribe's: by wid * 16 + lane. -/
def State.blockThreads (s : State) (ctx bid : Nat) : Option (List Nat) :=
  let live (ts : Tab Thread) : List Nat :=
    ((ts.filter (fun p => decide (p.2.st ≠ .exited) && decide (p.1 % 448 < 432))).map (fun p => p.1 % 448))
  match Tab.find (s.ctx ctx).blk bid with
  | some .ended => some []
  | some (.placed c) => some (live (s.thr.filter (fun p => decide (p.1 / 448 = c))))
  | some (.saving c _) => some (live (s.thr.filter (fun p => decide (p.1 / 448 = c))))
  | _ => (Tab.find (s.ctx ctx).saved bid).map (fun y => live y.thr)
/-- Whether a block has closed the phase (R363). -/
def State.blockClosed (s : State) (ctx bid : Nat) : Bool :=
  match s.blockThreads ctx bid with
  | some ts => ts.all (fun t => (s.ctx ctx).closed.contains (bid, t))
  | none => false
/-- A block's phase-buffer entries. -/
def State.blockEnts (s : State) (ctx bid : Nat) : List PEnt :=
  Tab.get [] (s.ctx ctx).pend bid ++ (match s.coreOfBlk ctx bid, Tab.find (s.ctx ctx).saved bid with
    | some c, _ => (s.core c).pbuf
    | none, some y => y.core.pbuf
    | none, none => [])
/-- The launch index of an entry's warp. -/
def PEnt.idx : PEnt → Nat
  | .store i .. => i
  | .red i .. => i
/-- Entries by warp launch index, each warp's in the order of creation (R362). -/
def inWarpOrder (es : List PEnt) : List PEnt :=
  (List.range 1024).flatMap (fun i => es.filter (fun e => decide (e.idx = i)))

/-- The address of an entry. -/
def PEnt.ea : PEnt → Int
  | .store _ _ k .. => 27 * k
  | .red _ _ a .. => a
/-- Whether an entry cannot be corrected. -/
def PEnt.lost : PEnt → Bool
  | .store _ _ _ _ x => x
  | .red _ _ _ _ _ _ x => x
/-- The warp slot of an entry. -/
def PEnt.warp : PEnt → Nat
  | .store _ w .. => w
  | .red _ w .. => w
/-- An entry that cannot be corrected is read as zero; DATA is counted and set in its warp (R438). -/
def State.lostEnt (s : State) (ctx core : Nat) (e : PEnt) : State :=
  if !e.lost then s
  else (if (s.warp e.warp).idx = e.idx ∧ (s.warp e.warp).ctx = ctx then threadsOf e.warp else []).foldl (fun a t => a.defer t 17 0)
    (s.count ctx (dieIdx core) 39 1)
/-- One update at its home (R362); one whose page is gone is dropped as a deferred write-back is (R436). -/
def State.applyEnt (s0 : State) (ctx core : Nat) (e : PEnt) : State × Int :=
  let s := s0.lostEnt ctx core e
  let own := ownerOf e.ea
  let p := s.translate own ctx core (offOf e.ea)
  let drop (m : Bool) : State × Int := (((p.1.count ctx (dieIdx core) 44 1).wbfRec ctx own core 0 0 e.ea 0 m), 0)
  match p.2 with
  | .miss m => drop m
  | .leaf l =>
    if !l.w ∨ l.cmp then drop false
    else
      let pa := l.phys (offOf e.ea)
      match e with
      | .store _ _ _ tr x =>
        let w := p.1.wOf own (lineOf pa)
        ((p.1.homePut own false ctx (tr.map (fun q => (pa + (unKey q.1 - e.ea), if x then 0 else q.2))) (l.slices own)).wrote own (lineOf pa), w)
      | .red _ _ _ op sz v x =>
        let f := p.1.fillFor own (covers sz pa) false ctx (dieIdx core) (l.slices own)
        f.1.homeStore own ctx pa sz (atomOp op sz (f.1.homeVal own pa sz) (if x then 0 else v)) (l.slices own)
def State.applyEnts (s : State) (ctx core : Nat) (w : Int) : List PEnt → State × Int
  | [] => (s, w)
  | e :: es =>
    let r := s.applyEnt ctx core e
    State.applyEnts r.1 ctx core (max w r.2) es
/-- Every block's updates in ascending bid, and the buffers are empty. What a thread has buffered after it closed with BARA is
among them (R365; DESIGN CHOICE, log 69). -/
def State.applyPhase (s : State) (ctx : Nat) : State × Int :=
  let x := s.ctx ctx
  let r := (List.range x.lr.blocks).foldl (fun (a : State × Int) bid =>
    let c := (a.1.coreOfBlk ctx bid).getD ((x.lr.dies.headD 0) * 81)
    a.1.applyEnts ctx c a.2 (inWarpOrder (a.1.blockEnts ctx bid))) (s, 0)
  let y := r.1.ctx ctx
  let s1 := r.1.setCtx ctx { y with pend := [], saved := y.saved.map (fun p => (p.1, { p.2 with core := { p.2.core with pbuf := [] } })) }
  ((List.range x.lr.blocks).foldl (fun a bid => match a.coreOfBlk ctx bid with
    | some c => a.setCore c { a.core c with pbuf := [] }
    | none => a) s1, r.2)
/-- The launch's widest scope (R363), which the spec does not define: the domain for a launch with a domain key, the package for
one on several dies, else the die (DESIGN CHOICE, log 70). -/
def launchScope (lr : Launch) : Scope := if lr.dkey ≠ 0 then .domain else if 1 < lr.dies.length then .pkg else .die
/-- Every waiting warp enters the next phase (R363); one of a saved block does when it resumes. -/
def State.nextPhase (s : State) (ctx : Nat) : State :=
  let x := s.ctx ctx
  let go (t : Thread) : Thread := if t.wait = .phase then { t with pc := t.next, wait := .none_, prior := .runnable } else t
  let s1 := s.setCtx ctx { x with closed := [], phaseNo := x.phaseNo + 1, phaseApplied := false, phaseW := 0
                                  saved := x.saved.map (fun p => (p.1, { p.2 with thr := p.2.thr.map (fun q => (q.1, go q.2)) })) }
  let ts := (s.thr.filter (fun p => decide (p.2.wait = .phase) && decide ((s.warp (warpOf p.1)).ctx = ctx))).map (·.1)
  let s2 := ts.foldl (fun a t => (a.endWait t).stepTrap (warpOf t) [t % 16]) s1
  (ts.map warpOf).dedup.foldl (fun a w => a.settle w) s2

/-- A load of a phased line is still to be served, or a copy of one in progress: it returns the value at the start of the phase
(R358). -/
def State.phaseReads (s : State) (ctx : Nat) : Bool :=
  s.reqs.any (fun r => decide (r.ctx = ctx) && (match r.kind with
    | .load .. => (r.ea :: r.ea2.toList).any (fun a => decide (s.shared ctx a = some 1))
    | _ => false))
  || s.cor.any (fun q => decide (q.2.blk.map (·.1) = some ctx) && q.2.copies.any (fun x => decide (s.shared ctx x.src = some 1) && x.idxPort.isNone))
/-- The loads of every warp that waits for the phase's end have returned: it is released acquire-ordered (R363). -/
def State.phaseAcquired (s : State) (ctx : Nat) : Bool :=
  s.thr.all (fun p => decide (p.2.wait ≠ .phase) || decide ((s.warp (warpOf p.1)).ctx ≠ ctx) || s.loadsDone (warpOf p.1))
/-- An ordered atomic of the phase to an ordered range has not been performed (R363). -/
def State.orderedOut (s : State) (ctx : Nat) : Bool :=
  s.reqs.any (fun r => decide (r.ctx = ctx) && decide (s.shared ctx r.ea = some (-1)) && (match r.kind, r.stage with
    | .atomo .., .reply _ _ => false
    | .atomo .., _ => true
    | _, _ => false))
/-- PHASE_END (R362, R363): once every block has closed, the updates are applied; once the dies' counts have reached their
latest W and the guard, the warps are released. -/
def execPhaseEnd (ctx : Nat) (s : State) : R :=
  let x := s.ctx ctx
  if x.phaseApplied then
    if x.lr.dies.all (fun d => decide (x.phaseW ≤ (s.dieSt (s.ownKey d)).clk)) && s.phaseAcquired ctx then .next (s.nextPhase ctx) else .next s
  else if !x.lr.det ∨ !x.live ∨ (x.closed.isEmpty ∧ x.pend.isEmpty) ∨ !((List.range x.lr.blocks).all (s.blockClosed ctx)) then .next s
  else if s.orderedOut ctx || s.phaseReads ctx then .next s
  else
    let r := s.applyPhase ctx
    .next (r.1.setCtx ctx { r.1.ctx ctx with phaseApplied := true, phaseW := max x.phaseW r.2 + s.guard (launchScope x.lr) })

end Sys2Proof.Machine
end

