-- ==== Sys2Proof/Machine/Scribe.lean ====
section
/-! DEFINITION. The Scribe (R340-R344): SCRB with its validation, SCRH, SLOOP, and the program's end. -/

namespace Sys2Proof.Machine

/-! Validation (R341). -/

/-- The W sources and destinations of a form of rows 0 to 4. -/
def rowSrcs : Instr → List Nat
  | .add _ _ _ _ a b => [a, b] | .addi _ _ _ _ _ a _ => [a] | .sub _ _ _ _ a b => [a, b]
  | .neg _ _ _ a => [a] | .abs _ _ _ a => [a] | .sgn _ _ _ a => [a]
  | .mul _ _ _ _ a b => [a, b] | .mulh _ _ _ a b => [a, b] | .mulw _ _ a b => [a, b] | .mad _ _ _ _ a b c => [a, b, c]
  | .div _ _ _ a b => [a, b] | .rem _ _ _ a b => [a, b] | .min _ _ _ a b => [a, b] | .max _ _ _ a b => [a, b]
  | .clamp _ _ _ a b c => [a, b, c] | .addx _ _ a b => [a, b] | .subx _ _ a b => [a, b] | .lea _ _ m => [m.a, m.b]
  | .cmp _ _ _ _ a b => [a, b] | .cmpi _ _ _ a _ => [a]
  | .tand _ _ a b => [a, b] | .tor _ _ a b => [a, b] | .tsum _ _ a b => [a, b] | .tmult _ _ a b => [a, b] | .tcons _ _ a b => [a, b]
  | .shl _ _ _ a (.reg b) => [a, b] | .shl _ _ _ a (.imm _) => [a] | .shr _ _ _ a (.reg b) => [a, b] | .shr _ _ _ a (.imm _) => [a]
  | .rot _ _ _ a (.reg b) => [a, b] | .rot _ _ _ a (.imm _) => [a]
  | .fext _ _ a _ _ => [a] | .fins _ _ a b _ _ => [a, b] | .tcnt _ _ _ a => [a] | .tlz _ _ a => [a] | .trev _ _ a => [a]
  | .mov _ _ _ a => [a] | .sel3 _ _ _ a b c => [a, b, c] | .psetTrit _ _ a _ => [a] | .pmovFw _ _ a => [a]
  | .cvt _ _ _ _ _ a => [a] | .cvtf _ _ _ _ _ a => [a] | .rng _ _ a b => [a, b]
  | _ => []
def rowDst : Instr → Option Nat
  | .add _ _ _ d _ _ => some d | .addi _ _ _ _ d _ _ => some d | .sub _ _ _ d _ _ => some d
  | .neg _ _ d _ => some d | .abs _ _ d _ => some d | .sgn _ _ d _ => some d
  | .mul _ _ _ d _ _ => some d | .mulh _ _ d _ _ => some d | .mulw _ d _ _ => some d | .mad _ _ _ d _ _ _ => some d
  | .div _ _ d _ _ => some d | .rem _ _ d _ _ => some d | .min _ _ d _ _ => some d | .max _ _ d _ _ => some d
  | .clamp _ _ d _ _ _ => some d | .addx _ d _ _ => some d | .subx _ d _ _ => some d | .lea _ d _ => some d
  | .tand _ d _ _ => some d | .tor _ d _ _ => some d | .tsum _ d _ _ => some d | .tmult _ d _ _ => some d | .tcons _ d _ _ => some d
  | .shl _ _ d _ _ => some d | .shr _ _ d _ _ => some d | .rot _ _ d _ _ => some d
  | .fext _ d _ _ _ => some d | .fins _ d _ _ _ _ => some d | .tcnt _ _ d _ => some d | .tlz _ d _ => some d | .trev _ d _ => some d
  | .mov _ _ d _ => some d | .movi _ _ d _ => some d | .sel3 _ _ d _ _ _ => some d | .pmovTw _ d _ => some d
  | .cvt _ _ _ _ d _ => some d | .cvtf _ _ _ _ d _ => some d | .rng _ d _ _ => some d
  | _ => none
/-- Whether a unit is one that the Scribe executes; SLOOP's nesting is checked apart. -/
def scribeForm (i : Instr) : Bool :=
  match i, hdr i with
  | .movNb .., _ => false
  | .ld _ _ o .., some h => h.pxs.isNone && ordLoad o.ord
  | .ldb _ _ _ _ o .., some h => h.pxs.isNone && ordLoad o.ord
  | .sloop h .., _ => decide (h.gcond = 0)
  | .exit _, _ => true
  | .nop _, _ => true
  | _, some h =>
    (match rawOf i with
     | some r => decide (r.op < 135)
     | none => false)
    && h.pxi.isNone && h.pxs.isNone && (rowSrcs i).all (fun r => !isPort r)
    && (rowDst i).all (fun d => !isPort d || decide (d = 227) || decide (d = 228))
  | _, none => false
/-- Validation of the units from an index on, inside the bodies that end at `ends`, innermost first (R341). -/
def scribeOk (stop : Int) : Nat → Int → List Int → List Int → Bool
  | 0, _, _, _ => true
  | f + 1, n, us, ends =>
    if us.isEmpty then true
    else
      let open_ := ends.filter (fun e => decide (n < e))
      match decodeUnit n us with
      | .error _ => false
      | .ok (i, k) =>
        scribeForm i && open_.all (fun e => decide (n + (k : Int) ≤ e))
        && (match i with
            | .sloop _ _ _ len =>
              let e := n + 1 + (len : Int)
              decide (e ≤ stop) && open_.all (fun q => decide (e ≤ q)) && decide (open_.length < 3)
                && scribeOk stop f (n + 1) (us.drop 1) (e :: open_)
            | _ => scribeOk stop f (n + (k : Int)) (us.drop k) open_)

/-! The program (R340, R342). -/

/-- Takes the program's units from the lines at hand, in order; none when its next line must be fetched. -/
def State.gather (s : State) (c : Nat) (start : Int) (len : Nat) : Nat → List Int → State × List Int
  | 0, us => (s, us)
  | f + 1, us =>
    let n := start + (us.length : Int)
    if len ≤ us.length then (s, us)
    else match s.icLine c (codeLine n) with
      | none => (s, us)
      | some l => State.gather (s.touchLine c (codeLine n)) c start len f (us ++ (l.units.drop (codeSlot n)).take (len - us.length))
/-- The Scribe slot's warp of a core. -/
def scribeWarp (c : Nat) : Nat := c * 28 + 27
/-- The program starts: one warp of 16 threads with w0 and w1 (R342). -/
def State.scribeStart (s : State) (c : Nat) (w0 w1 : Int) : State :=
  let k := s.core c
  let blk := k.blk.getD (0, 0)
  let w := scribeWarp c
  let x : Warp := { ctx := blk.1, bid := blk.2, idx := 27, spawned := true, n := 9 * k.scribe.grans, pl := if isSup blk.1 then 1 else -1 }
  let s1 := (s.setWarp w x).setCore c { k with scribe := { k.scribe with state := 2 } }
  (threadsOf w).foldl (fun a t =>
    a.setThread t { pc := k.scribe.start, st := .runnable, regs := Tab.set 0 0 w0 (Tab.set 0 1 w1 []), stamp := s.stamp }) s1
/-- SCRB (R340). Its group issues it again after each wait: for a running program, for the allocation, for each line. -/
def execScrb (h : Hdr) (a b len g : Nat) (imm : Int) (s : State) : R :=
  .next (s.perGroup h { srcR := [a, b], forbid := true } (fun act t s =>
    let w := s.cur.warp
    let c := coreOf w
    let k := s.core c
    let q := k.scribe
    let n0 := s.cur.n + imm
    if !deviceIndex n0 then s.faultAll act 6 0
    else if q.state = 0 ∧ !(Tab.find s.wrp (scribeWarp c)).isSome then
      ((s.setCore c { k with scribe := { state := 1, warp := w, lanes := act, start := n0, len := len, grans := g } }).waitAll act .claim).claim c
        { by_ := .scribe w, words := 144 * g }
    else if q.state = 1 ∧ q.warp = w ∧ q.alloc ∧ act.any (q.lanes.contains ·) then
      let p := s.gather c n0 len 30 q.units
      let us := p.2
      let s1 := p.1.setCore c { p.1.core c with scribe := { q with units := us } }
      let back (a : State) : State := (a.setCore c { a.core c with scribe := {} }).regrant c
      if us.length < len then
        let line := codeLine (n0 + (us.length : Int))
        if spaceOf (81 * line) ≠ 1 ∨ !s.ownerOk (81 * line) then (back s1).faultAll act 6 0
        else (act.foldl (fun x l =>
            let y := x.thread (threadOf w l)
            x.setThread (threadOf w l) { y with st := .runnable, wait := .none_ }) s1).askLine w act s.cur.first line
      else if !scribeOk (n0 + (len : Int)) 243 n0 us [] then (back s1).faultAll act 0 0
      else (s1.scribeStart c (s.reg t a) (s.reg t b)).retireAll act
    else s.waitAll act (.reissue (.queue []) false)))

/-- A running program ends: its allocation is freed and the slot leaves (R342). -/
def State.scribeEnd (s : State) (c : Nat) : State :=
  let k := s.core c
  ((s.setCore c { k with scribe := {} }).freeWarp (scribeWarp c)).regrant c
/-- SCRIBE_PROGRAM_END (R342): every thread of the program has exited. -/
def execScribeProgramEnd (c : Nat) (s : State) : R :=
  if (s.core c).scribe.state = 2 ∧ (threadsOf (scribeWarp c)).all (fun t => decide ((s.thread t).st = .exited)) then .next (s.scribeEnd c)
  else .next s

/-- The Scribe's status (R344): stopped by a trap until its warp has left the handler. -/
def State.scribeStatus (s : State) (c : Nat) : Int :=
  let w := scribeWarp c
  let st := (s.core c).scribe.state
  let live := (threadsOf w).filter (fun t => decide ((s.thread t).st ≠ .exited))
  let trapped := (s.warp w).stopping || (s.warp w).hm || live.any (fun t => decide ((s.thread t).st = .stopped))
  if st = 2 then oAt (if trapped then 3 else 2) 2 25 + (live.length : Int) else oAt st 2 25
/-- SCRH (R344). -/
def execScrh (h : Hdr) (d : Nat) (s : State) : R :=
  .next (s.perLane h { dstR := [d], forbid := true } (fun s t _ => { wr := [.reg d (s.scribeStatus (coreOf (warpOf t)))] }))
/-- .stop: the program's threads exit and what they wait for is discarded; a program that is still being loaded is given
up, and its SCRB starts again (R344). -/
def State.scribeStop (s : State) (c : Nat) : State :=
  let k := s.core c
  let w := scribeWarp c
  if k.scribe.state = 2 then
    let s1 := (threadsOf w).foldl (fun a t => a.endThread t) { s with reqs := s.reqs.filter (fun r => decide (r.warp ≠ w) || decide (r.lane = 16)) }
    (s1.setWarp w { s1.warp w with out := [] }).scribeEnd c
  else if k.scribe.state = 1 then
    let s1 := s.setCore c { k with scribe := {}, claims := k.claims.filter (fun q => match q.by_ with
      | .scribe _ => false
      | _ => true) }
    ((k.scribe.lanes.map (threadOf k.scribe.warp)).foldl (fun a t =>
      let x := a.thread t
      if x.wait = .claim then a.setThread t { x with wait := .reissue (.queue []) false } else a) s1).regrant c
  else s
/-- SCRH.stop (R344). -/
def execScrhStop (h : Hdr) (d : Nat) (s : State) : R :=
  .next (s.issue h { dstR := [d], forbid := true } (fun act s =>
    let c := coreOf s.cur.warp
    let s1 := s.scribeStop c
    (s1.curThreads act).foldl (fun a t => (a.retire t s.cur.next).setReg t d (s1.scribeStatus c)) s1))

/-- SLOOP (R343): each lane enters the body with the group's count, or goes on after it. One that a trap handler on the Scribe slot
executes enters its loop like any other: the loop does not repeat before TRET (R342), and stands on the list (DESIGN CHOICE, log 76). -/
def execSloop (h : Hdr) (a : Nat) (k : Int) (len : Nat) (s : State) : R :=
  .next (s.perGroup h { srcR := [a], sloop := true, forbid := true } (fun act t s =>
    if widOf s.cur.warp ≠ 27 then s.faultAll act 0 0
    else
      let c := s.reg t a + k
      let n := s.cur.next
      (s.curThreads act).foldl (fun x q =>
        if c ≤ 0 then x.retire q (n + (len : Int))
        else
          let y := x.thread q
          (x.setThread q { y with loops := { start := n, stop := n + (len : Int), left := c } :: y.loops }).retire q n) s))

end Sys2Proof.Machine
end

