-- ==== Sys2Proof/Machine/Priv.lean ====
section
/-! DEFINITION. Row 19's own registers and handler forms (R395-R408), and the rows of trap delivery. -/

namespace Sys2Proof.Machine

/-! Control registers (R396, R397). -/

/-- IDENT: family 1, part 9, stepping 1. -/
def identWord : Int := 387597637
/-- The die that XSEL names for a core: 13 is the own die. -/
def xselDie (x : Int) (c : Nat) : Nat := if offF x 6 3 = 13 then dieIdx c else offF x 6 3
/-- The context that a thread's access reaches: its own, or the one of its partition that XSEL names; none when that
does not exist. -/
def State.csrCtx (s : State) (t : Nat) : Option Nat :=
  let w := s.warp (warpOf t)
  let k := wrap w.xsel 6
  if !isSup w.ctx ∨ k = 0 then some w.ctx
  else if (s.ctx k.toNat).live ∧ (s.ctx k.toNat).part = (s.ctx w.ctx).part then some k.toNat
  else none
def State.csrDie (s : State) (t : Nat) : Nat :=
  let w := s.warp (warpOf t)
  if isSup w.ctx then xselDie w.xsel (coreOf (warpOf t)) else dieIdx (coreOf (warpOf t))
/-- A context-scope register. -/
def ctxCsr (x : Ctx) (die n : Nat) : Int :=
  if n = 9 then x.tmask else if n = 10 then x.tvec else if n = 11 then x.hsave else if n = 12 then x.ftbase
  else if n = 13 then x.ftlen else if n = 14 then x.decbase else if n = 15 then pair x.k0 x.k1 else if n = 17 then x.dbg
  else if n = 18 then x.waddr else if n = 19 then x.savebase else Tab.get 0 x.counters (die * 16 + (n - 36))
/-- A control register as a thread reads it. -/
def State.csr (s : State) (t n : Nat) : Int :=
  let x := s.thread t
  let w := s.warp (warpOf t)
  if n = 0 then x.cause else if n = 1 then x.epc else if n = 2 then x.emr else if n = 3 then x.einfo
  else if n = 4 then x.eaddr else if n = 5 then x.hscr0 else if n = 6 then x.hscr1
  else if n = 16 then recCtx w.ctx
  else if n = 27 then w.xsel
  else if n = 28 then (s.part (s.ctx w.ctx).part).hangth
  else if n = 29 then (s.dieSt (s.ownKey (s.csrDie t))).budgF
  else if n = 30 then identWord
  else match s.csrCtx t with
    | some c => ctxCsr (s.ctx c) (s.csrDie t) n
    | none => 0
/-- CSRR (R396). -/
def execCsrr (h : Hdr) (d n : Nat) (s : State) : R :=
  match csrInfo n with
  | none => .next s
  | some i =>
    let lv : Level3 := if i.read = .handler then .handler else .sup
    if i.isPair then .next (s.perLane h { dstP := [d], level := lv, forbid := true } (fun s t _ => { wr := [.pair d (s.csr t n)] }))
    else .next (s.perLane h { dstR := [d], level := lv, forbid := true } (fun s t _ => { wr := [.reg d (s.csr t n)] }))

/-- Whether a value lies within the stated ranges of a register's fields. -/
def csrOk (n : Nat) (v : Int) : Bool :=
  if n = 1 then decide (fld v 52 2 = 0)
  else if n = 9 then (List.range 27).all (fun i => isSoft i || decide (trit v i = 0))
  else if n = 17 then decide (fld v 6 21 = 0) && decide (offF v 3 3 ≤ 17) && decide (offF v 1 2 ≤ 3) && decide (trit v 0 ≠ -1)
  else if n = 27 then decide (fld v 9 18 = 0) && (decide (offF v 6 3 ≤ 9) || decide (offF v 6 3 = 13)) && decide (0 ≤ wrap v 6) && decide (wrap v 6 ≤ 27)
  else if n = 28 then decide (1000 ≤ v) && decide (v ≤ 1000000000000)
  else if n = 29 then decide (0 ≤ v) && decide (v ≤ pow3 13)
  else true
/-- A context-scope register written. -/
def setCtxCsr (x : Ctx) (die n : Nat) (v : Int) : Ctx :=
  if n = 9 then { x with tmask := v } else if n = 10 then { x with tvec := v } else if n = 11 then { x with hsave := v }
  else if n = 17 then { x with dbg := v } else if n = 18 then { x with waddr := v } else if n = 19 then { x with savebase := v }
  else { x with counters := Tab.set 0 (die * 16 + (n - 36)) v x.counters }
/-- A write by one thread. -/
def State.setCsr (s : State) (t n : Nat) (v : Int) : State :=
  let x := s.thread t
  let w := s.warp (warpOf t)
  if n = 1 then s.setThread t { x with epc := v } else if n = 2 then s.setThread t { x with emr := v }
  else if n = 5 then s.setThread t { x with hscr0 := v } else if n = 6 then s.setThread t { x with hscr1 := v }
  else if n = 27 then s.setWarp (warpOf t) { w with xsel := v }
  else if n = 28 then
    let p := (s.ctx w.ctx).part
    s.setPart p { s.part p with hangth := v }
  else if n = 29 then
    let own := s.ownKey (s.csrDie t)
    s.setDie own { s.dieSt own with budgF := v }
  else match s.csrCtx t with
    | some c => s.setCtx c (setCtxCsr (s.ctx c) (s.csrDie t) n v)
    | none => s
/-- Thread-scope registers are written per lane, others once from the lowest active lane (R396). -/
def threadCsr (n : Nat) : Bool := decide (n ≤ 6)
/-- CSRW (R396). -/
def execCsrw (h : Hdr) (a n : Nat) (s : State) : R :=
  match csrInfo n with
  | none => .next s
  | some i =>
    let lv : Level3 := if i.write = .handler then .handler else .sup
    let u : Uses := if i.isPair then { srcP := [a], level := lv, forbid := true } else { srcR := [a], level := lv, forbid := true }
    .next (s.issue h u (fun act s =>
      let val (t : Nat) : Int := if i.isPair then s.regPair t a else s.reg t a
      let wr := if threadCsr n then act else act.take 1
      let bad := wr.filter (fun l => !csrOk n (val (threadOf s.cur.warp l)))
      let good := wr.filter (fun l => csrOk n (val (threadOf s.cur.warp l)))
      let s1 := (s.curThreads good).foldl (fun x t => x.setCsr t n (val t)) s
      (s1.retireAll (act.filter (fun l => !bad.contains l))).faultAll bad 0 0))

/-! Handler forms (R406, R408). -/

/-- TRET (R406): when every thread of H that has not exited has executed it, the warp returns. -/
def execTret (h : Hdr) (s : State) : R :=
  .next (s.issue h { level := .handler, forbid := true } (fun act s =>
    let w := s.cur.warp
    if !(s.warp w).hm then s.faultAll act 0 0
    else
      let s1 := (s.curThreads act).foldl (fun a t =>
        let b := a.waitLane t .tret
        b.setThread t { b.thread t with tret := true }) s
      if s1.allReturn w then s1.leave w else s1))
/-- CLRC (R406). -/
def execClrc (h : Hdr) (mask : Int) (s : State) : R :=
  .next (s.issue h { level := .handler, forbid := true } (fun act s =>
    (s.curThreads act).foldl (fun a t =>
      let b := a.retire t s.cur.next
      let x := b.thread t
      b.setThread t { x with cause := (List.range 27).foldl (fun v i => if trit mask i = 1 then setFld v i 1 0 else v) x.cause }) s))
/-- HALT (R408). -/
def execHalt (h : Hdr) (s : State) : R :=
  .next (s.issue h { level := .sup, forbid := true } (fun act s =>
    let c := coreOf s.cur.warp
    if [13, 15, 16, 17].any (fun q => !(s.port c q).isEmpty) then s.retireAll act else s.waitAll act (.timed false)))

/-! Rows of trap delivery. -/

/-- TRAP_ENTRY (R402): a stopped warp whose results are written enters its handler. -/
def execTrapEntry (w : Nat) (s : State) : R :=
  let x := s.warp w
  if x.stopping ∧ !(s.raisers w).isEmpty ∧ !x.hm ∧ (s.ctx x.ctx).tvec ≠ 0 ∧ s.quiet w then .next (s.settle w) else .next s
/-- DOUBLE_TRAP (R407). -/
def execDoubleTrap (w : Nat) (s : State) : R :=
  let x := s.warp w
  if x.stopping ∧ x.hm ∧ s.doubled w then .next (s.settle w) else .next s
/-- UNHANDLED_TRAP (R409). -/
def execUnhandledTrap (w : Nat) (s : State) : R :=
  let x := s.warp w
  if x.stopping ∧ !(s.raisers w).isEmpty ∧ !x.hm ∧ (s.ctx x.ctx).tvec = 0 ∧ s.quiet w then .next (s.settle w) else .next s
/-- Whether a thread stands at an issue boundary (R403). -/
def atBoundary (x : Thread) : Bool :=
  !x.busy && (decide (x.st = .runnable) || (decide (x.st = .stopped) && decide (x.prior = .runnable)))
/-- Whether a thread has causes to raise at the issue boundary where it stands (R403). -/
def lateDue (x : Thread) : Bool := !x.later.isEmpty && atBoundary x
/-- DEFERRED_CAUSE (R403): the causes that arrived after their units retired are raised at the thread's next issue
boundary, in the order in which they arrived; those of the warp's threads that stand at one join one entry (R405). -/
def execDeferredCause (t : Nat) (s : State) : R :=
  if !lateDue (s.thread t) then .next s
  else
    let w := warpOf t
    .next ((((threadsOf w).filter (fun u => lateDue (s.thread u))).foldl (fun a u =>
      let x := a.thread u
      x.later.foldl (fun b r => if s.rolled b u && b.traps (b.warp w).ctx r.cause then b else b.raise u r) (a.setThread u { x with later := [] })) s).settle w)

end Sys2Proof.Machine
end

