-- ==== Sys2Proof/Machine/Video.lean ====
section
/-! DEFINITION. Video decode (R345-R351): sessions, descriptors, the scaler, frames and completions. What a codec makes of
a bitstream is a free value (DESIGN CHOICE, log 9). -/

namespace Sys2Proof.Machine

/-! Descriptors (R347). -/

/-- The words of a descriptor by name. -/
structure Desc where
  codec : Nat
  bsaddr : Int
  bslen : Int
  obase : Int
  rpitch : Int
  ppitch : Int
  cy : Int
  cx : Int
  ch : Int
  cw : Int
  scl : Nat
  oh : Int
  ow : Int
  deriving DecidableEq, Repr
def descOf (ws : List Int) : Desc :=
  let w (j : Nat) : Int := ws.getD j 0
  { codec := offF (w 0) 0 3, bsaddr := pair (w 1) (w 2), bslen := w 3, obase := pair (w 4) (w 5), rpitch := w 6, ppitch := w 7
    cy := part (w 8) 1, cx := part (w 8) 0, ch := part (w 9) 1, cw := part (w 9) 0, scl := offF (w 10) 18 3
    oh := part (w 10) 1, ow := part (w 10) 0 }
/-- The rules of the table, with the size of the frame. -/
def descOk (ws : List Int) (size : Nat × Nat) : Bool :=
  let d := descOf ws
  let even (v lo hi : Int) : Bool := decide (v % 2 = 0) && decide (lo ≤ v) && decide (v ≤ hi)
  decide (d.codec ≤ 2) && decide (fld (ws.getD 0 0) 3 24 = 0) && decide (1 ≤ d.bslen) && decide (d.bslen ≤ 16777216)
    && decide (spaceOf d.obase = 1) && decide (d.ow ≤ d.rpitch)
    && even d.cy 0 8192 && even d.cx 0 8192 && even d.ch 2 8192 && even d.cw 2 8192
    && decide (d.cx + d.cw ≤ (size.1 : Int)) && decide (d.cy + d.ch ≤ (size.2 : Int))
    && decide (d.scl ≤ 2) && even d.oh 2 8192 && even d.ow 2 8192
    && (decide (d.scl ≠ 0) || (decide (d.ow = d.cw) && decide (d.oh = d.ch)))
    && (decide (d.scl ≠ 1) || (decide (d.ow ≤ d.cw) && decide (d.oh ≤ d.ch)))
    && decide (fld (ws.getD 8 0) 18 9 = 0) && decide (fld (ws.getD 9 0) 18 9 = 0) && decide (fld (ws.getD 10 0) 21 6 = 0)
    && (ws.drop 11).all (fun v => decide (v = 0))

/-! The scaler (R350). -/

def areaOverlap (i x W w : Int) : Int := max 0 (min ((i + 1) * w) ((x + 1) * W) - max (i * w) (x * W))
/-- One output of a plane of W by H inputs p scaled to w by h. -/
def scalePix (mode : Nat) (W H w h : Nat) (p : Nat → Nat → Int) (x y : Nat) : Int :=
  if mode = 0 then p x y
  else if mode = 1 then
    nearest (((List.range W).flatMap (fun i => (List.range H).map (fun j =>
      p i j * areaOverlap i x W w * areaOverlap j y H h))).sum) ((W : Int) * H)
  else
    let axis (x W w : Nat) : Nat × Int :=
      let U : Int := (2 * (x : Int) + 1) * W - w
      let i := U / (2 * (w : Int))
      if i < 0 then (0, 0) else if (W : Int) - 1 ≤ i then (W - 1, 0) else (i.toNat, U - 2 * (w : Int) * i)
    let a := axis x W w
    let b := axis y H h
    let fx := a.2
    let fy := b.2
    let gx : Int := 2 * (w : Int) - fx
    let gy : Int := 2 * (h : Int) - fy
    nearest (gx * gy * p a.1 b.1 + fx * gy * p (a.1 + 1) b.1 + gx * fy * p a.1 (b.1 + 1) + fx * fy * p (a.1 + 1) (b.1 + 1))
      (4 * (w : Int) * h)
/-- The trytes of a frame under a descriptor: address and value (R349). -/
def frameCells (d : Desc) (f : Frame) : List (Int × Int) :=
  let sh := Config.codecShape f.hist
  let bits : Nat := if sh.2.2.1 then 10 else 8
  let mono := sh.2.2.2
  [0, 1, 2].flatMap (fun k =>
    let q : Nat := if k = 0 then 1 else 2
    let n (v : Int) : Nat := v.toNat / q
    let p (i j : Nat) : Int :=
      ((Config.codecSample f.hist f.num k (n d.cx + i) (n d.cy + j) % Nat.pow 2 bits : Nat) : Int) - ((Nat.pow 2 (bits - 1) : Nat) : Int)
    (List.range (n d.oh)).flatMap (fun (y : Nat) => (List.range (n d.ow)).map (fun (x : Nat) =>
      (d.obase + (k : Int) * d.ppitch + (y : Int) * d.rpitch + (x : Int),
        if mono ∧ k ≠ 0 then 0 else scalePix d.scl (n d.cw) (n d.ch) (n d.ow) (n d.oh) p x y))))

/-! Sessions (R346, R348). -/

/-- The engines' place on the I/O die, as a core key. -/
def engineCore : Nat := 9 * 81
def State.session (s : State) (ctx bid : Nat) : Session := Tab.get {} (s.ctx ctx).sess bid
def State.setSession (s : State) (ctx bid : Nat) (y : Session) : State :=
  let x := s.ctx ctx
  s.setCtx ctx { x with sess := Tab.put bid y x.sess }
/-- A completion word (R348). -/
def doneWord (kind status : Int) (idx : Int) : Int := kind * pow3 26 + status * pow3 24 + idx
/-- The operation of a command and the index x, offset (R346). -/
def cmdOp (c : Int) : Int := fld c 24 3
def cmdIdx (c : Int) : Int := wrap c 24
/-- The held completion words go to q14, in order, while it has room and their writes are past (R348). -/
def State.pushOut (s : State) (ctx bid : Nat) : State :=
  let y := s.session ctx bid
  match y.outw, Tab.find (s.ctx ctx).blk bid with
  | (v, t) :: rest, some (.placed c) =>
    if 81 ≤ (s.port c 14).length ∨ (s.dieSt (s.ownKey 9)).clk < t then s
    else (s.pushToken c 14 v t).setSession ctx bid { y with outw := rest }
  | _, _ => s
/-- A completion word is held and pushed when it can be. -/
def State.finish (s : State) (ctx bid : Nat) (v t : Int) : State :=
  let y := s.session ctx bid
  (s.setSession ctx bid { y with outw := y.outw ++ [(v, t)] }).pushOut ctx bid
/-- Whether a session may go on. -/
def Session.free (y : Session) : Bool := y.outw.isEmpty && y.parked.isNone
/-- The session's fault of an address (R351). -/
def State.engineFault (s : State) (ctx bid : Nat) (ea : Int) (m : Bool) : State :=
  (s.addFault (ownerOf ea) ctx ea ea 6 engineCore 0 0 0 m).setSession ctx bid { s.session ctx bid with parked := some ea }

/-- Reads some units at their homes for an engine; none when an address cannot be used, else why it waits. -/
def State.engineRead (s : State) (ctx : Nat) (tern : Bool) (as : List Int) : Except CAt (State × List Int) × State × Int :=
  let al := s.copyAts engineCore ctx tern .read 1 as
  match al.2.find? (fun p => !p.2.ok) with
  | some p => (.error p.2, al.1, p.1)
  | none =>
    let blank : Copy := { id := 0, warp := 0, lanes := [], gid := 0, pc := 0, form := .lin, o := tryteOpt false 0, src := 0, dst := 0, count := 0 }
    let g := al.1.copyReadAll engineCore ctx blank al.2
    (.ok (g.1, g.2.2), g.1, 0)

/-- What an engine decodes (R345): the frame's size, and the sample formats of the descriptor's codec. -/
def shapeOk (codec : Nat) (sh : Nat × Nat × Bool × Bool) : Bool :=
  decide (sh.1 ≤ 8192) && decide (sh.2.1 ≤ 4352) && (!sh.2.2.1 || decide (codec ≠ 1)) && (!sh.2.2.2 || decide (codec = 0))
/-- The trytes of an output slot (R349). -/
def slotTrytes (d : Desc) : List Int :=
  [0, 1, 2].flatMap (fun (k : Nat) =>
    let q : Nat := if k = 0 then 1 else 2
    (List.range (d.oh.toNat / q)).flatMap (fun (y : Nat) => (List.range (d.ow.toNat / q)).map (fun (x : Nat) =>
      d.obase + (k : Int) * d.ppitch + (y : Int) * d.rpitch + (x : Int))))
/-- Whether an output slot touches a window or a compressed page, which the table forbids (R347). -/
def State.slotBad (s : State) (ctx : Nat) (d : Desc) : Bool :=
  (slotTrytes d).any (fun a => decide (spaceOf a ≠ 1) || (s.winAt (ownerOf a) ctx (offOf a)).isSome
    || (s.hasTables (ownerOf a) ctx && (match (s.translate (ownerOf a) ctx 729 (offOf a)).2 with
      | .leaf l => l.cmp
      | .miss _ => false)))
/-- DECODE (R345-R348): the next command of a block's session. Its descriptor and bitstream are read at their homes; a miss
stalls the session. A command that is no DECODE, FLUSH or RESET completes with status -1. -/
def execDecode (ctx bid : Nat) (s : State) : R :=
  let y := s.session ctx bid
  match y.cmds with
  | [] => .next (s.pushOut ctx bid)
  | c :: rest =>
    let x := cmdIdx c
    let y1 := { y with cmds := rest }
    let reject (s : State) : State := (s.setSession ctx bid y1).finish ctx bid (doneWord (-1) (-1) x) 0
    if !y.free then .next (s.pushOut ctx bid)
    else if y.flushing.isSome ∨ cmdOp c = 2 ∨ cmdOp c = 3 ∨ !(y.frames.isEmpty || y.slots.isEmpty) then .next s
    else if cmdOp c ≠ 1 then .next (reject s)
    else
      let base := (s.ctx ctx).decbase + 81 * (x + half 24)
      match s.engineRead ctx true ((List.range 81).map (fun (i : Nat) => base - 40 + (i : Int))) with
      | (.error (.park m), s1, ea) => .next (s1.engineFault ctx bid ea m)
      | (.error .wait, _, _) => .next s
      | (.error _, _, _) => .next (reject s)
      | (.ok (s1, ts), _, _) =>
        let ws := (chunksOf 3 27 ts).map ofTrytes
        let d := descOf ws
        if !descOk ws (8192, 8192) ∨ s1.slotBad ctx d then .next (reject s1)
        else match s1.engineRead ctx false ((List.range d.bslen.toNat).map (fun (i : Nat) => d.bsaddr + (i : Int))) with
          | (.error (.park m), s2, ea) => .next (s2.engineFault ctx bid ea m)
          | (.error .wait, _, _) => .next s
          | (.error .ats, _, _) => .next s
          | (.error _, _, _) => .next (reject s1)
          | (.ok (s2, bs), _, _) =>
            let h := y.hist ++ [(d.codec, bs.map (fun b => BitVec.ofNat 8 b.toNat))]
            let sh := Config.codecShape h
            match Config.codecFrames h with
            | none => .next (reject s2)
            | some n =>
              if !shapeOk d.codec sh ∨ !descOk ws (sh.1, sh.2.1) then .next (reject s2)
              else if 16 ≤ y.slots.length then .next s
              else .next ((s2.setSession ctx bid { y1 with hist := h, slots := y.slots ++ [(x, ws)]
                                                           frames := y.frames ++ (List.range n).map (fun i => { hist := h, num := i }) }).finish
                ctx bid (doneWord (-1) 1 x) 0)

/-- DECODE_FLUSH (R348): the pending frames leave the decoder; once they are put out, or no slot is left for them, the
command completes. -/
def execDecodeFlush (ctx bid : Nat) (s : State) : R :=
  let y := s.session ctx bid
  if !y.free then .next (s.pushOut ctx bid)
  else match y.flushing, y.cmds with
    | some x, _ =>
      if y.frames.isEmpty ∨ y.slots.isEmpty then
        .next ((s.setSession ctx bid { y with flushing := none, frames := [] }).finish ctx bid
          (doneWord (-1) (if y.frames.isEmpty then 1 else 0) x) 0)
      else .next s
    | none, c :: rest =>
      if cmdOp c ≠ 2 then .next s
      else
        let h := y.hist ++ [(0, [])]
        .next (s.setSession ctx bid { y with cmds := rest, hist := h, flushing := some (cmdIdx c)
                                             frames := y.frames ++ (List.range ((Config.codecFrames h).getD 0)).map (fun i => { hist := h, num := i }) })
    | none, [] => .next s

/-- DECODE_RESET (R348). -/
def execDecodeReset (ctx bid : Nat) (s : State) : R :=
  let y := s.session ctx bid
  match y.cmds with
  | c :: rest =>
    if !y.free ∨ y.flushing.isSome ∨ cmdOp c ≠ 3 then .next s
    else .next ((s.setSession ctx bid { y with cmds := rest, hist := [], frames := [], slots := [] }).finish ctx bid (doneWord (-1) 1 (cmdIdx c)) 0)
  | [] => .next s

/-- Writes the trytes of a frame in order up to one that cannot be written; the latest W. -/
def State.framePut (s : State) (ctx : Nat) (w : Int) : List (Int × Int) → State × Int × Option (Int × CAt)
  | [] => (s, w, none)
  | (a, v) :: r =>
    let p := s.copyAt engineCore ctx true .write 1 a
    match p.2 with
    | .mem own pa l =>
      let w1 := max w (p.1.wOf own (lineOf pa))
      State.framePut ((p.1.homePut own false ctx [(pa, v)] (l.slices own)).wrote own (lineOf pa)) ctx w1 r
    | q => (p.1, w, some (a, q))
/-- DECODE_FRAME_OUTPUT (R348-R351): the next frame is written to the oldest slot, and its completion follows. -/
def execDecodeFrameOutput (ctx bid : Nat) (s : State) : R :=
  let y := s.session ctx bid
  if !y.free then .next (s.pushOut ctx bid)
  else match y.frames, y.slots with
    | f :: fs, (x, ws) :: ss =>
      let p := s.framePut ctx 0 (frameCells (descOf ws) f)
      let out (st : Int) (s : State) : State :=
        (s.setSession ctx bid { y with frames := fs, slots := ss }).finish ctx bid (doneWord 1 st x) p.2.1
      (match p.2.2 with
       | none => .next ((out (if Config.codecConcealed f.hist f.num then 0 else 1) p.1).ctxRT ctx p.2.1)
       | some (_, .wait) => .next p.1
       | some (a, .park m) => .next (p.1.engineFault ctx bid a m)
       | some _ => .next ((out (-1) p.1).ctxRT ctx p.2.1))
    | _, _ => .next s

/-- A DENY that meets a session's fault rejects what it was doing (R351). -/
def State.rejectSession (s : State) (ctx bid : Nat) : State :=
  let y := { s.session ctx bid with parked := none }
  match y.frames, y.slots, y.cmds with
  | _ :: fs, (x, _) :: ss, _ => (s.setSession ctx bid { y with frames := fs, slots := ss }).finish ctx bid (doneWord 1 (-1) x) 0
  | _, _, c :: rest => (s.setSession ctx bid { y with cmds := rest }).finish ctx bid (doneWord (-1) (-1) (cmdIdx c)) 0
  | _, _, [] => s.setSession ctx bid y

end Sys2Proof.Machine
end

