-- ==== Sys2Proof/Machine/Save.lean ====
section
/-! DEFINITION. Pre-emption (R410-R414): PREEMPT, what a save waits for, the block record and its reading, and
SAVE_COMPLETE. What the record gives no layout for is kept with the context (DESIGN CHOICE, log 11). -/

namespace Sys2Proof.Machine

/-! PREEMPT (R410). -/

/-- The live user context that a word names to a supervisor of its partition. -/
def State.namedCtx (s : State) (v : Int) : Option Nat :=
  if 1 ≤ v ∧ v ≤ 27 ∧ (s.ctx v.toNat).live ∧ (s.ctx v.toNat).part = (s.ctx (s.warp s.cur.warp).ctx).part then some v.toNat else none
/-- A block's state. -/
def State.blkSt (s : State) (ctx bid : Nat) : BlkSt := Tab.get .ended (s.ctx ctx).blk bid
def State.setBlk (s : State) (ctx bid : Nat) (b : BlkSt) : State :=
  let x := s.ctx ctx
  s.setCtx ctx { x with blk := Tab.put bid b x.blk }
/-- A block leaves its placement queue. -/
def State.unqueue (s : State) (ctx bid : Nat) : State :=
  { s with die := s.die.map (fun p => (p.1, { p.2 with queue := p.2.queue.filter (fun q => !(decide (q.ctx = ctx) && decide (q.bid = bid))) })) }
def isSaving : BlkSt → Bool
  | .saving .. => true | _ => false
/-- A block is saved when it is resident, else held; a saved block that waits for a core stays saved. -/
def State.preemptOne (s : State) (ctx bid : Nat) : State :=
  let away (r : Bool) : BlkSt := match r, Tab.find (s.ctx ctx).saved bid with
    | true, some y => .saved y.at_
    | _, _ => .held true
  match s.blkSt ctx bid with
  | .wait m => s.setBlk ctx bid (.held m)
  | .queued => (s.unqueue ctx bid).setBlk ctx bid (away true)
  | .taken c r => (s.setCore c { clid := (s.core c).clid }).setBlk ctx bid (away r)
  | .placed _ => s.startSave ctx bid
  | _ => s
/-- PREEMPT (R410). -/
def execPreempt (h : Hdr) (a : Nat) (s : State) : R :=
  .next (s.perGroup h { srcR := [a], level := .sup, forbid := true } (fun act t s =>
    match s.namedCtx (s.reg t a) with
    | none => s.faultAll act 5 0
    | some ctx =>
      let x := s.ctx ctx
      if x.blk.any (fun p => isSaving p.2) ∨ !saveBaseOk x.savebase then s.faultAll act 5 0
      else if x.killing then s.retireAll act
      else ((List.range x.lr.blocks).foldl (fun a b => a.preemptOne ctx b) s).retireAll act))
/-- PREEMPT.blk (R410). -/
def execPreemptBlk (h : Hdr) (a b : Nat) (s : State) : R :=
  .next (s.perGroup h { srcR := [a, b], level := .sup, forbid := true } (fun act t s =>
    match s.namedCtx (s.reg t a) with
    | none => s.faultAll act 5 0
    | some ctx =>
      let x := s.ctx ctx
      let bid := s.reg t b
      if bid < 0 ∨ (x.lr.blocks : Int) ≤ bid ∨ s.blkSt ctx bid.toNat = .ended ∨ isSaving (s.blkSt ctx bid.toNat) ∨ !saveBaseOk x.savebase then
        s.faultAll act 5 0
      else if x.killing then s.retireAll act
      else (s.preemptOne ctx bid.toNat).retireAll act))

/-! What a save waits for (R223, R235, R410). -/

/-- Requests that a save discards: their units have not retired and issue again. -/
def Req.dropped (r : Req) : Bool :=
  match r.stage, r.kind with
  | .parked, _ => true | .pri, _ => true
  | _, .fetch _ => true | _, .icpf _ => true | _, .pref _ => true | _, .callt .. => true
  | .owner, .load .. => true | .owner, .ldb .. => true
  | _, _ => false
/-- Draws of a number, which may have to wait for other blocks: their words come with the resumption (DESIGN CHOICE, log 11). -/
def Req.stays (r : Req) : Bool :=
  match r.stage, r.kind with
  | .owner, _ => false | .faulted _, _ => false
  | _, .tkt .. => true
  | _, _ => false
def isMsg : RK → Bool
  | .msg .. => true | _ => false
/-- The requests of a core's warps that a save must see the end of. -/
def State.unsettled (s : State) (c : Nat) : List Req :=
  s.reqs.filter (fun r => decide (r.core = c) && !r.away && !isMsg r.kind && !r.dropped && !r.stays)
/-- Where the home of a device address is, for a context: owner, leaf and physical address. -/
def State.findHome (s : State) (ctx c : Nat) (ea : Int) : State × Option (Leaf × Int) × Bool :=
  let p := s.translate (ownerOf ea) ctx c (offOf ea)
  match p.2 with
  | .leaf l => (p.1, if l.w && !l.cmp then some (l, l.phys (offOf ea)) else none, false)
  | .miss m => (p.1, none, m)
/-- Whether a save's write-backs and record can be performed now: no line is held, and every way is up. -/
def State.saveFree (s : State) (c : Nat) : Bool :=
  let ctx := ((s.core c).blk.getD (0, 0)).1
  (s.dirtyLines c).all (fun l =>
    let own := ownerOf (81 * l)
    (decide (own / 27 = s.pkg) || s.routeUp (own / 27)) && (match (s.findHome ctx c (81 * l)).2.1 with
      | some p => !s.lineHeld own (lineOf p.2)
      | none => true))
/-- Whether the save of a core's block can complete (R410 steps 2 to 4). -/
def State.saveReady (s : State) (c : Nat) : Bool :=
  (s.warpsOf c).all (fun w => decide ((s.warp w).draft.depth = 0)) && (s.core c).nib.all (fun x => !x.now)
    && (s.unsettled c).isEmpty && s.saveFree c

/-! The last steps on the core. -/

/-- Results still owed are written (R212). -/
def State.payOwed (s : State) (w : Nat) : State :=
  let x := s.warp w
  (x.owed.foldl (fun a o => a.setReg o.thr o.d o.val) s).setWarp w { x with owed := [] }
/-- The number by which requests name a warp that is saved. -/
def awayWarp (ctx bid wid : Nat) : Nat := (1000000000000 + blkKey ctx bid) * 28 + wid
/-- A lane whose request a save discards goes on with its unit when it issues again: it keeps its group, of which a parked lane is
no part, and the port words that it has taken (R78, R158, R235; DESIGN CHOICE, log 65). -/
def State.keepLane (s : State) (r : Req) : State :=
  if r.lane = 16 ∨ isFetch r.kind then s.doneLane r.warp r.gid
  else s.setThread r.thr { s.thread r.thr with kept := some (r.gid, r.words) }
/-- Requests are discarded, their lanes keeping what they have taken (log 65), or stay without their core. -/
def State.partReqs (s : State) (c ctx bid : Nat) : State :=
  let gone := s.reqs.filter (fun r => decide (r.core = c) && !r.away && r.dropped)
  let s1 := gone.foldl (fun a r => ((a.delReq r.id).unbusy r.thrs).keepLane r) s
  { s1 with reqs := s1.reqs.map (fun r => if r.core = c ∧ !r.away ∧ r.stays then { r with away := true, warp := awayWarp ctx bid (widOf r.warp) } else r) }
/-- The written trytes of one sector of the L1 go to their home, and W raises the release times of every warp whose stores the
line holds (R131); refused ones are a deferred write-back fault of the warp that stored last (R410 step 5, R436). `key` names the
save for the ownership check (R360). -/
def State.saveSector (s : State) (c key : Nat) (line : Int) (k : Nat) : State :=
  let x := s.l1 c line
  let tr := x.tr.filter (fun p => p.2.written && decide (p.1 / 27 = k))
  if tr.isEmpty then s
  else
    let b := (s.core c).blk.getD (0, 0)
    let wid := Tab.get 0 x.stw k
    let w := c * 28 + wid
    let own := ownerOf (81 * line)
    let centre := 81 * line + 27 * ((k : Int) - 1)
    let p := s.findHome b.1 c (81 * line)
    match p.2.1 with
    | some (l, pa) =>
      let t := p.1.touchAs b.1 c b.2 key l.w (81 * line)
      let v := t.1.wOf own (lineOf pa)
      let s1 := (t.1.homePut own false b.1 (tr.map (fun q => (pa - 40 + (q.1 : Int), q.2.val))) (l.slices own)).wrote own (lineOf pa)
      let by_ := (x.by_.filter (fun q => decide ((s.warp q.1).idx = q.2))).map (·.1)
      let s2 := if t.2 then (by_.flatMap threadsOf).foldl (fun a u => a.defer u 24 0) s1 else s1
      (by_.foldl (fun a u => a.raiseRT u v) s2).ctxRT b.1 v
    | none =>
      let s1 := (p.1.count b.1 (dieIdx c) 44 1).wbfRec b.1 own c wid 0 centre 0 p.2.2
      (threadsOf w).foldl (fun a t => a.defer t 11 centre) s1
def State.saveL1 (s : State) (c : Nat) : State :=
  (s.dirtyLines c).foldl (fun a l => [0, 1, 2].foldl (fun b k => b.saveSector c s.nextId l k) a) { s with nextId := s.nextId + 1 }

/-! The block record (R412, R414). -/

/-- The magic of a record's header. -/
def saveMagic : Int := 4542
/-- The allocations of a core's warps in the canonical layout: warp, base, words (R412). -/
def State.allocs (s : State) (c : Nat) : List (Nat × Nat × Nat) :=
  ((s.warpsOf c).foldl (fun (a : List (Nat × Nat × Nat) × Nat) w =>
    let n := 16 * (s.warp w).n
    (a.1 ++ [(w, a.2, n)], a.2 + n)) ([], 0)).1
/-- A thread's state as its record holds it, with a barrier's fields (R414). -/
def stateWord (hm : Bool) (x : Thread) : Int :=
  let st := if x.st = .stopped then x.prior else x.st
  let arr (l k : Nat) (p : Int) : Int := oAt 3 3 24 + oAt k 3 12 + (l : Int) * pow3 9 + p
  if x.st = .exited then oAt 5 3 24
  else if x.unhandled then oAt 8 3 24
  else if hm && !x.inH then oAt 7 3 24
  else match x.wait, st with
    | .claim, .waiting => oAt 9 3 24
    | .barrier l _ k p _, .waiting => arr l.code.toNat k p
    | .phase, .waiting => arr 6 0 0
    | _, .waiting => oAt 2 3 24
    | _, .held => if x.inH then oAt 6 3 24 else oAt 1 3 24
    | _, .parked => if x.inH then oAt 6 3 24 else oAt 4 3 24
    | _, _ => if x.inH then oAt 6 3 24 else oAt 0 3 24
/-- Word j of a thread record. -/
def threadWord (hm : Bool) (x : Thread) (j : Nat) : Int :=
  let p (v : Int) (i : Nat) : Int := if j = i then loW v else hiW v
  if j ≤ 1 then p x.pc 0 else if j ≤ 3 then p x.mr 2 else if j = 4 then stateWord hm x else if j = 5 then x.cause
  else if j ≤ 7 then p x.epc 6 else if j ≤ 9 then p x.emr 8 else if j = 10 then x.einfo else if j ≤ 12 then p x.eaddr 11
  else if j ≤ 14 then p x.hscr0 13 else if j ≤ 16 then p x.hscr1 15
  else if j ≤ 25 then predsWord (fun f => Tab.get 0 x.preds f) (27 * (j - 17))
  else if j ≤ 27 then p ((x.deadline.orElse (fun _ => x.ldnb)).getD 0) 26 else 0
/-- Word j of a warp record. -/
def State.warpWord (s : State) (c i j : Nat) : Int :=
  let w := c * 28 + i
  match Tab.find s.wrp w with
  | none => 0
  | some x =>
    let p (v : Int) (k : Nat) : Int := if j = k then loW v else hiW v
    if j = 0 then pow3 26 + (if x.hm then pow3 25 else 0) + x.pl * pow3 24
    else if j ≤ 2 then p x.rtC 1 else if j ≤ 4 then p x.rtD 3 else if j ≤ 6 then p x.rtP 5 else if j ≤ 8 then p x.rtN 7
    else if j ≤ 12 then ((s.counters w).getD (j - 9) 0 : Int)
    else if j = 13 then (x.n : Int)
    else if j = 14 then (((s.allocs c).find? (fun a => decide (a.1 = w))).map (fun a => (a.2.1 : Int))).getD 0
    else if 27 ≤ j ∧ j ≤ 602 then threadWord x.hm (s.thread (threadOf w ((j - 27) / 36))) ((j - 27) % 36)
    else if 603 ≤ j ∧ j ≤ 605 then Tab.get 0 x.bph (j - 603) else 0
/-- Word i of a slot's configuration. -/
def slotWord (x : Slot) (i : Nat) : Int :=
  if i = 0 then eo x.atype.code 2 * pow3 3 + eo x.btype.code 2 * pow3 5 + eo x.otype.code 2 * pow3 7
  else if i = 1 then eo (x.pa - 1) 2 * pow3 9 + eo x.pb.code 2 * pow3 11
  else if i = 2 then x.sa else if i = 3 then x.sb else if i = 4 then x.so else if i = 5 then x.s else if i = 6 then x.otag else x.fit
/-- A header word (R412). -/
def headWord (bid : Int) (c : Nat) (t : Int) (k : Nat) : Int :=
  if k = 0 then saveMagic + pow3 26 else if k = 1 then bid else if k = 2 then ((c % 81 : Nat) : Int) + (dieIdx c : Int) * pow3 9
  else if k = 3 then loW t else if k = 4 then hiW t else 0
/-- Word k of a block's record; none where nothing is written. -/
def State.recWord (s : State) (c bid : Nat) (t : Int) (al : List (Nat × Nat × Nat)) (k : Nat) : Option Int :=
  if k < 81 then some (headWord (bid : Int) c t k)
  else if k < 20493 then some (s.warpWord c ((k - 81) / 729) ((k - 81) % 729))
  else if k < 79542 then
    (al.find? (fun a => decide (a.2.1 ≤ k - 20493) && decide (k - 20493 < a.2.1 + a.2.2))).map (fun a =>
      let i := k - 20493 - a.2.1
      Tab.get 0 (s.thread (threadOf a.1 (i % 16))).regs (i / 16))
  else if k < 138591 then some (s.scrWord c (-88572 + 3 * ((k - 79542 : Nat) : Int)))
  else if k < 145152 then some (s.accElem c ((k - 138591) / 729) ((k - 138591) % 729))
  else if 151713 ≤ k ∧ k < 152685 then
    let f := s.folio c ((k - 151713) / 4)
    if f.st = 0 then none else some (folioEntry f ((k - 151713) % 4))
  else if 171396 ≤ k ∧ k < 171468 then some (slotWord (s.slotOf c ((k - 171396) / 8)) ((k - 171396) % 8))
  else none

/-! The record in memory, under the supervisor's translation (R413). -/

/-- The supervisor context of a context's partition. -/
def State.supCtx (s : State) (ctx : Nat) : Nat := supOf (s.ctx ctx).part
/-- How a record's writes fare: performed, a miss at the lowest page that is not mapped, or refused. -/
inductive SaveTo where
  | ok | miss (ea : Int) (malformed : Bool) | refused
  deriving DecidableEq, Repr
/-- Where an offset of a save area lies under the translation of a supervisor context. -/
def State.recPhys (s : State) (sup own : Nat) (off : Int) : Option Int :=
  match (s.translate own sup 0 off).2 with
  | .leaf l => some (l.phys off)
  | .miss _ => none
def State.saveTo (s : State) (ctx : Nat) (low : Int) : SaveTo :=
  let own := ownerOf low
  let sup := s.supCtx ctx
  if spaceOf low ≠ 1 ∨ !s.ownerOk low ∨ !s.hasTables own sup then .refused
  else
    let ls := [0, 177147, 354294].map (fun (i : Int) => (low + i, (s.translate own sup 0 (offOf low + i)).2))
    if ls.any (fun l => match l.2 with
      | .leaf l => !(l.r && l.w) || l.cmp || decide (l.place ≠ 0)
      | .miss _ => false) || (s.validWins own).any (fun w => decide (w.ctx = (sup : Int)) && decide (w.vbase < offOf low + 531441)
        && decide (offOf low < w.vbase + w.blen)) then .refused
    else (ls.findSome? (fun l => match l.2 with
      | .leaf _ => none
      | .miss m => some (.miss l.1 m))).getD .ok
/-- Writes words: word k at the word centred on low + 3k + 1. Each is performed at its home, and its W is awaited before
the context's completion (R127, R446). -/
def State.putRecWords (s : State) (ctx : Nat) (low : Int) (ws : List (Nat × Int)) : State :=
  let own := ownerOf low
  ws.foldl (fun a (k, v) =>
    match s.recPhys (s.supCtx ctx) own (offOf low + 3 * (k : Int) + 1) with
    | none => a
    | some q =>
      let w := a.wOf own (lineOf q)
      ((a.homePut own false (s.supCtx ctx) (List.zip [q - 1, q, q + 1] (toTrytes 3 v))).wrote own (lineOf q)).ctxRT ctx w) s
/-- Reads word k of a record; what is not mapped reads as 0. -/
def State.recRead (s : State) (sup : Nat) (low : Int) (k : Nat) : Int :=
  match s.recPhys sup (ownerOf low) (offOf low + 3 * (k : Int) + 1) with
  | some a => s.physWord (ownerOf low) a
  | none => 0
def State.recPair (s : State) (sup : Nat) (low : Int) (k : Nat) : Int := pair (s.recRead sup low k) (s.recRead sup low (k + 1))
/-- What reading words of a record fills and counts for the supervisor context (R52, R112, R438). -/
def State.recFill (s : State) (sup : Nat) (low : Int) (ks : List Nat) (die : Nat) : State :=
  let own := ownerOf low
  (ks.filterMap (fun k => s.recPhys sup own (offOf low + 3 * (k : Int) + 1))).foldl (fun a p =>
    ((a.fillFor own [p - 1, p, p + 1] false sup die).1.lostRead own [p - 1, p, p + 1] false sup die).1) s
/-- The words of a block's record that have a layout (R412). -/
def recWords : List Nat :=
  List.range 145152 ++ (List.range 972).map (151713 + ·) ++ (List.range 72).map (171396 + ·)
/-- Words of a record for which R412 states no layout: what the save writes there is free (log 11). -/
def State.openWords (s : State) (lo n : Nat) : List (Nat × Int) := (List.range n).map (fun i => (lo + i, wrap (Config.freeWord (s.fresh + (lo + i))) 27))
/-- The record of a block, and of the context for none (R412). -/
def State.recLow (s : State) (ctx : Nat) (bid : Option Nat) : Int :=
  (s.ctx ctx).savebase + (match bid with
    | some b => 531441 * ((b : Int) + 1)
    | none => 0)
/-- Writes a block's record, and the context record but for its graph, the complete trits last; the copies, rings, queues, alarms,
bins, claims, barriers, phase buffer and context-scope registers stand in words of no stated layout (R412). -/
def State.putRecord (s : State) (ctx bid c : Nat) (t : Int) : State :=
  let al := s.allocs c
  let ws := (List.range 177147).filterMap (fun k => (s.recWord c bid t al k).map (fun v => (k, v)))
  let s1 := s.putRecWords ctx (s.recLow ctx (some bid)) (ws.drop 1 ++ s.openWords 145152 6561 ++ s.openWords 152685 18711 ++ ws.take 1)
  let s2 := { s1 with fresh := s1.fresh + 177147 }
  let s3 := s2.putRecWords ctx (s2.recLow ctx none) (s2.openWords 81 2106 ++ (List.range 81).reverse.map (fun k => (k, headWord (-1) c t k)))
  { s3 with fresh := s3.fresh + 2187 }

/-! SAVE_COMPLETE. -/

/-- The threads and warps of a core leave it. -/
def State.clearCore (s : State) (c : Nat) : State :=
  { (s.setCore c { clid := (s.core c).clid }) with
    thr := s.thr.filter (fun p => decide (p.1 / 448 ≠ c))
    wrp := s.wrp.filter (fun p => decide (p.1 / 28 ≠ c))
    bad := s.bad.filter (fun b => !((decide (b.1 = 2) || decide (b.1 = 4)) && decide (b.2 / partBase = c))) }
/-- What is kept of a core: FITR commands issue again, and caches are empty; held write-back faults stay held (R436). -/
def keptCore (k : CoreSt) : CoreSt :=
  { k with l1 := [], ic := [], blot := [], copies := k.copies.map (fun (x : Copy) => { x with buf := [] }), nib := k.nib.filter (fun x => match x.op with
      | .fitr .. => false
      | _ => true) }
/-- The block leaves its core with its record written (R410 steps 5 and 6). -/
def State.finishSave (s : State) (ctx bid c : Nat) (t : Int) : State :=
  let s1 := (((s.warpsOf c).foldl (fun a w => a.payOwed w) s).partReqs c ctx bid).saveL1 c
  let s2 := s1.putRecord ctx bid c t
  let y : Saved := { at_ := c, core := keptCore (s2.core c)
                     warps := (s2.wrp.filter (fun p => decide (p.1 / 28 = c))).map (fun p => (p.1 % 28, { p.2 with fetch := none }))
                     thr := (s2.thr.filter (fun p => decide (p.1 / 448 = c))).map (fun p => (p.1 % 448, p.2)) }
  let x := s2.ctx ctx
  ((s2.setCtx ctx { x with saved := Tab.put bid y x.saved, blk := Tab.put bid (.saved c) x.blk }).clearCore c).notice 4 ctx (dieIdx c) [(bid : Int)]
/-- A record write misses translation: its fault is recorded for the supervisor context, and it waits for REPLAY (R413). -/
def State.recMiss (s : State) (ctx key c : Nat) (ea : Int) (m : Bool) : State :=
  let s1 := s.addFault (ownerOf ea) (s.supCtx ctx) ea ea 5 c 0 0 0 m
  let x := s1.ctx ctx
  s1.setCtx ctx { x with recPark := Tab.put key ea x.recPark }
/-- The die whose count measures a context's hang. -/
def State.hangDie (s : State) (ctx : Nat) : Nat := (s.ctx ctx).lr.dies.headD 0
/-- The HANG notice of a graph that has been written or that will not be (R413, R416). -/
def State.hangNote (s : State) (ctx : Nat) : State :=
  let x := s.ctx ctx
  match x.graph with
  | none => s
  | some (t, _) => (s.setCtx ctx { x with graph := none, recPark := Tab.del 0 x.recPark }).notice 3 ctx (s.hangDie ctx) [loW t, hiW t]
/-- The wait-for graph goes into the context record, and then the notice is pushed (R416). A write that misses waits for its page; one
that is refused, or without a save area, is abandoned (R413). -/
def State.putGraph (s : State) (ctx c : Nat) : State :=
  let x := s.ctx ctx
  match x.graph with
  | none => s
  | some (_, g) =>
    if !saveBaseOk x.savebase then s.hangNote ctx
    else match s.saveTo ctx (s.recLow ctx none) with
      | .ok => (s.putRecWords ctx (s.recLow ctx none) (g.zipIdx.map (fun (v, i) => (2187 + i, v)))).hangNote ctx
      | .refused => (s.hangNote ctx).startKill ctx true
      | .miss ea m => s.recMiss ctx 0 c ea m
/-- SAVE_COMPLETE (R410-R414): a block's record is written and the notice pushed, after a graph that a hang left to write. A record
that cannot be written makes the save wait for its page until REPLAY, or ends the context. -/
def execSaveComplete (ctx bid : Nat) (s : State) : R :=
  let x := s.ctx ctx
  match s.blkSt ctx bid with
  | .saving c t =>
    if x.killing ∨ (Tab.find x.recPark (bid + 1)).isSome then .next s
    else if x.graph.isSome then .next (if (Tab.find x.recPark 0).isSome then s else s.putGraph ctx c)
    else if !s.saveReady c then .next s
    else match s.saveTo ctx (s.recLow ctx (some bid)), s.saveTo ctx (s.recLow ctx none) with
      | .ok, .ok => .next (s.finishSave ctx bid c t)
      | .refused, _ => .next (s.startKill ctx true)
      | _, .refused => .next (s.startKill ctx true)
      | .miss ea m, _ => .next (s.recMiss ctx (bid + 1) c ea m)
      | _, .miss ea m => .next (s.recMiss ctx (bid + 1) c ea m)
  | _ => .next s

/-! Reading a record (R412, R414, R445). -/

/-- Whether a saved block's record has its complete trit. -/
def State.recComplete (s : State) (ctx bid : Nat) : Bool :=
  decide (trit (s.recRead (s.supCtx ctx) (s.recLow ctx (some bid)) 0) 26 = 1)
/-- A folio's entry from its words. -/
def folioOfWords (w : List Int) : Folio :=
  let a (k : Nat) : Int := w.getD k 0
  { st := offF (a 0) 25 2, ring := offF (a 0) 21 4, slot := offF (a 0) 18 3, stag := fld (a 0) 9 9
    nz := [offF (a 3) 0 9, offF (a 3) 9 9, offF (a 3) 18 9, offF (a 2) 0 9, offF (a 2) 9 9, offF (a 2) 18 9
           , offF (a 1) 0 9, offF (a 1) 9 9, offF (a 1) 18 9] }
/-- A slot's configuration from its words. -/
def slotOfWords (x : Slot) (w : List Int) : Slot :=
  let a (k : Nat) : Int := w.getD k 0
  { x with atype := NTy.ofCode (offF (a 0) 3 2), btype := NTy.ofCode (offF (a 0) 5 2), otype := OTy.ofCode (offF (a 0) 7 2)
           pa := offF (a 1) 9 2 + 1, pb := PB.ofCode (offF (a 1) 11 2), sa := wrap (a 2) 9, sb := wrap (a 3) 9, so := wrap (a 4) 9
           s := a 5, otag := wrap (a 6) 9, fit := a 7 }
/-- What a stopped thread is to do once its warp issues again: parked and waiting lanes issue their unit again. -/
def calm (x : Thread) : Thread :=
  match x.wait, x.prior with
  | .claim, .waiting => x
  | .barrier .., .waiting => x
  | .phase, .waiting => x
  | _, .held => { x with wait := .none_ }
  | _, _ => { x with prior := .runnable, wait := .none_ }
/-- A thread as its record and what is kept of it give it (R414); a barrier's instance is found again on the new core. -/
def State.readThread (s : State) (sup : Nat) (low : Int) (w lane n base : Nat) (hm : Bool) (old : Thread) : Thread :=
  let at_ := 81 + 729 * widOf w + 27 + 36 * lane
  let r (j : Nat) : Int := s.recRead sup low (at_ + j)
  let p (j : Nat) : Int := s.recPair sup low (at_ + j)
  let sw := r 4
  let code := offF sw 24 3
  let x : Thread := { old with
    pc := wrap (p 0) 52, mr := wrap (p 2) 52, cause := r 5, epc := p 6, emr := p 8, einfo := r 10, eaddr := p 11
    hscr0 := p 13, hscr1 := p 15, busy := false, unhandled := false, inH := old.inH || decide (code = 6)
    preds := (List.range 243).foldl (fun t f => Tab.set 0 f (trit (r (17 + f / 27)) (f % 27)) t) []
    regs := (List.range n).foldl (fun t i => Tab.set 0 i (s.recRead sup low (20493 + base + 16 * i + lane)) t) []
    deadline := old.deadline.map (fun _ => p 26), ldnb := old.ldnb.map (fun _ => p 26), tret := false, wait := .none_, st := .runnable, prior := .runnable }
  let bv : Bool := match old.wait with
    | .barrier _ _ _ _ b => b
    | _ => false
  if code = 5 then { x with st := .exited }
  else if code = 1 then { x with st := .held }
  else if code = 3 then
    if fld sw 9 3 = 6 then (if old.wait = .phase then { x with st := .waiting, wait := .phase } else { x with pc := old.pc })
    else
      let l := Level.ofCode (fld sw 9 3)
      { x with st := .waiting, wait := .barrier l (s.barKey l w) (offF sw 12 3) (wrap sw 9) bv }
  else if code = 7 then
    let c := calm old
    let wait : Wait := match c.wait with
      | .barrier l _ k p b => .barrier l (s.barKey l w) k p b
      | q => q
    { x with st := .stopped, prior := c.prior, wait := wait }
  else if code = 9 then { x with st := .waiting, wait := .claim }
  else if hm && !x.inH then { x with inH := true }
  else x
/-- A warp as its record and what is kept of it give it; none when its record is not valid. -/
def State.readWarp (s : State) (sup : Nat) (low : Int) (i : Nat) (old : Warp) : Option Warp :=
  let at_ := 81 + 729 * i
  let r (j : Nat) : Int := s.recRead sup low (at_ + j)
  let p (j : Nat) : Int := s.recPair sup low (at_ + j)
  if trit (r 0) 26 ≠ 1 then none
  else some { old with hm := trit (r 0) 25 = 1, pl := trit (r 0) 24, rtC := p 1, rtD := p 3, rtP := p 5, rtN := p 7, n := (r 13).toNat
                       bph := [0, 1, 2].foldl (fun t k => Tab.set 0 k (wrap (r (603 + k)) 9) t) [] }

/-- What names a saved block's warps names those of its new core. A copy that waited for a page tries again (R331). -/
def moveCore (c : Nat) (k : CoreSt) : CoreSt :=
  let m (w : Nat) : Nat := c * 28 + widOf w
  { k with
    copies := k.copies.map (fun x => { x with warp := m x.warp, parked := none })
    nib := k.nib.map (fun x => { x with warp := m x.warp })
    claims := k.claims.map (fun q => match q.by_ with
      | .warp w g l => { q with by_ := .warp (m w) g l }
      | .scribe w => { q with by_ := .scribe (m w) }
      | .bin b => { q with by_ := .bin b })
    scribe := { k.scribe with warp := m k.scribe.warp }
    pbuf := k.pbuf.map (fun e => match e with
      | .store i w sec tr x => .store i (m w) sec tr x
      | .red i w ea op sz v x => .red i (m w) ea op sz v x) }
/-- The core's own parts from a record: scratchpad, accumulators, folios, slots. -/
def State.readCore (s : State) (sup : Nat) (low : Int) (c : Nat) (old : CoreSt) : State :=
  let k := moveCore c old
  let slots : Tab Slot := (List.range 9).foldl (fun t j =>
    let x := slotOfWords { acc := accTab ((List.range 729).map (fun e => s.recRead sup low (138591 + 729 * j + e))) }
      ((List.range 8).map (fun i => s.recRead sup low (171396 + 8 * j + i)))
    Tab.set {} j x t) []
  let folios : Tab Folio := k.folio.map (fun p => if p.2.st = 0 then p
    else (p.1, folioOfWords ((List.range 4).map (fun i => s.recRead sup low (151713 + 4 * p.1 + i)))))
  let s1 := s.setCore c { k with slots := slots, folio := folios, scr := [] }
  (List.range 59049).foldl (fun a (j : Nat) => a.setScrWord c (-88572 + 3 * (j : Int)) (s.recRead sup low (79542 + j))) s1
/-- A barrier's phase that completed while the block stood saved: its threads retire, or a spoiled BARV raises ILL, and
the result is written (R85, R245, R246). -/
def State.catchUp (s : State) (ctx bid c : Nat) : State :=
  let x := s.ctx ctx
  let mine := x.barRes.filter (fun e => decide (e.1 = bid))
  let s1 := (mine.foldl (fun a e => match e.2.1 with
    | some (dst, v) => a.putVec c dst v
    | none => a) s).setCtx ctx { x with barRes := x.barRes.filter (fun e => decide (e.1 ≠ bid)) }
  (s1.warpsOf c).foldl (fun a w => (threadsOf w).foldl (fun a t =>
    let y := a.thread t
    match y.wait with
    | .barrier l _ k p bv =>
      if a.barPhase w l k = p then a
      else if bv && mine.any (fun e => e.2.1.isNone && (match e.2.2 with
          | .barrier l2 _ k2 p2 _ => decide ((l2, k2, p2) = (l, k, p))
          | _ => false)) then
        (a.setThread t { y with wait := .none_, st := if y.st = .waiting then .runnable else y.st
                                prior := if y.st = .stopped then .runnable else y.prior }).raise t { cause := 0, pc := y.pc }
      else a.endWait t
    | _ => a) a) s1
/-- The die of a block (R355, R447). -/
def dieOfBlk (lr : Launch) (bid : Nat) : Nat :=
  if lr.det then lr.dies.getD (bid / 80) 0 else lr.dies.getD (bid / lr.group % lr.dies.length) 0
/-- A saved block is restored on a core (R412, R445). -/
def State.restore (s0 : State) (ctx bid c : Nat) : State :=
  match Tab.find (s0.ctx ctx).saved bid with
  | none => s0
  | some y =>
    let sup := s0.supCtx ctx
    let low := s0.recLow ctx (some bid)
    let s := s0.recFill sup low recWords (dieIdx c)
    let s1 := s.readCore sup low c { y.core with blk := some (ctx, bid) }
    let s2 := y.warps.foldl (fun a (i, v) => match s1.readWarp sup low i v with
      | some x => a.setWarp (c * 28 + i) x
      | none => a) s1
    let s3 := (s2.warpsOf c).foldl (fun a w =>
      let x := a.warp w
      let base := (s.recRead sup low (81 + 729 * widOf w + 14)).toNat
      (List.range 16).foldl (fun b l =>
        let t := s2.readThread sup low w l x.n base x.hm (Tab.get {} y.thr (16 * widOf w + l))
        if t.st = .exited then b
        else
          let d := b.setThread (threadOf w l) t
          if t.pc = (Tab.get {} y.thr (16 * widOf w + l)).pc then d else d.dropKept (threadOf w l)) a) s2
    let back (r : Req) : Req :=
      if r.away ∧ r.ctx = ctx ∧ r.bid = bid then { r with away := false, core := c, warp := c * 28 + widOf r.warp } else r
    let x := s3.ctx ctx
    let s4 := { (s3.setCtx ctx { x with saved := Tab.del bid x.saved }) with reqs := s3.reqs.map back }
    let s5 := s4.catchUp ctx bid c
    (s5.warpsOf c).foldl (fun a w => a.settle w) s5

end Sys2Proof.Machine
end

