-- ==== Sys2Proof/Machine/Hang.lean ====
section
/-! DEFINITION. The hang detector (R86, R272, R416-R418): which waits are watched, what they wait for, HANG and its
wait-for graph. -/

namespace Sys2Proof.Machine

/-- What a watched wait waits on (R418). The scale queue stands as port 18 of its core. -/
inductive Obj where
  | bar (l : Level) (key k : Nat) | queue (c q : Nat) | ticket (own slice q : Nat) | claim (c : Nat) | folio (c f : Nat)
  | phase (ctx c : Nat) | spawn (c b : Nat) | limit (w : Nat) (cls : Cls)
  deriving DecidableEq, Repr
/-- The objects of one wait, the first first, with the need at each port. -/
abbrev Waits := List (Obj × Int)

/-- The folio at a ring's pointer. -/
def State.ringFolio (s : State) (c r : Nat) (prod : Bool) : Nat :=
  let g := s.ringOf c r
  (g.at_ (if prod then g.p else g.c)).getD 0
/-- What a copy waits for, when that is watched (R272). -/
def State.copyWaits (s : State) (c : Nat) (x : Copy) : Waits :=
  let ctx := ((s.core c).blk.getD (0, 0)).1
  if x.stopped ∨ x.count ≤ x.pos then
    (if x.o.tok ∧ 81 ≤ (s.port c 9).length ∧ x.w ≤ s.now c then [(.queue c 9, -1)] else [])
  else if x.parked.isSome then []
  else if x.o.mode = .q ∧ !x.matched then [(.queue c 18, 1)]
  else if x.o.mode = .sqp ∧ (!s.sqTurn c x ∨ 27 ≤ (s.core c).sq.length) then [(.queue c 18, -1)]
  else
    let byRow : Bool := decide (x.form = .gather) || decide (x.form = .scatter)
    match byRow && decide (x.idxs.length ≤ x.pos / x.rowLen), x.idxPort with
    | true, some q => if (s.port c q).isEmpty && !s.portClosed c ctx q then [(.queue c q, 1)] else []
    | _, _ =>
      match x.o.sring, x.o.dring with
      | some r, _ => if (s.copyFolio c x false r).isNone then [(.folio c (s.ringFolio c r false), 0)] else
          (match x.o.dring with
           | some d => if (s.copyFolio c x true d).isNone then [(.folio c (s.ringFolio c d true), 0)] else []
           | none => [])
      | none, some d => if (s.copyFolio c x true d).isNone then [(.folio c (s.ringFolio c d true), 0)] else []
      | none, none => []
/-- What a Nib command waits for, when that is watched. -/
def State.nibWaits (s : State) (c : Nat) (x : NibCmd) : Waits :=
  if x.fin then (if x.tok.isSome ∧ 81 ≤ (s.port c 10).length then [(.queue c 10, -1)] else [])
  else if x.now ∨ !(s.nibFree c).any (fun y => decide (y.id = x.id)) then []
  else match x.op with
    | .loop ra rb _ bhold .. =>
      if (s.atC c ra 2).isNone then [(.folio c (s.ringFolio c ra false), 0)]
      else if !(bhold && decide (x.done ≠ 0)) && (s.atC c rb 2).isNone then [(.folio c (s.ringFolio c rb false), 0)] else []
    | .drain o .. =>
      if x.aFolio.isNone && (s.atP c o.ro 0).isNone then [(.folio c (s.ringFolio c o.ro true), 0)]
      else if o.res && x.bFolio.isNone && (s.atC c o.rr 2).isNone then [(.folio c (s.ringFolio c o.rr false), 0)] else []
    | _ => []
/-- The instructions that a WAIT with some bounds awaits, where they wait in a watched way. An issue that finds its Nib queue full waits
as a WAIT on tl does (R299): for the issuing warp's own commands, whoever else's fill the queue (DESIGN CHOICE, log 75). -/
def State.countedWaits (s : State) (w : Nat) (bounds : List Nat) : Waits :=
  let c := coreOf w
  let above (i : Nat) : Bool := decide (bounds.getD i 242 < (s.counters w).getD i 0)
  let tk := (s.reqs.filter (fun r => decide (r.warp = w) && above (match r.kind with
      | .atomo _ _ _ d _ _ => if d < 216 then 0 else 1
      | .tkt .. => 0
      | _ => 1))).flatMap (fun r => match s.ticketOf r with
    | some (o, sl, q) => [(Obj.ticket o sl q, (0 : Int))]
    | none => [])
  tk ++ (if above 2 then ((s.core c).copies.filter (fun x => decide (x.warp = w))).flatMap (s.copyWaits c) else [])
    ++ (if above 3 then ((s.core c).nib.filter (fun x => decide (x.warp = w))).flatMap (s.nibWaits c) else [])
/-- The watched wait of a thread; none when its wait is not watched. -/
def State.threadWaits (s : State) (t : Nat) : Waits :=
  let x := s.thread t
  let w := warpOf t
  let c := coreOf w
  if x.st ≠ .waiting then []
  else match x.wait with
    | .reissue (.queue []) _ => [(.claim c, 0)]
    | .reissue (.queue ns) _ => ns.map (fun p => (Obj.queue c p.1, p.2))
    | .reissue (.ticket o sl q) _ => [(.ticket o sl q, 0)]
    | .reissue (.mail b n) _ => [(.queue ((s.coreOfBlk (s.warp w).ctx b).getD c) 13, -(n : Int))]
    | .reissue (.folio f) _ => [(.folio c f, 0)]
    | .reissue (.spawn b) _ => [(.spawn c b, 0)]
    | .reissue (.limit k) _ => [(.limit w k, 0)]
    | .barrier l key k _ _ => [(.bar l key k, 0)]
    | .barw l key k _ => [(.bar l key k, 0)]
    | .phase => [(.phase (s.warp w).ctx c, 0)]
    | .claim => [(.claim c, 0)]
    | .counters b _ => s.countedWaits w b
    | .nib id => match (s.core c).nib.find? (fun y => decide (y.id = id)) with
      | none => []
      | some y => (((s.core c).nib.filter (fun z => decide (z.id < id) && nibConflict z y)).flatMap (s.nibWaits c)).filter (fun p => match p.1 with
          | .folio .. => true
          | _ => false)
    | _ => []

/-- Whether a WAITING thread waits in its group's unit: a queue port, WAIT, a fence, a full table; a barrier, a timed
wait, an earlier access, a ticket, a spawn bin, PHASE and TRET are waits of each thread alone (R65, R152; DEDUCED, log 19). -/
def groupWait (x : Thread) : Bool :=
  decide (x.st = .waiting) && (match x.wait with
    | .reissue (.ticket ..) _ => false
    | .reissue (.spawn _) _ => false
    | .reissue .. => true
    | .timed _ => x.deadline.isNone && x.kept.isNone
    | .fence .. => true
    | .fenced _ => true
    | .claim => true
    | .ink => true
    | .counters .. => true
    | .nib _ => true
    | _ => false)
/-- Whether a RUNNABLE lane stays with its issue group: a sibling of its last issue waits in that unit, which the lane leaves
together with it (R152; DEDUCED, log 19). -/
def State.barred (s : State) (w l : Nat) : Bool :=
  let x := s.thread (threadOf w l)
  decide (x.st = .runnable) && (List.range 16).any (fun k =>
    let y := s.thread (threadOf w k)
    decide (y.stamp = x.stamp) && groupWait y)
/-- A warp is waiting (R416): a RUNNABLE lane that stays with a waiting sibling waits with it. -/
def State.warpWaits (s : State) (w : Nat) : Bool :=
  let live := s.alive w
  live.all (fun t => decide ((s.thread t).st = .held) || s.barred w (t % 16) || !(s.threadWaits t).isEmpty)
    && live.any (fun t => !(s.threadWaits t).isEmpty)
/-- The resident warps of a context. -/
def State.warpsIn (s : State) (ctx : Nat) : List Nat := (s.wrp.filter (fun p => decide (p.2.ctx = ctx))).map (·.1)
/-- A user context is hung (R416). -/
def State.isHung (s : State) (ctx : Nat) : Bool :=
  let x := s.ctx ctx
  x.live && !x.killing && !isSup ctx && x.blk.all (fun p => match p.2 with
    | .placed _ => true
    | .ended => true
    | _ => false) && !(s.warpsIn ctx).isEmpty && (s.warpsIn ctx).all s.warpWaits
/-- The detector's measurement after a step: the time since when a context has been hung. -/
def State.noteHang (s : State) : State :=
  { s with ctxs := s.ctxs.map (fun p => if isSup p.1 ∨ !p.2.live then p
      else (p.1, { p.2 with hang := if s.isHung p.1 then some (p.2.hang.getD (s.dieSt (s.ownKey (s.hangDie p.1))).clk) else none })) }

/-! The wait-for graph (R418). -/

/-- A waiting group: its warp, its PC and its waits. -/
structure WGroup where
  warp : Nat
  pc : Int
  stamp : Nat
  waits : Waits
  deriving DecidableEq, Repr
def State.wgroups (s : State) (ctx : Nat) : List WGroup :=
  ((s.warpsIn ctx).flatMap (fun w => (s.alive w).filterMap (fun t =>
    let ws := s.threadWaits t
    if ws.isEmpty then none else some { warp := w, pc := (s.thread t).pc, stamp := (s.thread t).stamp, waits := ws : WGroup }))).eraseDups
def Obj.kind : Obj → Nat
  | .bar .. => 0 | .queue .. => 1 | .ticket .. => 2 | .claim _ => 3 | .folio .. => 4 | .phase .. => 5 | .spawn .. => 6 | .limit .. => 7
/-- The wid of a block's warp by launch index: a resident one's slot, or the slot at which an initial warp began (R61). A spawned warp
that is not resident has none that the spec states: the word is free. -/
def State.widAt (s : State) (c k i : Nat) : Int :=
  match (s.warpsOf c).find? (fun w => decide ((s.warp w).idx = i) && decide (widOf w ≠ 27)) with
  | some w => (widOf w : Int)
  | none =>
    if i < (s.ctx ((s.core c).blk.getD (0, 0)).1).lr.warps then ((9 * (i % 3) + i / 3 : Nat) : Int)
    else wrap (Config.freeWord (s.fresh + 27 * k + i)) 27
/-- The members of a barrier that have not arrived: also those that have exited or ended, or were never created (R84). -/
def State.absent (s : State) (ctx : Nat) (l : Level) (key k : Nat) : List Int :=
  let b := s.bar l key k
  let blocks (p : Nat → Nat → Bool) : List Int :=
    (s.ctxs.filter (fun q => q.2.live)).flatMap (fun q => (q.2.blk.filter (fun e =>
      p q.1 e.1 && !b.blocks.any (fun a => decide (a.blk = blkKey q.1 e.1)))).map (fun e => (e.1 : Int)))
  match l with
  | .warp => ((s.alive key).filter (fun t => !(Tab.get [] (s.warp key).barr k).contains (t % 16))).map (fun t => ((t % 16 : Nat) : Int))
  | .block => ((List.range (barCount (s.ctx ctx).lr l k).toNat).filter (fun i => !b.warps.any (fun a => decide (a.idx = i)))).map (s.widAt key k)
  | .cluster => blocks (fun x bid => decide (x * 1000 + dieOfBlk (s.ctx x).lr bid * 9 + Tab.get 9 (s.ctx x).place1 bid = key) && decide (Tab.get 9 (s.ctx x).place1 bid < 9))
  | .die => blocks (fun x bid => decide (x * 1000 + dieOfBlk (s.ctx x).lr bid = key))
  | .domain => blocks (fun x _ => decide ((((s.ctx x).lr.dkey + 9841).toNat) = key) && decide (barCount (s.ctx x).lr l k ≠ 0))
/-- What an object entry says. -/
def State.objWords (s : State) (ctx : Nat) (gs : List WGroup) (o : Obj) : List Int :=
  let cn (c : Nat) : Int := ((c % 81 : Nat) : Int)
  match o with
  | .bar l key k =>
    let n : Int := if l = .warp then ((s.alive key).length : Int) else barCount (s.ctx ctx).lr l k
    let a : Int := if l = .warp then ((Tab.get [] (s.warp key).barr k).length : Int)
      else if l = .block then ((s.bar l key k).warps.length : Int) else (((s.bar l key k).blocks.length + (s.bar l key k).ext : Nat) : Int)
    [l.code, (k : Int), n, a] ++ s.absent ctx l key k
  | .queue c q =>
    [cn c + (q : Int) * pow3 9, if q = 18 then ((s.core c).sq.length : Int) else ((s.port c q).length : Int)]
      ++ gs.flatMap (fun g => (g.waits.filter (fun p => decide (p.1 = o))).map (·.2))
  | .claim c =>
    [cn c, s.poolFree c] ++ (s.core c).claims.map (fun q =>
      let wid : Nat := match q.by_ with
        | .warp w _ _ => widOf w
        | .bin b => ((Tab.find (s.core c).bins b).bind (·.slot)).getD 0
        | .scribe _ => 27
      (wid : Int) * pow3 22 + (q.words : Int))
  | .ticket own sl q =>
    (match s.seq own sl q with
     | some x => [(sl : Int), (q : Int), x.n, x.d]
     | none => [(sl : Int), (q : Int), 0, 0])
  | .folio c f => [cn c, (f : Int), ((s.folio c f).st : Int)]
  | .phase x c => [cn c, 0] ++ ((List.range (s.ctx x).lr.blocks).filter (fun b => !s.blockClosed x b)).map (fun (b : Nat) => (b : Int))
  | .spawn c b => [cn c, (b : Int), (((Tab.find (s.core c).bins b).map (fun y => y.args.length)).getD 0 : Int)]
  | .limit w k =>
    let i : Nat := match k with
      | .ld => 0
      | .st => 1
      | .cp => 2
      | .tl => 3
    [cn (coreOf w), (i : Int), (cntOf k (s.warp w) : Int)]
/-- The graph's words. -/
def State.hangGraph (s : State) (ctx : Nat) : List Int :=
  let gs := s.wgroups ctx
  let objs := (gs.flatMap (fun g => g.waits.map (·.1))).eraseDups
  let warps := (s.warpsIn ctx).filterMap (fun w => (gs.find? (fun g => decide (g.warp = w))).bind (fun g => (g.waits.head?).map (fun p =>
    [oAt (dieIdx (coreOf w)) 3 24 + oAt (coreOf w % 81) 4 20 + oAt (widOf w) 4 16 + oAt p.1.kind 2 14 + oAt (objs.idxOf p.1) 14 0, loW g.pc, hiW g.pc])))
  [(warps.length : Int), (objs.length : Int)] ++ warps.flatten
    ++ objs.flatMap (fun o => let ws := s.objWords ctx gs o
      (oAt o.kind 2 25 + oAt ws.length 9 16) :: ws)

/-- HANG (R416, R417): the threshold is reached: HANG is set in every thread, every block's save begins, the graph is written into
the context record, and the notice is pushed. -/
def execHang (ctx : Nat) (s : State) : R :=
  let x := s.ctx ctx
  let die := s.hangDie ctx
  match x.hang with
  | none => .next s
  | some t0 =>
    let t := t0 + (s.part x.part).hangth
    if !s.isHung ctx ∨ (s.dieSt (s.ownKey die)).clk < t then .next s
    else
      let g := s.hangGraph ctx
      let s1 := (s.warpsIn ctx).foldl (fun a w => (s.alive w).foldl (fun a t =>
        let y := a.thread t
        a.setThread t { y with cause := setCause y.cause 19 }) a) s
      let s2 := { s1.setCtx ctx { s1.ctx ctx with hang := none, graph := some (t, g) } with fresh := s1.fresh + 243 }
      let s3 := (List.range x.lr.blocks).foldl (fun a b => match a.blkSt ctx b with
        | .placed _ => a.forceSave ctx b
        | _ => a) s2
      .next (s3.putGraph ctx (coreOf ((s.warpsIn ctx).headD 0)))

end Sys2Proof.Machine
end

