-- ==== Sys2Proof/Machine/Kill.lean ====
section
/-! DEFINITION. Killing a context (R415): KILL and KILL_COMPLETE; what a context leaves behind when it ends. -/

namespace Sys2Proof.Machine

/-- KILL (R415). -/
def execKill (h : Hdr) (a : Nat) (s : State) : R :=
  .next (s.perGroup h { srcR := [a], level := .sup, forbid := true } (fun act t s =>
    match s.namedCtx (s.reg t a) with
    | none => s.faultAll act 5 0
    | some ctx => (if (s.ctx ctx).killing then s else s.startKill ctx false).retireAll act))

/-- Requests that have left their cores and must be performed before the context is gone. -/
def Req.mustEnd (r : Req) : Bool :=
  match r.stage, r.kind with
  | .owner, .stva .. => true | .owner, .atom .. => true | .owner, .cas .. => true | .owner, .atomo .. => true
  | .owner, .stb .. => true | .owner, .tkp .. => true
  | .home, .stva .. => !r.first | .home, .atom .. => true | .home, .cas .. => true | .home, .atomo .. => true
  | .home, .stb .. => true | .home, .tkp .. => true | .home, .wb .. => true | .home, .commit .. => true
  | .faulted _, .wb .. => true
  | _, _ => false
/-- A timed store without its warp: it is performed at its time, and nothing is answered. -/
def orphan (r : Req) : Req := { r with warp := 1000000000000000, lane := 16, gid := 0, away := false }
/-- The ordered atomics of a context that still wait: their sequences pass the numbers before them (R249, R415). -/
def State.endTickets (s : State) (ctx : Nat) : State :=
  let wait (r : Req) : Bool := decide (r.ctx = ctx) && (seqOf r.kind).isSome && (decide (r.stage = .buffered) || decide (r.stage = .refused))
  let s1 := { s with reqs := s.reqs.map (fun r => if wait r then { r with stage := .buffered } else r) }
  let s2 := s1.die.foldl (fun a (own, _) => a.passDrawn own ctx (fun _ => true)) s1
  let left := (s2.reqs.filter wait).mergeSort (fun p q => decide (((seqOf p.kind).map (·.2)).getD 0 ≤ ((seqOf q.kind).map (·.2)).getD 0))
  let s3 := left.foldl (fun a r => (a.performSeq r false).noteDeps) s2
  { s3 with die := s3.die.map (fun p => (p.1, { p.2 with seqs := p.2.seqs.filter (fun q => decide (q.2.ctx ≠ ctx)) })) }
/-- Whether a barrier unit belongs to a context alone (R83). -/
def barOf (ctx key : Nat) : Bool :=
  let q := key / 9
  (decide (q / 1000000 = 3) || decide (q / 1000000 = 4)) && decide (q % 1000000 / 1000 = ctx)
/-- Barrier units are freed, and a domain barrier forgets the context's arrivals. -/
def State.endBars (s : State) (ctx : Nat) : State :=
  let own (b : Nat) : Bool := decide (b / 2000000 ≠ ctx)
  { s with bars := (s.bars.filter (fun p => !barOf ctx p.1)).map (fun p => (p.1, { p.2 with
      arr := p.2.arr.filter (fun a => own a.blk), warps := p.2.warps.filter (fun a => own a.blk), blocks := p.2.blocks.filter (fun a => own a.blk) })) }
/-- What faults, queues and records hold of a context. -/
def State.endFaults (s : State) (ctx : Nat) : State :=
  { s with
    die := s.die.map (fun p => (p.1, { p.2 with fb := p.2.fb.filter (fun e => decide (e.ctx ≠ ctx)), missed := p.2.missed.filter (fun e => decide (e.ctx ≠ ctx))
                                                dropped := p.2.dropped.filter (· ≠ ctx)
                                                queue := p.2.queue.filter (fun q => decide (q.ctx ≠ ctx)) }))
    recs := s.recs.filter (fun r => r.deferred || !(decide (fld (r.words.headD 0) 24 3 = 1) && decide (fld (r.words.headD 0) 9 9 = (ctx : Int)))) }
/-- No block of a context waits for placement (R446). -/
def State.endQueued (s : State) (ctx : Nat) : State :=
  { s with die := s.die.map (fun p => (p.1, { p.2 with queue := p.2.queue.filter (fun q => decide (q.ctx ≠ ctx)) })) }
/-- The cores of a context are free. -/
def State.endCores (s : State) (ctx : Nat) : State :=
  (s.cor.filter (fun p => decide ((p.2.blk.map (·.1)) = some ctx))).foldl (fun a p => a.clearCore p.1) s
/-- The context number is free; its counters stay readable (R415, R446). -/
def State.endCtx (s : State) (ctx : Nat) : State :=
  let x := s.ctx ctx
  s.setCtx ctx { part := x.part, counters := x.counters }
/-- Everything that a killed context leaves is gone. -/
def State.dropCtx (s : State) (ctx : Nat) : State :=
  let s1 := s.endTickets ctx
  let ws := (s1.wrp.filter (fun p => decide (p.2.ctx = ctx))).map (·.1)
  let s2 := ws.foldl (fun a w => a.liftPreps w) s1
  let s3 := { s2 with reqs := s2.reqs.filterMap (fun (r : Req) =>
    if r.ctx ≠ ctx then some r
    else match r.stage, r.kind with
      | .buffered, .stva .. => some (orphan r)
      | .home, .stva .. => some (orphan r)
      | _, _ => none) }
  (((s3.endBars ctx).endFaults ctx).endCores ctx).endCtx ctx
/-- KILL_COMPLETE (R413, R415): what had left the cores is performed, the context is gone, and the notice is pushed, after that of a
HANG whose graph was never written. -/
def execKillComplete (ctx : Nat) (s : State) : R :=
  let x := s.ctx ctx
  if !x.live ∨ !x.killing ∨ s.reqs.any (fun r => decide (r.ctx = ctx) && r.mustEnd) then .next s
  else
    let die := x.lr.dies.headD 0
    .next (((s.hangNote ctx).dropCtx ctx).notice 5 ctx die [if x.killNeg then -1 else 0])

end Sys2Proof.Machine
end

