-- ==== Sys2Proof/Machine/Translate.lean ====
section
/-! DEFINITION. Answers to faults and changes of translations: REPLAY, DENY, TLBI (R431-R435), and the host half's
answers (R427). -/

namespace Sys2Proof.Machine

/-- The owner that an owner word names (R431). -/
def State.ownerWord (s : State) (v : Int) : Option Nat :=
  if wrap v 6 = v ∧ s.present (offF v 3 3) ∧ offF v 0 3 ≤ 9 then some (offF v 3 3 * 27 + offF v 0 3) else none
/-- The owner of a device address that a form names. -/
def State.ownerAddr (s : State) (ea : Int) : Option Nat :=
  if spaceOf ea = 1 ∧ s.ownerOk ea then some (ownerOf ea) else none

/-! REPLAY and DENY (R432, R433). -/

/-- Lanes that waited for a parked fetch wait for it as before. -/
def State.wakeFetch (s : State) (r : Req) : State :=
  if isFetch r.kind then
    r.thrs.foldl (fun a t =>
      let x := a.thread t
      a.setThread t { x with busy := true, st := if x.st = .parked then .runnable else x.st
                             prior := if x.prior = .parked then .runnable else x.prior }) s
  else s
/-- Whether a request is one whose fault the owner has decided: it is parked, or is told so later (R432, R433). -/
def Req.faulty (r : Req) : Bool :=
  match r.stage, r.kind with
  | .parked, _ => true
  | .faulted _, .wb .. => false
  | .faulted _, _ => true
  | _, _ => false
/-- The contexts whose faults REPLAY and DENY answer: the one named, and the supervisor's own, whose record reads and writes name no
context of 1 to 27 (R413, R431, R444; DEDUCED, log 47). -/
def State.answers (s : State) (ctx c : Nat) : Bool := decide (c = ctx) || decide (c = s.supCtx ctx)
/-- Save records of a supervisor's contexts whose writes wait for a page: the context, the record's key and the page (R413). -/
def State.recWaits (s : State) (ctx : Nat) (p : Int → Bool) : List (Nat × Nat) :=
  (s.ctxs.filter (fun q => q.2.live && decide (s.supCtx q.1 = s.supCtx ctx))).flatMap (fun q => (q.2.recPark.filter (fun e => p e.2)).map (fun e => (q.1, e.1)))
/-- A record's write goes on (R413). -/
def State.wakeRec (s : State) (e : Nat × Nat) : State :=
  let x := s.ctx e.1
  s.setCtx e.1 { x with recPark := Tab.del e.2 x.recPark }
/-- A denied record write abandons its save, which ends the context; a hang's notice is pushed first (R413). -/
def State.denyRec (s : State) (e : Nat × Nat) : State :=
  if (s.ctx e.1).killing then s else ((s.wakeRec e).hangNote e.1).startKill e.1 true
/-- Every copy and decode session of a context that waits at an owner, or at one page of it, is given to functions. -/
def State.wakeEngines (s : State) (ctx : Nat) (p : Int → Bool) (cp : State → Nat → Copy → State) (se : State → Nat → State) : State :=
  let hit (a : Option Int) : Bool := a.any (fun ea => decide (spaceOf ea = 1) && p ea)
  let cs := (s.cor.filter (fun q => decide (q.2.blk.map (·.1) = some ctx))).flatMap (fun q => (q.2.copies.filter (fun x => hit x.parked)).map (fun x => (q.1, x)))
  let s1 := cs.foldl (fun a q => cp a q.1 q.2) s
  ((s.ctx ctx).sess.filter (fun q => hit q.2.parked)).foldl (fun a q => se a q.1) s1
/-- The lanes that a parked LAUNCH holds may issue it again (R444). -/
def State.wakeLaunch (s : State) (r : Req) : State :=
  r.thrs.foldl (fun a t =>
    let x := a.thread t
    a.setThread t { x with st := if x.st = .parked then .runnable else x.st
                           prior := if x.prior = .parked then .runnable else x.prior }) (s.delReq r.id)
/-- Whether a parked request is a LAUNCH's read of its record. -/
def isLaunch : RK → Bool
  | .launch _ => true
  | _ => false
/-- REPLAY (R432): every request whose fault the owner has decided is resent, also one that is yet to park. -/
def execReplay (h : Hdr) (d a b : Nat) (s : State) : R :=
  .next (s.perGroup h { dstR := [d], srcR := [a, b], level := .sup, forbid := true } (fun act t s =>
    match s.namedCtx (s.reg t a), s.ownerWord (s.reg t b) with
    | some ctx, some own =>
      let x := s.dieSt own
      let f := x.fb.countP (fun e => decide (e.ctx = ctx))
      let st : Int := (f : Int) + (if x.dropped.contains ctx then pow3 9 else 0)
      let s1 := s.setDie own { x with fb := x.fb.filter (fun e => !s.answers ctx e.ctx), missed := x.missed.filter (fun e => !s.answers ctx e.ctx)
                                      dropped := x.dropped.filter (fun c => !s.answers ctx c) }
      let rs := s1.reqs.filter (fun r => r.faulty && s1.answers ctx r.ctx && decide (r.faultOwner = own))
      let s2 := rs.foldl (fun y r => if isLaunch r.kind then y.wakeLaunch r else (y.setReq { r with stage := .owner }).wakeFetch r) s1
      let s3 := (s2.recWaits ctx (fun ea => decide (ownerOf ea = own))).foldl (fun y e => y.wakeRec e)
        (s2.wakeEngines ctx (fun ea => decide (ownerOf ea = own)) (fun y c z => y.setCopy c { z with parked := none })
          (fun y bid => y.setSession ctx bid { y.session ctx bid with parked := none }))
      (s3.curThreads act).foldl (fun y q => (y.retire q s.cur.next).setReg q d st) s3
    | _, _ => s.faultAll act 5 0))
/-- DENY (R433): a write meets status 3, a fetch FETCH; a LAUNCH is refused with reason 2 (R444), and a save is abandoned (R413). -/
def execDeny (h : Hdr) (a b : Nat) (s : State) : R :=
  .next (s.perGroup h { srcR := [a], srcP := [b], level := .sup, forbid := true } (fun act t s =>
    let ea := s.regPair t b
    match s.namedCtx (s.reg t a), s.ownerAddr ea with
    | some ctx, some own =>
      let x := s.dieSt own
      let pg (e : FbEnt) : Bool := s.answers ctx e.ctx && decide (e.page = pageOf ea)
      let s1 := s.setDie own { x with fb := x.fb.filter (fun e => !pg e), missed := x.missed.filter (fun e => !pg e) }
      let rs := s1.reqs.filter (fun r => r.faulty && s1.answers ctx r.ctx && decide (pageOf r.t = pageOf ea))
      let s2 := rs.foldl (fun y r =>
        match r.kind with
        | .launch d => r.thrs.foldl (fun z q => (z.retire q r.next).setReg q d (2 - pow3 26)) (y.wakeLaunch r)
        | k => if akind k = 3 then y.refuse r 6 0 else y.refuse r 5 (if akind k = 0 then 0 else 3)) s1
      let s3 := (s2.recWaits ctx (fun p => decide (pageOf p = pageOf ea))).foldl (fun y e => y.denyRec e) s2
      (s3.wakeEngines ctx (fun p => decide (pageOf p = pageOf ea)) (fun y c z => y.stopCopy c z (if z.parkW then 3 else 0))
        (fun y bid => y.rejectSession ctx bid)).retireAll act
    | _, _ => s.faultAll act 5 0))

/-! TLBI (R434). -/

/-- Whether a request that has been translated is not yet performed. -/
def Req.inFlight (r : Req) : Bool :=
  r.leaf.isSome && (match r.stage with
    | .home => true | .l1 => true | .filled .. => true | .buffered => true | .refused => true | _ => false)
/-- Cores that run a block of some contexts make clean words and instruction lines of some lines invalid. -/
def State.forgetLines (s : State) (ctxs : Nat → Bool) (p : Int → Bool) : State :=
  { s with cor := s.cor.map (fun q => if (q.2.blk.map (fun b => ctxs b.1)).getD false then
      (q.1, { q.2 with l1 := (q.2.l1.map (fun l => if p (unKey l.1) then (l.1, l.2.clean [0, 1, 2]) else l)).filter (fun l => !l.2.tr.isEmpty)
                       ic := q.2.ic.filter (fun f => !p f.2.line) }) else q) }
/-- A TLBI whose conditions on requests in flight are met acts; else its group waits (R434, R435). -/
def State.tlbiUnit (s : State) (act : List Nat) (busy : Req → Bool) (go : State → State) : State :=
  if s.reqs.any (fun r => r.inFlight && busy r) then s.waitAll act (.timed false) else (go s).retireAll act
/-- The translations that a request in flight has: owner, leaf and offset (R96, R434). -/
def Req.uses (r : Req) : List (Nat × Leaf × Int) :=
  (r.leaf.map (fun l => (r.own, l, offOf r.ea))).toList
    ++ (match r.ea2, r.leaf2 with
      | some e2, some l2 => [(ownerOf e2, l2, offOf e2)]
      | _, _ => [])
/-- An owner drops entries of its TLB, at both levels (R421, R434). -/
def State.dropTlb (s : State) (own : Nat) (p : TlbE → Bool) : State :=
  let x := s.dieSt own
  s.setDie own { x with tlb := x.tlb.filter (fun e => !p e), tlb1 := x.tlb1.map (fun q => (q.1, q.2.filter (fun e => !p e))) }
/-- TLBI of a page. -/
def execTlbi (h : Hdr) (a b : Nat) (s : State) : R :=
  .next (s.perGroup h { srcR := [a], srcP := [b], level := .sup, forbid := true } (fun act t s =>
    let ea := s.regPair t b
    match s.namedCtx (s.reg t a), s.ownerAddr ea with
    | some ctx, some own =>
      let off := offOf ea
      let has (l : Leaf) (va : Int) : Bool := decide (shr va l.width = shr off l.width)
      s.tlbiUnit act (fun r => decide (r.ctx = ctx) && r.uses.any (fun u => decide (u.1 = own) && has u.2.1 u.2.2))
        (fun s =>
          let x := s.dieSt own
          let drop (e : TlbE) : Bool := decide (e.ctx = ctx) && has e.leaf e.va
          let gone := (x.tlb ++ x.tlb1.flatMap (·.2)).filter drop
          (s.dropTlb own drop).forgetLines (fun c => decide (c = ctx))
            (fun l => decide (ownerOf (81 * l) = own) && gone.any (fun e => has e.leaf (offOf (81 * l)))))
    | _, _ => s.faultAll act 5 0))
/-- The owner drops every entry of a context and reads its root again. -/
def State.dropCtxTlb (s : State) (own ctx : Nat) : State :=
  (s.dropTlb own (fun e => decide (e.ctx = ctx))).reloadRoot own ctx
/-- TLBI.ctx. -/
def execTlbiCtx (h : Hdr) (a b : Nat) (s : State) : R :=
  .next (s.perGroup h { srcR := [a, b], level := .sup, forbid := true } (fun act t s =>
    match s.namedCtx (s.reg t a), s.ownerWord (s.reg t b) with
    | some ctx, some own =>
      s.tlbiUnit act (fun r => decide (r.ctx = ctx) && r.uses.any (fun u => decide (u.1 = own)))
        (fun s => (s.dropCtxTlb own ctx).forgetLines (fun c => decide (c = ctx)) (fun _ => true))
    | _, _ => s.faultAll act 5 0))
/-- TLBI.die: the supervisors' entries, requests and cores are among those concerned. -/
def execTlbiDie (h : Hdr) (b : Nat) (s : State) : R :=
  .next (s.perGroup h { srcR := [b], level := .sup, forbid := true } (fun act t s =>
    match s.ownerWord (s.reg t b) with
    | some own =>
      s.tlbiUnit act (fun r => r.uses.any (fun u => decide (u.1 = own)))
        (fun s => ((s.dropTlb own (fun _ => true)).reloadOwner own).forgetLines (fun _ => true) (fun _ => true))
    | none => s.faultAll act 5 0))

/-! The host half (R427). -/

/-- The copy of a core that a number names. -/
def State.findCopy (s : State) (id : Nat) : Option (Nat × Copy) :=
  s.cor.findSome? (fun q => (q.2.copies.find? (fun x => decide (x.id = id))).map (fun x => (q.1, x)))
/-- The host address whose translation a session's next command waits for. -/
def State.sessionAts (s : State) (ctx bid : Nat) : Option Int :=
  match (s.session ctx bid).cmds with
  | [] => none
  | c :: _ =>
    let base := (s.ctx ctx).decbase + 81 * (cmdIdx c + half 24)
    match s.engineRead ctx true ((List.range 81).map (fun (i : Nat) => base - 40 + (i : Int))) with
    | (.ok (s1, ts), _, _) =>
      let d := descOf ((chunksOf 3 27 ts).map ofTrytes)
      (match s1.engineRead ctx false ((List.range d.bslen.toNat).map (fun (i : Nat) => d.bsaddr + (i : Int))) with
       | (.error .ats, _, ea) => some ea
       | _ => none)
    | _ => none
/-- Page request groups outstanding for a partition. -/
def State.priCount (s : State) (p : Nat) : Nat :=
  let host (a : Option Int) : Bool := a.any (fun ea => decide (spaceOf ea = -1))
  s.reqs.countP (fun q => decide (q.stage = .pri) && decide ((s.ctx q.ctx).part = p))
    + (s.cor.map (fun q => if (q.2.blk.map (fun b => decide ((s.ctx b.1).part = p))).getD false then q.2.copies.countP (fun x => host x.parked) else 0)).sum
    + (s.ctxs.map (fun q => if q.2.part = p then q.2.sess.countP (fun y => host y.2.parked) else 0)).sum
/-- A translation enters the I/O die's cache with the permission that was asked for: for writes also, or for reads alone (R427;
DESIGN CHOICE, log 72). -/
def State.atsPut (s : State) (ctx : Nat) (ea : Int) (p : Nat) (wr : Bool) : State :=
  { s with ats := ((s.ctx ctx).lr.pasid, fld ea 0 53 / 4096, p, wr) :: s.ats }
/-- ATS_TRANSLATION_COMPLETION (R427): the answer to a translation that a request, a copy, or a decode session (numbered
from partBase by its block) awaits. Without the permission a page request is sent, at most 243 outstanding for a
partition, and the lane, copy or session parks. -/
def execAtsTranslationCompletion (id : Nat) (spa : Option Nat) (s : State) : R :=
  match s.req id, s.findCopy id with
  | some r, _ =>
    if r.stage ≠ .owner ∨ spaceOf r.ea ≠ -1 ∨ s.hostBefore r then .next s
    else match spa with
      | some p => .next ((s.atsPut r.ctx r.ea p (writesHost r.kind)).hostPerform r (p * 4096 + (fld r.ea 0 53 % 4096).toNat))
      | none => if 243 ≤ s.priCount (s.ctx r.ctx).part then .next s else .next (s.parkReq r .pri)
  | none, some (c, x) =>
    let ctx := ((s.core c).blk.getD (0, 0)).1
    (match s.copyMove c x, spa with
     | .ats ea wr, some p => .next (s.atsPut ctx ea p wr)
     | .ats ea wr, none => if 243 ≤ s.priCount (s.ctx ctx).part then .next s else .next (s.setCopy c { x with parked := some ea, parkW := wr })
     | _, _ => .next s)
  | none, none =>
    let ctx := (id - partBase) / 2000000
    let bid := (id - partBase) % 2000000
    if id < partBase ∨ !(s.session ctx bid).free then .next s
    else match s.sessionAts ctx bid, spa with
      | some ea, some p => .next (s.atsPut ctx ea p false)
      | some ea, none => if 243 ≤ s.priCount (s.ctx ctx).part then .next s
          else .next (s.setSession ctx bid { s.session ctx bid with parked := some ea })
      | none, _ => .next s
/-- PRI_RESPONSE (R427): Success retries; anything else raises PERM, status 2, in the parked lanes, stops the copy, or
rejects the command. -/
def execPriResponse (grp : Nat) (ok : Bool) (s : State) : R :=
  match s.req grp, s.findCopy grp with
  | some r, _ =>
    if r.stage ≠ .pri then .next s
    else if ok then .next (s.setReq { r with stage := .owner })
    else .next (s.refuse r 5 2)
  | none, some (c, x) =>
    if !x.parked.any (fun ea => decide (spaceOf ea = -1)) then .next s
    else if ok then .next (s.setCopy c { x with parked := none })
    else .next (s.stopCopy c x 2)
  | none, none =>
    let ctx := (grp - partBase) / 2000000
    let bid := (grp - partBase) % 2000000
    if grp < partBase ∨ !(s.session ctx bid).parked.any (fun ea => decide (spaceOf ea = -1)) then .next s
    else if ok then .next (s.setSession ctx bid { s.session ctx bid with parked := none })
    else .next (s.rejectSession ctx bid)

end Sys2Proof.Machine
end

