-- ==== Sys2Proof/Machine/Launch.lean ====
section
/-! DEFINITION. Launch and scheduling (R440-R448): the launch record and its checks, LAUNCH, eligibility, placement, the
start and the end of blocks, and the completion of a context. -/

namespace Sys2Proof.Machine

/-! The launch record (R441). -/

/-- Whether a record breaks a range or holds a nonzero reserved trit: reason 2 of R444. -/
def recordBad (w : Nat → Int) : Bool :=
  let f (k lo n : Nat) : Int := fld (w k) lo n
  let p (k : Nat) : Int := pair (w k) (w (k + 1))
  let within (v lo hi : Int) : Bool := decide (lo ≤ v) && decide (v ≤ hi)
  !(decide (f 0 26 1 = 1) && decide (f 0 25 1 ≠ -1) && decide (f 0 24 1 ≠ -1) && decide (offF (w 0) 20 3 ≤ 4) && decide (f 0 18 2 = 0) && decide (f 0 0 9 = 0)
    && decide (fld (p 1) 0 2 = 0) && within (w 3) 0 (pow3 11)
    && within (f 6 18 9) 0 243 && within (f 6 9 9) 1 243 && within (f 6 0 9) 9 216 && decide (f 6 0 9 % 9 = 0)
    && (decide (f 7 18 9 = 1) || decide (f 7 18 9 = 3) || decide (f 7 18 9 = 9)) && within (f 7 9 9) 1 27 && within (f 7 0 9) 0 27
    && within (w 8) 1 1594323 && (List.range 9).all (fun d => decide (trit (w 9) (18 + d) ≠ -1)) && decide (f 9 9 9 = 0)
    && decide (f 11 9 18 = 0) && within (w 25) (-1) 1048575 && (List.range 9).all (fun e => decide (trit (w 26) e ≠ -1)) && decide (f 26 9 18 = 0)
    && decide (fld (p 27) 0 4 = 0) && within (w 29) 0 32 && decide (w 29 ≤ f 6 0 9) && decide (w 30 = 0) && decide (w 31 = 0)
    && (List.range 36).all (fun i => decide (0 ≤ w (64 + i))) && (List.range 62).all (fun i => decide (w (100 + i) = 0)))
/-- The shared ranges of a record: entries that are not all zero (R357). -/
def recordRanges (w : Nat → Int) : List Range :=
  ((List.range 27).map (fun r => { base := pair (w (162 + 3 * r)) (w (163 + 3 * r)), kind := trit (w (164 + 3 * r)) 26, lines := fld (w (164 + 3 * r)) 0 26 : Range })).filter
    (fun r => decide (r ≠ { base := 0, kind := 0, lines := 0 }))
/-- The launch parameters of a record; an image for another stepping runs interlocked (R374). -/
def recordOf (w : Nat → Int) (entry : Int) : Launch :=
  let f (k lo n : Nat) : Int := fld (w k) lo n
  let p (k : Nat) : Int := pair (w k) (w (k + 1))
  let det := decide (f 0 24 1 = 1)
  { ilock := decide (f 0 25 1 = 1) || decide (w 10 ≠ identWord), det := det, prio := f 0 23 1, spint := offF (w 0) 20 3
    ftent := w 4, entry := entry, folios := (f 6 18 9).toNat, preds := (f 6 9 9).toNat, regs := (f 6 0 9).toNat
    group := (f 7 18 9).toNat, warps := (f 7 9 9).toNat, rings := (f 7 0 9).toNat, blocks := (w 8).toNat
    dies := (List.range 9).filter (fun d => decide (trit (w 9) (18 + d) = 1)), dkey := f 9 0 9, nbt := p 12, depa := p 14, depth := w 16
    cmpa := p 17, pasid := w 25, dgrant := (List.range 9).filter (fun e => decide (trit (w 26) e = 1))
    init := (List.range (w 29).toNat).map (fun i => w (32 + i))
    counts := (List.range 36).foldl (fun t i => Tab.set 0 i (w (64 + i)) t) []
    ranges := if det then recordRanges w else [] }

/-- The root that a new context of a partition has for an address; 0 where the owner can hold no tables for it (R21, R90). -/
def State.freshRoot (s : State) (part : Nat) (ea : Int) (ctx : Nat) : Int :=
  if spaceOf ea = 1 ∧ s.ownerOk ea ∧ s.partOwner (ownerOf ea) part then s.readRoot (ownerOf ea) ctx else 0
/-- A walk for a context as its owner block stands now, without the TLB. -/
def State.freshWalk (s : State) (part : Nat) (ea : Int) (ctx : Nat) : Walk :=
  let r := s.freshRoot part ea ctx
  if r = 0 then .miss false else s.walk (ownerOf ea) (offOf ea) r 6 0
/-- What the reads of such a walk fill and count for the context that issues LAUNCH (R52, R112). -/
def State.freshFills (s : State) (part sup die : Nat) (ctx : Nat) (ea : Int) : State :=
  let r := s.freshRoot part ea ctx
  let own := ownerOf ea
  if ea = 0 ∨ r = 0 then s
  else (s.fillFor own [rootAt ctx, rootAt ctx + 5] false sup die).1.walkFills own sup die r (offOf ea)
/-- Whether a dependence or completion address is good: a device address in a page with r = w = +1 and memory placement. -/
def State.goodWord (s : State) (part : Nat) (ea : Int) (ctx : Nat) : Bool :=
  decide (ea = 0) || (match s.freshWalk part ea ctx with
    | .leaf l => l.r && l.w && decide (l.place = 0)
    | .miss _ => false)
/-- The function-table entry of a launch under its context's tables; none when its read faults (R444). -/
def State.launchEntry (s : State) (part : Nat) (ftbase ftent : Int) (ctx : Nat) : Option Int :=
  let ea := ftbase + 9 * ftent
  match s.freshWalk part ea ctx with
  | .leaf l => if l.x then some (ofTrytes ((List.range 9).map (fun (i : Nat) => s.homeTryte (ownerOf ea) (l.phys (offOf ea) - 4 + (i : Int)) l.cmp))) else none
  | .miss _ => none
/-- What the read of that entry fills and counts for the context that issues LAUNCH; the soft causes are its lanes' (R52, R438). -/
def State.entryFills (s : State) (part sup die : Nat) (ea : Int) (ctx : Nat) : State × List Nat :=
  match s.freshWalk part ea ctx with
  | .leaf l =>
    if l.x then
      let ps := (List.range 9).map (fun (i : Nat) => l.phys (offOf ea) - 4 + (i : Int))
      let f := s.fillFor (ownerOf ea) ps l.cmp sup die (l.slices (ownerOf ea))
      let g := f.1.lostRead (ownerOf ea) ps l.cmp sup die
      (g.1, f.2 ++ g.2)
    else (s, [])
  | .miss _ => (s, [])
/-- The last line of a range. -/
def Range.last (r : Range) : Int := r.base + 81 * (r.lines - 1)
/-- Whether a shared range breaks R357. -/
def State.rangeBad (s : State) (part ctx : Nat) (rs : List Range) (r : Range) : Bool :=
  let lo := r.base - 40
  let hi := r.last + 40
  let own := ownerOf r.base
  decide (r.lines ≤ 0) || decide (fld r.base 0 4 ≠ 0) || decide (spaceOf lo ≠ 1) || decide (spaceOf hi ≠ 1) || decide (ownerOf lo ≠ ownerOf hi) || !s.ownerOk lo
    || rs.any (fun q => decide (q ≠ r) && decide (q.base ≤ r.last) && decide (r.base ≤ q.last)) || decide (1 < rs.count r)
    || (s.validWins own).any (fun w => decide (w.vbase ≤ offOf hi) && decide (offOf lo < w.vbase + w.blen))
    || (List.range (pageOf hi - pageOf lo + 1).toNat).any (fun (i : Nat) => match s.freshWalk part (pow3 11 * (pageOf lo + (i : Int))) ctx with
        | .leaf l => l.cmp
        | .miss _ => false)

/-! The checks (R444). -/

/-- Nonzero counts of a level in a launch (R83). -/
def unitsOfLevel (lr : Launch) (l : Level) : Nat := (List.range 9).countP (fun k => decide (barCount lr l k ≠ 0))
/-- Live user contexts. -/
def State.liveCtxs (s : State) : List (Nat × Ctx) := s.ctxs.filter (fun p => !isSup p.1 && p.2.live)
/-- Whether a barrier unit is missing, or the counts of a domain key disagree (reason 8). -/
def State.barUnitsBad (s : State) (lr : Launch) : Bool :=
  let others := s.liveCtxs.map (·.2.lr)
  let domain (x : Launch) : List Int := (List.range 9).map (barCount x .domain)
  lr.dies.any (fun d =>
    let here := others.filter (fun x => x.dies.contains d)
    [Level.cluster, .die].any (fun l => decide (9 < unitsOfLevel lr l + (here.map (unitsOfLevel · l)).sum)))
  || (decide (lr.dkey ≠ 0) && (others.any (fun x => decide (x.dkey = lr.dkey) && decide (domain x ≠ domain lr))
    || decide (9 < unitsOfLevel lr .domain + ((others.filter (fun x => decide (x.dkey ≠ 0) && decide (x.dkey ≠ lr.dkey))).map (fun x => (x.dkey, unitsOfLevel x .domain))).dedup.foldl
        (fun n x => n + x.2) 0)))
/-- The first failing check of a record, as the reason of R444; 0 for none. -/
def State.launchReason (s : State) (part : Nat) (w : Nat → Int) : Nat :=
  let c := fld (w 0) 9 9
  let ctx := c.toNat
  let p (k : Nat) : Int := pair (w k) (w (k + 1))
  let lr := recordOf w 0
  let famOk := decide (fld (w 10) 18 9 = 1)
  let rs := recordRanges w
  if c < 1 ∨ 27 < c ∨ (s.ctx ctx).live then 1
  else if recordBad w ∨ !s.goodWord part (p 14) ctx ∨ !s.goodWord part (p 17) ctx then 2
  else if !famOk ∨ 1 < fld (w 11) 0 9 then 3
  else if w 4 < 0 ∨ w 3 ≤ w 4 then 4
  else match s.launchEntry part (p 1) (w 4) ctx with
    | none => 4
    | some e =>
      if entrySig e ≠ w 5 ∨ fld (entrySig e) 24 2 ≠ 2 ∨ fld e 52 2 ≠ 0 then 4
      else if 59049 < lr.warps * 16 * lr.regs ∨ (List.range 9).any (fun k => decide (27 < barCount lr .block k)
          || decide ((lr.group : Int) < barCount lr .cluster k) || decide (80 < barCount lr .die k))
          ∨ lr.dies.isEmpty ∨ !(lr.dies.all (s.part part).dies.contains) then 5
      else if lr.det ∧ (80 * lr.dies.length < lr.blocks ∨ rs.any (s.rangeBad part ctx rs)) then 6
      else if s.liveCtxs.any (fun q => q.2.lr.dgrant.any lr.dgrant.contains) then 7
      else if s.barUnitsBad lr then 8 else 0
/-- The new context (R442, R443): TLBI.ctx on every die of the partition, and blocks that wait for their conditions. -/
def State.newCtx (s : State) (part : Nat) (w : Nat → Int) : State :=
  let ctx := (fld (w 0) 9 9).toNat
  let p (k : Nat) : Int := pair (w k) (w (k + 1))
  let lr := recordOf w (entryTarget ((s.launchEntry part (p 1) (w 4) ctx).getD 0))
  let x : Ctx := { part := part, live := true, order := s.nextId, tvec := p 21, hsave := p 23, ftbase := p 1, ftlen := w 3, decbase := p 27
                   k0 := w 19, k1 := w 20, lr := lr, blk := (List.range lr.blocks).map (fun b => (b, BlkSt.wait false)) }
  let s1 := (s.part part).dies.foldl (fun a d => a.dropCtxTlb (a.ownKey d) ctx) s
  { (s1.setCtx ctx x) with nextId := s1.nextId + 1 }
/-- What the reads of a LAUNCH's checks fill and count, with the soft causes that they meet: the owner block and the tables for the
dependence and completion words and the shared ranges, and the function-table entry (R52, R444). -/
def State.launchFills (s : State) (part sup die : Nat) (w : Nat → Int) (reason : Nat) : State × List Nat :=
  let ctx := (fld (w 0) 9 9).toNat
  let p (k : Nat) : Int := pair (w k) (w (k + 1))
  let ea := p 1 + 9 * w 4
  if reason = 1 ∨ recordBad w then (s, [])
  else
    let s1 := [p 14, p 17].foldl (State.freshFills · part sup die ctx) s
    if reason = 2 ∨ reason = 3 ∨ w 4 < 0 ∨ w 3 ≤ w 4 then (s1, [])
    else
      let f := (s1.freshFills part sup die ctx ea).entryFills part sup die ea ctx
      if reason = 4 ∨ reason = 5 ∨ fld (w 0) 24 1 ≠ 1 then f
      else ((recordRanges w).foldl (fun a r => (List.range (pageOf (r.last + 40) - pageOf (r.base - 40) + 1).toNat).foldl
        (fun b (i : Nat) => b.freshFills part sup die ctx (pow3 11 * (pageOf (r.base - 40) + (i : Int)))) a) f.1, f.2)
/-- The status word of LAUNCH (R443). -/
def launchStatus (reason : Nat) : Int := if reason = 0 then pow3 26 else - pow3 26 + (reason : Int)
/-- The unit retires with its status in every active lane. -/
def State.launchEnd (s : State) (act : List Nat) (d reason : Nat) : State :=
  (s.curThreads act).foldl (fun a t => (a.retire t s.cur.next).setReg t d (launchStatus reason)) s
/-- LAUNCH (R443, R444). -/
def execLaunch (h : Hdr) (d a : Nat) (s : State) : R :=
  .next (s.perGroup h { dstR := [d], srcP := [a], level := .sup, forbid := true } (fun act t s =>
    s.afterFence act .domain (fun s =>
      let sup := (s.warp s.cur.warp).ctx
      let low := s.regPair t a
      let own := ownerOf low
      if wrap (low + 364) 6 ≠ 0 ∨ spaceOf low ≠ 1 ∨ !s.ownerOk low ∨ !s.hasTables own sup then s.launchEnd act d 2
      else
        let c := coreOf s.cur.warp
        let tr := s.translate own sup c (offOf low)
        match tr.2 with
        | .miss m =>
          let s1 := tr.1.addFault own sup low low 0 c (widOf s.cur.warp) (act.headD 0) s.cur.first m
          let s2 := (s1.curThreads act).foldl (fun x q =>
            let y := x.thread q
            x.setThread q { y with st := .parked, wait := .none_ }) s1
          s2.addReq { id := 0, kind := .launch d, stage := .parked, ctx := sup, core := c, warp := s.cur.warp, lane := act.headD 0
                      lanes := act, pc := s.cur.first, next := s.cur.next, ea := low, own := own, t := low }
        | .leaf l =>
          if !l.r then tr.1.launchEnd act d 2
          else
            let f := tr.1.fillFor own ((List.range 27).map (fun (i : Nat) => l.phys (offOf low) + 27 * (i : Int))) l.cmp sup (dieIdx c)
            let s1 := act.foldl (fun x n => f.2.foldl (fun y e => y.defer (threadOf s.cur.warp n) e 0) x) f.1
            let w (k : Nat) : Int := ofTrytes ((List.range 3).map (fun (i : Nat) => s1.homeTryte own (l.phys (offOf low) + 3 * (k : Int) + (i : Int)) l.cmp))
            let part := (s.ctx sup).part
            let r := s1.launchReason part w
            let g := s1.launchFills part sup (dieIdx c) w r
            let s2 := act.foldl (fun x n => g.2.foldl (fun y e => y.defer (threadOf s.cur.warp n) e 0) x) g.1
            (if r = 0 then s2.newCtx part w else s2).launchEnd act d r)))

/-! Waiting to start (R446). -/

/-- A block enters its die's placement queue. -/
def State.enqueue (s : State) (die ctx bid : Nat) (resume : Bool) : State :=
  let own := s.ownKey die
  let d := s.dieSt own
  (s.setDie own { d with queue := d.queue ++ [{ ctx := ctx, bid := bid, since := d.clk, resume := resume }] }).setBlk ctx bid .queued
/-- BLOCK_ELIGIBLE (R446). -/
def execBlockEligible (ctx bid : Nat) (s : State) : R :=
  let x := s.ctx ctx
  match s.blkSt ctx bid with
  | .wait m =>
    let die := dieOfBlk x.lr bid
    if !x.live ∨ x.killing then .next s
    else if m ∨ (x.lr.nbt ≤ (s.dieSt (s.ownKey die)).clk ∧ (x.lr.depa = 0 ∨ x.depMet)) then .next (s.enqueue die ctx bid false)
    else .next s
  | _ => .next s
/-- The die of a saved block. -/
def State.savedDie (s : State) (ctx bid : Nat) : Nat := ((Tab.find (s.ctx ctx).saved bid).map (fun y => dieIdx y.at_)).getD 0
/-- A block resumes (R445): a held one returns to its wait or its queue, a saved one waits for placement. -/
def State.resumeOne (s : State) (ctx bid : Nat) : State :=
  match s.blkSt ctx bid with
  | .held m => if m then s.enqueue (dieOfBlk (s.ctx ctx).lr bid) ctx bid false else s.setBlk ctx bid (.wait false)
  | .saved _ => s.enqueue (s.savedDie ctx bid) ctx bid true
  | _ => s
/-- LAUNCH.res (R445). -/
def execLaunchRes (h : Hdr) (d a b : Nat) (s : State) : R :=
  .next (s.perGroup h { dstR := [d], srcR := [a, b], level := .sup, forbid := true } (fun act t s =>
    match s.namedCtx (s.reg t a) with
    | none => s.launchEnd act d 9
    | some ctx =>
      let x := s.ctx ctx
      let bid := s.reg t b
      let is (i : Nat) : Bool := match s.blkSt ctx i with
        | .held _ => true
        | .saved _ => true
        | _ => false
      let torn (i : Nat) : Bool := match s.blkSt ctx i with
        | .saved _ => !s.recComplete ctx i
        | _ => false
      let bs : List Nat := if bid = -1 then (List.range x.lr.blocks).filter is else [bid.toNat]
      let s := (bs.filter (fun i => (Tab.find x.saved i).isSome)).foldl (fun y i =>
        y.recFill (y.supCtx ctx) (y.recLow ctx (some i)) [0] (dieIdx (coreOf s.cur.warp))) s
      if x.killing ∨ (bid ≠ -1 ∧ (bid < 0 ∨ (x.lr.blocks : Int) ≤ bid ∨ !is bid.toNat)) ∨ bs.any torn then s.launchEnd act d 9
      else (bs.foldl (fun y i => y.resumeOne ctx i) s).launchEnd act d 0))

/-! Placement (R447). -/

/-- What the dispatcher places together, in bid order. -/
structure Bunch where
  ents : List Queued
  need : Nat
  deriving DecidableEq, Repr
/-- The placement queue in its order: priority, then acceptance, then bid. -/
def State.placeQueue (s : State) (die : Nat) : List Queued :=
  (s.dieSt (s.ownKey die)).queue.mergeSort (fun p q =>
    let x := s.ctx p.ctx
    let y := s.ctx q.ctx
    decide (y.lr.prio < x.lr.prio) || (decide (x.lr.prio = y.lr.prio) && (decide (x.order < y.order) || (decide (x.order = y.order) && decide (p.bid ≤ q.bid)))))
/-- The group of a queue entry: the new blocks of its group that are queued; none while one of them still waits. -/
def State.bunchOf (s : State) (die : Nat) (e : Queued) : Option Bunch :=
  let lr := (s.ctx e.ctx).lr
  if e.resume || lr.det then some { ents := [e], need := 1 }
  else
    let g := e.bid / lr.group
    let mates := (s.placeQueue die).filter (fun q => decide (q.ctx = e.ctx) && !q.resume && decide (q.bid / lr.group = g))
    let all := (List.range lr.group).map (fun i => g * lr.group + i)
    if all.any (fun b => match s.blkSt e.ctx b with
      | .wait _ => decide (b < lr.blocks)
      | _ => false) then none
    else some { ents := mates, need := if mates.length = min lr.group (lr.blocks - g * lr.group) then lr.group else mates.length }
/-- The free user cores of a cluster of a die. -/
def State.freeCores (s : State) (die cl : Nat) : List Nat :=
  ((List.range 9).map (fun i => die * 81 + 9 * cl + i)).filter (fun c => decide (c % 81 ≠ 0) && (s.core c).blk.isNone)
/-- The cores that a group takes now. -/
def State.coresFor (s : State) (die : Nat) (b : Bunch) : Option (List Nat) :=
  match b.ents with
  | [] => none
  | e :: _ =>
    let x := s.ctx e.ctx
    if x.lr.det then
      let c := if e.resume then ((Tab.find x.saved e.bid).map (·.at_)).getD 0 else die * 81 + 1 + e.bid % 80
      if (s.core c).blk.isNone then some [c] else none
    else
      let best := (List.range 9).foldl (fun (m : Option (List Nat)) cl =>
        let f := s.freeCores die cl
        if f.length < b.need then m
        else match m with
          | none => some f
          | some g => if f.length < g.length then some f else m) none
      best.map (fun f => f.take b.ents.length)
/-- A block takes its core (R70). -/
def State.takeCore (s : State) (ctx bid c : Nat) (resume : Bool) : State :=
  let s1 := (s.unqueue ctx bid).setBlk ctx bid (.taken c resume)
  let x := s1.ctx ctx
  let cl := (Tab.find x.place1 bid).getD (clusterOf c)
  (s1.setCtx ctx { x with place1 := Tab.put bid cl x.place1 }).setCore c { blk := some (ctx, bid), clid := cl }
/-- PLACEMENT (R447): the dispatcher of a die places the first group in queue order that fits; once the head has waited
243 us, no other. No block of a context that is being killed is placed (R415). -/
def execPlacement (die : Nat) (s : State) : R :=
  let q := (s.placeQueue die).filter (fun e => !(s.ctx e.ctx).killing)
  let stale := match q with
    | e :: _ => decide (e.since + 243000 ≤ (s.dieSt (s.ownKey die)).clk)
    | [] => false
  let cands := if stale then q.take 1 else q
  match cands.findSome? (fun e => (s.bunchOf die e).bind (fun b => (s.coresFor die b).map (fun cs => (b, cs)))) with
  | none => .next s
  | some (b, cs) => .next ((List.zip b.ents cs).foldl (fun a (e, c) => a.takeCore e.ctx e.bid c e.resume) s)

/-! Start and end of a block (R70, R442, R448). -/

/-- The initial warps of a block (R61, R442). -/
def State.startWarps (s : State) (ctx bid c : Nat) (pl : Int) : State :=
  let lr := (s.ctx ctx).lr
  let regs : Tab Int := lr.init.zipIdx.foldl (fun t (v, i) => Tab.set 0 i v t) []
  (List.range lr.warps).foldl (fun a i =>
    let w := c * 28 + 9 * (i % 3) + i / 3
    (threadsOf w).foldl (fun b t => b.setThread t { pc := lr.entry, st := .runnable, regs := regs, stamp := s.stamp })
      (a.setWarp w { ctx := ctx, bid := bid, idx := i, n := lr.regs, pl := pl })) s
/-- BLOCK_START (R445, R448); no block of a context that is being killed starts (R415). -/
def execBlockStart (ctx bid : Nat) (s : State) : R :=
  if (s.ctx ctx).killing then .next s
  else match s.blkSt ctx bid with
  | .taken c true => .next (((s.restore ctx bid c).setBlk ctx bid (.placed c)))
  | .taken c false => .next ((s.startWarps ctx bid c (-1)).setBlk ctx bid (.placed c))
  | _ => .next s
/-- Whether a block's last work has ended (R70, R249). -/
def State.blockOver (s : State) (ctx bid c : Nat) : Bool :=
  let k := s.core c
  (s.warpsOf c).isEmpty && k.bins.isEmpty && k.copies.isEmpty && k.nib.isEmpty && decide (k.scribe.state = 0) && k.claims.isEmpty
    && s.reqs.all (fun r => !(decide (r.ctx = ctx) && decide (r.bid = bid)) || (match r.kind, r.stage with
      | .wb .., _ => false
      | .atomo .., .owner => false | .atomo .., .home => false | .atomo .., .refused => false | .atomo .., .faulted _ => false
      | .tkp .., .owner => false | .tkp .., .home => false | .tkp .., .refused => false | .tkp .., .faulted _ => false
      | _, _ => true))
    && s.saveFree c
/-- BLOCK_END (R70, R249, R363, R436): the L1's written trytes go home, held faults are recorded, the numbers the block drew
are passed, and the core is free. -/
def execBlockEnd (ctx bid : Nat) (s : State) : R :=
  match s.blkSt ctx bid with
  | .placed c =>
    if isSup ctx ∨ !s.blockOver ctx bid c then .next s
    else
      let k := s.core c
      let s1 := k.wbf.foldl (fun a f => if f.recorded then a else a.wbfRec ctx f.own c 0 0 f.ea 0 f.malformed) (s.saveL1 c)
      let s2 := s1.die.foldl (fun a (own, _) => a.passDrawn own ctx (fun b => decide (b = bid))) s1
      let x := s2.ctx ctx
      let s3 := s2.setCtx ctx { x with blk := Tab.put bid .ended x.blk, sess := Tab.del bid x.sess
                                       pend := if k.pbuf.isEmpty then x.pend else Tab.put bid (Tab.get [] x.pend bid ++ k.pbuf) x.pend }
      .next ({ s3 with reqs := s3.reqs.map (fun (r : Req) => if r.ctx = ctx ∧ r.bid = bid ∧ !isMsg r.kind then orphan r else r) }.clearCore c)
  | _ => .next s

/-! The end of a context (R446). -/

/-- The atomic add of 1 at cmpa; none while its line is held. -/
def State.addCmpa (s : State) (ctx : Nat) : Option State :=
  let ea := (s.ctx ctx).lr.cmpa
  if ea = 0 then some s
  else
    let own := ownerOf ea
    let p := s.translate own ctx 0 (offOf ea)
    match p.2 with
    | .miss _ => some p.1
    | .leaf l =>
      let pa := l.phys (offOf ea)
      if p.1.lineHeld own (lineOf pa) then none
      else
        let f := p.1.fillFor own (covers .wd pa) false ctx 0 (l.slices own)
        some (f.1.homeStore own ctx pa .wd (wrap (f.1.homeVal own pa .wd + 1) 27) (l.slices own)).1
/-- CONTEXT_COMPLETION (R446): every block has ended, every write is performed and past its release time; 1 is added at
cmpa, and the number is free. -/
def execContextCompletion (ctx : Nat) (s : State) : R :=
  let x := s.ctx ctx
  if isSup ctx ∨ !x.live ∨ x.killing ∨ !(x.blk.all (fun p => decide (p.2 = .ended))) ∨ s.reqs.any (fun r => decide (r.ctx = ctx)) ∨ !x.pend.isEmpty
      ∨ !(x.lr.dies.all (fun d => decide (x.rtN ≤ (s.dieSt (s.ownKey d)).clk))) then .next s
  else match s.addCmpa ctx with
    | none => .next s
    | some s1 => .next ((((s1.endTickets ctx).endBars ctx).endQueued ctx).endCtx ctx)

end Sys2Proof.Machine
end

