-- ==== Sys2Proof/Machine/Host.lean ====
section
/-! DEFINITION. The host's side of a partition (R440, R143, R453-R457): the inbox, posted writes and reads through the
apertures, FLUSH. -/

namespace Sys2Proof.Machine

/-- A register of the boundary that saturates at n bits. -/
def satAdd (n x k : Nat) : Nat := min (x + k) (2 ^ n - 1)
/-- Bytes as numbers. -/
def byteVals (bs : List (BitVec 8)) : List Nat := bs.map (·.toNat)
/-- A little-endian number. -/
def leNat (bs : List Nat) : Nat := bs.foldr (fun b n => b + 256 * n) 0
/-- An INT64 (R440). -/
def int64 (bs : List Nat) : Int := if 2 ^ 63 ≤ leNat bs then (leNat bs : Int) - 2 ^ 64 else (leNat bs : Int)
/-- The package has power (R466). -/
def State.linked (s : State) (f : State → State) : R := .next (if s.mg.powerOff then s else f s)

/-- The partition of the data function that a number names, k behind port A and 16 + k behind port B: a function exists behind the port
to which its partition is assigned (R453; DESIGN CHOICE, log 77). -/
def State.fnOf (s : State) (f : Nat) : Option Nat :=
  match Tab.find s.parts (f % 16) with
  | some x => if f / 16 = (if x.portB then 1 else 0) then some (f % 16) else none
  | none => none

/-! The inbox (R440, R456). -/

/-- A discarded inbox write (R453, R459). -/
def State.inboxDrop (s : State) (p : Nat) : State :=
  { (s.setPart p { s.part p with discards := satAdd 24 (s.part p).discards 1 }) with mg := { s.mg with mdisc := satAdd 32 s.mg.mdisc 1 } }
/-- INBOXST of a partition's function: free entries, and the discards above bit 7 (R453). -/
def State.inboxStatus (s : State) (p : Nat) : Nat := 243 - (s.part p).inbox.length + 256 * (s.part p).discards
/-- The supervisor core that receives a partition's inbox. -/
def State.inboxCore (s : State) (p : Nat) : Nat := (s.part p).dies.headD 0 * 81
/-- Whether a message's earlier writes are performed and seen by the supervisor's die (R456). -/
def State.msgReady (s : State) (p : Nat) (m : InMsg) : Bool :=
  s.mg.posted.all (fun x => decide (x.req ≠ m.req) || decide (x.part ≠ p) || decide (m.no < x.no))
    && m.w.all (fun w => decide (w + s.guard .pkg ≤ s.now (s.inboxCore p)))
/-- Buffered messages enter q16 in order while it has room. -/
def State.inboxPush (s : State) (p : Nat) : Nat → State
  | 0 => s
  | n + 1 =>
    let x := s.part p
    let c := s.inboxCore p
    match x.inbox with
    | [] => s
    | v :: vs =>
      if (s.port c 16).length < 81 ∧ x.up then State.inboxPush ((s.setPart p { x with inbox := vs }).setPort c 16 (s.port c 16 ++ [v])) p n else s
/-- Messages whose conditions are met leave in order, for the buffer or for nothing when it is full. -/
def State.inboxTake (s : State) (p : Nat) : Nat → State
  | 0 => s
  | n + 1 =>
    let x := s.part p
    match x.msgs with
    | [] => s
    | m :: ms =>
      if !s.msgReady p m then s
      else
        let s0 := s.setPart p { x with msgs := ms }
        let s1 := if 243 ≤ x.inbox.length then s0.inboxDrop p else s0.setPart p { x with msgs := ms, inbox := x.inbox ++ [m.word] }
        State.inboxTake (s1.inboxPush p 1) p n
/-- What the inbox of every partition does after a step. -/
def State.noteInbox (s : State) : State :=
  s.parts.foldl (fun a (p, x) =>
    if x.inbox.isEmpty && x.msgs.isEmpty then a else (a.inboxPush p x.inbox.length).inboxTake p x.msgs.length) s
/-- INBOX (R440). -/
def execInbox (req part addr : Nat) (bytes : List (BitVec 8)) (s : State) : R :=
  s.linked (fun s =>
    let v := int64 (byteVals bytes)
    match s.fnOf part with
    | none => s
    | some p =>
      if bytes.length ≠ 8 ∨ addr % 8 ≠ 0 ∨ v < - half 27 ∨ half 27 < v then s.inboxDrop p
      else
        let x := s.part p
        let m : InMsg := { no := s.nextId, req := req, word := v, w := Tab.find s.mg.lastW (req * 16 + p) }
        ({ (s.setPart p { x with msgs := x.msgs ++ [m] }) with nextId := s.nextId + 1 }).noteInbox)

/-! Apertures (R453-R455). -/

/-- Bytes of an aperture for each die. -/
def apertureLen : Nat := 51539607552
/-- The owner and the byte of its memory at an offset of a function's aperture (R453). -/
def State.aperture (s : State) (part off : Nat) : Option (Nat × Nat) :=
  ((s.part part).dies[off / apertureLen]?).map (fun d => (s.ownKey d, off % apertureLen))
/-- Whether bytes of an owner's memory touch a valid window, or lie in valid windows whole. -/
def Win.hasByte (w : Win) (b : Nat) : Bool := decide (w.pbase ≤ (b : Int)) && decide ((b : Int) < w.pbase + w.blen)
def State.touchesWin (s : State) (own b n : Nat) : Bool :=
  (s.validWins own).any (fun w => decide (w.pbase < (b : Int) + (n : Int)) && decide ((b : Int) < w.pbase + w.blen))
/-- A window access is accepted (R455). -/
def State.winAccess (s : State) (part off n : Nat) : Bool :=
  s.mg.p2p.testBit (part - 1) && (List.range n).all (fun i => match s.aperture part (off + i) with
    | some (own, b) => (s.validWins own).any (fun w => w.hasByte b)
    | none => false)
/-- A discarded write of an aperture (R459). -/
def State.hostDrop (s : State) : State := { s with mg := { s.mg with hdisc := satAdd 32 s.mg.hdisc 1 } }
/-- A read completes; an Unsupported Request completes with nothing. -/
def State.hostReply (s : State) (bs : List Nat) : State :=
  { s with mg := { s.mg with hostRd := s.mg.hostRd ++ [bs.map (BitVec.ofNat 8)] } }
/-- A posted write of one atom is accepted. -/
def State.post (s : State) (req part own byte : Nat) (bytes : List Nat) (sector : Bool) : State :=
  { s with nextId := s.nextId + 1
           mg := { s.mg with posted := s.mg.posted ++ [{ no := s.nextId, req := req, part := part, own := own, byte := byte, bytes := bytes, sector := sector }] } }
/-- The atom of a sector as the home holds it: what was written in L2 merged, else the stored bytes (R50, R454). -/
def State.homeAtom (s : State) (own b : Nat) : List Nat :=
  let k : Int := (b / 64 : Nat) - halfSecs own
  let x := s.sec own k false
  if x.tr.any (fun p => p.2.written) ∨ s.bad.contains (0, cellKey own (atomNo own k)) then
    atomImage ((List.range 27).map (fun (i : Nat) => s.homeTryte own (27 * k - 13 + (i : Int)) false)) 0 []
  else s.atom own k
/-- Whether a requester has posted writes to a partition that are not performed (R456). -/
def State.writesWait (s : State) (req part : Nat) : Bool := s.mg.posted.any (fun x => decide (x.req = req) && decide (x.part = part))

/-- Whether a read of an aperture meets a line that is held at its home: for a prepare's decision, or for a timed store that is due
(R113, R134, R142). -/
def State.readHeld (s : State) (part off n : Nat) : Bool :=
  (List.range n).any (fun i => match s.aperture part (off + i) with
    | some (own, b) => s.lineHeld own (lineOf (27 * (((b / 64 : Nat) : Int) - halfSecs own)))
    | none => false)
/-- SECTOR_APERTURE_READ (R454): the read completes once the requester's earlier writes are performed, in home order. One of no bytes
stands for an AtomicOp, which the device completes as an Unsupported Request (R452; DESIGN CHOICE, log 77). -/
def execSectorApertureRead (req part off n : Nat) (s : State) : R :=
  s.linked (fun s =>
    match s.fnOf part with
    | none => s.hostReply []
    | some p =>
      if s.writesWait req p ∨ s.readHeld p off n then s
      else if n = 0 ∨ (s.aperture p off).isNone ∨ (s.aperture p (off + n - 1)).isNone then s.hostReply []
      else s.hostReply ((List.range n).map (fun i => match s.aperture p (off + i) with
        | some (own, b) => (s.homeAtom own b).getD (b % 64) 0
        | none => 0)))
/-- Whether the image of an atom is accepted (R454). -/
def State.imageOk (s : State) (own b : Nat) (bs : List Nat) : Bool :=
  decide (bs.length = 64) && !(readAtom bs).rejected && !badMid bs && !s.touchesWin own b 64
/-- A write of the sector aperture, atom by atom. -/
def State.sectorWrite (s : State) (req part off : Nat) (bs : List Nat) : Nat → State
  | 0 => s
  | fuel + 1 =>
    if bs.isEmpty then s
    else
      let n := min bs.length (64 - off % 64)
      let s1 := match s.aperture part off with
        | none => s
        | some (own, b) => if s.imageOk own b (bs.take n) then s.post req part own b (bs.take n) true else s.hostDrop
      State.sectorWrite s1 req part (off + n) (bs.drop n) fuel
/-- SECTOR_APERTURE_WRITE (R454). -/
def execSectorApertureWrite (req part off : Nat) (bytes : List (BitVec 8)) (s : State) : R :=
  s.linked (fun s => match s.fnOf part with
    | none => s
    | some p => s.sectorWrite req p off (byteVals bytes) bytes.length)
/-- WINDOW_APERTURE_READ (R455). -/
def execWindowApertureRead (req part off n : Nat) (s : State) : R :=
  s.linked (fun s =>
    match s.fnOf part with
    | none => s.hostReply []
    | some p =>
      if s.writesWait req p then s
      else if n = 0 ∨ !s.winAccess p off n then s.hostReply []
      else s.hostReply ((List.range n).map (fun i => match s.aperture p (off + i) with
        | some (own, b) => s.byte own b
        | none => 0)))
/-- A write of the window aperture, atom by atom. -/
def State.windowWrite (s : State) (req part off : Nat) (bs : List Nat) : Nat → State
  | 0 => s
  | fuel + 1 =>
    if bs.isEmpty then s
    else
      let n := min bs.length (64 - off % 64)
      let s1 := match s.aperture part off with
        | none => s
        | some (own, b) => s.post req part own b (bs.take n) false
      State.windowWrite s1 req part (off + n) (bs.drop n) fuel
/-- WINDOW_APERTURE_WRITE (R455). -/
def execWindowApertureWrite (req part off : Nat) (bytes : List (BitVec 8)) (s : State) : R :=
  s.linked (fun s =>
    match s.fnOf part with
    | none => s
    | some p =>
      if bytes.isEmpty then s
      else if !s.winAccess p off bytes.length then
        let s1 := s.hostDrop
        { s1 with mg := { s1.mg with aer := s1.mg.aer + 1 } }
      else s.windowWrite req p off (byteVals bytes) bytes.length)

/-! Performing (R143, R454, R455). -/

/-- A sector write at its home: the atom as given; copies of it in L2 leave. -/
def State.putSector (s : State) (own : Nat) (k : Int) (bs : List Nat) : State :=
  let s1 := { (s.setAtom own k bs) with bad := s.healed 0 (cellKey own (atomNo own k)) }
  let k0 := 27 * shr k 3 - 13
  let s2 := (List.range 27).foldl (fun a (j : Nat) => a.setSec own (k0 + (j : Int)) true {}) (s1.setSec own k false {})
  s2.wrote own (lineOf (27 * k))
/-- A posted write is performed at its home with its W; a sector of a held line waits. -/
def State.performPosted (s : State) (x : Posted) : State :=
  let k : Int := (x.byte / 64 : Nat) - halfSecs x.own
  if x.sector ∧ s.lineHeld x.own (lineOf (27 * k)) then s
  else
    let w := if x.sector then s.wOf x.own (lineOf (27 * k)) else (s.dieSt x.own).clk
    let s1 := if x.sector then s.putSector x.own k x.bytes else s.setBytes x.own x.byte x.bytes
    let key := x.req * 16 + x.part
    let y := s1.part x.part
    let s2 := s1.setPart x.part { y with msgs := y.msgs.map (fun m => if m.req = x.req ∧ x.no < m.no then { m with w := some (max (m.w.getD w) w) } else m) }
    { s2 with mg := { s1.mg with posted := s1.mg.posted.erase x
                                 lastW := Tab.put key (max w (Tab.get w s1.mg.lastW key)) s1.mg.lastW
                                 flushes := s1.mg.flushes.map (fun f => if x.no < f.1 then (f.1, some (max (f.2.getD w) w)) else f) } }
/-- HOST_WRITE (R143, R456): the first of a requester's posted writes is performed. -/
def execHostWrite (req : Nat) (s : State) : R :=
  s.linked (fun s => match s.mg.posted.find? (fun x => decide (x.req = req)) with
    | none => s
    | some x => (s.performPosted x).noteInbox)
/-- Reads of FLUSH that have what they wait for complete: every write received before them is performed, and the I/O die has reached
the latest W of those and the guard (R457). -/
def State.noteFlush (s : State) : State :=
  s.mg.flushes.foldl (fun a f =>
    if s.mg.posted.any (fun x => decide (x.no < f.1)) || !f.2.all (fun w => decide (w + s.guard .pkg ≤ (s.dieSt (s.ownKey 9)).clk)) then a
    else { a with mg := { a.mg with flushes := a.mg.flushes.erase f } }.hostReply (List.replicate 8 0)) s
/-- FLUSH (R457): the read is received, and completes by `noteFlush`. -/
def execFlush (part : Nat) (s : State) : R :=
  s.linked (fun s => match s.fnOf part with
    | none => s.hostReply []
    | some _ =>
      let w := (s.mg.lastW.map (·.2)).foldl (fun (m : Option Int) v => some (max v (m.getD v))) none
      { s with nextId := s.nextId + 1, mg := { s.mg with flushes := s.mg.flushes ++ [(s.nextId, w)] } }.noteFlush)

end Sys2Proof.Machine
end

