-- ==== Sys2Proof/Machine/Logic.lean ====
section
/-! DEFINITION. Trit logic, shifts, fields and counts, rows 1 and 2 (R183-R186). -/

namespace Sys2Proof.Machine

def logic (h : Hdr) (op : Nat → Int → Int → Int) (d a b : Nat) (s : State) : R :=
  .next (s.perLane h { src := [a, b], dst := [d] } (opW d (fun v => op 27 (arg v 0) (arg v 1))))
/-- TAND (R183). -/
def execTand (h : Hdr) (d a b : Nat) (s : State) : R := logic h tand d a b s
/-- TOR (R183). -/
def execTor (h : Hdr) (d a b : Nat) (s : State) : R := logic h tor d a b s
/-- TSUM (R183). -/
def execTsum (h : Hdr) (d a b : Nat) (s : State) : R := logic h tsum d a b s
/-- TMULT (R183). -/
def execTmult (h : Hdr) (d a b : Nat) (s : State) : R := logic h tmult d a b s
/-- TCONS (R183). -/
def execTcons (h : Hdr) (d a b : Nat) (s : State) : R := logic h tcons d a b s

/-- The rotation of R184 for a count of any sign. -/
def rotate (n : Nat) (a k : Int) : Int := rotl n (k % (n : Int)).toNat a

/-- The count's source fields (R184). -/
def countFields : Count → List Nat
  | .reg b => [b]
  | .imm _ => []
/-- The count of one part (R184). -/
def countPart (n : Count) (t3 : Bool) (b : Int) (j : Nat) : Int :=
  match n with
  | .imm k => (k : Int)
  | .reg _ => if t3 then part b j else b

def shift (h : Hdr) (t3 : Bool) (op : Nat → Int → Int → Int) (d a : Nat) (n : Count) (s : State) : R :=
  .next (s.perLane h { src := a :: countFields n, dst := [d] } (opW d (fun v =>
    if t3 then
      let p (j : Nat) : Int := op 9 (part (arg v 0) j) (countPart n true (arg v 1) j)
      ofParts (p 0) (p 1) (p 2)
    else op 27 (arg v 0) (countPart n false (arg v 1) 0))))
/-- SHL (R184). -/
def execShl (h : Hdr) (t3 : Bool) (d a : Nat) (n : Count) (s : State) : R := shift h t3 shiftL d a n s
/-- SHR (R184). -/
def execShr (h : Hdr) (t3 : Bool) (d a : Nat) (n : Count) (s : State) : R := shift h t3 shiftR d a n s
/-- ROT (R184). -/
def execRot (h : Hdr) (t3 : Bool) (d a : Nat) (n : Count) (s : State) : R := shift h t3 rotate d a n s

/-- FEXT (R185). -/
def execFext (h : Hdr) (d a l w : Nat) (s : State) : R :=
  .next (s.perLane h { src := [a], dst := [d] } (opW d (fun v => fld (arg v 0) l w)))
/-- FINS (R185). -/
def execFins (h : Hdr) (d a b l w : Nat) (s : State) : R :=
  .next (s.perLane h { src := [a, b], dst := [d] } (opW d (fun v => setFld (arg v 0) l w (arg v 1))))
/-- TCNT (R186). -/
def execTcnt (h : Hdr) (v : Int) (d a : Nat) (s : State) : R :=
  .next (s.perLane h { src := [a], dst := [d] } (opW d (fun x => (countTrits 27 v (arg x 0) : Int))))
/-- TLZ (R186). -/
def execTlz (h : Hdr) (d a : Nat) (s : State) : R :=
  .next (s.perLane h { src := [a], dst := [d] } (opW d (fun x => (leadingZeros 27 (arg x 0) : Int))))
/-- TREV (R186). -/
def execTrev (h : Hdr) (d a : Nat) (s : State) : R :=
  .next (s.perLane h { src := [a], dst := [d] } (opW d (fun x => ofTrits (trits 27 (arg x 0)).reverse)))

end Sys2Proof.Machine
end

