-- ==== Sys2Proof/Machine/Mgmt.lean ====
section
/-! DEFINITION. Management (R458-R466): ownership, the management registers, partitions and their supervisors, firmware and
bring-up, the SPDM responder, power, and the package's part in the domain's time. -/

namespace Sys2Proof.Machine

/-! Registers (R458-R460). -/

/-- MSI-X vector n of function 0 is raised. -/
def State.msi (s : State) (n : Nat) : State := { s with mg := { s.mg with msix := s.mg.msix ++ [n] } }
/-- BOOTST changes (R464). -/
def State.setBoot (s : State) (v : Nat) : State :=
  if s.mg.bootst = v then s else { s with mg := { s.mg with bootst := v } }.msi 1
/-- A register write by a master other than the owner is discarded and counted (R458). -/
def State.byOwner (s : State) (m : Nat) (f : State → State) : State :=
  if m = s.mg.owner ∧ m ≠ 0 then f s else { s with mg := { s.mg with mdisc := satAdd 32 s.mg.mdisc 1 } }
/-- Bits hi..lo of a register's value. -/
def bitsOf (v lo n : Nat) : Nat := v / 2 ^ lo % 2 ^ n
/-- The bits of PARTCFG that exist; port bits exist on a package with two ports (R461). -/
def partcfgBits (v : Nat) : Nat := bitsOf v 0 6 + 2 ^ 8 * bitsOf v 8 1 + 2 ^ 16 * (if Config.twoPorts then bitsOf v 16 9 else 0)
/-- A layout with a reserved row code (R461). -/
def rowsReserved (v : Nat) : Bool := decide (bitsOf v 8 1 = 0) && [0, 2, 4].any (fun i => decide (2 ≤ bitsOf v i 2))
/-- The run state of a partition (R459). -/
def State.supRuns (s : State) (p : Nat) : Bool := (s.part p).up && (s.part p).dies.all (fun d => !s.mg.stopped.contains (d * 81))
/-- A management register as every master reads it (R451, R459). -/
def State.mgmtRead (s : State) (addr : Nat) : Nat :=
  let m := s.mg
  if addr = 0x0000 then m.owner else if addr = 0x0008 then m.claimst else if addr = 0x0010 then m.pending
  else if addr = 0x0014 then
    ((List.range 9).map (fun i => if s.supRuns (i + 1) then 2 ^ i else 0)).sum + 2 ^ 16 * m.p2p + (if m.applying then 2 ^ 31 else 0)
  else if addr = 0x0020 then m.bootst else if addr = 0x0024 then m.fwlen else if addr = 0x002C then m.fwstat
  else if addr = 0x0030 then m.domcfg else if addr = 0x0040 then m.pcap else if addr = 0x0044 then m.therm
  else if addr = 0x0048 then m.clk else if addr = 0x004C then m.hdisc else if addr = 0x0050 then m.mdisc else 0
/-- The register CLAIM (R460). -/
def State.claimWrite (s : State) (m value : Nat) : State :=
  let expect := bitsOf value 0 8
  let new := bitsOf value 8 8
  let o := s.mg.owner
  let st := s.mg.claimst
  let rest := if st.testBit (m - 1) then st - 2 ^ (m - 1) else st
  if m < 1 ∨ 3 < m then s
  else if o = expect ∧ ((o = 0 ∧ new = m) ∨ (o = m ∧ new ≤ 3)) then
    let s1 := { s with mg := { s.mg with owner := new, claimst := rest + 2 ^ (m - 1) } }
    if new = o then s1 else s1.msi 0
  else { s with mg := { s.mg with claimst := rest } }
/-- CLAIM (R460). -/
def execClaim (master value : Nat) (s : State) : R := s.linked (fun s => s.claimWrite master value)

/-! Partitions and their supervisors (R395, R461). -/

/-- The dies of the partitions of a layout, in their order (R461). -/
def layoutDies (cfg : Nat) : List (List Nat) :=
  if bitsOf cfg 8 1 = 1 then [[0, 1, 2, 3, 4, 5, 6, 7, 8]]
  else (List.range 3).flatMap (fun r => if bitsOf cfg (2 * r) 2 = 1 then [[3 * r, 3 * r + 1, 3 * r + 2]] else [[3 * r], [3 * r + 1], [3 * r + 2]])
/-- The partitions of a layout, numbered from 1. -/
def layoutOf (cfg : Nat) : Tab Part :=
  (layoutDies cfg).zipIdx.map (fun (ds, i) => (i + 1, { dies := ds, portB := cfg.testBit (16 + i) }))
/-- The supervisor context of a partition as the firmware launches it (R395; DESIGN CHOICE, log 17). -/
def supContext (p n : Nat) (dies : List Nat) : Ctx :=
  { part := p, live := true, order := n
    lr := { entry := Config.supEntry p, regs := 216, preds := 27, warps := 1, group := 1, blocks := dies.length, dies := dies } }
/-- A partition's supervisor starts, with a block on core 0 of each die (R395). -/
def State.startSup (s : State) (p : Nat) : State :=
  let x := s.part p
  let s1 := { (s.setCtx (supOf p) (supContext p s.nextId x.dies)) with nextId := s.nextId + 1 }
  let s2 := x.dies.zipIdx.foldl (fun a (d, b) =>
    let c := d * 81
    ((a.setCore c { blk := some (supOf p, b) }).startWarps (supOf p) b c 1).setBlk (supOf p) b (.placed c)) s1
  { (s2.setPart p { x with up := true, flr := false }) with mg := { s2.mg with stopped := s2.mg.stopped.filter (fun c => !x.dies.contains (c / 81)) } }
/-- The contexts of a partition. -/
def State.ctxsOf (s : State) (p : Nat) : List Nat := (s.ctxs.filter (fun q => q.2.live && decide (q.2.part = p))).map (·.1)
/-- Every context of a partition begins to be killed (R415, R461). -/
def State.killPart (s : State) (p : Nat) : State := (s.ctxsOf p).foldl (fun a c => a.startKill c false) (s.setPart p { s.part p with up := false })
/-- What a partition's contexts leave is gone, with the records bound for its supervisor. -/
def State.dropPart (s : State) (p : Nat) : State :=
  let s1 := (s.ctxsOf p).foldl (fun a c => a.dropCtx c) s
  { s1 with recs := s1.recs.filter (fun r => !(s.part p).dies.contains (r.core / 81)) }
/-- What the owners hold of their owner blocks is gone; an apply clears the blocks too (R420, R461), bring-up leaves memory
as it finds it (R470). -/
def State.resetOwners (s : State) (wipe : Bool) : State :=
  (List.range 10).foldl (fun a i =>
    let own := a.ownKey i
    let z := if wipe then (List.range 27).foldl (fun b (j : Nat) => b.putSector own ((j : Int) - 13) (atomImage (List.replicate 27 0) 0 [])) a else a
    let d := z.dieSt own
    z.setDie own { d with roots := [], wins := [], tlb := [], fb := [], missed := [], dropped := [] }) s
/-- A layout takes effect, and the supervisors start where the firmware runs (R461, R464). -/
def State.applyLayout (s : State) (wipe start : Bool) : State :=
  let s1 := { s with parts := layoutOf s.mg.pending, mg := { s.mg with partcfg := s.mg.pending, applying := false } }.resetOwners wipe
  if start then (s1.parts.map (·.1)).foldl (fun a p => a.startSup p) s1 else s1
/-- The writes of some contexts that have left their cores are performed. -/
def State.drained (s : State) (cs : List Nat) : Bool := !s.reqs.any (fun r => cs.contains r.ctx && r.mustEnd)
/-- Bring-up has started the supervisors, which a stop of one of them leaves in place (R464). -/
def State.broughtUp (s : State) : Bool := s.parts.any (fun p => (s.ctx (supOf p.1)).live)
/-- An apply or a function-level reset goes on once the kills that it began can end (R415, R461): part of every step. -/
def State.noteRestart (s : State) : State :=
  let ps := s.parts.map (·.1)
  if s.mg.applying then
    (if s.drained (ps.flatMap s.ctxsOf) then (ps.foldl (fun a p => a.dropPart p) s).applyLayout true s.broughtUp else s)
  else ps.foldl (fun a p => if (a.part p).flr ∧ a.drained (a.ctxsOf p) then (a.dropPart p).startSup p else a) s
/-- An apply begins (R459, R461); before bring-up there is no context to kill and no supervisor to restart. -/
def State.startApply (s : State) : State :=
  if s.mg.applying then s
  else
    let s1 := (s.parts.map (·.1)).foldl (fun a p => a.killPart p) s
    { s1 with mg := { s1.mg with applying := true } }.noteRestart
/-- PARTCTL_APPLY (R461). -/
def execPartctlApply (master : Nat) (s : State) : R := s.linked (fun s => s.byOwner master State.startApply)
/-- FUNCTION_LEVEL_RESET (R461); before bring-up there is no context to kill and no supervisor to restart. -/
def execFunctionLevelReset (fn : Nat) (s : State) : R :=
  s.linked (fun s =>
    if fn = 0 then { s with mg := { s.mg with fw := [], fwlen := 0 } }
    else match s.fnOf fn with
      | none => s
      | some p =>
        if s.mg.applying then s
        else
          let s1 := s.killPart p
          (s1.setPart p { s1.part p with flr := s.broughtUp, inbox := [], msgs := [] }).noteRestart)

/-! Firmware (R464). -/

/-- The image: as many bytes of BAR2 as FWLEN says. -/
def State.image (s : State) : List (BitVec 8) := (List.range s.mg.fwlen).map (fun i => Tab.get 0 s.mg.fw i)
/-- The code of FWSTAT, 0 for an image that is accepted (R464). -/
def State.fwCode (s : State) : Nat :=
  let n := s.mg.fwlen
  if n < 201 ∨ 4194304 < n then 1
  else
    let im := s.image
    let key := (im.drop 8).take 97
    let i := Config.fusedHashes.findIdx (fun h => decide (h = Config.sha384 key))
    if Config.fusedHashes.length ≤ i ∨ 4 ≤ i then 2
    else if Config.revoked i then 3
    else if leNat (byteVals ((im.drop 4).take 4)) < Config.fusedMin then 4
    else if !Config.ecdsaOk key (Config.sha384 (im.take (n - 96))) (im.drop (n - 96)) then 5 else 0
/-- The boot ROM verifies the image (R464). -/
def State.verify (s : State) : State :=
  if s.mg.bootst ≠ 1 ∧ s.mg.bootst ≠ 3 then s
  else
    let c := s.fwCode
    let s1 := s.setBoot 2
    if c = 0 then { s1 with mg := { s1.mg with fwImage := s.image, fwstat := 0 } }.setBoot 4
    else { s1 with mg := { s1.mg with fwstat := c } }.setBoot 3
/-- FWGO (R464). -/
def execFwgo (master : Nat) (s : State) : R := s.linked (fun s => s.byOwner master State.verify)
/-- FIRMWARE_WINDOW_WRITE (R464): bytes of BAR2 of function 0. -/
def execFirmwareWindowWrite (master off : Nat) (bytes : List (BitVec 8)) (s : State) : R :=
  s.linked (fun s => s.byOwner master (fun s =>
    { s with mg := { s.mg with fw := bytes.zipIdx.foldl (fun m (b, i) => if off + i < 4194304 then Tab.set 0 (off + i) b m else m) s.mg.fw } }))

/-- MGMT_REGISTER_WRITE (R458, R459, R461): reserved bits are ignored. -/
def execMgmtRegisterWrite (master addr value : Nat) (s : State) : R :=
  s.linked (fun s =>
    if addr = 0x0004 then s.claimWrite master value
    else s.byOwner master (fun s =>
      let m := s.mg
      let v := value % 2 ^ 32
      if addr = 0x0010 then (if rowsReserved v then s else { s with mg := { m with pending := partcfgBits v } })
      else if addr = 0x0014 then
        let s1 := { s with mg := { m with p2p := bitsOf v 16 9 } }
        if v.testBit 31 then s1.startApply else s1
      else if addr = 0x0024 then { s with mg := { m with fwlen := v } }
      else if addr = 0x0028 then (if v.testBit 0 then s.verify else s)
      else if addr = 0x0030 then { s with mg := { m with domcfg := v } }
      else if addr = 0x0040 then (if 600 ≤ v ∧ v ≤ 1500 then { s with mg := { m with pcap := v } } else s)
      else s))

/-! Bring-up (R463, R464, R470). -/

/-- The package of some coordinates (R462). -/
def pkgAt (c0 c1 c2 : Int) : Nat := (13 + c0 + 3 * c1 + 9 * c2).toNat
/-- The packages that a dimension-order route passes through (R462). -/
def routeOf (p q : Nat) : List Nat := [pkgAt (coord q 0) (coord p 1) (coord p 2), pkgAt (coord q 0) (coord q 1) (coord p 2)]
/-- A domain that the firmware refuses (R463). -/
def domainBad (cfg : Nat) : Bool :=
  let own := bitsOf cfg 27 5
  let ps := (List.range 27).filter cfg.testBit
  decide (26 < own) || !cfg.testBit own || ps.any (fun p => ps.any (fun q => (routeOf p q).any (fun r => !cfg.testBit r)))
/-- What lies under two packages' numbers changes places: this package takes a new number. -/
def swapPkg (a b own : Nat) : Nat := if own / 27 = a then b * 27 + own % 27 else if own / 27 = b then a * 27 + own % 27 else own
def State.renumber (s : State) (p : Nat) : State :=
  if p = s.pkg then s
  else
    let f := swapPkg s.pkg p
    let g (k : Nat) : Nat := cellKey (f (k / cellKey 1 0)) (k % cellKey 1 0)
    { s with pkg := p
             die := s.die.foldl (fun t q => Tab.put (f q.1) q.2 t) []
             mem := s.mem.foldl (fun t q => Tab.put (g q.1) q.2 t) []
             bad := s.bad.map (fun q => if q.1 = 0 then (0, g q.2) else q) }
/-- The grandmaster's package (R463). -/
def State.grandmaster (s : State) : Nat := ((List.range 27).find? s.mg.domain.testBit).getD s.pkg
/-- The dies of the domain that keep a count. -/
def State.domainDies (s : State) : List Nat := ((List.range 27).filter s.present).flatMap (fun p => (List.range 10).map (fun d => p * 27 + d))
/-- A package that joins takes the domain's time; the counts of its dies, and those of the domain, lie within the bounds of
R122, where is not said; every die's Vellum starts its rotation (R115, R463). -/
def State.startTime (s : State) : State :=
  let t0 : Int := if s.grandmaster = s.pkg then (s.dieSt (s.ownKey 0)).clk else (Config.domainTime s.fresh : Nat)
  let s1 := s.domainDies.foldl (fun a own =>
    let d := a.dieSt own
    let skew : Int := Config.freeWord (s.fresh + own) % 3 + (if own / 27 = s.pkg then 0 else Config.freeWord (s.fresh + 729 + own / 27) % 17 - 8)
    let t := t0 + skew
    a.setDie own { d with clk := t, vwin := t - Config.freeWord (s.fresh + 756 + own) % 2187, refill := t - t % 81, budget := [], full := d.budgF }) s
  { s1 with fresh := s.fresh + 1485 }
/-- BRING_UP_COMPLETE (R463, R464): the firmware forms the domain, applies PARTCFG and starts the supervisors. -/
def execBringUpComplete (ok : Bool) (s : State) : R :=
  s.linked (fun s =>
    if s.mg.bootst ≠ 4 then s
    else if !ok ∨ domainBad s.mg.domcfg then s.setBoot 6
    else
      let s1 := s.renumber (bitsOf s.mg.domcfg 27 5)
      let s2 := { s1 with mg := { s1.mg with domain := s1.mg.domcfg % 2 ^ 27 } }.startTime
      (s2.applyLayout false true).setBoot 5)
/-- POWER_UP (R464, R470): everything is as after reset but what memory holds. -/
def execPowerUp (s : State) : R :=
  let s1 := s.renumber 0
  .next { State.reset with mem := s1.mem, host := s1.host, bad := s1.bad.filter (fun q => decide (q.1 = 0))
                           die := s1.die.filter (fun q => decide (q.1 / 27 ≠ 0)), inputs := s1.inputs, fresh := s1.fresh
                           stamp := s1.stamp, nextId := s1.nextId }

/-! The SPDM responder (R465). -/

/-- A response is sent. -/
def State.spdm (s : State) (bs : List Nat) : State :=
  { s with mg := { s.mg with spdmOut := s.mg.spdmOut ++ [bs.map (BitVec.ofNat 8)] } }
/-- A little-endian number of n bytes. -/
def leBytes (n v : Nat) : List Nat := (List.range n).map (fun i => v / 256 ^ i % 256)
/-- ERROR with a code. -/
def spdmError (c : Nat) : List Nat := [0x7F, c, 0]
/-- The signature of the alias key over a message (R465). -/
def State.sign (s : State) (msg : List Nat) : List Nat :=
  byteVals (Config.aliasSign (Config.sha384 s.mg.fwImage) (Config.sha384 (msg.map (BitVec.ofNat 8))))
/-- The measurements (R465). -/
def State.measurement (s : State) (i : Nat) : List Nat :=
  if i = 1 then byteVals (Config.sha384 Config.bootRom)
  else if i = 2 then byteVals (Config.sha384 s.mg.fwImage)
  else if i = 3 then byteVals ((s.mg.fwImage.drop 4).take 4) ++ leBytes 4 Config.fusedMin
  else leBytes 4 s.mg.pending ++ leBytes 4 s.mg.domcfg ++ leBytes 4 s.mg.owner
/-- GET_VERSION: 1.2 and 1.3. -/
def execGetVersion (s : State) : R :=
  s.linked (fun s => { s with mg := { s.mg with spdmVer := true, spdmCap := false, spdmAlg := false } }.spdm [0x04, 0x12, 0x13])
/-- GET_CAPABILITIES: certificates, challenge and signed measurements; no sessions. -/
def execGetCapabilities (s : State) : R :=
  s.linked (fun s => { s with mg := { s.mg with spdmCap := true } }.spdm [0x61, 0x16])
/-- NEGOTIATE_ALGORITHMS: ECDSA P-384 and SHA-384 where the requester offers them. -/
def execNegotiateAlgorithms (alg : SpdmAlg) (s : State) : R :=
  s.linked (fun s => { s with mg := { s.mg with spdmAlg := alg.asym && alg.hash } }.spdm
    [0x63, if alg.asym then 0x80 else 0, if alg.hash then 2 else 0])
/-- GET_DIGESTS: the digest of slot 0's chain. -/
def execGetDigests (s : State) : R := s.linked (fun s => s.spdm ([0x01, 1] ++ byteVals (Config.sha384 (Config.certChain (Config.sha384 s.mg.fwImage)))))
/-- GET_CERTIFICATE: a portion of slot 0's chain and how much is left. -/
def execGetCertificate (slot off len : Nat) (s : State) : R :=
  s.linked (fun s =>
    let c := byteVals (Config.certChain (Config.sha384 s.mg.fwImage))
    if slot ≠ 0 ∨ c.length ≤ off then s.spdm (spdmError 1)
    else
      let p := (c.drop off).take len
      s.spdm ([0x02, 0] ++ leBytes 2 p.length ++ leBytes 2 (c.length - off - p.length) ++ p))
/-- CHALLENGE: slot 0 signs the requester's nonce. -/
def execChallenge (slot nonce : Nat) (s : State) : R :=
  s.linked (fun s =>
    if slot ≠ 0 then s.spdm (spdmError 1)
    else
      let body := [0x03, 0] ++ byteVals (Config.sha384 (Config.certChain (Config.sha384 s.mg.fwImage))) ++ leBytes 32 nonce
      s.spdm (body ++ s.sign body))
/-- GET_MEASUREMENTS: their number, one of them, or all; signed. -/
def execGetMeasurements (idx nonce : Nat) (s : State) : R :=
  s.linked (fun s =>
    if idx = 0 then s.spdm [0x60, 4]
    else if 4 < idx ∧ idx ≠ 255 then s.spdm (spdmError 1)
    else
      let ms := if idx = 255 then [1, 2, 3, 4] else [idx]
      let body := [0x60, ms.length] ++ ms.flatMap (fun i => i :: s.measurement i) ++ leBytes 32 nonce
      s.spdm (body ++ s.sign body))
/-- SPDM_UNSUPPORTED_REQUEST. -/
def execSpdmUnsupportedRequest (code : Nat) (s : State) : R := s.linked (fun s => s.spdm [0x7F, 7, code % 256])

/-! Power and temperature (R466). -/

/-- POWER_WINDOW (R466): the end of a 10 ms window with its average power and the hottest junction. -/
def execPowerWindow (watts temp : Nat) (s : State) : R :=
  s.linked (fun s =>
    let m := s.mg
    let hot : Bool := decide (m.pcap < watts) || decide (100 ≤ temp)
    let clk := if hot then max 390 (m.clk - 26) else min 1300 (m.clk + 26)
    let enters : Bool := decide (m.clk = 1300) && decide (clk < 1300)
    let n := satAdd 16 (bitsOf m.therm 16 16) (if enters then 1 else 0)
    let s1 := { s with mg := { m with clk := clk, therm := min temp 255 + (if clk < 1300 then 256 else 0) + 65536 * n } }
    if clk = m.clk then s1 else s1.msi 2)
/-- THERMAL_SHUTDOWN (R466): a junction at 110 removes the package's power; nothing is saved. -/
def execThermalShutdown (temp : Nat) (s : State) : R :=
  s.linked (fun s =>
    if temp < 110 then s
    else { State.reset with mem := s.mem.filter (fun q => decide (q.1 / cellKey 27 0 ≠ s.pkg)), host := s.host
                            die := s.die.filter (fun q => decide (q.1 / 27 ≠ s.pkg)), pkg := s.pkg, inputs := s.inputs
                            fresh := s.fresh, stamp := s.stamp, nextId := s.nextId, mg := { powerOff := true } })

/-! The domain's time (R123, R462, R463). -/

/-- A spare or primary port trains or fails to (R462). -/
def execHairlinePortTraining (port : Nat) (ok : Bool) (s : State) : R :=
  s.linked (fun s => if port < 9 then { s with mg := { s.mg with trained := Tab.set true port ok s.mg.trained } } else s)
/-- The port, of a dimension's pair, that leads to a package; its spare when it is down; none when both are. -/
def State.portTo (s : State) (d : Nat) (up : Bool) : Option Nat :=
  let q := if up then 2 * d else 2 * d + 1
  if Tab.get true s.mg.trained q then some q else if Tab.get true s.mg.trained (6 + d) then some (6 + d) else none
/-- The ports on which Sync leaves, down the dimension-order tree from the grandmaster (R463). -/
def State.treePorts (s : State) : List Nat :=
  let g := s.grandmaster
  (List.range 3).flatMap (fun d =>
    if (List.range 3).any (fun e => decide (d ≤ e) && decide (coord s.pkg e ≠ coord g e)) then []
    else [true, false].filterMap (fun up =>
      let c (e : Nat) : Int := if e = d then wrap (coord s.pkg e + (if up then 1 else -1)) 1 else coord s.pkg e
      if s.present (pkgAt (c 0) (c 1) (c 2)) then s.portTo d up else none))
/-- A clock message leaves on some ports with the I/O die's time. -/
def State.clkSend (s : State) (ps : List Nat) (k : Clk) : State :=
  { s with mg := { s.mg with clkOut := s.mg.clkOut ++ ps.map (fun p => (p, k, (s.dieSt (s.ownKey 9)).clk)) } }
/-- A package that keeps its own time: the grandmaster. -/
def State.keepsTime (s : State) : Bool := decide (s.grandmaster = s.pkg)
/-- SYNC (R463): an accepted Sync measures the offset, which the dies' rates follow as time passes (R120), and goes on down
the tree. -/
def execSync (offset : Int) (accepted : Bool) (s : State) : R :=
  s.linked (fun s =>
    if s.keepsTime then s
    else if !accepted then { s with mg := { s.mg with goodSync := 0 } }
    else
      let near : Bool := decide (-2 ≤ offset) && decide (offset ≤ 2)
      { s with mg := { s.mg with offset := offset, noSync := 0, goodSync := if near then s.mg.goodSync + 1 else 0 } }.clkSend s.treePorts .sync)
/-- SYNC_INTERVAL (R463). -/
def execSyncInterval (s : State) : R :=
  s.linked (fun s =>
    let up := (List.range 9).filter (fun q => Tab.get true s.mg.trained q)
    let s1 := if s.keepsTime then s.clkSend s.treePorts .sync
      else { s with mg := { s.mg with noSync := s.mg.noSync + 1 } }
    s1.clkSend up .pdelayReq)
/-- PDELAY (R463): a request is answered, a response measures the port's delay. -/
def execPdelay (port : Nat) (delay : Option Int) (s : State) : R :=
  s.linked (fun s =>
    if 9 ≤ port then s
    else match delay with
      | none => s.clkSend [port] .pdelayResp
      | some v => { s with mg := { s.mg with delays := Tab.put port v s.mg.delays } })
/-- The dies on which a context stands (R105, R439). -/
def State.diesOf (s : State) (ctx : Nat) : List Nat := if isSup ctx then (s.part (s.ctx ctx).part).dies else (s.ctx ctx).lr.dies
/-- HOLDOVER_ENTRY (R123, R404, R463): TIME in every thread on the package, and HOLD counted. -/
def execHoldoverEntry (s : State) : R :=
  s.linked (fun s =>
    if s.mg.holdover ∨ s.keepsTime ∨ !(8 ≤ s.mg.noSync ∨ 243 < s.mg.offset ∨ s.mg.offset < -243) then s
    else
      let s1 := { s with mg := { s.mg with holdover := true, goodSync := 0 } }.msi 3
      let s2 := s1.ctxs.foldl (fun a (c, x) => if x.live then (s.diesOf c).foldl (fun b d => b.count c d 45 1) a else a) s1
      s2.thr.foldl (fun a (t, _) => a.defer t 23 0) s2)
/-- HOLDOVER_EXIT (R123, R463). -/
def execHoldoverExit (s : State) : R :=
  s.linked (fun s => if s.mg.holdover ∧ 16 ≤ s.mg.goodSync then { s with mg := { s.mg with holdover := false } }.msi 3 else s)

end Sys2Proof.Machine
end

