-- ==== Sys2Proof/Machine/Move.lean ====
section
/-! DEFINITION. Moves, selects and predicates, row 3 (R187-R192). -/

namespace Sys2Proof.Machine

/-- MOV (R187). -/
def execMov (h : Hdr) (x : Bool) (d a : Nat) (s : State) : R :=
  if x then .next (s.perLane h { srcP := [a], dstP := [d] } (fun s t _ => { wr := [.pair d (s.regPair t a)] }))
  else .next (s.perLane h { src := [a], dst := [d] } (opW d (fun v => arg v 0)))

/-- One lane of MOV.nb at an open port, which serves lanes while it can (R81). -/
def nbLane (d a c q : Nat) (pop : Bool) (s : State) (t : Nat) : State :=
  let w := s.cur.warp
  let k := coreOf w
  let x := s.warp w
  let s1 := s.retire t s.cur.next
  if pop then
    match s.port k q with
    | v :: _ => ((s1.portPop w q 1).setReg t d v).setPred t c 1
    | [] => s1.setPred t c 0
  else if s.portRoom k x.ctx x.bid q = 0 then s1.setPred t c 0
  else (s1.portPush k x.ctx x.bid q [s.reg t a]).setPred t c 1

/-- MOV.nb (R81, R187): at a closed port nothing moves in any lane. -/
def execMovNb (h : Hdr) (d a c : Nat) (s : State) : R :=
  let q := (if isPort a then a else d) - 216
  .next (s.issue h { src := [a], dst := [d], preds := [c] } (fun act s =>
    if s.portClosed (coreOf s.cur.warp) (s.warp s.cur.warp).ctx q then
      (s.curThreads act).foldl (fun b t => (b.retire t s.cur.next).setPred t c (-1)) s
    else (s.curThreads act).foldl (nbLane d a c q (isPort a)) s))

/-- MOVI (R188). -/
def execMovi (h : Hdr) (x : Bool) (d : Nat) (imm : Int) (s : State) : R :=
  let v := effImm h imm
  if x then .next (s.perLane h { dstP := [d] } (fun _ _ _ => { wr := [.pair d v] }))
  else .next (s.perLane h { dst := [d] } (opW d (fun _ => v)))

/-- SEL3 (R189). -/
def execSel3 (h : Hdr) (p d a b c : Nat) (s : State) : R :=
  .next (s.perLane h { src := [a, b, c], dst := [d], preds := [p] } (fun s t v =>
    { wr := [wrW d (if s.pred t p = -1 then arg v 0 else if s.pred t p = 0 then arg v 1 else arg v 2)] }))

/-- PSET with a value (R190). -/
def execPset (h : Hdr) (d : Nat) (v : Int) (s : State) : R :=
  .next (s.perLane h { preds := [d] } (fun _ _ _ => { wr := [.pred d v] }))
/-- PSET from a trit of a word (R190). -/
def execPsetTrit (h : Hdr) (d a t : Nat) (s : State) : R :=
  .next (s.perLane h { src := [a], preds := [d] } (fun _ _ v => { wr := [.pred d (trit (arg v 0) t)] }))
/-- PMOV (R191). -/
def execPmov (h : Hdr) (d a : Nat) (s : State) : R :=
  .next (s.perLane h { preds := [d, a] } (fun s t _ => { wr := [.pred d (s.pred t a)] }))
/-- PMOV.tw (R191). -/
def execPmovTw (h : Hdr) (d a : Nat) (s : State) : R :=
  .next (s.perLane h { dst := [d], preds := (List.range 27).map (a + ·) }
    (fun s t _ => { wr := [wrW d (predsWord (s.pred t) a)] }))
/-- PMOV.fw (R191). -/
def execPmovFw (h : Hdr) (d a : Nat) (s : State) : R :=
  .next (s.perLane h { src := [a], preds := (List.range 27).map (d + ·) }
    (fun _ _ v => { wr := (List.range 27).map (fun i => .pred (d + i) (trit (arg v 0) i)) }))
/-- PAND (R192). -/
def execPand (h : Hdr) (d a b : Nat) (s : State) : R :=
  .next (s.perLane h { preds := [d, a, b] } (fun s t _ => { wr := [.pred d (min (s.pred t a) (s.pred t b))] }))
/-- POR (R192). -/
def execPor (h : Hdr) (d a b : Nat) (s : State) : R :=
  .next (s.perLane h { preds := [d, a, b] } (fun s t _ => { wr := [.pred d (max (s.pred t a) (s.pred t b))] }))
/-- PNOT (R192). -/
def execPnot (h : Hdr) (d a : Nat) (s : State) : R :=
  .next (s.perLane h { preds := [d, a] } (fun s t _ => { wr := [.pred d (-(s.pred t a))] }))

end Sys2Proof.Machine
end

