-- ==== Sys2Proof/Machine/Dispatch.lean ====
section
/-! DEFINITION. The dispatch: one direct call of a meaning for each constructor. -/

namespace Sys2Proof.Machine

/-- The meaning of every row of the table. -/
def exec (i : Instr) (s : State) : Host.Outcome State Fault Refusal :=
  match i with
  | .add h t3 sat d a b => Sys2Proof.Machine.execAdd h t3 sat d a b s
  | .addi h t3 sat x d a imm => Sys2Proof.Machine.execAddi h t3 sat x d a imm s
  | .sub h t3 sat d a b => Sys2Proof.Machine.execSub h t3 sat d a b s
  | .neg h t3 d a => Sys2Proof.Machine.execNeg h t3 d a s
  | .abs h t3 d a => Sys2Proof.Machine.execAbs h t3 d a s
  | .sgn h t3 d a => Sys2Proof.Machine.execSgn h t3 d a s
  | .mul h t3 sat d a b => Sys2Proof.Machine.execMul h t3 sat d a b s
  | .mulh h t3 d a b => Sys2Proof.Machine.execMulh h t3 d a b s
  | .mulw h d a b => Sys2Proof.Machine.execMulw h d a b s
  | .mad h t3 sat d a b c => Sys2Proof.Machine.execMad h t3 sat d a b c s
  | .div h t3 d a b => Sys2Proof.Machine.execDiv h t3 d a b s
  | .rem h t3 d a b => Sys2Proof.Machine.execRem h t3 d a b s
  | .min h t3 d a b => Sys2Proof.Machine.execMin h t3 d a b s
  | .max h t3 d a b => Sys2Proof.Machine.execMax h t3 d a b s
  | .clamp h t3 d a b c => Sys2Proof.Machine.execClamp h t3 d a b c s
  | .addx h d a b => Sys2Proof.Machine.execAddx h d a b s
  | .subx h d a b => Sys2Proof.Machine.execSubx h d a b s
  | .lea h d m => Sys2Proof.Machine.execLea h d m s
  | .cmp h t3 x d a b => Sys2Proof.Machine.execCmp h t3 x d a b s
  | .cmpi h x d a imm => Sys2Proof.Machine.execCmpi h x d a imm s
  | .tand h d a b => Sys2Proof.Machine.execTand h d a b s
  | .tor h d a b => Sys2Proof.Machine.execTor h d a b s
  | .tsum h d a b => Sys2Proof.Machine.execTsum h d a b s
  | .tmult h d a b => Sys2Proof.Machine.execTmult h d a b s
  | .tcons h d a b => Sys2Proof.Machine.execTcons h d a b s
  | .shl h t3 d a n => Sys2Proof.Machine.execShl h t3 d a n s
  | .shr h t3 d a n => Sys2Proof.Machine.execShr h t3 d a n s
  | .rot h t3 d a n => Sys2Proof.Machine.execRot h t3 d a n s
  | .fext h d a l w => Sys2Proof.Machine.execFext h d a l w s
  | .fins h d a b l w => Sys2Proof.Machine.execFins h d a b l w s
  | .tcnt h v d a => Sys2Proof.Machine.execTcnt h v d a s
  | .tlz h d a => Sys2Proof.Machine.execTlz h d a s
  | .trev h d a => Sys2Proof.Machine.execTrev h d a s
  | .mov h x d a => Sys2Proof.Machine.execMov h x d a s
  | .movNb h d a c => Sys2Proof.Machine.execMovNb h d a c s
  | .movi h x d imm => Sys2Proof.Machine.execMovi h x d imm s
  | .sel3 h p d a b c => Sys2Proof.Machine.execSel3 h p d a b c s
  | .pset h d v => Sys2Proof.Machine.execPset h d v s
  | .psetTrit h d a t => Sys2Proof.Machine.execPsetTrit h d a t s
  | .pmov h d a => Sys2Proof.Machine.execPmov h d a s
  | .pmovTw h d a => Sys2Proof.Machine.execPmovTw h d a s
  | .pmovFw h d a => Sys2Proof.Machine.execPmovFw h d a s
  | .pand h d a b => Sys2Proof.Machine.execPand h d a b s
  | .por h d a b => Sys2Proof.Machine.execPor h d a b s
  | .pnot h d a => Sys2Proof.Machine.execPnot h d a s
  | .cvt h t3 sat ty d a => Sys2Proof.Machine.execCvt h t3 sat ty d a s
  | .cvtf h sat ty dty d a => Sys2Proof.Machine.execCvtf h sat ty dty d a s
  | .rng h d a b => Sys2Proof.Machine.execRng h d a b s
  | .fadd h f d a b => Sys2Proof.Machine.execFadd h f d a b s
  | .fsub h f d a b => Sys2Proof.Machine.execFsub h f d a b s
  | .fmul h f d a b => Sys2Proof.Machine.execFmul h f d a b s
  | .ffma h f d a b c => Sys2Proof.Machine.execFfma h f d a b c s
  | .fmin h f d a b => Sys2Proof.Machine.execFmin h f d a b s
  | .fmax h f d a b => Sys2Proof.Machine.execFmax h f d a b s
  | .fneg h f d a => Sys2Proof.Machine.execFneg h f d a s
  | .fabs h f d a => Sys2Proof.Machine.execFabs h f d a s
  | .fscl h f d a b imm => Sys2Proof.Machine.execFscl h f d a b imm s
  | .fcmp h f d a b => Sys2Proof.Machine.execFcmp h f d a b s
  | .fclass h f d a => Sys2Proof.Machine.execFclass h f d a s
  | .frnd h f d a imm => Sys2Proof.Machine.execFrnd h f d a imm s
  | .fcvtF9 h d a => Sys2Proof.Machine.execFcvtF9 h d a s
  | .fcvtF27 h d a => Sys2Proof.Machine.execFcvtF27 h d a s
  | .fdiv h f d a b => Sys2Proof.Machine.execFdiv h f d a b s
  | .fsqrt h f d a => Sys2Proof.Machine.execFsqrt h f d a s
  | .frcp h f d a => Sys2Proof.Machine.execFrcp h f d a s
  | .frsq h f d a => Sys2Proof.Machine.execFrsq h f d a s
  | .fexp h f d a => Sys2Proof.Machine.execFexp h f d a s
  | .fexp3 h f d a => Sys2Proof.Machine.execFexp3 h f d a s
  | .flog h f d a => Sys2Proof.Machine.execFlog h f d a s
  | .flog3 h f d a => Sys2Proof.Machine.execFlog3 h f d a s
  | .fsin h f d a => Sys2Proof.Machine.execFsin h f d a s
  | .fcos h f d a => Sys2Proof.Machine.execFcos h f d a s
  | .ftanh h f d a => Sys2Proof.Machine.execFtanh h f d a s
  | .fsigm h f d a => Sys2Proof.Machine.execFsigm h f d a s
  | .ferf h f d a => Sys2Proof.Machine.execFerf h f d a s
  | .functionResultWrite w => Sys2Proof.Machine.execFunctionResultWrite w s
  | .ld h sz o lease d m => Sys2Proof.Machine.execLd h sz o lease d m s
  | .st h sz o d m => Sys2Proof.Machine.execSt h sz o d m s
  | .ldb h bt tt sat o d m => Sys2Proof.Machine.execLdb h bt tt sat o d m s
  | .stb h bt tt sat o d m => Sys2Proof.Machine.execStb h bt tt sat o d m s
  | .ldnb h sz o lease d m c => Sys2Proof.Machine.execLdnb h sz o lease d m c s
  | .stva h sz o d m c => Sys2Proof.Machine.execStva h sz o d m c s
  | .pref h lease m => Sys2Proof.Machine.execPref h lease m s
  | .wb h m => Sys2Proof.Machine.execWb h m s
  | .wbAll h => Sys2Proof.Machine.execWbAll h s
  | .inv h m => Sys2Proof.Machine.execInv h m s
  | .invAll h => Sys2Proof.Machine.execInvAll h s
  | .atom h op sz o d m c => Sys2Proof.Machine.execAtom h op sz o d m c s
  | .cas h sz o d m c => Sys2Proof.Machine.execCas h sz o d m c s
  | .red h op sz o m c => Sys2Proof.Machine.execRed h op sz o m c s
  | .atomo h op sz o d a k disp c => Sys2Proof.Machine.execAtomo h op sz o d a k disp c s
  | .fence h o => Sys2Proof.Machine.execFence h o s
  | .fenceComplete w => Sys2Proof.Machine.execFenceComplete w s
  | .tnow h d => Sys2Proof.Machine.execTnow h d s
  | .twait h t scope imm => Sys2Proof.Machine.execTwait h t scope imm s
  | .timedWaitDeadline t => Sys2Proof.Machine.execTimedWaitDeadline t s
  | .talarm h t a imm => Sys2Proof.Machine.execTalarm h t a imm s
  | .alarmDue c => Sys2Proof.Machine.execAlarmDue c s
  | .bar h l k rlx => Sys2Proof.Machine.execBar h l k rlx s
  | .bara h l k rlx d => Sys2Proof.Machine.execBara h l k rlx d s
  | .barw h l k rlx a => Sys2Proof.Machine.execBarw h l k rlx a s
  | .barv h l k rlx op a b n => Sys2Proof.Machine.execBarv h l k rlx op a b n s
  | .barrierPhaseComplete l key k => Sys2Proof.Machine.execBarrierPhaseComplete l key k s
  | .barrierSignal key k n op part => Sys2Proof.Machine.execBarrierSignal key k n op part s
  | .tkt h sq d m => Sys2Proof.Machine.execTkt h sq d m s
  | .tktOpen h sq m => Sys2Proof.Machine.execTktOpen h sq m s
  | .tktClose h sq m => Sys2Proof.Machine.execTktClose h sq m s
  | .tkp h m c => Sys2Proof.Machine.execTkp h m c s
  | .msg h rlx a b nb => Sys2Proof.Machine.execMsg h rlx a b nb s
  | .messageArrival id => Sys2Proof.Machine.execMessageArrival id s
  | .qstat h d a => Sys2Proof.Machine.execQstat h d a s
  | .queueServe w => Sys2Proof.Machine.execQueueServe w s
  | .draft h imm => Sys2Proof.Machine.execDraft h imm s
  | .ink h => Sys2Proof.Machine.execInk h s
  | .draftPrepare id => Sys2Proof.Machine.execDraftPrepare id s
  | .draftDecision w => Sys2Proof.Machine.execDraftDecision w s
  | .draftCommitArrival id => Sys2Proof.Machine.execDraftCommitArrival id s
  | .inkRetire w => Sys2Proof.Machine.execInkRetire w s
  | .erase h code => Sys2Proof.Machine.execErase h code s
  | .dstat h d => Sys2Proof.Machine.execDstat h d s
  | .br h imm => Sys2Proof.Machine.execBr h imm s
  | .call h d imm => Sys2Proof.Machine.execCall h d imm s
  | .callt h d a sig => Sys2Proof.Machine.execCallt h d a sig s
  | .ret h a => Sys2Proof.Machine.execRet h a s
  | .setmr h imm => Sys2Proof.Machine.execSetmr h imm s
  | .setmrClr h => Sys2Proof.Machine.execSetmrClr h s
  | .movmrGet h d => Sys2Proof.Machine.execMovmrGet h d s
  | .movmrPut h a => Sys2Proof.Machine.execMovmrPut h a s
  | .exit h => Sys2Proof.Machine.execExit h s
  | .brk h code => Sys2Proof.Machine.execBrk h code s
  | .trap h code => Sys2Proof.Machine.execTrap h code s
  | .yld h => Sys2Proof.Machine.execYld h s
  | .nop h => Sys2Proof.Machine.execNop h s
  | .hint raw => Sys2Proof.Machine.execHint raw s
  | .spawn h a b imm => Sys2Proof.Machine.execSpawn h a b imm s
  | .spawnBinTimer c b => Sys2Proof.Machine.execSpawnBinTimer c b s
  | .spawnWarpCreate c b => Sys2Proof.Machine.execSpawnWarpCreate c b s
  | .rclaim h g => Sys2Proof.Machine.execRclaim h g s
  | .rgive h g => Sys2Proof.Machine.execRgive h g s
  | .claimGrant c => Sys2Proof.Machine.execClaimGrant c s
  | .wait h bld bst bcp btl => Sys2Proof.Machine.execWait h bld bst bcp btl s
  | .icpf h cnt imm => Sys2Proof.Machine.execIcpf h cnt imm s
  | .ifence h => Sys2Proof.Machine.execIfence h s
  | .icinv h imm => Sys2Proof.Machine.execIcinv h imm s
  | .icinvAll h => Sys2Proof.Machine.execIcinvAll h s
  | .instructionFetchFill id => Sys2Proof.Machine.execInstructionFetchFill id s
  | .mcfg h a g => Sys2Proof.Machine.execMcfg h a g s
  | .ring h r first count => Sys2Proof.Machine.execRing h r first count s
  | .fstat h wsel d a off => Sys2Proof.Machine.execFstat h wsel d a off s
  | .fsetReady h full a b off => Sys2Proof.Machine.execFsetReady h full a b off s
  | .fsetEmpty h full a off => Sys2Proof.Machine.execFsetEmpty h full a off s
  | .mzero h slot => Sys2Proof.Machine.execMzero h slot s
  | .mloop h bhold tok a slot ra rb kc => Sys2Proof.Machine.execMloop h bhold tok a slot ra rb kc s
  | .mrdy h => Sys2Proof.Machine.execMrdy h s
  | .mdrain h o => Sys2Proof.Machine.execMdrain h o s
  | .qscale h tok d c slot => Sys2Proof.Machine.execQscale h tok d c slot s
  | .fitr h clr d slot => Sys2Proof.Machine.execFitr h clr d slot s
  | .mbudg h d => Sys2Proof.Machine.execMbudg h d s
  | .nibStepStart c => Sys2Proof.Machine.execNibStepStart c s
  | .nibStepComplete c => Sys2Proof.Machine.execNibStepComplete c s
  | .nibZeroPerform c => Sys2Proof.Machine.execNibZeroPerform c s
  | .nibDrainComplete c => Sys2Proof.Machine.execNibDrainComplete c s
  | .nibQscaleComplete c => Sys2Proof.Machine.execNibQscaleComplete c s
  | .nibCommandComplete c => Sys2Proof.Machine.execNibCommandComplete c s
  | .budgetRefill die => Sys2Proof.Machine.execBudgetRefill die s
  | .cpy h o d a b => Sys2Proof.Machine.execCpy h o d a b s
  | .cpys h o d a c => Sys2Proof.Machine.execCpys h o d a c s
  | .cpyg h o d a b c => Sys2Proof.Machine.execCpyg h o d a b c s
  | .cpyx h o d a b c => Sys2Proof.Machine.execCpyx h o d a b c s
  | .cpyc h tok tag d a b => Sys2Proof.Machine.execCpyc h tok tag d a b s
  | .cpyv h tok tag d a b => Sys2Proof.Machine.execCpyv h tok tag d a b s
  | .copyElementTransfer c k => Sys2Proof.Machine.execCopyElementTransfer c k s
  | .scaleQueueMatch c k => Sys2Proof.Machine.execScaleQueueMatch c k s
  | .copyStop c k => Sys2Proof.Machine.execCopyStop c k s
  | .copyComplete c k => Sys2Proof.Machine.execCopyComplete c k s
  | .scrb h a b len g imm => Sys2Proof.Machine.execScrb h a b len g imm s
  | .scrh h d => Sys2Proof.Machine.execScrh h d s
  | .scrhStop h d => Sys2Proof.Machine.execScrhStop h d s
  | .sloop h a k len => Sys2Proof.Machine.execSloop h a k len s
  | .scribeProgramEnd c => Sys2Proof.Machine.execScribeProgramEnd c s
  | .decode ctx bid => Sys2Proof.Machine.execDecode ctx bid s
  | .decodeFlush ctx bid => Sys2Proof.Machine.execDecodeFlush ctx bid s
  | .decodeReset ctx bid => Sys2Proof.Machine.execDecodeReset ctx bid s
  | .decodeFrameOutput ctx bid => Sys2Proof.Machine.execDecodeFrameOutput ctx bid s
  | .phase h => Sys2Proof.Machine.execPhase h s
  | .phaseEnd ctx => Sys2Proof.Machine.execPhaseEnd ctx s
  | .csrr h d n => Sys2Proof.Machine.execCsrr h d n s
  | .csrw h a n => Sys2Proof.Machine.execCsrw h a n s
  | .tret h => Sys2Proof.Machine.execTret h s
  | .clrc h mask => Sys2Proof.Machine.execClrc h mask s
  | .launch h d a => Sys2Proof.Machine.execLaunch h d a s
  | .launchRes h d a b => Sys2Proof.Machine.execLaunchRes h d a b s
  | .kill h a => Sys2Proof.Machine.execKill h a s
  | .killComplete ctx => Sys2Proof.Machine.execKillComplete ctx s
  | .preempt h a => Sys2Proof.Machine.execPreempt h a s
  | .preemptBlk h a b => Sys2Proof.Machine.execPreemptBlk h a b s
  | .saveComplete ctx bid => Sys2Proof.Machine.execSaveComplete ctx bid s
  | .replay h d a b => Sys2Proof.Machine.execReplay h d a b s
  | .deny h a b => Sys2Proof.Machine.execDeny h a b s
  | .tlbi h a b => Sys2Proof.Machine.execTlbi h a b s
  | .tlbiCtx h a b => Sys2Proof.Machine.execTlbiCtx h a b s
  | .tlbiDie h b => Sys2Proof.Machine.execTlbiDie h b s
  | .halt h => Sys2Proof.Machine.execHalt h s
  | .trapEntry w => Sys2Proof.Machine.execTrapEntry w s
  | .doubleTrap w => Sys2Proof.Machine.execDoubleTrap w s
  | .unhandledTrap w => Sys2Proof.Machine.execUnhandledTrap w s
  | .deferredCause t => Sys2Proof.Machine.execDeferredCause t s
  | .hang ctx => Sys2Proof.Machine.execHang ctx s
  | .loadReply id => Sys2Proof.Machine.execLoadReply id s
  | .writeCompletion id => Sys2Proof.Machine.execWriteCompletion id s
  | .homeRequest id => Sys2Proof.Machine.execHomeRequest id s
  | .sectorFill id => Sys2Proof.Machine.execSectorFill id s
  | .l1Fill id => Sys2Proof.Machine.execL1Fill id s
  | .leaseEnd c line => Sys2Proof.Machine.execLeaseEnd c line s
  | .l1Eviction c line => Sys2Proof.Machine.execL1Eviction c line s
  | .l2Eviction sec => Sys2Proof.Machine.execL2Eviction sec s
  | .stvaArrival id => Sys2Proof.Machine.execStvaArrival id s
  | .stvaPerform id => Sys2Proof.Machine.execStvaPerform id s
  | .atomoArrival id => Sys2Proof.Machine.execAtomoArrival id s
  | .atomoResend id => Sys2Proof.Machine.execAtomoResend id s
  | .blockEnd ctx bid => Sys2Proof.Machine.execBlockEnd ctx bid s
  | .vellumWindowEnd id => Sys2Proof.Machine.execVellumWindowEnd id s
  | .vwinAdvance die => Sys2Proof.Machine.execVwinAdvance die s
  | .pageFault id => Sys2Proof.Machine.execPageFault id s
  | .faultRecordPush die => Sys2Proof.Machine.execFaultRecordPush die s
  | .deferredWriteBackFault id => Sys2Proof.Machine.execDeferredWriteBackFault id s
  | .blockEligible ctx bid => Sys2Proof.Machine.execBlockEligible ctx bid s
  | .placement die => Sys2Proof.Machine.execPlacement die s
  | .blockStart ctx bid => Sys2Proof.Machine.execBlockStart ctx bid s
  | .contextCompletion ctx => Sys2Proof.Machine.execContextCompletion ctx s
  | .hostWrite req => Sys2Proof.Machine.execHostWrite req s
  | .powerUp => Sys2Proof.Machine.execPowerUp s
  | .getVersion => Sys2Proof.Machine.execGetVersion s
  | .getCapabilities => Sys2Proof.Machine.execGetCapabilities s
  | .getDigests => Sys2Proof.Machine.execGetDigests s
  | .holdoverEntry => Sys2Proof.Machine.execHoldoverEntry s
  | .holdoverExit => Sys2Proof.Machine.execHoldoverExit s
  | .hairlineArrival id => Sys2Proof.Machine.execHairlineArrival id s
  | .hairlineUndeliverable id => Sys2Proof.Machine.execHairlineUndeliverable id s
  | .ownerAnswer id => Sys2Proof.Machine.execOwnerAnswer id s
  | .syncInterval => Sys2Proof.Machine.execSyncInterval s
  | .inbox req part addr bytes => Sys2Proof.Machine.execInbox req part addr bytes s
  | .sectorApertureRead req part off n => Sys2Proof.Machine.execSectorApertureRead req part off n s
  | .sectorApertureWrite req part off bytes => Sys2Proof.Machine.execSectorApertureWrite req part off bytes s
  | .windowApertureRead req part off n => Sys2Proof.Machine.execWindowApertureRead req part off n s
  | .windowApertureWrite req part off bytes => Sys2Proof.Machine.execWindowApertureWrite req part off bytes s
  | .flush part => Sys2Proof.Machine.execFlush part s
  | .claim master value => Sys2Proof.Machine.execClaim master value s
  | .partctlApply master => Sys2Proof.Machine.execPartctlApply master s
  | .mgmtRegisterWrite master addr value => Sys2Proof.Machine.execMgmtRegisterWrite master addr value s
  | .functionLevelReset fn => Sys2Proof.Machine.execFunctionLevelReset fn s
  | .fwgo master => Sys2Proof.Machine.execFwgo master s
  | .bringUpComplete ok => Sys2Proof.Machine.execBringUpComplete ok s
  | .getCertificate slot off len => Sys2Proof.Machine.execGetCertificate slot off len s
  | .challenge slot nonce => Sys2Proof.Machine.execChallenge slot nonce s
  | .getMeasurements idx nonce => Sys2Proof.Machine.execGetMeasurements idx nonce s
  | .spdmUnsupportedRequest code => Sys2Proof.Machine.execSpdmUnsupportedRequest code s
  | .negotiateAlgorithms alg => Sys2Proof.Machine.execNegotiateAlgorithms alg s
  | .powerWindow watts temp => Sys2Proof.Machine.execPowerWindow watts temp s
  | .thermalShutdown temp => Sys2Proof.Machine.execThermalShutdown temp s
  | .sync offset accepted => Sys2Proof.Machine.execSync offset accepted s
  | .softError store key fatal => Sys2Proof.Machine.execSoftError store key fatal s
  | .atsTranslationCompletion id spa => Sys2Proof.Machine.execAtsTranslationCompletion id spa s
  | .hairlinePortTraining port ok => Sys2Proof.Machine.execHairlinePortTraining port ok s
  | .pdelay port delay => Sys2Proof.Machine.execPdelay port delay s
  | .firmwareWindowWrite master off bytes => Sys2Proof.Machine.execFirmwareWindowWrite master off bytes s
  | .priResponse grp ok => Sys2Proof.Machine.execPriResponse grp ok s
  | .atsInvalidation pasid page => Sys2Proof.Machine.execAtsInvalidation pasid page s

end Sys2Proof.Machine
end

