-- ==== Sys2Proof/Machine/Select.lean ====
section
/-! DEFINITION. What a step runs: the choice of an issue group (R63, R66), the fetch and decoding of its unit (R146, R159,
R277, R280, R342), the device's own events, and the passing of time (R120). Which of the events that may happen next does
happen the spec leaves open; `inputs` names it, or the order below (DESIGN CHOICE, log 5). -/

namespace Sys2Proof.Machine

/-! The issue group. -/

/-- Whether a thread waits to issue its unit again, with nothing left to wait for. -/
def againDue (x : Thread) : Bool :=
  decide (x.st = .waiting) && (match x.wait with
    | .reissue _ due => due
    | .timed due => due
    | .counters _ due => due
    | .fenced _ => true
    | _ => false)
/-- Whether a thread waits in a fence. -/
def inFence (x : Thread) : Bool :=
  match x.wait with
  | .fence .. => true
  | _ => false
/-- A fence, or IFENCE, of the warp is not complete: the warp issues nothing further (R132, R240, R281). -/
def State.fencing (s : State) (w : Nat) : Bool :=
  (threadsOf w).any (fun t => decide ((s.thread t).st = .waiting) && inFence (s.thread t))
/-- Whether a lane may issue now. A lane does not while a sibling of its last issue awaits the owner's answer (R219). -/
def State.mayIssue (s : State) (w l : Nat) : Bool :=
  let x := s.thread (threadOf w l)
  (decide (x.st = .runnable) || againDue x) && !x.busy && !s.fencing w && !s.barred w l
    && (List.range 16).all (fun k =>
      let y := s.thread (threadOf w k)
      !decide (y.stamp = x.stamp) || !y.busy)
/-- The lanes that issue together with a lane: RUNNABLE ones stand at its PC, and have begun the unit there or not, as it has
(R78, R158); ones that issue their unit again issued it together before. -/
def State.groupOf (s : State) (w l : Nat) : List Nat :=
  let x := s.thread (threadOf w l)
  (List.range 16).filter (fun k =>
    let y := s.thread (threadOf w k)
    s.mayIssue w k && decide (y.pc = x.pc) && decide (y.st = x.st) && decide (y.kept.isSome = x.kept.isSome) && (decide (x.st = .runnable) || (decide (y.stamp = x.stamp) && decide (y.wait = x.wait))))
/-- A deferred cause of the warp is due now: it is raised before the warp issues again (R403). -/
def State.causeDue (s : State) (w : Nat) : Bool :=
  (List.range 16).any (fun k => lateDue (s.thread (threadOf w k)))
/-- After a YLD a warp stands back until every other ready group of its partition has issued once, or 27 issue cycles, each
taken as a nanosecond, have passed (R273; DESIGN CHOICE, log 42). -/
def State.yielding (s : State) (w : Nat) : Bool :=
  let age (v k : Nat) : Nat := (s.thread (threadOf v k)).last
  match (s.warp w).yld with
  | none => false
  | some (y, t) => decide (s.now (coreOf w) < t) && (List.range 16).all (fun k => decide (age w k ≤ y))
      && (s.wrp.map (·.1)).any (fun v => decide (v ≠ w) && decide (coreOf v = coreOf w) && decide (widOf v / 9 = widOf w / 9)
        && (List.range 16).any (fun k => s.mayIssue v k && decide (age v k < y)))
/-- The group, among the lanes not passed over, whose threads have waited longest since they last issued, then the one with
the lowest lane (R63); one that has been ready for 242 issue cycles, each taken as a nanosecond, goes first (R449; DESIGN CHOICE,
log 42). -/
def State.pickGroup (s : State) (w : Nat) (past : List Nat) : List Nat :=
  if (s.warp w).stopping || s.causeDue w || s.yielding w || s.mg.stopped.contains (coreOf w) then []
  else
    let age (k : Nat) : Nat := (s.thread (threadOf w k)).last
    let all := (List.range 16).filter (fun k => s.mayIssue w k && !past.contains k)
    let due := all.filter (fun k => (s.thread (threadOf w k)).ready.any (fun t => decide (t + 242 ≤ s.now (coreOf w))))
    match (if due.isEmpty then all else due).foldl (fun (b : Option Nat) k => match b with
      | none => some k
      | some j => if age k < age j then some k else some j) none with
    | none => []
    | some l => s.groupOf w l

/-! The unit (R146, R159, R160). -/

/-- What fetching a unit found. -/
inductive Fetched where
  | got (i : Instr) (k : Nat)
  | ask (line : Int)
  | fetch                 -- an index outside device space, or an owner that does not exist (R94)
  | ill                   -- no instruction (R159)
  deriving DecidableEq, Repr
/-- The unit of one index: a Scribe thread's from its program, any other, and a handler's, from the lines at hand (R342). -/
def State.unitOf (s : State) (w : Nat) (n : Int) : Option Int :=
  let k := (s.core (coreOf w)).scribe
  if widOf w = 27 ∧ !(s.warp w).hm then some (k.units.getD (n - k.start).toNat 0) else s.unitAt w n
/-- Fetches and decodes the unit that begins at an index, taking one more unit while a prefix asks for it. -/
def State.fetchUnit (s : State) (w : Nat) (pc : Int) : Nat → List Int → Fetched
  | 0, _ => .ill
  | f + 1, us =>
    let n := pc + (us.length : Int)
    if !deviceIndex n ∨ !s.ownerOk (81 * codeLine n) then .fetch
    else match s.unitOf w n with
      | none => .ask (codeLine n)
      | some u =>
        match decodeUnit pc (us ++ [u]) with
        | .ok (i, k) => .got i k
        | .error .short => State.fetchUnit s w pc f (us ++ [u])
        | .error _ => .ill
/-- The warp fetches from the unit's last line (R280), which is used now, as the line of its first index is (R276). -/
def State.useLine (s : State) (w : Nat) (pc n : Int) : State :=
  let c := coreOf w
  match s.lineFor w (codeLine n) with
  | some f =>
    let s1 := if codeLine pc = codeLine n then s else s.touchLine c (codeLine pc)
    (s1.setWarp w { s1.warp w with fetch := some f }).touchLine c (codeLine n)
  | none => s
/-- The state in which a decoded unit acts. -/
def State.atUnit (s : State) (w : Nat) (lanes : List Nat) (pc : Int) (k : Nat) : State :=
  let n := pc + (k : Int) - 1
  { (s.useLine w pc n) with cur := { warp := w, lanes := lanes, n := n, first := pc, next := wrap (n + 1) 52 } }
/-- RUNNABLE lanes at their meeting value become HELD (R66, R67). -/
def State.holdLanes (s : State) (w : Nat) (ls : List Nat) : State :=
  (ls.foldl (fun a l =>
    let t := threadOf w l
    a.setThread t { a.thread t with st := .held }) s).meet w
/-- A cause raised by a whole group in front of its unit (R159). -/
def State.groupFault (s : State) (w : Nat) (lanes : List Nat) (pc : Int) (c : Nat) : State :=
  let s1 := { s with cur := { warp := w, lanes := lanes, n := pc, first := pc, next := pc } }.started
  (s1.raiseAll (s1.curThreads lanes) { cause := c, pc := pc }).settle w
/-- Whether a unit waits for an earlier result: it leaves the state in which it acts as it is (R156). -/
def stalls (u : State) (r : R) : Bool :=
  match r with
  | .next t => decide (t = u)
  | _ => false
/-- A selected group is held, asks for its line, raises, or issues its unit. -/
def State.issueGroup (s : State) (w : Nat) (lanes : List Nat) (l : Nat) : R :=
  let x := s.thread (threadOf w l)
  let held := lanes.filter (fun k => decide ((s.thread (threadOf w k)).mr = x.pc) && decide (x.pc ≠ 0) && decide (x.st = .runnable))
  if held ≠ [] then .next (s.holdLanes w held)
  else match s.fetchUnit w x.pc 3 [] with
    | .got i k =>
      let r := exec i (s.atUnit w lanes x.pc k)
      if stalls (s.atUnit w lanes x.pc k) r then .next s else r
    | .ask line => .next (s.askLine w lanes x.pc line)
    | .fetch => .next (s.groupFault w lanes x.pc 6)
    | .ill => .next (s.groupFault w lanes x.pc 0)
/-- One selection of a warp: a group whose unit waits for an earlier result is not ready, and the next one is taken (R63). -/
def State.issueFrom (s : State) (w : Nat) : Nat → List Nat → R
  | 0, _ => .next s
  | n + 1, past =>
    match s.pickGroup w past with
    | [] => .next s
    | l :: ls =>
      let r := s.issueGroup w (l :: ls) l
      if stalls s r then State.issueFrom s w n (past ++ l :: ls) else r
def State.issueWarp (s : State) (w : Nat) : R := s.issueFrom w 16 []

/-! The issue partition (R60, R449). -/

/-- Since when a warp has had a lane that may issue. -/
def State.readyAt (s : State) (w : Nat) : Int :=
  ((List.range 16).filter (fun k => s.mayIssue w k)).foldl (fun m k => min m ((s.thread (threadOf w k)).ready.getD (s.now (coreOf w)))) (s.now (coreOf w))
/-- A warp takes its place among others by when they were ready. -/
def placeWarp (ready : Nat → Int) (w : Nat) : List Nat → List Nat
  | [] => [w]
  | v :: vs => if ready v ≤ ready w then v :: placeWarp ready w vs else w :: v :: vs
/-- The warps of a warp's issue partition that have a group to issue, the one that has been ready longest first (R449). -/
def State.partOrder (s : State) (w : Nat) : List Nat :=
  ((s.wrp.map (·.1)).filter (fun v => decide (coreOf v = coreOf w) && decide (widOf v / 9 = widOf w / 9) && decide (s.pickGroup v [] ≠ []))).foldl
    (fun l v => placeWarp s.readyAt v l) []
/-- The first warp of some whose unit does not wait for an earlier result issues. -/
def State.issueFirst (s : State) : List Nat → R
  | [] => .next s
  | w :: ws =>
    let r := s.issueWarp w
    if stalls s r then State.issueFirst s ws else r
/-- One issue of a warp's partition. -/
def State.issuePart (s : State) (w : Nat) : R := s.issueFirst (s.partOrder w)
/-- Since when lanes may issue, noted after every step (R449). -/
def State.noteReady (s : State) : State :=
  let since (t : Nat) (x : Thread) : Option Int := if s.mayIssue (warpOf t) (t % 16) then some (x.ready.getD (s.now (coreOf (warpOf t)))) else none
  { s with thr := s.thr.map (fun p => (p.1, { p.2 with ready := since p.1 p.2 })) }

/-! The device's events. -/

/-- Whether a row is an event, not an instruction that a warp issues. -/
def isEvent (i : Instr) : Bool := (hdr i).isNone && (match i with
  | .hint _ => false
  | _ => true)
/-- Events that a request in flight may come to. -/
def reqEvents (id : Nat) : List Instr :=
  [.ownerAnswer id, .hairlineArrival id, .hairlineUndeliverable id, .pageFault id, .deferredWriteBackFault id, .draftCommitArrival id
   , .draftPrepare id, .stvaPerform id, .stvaArrival id, .atomoArrival id, .atomoResend id, .sectorFill id, .homeRequest id, .l1Fill id
   , .instructionFetchFill id, .loadReply id, .writeCompletion id, .messageArrival id]
/-- Events that are named only under a condition. -/
def evs (b : Bool) (l : List Instr) : List Instr := if b then l else []
/-- Events of a thread. -/
def threadEvents (t : Nat) (x : Thread) : List Instr :=
  let timed : List Instr := match x.wait, x.deadline with
    | .timed false, some _ => [.vellumWindowEnd t]
    | .until_, some _ => [.timedWaitDeadline t]
    | _, _ => []
  (evs (!x.later.isEmpty) [.deferredCause t]).append timed
/-- Events of a warp. -/
def State.warpEvents (s : State) (w : Nat) (x : Warp) : List Instr :=
  let ts := threadsOf w
  let ls : List (List Instr) := [evs x.stopping [.trapEntry w, .doubleTrap w, .unhandledTrap w], evs (!x.owed.isEmpty) [.functionResultWrite w]
    , evs (ts.any (fun t => inFence (s.thread t))) [.fenceComplete w], evs (decide (x.draft.depth ≠ 0)) [.draftDecision w, .inkRetire w]
    , x.barr.map (fun p => .barrierPhaseComplete .warp w p.1), ts.flatMap (fun t => threadEvents t (s.thread t))]
  ls.flatten
/-- Events of a core. -/
def coreEvents (c : Nat) (k : CoreSt) : List Instr :=
  let ls : List (List Instr) := [evs (!k.nib.isEmpty) [.nibStepComplete c, .nibDrainComplete c, .nibQscaleComplete c, .nibZeroPerform c
      , .nibCommandComplete c, .nibStepStart c]
    , k.copies.flatMap (fun x => [.copyComplete c x.id, .scaleQueueMatch c x.id, .copyStop c x.id, .copyElementTransfer c x.id])
    , evs (!k.alarms.isEmpty) [.alarmDue c], k.bins.flatMap (fun p => [.spawnWarpCreate c p.1, .spawnBinTimer c p.1])
    , evs (!k.claims.isEmpty) [.claimGrant c], evs (decide (k.scribe.state = 2)) [.scribeProgramEnd c]
    , k.bars.map (fun p => .barrierPhaseComplete .block c p.1)]
  ls.flatten
/-- Events of a block. -/
def blockEvents (ctx bid : Nat) (b : BlkSt) : List Instr :=
  match b with
  | .wait _ => [.blockEligible ctx bid]
  | .taken _ _ => [.blockStart ctx bid]
  | .placed _ => [.blockEnd ctx bid]
  | .saving _ _ => [.saveComplete ctx bid]
  | _ => []
/-- Events of a context. -/
def ctxEvents (ctx : Nat) (x : Ctx) : List Instr :=
  let ls : List (List Instr) := [evs x.killing [.killComplete ctx], x.blk.flatMap (fun p => blockEvents ctx p.1 p.2), evs x.lr.det [.phaseEnd ctx]
    , x.sess.flatMap (fun p => [.decodeFrameOutput ctx p.1, .decodeReset ctx p.1, .decodeFlush ctx p.1, .decode ctx p.1])
    , evs (!isSup ctx) [.contextCompletion ctx], evs x.hang.isSome [.hang ctx]]
  evs x.live ls.flatten
/-- Events of a die. -/
def State.dieEvents (s : State) (d : Nat) : List Instr :=
  let x := s.dieSt (s.ownKey d)
  let ls : List (List Instr) := [evs (!x.queue.isEmpty) [.placement d], evs (s.recs.any (fun r => decide (r.core = d * 81))) [.faultRecordPush d]
    , evs (decide (x.vwin + 2187 ≤ x.clk)) [.vwinAdvance d]
    , evs (decide (x.refill < x.clk - x.clk % 81)) [.budgetRefill d]]
  ls.flatten
/-- The event of a barrier unit outside the cores. -/
def barEvent (key : Nat) : Instr :=
  let q := key / 9
  .barrierPhaseComplete (if q / 1000000 = 3 then .cluster else if q / 1000000 = 4 then .die else .domain) (q % 1000000) (key % 9)
/-- The events that may be due, before their conditions are looked at. -/
def State.events (s : State) : List Instr :=
  let ls : List (List Instr) := [s.reqs.flatMap (fun r => reqEvents r.id), s.wrp.flatMap (fun p => s.warpEvents p.1 p.2)
    , s.cor.flatMap (fun p => coreEvents p.1 p.2), s.bars.map (fun p => barEvent p.1), s.ctxs.flatMap (fun p => ctxEvents p.1 p.2)
    , s.mg.posted.map (fun x => .hostWrite x.req), (List.range 9).flatMap s.dieEvents
    , evs s.mg.holdover [.holdoverExit], evs (!s.mg.holdover && !(decide (s.mg.noSync = 0) && decide (s.mg.offset = 0))) [.holdoverEntry]]
  ls.flatten
/-- The outcome of the first event whose conditions hold: one that changes something. -/
def State.firstEvent (s : State) : List Instr → Option R
  | [] => none
  | i :: is => match exec i s with
    | .next t => if t = s then State.firstEvent s is else some (.next t)
    | r => some r
/-- An event that is due, taken in turn. -/
def State.anEvent (s : State) (turn : Nat) : Option R :=
  let es := s.events
  s.firstEvent (es.rotateLeft turn)
/-- The warps, taken in turn. -/
def State.warpsFrom (s : State) (turn : Nat) : List Nat := (s.wrp.map (·.1)).rotateLeft turn
/-- The issue of a partition that can issue, taken in turn. -/
def State.anIssue (s : State) (turn : Nat) : Option R :=
  (s.warpsFrom turn).findSome? (fun w => let r := s.issuePart w
    if stalls s r then none else some r)
/-- The waits of a warp are looked at again, taken in turn (R80, R86). -/
def State.aService (s : State) (turn : Nat) : Option R := s.firstEvent ((s.warpsFrom turn).map (fun w => .queueServe w))

/-! Time and what follows every step. -/

/-- Whether a change of this package's counts leaves them within the domain's guard of every other package's (R122). -/
def State.within (s : State) (k : Int) : Bool :=
  (List.range 10).all (fun d => s.domainDies.all (fun own => decide (own / 27 = s.pkg)
    || decide (((s.dieSt (s.ownKey d)).clk + k - (s.dieSt own).clk).natAbs ≤ 20)))
/-- What this package's counts gain in this nanosecond towards the domain's time: one at most in 10,000 (R120), and nothing where an
offset that a Sync measured would take two counts of the domain further apart than its guard (R122; DESIGN CHOICE, log 78). -/
def State.slew (s : State) : Int :=
  let k : Int := if s.mg.slewed < 9999 ∨ s.keepsTime then 0 else if 0 < s.mg.offset then -1 else if s.mg.offset < 0 then 1 else 0
  if k = 0 ∨ s.within k then k else 0
/-- A nanosecond passes on every die (R120). -/
def State.advance (s : State) : State :=
  let k := s.slew
  let s1 := s.domainDies.foldl (fun a own =>
    let x := a.dieSt own
    a.setDie own { x with clk := x.clk + 1 + (if own / 27 = s.pkg then k else 0) }) s
  if s.mg.offset = 0 ∨ s.keepsTime then s1
  else { s1 with mg := { s1.mg with offset := s.mg.offset + k, slewed := if k = 0 then s.mg.slewed + 1 else 0 } }
/-- Events, one after another. -/
def State.run (s : State) (is : List Instr) : State :=
  is.foldl (fun a i => match exec i a with
    | .next t => t
    | _ => a) s
/-- A timed store on its way whose home must have it now if it is to be on time: the longest lease must end by its time, and
the count of its core may be ahead of the home's (R135). -/
def State.stvaNear (s : State) (r : Req) : Bool :=
  (match r.kind with
   | .stva _ _ t => decide (t - 243 - s.guard (s.natScope r.core r.own 0) ≤ (s.dieSt r.own).clk)
   | _ => false) && !r.first && (match r.stage with
   | .owner => true
   | .home => true
   | _ => false)
/-- What brings a request to its home. -/
def delivery (id : Nat) : List Instr :=
  [.hairlineArrival id, .ownerAnswer id, .sectorFill id, .sectorFill id, .sectorFill id, .homeRequest id, .atomoArrival id, .stvaArrival id]
/-- Timed stores are delivered by their time, with what their core sent to their lines before them and the lower lanes of
their instruction (R135). -/
def State.hurry (s : State) : State :=
  (s.reqs.filter s.stvaNear).foldl (fun a r =>
    a.run (((s.reqs.filter (fun q => decide (q.id < r.id) && decide (q.core = r.core)
      && (decide (lineOf q.ea = lineOf r.ea) || (decide (q.warp = r.warp) && decide (q.gid = r.gid) && decide (q.pc = r.pc))))).flatMap (fun q => delivery q.id))
      ++ delivery r.id)) s
/-- What falls due on the dies of this package as time reaches a count: a refill (R311), a rotation of VWIN (R115), and at a refill
the start of the work that has waited through a whole period (R312). -/
def State.dieDue (s : State) : State :=
  let s1 := s.run ((List.range 9).flatMap (fun d => [.budgetRefill d, .vwinAdvance d]))
  s1.run ((s1.cor.filter (fun p =>
    let d := s1.dieSt (s1.ownKey (dieIdx p.1))
    decide (d.clk = d.refill) && p.2.nib.any (·.front))).flatMap (fun p => List.replicate 3 (.nibStepStart p.1)))
/-- A nanosecond passes: timed stores on their way are on time, and the drafts that commit now do so on their cores. -/
def State.tick (s : State) : State :=
  let s1 := s.hurry.hurry.advance.dieDue
  s1.wrp.foldl (fun a p => a.inkAt p.1) s1
/-- What the device notes after every step: dependence words, the inbox, restarts, the hang detector, and which
lanes are ready. -/
def State.noted (s : State) : State := s.noteDeps.noteInbox.noteFlush.noteRestart.noteHang.noteReady
/-- The state that a step answers. -/
def noted (r : R) : R :=
  match r with
  | .next t => .next t.noted
  | .fault f => .fault f
  | .refused q => .refused q
/-- What `inputs` names (DESIGN CHOICE, log 5): the issue of a warp's partition, an event, or the passing of a nanosecond. -/
def State.move (s : State) : Move → R
  | .issue w => s.issuePart w
  | .event i => if isEvent i then exec i s else .next s
  | .tick => .next s.tick
/-- One of the three kinds of things that happen by themselves, taken in turn. -/
def State.kindOfTurn (s : State) (k turn : Nat) : Option R :=
  match k % 3 with
  | 0 => s.anIssue turn
  | 1 => s.anEvent turn
  | _ => s.aService turn
/-- What happens when `inputs` names nothing: an issue, an event, or waits looked at again, each first in its turn; then a
nanosecond passes. -/
def State.idle (s : State) : R :=
  let c := (s.dieSt (s.ownKey 0)).clk.toNat
  let k (i : Nat) : Option R := s.kindOfTurn (c + i) (c / 3)
  match ((k 0).orElse (fun _ => k 1)).orElse (fun _ => k 2) with
  | none => .next s.tick
  | some (.next t) => .next t.tick
  | some r => r

/-! Placing a unit where a warp fetches (the host's test). -/

/-- Units that stand at an index and after it, on the line of the index. -/
def lineWith (pc : Int) (us : List Int) (line : Int) : FLine :=
  { line := line, units := (List.range 9).map (fun (j : Nat) =>
      let i := 9 * line - 4 + (j : Int) - pc
      if 0 ≤ i then us.getD i.toNat (eo 364 6 * pow3 75 + eo 121 5 * pow3 70) else 0) }
/-- The first index of the own package's memory that stands in the first slot of its line. -/
def State.firstIndex (s : State) : Int := 9 * shr (devAddr (s.ownKey 0) 0) 4 - 4
/-- A warp that its partition would issue: the first one, or a new supervisor warp on core 0. -/
def State.withWarp (s : State) : State × Nat × Int :=
  match (s.wrp.map (·.1)).find? (fun w => widOf w ≠ 27 && decide ((s.partOrder w).head? = some w)) with
  | some w => (s, w, (s.thread (threadOf w ((s.pickGroup w []).headD 0))).pc)
  | none =>
    let pc := s.firstIndex
    let sup := supOf 1
    let s1 := (s.setCtx sup { part := 1, live := true, blk := [(0, .placed 0)], lr := { regs := 216, preds := 27, dies := [0] } }).setCore 0 { blk := some (sup, 0) }
    ((threadsOf 0).foldl (fun a t => a.setThread t { pc := pc, st := .runnable }) (s1.setWarp 0 { ctx := sup, n := 216, pl := 1 }), 0, pc)

end Sys2Proof.Machine
end

