-- ==== Sys2Proof/Machine/Step.lean ====
section
/-! DEFINITION. One step: what `inputs` names, or what the device does by itself; and the host's placing of a unit. -/

namespace Sys2Proof.Machine

/-- One step (DESIGN CHOICE, log 5). A package without power does nothing but power up (R466). -/
def step (s : State) : Host.Outcome State Fault Refusal :=
  match s.inputs with
  | m :: rest =>
    let s0 := { s with inputs := rest }
    if s.mg.powerOff ∧ m ≠ .event .powerUp then .next s0 else noted (s0.move m)
  | [] => if s.mg.powerOff then .next s else noted s.idle

/-- The state with a unit of given bits placed where the next step fetches (DESIGN CHOICE, log 18). -/
def State.withFetchWord (s : State) (nbits w : Nat) : State :=
  let v := w % Nat.pow 2 nbits
  let us := [unitOfBytes v 0, unitOfBytes v 1, unitOfBytes v 2]
  let p := s.withWarp
  let line := codeLine p.2.2
  let c := coreOf p.2.1
  let s1 := p.1.setWarp p.2.1 { p.1.warp p.2.1 with fetch := some (lineWith p.2.2 us line) }
  { (s1.setCore c { s1.core c with ic := Tab.put (ikey (line + 1)) (lineWith p.2.2 us (line + 1)) (s1.core c).ic }) with
    inputs := [.issue p.2.1] }

end Sys2Proof.Machine
end

