-- ==== Sys2Proof/WellFormed.lean ====
section
/-! DEFINITION. Well-formed instructions: every field holds a value that its place in the unit can hold
(R145, R148, R153), and the checks of steps 3 and 4 of R159 pass. An event is well formed when its names are in
range. -/

namespace Sys2Proof

open Sys2Proof.Machine

namespace Machine

/-- Guard, control trits and prefixes (R145, R151, R161). -/
def hdrOk (h : Hdr) : Bool :=
  decide (h.gpred < 243) && decide (h.gcond < 9) && inRange h.lag 3 && inRange h.cede 1 && inRange h.last 2
    && (match h.pxi with
        | some x => inRange x 54
        | none => true)
    && (h.pxiFirst || (h.pxi.isSome && h.pxs.isSome))
/-- The register fields and the immediate of a unit (R145). -/
def rawOk (r : Raw) : Bool :=
  decide (r.d < 243) && decide (r.a < 243) && decide (r.b < 243) && decide (r.c < 243) && inRange r.imm 27
/-- An optional ring (R317). -/
def ringOk (o : Option Nat) : Bool :=
  match o with
  | some r => decide (r < 27)
  | none => true
/-- A count in n5 (R184). -/
def countOk : Count → Bool
  | .reg _ => true
  | .imm n => decide (n < 243)
/-- The options of a copy (R316, R317). -/
def cpOk (o : CpOpt) : Bool := ringOk o.sring && ringOk o.dring && inRange o.tag 9
/-- The sub-fields that the modifier and the immediate hold (R176, R214, R238, R260, R292, R293, R316). -/
def subOk : Instr → Bool
  | .shl _ _ _ _ n => countOk n | .shr _ _ _ _ n => countOk n | .rot _ _ _ _ n => countOk n
  | .tcnt _ v _ _ => inRange v 1
  | .sel3 _ p _ _ _ _ => decide (p < 243)
  | .bar _ _ k _ => decide (k < 9) | .bara _ _ k _ _ => decide (k < 9) | .barw _ _ k _ _ => decide (k < 9)
  | .barv _ _ k _ _ _ _ _ => decide (k < 9)
  | .tkt _ s _ _ => decide (s < 27) | .tktOpen _ s _ => decide (s < 27) | .tktClose _ s _ => decide (s < 27)
  | .wait _ p q u v => decide (p < 243) && decide (q < 243) && decide (u < 243) && decide (v < 243)
  | .icpf _ n _ => decide (n < 9)
  | .mcfg _ _ g => decide (1 ≤ g.pa) && decide (g.pa ≤ 9) && inRange g.otag 9
  | .ring _ r first _ => decide (r < 27) && decide (first < 243)
  | .mloop _ _ _ _ _ ra rb kc => decide (ra < 27) && decide (rb < 27) && decide (kc < 19683)
  | .mdrain _ o => decide (o.ro < 27) && decide (o.rr < 27)
  | .cpy _ o .. => cpOk o | .cpys _ o .. => cpOk o | .cpyg _ o .. => cpOk o | .cpyx _ o .. => cpOk o
  | .sloop _ _ k _ => inRange k 18
  | .hint u => inRange u 81 && decide (675 ≤ (Raw.unpack u).op)
  | _ => true

end Machine

/-- A well-formed instruction or event. -/
def Instr.wf (i : Instr) : Bool :=
  subOk i && (match hdr i, rawOf i with
    | some h, some r => hdrOk h && rawOk r && legal i
    | _, _ => true)
/-- An instruction that has an encoding; an event has none (R163). -/
def Instr.coded (i : Instr) : Bool := (encode i).isSome

end Sys2Proof
end

