-- ==== Sys2Proof/Safety.lean ====
section
/-! DEFINITION. The terms in which statements speak: the canonical form of memory, when a unit runs without
interruption, and what a unit that acts lane by lane leaves. -/

namespace Sys2Proof.Machine

/-! Memory. -/

/-- The canonical form of a sparse memory whose unlisted byte k reads as `z k`. -/
def wfBytes (z : Nat → BitVec 8) (m : List Host.Cell) : Bool := Tab.sorted m && m.all (fun p => decide (p.2 ≠ z p.1))
/-- The canonical form of HBM memory: keys rise, no entry equals what an unlisted byte reads as (DESIGN CHOICE, log 1). -/
def Memory.wf (m : List Host.Cell) : Bool := wfBytes zeroCell m
/-- The canonical form of host memory (DESIGN CHOICE, log 2). -/
def Memory.hostWf (m : List Host.Cell) : Bool := wfBytes (fun _ => 0) m

/-! When a unit runs without interruption. -/

/-- A HELD thread of the warp whose meeting is complete (R67): every transition releases it at once. -/
def State.meetsNow (s : State) (w : Nat) : Bool :=
  (threadsOf w).any (fun t => decide ((s.thread t).st = .held) && decide ((s.thread t).mr ≠ 0) && s.meetingFull w (s.thread t).mr)

/-- The state of an issue group whose unit meets no trap, save, draft or single step: the group's lanes are RUNNABLE, or
WAITING to issue their unit again, the warp is no Scribe warp and is not stopping, no lane is drafted, STEP is off (R401),
and no meeting is due. -/
structure Plain (s : State) : Prop where
  some_ : s.cur.lanes ≠ []
  nodup : s.cur.lanes.Nodup
  lane : ∀ l ∈ s.cur.lanes, l < 16
  live : ∀ l ∈ s.cur.lanes, (s.thread (threadOf s.cur.warp l)).st = .runnable ∨ (s.thread (threadOf s.cur.warp l)).st = .waiting
  wid : widOf s.cur.warp ≠ 27
  going : (s.warp s.cur.warp).stopping = false
  undrafted : ∀ l ∈ s.cur.lanes, s.drafting s.cur.warp l = false
  nostep : trit (s.ctx (s.warp s.cur.warp).ctx).dbg 0 ≠ 1 ∨ (s.warp s.cur.warp).hm = true
  nomeet : s.meetsNow s.cur.warp = false

/-- The unit may act with its operand fields: none waits for an earlier result (R156), none needs a higher level (R395), and
each is legal for its place (R58, R59, R79, R173). -/
def Legal (s : State) (h : Hdr) (u : Uses) : Prop := s.ready h u = true ∧ s.privFault u = false ∧ s.fieldFault u = none

/-- The active lanes of the group: those whose guard holds (R151). -/
def State.active (s : State) (h : Hdr) : List Nat := s.cur.lanes.filter (fun l => s.laneOn h (threadOf s.cur.warp l))
/-- The thread of a lane of the group. -/
def State.lane (s : State) (l : Nat) : Nat := threadOf s.cur.warp l

/-- A lane at the issue of a unit: its stamps (R63) and where the unit ends. -/
def State.atIssue (s : State) (l : Nat) : Thread :=
  let x := s.thread (s.lane l)
  { x with stamp := if x.st = .waiting then x.stamp else s.stamp + 1, last := s.stamp + 1, ready := none, next := s.cur.next }
/-- A thread whose unit has retired stands RUNNABLE at an index (R152). -/
def Thread.retired (x : Thread) (pc : Int) : Thread :=
  { x with pc := pc, st := .runnable, wait := .none_, busy := false, deadline := none, kept := none, ldnb := none }

/-- Word i of a source field j for the i-th active lane (R59, R80, R173): a register, or the port's words, which fields that
name it take in field order and lanes in lane order. -/
def State.srcWord (s : State) (act : List Nat) (fs : List Nat) (i j : Nat) : Int :=
  let r := fs.getD j 0
  if isPort r then (s.port (coreOf s.cur.warp) (r - 216)).getD (act.length * (fs.take j).count r + i) 0
  else s.reg (s.lane (act.getD i 0)) r
/-- The source words of the i-th active lane, in field order. -/
def State.srcWords (s : State) (act : List Nat) (fs : List Nat) (i : Nat) : List Int :=
  (List.range fs.length).map (s.srcWord act fs i)

/-- One register of a thread written; a special register's number writes nothing (R59). -/
def Thread.putReg (x : Thread) (r : Nat) (v : Int) : Thread :=
  if r < 216 then { x with regs := Tab.set 0 r v x.regs } else x
/-- What a result does to its thread: a word, a pair (R30), a predicate, the meeting register, a transfer. A word for a port
and a float result still owed change nothing in it. -/
def Thread.wrote (x : Thread) : Wr → Thread
  | .reg r v => x.putReg r v
  | .pair r v => if r < 216 then (x.putReg r (loW v)).putReg (r + 1) (hiW v) else x
  | .pred f v => { x with preds := Tab.set 0 f v x.preds }
  | .mr v => { x with mr := v }
  | .jump pc => x.retired pc
  | .push .. => x
  | .owe .. => x
/-- The words that results push to a port. -/
def pushedTo (q : Nat) (ws : List Wr) : List Int :=
  ws.flatMap (fun w => match w with
    | .push r v => if r - 216 = q then [v] else []
    | _ => [])
/-- The float results that a thread is owed. -/
def owedBy (t : Nat) (ws : List Wr) : List Owed :=
  ws.flatMap (fun w => match w with
    | .owe r v => [{ thr := t, d := r, val := v }]
    | _ => [])

/-- The outcome of the i-th active lane. -/
def State.outOf (s : State) (h : Hdr) (u : Uses) (f : State → Nat → List Int → Out) (i : Nat) : Out :=
  f s (s.lane ((s.active h).getD i 0)) (s.srcWords (s.active h) u.src i)
/-- The results of all active lanes in lane order. -/
def State.allWr (s : State) (h : Hdr) (u : Uses) (f : State → Nat → List Int → Out) : List Wr :=
  (List.range (s.active h).length).flatMap (fun i => (s.outOf h u f i).wr)
/-- The float results owed to all active lanes in lane order. -/
def State.allOwed (s : State) (h : Hdr) (u : Uses) (f : State → Nat → List Int → Out) : List Owed :=
  (List.range (s.active h).length).flatMap (fun i => owedBy (s.lane ((s.active h).getD i 0)) (s.outOf h u f i).wr)
/-- The saturations that all active lanes count (R47). -/
def State.allSat (s : State) (h : Hdr) (u : Uses) (f : State → Nat → List Int → Out) : Int :=
  ((List.range (s.active h).length).map (fun i => (s.outOf h u f i).sat)).sum

/-- How many words a unit takes from a port for a number of lanes. -/
def Uses.takes (u : Uses) (k q : Nat) : Nat := k * (u.src.filter isPort).count (q + 216)
/-- The times that words taken from q9 and q14 announce (R140, R348). -/
def State.tokens (s : State) (u : Uses) (k : Nat) : List Int :=
  let x := s.core (coreOf s.cur.warp)
  (Tab.get [] x.tokW 9).take (u.takes k 9) ++ (Tab.get [] x.tokW 14).take (u.takes k 14)
/-- The release times of a warp after a write's W, with the guards that its fence keeps (R123, R131). -/
def State.later (s : State) (x : Warp) (w : Int) : Warp :=
  let g := x.fguard.getD (s.guard .pkg, s.guard .domain)
  { x with rtC := max x.rtC w, rtD := max x.rtD w, rtP := max x.rtP (w + g.1), rtN := max x.rtN (w + g.2) }
/-- A warp that has observed some completions (R131). -/
def State.observed (s : State) (v : Nat) (ws : List Int) : Warp :=
  if (Tab.find s.wrp v).isSome = true then ws.foldl s.later (s.warp v) else s.warp v
/-- The words that a unit takes from the core's ports leave them, with what they announce (R78, R80). -/
structure Takes (s t : State) (u : Uses) (k : Nat) : Prop where
  tokW : ∀ c q, Tab.get [] (t.core c).tokW q = if c = coreOf s.cur.warp ∧ (q = 9 ∨ q = 14) then (Tab.get [] (s.core c).tokW q).drop (u.takes k q)
    else Tab.get [] (s.core c).tokW q
  cores : ∀ c, t.core c = { s.core c with ports := (t.core c).ports, tokW := (t.core c).tokW }

/-- What a unit that acts lane by lane leaves, `f` giving each active lane's results from the state before the unit and the
lane's source words: the whole of the next state. -/
structure Ran (s t : State) (h : Hdr) (u : Uses) (f : State → Nat → List Int → Out) : Prop where
  /-- An active lane has retired (R152) and its results are written. -/
  on : ∀ i, i < (s.active h).length → t.thread (s.lane ((s.active h).getD i 0)) =
    (s.outOf h u f i).wr.foldl Thread.wrote ((s.atIssue ((s.active h).getD i 0)).retired s.cur.next)
  /-- An inactive lane has retired and nothing else changes in it (R152). -/
  off : ∀ l ∈ s.cur.lanes, s.laneOn h (s.lane l) = false → t.thread (s.lane l) = (s.atIssue l).retired s.cur.next
  /-- No other thread changes. -/
  others : ∀ k, (∀ l ∈ s.cur.lanes, k ≠ s.lane l) → t.thread k = s.thread k
  /-- A port gives the words read from it and takes the words pushed to it, in lane order (R80). -/
  ports : ∀ c q, t.port c q = if c = coreOf s.cur.warp then
      (s.port c q).drop (u.takes (s.active h).length q) ++ (if q = 14 then [] else pushedTo q (s.allWr h u f))
    else s.port c q
  /-- Words pushed to q14 are commands of the block's decode session (R346). -/
  session : ∀ c b, Tab.get {} (t.ctx c).sess b =
    if c = (s.warp s.cur.warp).ctx ∧ b = (s.warp s.cur.warp).bid then
      { Tab.get {} (s.ctx c).sess b with cmds := (Tab.get {} (s.ctx c).sess b).cmds ++ pushedTo 14 (s.allWr h u f) }
    else Tab.get {} (s.ctx c).sess b
  /-- Saturated conversions are counted (R47, R104). -/
  counts : ∀ c k, Tab.get 0 (t.ctx c).counters k =
    if c = (s.warp s.cur.warp).ctx ∧ k = dieIdx (coreOf s.cur.warp) * 16 + 1 ∧ s.allSat h u f ≠ 0 then
      min (Tab.get 0 (s.ctx c).counters k + s.allSat h u f) (half 27)
    else Tab.get 0 (s.ctx c).counters k
  /-- Nothing else of a context or of a core changes; the warp observes the completions whose words it took. -/
  ctxs : ∀ c, t.ctx c = { s.ctx c with sess := (t.ctx c).sess, counters := (t.ctx c).counters }
  takes : Takes s t u (s.active h).length
  warps : ∀ v, t.warp v = if v = s.cur.warp then
      { s.observed v (s.tokens u (s.active h).length) with owed := (s.warp v).owed ++ s.allOwed h u f }
    else s.warp v
  /-- Memory, requests in flight, dies, management and all else stay as they were. -/
  rest : t = { s with thr := t.thr, wrp := t.wrp, cor := t.cor, ctxs := t.ctxs, stamp := s.stamp + 1 }

/-- An instruction that acts lane by lane: in every state in which its unit runs without interruption, is legal, finds its
ports able to serve it and meets no cause of its own, it answers the state that `Ran` describes. -/
def Runs (i : Instr) (h : Hdr) (u : Uses) (f : State → Nat → List Int → Out) : Prop :=
  ∀ s, Plain s → Legal s h u → s.portSt u (s.active h).length = .ready →
    (∀ k, k < (s.active h).length → (s.outOf h u f k).fault = none) → ∃ t, exec i s = .next t ∧ Ran s t h u f

/-- A unit that acts lane by lane and writes the meeting register: once its results are written, HELD threads whose
meeting is complete become RUNNABLE with one fresh stamp, so that they form one group (R63, R67). -/
def RunsMeet (i : Instr) (h : Hdr) (u : Uses) (f : State → Nat → List Int → Out) : Prop :=
  ∀ s, Plain s → Legal s h u → s.portSt u (s.active h).length = .ready →
    (∀ k, k < (s.active h).length → (s.outOf h u f k).fault = none) → ∃ b t, exec i s = .next t ∧ Ran s b h u f ∧
      t = { b with thr := t.thr, stamp := if b.meetsNow s.cur.warp = true then s.stamp + 2 else s.stamp + 1 } ∧ ∀ k, t.thread k =
        if k ∈ threadsOf s.cur.warp ∧ (b.thread k).st = .held ∧ (b.thread k).mr ≠ 0 ∧ b.meetingFull s.cur.warp (b.thread k).mr
        then { b.thread k with st := .runnable, mr := 0, stamp := s.stamp + 2 } else b.thread k

/-- The state in which a unit's active lanes act: every lane is at its issue, the inactive ones have retired. -/
structure Start (s a : State) (h : Hdr) : Prop where
  rest : a = { s with thr := a.thr, stamp := s.stamp + 1 }
  on : ∀ l ∈ s.cur.lanes, s.laneOn h (s.lane l) = true → a.thread (s.lane l) = s.atIssue l
  off : ∀ l ∈ s.cur.lanes, s.laneOn h (s.lane l) = false → a.thread (s.lane l) = (s.atIssue l).retired s.cur.next
  others : ∀ k, (∀ l ∈ s.cur.lanes, k ≠ s.lane l) → a.thread k = s.thread k
/-- That state, computed. -/
def State.opened (s : State) (h : Hdr) : State :=
  (s.started.cur.lanes.filter (fun l => !s.started.laneOn h (threadOf s.cur.warp l))).foldl
    (fun a l => a.retire (threadOf s.cur.warp l) s.started.cur.next) s.started
/-- The thread of the lowest active lane. -/
def State.low (s : State) (act : List Nat) : Nat := s.lane (act.headD 0)
/-- A lane begins a wait (R66). -/
def Thread.waits (x : Thread) (k : Wait) : Thread := { x with st := .waiting, wait := k }
/-- `b` is `g` but for the active lanes' threads, which are what `d` makes of those of `g`. -/
structure Done (b : State) (act : List Nat) (d : Nat → Thread → Thread) (g : State) : Prop where
  rest : b = { g with thr := b.thr }
  on : ∀ l ∈ act, b.thread (g.lane l) = d l (g.thread (g.lane l))
  others : ∀ k, (∀ l ∈ act, k ≠ g.lane l) → b.thread k = g.thread k

/-- An instruction that acts once for its issue group: in every state that meets `Q`, in which its unit runs without
interruption, is legal and meets `P` where it acts, the next state is `G`'s with every active lane changed as `d` says. -/
def ActsIf (Q : State → Prop) (i : Instr) (h : Hdr) (u : Uses) (P : State → List Nat → Prop) (d : State → Nat → Thread → Thread)
    (G : State → List Nat → State) : Prop :=
  ∀ s, Q s → Plain s → Legal s h u → (s.active h ≠ [] → P (s.opened h) (s.active h)) → ∃ b, exec i s = .next b ∧
    if s.active h = [] then b = s.opened h else Done b (s.active h) (d (s.opened h)) (G (s.opened h) (s.active h))
/-- The same when nothing is asked of the state before. -/
def Acts (i : Instr) (h : Hdr) (u : Uses) (P : State → List Nat → Prop) (d : State → Nat → Thread → Thread)
    (G : State → List Nat → State) : Prop := ActsIf (fun _ => True) i h u P d G
/-- What follows a unit's effect in its warp: STEP (R401), and what the effect made due (R67, R269, R402). -/
def State.unitEnd (s b : State) : State := (b.stepTrap s.cur.warp s.cur.lanes).settle s.cur.warp
/-- The same when what the instruction did may concern its own warp: what follows is the unit's end. -/
def ActsEnd (i : Instr) (h : Hdr) (u : Uses) (P : State → List Nat → Prop) (d : State → Nat → Thread → Thread)
    (G : State → List Nat → State) : Prop :=
  ∀ s, Plain s → Legal s h u → (s.active h ≠ [] → P (s.opened h) (s.active h)) → ∃ b,
    (if s.active h = [] then b = s.opened h else Done b (s.active h) (d (s.opened h)) (G (s.opened h) (s.active h))) ∧
    exec i s = .next (s.unitEnd b)
/-- Every active lane retires. -/
def ret (a : State) (_ : Nat) (x : Thread) : Thread := x.retired a.cur.next
/-- Every active lane retires with a word in a register. -/
def retW (d : Nat) (v : State → Int) (a : State) (_ : Nat) (x : Thread) : Thread := (x.retired a.cur.next).putReg d (v a)
/-- Every active lane waits. -/
def wait (k : State → Wait) (a : State) (_ : Nat) (x : Thread) : Thread := x.waits (k a)
/-- No condition of its own. -/
def always (_ : State) (_ : List Nat) : Prop := True

/-- The active lanes in lane order as threads. -/
def State.eachThread (a : State) (act : List Nat) (k : State → Nat → State) : State := (a.curThreads act).foldl k a
/-- The ports can serve the group. -/
def portsReady (u : Uses) (a : State) (act : List Nat) : Prop := a.portSt u act.length = .ready
/-- Registers below a number (R76, R271). -/
def below (n : Nat) (r : Tab Int) : Tab Int := r.filter (fun p => decide (p.1 < n))
/-- A warp's checkpoint keeps the registers below a number. -/
def Warp.keeps (x : Warp) (n : Nat) : Warp :=
  { x with draft := { x.draft with ckpt := x.draft.ckpt.map (fun (k : Ckpt) => { k with regs := below n k.regs }) } }
/-- A thread's own control registers (R396, R397): EPC, EMR, HSCR0, HSCR1. -/
def Thread.putCsr (x : Thread) (n : Nat) (v : Int) : Thread :=
  if n = 1 then { x with epc := v } else if n = 2 then { x with emr := v } else if n = 5 then { x with hscr0 := v } else { x with hscr1 := v }

/-- The requests of the active lanes have left for the owners (R219, R158): each lane is busy, the group counts in its class,
if it has one, until every lane is done, and the requests stand in lane order behind those already in flight. -/
structure Sent (s b : State) (h : Hdr) (u : Uses) (cls : Option Cls) (mk : State → Nat → List Int → Req) : Prop where
  on : ∀ l ∈ s.active h, b.thread (s.lane l) = { s.atIssue l with busy := true, wait := .none_, st := .runnable }
  off : ∀ l ∈ s.cur.lanes, s.laneOn h (s.lane l) = false → b.thread (s.lane l) = (s.atIssue l).retired s.cur.next
  others : ∀ k, (∀ l ∈ s.cur.lanes, k ≠ s.lane l) → b.thread k = s.thread k
  ports : ∀ c q, b.port c q = if c = coreOf s.cur.warp then (s.port c q).drop (u.takes (s.active h).length q) else s.port c q
  takes : Takes s b u (s.active h).length
  warps : ∀ v, b.warp v = if v = s.cur.warp then
      { s.observed v (s.tokens u (s.active h).length) with
        out := (s.warp v).out ++ (match cls with
          | some c => [{ gid := s.nextId, cls := c, left := (s.active h).length }]
          | none => []) }
    else s.warp v
  reqs : b.reqs = s.reqs ++ (List.range (s.active h).length).map (fun (i : Nat) =>
    let r := mk s (s.lane ((s.active h).getD i 0)) (s.srcWords (s.active h) u.src i)
    { r with id := s.nextId + (if cls.isSome then 1 else 0) + i, gid := if cls.isSome then s.nextId else 0
             sent := s.now r.core, bid := (s.warp r.warp).bid, widx := (s.warp r.warp).idx, words := s.srcWords (s.active h) u.src i
             held := decide (spaceOf r.ea = 1) && decide (r.own / 27 ≠ s.pkg) })
  rest : b = { s with thr := b.thr, wrp := b.wrp, cor := b.cor, reqs := b.reqs, stamp := s.stamp + 1
                      nextId := s.nextId + (if cls.isSome then 1 else 0) + (s.active h).length }

/-- A memory instruction whose active lanes all begin and reach for an owner: `ok` is what each lane's operands must meet. -/
def Sends (i : Instr) (h : Hdr) (u : Uses) (cls : Option Cls) (P : State → List Nat → Prop) (ok : State → Nat → List Int → Prop)
    (mk : State → Nat → List Int → Req) : Prop :=
  ∀ s, Plain s → (Tab.find s.wrp s.cur.warp).isSome = true → Legal s h u → s.acqPending = false →
    (s.active h ≠ [] → P s (s.active h) ∧ s.portSt u (s.active h).length = .ready ∧ (∀ c ∈ cls, cntOf c (s.warp s.cur.warp) < 242) ∧
      (∀ l ∈ s.active h, (s.thread (s.lane l)).kept = none) ∧
      ∀ k, k < (s.active h).length → ok s (s.lane ((s.active h).getD k 0)) (s.srcWords (s.active h) u.src k)) →
    ∃ b, exec i s = .next b ∧ if s.active h = [] then b = s.opened h else Sent s b h u cls mk

/-- An address that a ternary access of the main memory may use (R89, R96, R218). -/
def devOk (s : State) (sz : Sz) (ea : Int) : Prop := regionOf ea = .device ∧ s.ownerOk ea = true ∧ (sz = .tr ∨ trit ea 0 = 0) ∧
  (crosses sz ea = true → regionOf (ea + 3) = .device ∧ s.ownerOk (ea + 3) = true)
/-- An address that a binary-typed access of n bytes may use (R46, R218): in main memory, or in the host's space. -/
def binOk (s : State) (n : Nat) (ctx : Nat) (ea : Int) : Prop :=
  (regionOf ea = .device ∧ s.ownerOk ea = true) ∨
  (regionOf ea = .host ∧ 0 ≤ fld ea 0 53 ∧ fld ea 0 53 < 18446744073709551616 ∧ fld ea 0 53 % (n : Int) = 0 ∧ (s.ctx ctx).lr.pasid ≠ -1)
/-- The second part of a dword that crosses a line (R96). -/
def secondOf (sz : Sz) (ea : Int) : Option Int := if crosses sz ea then some (ea + 3) else none
/-- An access without release order, or whose release fence is complete (R130, R132). -/
def released (h : Hdr) (o : Acc) (m : MOp) (s : State) (act : List Nat) : Prop :=
  (effOrd h o.ord ≠ .rel ∧ effOrd h o.ord ≠ .acqrel) ∨
    s.isFenced act (s.relScope h o m act (s.readField (s.curThreads act) m.b).2) = true
/-- A form without release, or whose release fence is complete (R244, R250). -/
def fenced (rlx : Bool) (sc : Scope) (s : State) (act : List Nat) : Prop := rlx = true ∨ s.isFenced act sc = true

/-- A new copy of the group. -/
def State.newCopy (a : State) (act : List Nat) : Copy :=
  { id := 0, warp := a.cur.warp, lanes := act, gid := 0, pc := a.cur.first, form := .lin
    o := { mode := .tt, tok := false, sring := none, dring := none, btype := .i8, tty := .t9, qw := 0, tag := 0 }
    src := 0, dst := 0, count := 0 }
/-- The core has room for a copy, and the warp's counter too (R158, R318). -/
def copyRoom (a : State) : Prop := (a.core (coreOf a.cur.warp)).copies.length < 81 ∧ cntOf .cp (a.warp a.cur.warp) < 242
/-- A copy stands last in its core's list and counts (R318). -/
def State.withCopy (a : State) (x : Copy) : State :=
  (a.openGrp a.cur.warp .cp 1).1.setCore (coreOf a.cur.warp)
    { a.core (coreOf a.cur.warp) with copies := (a.core (coreOf a.cur.warp)).copies ++ [{ x with id := a.nextId, gid := a.nextId }] }
/-- What a copy's types, rings and ends must meet (R321). -/
def copyOk (a : State) (o : CpOpt) (ends : Bool) (x : Copy) : Prop :=
  copyTypesOk o = true ∧ a.copyRingsBad (coreOf a.cur.warp) (a.ctx (a.warp a.cur.warp).ctx).lr.folios o = false ∧
  (ends = true → (o.sring = none → a.endsFate (a.warp a.cur.warp).ctx (srcSide o) false x.src x.count = none) ∧
    (o.dring = none → a.endsFate (a.warp a.cur.warp).ctx (dstSide o) true x.dst x.count = none))

/-- What a fence does at its issue (R132, R240): the steps that it can take at once, and the step that is then in progress. -/
def State.fenceBegun (a : State) (h : Hdr) (o : Acc) (act : List Nat) : State × Option Nat :=
  a.fenceStart a.cur.warp (fenceScope (effScope h o.scope)) (ordRel (effOrd h o.ord)) act a.cur.first
/-- A waiting fence keeps the guards in force (R123). -/
def State.keepsGuards (a : State) : State :=
  a.setWarp a.cur.warp { a.warp a.cur.warp with fguard := some (a.guard .pkg, a.guard .domain) }
/-- When a lane's TWAIT is over (R242). -/
def State.dueAt (a : State) (t : Nat) (w : When) (imm : Int) (sc : Scope) : Int := (a.thread t).deadline.getD (a.dueOf t w imm sc)
/-- A LAUNCH's record as its home holds it (R443): its fills are made, and their causes deferred to the lanes. -/
def State.launchRead (a : State) (act : List Nat) (low : Int) (l : Leaf) : State × (Nat → Int) :=
  let sup := (a.warp a.cur.warp).ctx
  let own := ownerOf low
  let die := dieIdx (coreOf a.cur.warp)
  let f := (a.translate own sup (coreOf a.cur.warp) (offOf low)).1.fillFor own ((List.range 27).map (fun (i : Nat) => l.phys (offOf low) + 27 * (i : Int))) l.cmp sup die
  let s1 := act.foldl (fun x n => f.2.foldl (fun y e => y.defer (threadOf a.cur.warp n) e 0) x) f.1
  (s1, fun k => ofTrytes ((List.range 3).map (fun (i : Nat) => s1.homeTryte own (l.phys (offOf low) + 3 * (k : Int) + (i : Int)) l.cmp)))
/-- The reason of R444 for a record as it has been read. -/
def State.launchWhy (a : State) (act : List Nat) (low : Int) (l : Leaf) : Nat :=
  let r := a.launchRead act low l
  r.1.launchReason (a.ctx (a.warp a.cur.warp).ctx).part r.2
/-- The state once a LAUNCH's checks have read what they name: their fills are made too, and the causes deferred (R52, R444). -/
def State.launchSeen (a : State) (act : List Nat) (low : Int) (l : Leaf) : State :=
  let sup := (a.warp a.cur.warp).ctx
  let r := a.launchRead act low l
  let g := r.1.launchFills (a.ctx sup).part sup (dieIdx (coreOf a.cur.warp)) r.2 (a.launchWhy act low l)
  act.foldl (fun x n => g.2.foldl (fun y e => y.defer (threadOf a.cur.warp n) e 0) x) g.1
/-- The state once LAUNCH.res has read the complete words of saved blocks' records (R52, R445). -/
def State.resSeen (a : State) (c : Nat) (ids : List Nat) : State :=
  (ids.filter (fun i => (Tab.find (a.ctx c).saved i).isSome)).foldl (fun y i =>
    y.recFill (y.supCtx c) (y.recLow c (some i)) [0] (dieIdx (coreOf a.cur.warp))) a
/-- A block that LAUNCH.res may resume (R445), the blocks that it names, and a saved block whose record is incomplete. -/
def State.resumable (a : State) (c b : Nat) : Bool :=
  match a.blkSt c b with
  | .held _ => true
  | .saved _ => true
  | _ => false
def State.resumed (a : State) (c : Nat) (b : Int) : List Nat :=
  if b = -1 then (List.range (a.ctx c).lr.blocks).filter (a.resumable c) else [b.toNat]
def State.recTorn (a : State) (c b : Nat) : Bool :=
  match a.blkSt c b with
  | .saved _ => !a.recComplete c b
  | _ => false

/-- A unit has raised a cause in lanes of a warp that takes no other trap, and the warp has entered its handler (R402). -/
structure Entered (a t : State) (w : Nat) (ls : List Nat) (r : Raise) : Prop where
  on : ∀ l ∈ ls, t.thread (threadOf w l) =
    let x := a.thread (threadOf w l)
    { x with cause := setFld x.cause r.cause 1 1, epc := r.pc, emr := x.mr, eaddr := r.ea
             einfo := einfoOf (x.early.getD r) r, mr := 0, pc := wrap (a.ctx (a.warp w).ctx).tvec 52
             st := .runnable, prior := x.st, inH := true, tret := false, wait := .none_, deadline := none, busy := false, pend := none
             early := none, ldnb := none }
  stopped : ∀ k ∈ threadsOf w, (∀ l ∈ ls, k ≠ threadOf w l) → t.thread k =
    if (a.thread k).st = .exited ∨ (a.thread k).st = .stopped then a.thread k
    else { a.thread k with st := .stopped, prior := (a.thread k).st }
  others : ∀ k, k ∉ threadsOf w → t.thread k = a.thread k
  warp : ∀ v, t.warp v = if v = w then
    { a.warp v with pl := if isSup (a.warp v).ctx then (a.warp v).pl else 0, hm := true, stopping := false } else a.warp v
  rest : t = { a with thr := t.thr, wrp := t.wrp }
/-- A warp that may enter its handler at once: it has one, is not in it, has no draft, no result is owed, its block is neither
saved nor killed, no other raising awaits delivery, and no lane of the group waits inside a unit that counts (R212, R402). -/
structure Enterable (s : State) : Prop where
  vec : (s.ctx (s.warp s.cur.warp).ctx).tvec ≠ 0
  out : (s.warp s.cur.warp).hm = false
  nodraft : (s.warp s.cur.warp).draft.depth = 0
  idle : s.quiet s.cur.warp = true
  free : s.frozen s.cur.warp = false
  first : s.raisers s.cur.warp = []
  kept : ∀ l ∈ s.cur.lanes, (s.thread (s.lane l)).kept = none

/-- A form that raises a cause before anything of its own happens: no lane acts, and the warp enters its handler (R159, R402). -/
def TrapsFirst (i : Instr) (h : Hdr) (u : Uses) : Prop :=
  ∀ s, Plain s → Enterable s → s.ready h u = true →
    (s.privFault u = true → ∃ t, exec i s = .next t ∧ Entered s.started t s.cur.warp s.cur.lanes { cause := 1, pc := s.cur.first }) ∧
    ∀ c, s.privFault u = false → s.fieldFault u = some c →
      ∃ t, exec i s = .next t ∧ Entered s.started t s.cur.warp s.cur.lanes { cause := c, pc := s.cur.first }

/-- A unit without ports that acts lane by lane and in which every active lane meets one cause of its own: no lane writes
anything, and the warp enters its handler with those lanes (R174, R402). -/
def RaisesIn (i : Instr) (h : Hdr) (u : Uses) (f : State → Nat → List Int → Out) : Prop :=
  ∀ s c, Plain s → Legal s h u → Enterable s → (u.src ++ u.dst).any isPort = false → s.active h ≠ [] →
    (∀ k, k < (s.active h).length → (s.outOf h u f k).fault = some { cause := c }) →
    ∃ t, exec i s = .next t ∧ Entered (s.opened h) t s.cur.warp (s.active h) { cause := c, pc := s.cur.first }
/-- An instruction that acts lane by lane, and what its own causes do. -/
def RunsOr (i : Instr) (h : Hdr) (u : Uses) (f : State → Nat → List Int → Out) : Prop := Runs i h u f ∧ RaisesIn i h u f


/-- The active lanes that meet a cause of their own, in lane order. -/
def State.raising (s : State) (h : Hdr) (u : Uses) (f : State → Nat → List Int → Out) : List Nat :=
  ((List.range (s.active h).length).filter (fun i => (s.outOf h u f i).fault.isSome)).map (fun i => (s.active h).getD i 0)
/-- What the lanes of a unit have done when some of them raise: those that complete have retired with their results, those that
raise stand at their unit with nothing written (R47, R174, R179). -/
structure PartRan (s b : State) (h : Hdr) (u : Uses) (f : State → Nat → List Int → Out) : Prop where
  on : ∀ i, i < (s.active h).length → b.thread (s.lane ((s.active h).getD i 0)) =
    if (s.outOf h u f i).fault.isSome = true then s.atIssue ((s.active h).getD i 0)
    else (s.outOf h u f i).wr.foldl Thread.wrote ((s.atIssue ((s.active h).getD i 0)).retired s.cur.next)
  off : ∀ l ∈ s.cur.lanes, s.laneOn h (s.lane l) = false → b.thread (s.lane l) = (s.atIssue l).retired s.cur.next
  others : ∀ k, (∀ l ∈ s.cur.lanes, k ≠ s.lane l) → b.thread k = s.thread k
  rest : b = { s with thr := b.thr, stamp := s.stamp + 1 }
/-- A unit without ports of which some active lanes meet one cause of their own: the other lanes complete and write, and the warp
enters its handler with those that raised. -/
def RaisesPart (i : Instr) (h : Hdr) (u : Uses) (f : State → Nat → List Int → Out) : Prop :=
  ∀ s c, Plain s → Legal s h u → Enterable s → (u.src ++ u.dst).any isPort = false → s.raising h u f ≠ [] → s.allOwed h u f = [] →
    s.allSat h u f = 0 → (∀ k, k < (s.active h).length → (s.outOf h u f k).fault = none ∨ (s.outOf h u f k).fault = some { cause := c }) →
    ∃ b t, exec i s = .next t ∧ PartRan s b h u f ∧ Entered b t s.cur.warp (s.raising h u f) { cause := c, pc := s.cur.first }

/-- A group of the Scribe's warp outside a handler, plain but for its slot, whose unit ends neither a loop's body nor the program
(R342, R343). -/
structure Scribing (s : State) : Prop where
  some_ : s.cur.lanes ≠ []
  nodup : s.cur.lanes.Nodup
  lane : ∀ l ∈ s.cur.lanes, l < 16
  live : ∀ l ∈ s.cur.lanes, (s.thread (s.lane l)).st = .runnable ∨ (s.thread (s.lane l)).st = .waiting
  wid : widOf s.cur.warp = 27
  going : (s.warp s.cur.warp).stopping = false
  undrafted : ∀ l ∈ s.cur.lanes, s.drafting s.cur.warp l = false
  nostep : trit (s.ctx (s.warp s.cur.warp).ctx).dbg 0 ≠ 1 ∨ (s.warp s.cur.warp).hm = true
  nomeet : s.meetsNow s.cur.warp = false
  inside : s.cur.next < (s.core (coreOf s.cur.warp)).scribe.start + ((s.core (coreOf s.cur.warp)).scribe.len : Int)
  body : ∀ l ∈ s.cur.lanes, ∀ y ∈ (s.thread (s.lane l)).loops, y.stop ≠ s.cur.next
/-- An instruction that acts lane by lane in the Scribe's warp as in any other (R341, R342). -/
def RunsScribe (i : Instr) (h : Hdr) (u : Uses) (f : State → Nat → List Int → Out) : Prop :=
  ∀ s, Scribing s → Legal s h u → s.portSt u (s.active h).length = .ready →
    (∀ k, k < (s.active h).length → (s.outOf h u f k).fault = none) → ∃ t, exec i s = .next t ∧ Ran s t h u f

/-- A plain group all of whose lanes are in their warp's draft (R252). -/
structure Drafted (s : State) : Prop where
  some_ : s.cur.lanes ≠ []
  nodup : s.cur.lanes.Nodup
  lane : ∀ l ∈ s.cur.lanes, l < 16
  live : ∀ l ∈ s.cur.lanes, (s.thread (s.lane l)).st = .runnable ∨ (s.thread (s.lane l)).st = .waiting
  wid : widOf s.cur.warp ≠ 27
  going : (s.warp s.cur.warp).stopping = false
  drafted : ∀ l ∈ s.cur.lanes, s.drafting s.cur.warp l = true
  nostep : trit (s.ctx (s.warp s.cur.warp).ctx).dbg 0 ≠ 1 ∨ (s.warp s.cur.warp).hm = true
  nomeet : s.meetsNow s.cur.warp = false

/-- A plain group with an active draft lane, whose warp's draft has the checkpoint of each of its lanes (R252) and has not sent its
commit. -/
structure InDraft (s : State) (h : Hdr) : Prop where
  nodup : s.cur.lanes.Nodup
  lane : ∀ l ∈ s.cur.lanes, l < 16
  live : ∀ l ∈ s.cur.lanes, (s.thread (s.lane l)).st = .runnable ∨ (s.thread (s.lane l)).st = .waiting
  wid : widOf s.cur.warp ≠ 27
  going : (s.warp s.cur.warp).stopping = false
  nostep : trit (s.ctx (s.warp s.cur.warp).ctx).dbg 0 ≠ 1 ∨ (s.warp s.cur.warp).hm = true
  drafted : ∃ l ∈ s.active h, s.drafting s.cur.warp l = true
  deep : (s.warp s.cur.warp).draft.depth ≠ 0
  unsent : ∀ e, (s.warp s.cur.warp).draft.ink ≠ .going e
  once : (s.warp s.cur.warp).draft.lanes.Nodup
  lanes : ∀ l ∈ (s.warp s.cur.warp).draft.lanes, l < 16 ∧ (s.thread (s.lane l)).kept = none ∧
    ((s.warp s.cur.warp).draft.ckpt.find? (fun c => decide (c.lane = l))).isSome = true
/-- A warp rollback with an abort code (R256): every draft lane has its checkpoint again and stands at the handler, no entry of the
Blotter is left, the draft is over, and memory, the host's memory, the contexts and the other warps are as they were. -/
structure RolledBack (a b : State) (w : Nat) (code info : Int) : Prop where
  on : ∀ l ∈ (a.warp w).draft.lanes, ∀ c ∈ (a.warp w).draft.ckpt.find? (fun c => decide (c.lane = l)),
    b.thread (threadOf w l) =
      let x := a.thread (threadOf w l)
      { x with regs := c.regs, preds := c.preds, mr := c.mr, pc := (a.warp w).draft.handler
               st := if x.st = .stopped then .stopped else .runnable, prior := .runnable, wait := .none_, busy := false
               deadline := none, ldnb := none, dcode := code, dinfo := info, pend := none }
  others : ∀ k, (∀ l ∈ (a.warp w).draft.lanes, k ≠ threadOf w l) → b.thread k = a.thread k
  ended : (b.warp w).draft = {}
  blot : ∀ e ∈ (b.core (coreOf w)).blot, e.warp = w → e.lane ∉ (a.warp w).draft.lanes
  warps : ∀ v, v ≠ w → b.warp v = a.warp v
  same : b.mem = a.mem ∧ b.host = a.host ∧ b.ctxs = a.ctxs ∧ b.parts = a.parts ∧ b.mg = a.mg ∧ b.bars = a.bars
/-- A form that a draft may not contain (R258): it aborts the draft with FORBID before anything of its own happens. -/
def Forbidden (i : Instr) (h : Hdr) (u : Uses) : Prop :=
  ∀ s, InDraft s h → Legal s h u → ∃ b, exec i s = .next (s.unitEnd b) ∧ RolledBack (s.opened h) b s.cur.warp 6 0

/-- The value of a local load: from the scratchpad, or from the counter window (R92, R100, R104). -/
def State.localVal (s : State) (sz : Sz) (ea : Int) : Int :=
  let c := coreOf s.cur.warp
  let x := (s.warp s.cur.warp).ctx
  if regionOf ea = .scratch then ofTrytes ((covers sz ea).map (s.scr c))
  else if sz = .dw then pair (s.ctrWord x c ea) (s.ctrWord x c (ea + 3)) else s.ctrWord x c ea
/-- A loaded value in its registers (R221). -/
def Thread.putLoad (x : Thread) (sz : Sz) (d : Nat) (v : Int) : Thread := if sz = .dw then x.wrote (.pair d v) else x.putReg d v
/-- A scratchpad tryte after the stores of some lanes, each with an address and a value, in lane order (R94, R100). -/
def afterStores (sz : Sz) (ws : List (Int × Int)) (a old : Int) : Int :=
  ws.foldl (fun v p => if (covers sz p.1).contains a then wrap ((toTrytes (szLen sz) p.2).getD (a - szLow sz p.1).toNat 0) 9 else v) old

/-- An operation on words, or on each of the three trytes of words (R172). -/
def perPart (t3 : Bool) (g : Nat → Int → Int → Int → Int) (a b c : Int) : Int :=
  if t3 then ofParts (g 9 (part a 0) (part b 0) (part c 0)) (g 9 (part a 1) (part b 1) (part c 1)) (g 9 (part a 2) (part b 2) (part c 2))
  else g 27 a b c
/-- A result brought into n trits, by wrapping or by saturation (R177). -/
def fit (isSat : Bool) (n : Nat) (x : Int) : Int := if isSat then sat x n else wrap x n
/-- A word result: to a register, or to a port (R171). -/
def toW (d : Nat) (x : Int) : Out := { wr := [wrW d x] }
/-- A pair result (R30). -/
def toPair (d : Nat) (x : Int) : Out := { wr := [.pair d x] }
/-- A predicate result (R57). -/
def toPred (d : Nat) (x : Int) : Out := { wr := [.pred d x] }
/-- A float result on the parts of the operand format (R197). -/
def perFmt (f : FFmt) (g : FmtF → Int → Int → Int → Int) (a b c : Int) : Int :=
  match f with
  | .word => g f27 a b c
  | .s9 => g f9 (part a 0) (part b 0) (part c 0)
  | .t3 => ofParts (g f9 (part a 0) (part b 0) (part c 0)) (g f9 (part a 1) (part b 1) (part c 1)) (g f9 (part a 2) (part b 2) (part c 2))
/-- A result that follows its unit: owed to a register (R211), or pushed to a port. -/
def later (d : Nat) (x : Int) : Out := { wr := [if d < 216 then .owe d x else wrW d x] }
/-- A cause that the lane raises. -/
def raises (c : Nat) : Out := { fault := some { cause := c } }
/-- The source words of a lane as a function. -/
def src (v : List Int) (i : Nat) : Int := v.getD i 0

/-! Events of the device. -/

/-- A warp in which nothing is due: it has a thread, no trap awaits delivery (R402), no meeting is complete (R67), and STEP
is off (R401). -/
structure Still (s : State) (w : Nat) : Prop where
  wid : widOf w ≠ 27
  here : (Tab.find s.wrp w).isSome = true
  going : (s.warp w).stopping = false
  nomeet : s.meetsNow w = false
  live : (threadsOf w).any (fun t => decide ((s.thread t).st ≠ .exited)) = true
  nostep : trit (s.ctx (s.warp w).ctx).dbg 0 ≠ 1 ∨ (s.warp w).hm = true
/-- What the end of a wait for a time leaves: a TWAIT retires, another unit is to be issued again (R242). -/
def Thread.timeOver (x : Thread) : Thread :=
  match x.wait with
  | .until_ => x.retired x.next
  | .timed _ => { x with wait := .timed true, deadline := none }
  | _ => x
/-- A wait for a time. -/
def Thread.timed (x : Thread) : Bool :=
  match x.wait with
  | .until_ => true
  | .timed _ => true
  | _ => false
/-- What the end of a fence's steps leaves: a FENCE retires, a fence in front of a unit lets the unit act (R132). -/
def Thread.fenceOver (x : Thread) : Thread :=
  match x.wait with
  | .fence sc _ ends _ => if ends then x.retired x.next else { x with wait := .fenced sc }
  | _ => x
/-- A thread that waits in a step of a fence. -/
def Thread.inStep (x : Thread) (sc : Scope) (rel ends : Bool) (ph : Nat) : Bool := decide (x.st = .waiting) && decide (x.wait = .fence sc rel ends ph)
/-- A wait that has moved nothing, whose unit may be issued again (R80, R414). -/
def Thread.servable (x : Thread) : Bool := decide (x.st = .waiting) && (match x.wait with
  | .reissue _ due => !due
  | .timed due => !due && x.deadline.isNone
  | .counters _ due => !due
  | _ => false)
/-- Its unit is to be issued again. -/
def Thread.served (x : Thread) : Thread :=
  match x.wait with
  | .reissue k _ => { x with wait := .reissue k true }
  | .counters b _ => { x with wait := .counters b true }
  | _ => { x with wait := .timed true }
/-- A thread that waits in a phase of a barrier (R244). -/
def Thread.atBar (x : Thread) (l : Level) (key k : Nat) (p : Int) : Bool :=
  match x.wait with
  | .barrier a b c d _ => decide ((a, b, c, d) = (l, key, k, p))
  | .barw a b c d => decide ((a, b, c, d) = (l, key, k, p))
  | _ => false
/-- What the end of the phase leaves: an arrival retires, a BARW is issued again. -/
def Thread.leftBar (x : Thread) : Thread :=
  match x.wait with
  | .barrier .. => x.retired x.next
  | _ => { x with wait := .timed true }
/-- The threads that wait in a phase of a barrier can be released at once, and none of them waits in a BARV. -/
def State.barWaiters (s : State) (l : Level) (key k : Nat) (p : Int) : Prop :=
  Tab.sorted s.thr = true ∧ ∀ q ∈ s.thr, q.2.atBar l key k p = true →
    Still s (warpOf q.1) ∧ s.savingCore (coreOf (warpOf q.1)) = false ∧ q.2.st = .waiting ∧ q.2.wait ≠ .barrier l key k p true
/-- The owner's TLB holds the page of an offset (R421). -/
def State.cached (s : State) (own ctx core : Nat) (off : Int) (l : Leaf) : Prop :=
  isSup ctx = false ∧ s.hasTables own ctx = true ∧ s.tlbNear own ctx core off = some l
/-- A tryte of the home after a list of writes: the last one to its address stands (R112). -/
def afterPuts (tr : List (Int × Int)) (a old : Int) : Int := tr.foldl (fun v p => if p.1 = a then wrap p.2 9 else v) old
/-- A prepare or a validation of a warp's draft (R254). -/
def isPrep (w : Nat) (r : Req) : Bool := decide (r.warp = w) && (match r.kind with
  | .prep .. => true
  | _ => false)
/-- A prepare, for a line that the draft writes. -/
def isWrPrep (w : Nat) (r : Req) : Bool := decide (r.warp = w) && (match r.kind with
  | .prep _ _ _ wr => wr
  | _ => false)
/-- Requests in flight have distinct numbers, all given before. -/
def State.numbered (s : State) : Prop := (s.reqs.map (·.id)).Nodup ∧ ∀ r ∈ s.reqs, r.id < s.nextId
/-- A new request as it leaves its core (R121, R462). -/
def State.newReq (s : State) (i : Nat) (r : Req) : Req :=
  { r with id := s.nextId + i, sent := s.now r.core, bid := (s.warp r.warp).bid, widx := (s.warp r.warp).idx
           held := decide (spaceOf r.ea = 1) && decide (r.own / 27 ≠ s.pkg) }
/-- Only one owner's part of the state has changed, and requests in flight. -/
structure OnlyHome (s t : State) (own : Nat) : Prop where
  rest : t = { s with die := t.die, reqs := t.reqs }
  others : ∀ k, k ≠ own → t.dieSt k = s.dieSt k
  parts : t.dieSt own = { s.dieSt own with l2 := (t.dieSt own).l2, lines := (t.dieSt own).lines, seqs := (t.dieSt own).seqs }
/-- The slices that hash to some lines hold them, so that no other line makes room for them (R110, R111). -/
def State.l2Has (s : State) (own : Nat) (sl : Int → Nat) (ls : List Int) : Prop :=
  ∀ l ∈ ls, ∃ p ∈ (s.dieSt own).l2, p.2.slice = sl l ∧ p.1 % 2 = 0 ∧ shr (unKey (p.1 / 2)) 1 = l
/-- A home's reply to a request, with the home's count (R121). -/
def State.replied (s : State) (r : Req) (v w : Int) : List Req :=
  (s.setReq { r with stage := .reply v w, sent := (s.dieSt r.own).clk }).reqs
/-- A warp whose counted instruction has one lane less to do (R158). -/
def Warp.less (x : Warp) (gid : Nat) : Warp :=
  { x with out := (x.out.map (fun g => if g.gid = gid then { g with left := g.left - 1 } else g)).filter
                    (fun g => decide (g.gid ≠ gid) || decide (g.left ≠ 0)) }
/-- What a register's loss leaves: it reads as zero, and the thread has DATA to raise (R438). -/
def Thread.lost (x : Thread) (r : Nat) : Thread :=
  { x.putReg r 0 with later := x.later ++ [{ cause := 17, deferred := true }] }
/-- A context whose counter of a number has counted some events on a die (R105, R397). -/
def Ctx.counted (x : Ctx) (die n : Nat) (k : Int) : Ctx :=
  { x with counters := Tab.set 0 (die * 16 + (n - 36)) (min (Tab.get 0 x.counters (die * 16 + (n - 36)) + k) (half 27)) x.counters }
/-- A load's value in its thread (R221). -/
def State.loadVal (s : State) (r : Req) : Int := ofTrytes ((reqTrytes r).map (s.loadTryte r))
/-- Nothing of a request's warp is due, and its lane is a thread of the warp. -/
def State.stillReq (s : State) (r : Req) : Prop := Still s r.warp ∧ r.lane < 16 ∧ (s.thread r.thr).st ≠ .exited
/-- A tryte of an L1 line after a fill: written trytes keep their values (R108). -/
def fillOver (old new : Option LTryte) : Option LTryte :=
  match old, new with
  | some o, some n => if o.written then some o else some n
  | none, some n => some n
  | o, none => o
/-- The fill's trytes of a line. -/
def fillTrytes (tr : Tab Int) (p : Nat) : Option LTryte := (Tab.find tr p).map (fun v => { written := false, val := v })
/-- A parked lane (R65). -/
def Thread.park (x : Thread) : Thread := { x with busy := false, wait := .none_, st := .parked }
/-- Only one core has changed, and none of its caches, registers or ports unless said. -/
structure OnlyCore (s t : State) (c : Nat) : Prop where
  rest : t = { s with cor := t.cor }
  others : ∀ e, e ≠ c → t.core e = s.core e
/-- Element (i, j) of the product of two folios (R286). -/
def dotAt (a b : List (List Int)) (i j : Nat) : Int := ((List.range 27).map (fun k => (a.getD i []).getD k 0 * (b.getD k []).getD j 0)).sum
/-- The largest magnitude of a slot (R307). -/
def State.accMax (s : State) (c k : Nat) : Int := (List.range 729).foldl (fun b n => max b ((s.accElem c k n).natAbs : Int)) 0
/-- The step, drain or QSCALE that is in progress on a core (R287). -/
def State.inWork (s : State) (c : Nat) (p : NibOp → Bool) : Option NibCmd := (s.core c).nib.find? (fun x => x.now && p x.op)
def isLoopOp : NibOp → Bool
  | .loop .. => true | _ => false
def isDrainOp : NibOp → Bool
  | .drain .. => true | _ => false
def isQscaleOp : NibOp → Bool
  | .qscale .. => true | _ => false
/-- A command of a core is replaced. -/
def putCmd (x : NibCmd) (l : List NibCmd) : List NibCmd := l.map (fun y => if y.id = x.id then x else y)
/-- A copy of a core is replaced. -/
def putCopy (x : Copy) (l : List Copy) : List Copy := l.map (fun y => if y.id = x.id then x else y)
/-- A copy's engine goes on with it: it is not stopped, parked, dropped or done, its core is not being saved, and what it has
heard of homes has reached the core (R121, R330, R331). -/
def State.copyGoes (s : State) (c : Nat) (x : Copy) : Prop :=
  x.stopped = false ∧ x.parked = none ∧ x.pos < x.count ∧ x.drop = false ∧ x.heard ≤ s.now c ∧ s.savingCore c = false
/-- A thread has one more deferred cause (R403). -/
def Thread.owes (x : Thread) (c : Nat) : Thread := { x with later := x.later ++ [{ cause := c, deferred := true }] }
/-- A session's completion word goes to q14 of its block's core at once: there is room, and the time that its writes wait
for has passed (R348). -/
def State.wordGoes (s : State) (ctx bid e : Nat) (tm : Int) : Prop :=
  Tab.find (s.ctx ctx).blk bid = some (.placed e) ∧ (s.port e 14).length < 81 ∧ tm ≤ (s.dieSt (s.ownKey 9)).clk
/-- It has gone: the session is as given, and a warp that takes the word observes the writes (R131, R348). -/
structure WordGone (s t : State) (ctx bid e : Nat) (y : Session) (v tm : Int) : Prop where
  rest : t = { s with ctxs := t.ctxs, cor := t.cor }
  sess : t.session ctx bid = y
  sessions : ∀ b, b ≠ bid → t.session ctx b = s.session ctx b
  ctxs : ∀ k, t.ctx k = { s.ctx k with sess := (t.ctx k).sess }
  others : ∀ k, k ≠ ctx → t.ctx k = s.ctx k
  cores : ∀ k, t.core k = { s.core k with ports := (t.core k).ports, tokW := (t.core k).tokW }
  ports : ∀ k q, t.port k q = if k = e ∧ q = 14 then s.port k q ++ [v] else s.port k q
  tokW : ∀ k q, Tab.get [] (t.core k).tokW q = if k = e ∧ q = 14 then Tab.get [] (s.core k).tokW q ++ [tm] else Tab.get [] (s.core k).tokW q
/-- A thread of a stopped warp (R66). -/
def Thread.stops (x : Thread) : Thread :=
  if x.st = .exited ∨ x.st = .stopped then x else { x with st := .stopped, prior := x.st }
/-- A raising thread as TRAP_ENTRY leaves it (R402): its PC, MR and cause are saved, and it runs at the handler. -/
def Thread.takes (tv : Int) (x : Thread) (r : Raise) : Thread :=
  { x with epc := if r.deferred = true then x.pc else r.pc, emr := x.mr, einfo := einfoOf (x.early.getD r) r, eaddr := r.ea, pend := none, early := none, ldnb := none, mr := 0
           pc := wrap tv 52, st := .runnable, inH := true, tret := false, wait := .none_, deadline := none }
/-- A raising thread as UNHANDLED_TRAP leaves it (R409). -/
def Thread.unhandles (x : Thread) (r : Raise) : Thread :=
  { x with epc := if r.deferred = true then x.pc else r.pc, einfo := einfoOf (x.early.getD r) r, eaddr := r.ea, pend := none, early := none, ldnb := none
           pc := if r.deferred = true then x.pc else r.pc, unhandled := true, wait := .none_, deadline := none }
/-- The threads of a warp that raise have not exited, and wait inside no unit that counts. -/
def State.raisersLive (s : State) (w : Nat) : Prop :=
  s.raisers w ≠ [] ∧ ∀ u ∈ s.raisers w, (s.thread u).st ≠ .exited ∧ (s.thread u).kept = none
/-- The core whose q17 has a context's notices (R429) can take a notice of some words at once. -/
def State.q17Free (s : State) (ctx die n : Nat) : Prop :=
  s.recs = [] ∧ (s.port (s.q17Core ctx (s.ownKey die)) 17).length + n ≤ 81
/-- A notice has been pushed: only one port has changed in the cores, each as another state has it (R417). -/
structure Noticed (s t : State) (ctx die : Nat) (ws : List Int) : Prop where
  cores : ∀ e, t.core e = { s.core e with ports := (t.core e).ports }
  ports : ∀ e q, t.port e q = if e = s.q17Core ctx (s.ownKey die) ∧ q = 17 then s.port e q ++ ws else s.port e q
/-- A resident block whose save can be forced: SAVEBASE is right and no warp of its core is in a draft (R413). -/
def State.forceable (s : State) (ctx bid c : Nat) : Prop :=
  saveBaseOk (s.ctx ctx).savebase = true ∧ Tab.find (s.ctx ctx).blk bid = some (.placed c) ∧ ∀ w ∈ s.warpsOf c, (s.warp w).draft.depth = 0
/-- A block's save has begun (R410). -/
def State.savingBlk (s : State) (x : Ctx) (bid c : Nat) : Ctx := { x with blk := Tab.put bid (.saving c (s.now c)) x.blk }
/-- The body of a notice about a warp (R417). -/
def warpNotice (s : State) (kind : Int) (w : Nat) : List Int :=
  [recHead kind 2 (recCtx (s.warp w).ctx) (dieIdx (coreOf w)), ((s.warp w).bid : Int), ((coreOf w % 81 : Nat) : Int) + (widOf w : Int) * pow3 9]
/-- A register without one of its bits (R460). -/
def noBit (v i : Nat) : Nat := if v.testBit i = true then v - 2 ^ i else v
/-- No message is on its way to a partition's inbox, or held there (R440). -/
def State.noInbox (s : State) : Prop := Tab.sorted s.parts = true ∧ ∀ p ∈ s.parts, p.2.inbox = [] ∧ p.2.msgs = []
/-- Only the management state has changed. -/
def State.withMg (s : State) (m : Mgmt) : State := { s with mg := m }
/-- The contexts of some partitions are being killed (R415, R461). -/
structure Killed (s t : State) (ps : Nat → Bool) : Prop where
  ctxs : ∀ k, t.ctx k = if (s.ctx k).live = true ∧ ps (s.ctx k).part = true then { s.ctx k with killing := true, killNeg := false } else s.ctx k
  thrs : ∀ u, t.thread u = if (Tab.find s.wrp (warpOf u)).isSome = true ∧ (s.ctx (s.warp (warpOf u)).ctx).live = true
    ∧ ps (s.ctx (s.warp (warpOf u)).ctx).part = true then (s.thread u).stops else s.thread u

/-! Rounding and walks. -/

/-- r is the encoding of the exact value x rounded once to a format (R41): by the exponent e of 0.5 * 3^e ≤ |x| < 1.5 * 3^e an infinity,
or the nearest significand integer, a midway case going to the even one. -/
def Rounds (f : FmtF) (x : ℝ) (r : Int) : Prop :=
  (x = 0 → r = 0) ∧ (x ≠ 0 → ∃ e : Int, (3 : ℝ) ^ e ≤ 2 * |x| ∧ 2 * |x| < (3 : ℝ) ^ (e + 1) ∧
    if f.emax < e then r = encF f (f.emax + 1) (if 0 < x then pow3 f.p else - pow3 f.p)
    else ∃ m : Int, 2 * |x / (3 : ℝ) ^ (max e f.emin - (f.p : Int)) - (m : ℝ)| ≤ 1 ∧
      (2 * |x / (3 : ℝ) ^ (max e f.emin - (f.p : Int)) - (m : ℝ)| = 1 → m % 2 = 0) ∧ r = if m = 0 then 0 else encF f (max e f.emin) m)
/-- The entry of a walk's level in the node whose lowest tryte is n (R422). -/
def State.entryAt (s : State) (own : Nat) (off n : Int) (lvl : Nat) : Int := s.physDword own (n + 6 * (fld off (41 - 6 * lvl) 6 + 364))
/-- A pointer entry that is not malformed (R422, R423). -/
def pointerOk (own : Nat) (e : Int) : Prop :=
  fld e 47 6 = 0 ∧ fld (fld e 0 47) 0 8 = 0 ∧ physOk own (fld e 0 47 - 3280) = true ∧ physOk own (fld e 0 47 + 3280) = true
/-- A leaf entry that is not malformed at its level, and its fields (R423). -/
structure LeafAt (own lvl : Nat) (e : Int) (x : Leaf) : Prop where
  size : fld e 51 2 + 4 = (x.size : Int)
  level : (x.size = 2 ∧ lvl = 4) ∨ (x.size < 2 ∧ lvl = 5)
  bits : trit e 50 = (if x.r = true then 1 else 0) ∧ trit e 49 = (if x.w = true then 1 else 0) ∧ trit e 48 = (if x.x = true then 1 else 0) ∧
    trit e 47 = (if x.cmp = true then 1 else 0)
  place : fld e 45 2 + 4 = (x.place : Int) ∧ x.place ≤ 2
  lease : fld e 43 2 + 4 = (x.lease : Int) ∧ x.lease ≤ 2
  clown : fld e 39 4 + 40 = (x.clown : Int) ∧ x.clown ≤ 8
  zero : fld e 36 3 = 0
  frame : x.pa = fld e 0 36 * pow3 11 ∧ (x.size = 1 → fld (fld e 0 36) 0 3 = 0) ∧ (x.size = 2 → fld (fld e 0 36) 0 6 = 0)
  phys : physOk own (x.pa - half (11 + 3 * x.size)) = true ∧ physOk own (x.pa + half (11 + 3 * x.size)) = true
/-- The nodes that a walk reaches by good pointers from a root's lowest tryte (R422). -/
inductive State.Walks (s : State) (own : Nat) (off root : Int) : Nat → Int → Prop where
  | root : State.Walks s own off root 0 root
  | next (lvl : Nat) (n : Int) : State.Walks s own off root lvl n → lvl < 5 → trit (s.entryAt own off n lvl) 53 = -1 →
      pointerOk own (s.entryAt own off n lvl) → State.Walks s own off root (lvl + 1) (fld (s.entryAt own off n lvl) 0 47 - 3280)
/-- An owner walks its tables for a context's address: it has tables, neither level of the TLB has the page, and no fault of it is
held (R421, R428). -/
structure State.Walking (s : State) (own ctx core : Nat) (off root : Int) : Prop where
  tables : s.hasTables own ctx = true
  root : Tab.get 0 (s.dieSt own).roots ctx = root ∧ root ≠ 0
  near : s.tlbNear own ctx core off = none
  far : (s.dieSt own).tlb.find? (TlbE.has ctx off) = none
  free : s.faultHeld own ctx off = false

/-! Units and the form of a state. -/

/-- The unit whose fields have some balanced values (R145): opcode, gpred, gcond, d, a, b, c, lag, cede, last, modifier, imm. -/
def spellUnit (op gp gc d a b c lag cede last md imm : Int) : Int :=
  op * pow3 75 + gp * pow3 70 + gc * pow3 68 + d * pow3 63 + a * pow3 58 + b * pow3 53 + c * pow3 48 + lag * pow3 45 + cede * pow3 44
    + last * pow3 42 + md * pow3 27 + imm
/-- The fields in front of an instruction's own when no guard, declaration or prefix is given (R151, R156). -/
def plainHdr : Hdr := { gpred := 121, gcond := 0, lag := 0, cede := 0, last := 0, pxi := none, pxs := none, pxiFirst := true }
/-- The units of a unit's indices as a warp finds them: in device space, of an owner that exists, at hand (R94, R146, R280). -/
def State.standsAt (s : State) (w : Nat) (pc : Int) (us : List Int) : Prop :=
  ∀ j, j < us.length → deviceIndex (pc + (j : Int)) = true ∧ s.ownerOk (81 * codeLine (pc + (j : Int))) = true ∧
    s.unitOf w (pc + (j : Int)) = some (us.getD j 0)
/-- The group that a warp selects issues a unit, and none of its lanes is held in front of it (R66, R67). -/
def State.selects (s : State) (w : Nat) (l : Nat) (ls : List Nat) (us : List Int) (i : Instr) : Prop :=
  s.pickGroup w [] = l :: ls ∧ us.length ≤ 3 ∧ s.standsAt w (s.thread (threadOf w l)).pc us ∧
  decodeUnit (s.thread (threadOf w l)).pc us = .ok (i, us.length) ∧
  ∀ k ∈ l :: ls, ¬ ((s.thread (threadOf w k)).mr = (s.thread (threadOf w l)).pc ∧ (s.thread (threadOf w l)).pc ≠ 0 ∧
    (s.thread (threadOf w l)).st = .runnable)
/-- The form that every state a run reaches has: both memories are canonical, every table's keys rise, and requests in
flight have distinct numbers. -/
structure Formed (s : State) : Prop where
  mem : Memory.wf s.mem = true
  host : Memory.hostWf s.host = true
  thr : Tab.sorted s.thr = true
  wrp : Tab.sorted s.wrp = true
  cor : Tab.sorted s.cor = true
  die : Tab.sorted s.die = true
  ctxs : Tab.sorted s.ctxs = true
  parts : Tab.sorted s.parts = true
  reqs : s.numbered

end Sys2Proof.Machine
end

