-- ==== Sys2Proof/Certificates/Slice0/Obligations.lean ====
section
/-! DEFINITION. The statements for the provers. -/

open Sys2Proof Sys2Proof.Machine

/-- Integer arithmetic on words and trytes (R172, R177): each active lane's d is the operation of the source words. -/
def Obligations.IntegerArithmetic : Prop :=
  (∀ h t3 sat d a b, Runs (.add h t3 sat d a b) h { src := [a, b], dst := [d] }
    (fun _ _ v => toW d (perPart t3 (fun n x y _ => fit sat n (x + y)) (src v 0) (src v 1) 0))) ∧
  (∀ h t3 sat d a b, Runs (.sub h t3 sat d a b) h { src := [a, b], dst := [d] }
    (fun _ _ v => toW d (perPart t3 (fun n x y _ => fit sat n (x - y)) (src v 0) (src v 1) 0))) ∧
  (∀ h t3 d a, Runs (.neg h t3 d a) h { src := [a], dst := [d] }
    (fun _ _ v => toW d (perPart t3 (fun n x _ _ => wrap (-x) n) (src v 0) 0 0))) ∧
  (∀ h t3 d a, Runs (.abs h t3 d a) h { src := [a], dst := [d] }
    (fun _ _ v => toW d (perPart t3 (fun n x _ _ => wrap |x| n) (src v 0) 0 0))) ∧
  (∀ h t3 d a, Runs (.sgn h t3 d a) h { src := [a], dst := [d] }
    (fun _ _ v => toW d (perPart t3 (fun n x _ _ => wrap (sgn x) n) (src v 0) 0 0))) ∧
  (∀ h t3 sat d a b, Runs (.mul h t3 sat d a b) h { src := [a, b], dst := [d] }
    (fun _ _ v => toW d (perPart t3 (fun n x y _ => fit sat n (x * y)) (src v 0) (src v 1) 0))) ∧
  (∀ h t3 d a b, Runs (.mulh h t3 d a b) h { src := [a, b], dst := [d] }
    (fun _ _ v => toW d (perPart t3 (fun n x y _ => wrap ((x * y - wrap (x * y) n) / pow3 n) n) (src v 0) (src v 1) 0))) ∧
  (∀ h t3 sat d a b c, Runs (.mad h t3 sat d a b c) h { src := [a, b, c], dst := [d] }
    (fun _ _ v => toW d (perPart t3 (fun n x y z => fit sat n (x * y + z)) (src v 0) (src v 1) (src v 2)))) ∧
  (∀ h t3 d a b, Runs (.min h t3 d a b) h { src := [a, b], dst := [d] }
    (fun _ _ v => toW d (perPart t3 (fun n x y _ => wrap (min x y) n) (src v 0) (src v 1) 0))) ∧
  (∀ h t3 d a b, Runs (.max h t3 d a b) h { src := [a, b], dst := [d] }
    (fun _ _ v => toW d (perPart t3 (fun n x y _ => wrap (max x y) n) (src v 0) (src v 1) 0))) ∧
  (∀ h t3 d a b c, Runs (.clamp h t3 d a b c) h { src := [a, b, c], dst := [d] }
    (fun _ _ v => toW d (perPart t3 (fun n x y z => wrap (min (max x y) z) n) (src v 0) (src v 1) (src v 2))))

/-- Integer results that are pairs, and immediates (R177, R178, R180, R181, R187, R188): ADDI, MULW, ADDX, SUBX, LEA, MOV,
MOVI. An immediate is the field, or the prefix PXI's (R161). -/
def Obligations.WideArithmetic : Prop :=
  (∀ h t3 sat d a imm, Runs (.addi h t3 sat false d a imm) h { src := [a], dst := [d] }
    (fun _ _ v => toW d (perPart t3 (fun n x _ _ => fit sat n (x + effImm h imm)) (src v 0) 0 0))) ∧
  (∀ h t3 sat d a imm, Runs (.addi h t3 sat true d a imm) h { srcP := [a], dstP := [d] }
    (fun s t _ => toPair d (fit sat 54 (s.regPair t a + effImm h imm)))) ∧
  (∀ h d a b, Runs (.mulw h d a b) h { src := [a, b], dstP := [d] } (fun _ _ v => toPair d (src v 0 * src v 1))) ∧
  (∀ h d a b, Runs (.addx h d a b) h { srcP := [a, b], dstP := [d] }
    (fun s t _ => toPair d (wrap (s.regPair t a + s.regPair t b) 54))) ∧
  (∀ h d a b, Runs (.subx h d a b) h { srcP := [a, b], dstP := [d] }
    (fun s t _ => toPair d (wrap (s.regPair t a - s.regPair t b) 54))) ∧
  (∀ h d m, Runs (.lea h d m) h { src := [m.b], srcP := [m.a], dstP := [d] }
    (fun s t v => toPair d (wrap (s.regPair t m.a + src v 0 * pow3 m.k + effImm h m.disp) 54))) ∧
  (∀ h d a, Runs (.mov h false d a) h { src := [a], dst := [d] } (fun _ _ v => toW d (src v 0))) ∧
  (∀ h d a, Runs (.mov h true d a) h { srcP := [a], dstP := [d] } (fun s t _ => toPair d (s.regPair t a))) ∧
  (∀ h d imm, Runs (.movi h false d imm) h { dst := [d] } (fun _ _ _ => toW d (effImm h imm))) ∧
  (∀ h d imm, Runs (.movi h true d imm) h { dstP := [d] } (fun _ _ _ => toPair d (effImm h imm)))

/-- DIV and REM (R179): the nearest integer, a midway case going to the even one, and the remainder that belongs to it. A
lane with a zero divisor raises DIVZ and writes nothing. The quotient is nearest to A / B and even where A / B lies midway, so that |A - q B| <= |B| / 2;
it stays in every range that holds A. -/
def Obligations.Division : Prop :=
  (∀ h t3 d a b, RunsOr (.div h t3 d a b) h { src := [a, b], dst := [d] } (fun _ _ v =>
    if (if t3 then part (src v 1) 0 = 0 ∨ part (src v 1) 1 = 0 ∨ part (src v 1) 2 = 0 else src v 1 = 0) then raises 8
    else toW d (perPart t3 (fun n x y _ => wrap (nearest x y) n) (src v 0) (src v 1) 0))) ∧
  (∀ h t3 d a b, RunsOr (.rem h t3 d a b) h { src := [a, b], dst := [d] } (fun _ _ v =>
    if (if t3 then part (src v 1) 0 = 0 ∨ part (src v 1) 1 = 0 ∨ part (src v 1) 2 = 0 else src v 1 = 0) then raises 8
    else toW d (perPart t3 (fun n x y _ => wrap (x - nearest x y * y) n) (src v 0) (src v 1) 0))) ∧
  (∀ a b : Int, b ≠ 0 → 2 * |a - nearest a b * b| ≤ |b| ∧ (2 * |a - nearest a b * b| = |b| → nearest a b % 2 = 0) ∧ |nearest a b| ≤ |a|)

/-- CMP and CMPI (R182): the predicate becomes the sign of the difference; .t3 compares the three trytes. Selects,
predicates and predicate words (R189-R192): SEL3, PSET (a value, a trit of a word), PMOV, PMOV.tw, PMOV.fw, PAND,
POR, PNOT. -/
def Obligations.PredicateResults : Prop :=
  ((∀ h d a b, Runs (.cmp h false false d a b) h { src := [a, b], preds := [d] } (fun _ _ v => toPred d (sgn (src v 0 - src v 1)))) ∧
  (∀ h d a b, Runs (.cmp h true false d a b) h { src := [a, b], preds := [d, d + 1, d + 2] } (fun _ _ v =>
    { wr := [.pred d (sgn (part (src v 0) 0 - part (src v 1) 0)), .pred (d + 1) (sgn (part (src v 0) 1 - part (src v 1) 1)),
             .pred (d + 2) (sgn (part (src v 0) 2 - part (src v 1) 2))] })) ∧
  (∀ h t3 d a b, Runs (.cmp h t3 true d a b) h { srcP := [a, b], preds := [d] }
    (fun s t _ => toPred d (sgn (s.regPair t a - s.regPair t b)))) ∧
  (∀ h d a imm, Runs (.cmpi h false d a imm) h { src := [a], preds := [d] } (fun _ _ v => toPred d (sgn (src v 0 - effImm h imm)))) ∧
  (∀ h d a imm, Runs (.cmpi h true d a imm) h { srcP := [a], preds := [d] } (fun s t _ => toPred d (sgn (s.regPair t a - effImm h imm))))) ∧
  ((∀ h p d a b c, Runs (.sel3 h p d a b c) h { src := [a, b, c], dst := [d], preds := [p] } (fun s t v =>
    toW d (if s.pred t p = -1 then src v 0 else if s.pred t p = 0 then src v 1 else src v 2))) ∧
  (∀ h d x, Runs (.pset h d x) h { preds := [d] } (fun _ _ _ => toPred d x)) ∧
  (∀ h d a i, Runs (.psetTrit h d a i) h { src := [a], preds := [d] } (fun _ _ v => toPred d (trit (src v 0) i))) ∧
  (∀ h d a, Runs (.pmov h d a) h { preds := [d, a] } (fun s t _ => toPred d (s.pred t a))) ∧
  (∀ h d a, Runs (.pmovTw h d a) h { dst := [d], preds := (List.range 27).map (a + ·) }
    (fun s t _ => toW d (ofTrits ((List.range 27).map (fun i => s.pred t (a + i)))))) ∧
  (∀ h d a, Runs (.pmovFw h d a) h { src := [a], preds := (List.range 27).map (d + ·) }
    (fun _ _ v => { wr := (List.range 27).map (fun i => .pred (d + i) (trit (src v 0) i)) })) ∧
  (∀ h d a b, Runs (.pand h d a b) h { preds := [d, a, b] } (fun s t _ => toPred d (min (s.pred t a) (s.pred t b)))) ∧
  (∀ h d a b, Runs (.por h d a b) h { preds := [d, a, b] } (fun s t _ => toPred d (max (s.pred t a) (s.pred t b)))) ∧
  (∀ h d a, Runs (.pnot h d a) h { preds := [d, a] } (fun s t _ => toPred d (-(s.pred t a)))))

/-- Shifts, fields and counts (R184-R186): SHL, SHR, ROT (count from a register
or from n5), FEXT, FINS, TCNT, TLZ, TREV. -/
def Obligations.TritInstructions : Prop :=
  (∀ h t3 d a b, Runs (.shl h t3 d a (.reg b)) h { src := [a, b], dst := [d] }
    (fun _ _ v => toW d (perPart t3 (fun n x y _ => shiftL n x y) (src v 0) (src v 1) 0))) ∧
  (∀ h t3 d a k, Runs (.shl h t3 d a (.imm k)) h { src := [a], dst := [d] }
    (fun _ _ v => toW d (perPart t3 (fun n x _ _ => shiftL n x k) (src v 0) 0 0))) ∧
  (∀ h t3 d a b, Runs (.shr h t3 d a (.reg b)) h { src := [a, b], dst := [d] }
    (fun _ _ v => toW d (perPart t3 (fun n x y _ => shiftL n x (-y)) (src v 0) (src v 1) 0))) ∧
  (∀ h t3 d a k, Runs (.shr h t3 d a (.imm k)) h { src := [a], dst := [d] }
    (fun _ _ v => toW d (perPart t3 (fun n x _ _ => shiftL n x (-(k : Int))) (src v 0) 0 0))) ∧
  (∀ h t3 d a b, Runs (.rot h t3 d a (.reg b)) h { src := [a, b], dst := [d] }
    (fun _ _ v => toW d (perPart t3 (fun n x y _ => rotl n (y % (n : Int)).toNat x) (src v 0) (src v 1) 0))) ∧
  (∀ h t3 d a k, Runs (.rot h t3 d a (.imm k)) h { src := [a], dst := [d] }
    (fun _ _ v => toW d (perPart t3 (fun n x _ _ => rotl n ((k : Int) % (n : Int)).toNat x) (src v 0) 0 0))) ∧
  (∀ h d a l w, Runs (.fext h d a l w) h { src := [a], dst := [d] } (fun _ _ v => toW d (fld (src v 0) l w))) ∧
  (∀ h d a b l w, Runs (.fins h d a b l w) h { src := [a, b], dst := [d] }
    (fun _ _ v => toW d (src v 0 + (wrap (src v 1) w - fld (src v 0) l w) * pow3 l))) ∧
  (∀ h x d a, Runs (.tcnt h x d a) h { src := [a], dst := [d] }
    (fun _ _ v => toW d (((List.range 27).countP (fun i => decide (trit (src v 0) i = x)) : Nat) : Int))) ∧
  (∀ h d a, Runs (.tlz h d a) h { src := [a], dst := [d] }
    (fun _ _ v => toW d ((((List.range 27).takeWhile (fun i => decide (trit (src v 0) (26 - i) = 0))).length : Nat) : Int))) ∧
  (∀ h d a, Runs (.trev h d a) h { src := [a], dst := [d] }
    (fun _ _ v => toW d (ofTrits ((List.range 27).map (fun i => trit (src v 0) (26 - i))))))

/-- Trit logic (R183): TAND, TOR, TSUM, TMULT and TCONS write the combined word, each of whose trits is the operation's value on
the trits at its place; NEG's result inverts every trit. -/
def Obligations.TritwiseResults : Prop :=
  (∀ h d a b, Runs (.tand h d a b) h { src := [a, b], dst := [d] } (fun _ _ v => toW d (tand 27 (src v 0) (src v 1)))) ∧
  (∀ h d a b, Runs (.tor h d a b) h { src := [a, b], dst := [d] } (fun _ _ v => toW d (tor 27 (src v 0) (src v 1)))) ∧
  (∀ h d a b, Runs (.tsum h d a b) h { src := [a, b], dst := [d] } (fun _ _ v => toW d (tsum 27 (src v 0) (src v 1)))) ∧
  (∀ h d a b, Runs (.tmult h d a b) h { src := [a, b], dst := [d] } (fun _ _ v => toW d (tmult 27 (src v 0) (src v 1)))) ∧
  (∀ h d a b, Runs (.tcons h d a b) h { src := [a, b], dst := [d] } (fun _ _ v => toW d (tcons 27 (src v 0) (src v 1)))) ∧
  (∀ (a b : Int) (i : Nat), i < 27 →
    trit (tand 27 a b) i = min (trit a i) (trit b i) ∧ trit (tor 27 a b) i = max (trit a i) (trit b i) ∧
    trit (tsum 27 a b) i = wrap (trit a i + trit b i) 1 ∧ trit (tmult 27 a b) i = trit a i * trit b i ∧
    trit (tcons 27 a b) i = (if trit a i = trit b i then trit a i else 0)) ∧
  ∀ (a : Int) (i : Nat), i < 27 → trit (wrap (-a) 27) i = -trit a i

/-- Wrapping and saturation (R8): both stay in the range of n trits and keep a value that lies in it; wrapping keeps the
value modulo 3^n. -/
def Obligations.WrapAndSaturate : Prop :=
  ∀ (x : Int) (n : Nat), |wrap x n| ≤ half n ∧ |sat x n| ≤ half n ∧ (wrap x n - x) % pow3 n = 0 ∧
    (|x| ≤ half n → wrap x n = x ∧ sat x n = x) ∧ (half n < x → sat x n = half n) ∧ (x < -half n → sat x n = -half n)

/-- CVT, CVTF and RNG (R193-R196): a value out of range saturates and is counted, or raises CONV (R47); a word that is
converted to a float is rounded once. Where every active lane raises CONV, the warp enters its handler with them. -/
def Obligations.Conversions : Prop :=
  (∀ h sa ty d a, RunsOr (.cvt h false sa ty d a) h { src := [a], dst := [d] } (fun _ _ v =>
    if |src v 0| ≤ half ty.width then toW d (src v 0)
    else if sa then { wr := [wrW d (sat (src v 0) ty.width)], sat := 1 } else raises 7)) ∧
  (∀ h sa ty d a, RunsOr (.cvt h true sa ty d a) h { src := [a], dst := [d] } (fun _ _ v =>
    if |part (src v 0) 0| ≤ half ty.width ∧ |part (src v 0) 1| ≤ half ty.width ∧ |part (src v 0) 2| ≤ half ty.width then toW d (ofParts (part (src v 0) 0) (part (src v 0) 1) (part (src v 0) 2))
    else if sa then { wr := [wrW d (ofParts (sat (part (src v 0) 0) ty.width) (sat (part (src v 0) 1) ty.width)
      (sat (part (src v 0) 2) ty.width))], sat := 1 } else raises 7)) ∧
  (∀ h sa ty dty d a, ty.isFloat = false → RunsOr (.cvtf h sa ty dty d a) h { src := [a], dst := [d] }
    (fun _ _ v => toW d (roundF (cvtFmt dty) (.fin (wrap (src v 0) (cvtBits ty)) 0)))) ∧
  (∀ h sa ty dty d a, ty.isFloat = true → RunsOr (.cvtf h sa ty dty d a) h { src := [a], dst := [d] } (fun _ _ v =>
    if (floatToInt (cvtBits dty) (valF (cvtFmt ty) (wrap (src v 0) (cvtBits ty)))).2 = false then
      toW d (floatToInt (cvtBits dty) (valF (cvtFmt ty) (wrap (src v 0) (cvtBits ty)))).1
    else if sa then { wr := [wrW d (floatToInt (cvtBits dty) (valF (cvtFmt ty) (wrap (src v 0) (cvtBits ty)))).1], sat := 1 }
    else raises 7)) ∧
  (∀ h d a b, Runs (.rng h d a b) h { srcP := [a, b], dstP := [d] } (fun s t _ =>
    toPair d (pair (flourish (s.reg t a) (s.reg t (a + 1)) (s.reg t b) (s.reg t (b + 1))).1
      (flourish (s.reg t a) (s.reg t (a + 1)) (s.reg t b) (s.reg t (b + 1))).2)))

/-- Float instructions (R197, R201-R208): each result is the exact value of the operation on the operands' values, rounded
once: FADD, FSUB, FMUL, FFMA, FMIN, FMAX, FNEG, FABS, FSCL, FRND, FCVT (both ways), FCLASS, FCMP. -/
def Obligations.FloatArithmetic : Prop :=
  (∀ h f d a b, Runs (.fadd h f d a b) h { src := [a, b], dst := [d] }
    (fun _ _ v => toW d (perFmt f (fun m x y _ => roundF m (addV (valF m x) (valF m y))) (src v 0) (src v 1) 0))) ∧
  (∀ h f d a b, Runs (.fsub h f d a b) h { src := [a, b], dst := [d] }
    (fun _ _ v => toW d (perFmt f (fun m x y _ => roundF m (addV (valF m x) (negV (valF m y)))) (src v 0) (src v 1) 0))) ∧
  (∀ h f d a b, Runs (.fmul h f d a b) h { src := [a, b], dst := [d] }
    (fun _ _ v => toW d (perFmt f (fun m x y _ => roundF m (mulV (valF m x) (valF m y))) (src v 0) (src v 1) 0))) ∧
  (∀ h f d a b c, Runs (.ffma h f d a b c) h { src := [a, b, c], dst := [d] }
    (fun _ _ v => toW d (perFmt f (fun m x y z => roundF m (addV (mulV (valF m x) (valF m y)) (valF m z))) (src v 0) (src v 1) (src v 2)))) ∧
  (∀ h f d a b, Runs (.fmin h f d a b) h { src := [a, b], dst := [d] }
    (fun _ _ v => toW d (perFmt f (fun m x y _ => roundF m (minV (valF m x) (valF m y))) (src v 0) (src v 1) 0))) ∧
  (∀ h f d a b, Runs (.fmax h f d a b) h { src := [a, b], dst := [d] }
    (fun _ _ v => toW d (perFmt f (fun m x y _ => roundF m (maxV (valF m x) (valF m y))) (src v 0) (src v 1) 0))) ∧
  (∀ h f d a, Runs (.fneg h f d a) h { src := [a], dst := [d] }
    (fun _ _ v => toW d (perFmt f (fun m x _ _ => roundF m (negV (valF m x))) (src v 0) 0 0))) ∧
  (∀ h f d a, Runs (.fabs h f d a) h { src := [a], dst := [d] }
    (fun _ _ v => toW d (perFmt f (fun m x _ _ => roundF m (absV (valF m x))) (src v 0) 0 0))) ∧
  (∀ h f d a b imm, Runs (.fscl h f d a b imm) h { src := [a, b], dst := [d] }
    (fun _ _ v => toW d (perFmt f (fun m x y _ => roundF m (scaleV (y + imm) (valF m x))) (src v 0) (src v 1) 0))) ∧
  (∀ h f d a imm, Runs (.frnd h f d a imm) h { src := [a], dst := [d] }
    (fun _ _ v => toW d (perFmt f (fun m x _ _ => roundF m (rndV imm (valF m x))) (src v 0) 0 0))) ∧
  (∀ h d a, Runs (.fcvtF9 h d a) h { src := [a], dst := [d] } (fun _ _ v => toW d (roundF f9 (valF f27 (src v 0))))) ∧
  (∀ h d a, Runs (.fcvtF27 h d a) h { src := [a], dst := [d] } (fun _ _ v => toW d (roundF f27 (valF f9 (part (src v 0) 0))))) ∧
  (∀ h f d a, Runs (.fclass h f d a) h { src := [a], dst := [d] }
    (fun _ _ v => toW d (perFmt f (fun m x _ _ => classF m x) (src v 0) 0 0))) ∧
  (∀ h d a b, Runs (.fcmp h .word d a b) h { src := [a, b], preds := [d, d + 1] } (fun _ _ v =>
    { wr := [.pred d (fcmpTrits (valF f27 (src v 0)) (valF f27 (src v 1))).1,
             .pred (d + 1) (fcmpTrits (valF f27 (src v 0)) (valF f27 (src v 1))).2] })) ∧
  (∀ h d a b, Runs (.fcmp h .s9 d a b) h { src := [a, b], preds := [d, d + 1] } (fun _ _ v =>
    { wr := [.pred d (fcmpTrits (valF f9 (part (src v 0) 0)) (valF f9 (part (src v 1) 0))).1,
             .pred (d + 1) (fcmpTrits (valF f9 (part (src v 0) 0)) (valF f9 (part (src v 1) 0))).2] })) ∧
  (∀ h d a b, Runs (.fcmp h .t3 d a b) h { src := [a, b], preds := (List.range 6).map (d + ·) } (fun _ _ v =>
    { wr := (List.range 3).flatMap (fun j => [.pred (d + 2 * j) (fcmpTrits (valF f9 (part (src v 0) j)) (valF f9 (part (src v 1) j))).1,
             .pred (d + 2 * j + 1) (fcmpTrits (valF f9 (part (src v 0) j)) (valF f9 (part (src v 1) j))).2]) }))

/-- Float functions (R209-R211): the unit retires and its result, exactly rounded, follows: FDIV, FRCP, FSQRT, FRSQ, FEXP,
FEXP3, FLOG, FLOG3, FSIN, FCOS, FTANH, FSIGM, FERF. -/
def Obligations.FloatFunctions : Prop :=
  (∀ h f d a b, Runs (.fdiv h f d a b) h { src := [a, b], dst := [d] }
    (fun _ _ v => later d (perFmt f (fun m x y _ => divV m (valF m x) (valF m y)) (src v 0) (src v 1) 0))) ∧
  (∀ h f d a, Runs (.frcp h f d a) h { src := [a], dst := [d] }
    (fun _ _ v => later d (perFmt f (fun m x _ _ => divV m (.fin 1 0) (valF m x)) (src v 0) 0 0))) ∧
  (∀ h f d a, Runs (.fsqrt h f d a) h { src := [a], dst := [d] }
    (fun _ _ v => later d (perFmt f (fun m x _ _ => sqrtV m (valF m x)) (src v 0) 0 0))) ∧
  (∀ h f d a, Runs (.frsq h f d a) h { src := [a], dst := [d] }
    (fun _ _ v => later d (perFmt f (fun m x _ _ => rsqV m (valF m x)) (src v 0) 0 0))) ∧
  (∀ h f d a, Runs (.fexp h f d a) h { src := [a], dst := [d] }
    (fun _ _ v => later d (perFmt f (fun m x _ _ => fnV m .exp (valF m x)) (src v 0) 0 0))) ∧
  (∀ h f d a, Runs (.fexp3 h f d a) h { src := [a], dst := [d] }
    (fun _ _ v => later d (perFmt f (fun m x _ _ => fnV m .exp3 (valF m x)) (src v 0) 0 0))) ∧
  (∀ h f d a, Runs (.flog h f d a) h { src := [a], dst := [d] }
    (fun _ _ v => later d (perFmt f (fun m x _ _ => fnV m .ln (valF m x)) (src v 0) 0 0))) ∧
  (∀ h f d a, Runs (.flog3 h f d a) h { src := [a], dst := [d] }
    (fun _ _ v => later d (perFmt f (fun m x _ _ => fnV m .log3 (valF m x)) (src v 0) 0 0))) ∧
  (∀ h f d a, Runs (.fsin h f d a) h { src := [a], dst := [d] }
    (fun _ _ v => later d (perFmt f (fun m x _ _ => fnV m .sin (valF m x)) (src v 0) 0 0))) ∧
  (∀ h f d a, Runs (.fcos h f d a) h { src := [a], dst := [d] }
    (fun _ _ v => later d (perFmt f (fun m x _ _ => fnV m .cos (valF m x)) (src v 0) 0 0))) ∧
  (∀ h f d a, Runs (.ftanh h f d a) h { src := [a], dst := [d] }
    (fun _ _ v => later d (perFmt f (fun m x _ _ => fnV m .tanh (valF m x)) (src v 0) 0 0))) ∧
  (∀ h f d a, Runs (.fsigm h f d a) h { src := [a], dst := [d] }
    (fun _ _ v => later d (perFmt f (fun m x _ _ => fnV m .sigm (valF m x)) (src v 0) 0 0))) ∧
  (∀ h f d a, Runs (.ferf h f d a) h { src := [a], dst := [d] }
    (fun _ _ v => later d (perFmt f (fun m x _ _ => fnV m .erf (valF m x)) (src v 0) 0 0)))

/-- FDIV, FRCP, FSQRT and FRSQ are correctly rounded (R209, R210): on every finite operand of either format the result is the encoding
that R41 gives of the exact real value A / B, 1 / A, sqrt A or 1 / sqrt A. Sums and products are exact before they are rounded (R197, R201). -/
def Obligations.FloatRounding : Prop :=
  ∀ f ∈ [f27, f9], ∀ x y m e n g, valF f x = .fin m e → valF f y = .fin n g →
    (n ≠ 0 → Rounds f (((m : ℝ) * 3 ^ e) / ((n : ℝ) * 3 ^ g)) (divV f (valF f x) (valF f y))) ∧
    (n ≠ 0 → Rounds f (1 / ((n : ℝ) * 3 ^ g)) (divV f (.fin 1 0) (valF f y))) ∧
    (0 ≤ m → Rounds f (Real.sqrt ((m : ℝ) * 3 ^ e)) (sqrtV f (valF f x))) ∧
    (0 < m → Rounds f (1 / Real.sqrt ((m : ℝ) * 3 ^ e)) (rsqV f (valF f x))) ∧
    Rounds f ((m : ℝ) * 3 ^ e + (n : ℝ) * 3 ^ g) (roundF f (addV (valF f x) (valF f y))) ∧
    Rounds f ((m : ℝ) * 3 ^ e * ((n : ℝ) * 3 ^ g)) (roundF f (mulV (valF f x) (valF f y))) ∧
    (n = 0 → divV f (valF f x) (valF f y) = nanF f) ∧ (m < 0 → sqrtV f (valF f x) = nanF f ∧ rsqV f (valF f x) = nanF f) ∧
    (m = 0 → rsqV f (valF f x) = infF f 1)

/-- Transfers and the meeting register's read (R262-R264, R268): BR, CALL, RET, MOVMR.get. The unit index of a transfer must
lie in device space (R261); CALL writes the index of the next unit to its pair. -/
def Obligations.Transfers : Prop :=
  (∀ h imm, RunsOr (.br h imm) h {} (fun s _ _ =>
    if deviceIndex (s.cur.n + effImm h imm) then { wr := [.jump (s.cur.n + effImm h imm)] } else raises 6)) ∧
  (∀ h d imm, RunsOr (.call h d imm) h { dstP := [d] } (fun s _ _ =>
    if deviceIndex (s.cur.n + effImm h imm) then { wr := [.pair d (s.cur.n + 1), .jump (s.cur.n + effImm h imm)] } else raises 6)) ∧
  (∀ h a, RunsOr (.ret h a) h { srcP := [a] } (fun s t _ =>
    if deviceIndex (s.regPair t a) then { wr := [.jump (s.regPair t a)] } else raises 6)) ∧
  (∀ h d, Runs (.movmrGet h d) h { dstP := [d] } (fun s t _ => toPair d (s.thread t).mr))

/-- Reads of the machine's own state (R241, R251, R257, R297, R313, R344, R396): TNOW, QSTAT, DSTAT, FSTAT, MBUDG, SCRH
and CSRR of every control register of R397. Writes of the meeting register (R267, R268): SETMR, SETMR.clr,
MOVMR.put. -/
def Obligations.StatusAndMeeting : Prop :=
  ((∀ h d, Runs (.tnow h d) h { dstP := [d] } (fun s _ _ => toPair d (s.dieSt (s.ownKey (dieIdx (coreOf s.cur.warp)))).clk)) ∧
  (∀ h d a, Runs (.qstat h d a) h { dst := [d], names := [a], forbid := true } (fun s _ _ =>
    toW d ((if s.portClosed (coreOf s.cur.warp) (s.warp s.cur.warp).ctx (a - 216) then pow3 18 else 0)
      + (s.portRoom (coreOf s.cur.warp) (s.warp s.cur.warp).ctx (s.warp s.cur.warp).bid (a - 216) : Int) * pow3 9
      + ((s.port (coreOf s.cur.warp) (a - 216)).length : Int)))) ∧
  (∀ h d, Runs (.dstat h d) h { dst := [d] } (fun s t _ =>
    toW d ((s.thread t).dinfo * pow3 9 + ((s.warp s.cur.warp).draft.depth : Int) * pow3 6 + (s.thread t).dcode))) ∧
  (∀ h k d a off, Runs (.fstat h k d a off) h { srcR := [a], dstR := [d], forbid := true } (fun s t _ =>
    if 0 ≤ s.reg t a + off ∧ s.reg t a + off < ((s.launchOf s.cur.warp).folios : Int) then
      { wr := [.reg d (folioEntry (s.folio (coreOf s.cur.warp) (s.reg t a + off).toNat) k)] }
    else raises 14)) ∧
  (∀ h d, Runs (.mbudg h d) h { dstP := [d], forbid := true } (fun s _ _ =>
    toPair d (pair (s.budgetOf (coreOf s.cur.warp)) (s.dieSt (s.ownKey (dieIdx (coreOf s.cur.warp)))).budgF))) ∧
  (∀ h d, Runs (.scrh h d) h { dstR := [d], forbid := true } (fun s _ _ =>
    { wr := [.reg d (s.scribeStatus (coreOf s.cur.warp))] })) ∧
  (∀ h d n i, csrInfo n = some i → i.isPair = false → Runs (.csrr h d n) h
    { dstR := [d], level := if i.read = .handler then .handler else .sup, forbid := true } (fun s t _ => { wr := [.reg d (s.csr t n)] })) ∧
  (∀ h d n i, csrInfo n = some i → i.isPair = true → Runs (.csrr h d n) h
    { dstP := [d], level := if i.read = .handler then .handler else .sup, forbid := true } (fun s t _ => toPair d (s.csr t n)))) ∧
  ((∀ h imm, RunsMeet (.setmr h imm) h {} (fun s _ _ => { wr := [.mr (wrap (s.cur.n + imm) 52)] })) ∧
  (∀ h, RunsMeet (.setmrClr h) h {} (fun _ _ _ => { wr := [.mr 0] })) ∧
  (∀ h a, RunsMeet (.movmrPut h a) h { srcP := [a] } (fun s t _ => { wr := [.mr (wrap (s.regPair t a) 52)] })))

/-- Forms that only retire, or that touch the core's own caches and fetch (R225, R227, R273, R274, R279-R281, R303):
YLD, which notes that its warp stands back until 27 ns later at the longest (the issue cycles of R273 taken as nanoseconds: DESIGN
CHOICE, log 42); NOP, its guard unread; MRDY, INV.all; ICPF, which asks for the lines that the cache lacks and no fill is under
way for; IFENCE, which retires once its
warp's loads are done and else waits for them, no line fetched; ICINV, ICINV.all. A hint retires in every lane of the
group, its guard unread (R164). -/
def Obligations.RetiringForms : Prop :=
  ((∀ h, Acts (.yld h) h {} always ret (fun a _ =>
    a.setWarp a.cur.warp { a.warp a.cur.warp with yld := some (a.stamp, a.now (coreOf a.cur.warp) + 27) })) ∧
  (∀ h, Acts (.nop h) { h with gcond := 0 } {} always ret (fun a _ => a)) ∧
  (∀ h, Acts (.mrdy h) h { forbid := true } always ret (fun a _ => a)) ∧
  (∀ h, Acts (.invAll h) h {} always ret (fun a _ => a.l1CleanAll (coreOf a.cur.warp))) ∧
  (∀ h cnt imm, Acts (.icpf h cnt imm) h {} always ret (fun a _ =>
    ((List.range (cnt + 1)).filter (fun (i : Nat) =>
      let l := shr (a.cur.n + imm) 2 + (i : Int)
      (a.icLine (coreOf a.cur.warp) l).isNone && !a.fillUnderWay (coreOf a.cur.warp) l && decide (spaceOf (81 * l) = 1) && a.ownerOk (81 * l))).foldl (fun x (i : Nat) =>
        let l := shr (a.cur.n + imm) 2 + (i : Int)
        x.addReq { id := 0, kind := .icpf l, ctx := (a.warp a.cur.warp).ctx, core := coreOf a.cur.warp, warp := a.cur.warp, lane := 16
                   pc := a.cur.first, ea := 81 * l, own := ownerOf (81 * l) }) a)) ∧
  (∀ h, Acts (.ifence h) h { forbid := true } (fun a _ => a.loadsDone a.cur.warp = true) ret
    (fun a _ => a.setWarp a.cur.warp { a.warp a.cur.warp with fetch := none })) ∧
  (∀ h, Acts (.ifence h) h { forbid := true } (fun a _ => a.loadsDone a.cur.warp = false) (wait (fun _ => .fence .dflt false true 0))
    (fun a _ => (a.setWarp a.cur.warp { a.warp a.cur.warp with fetch := none }).keepsGuards)) ∧
  (∀ h imm, Acts (.icinv h imm) h { forbid := true } always ret (fun a _ =>
    let c := coreOf a.cur.warp
    let line := shr (a.cur.n + imm) 2
    (a.setCore c { a.core c with ic := Tab.del (ikey line) (a.core c).ic }).dropCode c (fun l => decide (l = line)))) ∧
  (∀ h, Acts (.icinvAll h) h { forbid := true } always ret (fun a _ =>
    (a.setCore (coreOf a.cur.warp) { a.core (coreOf a.cur.warp) with ic := [] }).dropCode (coreOf a.cur.warp) (fun _ => true)))) ∧
  (∀ raw s, Plain s → ∃ t, exec (.hint raw) s = .next t ∧ (∀ l ∈ s.cur.lanes, t.thread (s.lane l) = (s.atIssue l).retired s.cur.next) ∧
    (∀ k, (∀ l ∈ s.cur.lanes, k ≠ s.lane l) → t.thread k = s.thread k) ∧ t = { s with thr := t.thr, stamp := s.stamp + 1 })

/-- The state in which a unit's active lanes act is the state before, with every lane of the group at its issue and its
inactive lanes retired (R151, R152). -/
def Obligations.InactiveLanes : Prop :=
  ∀ s h, Plain s → Start s (s.opened h) h

/-- Folio and configuration forms of the Nib (R293-R298): MCFG with usable scales, RING, FSET.ready and FSET.empty on a folio
that the table of R298 lets change. -/
def Obligations.NibConfiguration : Prop :=
  (∀ h a g, Acts (.mcfg h a g) h { srcR := [a], forbid := true }
    (fun s act => ∀ j, j < 3 → (useScale (part (s.reg (s.low act) a) j)).2 = false) ret (fun s act =>
      let w := s.reg (s.low act) a
      let sa := (useScale (part w 0)).1
      let sb := (useScale (part w 1)).1
      let so := (useScale (part w 2)).1
      s.setSlot (coreOf s.cur.warp) g.slot { s.slotOf (coreOf s.cur.warp) g.slot with
        atype := g.atype, btype := g.btype, otype := g.otype, pa := g.pa, pb := g.pb, otag := g.otag
        sa := sa, sb := sb, so := so, s := combScale sa sb so })) ∧
  (∀ h r first count, Acts (.ring h r first count) h { forbid := true }
    (fun s _ => let c := coreOf s.cur.warp
      (∀ f, f ∈ (List.range count).map (first + ·) ++ (s.ringOf c r).mem → (s.folio c f).st ≠ 1 ∧ (s.folio c f).st ≠ 3) ∧
      ∀ i, i < count → ((s.folio c (first + i)).ring = 0 ∨ (s.folio c (first + i)).ring = r + 1) ∧ first + i < (s.launchOf s.cur.warp).folios)
    ret (fun s _ =>
      let c := coreOf s.cur.warp
      let s1 := (s.ringOf c r).mem.foldl (fun a f => a.setFolio c f { a.folio c f with st := 0, ring := 0, slot := 0 }) s
      let s2 := ((List.range count).map (first + ·)).zipIdx.foldl (fun a p => a.setFolio c p.1 { a.folio c p.1 with st := 0, ring := r + 1, slot := p.2 }) s1
      s2.setRing c r { mem := (List.range count).map (first + ·) })) ∧
  (∀ h full a b off, Acts (.fsetReady h full a b off) h { srcR := [a, b], forbid := true }
    (fun s act => 0 ≤ s.reg (s.low act) a + off ∧ s.reg (s.low act) a + off < (s.launchOf s.cur.warp).folios ∧
      (s.fset (coreOf s.cur.warp) (s.reg (s.low act) a + off).toNat true).isSome = true) ret (fun s act =>
      let c := coreOf s.cur.warp
      let f := (s.reg (s.low act) a + off).toNat
      let s1 := (s.fset c f true).getD s
      s1.setFolio c f { s1.folio c f with stag := wrap (s.reg (s.low act) b) 9
                                          nz := if full then List.replicate 9 729 else (s1.folio c f).nz })) ∧
  (∀ h full a off, Acts (.fsetEmpty h full a off) h { srcR := [a], forbid := true }
    (fun s act => 0 ≤ s.reg (s.low act) a + off ∧ s.reg (s.low act) a + off < (s.launchOf s.cur.warp).folios ∧
      (s.fset (coreOf s.cur.warp) (s.reg (s.low act) a + off).toNat false).isSome = true) ret (fun s act =>
      let c := coreOf s.cur.warp
      let f := (s.reg (s.low act) a + off).toNat
      let s1 := (s.fset c f false).getD s
      s1.setFolio c f { s1.folio c f with nz := if full then List.replicate 9 729 else (s1.folio c f).nz }))

/-- The Nib's commands (R299-R308): MZERO, MLOOP, MDRAIN, QSCALE are queued and their lanes retire; FITR is queued and its
lanes wait for it. -/
def Obligations.NibCommands : Prop :=
  (∀ h slot, Acts (.mzero h slot) h { forbid := true } (fun s _ => s.nibRoom s.cur.warp = true) ret
    (fun s act => s.nibPush s.cur.warp act slot .zero none false false)) ∧
  (∀ h bhold tok a slot ra rb kc, Acts (.mloop h bhold tok a slot ra rb kc) h { srcR := [a], forbid := true }
    (fun s act => let c := coreOf s.cur.warp
      1 ≤ (kc : Int) + s.reg (s.low act) a ∧ (kc : Int) + s.reg (s.low act) a ≤ 729 ∧ (s.ringOf c ra).mem ≠ [] ∧ (s.ringOf c rb).mem ≠ [] ∧
      ra ≠ rb ∧ mtypeOk (s.slotOf c slot) = true ∧ s.nibRoom s.cur.warp = true ∧ cntOf .tl (s.warp s.cur.warp) < 242) ret
    (fun s act => let x := s.slotOf (coreOf s.cur.warp) slot
      s.nibPush s.cur.warp act slot (.loop ra rb ((kc : Int) + s.reg (s.low act) a).toNat bhold x.atype x.btype x.pa x.pb.planes)
        (if tok then some x.otag else none) true false)) ∧
  (∀ h o, Acts (.mdrain h o) h
    { (if o.drop then { srcP := [o.a], srcR := [o.b, o.c] } else if o.res then { srcR := [o.c] } else {} : Uses) with forbid := true }
    (fun s act => let c := coreOf s.cur.warp
      (s.ringOf c o.ro).mem ≠ [] ∧ (o.res = true → (s.ringOf c o.rr).mem ≠ [] ∧ o.ro ≠ o.rr ∧ (useScale (part (s.reg (s.low act) o.c) 0)).2 = false) ∧
      mtypeOk (s.slotOf c o.slot) = true ∧ s.nibRoom s.cur.warp = true ∧ cntOf .tl (s.warp s.cur.warp) < 242) ret
    (fun s act => let x := s.slotOf (coreOf s.cur.warp) o.slot
      let t := s.low act
      s.nibPush s.cur.warp act o.slot (.drain o x.otype x.s x.so (combScale (useScale (part (s.reg t o.c) 0)).1 unitScale x.so)
        (s.reg t o.a) (s.reg t (o.a + 1)) (s.reg t o.b) (part (s.reg t o.c) 1) x.otag) (if o.tok then some x.otag else none) true false)) ∧
  (∀ h tok d c slot, Acts (.qscale h tok d c slot) h { dstR := [d], preds := [c], forbid := true }
    (fun s _ => mtypeOk (s.slotOf (coreOf s.cur.warp) slot) = true ∧ (s.slotOf (coreOf s.cur.warp) slot).otype ≠ .f9 ∧
      (useScale (s.slotOf (coreOf s.cur.warp) slot).sa).2 = false ∧ (useScale (s.slotOf (coreOf s.cur.warp) slot).sb).2 = false ∧
      s.nibRoom s.cur.warp = true ∧ cntOf .tl (s.warp s.cur.warp) < 242) ret
    (fun s act => let x := s.slotOf (coreOf s.cur.warp) slot
      s.nibPush s.cur.warp act slot (.qscale d c (useScale x.sa).1 (useScale x.sb).1 x.otype) (if tok then some x.otag else none) true false)) ∧
  (∀ h clr d slot, Acts (.fitr h clr d slot) h { dstR := [d], forbid := true } (fun s _ => s.nibRoom s.cur.warp = true)
    (wait (fun s => .nib s.nextId)) (fun s act => s.nibPush s.cur.warp act slot (.fitr d clr) none false false))

/-- Copies at their issue (R318-R326): CPY, CPYS, CPYG, CPYX, CPYC, CPYV whose operands the checks of R321 accept are queued
on the core, and their lanes retire. -/
def Obligations.CopyIssue : Prop :=
  (∀ h o d a b, Acts (.cpy h o d a b) h { cpUses o d a [] [b] with forbid := true }
    (fun s act => copyRoom s ∧ 0 ≤ s.reg (s.low act) b ∧ s.reg (s.low act) b ≤ 1594323 ∧ copyOk s o true
      { s.newCopy act with src := s.regPair (s.low act) a, dst := s.regPair (s.low act) d, count := (s.reg (s.low act) b).toNat }) ret
    (fun s act => s.withCopy { s.newCopy act with
      o := o, src := s.regPair (s.low act) a, dst := s.regPair (s.low act) d, count := (s.reg (s.low act) b).toNat })) ∧
  (∀ h o d a c, Acts (.cpys h o d a c) h { cpUses o d a [] [c] with forbid := true }
    (fun s act => let ws := s.scrTable (coreOf s.cur.warp) (s.reg (s.low act) c) 12
      copyRoom s ∧ ws.length = 12 ∧ (∀ v ∈ ws.take 4, 1 ≤ v) ∧ (ws.take 4).prod ≤ 1594323 ∧ o.mode ≠ .up6 ∧ o.mode ≠ .pk6 ∧ o.mode ≠ .sqp ∧
      copyOk s o false (s.newCopy act)) ret
    (fun s act => let ws := s.scrTable (coreOf s.cur.warp) (s.reg (s.low act) c) 12
      s.withCopy { s.newCopy act with o := o, src := s.regPair (s.low act) a, dst := s.regPair (s.low act) d
                                      count := (ws.take 4).prod.toNat, form := .strided (ws.take 4) ((ws.drop 4).take 4) (ws.drop 8) })) ∧
  (∀ h o d a b c, Acts (.cpyg h o d a b c) h { cpUses o d a [b] [c] with forbid := true }
    (fun s act => let v := s.reg (s.low act) c
      copyRoom s ∧ 1 ≤ fld v 0 9 ∧ fld v 0 9 ≤ 729 ∧ 1 ≤ fld v 9 9 ∧ fld v 0 9 * fld v 9 9 ≤ 1594323 ∧ o.mode ≠ .up6 ∧ o.mode ≠ .pk6 ∧
      o.mode ≠ .sqp ∧ copyOk s o false (s.newCopy act)) ret
    (fun s act => let v := s.reg (s.low act) c
      s.withCopy { s.newCopy act with
        o := o, src := s.regPair (s.low act) a, dst := s.regPair (s.low act) d, count := (fld v 0 9 * fld v 9 9).toNat, rowLen := (fld v 0 9).toNat
        form := .gather, idxPort := if isPort b then some (b - 216) else none
        idxs := if isPort b then [] else s.scrTable (coreOf s.cur.warp) (s.reg (s.low act) b) (fld v 9 9).toNat })) ∧
  (∀ h o d a b c, Acts (.cpyx h o d a b c) h { cpUses o d a [b] [c] with forbid := true }
    (fun s act => let v := s.reg (s.low act) c
      copyRoom s ∧ 1 ≤ fld v 0 9 ∧ fld v 0 9 ≤ 729 ∧ 1 ≤ fld v 9 9 ∧ fld v 0 9 * fld v 9 9 ≤ 1594323 ∧ o.mode ≠ .up6 ∧ o.mode ≠ .pk6 ∧
      o.mode ≠ .sqp ∧ o.mode ≠ .q ∧ copyOk s o false (s.newCopy act)) ret
    (fun s act => let v := s.reg (s.low act) c
      s.withCopy { s.newCopy act with
        o := o, src := s.regPair (s.low act) a, dst := s.regPair (s.low act) d, count := (fld v 0 9 * fld v 9 9).toNat, rowLen := (fld v 0 9).toNat
        form := .scatter, idxPort := if isPort b then some (b - 216) else none
        idxs := if isPort b then [] else s.scrTable (coreOf s.cur.warp) (s.reg (s.low act) b) (fld v 9 9).toNat })) ∧
  (∀ h tok tag d a b, Acts (.cpyc h tok tag d a b) h { srcP := [d, a], srcR := [b], forbid := true }
    (fun s act => let n := s.reg (s.low act) b
      let ctx := (s.warp s.cur.warp).ctx
      copyRoom s ∧ 1 ≤ n ∧ n ≤ 2187 ∧ s.endsFate ctx (.tern .tr) false (s.regPair (s.low act) a) (729 * n.toNat) = none ∧
      s.endsFate ctx (.tern .tr) true (s.regPair (s.low act) d) (729 * n.toNat) = none ∧ fld (s.regPair (s.low act) d) 0 6 = 0) ret
    (fun s act => s.withCopy { s.newCopy act with o := tryteOpt tok tag, form := .chunks, src := s.regPair (s.low act) a
                                                  dst := s.regPair (s.low act) d, count := (s.reg (s.low act) b).toNat })) ∧
  (∀ h tok tag d a b, Acts (.cpyv h tok tag d a b) h { srcP := [d, a], srcR := [b], level := .sup, forbid := true }
    (fun s act => let n := s.reg (s.low act) b
      let src := s.regPair (s.low act) a
      let dst := s.regPair (s.low act) d
      copyRoom s ∧ 1 ≤ n ∧ n ≤ 43046721 ∧ s.userLive (s.ctx (s.warp s.cur.warp).ctx).part = false ∧
      s.endsFate (s.warp s.cur.warp).ctx (.tern .tr) false src n.toNat = none ∧ regionOf src = .device ∧ regionOf (src + n - 1) = .device ∧
      regionOf dst = .vellum ∧ regionOf (dst + n - 1) = .vellum) ret
    (fun s act => s.withCopy { s.newCopy act with o := tryteOpt tok tag, form := .vellum, src := s.regPair (s.low act) a
                                                  dst := s.regPair (s.low act) d, count := (s.reg (s.low act) b).toNat }))

/-- Control registers written, causes cleared, HALT (R396, R397, R406, R408): CSRW of a thread's own registers in every
active lane, of any other register once from the lowest active lane; CLRC; HALT retires while a port holds a record. -/
def Obligations.ControlWrites : Prop :=
  (∀ h a n i, csrInfo n = some i → n ≤ 6 → i.write ≠ .never → Acts (.csrw h a n) h
    { srcP := [a], level := if i.write = .handler then .handler else .sup, forbid := true }
    (fun s act => ∀ l ∈ act, csrOk n (s.regPair (s.lane l) a) = true)
    (fun s l x => (x.retired s.cur.next).putCsr n (s.regPair (s.lane l) a)) (fun s _ => s)) ∧
  (∀ h a n i, csrInfo n = some i → 6 < n → i.isPair = true → i.write ≠ .never → ActsEnd (.csrw h a n) h
    { srcP := [a], level := if i.write = .handler then .handler else .sup, forbid := true }
    (fun s act => csrOk n (s.regPair (s.low act) a) = true) ret (fun s act => s.setCsr (s.low act) n (s.regPair (s.low act) a))) ∧
  (∀ h a n i, csrInfo n = some i → 6 < n → i.isPair = false → i.write ≠ .never → ActsEnd (.csrw h a n) h
    { srcR := [a], level := if i.write = .handler then .handler else .sup, forbid := true }
    (fun s act => csrOk n (s.reg (s.low act) a) = true) ret (fun s act => s.setCsr (s.low act) n (s.reg (s.low act) a))) ∧
  (∀ h mask, Acts (.clrc h mask) h { level := .handler, forbid := true } always
    (fun s _ x => { x.retired s.cur.next with cause := (List.range 27).foldl (fun v i => if trit mask i = 1 then setFld v i 1 0 else v) x.cause })
    (fun s _ => s)) ∧
  (∀ h, Acts (.halt h) h { level := .sup, forbid := true }
    (fun s _ => ∃ q ∈ [13, 15, 16, 17], s.port (coreOf s.cur.warp) q ≠ []) ret (fun s _ => s)) ∧
  (∀ h, Acts (.halt h) h { level := .sup, forbid := true }
    (fun s _ => ∀ q ∈ [13, 15, 16, 17], s.port (coreOf s.cur.warp) q = []) (wait (fun _ => .timed false)) (fun s _ => s))

/-- What reads of registers give. A special register has its value in each thread (R59). A control register (R397): a thread's own, its
context's, its partition's, its die's or the device's; a supervisor's read of one in XSEL's scope is of the context and the die that XSEL
names, zero for a context that does not exist, to which a write changes nothing. The Scribe's status (R344). -/
def Obligations.RegisterReads : Prop :=
  (∀ (s : State) (c k l : Nat), k < 28 → l < 16 → let t := 16 * (28 * c + k) + l
    s.reg t 234 = 0 ∧ s.reg t 235 = 16 * (k : Int) + (l : Int) ∧ s.reg t 236 = (l : Int) ∧ s.reg t 237 = (k : Int) ∧
    s.reg t 238 = ((s.warp (28 * c + k)).bid : Int) ∧ s.reg t 239 = ((s.core c).clid : Int) ∧ s.reg t 240 = ((c / 81 : Nat) : Int) ∧
    s.reg t 241 = (s.pkg : Int) ∧ s.reg t 242 = 16 * ((s.ctx (s.warp (28 * c + k)).ctx).lr.warps : Int) ∧
    ∀ r, r < 216 → s.reg t r = Tab.get 0 (s.thread t).regs r) ∧
  (∀ (s : State) t, let x := s.thread t; let w := s.warp (warpOf t); let own := s.ownKey (if isSup w.ctx = true ∧ fld w.xsel 6 3 ≠ 0 then
      (fld w.xsel 6 3 + 13).toNat else dieIdx (coreOf (warpOf t)))
    s.csr t 0 = x.cause ∧ s.csr t 1 = x.epc ∧ s.csr t 2 = x.emr ∧ s.csr t 3 = x.einfo ∧ s.csr t 4 = x.eaddr ∧ s.csr t 5 = x.hscr0 ∧
    s.csr t 6 = x.hscr1 ∧ s.csr t 16 = (if isSup w.ctx = true then 0 else (w.ctx : Int)) ∧ s.csr t 27 = w.xsel ∧
    s.csr t 28 = (s.part (s.ctx w.ctx).part).hangth ∧ s.csr t 29 = (s.dieSt own).budgF ∧ s.csr t 30 = 387597637) ∧
  (∀ (s : State) t n (f : Nat → Ctx → Int),
    ((n, f) ∈ [(9, fun _ x => x.tmask), (10, fun _ x => x.tvec), (11, fun _ x => x.hsave), (12, fun _ x => x.ftbase), (13, fun _ x => x.ftlen),
      (14, fun _ x => x.decbase), (15, fun _ x => pair x.k0 x.k1), (17, fun _ x => x.dbg), (18, fun _ x => x.waddr), (19, fun _ x => x.savebase)] ∨
      36 ≤ n ∧ n ≤ 45 ∧ f = fun d x => Tab.get 0 x.counters (16 * d + (n - 36))) →
    let w := s.warp (warpOf t)
    let own := dieIdx (coreOf (warpOf t))
    let k := wrap w.xsel 6
    let d := if isSup w.ctx = true ∧ fld w.xsel 6 3 ≠ 0 then (fld w.xsel 6 3 + 13).toNat else own
    ((isSup w.ctx = false ∨ k = 0) → s.csr t n = f d (s.ctx w.ctx)) ∧
    (isSup w.ctx = true → 0 < k → (s.ctx k.toNat).live = true → (s.ctx k.toNat).part = (s.ctx w.ctx).part → s.csr t n = f d (s.ctx k.toNat)) ∧
    (isSup w.ctx = true → 0 < k → ((s.ctx k.toNat).live = false ∨ (s.ctx k.toNat).part ≠ (s.ctx w.ctx).part) →
      s.csr t n = 0 ∧ ∀ v, s.setCsr t n v = s)) ∧
  (∀ (s : State) c, let v := s.scribeStatus c; let q := (s.core c).scribe.state
    let live := (threadsOf (28 * c + 27)).filter (fun t => decide ((s.thread t).st ≠ .exited))
    let held := (s.warp (28 * c + 27)).stopping = true ∨ (s.warp (28 * c + 27)).hm = true ∨ ∃ t ∈ live, (s.thread t).st = .stopped
    (q = 2 → fld v 25 2 + 4 = (if held then 3 else 2) ∧ wrap v 9 = (live.length : Int)) ∧ (q ≤ 1 → fld v 25 2 + 4 = (q : Int) ∧ wrap v 9 = 0) ∧
    fld v 9 16 = 0)

/-- A supervisor's forms on contexts (R410, R415, R431, R432, R434): KILL, PREEMPT, PREEMPT.blk, REPLAY and the three TLBI
forms, of a context of its partition and an owner that exists. -/
def Obligations.ContextControl : Prop :=
  (∀ h a, ActsEnd (.kill h a) h { srcR := [a], level := .sup, forbid := true }
    (fun s act => (s.namedCtx (s.reg (s.low act) a)).isSome = true) ret (fun s act =>
      let c := (s.namedCtx (s.reg (s.low act) a)).getD 0
      if (s.ctx c).killing then s else s.startKill c false)) ∧
  (∀ h a, ActsEnd (.preempt h a) h { srcR := [a], level := .sup, forbid := true }
    (fun s act => ∃ c, s.namedCtx (s.reg (s.low act) a) = some c ∧ (∀ p ∈ (s.ctx c).blk, isSaving p.2 = false) ∧
      saveBaseOk (s.ctx c).savebase = true) ret (fun s act =>
      let c := (s.namedCtx (s.reg (s.low act) a)).getD 0
      if (s.ctx c).killing then s else (List.range (s.ctx c).lr.blocks).foldl (fun x b => x.preemptOne c b) s)) ∧
  (∀ h a b, ActsEnd (.preemptBlk h a b) h { srcR := [a, b], level := .sup, forbid := true }
    (fun s act => ∃ c, s.namedCtx (s.reg (s.low act) a) = some c ∧ 0 ≤ s.reg (s.low act) b ∧ s.reg (s.low act) b < (s.ctx c).lr.blocks ∧
      s.blkSt c (s.reg (s.low act) b).toNat ≠ .ended ∧ isSaving (s.blkSt c (s.reg (s.low act) b).toNat) = false ∧ saveBaseOk (s.ctx c).savebase = true)
    ret (fun s act =>
      let c := (s.namedCtx (s.reg (s.low act) a)).getD 0
      if (s.ctx c).killing then s else s.preemptOne c (s.reg (s.low act) b).toNat)) ∧
  (∀ h d a b, ActsEnd (.replay h d a b) h { dstR := [d], srcR := [a, b], level := .sup, forbid := true }
    (fun s act => (s.namedCtx (s.reg (s.low act) a)).isSome = true ∧ (s.ownerWord (s.reg (s.low act) b)).isSome = true ∧
      ∀ r ∈ s.reqs, r.faulty = true → r.warp ≠ s.cur.warp)
    (fun s l x =>
      let t := s.low ((s.cur.lanes.filter (fun j => s.laneOn h (s.lane j))))
      let c := (s.namedCtx (s.reg t a)).getD 0
      let d' := s.dieSt ((s.ownerWord (s.reg t b)).getD 0)
      retW d (fun _ => (d'.fb.countP (fun e => decide (e.ctx = c)) : Int) + (if d'.dropped.contains c then pow3 9 else 0)) s l x)
    (fun s act =>
      let c := (s.namedCtx (s.reg (s.low act) a)).getD 0
      let own := (s.ownerWord (s.reg (s.low act) b)).getD 0
      let x := s.dieSt own
      let s1 := s.setDie own { x with fb := x.fb.filter (fun e => !s.answers c e.ctx), missed := x.missed.filter (fun e => !s.answers c e.ctx)
                                      dropped := x.dropped.filter (fun k => !s.answers c k) }
      let s2 := (s1.reqs.filter (fun r => r.faulty && s1.answers c r.ctx && decide (r.faultOwner = own))).foldl
        (fun y r => if isLaunch r.kind then y.wakeLaunch r else (y.setReq { r with stage := .owner }).wakeFetch r) s1
      (s2.recWaits c (fun ea => decide (ownerOf ea = own))).foldl (fun y e => y.wakeRec e)
        (s2.wakeEngines c (fun ea => decide (ownerOf ea = own)) (fun y k z => y.setCopy k { z with parked := none })
          (fun y bid => y.setSession c bid { y.session c bid with parked := none })))) ∧
  (∀ h a b, ActsEnd (.tlbi h a b) h { srcR := [a], srcP := [b], level := .sup, forbid := true }
    (fun s act => ∃ c own, s.namedCtx (s.reg (s.low act) a) = some c ∧ s.ownerAddr (s.regPair (s.low act) b) = some own ∧
      ∀ r ∈ s.reqs, r.inFlight = true → r.ctx = c → ∀ u ∈ r.uses, u.1 = own →
        shr u.2.2 u.2.1.width ≠ shr (offOf (s.regPair (s.low act) b)) u.2.1.width) ret (fun s act =>
      let c := (s.namedCtx (s.reg (s.low act) a)).getD 0
      let off := offOf (s.regPair (s.low act) b)
      let own := ownerOf (s.regPair (s.low act) b)
      let has (l : Leaf) (va : Int) : Bool := decide (shr va l.width = shr off l.width)
      let drop (e : TlbE) : Bool := decide (e.ctx = c) && has e.leaf e.va
      let x := s.dieSt own
      let gone := (x.tlb ++ x.tlb1.flatMap (·.2)).filter drop
      (s.setDie own { x with tlb := x.tlb.filter (fun e => !drop e), tlb1 := x.tlb1.map (fun q => (q.1, q.2.filter (fun e => !drop e))) }).forgetLines
        (fun y => decide (y = c)) (fun l => decide (ownerOf (81 * l) = own) && gone.any (fun e => has e.leaf (offOf (81 * l)))))) ∧
  (∀ h a b, ActsEnd (.tlbiCtx h a b) h { srcR := [a, b], level := .sup, forbid := true }
    (fun s act => ∃ c own, s.namedCtx (s.reg (s.low act) a) = some c ∧ s.ownerWord (s.reg (s.low act) b) = some own ∧
      ∀ r ∈ s.reqs, r.inFlight = true → r.ctx = c → ∀ u ∈ r.uses, u.1 ≠ own) ret (fun s act =>
      let c := (s.namedCtx (s.reg (s.low act) a)).getD 0
      (s.dropCtxTlb ((s.ownerWord (s.reg (s.low act) b)).getD 0) c).forgetLines (fun x => decide (x = c)) (fun _ => true))) ∧
  (∀ h b, ActsEnd (.tlbiDie h b) h { srcR := [b], level := .sup, forbid := true }
    (fun s act => ∃ own, s.ownerWord (s.reg (s.low act) b) = some own ∧ ∀ r ∈ s.reqs, r.inFlight = true → ∀ u ∈ r.uses, u.1 ≠ own) ret
    (fun s act =>
      let own := (s.ownerWord (s.reg (s.low act) b)).getD 0
      ((s.dropTlb own (fun _ => true)).reloadOwner own).forgetLines (fun _ => true) (fun _ => true)))

/-- A supervisor's answers and launches (R433, R443-R445): DENY; LAUNCH once its fence is complete and its record can be read,
with the reason of R444 as its status; LAUNCH.res of blocks that are held or saved whole, and of a context that does not
exist. -/
def Obligations.DenyAndLaunch : Prop :=
  (∀ h a b, ActsEnd (.deny h a b) h { srcR := [a], srcP := [b], level := .sup, forbid := true }
    (fun s act => (s.namedCtx (s.reg (s.low act) a)).isSome = true ∧ (s.ownerAddr (s.regPair (s.low act) b)).isSome = true ∧
      ∀ r ∈ s.reqs, r.faulty = true → r.warp ≠ s.cur.warp ∧ ∀ t ∈ r.thrs, warpOf t ≠ s.cur.warp) ret (fun s act =>
      let c := (s.namedCtx (s.reg (s.low act) a)).getD 0
      let ea := s.regPair (s.low act) b
      let own := ownerOf ea
      let pg (e : FbEnt) : Bool := s.answers c e.ctx && decide (e.page = pageOf ea)
      let s1 := s.setDie own { s.dieSt own with fb := (s.dieSt own).fb.filter (fun e => !pg e)
                                                missed := (s.dieSt own).missed.filter (fun e => !pg e) }
      let rs := s1.reqs.filter (fun r => r.faulty && s1.answers c r.ctx && decide (pageOf r.t = pageOf ea))
      let s2 := rs.foldl (fun y r =>
        match r.kind with
        | .launch d => r.thrs.foldl (fun z q => (z.retire q r.next).setReg q d (2 - pow3 26)) (y.wakeLaunch r)
        | k => if akind k = 3 then y.refuse r 6 0 else y.refuse r 5 (if akind k = 0 then 0 else 3)) s1
      ((s2.recWaits c (fun p => decide (pageOf p = pageOf ea))).foldl (fun y e => y.denyRec e) s2).wakeEngines c
        (fun p => decide (pageOf p = pageOf ea)) (fun y k z => y.stopCopy k z (if z.parkW then 3 else 0)) (fun y bid => y.rejectSession c bid))) ∧
  (∀ h d a, ∀ l : Leaf, ActsEnd (.launch h d a) h { dstR := [d], srcP := [a], level := .sup, forbid := true }
    (fun s act => let low := s.regPair (s.low act) a
      let sup := (s.warp s.cur.warp).ctx
      s.isFenced act .domain = true ∧ wrap (low + 364) 6 = 0 ∧ spaceOf low = 1 ∧ s.ownerOk low = true ∧ s.hasTables (ownerOf low) sup = true ∧
      (s.translate (ownerOf low) sup (coreOf s.cur.warp) (offOf low)).2 = .leaf l ∧ l.r = true)
    (fun s _ x => let act := s.cur.lanes.filter (fun j => s.laneOn h (s.lane j))
      (x.retired s.cur.next).putReg d (launchStatus (s.launchWhy act (s.regPair (s.low act) a) l)))
    (fun s act => let low := s.regPair (s.low act) a
      if s.launchWhy act low l = 0 then (s.launchSeen act low l).newCtx (s.ctx (s.warp s.cur.warp).ctx).part (s.launchRead act low l).2
      else s.launchSeen act low l)) ∧
  (∀ h d a b, ActsEnd (.launchRes h d a b) h { dstR := [d], srcR := [a, b], level := .sup, forbid := true }
    (fun s act => ∃ c, s.namedCtx (s.reg (s.low act) a) = some c ∧ (s.ctx c).killing = false ∧
      (s.reg (s.low act) b ≠ -1 → 0 ≤ s.reg (s.low act) b ∧ s.reg (s.low act) b < (s.ctx c).lr.blocks ∧
        s.resumable c (s.reg (s.low act) b).toNat = true) ∧
      ∀ i ∈ s.resumed c (s.reg (s.low act) b), (s.resSeen c (s.resumed c (s.reg (s.low act) b))).recTorn c i = false)
    (retW d (fun _ => pow3 26)) (fun s act =>
      let c := (s.namedCtx (s.reg (s.low act) a)).getD 0
      (s.resumed c (s.reg (s.low act) b)).foldl (fun y i => y.resumeOne c i) (s.resSeen c (s.resumed c (s.reg (s.low act) b))))) ∧
  (∀ h d a b, ActsEnd (.launchRes h d a b) h { dstR := [d], srcR := [a, b], level := .sup, forbid := true }
    (fun s act => s.namedCtx (s.reg (s.low act) a) = none) (retW d (fun _ => 9 - pow3 26)) (fun s _ => s))

/-- Fences and timed waits (R132, R240, R242, R243, R272): FENCE retires when its steps are done and waits for them else; TWAIT
retires when every lane's time has come, and waits for it while no lane's has; TALARM arms one alarm for each lane; WAIT
retires when its counters are low enough and waits else. -/
def Obligations.FencesAndWaits : Prop :=
  (∀ h o, Acts (.fence h o) h {}
    (fun s act => (s.fenceBegun h o act).2 = none) ret (fun s act => (s.fenceBegun h o act).1)) ∧
  (∀ h o ph, Acts (.fence h o) h {}
    (fun s act => (s.fenceBegun h o act).2 = some ph)
    (wait (fun _ => .fence (fenceScope (effScope h o.scope)) (ordRel (effOrd h o.ord)) true ph))
    (fun s act => (s.fenceBegun h o act).1.keepsGuards)) ∧
  (∀ h w sc imm, Acts (.twait h w sc imm) h { srcP := whenUses w }
    (fun s act => ∀ l ∈ act, s.dueAt (s.lane l) w (effImm h imm) sc ≤ s.now (coreOf s.cur.warp)) ret (fun s _ => s)) ∧
  (∀ h w sc imm, Acts (.twait h w sc imm) h { srcP := whenUses w }
    (fun s act => ∀ l ∈ act, s.now (coreOf s.cur.warp) < s.dueAt (s.lane l) w (effImm h imm) sc)
    (fun s l x => { x with st := .waiting, wait := .until_, deadline := some (s.dueAt (s.lane l) w (effImm h imm) sc) }) (fun s _ => s)) ∧
  (∀ h w a imm, Acts (.talarm h w a imm) h { src := [a], srcP := whenUses w, forbid := true }
    (fun s act => portsReady { src := [a], srcP := whenUses w, forbid := true } s act ∧
      (s.core (coreOf s.cur.warp)).alarms.length + act.length ≤ 81) ret
    (fun s act => s.eachLane { src := [a], srcP := whenUses w, forbid := true } act (fun x t v =>
      let c := coreOf s.cur.warp
      x.setCore c { x.core c with alarms := (x.core c).alarms ++ [{ at_ := s.dueOf t w (effImm h imm) .dflt, word := src v 0 }] }))) ∧
  (∀ h bld bst bcp btl, Acts (.wait h bld bst bcp btl) h {}
    (fun s _ => cntOf .ld (s.warp s.cur.warp) ≤ bld ∧ cntOf .st (s.warp s.cur.warp) ≤ bst ∧ cntOf .cp (s.warp s.cur.warp) ≤ bcp ∧
      cntOf .tl (s.warp s.cur.warp) ≤ btl) ret
    (fun s _ => if bcp < 242 then s.raiseRT s.cur.warp (s.warp s.cur.warp).cpW else s)) ∧
  (∀ h bld bst bcp btl, Acts (.wait h bld bst bcp btl) h {}
    (fun s _ => ¬(cntOf .ld (s.warp s.cur.warp) ≤ bld ∧ cntOf .st (s.warp s.cur.warp) ≤ bst ∧ cntOf .cp (s.warp s.cur.warp) ≤ bcp ∧
      cntOf .tl (s.warp s.cur.warp) ≤ btl)) (wait (fun _ => .counters [bld, bst, bcp, btl] false)) (fun s _ => s))

/-- Barriers (R244, R246): the lanes of a member warp that have not arrived in the phase arrive in lane order; BAR and BARV
wait for the phase's end, BARA retires with the phase's number, BARW goes on in another phase, once its loads are done, and
waits in the one it names; a warp's first BARV in a phase names its regions, which must be good where they count (which warp's
do when the block's first has not arrived: DESIGN CHOICE, log 71).
PHASE closes the threads' phase and waits (R364). -/
def Obligations.BarrierForms : Prop :=
  (∀ h l k rlx, Acts (.bar h l k rlx) h { forbid := true }
    (fun s act => fenced rlx (barScope l) s act ∧ s.barMember s.cur.warp l k = true ∧ ∀ j ∈ act, s.hasArrived (s.lane j) l k = false)
    (wait (fun s => .barrier l (s.barKey l s.cur.warp) k (s.barPhase s.cur.warp l k) false))
    (fun s act => s.eachThread act (fun x t => x.arrive t l k none 0 0))) ∧
  (∀ h l k rlx d, d < 216 → Acts (.bara h l k rlx d) h { dst := [d], forbid := true }
    (fun s act => fenced rlx (barScope l) s act ∧ s.barMember s.cur.warp l k = true ∧ ∀ j ∈ act, s.hasArrived (s.lane j) l k = false)
    (retW d (fun s => s.barPhase s.cur.warp l k)) (fun s act => s.eachThread act (fun x t => x.arrive t l k none 0 0))) ∧
  (∀ h l k rlx d, isPort d = true → Acts (.bara h l k rlx d) h { dst := [d], forbid := true }
    (fun s act => fenced rlx (barScope l) s act ∧ portsReady { dst := [d] } s act ∧ s.barMember s.cur.warp l k = true ∧
      ∀ j ∈ act, s.hasArrived (s.lane j) l k = false)
    ret (fun s act => s.eachThread act (fun x t => (x.arrive t l k none 0 0).portPush (coreOf s.cur.warp) (s.warp s.cur.warp).ctx
      (s.warp s.cur.warp).bid (d - 216) [s.barPhase s.cur.warp l k]))) ∧
  (∀ h l k rlx a, Acts (.barw h l k rlx a) h { src := [a], forbid := true }
    (fun s act => portsReady { src := [a], forbid := true } s act ∧ s.barMember s.cur.warp l k = true ∧
      (rlx = true ∨ s.loadsDone s.cur.warp = true) ∧
      ∀ i, i < act.length → s.srcWord act [a] i 0 ≠ s.barPhase s.cur.warp l k) ret (fun s act => (s.readField (s.curThreads act) a).1)) ∧
  (∀ h l k a, Acts (.barw h l k false a) h { src := [a], forbid := true }
    (fun s act => portsReady { src := [a], forbid := true } s act ∧ s.barMember s.cur.warp l k = true ∧ s.loadsDone s.cur.warp = false ∧
      ∀ i, i < act.length → s.srcWord act [a] i 0 ≠ s.barPhase s.cur.warp l k)
    (wait (fun _ => .fence (barScope l) false true 0)) (fun s act => (s.readField (s.curThreads act) a).1)) ∧
  (∀ h l k rlx a, Acts (.barw h l k rlx a) h { src := [a], forbid := true }
    (fun s act => portsReady { src := [a], forbid := true } s act ∧ s.barMember s.cur.warp l k = true ∧
      ∀ i, i < act.length → s.srcWord act [a] i 0 = s.barPhase s.cur.warp l k)
    (wait (fun s => .barw l (s.barKey l s.cur.warp) k (s.barPhase s.cur.warp l k))) (fun s _ => s)) ∧
  (∀ h l k rlx op a b n, Acts (.barv h l k rlx op a b n) h { src := [a, b], forbid := true }
    (fun s act => fenced rlx (barScope l) s act ∧ portsReady { src := [a, b] } s act ∧ s.barMember s.cur.warp l k = true ∧
      (∀ j ∈ act, s.hasArrived (s.lane j) l k = false) ∧
      (s.barvNamed s.cur.warp l k = none →
        s.barvCounts s.cur.warp l k = true → regionCause (s.srcWord act [a, b] 0 0) n.toNat = none ∧ regionCause (s.srcWord act [a, b] 0 1) n.toNat = none))
    (wait (fun s => .barrier l (s.barKey l s.cur.warp) k (s.barPhase s.cur.warp l k) true))
    (fun s act => (s.readFields (s.curThreads act) [a, b]).1.eachThread act (fun x t =>
      let p := (s.barvNamed s.cur.warp l k).getD (s.srcWord act [a, b] 0 0, s.srcWord act [a, b] 0 1)
      x.arrive t l k (some (op, n.toNat)) p.1 p.2))) ∧
  (∀ h, Acts (.phase h) h { forbid := true } (fun s _ => (s.launchOf s.cur.warp).det = true) (wait (fun _ => .phase))
    (fun s act => s.eachThread act (fun x t => x.closePhase t)))

/-- SPAWN, DRAFT, RGIVE (R252, R270, R271): SPAWN's lanes join a bin with room; DRAFT takes its checkpoint, or falls back to
its handler where the register file is full; RGIVE gives registers back. RCLAIM (R76, R271): with no claim before it and
enough of the register file free, the warp's threads have 9 g more registers, which read as zero, and the lanes retire. -/
def Obligations.SpawnDraftGive : Prop :=
  (∀ h a b imm i, Acts (.spawn h a b imm) h { src := [a, b], forbid := true }
    (fun s act => let k := s.core (coreOf s.cur.warp)
      portsReady { src := [a, b], forbid := true } s act ∧ (s.launchOf s.cur.warp).det = false ∧ deviceIndex (s.cur.n + imm) = true ∧
      binFor k.bins (s.cur.n + imm) = some i ∧ act.length + ((Tab.find k.bins i).map (fun y => y.args.length)).getD 0 ≤ 16) ret
    (fun s act =>
      let c := coreOf s.cur.warp
      let y : Bin := (Tab.find (s.core c).bins i).getD { entry := s.cur.n + imm, args := [], due := s.now c + spawnNs (s.launchOf s.cur.warp).spint }
      let s1 := (s.readFields (s.curThreads act) [a, b]).1
      s1.setCore c { s1.core c with bins := Tab.put i { y with args := y.args ++ (List.range act.length).map (fun j =>
        (s.srcWord act [a, b] j 0, s.srcWord act [a, b] j 1)) } (s1.core c).bins })) ∧
  (∀ h imm, ActsIf (fun s => ∀ l ∈ s.cur.lanes, s.owedRegs (s.lane l) = [] ∧ s.owedPreds (s.lane l) = []) (.draft h imm) h {}
    (fun s _ => (s.warp s.cur.warp).draft.depth = 0 ∧ 288 ≤ s.poolFree (coreOf s.cur.warp))
    (fun s _ x => { x.retired s.cur.next with dcode := 0, dinfo := 0 })
    (fun s act => s.setWarp s.cur.warp { s.warp s.cur.warp with
      draft := { depth := 1, lanes := act, handler := wrap (s.cur.n + imm) 52
                 ckpt := act.map (fun l => { lane := l, regs := (s.thread (s.lane l)).regs, preds := (s.thread (s.lane l)).preds
                                             mr := (s.thread (s.lane l)).mr }) } })) ∧
  (∀ h imm, ActsIf (fun s => ∀ l ∈ s.cur.lanes, s.owedRegs (s.lane l) = [] ∧ s.owedPreds (s.lane l) = []) (.draft h imm) h {}
    (fun s _ => (s.warp s.cur.warp).draft.depth = 0 ∧ s.poolFree (coreOf s.cur.warp) < 288)
    (fun s _ x => { x.retired (wrap (s.cur.n + imm) 52) with dcode := 2, dinfo := 0 }) (fun s _ => s)) ∧
  (∀ h g, ActsIf (fun s => ∀ t ∈ threadsOf s.cur.warp, ∀ r ∈ s.owedRegs t, ((s.warp s.cur.warp).n : Int) - 9 * g ≤ r → 216 ≤ r) (.rgive h g) h
    { forbid := true } (fun s _ => 9 ≤ ((s.warp s.cur.warp).n : Int) - 9 * g ∧ (s.core (coreOf s.cur.warp)).claims = []) ret
    (fun s _ => (s.setWarp s.cur.warp { s.warp s.cur.warp with n := (((s.warp s.cur.warp).n : Int) - 9 * g).toNat }).loseRegs s.cur.warp
      (((s.warp s.cur.warp).n : Int) - 9 * g).toNat)) ∧
  (∀ h g s, Plain s → Legal s h { forbid := true } → s.active h ≠ [] → 0 ≤ g → ((s.warp s.cur.warp).n : Int) + 9 * g ≤ 216 →
    (s.core (coreOf s.cur.warp)).claims = [] → s.savingCore (coreOf s.cur.warp) = false → 144 * g ≤ s.poolFree (coreOf s.cur.warp) →
    ∃ t, exec (.rclaim h g) s = .next t ∧
      (∀ l ∈ s.cur.lanes, t.thread (s.lane l) =
        { (s.atIssue l).retired s.cur.next with regs := below (s.warp s.cur.warp).n (s.thread (s.lane l)).regs }) ∧
      (∀ k, (∀ l ∈ s.cur.lanes, k ≠ s.lane l) → t.thread k =
        if k ∈ threadsOf s.cur.warp then { s.thread k with regs := below (s.warp s.cur.warp).n (s.thread k).regs } else s.thread k) ∧
      (∀ v, t.warp v = if v = s.cur.warp then { (s.warp v).keeps (s.warp v).n with n := (s.warp v).n + 9 * g.toNat } else s.warp v) ∧
      (∀ c, t.core c = s.core c) ∧ t = { s with thr := t.thr, wrp := t.wrp, cor := t.cor, stamp := s.stamp + 1 })

/-- Forms that act on single lines (R225-R227): PREF asks for the lines of main memory and fills lines of Vellum, INV makes clean
words invalid; neither raises anything. WB and WB.all write back the lines' written trytes with one request a line, and their
group counts in the warp's st counter until the last is performed. -/
def Obligations.LineForms : Prop :=
  (∀ h l m, Acts (.pref h l m) h { src := [m.b], srcP := [m.a] } (portsReady { src := [m.b], srcP := [m.a] }) ret
    (fun s act => s.eachLane { src := [m.b], srcP := [m.a] } act (fun x t v =>
      let ea := wrap (s.regPair t m.a + src v 0 * pow3 m.k + effImm h m.disp) 54
      let c := coreOf s.cur.warp
      let own := s.ownKey (dieIdx c)
      match regionOf ea with
      | .device => if s.ownerOk ea then (List.range 3).foldl (fun y (i : Nat) =>
          y.addReq { y.mkReq t 0 (.pref (effLease h l)) (81 * lineOf ea + 27 * ((i : Int) - 1)) with lane := 16 }) x else x
      | .vellum => if (s.velBusy own ea).isSome then (List.range 3).foldl (fun y (i : Nat) =>
          y.addReq { y.mkReq t 0 (.pref (effLease h l)) (81 * lineOf ea + 27 * ((i : Int) - 1)) with
            lane := 16, stage := .home, own := own }) x
        else (List.range 3).foldl (fun y (i : Nat) => y.velFill c s.cur.warp (3 * lineOf ea + (i : Int) - 1)) x
      | _ => x))) ∧
  (∀ h m, Acts (.inv h m) h { src := [m.b], srcP := [m.a] } (portsReady { src := [m.b], srcP := [m.a] }) ret
    (fun s act => s.eachLane { src := [m.b], srcP := [m.a] } act (fun x t v =>
      let ea := wrap (s.regPair t m.a + src v 0 * pow3 m.k + effImm h m.disp) 54
      if regionOf ea = .device ∨ regionOf ea = .vellum then x.l1Clean (coreOf s.cur.warp) (lineOf ea) [0, 1, 2] else x))) ∧
  (∀ h m, Acts (.wb h m) h { src := [m.b], srcP := [m.a] }
    (fun s act => portsReady { src := [m.b], srcP := [m.a] } s act ∧ cntOf .st (s.warp s.cur.warp) < 242) ret
    (fun s act => s.wbGroup act (fun gid x => x.eachLane { src := [m.b], srcP := [m.a] } act (fun y t v =>
      let ea := wrap (s.regPair t m.a + src v 0 * pow3 m.k + effImm h m.disp) 54
      if regionOf ea = .device then y.wbLine (coreOf s.cur.warp) s.cur.warp (lineOf ea) 2 gid act s.cur.first else y)))) ∧
  (∀ h, Acts (.wbAll h) h {} (fun s _ => cntOf .st (s.warp s.cur.warp) < 242) ret
    (fun s act => s.wbGroup act (fun gid x => x.wbCore (coreOf s.cur.warp) s.cur.warp 2 gid act s.cur.first)))

/-- Memory accesses that leave for an owner (R219, R221-R224, R229, R230, R233, R247, R248): LD, LDNB past its time, ST, STVA, LDB,
STB, ATOM, CAS, RED, ATOMO, TKT in its three forms and TKP send one request for each active lane, with the lane's address and
values, and the lanes wait for the answers. That a lane stays RUNNABLE and busy and that the requests stand in lane order are the
model's (DEDUCED, log 21), and so is the guard of LDNB on a relaxed access of a stated scope (DESIGN CHOICE, log 54). -/
def Obligations.MemoryRequests : Prop :=
  (∀ h sz o le d m, Sends (.ld h sz o le d m) h (ldUses sz d m) (some .ld) (fun _ _ => True)
    (fun s t v => devOk s sz (eaOf s t m (effImm h m.disp) (src v 0)) ∧ s.hazard t sz (eaOf s t m (effImm h m.disp) (src v 0)) = false)
    (fun s t v => let ea := eaOf s t m (effImm h m.disp) (src v 0)
      { s.mkReq t 0 (.load sz d (effLease h le) false) ea with ord := effOrd h o.ord, scope := effScope h o.scope, ea2 := secondOf sz ea })) ∧
  (∀ h sz o le d m c, Sends (.ldnb h sz o le d m c) h { ldUses sz d m with srcP := (ldUses sz d m).srcP ++ [c] } (some .ld) (fun _ _ => True)
    (fun s t v => let ea := eaOf s t m (effImm h m.disp) (src v 0)
      devOk s sz ea ∧ s.hazard t sz ea = false ∧ (s.thread t).ldnb = none ∧
      s.regPair t c + s.guard (s.accScope (coreOf s.cur.warp) (effScope h o.scope) ea) ≤ s.now (coreOf s.cur.warp))
    (fun s t v => let ea := eaOf s t m (effImm h m.disp) (src v 0)
      { s.mkReq t 0 (.load sz d (effLease h le) false) ea with ord := effOrd h o.ord, scope := effScope h o.scope, ea2 := secondOf sz ea })) ∧
  (∀ h sz o d m, Sends (.st h sz o d m) h (stUses sz d m) (some .st) (released h o m)
    (fun s t v => let ea := eaOf s t m (effImm h m.disp) (src v 0)
      devOk s sz ea ∧ s.hazard t sz ea = false ∧ s.shared (s.warp s.cur.warp).ctx ea = none ∧
        (crosses sz ea = true → s.shared (s.warp s.cur.warp).ctx (ea + 3) = none))
    (fun s t v => let ea := eaOf s t m (effImm h m.disp) (src v 0)
      { s.mkReq t 0 (.store sz (s.srcVal sz t d)) ea with ea2 := secondOf sz ea })) ∧
  (∀ h sz o d m c, Sends (.stva h sz o d m c) h { stUses sz d m with srcP := (stUses sz d m).srcP ++ [c], forbid := true } (some .st)
    (released h o m)
    (fun s t v => let ea := eaOf s t m (effImm h m.disp) (src v 0)
      devOk s sz ea ∧ s.hazard t sz ea = false ∧ s.shared (s.warp s.cur.warp).ctx ea = none ∧
        (crosses sz ea = true → s.shared (s.warp s.cur.warp).ctx (ea + 3) = none))
    (fun s t v => let ea := eaOf s t m (effImm h m.disp) (src v 0)
      { s.mkReq t 0 (.stva sz (s.srcVal sz t d) (s.regPair t c)) ea with ea2 := secondOf sz ea })) ∧
  (∀ h bt tt sa o d m, Sends (.ldb h bt tt sa o d m) h
    (if tt = .t54 then { src := [m.b], srcP := [m.a], dstP := [d], zPair := true, forbid := true }
     else { src := [m.b], srcP := [m.a], dstR := [d], forbid := true })
    (some .ld) (fun _ _ => True)
    (fun s t v => binOk s bt.bytes (s.warp s.cur.warp).ctx (eaOf s t m (effImm h m.disp) (src v 0)) ∧
      s.hazardOn t (bytesAt (eaOf s t m (effImm h m.disp) (src v 0)) bt.bytes) = false)
    (fun s t v => { s.mkReq t 0 (.ldb bt tt sa d) (eaOf s t m (effImm h m.disp) (src v 0)) with
      ord := effOrd h o.ord, scope := effScope h o.scope })) ∧
  (∀ h bt tt sa o d m, Sends (.stb h bt tt sa o d m) h
    (if tt = .t54 then { src := [m.b], srcP := [m.a, d], forbid := true } else { src := [m.b], srcP := [m.a], srcR := [d], forbid := true })
    (some .st) (released h o m)
    (fun s t v => binOk s bt.bytes (s.warp s.cur.warp).ctx (eaOf s t m (effImm h m.disp) (src v 0)) ∧
      s.hazardOn t (bytesAt (eaOf s t m (effImm h m.disp) (src v 0)) bt.bytes) = false ∧
      (convOut bt tt (s.stbSrc tt t d)).out = false)
    (fun s t v => { s.mkReq t 0 (.stb bt.bytes (convOut bt tt (s.stbSrc tt t d)).val.toNat false) (eaOf s t m (effImm h m.disp) (src v 0)) with
      ord := effOrd h o.ord, scope := effScope h o.scope })) ∧
  (∀ h op sz o d m c, Sends (.atom h op sz o d m c) h (atomUses sz d c m) (some (atomCls d)) (released h o m)
    (fun s t v => let ea := eaOf s t m (effImm h m.disp) (src v 0)
      devOk s sz ea ∧ crosses sz ea = false ∧ s.hazard t sz ea = false ∧ s.shared (s.warp s.cur.warp).ctx ea = none)
    (fun s t v => { s.mkReq t 0 (.atom op sz (s.atomVal sz t c (src v 1)) d) (eaOf s t m (effImm h m.disp) (src v 0)) with ord := effOrd h o.ord })) ∧
  (∀ h sz o d m c, Sends (.cas h sz o d m c) h (atomUses sz d c m) (some (atomCls d)) (released h o m)
    (fun s t v => let ea := eaOf s t m (effImm h m.disp) (src v 0)
      devOk s sz ea ∧ crosses sz ea = false ∧ s.hazard t sz ea = false ∧ s.shared (s.warp s.cur.warp).ctx ea = none)
    (fun s t v => { s.mkReq t 0 (.cas sz (s.srcVal sz t d) (s.atomVal sz t c (src v 1)) d) (eaOf s t m (effImm h m.disp) (src v 0)) with
      ord := effOrd h o.ord })) ∧
  (∀ h op sz o m c, Sends (.red h op sz o m c) h
    (if sz = .dw then { src := [m.b], srcP := [m.a, c], forbid := true } else { src := [m.b, c], srcP := [m.a], forbid := true }) (some .st)
    (released h o m)
    (fun s t v => let ea := eaOf s t m (effImm h m.disp) (src v 0)
      devOk s sz ea ∧ crosses sz ea = false ∧ s.hazard t sz ea = false ∧ s.shared (s.warp s.cur.warp).ctx ea = none)
    (fun s t v => { s.mkReq t 0 (.atom op sz (s.atomVal sz t c (src v 1)) 234) (eaOf s t m (effImm h m.disp) (src v 0)) with
      ord := effOrd h o.ord })) ∧
  (∀ h op sz o d a k disp c, Sends (.atomo h op sz o d a k disp c) h
    { atomUses sz d c { a := a, b := 234, k := 0, disp := disp } with
      src := k :: (atomUses sz d c { a := a, b := 234, k := 0, disp := disp }).src.drop 1 } (some (atomCls d)) (released h o { a := a, b := 234, k := 0, disp := disp })
    (fun s t _ => let ea := wrap (s.regPair t a + effImm h disp) 54
      devOk s sz ea ∧ crosses sz ea = false ∧ s.hazard t sz ea = false ∧ s.shared (s.warp s.cur.warp).ctx ea = none)
    (fun s t v => { s.mkReq t 0 (.atomo op sz (s.atomVal sz t c (src v 1)) d (offF (src v 0) 24 3) (fld (src v 0) 0 24))
      (wrap (s.regPair t a + effImm h disp) 54) with ord := effOrd h o.ord })) ∧
  (∀ h q d m, Sends (.tkt h q d m) h { src := [m.b], srcP := [m.a], dst := [d], forbid := true } (some .ld) (fun _ _ => True)
    (fun s t v => let ea := eaOf s t m (effImm h m.disp) (src v 0)
      devOk s .wd ea ∧ s.hazard t .wd ea = false ∧ s.shared (s.warp s.cur.warp).ctx ea = none)
    (fun s t v => { s.mkReq t 0 (.tkt q d) (eaOf s t m (effImm h m.disp) (src v 0)) with ord := .rlx })) ∧
  (∀ h q m, Sends (.tktOpen h q m) h { src := [m.b], srcP := [m.a], forbid := true } none (fun _ _ => True)
    (fun s t v => let ea := eaOf s t m (effImm h m.disp) (src v 0)
      devOk s .wd ea ∧ s.hazard t .wd ea = false ∧ s.shared (s.warp s.cur.warp).ctx ea = none)
    (fun s t v => { s.mkReq t 0 (.tktOpen q) (eaOf s t m (effImm h m.disp) (src v 0)) with ord := .rlx })) ∧
  (∀ h q m, Sends (.tktClose h q m) h { src := [m.b], srcP := [m.a], forbid := true } none (fun _ _ => True)
    (fun s t v => let ea := eaOf s t m (effImm h m.disp) (src v 0)
      devOk s .wd ea ∧ s.hazard t .wd ea = false ∧ s.shared (s.warp s.cur.warp).ctx ea = none)
    (fun s t v => { s.mkReq t 0 (.tktClose q) (eaOf s t m (effImm h m.disp) (src v 0)) with ord := .rlx })) ∧
  (∀ h m c, Sends (.tkp h m c) h { src := [m.b, c], srcP := [m.a], forbid := true } (some .st) (fun _ _ => True)
    (fun s t v => let ea := eaOf s t m (effImm h m.disp) (src v 0)
      devOk s .wd ea ∧ s.hazard t .wd ea = false ∧ s.shared (s.warp s.cur.warp).ctx ea = none)
    (fun s t v => { s.mkReq t 0 (.tkp (offF (src v 1) 24 3) (fld (src v 1) 0 24)) (eaOf s t m (effImm h m.disp) (src v 0)) with ord := .rlx }))

/-- A form at too low a level traps PRIV in every lane of its group, and one with an illegal register field or port
raises the field's cause, before anything of its own happens; the warp enters its handler (R159, R395, R402): CSRR,
CSRW, CLRC, HALT, KILL, PREEMPT, TLBI.die, LAUNCH, and as forms of every level ADD and MOV. Software traps (R275,
R402): BRK raises BREAK at its own unit in every active lane; TRAP retires and raises TRAP at the next unit; the
warp enters its handler with the lanes that raised, and its other threads stop. Where some active lanes of DIV, REM, CVT or RET raise DIVZ,
CONV or FETCH, the others complete and write, and the warp enters its handler with those that raised (R47, R179, R261). -/
def Obligations.UnitTraps : Prop :=
  ((∀ h d n i, csrInfo n = some i → i.isPair = false → TrapsFirst (.csrr h d n) h
    { dstR := [d], level := if i.read = .handler then .handler else .sup, forbid := true }) ∧
  (∀ h a n i, csrInfo n = some i → i.isPair = true → TrapsFirst (.csrw h a n) h
    { srcP := [a], level := if i.write = .handler then .handler else .sup, forbid := true }) ∧
  (∀ h m, TrapsFirst (.clrc h m) h { level := .handler, forbid := true }) ∧
  (∀ h, TrapsFirst (.halt h) h { level := .sup, forbid := true }) ∧
  (∀ h a, TrapsFirst (.kill h a) h { srcR := [a], level := .sup, forbid := true }) ∧
  (∀ h a, TrapsFirst (.preempt h a) h { srcR := [a], level := .sup, forbid := true }) ∧
  (∀ h b, TrapsFirst (.tlbiDie h b) h { srcR := [b], level := .sup, forbid := true }) ∧
  (∀ h d a, TrapsFirst (.launch h d a) h { dstR := [d], srcP := [a], level := .sup, forbid := true }) ∧
  (∀ h t3 sa d a b, TrapsFirst (.add h t3 sa d a b) h { src := [a, b], dst := [d] }) ∧
  (∀ h d a, TrapsFirst (.mov h false d a) h { src := [a], dst := [d] })) ∧
  ((∀ h code s, Plain s → Legal s h {} → Enterable s → s.active h ≠ [] → ∃ t, exec (.brk h code) s = .next t ∧
    Entered (s.opened h) t s.cur.warp (s.active h) { cause := 2, pc := s.cur.first, code := code }) ∧
  (∀ h code s, Plain s → Legal s h { forbid := true } → Enterable s → s.active h ≠ [] → ∃ b t, exec (.trap h code) s = .next t ∧
    Done b (s.active h) (ret (s.opened h)) (s.opened h) ∧
    Entered b t s.cur.warp (s.active h) { cause := 3, pc := s.cur.next, code := code })) ∧
  ((∀ h t3 d a b, RaisesPart (.div h t3 d a b) h { src := [a, b], dst := [d] } (fun _ _ v =>
    if (if t3 then part (src v 1) 0 = 0 ∨ part (src v 1) 1 = 0 ∨ part (src v 1) 2 = 0 else src v 1 = 0) then raises 8
    else toW d (perPart t3 (fun n x y _ => wrap (nearest x y) n) (src v 0) (src v 1) 0))) ∧
  (∀ h t3 d a b, RaisesPart (.rem h t3 d a b) h { src := [a, b], dst := [d] } (fun _ _ v =>
    if (if t3 then part (src v 1) 0 = 0 ∨ part (src v 1) 1 = 0 ∨ part (src v 1) 2 = 0 else src v 1 = 0) then raises 8
    else toW d (perPart t3 (fun n x y _ => wrap (x - nearest x y * y) n) (src v 0) (src v 1) 0))) ∧
  (∀ h ty d a, RaisesPart (.cvt h false false ty d a) h { src := [a], dst := [d] } (fun _ _ v =>
    if |src v 0| ≤ half ty.width then toW d (src v 0) else raises 7)) ∧
  (∀ h ty dty d a, ty.isFloat = true → RaisesPart (.cvtf h false ty dty d a) h { src := [a], dst := [d] } (fun _ _ v =>
    if (floatToInt (cvtBits dty) (valF (cvtFmt ty) (wrap (src v 0) (cvtBits ty)))).2 = false then
      toW d (floatToInt (cvtBits dty) (valF (cvtFmt ty) (wrap (src v 0) (cvtBits ty)))).1
    else raises 7)) ∧
  (∀ h a, RaisesPart (.ret h a) h { srcP := [a] } (fun s t _ =>
    if deviceIndex (s.regPair t a) then { wr := [.jump (s.regPair t a)] } else raises 6)))

/-- TRET (R406): once every thread of the handler that has not exited has executed it, each goes back to EPC with MR from EMR,
stopped threads go on as they were, and the warp is at user level again. EXIT (R269): the lanes' threads have exited and what is owed to them is dropped; where they were
the last that a return from the handler waited for, the warp returns (R406); what their exit makes due in their warp follows.
Stated where no barrier counts an arrival of the warp's block. -/
def Obligations.TrapReturn : Prop :=
  (∀ h s, Plain s → Legal s h { level := .handler, forbid := true } → (s.warp s.cur.warp).hm = true → s.active h ≠ [] →
    (∀ l ∈ s.active h, (s.thread (s.lane l)).inH = true) → s.raisers s.cur.warp = [] →
    (∀ t ∈ threadsOf s.cur.warp, (s.thread t).inH = true → (∃ l ∈ s.active h, t = s.lane l) ∨ (s.thread t).tret = true ∨ (s.thread t).st = .exited) →
    ∃ b : State, exec (.tret h) s = .next (s.unitEnd ((b.meet s.cur.warp).settle s.cur.warp)) ∧
      (∀ t ∈ threadsOf s.cur.warp, b.thread t =
        let x := (s.opened h).thread t
        if x.st = .exited then x
        else if x.inH then { x with pc := wrap x.epc 52, mr := wrap x.emr 52, st := .runnable, inH := false, tret := false, wait := .none_ }
        else if x.st = .stopped then { x with st := x.prior } else x) ∧
      (∀ t, t ∉ threadsOf s.cur.warp → b.thread t = s.thread t) ∧
      (∀ v, b.warp v = if v = s.cur.warp then { s.warp v with pl := if isSup (s.warp v).ctx then (s.warp v).pl else -1, hm := false, stopping := false }
        else s.warp v) ∧ b = { s with thr := b.thr, wrp := b.wrp, stamp := s.stamp + 1 }) ∧
  (∀ h s, Plain s → Legal s h { forbid := true } → (s.active h ≠ [] →
      (∀ l ∈ [Level.block, .cluster, .die, .domain], ∀ k, k < 9 → ((s.opened h).bar l ((s.opened h).barKey l s.cur.warp) k).arr = []) ∧
      ∀ l ∈ s.active h, (s.thread (s.lane l)).kept = none) →
    ∃ b, (if s.active h = [] then b = s.opened h else Done b (s.active h) (fun _ _ => {}) ((s.opened h).setWarp s.cur.warp { s.warp s.cur.warp with
      owed := (s.warp s.cur.warp).owed.filter (fun o => !((s.active h).map s.lane).contains o.thr) })) ∧
    exec (.exit h) s = .next (s.unitEnd (if s.active h ≠ [] ∧ b.allReturn s.cur.warp = true then b.leave s.cur.warp else b)))

/-- CALLT (R265, R266): with its entry's line in the instruction cache, an index within the table, the expected signature and a
target in device space, the lane goes to the target and its pair takes the index of the next unit; the cache holds the same
lines, used now (R276). -/
def Obligations.TableCalls : Prop :=
  ∀ h d a sig s, let f : State → Nat → List Int → Out := fun s _ v =>
    let x := s.ctx (s.warp s.cur.warp).ctx
    let ea := x.ftbase + 9 * src v 0
    match s.icLine (coreOf s.cur.warp) (lineOf ea) with
    | some f =>
      let e := f.units.getD (offF (shr ea 2) 0 2) 0
      if 0 ≤ src v 0 ∧ src v 0 < x.ftlen ∧ spaceOf ea = 1 ∧ s.ownerOk ea = true ∧ fld e 54 27 = sig ∧ fld e 52 2 = 0 ∧ deviceIndex (fld e 0 52) = true then
        { wr := [.jump (fld e 0 52), .pair d s.cur.next] }
      else raises 12
    | none => raises 12
    Plain s → Legal s h { src := [a], dstP := [d] } → s.portSt { src := [a], dstP := [d] } (s.active h).length = .ready →
    (∀ l ∈ s.active h, (s.thread (s.lane l)).kept = none) → (∀ k, k < (s.active h).length → (s.outOf h { src := [a], dstP := [d] } f k).fault = none) →
    ∃ b t, exec (.callt h d a sig) s = .next t ∧ Ran s b h { src := [a], dstP := [d] } f ∧ t = { b with cor := t.cor, stamp := t.stamp } ∧
    (∀ c, t.core c = { b.core c with ic := (t.core c).ic }) ∧
    ∀ c l, (t.icLine c l).map (fun g => (g.line, g.units)) = (s.icLine c l).map (fun g => (g.line, g.units))

/-- MSG (R250): to blocks that can take them, one word leaves for each active lane in lane order; .nb also says so in
its predicate, and says 0 of a block that cannot take messages now and -1 of one that does not exist. MOV.nb (R81,
R187): at an open port lanes are served in lane order while it can serve them, and their predicate says so: +1 served, 0
not now; at a closed port nothing moves and every predicate is -1; a unit never waits. -/
def Obligations.MessagesAndMoves : Prop :=
  ((∀ h rlx a b, Acts (.msg h rlx a b none) h { src := [a, b], forbid := true }
    (fun s act => portsReady { src := [a, b], forbid := true } s act ∧ fenced rlx (s.msgScope s.cur.warp ((List.range act.length).map (fun i => s.srcWord act [a, b] i 1))) s act ∧ ∀ i, i < act.length →
      ∃ c, s.msgTo (s.warp s.cur.warp).ctx (s.srcWord act [a, b] i 1) = .at_ c ∧
        (List.range act.length).countP (fun j => decide (s.srcWord act [a, b] j 1 = s.srcWord act [a, b] i 1)) ≤
          s.msgRoom (s.warp s.cur.warp).ctx (s.srcWord act [a, b] i 1).toNat c) ret
    (fun s act => s.eachLane { src := [a, b], forbid := true } act (fun x t v => x.send t (src v 1).toNat (src v 0)))) ∧
  (∀ h rlx a b f, Acts (.msg h rlx a b (some f)) h { src := [a, b], preds := [f], forbid := true }
    (fun s act => portsReady { src := [a, b], preds := [f], forbid := true } s act ∧ fenced rlx (s.msgScope s.cur.warp ((List.range act.length).map (fun i => s.srcWord act [a, b] i 1))) s act ∧ ∀ i, i < act.length →
      ∃ c, s.msgTo (s.warp s.cur.warp).ctx (s.srcWord act [a, b] i 1) = .at_ c ∧
        (List.range act.length).countP (fun j => decide (s.srcWord act [a, b] j 1 = s.srcWord act [a, b] i 1)) ≤
          s.msgRoom (s.warp s.cur.warp).ctx (s.srcWord act [a, b] i 1).toNat c)
    (fun s _ x => (x.retired s.cur.next).wrote (.pred f 1))
    (fun s act => s.eachLane { src := [a, b], forbid := true } act (fun x t v => x.send t (src v 1).toNat (src v 0)))) ∧
  (∀ h rlx a b f, ∀ bad : Bool, Acts (.msg h rlx a b (some f)) h { src := [a, b], preds := [f], forbid := true }
    (fun s act => portsReady { src := [a, b], preds := [f], forbid := true } s act ∧ fenced rlx (s.msgScope s.cur.warp ((List.range act.length).map (fun i => s.srcWord act [a, b] i 1))) s act ∧ ∀ i, i < act.length →
      s.msgTo (s.warp s.cur.warp).ctx (s.srcWord act [a, b] i 1) = if bad then .bad else .later)
    (fun s _ x => (x.retired s.cur.next).wrote (.pred f (if bad then -1 else 0))) (fun s act => (s.readFields (s.curThreads act) [a, b]).1))) ∧
  ((∀ h d a c s, Plain s → Legal s h { src := [a], dst := [d], preds := [c] } → isPort a = true → isPort d = false →
    s.portClosed (coreOf s.cur.warp) (s.warp s.cur.warp).ctx (a - 216) = false → ∃ t, exec (.movNb h d a c) s = .next t ∧
      (∀ i, i < (s.active h).length → t.thread (s.lane ((s.active h).getD i 0)) =
        let x := (s.atIssue ((s.active h).getD i 0)).retired s.cur.next
        match (s.port (coreOf s.cur.warp) (a - 216))[i]? with
        | some v => (x.putReg d v).wrote (.pred c 1)
        | none => x.wrote (.pred c 0)) ∧
      (∀ l ∈ s.cur.lanes, s.laneOn h (s.lane l) = false → t.thread (s.lane l) = (s.atIssue l).retired s.cur.next) ∧
      (∀ k, (∀ l ∈ s.cur.lanes, k ≠ s.lane l) → t.thread k = s.thread k) ∧
      (∀ k q, t.port k q = if k = coreOf s.cur.warp ∧ q = a - 216 then (s.port k q).drop (s.active h).length else s.port k q) ∧
      let n := min (s.active h).length (s.port (coreOf s.cur.warp) (a - 216)).length
      let tok : Bool := decide (a = 225) || decide (a = 230)
      (∀ k q, Tab.get [] (t.core k).tokW q = if k = coreOf s.cur.warp ∧ q = a - 216 ∧ tok = true then (Tab.get [] (s.core k).tokW q).drop n
        else Tab.get [] (s.core k).tokW q) ∧
      (∀ v, t.warp v = if v = s.cur.warp ∧ tok = true then
        s.observed v ((Tab.get [] (s.core (coreOf s.cur.warp)).tokW (a - 216)).take n) else s.warp v) ∧
      (∀ k, t.core k = { s.core k with ports := (t.core k).ports, tokW := (t.core k).tokW }) ∧
      t = { s with thr := t.thr, wrp := t.wrp, cor := t.cor, stamp := s.stamp + 1 }) ∧
  (∀ h d a c s, Plain s → Legal s h { src := [a], dst := [d], preds := [c] } → isPort a = false → isPort d = true →
    s.portClosed (coreOf s.cur.warp) (s.warp s.cur.warp).ctx (d - 216) = false → ∃ t, exec (.movNb h d a c) s = .next t ∧
      let room := s.portRoom (coreOf s.cur.warp) (s.warp s.cur.warp).ctx (s.warp s.cur.warp).bid (d - 216)
      let words := ((s.active h).map (fun l => s.reg (s.lane l) a)).take room
      (∀ i, i < (s.active h).length → t.thread (s.lane ((s.active h).getD i 0)) =
        ((s.atIssue ((s.active h).getD i 0)).retired s.cur.next).wrote (.pred c (if i < room then 1 else 0))) ∧
      (∀ l ∈ s.cur.lanes, s.laneOn h (s.lane l) = false → t.thread (s.lane l) = (s.atIssue l).retired s.cur.next) ∧
      (∀ k, (∀ l ∈ s.cur.lanes, k ≠ s.lane l) → t.thread k = s.thread k) ∧
      (∀ k q, t.port k q = if k = coreOf s.cur.warp ∧ q = d - 216 ∧ q ≠ 14 then s.port k q ++ words else s.port k q) ∧
      (∀ x b, Tab.get {} (t.ctx x).sess b = if x = (s.warp s.cur.warp).ctx ∧ b = (s.warp s.cur.warp).bid ∧ d - 216 = 14 then
        { Tab.get {} (s.ctx x).sess b with cmds := (Tab.get {} (s.ctx x).sess b).cmds ++ words } else Tab.get {} (s.ctx x).sess b) ∧
      (∀ k, t.core k = { s.core k with ports := (t.core k).ports }) ∧ (∀ x, t.ctx x = { s.ctx x with sess := (t.ctx x).sess }) ∧
      t = { s with thr := t.thr, cor := t.cor, ctxs := t.ctxs, stamp := s.stamp + 1 }) ∧
  (∀ h d a c s, Plain s → Legal s h { src := [a], dst := [d], preds := [c] } →
    s.portClosed (coreOf s.cur.warp) (s.warp s.cur.warp).ctx ((if isPort a then a else d) - 216) = true → ∃ t, exec (.movNb h d a c) s = .next t ∧
      (∀ l ∈ s.active h, t.thread (s.lane l) = ((s.atIssue l).retired s.cur.next).wrote (.pred c (-1))) ∧
      (∀ l ∈ s.cur.lanes, s.laneOn h (s.lane l) = false → t.thread (s.lane l) = (s.atIssue l).retired s.cur.next) ∧
      (∀ k, (∀ l ∈ s.cur.lanes, k ≠ s.lane l) → t.thread k = s.thread k) ∧ t = { s with thr := t.thr, stamp := s.stamp + 1 }))

/-- Loads of the scratchpad and of the counter window (R92, R100, R104, R221): LD from correctable local storage gives
its value at once and changes nothing else of the machine. Stores to the scratchpad (R94, R100, R221): ST writes its
trytes at once, in lane order; every other tryte reads as before. -/
def Obligations.LocalAccesses : Prop :=
  (∀ h sz o le d m s, Plain s → Legal s h (ldUses sz d m) → s.acqPending = false → s.portSt (ldUses sz d m) (s.active h).length = .ready →
    cntOf .ld (s.warp s.cur.warp) < 242 → (∀ l ∈ s.active h, (s.thread (s.lane l)).kept = none) →
    (∀ i, i < (s.active h).length →
      let t := s.lane ((s.active h).getD i 0)
      let ea := eaOf s t m (effImm h m.disp) (s.srcWord (s.active h) [m.b] i 0)
      (sz = .tr ∨ trit ea 0 = 0) ∧ (∀ a ∈ covers sz ea, regionOf a = regionOf ea) ∧ s.hazard t sz ea = false ∧
      ((regionOf ea = .scratch ∧ ∀ a ∈ covers sz ea, s.isBad 2 (coreOf s.cur.warp * partBase + scrKey a) = false) ∨
        (regionOf ea = .counters ∧ sz ≠ .tr))) →
    ∃ t, exec (.ld h sz o le d m) s = .next t ∧
      (∀ i, i < (s.active h).length →
        let l := (s.active h).getD i 0
        t.thread (s.lane l) = ((s.atIssue l).retired s.cur.next).putLoad sz d
          (s.localVal sz (eaOf s (s.lane l) m (effImm h m.disp) (s.srcWord (s.active h) [m.b] i 0)))) ∧
      (∀ l ∈ s.cur.lanes, s.laneOn h (s.lane l) = false → t.thread (s.lane l) = (s.atIssue l).retired s.cur.next) ∧
      (∀ k, (∀ l ∈ s.cur.lanes, k ≠ s.lane l) → t.thread k = s.thread k) ∧
      (∀ c q, t.port c q = if c = coreOf s.cur.warp ∧ isPort m.b = true ∧ q + 216 = m.b then (s.port c q).drop (s.active h).length else s.port c q) ∧
      Takes s t (ldUses sz d m) (s.active h).length ∧
      (∀ v, t.warp v = { (if v = s.cur.warp then (s.tokens (ldUses sz d m) (s.active h).length).foldl s.later (s.warp v) else s.warp v) with
          out := (t.warp v).out } ∧ ∀ g : Grp, g.gid ≠ s.nextId → (g ∈ (t.warp v).out ↔ g ∈ (s.warp v).out)) ∧
      t = { s with thr := t.thr, wrp := t.wrp, cor := t.cor, nextId := t.nextId, stamp := s.stamp + 1 }) ∧
  (∀ h sz o d m s, Plain s → Legal s h (stUses sz d m) → s.acqPending = false → s.portSt (stUses sz d m) (s.active h).length = .ready →
    cntOf .st (s.warp s.cur.warp) < 242 → released h o m s (s.active h) → (∀ l ∈ s.active h, (s.thread (s.lane l)).kept = none) →
    (∀ i, i < (s.active h).length →
      let t := s.lane ((s.active h).getD i 0)
      let ea := eaOf s t m (effImm h m.disp) (s.srcWord (s.active h) [m.b] i 0)
      regionOf ea = .scratch ∧ (∀ a ∈ covers sz ea, regionOf a = .scratch) ∧ (sz = .tr ∨ trit ea 0 = 0) ∧ s.hazard t sz ea = false) →
    ∃ t, exec (.st h sz o d m) s = .next t ∧
      (∀ l ∈ s.cur.lanes, t.thread (s.lane l) = (s.atIssue l).retired s.cur.next) ∧
      (∀ k, (∀ l ∈ s.cur.lanes, k ≠ s.lane l) → t.thread k = s.thread k) ∧
      (∀ c a, regionOf a = .scratch → t.scr c a = if c = coreOf s.cur.warp then
          afterStores sz ((List.range (s.active h).length).map (fun i =>
            let q := s.lane ((s.active h).getD i 0)
            (eaOf s q m (effImm h m.disp) (s.srcWord (s.active h) [m.b] i 0), s.srcVal sz q d))) a (s.scr c a)
        else s.scr c a) ∧
      (∀ c q, t.port c q = if c = coreOf s.cur.warp ∧ isPort m.b = true ∧ q + 216 = m.b then (s.port c q).drop (s.active h).length else s.port c q) ∧
      (∀ c, t.core c = { s.core c with ports := (t.core c).ports, tokW := (t.core c).tokW, scr := (t.core c).scr }) ∧
      (∀ v, t.warp v = { (if v = s.cur.warp then (s.tokens (stUses sz d m) (s.active h).length).foldl s.later (s.warp v) else s.warp v) with
          out := (t.warp v).out } ∧ ∀ g : Grp, g.gid ≠ s.nextId → (g ∈ (t.warp v).out ↔ g ∈ (s.warp v).out)) ∧
      (∀ st key, st ≠ 2 → t.isBad st key = s.isBad st key) ∧
      t = { s with thr := t.thr, wrp := t.wrp, cor := t.cor, bad := t.bad, nextId := t.nextId, stamp := s.stamp + 1 })

/-- The Scribe's forms on a compute warp (R340, R342, R344): SCRB, once its allocation is granted and its program is at
hand and well formed, starts the program with its two words; SCRH.stop ends it and reads the status after. SLOOP in
a lane of the Scribe's warp (R343): with a positive count the body is entered and its loop noted; else the lane goes
on after the body. Word forms of the Scribe's warp act as in any other (R341, R342), with q11 and q12 as destinations; a lane at
its innermost body's end goes back to the body's start while passes are left. -/
def Obligations.ScribeForms : Prop :=
  ((∀ h a b len g imm, Acts (.scrb h a b len g imm) h { srcR := [a, b], forbid := true }
    (fun s act => let c := coreOf s.cur.warp
      let q := (s.core c).scribe
      deviceIndex (s.cur.n + imm) = true ∧ q.state = 1 ∧ q.warp = s.cur.warp ∧ q.alloc = true ∧ (∃ l ∈ act, l ∈ q.lanes) ∧
      len ≤ (s.gather c (s.cur.n + imm) len 30 q.units).2.length ∧
      scribeOk (s.cur.n + imm + (len : Int)) 243 (s.cur.n + imm) (s.gather c (s.cur.n + imm) len 30 q.units).2 [] = true) ret
    (fun s act => let c := coreOf s.cur.warp
      let p := s.gather c (s.cur.n + imm) len 30 (s.core c).scribe.units
      (p.1.setCore c { p.1.core c with scribe := { (s.core c).scribe with units := p.2 } }).scribeStart c
        (s.reg (s.low act) a) (s.reg (s.low act) b))) ∧
  (∀ h d, ActsEnd (.scrhStop h d) h { dstR := [d], forbid := true } always
    (retW d (fun s => (s.scribeStop (coreOf s.cur.warp)).scribeStatus (coreOf s.cur.warp))) (fun s _ => s.scribeStop (coreOf s.cur.warp)))) ∧
  ((∀ h a k (len : Nat) s l, s.cur.lanes = [l] → l < 16 → widOf s.cur.warp = 27 → (s.thread (s.lane l)).st = .runnable →
    (s.warp s.cur.warp).stopping = false → s.drafting s.cur.warp l = false →
    (trit (s.ctx (s.warp s.cur.warp).ctx).dbg 0 ≠ 1 ∨ (s.warp s.cur.warp).hm = true) → s.meetsNow s.cur.warp = false →
    Legal s h { srcR := [a], sloop := true } → s.laneOn h (s.lane l) = true → 0 < len →
    (let q := (s.core (coreOf s.cur.warp)).scribe
     s.cur.next + (len : Int) < q.start + (q.len : Int)) →
    (∀ y ∈ (s.thread (s.lane l)).loops, y.stop ≠ s.cur.next + (len : Int)) →
    ∃ t, exec (.sloop h a k len) s = .next t ∧ t = { s with thr := t.thr, stamp := s.stamp + 1 } ∧
      (∀ j, j ≠ s.lane l → t.thread j = s.thread j) ∧ t.thread (s.lane l) =
        let x := s.atIssue l
        if 0 < s.reg (s.lane l) a + k then
          { x.retired s.cur.next with loops := { start := s.cur.next, stop := s.cur.next + (len : Int), left := s.reg (s.lane l) a + k } :: x.loops }
        else x.retired (s.cur.next + (len : Int))) ∧
  ((∀ h t3 sat d a b, RunsScribe (.add h t3 sat d a b) h { src := [a, b], dst := [d] }
    (fun _ _ v => toW d (perPart t3 (fun n x y _ => fit sat n (x + y)) (src v 0) (src v 1) 0))) ∧
  (∀ h t3 sat d a b c, RunsScribe (.mad h t3 sat d a b c) h { src := [a, b, c], dst := [d] }
    (fun _ _ v => toW d (perPart t3 (fun n x y z => fit sat n (x * y + z)) (src v 0) (src v 1) (src v 2)))) ∧
  (∀ h t3 sat d a imm, RunsScribe (.addi h t3 sat false d a imm) h { src := [a], dst := [d] }
    (fun _ _ v => toW d (perPart t3 (fun n x _ _ => fit sat n (x + effImm h imm)) (src v 0) 0 0))) ∧
  (∀ h d a, RunsScribe (.mov h false d a) h { src := [a], dst := [d] } (fun _ _ v => toW d (src v 0))) ∧
  (∀ h d imm, RunsScribe (.movi h false d imm) h { dst := [d] } (fun _ _ _ => toW d (effImm h imm)))) ∧
  (∀ h s l y ys, s.cur.lanes = [l] → l < 16 → widOf s.cur.warp = 27 → (s.thread (s.lane l)).st = .runnable → (s.thread (s.lane l)).inH = false →
    (s.warp s.cur.warp).stopping = false → s.drafting s.cur.warp l = false →
    (trit (s.ctx (s.warp s.cur.warp).ctx).dbg 0 ≠ 1 ∨ (s.warp s.cur.warp).hm = true) → s.meetsNow s.cur.warp = false →
    Legal s { h with gcond := 0 } {} → (s.thread (s.lane l)).loops = y :: ys → y.stop = s.cur.next → 1 < y.left →
    (let q := (s.core (coreOf s.cur.warp)).scribe
     y.start < q.start + (q.len : Int)) →
    ∃ t, exec (.nop h) s = .next t ∧ t = { s with thr := t.thr, stamp := s.stamp + 1 } ∧ (∀ j, j ≠ s.lane l → t.thread j = s.thread j) ∧
      t.thread (s.lane l) = { (s.atIssue l).retired y.start with loops := { y with left := y.left - 1 } :: ys }))

/-- INK and ERASE inside a draft (R253-R256): an inner INK leaves one level; the outermost one marks its lanes and sends
the prepares once every draft lane has executed it; ERASE restores its lanes from their checkpoints and sends them
to the handler with its code. Outside a draft, INK and ERASE only retire (R254, R255). -/
def Obligations.DraftEnds : Prop :=
  ((∀ h s, Drafted s → Legal s h {} → 2 ≤ (s.warp s.cur.warp).draft.depth → s.active h ≠ [] → ∃ b, exec (.ink h) s = .next b ∧
    Done b (s.active h) (ret (s.opened h)) ((s.opened h).setWarp s.cur.warp { s.warp s.cur.warp with
      draft := { (s.warp s.cur.warp).draft with depth := (s.warp s.cur.warp).draft.depth - 1 } })) ∧
  (∀ h s, Drafted s → Legal s h {} → (s.warp s.cur.warp).draft.depth = 1 → s.active h ≠ [] → ∃ b,
    exec (.ink h) s = .next (s.unitEnd (b.draftSend s.cur.warp)) ∧
    Done b (s.active h) (fun _ x => x.waits .ink) ((s.opened h).setWarp s.cur.warp { s.warp s.cur.warp with
      draft := { (s.warp s.cur.warp).draft with inked := (s.warp s.cur.warp).draft.inked ++ s.active h } })) ∧
  (∀ h code s, Drafted s → Legal s h {} → s.active h ≠ [] → (∀ l ∈ s.active h, (s.thread (s.lane l)).kept = none) →
    ∃ b, exec (.erase h code) s = .next (s.unitEnd b) ∧
    (∀ l ∈ s.active h, ∀ c : Ckpt, (s.warp s.cur.warp).draft.ckpt.find? (fun c => decide (c.lane = l)) = some c → b.thread (s.lane l) =
      { s.atIssue l with regs := c.regs, preds := c.preds, mr := c.mr, pc := (s.warp s.cur.warp).draft.handler, st := .runnable
                         prior := .runnable, wait := .none_, busy := false, deadline := none, dcode := 1, dinfo := code, pend := none
                         ldnb := none }) ∧
    (∀ k, (∀ l ∈ s.active h, k ≠ s.lane l) → b.thread k = (s.opened h).thread k) ∧ b.mem = s.mem ∧ b.host = s.host ∧ b.ctxs = s.ctxs)) ∧
  ((∀ h, Acts (.ink h) h {} always ret (fun s _ => s)) ∧ (∀ h code, Acts (.erase h code) h {} always ret (fun s _ => s)))

/-- What a draft may not contain (R258): a form that uses a queue port or one of those that act on atomics, binary accesses, barriers, the
Nib, copies, the Scribe, phases, threads, fetch and privileged state, issued with an active draft lane, aborts the draft with FORBID
before it moves anything, and every draft lane goes to the handler with its checkpoint restored (R256). -/
def Obligations.DraftForbids : Prop :=
  (∀ h t3 sat d a b, ([a, b, d]).any isPort = true → Forbidden (.add h t3 sat d a b) h { src := [a, b], dst := [d] }) ∧
  (∀ h d a, ([a, d]).any isPort = true → Forbidden (.mov h false d a) h { src := [a], dst := [d] }) ∧
  (∀ h d a c, ([a, d]).any isPort = true → Forbidden (.movNb h d a c) h { src := [a], dst := [d], preds := [c] }) ∧
  (∀ h d a, Forbidden (.qstat h d a) h { dst := [d], names := [a], forbid := true }) ∧
  (∀ h rlx a b nb, Forbidden (.msg h rlx a b nb) h { src := [a, b], preds := nb.toList, forbid := true }) ∧
  (∀ h bt sat o d m, Forbidden (.ldb h bt .t27 sat o d m) h { src := [m.b], srcP := [m.a], dstR := [d], forbid := true }) ∧
  (∀ h bt sat o d m, Forbidden (.stb h bt .t27 sat o d m) h { src := [m.b], srcP := [m.a], srcR := [d], forbid := true }) ∧
  (∀ h op o d m c, Forbidden (.atom h op .wd o d m c) h { src := [m.b, c], srcP := [m.a], dstR := [d], forbid := true }) ∧
  (∀ h o d m c, Forbidden (.cas h .wd o d m c) h { src := [m.b, c], srcP := [m.a], dstR := [d], forbid := true }) ∧
  (∀ h op o m c, Forbidden (.red h op .wd o m c) h { src := [m.b, c], srcP := [m.a], forbid := true }) ∧
  (∀ h op o d a k disp c, Forbidden (.atomo h op .wd o d a k disp c) h { src := [k, c], srcP := [a], dstR := [d], forbid := true }) ∧
  (∀ h q d m, Forbidden (.tkt h q d m) h { src := [m.b], srcP := [m.a], dst := [d], forbid := true }) ∧
  (∀ h m c, Forbidden (.tkp h m c) h { src := [m.b, c], srcP := [m.a], forbid := true }) ∧
  (∀ h lv k rlx, Forbidden (.bar h lv k rlx) h { forbid := true }) ∧
  (∀ h lv k rlx d, Forbidden (.bara h lv k rlx d) h { dst := [d], forbid := true }) ∧
  (∀ h lv k rlx op a b n, Forbidden (.barv h lv k rlx op a b n) h { src := [a, b], forbid := true }) ∧
  (∀ h lv k rlx a, Forbidden (.barw h lv k rlx a) h { src := [a], forbid := true }) ∧
  (∀ h slot, Forbidden (.mzero h slot) h { forbid := true }) ∧
  (∀ h a g, Forbidden (.mcfg h a g) h { srcR := [a], forbid := true }) ∧
  (∀ h ws d a off, Forbidden (.fstat h ws d a off) h { srcR := [a], dstR := [d], forbid := true }) ∧
  (∀ h a b len g imm, Forbidden (.scrb h a b len g imm) h { srcR := [a, b], forbid := true }) ∧
  (∀ h d, Forbidden (.scrh h d) h { dstR := [d], forbid := true }) ∧
  (∀ h a k len, Forbidden (.sloop h a k len) h { srcR := [a], sloop := true, forbid := true }) ∧
  (∀ h, Forbidden (.phase h) h { forbid := true }) ∧
  (∀ h a b imm, Forbidden (.spawn h a b imm) h { src := [a, b], forbid := true }) ∧
  (∀ h g, Forbidden (.rclaim h g) h { forbid := true }) ∧
  (∀ h, Forbidden (.exit h) h { forbid := true }) ∧
  (∀ h code, Forbidden (.trap h code) h { forbid := true }) ∧
  (∀ h, Forbidden (.ifence h) h { forbid := true }) ∧
  (∀ h imm, Forbidden (.icinv h imm) h { forbid := true }) ∧
  (∀ h mask, Forbidden (.clrc h mask) h { level := .handler, forbid := true }) ∧
  (∀ h, Forbidden (.halt h) h { level := .sup, forbid := true }) ∧
  (∀ h a, Forbidden (.kill h a) h { srcR := [a], level := .sup, forbid := true })

/-- Events that end waits (R80, R115, R116, R132, R211, R242, R243): a late float result is written; a fence takes its next
steps, and once they are done a FENCE retires, and a unit behind a fence may act; the lanes whose time has come retire or issue their unit again; the earliest due alarm pushes its word to
q15; groups that wait for a port or a counter issue their unit again; VWIN advances after a rotation. -/
def Obligations.WaitsEnd : Prop :=
  (∀ s w o os, Still s w → (s.warp w).owed = o :: os → o.d < 216 → ∃ t, exec (.functionResultWrite w) s = .next t ∧
    t = { s with thr := t.thr, wrp := t.wrp } ∧ (∀ k, t.thread k = if k = o.thr then (s.thread k).putReg o.d o.val else s.thread k) ∧
    ∀ v, t.warp v = if v = w then { s.warp v with owed := os } else s.warp v) ∧
  (∀ s w u sc rel ends ph more, Still s w → s.fenceLanes w = (u, sc, rel, ends, ph) :: more → (∀ m ∈ more, m.2 = (sc, rel, ends, ph)) →
    let r := s.fenceRun w sc rel ((u :: more.map (·.1)).map (· % 16)) (s.thread u).pc ph
    ∃ t, exec (.fenceComplete w) s = .next t ∧
    match r.2 with
    | some q => if q = ph then t = s else t = { r.1 with thr := t.thr } ∧
        ∀ k, t.thread k = if k ∈ threadsOf w ∧ (s.thread k).inStep sc rel ends ph then { r.1.thread k with wait := .fence sc rel ends q } else r.1.thread k
    | none => t = { r.1 with thr := t.thr, wrp := t.wrp } ∧
        (∀ k, t.thread k = if k ∈ threadsOf w ∧ (s.thread k).inStep sc rel ends ph then (r.1.thread k).fenceOver else r.1.thread k) ∧
        ∀ v, t.warp v = if v = w then { r.1.warp v with fguard := none, fetch := if sc = .dflt then none else (r.1.warp v).fetch }
          else r.1.warp v) ∧
  (∀ s u, Still s (warpOf u) → s.dueNow u = true → (s.thread u).timed = true → ∃ t, exec (.timedWaitDeadline u) s = .next t ∧
    t = { s with thr := t.thr } ∧
    ∀ k, t.thread k = if k ∈ threadsOf (warpOf u) ∧ s.dueNow k = true then (s.thread k).timeOver else s.thread k) ∧
  (∀ s u, s.windowDue u = true → ∃ t, exec (.vellumWindowEnd u) s = .next t ∧ t = { s with thr := t.thr } ∧
    ∀ k, t.thread k = if k ∈ threadsOf (warpOf u) ∧ s.windowDue k = true then (s.thread k).timeOver else s.thread k) ∧
  (∀ s c l a r, (s.core c).alarms = l ++ a :: r → a.at_ ≤ s.now c → (∀ b ∈ l, a.at_ < b.at_) → (∀ b ∈ r, a.at_ ≤ b.at_) →
    (s.port c 15).length < 81 → ∃ t, exec (.alarmDue c) s = .next t ∧ t = { s with cor := t.cor } ∧
    (∀ e, e ≠ c → t.core e = s.core e) ∧ t.core c = { s.core c with alarms := l ++ r, ports := (t.core c).ports } ∧
    ∀ q, t.port c q = if q = 15 then s.port c q ++ [a.word] else s.port c q) ∧
  (∀ s w, ∃ t, exec (.queueServe w) s = .next t ∧ t = { s with thr := t.thr } ∧ ∀ k, t.thread k =
      if k ∈ threadsOf w ∧ (s.thread k).servable = true then (s.thread k).served else s.thread k) ∧
  (∀ s i, (s.dieSt (s.ownKey i)).vwin + 2187 ≤ (s.dieSt (s.ownKey i)).clk → ∃ t, exec (.vwinAdvance i) s = .next t ∧
    t = { s with die := t.die } ∧ ∀ k, t.dieSt k = if k = s.ownKey i then { s.dieSt k with vwin := (s.dieSt k).vwin + 2187 } else s.dieSt k)

/-- Barriers, phases and messages (R83, R244, R250, R363): when the last arrival of a phase has come its waiting threads
retire, a BARW issues again and the phase advances by one; arrivals signalled by other packages count; once the dies' counts
have reached a closed phase's latest W every thread that waits in PHASE retires; a message enters q13 of the mailbox's core. -/
def Obligations.PhasesEnd : Prop :=
  (∀ s w k, Still s w → Tab.get [] (s.warp w).barr k ≠ [] → (∀ u ∈ s.alive w, u % 16 ∈ Tab.get [] (s.warp w).barr k) →
    s.barWaiters .warp w k (Tab.get 0 (s.warp w).bph k) → ∃ t, exec (.barrierPhaseComplete .warp w k) s = .next t ∧
    t = { s with thr := t.thr, wrp := t.wrp } ∧
    (∀ u, t.thread u = if (s.thread u).atBar .warp w k (Tab.get 0 (s.warp w).bph k) = true then (s.thread u).leftBar else s.thread u) ∧
    ∀ v, t.warp v = if v = w then { s.warp v with barr := Tab.del k (s.warp v).barr
                                                  bph := Tab.set 0 k (wrap (Tab.get 0 (s.warp v).bph k + 1) 9) (s.warp v).bph } else s.warp v) ∧
  (∀ s c k b, s.bar .block c k = b → b.warps ≠ [] →
    b.warps.length + b.ext = (barCount (s.ctx ((s.core c).blk.getD (0, 0)).1).lr .block k).toNat → (∀ m ∈ b.warps, m.bv = none ∧
      ∃ e, Tab.find (s.ctx (m.blk / 2000000)).blk (m.blk % 2000000) = some (.placed e)) → b.extBv = [] → b.heard = none →
    s.barWaiters .block c k b.phase → ∃ t, exec (.barrierPhaseComplete .block c k) s = .next t ∧ t = { s with thr := t.thr, cor := t.cor } ∧
    (∀ u, t.thread u = if (s.thread u).atBar .block c k b.phase = true then (s.thread u).leftBar else s.thread u) ∧
    (∀ e, e ≠ c → t.core e = s.core e) ∧ t.core c = { s.core c with bars := (t.core c).bars } ∧
    ∀ j, t.bar .block c j = if j = k then { phase := wrap (b.phase + 1) 9 } else s.bar .block c j) ∧
  (∀ s key k n sent op v, k < 9 → ∃ t, exec (.barrierSignal key k { blocks := n, sent := sent } op v) s = .next t ∧ t = { s with bars := t.bars } ∧
    ∀ key2 k2, k2 < 9 → t.bar .domain key2 k2 = if key2 = key ∧ k2 = k then
      { s.bar .domain key k with
        ext := (s.bar .domain key k).ext + n, extBv := (s.bar .domain key k).extBv ++ [(op, v)]
        heard := some (max sent ((s.bar .domain key k).heard.getD sent)) } else s.bar .domain key2 k2) ∧
  (∀ s c, (s.ctx c).phaseApplied = true → (∀ d ∈ (s.ctx c).lr.dies, (s.ctx c).phaseW ≤ (s.dieSt (s.ownKey d)).clk) → (s.ctx c).saved = [] →
    Tab.sorted s.thr = true →
    (∀ q ∈ s.thr, q.2.wait = .phase → (s.warp (warpOf q.1)).ctx = c → Still s (warpOf q.1) ∧ q.2.st = .waiting) →
    ∃ t, exec (.phaseEnd c) s = .next t ∧ t = { s with thr := t.thr, ctxs := t.ctxs } ∧
    (∀ u, t.thread u = if (s.thread u).wait = .phase ∧ (s.warp (warpOf u)).ctx = c then (s.thread u).retired (s.thread u).next else s.thread u) ∧
    ∀ e, t.ctx e = if e = c then { s.ctx e with closed := [], phaseNo := (s.ctx e).phaseNo + 1, phaseApplied := false, phaseW := 0 } else s.ctx e) ∧
  (∀ s id r bid v c, s.req id = some r → r.kind = .msg bid v →
    (∀ q ∈ s.reqs, q.id < id → q.ctx = r.ctx → q.bid = r.bid → ∀ x, q.kind ≠ .msg bid x) → s.coreOfBlk r.ctx bid = some c →
    ∃ t, exec (.messageArrival id) s = .next t ∧ t = { s with reqs := s.reqs.filter (fun q => decide (q.id ≠ id)), cor := t.cor } ∧
    (∀ e, t.core e = { s.core e with ports := (t.core e).ports }) ∧
    ∀ e q, t.port e q = if e = c ∧ q = 13 then s.port e q ++ [v] else s.port e q)

/-- A commit (R142, R254): a home accepts a prepare that no lease, prepare, timed store or later write forbids, and caps
leases at V, one that has ended beginning again (DEDUCED, log 57); with every answer positive and in time the commits leave; a
home performs a line's drafted stores at V; and at V
INK retires in every draft lane, the scratchpad takes the drafted trytes, they supersede what the core's own caches and
write-backs hold of them (DEDUCED, log 57), and the draft has ended. -/
def Obligations.DraftCommits : Prop :=
  (∀ s id r w v chk wr l, s.req id = some r → r.stage = .home → r.kind = .prep w v chk wr → r.held = false → r.sent ≤ (s.dieSt r.own).clk →
    s.behind r = false → s.cached r.own r.ctx r.core (offOf r.ea) l → (wr = true → l.w = true ∧ l.cmp = false) →
    (∀ g ∈ (s.hline r.own (lineOf (l.phys (offOf r.ea)))).grants, g.core = r.core ∨ g.stop ≤ v ∨ g.stop ≤ (s.dieSt r.own).clk) →
    (∀ q ∈ (s.hline r.own (lineOf (l.phys (offOf r.ea)))).preps, q.wr = false ∨ q.warp = w) →
    (∀ q ∈ s.reqs, q.own = r.own → lineOf (l.phys (offOf r.ea)) ∉ q.plines) →
    (∀ n, chk = some n → (s.hline r.own (lineOf (l.phys (offOf r.ea)))).writes ≤ n) →
    ∃ t, exec (.draftPrepare id) s = .next t ∧ OnlyHome s t r.own ∧
    t.reqs = s.replied { r with pa := l.phys (offOf r.ea), leaf := some l } 1 0 ∧
    (∀ j, Tab.get {} (t.dieSt r.own).lines j = if j = ikey (lineOf (l.phys (offOf r.ea))) then
        let x := s.hline r.own (lineOf (l.phys (offOf r.ea)))
        { x with preps := x.preps ++ [{ warp := w, v := v, wr := wr }]
                 grants := if chk.isSome ∧ l.w = true then extendLease x.grants r.core v else x.grants }
      else Tab.get {} (s.dieSt r.own).lines j)) ∧
  (∀ s w v, (s.warp w).draft.ink = .sent v → s.numbered → (∀ r ∈ s.reqs, isPrep w r = true → r.stage = .reply 1 0 ∧ s.arrived r = true) →
    (s.draftLw w ++ s.draftLr w).length ≤ (s.reqs.filter (isPrep w)).length → s.now (coreOf w) ≤ v →
    ∃ t : State, exec (.draftDecision w) s = .next (t.inkAt w) ∧
    t = { s with wrp := t.wrp, reqs := t.reqs, nextId := s.nextId + (s.reqs.filter (isWrPrep w)).length } ∧
    t.reqs = s.reqs.filter (fun r => !isPrep w r) ++ (s.reqs.filter (isWrPrep w)).zipIdx.map (fun p =>
      s.newReq p.2 { p.1 with kind := .commit w v (s.commitTrytes w (lineOf p.1.ea) p.1.pa), stage := .home
                              lanes := (((s.drafted w).filter (fun b => decide (lineOf b.ea = lineOf p.1.ea))).map (·.lane)).eraseDups }) ∧
    ∀ u, t.warp u = if u = w then { s.warp u with draft := { (s.warp u).draft with ink := .going v } } else s.warp u) ∧
  (∀ s id r w v tr, s.req id = some r → r.kind = .commit w v tr → r.stage = .home → r.held = false → v ≤ (s.dieSt r.own).clk →
    r.sent ≤ (s.dieSt r.own).clk → (s.ctx r.ctx).lr.det = false → s.l2Has r.own r.slices (tr.map (fun q => lineOf q.1)) →
    ∃ t, exec (.draftCommitArrival id) s = .next t ∧ OnlyHome s t r.own ∧ t.reqs = s.replied { r with causes := [] } 0 v ∧
    (∀ a, |a| ≤ half 47 → t.homeTryte r.own a false = afterPuts tr a (s.homeTryte r.own a false)) ∧
    ∀ j, Tab.get {} (t.dieSt r.own).lines j = if j = ikey (lineOf r.pa) then
        let x := s.hline r.own (lineOf r.pa)
        { x with writes := x.writes + 1, preps := x.preps.filter (fun q => !(decide (q.warp = w) && decide (q.v = v))) }
      else Tab.get {} (s.dieSt r.own).lines j) ∧
  (∀ s w v, Still s w → (s.warp w).draft.ink = .going v → v ≤ s.now (coreOf w) →
    (∀ l ∈ (s.warp w).draft.lanes, l < 16 ∧ (s.thread (threadOf w l)).st = .waiting) →
    ∃ t, exec (.inkRetire w) s = .next t ∧ t = { s with thr := t.thr, wrp := t.wrp, cor := t.cor, bad := t.bad, reqs := t.reqs } ∧
    t.reqs = (s.supersede w).reqs ∧
    (∀ k, t.thread k = if ∃ l ∈ (s.warp w).draft.lanes, k = threadOf w l then (s.thread k).retired (s.thread k).next else s.thread k) ∧
    (∀ u, t.warp u = if u = w then { s.later (s.warp u) v with draft := {} } else s.warp u) ∧
    (∀ e, e ≠ coreOf w → t.core e = s.core e) ∧
    t.core (coreOf w) = { s.core (coreOf w) with blot := (s.core (coreOf w)).blot.filter (fun b => decide (b.warp ≠ w))
                                                 scr := (t.core (coreOf w)).scr, l1 := (t.core (coreOf w)).l1 } ∧
    ∀ a, regionOf a = .scratch → t.scr (coreOf w) a = afterPuts ((s.drafted w).map (fun b => (b.ea, b.val))) a (s.scr (coreOf w) a))

/-- What homes do (R52, R112, R113, R119, R127, R134, R229-R231, R233, R234, R247, R248): an atomic, also one of RED, whose
destination is z, writes the operation of the old value and its operand and replies with the old value and W; CAS writes its new
value where the old one is as expected, and replies with the old value; LDB reads the bytes of a window, and STB writes them; TKT
draws the next number; a fill changes nothing that the home reads; a timed store waits for its time, and is performed at it with W = T; a TKP whose number is awaited
is performed and N advances, a later one is held, and a refused one is sent again; an eviction writes a line's
image to its atom. Storage errors (R437, R438): a corrected error changes nothing; a register that cannot be
corrected reads as zero, its thread has DATA to raise and DATA is counted, at the error itself and not at a later read (DESIGN
CHOICE, log 15); an instruction-cache line is discarded. -/
def Obligations.HomesPerform : Prop :=
  ((∀ s id r op sz v d, s.req id = some r → r.stage = .home → spaceOf r.ea = 1 → s.homeReady r = true → r.kind = .atom op sz v d →
    (s.ctx r.ctx).lr.det = false → s.secHas r.own (covers sz r.pa) false = true → (∀ a ∈ covers sz r.pa, lineOf a = lineOf r.pa) →
    s.l2Has r.own r.slices [lineOf r.pa] → |r.pa| < half 46 → ∃ t, exec (.homeRequest id) s = .next t ∧ OnlyHome s t r.own ∧
    t.homeVal r.own r.pa sz = wrap (atomOp op sz (s.homeVal r.own r.pa sz) v) (szTrits sz) ∧
    (∀ a, a ∉ covers sz r.pa → |a| ≤ half 47 → t.homeTryte r.own a false = s.homeTryte r.own a false) ∧
    t.reqs = s.replied r (s.homeVal r.own r.pa sz) (s.wOf r.own (lineOf r.pa)) ∧
    ∀ j, Tab.get {} (t.dieSt r.own).lines j = if j = ikey (lineOf r.pa) then
        { s.hline r.own (lineOf r.pa) with writes := (s.hline r.own (lineOf r.pa)).writes + 1 } else Tab.get {} (s.dieSt r.own).lines j) ∧
  (∀ s id r sz e v d, s.req id = some r → r.stage = .home → spaceOf r.ea = 1 → s.homeReady r = true → r.kind = .cas sz e v d →
    (s.ctx r.ctx).lr.det = false → s.secHas r.own (covers sz r.pa) false = true → (∀ a ∈ covers sz r.pa, lineOf a = lineOf r.pa) →
    s.l2Has r.own r.slices [lineOf r.pa] → |r.pa| < half 46 → ∃ t, exec (.homeRequest id) s = .next t ∧ OnlyHome s t r.own ∧
    (∀ a, |a| ≤ half 47 → t.homeTryte r.own a false = if s.homeVal r.own r.pa sz = e then
        afterPuts (List.zip (covers sz r.pa) (toTrytes (szLen sz) v)) a (s.homeTryte r.own a false) else s.homeTryte r.own a false) ∧
    t.reqs = s.replied r (s.homeVal r.own r.pa sz) (if s.homeVal r.own r.pa sz = e then s.wOf r.own (lineOf r.pa) else (s.dieSt r.own).clk) ∧
    ∀ j, Tab.get {} (t.dieSt r.own).lines j = if j = ikey (lineOf r.pa) ∧ s.homeVal r.own r.pa sz = e then
        { s.hline r.own (lineOf r.pa) with writes := (s.hline r.own (lineOf r.pa)).writes + 1 } else Tab.get {} (s.dieSt r.own).lines j) ∧
  (∀ s id r b tt sa d, s.req id = some r → r.stage = .home → spaceOf r.ea = 1 → s.homeReady r = true → r.kind = .ldb b tt sa d →
    (0, cellKey r.own (r.pa.toNat / 64)) ∉ s.bad → exec (.homeRequest id) s = .next { s with
      reqs := s.replied r (ofBytes ((List.range b.bytes).map (fun i => s.byte r.own (r.pa.toNat + i)))) 0 }) ∧
  (∀ s id r n v sa, s.req id = some r → r.stage = .home → spaceOf r.ea = 1 → s.homeReady r = true → r.kind = .stb n v sa →
    (0, cellKey r.own (r.pa.toNat / 64)) ∉ s.bad → r.pa.toNat + n ≤ 2 ^ 41 → ∃ t, exec (.homeRequest id) s = .next t ∧
    t = { s with mem := t.mem, reqs := s.replied r 0 (s.dieSt r.own).clk } ∧ ∀ o b, b < 2 ^ 41 → t.byte o b =
      if o = r.own ∧ r.pa.toNat ≤ b ∧ b < r.pa.toNat + n then (toBytes n v).getD (b - r.pa.toNat) 0 % 256 else s.byte o b) ∧
  (∀ s id r q d x, s.req id = some r → r.stage = .home → spaceOf r.ea = 1 → s.homeReady r = true → r.kind = .tkt q d → s.seq r.own r.slice q = some x → x.d - x.n < 243 →
    ∃ t, exec (.homeRequest id) s = .next t ∧ OnlyHome s t r.own ∧ (t.dieSt r.own).l2 = (s.dieSt r.own).l2 ∧ (t.dieSt r.own).lines = (s.dieSt r.own).lines ∧
    (∀ j, Tab.find (t.dieSt r.own).seqs j = if j = r.slice * 27 + q then some { x with d := x.d + 1, drawn := x.drawn ++ [(x.d, r.bid)] }
      else Tab.find (s.dieSt r.own).seqs j) ∧
    t.reqs = s.replied r (tktWord q x.d) 0) ∧
  (∀ s id r a, s.req id = some r → atHome r = true → s.needSecs r = [a] →
    s.secFull r.own (secOf (r.physAt a)) (r.leafAt a).cmp = false → (s.readSec r.own (secOf (r.physAt a)) (r.leafAt a).cmp).2 = [] →
    s.l2Room r.own ((r.leafAt a).slices r.own (lineOf (r.physAt a))) (lineOf (r.physAt a)) (r.leafAt a).cmp = s →
    ∃ t, exec (.sectorFill id) s = .next t ∧ OnlyHome s t r.own ∧ t.reqs = s.reqs ∧ (t.dieSt r.own).lines = (s.dieSt r.own).lines ∧
    (∀ i, i < 27 → (Tab.find (t.sec r.own (secOf (r.physAt a)) (r.leafAt a).cmp).tr i).isSome = true) ∧
    ∀ b c, |b| ≤ half 47 → t.homeTryte r.own b c = s.homeTryte r.own b c) ∧
  (∀ s id r sz v tm, s.req id = some r → r.stage = .home → r.kind = .stva sz v tm → r.held = false → r.sent ≤ (s.dieSt r.own).clk →
    s.behind r = false → (∀ l ∈ r.plines, s.lineHeld r.own l = false ∧ ∀ g ∈ (s.hline r.own l).grants, g.stop ≤ tm ∨ g.stop ≤ (s.dieSt r.own).clk) →
    (s.dieSt r.own).clk ≤ tm → s.pendUsed r.own r.slice < 243 →
    exec (.stvaArrival id) s = .next { s.setReq { r with stage := .buffered, arr := s.nextId } with nextId := s.nextId + 1 }) ∧
  (∀ s id r sz v tm, s.req id = some r → r.stage = .buffered → r.kind = .stva sz v tm → tm ≤ (s.dieSt r.own).clk → (s.ctx r.ctx).lr.det = false →
    (∀ q ∈ s.reqs, q.own = r.own → q.stage = .buffered → ∀ z x u, q.kind = .stva z x u → tm < u ∨ (tm = u ∧ r.arr ≤ q.arr)) →
    (∀ l ∈ r.plines, s.prepHeld r.own l = false) → s.l2Has r.own r.slices r.plines →
    ∃ t, exec (.stvaPerform id) s = .next t ∧ OnlyHome s t r.own ∧ (t.dieSt r.own).seqs = (s.dieSt r.own).seqs ∧
    (∀ a, |a| ≤ half 47 → t.homeTryte r.own a false = afterPuts (List.zip r.pas (toTrytes (szLen sz) v)) a (s.homeTryte r.own a false)) ∧
    t.reqs = s.replied { r with late := false, causes := [] } 0 tm) ∧
  (∀ s id r q n x, s.req id = some r → r.stage = .home → r.kind = .tkp q n → r.held = false → r.sent ≤ (s.dieSt r.own).clk → s.behind r = false →
    s.lineHeld r.own (lineOf r.pa) = false → s.seq r.own r.slice q = some x → x.n = n → n < x.d → (∀ p ∈ x.drawn, p.2 ≠ passedMark) →
    (∀ y ∈ s.ctxs, y.2.lr.depa = 0) → (∀ k ∈ s.reqs, k.own = r.own → k.id = id ∨ k.stage ≠ .buffered) → ∃ t, exec (.atomoArrival id) s = .next t ∧ OnlyHome s t r.own ∧
    (∀ j, Tab.find (t.dieSt r.own).seqs j = if j = r.slice * 27 + q then
      some { x with n := n + 1, drawn := x.drawn.filter (fun p => decide (p.1 ≠ n)) } else Tab.find (s.dieSt r.own).seqs j) ∧
    t.reqs = s.replied r 0 (s.dieSt r.own).clk) ∧
  (∀ s id r q n x, s.req id = some r → r.stage = .home → r.kind = .tkp q n → r.held = false → r.sent ≤ (s.dieSt r.own).clk → s.behind r = false →
    s.lineHeld r.own (lineOf r.pa) = false → s.seq r.own r.slice q = some x → x.n < n → n < x.d → (n, passedMark) ∉ x.drawn →
    s.oabUsed r.own r.slice ≤ 25 →
    exec (.atomoArrival id) s = .next (s.setReq { r with stage := .buffered })) ∧
  (∀ s id r, s.req id = some r → r.stage = .refused → exec (.atomoResend id) s = .next (s.setReq { r with stage := .home })) ∧
  (∀ s own l, |l| < half 43 → (∀ k ∈ [3 * l - 1, 3 * l, 3 * l + 1], physOk own (27 * k) = true ∧ ((s.sec own k false).tr = [] ∨
      ((s.sec own k false).tr.length = 27 ∧ ∀ p ∈ (s.sec own k false).tr, p.2.written = true))) →
    ∃ t, exec (.l2Eviction (own * partBase + 2 * ikey (3 * l))) s = .next t ∧ t = { s with mem := t.mem, die := t.die, bad := t.bad } ∧
    (∀ k ∈ [3 * l - 1, 3 * l, 3 * l + 1], t.sec own k false = {} ∧ ((s.sec own k false).tr ≠ [] → ∀ i, i < 64 →
      t.byte own (64 * atomNo own k + i) =
        (atomImage ((List.range 27).map (fun (i : Nat) => s.homeTryte own (27 * k - 13 + (i : Int)) false)) 0 []).getD i 0)) ∧
    ∀ o b, b < 2 ^ 41 → (o = own → ∀ k ∈ [3 * l - 1, 3 * l, 3 * l + 1], (s.sec own k false).tr = [] ∨ b < 64 * atomNo own k ∨
      64 * atomNo own k + 64 ≤ b) → t.byte o b = s.byte o b)) ∧
  ((∀ s store key, exec (.softError store key false) s = .next s) ∧
  (∀ s u r, Still s (warpOf u) → (s.thread u).st ≠ .exited → r < 216 → ∃ t, exec (.softError 5 (u * 256 + r) true) s = .next t ∧
    t = { s with thr := t.thr, ctxs := t.ctxs } ∧ (∀ k, t.thread k = if k = u then (s.thread k).lost r else s.thread k) ∧
    ∀ c, t.ctx c = if c = (s.warp (warpOf u)).ctx then (s.ctx c).counted (dieIdx (coreOf (warpOf u))) 39 1 else s.ctx c) ∧
  (∀ s c j, j < partBase → ∃ t, exec (.softError 7 (c * partBase + j) true) s = .next t ∧ t = { s with cor := t.cor } ∧
    (∀ e, e ≠ c → t.core e = s.core e) ∧ t.core c = { s.core c with ic := (t.core c).ic } ∧
    ∀ i, Tab.find (t.core c).ic i = if i = j then none else Tab.find (s.core c).ic i))

/-- What reaches a core (R108, R109, R126, R131, R158, R221, R277, R280): a fill enters the L1 and written trytes keep their
values; a load whose trytes are there writes its register and counts no longer; W raises the warp's release times; clean
trytes without a current lease become invalid; an evicted line's written trytes leave as one write-back, which carries the warps
whose stores it holds (DEDUCED, log 56); a line of code
enters the instruction cache and the lanes that waited for it go on. -/
def Obligations.RepliesArrive : Prop :=
  (∀ s id r l tr e g, s.req id = some r → r.kind = .pref l → r.stage = .filled tr e g → tr ≠ [] → (tr.map (·.1)).Nodup →
    s.arrived r = true → s.fillBefore r g = false → s.l1Room r.core r.warp (lineOf r.t) = s → ∃ t, exec (.l1Fill id) s = .next t ∧
    t = { s with cor := t.cor, reqs := s.reqs.filter (fun q => decide (q.id ≠ id)) } ∧ (∀ c, c ≠ r.core → t.core c = s.core c) ∧
    t.core r.core = { s.core r.core with l1 := (t.core r.core).l1 } ∧
    (∀ j, j ≠ ikey (lineOf r.t) → Tab.find (t.core r.core).l1 j = Tab.find (s.core r.core).l1 j) ∧
    (∀ p, Tab.find (t.l1 r.core (lineOf r.t)).tr p = fillOver (Tab.find (s.l1 r.core (lineOf r.t)).tr p) (fillTrytes tr p)) ∧
    ∀ p ∈ tr, Tab.get .none_ (t.l1 r.core (lineOf r.t)).ends (p.1 / 27) = e) ∧
  (∀ s id r sz d le nb, s.req id = some r → r.kind = .load sz d le nb → r.stage = .l1 → r.away = false → s.arrived r = true → r.drafted = false →
    r.causes = [] → s.missing r = [] → s.stillReq r → ∃ t, exec (.loadReply id) s = .next t ∧
    t = { s with thr := t.thr, wrp := t.wrp, reqs := s.reqs.filter (fun q => decide (q.id ≠ r.id)) } ∧
    (∀ k, t.thread k = if k = r.thr then (s.thread k).putLoad sz d (s.loadVal r) else s.thread k) ∧
    ∀ w, t.warp w = if w = r.warp then (s.warp w).less r.gid else s.warp w) ∧
  (∀ s id r sz v tm x w, s.req id = some r → r.kind = .stva sz v tm → r.stage = .reply x w → r.away = false → s.arrived r = true →
    r.late = false → r.causes = [] → r.ws = [] → spaceOf r.ea = 1 → r.core = coreOf r.warp → r.widx = (s.warp r.warp).idx → Still s r.warp →
    ∃ t, exec (.writeCompletion id) s = .next t ∧ t = { s with wrp := t.wrp, ctxs := t.ctxs, cor := t.cor, reqs := t.reqs } ∧
    t.cor = (s.dropCopies r.core (lineOf r.ea)).cor ∧
    t.reqs = (s.dropCopies r.core (lineOf r.ea)).reqs.filter (fun q => decide (q.id ≠ r.id)) ∧
    (∀ v, t.warp v = if v = r.warp then (s.later (s.warp v) w).less r.gid else s.warp v) ∧
    ∀ c, t.ctx c = if c = r.ctx then { s.ctx c with rtN := max (s.ctx c).rtN (w + s.guard .domain) } else s.ctx c) ∧
  (∀ s c line, ∃ t, exec (.leaseEnd c line) s = .next t ∧ t = { s with cor := t.cor } ∧ (∀ e, e ≠ c → t.core e = s.core e) ∧
    t.core c = { s.core c with l1 := (t.core c).l1 } ∧
    (∀ j, j ≠ ikey line → Tab.find (t.core c).l1 j = Tab.find (s.core c).l1 j) ∧
    ∀ p, p ∈ (t.l1 c line).tr ↔ p ∈ (s.l1 c line).tr ∧ (p.2.written = true ∨
      ¬ ∃ e, Tab.get .none_ (s.l1 c line).ends (p.1 / 27) = .at_ e ∧ e ≤ s.now c ∧ p.1 / 27 < 3)) ∧
  (∀ s c line, ∃ t, exec (.l1Eviction c line) s = .next t ∧ (∀ e, e ≠ c → t.core e = s.core e) ∧
    t.core c = { s.core c with l1 := (t.core c).l1 } ∧ Tab.find (t.core c).l1 (ikey line) = none ∧
    (∀ j, j ≠ ikey line → Tab.find (t.core c).l1 j = Tab.find (s.core c).l1 j) ∧ t = { s with cor := t.cor, reqs := t.reqs, nextId := t.nextId } ∧
    t.reqs = (if (s.l1 c line).tr.any (fun p => p.2.written) = false then s.reqs else
      let w := c * 28 + Tab.get 0 (s.l1 c line).stw 0
      (s.dropFills c line).reqs ++ [s.newReq 0 {
        id := 0, kind := .wb (((s.l1 c line).tr.filter (fun p => p.2.written)).map (fun p => (p.1, p.2.val))) 0, stage := .home
        ctx := (s.warp w).ctx, core := c, warp := w, lane := 16, ea := 81 * line, own := ownerOf (81 * line)
        ws := (s.l1 c line).by_ }])) ∧
  (∀ s id r line tr e g, s.req id = some r → r.kind = .fetch line → r.stage = .filled tr e g → r.late = false → r.causes = [] → s.arrived r = true →
    (∀ q ∈ s.reqs, q.joined = true → q.core = r.core → lineOf q.ea ≠ lineOf r.ea) → Still s r.warp → (∀ l ∈ r.lanes, l < 16) → ∃ t, exec (.instructionFetchFill id) s = .next t ∧
    t = { s with thr := t.thr, cor := t.cor, reqs := s.reqs.filter (fun q => decide (q.id ≠ id)), stamp := s.stamp + 1 } ∧
    (∀ k, t.thread k = if ∃ l ∈ r.lanes, k = threadOf r.warp l then { s.thread k with busy := false } else s.thread k) ∧
    (∀ c, c ≠ r.core → t.core c = s.core c) ∧ t.core r.core = { s.core r.core with ic := (t.core r.core).ic } ∧
    t.icLine r.core (lineOf r.ea) = some { line := lineOf r.ea, units := unitsOf tr, stamp := s.stamp } ∧
    ∀ j, j ≠ ikey (lineOf r.ea) → Tab.find (t.core r.core).ic j = none ∨ Tab.find (t.core r.core).ic j = Tab.find (s.core r.core).ic j)

/-- Answers of owners and of the host's side (R121, R143, R219, R421, R425, R427-R429, R436, R462): a load that its page
allows goes to the L1 and its lane retires; a walk that ends in a page fault parks the lane with a record in q17; a refused
write-back of an eviction leaves its fault with the core; a message between packages arrives; a host write is performed under its
translation, one without permission parks; a PRI success
retries; an invalidation removes the page's entries. -/
def Obligations.AnswersArrive : Prop :=
  (∀ s id r sz d le nb l, s.req id = some r → r.kind = .load sz d le nb → r.stage = .owner → r.held = false → spaceOf r.ea ≠ -1 → r.ea2 = none →
    r.own = ownerOf r.ea → r.sent ≤ (s.dieSt r.own).clk → s.ownerBefore r = false → s.hasTables r.own r.ctx = true → s.winAt r.own r.ctx (offOf r.ea) = none → s.watched r = false →
    s.cached r.own r.ctx r.core (offOf r.ea) l → l.r = true → s.stillReq r → (s.thread r.thr).st = .runnable →
    ∃ t, exec (.ownerAnswer id) s = .next t ∧ t = { s with thr := t.thr, reqs := t.reqs } ∧
    t.reqs = (s.setReq { r with stage := .l1, pa := l.phys (offOf r.ea), leaf := some l }).reqs ∧
    ∀ k, t.thread k = if k = r.thr then (s.thread k).retired r.next else s.thread k) ∧
  (∀ s id r sz d le nb m, s.req id = some r → r.kind = .load sz d le nb → r.stage = .faulted m → s.drafting r.warp r.lane = false →
    s.faultBefore r = false → (∀ q ∈ s.reqs, q.id ≠ id → q.ctx = r.ctx → q.faultOwner = r.faultOwner → pageOf q.t ≠ pageOf r.t) → s.stillReq r →
    (s.thread r.thr).st = .runnable → (s.dieSt r.faultOwner).fb.length < 8 →
    (∀ e, e ∈ (s.dieSt r.faultOwner).fb ∨ e ∈ (s.dieSt r.faultOwner).missed → e ≠ { ctx := r.ctx, page := pageOf r.t }) → s.recs = [] →
    (s.port (s.q17Core r.ctx r.faultOwner) 17).length ≤ 75 → ∃ t ws, exec (.pageFault id) s = .next t ∧
    t = { s with thr := t.thr, wrp := t.wrp, die := t.die, cor := t.cor, reqs := t.reqs } ∧
    t.reqs = (s.setReq { r with stage := .parked, gid := 0 }).reqs ∧
    (∀ k, t.thread k = if k = r.thr then (s.thread k).park else s.thread k) ∧
    (∀ w, t.warp w = if w = r.warp then (s.warp w).less r.gid else s.warp w) ∧
    (∀ k, t.dieSt k = if k = r.faultOwner then { s.dieSt k with fb := (s.dieSt k).fb ++ [{ ctx := r.ctx, page := pageOf r.t }] } else s.dieSt k) ∧
    (∀ c, t.core c = { s.core c with ports := (t.core c).ports }) ∧
    (∀ c q, t.port c q = if c = s.q17Core r.ctx r.faultOwner ∧ q = 17 then s.port c q ++ ws else s.port c q) ∧
    ws.length = 6 ∧ ws.take 3 = [recHead 1 5 (recCtx r.ctx) (r.faultOwner % 27), loW r.t, hiW r.t]) ∧
  (∀ s i x xs, s.recs = x :: xs → x.core = i * 81 → (∀ y ∈ xs, y.core ≠ i * 81) → (s.port (i * 81) 17).length + x.words.length ≤ 81 →
    ∃ t, exec (.faultRecordPush i) s = .next t ∧ t = { s with recs := xs, cor := t.cor } ∧
    (∀ c, t.core c = { s.core c with ports := (t.core c).ports }) ∧
    ∀ c q, t.port c q = if c = i * 81 ∧ q = 17 then s.port c q ++ x.words else s.port c q) ∧
  (∀ s id r m tr p k, s.req id = some r → r.kind = .wb tr 0 → r.stage = .faulted m → tr = p :: k → (∀ q ∈ k, q.1 / 27 = p.1 / 27) →
    (s.core r.core).wbf.length < 27 → (∀ g ∈ (s.warp r.warp).out, g.gid ≠ r.gid) → Still s r.warp → ∃ t,
    exec (.deferredWriteBackFault id) s = .next t ∧
    t = { s with wrp := t.wrp, ctxs := t.ctxs, cor := t.cor, reqs := s.reqs.filter (fun q => decide (q.id ≠ id)) } ∧ (∀ w, t.warp w = s.warp w) ∧
    (∀ c, t.core c = if c = r.core then { s.core c with wbf := (s.core c).wbf ++
      [{ own := r.own, ea := r.ea + 27 * (((p.1 / 27 : Nat) : Int) - 1), malformed := m }] } else s.core c) ∧
    ∀ c, t.ctx c = if c = r.ctx then (s.ctx c).counted (dieIdx r.core) 44 1 else s.ctx c) ∧
  (∀ s id r, s.req id = some r → r.held = true → s.routeUp (r.own / 27) = true → r.sent ≤ (s.dieSt r.own).clk →
    exec (.hairlineArrival id) s = .next (s.setReq { r with held := false })) ∧
  (∀ s id r n bits p, s.req id = some r → r.kind = .stb n bits false → r.stage = .owner → spaceOf r.ea = -1 → s.hostBefore r = false → s.stillReq r →
    (s.thread r.thr).st = .runnable → ∃ t, exec (.atsTranslationCompletion id (some p)) s = .next t ∧
    t = { s with thr := t.thr, wrp := t.wrp, reqs := t.reqs, host := t.host
                 ats := ((s.ctx r.ctx).lr.pasid, fld r.ea 0 53 / 4096, p, true) :: s.ats } ∧
    t.reqs = s.replied r 0 (s.dieSt (s.ownKey 9)).clk ∧
    (∀ k, t.thread k = if k = r.thr then (s.thread k).retired r.next else s.thread k) ∧
    (∀ w, t.warp w = if w = r.warp then { s.warp w with lastHost := r.ea } else s.warp w) ∧
    ∀ b, t.hostByte b = let a := p * 4096 + (fld r.ea 0 53 % 4096).toNat
      if a ≤ b ∧ b < a + n then (toBytes n bits).getD (b - a) 0 % 256 else s.hostByte b) ∧
  (∀ s id r, s.req id = some r → r.stage = .owner → spaceOf r.ea = -1 → s.hostBefore r = false → isFetch r.kind = false → (∀ d, r.kind ≠ .launch d) →
    s.priCount (s.ctx r.ctx).part < 243 → s.stillReq r → (s.thread r.thr).st = .runnable →
    ∃ t, exec (.atsTranslationCompletion id none) s = .next t ∧ t = { s with thr := t.thr, wrp := t.wrp, reqs := t.reqs } ∧
    t.reqs = (s.setReq { r with stage := .pri, gid := 0 }).reqs ∧ (∀ k, t.thread k = if k = r.thr then (s.thread k).park else s.thread k) ∧
    ∀ w, t.warp w = if w = r.warp then (s.warp w).less r.gid else s.warp w) ∧
  (∀ s id r, s.req id = some r → r.stage = .pri → exec (.priResponse id true) s = .next (s.setReq { r with stage := .owner })) ∧
  (∀ s pasid page, ∃ t, exec (.atsInvalidation pasid page) s = .next t ∧ t = { s with ats := t.ats } ∧
    ∀ e, e ∈ t.ats ↔ e ∈ s.ats ∧ ¬ (e.1 = (pasid : Int) ∧ e.2.1 = (page : Int)))

/-- The walk of the tables (R421-R423, R428) and requests that no link delivers (R462). From its root a walk goes on by good pointers to a
leaf, which it answers and the TLB keeps; an invalid entry ends it in a page fault, and a malformed leaf or pointer in one that is marked
so. A load whose walk faults waits with its fault at the owner. A request that cannot be delivered within 10 ms is completed: a load with
zeros and a write by being dropped, each with DATA, an atomic with zero and nothing written. -/
def Obligations.WalksAndLosses : Prop :=
  (∀ (s : State) own ctx core off root n lvl x, s.Walking own ctx core off root → s.Walks own off root lvl n →
    trit (s.entryAt own off n lvl) 53 = 1 → LeafAt own lvl (s.entryAt own off n lvl) x → ∃ t, s.translate own ctx core off = (t, .leaf x) ∧
    t.tlbNear own ctx core off = some x ∧ t.thr = s.thr ∧ t.reqs = s.reqs) ∧
  (∀ (s : State) own ctx core off root n lvl, s.Walking own ctx core off root → s.Walks own off root lvl n → lvl ≤ 5 →
    (trit (s.entryAt own off n lvl) 53 = 0 → (s.translate own ctx core off).2 = .miss false) ∧
    (trit (s.entryAt own off n lvl) 53 = 1 → (∀ x, ¬ LeafAt own lvl (s.entryAt own off n lvl) x) → (s.translate own ctx core off).2 = .miss true) ∧
    (trit (s.entryAt own off n lvl) 53 = -1 → (lvl = 5 ∨ ¬ pointerOk own (s.entryAt own off n lvl)) → (s.translate own ctx core off).2 = .miss true)) ∧
  (∀ s id r sz d le nb m, s.req id = some r → r.kind = .load sz d le nb → r.stage = .owner → r.held = false → spaceOf r.ea ≠ -1 → r.ea2 = none →
    r.own = ownerOf r.ea → r.sent ≤ (s.dieSt r.own).clk → s.ownerBefore r = false → s.hasTables r.own r.ctx = true → s.winAt r.own r.ctx (offOf r.ea) = none →
    s.watched r = false → (s.translate r.own r.ctx r.core (offOf r.ea)).2 = .miss m → s.faultHeld r.own r.ctx (offOf r.ea) = false →
    (∀ q ∈ s.reqs, ∀ b, q.stage ≠ .faulted b) → ∃ t, exec (.ownerAnswer id) s = .next t ∧ t.thr = s.thr ∧
    t.reqs = (s.setReq { r with t := r.ea, stage := .faulted m, arr := s.nextId }).reqs) ∧
  (∀ s id r sz d le nb, s.req id = some r → r.kind = .load sz d le nb → r.held = true → s.routeUp (r.own / 27) = false →
    r.sent + 10000000 ≤ s.now r.core → s.stillReq r → (s.thread r.thr).st = .runnable →
    ∃ t, exec (.hairlineUndeliverable id) s = .next t ∧ t = { s with thr := t.thr, reqs := t.reqs, ctxs := t.ctxs } ∧
    t.reqs = (s.setReq { r with held := false, causes := r.causes ++ [17], stage := .l1
                                got := (reqTrytes r).foldl (fun g a => Tab.put (ikey a) 0 g) [] }).reqs ∧
    (∀ k, t.thread k = if k = r.thr then (s.thread k).retired r.next else s.thread k) ∧
    ∀ c, t.ctx c = if c = r.ctx then (s.ctx c).counted (dieIdx r.core) 39 1 else s.ctx c) ∧
  (∀ s id r sz v tm, s.req id = some r → r.kind = .stva sz v tm → r.held = true → s.routeUp (r.own / 27) = false →
    r.sent + 10000000 ≤ s.now r.core → s.stillReq r → (s.thread r.thr).st = .runnable →
    ∃ t, exec (.hairlineUndeliverable id) s = .next t ∧ t = { s with thr := t.thr, wrp := t.wrp, reqs := s.reqs.filter (fun q => decide (q.id ≠ id)), ctxs := t.ctxs } ∧
    (∀ k, t.thread k = if k = r.thr then ((s.thread k).owes 17).retired r.next else s.thread k) ∧
    (∀ w, t.warp w = if w = r.warp then (s.warp w).less r.gid else s.warp w) ∧
    ∀ c, t.ctx c = if c = r.ctx then (s.ctx c).counted (dieIdx r.core) 39 1 else s.ctx c) ∧
  (∀ s id r op sz v d, s.req id = some r → r.kind = .atom op sz v d → r.held = true → s.routeUp (r.own / 27) = false →
    r.sent + 10000000 ≤ s.now r.core → s.stillReq r → (s.thread r.thr).st = .runnable →
    ∃ t, exec (.hairlineUndeliverable id) s = .next t ∧ t = { s with thr := t.thr, reqs := t.reqs } ∧
    t.reqs = (s.setReq { r with held := false, stage := .reply 0 0 }).reqs ∧
    ∀ k, t.thread k = if k = r.thr then (s.thread k).retired r.next else s.thread k)

/-- The Nib's work (R286, R301-R308, R311, R312): a step takes its folios and draws its units; at its end each accumulator
has the sum of the products of its row and column added; MZERO clears a slot; a drain writes every element and its folio is
READY; QSCALE writes its scale and predicate; a finished command pushes its token and counts no longer; at a refill every
cluster has the full budget. -/
def Obligations.NibWork : Prop :=
  (∀ s c x e ra rb k bhold ta tb pa pb fa fb, s.pickTake c = none → s.pickWork c = some (x, e) → x.op = .loop ra rb k bhold ta tb pa pb → s.atC c ra 2 = some fa →
    (if bhold = true ∧ x.done ≠ 0 then x.bFolio else s.atC c rb 2) = some fb → ∃ t, exec (.nibStepStart c) s = .next t ∧
    t = { s with die := t.die, cor := t.cor } ∧ (∀ j, j ≠ c → t.core j = s.core j) ∧
    t.core c = { s.core c with folio := (t.core c).folio
                               nib := putCmd { x with now := true, waited := false, front := false, aFolio := some fa, bFolio := some fb } (s.core c).nib } ∧
    (∀ f, t.folio c f = if f = fa ∨ f = fb then { s.folio c f with st := 3 } else s.folio c f) ∧
    (∀ j, j ≠ s.ownKey (dieIdx c) → t.dieSt j = s.dieSt j) ∧
    t.dieSt (s.ownKey (dieIdx c)) = { s.dieSt (s.ownKey (dieIdx c)) with budget := (t.dieSt (s.ownKey (dieIdx c))).budget } ∧
    t.budgetOf c = (if e ≤ s.budgetOf c then s.budgetOf c - e else 0) ∧
    ∀ b, b / 81 = c / 81 → clusterOf b ≠ clusterOf c → t.budgetOf b = s.budgetOf b) ∧
  (∀ s c x ra rb k bhold ta tb pa pb fa fb, s.inWork c isLoopOp = some x → x.op = .loop ra rb k bhold ta tb pa pb → x.aFolio = some fa →
    x.bFolio = some fb → fa ≠ fb → s.bad = [] → ∃ t, exec (.nibStepComplete c) s = .next t ∧
    t = { s with cor := t.cor, nextId := if x.done + 1 = k then s.nextId + 1 else s.nextId } ∧ (∀ j, j ≠ c → t.core j = s.core j) ∧
    (∀ i j, i < 27 → j < 27 → t.accElem c x.slot (27 * i + j) = wrap (s.accElem c x.slot (27 * i + j)
      + dotAt (s.readFolio c fa ta.width pa) (s.readFolio c fb tb.width pb) i j) 27) ∧
    (∀ j, t.slotOf c j = if j = x.slot then { s.slotOf c j with acc := (t.slotOf c j).acc } else s.slotOf c j) ∧
    (∀ f, t.folio c f = if f = fa ∨ (f = fb ∧ (bhold = false ∨ x.done + 1 = k)) then { s.folio c f with st := 0 } else s.folio c f) ∧
    (t.core c).nib = putCmd { x with now := false, done := x.done + 1, fin := x.fin || decide (x.done + 1 = k), aFolio := none
                                     bFolio := if bhold = true ∧ x.done + 1 ≠ k then some fb else none
                                     order := if x.done + 1 = k then s.nextId else x.order } (s.core c).nib) ∧
  (∀ s c x, s.savingCore c = false → (s.nibFree c).find? (fun y => decide (y.op = .zero)) = some x → ∃ t, exec (.nibZeroPerform c) s = .next t ∧
    t = { s with cor := t.cor, bad := t.bad } ∧ (∀ j, j ≠ c → t.core j = s.core j) ∧
    t.core c = { s.core c with slots := (t.core c).slots, nib := (s.core c).nib.filter (fun y => decide (y.id ≠ x.id)) } ∧
    (∀ j, t.slotOf c j = if j = x.slot then { s.slotOf c j with acc := [] } else s.slotOf c j) ∧
    ∀ n, n < 729 → t.accElem c x.slot n = 0) ∧
  (∀ s c x o ot sc so sr row col key th tag fo, s.inWork c isDrainOp = some x → x.op = .drain o ot sc so sr row col key th tag → x.aFolio = some fo →
    x.bFolio = none → o.drop = false → o.res = false → fo < 243 → s.bad = [] → ∃ t, exec (.nibDrainComplete c) s = .next t ∧
    t = { s with cor := t.cor, nextId := s.nextId + 1 } ∧ (∀ j, j ≠ c → t.core j = s.core j) ∧
    (∀ n, n < 729 → t.folioElem c fo n = (drainElem o ot sc sr (s.accElem c x.slot n) 0 false).1) ∧
    (t.folio c fo).st = 2 ∧ (t.folio c fo).stag = tag ∧ (∀ f, f ≠ fo → t.folio c f = s.folio c f) ∧
    (∀ j, t.slotOf c j = if j = x.slot then { s.slotOf c j with fit := (t.slotOf c j).fit, acc := if o.z then [] else (s.slotOf c j).acc }
      else s.slotOf c j) ∧
    (t.slotOf c x.slot).fit = min (half 27) ((s.slotOf c x.slot).fit +
      (((List.range 729).countP (fun n => (drainElem o ot sc sr (s.accElem c x.slot n) 0 false).2) : Nat) : Int)) ∧
    ∃ y, (t.core c).nib = putCmd y (s.core c).nib ∧ y = { x with now := false, fin := true, soft := y.soft, order := s.nextId }) ∧
  (∀ s c x d f sa sb ot, s.inWork c isQscaleOp = some x → x.op = .qscale d f sa sb ot → s.bad = [] → d < 216 → Still s x.warp → x.lanes.Nodup →
    (∀ l ∈ x.lanes, l < 16) → ∃ t, exec (.nibQscaleComplete c) s = .next t ∧
    t = { s with thr := t.thr, cor := t.cor, nextId := s.nextId + 1 } ∧
    (∀ u, t.thread u = if (∃ l ∈ x.lanes, u = threadOf x.warp l) ∧ (s.thread u).st ≠ .exited then
        (((s.thread u).putReg d (qscaleOf (s.accMax c x.slot) sa sb ot.width).1).wrote (.pred f (qscaleOf (s.accMax c x.slot) sa sb ot.width).2))
      else s.thread u) ∧
    ∀ j, t.core j = if j = c then { s.core j with nib := putCmd { x with now := false, fin := true, order := s.nextId } (s.core j).nib }
      else s.core j) ∧
  (∀ s c x tag, s.nibDone c = some x → x.tok = some tag → Still s x.warp → ∃ t, exec (.nibCommandComplete c) s = .next t ∧ t = { s with cor := t.cor, wrp := t.wrp } ∧
    (∀ w, t.warp w = if w = x.warp then (s.warp w).less x.gid else s.warp w) ∧ (∀ j, j ≠ c → t.core j = s.core j) ∧
    t.core c = { s.core c with nib := (s.core c).nib.filter (fun y => decide (y.id ≠ x.id)), ports := (t.core c).ports } ∧
    ∀ q, t.port c q = if q = 10 then s.port c q ++ [nibToken x tag] else s.port c q) ∧
  (∀ s i, (s.dieSt (s.ownKey i)).refill < (s.dieSt (s.ownKey i)).clk - (s.dieSt (s.ownKey i)).clk % 81 →
    (∀ p ∈ s.cor, dieIdx p.1 = i → p.2.nib = []) → ∃ t, exec (.budgetRefill i) s = .next t ∧ t = { s with die := t.die } ∧
    (∀ k, t.dieSt k = if k = s.ownKey i then { s.dieSt k with
        budget := [], refill := (s.dieSt k).clk - (s.dieSt k).clk % 81, full := (s.dieSt k).budgF } else s.dieSt k) ∧
    ∀ c, dieIdx c = i → t.budgetOf c = (s.dieSt (s.ownKey i)).budgF)

/-- Copies and the Scribe's end (R139, R140, R330, R337, R338, R342): a tryte of a ternary copy goes from its source's home
to its destination's, once the source's sector has been read at one moment; an MX copy takes the scale of its tag and passes
older ones; a gather whose port has closed stops with PERM; a copy whose writes are done and past pushes its token, with the W
that a warp which observes the completion takes; a program whose
threads have exited leaves its slot. -/
def Obligations.CopyWork : Prop :=
  (∀ s c i x so sp sl, s.copyOf c i = some x → s.copyGoes c x → x.form = .lin → x.o.mode = .tt → x.o.tty = .t9 → x.o.sring = none →
    s.copyAt c ((s.core c).blk.getD (0, 0)).1 true .read 1 (x.srcAddr x.pos) = (s, .mem so sp sl) →
    (s.ctx ((s.core c).blk.getD (0, 0)).1).lr.det = false → sl.cmp = false → x.lacks (x.srcAddr x.pos, .mem so sp sl) = true →
    (∀ i, i < 27 → ∃ y, Tab.find (s.sec so (secOf sp) false).tr i = some y ∧ y.lost = false) → x.bad = [] → ∃ t, exec (.copyElementTransfer c i) s = .next t ∧ t = { s with cor := t.cor } ∧
    ∀ k, t.core k = if k = c then { s.core k with
      copies := putCopy { x with
        buf := (so * 4, secOf sp, (List.range 27).map (fun (n : Nat) => s.homeTryte so (27 * secOf sp - 13 + (n : Int)) false)) :: x.buf
        heard := max x.heard (s.dieSt so).clk } (s.core k).copies }
      else s.core k) ∧
  (∀ s c i x so sp sl d dp dl ts, s.copyOf c i = some x → s.copyGoes c x → x.form = .lin → x.o.mode = .tt → x.o.tty = .t9 →
    x.o.sring = none → x.o.dring = none →
    s.copyAt c ((s.core c).blk.getD (0, 0)).1 true .read 1 (x.srcAddr x.pos) = (s, .mem so sp sl) →
    (x.buf.find? (fun b => decide (b.1 = so * 4 + sl.cmp.toNat) && decide (b.2.1 = secOf sp))).map (·.2.2) = some ts →
    s.copyAt c ((s.core c).blk.getD (0, 0)).1 true .write 1 (x.dstAddr x.pos) = (s, .mem d dp dl) →
    (s.ctx ((s.core c).blk.getD (0, 0)).1).lr.det = false → s.l2Has d (dl.slices d) [lineOf dp] →
    ∃ t, exec (.copyElementTransfer c i) s = .next t ∧ t = { s with cor := t.cor, die := t.die } ∧
    (∀ a, |a| ≤ half 47 → t.homeTryte d a false = afterPuts [(dp, ts.getD (secPos sp) 0)] a (s.homeTryte d a false)) ∧
    (∀ k, k ≠ d → t.dieSt k = s.dieSt k) ∧ t.dieSt d = { s.dieSt d with l2 := (t.dieSt d).l2, lines := (t.dieSt d).lines } ∧
    ∀ k, t.core k = if k = c then { s.core k with copies := putCopy { x with pos := x.pos + 1, w := max x.w (s.wOf d (lineOf dp)) } (s.core k).copies }
      else s.core k) ∧
  (∀ s c i x l h q, s.copyOf c i = some x → x.o.mode = .q → x.matched = false → x.stopped = false → s.sqTurn c x = true → (s.core c).sq = l ++ h :: q →
    (∀ e ∈ l, 0 < wrap (x.o.tag - e.tag) 9) → h.tag = x.o.tag → (useScale h.scale).2 = false → ∃ t, exec (.scaleQueueMatch c i) s = .next t ∧
    t = { s with cor := t.cor, ctxs := t.ctxs } ∧
    (∀ k, t.core k = if k = c then { s.core k with sq := { h with used := true } :: q, copies := putCopy { x with matched := true, scale := (useScale h.scale).1 } (s.core k).copies } else s.core k) ∧
    ∀ k, t.ctx k = if k = ((s.core c).blk.getD (0, 0)).1 then (s.ctx k).counted (dieIdx c) 42 ((l.countP (fun e => !e.used) : Nat) : Int) else s.ctx k) ∧
  (∀ s c i x q, s.copyOf c i = some x → s.copyGoes c x → x.form = .gather → x.o.mode = .tt → x.o.sring = none → x.idxs.length ≤ x.pos / x.rowLen → x.idxPort = some q → s.port c q = [] →
    s.portClosed c ((s.core c).blk.getD (0, 0)).1 q = true → x.lanes.Nodup →
    (∀ l ∈ x.lanes, l < 16) → ((s.warp x.warp).out.any (fun g => decide (g.gid = x.gid))) = true → ∃ t, exec (.copyStop c i) s = .next t ∧
    t = { s with thr := t.thr, cor := t.cor } ∧
    (∀ k, t.core k = if k = c then { s.core k with copies := putCopy { x with stopped := true } (s.core k).copies } else s.core k) ∧
    ∀ u, t.thread u = if (∃ l ∈ x.lanes, u = threadOf x.warp l) ∧ (s.thread u).st ≠ .exited then (s.thread u).owes 5 else s.thread u) ∧
  (∀ s c i x, s.copyOf c i = some x → (x.stopped = true ∨ x.count ≤ x.pos) → max x.w x.heard ≤ s.now c → x.o.mode ≠ .q → x.form ≠ .vellum → x.dfol = [] →
    x.o.tok = true → (s.port c 9).length < 81 → Still s x.warp → ∃ t, exec (.copyComplete c i) s = .next t ∧
    t = { s with cor := t.cor, wrp := t.wrp, ctxs := t.ctxs } ∧ (∀ k, k ≠ c → t.core k = s.core k) ∧
    t.core c = { s.core c with ports := (t.core c).ports, tokW := (t.core c).tokW
                               copies := (s.core c).copies.filter (fun y => decide (y.id ≠ i)) } ∧
    (∀ q, Tab.get [] (t.core c).tokW q = if q = 9 then Tab.get [] (s.core c).tokW q ++ [x.w] else Tab.get [] (s.core c).tokW q) ∧
    (∀ q, t.port c q = if q = 9 then s.port c q ++ [x.o.tag + (if x.stopped then -1 else if x.soft then 0 else 1) * pow3 9] else s.port c q) ∧
    (∀ w, t.warp w = if w = x.warp then { s.warp w with cpW := max (s.warp w).cpW x.w }.less x.gid else s.warp w) ∧
    ∀ k, t.ctx k = if k = ((s.core c).blk.getD (0, 0)).1 then { s.ctx k with rtN := max (s.ctx k).rtN (x.w + s.guard .domain) } else s.ctx k) ∧
  (∀ s c, (s.core c).scribe.state = 2 → (∀ u ∈ threadsOf (scribeWarp c), (s.thread u).st = .exited) → (s.core c).claims = [] →
    cntOf .ld (s.warp (scribeWarp c)) = 0 → ∃ t, exec (.scribeProgramEnd c) s = .next t ∧
    t = { s with thr := t.thr, wrp := t.wrp, cor := t.cor, ctxs := t.ctxs } ∧ Tab.find t.wrp (scribeWarp c) = none ∧
    (∀ w, w ≠ scribeWarp c → t.warp w = s.warp w) ∧ (∀ u, warpOf u ≠ scribeWarp c → t.thread u = s.thread u) ∧
    ∀ k, t.core k = if k = c then { s.core k with scribe := {} } else s.core k)

/-- Video decode (R346-R351): a DECODE whose descriptor and bitstream can be read adds its unit to the stream, its slot and
its frames and completes with status +1, or with -1 and no more when the codec or the descriptor's rules refuse it; FLUSH
takes the pending frames out of the decoder; RESET empties the session; a frame is written to the oldest slot. -/
def Obligations.DecodeWork : Prop :=
  (∀ s ctx bid e c rest s1 ts b s2 bs d, (s.session ctx bid).cmds = c :: rest → (s.session ctx bid).free = true → (s.session ctx bid).flushing = none →
    cmdOp c = 1 → (s.session ctx bid).frames = [] → (s.session ctx bid).slots.length < 16 →
    s.engineRead ctx true ((List.range 81).map (fun (j : Nat) => (s.ctx ctx).decbase + 81 * (cmdIdx c + half 24) - 40 + (j : Int))) = (.ok (s1, ts), b) →
    descOk ((chunksOf 3 27 ts).map ofTrytes) (8192, 8192) = true → s1.slotBad ctx (descOf ((chunksOf 3 27 ts).map ofTrytes)) = false →
    s1.engineRead ctx false ((List.range (descOf ((chunksOf 3 27 ts).map ofTrytes)).bslen.toNat).map (fun (j : Nat) =>
      (descOf ((chunksOf 3 27 ts).map ofTrytes)).bsaddr + (j : Int))) = (.ok (s2, bs), d) →
    s2.session ctx bid = s.session ctx bid → s2.wordGoes ctx bid e 0 → ∃ t, exec (.decode ctx bid) s = .next t ∧
    let ws := (chunksOf 3 27 ts).map ofTrytes
    let h := (s.session ctx bid).hist ++ [((descOf ws).codec, bs.map (fun b => BitVec.ofNat 8 b.toNat))]
    match Config.codecFrames h with
    | none => WordGone s2 t ctx bid e { s.session ctx bid with cmds := rest } (doneWord (-1) (-1) (cmdIdx c)) 0
    | some n => if shapeOk (descOf ws).codec (Config.codecShape h) = true ∧ descOk ws ((Config.codecShape h).1, (Config.codecShape h).2.1) = true then
        WordGone s2 t ctx bid e { s.session ctx bid with cmds := rest, hist := h, slots := (s.session ctx bid).slots ++ [(cmdIdx c, ws)],
                                                         frames := (List.range n).map (fun j => { hist := h, num := j }) } (doneWord (-1) 1 (cmdIdx c)) 0
      else WordGone s2 t ctx bid e { s.session ctx bid with cmds := rest } (doneWord (-1) (-1) (cmdIdx c)) 0) ∧
  (∀ s ctx bid c rest, (s.session ctx bid).cmds = c :: rest → (s.session ctx bid).free = true → (s.session ctx bid).flushing = none → cmdOp c = 2 →
    ∃ t, exec (.decodeFlush ctx bid) s = .next t ∧ t = { s with ctxs := t.ctxs } ∧ (∀ k, k ≠ ctx → t.ctx k = s.ctx k) ∧
    t.ctx ctx = { s.ctx ctx with sess := (t.ctx ctx).sess } ∧ (∀ b, b ≠ bid → t.session ctx b = s.session ctx b) ∧
    let h := (s.session ctx bid).hist ++ [(0, [])]
    t.session ctx bid = { s.session ctx bid with cmds := rest, hist := h, flushing := some (cmdIdx c), frames := (s.session ctx bid).frames ++ (List.range ((Config.codecFrames h).getD 0)).map (fun j => { hist := h, num := j }) }) ∧
  (∀ s ctx bid e x, (s.session ctx bid).flushing = some x → (s.session ctx bid).free = true → (s.session ctx bid).frames = [] → s.wordGoes ctx bid e 0 →
    ∃ t, exec (.decodeFlush ctx bid) s = .next t ∧ WordGone s t ctx bid e { s.session ctx bid with flushing := none } (doneWord (-1) 1 x) 0) ∧
  (∀ s ctx bid e c rest, (s.session ctx bid).cmds = c :: rest → (s.session ctx bid).free = true → (s.session ctx bid).flushing = none → cmdOp c = 3 →
    s.wordGoes ctx bid e 0 → ∃ t, exec (.decodeReset ctx bid) s = .next t ∧
    WordGone s t ctx bid e { s.session ctx bid with cmds := rest, hist := [], frames := [], slots := [] } (doneWord (-1) 1 (cmdIdx c)) 0) ∧
  (∀ s ctx bid e f fs x ws ss p w, (s.session ctx bid).free = true → (s.session ctx bid).frames = f :: fs → (s.session ctx bid).slots = (x, ws) :: ss →
    s.framePut ctx 0 (frameCells (descOf ws) f) = (p, w, none) → p.session ctx bid = s.session ctx bid → p.wordGoes ctx bid e w →
    ∃ b t, exec (.decodeFrameOutput ctx bid) s = .next t ∧
    WordGone p b ctx bid e { s.session ctx bid with frames := fs, slots := ss } (doneWord 1 (if Config.codecConcealed f.hist f.num then 0 else 1) x) w ∧
    t = { b with ctxs := t.ctxs } ∧ ∀ k, t.ctx k = if k = ctx then { b.ctx k with rtN := max (b.ctx k).rtN (w + s.guard .domain) } else b.ctx k)

/-- Traps as they are delivered (R402, R403, R405, R407, R409): once no result of a stopping warp is outstanding every
raising thread saves its PC, MR and cause and runs at the handler, and the others stop; a second trap of a thread of H stops a
supervisor's core, or saves a user's block with a notice of kind 2; a trap without a handler does so with one of kind 6; a
deferred cause is raised at the issue boundary where its thread stands: a soft one sets its trit, a trapping one enters. -/
def Obligations.Traps : Prop :=
  (∀ s w, (s.warp w).stopping = true → s.raisersLive w → (s.warp w).hm = false → (s.ctx (s.warp w).ctx).tvec ≠ 0 → s.quiet w = true →
    ∃ t, exec (.trapEntry w) s = .next t ∧ t = { s with thr := t.thr, wrp := t.wrp } ∧
    (∀ u, t.thread u = if u ∈ threadsOf w then (match (s.thread u).pend with
        | some r => (s.thread u).stops.takes (s.ctx (s.warp w).ctx).tvec r
        | none => (s.thread u).stops) else s.thread u) ∧
    ∀ v, t.warp v = if v = w then { s.warp v with pl := if isSup (s.warp v).ctx = true then (s.warp v).pl else 0, hm := true, stopping := false }
      else s.warp v) ∧
  (∀ s w, (s.warp w).stopping = true → s.raisersLive w → (s.warp w).hm = true → s.doubled w = true → isSup (s.warp w).ctx = true →
    ∃ t, exec (.doubleTrap w) s = .next t ∧ t = { s with thr := t.thr, wrp := t.wrp, mg := t.mg } ∧
    (∀ u, t.thread u = if u ∈ threadsOf w then (s.thread u).stops else s.thread u) ∧
    (∀ v, t.warp v = if v = w then { s.warp v with stopping := false } else s.warp v) ∧
    t.mg = { s.mg with bootst := 6, stopped := s.mg.stopped ++ [coreOf w], msix := s.mg.msix ++ [1] }) ∧
  (∀ s w, (s.warp w).stopping = true → s.raisersLive w → (s.warp w).hm = true → s.doubled w = true → isSup (s.warp w).ctx = false →
    s.forceable (s.warp w).ctx (s.warp w).bid (coreOf w) → s.q17Free (s.warp w).ctx (dieIdx (coreOf w)) 3 → w ∈ s.warpsOf (coreOf w) →
    ∃ t, exec (.doubleTrap w) s = .next t ∧ t = { s with thr := t.thr, wrp := t.wrp, ctxs := t.ctxs, cor := t.cor } ∧
    (∀ u, t.thread u = if u ∈ threadsOf w ∧ (s.thread u).pend.isSome = true ∧ (s.thread u).inH = true then { (s.thread u).stops with pend := none }
      else if warpOf u ∈ s.warpsOf (coreOf w) then (s.thread u).stops else s.thread u) ∧
    (∀ v, t.warp v = if v = w then { s.warp v with stopping := false } else s.warp v) ∧
    (∀ k, t.ctx k = if k = (s.warp w).ctx then s.savingBlk (s.ctx k) (s.warp w).bid (coreOf w) else s.ctx k) ∧
    Noticed s t (s.warp w).ctx (dieIdx (coreOf w)) (warpNotice s 2 w)) ∧
  (∀ s w, (s.warp w).stopping = true → s.raisersLive w → (s.warp w).hm = false → (s.ctx (s.warp w).ctx).tvec = 0 → s.quiet w = true →
    isSup (s.warp w).ctx = false → s.forceable (s.warp w).ctx (s.warp w).bid (coreOf w) → s.q17Free (s.warp w).ctx (dieIdx (coreOf w)) 3 →
    w ∈ s.warpsOf (coreOf w) → ∃ t, exec (.unhandledTrap w) s = .next t ∧
    t = { s with thr := t.thr, wrp := t.wrp, ctxs := t.ctxs, cor := t.cor } ∧
    (∀ u, t.thread u = if warpOf u ∈ s.warpsOf (coreOf w) then (if warpOf u = w then (match (s.thread u).pend with
        | some r => (s.thread u).stops.unhandles r
        | none => (s.thread u).stops) else (s.thread u).stops) else s.thread u) ∧
    (∀ v, t.warp v = if v = w then { s.warp v with stopping := false } else s.warp v) ∧
    (∀ k, t.ctx k = if k = (s.warp w).ctx then s.savingBlk (s.ctx k) (s.warp w).bid (coreOf w) else s.ctx k) ∧
    Noticed s t (s.warp w).ctx (dieIdx (coreOf w)) (warpNotice s 6 w)) ∧
  (∀ s u, Still s (warpOf u) → lateDue (s.thread u) = true →
    (∀ k ∈ threadsOf (warpOf u), lateDue (s.thread k) = true → ∀ r ∈ (s.thread k).later, s.traps (s.warp (warpOf u)).ctx r.cause = false) →
    ∃ t, exec (.deferredCause u) s = .next t ∧ t = { s with thr := t.thr } ∧
    ∀ k, t.thread k = if k ∈ threadsOf (warpOf u) ∧ lateDue (s.thread k) = true then
        { s.thread k with later := [], cause := (s.thread k).later.foldl (fun v r => setFld v r.cause 1 1) (s.thread k).cause
                          early := (s.thread k).later.foldl (fun e r => some (e.getD r)) (s.thread k).early } else s.thread k) ∧
  (∀ s u r, Still s (warpOf u) → (s.warp (warpOf u)).hm = false → (s.thread u).later = [r] → lateDue (s.thread u) = true →
    (s.thread u).kept = none → s.raisers (warpOf u) = [] → (∀ k ∈ threadsOf (warpOf u), k ≠ u → lateDue (s.thread k) = false) → (s.warp (warpOf u)).draft.depth = 0 →
    s.traps (s.warp (warpOf u)).ctx r.cause = true → (s.ctx (s.warp (warpOf u)).ctx).tvec ≠ 0 → s.quiet (warpOf u) = true →
    ∃ t, exec (.deferredCause u) s = .next t ∧ t = { s with thr := t.thr, wrp := t.wrp } ∧
    (∀ k, t.thread k = if k = u then
        { (s.thread u) with later := [], cause := setFld (s.thread u).cause r.cause 1 1, busy := false }.stops.takes
          (s.ctx (s.warp (warpOf u)).ctx).tvec r
      else if k ∈ threadsOf (warpOf u) then (s.thread k).stops else s.thread k) ∧
    ∀ v, t.warp v = if v = warpOf u then { s.warp v with pl := if isSup (s.warp v).ctx = true then (s.warp v).pl else 0, hm := true } else s.warp v)

/-- The ends of saves and kills, and a hang (R410, R412, R413, R415-R418): a context that has been hung for HANGTH has HANG
set in its threads and, without a save area, is killed, with a notice of kind 3 by way of its first die (DESIGN CHOICE, log 27); a killed context is gone with its cores once
nothing of it is to be performed, with one of kind 5; a block without work in flight leaves its core, with one of kind 4. -/
def Obligations.ContextEnds : Prop :=
  (∀ s c t0 b e, (s.ctx c).hang = some t0 → s.isHung c = true → t0 + (s.part (s.ctx c).part).hangth ≤ (s.dieSt (s.ownKey (s.hangDie c))).clk →
    saveBaseOk (s.ctx c).savebase = false → b < (s.ctx c).lr.blocks → s.blkSt c b = .placed e → s.q17Free c (s.hangDie c) 3 → (s.warpsIn c).Nodup →
    ∃ t, exec (.hang c) s = .next t ∧ t = { s with thr := t.thr, cor := t.cor, ctxs := t.ctxs, fresh := s.fresh + 243 } ∧
    (∀ u, t.thread u = if warpOf u ∈ s.warpsIn c ∧ (s.thread u).st ≠ .exited then
        { s.thread u with cause := setFld (s.thread u).cause 19 1 1 }.stops else s.thread u) ∧
    (∀ k, t.ctx k = if k = c then { s.ctx k with killing := true, killNeg := true, hang := none, graph := none
                                                 recPark := Tab.del 0 (s.ctx k).recPark } else s.ctx k) ∧
    Noticed s t c (s.hangDie c) (recHead 3 2 (recCtx c) (s.hangDie c) ::
      [loW (t0 + (s.part (s.ctx c).part).hangth), hiW (t0 + (s.part (s.ctx c).part).hangth)])) ∧
  (∀ s c, (s.ctx c).live = true → (s.ctx c).killing = true → (s.ctx c).graph = none → (∀ r ∈ s.reqs, r.ctx ≠ c) → (∀ p ∈ s.die, p.2.seqs = []) → Tab.sorted s.cor = true →
    s.q17Free c ((s.ctx c).lr.dies.headD 0) 2 → ((s.core (s.q17Core c (s.ownKey ((s.ctx c).lr.dies.headD 0)))).blk.map (·.1)) ≠ some c →
    ∃ t, exec (.killComplete c) s = .next t ∧
    t = { s with thr := t.thr, wrp := t.wrp, cor := t.cor, die := t.die, ctxs := t.ctxs, bars := t.bars, reqs := t.reqs, bad := t.bad } ∧
    (∀ k, t.ctx k = if k = c then { part := (s.ctx c).part, counters := (s.ctx c).counters } else s.ctx k) ∧
    (∀ u, t.thread u = if ((s.core (coreOf (warpOf u))).blk.map (·.1)) = some c then {} else s.thread u) ∧
    (∀ w, t.warp w = if ((s.core (coreOf w)).blk.map (·.1)) = some c then {} else s.warp w) ∧
    (∀ e, t.core e = if ((s.core e).blk.map (·.1)) = some c then { clid := (s.core e).clid } else { s.core e with ports := (t.core e).ports }) ∧
    ∀ e q, ((s.core e).blk.map (·.1)) ≠ some c → t.port e q =
      if e = s.q17Core c (s.ownKey ((s.ctx c).lr.dies.headD 0)) ∧ q = 17 then s.port e q ++
        [recHead 5 1 (recCtx c) ((s.ctx c).lr.dies.headD 0), if (s.ctx c).killNeg = true then -1 else 0] else s.port e q) ∧
  (∀ s c b e t0, s.blkSt c b = .saving e t0 → (s.ctx c).killing = false → (s.ctx c).graph = none →
    Tab.find (s.ctx c).recPark (b + 1) = none → s.saveReady e = true → s.saveTo c (s.recLow c (some b)) = .ok →
    s.saveTo c (s.recLow c none) = .ok → s.dirtyLines e = [] → (∀ r ∈ s.reqs, r.core ≠ e) → (∀ w ∈ s.warpsOf e, (s.warp w).owed = []) →
    s.q17Free c (dieIdx e) 2 → s.q17Core c (s.ownKey (dieIdx e)) ≠ e →
    ∃ t, exec (.saveComplete c b) s = .next t ∧
    t = { s with thr := t.thr, wrp := t.wrp, cor := t.cor, die := t.die, ctxs := t.ctxs, bad := t.bad, mem := t.mem, fresh := t.fresh, nextId := t.nextId } ∧
    (∀ u, t.thread u = if coreOf (warpOf u) = e then {} else s.thread u) ∧ (∀ w, t.warp w = if coreOf w = e then {} else s.warp w) ∧
    (∀ j, t.core j = if j = e then { clid := (s.core e).clid } else { s.core j with ports := (t.core j).ports }) ∧
    (∀ j q, j ≠ e → t.port j q = if j = s.q17Core c (s.ownKey (dieIdx e)) ∧ q = 17 then s.port j q ++ [recHead 4 1 (recCtx c) (dieIdx e), (b : Int)]
      else s.port j q) ∧
    (∀ k, k ≠ b → t.blkSt c k = s.blkSt c k) ∧ t.blkSt c b = .saved e ∧
    ∃ y, Tab.find (t.ctx c).saved b = some y ∧ y.at_ = e ∧ ∀ i, i < 448 → Tab.get {} y.thr i = s.thread (448 * e + i))

/-- The life of a block (R61, R70, R446-R448): a block whose condition holds enters its die's placement queue; the
dispatcher gives a lone block the lowest free core of the cluster with the fewest; its warps start at the entry on the
partitions in turn; when its last work has ended the core is free; and when every block has ended 1 is added at cmpa and the
context's number is free. -/
def Obligations.BlockLife : Prop :=
  (∀ s c b m d, s.blkSt c b = .wait m → (s.ctx c).live = true → (s.ctx c).killing = false →
    d = (if (s.ctx c).lr.det = true then (s.ctx c).lr.dies.getD (b / 80) 0 else (s.ctx c).lr.dies.getD (b / (s.ctx c).lr.group % (s.ctx c).lr.dies.length) 0) →
    (m = true ∨ ((s.ctx c).lr.nbt ≤ (s.dieSt (s.ownKey d)).clk ∧ ((s.ctx c).lr.depa = 0 ∨ (s.ctx c).depMet = true))) →
    ∃ t, exec (.blockEligible c b) s = .next t ∧ t = { s with die := t.die, ctxs := t.ctxs } ∧
    (∀ k, t.ctx k = if k = c then { s.ctx k with blk := Tab.put b .queued (s.ctx k).blk } else s.ctx k) ∧
    ∀ k, t.dieSt k = if k = s.ownKey d then
      { s.dieSt k with queue := (s.dieSt k).queue ++ [{ ctx := c, bid := b, since := (s.dieSt k).clk, resume := false }] } else s.dieSt k) ∧
  (∀ s d e cl f fs, (s.dieSt (s.ownKey d)).queue = [e] → e.resume = false → (s.ctx e.ctx).lr.det = false → (s.ctx e.ctx).lr.group = 1 →
    s.blkSt e.ctx e.bid = .queued → (s.ctx e.ctx).killing = false → cl < 9 → s.freeCores d cl = f :: fs →
    (∀ k, k < 9 → s.freeCores d k ≠ [] → fs.length < (s.freeCores d k).length ∧ (k < cl → fs.length + 1 < (s.freeCores d k).length)) →
    ∃ t, exec (.placement d) s = .next t ∧ t = { s with die := t.die, ctxs := t.ctxs, cor := t.cor } ∧
    (∀ k, t.dieSt k = { s.dieSt k with queue := (s.dieSt k).queue.filter (fun q => decide (q.ctx ≠ e.ctx) || decide (q.bid ≠ e.bid)) }) ∧
    (∀ k, t.ctx k = if k = e.ctx then { s.ctx k with blk := Tab.put e.bid (.taken f false) (s.ctx k).blk
                                                     place1 := Tab.put e.bid ((Tab.find (s.ctx k).place1 e.bid).getD (clusterOf f)) (s.ctx k).place1 }
      else s.ctx k) ∧
    ∀ k, t.core k = if k = f then { blk := some (e.ctx, e.bid), clid := (Tab.find (s.ctx e.ctx).place1 e.bid).getD (clusterOf f) } else s.core k) ∧
  (∀ s c b f, s.blkSt c b = .taken f false → (s.ctx c).killing = false → (s.ctx c).lr.warps ≤ 27 → ∃ t, exec (.blockStart c b) s = .next t ∧
    t = { s with thr := t.thr, wrp := t.wrp, ctxs := t.ctxs } ∧
    (∀ k, t.ctx k = if k = c then { s.ctx k with blk := Tab.put b (.placed f) (s.ctx k).blk } else s.ctx k) ∧
    (∀ i, i < (s.ctx c).lr.warps → t.warp (28 * f + 9 * (i % 3) + i / 3) = { ctx := c, bid := b, idx := i, n := (s.ctx c).lr.regs, pl := -1 } ∧
      ∀ l, l < 16 → t.thread (16 * (28 * f + 9 * (i % 3) + i / 3) + l) =
        { pc := (s.ctx c).lr.entry, st := .runnable, stamp := s.stamp, regs := (t.thread (16 * (28 * f + 9 * (i % 3) + i / 3) + l)).regs } ∧
        ∀ r, Tab.get 0 (t.thread (16 * (28 * f + 9 * (i % 3) + i / 3) + l)).regs r = (s.ctx c).lr.init.getD r 0) ∧
    ∀ w, (∀ i, i < (s.ctx c).lr.warps → w ≠ 28 * f + 9 * (i % 3) + i / 3) → t.warp w = s.warp w ∧ ∀ u, u / 16 = w → t.thread u = s.thread u) ∧
  (∀ s c b f, s.blkSt c b = .placed f → isSup c = false → s.blockOver c b f = true → s.dirtyLines f = [] → (s.core f).wbf = [] →
    (∀ p ∈ s.die, p.2.seqs = []) → (∀ r ∈ s.reqs, r.ctx = c → r.bid = b → isMsg r.kind = true) → ∃ t, exec (.blockEnd c b) s = .next t ∧
    t = { s with thr := t.thr, wrp := t.wrp, cor := t.cor, ctxs := t.ctxs, die := t.die, bad := t.bad, nextId := t.nextId } ∧
    (∀ k, t.core k = if k = f then { clid := (s.core f).clid } else s.core k) ∧ (∀ u, t.thread u = if coreOf (warpOf u) = f then {} else s.thread u) ∧
    (∀ w, t.warp w = if coreOf w = f then {} else s.warp w) ∧ (∀ k, t.dieSt k = s.dieSt k) ∧
    ∀ k, t.ctx k = if k = c then { s.ctx k with blk := Tab.put b .ended (s.ctx k).blk, sess := Tab.del b (s.ctx k).sess
                                                pend := if (s.core f).pbuf = [] then (s.ctx k).pend
                                                  else Tab.put b (Tab.get [] (s.ctx k).pend b ++ (s.core f).pbuf) (s.ctx k).pend }
      else s.ctx k) ∧
  (∀ s c l, isSup c = false → (s.ctx c).live = true → (s.ctx c).killing = false → (∀ p ∈ (s.ctx c).blk, p.2 = .ended) → (∀ r ∈ s.reqs, r.ctx ≠ c) →
    (s.ctx c).pend = [] → (∀ d ∈ (s.ctx c).lr.dies, (s.ctx c).rtN ≤ (s.dieSt (s.ownKey d)).clk) → (∀ p ∈ s.die, p.2.seqs = []) →
    (s.ctx c).lr.cmpa ≠ 0 → s.cached (ownerOf (s.ctx c).lr.cmpa) c 0 (offOf (s.ctx c).lr.cmpa) l →
    s.lineHeld (ownerOf (s.ctx c).lr.cmpa) (lineOf (l.phys (offOf (s.ctx c).lr.cmpa))) = false →
    s.secHas (ownerOf (s.ctx c).lr.cmpa) (covers .wd (l.phys (offOf (s.ctx c).lr.cmpa))) false = true →
    s.l2Has (ownerOf (s.ctx c).lr.cmpa) (l.slices (ownerOf (s.ctx c).lr.cmpa)) ((covers .wd (l.phys (offOf (s.ctx c).lr.cmpa))).map lineOf) →
    ∃ t, exec (.contextCompletion c) s = .next t ∧ t = { s with die := t.die, ctxs := t.ctxs, bars := t.bars } ∧
    (∀ k, t.ctx k = if k = c then { part := (s.ctx c).part, counters := (s.ctx c).counters } else s.ctx k) ∧
    ∀ a, |a| ≤ half 47 → t.homeTryte (ownerOf (s.ctx c).lr.cmpa) a false =
      afterPuts (List.zip (covers .wd (l.phys (offOf (s.ctx c).lr.cmpa)))
        (toTrytes 3 (wrap (s.homeVal (ownerOf (s.ctx c).lr.cmpa) (l.phys (offOf (s.ctx c).lr.cmpa)) .wd + 1) 27))) a
        (s.homeTryte (ownerOf (s.ctx c).lr.cmpa) a false))

/-- Bins and claims (R61, R73, R76, R271): a bin's timer makes it due; a due bin becomes a warp at once when a slot is free
and its registers fit; the head claim of a warp is granted when the free space covers it, and its lanes retire. -/
def Obligations.BinsAndClaims : Prop :=
  (∀ s c b y, Tab.find (s.core c).bins b = some y → y.due ≤ s.now c → ∃ t, exec (.spawnBinTimer c b) s = .next t ∧ t = { s with cor := t.cor } ∧
    ∀ k, t.core k = if k = c then { s.core k with bins := Tab.put b { y with flush := true } (s.core k).bins } else s.core k) ∧
  (∀ s c b y i bl, Tab.find (s.core c).bins b = some y → y.slot = none → y.args ≠ [] → y.args.length ≤ 16 → (y.flush = true ∨ y.args.length = 16) →
    s.freeSlot c = some i → (s.core c).claims = [] → (s.core c).blk = some bl → s.savingCore c = false → (16 * (s.ctx bl.1).lr.regs : Int) ≤ s.poolFree c →
    ∃ t, exec (.spawnWarpCreate c b) s = .next t ∧ t = { s with cor := t.cor, wrp := t.wrp, thr := t.thr } ∧
    (∀ k, k ≠ c → t.core k = s.core k) ∧
    t.core c = { s.core c with bins := (t.core c).bins, spawned := (s.core c).spawned + 1 } ∧
    (∀ j, Tab.find (t.core c).bins j = if j = b then none else Tab.find (s.core c).bins j) ∧
    (∀ w, t.warp w = if w = 28 * c + i then { ctx := bl.1, bid := bl.2, idx := (s.ctx bl.1).lr.warps + (s.core c).spawned, spawned := true
                                              n := (s.ctx bl.1).lr.regs, pl := if isSup bl.1 = true then 1 else -1 } else s.warp w) ∧
    (∀ l p, y.args[l]? = some p → t.thread (16 * (28 * c + i) + l) =
        { pc := y.entry, st := .runnable, stamp := s.stamp, regs := (t.thread (16 * (28 * c + i) + l)).regs } ∧
      ∀ r, Tab.get 0 (t.thread (16 * (28 * c + i) + l)).regs r = if r = 0 then p.1 else if r = 1 then p.2 else 0) ∧
    ∀ u, (∀ l, l < y.args.length → u ≠ 16 * (28 * c + i) + l) → t.thread u = s.thread u) ∧
  (∀ s c w g lanes (k : Nat) rest, (s.core c).claims = { by_ := .warp w g lanes, words := k } :: rest → (k : Int) ≤ s.poolFree c →
    s.savingCore c = false → (s.warp w).n + 9 * g ≤ 216 →
    Still s w → lanes.Nodup → (∀ l ∈ lanes, l < 16 ∧ (s.thread (threadOf w l)).st = .waiting) → ∃ t, exec (.claimGrant c) s = .next t ∧
    t = { s with thr := t.thr, wrp := t.wrp, cor := t.cor } ∧
    (∀ e, t.core e = if e = c then { s.core e with claims := rest } else s.core e) ∧
    (∀ v, t.warp v = if v = w then { (s.warp v).keeps (s.warp v).n with n := (s.warp v).n + 9 * g } else s.warp v) ∧
    ∀ u, t.thread u =
      let x := if u ∈ threadsOf w then { s.thread u with regs := below (s.warp w).n (s.thread u).regs } else s.thread u
      if ∃ l ∈ lanes, u = threadOf w l then x.retired x.next else x)

/-- The host's accesses (R143, R440, R453-R457): an inbox write of a word enters q16, another is counted; a posted write is
performed at its home in order; reads complete with the bytes as the homes hold them, or with nothing; writes are posted atom by
atom or counted; FLUSH completes when nothing is posted and the guards have passed, and otherwise waits; a function that is not behind its port gives no
bytes. How an event names a function and its port is the model's form (DESIGN CHOICE, log 77). -/
def Obligations.HostAccess : Prop :=
  (∀ s req f p a bs, s.mg.powerOff = false → s.fnOf f = some p → bs.length = 8 → a % 8 = 0 → |int64 (byteVals bs)| ≤ half 27 → s.noInbox →
    (s.part p).up = true → (s.port (s.inboxCore p) 16).length < 81 → (∀ x ∈ s.mg.posted, x.req ≠ req ∨ x.part ≠ p) →
    (∀ w, Tab.find s.mg.lastW (req * 16 + p) = some w → w + s.guard .pkg ≤ s.now (s.inboxCore p)) → ∃ t, exec (.inbox req f a bs) s = .next t ∧
    t = { s with parts := t.parts, cor := t.cor, nextId := s.nextId + 1 } ∧ (∀ k, t.part k = s.part k) ∧
    (∀ e, t.core e = { s.core e with ports := (t.core e).ports }) ∧
    ∀ e q, t.port e q = if e = s.inboxCore p ∧ q = 16 then s.port e q ++ [int64 (byteVals bs)] else s.port e q) ∧
  (∀ s req f p a bs, s.mg.powerOff = false → s.fnOf f = some p → (bs.length ≠ 8 ∨ a % 8 ≠ 0 ∨ half 27 < |int64 (byteVals bs)|) →
    ∃ t, exec (.inbox req f a bs) s = .next t ∧
    t = { s with parts := t.parts, mg := { s.mg with mdisc := min (s.mg.mdisc + 1) (2 ^ 32 - 1) } } ∧
    ∀ k, t.part k = if k = p then { s.part k with discards := min ((s.part k).discards + 1) (2 ^ 24 - 1) } else s.part k) ∧
  (∀ s x rest, s.mg.powerOff = false → s.mg.posted = x :: rest → s.noInbox → (x.sector = true → x.bytes.length = 64 ∧ x.byte % 64 = 0 ∧
      s.lineHeld x.own (lineOf (27 * ((x.byte / 64 : Nat) - halfSecs x.own))) = false) → x.byte + x.bytes.length ≤ 2 ^ 41 →
    ∃ t w, exec (.hostWrite x.req) s = .next t ∧
    w = (if x.sector = true then s.wOf x.own (lineOf (27 * ((x.byte / 64 : Nat) - halfSecs x.own))) else (s.dieSt x.own).clk) ∧
    t = { s with mem := t.mem, die := t.die, bad := t.bad, parts := t.parts
                 mg := { s.mg with posted := rest, lastW := Tab.put (x.req * 16 + x.part) (max w (Tab.get w s.mg.lastW (x.req * 16 + x.part))) s.mg.lastW
                                   flushes := s.mg.flushes.map (fun q => if x.no < q.1 then (q.1, some (max (q.2.getD w) w)) else q) } } ∧
    (∀ k, t.part k = s.part k) ∧
    (∀ o b, b < 2 ^ 41 → t.byte o b = if o = x.own ∧ x.byte ≤ b ∧ b < x.byte + x.bytes.length then x.bytes.getD (b - x.byte) 0 % 256 else s.byte o b) ∧
    (x.sector = true → t.sec x.own ((x.byte / 64 : Nat) - halfSecs x.own) false = {}) ∧ (x.sector = false → t.die = s.die ∧ t.bad = s.bad)) ∧
  (∀ s req f p off n, s.mg.powerOff = false → s.fnOf f = some p → s.writesWait req p = false → s.readHeld p off n = false → 0 < n →
    (∀ i, i < n → ∃ o b, s.aperture p (off + i) = some (o, b) ∧ (∀ q ∈ (s.sec o ((b / 64 : Nat) - halfSecs o) false).tr, q.2.written = false) ∧
      (0, cellKey o (b / 64)) ∉ s.bad) →
    exec (.sectorApertureRead req f off n) s = .next (s.withMg { s.mg with hostRd := s.mg.hostRd ++ [(List.range n).map (fun i =>
      match s.aperture p (off + i) with
      | some (o, b) => BitVec.ofNat 8 (s.byte o b)
      | none => 0)] })) ∧
  (∀ s req f p off n, s.mg.powerOff = false → s.fnOf f = some p → s.writesWait req p = false → s.readHeld p off n = false → (n = 0 ∨ s.aperture p off = none ∨ s.aperture p (off + n - 1) = none) →
    exec (.sectorApertureRead req f off n) s = .next (s.withMg { s.mg with hostRd := s.mg.hostRd ++ [[]] })) ∧
  (∀ s req f p off bs o b, s.mg.powerOff = false → s.fnOf f = some p → bs.length = 64 → off % 64 = 0 → s.aperture p off = some (o, b) →
    exec (.sectorApertureWrite req f off bs) s = .next (if s.imageOk o b (byteVals bs) = true then
      { s with nextId := s.nextId + 1, mg := { s.mg with posted := s.mg.posted ++
        [{ no := s.nextId, req := req, part := p, own := o, byte := b, bytes := byteVals bs, sector := true }] } }
      else s.withMg { s.mg with hdisc := min (s.mg.hdisc + 1) (2 ^ 32 - 1) })) ∧
  (∀ s req f p off n, s.mg.powerOff = false → s.fnOf f = some p → s.writesWait req p = false →
    exec (.windowApertureRead req f off n) s = .next (s.withMg { s.mg with hostRd := s.mg.hostRd ++ [if n ≠ 0 ∧ s.winAccess p off n = true then
      (List.range n).map (fun i => match s.aperture p (off + i) with
        | some (o, b) => BitVec.ofNat 8 (s.byte o b)
        | none => 0) else []] })) ∧
  (∀ s req f p off bs o b, s.mg.powerOff = false → s.fnOf f = some p → bs ≠ [] → bs.length ≤ 64 - off % 64 → s.aperture p off = some (o, b) →
    exec (.windowApertureWrite req f off bs) s = .next (if s.winAccess p off bs.length = true then
      { s with nextId := s.nextId + 1, mg := { s.mg with posted := s.mg.posted ++
        [{ no := s.nextId, req := req, part := p, own := o, byte := b, bytes := byteVals bs, sector := false }] } }
      else s.withMg { s.mg with hdisc := min (s.mg.hdisc + 1) (2 ^ 32 - 1), aer := s.mg.aer + 1 })) ∧
  (∀ s req f off n, s.mg.powerOff = false → s.fnOf f = none →
    exec (.sectorApertureRead req f off n) s = .next (s.withMg { s.mg with hostRd := s.mg.hostRd ++ [[]] }) ∧
    exec (.windowApertureRead req f off n) s = .next (s.withMg { s.mg with hostRd := s.mg.hostRd ++ [[]] })) ∧
  (∀ s f p, s.mg.powerOff = false → s.fnOf f = some p → s.mg.flushes = [] → s.mg.posted = [] →
    (∀ q ∈ s.mg.lastW, q.2 + s.guard .pkg ≤ (s.dieSt (s.ownKey 9)).clk) →
    exec (.flush f) s = .next { s with nextId := s.nextId + 1
                                       mg := { s.mg with hostRd := s.mg.hostRd ++ [[0, 0, 0, 0, 0, 0, 0, 0]] } }) ∧
  (∀ s f p x, s.mg.powerOff = false → s.fnOf f = some p → s.mg.flushes = [] → x ∈ s.mg.posted → x.no < s.nextId → ∃ w,
    exec (.flush f) s = .next { s with nextId := s.nextId + 1, mg := { s.mg with flushes := [(s.nextId, w)] } })

/-- Ownership, registers and firmware (R458-R460, R464): CLAIM gives the package to the master that names its owner, and
answers in the master's bit; registers change for the owner alone, and another write is counted; the boot ROM verifies the image
and says so in BOOTST and FWSTAT. -/
def Obligations.Management : Prop :=
  (∀ s m v, s.mg.powerOff = false → 1 ≤ m → m ≤ 3 → s.mg.owner = v % 256 →
    ((s.mg.owner = 0 ∧ v / 256 % 256 = m) ∨ (s.mg.owner = m ∧ v / 256 % 256 ≤ 3)) →
    exec (.claim m v) s = .next (s.withMg { s.mg with owner := v / 256 % 256, claimst := noBit s.mg.claimst (m - 1) + 2 ^ (m - 1)
                                                      msix := s.mg.msix ++ (if v / 256 % 256 = s.mg.owner then [] else [0]) })) ∧
  (∀ s m v, s.mg.powerOff = false → 1 ≤ m → m ≤ 3 →
    ¬ (s.mg.owner = v % 256 ∧ ((s.mg.owner = 0 ∧ v / 256 % 256 = m) ∨ (s.mg.owner = m ∧ v / 256 % 256 ≤ 3))) →
    exec (.claim m v) s = .next (s.withMg { s.mg with claimst := noBit s.mg.claimst (m - 1) })) ∧
  (∀ s m v, exec (.mgmtRegisterWrite m 0x0004 v) s = exec (.claim m v) s) ∧
  (∀ s m a v, s.mg.powerOff = false → a ≠ 0x0004 → (m ≠ s.mg.owner ∨ m = 0) →
    exec (.mgmtRegisterWrite m a v) s = .next (s.withMg { s.mg with mdisc := min (s.mg.mdisc + 1) (2 ^ 32 - 1) })) ∧
  (∀ s m v, s.mg.powerOff = false → m = s.mg.owner → m ≠ 0 → v < 2 ^ 32 →
    exec (.mgmtRegisterWrite m 0x0010 v) s = .next (if rowsReserved v = true then s else s.withMg { s.mg with pending := partcfgBits v }) ∧
    (v < 2 ^ 31 → exec (.mgmtRegisterWrite m 0x0014 v) s = .next (s.withMg { s.mg with p2p := v / 2 ^ 16 % 2 ^ 9 })) ∧
    exec (.mgmtRegisterWrite m 0x0024 v) s = .next (s.withMg { s.mg with fwlen := v }) ∧
    exec (.mgmtRegisterWrite m 0x0030 v) s = .next (s.withMg { s.mg with domcfg := v }) ∧
    exec (.mgmtRegisterWrite m 0x0040 v) s = .next (if 600 ≤ v ∧ v ≤ 1500 then s.withMg { s.mg with pcap := v } else s) ∧
    (v % 2 = 1 → exec (.mgmtRegisterWrite m 0x0028 v) s = exec (.fwgo m) s)) ∧
  (∀ s m, s.mg.powerOff = false → m = s.mg.owner → m ≠ 0 → (s.mg.bootst = 1 ∨ s.mg.bootst = 3) →
    exec (.fwgo m) s = .next (s.withMg (if s.fwCode = 0 then
      { s.mg with bootst := 4, fwImage := s.image, fwstat := 0, msix := s.mg.msix ++ [1, 1] }
      else { s.mg with bootst := 3, fwstat := s.fwCode, msix := s.mg.msix ++ [1, 1] }))) ∧
  (∀ s m off bs, s.mg.powerOff = false → m = s.mg.owner → m ≠ 0 → ∃ t, exec (.firmwareWindowWrite m off bs) s = .next t ∧
    t = s.withMg { s.mg with fw := t.mg.fw } ∧
    ∀ i, Tab.get 0 t.mg.fw i = if off ≤ i ∧ i < off + bs.length ∧ i < 4194304 then bs.getD (i - off) 0 else Tab.get 0 s.mg.fw i)

/-- Supervisors and partitions (R395, R415, R461, R464, R470): an apply and a function-level reset kill the contexts of their
partitions, and go on once their work is performed; bring-up starts a supervisor on core 0 of every die of each partition, or
fails; power-up leaves all but memory as reset does. -/
def Obligations.Supervisors : Prop :=
  (∀ s m r, s.mg.powerOff = false → m = s.mg.owner → m ≠ 0 → s.mg.applying = false → Tab.sorted s.ctxs = true →
    Tab.sorted s.parts = true → Tab.sorted s.wrp = true → r ∈ s.reqs → r.mustEnd = true → (s.ctx r.ctx).live = true → (Tab.find s.parts (s.ctx r.ctx).part).isSome = true →
    ∃ t, exec (.partctlApply m) s = .next t ∧
    t = { s with thr := t.thr, ctxs := t.ctxs, parts := t.parts, mg := { s.mg with applying := true } } ∧
    Killed s t (fun p => (Tab.find s.parts p).isSome) ∧ ∀ k, t.part k = { s.part k with up := false }) ∧
  (∀ s f fn r, s.mg.powerOff = false → f ≠ 0 → s.fnOf f = some fn → s.mg.applying = false →
    Tab.sorted s.ctxs = true → Tab.sorted s.parts = true → Tab.sorted s.wrp = true → (∀ p ∈ s.parts, p.2.flr = false) → r ∈ s.reqs → r.mustEnd = true →
    (s.ctx r.ctx).live = true → (s.ctx r.ctx).part = fn →
    ∃ t, exec (.functionLevelReset f) s = .next t ∧ t = { s with thr := t.thr, ctxs := t.ctxs, parts := t.parts } ∧
    Killed s t (fun p => decide (p = fn)) ∧
    ∀ k, t.part k = if k = fn then { s.part k with up := false, flr := s.broughtUp, inbox := [], msgs := [] } else s.part k) ∧
  (∀ s, s.mg.powerOff = false → exec (.functionLevelReset 0) s = .next (s.withMg { s.mg with fw := [], fwlen := 0 })) ∧
  (∀ s ok, s.mg.powerOff = false → s.mg.bootst = 4 → (ok = false ∨ domainBad s.mg.domcfg = true) →
    exec (.bringUpComplete ok) s = .next (s.withMg { s.mg with bootst := 6, msix := s.mg.msix ++ [1] })) ∧
  (∀ s, s.mg.powerOff = false → s.mg.bootst = 4 → domainBad s.mg.domcfg = false → ∃ t, exec (.bringUpComplete true) s = .next t ∧
    t.pkg = s.mg.domcfg / 2 ^ 27 % 2 ^ 5 ∧ t.mg.bootst = 5 ∧ t.mg.partcfg = s.mg.pending ∧ t.mg.domain = s.mg.domcfg % 2 ^ 27 ∧
    ∀ p x, Tab.find (layoutOf s.mg.pending) p = some x → t.part p = { x with up := true } ∧
      ∀ d ∈ x.dies, ((t.core (81 * d)).blk.map (·.1)) = some (supOf p) ∧ (t.warp (28 * (81 * d))).pl = 1 ∧
        ∀ l, l < 16 → (t.thread (16 * (28 * (81 * d)) + l)).st = .runnable ∧ (t.thread (16 * (28 * (81 * d)) + l)).pc = Config.supEntry p) ∧
  (∀ s, s.pkg = 0 → ∃ t, exec .powerUp s = .next t ∧
    t = { State.reset with mem := s.mem, host := s.host, bad := t.bad, die := t.die, inputs := s.inputs, fresh := s.fresh, stamp := s.stamp
                           nextId := s.nextId } ∧
    (∀ q, q ∈ t.bad ↔ q ∈ s.bad ∧ q.1 = 0) ∧ ∀ k, t.dieSt k = if k / 27 = 0 then {} else s.dieSt k)

/-- The SPDM responder (R465; the layouts of its responses are the model's, log 10): versions, capabilities, algorithms, the digest and
the portions of slot 0's chain, a signed answer to a challenge, signed measurements, and ERROR for all else. -/
def Obligations.SpdmResponder : Prop :=
  ∀ s, s.mg.powerOff = false →
  (∀ i v, (i, v) ∈ [(Instr.getVersion, ({ s.mg with spdmVer := true, spdmCap := false, spdmAlg := false }, [0x04, 0x12, 0x13])),
      (Instr.getCapabilities, ({ s.mg with spdmCap := true }, [0x61, 0x16])),
      (Instr.getDigests, (s.mg, [0x01, 1] ++ byteVals (Config.sha384 (Config.certChain (Config.sha384 s.mg.fwImage)))))] →
    exec i s = .next (s.withMg { v.1 with spdmOut := s.mg.spdmOut ++ [v.2.map (BitVec.ofNat 8)] })) ∧
  (∀ alg, exec (.negotiateAlgorithms alg) s = .next (s.withMg { s.mg with
    spdmAlg := alg.asym && alg.hash
    spdmOut := s.mg.spdmOut ++ [[0x63, if alg.asym = true then 0x80 else 0, if alg.hash = true then 2 else 0]] })) ∧
  (∀ slot off len, exec (.getCertificate slot off len) s = .next (s.withMg { s.mg with spdmOut := s.mg.spdmOut ++ [
    (if slot ≠ 0 ∨ (Config.certChain (Config.sha384 s.mg.fwImage)).length ≤ off then [0x7F, 1, 0]
     else [0x02, 0] ++ leBytes 2 (((byteVals (Config.certChain (Config.sha384 s.mg.fwImage))).drop off).take len).length
       ++ leBytes 2 ((Config.certChain (Config.sha384 s.mg.fwImage)).length - off - (((byteVals (Config.certChain (Config.sha384 s.mg.fwImage))).drop off).take len).length)
       ++ ((byteVals (Config.certChain (Config.sha384 s.mg.fwImage))).drop off).take len).map (BitVec.ofNat 8)] })) ∧
  (∀ slot nonce, exec (.challenge slot nonce) s = .next (s.withMg { s.mg with spdmOut := s.mg.spdmOut ++ [
    (if slot ≠ 0 then [0x7F, 1, 0]
     else ([0x03, 0] ++ byteVals (Config.sha384 (Config.certChain (Config.sha384 s.mg.fwImage))) ++ leBytes 32 nonce)
       ++ s.sign ([0x03, 0] ++ byteVals (Config.sha384 (Config.certChain (Config.sha384 s.mg.fwImage))) ++ leBytes 32 nonce)).map (BitVec.ofNat 8)] })) ∧
  (∀ idx nonce, exec (.getMeasurements idx nonce) s = .next (s.withMg { s.mg with spdmOut := s.mg.spdmOut ++ [
    (if idx = 0 then [0x60, 4]
     else if 4 < idx ∧ idx ≠ 255 then [0x7F, 1, 0]
     else let ms := if idx = 255 then [1, 2, 3, 4] else [idx]
      ([0x60, ms.length] ++ ms.flatMap (fun i => i :: s.measurement i) ++ leBytes 32 nonce)
       ++ s.sign ([0x60, ms.length] ++ ms.flatMap (fun i => i :: s.measurement i) ++ leBytes 32 nonce)).map (BitVec.ofNat 8)] })) ∧
  ∀ code, exec (.spdmUnsupportedRequest code) s = .next (s.withMg { s.mg with
    spdmOut := s.mg.spdmOut ++ [[0x7F, 7, BitVec.ofNat 8 code]] })

/-- Power and the domain's time (R123, R462, R463, R466): the end of a window moves the clock by a step and reports it; at 110
the package is off, and what it loses is what power-up finds cleared (DEDUCED, log 39); a port's training is kept; a Sync is
measured and passed on; at an interval Sync or its absence and the
delay requests go out; a delay request is answered, a response kept; holdover is entered with TIME in every thread, and left
after sixteen good Syncs. -/
def Obligations.PowerAndTime : Prop :=
  (∀ s w tp, s.mg.powerOff = false → exec (.powerWindow w tp) s =
    let c := if s.mg.pcap < w ∨ 100 ≤ tp then max 390 (s.mg.clk - 26) else min 1300 (s.mg.clk + 26)
    .next (s.withMg { s.mg with clk := c
                                therm := min tp 255 + (if c < 1300 then 256 else 0) + 65536 *
                                  min (s.mg.therm / 2 ^ 16 % 2 ^ 16 + (if s.mg.clk = 1300 ∧ c < 1300 then 1 else 0)) (2 ^ 16 - 1)
                                msix := s.mg.msix ++ (if c = s.mg.clk then [] else [2]) })) ∧
  (∀ s tp, s.mg.powerOff = false → 110 ≤ tp → ∃ t, exec (.thermalShutdown tp) s = .next t ∧ t.mg = { powerOff := true } ∧ t.thr = [] ∧ t.wrp = [] ∧
    t.cor = [] ∧ t.ctxs = State.reset.ctxs ∧ t.reqs = [] ∧ t.recs = [] ∧ t.pkg = s.pkg ∧ t.host = s.host ∧
    ∀ o b, b < 2 ^ 41 → t.byte o b = if o / 27 = s.pkg then (BitVec.ofNat 8 (zeroByte (b % 64))).toNat else s.byte o b) ∧
  (∀ s p ok, s.mg.powerOff = false → p < 9 → ∃ t, exec (.hairlinePortTraining p ok) s = .next t ∧
    t = s.withMg { s.mg with trained := t.mg.trained } ∧ ∀ q, Tab.get true t.mg.trained q = if q = p then ok else Tab.get true s.mg.trained q) ∧
  (∀ s off, s.mg.powerOff = false → s.grandmaster ≠ s.pkg → exec (.sync off true) s = .next (s.withMg { s.mg with
    offset := off, noSync := 0, goodSync := if |off| ≤ 2 then s.mg.goodSync + 1 else 0
    clkOut := s.mg.clkOut ++ s.treePorts.map (fun p => (p, Clk.sync, (s.dieSt (s.ownKey 9)).clk)) })) ∧
  (∀ s, s.mg.powerOff = false → exec .syncInterval s = .next (s.withMg { s.mg with
    noSync := if s.grandmaster = s.pkg then s.mg.noSync else s.mg.noSync + 1
    clkOut := s.mg.clkOut ++ (if s.grandmaster = s.pkg then s.treePorts.map (fun p => (p, Clk.sync, (s.dieSt (s.ownKey 9)).clk)) else [])
      ++ ((List.range 9).filter (fun q => Tab.get true s.mg.trained q)).map (fun p => (p, Clk.pdelayReq, (s.dieSt (s.ownKey 9)).clk)) })) ∧
  (∀ s p v, s.mg.powerOff = false → p < 9 → exec (.pdelay p v) s = .next (s.withMg (match v with
    | none => { s.mg with clkOut := s.mg.clkOut ++ [(p, Clk.pdelayResp, (s.dieSt (s.ownKey 9)).clk)] }
    | some d => { s.mg with delays := Tab.put p d s.mg.delays }))) ∧
  (∀ s, s.mg.powerOff = false → s.mg.holdover = false → s.grandmaster ≠ s.pkg → (8 ≤ s.mg.noSync ∨ 243 < |s.mg.offset|) → Tab.sorted s.thr = true →
    ∃ t, exec .holdoverEntry s = .next t ∧
    t = { s with thr := t.thr, ctxs := t.ctxs, mg := { s.mg with holdover := true, goodSync := 0, msix := s.mg.msix ++ [3] } } ∧
    ∀ u, t.thread u = if (s.thread u).st = .exited then s.thread u
      else { s.thread u with later := (s.thread u).later ++ [{ cause := 23, deferred := true }] }) ∧
  (∀ s, s.mg.powerOff = false → s.mg.holdover = true → 16 ≤ s.mg.goodSync →
    exec .holdoverExit s = .next (s.withMg { s.mg with holdover := false, msix := s.mg.msix ++ [3] }))

/-- Decoding an encoded unit gives the instruction back, for every well-formed instruction with every operand at every value
that its encoding admits, wherever the unit may stand and whatever follows it (R145-R164). -/
def Obligations.EncodeDecode : Prop :=
  ∀ (i : Instr) (n : Int) (us rest : List Int), i.wf = true → encode i = some us →
    (∀ k, k + 1 < us.length → lineEnds (n + (k : Int)) = false) → decodeUnit n (us ++ rest) = .ok (i, us.length)

/-- Units written from the fields of the spec's own examples (R145, R147, R162, R163) decode to what they stand for: the
guarded ADD, the LD behind its PXI, the zero unit as NOP, a hint, and a unit of a reserved row, which is no instruction. -/
def Obligations.DecodedWords : Prop :=
  decodeUnit 0 [spellUnit (-364) (-118) 2 (-116) (-114) (-112) 0 0 0 0 0 0] = .ok (.add { plainHdr with gpred := 3, gcond := 6 } false false 5 7 9, 1) ∧
  decodeUnit 0 [176 * pow3 75 + pow3 27, spellUnit (-148) 0 (-4) (-115) (-119) (-113) 0 0 0 0 1 0] =
    .ok (.ld { plainHdr with pxi := some (pow3 27) } .wd { ord := .dflt, scope := .dflt } .page 6 { a := 2, b := 8, k := 1, disp := 0 }, 2) ∧
  (∃ h, decodeUnit 0 [0] = .ok (.nop h, 1)) ∧
  decodeUnit 0 [spellUnit 320 5 4 3 2 1 0 0 0 0 0 7] = .ok (.hint (spellUnit 320 5 4 3 2 1 0 0 0 0 0 7), 1) ∧
  decodeUnit 0 [spellUnit 216 0 (-4) 0 0 0 0 0 0 0 0 0] = .error .opcode

/-- A step runs the unit that stands at the program counter: when inputs name a warp's issue, and when the device by itself takes
it in its turn (DESIGN CHOICE, log 5), the next state is the instruction's, followed by what the device notes after every step. A
unit that waits for an earlier result leaves the state in which it acts as it is, and has not run (R156). -/
def Obligations.StepRuns : Prop :=
  (∀ (s : State) w l ls us i t, s.mg.powerOff = false → s.selects w l ls us i →
    exec i (s.atUnit w (l :: ls) (s.thread (threadOf w l)).pc us.length) = .next t →
    t ≠ s → t ≠ s.atUnit w (l :: ls) (s.thread (threadOf w l)).pc us.length →
    step { s with inputs := .issue w :: s.inputs } = .next t.noted) ∧
  (∀ (s : State) w l ls us i t before after, s.mg.powerOff = false → s.inputs = [] → (s.dieSt (s.ownKey 0)).clk.toNat % 3 = 0 →
    s.warpsFrom ((s.dieSt (s.ownKey 0)).clk.toNat / 3) = before ++ w :: after → (∀ v ∈ before, s.pickGroup v [] = []) →
    s.selects w l ls us i → exec i (s.atUnit w (l :: ls) (s.thread (threadOf w l)).pc us.length) = .next t →
    t ≠ s → t ≠ s.atUnit w (l :: ls) (s.thread (threadOf w l)).pc us.length → step s = .next t.tick.noted) ∧
  (∀ (s : State) i t, s.mg.powerOff = false → isEvent i = true → exec i s = .next t →
    step { s with inputs := .event i :: s.inputs } = .next t.noted)

/-- After reset memory lists nothing, no context is live, no thread exists, every table is in form, the boot controller waits for an
image (BOOTST 1), nobody owns the package, PARTCFG has one partition, and the clock runs at 1300 MHz (R458-R464, R466, R470; the
memory's contents are log 1, the registers without a stated value log 3). -/
def Obligations.ResetState : Prop :=
  Formed State.reset ∧ State.reset.mem = [] ∧ (∀ c, (State.reset.ctx c).live = false) ∧ (∀ t, (State.reset.thread t).st = .exited) ∧
  State.reset.mg.bootst = 1 ∧ State.reset.mg.owner = 0 ∧ State.reset.mg.partcfg = 0x100 ∧ State.reset.mg.clk = 1300 ∧ State.reset.pkg = 0

/-- Every step keeps the form of the state: from every state in form, not only those a run reaches, a step's next state is in
form; memory stays canonical, table keys rise, requests in flight keep distinct numbers. -/
def Obligations.StepKeepsForm : Prop :=
  ∀ s t, Formed s → step s = .next t → Formed t

/-- The image of a sector (R50-R53): 27 trytes written as an atom read back as they were, without a rejected code and with clean
metadata; byte b holds the offset reading of trits 5b and up; and each byte above 242, and a byte 48 above 26, reads as zero trits
while the others read as encoded, and is rejected. -/
def Obligations.SectorImage : Prop :=
  (∀ ts : List Int, ts.length = 27 → (∀ v ∈ ts, |v| ≤ half 9) →
    readAtom (atomImage ts 0 []) = { trytes := ts, rejected := false } ∧ badMeta (atomImage ts 0 []) = false ∧ (atomImage ts 0 []).length = 64 ∧
    (∀ b, b < 48 → (((atomImage ts 0 []).getD b 0 : Nat) : Int) = fld (ofTrytes ts) (5 * b) 5 + 121) ∧
    (((atomImage ts 0 []).getD 48 0 : Nat) : Int) = fld (ofTrytes ts) 240 3 + 13) ∧
  (∀ bs : List Nat, bs.length = 64 →
    ((readAtom bs).rejected = true ↔ (∃ b, b < 48 ∧ 242 < bs.getD b 0) ∨ 26 < bs.getD 48 0) ∧
    (∀ b, b < 48 → fld (ofTrytes (readAtom bs).trytes) (5 * b) 5 = if bs.getD b 0 ≤ 242 then ((bs.getD b 0 : Nat) : Int) - 121 else 0) ∧
    fld (ofTrytes (readAtom bs).trytes) 240 3 = if bs.getD 48 0 ≤ 26 then ((bs.getD 48 0 : Nat) : Int) - 13 else 0)
end

