-- ==== Sys2Proof/Laws/Tab.lean ====
section
/-! SUPPORT. Tables of plain data: what a lookup gives after a write, and that writes keep the canonical form. -/

namespace Sys2Proof.Machine

@[simp] theorem Tab.get_nil {α : Type} (z : α) (k : Nat) : Tab.get z [] k = z := rfl
@[simp] theorem Tab.find_nil {α : Type} (k : Nat) : Tab.find ([] : Tab α) k = none := rfl

theorem Tab.get_put {α : Type} (z v : α) (k j : Nat) (t : Tab α) :
    Tab.get z (Tab.put k v t) j = if j = k then v else Tab.get z t j := by
  induction t with
  | nil => simp [Tab.put, Tab.get, eq_comm]
  | cons p t ih =>
    obtain ⟨i, w⟩ := p
    simp only [Tab.put]
    split
    · simp [Tab.get, eq_comm]
    · split
      · subst_vars; simp only [Tab.get]; split
        · rename_i e; simp [e]
        · rename_i e; simp [Ne.symm e]
      · simp only [Tab.get, ih]; split <;> split <;> simp_all

@[simp] theorem Tab.get_put_self {α : Type} (z v : α) (k : Nat) (t : Tab α) : Tab.get z (Tab.put k v t) k = v := by
  simp [Tab.get_put]
theorem Tab.get_put_ne {α : Type} (z v : α) {k j : Nat} (t : Tab α) (h : j ≠ k) :
    Tab.get z (Tab.put k v t) j = Tab.get z t j := by simp [Tab.get_put, h]

theorem Tab.find_put {α : Type} (v : α) (k j : Nat) (t : Tab α) :
    Tab.find (Tab.put k v t) j = if j = k then some v else Tab.find t j := by
  induction t with
  | nil => simp [Tab.put, Tab.find, eq_comm]
  | cons p t ih =>
    obtain ⟨i, w⟩ := p
    simp only [Tab.put]
    split
    · simp [Tab.find, eq_comm]
    · split
      · subst_vars; simp only [Tab.find]; split
        · rename_i e; simp [e]
        · rename_i e; simp [Ne.symm e]
      · simp only [Tab.find, ih]; split <;> split <;> simp_all

theorem Tab.get_del {α : Type} (z : α) (k j : Nat) (t : Tab α) :
    Tab.get z (Tab.del k t) j = if j = k then z else Tab.get z t j := by
  induction t with
  | nil => simp [Tab.del, Tab.get]
  | cons p t ih =>
    obtain ⟨i, w⟩ := p
    simp only [Tab.del]
    split
    · subst_vars; simp only [ih, Tab.get]; split
      · rfl
      · rename_i e; simp [Ne.symm e]
    · simp only [Tab.get, ih]; split <;> split <;> simp_all

theorem Tab.find_del {α : Type} (k j : Nat) (t : Tab α) :
    Tab.find (Tab.del k t) j = if j = k then none else Tab.find t j := by
  induction t with
  | nil => simp [Tab.del, Tab.find]
  | cons p t ih =>
    obtain ⟨i, w⟩ := p
    simp only [Tab.del]
    split
    · subst_vars; simp only [ih, Tab.find]; split
      · rfl
      · rename_i e; simp [Ne.symm e]
    · simp only [Tab.find, ih]; split <;> split <;> simp_all

theorem Tab.get_set {α : Type} [DecidableEq α] (z v : α) (k j : Nat) (t : Tab α) :
    Tab.get z (Tab.set z k v t) j = if j = k then v else Tab.get z t j := by
  unfold Tab.set
  split
  · subst_vars; exact Tab.get_del v k j t
  · exact Tab.get_put z v k j t

/-- What is listed is what a lookup gives. -/
theorem Tab.get_of_find {α : Type} (z v : α) (k : Nat) (t : Tab α) (h : Tab.find t k = some v) : Tab.get z t k = v := by
  induction t with
  | nil => simp at h
  | cons p t ih => obtain ⟨i, w⟩ := p; simp only [Tab.find] at h; simp only [Tab.get]; split <;> simp_all
theorem Tab.get_of_find_none {α : Type} (z : α) (k : Nat) (t : Tab α) (h : Tab.find t k = none) : Tab.get z t k = z := by
  induction t with
  | nil => rfl
  | cons p t ih => obtain ⟨i, w⟩ := p; simp only [Tab.find] at h; simp only [Tab.get]; split <;> simp_all

/-! The keys rise strictly. -/

/-- A table whose keys rise is one whose head lies below the others. -/
theorem Tab.sorted_cons {α : Type} (k : Nat) (v : α) (t : Tab α) :
    Tab.sorted ((k, v) :: t) = true ↔ (∀ p ∈ t, k < p.1) ∧ Tab.sorted t = true := by
  induction t generalizing k v with
  | nil => simp [Tab.sorted]
  | cons p t ih =>
    obtain ⟨i, w⟩ := p
    simp only [Tab.sorted, Bool.and_eq_true, decide_eq_true_eq, List.mem_cons, forall_eq_or_imp]
    constructor
    · rintro ⟨h1, h2⟩
      exact ⟨⟨h1, fun p hp => h1.trans (((ih i w).1 h2).1 p hp)⟩, h2⟩
    · rintro ⟨⟨h1, -⟩, h2⟩
      exact ⟨h1, h2⟩

theorem Tab.mem_put {α : Type} {k : Nat} {v : α} {t : Tab α} {p : Nat × α} (h : p ∈ Tab.put k v t) : p = (k, v) ∨ p ∈ t := by
  induction t with
  | nil => simp_all [Tab.put]
  | cons q t ih =>
    obtain ⟨i, w⟩ := q
    simp only [Tab.put] at h
    split at h
    · simpa using h
    · split at h
      · simp only [List.mem_cons] at h ⊢; tauto
      · simp only [List.mem_cons] at h ⊢
        rcases h with h | h
        · tauto
        · have := ih h; tauto

theorem Tab.mem_del {α : Type} {k : Nat} {t : Tab α} {p : Nat × α} (h : p ∈ Tab.del k t) : p ∈ t := by
  induction t with
  | nil => simp [Tab.del] at h
  | cons q t ih =>
    obtain ⟨i, w⟩ := q
    simp only [Tab.del] at h
    split at h
    · exact List.mem_cons_of_mem _ (ih h)
    · simp only [List.mem_cons] at h ⊢
      rcases h with h | h
      · exact .inl h
      · exact .inr (ih h)

theorem Tab.sorted_put {α : Type} (k : Nat) (v : α) {t : Tab α} (h : Tab.sorted t = true) : Tab.sorted (Tab.put k v t) = true := by
  induction t with
  | nil => rfl
  | cons p t ih =>
    obtain ⟨i, w⟩ := p
    have hs := (Tab.sorted_cons i w t).1 h
    simp only [Tab.put]
    split
    · rename_i hk
      refine (Tab.sorted_cons ..).2 ⟨fun p hp => ?_, h⟩
      rcases List.mem_cons.1 hp with rfl | hp
      · exact hk
      · exact hk.trans (hs.1 p hp)
    · split
      · subst_vars; exact (Tab.sorted_cons ..).2 hs
      · refine (Tab.sorted_cons ..).2 ⟨fun p hp => ?_, ih hs.2⟩
        rcases Tab.mem_put hp with rfl | hp
        · simp only; omega
        · exact hs.1 p hp

theorem Tab.sorted_del {α : Type} (k : Nat) {t : Tab α} (h : Tab.sorted t = true) : Tab.sorted (Tab.del k t) = true := by
  induction t with
  | nil => rfl
  | cons p t ih =>
    obtain ⟨i, w⟩ := p
    have hs := (Tab.sorted_cons i w t).1 h
    simp only [Tab.del]
    split
    · exact ih hs.2
    · exact (Tab.sorted_cons ..).2 ⟨fun p hp => hs.1 p (Tab.mem_del hp), ih hs.2⟩

theorem Tab.sorted_set {α : Type} [DecidableEq α] (z : α) (k : Nat) (v : α) {t : Tab α} (h : Tab.sorted t = true) :
    Tab.sorted (Tab.set z k v t) = true := by
  unfold Tab.set; split
  · exact Tab.sorted_del k h
  · exact Tab.sorted_put k v h

end Sys2Proof.Machine
end

