-- ==== Sys2Proof/Laws/State.lean ====
section
/-! SUPPORT. The updates of the state's tables, field by field and reader by reader. -/

namespace Sys2Proof.Machine

/-! setThread. -/
@[simp] theorem State.setThread_wrp (s : State) (t : Nat) (x : Thread) : (s.setThread t x).wrp = s.wrp := rfl
@[simp] theorem State.setThread_cor (s : State) (t : Nat) (x : Thread) : (s.setThread t x).cor = s.cor := rfl
@[simp] theorem State.setThread_die (s : State) (t : Nat) (x : Thread) : (s.setThread t x).die = s.die := rfl
@[simp] theorem State.setThread_ctxs (s : State) (t : Nat) (x : Thread) : (s.setThread t x).ctxs = s.ctxs := rfl
@[simp] theorem State.setThread_parts (s : State) (t : Nat) (x : Thread) : (s.setThread t x).parts = s.parts := rfl
@[simp] theorem State.setThread_reqs (s : State) (t : Nat) (x : Thread) : (s.setThread t x).reqs = s.reqs := rfl
@[simp] theorem State.setThread_recs (s : State) (t : Nat) (x : Thread) : (s.setThread t x).recs = s.recs := rfl
@[simp] theorem State.setThread_bad (s : State) (t : Nat) (x : Thread) : (s.setThread t x).bad = s.bad := rfl
@[simp] theorem State.setThread_bars (s : State) (t : Nat) (x : Thread) : (s.setThread t x).bars = s.bars := rfl
@[simp] theorem State.setThread_mem (s : State) (t : Nat) (x : Thread) : (s.setThread t x).mem = s.mem := rfl
@[simp] theorem State.setThread_host (s : State) (t : Nat) (x : Thread) : (s.setThread t x).host = s.host := rfl
@[simp] theorem State.setThread_ats (s : State) (t : Nat) (x : Thread) : (s.setThread t x).ats = s.ats := rfl
@[simp] theorem State.setThread_mg (s : State) (t : Nat) (x : Thread) : (s.setThread t x).mg = s.mg := rfl
@[simp] theorem State.setThread_pkg (s : State) (t : Nat) (x : Thread) : (s.setThread t x).pkg = s.pkg := rfl
@[simp] theorem State.setThread_inputs (s : State) (t : Nat) (x : Thread) : (s.setThread t x).inputs = s.inputs := rfl
@[simp] theorem State.setThread_cur (s : State) (t : Nat) (x : Thread) : (s.setThread t x).cur = s.cur := rfl
@[simp] theorem State.setThread_fresh (s : State) (t : Nat) (x : Thread) : (s.setThread t x).fresh = s.fresh := rfl
@[simp] theorem State.setThread_stamp (s : State) (t : Nat) (x : Thread) : (s.setThread t x).stamp = s.stamp := rfl
@[simp] theorem State.setThread_nextId (s : State) (t : Nat) (x : Thread) : (s.setThread t x).nextId = s.nextId := rfl
theorem State.setThread_thr (s : State) (t : Nat) (x : Thread) : (s.setThread t x).thr = Tab.put t x s.thr := rfl
theorem State.thread_setThread (s : State) (t : Nat) (x : Thread) (j : Nat) : (s.setThread t x).thread j = if j = t then x else s.thread j := Tab.get_put ..
@[simp] theorem State.thread_setThread_self (s : State) (t : Nat) (x : Thread) : (s.setThread t x).thread t = x := Tab.get_put_self ..
@[simp] theorem State.warp_setThread (s : State) (t : Nat) (x : Thread) (j : Nat) : (s.setThread t x).warp j = s.warp j := rfl
@[simp] theorem State.core_setThread (s : State) (t : Nat) (x : Thread) (j : Nat) : (s.setThread t x).core j = s.core j := rfl
@[simp] theorem State.dieSt_setThread (s : State) (t : Nat) (x : Thread) (j : Nat) : (s.setThread t x).dieSt j = s.dieSt j := rfl
@[simp] theorem State.ctx_setThread (s : State) (t : Nat) (x : Thread) (j : Nat) : (s.setThread t x).ctx j = s.ctx j := rfl
@[simp] theorem State.part_setThread (s : State) (t : Nat) (x : Thread) (j : Nat) : (s.setThread t x).part j = s.part j := rfl

/-! setWarp. -/
@[simp] theorem State.setWarp_thr (s : State) (w : Nat) (x : Warp) : (s.setWarp w x).thr = s.thr := rfl
@[simp] theorem State.setWarp_cor (s : State) (w : Nat) (x : Warp) : (s.setWarp w x).cor = s.cor := rfl
@[simp] theorem State.setWarp_die (s : State) (w : Nat) (x : Warp) : (s.setWarp w x).die = s.die := rfl
@[simp] theorem State.setWarp_ctxs (s : State) (w : Nat) (x : Warp) : (s.setWarp w x).ctxs = s.ctxs := rfl
@[simp] theorem State.setWarp_parts (s : State) (w : Nat) (x : Warp) : (s.setWarp w x).parts = s.parts := rfl
@[simp] theorem State.setWarp_reqs (s : State) (w : Nat) (x : Warp) : (s.setWarp w x).reqs = s.reqs := rfl
@[simp] theorem State.setWarp_recs (s : State) (w : Nat) (x : Warp) : (s.setWarp w x).recs = s.recs := rfl
@[simp] theorem State.setWarp_bad (s : State) (w : Nat) (x : Warp) : (s.setWarp w x).bad = s.bad := rfl
@[simp] theorem State.setWarp_bars (s : State) (w : Nat) (x : Warp) : (s.setWarp w x).bars = s.bars := rfl
@[simp] theorem State.setWarp_mem (s : State) (w : Nat) (x : Warp) : (s.setWarp w x).mem = s.mem := rfl
@[simp] theorem State.setWarp_host (s : State) (w : Nat) (x : Warp) : (s.setWarp w x).host = s.host := rfl
@[simp] theorem State.setWarp_ats (s : State) (w : Nat) (x : Warp) : (s.setWarp w x).ats = s.ats := rfl
@[simp] theorem State.setWarp_mg (s : State) (w : Nat) (x : Warp) : (s.setWarp w x).mg = s.mg := rfl
@[simp] theorem State.setWarp_pkg (s : State) (w : Nat) (x : Warp) : (s.setWarp w x).pkg = s.pkg := rfl
@[simp] theorem State.setWarp_inputs (s : State) (w : Nat) (x : Warp) : (s.setWarp w x).inputs = s.inputs := rfl
@[simp] theorem State.setWarp_cur (s : State) (w : Nat) (x : Warp) : (s.setWarp w x).cur = s.cur := rfl
@[simp] theorem State.setWarp_fresh (s : State) (w : Nat) (x : Warp) : (s.setWarp w x).fresh = s.fresh := rfl
@[simp] theorem State.setWarp_stamp (s : State) (w : Nat) (x : Warp) : (s.setWarp w x).stamp = s.stamp := rfl
@[simp] theorem State.setWarp_nextId (s : State) (w : Nat) (x : Warp) : (s.setWarp w x).nextId = s.nextId := rfl
theorem State.setWarp_wrp (s : State) (w : Nat) (x : Warp) : (s.setWarp w x).wrp = Tab.put w x s.wrp := rfl
theorem State.warp_setWarp (s : State) (w : Nat) (x : Warp) (j : Nat) : (s.setWarp w x).warp j = if j = w then x else s.warp j := Tab.get_put ..
@[simp] theorem State.warp_setWarp_self (s : State) (w : Nat) (x : Warp) : (s.setWarp w x).warp w = x := Tab.get_put_self ..
@[simp] theorem State.thread_setWarp (s : State) (w : Nat) (x : Warp) (j : Nat) : (s.setWarp w x).thread j = s.thread j := rfl
@[simp] theorem State.core_setWarp (s : State) (w : Nat) (x : Warp) (j : Nat) : (s.setWarp w x).core j = s.core j := rfl
@[simp] theorem State.dieSt_setWarp (s : State) (w : Nat) (x : Warp) (j : Nat) : (s.setWarp w x).dieSt j = s.dieSt j := rfl
@[simp] theorem State.ctx_setWarp (s : State) (w : Nat) (x : Warp) (j : Nat) : (s.setWarp w x).ctx j = s.ctx j := rfl
@[simp] theorem State.part_setWarp (s : State) (w : Nat) (x : Warp) (j : Nat) : (s.setWarp w x).part j = s.part j := rfl

/-! setCore. -/
@[simp] theorem State.setCore_thr (s : State) (c : Nat) (x : CoreSt) : (s.setCore c x).thr = s.thr := rfl
@[simp] theorem State.setCore_wrp (s : State) (c : Nat) (x : CoreSt) : (s.setCore c x).wrp = s.wrp := rfl
@[simp] theorem State.setCore_die (s : State) (c : Nat) (x : CoreSt) : (s.setCore c x).die = s.die := rfl
@[simp] theorem State.setCore_ctxs (s : State) (c : Nat) (x : CoreSt) : (s.setCore c x).ctxs = s.ctxs := rfl
@[simp] theorem State.setCore_parts (s : State) (c : Nat) (x : CoreSt) : (s.setCore c x).parts = s.parts := rfl
@[simp] theorem State.setCore_reqs (s : State) (c : Nat) (x : CoreSt) : (s.setCore c x).reqs = s.reqs := rfl
@[simp] theorem State.setCore_recs (s : State) (c : Nat) (x : CoreSt) : (s.setCore c x).recs = s.recs := rfl
@[simp] theorem State.setCore_bad (s : State) (c : Nat) (x : CoreSt) : (s.setCore c x).bad = s.bad := rfl
@[simp] theorem State.setCore_bars (s : State) (c : Nat) (x : CoreSt) : (s.setCore c x).bars = s.bars := rfl
@[simp] theorem State.setCore_mem (s : State) (c : Nat) (x : CoreSt) : (s.setCore c x).mem = s.mem := rfl
@[simp] theorem State.setCore_host (s : State) (c : Nat) (x : CoreSt) : (s.setCore c x).host = s.host := rfl
@[simp] theorem State.setCore_ats (s : State) (c : Nat) (x : CoreSt) : (s.setCore c x).ats = s.ats := rfl
@[simp] theorem State.setCore_mg (s : State) (c : Nat) (x : CoreSt) : (s.setCore c x).mg = s.mg := rfl
@[simp] theorem State.setCore_pkg (s : State) (c : Nat) (x : CoreSt) : (s.setCore c x).pkg = s.pkg := rfl
@[simp] theorem State.setCore_inputs (s : State) (c : Nat) (x : CoreSt) : (s.setCore c x).inputs = s.inputs := rfl
@[simp] theorem State.setCore_cur (s : State) (c : Nat) (x : CoreSt) : (s.setCore c x).cur = s.cur := rfl
@[simp] theorem State.setCore_fresh (s : State) (c : Nat) (x : CoreSt) : (s.setCore c x).fresh = s.fresh := rfl
@[simp] theorem State.setCore_stamp (s : State) (c : Nat) (x : CoreSt) : (s.setCore c x).stamp = s.stamp := rfl
@[simp] theorem State.setCore_nextId (s : State) (c : Nat) (x : CoreSt) : (s.setCore c x).nextId = s.nextId := rfl
theorem State.setCore_cor (s : State) (c : Nat) (x : CoreSt) : (s.setCore c x).cor = Tab.put c x s.cor := rfl
theorem State.core_setCore (s : State) (c : Nat) (x : CoreSt) (j : Nat) : (s.setCore c x).core j = if j = c then x else s.core j := Tab.get_put ..
@[simp] theorem State.core_setCore_self (s : State) (c : Nat) (x : CoreSt) : (s.setCore c x).core c = x := Tab.get_put_self ..
@[simp] theorem State.thread_setCore (s : State) (c : Nat) (x : CoreSt) (j : Nat) : (s.setCore c x).thread j = s.thread j := rfl
@[simp] theorem State.warp_setCore (s : State) (c : Nat) (x : CoreSt) (j : Nat) : (s.setCore c x).warp j = s.warp j := rfl
@[simp] theorem State.dieSt_setCore (s : State) (c : Nat) (x : CoreSt) (j : Nat) : (s.setCore c x).dieSt j = s.dieSt j := rfl
@[simp] theorem State.ctx_setCore (s : State) (c : Nat) (x : CoreSt) (j : Nat) : (s.setCore c x).ctx j = s.ctx j := rfl
@[simp] theorem State.part_setCore (s : State) (c : Nat) (x : CoreSt) (j : Nat) : (s.setCore c x).part j = s.part j := rfl

/-! setDie. -/
@[simp] theorem State.setDie_thr (s : State) (k : Nat) (x : DieSt) : (s.setDie k x).thr = s.thr := rfl
@[simp] theorem State.setDie_wrp (s : State) (k : Nat) (x : DieSt) : (s.setDie k x).wrp = s.wrp := rfl
@[simp] theorem State.setDie_cor (s : State) (k : Nat) (x : DieSt) : (s.setDie k x).cor = s.cor := rfl
@[simp] theorem State.setDie_ctxs (s : State) (k : Nat) (x : DieSt) : (s.setDie k x).ctxs = s.ctxs := rfl
@[simp] theorem State.setDie_parts (s : State) (k : Nat) (x : DieSt) : (s.setDie k x).parts = s.parts := rfl
@[simp] theorem State.setDie_reqs (s : State) (k : Nat) (x : DieSt) : (s.setDie k x).reqs = s.reqs := rfl
@[simp] theorem State.setDie_recs (s : State) (k : Nat) (x : DieSt) : (s.setDie k x).recs = s.recs := rfl
@[simp] theorem State.setDie_bad (s : State) (k : Nat) (x : DieSt) : (s.setDie k x).bad = s.bad := rfl
@[simp] theorem State.setDie_bars (s : State) (k : Nat) (x : DieSt) : (s.setDie k x).bars = s.bars := rfl
@[simp] theorem State.setDie_mem (s : State) (k : Nat) (x : DieSt) : (s.setDie k x).mem = s.mem := rfl
@[simp] theorem State.setDie_host (s : State) (k : Nat) (x : DieSt) : (s.setDie k x).host = s.host := rfl
@[simp] theorem State.setDie_ats (s : State) (k : Nat) (x : DieSt) : (s.setDie k x).ats = s.ats := rfl
@[simp] theorem State.setDie_mg (s : State) (k : Nat) (x : DieSt) : (s.setDie k x).mg = s.mg := rfl
@[simp] theorem State.setDie_pkg (s : State) (k : Nat) (x : DieSt) : (s.setDie k x).pkg = s.pkg := rfl
@[simp] theorem State.setDie_inputs (s : State) (k : Nat) (x : DieSt) : (s.setDie k x).inputs = s.inputs := rfl
@[simp] theorem State.setDie_cur (s : State) (k : Nat) (x : DieSt) : (s.setDie k x).cur = s.cur := rfl
@[simp] theorem State.setDie_fresh (s : State) (k : Nat) (x : DieSt) : (s.setDie k x).fresh = s.fresh := rfl
@[simp] theorem State.setDie_stamp (s : State) (k : Nat) (x : DieSt) : (s.setDie k x).stamp = s.stamp := rfl
@[simp] theorem State.setDie_nextId (s : State) (k : Nat) (x : DieSt) : (s.setDie k x).nextId = s.nextId := rfl
theorem State.setDie_die (s : State) (k : Nat) (x : DieSt) : (s.setDie k x).die = Tab.put k x s.die := rfl
theorem State.dieSt_setDie (s : State) (k : Nat) (x : DieSt) (j : Nat) : (s.setDie k x).dieSt j = if j = k then x else s.dieSt j := Tab.get_put ..
@[simp] theorem State.dieSt_setDie_self (s : State) (k : Nat) (x : DieSt) : (s.setDie k x).dieSt k = x := Tab.get_put_self ..
@[simp] theorem State.thread_setDie (s : State) (k : Nat) (x : DieSt) (j : Nat) : (s.setDie k x).thread j = s.thread j := rfl
@[simp] theorem State.warp_setDie (s : State) (k : Nat) (x : DieSt) (j : Nat) : (s.setDie k x).warp j = s.warp j := rfl
@[simp] theorem State.core_setDie (s : State) (k : Nat) (x : DieSt) (j : Nat) : (s.setDie k x).core j = s.core j := rfl
@[simp] theorem State.ctx_setDie (s : State) (k : Nat) (x : DieSt) (j : Nat) : (s.setDie k x).ctx j = s.ctx j := rfl
@[simp] theorem State.part_setDie (s : State) (k : Nat) (x : DieSt) (j : Nat) : (s.setDie k x).part j = s.part j := rfl

/-! setCtx. -/
@[simp] theorem State.setCtx_thr (s : State) (c : Nat) (x : Ctx) : (s.setCtx c x).thr = s.thr := rfl
@[simp] theorem State.setCtx_wrp (s : State) (c : Nat) (x : Ctx) : (s.setCtx c x).wrp = s.wrp := rfl
@[simp] theorem State.setCtx_cor (s : State) (c : Nat) (x : Ctx) : (s.setCtx c x).cor = s.cor := rfl
@[simp] theorem State.setCtx_die (s : State) (c : Nat) (x : Ctx) : (s.setCtx c x).die = s.die := rfl
@[simp] theorem State.setCtx_parts (s : State) (c : Nat) (x : Ctx) : (s.setCtx c x).parts = s.parts := rfl
@[simp] theorem State.setCtx_reqs (s : State) (c : Nat) (x : Ctx) : (s.setCtx c x).reqs = s.reqs := rfl
@[simp] theorem State.setCtx_recs (s : State) (c : Nat) (x : Ctx) : (s.setCtx c x).recs = s.recs := rfl
@[simp] theorem State.setCtx_bad (s : State) (c : Nat) (x : Ctx) : (s.setCtx c x).bad = s.bad := rfl
@[simp] theorem State.setCtx_bars (s : State) (c : Nat) (x : Ctx) : (s.setCtx c x).bars = s.bars := rfl
@[simp] theorem State.setCtx_mem (s : State) (c : Nat) (x : Ctx) : (s.setCtx c x).mem = s.mem := rfl
@[simp] theorem State.setCtx_host (s : State) (c : Nat) (x : Ctx) : (s.setCtx c x).host = s.host := rfl
@[simp] theorem State.setCtx_ats (s : State) (c : Nat) (x : Ctx) : (s.setCtx c x).ats = s.ats := rfl
@[simp] theorem State.setCtx_mg (s : State) (c : Nat) (x : Ctx) : (s.setCtx c x).mg = s.mg := rfl
@[simp] theorem State.setCtx_pkg (s : State) (c : Nat) (x : Ctx) : (s.setCtx c x).pkg = s.pkg := rfl
@[simp] theorem State.setCtx_inputs (s : State) (c : Nat) (x : Ctx) : (s.setCtx c x).inputs = s.inputs := rfl
@[simp] theorem State.setCtx_cur (s : State) (c : Nat) (x : Ctx) : (s.setCtx c x).cur = s.cur := rfl
@[simp] theorem State.setCtx_fresh (s : State) (c : Nat) (x : Ctx) : (s.setCtx c x).fresh = s.fresh := rfl
@[simp] theorem State.setCtx_stamp (s : State) (c : Nat) (x : Ctx) : (s.setCtx c x).stamp = s.stamp := rfl
@[simp] theorem State.setCtx_nextId (s : State) (c : Nat) (x : Ctx) : (s.setCtx c x).nextId = s.nextId := rfl
theorem State.setCtx_ctxs (s : State) (c : Nat) (x : Ctx) : (s.setCtx c x).ctxs = Tab.put c x s.ctxs := rfl
theorem State.ctx_setCtx (s : State) (c : Nat) (x : Ctx) (j : Nat) : (s.setCtx c x).ctx j = if j = c then x else s.ctx j := Tab.get_put ..
@[simp] theorem State.ctx_setCtx_self (s : State) (c : Nat) (x : Ctx) : (s.setCtx c x).ctx c = x := Tab.get_put_self ..
@[simp] theorem State.thread_setCtx (s : State) (c : Nat) (x : Ctx) (j : Nat) : (s.setCtx c x).thread j = s.thread j := rfl
@[simp] theorem State.warp_setCtx (s : State) (c : Nat) (x : Ctx) (j : Nat) : (s.setCtx c x).warp j = s.warp j := rfl
@[simp] theorem State.core_setCtx (s : State) (c : Nat) (x : Ctx) (j : Nat) : (s.setCtx c x).core j = s.core j := rfl
@[simp] theorem State.dieSt_setCtx (s : State) (c : Nat) (x : Ctx) (j : Nat) : (s.setCtx c x).dieSt j = s.dieSt j := rfl
@[simp] theorem State.part_setCtx (s : State) (c : Nat) (x : Ctx) (j : Nat) : (s.setCtx c x).part j = s.part j := rfl

/-! setPart. -/
@[simp] theorem State.setPart_thr (s : State) (p : Nat) (x : Part) : (s.setPart p x).thr = s.thr := rfl
@[simp] theorem State.setPart_wrp (s : State) (p : Nat) (x : Part) : (s.setPart p x).wrp = s.wrp := rfl
@[simp] theorem State.setPart_cor (s : State) (p : Nat) (x : Part) : (s.setPart p x).cor = s.cor := rfl
@[simp] theorem State.setPart_die (s : State) (p : Nat) (x : Part) : (s.setPart p x).die = s.die := rfl
@[simp] theorem State.setPart_ctxs (s : State) (p : Nat) (x : Part) : (s.setPart p x).ctxs = s.ctxs := rfl
@[simp] theorem State.setPart_reqs (s : State) (p : Nat) (x : Part) : (s.setPart p x).reqs = s.reqs := rfl
@[simp] theorem State.setPart_recs (s : State) (p : Nat) (x : Part) : (s.setPart p x).recs = s.recs := rfl
@[simp] theorem State.setPart_bad (s : State) (p : Nat) (x : Part) : (s.setPart p x).bad = s.bad := rfl
@[simp] theorem State.setPart_bars (s : State) (p : Nat) (x : Part) : (s.setPart p x).bars = s.bars := rfl
@[simp] theorem State.setPart_mem (s : State) (p : Nat) (x : Part) : (s.setPart p x).mem = s.mem := rfl
@[simp] theorem State.setPart_host (s : State) (p : Nat) (x : Part) : (s.setPart p x).host = s.host := rfl
@[simp] theorem State.setPart_ats (s : State) (p : Nat) (x : Part) : (s.setPart p x).ats = s.ats := rfl
@[simp] theorem State.setPart_mg (s : State) (p : Nat) (x : Part) : (s.setPart p x).mg = s.mg := rfl
@[simp] theorem State.setPart_pkg (s : State) (p : Nat) (x : Part) : (s.setPart p x).pkg = s.pkg := rfl
@[simp] theorem State.setPart_inputs (s : State) (p : Nat) (x : Part) : (s.setPart p x).inputs = s.inputs := rfl
@[simp] theorem State.setPart_cur (s : State) (p : Nat) (x : Part) : (s.setPart p x).cur = s.cur := rfl
@[simp] theorem State.setPart_fresh (s : State) (p : Nat) (x : Part) : (s.setPart p x).fresh = s.fresh := rfl
@[simp] theorem State.setPart_stamp (s : State) (p : Nat) (x : Part) : (s.setPart p x).stamp = s.stamp := rfl
@[simp] theorem State.setPart_nextId (s : State) (p : Nat) (x : Part) : (s.setPart p x).nextId = s.nextId := rfl
theorem State.setPart_parts (s : State) (p : Nat) (x : Part) : (s.setPart p x).parts = Tab.put p x s.parts := rfl
theorem State.part_setPart (s : State) (p : Nat) (x : Part) (j : Nat) : (s.setPart p x).part j = if j = p then x else s.part j := Tab.get_put ..
@[simp] theorem State.part_setPart_self (s : State) (p : Nat) (x : Part) : (s.setPart p x).part p = x := Tab.get_put_self ..
@[simp] theorem State.thread_setPart (s : State) (p : Nat) (x : Part) (j : Nat) : (s.setPart p x).thread j = s.thread j := rfl
@[simp] theorem State.warp_setPart (s : State) (p : Nat) (x : Part) (j : Nat) : (s.setPart p x).warp j = s.warp j := rfl
@[simp] theorem State.core_setPart (s : State) (p : Nat) (x : Part) (j : Nat) : (s.setPart p x).core j = s.core j := rfl
@[simp] theorem State.dieSt_setPart (s : State) (p : Nat) (x : Part) (j : Nat) : (s.setPart p x).dieSt j = s.dieSt j := rfl
@[simp] theorem State.ctx_setPart (s : State) (p : Nat) (x : Part) (j : Nat) : (s.setPart p x).ctx j = s.ctx j := rfl

end Sys2Proof.Machine
end

