-- ==== Sys2Proof/Laws/Issue.lean ====
section
/-! SUPPORT. What the issue of a unit does, said once: the retiring of lanes, the settling of a warp, and units that act lane
by lane. -/

namespace Sys2Proof.Machine

/-! Folds over threads. -/

/-- A fold that rewrites one thread after the other. -/
theorem fold_threads (s0 : State) (F : State → Nat → State) (g : Thread → Thread) (ts : List Nat) (hn : ts.Nodup)
    (hF : ∀ a t, t ∈ ts → a = { s0 with thr := a.thr } → a.thread t = s0.thread t → F a t = a.setThread t (g (a.thread t))) :
    ts.foldl F s0 = { s0 with thr := (ts.foldl F s0).thr } ∧
      ∀ k, (ts.foldl F s0).thread k = if k ∈ ts then g (s0.thread k) else s0.thread k := by
  suffices H : ∀ (us : List Nat) (a : State), us.Nodup → (∀ t ∈ us, t ∈ ts) → a = { s0 with thr := a.thr } →
      (∀ t ∈ us, a.thread t = s0.thread t) →
      us.foldl F a = { s0 with thr := (us.foldl F a).thr } ∧
        ∀ k, (us.foldl F a).thread k = if k ∈ us then g (s0.thread k) else a.thread k from
    H ts s0 hn (fun _ h => h) rfl (fun _ _ => rfl)
  intro us
  induction us with
  | nil => intro a _ _ ha _; exact ⟨ha, by simp⟩
  | cons t us ih =>
    intro a hn hs ha hk
    have hnt := List.nodup_cons.1 hn
    have e : F a t = a.setThread t (g (a.thread t)) := hF a t (hs t (by simp)) ha (hk t (by simp))
    have h := ih (F a t) hnt.2 (fun x hx => hs x (by simp [hx]))
      (by rw [e, State.setThread, ha]) (fun x hx => by
        rw [e, State.thread_setThread, if_neg (by rintro rfl; exact hnt.1 hx)]; exact hk x (by simp [hx]))
    refine ⟨h.1, fun k => ?_⟩
    rw [List.foldl_cons, h.2 k, e, State.thread_setThread]
    by_cases h1 : k ∈ us
    · simp [h1]
    · by_cases h2 : k = t
      · subst h2; simp [h1, hk k (by simp)]
      · simp [h1, h2]

/-- Retiring a lane of a warp that is no Scribe warp and of a thread that is not stopped. -/
theorem State.retire_eq (s : State) (t : Nat) (pc : Int) (hw : widOf (warpOf t) ≠ 27) (hs : (s.thread t).st ≠ .stopped) :
    s.retire t pc = s.setThread t ((s.thread t).retired pc) := by
  have h : ¬(widOf (warpOf t) = 27 ∧ (!(s.thread t).inH) = true) := fun h => hw h.1
  simp only [State.retire, if_neg h, if_neg hs, Thread.retired]

theorem threadOf_inj {w a b : Nat} (h : threadOf w a = threadOf w b) : a = b := by unfold threadOf at h; omega
theorem threadOf_warp {w l : Nat} (h : l < 16) : warpOf (threadOf w l) = w := by unfold warpOf threadOf; omega
theorem threadOf_lane {w l : Nat} (h : l < 16) : threadOf w l % 16 = l := by unfold threadOf; omega
theorem mem_threadsOf {w t : Nat} : t ∈ threadsOf w ↔ ∃ l, l < 16 ∧ t = threadOf w l := by
  simp only [threadsOf, List.mem_map, List.mem_range, eq_comm]

theorem nodup_map_threadOf {w : Nat} {ls : List Nat} (h : ls.Nodup) : (ls.map (threadOf w)).Nodup :=
  h.map (fun _ _ e => threadOf_inj e)

/-! Settling (R67, R269, R402). -/

/-- What a meeting looks at in a thread. -/
theorem State.meetsNow_congr {s t : State} {w : Nat}
    (h : ∀ k ∈ threadsOf w, (t.thread k).mr = (s.thread k).mr ∧ ((t.thread k).st = .exited ↔ (s.thread k).st = .exited)
      ∧ ((t.thread k).st = .held ↔ (s.thread k).st = .held)) : t.meetsNow w = s.meetsNow w := by
  have hf : ∀ v, t.meetingFull w v = s.meetingFull w v := fun v => by
    unfold State.meetingFull
    refine Bool.eq_iff_iff.2 ?_
    simp only [List.all_eq_true, Bool.or_eq_true, decide_eq_true_eq]
    refine forall_congr' fun k => forall_congr' fun hk => ?_
    rw [(h k hk).1, (h k hk).2.1, (h k hk).2.2]
  unfold State.meetsNow
  refine Bool.eq_iff_iff.2 ?_
  simp only [List.any_eq_true, Bool.and_eq_true, decide_eq_true_eq]
  refine exists_congr fun k => and_congr_right fun hk => ?_
  rw [(h k hk).1, (h k hk).2.2, hf]

theorem State.mem_met {s : State} {w k : Nat} : k ∈ s.met w ↔
    k ∈ threadsOf w ∧ (s.thread k).st = .held ∧ (s.thread k).mr ≠ 0 ∧ s.meetingFull w (s.thread k).mr = true := by
  simp [State.met, and_assoc]
theorem filter_isEmpty (p : Nat → Bool) (l : List Nat) : (l.filter p).isEmpty = !l.any p := by
  induction l with
  | nil => rfl
  | cons a l ih => rw [List.filter_cons, List.any_cons]; cases p a <;> simp [ih]
theorem State.met_isEmpty (s : State) (w : Nat) : (s.met w).isEmpty = !s.meetsNow w := filter_isEmpty ..
theorem nodup_threadsOf (w : Nat) : (threadsOf w).Nodup := nodup_map_threadOf List.nodup_range

theorem State.meet_eq {s : State} {w : Nat} (h : s.meetsNow w = false) : s.meet w = s := by
  rw [State.meet, State.met_isEmpty, h]; rfl

/-- A meeting releases HELD threads with one fresh stamp and changes nothing else (R63, R67). -/
theorem State.meet_spec (s : State) (w : Nat) :
    s.meet w = { s with thr := (s.meet w).thr, stamp := if s.meetsNow w = true then s.stamp + 1 else s.stamp } ∧
    ∀ k, (s.meet w).thread k = if k ∈ threadsOf w ∧ (s.thread k).st = .held ∧ (s.thread k).mr ≠ 0 ∧ s.meetingFull w (s.thread k).mr
      then { s.thread k with st := .runnable, mr := 0, stamp := s.stamp + 1 } else s.thread k := by
  simp only [← State.mem_met]
  cases hm : s.meetsNow w
  · have he : s.met w = [] := by simpa [hm] using s.met_isEmpty w
    rw [State.meet_eq hm]; simp [he]
  · have h := fold_threads { s with stamp := s.stamp + 1 }
      (fun a t => a.setThread t { s.thread t with st := .runnable, mr := 0, stamp := s.stamp + 1 })
      (fun x => { x with st := .runnable, mr := 0, stamp := s.stamp + 1 }) (s.met w) ((nodup_threadsOf w).filter _)
      (fun a t _ _ hk => by rw [hk]; rfl)
    rw [State.meet, State.met_isEmpty, hm]
    exact h

/-- A warp that is not stopping, with a thread that has not exited: only its meetings are re-examined. -/
theorem State.settle_meet {s : State} {w t : Nat} (hg : (s.warp w).stopping = false)
    (ht : t ∈ threadsOf w) (hl : (s.thread t).st ≠ .exited) : s.settle w = s.meet w := by
  have hd : s.deliver w = s := by simp [State.deliver, hg]
  rw [State.settle, hd, State.freeWarp]
  split
  · rfl
  · have : (threadsOf w).all (fun t => decide (((s.meet w).thread t).st = .exited)) = false := by
      refine List.all_eq_false.2 ⟨t, ht, ?_⟩
      rw [(State.meet_spec s w).2 t]; split
      · simp
      · simpa using hl
    simp [this]

/-- A warp that is not stopping, with a thread that has not exited and no meeting due, stays as it is. -/
theorem State.settle_eq {s : State} {w t : Nat} (hg : (s.warp w).stopping = false) (hm : s.meetsNow w = false)
    (ht : t ∈ threadsOf w) (hl : (s.thread t).st ≠ .exited) : s.settle w = s := by
  have hd : s.deliver w = s := by simp [State.deliver, hg]
  rw [State.settle, hd, State.meet_eq hm, State.freeWarp]
  split
  · rfl
  · rename_i x _
    have : (threadsOf w).all (fun t => decide ((s.thread t).st = .exited)) = false := by
      refine List.all_eq_false.2 ⟨t, ht, by simpa using hl⟩
    simp [this]

/-- Without STEP a unit's end raises nothing (R401). -/
theorem State.stepTrap_eq {s : State} {w : Nat} {ls : List Nat}
    (h : trit (s.ctx (s.warp w).ctx).dbg 0 ≠ 1 ∨ (s.warp w).hm = true) : s.stepTrap w ls = s := by
  unfold State.stepTrap
  rw [if_neg]
  rcases h with h | h <;> simp [h]

/-! The start of a unit. -/

theorem State.started_spec {s : State} (hn : s.cur.lanes.Nodup) :
    s.started = { s with thr := s.started.thr, stamp := s.stamp + 1 } ∧
      ∀ k, s.started.thread k = if k ∈ s.cur.lanes.map s.lane then
        { s.thread k with stamp := if (s.thread k).st = .waiting then (s.thread k).stamp else s.stamp + 1, last := s.stamp + 1, ready := none, next := s.cur.next }
      else s.thread k := by
  have h := fold_threads { s with stamp := s.stamp + 1 } (fun a t => let x := a.thread t
      a.setThread t { x with stamp := if x.st = .waiting then x.stamp else a.stamp, last := a.stamp, ready := none, next := a.cur.next })
    (fun x => { x with stamp := if x.st = .waiting then x.stamp else s.stamp + 1, last := s.stamp + 1, ready := none, next := s.cur.next })
    (s.cur.lanes.map s.lane) (nodup_map_threadOf hn) (fun a t _ ha _ => by rw [ha])
  exact h

theorem State.lane_def (s : State) (l : Nat) : s.lane l = threadOf s.cur.warp l := rfl
theorem mem_lanes {s : State} {l : Nat} : s.lane l ∈ s.cur.lanes.map s.lane ↔ l ∈ s.cur.lanes := by
  simp only [List.mem_map, State.lane]
  exact ⟨fun ⟨a, ha, e⟩ => threadOf_inj e ▸ ha, fun h => ⟨l, h, rfl⟩⟩

theorem State.laneOn_congr {s t : State} {h : Hdr} {k : Nat} (e : (t.thread k).preds = (s.thread k).preds) :
    t.laneOn h k = s.laneOn h k := by simp only [State.laneOn, State.pred, e]

/-- A legal unit of a plain group: its body acts on the started state and the warp settles. -/
theorem State.issue_plain {s : State} {h : Hdr} {u : Uses} (hp : Plain s) (hl : Legal s h u) (body : List Nat → State → State) :
    ∃ a, Start s a h ∧ (a = s.opened h ∧ (a.stepTrap s.cur.warp s.cur.lanes).settle s.cur.warp = a) ∧
      s.issue h u body = if s.active h = [] then a else
        ((body (s.active h) a).stepTrap s.cur.warp s.cur.lanes).settle s.cur.warp := by
  obtain ⟨hr, hpf, hff⟩ := hl
  have hst := State.started_spec hp.nodup
  generalize hs0 : s.started = s0 at hst
  obtain ⟨e0, h0⟩ := hst
  have hcur : s0.cur = s.cur := by rw [e0]
  have hwrp : s0.wrp = s.wrp := by rw [e0]
  have hctx : s0.ctxs = s.ctxs := by rw [e0]
  have hpf0 : s0.privFault u = false := by rw [← hpf, e0]; rfl
  have hff0 : s0.fieldFault u = none := by rw [← hff, e0]; rfl
  have hon : ∀ l, s0.laneOn h (threadOf s.cur.warp l) = s.laneOn h (threadOf s.cur.warp l) := fun l => by
    refine State.laneOn_congr ?_
    rw [h0]; split <;> rfl
  have hth : ∀ l ∈ s.cur.lanes, s0.thread (s.lane l) = s.atIssue l := fun l hl => by
    rw [h0, if_pos (mem_lanes.2 hl)]; rfl
  let offs := s.cur.lanes.filter (fun l => !s.laneOn h (s.lane l))
  have hoff := fold_threads s0 (fun a t => a.retire t s.cur.next) (fun x => x.retired s.cur.next) (offs.map s.lane)
    (nodup_map_threadOf (hp.nodup.filter _)) (fun a t ht ha hk => by
      obtain ⟨l, hl, rfl⟩ := List.mem_map.1 ht
      have hl := (List.mem_filter.1 hl).1
      refine State.retire_eq _ _ _ (by rw [State.lane, threadOf_warp (hp.lane l hl)]; exact hp.wid) ?_
      rw [hk, hth l hl]
      rcases hp.live l hl with e | e <;> simp [State.atIssue, State.lane, e])
  set a := (offs.map s.lane).foldl (fun a t => a.retire t s.cur.next) s0 with ha
  obtain ⟨ea, hka⟩ := hoff
  have hmem : ∀ l, s.lane l ∈ offs.map s.lane ↔ l ∈ offs := fun l => by
    simp only [List.mem_map, State.lane]
    exact ⟨fun ⟨x, hx, e⟩ => threadOf_inj e ▸ hx, fun h => ⟨l, h, rfl⟩⟩
  have hstart : Start s a h := by
    refine ⟨by rw [ea, e0], fun l hl h1 => ?_, fun l hl h1 => ?_, fun k hk => ?_⟩
    · rw [hka, if_neg (by rw [hmem]; simp [offs, h1]), hth l hl]
    · rw [hka, if_pos (by rw [hmem]; simp [offs, h1, hl]), hth l hl]
    · rw [hka, if_neg, h0, if_neg]
      · intro hc; obtain ⟨l, hl, rfl⟩ := List.mem_map.1 hc; exact hk l hl rfl
      · intro hc; obtain ⟨l, hl, rfl⟩ := List.mem_map.1 hc; exact hk l (List.mem_filter.1 hl).1 rfl
  have hae : a = { s with thr := a.thr, stamp := s.stamp + 1 } := hstart.rest
  refine ⟨a, hstart, ?_⟩
  have hact : s.cur.lanes.filter (fun l => s0.laneOn h (threadOf s.cur.warp l)) = s.active h := by
    simp only [State.active, hon]
  have hofs : s.cur.lanes.filter (fun l => !s0.laneOn h (threadOf s.cur.warp l)) = offs := by
    simp only [hon, offs, State.lane]
  have hfold : offs.foldl (fun a l => a.retire (threadOf s.cur.warp l) s.cur.next) s0 = a := by
    rw [ha, List.foldl_map]; rfl
  have hnd : (s.active h).any (fun l => a.drafting s.cur.warp l) = false := by
    refine List.any_eq_false.2 fun l hl => ?_
    have e : a.drafting s.cur.warp l = s.drafting s.cur.warp l := by rw [hae]; rfl
    simp [e, hp.undrafted l (List.mem_filter.1 hl).1]
  have hfin : (a.stepTrap s.cur.warp s.cur.lanes).settle s.cur.warp = a := by
    rw [State.stepTrap_eq (by rw [hae]; exact hp.nostep)]
    obtain ⟨l, ls, hls⟩ := List.exists_cons_of_ne_nil hp.some_
    have hl : l ∈ s.cur.lanes := by simp [hls]
    have hx : ∀ k ∈ s.cur.lanes, (a.thread (s.lane k)).mr = (s.thread (s.lane k)).mr ∧ (a.thread (s.lane k)).st ≠ .exited
        ∧ (a.thread (s.lane k)).st ≠ .held := fun k hk => by
      cases h1 : s.laneOn h (s.lane k)
      · rw [hstart.off k hk h1]; simp [Thread.retired, State.atIssue]
      · rw [hstart.on k hk h1]; rcases hp.live k hk with e | e <;> simp [State.atIssue, State.lane, e]
    refine State.settle_eq (t := s.lane l) (by rw [hae]; exact hp.going) ?_ (mem_threadsOf.2 ⟨l, hp.lane l hl, rfl⟩) (hx l hl).2.1
    rw [← hp.nomeet]
    refine State.meetsNow_congr fun k _ => ?_
    by_cases hc : ∃ j ∈ s.cur.lanes, k = s.lane j
    · obtain ⟨j, hj, rfl⟩ := hc
      have := hx j hj
      rcases hp.live j hj with e | e <;> rw [← State.lane_def] at e <;> simp [this, e]
    · rw [hstart.others k (fun j hj e => hc ⟨j, hj, e⟩)]; simp
  refine ⟨⟨?_, hfin⟩, ?_⟩
  · unfold State.opened
    rw [hs0, hcur, hofs, hfold]
  have hroll : ∀ x : State, s.cur.lanes.filter (fun l => !a.rolled x (threadOf s.cur.warp l)) = s.cur.lanes := fun x =>
    List.filter_eq_self.2 fun l hl => by
      have e : a.drafting s.cur.warp l = s.drafting s.cur.warp l := by rw [hae]; rfl
      simp [State.rolled, threadOf_warp (hp.lane l hl), threadOf_lane (hp.lane l hl), e, hp.undrafted l hl]
  unfold State.issue
  rw [hr, hs0]
  simp only [Bool.not_true, Bool.false_eq_true, if_false, hpf0, hff0, hcur, hact, hofs, hfold, hnd, hroll]
  by_cases he : s.active h = []
  · simp only [he, List.isEmpty_nil, if_true, hfin]
  · have : (s.active h).isEmpty = false := by simpa using he
    simp only [this, Bool.false_eq_true, if_false, he]

end Sys2Proof.Machine
end

