-- ==== Sys2Proof/Laws/Group.lean ====
section
/-! SUPPORT. Units that act once for their issue group: what they leave, given what their body does. -/

namespace Sys2Proof.Machine

/-- A thread at its issue, or waiting, but neither ended nor held nor stopped. -/
def Thread.active (x : Thread) : Prop := x.st = .runnable ∨ x.st = .waiting

theorem Start.cur {s a : State} {h : Hdr} (x : Start s a h) : a.cur = s.cur := by rw [x.rest]
theorem Start.lane {s a : State} {h : Hdr} (x : Start s a h) (l : Nat) : a.lane l = s.lane l := by rw [State.lane, x.cur]; rfl
theorem State.mem_active {s : State} {h : Hdr} {l : Nat} (hl : l ∈ s.active h) : l ∈ s.cur.lanes ∧ s.laneOn h (s.lane l) = true := List.mem_filter.1 hl
theorem Start.live {s a : State} {h : Hdr} (x : Start s a h) (hp : Plain s) {l : Nat} (hl : l ∈ s.active h) : (a.thread (s.lane l)).active := by
  have hm := State.mem_active hl
  rw [x.on l hm.1 hm.2]
  exact hp.live l hm.1

/-- A fold that rewrites the threads of some lanes. -/
theorem fold_lanes {g : State} {act : List Nat} {F : State → Nat → State} {f : Nat → Thread → Thread} (hn : act.Nodup)
    (hF : ∀ a l, l ∈ act → a = { g with thr := a.thr } → a.thread (g.lane l) = g.thread (g.lane l) →
      F a (g.lane l) = a.setThread (g.lane l) (f l (a.thread (g.lane l)))) : Done ((g.curThreads act).foldl F g) act f g := by
  suffices H : ∀ (us : List Nat) (a : State), us.Nodup → (∀ l ∈ us, l ∈ act) → a = { g with thr := a.thr } →
      (∀ l ∈ us, a.thread (g.lane l) = g.thread (g.lane l)) →
      let b := (us.map g.lane).foldl F a
      b = { g with thr := b.thr } ∧ (∀ l ∈ us, b.thread (g.lane l) = f l (g.thread (g.lane l))) ∧
        ∀ k, (∀ l ∈ us, k ≠ g.lane l) → b.thread k = a.thread k by
    obtain ⟨h1, h2, h3⟩ := H act g hn (fun _ h => h) rfl (fun _ _ => rfl)
    exact ⟨h1, h2, h3⟩
  intro us
  induction us with
  | nil => intro a _ _ ha _; exact ⟨ha, by simp, fun _ _ => rfl⟩
  | cons l us ih =>
    intro a hn hs ha hk
    have hnt := List.nodup_cons.1 hn
    have hne : ∀ x ∈ us, g.lane x ≠ g.lane l := fun x hx e => hnt.1 (threadOf_inj e ▸ hx)
    have e := hF a l (hs l (by simp)) ha (hk l (by simp))
    have h := ih (F a (g.lane l)) hnt.2 (fun x hx => hs x (by simp [hx])) (by rw [e, State.setThread, ha]) (fun x hx => by
      rw [e, State.thread_setThread, if_neg (hne x hx)]; exact hk x (by simp [hx]))
    refine ⟨h.1, fun x hx => ?_, fun k hk' => ?_⟩
    · rcases List.mem_cons.1 hx with rfl | hx
      · rw [List.map_cons, List.foldl_cons, h.2.2 _ (fun y hy e => hne y hy e.symm), e, State.thread_setThread, if_pos rfl, hk x (by simp)]
      · exact h.2.1 x hx
    · rw [List.map_cons, List.foldl_cons, h.2.2 k (fun x hx => hk' x (by simp [hx])), e, State.thread_setThread, if_neg (hk' l (by simp))]

/-- Retiring the active lanes of a group that is in no Scribe warp. -/
theorem State.retireAll_done {g : State} {act : List Nat} (hn : act.Nodup) (hw : widOf g.cur.warp ≠ 27) (hl : ∀ l ∈ act, l < 16)
    (hs : ∀ l ∈ act, (g.thread (g.lane l)).active) : Done (g.retireAll act) act (fun _ x => x.retired g.cur.next) g :=
  fold_lanes hn (fun a l hl' ha hk => State.retire_eq _ _ _ (by rw [State.lane, threadOf_warp (hl l hl')]; exact hw) (by
    rw [hk]; rcases hs l hl' with e | e <;> rw [e] <;> decide))
/-- The active lanes begin a wait. -/
theorem State.waitAll_done {g : State} {act : List Nat} {k : Wait} (hn : act.Nodup)
    (hs : ∀ l ∈ act, (g.thread (g.lane l)).active) : Done (g.waitAll act k) act (fun _ x => x.waits k) g :=
  fold_lanes hn (fun a l hl' ha hk => by
    have : (a.thread (g.lane l)).st ≠ .stopped := by rw [hk]; rcases hs l hl' with e | e <;> rw [e] <;> decide
    simp only [State.waitLane, if_neg this, Thread.waits])

/-- What the unit's body leaves decides what the instruction leaves. -/
theorem ActsEnd.of {i : Instr} {h : Hdr} {u : Uses} {P : State → List Nat → Prop} {d : State → Nat → Thread → Thread}
    {G : State → List Nat → State} {body : List Nat → State → State} (e : ∀ s, exec i s = .next (s.issue h u body))
    (hb : ∀ s, Plain s → Start s (s.opened h) h → s.active h ≠ [] → P (s.opened h) (s.active h) →
      Done (body (s.active h) (s.opened h)) (s.active h) (d (s.opened h)) (G (s.opened h) (s.active h))) : ActsEnd i h u P d G := by
  intro s hp hl hP
  obtain ⟨a, ha, ⟨rfl, hfin⟩, he⟩ := State.issue_plain hp hl body
  by_cases hn : s.active h = []
  · exact ⟨s.opened h, by rw [if_pos hn], by rw [e, he, if_pos hn, State.unitEnd, hfin]⟩
  · exact ⟨_, by rw [if_neg hn]; exact hb s hp ha hn (hP hn), by rw [e, he, if_neg hn]; rfl⟩

/-- What keeps a warp from changing once its unit has acted: it is not stopping, its level and context stand, and the lanes
that act neither end nor are held. -/
structure Calm (s g : State) : Prop where
  lane : g.cur = s.cur
  warp : (g.warp s.cur.warp).stopping = false
  step : trit (g.ctx (g.warp s.cur.warp).ctx).dbg 0 ≠ 1 ∨ (g.warp s.cur.warp).hm = true

/-- A unit whose body leaves its warp calm: nothing more happens. -/
theorem ActsIf.of {Q : State → Prop} {i : Instr} {h : Hdr} {u : Uses} {P : State → List Nat → Prop} {d : State → Nat → Thread → Thread}
    {G : State → List Nat → State} {body : List Nat → State → State} (e : ∀ s, Q s → exec i s = .next (s.issue h u body))
    (hb : ∀ s, Plain s → Start s (s.opened h) h → s.active h ≠ [] → P (s.opened h) (s.active h) →
      Done (body (s.active h) (s.opened h)) (s.active h) (d (s.opened h)) (G (s.opened h) (s.active h)))
    (hc : ∀ s, Plain s → Start s (s.opened h) h → s.active h ≠ [] → P (s.opened h) (s.active h) → Calm s (G (s.opened h) (s.active h)) ∧
      (∀ t ∈ threadsOf s.cur.warp, (G (s.opened h) (s.active h)).thread t = (s.opened h).thread t) ∧
      ∀ l ∈ s.active h, ∀ x : Thread, x.active → (d (s.opened h) l x).active ∧ (d (s.opened h) l x).mr = x.mr) : ActsIf Q i h u P d G := by
  intro s hQ hp hl hP
  obtain ⟨a, ha, ⟨rfl, hfin⟩, he⟩ := State.issue_plain hp hl body
  by_cases hn : s.active h = []
  · exact ⟨s.opened h, by rw [e s hQ, he, if_pos hn], by rw [if_pos hn]⟩
  refine ⟨_, ?_, by rw [if_neg hn]; exact hb s hp ha hn (hP hn)⟩
  rw [e s hQ, he, if_neg hn]
  have hd := hb s hp ha hn (hP hn)
  obtain ⟨hcalm, hg, hk⟩ := hc s hp ha hn (hP hn)
  generalize body (s.active h) (s.opened h) = b at hd ⊢
  generalize G (s.opened h) (s.active h) = g at hd hcalm hg
  have hbw : b.warp s.cur.warp = g.warp s.cur.warp := by rw [hd.rest]; rfl
  have hbc : ∀ c, b.ctx c = g.ctx c := fun c => by rw [hd.rest]; rfl
  have hlane : ∀ l, g.lane l = s.lane l := fun l => by rw [State.lane, hcalm.lane]; rfl
  rw [State.stepTrap_eq (by rw [hbw, hbc]; exact hcalm.step)]
  have hth : ∀ l ∈ s.cur.lanes, (b.thread (s.lane l)).active ∧ (b.thread (s.lane l)).mr = (s.thread (s.lane l)).mr := fun l hl' => by
    have hm := mem_threadsOf.2 ⟨l, hp.lane l hl', (rfl : s.lane l = _)⟩
    by_cases h1 : s.laneOn h (s.lane l) = true
    · have h2 : l ∈ s.active h := List.mem_filter.2 ⟨hl', h1⟩
      have := hd.on l h2
      rw [hlane, hg _ hm] at this
      have h3 := hk l h2 _ (ha.live hp h2)
      rw [this]
      exact ⟨h3.1, by rw [h3.2, ha.on l hl' h1]; rfl⟩
    · have h2 : ∀ j ∈ s.active h, s.lane l ≠ g.lane j := fun j hj e => by
        rw [hlane] at e; rw [threadOf_inj e] at h1; exact h1 (State.mem_active hj).2
      rw [hd.others _ h2, hg _ hm, ha.off l hl' (by simpa using h1)]
      exact ⟨.inl rfl, rfl⟩
  obtain ⟨l, ls, hls⟩ := List.exists_cons_of_ne_nil hp.some_
  have hl0 : l ∈ s.cur.lanes := by simp [hls]
  refine congrArg Host.Outcome.next (State.settle_eq (t := s.lane l) (by rw [hbw]; exact hcalm.warp) ?_ (mem_threadsOf.2 ⟨l, hp.lane l hl0, rfl⟩) (by
    rcases (hth l hl0).1 with e | e <;> rw [e] <;> decide))
  rw [← hp.nomeet]
  refine State.meetsNow_congr fun k hk' => ?_
  by_cases hin : ∃ j ∈ s.cur.lanes, k = s.lane j
  · obtain ⟨j, hj, rfl⟩ := hin
    have h1 := hth j hj
    refine ⟨h1.2, ?_, ?_⟩ <;>
    · rcases hp.live j hj with e | e <;> rw [← State.lane_def] at e <;> rcases h1.1 with e1 | e1 <;> rw [e, e1] <;> decide
  · have h1 : ∀ j ∈ s.cur.lanes, k ≠ s.lane j := fun j hj e => hin ⟨j, hj, e⟩
    rw [hd.others k (fun j hj => by rw [hlane]; exact h1 j (State.mem_active hj).1), hg k hk', ha.others k h1]
    exact ⟨rfl, Iff.rfl, Iff.rfl⟩

theorem active_nodup {s : State} {h : Hdr} (hp : Plain s) : (s.active h).Nodup := hp.nodup.filter _

/-- Retiring the active lanes of what the unit did. -/
theorem Start.retireAll {s g : State} {h : Hdr} (hp : Plain s) (ha : Start s (s.opened h) h) (hc : g.cur = s.cur) (ht : g.thr = (s.opened h).thr) :
    Done (g.retireAll (s.active h)) (s.active h) (ret (s.opened h)) g := by
  have := State.retireAll_done (g := g) (active_nodup (h := h) hp) (by rw [hc]; exact hp.wid) (fun l hl => hp.lane l (State.mem_active hl).1)
    (fun l hl => by rw [State.lane, hc, State.thread, ht]; exact ha.live hp hl)
  refine ⟨this.rest, fun l hl => ?_, this.others⟩
  rw [this.on l hl, ret, hc, ha.cur]
/-- The active lanes wait after what the unit did. -/
theorem Start.waitAll {s g : State} {h : Hdr} {k : Wait} (hp : Plain s) (ha : Start s (s.opened h) h) (hc : g.cur = s.cur) (ht : g.thr = (s.opened h).thr) :
    Done (g.waitAll (s.active h) k) (s.active h) (fun _ x => x.waits k) g :=
  State.waitAll_done (active_nodup (h := h) hp) (fun l hl => by rw [State.lane, hc, State.thread, ht]; exact ha.live hp hl)

/-- A form whose lanes retire and that changes neither threads nor warps nor contexts. -/
theorem Acts.retires {i : Instr} {h : Hdr} {u : Uses} {P : State → List Nat → Prop}
    {G : State → List Nat → State} {body : List Nat → State → State} (e : ∀ s, exec i s = .next (s.issue h u body))
    (hb : ∀ a act, P a act → body act a = (G a act).retireAll act) (ht : ∀ a act, P a act → (G a act).thr = a.thr) (hc : ∀ a act, P a act → (G a act).cur = a.cur)
    (hw : ∀ a act, P a act → (G a act).warp a.cur.warp = { a.warp a.cur.warp with fetch := ((G a act).warp a.cur.warp).fetch, out := ((G a act).warp a.cur.warp).out, n := ((G a act).warp a.cur.warp).n, xsel := ((G a act).warp a.cur.warp).xsel })
    (hx : ∀ a act, P a act → trit ((G a act).ctx (a.warp a.cur.warp).ctx).dbg 0 = trit (a.ctx (a.warp a.cur.warp).ctx).dbg 0) :
    Acts i h u P ret G := by
  refine ActsIf.of (fun s _ => e s) (fun s hp ha _ hP => ?_) (fun s hp ha _ hP => ?_)
  · rw [hb _ _ hP]
    exact Start.retireAll hp ha (by rw [hc _ _ hP, ha.cur]) (ht _ _ hP)
  · have h1 := hw _ _ hP
    have h2 := hx _ _ hP
    have ew : ∀ w, (s.opened h).warp w = s.warp w := fun w => by rw [ha.rest]; rfl
    have ec : ∀ w, (s.opened h).ctx w = s.ctx w := fun w => by rw [ha.rest]; rfl
    rw [ha.cur, ew] at h1
    rw [ha.cur, ew, ec] at h2
    refine ⟨⟨by rw [hc _ _ hP, ha.cur], by rw [h1]; exact hp.going, by rw [h1]; simp only [h2]; exact hp.nostep⟩,
      fun t _ => by rw [State.thread, ht _ _ hP]; rfl, fun l _ x hx => ⟨.inl rfl, rfl⟩⟩

end Sys2Proof.Machine
end

