-- ==== Sys2Proof/Laws/Memory.lean ====
section
/-! SUPPORT. Memory: a read after a write, and that every memory operation keeps the canonical form. -/

namespace Sys2Proof.Machine

theorem wfBytes_nil (z : Nat → BitVec 8) : wfBytes z [] = true := rfl
theorem wfBytes_iff {z : Nat → BitVec 8} {m : List Host.Cell} :
    wfBytes z m = true ↔ Tab.sorted m = true ∧ ∀ p ∈ m, p.2 ≠ z p.1 := by
  simp [wfBytes, List.all_eq_true]
/-- A write of any value keeps the form: the unlisted value removes the entry. -/
theorem wfBytes_set {z : Nat → BitVec 8} {m : List Host.Cell} (h : wfBytes z m = true) (k : Nat) (v : BitVec 8) :
    wfBytes z (Tab.set (z k) k v m) = true := by
  rw [wfBytes_iff] at *
  refine ⟨Tab.sorted_set _ _ _ h.1, fun p hp => ?_⟩
  unfold Tab.set at hp
  split at hp
  · exact h.2 p (Tab.mem_del hp)
  · rename_i hv
    rcases Tab.mem_put hp with rfl | hp
    · exact hv
    · exact h.2 p hp
theorem wfBytes_put {z : Nat → BitVec 8} {m : List Host.Cell} (h : wfBytes z m = true) {k : Nat} {v : BitVec 8} (hv : v ≠ z k) :
    wfBytes z (Tab.put k v m) = true := by
  have := wfBytes_set h k v
  rwa [Tab.set, if_neg hv] at this
theorem sorted_filter {α : Type} (f : Nat × α → Bool) : ∀ {t : Tab α}, Tab.sorted t = true → Tab.sorted (t.filter f) = true
  | [], _ => rfl
  | (k, v) :: t, h => by
    have h' := (Tab.sorted_cons k v t).1 h
    have ih := sorted_filter f h'.2
    simp only [List.filter_cons]
    split
    · exact (Tab.sorted_cons ..).2 ⟨fun p hp => h'.1 p (List.mem_of_mem_filter hp), ih⟩
    · exact ih
/-- What is lost at a loss of power leaves the form (R466). -/
theorem wfBytes_filter {z : Nat → BitVec 8} {m : List Host.Cell} (h : wfBytes z m = true) (f : Host.Cell → Bool) :
    wfBytes z (m.filter f) = true := by
  rw [wfBytes_iff] at *
  exact ⟨sorted_filter f h.1, fun p hp => h.2 p (List.mem_of_mem_filter hp)⟩

/-! The operations. -/

theorem State.byte_setByte (s : State) (own b v own' b' : Nat) : (s.setByte own b v).byte own' b' =
    if cellKey own' b' = cellKey own b then v % 256 else s.byte own' b' := by
  unfold State.byte State.setByte
  simp only []
  split
  · rename_i e; rw [e, Tab.get_set, if_pos rfl]; rfl
  · rename_i e
    unfold Tab.set
    split
    · rw [Tab.get_del, if_neg e]
    · rw [Tab.get_put, if_neg e]
theorem State.setByte_wf {s : State} (own b v : Nat) (h : Memory.wf s.mem = true) : Memory.wf (s.setByte own b v).mem = true :=
  wfBytes_set h _ _
theorem State.setBytes_wf (own : Nat) (vs : List Nat) : ∀ {s : State} (b : Nat), Memory.wf s.mem = true →
    Memory.wf (s.setBytes own b vs).mem = true := by
  induction vs with
  | nil => intro s b h; exact h
  | cons v vs ih => intro s b h; exact ih (b + 1) (State.setByte_wf own b v h)
theorem State.setAtom_wf {s : State} (own : Nat) (k : Int) (bs : List Nat) (h : Memory.wf s.mem = true) :
    Memory.wf (s.setAtom own k bs).mem = true := State.setBytes_wf own bs _ h
/-- A write of home memory changes memory only. -/
theorem State.setBytes_rest (own : Nat) (vs : List Nat) : ∀ (s : State) (b : Nat), s.setBytes own b vs = { s with mem := (s.setBytes own b vs).mem } := by
  induction vs with
  | nil => intro s b; rfl
  | cons v vs ih => intro s b; exact ih (s.setByte own b v) (b + 1)
theorem State.setHost_wf (vs : List Nat) : ∀ {s : State} (b : Nat), Memory.hostWf s.host = true →
    Memory.hostWf (s.setHost b vs).host = true := by
  induction vs with
  | nil => intro s b h; exact h
  | cons v vs ih => intro s b h; exact ih (b + 1) (wfBytes_set (z := fun _ => 0) h b _)
theorem State.setHost_rest (vs : List Nat) : ∀ (s : State) (b : Nat), s.setHost b vs = { s with host := (s.setHost b vs).host } := by
  induction vs with
  | nil => intro s b; rfl
  | cons v vs ih => intro s b; exact ih { s with host := Tab.set (0 : BitVec 8) b (BitVec.ofNat 8 v) s.host } (b + 1)

/-- A package's number changes no byte's place in its atom, so that what a cell reads as unlisted is unchanged (R463). -/
theorem State.renumber_wf {s : State} (p : Nat) (h : Memory.wf s.mem = true) : Memory.wf (s.renumber p).mem = true := by
  have hz : ∀ k, zeroCell (cellKey (swapPkg s.pkg p (k / cellKey 1 0)) (k % cellKey 1 0)) = zeroCell k := by
    intro k
    simp only [zeroCell, cellKey]
    congr 2
    omega
  have key : ∀ (m t : List Host.Cell), (∀ q ∈ m, q.2 ≠ zeroCell q.1) → wfBytes zeroCell t = true →
      wfBytes zeroCell (m.foldl (fun t q => Tab.put (cellKey (swapPkg s.pkg p (q.1 / cellKey 1 0)) (q.1 % cellKey 1 0)) q.2 t) t) = true := by
    intro m
    induction m with
    | nil => intro t _ ht; exact ht
    | cons q m ih =>
      intro t hm ht
      refine ih _ (fun x hx => hm x (List.mem_cons_of_mem _ hx)) (wfBytes_put ht ?_)
      rw [hz]; exact hm q List.mem_cons_self
  unfold State.renumber
  split
  · exact h
  · exact key s.mem [] (wfBytes_iff.1 h).2 rfl

theorem reset_memory_wf : Memory.wf State.reset.mem = true ∧ Memory.hostWf State.reset.host = true := ⟨rfl, rfl⟩

end Sys2Proof.Machine
end

