-- ==== Sys2Proof/Laws/PerInstr.lean ====
section
/-! SUPPORT. The family ReadBack: the fields of an instruction's unit read back as the instruction, form by form. -/

set_option linter.unusedSimpArgs false
set_option linter.unusedVariables false
set_option linter.unreachableTactic false
set_option linter.unusedTactic false

namespace Sys2Proof.Laws.ReadBack

set_option Elab.async false

open Sys2Proof Sys2Proof.Machine

/-- The reader gives a well-formed instruction back from its own fields, its modifier fits its 15 trits, its opcode is
no prefix's, and its guard and control trits are the header's (R145, R150, R163). -/
def Statement (i : Instr) : Prop :=
  i.wf = true → ∀ h r, hdr i = some h → rawOf i = some r → readRaw h r = some i ∧ inRange r.md 15 = true ∧ r.op < 540
    ∧ (r.gpred = h.gpred ∧ r.gcond = h.gcond ∧ r.lag = h.lag ∧ r.cede = h.cede ∧ r.last = h.last)

theorem mkS {i : Instr} {h : Hdr} {r : Raw} (e1 : hdr i = some h) (e2 : rawOf i = some r)
    (H : subOk i = true → valueOk i = true → scaleOk i = true → rawOk r = true → readRaw h r = some i ∧ inRange r.md 15 = true ∧ r.op < 540)
    (e3 : r.gpred = h.gpred ∧ r.gcond = h.gcond ∧ r.lag = h.lag ∧ r.cede = h.cede ∧ r.last = h.last) :
    Statement i := by
  intro hw h' r' hh hr
  rw [e1] at hh; rw [e2] at hr
  obtain rfl := Option.some.inj hh
  obtain rfl := Option.some.inj hr
  unfold Instr.wf at hw
  rw [e1, e2] at hw
  simp only [Bool.and_eq_true] at hw
  have hl := hw.2.2
  unfold legal at hl
  simp only [Bool.and_eq_true] at hl
  obtain ⟨g1, g2, g3⟩ := H hw.1 hl.1.1.1.2 hl.1.2 hw.2.1.2
  exact ⟨g1, g2, g3, e3⟩

/-- The same with the check of the copy fields. -/
theorem mkC {i : Instr} {h : Hdr} {r : Raw} (e1 : hdr i = some h) (e2 : rawOf i = some r)
    (H : subOk i = true → valueOk i = true → scaleOk i = true → rawOk r = true → copyFieldsOk i = true →
      readRaw h r = some i ∧ inRange r.md 15 = true ∧ r.op < 540)
    (e3 : r.gpred = h.gpred ∧ r.gcond = h.gcond ∧ r.lag = h.lag ∧ r.cede = h.cede ∧ r.last = h.last) :
    Statement i := by
  intro hw h' r' hh hr
  rw [e1] at hh; rw [e2] at hr
  obtain rfl := Option.some.inj hh
  obtain rfl := Option.some.inj hr
  unfold Instr.wf at hw
  rw [e1, e2] at hw
  simp only [Bool.and_eq_true] at hw
  have hl := hw.2.2
  unfold legal at hl
  simp only [Bool.and_eq_true] at hl
  obtain ⟨g1, g2, g3⟩ := H hw.1 hl.1.1.1.2 hl.1.2 hw.2.1.2 hl.1.1.2
  exact ⟨g1, g2, g3, e3⟩

theorem Scope.cd (x : Scope) : -13 ≤ x.code ∧ x.code ≤ 13 ∧ Scope.ofCode x.code = x := by cases x <;> decide
theorem Ord.cd (x : Ord) : -4 ≤ x.code ∧ x.code ≤ 4 ∧ Ord.ofCode x.code = x := by cases x <;> decide
theorem Lease.cd (x : Lease) : -4 ≤ x.code ∧ x.code ≤ 4 ∧ Lease.ofCode x.code = x := by cases x <;> decide
theorem Sz.cd (x : Sz) : -1 ≤ x.code ∧ x.code ≤ 1 ∧ Sz.ofCode x.code = x := by cases x <;> decide
theorem AOp.cd (x : AOp) : -13 ≤ x.code ∧ x.code ≤ 13 ∧ AOp.ofCode x.code = x := by cases x <;> decide
theorem Level.cd (x : Level) : -13 ≤ x.code ∧ x.code ≤ 13 ∧ Level.ofCode x.code = x := by cases x <;> decide
theorem CMode.cd (x : CMode) : -13 ≤ x.code ∧ x.code ≤ 13 ∧ CMode.ofCode x.code = x := by cases x <;> decide
theorem BType.cd (x : BType) : 0 ≤ (x.code : Int) ∧ (x.code : Int) ≤ 13 ∧ BType.ofCode (x.code : Int) = some x := by cases x <;> decide
theorem TType.cd (x : TType) : 0 ≤ (x.code : Int) ∧ (x.code : Int) ≤ 4 ∧ TType.ofCode (x.code : Int) = some x := by cases x <;> decide
theorem NTy.cd (x : NTy) : x.code ≤ 3 ∧ NTy.ofCode x.code = x := by cases x <;> decide
theorem OTy.cd (x : OTy) : x.code ≤ 4 ∧ OTy.ofCode x.code = x := by cases x <;> decide
theorem PB.cd (x : PB) : x.code ≤ 3 ∧ PB.ofCode x.code = x := by cases x <;> decide
theorem bt_cd (x : Bool) : 0 ≤ bt x ∧ bt x ≤ 1 := by cases x <;> decide
theorem bt_one (x : Bool) : decide (bt x = 1) = x := by cases x <;> decide
theorem pv : pow3 0 = 1 ∧ pow3 1 = 3 ∧ pow3 2 = 9 ∧ pow3 3 = 27 ∧ pow3 4 = 81 ∧ pow3 5 = 243 ∧ pow3 6 = 729 ∧ pow3 7 = 2187
    ∧ pow3 8 = 6561 ∧ pow3 9 = 19683 ∧ pow3 10 = 59049 ∧ pow3 11 = 177147 ∧ pow3 12 = 531441 ∧ pow3 13 = 1594323
    ∧ pow3 14 = 4782969 ∧ pow3 15 = 14348907 ∧ pow3 18 = 387420489 ∧ pow3 27 = 7625597484987 := by decide
theorem hvv : half 0 = 0 ∧ half 1 = 1 ∧ half 2 = 4 ∧ half 3 = 13 ∧ half 4 = 40 ∧ half 5 = 121 ∧ half 6 = 364 ∧ half 7 = 1093
    ∧ half 8 = 3280 ∧ half 9 = 9841 ∧ half 10 = 29524 ∧ half 11 = 88573 ∧ half 12 = 265720 ∧ half 13 = 797161
    ∧ half 14 = 2391484 ∧ half 15 = 7174453 ∧ half 18 = 193710244 ∧ half 27 = 3812798742493 := by decide

/-! The options of a copy. -/

theorem copy_f {o : CpOpt} (h : copyFieldsOk.f o = true) : o.qw ≤ 3 ∧ (o.mode ≠ .q → o.qw = 0) := by
  unfold copyFieldsOk.f at h
  have := (Bool.and_eq_true_iff.1 h).2
  split at this <;> simp at this <;> constructor <;> first | omega | (intro hc; first | contradiction | exact this)
theorem cpMd_ok (o : CpOpt) (hq : o.qw ≤ 3) : inRange (cpMd o) 15 = true := by
  obtain ⟨b1, b2, -⟩ := CMode.cd o.mode
  obtain ⟨c1, c2, -⟩ := BType.cd o.btype
  obtain ⟨d1, d2, -⟩ := TType.cd o.tty
  have t1 := bt_cd o.tok
  have t2 := bt_cd o.sring.isSome
  have t3 := bt_cd o.dring.isSome
  simp only [cpMd, mp, eo, pv, hvv, Nat.reduceSub, inRange, Bool.and_eq_true, decide_eq_true_eq]
  split <;> omega
theorem readCp_eq (r : Raw) (o : CpOpt) (hs : cpOk o = true) (hq : o.qw ≤ 3) (hq0 : o.mode ≠ .q → o.qw = 0) (hmd : r.md = cpMd o)
    (himm : r.imm = cpImm o) : readCp r = o := by
  obtain ⟨b1, b2, b3⟩ := CMode.cd o.mode
  obtain ⟨c1, c2, c3⟩ := BType.cd o.btype
  obtain ⟨d1, d2, d3⟩ := TType.cd o.tty
  have t1 := bt_cd o.tok
  have t2 := bt_cd o.sring.isSome
  have t3 := bt_cd o.dring.isSome
  have hm : r.md = o.mode.code * 59049 + bt o.tok * 19683 + bt o.sring.isSome * 6561 + bt o.dring.isSome * 2187 + o.btype.code * 81
      + o.tty.code * 9 + (if o.mode = .q then (o.qw : Int) - 4 else 0) := by
    rw [hmd]; simp only [cpMd, mp, eo, pv, hvv, Nat.reduceSub]; split <;> omega
  have hq' : -4 ≤ (if o.mode = .q then (o.qw : Int) - 4 else 0) ∧ (if o.mode = .q then (o.qw : Int) - 4 else 0) ≤ 0 := by split <;> omega
  generalize hz : (if o.mode = .q then (o.qw : Int) - 4 else 0) = z at hm hq'
  have hsr : -13 ≤ ringF o.sring ∧ ringF o.sring ≤ 13 ∧ ∀ x, o.sring = some x → ringF o.sring = (x : Int) - 13 := by
    have := (Bool.and_eq_true_iff.1 (Bool.and_eq_true_iff.1 hs).1).1
    cases e : o.sring with
    | none => simp [ringF]
    | some x =>
      rw [e] at this
      have : x < 27 := of_decide_eq_true this
      refine ⟨?_, ?_, fun y hy => ?_⟩
      · simp only [ringF, eo, hvv]; omega
      · simp only [ringF, eo, hvv]; omega
      · cases hy; simp only [ringF, eo, hvv]
  have hdr : -13 ≤ ringF o.dring ∧ ringF o.dring ≤ 13 ∧ ∀ x, o.dring = some x → ringF o.dring = (x : Int) - 13 := by
    have := (Bool.and_eq_true_iff.1 (Bool.and_eq_true_iff.1 hs).1).2
    cases e : o.dring with
    | none => simp [ringF]
    | some x =>
      rw [e] at this
      have : x < 27 := of_decide_eq_true this
      refine ⟨?_, ?_, fun y hy => ?_⟩
      · simp only [ringF, eo, hvv]; omega
      · simp only [ringF, eo, hvv]; omega
      · cases hy; simp only [ringF, eo, hvv]
  have htag := (Bool.and_eq_true_iff.1 hs).2
  simp only [inRange, hvv, Bool.and_eq_true, decide_eq_true_eq] at htag
  have hi : r.imm = o.tag + ringF o.dring * 19683 + ringF o.sring * 531441 := by rw [himm]; simp only [cpImm, pv]
  have f0 : r.mf 37 3 = o.mode.code := by simp only [Raw.mf, fld, Machine.shr, wrap, hm, pv, hvv, Nat.reduceSub]; omega
  have f1 : r.mf 36 1 = bt o.tok := by simp only [Raw.mf, fld, Machine.shr, wrap, hm, pv, hvv, Nat.reduceSub]; omega
  have f2 : r.mf 35 1 = bt o.sring.isSome := by simp only [Raw.mf, fld, Machine.shr, wrap, hm, pv, hvv, Nat.reduceSub]; omega
  have f3 : r.mf 34 1 = bt o.dring.isSome := by simp only [Raw.mf, fld, Machine.shr, wrap, hm, pv, hvv, Nat.reduceSub]; omega
  have f4 : r.mf 31 3 = o.btype.code := by simp only [Raw.mf, fld, Machine.shr, wrap, hm, pv, hvv, Nat.reduceSub]; omega
  have f5 : r.mf 29 2 = o.tty.code := by simp only [Raw.mf, fld, Machine.shr, wrap, hm, pv, hvv, Nat.reduceSub]; omega
  have f6 : r.mf 27 2 = z := by simp only [Raw.mf, fld, Machine.shr, wrap, hm, pv, hvv, Nat.reduceSub]; omega
  have g0 : fld r.imm 12 3 = ringF o.sring := by simp only [fld, Machine.shr, wrap, hi, pv, hvv]; omega
  have g1 : fld r.imm 9 3 = ringF o.dring := by simp only [fld, Machine.shr, wrap, hi, pv, hvv]; omega
  have g2 : fld r.imm 0 9 = o.tag := by simp only [fld, Machine.shr, wrap, hi, pv, hvv]; omega
  have h0 : (if o.sring.isSome = true then some (offF r.imm 12 3) else none) = o.sring := by
    cases e : o.sring with
    | none => rfl
    | some x =>
      have := hsr.2.2 x e
      simp only [Option.isSome_some, if_true, offF, g0, this, hvv, Option.some.injEq]; omega
  have h1 : (if o.dring.isSome = true then some (offF r.imm 9 3) else none) = o.dring := by
    cases e : o.dring with
    | none => rfl
    | some x =>
      have := hdr.2.2 x e
      simp only [Option.isSome_some, if_true, offF, g1, this, hvv, Option.some.injEq]; omega
  have h2 : (if o.mode = .q then r.mo 27 2 else 0) = o.qw := by
    split
    · rename_i e
      have f7 : fld r.md (27 - 27) 2 = z := f6
      rw [if_pos e] at hz
      simp only [Raw.mo, offF, f7, hvv]; omega
    · rename_i e; exact (hq0 e).symm
  simp only [readCp, Raw.mb, f0, f1, f2, f3, f4, f5, g2, b3, c3, d3, bt_one, Option.getD_some, h0, h1, h2]

theorem add (h : Hdr) (t3 sat : Bool) (d a b : Nat) : Statement (.add h t3 sat d a b) := by
  refine mkS rfl rfl (e3 := ⟨rfl, rfl, rfl, rfl, rfl⟩) fun hs hv hk hr0 => ?_
  refine ⟨?_, ?_, by simp [mk]⟩
  · cases t3 <;> cases sat <;> rfl
  · cases t3 <;> cases sat <;> rfl
theorem addi (h : Hdr) (t3 sat x : Bool) (d a : Nat) (imm : Int) : Statement (.addi h t3 sat x d a imm) := by
  refine mkS rfl rfl (e3 := ⟨rfl, rfl, rfl, rfl, rfl⟩) fun hs hv hk hr0 => ?_
  refine ⟨?_, ?_, by simp [mk]⟩
  · cases t3 <;> cases sat <;> cases x <;> rfl
  · cases t3 <;> cases sat <;> cases x <;> rfl
theorem sub (h : Hdr) (t3 sat : Bool) (d a b : Nat) : Statement (.sub h t3 sat d a b) := by
  refine mkS rfl rfl (e3 := ⟨rfl, rfl, rfl, rfl, rfl⟩) fun hs hv hk hr0 => ?_
  refine ⟨?_, ?_, by simp [mk]⟩
  · cases t3 <;> cases sat <;> rfl
  · cases t3 <;> cases sat <;> rfl
theorem neg (h : Hdr) (t3 : Bool) (d a : Nat) : Statement (.neg h t3 d a) := by
  refine mkS rfl rfl (e3 := ⟨rfl, rfl, rfl, rfl, rfl⟩) fun hs hv hk hr0 => ?_
  refine ⟨?_, ?_, by simp [mk]⟩
  · cases t3 <;> rfl
  · cases t3 <;> rfl
theorem abs (h : Hdr) (t3 : Bool) (d a : Nat) : Statement (.abs h t3 d a) := by
  refine mkS rfl rfl (e3 := ⟨rfl, rfl, rfl, rfl, rfl⟩) fun hs hv hk hr0 => ?_
  refine ⟨?_, ?_, by simp [mk]⟩
  · cases t3 <;> rfl
  · cases t3 <;> rfl
theorem sgn (h : Hdr) (t3 : Bool) (d a : Nat) : Statement (.sgn h t3 d a) := by
  refine mkS rfl rfl (e3 := ⟨rfl, rfl, rfl, rfl, rfl⟩) fun hs hv hk hr0 => ?_
  refine ⟨?_, ?_, by simp [mk]⟩
  · cases t3 <;> rfl
  · cases t3 <;> rfl
theorem mul (h : Hdr) (t3 sat : Bool) (d a b : Nat) : Statement (.mul h t3 sat d a b) := by
  refine mkS rfl rfl (e3 := ⟨rfl, rfl, rfl, rfl, rfl⟩) fun hs hv hk hr0 => ?_
  refine ⟨?_, ?_, by simp [mk]⟩
  · cases t3 <;> cases sat <;> rfl
  · cases t3 <;> cases sat <;> rfl
theorem mulh (h : Hdr) (t3 : Bool) (d a b : Nat) : Statement (.mulh h t3 d a b) := by
  refine mkS rfl rfl (e3 := ⟨rfl, rfl, rfl, rfl, rfl⟩) fun hs hv hk hr0 => ?_
  refine ⟨?_, ?_, by simp [mk]⟩
  · cases t3 <;> rfl
  · cases t3 <;> rfl
theorem mulw (h : Hdr) (d a b : Nat) : Statement (.mulw h d a b) := by
  refine mkS rfl rfl (e3 := ⟨rfl, rfl, rfl, rfl, rfl⟩) fun hs hv hk hr0 => ?_
  refine ⟨?_, ?_, by simp [mk]⟩
  · rfl
  · rfl
theorem mad (h : Hdr) (t3 sat : Bool) (d a b c : Nat) : Statement (.mad h t3 sat d a b c) := by
  refine mkS rfl rfl (e3 := ⟨rfl, rfl, rfl, rfl, rfl⟩) fun hs hv hk hr0 => ?_
  refine ⟨?_, ?_, by simp [mk]⟩
  · cases t3 <;> cases sat <;> rfl
  · cases t3 <;> cases sat <;> rfl
theorem div (h : Hdr) (t3 : Bool) (d a b : Nat) : Statement (.div h t3 d a b) := by
  refine mkS rfl rfl (e3 := ⟨rfl, rfl, rfl, rfl, rfl⟩) fun hs hv hk hr0 => ?_
  refine ⟨?_, ?_, by simp [mk]⟩
  · cases t3 <;> rfl
  · cases t3 <;> rfl
theorem rem (h : Hdr) (t3 : Bool) (d a b : Nat) : Statement (.rem h t3 d a b) := by
  refine mkS rfl rfl (e3 := ⟨rfl, rfl, rfl, rfl, rfl⟩) fun hs hv hk hr0 => ?_
  refine ⟨?_, ?_, by simp [mk]⟩
  · cases t3 <;> rfl
  · cases t3 <;> rfl
theorem min (h : Hdr) (t3 : Bool) (d a b : Nat) : Statement (.min h t3 d a b) := by
  refine mkS rfl rfl (e3 := ⟨rfl, rfl, rfl, rfl, rfl⟩) fun hs hv hk hr0 => ?_
  refine ⟨?_, ?_, by simp [mk]⟩
  · cases t3 <;> rfl
  · cases t3 <;> rfl
theorem max (h : Hdr) (t3 : Bool) (d a b : Nat) : Statement (.max h t3 d a b) := by
  refine mkS rfl rfl (e3 := ⟨rfl, rfl, rfl, rfl, rfl⟩) fun hs hv hk hr0 => ?_
  refine ⟨?_, ?_, by simp [mk]⟩
  · cases t3 <;> rfl
  · cases t3 <;> rfl
theorem clamp (h : Hdr) (t3 : Bool) (d a b c : Nat) : Statement (.clamp h t3 d a b c) := by
  refine mkS rfl rfl (e3 := ⟨rfl, rfl, rfl, rfl, rfl⟩) fun hs hv hk hr0 => ?_
  refine ⟨?_, ?_, by simp [mk]⟩
  · cases t3 <;> rfl
  · cases t3 <;> rfl
theorem addx (h : Hdr) (d a b : Nat) : Statement (.addx h d a b) := by
  refine mkS rfl rfl (e3 := ⟨rfl, rfl, rfl, rfl, rfl⟩) fun hs hv hk hr0 => ?_
  refine ⟨?_, ?_, by simp [mk]⟩
  · rfl
  · rfl
theorem subx (h : Hdr) (d a b : Nat) : Statement (.subx h d a b) := by
  refine mkS rfl rfl (e3 := ⟨rfl, rfl, rfl, rfl, rfl⟩) fun hs hv hk hr0 => ?_
  refine ⟨?_, ?_, by simp [mk]⟩
  · rfl
  · rfl
theorem lea (h : Hdr) (d : Nat) (m : MOp) : Statement (.lea h d m) := by
  refine mkS rfl rfl (e3 := ⟨rfl, rfl, rfl, rfl, rfl⟩) fun hs hv hk hr0 => ?_
  have hk3 : m.k ≤ 3 := of_decide_eq_true hk
  refine ⟨?_, ?_, by simp [mk]⟩
  · generalize hr : Machine.mk h 17 d m.a m.b fz (mp 27 (m.k : Int)) (m.disp) = r
    have hmd : r.md = (m.k : Int) := by rw [← hr]; simp only [Machine.mk, accM, mp, eo, pv, hvv, Nat.reduceSub]; try omega
    have f0 : r.mf 27 2 = (m.k : Int) := by simp only [Raw.mf, Raw.mo, offF, fld, Machine.shr, wrap, hmd, pv, hvv, eo, Nat.reduceSub]; try omega
    have e : readRaw h r = some (.lea h r.d (readM r)) := by subst hr; rfl
    rw [e]
    simp only [readAcc, readM, Raw.mb, f0, bt_one, Int.toNat_natCast, Option.getD_some, decide_true, decide_false, if_true, if_false, reduceCtorEq, Int.reduceNeg, Int.reduceEq]
    try (subst hr; simp only [Machine.mk])
  · simp only [Machine.mk, accM, mp, eo, pv, hvv, Nat.reduceSub, inRange, Bool.and_eq_true, decide_eq_true_eq]; try omega
theorem cmp (h : Hdr) (t3 x : Bool) (d a b : Nat) : Statement (.cmp h t3 x d a b) := by
  refine mkS rfl rfl (e3 := ⟨rfl, rfl, rfl, rfl, rfl⟩) fun hs hv hk hr0 => ?_
  refine ⟨?_, ?_, by simp [mk]⟩
  · cases t3 <;> cases x <;> rfl
  · cases t3 <;> cases x <;> rfl
theorem cmpi (h : Hdr) (x : Bool) (d a : Nat) (imm : Int) : Statement (.cmpi h x d a imm) := by
  refine mkS rfl rfl (e3 := ⟨rfl, rfl, rfl, rfl, rfl⟩) fun hs hv hk hr0 => ?_
  refine ⟨?_, ?_, by simp [mk]⟩
  · cases x <;> rfl
  · cases x <;> rfl
theorem tand (h : Hdr) (d a b : Nat) : Statement (.tand h d a b) := by
  refine mkS rfl rfl (e3 := ⟨rfl, rfl, rfl, rfl, rfl⟩) fun hs hv hk hr0 => ?_
  refine ⟨?_, ?_, by simp [mk]⟩
  · rfl
  · rfl
theorem tor (h : Hdr) (d a b : Nat) : Statement (.tor h d a b) := by
  refine mkS rfl rfl (e3 := ⟨rfl, rfl, rfl, rfl, rfl⟩) fun hs hv hk hr0 => ?_
  refine ⟨?_, ?_, by simp [mk]⟩
  · rfl
  · rfl
theorem tsum (h : Hdr) (d a b : Nat) : Statement (.tsum h d a b) := by
  refine mkS rfl rfl (e3 := ⟨rfl, rfl, rfl, rfl, rfl⟩) fun hs hv hk hr0 => ?_
  refine ⟨?_, ?_, by simp [mk]⟩
  · rfl
  · rfl
theorem tmult (h : Hdr) (d a b : Nat) : Statement (.tmult h d a b) := by
  refine mkS rfl rfl (e3 := ⟨rfl, rfl, rfl, rfl, rfl⟩) fun hs hv hk hr0 => ?_
  refine ⟨?_, ?_, by simp [mk]⟩
  · rfl
  · rfl
theorem tcons (h : Hdr) (d a b : Nat) : Statement (.tcons h d a b) := by
  refine mkS rfl rfl (e3 := ⟨rfl, rfl, rfl, rfl, rfl⟩) fun hs hv hk hr0 => ?_
  refine ⟨?_, ?_, by simp [mk]⟩
  · rfl
  · rfl
theorem shl (h : Hdr) (t3 : Bool) (d a : Nat) (n : Count) : Statement (.shl h t3 d a n) := by
  refine mkS rfl rfl (e3 := ⟨rfl, rfl, rfl, rfl, rfl⟩) fun hs hv hk hr0 => ?_
  refine ⟨?_, ?_, by simp [mk]⟩
  · cases n with
    | reg b => cases t3 <;> rfl
    | imm n =>
      have hn : n < 243 := of_decide_eq_true hs
      have ht := bt_cd t3
      generalize hr : mk h 54 d a (countB (.imm n)) fz (mp 40 (bt t3) + countM (.imm n)) 0 = r
      have hmd : r.md = bt t3 * 1594323 + 177147 + ((n : Int) - 121) * 729 := by
        rw [← hr]; simp only [mk, countM, mp, eo, pv, hvv, Nat.reduceSub]; omega
      have f0 : r.mf 40 1 = bt t3 := by simp only [Raw.mf, Raw.mo, offF, fld, Machine.shr, wrap, hmd, pv, hvv, eo, Nat.reduceSub]; try omega
      have f1 : r.mf 38 1 = 1 := by simp only [Raw.mf, Raw.mo, offF, fld, Machine.shr, wrap, hmd, pv, hvv, eo, Nat.reduceSub]; try omega
      have f2 : r.mo 33 5 = n := by simp only [Raw.mf, Raw.mo, offF, fld, Machine.shr, wrap, hmd, pv, hvv, eo, Nat.reduceSub]; try omega
      have e : readRaw h r = some (.shl h (r.mb 40) r.d r.a (readCount r)) := by subst hr; rfl
      rw [e]
      simp only [readCount, Raw.mb, f0, f1, f2, bt_one, decide_true, if_true]
      subst hr; simp only [mk]
  · cases n with
    | reg b => cases t3 <;> rfl
    | imm n =>
      have hn : n < 243 := of_decide_eq_true hs
      have ht := bt_cd t3
      simp only [mk, countM, mp, eo, pv, hvv, Nat.reduceSub, inRange, Bool.and_eq_true, decide_eq_true_eq]; omega
theorem shr (h : Hdr) (t3 : Bool) (d a : Nat) (n : Count) : Statement (.shr h t3 d a n) := by
  refine mkS rfl rfl (e3 := ⟨rfl, rfl, rfl, rfl, rfl⟩) fun hs hv hk hr0 => ?_
  refine ⟨?_, ?_, by simp [mk]⟩
  · cases n with
    | reg b => cases t3 <;> rfl
    | imm n =>
      have hn : n < 243 := of_decide_eq_true hs
      have ht := bt_cd t3
      generalize hr : mk h 55 d a (countB (.imm n)) fz (mp 40 (bt t3) + countM (.imm n)) 0 = r
      have hmd : r.md = bt t3 * 1594323 + 177147 + ((n : Int) - 121) * 729 := by
        rw [← hr]; simp only [mk, countM, mp, eo, pv, hvv, Nat.reduceSub]; omega
      have f0 : r.mf 40 1 = bt t3 := by simp only [Raw.mf, Raw.mo, offF, fld, Machine.shr, wrap, hmd, pv, hvv, eo, Nat.reduceSub]; try omega
      have f1 : r.mf 38 1 = 1 := by simp only [Raw.mf, Raw.mo, offF, fld, Machine.shr, wrap, hmd, pv, hvv, eo, Nat.reduceSub]; try omega
      have f2 : r.mo 33 5 = n := by simp only [Raw.mf, Raw.mo, offF, fld, Machine.shr, wrap, hmd, pv, hvv, eo, Nat.reduceSub]; try omega
      have e : readRaw h r = some (.shr h (r.mb 40) r.d r.a (readCount r)) := by subst hr; rfl
      rw [e]
      simp only [readCount, Raw.mb, f0, f1, f2, bt_one, decide_true, if_true]
      subst hr; simp only [mk]
  · cases n with
    | reg b => cases t3 <;> rfl
    | imm n =>
      have hn : n < 243 := of_decide_eq_true hs
      have ht := bt_cd t3
      simp only [mk, countM, mp, eo, pv, hvv, Nat.reduceSub, inRange, Bool.and_eq_true, decide_eq_true_eq]; omega
theorem rot (h : Hdr) (t3 : Bool) (d a : Nat) (n : Count) : Statement (.rot h t3 d a n) := by
  refine mkS rfl rfl (e3 := ⟨rfl, rfl, rfl, rfl, rfl⟩) fun hs hv hk hr0 => ?_
  refine ⟨?_, ?_, by simp [mk]⟩
  · cases n with
    | reg b => cases t3 <;> rfl
    | imm n =>
      have hn : n < 243 := of_decide_eq_true hs
      have ht := bt_cd t3
      generalize hr : mk h 56 d a (countB (.imm n)) fz (mp 40 (bt t3) + countM (.imm n)) 0 = r
      have hmd : r.md = bt t3 * 1594323 + 177147 + ((n : Int) - 121) * 729 := by
        rw [← hr]; simp only [mk, countM, mp, eo, pv, hvv, Nat.reduceSub]; omega
      have f0 : r.mf 40 1 = bt t3 := by simp only [Raw.mf, Raw.mo, offF, fld, Machine.shr, wrap, hmd, pv, hvv, eo, Nat.reduceSub]; try omega
      have f1 : r.mf 38 1 = 1 := by simp only [Raw.mf, Raw.mo, offF, fld, Machine.shr, wrap, hmd, pv, hvv, eo, Nat.reduceSub]; try omega
      have f2 : r.mo 33 5 = n := by simp only [Raw.mf, Raw.mo, offF, fld, Machine.shr, wrap, hmd, pv, hvv, eo, Nat.reduceSub]; try omega
      have e : readRaw h r = some (.rot h (r.mb 40) r.d r.a (readCount r)) := by subst hr; rfl
      rw [e]
      simp only [readCount, Raw.mb, f0, f1, f2, bt_one, decide_true, if_true]
      subst hr; simp only [mk]
  · cases n with
    | reg b => cases t3 <;> rfl
    | imm n =>
      have hn : n < 243 := of_decide_eq_true hs
      have ht := bt_cd t3
      simp only [mk, countM, mp, eo, pv, hvv, Nat.reduceSub, inRange, Bool.and_eq_true, decide_eq_true_eq]; omega
theorem fext (h : Hdr) (d a l w : Nat) : Statement (.fext h d a l w) := by
  refine mkS rfl rfl (e3 := ⟨rfl, rfl, rfl, rfl, rfl⟩) fun hs hv hk hr0 => ?_
  have hl : l ≤ 26 := of_decide_eq_true (Bool.and_eq_true_iff.1 (Bool.and_eq_true_iff.1 (Bool.and_eq_true_iff.1 hv).1).1).1
  have hw27 : w ≤ 27 := of_decide_eq_true (Bool.and_eq_true_iff.1 (Bool.and_eq_true_iff.1 hv).1).2
  refine ⟨?_, ?_, by simp [mk]⟩
  · generalize hr : Machine.mk h 57 d a fz fz (mp 33 (eo l 5) + mp 28 (eo w 5)) (0) = r
    have hmd : r.md = ((l : Int) - 121) * 729 + ((w : Int) - 121) * 3 := by rw [← hr]; simp only [Machine.mk, accM, mp, eo, pv, hvv, Nat.reduceSub]; try omega
    have f0 : r.mo 33 5 = l := by simp only [Raw.mf, Raw.mo, offF, fld, Machine.shr, wrap, hmd, pv, hvv, eo, Nat.reduceSub]; try omega
    have f1 : r.mo 28 5 = w := by simp only [Raw.mf, Raw.mo, offF, fld, Machine.shr, wrap, hmd, pv, hvv, eo, Nat.reduceSub]; try omega
    have e : readRaw h r = some (.fext h r.d r.a (r.mo 33 5) (r.mo 28 5)) := by subst hr; rfl
    rw [e]
    simp only [readAcc, readM, Raw.mb, f0, f1, bt_one, Int.toNat_natCast, Option.getD_some, decide_true, decide_false, if_true, if_false, reduceCtorEq, Int.reduceNeg, Int.reduceEq]
    try (subst hr; simp only [Machine.mk])
  · simp only [Machine.mk, accM, mp, eo, pv, hvv, Nat.reduceSub, inRange, Bool.and_eq_true, decide_eq_true_eq]; try omega
theorem fins (h : Hdr) (d a b l w : Nat) : Statement (.fins h d a b l w) := by
  refine mkS rfl rfl (e3 := ⟨rfl, rfl, rfl, rfl, rfl⟩) fun hs hv hk hr0 => ?_
  have hl : l ≤ 26 := of_decide_eq_true (Bool.and_eq_true_iff.1 (Bool.and_eq_true_iff.1 (Bool.and_eq_true_iff.1 hv).1).1).1
  have hw27 : w ≤ 27 := of_decide_eq_true (Bool.and_eq_true_iff.1 (Bool.and_eq_true_iff.1 hv).1).2
  refine ⟨?_, ?_, by simp [mk]⟩
  · generalize hr : Machine.mk h 58 d a b fz (mp 33 (eo l 5) + mp 28 (eo w 5)) (0) = r
    have hmd : r.md = ((l : Int) - 121) * 729 + ((w : Int) - 121) * 3 := by rw [← hr]; simp only [Machine.mk, accM, mp, eo, pv, hvv, Nat.reduceSub]; try omega
    have f0 : r.mo 33 5 = l := by simp only [Raw.mf, Raw.mo, offF, fld, Machine.shr, wrap, hmd, pv, hvv, eo, Nat.reduceSub]; try omega
    have f1 : r.mo 28 5 = w := by simp only [Raw.mf, Raw.mo, offF, fld, Machine.shr, wrap, hmd, pv, hvv, eo, Nat.reduceSub]; try omega
    have e : readRaw h r = some (.fins h r.d r.a r.b (r.mo 33 5) (r.mo 28 5)) := by subst hr; rfl
    rw [e]
    simp only [readAcc, readM, Raw.mb, f0, f1, bt_one, Int.toNat_natCast, Option.getD_some, decide_true, decide_false, if_true, if_false, reduceCtorEq, Int.reduceNeg, Int.reduceEq]
    try (subst hr; simp only [Machine.mk])
  · simp only [Machine.mk, accM, mp, eo, pv, hvv, Nat.reduceSub, inRange, Bool.and_eq_true, decide_eq_true_eq]; try omega
theorem tcnt (h : Hdr) (v : Int) (d a : Nat) : Statement (.tcnt h v d a) := by
  refine mkS rfl rfl (e3 := ⟨rfl, rfl, rfl, rfl, rfl⟩) fun hs hv hk hr0 => ?_
  have hv1 := hs
  simp only [subOk, inRange, hvv, Bool.and_eq_true, decide_eq_true_eq] at hv1
  refine ⟨?_, ?_, by simp [mk]⟩
  · generalize hr : Machine.mk h 59 d a fz fz (mp 38 v) (0) = r
    have hmd : r.md = v * 177147 := by rw [← hr]; simp only [Machine.mk, accM, mp, eo, pv, hvv, Nat.reduceSub]; try omega
    have f0 : r.mf 38 1 = v := by simp only [Raw.mf, Raw.mo, offF, fld, Machine.shr, wrap, hmd, pv, hvv, eo, Nat.reduceSub]; try omega
    have e : readRaw h r = some (.tcnt h (r.mf 38 1) r.d r.a) := by subst hr; rfl
    rw [e]
    simp only [readAcc, readM, Raw.mb, f0, bt_one, Int.toNat_natCast, Option.getD_some, decide_true, decide_false, if_true, if_false, reduceCtorEq, Int.reduceNeg, Int.reduceEq]
    try (subst hr; simp only [Machine.mk])
  · simp only [Machine.mk, accM, mp, eo, pv, hvv, Nat.reduceSub, inRange, Bool.and_eq_true, decide_eq_true_eq]; try omega
theorem tlz (h : Hdr) (d a : Nat) : Statement (.tlz h d a) := by
  refine mkS rfl rfl (e3 := ⟨rfl, rfl, rfl, rfl, rfl⟩) fun hs hv hk hr0 => ?_
  refine ⟨?_, ?_, by simp [mk]⟩
  · rfl
  · rfl
theorem trev (h : Hdr) (d a : Nat) : Statement (.trev h d a) := by
  refine mkS rfl rfl (e3 := ⟨rfl, rfl, rfl, rfl, rfl⟩) fun hs hv hk hr0 => ?_
  refine ⟨?_, ?_, by simp [mk]⟩
  · rfl
  · rfl
theorem mov (h : Hdr) (x : Bool) (d a : Nat) : Statement (.mov h x d a) := by
  refine mkS rfl rfl (e3 := ⟨rfl, rfl, rfl, rfl, rfl⟩) fun hs hv hk hr0 => ?_
  refine ⟨?_, ?_, by simp [mk]⟩
  · cases x <;> rfl
  · cases x <;> rfl
theorem movNb (h : Hdr) (d a c : Nat) : Statement (.movNb h d a c) := by
  refine mkS rfl rfl (e3 := ⟨rfl, rfl, rfl, rfl, rfl⟩) fun hs hv hk hr0 => ?_
  refine ⟨?_, ?_, by simp [mk]⟩
  · rfl
  · rfl
theorem movi (h : Hdr) (x : Bool) (d : Nat) (imm : Int) : Statement (.movi h x d imm) := by
  refine mkS rfl rfl (e3 := ⟨rfl, rfl, rfl, rfl, rfl⟩) fun hs hv hk hr0 => ?_
  refine ⟨?_, ?_, by simp [mk]⟩
  · cases x <;> rfl
  · cases x <;> rfl
theorem sel3 (h : Hdr) (p d a b c : Nat) : Statement (.sel3 h p d a b c) := by
  refine mkS rfl rfl (e3 := ⟨rfl, rfl, rfl, rfl, rfl⟩) fun hs hv hk hr0 => ?_
  have hp : p < 243 := of_decide_eq_true hs
  refine ⟨?_, ?_, by simp [mk]⟩
  · generalize hr : Machine.mk h 83 d a b c (mp 33 (eo p 5)) (0) = r
    have hmd : r.md = ((p : Int) - 121) * 729 := by rw [← hr]; simp only [Machine.mk, accM, mp, eo, pv, hvv, Nat.reduceSub]; try omega
    have f0 : r.mo 33 5 = p := by simp only [Raw.mf, Raw.mo, offF, fld, Machine.shr, wrap, hmd, pv, hvv, eo, Nat.reduceSub]; try omega
    have e : readRaw h r = some (.sel3 h (r.mo 33 5) r.d r.a r.b r.c) := by subst hr; rfl
    rw [e]
    simp only [readAcc, readM, Raw.mb, f0, bt_one, Int.toNat_natCast, Option.getD_some, decide_true, decide_false, if_true, if_false, reduceCtorEq, Int.reduceNeg, Int.reduceEq]
    try (subst hr; simp only [Machine.mk])
  · simp only [Machine.mk, accM, mp, eo, pv, hvv, Nat.reduceSub, inRange, Bool.and_eq_true, decide_eq_true_eq]; try omega
theorem pset (h : Hdr) (d : Nat) (v : Int) : Statement (.pset h d v) := by
  refine mkS rfl rfl (e3 := ⟨rfl, rfl, rfl, rfl, rfl⟩) fun hs hv hk hr0 => ?_
  refine ⟨?_, ?_, by simp [mk]⟩
  · rfl
  · rfl
theorem psetTrit (h : Hdr) (d a t : Nat) : Statement (.psetTrit h d a t) := by
  refine mkS rfl rfl (e3 := ⟨rfl, rfl, rfl, rfl, rfl⟩) fun hs hv hk hr0 => ?_
  have hp : t ≤ 26 := of_decide_eq_true hv
  refine ⟨?_, ?_, by simp [mk]⟩
  · generalize hr : Machine.mk h 84 d a fz fz (mp 38 1 + mp 33 (eo t 5)) (0) = r
    have hmd : r.md = 177147 + ((t : Int) - 121) * 729 := by rw [← hr]; simp only [Machine.mk, accM, mp, eo, pv, hvv, Nat.reduceSub]; try omega
    have f0 : r.mf 38 1 = 1 := by simp only [Raw.mf, Raw.mo, offF, fld, Machine.shr, wrap, hmd, pv, hvv, eo, Nat.reduceSub]; try omega
    have f1 : r.mo 33 5 = t := by simp only [Raw.mf, Raw.mo, offF, fld, Machine.shr, wrap, hmd, pv, hvv, eo, Nat.reduceSub]; try omega
    have e : readRaw h r = some (if r.mb 38 then .psetTrit h r.d r.a (r.mo 33 5) else .pset h r.d r.imm) := by subst hr; rfl
    rw [e]
    simp only [readAcc, readM, Raw.mb, f0, f1, bt_one, Int.toNat_natCast, Option.getD_some, decide_true, decide_false, if_true, if_false, reduceCtorEq, Int.reduceNeg, Int.reduceEq]
    try (subst hr; simp only [Machine.mk])
  · simp only [Machine.mk, accM, mp, eo, pv, hvv, Nat.reduceSub, inRange, Bool.and_eq_true, decide_eq_true_eq]; try omega
theorem pmov (h : Hdr) (d a : Nat) : Statement (.pmov h d a) := by
  refine mkS rfl rfl (e3 := ⟨rfl, rfl, rfl, rfl, rfl⟩) fun hs hv hk hr0 => ?_
  refine ⟨?_, ?_, by simp [mk]⟩
  · rfl
  · rfl
theorem pmovTw (h : Hdr) (d a : Nat) : Statement (.pmovTw h d a) := by
  refine mkS rfl rfl (e3 := ⟨rfl, rfl, rfl, rfl, rfl⟩) fun hs hv hk hr0 => ?_
  refine ⟨?_, ?_, by simp [mk]⟩
  · rfl
  · rfl
theorem pmovFw (h : Hdr) (d a : Nat) : Statement (.pmovFw h d a) := by
  refine mkS rfl rfl (e3 := ⟨rfl, rfl, rfl, rfl, rfl⟩) fun hs hv hk hr0 => ?_
  refine ⟨?_, ?_, by simp [mk]⟩
  · rfl
  · rfl
theorem pand (h : Hdr) (d a b : Nat) : Statement (.pand h d a b) := by
  refine mkS rfl rfl (e3 := ⟨rfl, rfl, rfl, rfl, rfl⟩) fun hs hv hk hr0 => ?_
  refine ⟨?_, ?_, by simp [mk]⟩
  · rfl
  · rfl
theorem por (h : Hdr) (d a b : Nat) : Statement (.por h d a b) := by
  refine mkS rfl rfl (e3 := ⟨rfl, rfl, rfl, rfl, rfl⟩) fun hs hv hk hr0 => ?_
  refine ⟨?_, ?_, by simp [mk]⟩
  · rfl
  · rfl
theorem pnot (h : Hdr) (d a : Nat) : Statement (.pnot h d a) := by
  refine mkS rfl rfl (e3 := ⟨rfl, rfl, rfl, rfl, rfl⟩) fun hs hv hk hr0 => ?_
  refine ⟨?_, ?_, by simp [mk]⟩
  · rfl
  · rfl
theorem cvt (h : Hdr) (t3 sat : Bool) (ty : IntTy) (d a : Nat) : Statement (.cvt h t3 sat ty d a) := by
  refine mkS rfl rfl (e3 := ⟨rfl, rfl, rfl, rfl, rfl⟩) fun hs hv hk hr0 => ?_
  refine ⟨?_, ?_, by simp [mk]⟩
  · cases t3 <;> cases sat <;> cases ty <;> rfl
  · cases t3 <;> cases sat <;> cases ty <;> rfl
theorem cvtf (h : Hdr) (sat : Bool) (ty dty : CvtTy) (d a : Nat) : Statement (.cvtf h sat ty dty d a) := by
  refine mkS rfl rfl (e3 := ⟨rfl, rfl, rfl, rfl, rfl⟩) fun hs hv hk hr0 => ?_
  refine ⟨?_, ?_, by simp [mk]⟩
  · cases sat <;> cases ty <;> cases dty <;> rfl
  · cases sat <;> cases ty <;> cases dty <;> rfl
theorem rng (h : Hdr) (d a b : Nat) : Statement (.rng h d a b) := by
  refine mkS rfl rfl (e3 := ⟨rfl, rfl, rfl, rfl, rfl⟩) fun hs hv hk hr0 => ?_
  refine ⟨?_, ?_, by simp [mk]⟩
  · rfl
  · rfl
theorem fadd (h : Hdr) (f : FFmt) (d a b : Nat) : Statement (.fadd h f d a b) := by
  refine mkS rfl rfl (e3 := ⟨rfl, rfl, rfl, rfl, rfl⟩) fun hs hv hk hr0 => ?_
  refine ⟨?_, ?_, by simp [mk]⟩
  · cases f <;> rfl
  · cases f <;> rfl
theorem fsub (h : Hdr) (f : FFmt) (d a b : Nat) : Statement (.fsub h f d a b) := by
  refine mkS rfl rfl (e3 := ⟨rfl, rfl, rfl, rfl, rfl⟩) fun hs hv hk hr0 => ?_
  refine ⟨?_, ?_, by simp [mk]⟩
  · cases f <;> rfl
  · cases f <;> rfl
theorem fmul (h : Hdr) (f : FFmt) (d a b : Nat) : Statement (.fmul h f d a b) := by
  refine mkS rfl rfl (e3 := ⟨rfl, rfl, rfl, rfl, rfl⟩) fun hs hv hk hr0 => ?_
  refine ⟨?_, ?_, by simp [mk]⟩
  · cases f <;> rfl
  · cases f <;> rfl
theorem ffma (h : Hdr) (f : FFmt) (d a b c : Nat) : Statement (.ffma h f d a b c) := by
  refine mkS rfl rfl (e3 := ⟨rfl, rfl, rfl, rfl, rfl⟩) fun hs hv hk hr0 => ?_
  refine ⟨?_, ?_, by simp [mk]⟩
  · cases f <;> rfl
  · cases f <;> rfl
theorem fmin (h : Hdr) (f : FFmt) (d a b : Nat) : Statement (.fmin h f d a b) := by
  refine mkS rfl rfl (e3 := ⟨rfl, rfl, rfl, rfl, rfl⟩) fun hs hv hk hr0 => ?_
  refine ⟨?_, ?_, by simp [mk]⟩
  · cases f <;> rfl
  · cases f <;> rfl
theorem fmax (h : Hdr) (f : FFmt) (d a b : Nat) : Statement (.fmax h f d a b) := by
  refine mkS rfl rfl (e3 := ⟨rfl, rfl, rfl, rfl, rfl⟩) fun hs hv hk hr0 => ?_
  refine ⟨?_, ?_, by simp [mk]⟩
  · cases f <;> rfl
  · cases f <;> rfl
theorem fneg (h : Hdr) (f : FFmt) (d a : Nat) : Statement (.fneg h f d a) := by
  refine mkS rfl rfl (e3 := ⟨rfl, rfl, rfl, rfl, rfl⟩) fun hs hv hk hr0 => ?_
  refine ⟨?_, ?_, by simp [mk]⟩
  · cases f <;> rfl
  · cases f <;> rfl
theorem fabs (h : Hdr) (f : FFmt) (d a : Nat) : Statement (.fabs h f d a) := by
  refine mkS rfl rfl (e3 := ⟨rfl, rfl, rfl, rfl, rfl⟩) fun hs hv hk hr0 => ?_
  refine ⟨?_, ?_, by simp [mk]⟩
  · cases f <;> rfl
  · cases f <;> rfl
theorem fscl (h : Hdr) (f : FFmt) (d a b : Nat) (imm : Int) : Statement (.fscl h f d a b imm) := by
  refine mkS rfl rfl (e3 := ⟨rfl, rfl, rfl, rfl, rfl⟩) fun hs hv hk hr0 => ?_
  refine ⟨?_, ?_, by simp [mk]⟩
  · cases f <;> rfl
  · cases f <;> rfl
theorem fcmp (h : Hdr) (f : FFmt) (d a b : Nat) : Statement (.fcmp h f d a b) := by
  refine mkS rfl rfl (e3 := ⟨rfl, rfl, rfl, rfl, rfl⟩) fun hs hv hk hr0 => ?_
  refine ⟨?_, ?_, by simp [mk]⟩
  · cases f <;> rfl
  · cases f <;> rfl
theorem fclass (h : Hdr) (f : FFmt) (d a : Nat) : Statement (.fclass h f d a) := by
  refine mkS rfl rfl (e3 := ⟨rfl, rfl, rfl, rfl, rfl⟩) fun hs hv hk hr0 => ?_
  refine ⟨?_, ?_, by simp [mk]⟩
  · cases f <;> rfl
  · cases f <;> rfl
theorem frnd (h : Hdr) (f : FFmt) (d a : Nat) (imm : Int) : Statement (.frnd h f d a imm) := by
  refine mkS rfl rfl (e3 := ⟨rfl, rfl, rfl, rfl, rfl⟩) fun hs hv hk hr0 => ?_
  refine ⟨?_, ?_, by simp [mk]⟩
  · cases f <;> rfl
  · cases f <;> rfl
theorem fcvtF9 (h : Hdr) (d a : Nat) : Statement (.fcvtF9 h d a) := by
  refine mkS rfl rfl (e3 := ⟨rfl, rfl, rfl, rfl, rfl⟩) fun hs hv hk hr0 => ?_
  refine ⟨?_, ?_, by simp [mk]⟩
  · rfl
  · rfl
theorem fcvtF27 (h : Hdr) (d a : Nat) : Statement (.fcvtF27 h d a) := by
  refine mkS rfl rfl (e3 := ⟨rfl, rfl, rfl, rfl, rfl⟩) fun hs hv hk hr0 => ?_
  refine ⟨?_, ?_, by simp [mk]⟩
  · rfl
  · rfl
theorem fdiv (h : Hdr) (f : FFmt) (d a b : Nat) : Statement (.fdiv h f d a b) := by
  refine mkS rfl rfl (e3 := ⟨rfl, rfl, rfl, rfl, rfl⟩) fun hs hv hk hr0 => ?_
  refine ⟨?_, ?_, by simp [mk]⟩
  · cases f <;> rfl
  · cases f <;> rfl
theorem fsqrt (h : Hdr) (f : FFmt) (d a : Nat) : Statement (.fsqrt h f d a) := by
  refine mkS rfl rfl (e3 := ⟨rfl, rfl, rfl, rfl, rfl⟩) fun hs hv hk hr0 => ?_
  refine ⟨?_, ?_, by simp [mk]⟩
  · cases f <;> rfl
  · cases f <;> rfl
theorem frcp (h : Hdr) (f : FFmt) (d a : Nat) : Statement (.frcp h f d a) := by
  refine mkS rfl rfl (e3 := ⟨rfl, rfl, rfl, rfl, rfl⟩) fun hs hv hk hr0 => ?_
  refine ⟨?_, ?_, by simp [mk]⟩
  · cases f <;> rfl
  · cases f <;> rfl
theorem frsq (h : Hdr) (f : FFmt) (d a : Nat) : Statement (.frsq h f d a) := by
  refine mkS rfl rfl (e3 := ⟨rfl, rfl, rfl, rfl, rfl⟩) fun hs hv hk hr0 => ?_
  refine ⟨?_, ?_, by simp [mk]⟩
  · cases f <;> rfl
  · cases f <;> rfl
theorem fexp (h : Hdr) (f : FFmt) (d a : Nat) : Statement (.fexp h f d a) := by
  refine mkS rfl rfl (e3 := ⟨rfl, rfl, rfl, rfl, rfl⟩) fun hs hv hk hr0 => ?_
  refine ⟨?_, ?_, by simp [mk]⟩
  · cases f <;> rfl
  · cases f <;> rfl
theorem fexp3 (h : Hdr) (f : FFmt) (d a : Nat) : Statement (.fexp3 h f d a) := by
  refine mkS rfl rfl (e3 := ⟨rfl, rfl, rfl, rfl, rfl⟩) fun hs hv hk hr0 => ?_
  refine ⟨?_, ?_, by simp [mk]⟩
  · cases f <;> rfl
  · cases f <;> rfl
theorem flog (h : Hdr) (f : FFmt) (d a : Nat) : Statement (.flog h f d a) := by
  refine mkS rfl rfl (e3 := ⟨rfl, rfl, rfl, rfl, rfl⟩) fun hs hv hk hr0 => ?_
  refine ⟨?_, ?_, by simp [mk]⟩
  · cases f <;> rfl
  · cases f <;> rfl
theorem flog3 (h : Hdr) (f : FFmt) (d a : Nat) : Statement (.flog3 h f d a) := by
  refine mkS rfl rfl (e3 := ⟨rfl, rfl, rfl, rfl, rfl⟩) fun hs hv hk hr0 => ?_
  refine ⟨?_, ?_, by simp [mk]⟩
  · cases f <;> rfl
  · cases f <;> rfl
theorem fsin (h : Hdr) (f : FFmt) (d a : Nat) : Statement (.fsin h f d a) := by
  refine mkS rfl rfl (e3 := ⟨rfl, rfl, rfl, rfl, rfl⟩) fun hs hv hk hr0 => ?_
  refine ⟨?_, ?_, by simp [mk]⟩
  · cases f <;> rfl
  · cases f <;> rfl
theorem fcos (h : Hdr) (f : FFmt) (d a : Nat) : Statement (.fcos h f d a) := by
  refine mkS rfl rfl (e3 := ⟨rfl, rfl, rfl, rfl, rfl⟩) fun hs hv hk hr0 => ?_
  refine ⟨?_, ?_, by simp [mk]⟩
  · cases f <;> rfl
  · cases f <;> rfl
theorem ftanh (h : Hdr) (f : FFmt) (d a : Nat) : Statement (.ftanh h f d a) := by
  refine mkS rfl rfl (e3 := ⟨rfl, rfl, rfl, rfl, rfl⟩) fun hs hv hk hr0 => ?_
  refine ⟨?_, ?_, by simp [mk]⟩
  · cases f <;> rfl
  · cases f <;> rfl
theorem fsigm (h : Hdr) (f : FFmt) (d a : Nat) : Statement (.fsigm h f d a) := by
  refine mkS rfl rfl (e3 := ⟨rfl, rfl, rfl, rfl, rfl⟩) fun hs hv hk hr0 => ?_
  refine ⟨?_, ?_, by simp [mk]⟩
  · cases f <;> rfl
  · cases f <;> rfl
theorem ferf (h : Hdr) (f : FFmt) (d a : Nat) : Statement (.ferf h f d a) := by
  refine mkS rfl rfl (e3 := ⟨rfl, rfl, rfl, rfl, rfl⟩) fun hs hv hk hr0 => ?_
  refine ⟨?_, ?_, by simp [mk]⟩
  · cases f <;> rfl
  · cases f <;> rfl
theorem functionResultWrite (w : Nat) : Statement (.functionResultWrite w) := fun _ h r _ hr => nomatch (show (none : Option Raw) = some r from hr)
theorem ld (h : Hdr) (sz : Sz) (o : Acc) (lease : Lease) (d : Nat) (m : MOp) : Statement (.ld h sz o lease d m) := by
  refine mkS rfl rfl (e3 := ⟨rfl, rfl, rfl, rfl, rfl⟩) fun hs hv hk hr0 => ?_
  obtain ⟨b1, b2, b3⟩ := Sz.cd sz
  obtain ⟨c1, c2, c3⟩ := Ord.cd o.ord
  obtain ⟨u1, u2, u3⟩ := Scope.cd o.scope
  obtain ⟨e1, e2, e3⟩ := Lease.cd lease
  have hk3 : m.k ≤ 3 := of_decide_eq_true hk
  refine ⟨?_, ?_, by simp [mk]⟩
  · generalize hr : Machine.mk h 216 d m.a m.b fz (accM sz o + mp 27 (m.k : Int) + mp 32 lease.code) (m.disp) = r
    have hmd : r.md = sz.code * 531441 + o.ord.code * 59049 + o.scope.code * 2187 + m.k + lease.code * 243 := by rw [← hr]; simp only [Machine.mk, accM, mp, eo, pv, hvv, Nat.reduceSub]; try omega
    have f0 : r.mf 39 1 = sz.code := by simp only [Raw.mf, Raw.mo, offF, fld, Machine.shr, wrap, hmd, pv, hvv, eo, Nat.reduceSub]; try omega
    have f1 : r.mf 37 2 = o.ord.code := by simp only [Raw.mf, Raw.mo, offF, fld, Machine.shr, wrap, hmd, pv, hvv, eo, Nat.reduceSub]; try omega
    have f2 : r.mf 34 3 = o.scope.code := by simp only [Raw.mf, Raw.mo, offF, fld, Machine.shr, wrap, hmd, pv, hvv, eo, Nat.reduceSub]; try omega
    have f3 : r.mf 32 2 = lease.code := by simp only [Raw.mf, Raw.mo, offF, fld, Machine.shr, wrap, hmd, pv, hvv, eo, Nat.reduceSub]; try omega
    have f4 : r.mf 27 2 = (m.k : Int) := by simp only [Raw.mf, Raw.mo, offF, fld, Machine.shr, wrap, hmd, pv, hvv, eo, Nat.reduceSub]; try omega
    have e : readRaw h r = some (.ld h (Sz.ofCode (r.mf 39 1)) (readAcc r) (Lease.ofCode (r.mf 32 2)) r.d (readM r)) := by subst hr; rfl
    rw [e]
    simp only [readAcc, readM, Raw.mb, f0, f1, f2, f3, f4, b3, c3, u3, e3, bt_one, Int.toNat_natCast, Option.getD_some, decide_true, decide_false, if_true, if_false, reduceCtorEq, Int.reduceNeg, Int.reduceEq]
    try (subst hr; simp only [Machine.mk])
  · simp only [Machine.mk, accM, mp, eo, pv, hvv, Nat.reduceSub, inRange, Bool.and_eq_true, decide_eq_true_eq]; try omega
theorem st (h : Hdr) (sz : Sz) (o : Acc) (d : Nat) (m : MOp) : Statement (.st h sz o d m) := by
  refine mkS rfl rfl (e3 := ⟨rfl, rfl, rfl, rfl, rfl⟩) fun hs hv hk hr0 => ?_
  obtain ⟨b1, b2, b3⟩ := Sz.cd sz
  obtain ⟨c1, c2, c3⟩ := Ord.cd o.ord
  obtain ⟨u1, u2, u3⟩ := Scope.cd o.scope
  have hk3 : m.k ≤ 3 := of_decide_eq_true hk
  refine ⟨?_, ?_, by simp [mk]⟩
  · generalize hr : Machine.mk h 217 d m.a m.b fz (accM sz o + mp 27 (m.k : Int)) (m.disp) = r
    have hmd : r.md = sz.code * 531441 + o.ord.code * 59049 + o.scope.code * 2187 + m.k := by rw [← hr]; simp only [Machine.mk, accM, mp, eo, pv, hvv, Nat.reduceSub]; try omega
    have f0 : r.mf 39 1 = sz.code := by simp only [Raw.mf, Raw.mo, offF, fld, Machine.shr, wrap, hmd, pv, hvv, eo, Nat.reduceSub]; try omega
    have f1 : r.mf 37 2 = o.ord.code := by simp only [Raw.mf, Raw.mo, offF, fld, Machine.shr, wrap, hmd, pv, hvv, eo, Nat.reduceSub]; try omega
    have f2 : r.mf 34 3 = o.scope.code := by simp only [Raw.mf, Raw.mo, offF, fld, Machine.shr, wrap, hmd, pv, hvv, eo, Nat.reduceSub]; try omega
    have f3 : r.mf 27 2 = (m.k : Int) := by simp only [Raw.mf, Raw.mo, offF, fld, Machine.shr, wrap, hmd, pv, hvv, eo, Nat.reduceSub]; try omega
    have e : readRaw h r = some (.st h (Sz.ofCode (r.mf 39 1)) (readAcc r) r.d (readM r)) := by subst hr; rfl
    rw [e]
    simp only [readAcc, readM, Raw.mb, f0, f1, f2, f3, b3, c3, u3, bt_one, Int.toNat_natCast, Option.getD_some, decide_true, decide_false, if_true, if_false, reduceCtorEq, Int.reduceNeg, Int.reduceEq]
    try (subst hr; simp only [Machine.mk])
  · simp only [Machine.mk, accM, mp, eo, pv, hvv, Nat.reduceSub, inRange, Bool.and_eq_true, decide_eq_true_eq]; try omega
theorem ldb (h : Hdr) (bt : BType) (tt : TType) (sat : Bool) (o : Acc) (d : Nat) (m : MOp) : Statement (.ldb h bt tt sat o d m) := by
  refine mkS rfl rfl (e3 := ⟨rfl, rfl, rfl, rfl, rfl⟩) fun hs hv hk hr0 => ?_
  obtain ⟨b1, b2, b3⟩ := BType.cd bt
  obtain ⟨e1, e2, e3⟩ := TType.cd tt
  obtain ⟨c1, c2, c3⟩ := Ord.cd o.ord
  obtain ⟨u1, u2, u3⟩ := Scope.cd o.scope
  have hk3 : m.k ≤ 3 := of_decide_eq_true hk
  have hs01 := bt_cd sat
  refine ⟨?_, ?_, by simp [mk]⟩
  · generalize hr : Machine.mk h 218 d m.a m.b fz (mp 37 (bt.code : Int) + mp 35 (tt.code : Int) + mp 34 (Machine.bt sat) + mp 32 o.ord.code + mp 29 o.scope.code + mp 27 (m.k : Int)) (m.disp) = r
    have hmd : r.md = bt.code * 59049 + tt.code * 6561 + Machine.bt sat * 2187 + o.ord.code * 243 + o.scope.code * 9 + m.k := by rw [← hr]; simp only [Machine.mk, accM, mp, eo, pv, hvv, Nat.reduceSub]; try omega
    have f0 : r.mf 37 3 = (bt.code : Int) := by simp only [Raw.mf, Raw.mo, offF, fld, Machine.shr, wrap, hmd, pv, hvv, eo, Nat.reduceSub]; try omega
    have f1 : r.mf 35 2 = (tt.code : Int) := by simp only [Raw.mf, Raw.mo, offF, fld, Machine.shr, wrap, hmd, pv, hvv, eo, Nat.reduceSub]; try omega
    have f2 : r.mf 34 1 = Machine.bt sat := by simp only [Raw.mf, Raw.mo, offF, fld, Machine.shr, wrap, hmd, pv, hvv, eo, Nat.reduceSub]; try omega
    have f3 : r.mf 32 2 = o.ord.code := by simp only [Raw.mf, Raw.mo, offF, fld, Machine.shr, wrap, hmd, pv, hvv, eo, Nat.reduceSub]; try omega
    have f4 : r.mf 29 3 = o.scope.code := by simp only [Raw.mf, Raw.mo, offF, fld, Machine.shr, wrap, hmd, pv, hvv, eo, Nat.reduceSub]; try omega
    have f5 : r.mf 27 2 = (m.k : Int) := by simp only [Raw.mf, Raw.mo, offF, fld, Machine.shr, wrap, hmd, pv, hvv, eo, Nat.reduceSub]; try omega
    have e : readRaw h r = some (.ldb h ((BType.ofCode (r.mf 37 3)).getD .i8) ((TType.ofCode (r.mf 35 2)).getD .t27) (r.mb 34) { ord := Ord.ofCode (r.mf 32 2), scope := Scope.ofCode (r.mf 29 3) } r.d (readM r)) := by subst hr; rfl
    rw [e]
    simp only [readAcc, readM, Raw.mb, f0, f1, f2, f3, f4, f5, b3, c3, u3, e3, bt_one, Int.toNat_natCast, Option.getD_some, decide_true, decide_false, if_true, if_false, reduceCtorEq, Int.reduceNeg, Int.reduceEq]
    try (subst hr; simp only [Machine.mk])
  · simp only [Machine.mk, accM, mp, eo, pv, hvv, Nat.reduceSub, inRange, Bool.and_eq_true, decide_eq_true_eq]; try omega
theorem stb (h : Hdr) (bt : BType) (tt : TType) (sat : Bool) (o : Acc) (d : Nat) (m : MOp) : Statement (.stb h bt tt sat o d m) := by
  refine mkS rfl rfl (e3 := ⟨rfl, rfl, rfl, rfl, rfl⟩) fun hs hv hk hr0 => ?_
  obtain ⟨b1, b2, b3⟩ := BType.cd bt
  obtain ⟨e1, e2, e3⟩ := TType.cd tt
  obtain ⟨c1, c2, c3⟩ := Ord.cd o.ord
  obtain ⟨u1, u2, u3⟩ := Scope.cd o.scope
  have hk3 : m.k ≤ 3 := of_decide_eq_true hk
  have hs01 := bt_cd sat
  refine ⟨?_, ?_, by simp [mk]⟩
  · generalize hr : Machine.mk h 219 d m.a m.b fz (mp 37 (bt.code : Int) + mp 35 (tt.code : Int) + mp 34 (Machine.bt sat) + mp 32 o.ord.code + mp 29 o.scope.code + mp 27 (m.k : Int)) (m.disp) = r
    have hmd : r.md = bt.code * 59049 + tt.code * 6561 + Machine.bt sat * 2187 + o.ord.code * 243 + o.scope.code * 9 + m.k := by rw [← hr]; simp only [Machine.mk, accM, mp, eo, pv, hvv, Nat.reduceSub]; try omega
    have f0 : r.mf 37 3 = (bt.code : Int) := by simp only [Raw.mf, Raw.mo, offF, fld, Machine.shr, wrap, hmd, pv, hvv, eo, Nat.reduceSub]; try omega
    have f1 : r.mf 35 2 = (tt.code : Int) := by simp only [Raw.mf, Raw.mo, offF, fld, Machine.shr, wrap, hmd, pv, hvv, eo, Nat.reduceSub]; try omega
    have f2 : r.mf 34 1 = Machine.bt sat := by simp only [Raw.mf, Raw.mo, offF, fld, Machine.shr, wrap, hmd, pv, hvv, eo, Nat.reduceSub]; try omega
    have f3 : r.mf 32 2 = o.ord.code := by simp only [Raw.mf, Raw.mo, offF, fld, Machine.shr, wrap, hmd, pv, hvv, eo, Nat.reduceSub]; try omega
    have f4 : r.mf 29 3 = o.scope.code := by simp only [Raw.mf, Raw.mo, offF, fld, Machine.shr, wrap, hmd, pv, hvv, eo, Nat.reduceSub]; try omega
    have f5 : r.mf 27 2 = (m.k : Int) := by simp only [Raw.mf, Raw.mo, offF, fld, Machine.shr, wrap, hmd, pv, hvv, eo, Nat.reduceSub]; try omega
    have e : readRaw h r = some (.stb h ((BType.ofCode (r.mf 37 3)).getD .i8) ((TType.ofCode (r.mf 35 2)).getD .t27) (r.mb 34) { ord := Ord.ofCode (r.mf 32 2), scope := Scope.ofCode (r.mf 29 3) } r.d (readM r)) := by subst hr; rfl
    rw [e]
    simp only [readAcc, readM, Raw.mb, f0, f1, f2, f3, f4, f5, b3, c3, u3, e3, bt_one, Int.toNat_natCast, Option.getD_some, decide_true, decide_false, if_true, if_false, reduceCtorEq, Int.reduceNeg, Int.reduceEq]
    try (subst hr; simp only [Machine.mk])
  · simp only [Machine.mk, accM, mp, eo, pv, hvv, Nat.reduceSub, inRange, Bool.and_eq_true, decide_eq_true_eq]; try omega
theorem ldnb (h : Hdr) (sz : Sz) (o : Acc) (lease : Lease) (d : Nat) (m : MOp) (c : Nat) : Statement (.ldnb h sz o lease d m c) := by
  refine mkS rfl rfl (e3 := ⟨rfl, rfl, rfl, rfl, rfl⟩) fun hs hv hk hr0 => ?_
  obtain ⟨b1, b2, b3⟩ := Sz.cd sz
  obtain ⟨c1, c2, c3⟩ := Ord.cd o.ord
  obtain ⟨u1, u2, u3⟩ := Scope.cd o.scope
  obtain ⟨e1, e2, e3⟩ := Lease.cd lease
  have hk3 : m.k ≤ 3 := of_decide_eq_true hk
  refine ⟨?_, ?_, by simp [mk]⟩
  · generalize hr : Machine.mk h 220 d m.a m.b c (accM sz o + mp 27 (m.k : Int) + mp 32 lease.code) (m.disp) = r
    have hmd : r.md = sz.code * 531441 + o.ord.code * 59049 + o.scope.code * 2187 + m.k + lease.code * 243 := by rw [← hr]; simp only [Machine.mk, accM, mp, eo, pv, hvv, Nat.reduceSub]; try omega
    have f0 : r.mf 39 1 = sz.code := by simp only [Raw.mf, Raw.mo, offF, fld, Machine.shr, wrap, hmd, pv, hvv, eo, Nat.reduceSub]; try omega
    have f1 : r.mf 37 2 = o.ord.code := by simp only [Raw.mf, Raw.mo, offF, fld, Machine.shr, wrap, hmd, pv, hvv, eo, Nat.reduceSub]; try omega
    have f2 : r.mf 34 3 = o.scope.code := by simp only [Raw.mf, Raw.mo, offF, fld, Machine.shr, wrap, hmd, pv, hvv, eo, Nat.reduceSub]; try omega
    have f3 : r.mf 32 2 = lease.code := by simp only [Raw.mf, Raw.mo, offF, fld, Machine.shr, wrap, hmd, pv, hvv, eo, Nat.reduceSub]; try omega
    have f4 : r.mf 27 2 = (m.k : Int) := by simp only [Raw.mf, Raw.mo, offF, fld, Machine.shr, wrap, hmd, pv, hvv, eo, Nat.reduceSub]; try omega
    have e : readRaw h r = some (.ldnb h (Sz.ofCode (r.mf 39 1)) (readAcc r) (Lease.ofCode (r.mf 32 2)) r.d (readM r) r.c) := by subst hr; rfl
    rw [e]
    simp only [readAcc, readM, Raw.mb, f0, f1, f2, f3, f4, b3, c3, u3, e3, bt_one, Int.toNat_natCast, Option.getD_some, decide_true, decide_false, if_true, if_false, reduceCtorEq, Int.reduceNeg, Int.reduceEq]
    try (subst hr; simp only [Machine.mk])
  · simp only [Machine.mk, accM, mp, eo, pv, hvv, Nat.reduceSub, inRange, Bool.and_eq_true, decide_eq_true_eq]; try omega
theorem stva (h : Hdr) (sz : Sz) (o : Acc) (d : Nat) (m : MOp) (c : Nat) : Statement (.stva h sz o d m c) := by
  refine mkS rfl rfl (e3 := ⟨rfl, rfl, rfl, rfl, rfl⟩) fun hs hv hk hr0 => ?_
  obtain ⟨b1, b2, b3⟩ := Sz.cd sz
  obtain ⟨c1, c2, c3⟩ := Ord.cd o.ord
  obtain ⟨u1, u2, u3⟩ := Scope.cd o.scope
  have hk3 : m.k ≤ 3 := of_decide_eq_true hk
  refine ⟨?_, ?_, by simp [mk]⟩
  · generalize hr : Machine.mk h 221 d m.a m.b c (accM sz o + mp 27 (m.k : Int)) (m.disp) = r
    have hmd : r.md = sz.code * 531441 + o.ord.code * 59049 + o.scope.code * 2187 + m.k := by rw [← hr]; simp only [Machine.mk, accM, mp, eo, pv, hvv, Nat.reduceSub]; try omega
    have f0 : r.mf 39 1 = sz.code := by simp only [Raw.mf, Raw.mo, offF, fld, Machine.shr, wrap, hmd, pv, hvv, eo, Nat.reduceSub]; try omega
    have f1 : r.mf 37 2 = o.ord.code := by simp only [Raw.mf, Raw.mo, offF, fld, Machine.shr, wrap, hmd, pv, hvv, eo, Nat.reduceSub]; try omega
    have f2 : r.mf 34 3 = o.scope.code := by simp only [Raw.mf, Raw.mo, offF, fld, Machine.shr, wrap, hmd, pv, hvv, eo, Nat.reduceSub]; try omega
    have f3 : r.mf 27 2 = (m.k : Int) := by simp only [Raw.mf, Raw.mo, offF, fld, Machine.shr, wrap, hmd, pv, hvv, eo, Nat.reduceSub]; try omega
    have e : readRaw h r = some (.stva h (Sz.ofCode (r.mf 39 1)) (readAcc r) r.d (readM r) r.c) := by subst hr; rfl
    rw [e]
    simp only [readAcc, readM, Raw.mb, f0, f1, f2, f3, b3, c3, u3, bt_one, Int.toNat_natCast, Option.getD_some, decide_true, decide_false, if_true, if_false, reduceCtorEq, Int.reduceNeg, Int.reduceEq]
    try (subst hr; simp only [Machine.mk])
  · simp only [Machine.mk, accM, mp, eo, pv, hvv, Nat.reduceSub, inRange, Bool.and_eq_true, decide_eq_true_eq]; try omega
theorem pref (h : Hdr) (lease : Lease) (m : MOp) : Statement (.pref h lease m) := by
  refine mkS rfl rfl (e3 := ⟨rfl, rfl, rfl, rfl, rfl⟩) fun hs hv hk hr0 => ?_
  obtain ⟨e1, e2, e3⟩ := Lease.cd lease
  have hk3 : m.k ≤ 3 := of_decide_eq_true hk
  refine ⟨?_, ?_, by simp [mk]⟩
  · generalize hr : Machine.mk h 243 fz m.a m.b fz (mp 32 lease.code + mp 27 (m.k : Int)) (m.disp) = r
    have hmd : r.md = lease.code * 243 + m.k := by rw [← hr]; simp only [Machine.mk, accM, mp, eo, pv, hvv, Nat.reduceSub]; try omega
    have f0 : r.mf 32 2 = lease.code := by simp only [Raw.mf, Raw.mo, offF, fld, Machine.shr, wrap, hmd, pv, hvv, eo, Nat.reduceSub]; try omega
    have f1 : r.mf 27 2 = (m.k : Int) := by simp only [Raw.mf, Raw.mo, offF, fld, Machine.shr, wrap, hmd, pv, hvv, eo, Nat.reduceSub]; try omega
    have e : readRaw h r = some (.pref h (Lease.ofCode (r.mf 32 2)) (readM r)) := by subst hr; rfl
    rw [e]
    simp only [readAcc, readM, Raw.mb, f0, f1, e3, bt_one, Int.toNat_natCast, Option.getD_some, decide_true, decide_false, if_true, if_false, reduceCtorEq, Int.reduceNeg, Int.reduceEq]
    try (subst hr; simp only [Machine.mk])
  · simp only [Machine.mk, accM, mp, eo, pv, hvv, Nat.reduceSub, inRange, Bool.and_eq_true, decide_eq_true_eq]; try omega
theorem wb (h : Hdr) (m : MOp) : Statement (.wb h m) := by
  refine mkS rfl rfl (e3 := ⟨rfl, rfl, rfl, rfl, rfl⟩) fun hs hv hk hr0 => ?_
  have hk3 : m.k ≤ 3 := of_decide_eq_true hk
  refine ⟨?_, ?_, by simp [mk]⟩
  · generalize hr : Machine.mk h 244 fz m.a m.b fz (mp 27 (m.k : Int)) (m.disp) = r
    have hmd : r.md = (m.k : Int) := by rw [← hr]; simp only [Machine.mk, accM, mp, eo, pv, hvv, Nat.reduceSub]; try omega
    have f0 : r.mf 39 1 = 0 := by simp only [Raw.mf, Raw.mo, offF, fld, Machine.shr, wrap, hmd, pv, hvv, eo, Nat.reduceSub]; try omega
    have f1 : r.mf 27 2 = (m.k : Int) := by simp only [Raw.mf, Raw.mo, offF, fld, Machine.shr, wrap, hmd, pv, hvv, eo, Nat.reduceSub]; try omega
    have e : readRaw h r = some (if r.mb 39 then .wbAll h else .wb h (readM r)) := by subst hr; rfl
    rw [e]
    simp only [readAcc, readM, Raw.mb, f0, f1, bt_one, Int.toNat_natCast, Option.getD_some, decide_true, decide_false, if_true, if_false, reduceCtorEq, Int.reduceNeg, Int.reduceEq]
    try (subst hr; simp only [Machine.mk])
  · simp only [Machine.mk, accM, mp, eo, pv, hvv, Nat.reduceSub, inRange, Bool.and_eq_true, decide_eq_true_eq]; try omega
theorem wbAll (h : Hdr) : Statement (.wbAll h) := by
  refine mkS rfl rfl (e3 := ⟨rfl, rfl, rfl, rfl, rfl⟩) fun hs hv hk hr0 => ?_
  refine ⟨?_, ?_, by simp [mk]⟩
  · rfl
  · rfl
theorem inv (h : Hdr) (m : MOp) : Statement (.inv h m) := by
  refine mkS rfl rfl (e3 := ⟨rfl, rfl, rfl, rfl, rfl⟩) fun hs hv hk hr0 => ?_
  have hk3 : m.k ≤ 3 := of_decide_eq_true hk
  refine ⟨?_, ?_, by simp [mk]⟩
  · generalize hr : Machine.mk h 245 fz m.a m.b fz (mp 27 (m.k : Int)) (m.disp) = r
    have hmd : r.md = (m.k : Int) := by rw [← hr]; simp only [Machine.mk, accM, mp, eo, pv, hvv, Nat.reduceSub]; try omega
    have f0 : r.mf 39 1 = 0 := by simp only [Raw.mf, Raw.mo, offF, fld, Machine.shr, wrap, hmd, pv, hvv, eo, Nat.reduceSub]; try omega
    have f1 : r.mf 27 2 = (m.k : Int) := by simp only [Raw.mf, Raw.mo, offF, fld, Machine.shr, wrap, hmd, pv, hvv, eo, Nat.reduceSub]; try omega
    have e : readRaw h r = some (if r.mb 39 then .invAll h else .inv h (readM r)) := by subst hr; rfl
    rw [e]
    simp only [readAcc, readM, Raw.mb, f0, f1, bt_one, Int.toNat_natCast, Option.getD_some, decide_true, decide_false, if_true, if_false, reduceCtorEq, Int.reduceNeg, Int.reduceEq]
    try (subst hr; simp only [Machine.mk])
  · simp only [Machine.mk, accM, mp, eo, pv, hvv, Nat.reduceSub, inRange, Bool.and_eq_true, decide_eq_true_eq]; try omega
theorem invAll (h : Hdr) : Statement (.invAll h) := by
  refine mkS rfl rfl (e3 := ⟨rfl, rfl, rfl, rfl, rfl⟩) fun hs hv hk hr0 => ?_
  refine ⟨?_, ?_, by simp [mk]⟩
  · rfl
  · rfl
theorem atom (h : Hdr) (op : AOp) (sz : Sz) (o : Acc) (d : Nat) (m : MOp) (c : Nat) : Statement (.atom h op sz o d m c) := by
  refine mkS rfl rfl (e3 := ⟨rfl, rfl, rfl, rfl, rfl⟩) fun hs hv hk hr0 => ?_
  obtain ⟨b1, b2, b3⟩ := Sz.cd sz
  obtain ⟨c1, c2, c3⟩ := Ord.cd o.ord
  obtain ⟨u1, u2, u3⟩ := Scope.cd o.scope
  obtain ⟨e1, e2, e3⟩ := AOp.cd op
  have hk3 : m.k ≤ 3 := of_decide_eq_true hk
  refine ⟨?_, ?_, by simp [mk]⟩
  · generalize hr : Machine.mk h 270 d m.a m.b c (accM sz o + mp 27 (m.k : Int) + mp 29 op.code) (m.disp) = r
    have hmd : r.md = sz.code * 531441 + o.ord.code * 59049 + o.scope.code * 2187 + m.k + op.code * 9 := by rw [← hr]; simp only [Machine.mk, accM, mp, eo, pv, hvv, Nat.reduceSub]; try omega
    have f0 : r.mf 39 1 = sz.code := by simp only [Raw.mf, Raw.mo, offF, fld, Machine.shr, wrap, hmd, pv, hvv, eo, Nat.reduceSub]; try omega
    have f1 : r.mf 37 2 = o.ord.code := by simp only [Raw.mf, Raw.mo, offF, fld, Machine.shr, wrap, hmd, pv, hvv, eo, Nat.reduceSub]; try omega
    have f2 : r.mf 34 3 = o.scope.code := by simp only [Raw.mf, Raw.mo, offF, fld, Machine.shr, wrap, hmd, pv, hvv, eo, Nat.reduceSub]; try omega
    have f3 : r.mf 29 3 = op.code := by simp only [Raw.mf, Raw.mo, offF, fld, Machine.shr, wrap, hmd, pv, hvv, eo, Nat.reduceSub]; try omega
    have f4 : r.mf 27 2 = (m.k : Int) := by simp only [Raw.mf, Raw.mo, offF, fld, Machine.shr, wrap, hmd, pv, hvv, eo, Nat.reduceSub]; try omega
    have e : readRaw h r = some (.atom h (AOp.ofCode (r.mf 29 3)) (Sz.ofCode (r.mf 39 1)) (readAcc r) r.d (readM r) r.c) := by subst hr; rfl
    rw [e]
    simp only [readAcc, readM, Raw.mb, f0, f1, f2, f3, f4, b3, c3, u3, e3, bt_one, Int.toNat_natCast, Option.getD_some, decide_true, decide_false, if_true, if_false, reduceCtorEq, Int.reduceNeg, Int.reduceEq]
    try (subst hr; simp only [Machine.mk])
  · simp only [Machine.mk, accM, mp, eo, pv, hvv, Nat.reduceSub, inRange, Bool.and_eq_true, decide_eq_true_eq]; try omega
theorem cas (h : Hdr) (sz : Sz) (o : Acc) (d : Nat) (m : MOp) (c : Nat) : Statement (.cas h sz o d m c) := by
  refine mkS rfl rfl (e3 := ⟨rfl, rfl, rfl, rfl, rfl⟩) fun hs hv hk hr0 => ?_
  obtain ⟨b1, b2, b3⟩ := Sz.cd sz
  obtain ⟨c1, c2, c3⟩ := Ord.cd o.ord
  obtain ⟨u1, u2, u3⟩ := Scope.cd o.scope
  have hk3 : m.k ≤ 3 := of_decide_eq_true hk
  refine ⟨?_, ?_, by simp [mk]⟩
  · generalize hr : Machine.mk h 271 d m.a m.b c (accM sz o + mp 27 (m.k : Int)) (m.disp) = r
    have hmd : r.md = sz.code * 531441 + o.ord.code * 59049 + o.scope.code * 2187 + m.k := by rw [← hr]; simp only [Machine.mk, accM, mp, eo, pv, hvv, Nat.reduceSub]; try omega
    have f0 : r.mf 39 1 = sz.code := by simp only [Raw.mf, Raw.mo, offF, fld, Machine.shr, wrap, hmd, pv, hvv, eo, Nat.reduceSub]; try omega
    have f1 : r.mf 37 2 = o.ord.code := by simp only [Raw.mf, Raw.mo, offF, fld, Machine.shr, wrap, hmd, pv, hvv, eo, Nat.reduceSub]; try omega
    have f2 : r.mf 34 3 = o.scope.code := by simp only [Raw.mf, Raw.mo, offF, fld, Machine.shr, wrap, hmd, pv, hvv, eo, Nat.reduceSub]; try omega
    have f3 : r.mf 27 2 = (m.k : Int) := by simp only [Raw.mf, Raw.mo, offF, fld, Machine.shr, wrap, hmd, pv, hvv, eo, Nat.reduceSub]; try omega
    have e : readRaw h r = some (.cas h (Sz.ofCode (r.mf 39 1)) (readAcc r) r.d (readM r) r.c) := by subst hr; rfl
    rw [e]
    simp only [readAcc, readM, Raw.mb, f0, f1, f2, f3, b3, c3, u3, bt_one, Int.toNat_natCast, Option.getD_some, decide_true, decide_false, if_true, if_false, reduceCtorEq, Int.reduceNeg, Int.reduceEq]
    try (subst hr; simp only [Machine.mk])
  · simp only [Machine.mk, accM, mp, eo, pv, hvv, Nat.reduceSub, inRange, Bool.and_eq_true, decide_eq_true_eq]; try omega
theorem red (h : Hdr) (op : AOp) (sz : Sz) (o : Acc) (m : MOp) (c : Nat) : Statement (.red h op sz o m c) := by
  refine mkS rfl rfl (e3 := ⟨rfl, rfl, rfl, rfl, rfl⟩) fun hs hv hk hr0 => ?_
  obtain ⟨b1, b2, b3⟩ := Sz.cd sz
  obtain ⟨c1, c2, c3⟩ := Ord.cd o.ord
  obtain ⟨u1, u2, u3⟩ := Scope.cd o.scope
  obtain ⟨e1, e2, e3⟩ := AOp.cd op
  have hk3 : m.k ≤ 3 := of_decide_eq_true hk
  refine ⟨?_, ?_, by simp [mk]⟩
  · generalize hr : Machine.mk h 272 fz m.a m.b c (accM sz o + mp 27 (m.k : Int) + mp 29 op.code) (m.disp) = r
    have hmd : r.md = sz.code * 531441 + o.ord.code * 59049 + o.scope.code * 2187 + m.k + op.code * 9 := by rw [← hr]; simp only [Machine.mk, accM, mp, eo, pv, hvv, Nat.reduceSub]; try omega
    have f0 : r.mf 39 1 = sz.code := by simp only [Raw.mf, Raw.mo, offF, fld, Machine.shr, wrap, hmd, pv, hvv, eo, Nat.reduceSub]; try omega
    have f1 : r.mf 37 2 = o.ord.code := by simp only [Raw.mf, Raw.mo, offF, fld, Machine.shr, wrap, hmd, pv, hvv, eo, Nat.reduceSub]; try omega
    have f2 : r.mf 34 3 = o.scope.code := by simp only [Raw.mf, Raw.mo, offF, fld, Machine.shr, wrap, hmd, pv, hvv, eo, Nat.reduceSub]; try omega
    have f3 : r.mf 29 3 = op.code := by simp only [Raw.mf, Raw.mo, offF, fld, Machine.shr, wrap, hmd, pv, hvv, eo, Nat.reduceSub]; try omega
    have f4 : r.mf 27 2 = (m.k : Int) := by simp only [Raw.mf, Raw.mo, offF, fld, Machine.shr, wrap, hmd, pv, hvv, eo, Nat.reduceSub]; try omega
    have e : readRaw h r = some (.red h (AOp.ofCode (r.mf 29 3)) (Sz.ofCode (r.mf 39 1)) (readAcc r) (readM r) r.c) := by subst hr; rfl
    rw [e]
    simp only [readAcc, readM, Raw.mb, f0, f1, f2, f3, f4, b3, c3, u3, e3, bt_one, Int.toNat_natCast, Option.getD_some, decide_true, decide_false, if_true, if_false, reduceCtorEq, Int.reduceNeg, Int.reduceEq]
    try (subst hr; simp only [Machine.mk])
  · simp only [Machine.mk, accM, mp, eo, pv, hvv, Nat.reduceSub, inRange, Bool.and_eq_true, decide_eq_true_eq]; try omega
theorem atomo (h : Hdr) (op : AOp) (sz : Sz) (o : Acc) (d a k : Nat) (disp : Int) (c : Nat) : Statement (.atomo h op sz o d a k disp c) := by
  refine mkS rfl rfl (e3 := ⟨rfl, rfl, rfl, rfl, rfl⟩) fun hs hv hk hr0 => ?_
  obtain ⟨b1, b2, b3⟩ := Sz.cd sz
  obtain ⟨c1, c2, c3⟩ := Ord.cd o.ord
  obtain ⟨u1, u2, u3⟩ := Scope.cd o.scope
  obtain ⟨e1, e2, e3⟩ := AOp.cd op
  refine ⟨?_, ?_, by simp [mk]⟩
  · generalize hr : Machine.mk h 273 d a k c (accM sz o + mp 29 op.code) (disp) = r
    have hmd : r.md = sz.code * 531441 + o.ord.code * 59049 + o.scope.code * 2187 + op.code * 9 := by rw [← hr]; simp only [Machine.mk, accM, mp, eo, pv, hvv, Nat.reduceSub]; try omega
    have f0 : r.mf 39 1 = sz.code := by simp only [Raw.mf, Raw.mo, offF, fld, Machine.shr, wrap, hmd, pv, hvv, eo, Nat.reduceSub]; try omega
    have f1 : r.mf 37 2 = o.ord.code := by simp only [Raw.mf, Raw.mo, offF, fld, Machine.shr, wrap, hmd, pv, hvv, eo, Nat.reduceSub]; try omega
    have f2 : r.mf 34 3 = o.scope.code := by simp only [Raw.mf, Raw.mo, offF, fld, Machine.shr, wrap, hmd, pv, hvv, eo, Nat.reduceSub]; try omega
    have f3 : r.mf 29 3 = op.code := by simp only [Raw.mf, Raw.mo, offF, fld, Machine.shr, wrap, hmd, pv, hvv, eo, Nat.reduceSub]; try omega
    have e : readRaw h r = some (.atomo h (AOp.ofCode (r.mf 29 3)) (Sz.ofCode (r.mf 39 1)) (readAcc r) r.d r.a r.b r.imm r.c) := by subst hr; rfl
    rw [e]
    simp only [readAcc, readM, Raw.mb, f0, f1, f2, f3, b3, c3, u3, e3, bt_one, Int.toNat_natCast, Option.getD_some, decide_true, decide_false, if_true, if_false, reduceCtorEq, Int.reduceNeg, Int.reduceEq]
    try (subst hr; simp only [Machine.mk])
  · simp only [Machine.mk, accM, mp, eo, pv, hvv, Nat.reduceSub, inRange, Bool.and_eq_true, decide_eq_true_eq]; try omega
theorem fence (h : Hdr) (o : Acc) : Statement (.fence h o) := by
  refine mkS rfl rfl (e3 := ⟨rfl, rfl, rfl, rfl, rfl⟩) fun hs hv hk hr0 => ?_
  obtain ⟨c1, c2, c3⟩ := Ord.cd o.ord
  obtain ⟨u1, u2, u3⟩ := Scope.cd o.scope
  refine ⟨?_, ?_, by simp [mk]⟩
  · generalize hr : Machine.mk h 297 fz fz fz fz (mp 37 o.ord.code + mp 34 o.scope.code) (0) = r
    have hmd : r.md = o.ord.code * 59049 + o.scope.code * 2187 := by rw [← hr]; simp only [Machine.mk, accM, mp, eo, pv, hvv, Nat.reduceSub]; try omega
    have f0 : r.mf 37 2 = o.ord.code := by simp only [Raw.mf, Raw.mo, offF, fld, Machine.shr, wrap, hmd, pv, hvv, eo, Nat.reduceSub]; try omega
    have f1 : r.mf 34 3 = o.scope.code := by simp only [Raw.mf, Raw.mo, offF, fld, Machine.shr, wrap, hmd, pv, hvv, eo, Nat.reduceSub]; try omega
    have e : readRaw h r = some (.fence h (readAcc r)) := by subst hr; rfl
    rw [e]
    simp only [readAcc, readM, Raw.mb, f0, f1, c3, u3, bt_one, Int.toNat_natCast, Option.getD_some, decide_true, decide_false, if_true, if_false, reduceCtorEq, Int.reduceNeg, Int.reduceEq]
    try (subst hr; simp only [Machine.mk])
  · simp only [Machine.mk, accM, mp, eo, pv, hvv, Nat.reduceSub, inRange, Bool.and_eq_true, decide_eq_true_eq]; try omega
theorem fenceComplete (w : Nat) : Statement (.fenceComplete w) := fun _ h r _ hr => nomatch (show (none : Option Raw) = some r from hr)
theorem tnow (h : Hdr) (d : Nat) : Statement (.tnow h d) := by
  refine mkS rfl rfl (e3 := ⟨rfl, rfl, rfl, rfl, rfl⟩) fun hs hv hk hr0 => ?_
  refine ⟨?_, ?_, by simp [mk]⟩
  · rfl
  · rfl
theorem twait (h : Hdr) (t : When) (scope : Scope) (imm : Int) : Statement (.twait h t scope imm) := by
  refine mkS rfl rfl (e3 := ⟨rfl, rfl, rfl, rfl, rfl⟩) fun hs hv hk hr0 => ?_
  refine ⟨?_, ?_, by simp [mk]⟩
  · cases t <;> cases scope <;> rfl
  · cases t <;> cases scope <;> rfl
theorem timedWaitDeadline (t : Nat) : Statement (.timedWaitDeadline t) := fun _ h r _ hr => nomatch (show (none : Option Raw) = some r from hr)
theorem talarm (h : Hdr) (t : When) (a : Nat) (imm : Int) : Statement (.talarm h t a imm) := by
  refine mkS rfl rfl (e3 := ⟨rfl, rfl, rfl, rfl, rfl⟩) fun hs hv hk hr0 => ?_
  refine ⟨?_, ?_, by simp [mk]⟩
  · cases t <;> rfl
  · cases t <;> rfl
theorem alarmDue (c : Nat) : Statement (.alarmDue c) := fun _ h r _ hr => nomatch (show (none : Option Raw) = some r from hr)
theorem bar (h : Hdr) (l : Level) (k : Nat) (rlx : Bool) : Statement (.bar h l k rlx) := by
  refine mkS rfl rfl (e3 := ⟨rfl, rfl, rfl, rfl, rfl⟩) fun hs hv hk hr0 => ?_
  have hk9 : k < 9 := of_decide_eq_true hs
  obtain ⟨b1, b2, b3⟩ := Level.cd l
  have hr01 := bt_cd rlx
  refine ⟨?_, ?_, by simp [mk]⟩
  · generalize hr : Machine.mk h 301 fz fz fz fz (mp 37 l.code + mp 35 (eo k 2) + mp 33 (bt rlx)) (0) = r
    have hmd : r.md = l.code * 59049 + ((k : Int) - 4) * 6561 + bt rlx * 729 := by rw [← hr]; simp only [Machine.mk, accM, mp, eo, pv, hvv, Nat.reduceSub]; try omega
    have f0 : r.mf 37 3 = l.code := by simp only [Raw.mf, Raw.mo, offF, fld, Machine.shr, wrap, hmd, pv, hvv, eo, Nat.reduceSub]; try omega
    have f1 : r.mo 35 2 = k := by simp only [Raw.mf, Raw.mo, offF, fld, Machine.shr, wrap, hmd, pv, hvv, eo, Nat.reduceSub]; try omega
    have f2 : r.mf 33 2 = bt rlx := by simp only [Raw.mf, Raw.mo, offF, fld, Machine.shr, wrap, hmd, pv, hvv, eo, Nat.reduceSub]; try omega
    have e : readRaw h r = some (.bar h (Level.ofCode (r.mf 37 3)) (r.mo 35 2) (decide (r.mf 33 2 = 1))) := by subst hr; rfl
    rw [e]
    simp only [readAcc, readM, Raw.mb, f0, f1, f2, b3, bt_one, Int.toNat_natCast, Option.getD_some, decide_true, decide_false, if_true, if_false, reduceCtorEq, Int.reduceNeg, Int.reduceEq]
    try (subst hr; simp only [Machine.mk])
  · simp only [Machine.mk, accM, mp, eo, pv, hvv, Nat.reduceSub, inRange, Bool.and_eq_true, decide_eq_true_eq]; try omega
theorem bara (h : Hdr) (l : Level) (k : Nat) (rlx : Bool) (d : Nat) : Statement (.bara h l k rlx d) := by
  refine mkS rfl rfl (e3 := ⟨rfl, rfl, rfl, rfl, rfl⟩) fun hs hv hk hr0 => ?_
  have hk9 : k < 9 := of_decide_eq_true hs
  obtain ⟨b1, b2, b3⟩ := Level.cd l
  have hr01 := bt_cd rlx
  refine ⟨?_, ?_, by simp [mk]⟩
  · generalize hr : Machine.mk h 302 d fz fz fz (mp 37 l.code + mp 35 (eo k 2) + mp 33 (bt rlx)) (0) = r
    have hmd : r.md = l.code * 59049 + ((k : Int) - 4) * 6561 + bt rlx * 729 := by rw [← hr]; simp only [Machine.mk, accM, mp, eo, pv, hvv, Nat.reduceSub]; try omega
    have f0 : r.mf 37 3 = l.code := by simp only [Raw.mf, Raw.mo, offF, fld, Machine.shr, wrap, hmd, pv, hvv, eo, Nat.reduceSub]; try omega
    have f1 : r.mo 35 2 = k := by simp only [Raw.mf, Raw.mo, offF, fld, Machine.shr, wrap, hmd, pv, hvv, eo, Nat.reduceSub]; try omega
    have f2 : r.mf 33 2 = bt rlx := by simp only [Raw.mf, Raw.mo, offF, fld, Machine.shr, wrap, hmd, pv, hvv, eo, Nat.reduceSub]; try omega
    have e : readRaw h r = some (.bara h (Level.ofCode (r.mf 37 3)) (r.mo 35 2) (decide (r.mf 33 2 = 1)) r.d) := by subst hr; rfl
    rw [e]
    simp only [readAcc, readM, Raw.mb, f0, f1, f2, b3, bt_one, Int.toNat_natCast, Option.getD_some, decide_true, decide_false, if_true, if_false, reduceCtorEq, Int.reduceNeg, Int.reduceEq]
    try (subst hr; simp only [Machine.mk])
  · simp only [Machine.mk, accM, mp, eo, pv, hvv, Nat.reduceSub, inRange, Bool.and_eq_true, decide_eq_true_eq]; try omega
theorem barw (h : Hdr) (l : Level) (k : Nat) (rlx : Bool) (a : Nat) : Statement (.barw h l k rlx a) := by
  refine mkS rfl rfl (e3 := ⟨rfl, rfl, rfl, rfl, rfl⟩) fun hs hv hk hr0 => ?_
  have hk9 : k < 9 := of_decide_eq_true hs
  obtain ⟨b1, b2, b3⟩ := Level.cd l
  have hr01 := bt_cd rlx
  refine ⟨?_, ?_, by simp [mk]⟩
  · generalize hr : Machine.mk h 303 fz a fz fz (mp 37 l.code + mp 35 (eo k 2) + mp 33 (bt rlx)) (0) = r
    have hmd : r.md = l.code * 59049 + ((k : Int) - 4) * 6561 + bt rlx * 729 := by rw [← hr]; simp only [Machine.mk, accM, mp, eo, pv, hvv, Nat.reduceSub]; try omega
    have f0 : r.mf 37 3 = l.code := by simp only [Raw.mf, Raw.mo, offF, fld, Machine.shr, wrap, hmd, pv, hvv, eo, Nat.reduceSub]; try omega
    have f1 : r.mo 35 2 = k := by simp only [Raw.mf, Raw.mo, offF, fld, Machine.shr, wrap, hmd, pv, hvv, eo, Nat.reduceSub]; try omega
    have f2 : r.mf 33 2 = bt rlx := by simp only [Raw.mf, Raw.mo, offF, fld, Machine.shr, wrap, hmd, pv, hvv, eo, Nat.reduceSub]; try omega
    have e : readRaw h r = some (.barw h (Level.ofCode (r.mf 37 3)) (r.mo 35 2) (decide (r.mf 33 2 = 1)) r.a) := by subst hr; rfl
    rw [e]
    simp only [readAcc, readM, Raw.mb, f0, f1, f2, b3, bt_one, Int.toNat_natCast, Option.getD_some, decide_true, decide_false, if_true, if_false, reduceCtorEq, Int.reduceNeg, Int.reduceEq]
    try (subst hr; simp only [Machine.mk])
  · simp only [Machine.mk, accM, mp, eo, pv, hvv, Nat.reduceSub, inRange, Bool.and_eq_true, decide_eq_true_eq]; try omega
theorem barv (h : Hdr) (l : Level) (k : Nat) (rlx : Bool) (op : AOp) (a b : Nat) (n : Int) : Statement (.barv h l k rlx op a b n) := by
  refine mkS rfl rfl (e3 := ⟨rfl, rfl, rfl, rfl, rfl⟩) fun hs hv hk hr0 => ?_
  have hk9 : k < 9 := of_decide_eq_true hs
  obtain ⟨b1, b2, b3⟩ := Level.cd l
  have hr01 := bt_cd rlx
  obtain ⟨e1, e2, e3⟩ := AOp.cd op
  refine ⟨?_, ?_, by simp [mk]⟩
  · generalize hr : Machine.mk h 308 fz a b fz (mp 37 l.code + mp 35 (eo k 2) + mp 33 (bt rlx) + mp 29 op.code) (n) = r
    have hmd : r.md = l.code * 59049 + ((k : Int) - 4) * 6561 + bt rlx * 729 + op.code * 9 := by rw [← hr]; simp only [Machine.mk, accM, mp, eo, pv, hvv, Nat.reduceSub]; try omega
    have f0 : r.mf 37 3 = l.code := by simp only [Raw.mf, Raw.mo, offF, fld, Machine.shr, wrap, hmd, pv, hvv, eo, Nat.reduceSub]; try omega
    have f1 : r.mo 35 2 = k := by simp only [Raw.mf, Raw.mo, offF, fld, Machine.shr, wrap, hmd, pv, hvv, eo, Nat.reduceSub]; try omega
    have f2 : r.mf 33 2 = bt rlx := by simp only [Raw.mf, Raw.mo, offF, fld, Machine.shr, wrap, hmd, pv, hvv, eo, Nat.reduceSub]; try omega
    have f3 : r.mf 29 3 = op.code := by simp only [Raw.mf, Raw.mo, offF, fld, Machine.shr, wrap, hmd, pv, hvv, eo, Nat.reduceSub]; try omega
    have e : readRaw h r = some (.barv h (Level.ofCode (r.mf 37 3)) (r.mo 35 2) (decide (r.mf 33 2 = 1)) (AOp.ofCode (r.mf 29 3)) r.a r.b r.imm) := by subst hr; rfl
    rw [e]
    simp only [readAcc, readM, Raw.mb, f0, f1, f2, f3, b3, e3, bt_one, Int.toNat_natCast, Option.getD_some, decide_true, decide_false, if_true, if_false, reduceCtorEq, Int.reduceNeg, Int.reduceEq]
    try (subst hr; simp only [Machine.mk])
  · simp only [Machine.mk, accM, mp, eo, pv, hvv, Nat.reduceSub, inRange, Bool.and_eq_true, decide_eq_true_eq]; try omega
theorem barrierPhaseComplete (l : Level) (key k : Nat) : Statement (.barrierPhaseComplete l key k) := fun _ h r _ hr => nomatch (show (none : Option Raw) = some r from hr)
theorem barrierSignal (key k : Nat) (n : Arrivals) (op : Option (AOp × Nat)) (part : List Int) : Statement (.barrierSignal key k n op part) := fun _ h r _ hr => nomatch (show (none : Option Raw) = some r from hr)
theorem tkt (h : Hdr) (s : Nat) (d : Nat) (m : MOp) : Statement (.tkt h s d m) := by
  refine mkS rfl rfl (e3 := ⟨rfl, rfl, rfl, rfl, rfl⟩) fun hs hv hk hr0 => ?_
  have hk27 : s < 27 := of_decide_eq_true hs
  have hk3 : m.k ≤ 3 := of_decide_eq_true hk
  refine ⟨?_, ?_, by simp [mk]⟩
  · generalize hr : Machine.mk h 304 d m.a m.b fz (mp 35 (eo s 3) + mp 27 (m.k : Int)) (m.disp) = r
    have hmd : r.md = ((s : Int) - 13) * 6561 + m.k := by rw [← hr]; simp only [Machine.mk, accM, mp, eo, pv, hvv, Nat.reduceSub]; try omega
    have f0 : r.mf 38 1 = 0 := by simp only [Raw.mf, Raw.mo, offF, fld, Machine.shr, wrap, hmd, pv, hvv, eo, Nat.reduceSub]; try omega
    have f1 : r.mo 35 3 = s := by simp only [Raw.mf, Raw.mo, offF, fld, Machine.shr, wrap, hmd, pv, hvv, eo, Nat.reduceSub]; try omega
    have f2 : r.mf 27 2 = (m.k : Int) := by simp only [Raw.mf, Raw.mo, offF, fld, Machine.shr, wrap, hmd, pv, hvv, eo, Nat.reduceSub]; try omega
    have e : readRaw h r = some (if r.mb 38 then .tktOpen h (r.mo 35 3) (readM r) else if r.mf 38 1 = -1 then .tktClose h (r.mo 35 3) (readM r) else .tkt h (r.mo 35 3) r.d (readM r)) := by subst hr; rfl
    rw [e]
    simp only [readAcc, readM, Raw.mb, f0, f1, f2, bt_one, Int.toNat_natCast, Option.getD_some, decide_true, decide_false, if_true, if_false, reduceCtorEq, Int.reduceNeg, Int.reduceEq]
    try (subst hr; simp only [Machine.mk])
  · simp only [Machine.mk, accM, mp, eo, pv, hvv, Nat.reduceSub, inRange, Bool.and_eq_true, decide_eq_true_eq]; try omega
theorem tktOpen (h : Hdr) (s : Nat) (m : MOp) : Statement (.tktOpen h s m) := by
  refine mkS rfl rfl (e3 := ⟨rfl, rfl, rfl, rfl, rfl⟩) fun hs hv hk hr0 => ?_
  have hk27 : s < 27 := of_decide_eq_true hs
  have hk3 : m.k ≤ 3 := of_decide_eq_true hk
  refine ⟨?_, ?_, by simp [mk]⟩
  · generalize hr : Machine.mk h 304 fz m.a m.b fz (mp 38 1 + mp 35 (eo s 3) + mp 27 (m.k : Int)) (m.disp) = r
    have hmd : r.md = 177147 + ((s : Int) - 13) * 6561 + m.k := by rw [← hr]; simp only [Machine.mk, accM, mp, eo, pv, hvv, Nat.reduceSub]; try omega
    have f0 : r.mf 38 1 = 1 := by simp only [Raw.mf, Raw.mo, offF, fld, Machine.shr, wrap, hmd, pv, hvv, eo, Nat.reduceSub]; try omega
    have f1 : r.mo 35 3 = s := by simp only [Raw.mf, Raw.mo, offF, fld, Machine.shr, wrap, hmd, pv, hvv, eo, Nat.reduceSub]; try omega
    have f2 : r.mf 27 2 = (m.k : Int) := by simp only [Raw.mf, Raw.mo, offF, fld, Machine.shr, wrap, hmd, pv, hvv, eo, Nat.reduceSub]; try omega
    have e : readRaw h r = some (if r.mb 38 then .tktOpen h (r.mo 35 3) (readM r) else if r.mf 38 1 = -1 then .tktClose h (r.mo 35 3) (readM r) else .tkt h (r.mo 35 3) r.d (readM r)) := by subst hr; rfl
    rw [e]
    simp only [readAcc, readM, Raw.mb, f0, f1, f2, bt_one, Int.toNat_natCast, Option.getD_some, decide_true, decide_false, if_true, if_false, reduceCtorEq, Int.reduceNeg, Int.reduceEq]
    try (subst hr; simp only [Machine.mk])
  · simp only [Machine.mk, accM, mp, eo, pv, hvv, Nat.reduceSub, inRange, Bool.and_eq_true, decide_eq_true_eq]; try omega
theorem tktClose (h : Hdr) (s : Nat) (m : MOp) : Statement (.tktClose h s m) := by
  refine mkS rfl rfl (e3 := ⟨rfl, rfl, rfl, rfl, rfl⟩) fun hs hv hk hr0 => ?_
  have hk27 : s < 27 := of_decide_eq_true hs
  have hk3 : m.k ≤ 3 := of_decide_eq_true hk
  refine ⟨?_, ?_, by simp [mk]⟩
  · generalize hr : Machine.mk h 304 fz m.a m.b fz (mp 38 (-1) + mp 35 (eo s 3) + mp 27 (m.k : Int)) (m.disp) = r
    have hmd : r.md = -177147 + ((s : Int) - 13) * 6561 + m.k := by rw [← hr]; simp only [Machine.mk, accM, mp, eo, pv, hvv, Nat.reduceSub]; try omega
    have f0 : r.mf 38 1 = -1 := by simp only [Raw.mf, Raw.mo, offF, fld, Machine.shr, wrap, hmd, pv, hvv, eo, Nat.reduceSub]; try omega
    have f1 : r.mo 35 3 = s := by simp only [Raw.mf, Raw.mo, offF, fld, Machine.shr, wrap, hmd, pv, hvv, eo, Nat.reduceSub]; try omega
    have f2 : r.mf 27 2 = (m.k : Int) := by simp only [Raw.mf, Raw.mo, offF, fld, Machine.shr, wrap, hmd, pv, hvv, eo, Nat.reduceSub]; try omega
    have e : readRaw h r = some (if r.mb 38 then .tktOpen h (r.mo 35 3) (readM r) else if r.mf 38 1 = -1 then .tktClose h (r.mo 35 3) (readM r) else .tkt h (r.mo 35 3) r.d (readM r)) := by subst hr; rfl
    rw [e]
    simp only [readAcc, readM, Raw.mb, f0, f1, f2, bt_one, Int.toNat_natCast, Option.getD_some, decide_true, decide_false, if_true, if_false, reduceCtorEq, Int.reduceNeg, Int.reduceEq]
    try (subst hr; simp only [Machine.mk])
  · simp only [Machine.mk, accM, mp, eo, pv, hvv, Nat.reduceSub, inRange, Bool.and_eq_true, decide_eq_true_eq]; try omega
theorem tkp (h : Hdr) (m : MOp) (c : Nat) : Statement (.tkp h m c) := by
  refine mkS rfl rfl (e3 := ⟨rfl, rfl, rfl, rfl, rfl⟩) fun hs hv hk hr0 => ?_
  have hk3 : m.k ≤ 3 := of_decide_eq_true hk
  refine ⟨?_, ?_, by simp [mk]⟩
  · generalize hr : Machine.mk h 305 fz m.a m.b c (mp 27 (m.k : Int)) (m.disp) = r
    have hmd : r.md = (m.k : Int) := by rw [← hr]; simp only [Machine.mk, accM, mp, eo, pv, hvv, Nat.reduceSub]; try omega
    have f0 : r.mf 27 2 = (m.k : Int) := by simp only [Raw.mf, Raw.mo, offF, fld, Machine.shr, wrap, hmd, pv, hvv, eo, Nat.reduceSub]; try omega
    have e : readRaw h r = some (.tkp h (readM r) r.c) := by subst hr; rfl
    rw [e]
    simp only [readAcc, readM, Raw.mb, f0, bt_one, Int.toNat_natCast, Option.getD_some, decide_true, decide_false, if_true, if_false, reduceCtorEq, Int.reduceNeg, Int.reduceEq]
    try (subst hr; simp only [Machine.mk])
  · simp only [Machine.mk, accM, mp, eo, pv, hvv, Nat.reduceSub, inRange, Bool.and_eq_true, decide_eq_true_eq]; try omega
theorem msg (h : Hdr) (rlx : Bool) (a b : Nat) (nb : Option Nat) : Statement (.msg h rlx a b nb) := by
  refine mkS rfl rfl (e3 := ⟨rfl, rfl, rfl, rfl, rfl⟩) fun hs hv hk hr0 => ?_
  refine ⟨?_, ?_, by simp [mk]⟩
  · cases nb <;> cases rlx <;> rfl
  · cases nb <;> cases rlx <;> rfl
theorem messageArrival (id : Nat) : Statement (.messageArrival id) := fun _ h r _ hr => nomatch (show (none : Option Raw) = some r from hr)
theorem qstat (h : Hdr) (d a : Nat) : Statement (.qstat h d a) := by
  refine mkS rfl rfl (e3 := ⟨rfl, rfl, rfl, rfl, rfl⟩) fun hs hv hk hr0 => ?_
  refine ⟨?_, ?_, by simp [mk]⟩
  · rfl
  · rfl
theorem queueServe (w : Nat) : Statement (.queueServe w) := fun _ h r _ hr => nomatch (show (none : Option Raw) = some r from hr)
theorem draft (h : Hdr) (imm : Int) : Statement (.draft h imm) := by
  refine mkS rfl rfl (e3 := ⟨rfl, rfl, rfl, rfl, rfl⟩) fun hs hv hk hr0 => ?_
  refine ⟨?_, ?_, by simp [mk]⟩
  · rfl
  · rfl
theorem ink (h : Hdr) : Statement (.ink h) := by
  refine mkS rfl rfl (e3 := ⟨rfl, rfl, rfl, rfl, rfl⟩) fun hs hv hk hr0 => ?_
  refine ⟨?_, ?_, by simp [mk]⟩
  · rfl
  · rfl
theorem draftPrepare (id : Nat) : Statement (.draftPrepare id) := fun _ h r _ hr => nomatch (show (none : Option Raw) = some r from hr)
theorem draftDecision (w : Nat) : Statement (.draftDecision w) := fun _ h r _ hr => nomatch (show (none : Option Raw) = some r from hr)
theorem draftCommitArrival (id : Nat) : Statement (.draftCommitArrival id) := fun _ h r _ hr => nomatch (show (none : Option Raw) = some r from hr)
theorem inkRetire (w : Nat) : Statement (.inkRetire w) := fun _ h r _ hr => nomatch (show (none : Option Raw) = some r from hr)
theorem erase (h : Hdr) (code : Int) : Statement (.erase h code) := by
  refine mkS rfl rfl (e3 := ⟨rfl, rfl, rfl, rfl, rfl⟩) fun hs hv hk hr0 => ?_
  refine ⟨?_, ?_, by simp [mk]⟩
  · rfl
  · rfl
theorem dstat (h : Hdr) (d : Nat) : Statement (.dstat h d) := by
  refine mkS rfl rfl (e3 := ⟨rfl, rfl, rfl, rfl, rfl⟩) fun hs hv hk hr0 => ?_
  refine ⟨?_, ?_, by simp [mk]⟩
  · rfl
  · rfl
theorem br (h : Hdr) (imm : Int) : Statement (.br h imm) := by
  refine mkS rfl rfl (e3 := ⟨rfl, rfl, rfl, rfl, rfl⟩) fun hs hv hk hr0 => ?_
  refine ⟨?_, ?_, by simp [mk]⟩
  · rfl
  · rfl
theorem call (h : Hdr) (d : Nat) (imm : Int) : Statement (.call h d imm) := by
  refine mkS rfl rfl (e3 := ⟨rfl, rfl, rfl, rfl, rfl⟩) fun hs hv hk hr0 => ?_
  refine ⟨?_, ?_, by simp [mk]⟩
  · rfl
  · rfl
theorem callt (h : Hdr) (d a : Nat) (sig : Int) : Statement (.callt h d a sig) := by
  refine mkS rfl rfl (e3 := ⟨rfl, rfl, rfl, rfl, rfl⟩) fun hs hv hk hr0 => ?_
  refine ⟨?_, ?_, by simp [mk]⟩
  · rfl
  · rfl
theorem ret (h : Hdr) (a : Nat) : Statement (.ret h a) := by
  refine mkS rfl rfl (e3 := ⟨rfl, rfl, rfl, rfl, rfl⟩) fun hs hv hk hr0 => ?_
  refine ⟨?_, ?_, by simp [mk]⟩
  · rfl
  · rfl
theorem setmr (h : Hdr) (imm : Int) : Statement (.setmr h imm) := by
  refine mkS rfl rfl (e3 := ⟨rfl, rfl, rfl, rfl, rfl⟩) fun hs hv hk hr0 => ?_
  refine ⟨?_, ?_, by simp [mk]⟩
  · rfl
  · rfl
theorem setmrClr (h : Hdr) : Statement (.setmrClr h) := by
  refine mkS rfl rfl (e3 := ⟨rfl, rfl, rfl, rfl, rfl⟩) fun hs hv hk hr0 => ?_
  refine ⟨?_, ?_, by simp [mk]⟩
  · rfl
  · rfl
theorem movmrGet (h : Hdr) (d : Nat) : Statement (.movmrGet h d) := by
  refine mkS rfl rfl (e3 := ⟨rfl, rfl, rfl, rfl, rfl⟩) fun hs hv hk hr0 => ?_
  refine ⟨?_, ?_, by simp [mk]⟩
  · rfl
  · rfl
theorem movmrPut (h : Hdr) (a : Nat) : Statement (.movmrPut h a) := by
  refine mkS rfl rfl (e3 := ⟨rfl, rfl, rfl, rfl, rfl⟩) fun hs hv hk hr0 => ?_
  refine ⟨?_, ?_, by simp [mk]⟩
  · rfl
  · rfl
theorem exit (h : Hdr) : Statement (.exit h) := by
  refine mkS rfl rfl (e3 := ⟨rfl, rfl, rfl, rfl, rfl⟩) fun hs hv hk hr0 => ?_
  refine ⟨?_, ?_, by simp [mk]⟩
  · rfl
  · rfl
theorem brk (h : Hdr) (code : Int) : Statement (.brk h code) := by
  refine mkS rfl rfl (e3 := ⟨rfl, rfl, rfl, rfl, rfl⟩) fun hs hv hk hr0 => ?_
  refine ⟨?_, ?_, by simp [mk]⟩
  · rfl
  · rfl
theorem trap (h : Hdr) (code : Int) : Statement (.trap h code) := by
  refine mkS rfl rfl (e3 := ⟨rfl, rfl, rfl, rfl, rfl⟩) fun hs hv hk hr0 => ?_
  refine ⟨?_, ?_, by simp [mk]⟩
  · rfl
  · rfl
theorem yld (h : Hdr) : Statement (.yld h) := by
  refine mkS rfl rfl (e3 := ⟨rfl, rfl, rfl, rfl, rfl⟩) fun hs hv hk hr0 => ?_
  refine ⟨?_, ?_, by simp [mk]⟩
  · rfl
  · rfl
theorem nop (h : Hdr) : Statement (.nop h) := by
  refine mkS rfl rfl (e3 := ⟨rfl, rfl, rfl, rfl, rfl⟩) fun hs hv hk hr0 => ?_
  refine ⟨?_, ?_, by simp [mk]⟩
  · rfl
  · rfl
theorem hint (raw : Int) : Statement (.hint raw) := fun _ h r _ hr => nomatch (show (none : Option Raw) = some r from hr)
theorem spawn (h : Hdr) (a b : Nat) (imm : Int) : Statement (.spawn h a b imm) := by
  refine mkS rfl rfl (e3 := ⟨rfl, rfl, rfl, rfl, rfl⟩) fun hs hv hk hr0 => ?_
  refine ⟨?_, ?_, by simp [mk]⟩
  · rfl
  · rfl
theorem spawnBinTimer (c b : Nat) : Statement (.spawnBinTimer c b) := fun _ h r _ hr => nomatch (show (none : Option Raw) = some r from hr)
theorem spawnWarpCreate (c b : Nat) : Statement (.spawnWarpCreate c b) := fun _ h r _ hr => nomatch (show (none : Option Raw) = some r from hr)
theorem rclaim (h : Hdr) (g : Int) : Statement (.rclaim h g) := by
  refine mkS rfl rfl (e3 := ⟨rfl, rfl, rfl, rfl, rfl⟩) fun hs hv hk hr0 => ?_
  refine ⟨?_, ?_, by simp [mk]⟩
  · rfl
  · rfl
theorem rgive (h : Hdr) (g : Int) : Statement (.rgive h g) := by
  refine mkS rfl rfl (e3 := ⟨rfl, rfl, rfl, rfl, rfl⟩) fun hs hv hk hr0 => ?_
  refine ⟨?_, ?_, by simp [mk]⟩
  · rfl
  · rfl
theorem claimGrant (c : Nat) : Statement (.claimGrant c) := fun _ h r _ hr => nomatch (show (none : Option Raw) = some r from hr)
theorem wait (h : Hdr) (bld bst bcp btl : Nat) : Statement (.wait h bld bst bcp btl) := by
  refine mkS rfl rfl (e3 := ⟨rfl, rfl, rfl, rfl, rfl⟩) fun hs hv hk hr0 => ?_
  have q0 : bld < 243 := of_decide_eq_true (Bool.and_eq_true_iff.1 (Bool.and_eq_true_iff.1 (Bool.and_eq_true_iff.1 hs).1).1).1
  have q1 : bst < 243 := of_decide_eq_true (Bool.and_eq_true_iff.1 (Bool.and_eq_true_iff.1 (Bool.and_eq_true_iff.1 hs).1).1).2
  have q2 : bcp < 243 := of_decide_eq_true (Bool.and_eq_true_iff.1 (Bool.and_eq_true_iff.1 hs).1).2
  have q3 : btl < 243 := of_decide_eq_true (Bool.and_eq_true_iff.1 hs).2
  refine ⟨?_, ?_, by simp [mk]⟩
  · generalize hr : Machine.mk h 381 fz fz fz fz (0) (eo bld 5 * pow3 15 + eo bst 5 * pow3 10 + eo bcp 5 * pow3 5 + eo btl 5) = r
    have hmd : r.md = 0 := by rw [← hr]; simp only [Machine.mk, accM, mp, eo, pv, hvv, Nat.reduceSub]; try omega
    have himm : r.imm = ((bld : Int) - 121) * 14348907 + ((bst : Int) - 121) * 59049 + ((bcp : Int) - 121) * 243 + ((btl : Int) - 121) := by rw [← hr]; simp only [Machine.mk, accM, mp, eo, pv, hvv, Nat.reduceSub, cfgImm, cpImm, ringF]; try omega
    have f0 : offF r.imm 15 5 = bld := by simp only [offF, fld, Machine.shr, wrap, himm, pv, hvv]; try omega
    have f1 : offF r.imm 10 5 = bst := by simp only [offF, fld, Machine.shr, wrap, himm, pv, hvv]; try omega
    have f2 : offF r.imm 5 5 = bcp := by simp only [offF, fld, Machine.shr, wrap, himm, pv, hvv]; try omega
    have f3 : offF r.imm 0 5 = btl := by simp only [offF, fld, Machine.shr, wrap, himm, pv, hvv]; try omega
    have e : readRaw h r = some (.wait h (offF r.imm 15 5) (offF r.imm 10 5) (offF r.imm 5 5) (offF r.imm 0 5)) := by subst hr; rfl
    rw [e]
    simp only [readAcc, readM, Raw.mb, f0, f1, f2, f3, bt_one, Int.toNat_natCast, Option.getD_some, decide_true, decide_false, if_true, if_false, reduceCtorEq, Int.reduceNeg, Int.reduceEq]
    try (subst hr; simp only [Machine.mk])
  · simp only [Machine.mk, accM, mp, eo, pv, hvv, Nat.reduceSub, inRange, Bool.and_eq_true, decide_eq_true_eq]; try omega
theorem icpf (h : Hdr) (cnt : Nat) (imm : Int) : Statement (.icpf h cnt imm) := by
  refine mkS rfl rfl (e3 := ⟨rfl, rfl, rfl, rfl, rfl⟩) fun hs hv hk hr0 => ?_
  have q : cnt < 9 := of_decide_eq_true hs
  refine ⟨?_, ?_, by simp [mk]⟩
  · generalize hr : Machine.mk h 382 fz fz fz fz (mp 36 (eo cnt 2)) (imm) = r
    have hmd : r.md = ((cnt : Int) - 4) * 19683 := by rw [← hr]; simp only [Machine.mk, accM, mp, eo, pv, hvv, Nat.reduceSub]; try omega
    have f0 : r.mo 36 2 = cnt := by simp only [Raw.mf, Raw.mo, offF, fld, Machine.shr, wrap, hmd, pv, hvv, eo, Nat.reduceSub]; try omega
    have e : readRaw h r = some (.icpf h (r.mo 36 2) r.imm) := by subst hr; rfl
    rw [e]
    simp only [readAcc, readM, Raw.mb, f0, bt_one, Int.toNat_natCast, Option.getD_some, decide_true, decide_false, if_true, if_false, reduceCtorEq, Int.reduceNeg, Int.reduceEq]
    try (subst hr; simp only [Machine.mk])
  · simp only [Machine.mk, accM, mp, eo, pv, hvv, Nat.reduceSub, inRange, Bool.and_eq_true, decide_eq_true_eq]; try omega
theorem ifence (h : Hdr) : Statement (.ifence h) := by
  refine mkS rfl rfl (e3 := ⟨rfl, rfl, rfl, rfl, rfl⟩) fun hs hv hk hr0 => ?_
  refine ⟨?_, ?_, by simp [mk]⟩
  · rfl
  · rfl
theorem icinv (h : Hdr) (imm : Int) : Statement (.icinv h imm) := by
  refine mkS rfl rfl (e3 := ⟨rfl, rfl, rfl, rfl, rfl⟩) fun hs hv hk hr0 => ?_
  refine ⟨?_, ?_, by simp [mk]⟩
  · rfl
  · rfl
theorem icinvAll (h : Hdr) : Statement (.icinvAll h) := by
  refine mkS rfl rfl (e3 := ⟨rfl, rfl, rfl, rfl, rfl⟩) fun hs hv hk hr0 => ?_
  refine ⟨?_, ?_, by simp [mk]⟩
  · rfl
  · rfl
theorem instructionFetchFill (id : Nat) : Statement (.instructionFetchFill id) := fun _ h r _ hr => nomatch (show (none : Option Raw) = some r from hr)
theorem mcfg (h : Hdr) (a : Nat) (g : CfgOp) : Statement (.mcfg h a g) := by
  refine mkS rfl rfl (e3 := ⟨rfl, rfl, rfl, rfl, rfl⟩) fun hs hv hk hr0 => ?_
  have q : g.slot ≤ 8 := of_decide_eq_true hv
  obtain ⟨b1, b3⟩ := NTy.cd g.atype
  obtain ⟨c1, c3⟩ := NTy.cd g.btype
  obtain ⟨u1, u3⟩ := OTy.cd g.otype
  obtain ⟨e1, e3⟩ := PB.cd g.pb
  have q1 : 1 ≤ g.pa := of_decide_eq_true (Bool.and_eq_true_iff.1 (Bool.and_eq_true_iff.1 hs).1).1
  have q2 : g.pa ≤ 9 := of_decide_eq_true (Bool.and_eq_true_iff.1 (Bool.and_eq_true_iff.1 hs).1).2
  have q3 := (Bool.and_eq_true_iff.1 hs).2
  simp only [inRange, hvv, Bool.and_eq_true, decide_eq_true_eq] at q3
  refine ⟨?_, ?_, by simp [mk]⟩
  · generalize hr : Machine.mk h 405 fz a fz fz (0) (cfgImm g) = r
    have hmd : r.md = 0 := by rw [← hr]; simp only [Machine.mk, accM, mp, eo, pv, hvv, Nat.reduceSub]; try omega
    have himm : r.imm = ((g.slot : Int) - 13) + ((g.atype.code : Int) - 4) * 27 + ((g.btype.code : Int) - 4) * 243 + ((g.otype.code : Int) - 4) * 2187 + (((g.pa - 1 : Nat) : Int) - 4) * 19683 + ((g.pb.code : Int) - 4) * 177147 + g.otag * 1594323 := by rw [← hr]; simp only [Machine.mk, accM, mp, eo, pv, hvv, Nat.reduceSub, cfgImm, cpImm, ringF]; try omega
    have f0 : offF r.imm 0 3 = g.slot := by simp only [offF, fld, Machine.shr, wrap, himm, pv, hvv]; try omega
    have f1 : offF r.imm 3 2 = g.atype.code := by simp only [offF, fld, Machine.shr, wrap, himm, pv, hvv]; try omega
    have f2 : offF r.imm 5 2 = g.btype.code := by simp only [offF, fld, Machine.shr, wrap, himm, pv, hvv]; try omega
    have f3 : offF r.imm 7 2 = g.otype.code := by simp only [offF, fld, Machine.shr, wrap, himm, pv, hvv]; try omega
    have f4 : offF r.imm 9 2 = g.pa - 1 := by simp only [offF, fld, Machine.shr, wrap, himm, pv, hvv]; try omega
    have f5 : offF r.imm 11 2 = g.pb.code := by simp only [offF, fld, Machine.shr, wrap, himm, pv, hvv]; try omega
    have f6 : fld r.imm 13 9 = g.otag := by simp only [offF, fld, Machine.shr, wrap, himm, pv, hvv]; try omega
    have e : readRaw h r = some (.mcfg h r.a (readCfg r.imm)) := by subst hr; rfl
    rw [e]
    simp only [readCfg, f0, f1, f2, f3, f4, f5, f6, b3, c3, u3, e3]
    subst hr; simp only [Machine.mk, Nat.sub_add_cancel q1]
  · simp only [Machine.mk, accM, mp, eo, pv, hvv, Nat.reduceSub, inRange, Bool.and_eq_true, decide_eq_true_eq]; try omega
theorem ring (h : Hdr) (r0 first count : Nat) : Statement (.ring h r0 first count) := by
  refine mkS rfl rfl (e3 := ⟨rfl, rfl, rfl, rfl, rfl⟩) fun hs hv hk hr0 => ?_
  have q0 : r0 < 27 := of_decide_eq_true (Bool.and_eq_true_iff.1 hs).1
  have q1 : first < 243 := of_decide_eq_true (Bool.and_eq_true_iff.1 hs).2
  have q2 : count ≤ 27 := of_decide_eq_true (Bool.and_eq_true_iff.1 hv).1
  refine ⟨?_, ?_, by simp [mk]⟩
  · generalize hr : Machine.mk h 406 fz fz fz fz (0) (eo r0 3 + eo first 5 * pow3 3 + eo count 4 * pow3 8) = r
    have hmd : r.md = 0 := by rw [← hr]; simp only [Machine.mk, accM, mp, eo, pv, hvv, Nat.reduceSub]; try omega
    have himm : r.imm = ((r0 : Int) - 13) + ((first : Int) - 121) * 27 + ((count : Int) - 40) * 6561 := by rw [← hr]; simp only [Machine.mk, accM, mp, eo, pv, hvv, Nat.reduceSub, cfgImm, cpImm, ringF]; try omega
    have f0 : offF r.imm 0 3 = r0 := by simp only [offF, fld, Machine.shr, wrap, himm, pv, hvv]; try omega
    have f1 : offF r.imm 3 5 = first := by simp only [offF, fld, Machine.shr, wrap, himm, pv, hvv]; try omega
    have f2 : offF r.imm 8 4 = count := by simp only [offF, fld, Machine.shr, wrap, himm, pv, hvv]; try omega
    have e : readRaw h r = some (.ring h (offF r.imm 0 3) (offF r.imm 3 5) (offF r.imm 8 4)) := by subst hr; rfl
    rw [e]
    simp only [readAcc, readM, Raw.mb, f0, f1, f2, bt_one, Int.toNat_natCast, Option.getD_some, decide_true, decide_false, if_true, if_false, reduceCtorEq, Int.reduceNeg, Int.reduceEq]
    try (subst hr; simp only [Machine.mk])
  · simp only [Machine.mk, accM, mp, eo, pv, hvv, Nat.reduceSub, inRange, Bool.and_eq_true, decide_eq_true_eq]; try omega
theorem fstat (h : Hdr) (wsel d a : Nat) (off : Int) : Statement (.fstat h wsel d a off) := by
  refine mkS rfl rfl (e3 := ⟨rfl, rfl, rfl, rfl, rfl⟩) fun hs hv hk hr0 => ?_
  have q : wsel ≤ 3 := of_decide_eq_true hv
  refine ⟨?_, ?_, by simp [mk]⟩
  · generalize hr : Machine.mk h 407 d a fz fz (mp 37 (eo wsel 2)) (off) = r
    have hmd : r.md = ((wsel : Int) - 4) * 59049 := by rw [← hr]; simp only [Machine.mk, accM, mp, eo, pv, hvv, Nat.reduceSub]; try omega
    have f0 : r.mo 37 2 = wsel := by simp only [Raw.mf, Raw.mo, offF, fld, Machine.shr, wrap, hmd, pv, hvv, eo, Nat.reduceSub]; try omega
    have e : readRaw h r = some (.fstat h (r.mo 37 2) r.d r.a r.imm) := by subst hr; rfl
    rw [e]
    simp only [readAcc, readM, Raw.mb, f0, bt_one, Int.toNat_natCast, Option.getD_some, decide_true, decide_false, if_true, if_false, reduceCtorEq, Int.reduceNeg, Int.reduceEq]
    try (subst hr; simp only [Machine.mk])
  · simp only [Machine.mk, accM, mp, eo, pv, hvv, Nat.reduceSub, inRange, Bool.and_eq_true, decide_eq_true_eq]; try omega
theorem fsetReady (h : Hdr) (full : Bool) (a b : Nat) (off : Int) : Statement (.fsetReady h full a b off) := by
  refine mkS rfl rfl (e3 := ⟨rfl, rfl, rfl, rfl, rfl⟩) fun hs hv hk hr0 => ?_
  refine ⟨?_, ?_, by simp [mk]⟩
  · cases full <;> rfl
  · cases full <;> rfl
theorem fsetEmpty (h : Hdr) (full : Bool) (a : Nat) (off : Int) : Statement (.fsetEmpty h full a off) := by
  refine mkS rfl rfl (e3 := ⟨rfl, rfl, rfl, rfl, rfl⟩) fun hs hv hk hr0 => ?_
  refine ⟨?_, ?_, by simp [mk]⟩
  · cases full <;> rfl
  · cases full <;> rfl
theorem mzero (h : Hdr) (slot : Nat) : Statement (.mzero h slot) := by
  refine mkS rfl rfl (e3 := ⟨rfl, rfl, rfl, rfl, rfl⟩) fun hs hv hk hr0 => ?_
  have q : slot ≤ 8 := of_decide_eq_true hv
  refine ⟨?_, ?_, by simp [mk]⟩
  · generalize hr : Machine.mk h 409 fz fz fz fz (0) (eo slot 3) = r
    have hmd : r.md = 0 := by rw [← hr]; simp only [Machine.mk, accM, mp, eo, pv, hvv, Nat.reduceSub]; try omega
    have himm : r.imm = (slot : Int) - 13 := by rw [← hr]; simp only [Machine.mk, accM, mp, eo, pv, hvv, Nat.reduceSub, cfgImm, cpImm, ringF]; try omega
    have f0 : offF r.imm 0 3 = slot := by simp only [offF, fld, Machine.shr, wrap, himm, pv, hvv]; try omega
    have e : readRaw h r = some (.mzero h (offF r.imm 0 3)) := by subst hr; rfl
    rw [e]
    simp only [readAcc, readM, Raw.mb, f0, bt_one, Int.toNat_natCast, Option.getD_some, decide_true, decide_false, if_true, if_false, reduceCtorEq, Int.reduceNeg, Int.reduceEq]
    try (subst hr; simp only [Machine.mk])
  · simp only [Machine.mk, accM, mp, eo, pv, hvv, Nat.reduceSub, inRange, Bool.and_eq_true, decide_eq_true_eq]; try omega
theorem mloop (h : Hdr) (bhold tok : Bool) (a slot ra rb kc : Nat) : Statement (.mloop h bhold tok a slot ra rb kc) := by
  refine mkS rfl rfl (e3 := ⟨rfl, rfl, rfl, rfl, rfl⟩) fun hs hv hk hr0 => ?_
  have q : slot ≤ 8 := of_decide_eq_true hv
  have q1 := bt_cd bhold
  have q2 := bt_cd tok
  have q3 : ra < 27 := of_decide_eq_true (Bool.and_eq_true_iff.1 (Bool.and_eq_true_iff.1 hs).1).1
  have q4 : rb < 27 := of_decide_eq_true (Bool.and_eq_true_iff.1 (Bool.and_eq_true_iff.1 hs).1).2
  have q5 : kc < 19683 := of_decide_eq_true (Bool.and_eq_true_iff.1 hs).2
  refine ⟨?_, ?_, by simp [mk]⟩
  · generalize hr : Machine.mk h 432 fz a fz fz (mp 39 (bt bhold) + mp 36 (bt tok)) (eo slot 3 + eo ra 3 * pow3 3 + eo rb 3 * pow3 6 + eo kc 9 * pow3 9) = r
    have hmd : r.md = bt bhold * 531441 + bt tok * 19683 := by rw [← hr]; simp only [Machine.mk, accM, mp, eo, pv, hvv, Nat.reduceSub]; try omega
    have himm : r.imm = (slot : Int) - 13 + ((ra : Int) - 13) * 27 + ((rb : Int) - 13) * 729 + ((kc : Int) - 9841) * 19683 := by rw [← hr]; simp only [Machine.mk, accM, mp, eo, pv, hvv, Nat.reduceSub, cfgImm, cpImm, ringF]; try omega
    have f0 : r.mf 39 1 = bt bhold := by simp only [Raw.mf, Raw.mo, offF, fld, Machine.shr, wrap, hmd, pv, hvv, eo, Nat.reduceSub]; try omega
    have f1 : r.mf 36 1 = bt tok := by simp only [Raw.mf, Raw.mo, offF, fld, Machine.shr, wrap, hmd, pv, hvv, eo, Nat.reduceSub]; try omega
    have f2 : offF r.imm 0 3 = slot := by simp only [offF, fld, Machine.shr, wrap, himm, pv, hvv]; try omega
    have f3 : offF r.imm 3 3 = ra := by simp only [offF, fld, Machine.shr, wrap, himm, pv, hvv]; try omega
    have f4 : offF r.imm 6 3 = rb := by simp only [offF, fld, Machine.shr, wrap, himm, pv, hvv]; try omega
    have f5 : offF r.imm 9 9 = kc := by simp only [offF, fld, Machine.shr, wrap, himm, pv, hvv]; try omega
    have e : readRaw h r = some (.mloop h (r.mb 39) (r.mb 36) r.a (offF r.imm 0 3) (offF r.imm 3 3) (offF r.imm 6 3) (offF r.imm 9 9)) := by subst hr; rfl
    rw [e]
    simp only [readAcc, readM, Raw.mb, f0, f1, f2, f3, f4, f5, bt_one, Int.toNat_natCast, Option.getD_some, decide_true, decide_false, if_true, if_false, reduceCtorEq, Int.reduceNeg, Int.reduceEq]
    try (subst hr; simp only [Machine.mk])
  · simp only [Machine.mk, accM, mp, eo, pv, hvv, Nat.reduceSub, inRange, Bool.and_eq_true, decide_eq_true_eq]; try omega
theorem mrdy (h : Hdr) : Statement (.mrdy h) := by
  refine mkS rfl rfl (e3 := ⟨rfl, rfl, rfl, rfl, rfl⟩) fun hs hv hk hr0 => ?_
  refine ⟨?_, ?_, by simp [mk]⟩
  · rfl
  · rfl
theorem mdrain (h : Hdr) (o : DrainOp) : Statement (.mdrain h o) := by
  refine mkS rfl rfl (e3 := ⟨rfl, rfl, rfl, rfl, rfl⟩) fun hs hv hk hr0 => ?_
  have q : o.slot ≤ 8 := of_decide_eq_true (Bool.and_eq_true_iff.1 (Bool.and_eq_true_iff.1 (Bool.and_eq_true_iff.1 hv).1).1).1
  have qres := bt_cd o.res
  have qdrop := bt_cd o.drop
  have qz := bt_cd o.z
  have qtok := bt_cd o.tok
  have q3 : o.ro < 27 := of_decide_eq_true (Bool.and_eq_true_iff.1 hs).1
  have q4 : o.rr < 27 := of_decide_eq_true (Bool.and_eq_true_iff.1 hs).2
  refine ⟨?_, ?_, by simp [mk]⟩
  · generalize hr : Machine.mk h 434 fz o.a o.b o.c (mp 39 (bt o.res) + mp 38 (bt o.drop) + mp 37 (bt o.z) + mp 36 (bt o.tok)) (eo o.slot 3 + eo o.ro 3 * pow3 3 + eo o.rr 3 * pow3 6) = r
    have hmd : r.md = bt o.res * 531441 + bt o.drop * 177147 + bt o.z * 59049 + bt o.tok * 19683 := by rw [← hr]; simp only [Machine.mk, accM, mp, eo, pv, hvv, Nat.reduceSub]; try omega
    have himm : r.imm = (o.slot : Int) - 13 + ((o.ro : Int) - 13) * 27 + ((o.rr : Int) - 13) * 729 := by rw [← hr]; simp only [Machine.mk, accM, mp, eo, pv, hvv, Nat.reduceSub, cfgImm, cpImm, ringF]; try omega
    have f0 : r.mf 39 1 = bt o.res := by simp only [Raw.mf, Raw.mo, offF, fld, Machine.shr, wrap, hmd, pv, hvv, eo, Nat.reduceSub]; try omega
    have f1 : r.mf 38 1 = bt o.drop := by simp only [Raw.mf, Raw.mo, offF, fld, Machine.shr, wrap, hmd, pv, hvv, eo, Nat.reduceSub]; try omega
    have f2 : r.mf 37 1 = bt o.z := by simp only [Raw.mf, Raw.mo, offF, fld, Machine.shr, wrap, hmd, pv, hvv, eo, Nat.reduceSub]; try omega
    have f3 : r.mf 36 1 = bt o.tok := by simp only [Raw.mf, Raw.mo, offF, fld, Machine.shr, wrap, hmd, pv, hvv, eo, Nat.reduceSub]; try omega
    have f4 : offF r.imm 0 3 = o.slot := by simp only [offF, fld, Machine.shr, wrap, himm, pv, hvv]; try omega
    have f5 : offF r.imm 3 3 = o.ro := by simp only [offF, fld, Machine.shr, wrap, himm, pv, hvv]; try omega
    have f6 : offF r.imm 6 3 = o.rr := by simp only [offF, fld, Machine.shr, wrap, himm, pv, hvv]; try omega
    have e : readRaw h r = some (.mdrain h { res := r.mb 39, drop := r.mb 38, z := r.mb 37, tok := r.mb 36, slot := offF r.imm 0 3, ro := offF r.imm 3 3, rr := offF r.imm 6 3, a := r.a, b := r.b, c := r.c }) := by subst hr; rfl
    rw [e]
    simp only [readAcc, readM, Raw.mb, f0, f1, f2, f3, f4, f5, f6, bt_one, Int.toNat_natCast, Option.getD_some, decide_true, decide_false, if_true, if_false, reduceCtorEq, Int.reduceNeg, Int.reduceEq]
    try (subst hr; simp only [Machine.mk])
  · simp only [Machine.mk, accM, mp, eo, pv, hvv, Nat.reduceSub, inRange, Bool.and_eq_true, decide_eq_true_eq]; try omega
theorem qscale (h : Hdr) (tok : Bool) (d c slot : Nat) : Statement (.qscale h tok d c slot) := by
  refine mkS rfl rfl (e3 := ⟨rfl, rfl, rfl, rfl, rfl⟩) fun hs hv hk hr0 => ?_
  have q : slot ≤ 8 := of_decide_eq_true hv
  have q1 := bt_cd tok
  refine ⟨?_, ?_, by simp [mk]⟩
  · generalize hr : Machine.mk h 435 d fz fz c (mp 36 (bt tok)) (eo slot 3) = r
    have hmd : r.md = bt tok * 19683 := by rw [← hr]; simp only [Machine.mk, accM, mp, eo, pv, hvv, Nat.reduceSub]; try omega
    have himm : r.imm = (slot : Int) - 13 := by rw [← hr]; simp only [Machine.mk, accM, mp, eo, pv, hvv, Nat.reduceSub, cfgImm, cpImm, ringF]; try omega
    have f0 : r.mf 36 1 = bt tok := by simp only [Raw.mf, Raw.mo, offF, fld, Machine.shr, wrap, hmd, pv, hvv, eo, Nat.reduceSub]; try omega
    have f1 : offF r.imm 0 3 = slot := by simp only [offF, fld, Machine.shr, wrap, himm, pv, hvv]; try omega
    have e : readRaw h r = some (.qscale h (r.mb 36) r.d r.c (offF r.imm 0 3)) := by subst hr; rfl
    rw [e]
    simp only [readAcc, readM, Raw.mb, f0, f1, bt_one, Int.toNat_natCast, Option.getD_some, decide_true, decide_false, if_true, if_false, reduceCtorEq, Int.reduceNeg, Int.reduceEq]
    try (subst hr; simp only [Machine.mk])
  · simp only [Machine.mk, accM, mp, eo, pv, hvv, Nat.reduceSub, inRange, Bool.and_eq_true, decide_eq_true_eq]; try omega
theorem fitr (h : Hdr) (clr : Bool) (d slot : Nat) : Statement (.fitr h clr d slot) := by
  refine mkS rfl rfl (e3 := ⟨rfl, rfl, rfl, rfl, rfl⟩) fun hs hv hk hr0 => ?_
  have q : slot ≤ 8 := of_decide_eq_true hv
  have q1 := bt_cd clr
  refine ⟨?_, ?_, by simp [mk]⟩
  · generalize hr : Machine.mk h 436 d fz fz fz (mp 39 (bt clr)) (eo slot 3) = r
    have hmd : r.md = bt clr * 531441 := by rw [← hr]; simp only [Machine.mk, accM, mp, eo, pv, hvv, Nat.reduceSub]; try omega
    have himm : r.imm = (slot : Int) - 13 := by rw [← hr]; simp only [Machine.mk, accM, mp, eo, pv, hvv, Nat.reduceSub, cfgImm, cpImm, ringF]; try omega
    have f0 : r.mf 39 1 = bt clr := by simp only [Raw.mf, Raw.mo, offF, fld, Machine.shr, wrap, hmd, pv, hvv, eo, Nat.reduceSub]; try omega
    have f1 : offF r.imm 0 3 = slot := by simp only [offF, fld, Machine.shr, wrap, himm, pv, hvv]; try omega
    have e : readRaw h r = some (.fitr h (r.mb 39) r.d (offF r.imm 0 3)) := by subst hr; rfl
    rw [e]
    simp only [readAcc, readM, Raw.mb, f0, f1, bt_one, Int.toNat_natCast, Option.getD_some, decide_true, decide_false, if_true, if_false, reduceCtorEq, Int.reduceNeg, Int.reduceEq]
    try (subst hr; simp only [Machine.mk])
  · simp only [Machine.mk, accM, mp, eo, pv, hvv, Nat.reduceSub, inRange, Bool.and_eq_true, decide_eq_true_eq]; try omega
theorem mbudg (h : Hdr) (d : Nat) : Statement (.mbudg h d) := by
  refine mkS rfl rfl (e3 := ⟨rfl, rfl, rfl, rfl, rfl⟩) fun hs hv hk hr0 => ?_
  refine ⟨?_, ?_, by simp [mk]⟩
  · rfl
  · rfl
theorem nibStepStart (c : Nat) : Statement (.nibStepStart c) := fun _ h r _ hr => nomatch (show (none : Option Raw) = some r from hr)
theorem nibStepComplete (c : Nat) : Statement (.nibStepComplete c) := fun _ h r _ hr => nomatch (show (none : Option Raw) = some r from hr)
theorem nibZeroPerform (c : Nat) : Statement (.nibZeroPerform c) := fun _ h r _ hr => nomatch (show (none : Option Raw) = some r from hr)
theorem nibDrainComplete (c : Nat) : Statement (.nibDrainComplete c) := fun _ h r _ hr => nomatch (show (none : Option Raw) = some r from hr)
theorem nibQscaleComplete (c : Nat) : Statement (.nibQscaleComplete c) := fun _ h r _ hr => nomatch (show (none : Option Raw) = some r from hr)
theorem nibCommandComplete (c : Nat) : Statement (.nibCommandComplete c) := fun _ h r _ hr => nomatch (show (none : Option Raw) = some r from hr)
theorem budgetRefill (die : Nat) : Statement (.budgetRefill die) := fun _ h r _ hr => nomatch (show (none : Option Raw) = some r from hr)
theorem cpy (h : Hdr) (o : CpOpt) (d a b : Nat) : Statement (.cpy h o d a b) := by
  refine mkC rfl rfl (e3 := ⟨rfl, rfl, rfl, rfl, rfl⟩) fun hs hv hk hr0 hf => ?_
  have hq : o.qw ≤ 3 ∧ (o.mode ≠ .q → o.qw = 0) := copy_f (by simp only [copyFieldsOk, Bool.and_eq_true] at hf; tauto)
  refine ⟨?_, cpMd_ok o hq.1, by simp [mk]⟩
  generalize hr : mk h 459 d a b fz (cpMd o) (cpImm o) = r
  have e : readRaw h r = some (.cpy h (readCp r) r.d r.a r.b) := by subst hr; rfl
  rw [e, readCp_eq r o hs hq.1 hq.2 (by rw [← hr]; rfl) (by rw [← hr]; rfl), ← hr]; rfl
theorem cpys (h : Hdr) (o : CpOpt) (d a c : Nat) : Statement (.cpys h o d a c) := by
  refine mkC rfl rfl (e3 := ⟨rfl, rfl, rfl, rfl, rfl⟩) fun hs hv hk hr0 hf => ?_
  have hq : o.qw ≤ 3 ∧ (o.mode ≠ .q → o.qw = 0) := copy_f (by simp only [copyFieldsOk, Bool.and_eq_true] at hf; tauto)
  refine ⟨?_, cpMd_ok o hq.1, by simp [mk]⟩
  generalize hr : mk h 460 d a fz c (cpMd o) (cpImm o) = r
  have e : readRaw h r = some (.cpys h (readCp r) r.d r.a r.c) := by subst hr; rfl
  rw [e, readCp_eq r o hs hq.1 hq.2 (by rw [← hr]; rfl) (by rw [← hr]; rfl), ← hr]; rfl
theorem cpyg (h : Hdr) (o : CpOpt) (d a b c : Nat) : Statement (.cpyg h o d a b c) := by
  refine mkC rfl rfl (e3 := ⟨rfl, rfl, rfl, rfl, rfl⟩) fun hs hv hk hr0 hf => ?_
  have hq : o.qw ≤ 3 ∧ (o.mode ≠ .q → o.qw = 0) := copy_f (by simp only [copyFieldsOk, Bool.and_eq_true] at hf; tauto)
  refine ⟨?_, cpMd_ok o hq.1, by simp [mk]⟩
  generalize hr : mk h 461 d a b c (cpMd o) (cpImm o) = r
  have e : readRaw h r = some (.cpyg h (readCp r) r.d r.a r.b r.c) := by subst hr; rfl
  rw [e, readCp_eq r o hs hq.1 hq.2 (by rw [← hr]; rfl) (by rw [← hr]; rfl), ← hr]; rfl
theorem cpyx (h : Hdr) (o : CpOpt) (d a b c : Nat) : Statement (.cpyx h o d a b c) := by
  refine mkC rfl rfl (e3 := ⟨rfl, rfl, rfl, rfl, rfl⟩) fun hs hv hk hr0 hf => ?_
  have hq : o.qw ≤ 3 ∧ (o.mode ≠ .q → o.qw = 0) := copy_f (by simp only [copyFieldsOk, Bool.and_eq_true] at hf; tauto)
  refine ⟨?_, cpMd_ok o hq.1, by simp [mk]⟩
  generalize hr : mk h 462 d a b c (cpMd o) (cpImm o) = r
  have e : readRaw h r = some (.cpyx h (readCp r) r.d r.a r.b r.c) := by subst hr; rfl
  rw [e, readCp_eq r o hs hq.1 hq.2 (by rw [← hr]; rfl) (by rw [← hr]; rfl), ← hr]; rfl
theorem cpyc (h : Hdr) (tok : Bool) (tag : Int) (d a b : Nat) : Statement (.cpyc h tok tag d a b) := by
  refine mkS rfl rfl (e3 := ⟨rfl, rfl, rfl, rfl, rfl⟩) fun hs hv hk hr0 => ?_
  refine ⟨?_, ?_, by simp [mk]⟩
  · cases tok <;> rfl
  · cases tok <;> rfl
theorem cpyv (h : Hdr) (tok : Bool) (tag : Int) (d a b : Nat) : Statement (.cpyv h tok tag d a b) := by
  refine mkS rfl rfl (e3 := ⟨rfl, rfl, rfl, rfl, rfl⟩) fun hs hv hk hr0 => ?_
  refine ⟨?_, ?_, by simp [mk]⟩
  · cases tok <;> rfl
  · cases tok <;> rfl
theorem copyElementTransfer (c i : Nat) : Statement (.copyElementTransfer c i) := fun _ h r _ hr => nomatch (show (none : Option Raw) = some r from hr)
theorem scaleQueueMatch (c i : Nat) : Statement (.scaleQueueMatch c i) := fun _ h r _ hr => nomatch (show (none : Option Raw) = some r from hr)
theorem copyStop (c i : Nat) : Statement (.copyStop c i) := fun _ h r _ hr => nomatch (show (none : Option Raw) = some r from hr)
theorem copyComplete (c i : Nat) : Statement (.copyComplete c i) := fun _ h r _ hr => nomatch (show (none : Option Raw) = some r from hr)
theorem scrb (h : Hdr) (a b len g : Nat) (imm : Int) : Statement (.scrb h a b len g imm) := by
  refine mkS rfl rfl (e3 := ⟨rfl, rfl, rfl, rfl, rfl⟩) fun hs hv hk hr0 => ?_
  have q1 : 1 ≤ len := of_decide_eq_true (Bool.and_eq_true_iff.1 (Bool.and_eq_true_iff.1 (Bool.and_eq_true_iff.1 hv).1).1).1
  have q2 : len ≤ 243 := of_decide_eq_true (Bool.and_eq_true_iff.1 (Bool.and_eq_true_iff.1 (Bool.and_eq_true_iff.1 hv).1).1).2
  have q3 : 1 ≤ g := of_decide_eq_true (Bool.and_eq_true_iff.1 (Bool.and_eq_true_iff.1 hv).1).2
  have q4 : g ≤ 9 := of_decide_eq_true (Bool.and_eq_true_iff.1 hv).2
  refine ⟨?_, ?_, by simp [mk]⟩
  · generalize hr : Machine.mk h 465 fz a b fz (mp 33 (eo (len - 1) 5) + mp 31 (eo (g - 1) 2)) (imm) = r
    have hmd : r.md = (((len - 1 : Nat) : Int) - 121) * 729 + (((g - 1 : Nat) : Int) - 4) * 81 := by rw [← hr]; simp only [Machine.mk, accM, mp, eo, pv, hvv, Nat.reduceSub]; try omega
    have f0 : r.mo 33 5 = (len - 1) := by simp only [Raw.mf, Raw.mo, offF, fld, Machine.shr, wrap, hmd, pv, hvv, eo, Nat.reduceSub]; try omega
    have f1 : r.mo 31 2 = (g - 1) := by simp only [Raw.mf, Raw.mo, offF, fld, Machine.shr, wrap, hmd, pv, hvv, eo, Nat.reduceSub]; try omega
    have e : readRaw h r = some (.scrb h r.a r.b (r.mo 33 5 + 1) (r.mo 31 2 + 1) r.imm) := by subst hr; rfl
    rw [e]
    simp only [readAcc, readM, Raw.mb, f0, f1, bt_one, Int.toNat_natCast, Option.getD_some, decide_true, decide_false, if_true, if_false, reduceCtorEq, Int.reduceNeg, Int.reduceEq]
    subst hr; simp only [Machine.mk]; congr 3 <;> omega
  · simp only [Machine.mk, accM, mp, eo, pv, hvv, Nat.reduceSub, inRange, Bool.and_eq_true, decide_eq_true_eq]; try omega
theorem scrh (h : Hdr) (d : Nat) : Statement (.scrh h d) := by
  refine mkS rfl rfl (e3 := ⟨rfl, rfl, rfl, rfl, rfl⟩) fun hs hv hk hr0 => ?_
  refine ⟨?_, ?_, by simp [mk]⟩
  · rfl
  · rfl
theorem scrhStop (h : Hdr) (d : Nat) : Statement (.scrhStop h d) := by
  refine mkS rfl rfl (e3 := ⟨rfl, rfl, rfl, rfl, rfl⟩) fun hs hv hk hr0 => ?_
  refine ⟨?_, ?_, by simp [mk]⟩
  · rfl
  · rfl
theorem sloop (h : Hdr) (a : Nat) (k : Int) (len : Nat) : Statement (.sloop h a k len) := by
  refine mkS rfl rfl (e3 := ⟨rfl, rfl, rfl, rfl, rfl⟩) fun hs hv hk hr0 => ?_
  have q0 := hs
  simp only [subOk, inRange, hvv, Bool.and_eq_true, decide_eq_true_eq] at q0
  have q1 : 1 ≤ len := of_decide_eq_true (Bool.and_eq_true_iff.1 hv).1
  have q2 : len ≤ 242 := of_decide_eq_true (Bool.and_eq_true_iff.1 hv).2
  refine ⟨?_, ?_, by simp [mk]⟩
  · generalize hr : Machine.mk h 467 fz a fz fz (0) ((len : Int) + k * pow3 9) = r
    have hmd : r.md = 0 := by rw [← hr]; simp only [Machine.mk, accM, mp, eo, pv, hvv, Nat.reduceSub]; try omega
    have himm : r.imm = k * 19683 + (len : Int) := by rw [← hr]; simp only [Machine.mk, accM, mp, eo, pv, hvv, Nat.reduceSub, cfgImm, cpImm, ringF]; try omega
    have f0 : fld r.imm 9 18 = k := by simp only [offF, fld, Machine.shr, wrap, himm, pv, hvv]; try omega
    have f1 : fld r.imm 0 9 = (len : Int) := by simp only [offF, fld, Machine.shr, wrap, himm, pv, hvv]; try omega
    have e : readRaw h r = some (.sloop h r.a (fld r.imm 9 18) (fld r.imm 0 9).toNat) := by subst hr; rfl
    rw [e]
    simp only [readAcc, readM, Raw.mb, f0, f1, bt_one, Int.toNat_natCast, Option.getD_some, decide_true, decide_false, if_true, if_false, reduceCtorEq, Int.reduceNeg, Int.reduceEq]
    try (subst hr; simp only [Machine.mk])
  · simp only [Machine.mk, accM, mp, eo, pv, hvv, Nat.reduceSub, inRange, Bool.and_eq_true, decide_eq_true_eq]; try omega
theorem scribeProgramEnd (c : Nat) : Statement (.scribeProgramEnd c) := fun _ h r _ hr => nomatch (show (none : Option Raw) = some r from hr)
theorem decode (ctx bid : Nat) : Statement (.decode ctx bid) := fun _ h r _ hr => nomatch (show (none : Option Raw) = some r from hr)
theorem decodeFlush (ctx bid : Nat) : Statement (.decodeFlush ctx bid) := fun _ h r _ hr => nomatch (show (none : Option Raw) = some r from hr)
theorem decodeReset (ctx bid : Nat) : Statement (.decodeReset ctx bid) := fun _ h r _ hr => nomatch (show (none : Option Raw) = some r from hr)
theorem decodeFrameOutput (ctx bid : Nat) : Statement (.decodeFrameOutput ctx bid) := fun _ h r _ hr => nomatch (show (none : Option Raw) = some r from hr)
theorem phase (h : Hdr) : Statement (.phase h) := by
  refine mkS rfl rfl (e3 := ⟨rfl, rfl, rfl, rfl, rfl⟩) fun hs hv hk hr0 => ?_
  refine ⟨?_, ?_, by simp [mk]⟩
  · rfl
  · rfl
theorem phaseEnd (ctx : Nat) : Statement (.phaseEnd ctx) := fun _ h r _ hr => nomatch (show (none : Option Raw) = some r from hr)
theorem csrr (h : Hdr) (d n : Nat) : Statement (.csrr h d n) := by
  refine mkS rfl rfl (e3 := ⟨rfl, rfl, rfl, rfl, rfl⟩) fun hs hv hk hr0 => ?_
  refine ⟨?_, ?_, by simp [mk]⟩
  · rfl
  · rfl
theorem csrw (h : Hdr) (a n : Nat) : Statement (.csrw h a n) := by
  refine mkS rfl rfl (e3 := ⟨rfl, rfl, rfl, rfl, rfl⟩) fun hs hv hk hr0 => ?_
  refine ⟨?_, ?_, by simp [mk]⟩
  · rfl
  · rfl
theorem tret (h : Hdr) : Statement (.tret h) := by
  refine mkS rfl rfl (e3 := ⟨rfl, rfl, rfl, rfl, rfl⟩) fun hs hv hk hr0 => ?_
  refine ⟨?_, ?_, by simp [mk]⟩
  · rfl
  · rfl
theorem clrc (h : Hdr) (mask : Int) : Statement (.clrc h mask) := by
  refine mkS rfl rfl (e3 := ⟨rfl, rfl, rfl, rfl, rfl⟩) fun hs hv hk hr0 => ?_
  refine ⟨?_, ?_, by simp [mk]⟩
  · rfl
  · rfl
theorem launch (h : Hdr) (d a : Nat) : Statement (.launch h d a) := by
  refine mkS rfl rfl (e3 := ⟨rfl, rfl, rfl, rfl, rfl⟩) fun hs hv hk hr0 => ?_
  refine ⟨?_, ?_, by simp [mk]⟩
  · rfl
  · rfl
theorem launchRes (h : Hdr) (d a b : Nat) : Statement (.launchRes h d a b) := by
  refine mkS rfl rfl (e3 := ⟨rfl, rfl, rfl, rfl, rfl⟩) fun hs hv hk hr0 => ?_
  refine ⟨?_, ?_, by simp [mk]⟩
  · rfl
  · rfl
theorem kill (h : Hdr) (a : Nat) : Statement (.kill h a) := by
  refine mkS rfl rfl (e3 := ⟨rfl, rfl, rfl, rfl, rfl⟩) fun hs hv hk hr0 => ?_
  refine ⟨?_, ?_, by simp [mk]⟩
  · rfl
  · rfl
theorem killComplete (ctx : Nat) : Statement (.killComplete ctx) := fun _ h r _ hr => nomatch (show (none : Option Raw) = some r from hr)
theorem preempt (h : Hdr) (a : Nat) : Statement (.preempt h a) := by
  refine mkS rfl rfl (e3 := ⟨rfl, rfl, rfl, rfl, rfl⟩) fun hs hv hk hr0 => ?_
  refine ⟨?_, ?_, by simp [mk]⟩
  · rfl
  · rfl
theorem preemptBlk (h : Hdr) (a b : Nat) : Statement (.preemptBlk h a b) := by
  refine mkS rfl rfl (e3 := ⟨rfl, rfl, rfl, rfl, rfl⟩) fun hs hv hk hr0 => ?_
  refine ⟨?_, ?_, by simp [mk]⟩
  · rfl
  · rfl
theorem saveComplete (ctx bid : Nat) : Statement (.saveComplete ctx bid) := fun _ h r _ hr => nomatch (show (none : Option Raw) = some r from hr)
theorem replay (h : Hdr) (d a b : Nat) : Statement (.replay h d a b) := by
  refine mkS rfl rfl (e3 := ⟨rfl, rfl, rfl, rfl, rfl⟩) fun hs hv hk hr0 => ?_
  refine ⟨?_, ?_, by simp [mk]⟩
  · rfl
  · rfl
theorem deny (h : Hdr) (a b : Nat) : Statement (.deny h a b) := by
  refine mkS rfl rfl (e3 := ⟨rfl, rfl, rfl, rfl, rfl⟩) fun hs hv hk hr0 => ?_
  refine ⟨?_, ?_, by simp [mk]⟩
  · rfl
  · rfl
theorem tlbi (h : Hdr) (a b : Nat) : Statement (.tlbi h a b) := by
  refine mkS rfl rfl (e3 := ⟨rfl, rfl, rfl, rfl, rfl⟩) fun hs hv hk hr0 => ?_
  refine ⟨?_, ?_, by simp [mk]⟩
  · rfl
  · rfl
theorem tlbiCtx (h : Hdr) (a b : Nat) : Statement (.tlbiCtx h a b) := by
  refine mkS rfl rfl (e3 := ⟨rfl, rfl, rfl, rfl, rfl⟩) fun hs hv hk hr0 => ?_
  refine ⟨?_, ?_, by simp [mk]⟩
  · rfl
  · rfl
theorem tlbiDie (h : Hdr) (b : Nat) : Statement (.tlbiDie h b) := by
  refine mkS rfl rfl (e3 := ⟨rfl, rfl, rfl, rfl, rfl⟩) fun hs hv hk hr0 => ?_
  refine ⟨?_, ?_, by simp [mk]⟩
  · rfl
  · rfl
theorem halt (h : Hdr) : Statement (.halt h) := by
  refine mkS rfl rfl (e3 := ⟨rfl, rfl, rfl, rfl, rfl⟩) fun hs hv hk hr0 => ?_
  refine ⟨?_, ?_, by simp [mk]⟩
  · rfl
  · rfl
theorem trapEntry (w : Nat) : Statement (.trapEntry w) := fun _ h r _ hr => nomatch (show (none : Option Raw) = some r from hr)
theorem doubleTrap (w : Nat) : Statement (.doubleTrap w) := fun _ h r _ hr => nomatch (show (none : Option Raw) = some r from hr)
theorem unhandledTrap (w : Nat) : Statement (.unhandledTrap w) := fun _ h r _ hr => nomatch (show (none : Option Raw) = some r from hr)
theorem deferredCause (t : Nat) : Statement (.deferredCause t) := fun _ h r _ hr => nomatch (show (none : Option Raw) = some r from hr)
theorem hang (ctx : Nat) : Statement (.hang ctx) := fun _ h r _ hr => nomatch (show (none : Option Raw) = some r from hr)
theorem loadReply (id : Nat) : Statement (.loadReply id) := fun _ h r _ hr => nomatch (show (none : Option Raw) = some r from hr)
theorem writeCompletion (id : Nat) : Statement (.writeCompletion id) := fun _ h r _ hr => nomatch (show (none : Option Raw) = some r from hr)
theorem homeRequest (id : Nat) : Statement (.homeRequest id) := fun _ h r _ hr => nomatch (show (none : Option Raw) = some r from hr)
theorem sectorFill (id : Nat) : Statement (.sectorFill id) := fun _ h r _ hr => nomatch (show (none : Option Raw) = some r from hr)
theorem l1Fill (id : Nat) : Statement (.l1Fill id) := fun _ h r _ hr => nomatch (show (none : Option Raw) = some r from hr)
theorem leaseEnd (c : Nat) (line : Int) : Statement (.leaseEnd c line) := fun _ h r _ hr => nomatch (show (none : Option Raw) = some r from hr)
theorem l1Eviction (c : Nat) (line : Int) : Statement (.l1Eviction c line) := fun _ h r _ hr => nomatch (show (none : Option Raw) = some r from hr)
theorem l2Eviction (sec : Nat) : Statement (.l2Eviction sec) := fun _ h r _ hr => nomatch (show (none : Option Raw) = some r from hr)
theorem stvaArrival (id : Nat) : Statement (.stvaArrival id) := fun _ h r _ hr => nomatch (show (none : Option Raw) = some r from hr)
theorem stvaPerform (id : Nat) : Statement (.stvaPerform id) := fun _ h r _ hr => nomatch (show (none : Option Raw) = some r from hr)
theorem atomoArrival (id : Nat) : Statement (.atomoArrival id) := fun _ h r _ hr => nomatch (show (none : Option Raw) = some r from hr)
theorem atomoResend (id : Nat) : Statement (.atomoResend id) := fun _ h r _ hr => nomatch (show (none : Option Raw) = some r from hr)
theorem blockEnd (ctx bid : Nat) : Statement (.blockEnd ctx bid) := fun _ h r _ hr => nomatch (show (none : Option Raw) = some r from hr)
theorem vellumWindowEnd (id : Nat) : Statement (.vellumWindowEnd id) := fun _ h r _ hr => nomatch (show (none : Option Raw) = some r from hr)
theorem vwinAdvance (die : Nat) : Statement (.vwinAdvance die) := fun _ h r _ hr => nomatch (show (none : Option Raw) = some r from hr)
theorem pageFault (id : Nat) : Statement (.pageFault id) := fun _ h r _ hr => nomatch (show (none : Option Raw) = some r from hr)
theorem faultRecordPush (die : Nat) : Statement (.faultRecordPush die) := fun _ h r _ hr => nomatch (show (none : Option Raw) = some r from hr)
theorem deferredWriteBackFault (id : Nat) : Statement (.deferredWriteBackFault id) := fun _ h r _ hr => nomatch (show (none : Option Raw) = some r from hr)
theorem blockEligible (ctx bid : Nat) : Statement (.blockEligible ctx bid) := fun _ h r _ hr => nomatch (show (none : Option Raw) = some r from hr)
theorem placement (die : Nat) : Statement (.placement die) := fun _ h r _ hr => nomatch (show (none : Option Raw) = some r from hr)
theorem blockStart (ctx bid : Nat) : Statement (.blockStart ctx bid) := fun _ h r _ hr => nomatch (show (none : Option Raw) = some r from hr)
theorem contextCompletion (ctx : Nat) : Statement (.contextCompletion ctx) := fun _ h r _ hr => nomatch (show (none : Option Raw) = some r from hr)
theorem hostWrite (req : Nat) : Statement (.hostWrite req) := fun _ h r _ hr => nomatch (show (none : Option Raw) = some r from hr)
theorem powerUp : Statement (.powerUp) := fun _ h r _ hr => nomatch (show (none : Option Raw) = some r from hr)
theorem getVersion : Statement (.getVersion) := fun _ h r _ hr => nomatch (show (none : Option Raw) = some r from hr)
theorem getCapabilities : Statement (.getCapabilities) := fun _ h r _ hr => nomatch (show (none : Option Raw) = some r from hr)
theorem getDigests : Statement (.getDigests) := fun _ h r _ hr => nomatch (show (none : Option Raw) = some r from hr)
theorem holdoverEntry : Statement (.holdoverEntry) := fun _ h r _ hr => nomatch (show (none : Option Raw) = some r from hr)
theorem holdoverExit : Statement (.holdoverExit) := fun _ h r _ hr => nomatch (show (none : Option Raw) = some r from hr)
theorem hairlineArrival (id : Nat) : Statement (.hairlineArrival id) := fun _ h r _ hr => nomatch (show (none : Option Raw) = some r from hr)
theorem hairlineUndeliverable (id : Nat) : Statement (.hairlineUndeliverable id) := fun _ h r _ hr => nomatch (show (none : Option Raw) = some r from hr)
theorem ownerAnswer (id : Nat) : Statement (.ownerAnswer id) := fun _ h r _ hr => nomatch (show (none : Option Raw) = some r from hr)
theorem syncInterval : Statement (.syncInterval) := fun _ h r _ hr => nomatch (show (none : Option Raw) = some r from hr)
theorem inbox (req part addr : Nat) (bytes : List (BitVec 8)) : Statement (.inbox req part addr bytes) := fun _ h r _ hr => nomatch (show (none : Option Raw) = some r from hr)
theorem sectorApertureRead (req part off n : Nat) : Statement (.sectorApertureRead req part off n) := fun _ h r _ hr => nomatch (show (none : Option Raw) = some r from hr)
theorem sectorApertureWrite (req part off : Nat) (bytes : List (BitVec 8)) : Statement (.sectorApertureWrite req part off bytes) := fun _ h r _ hr => nomatch (show (none : Option Raw) = some r from hr)
theorem windowApertureRead (req part off n : Nat) : Statement (.windowApertureRead req part off n) := fun _ h r _ hr => nomatch (show (none : Option Raw) = some r from hr)
theorem windowApertureWrite (req part off : Nat) (bytes : List (BitVec 8)) : Statement (.windowApertureWrite req part off bytes) := fun _ h r _ hr => nomatch (show (none : Option Raw) = some r from hr)
theorem flush (part : Nat) : Statement (.flush part) := fun _ h r _ hr => nomatch (show (none : Option Raw) = some r from hr)
theorem claim (master : Nat) (value : Nat) : Statement (.claim master value) := fun _ h r _ hr => nomatch (show (none : Option Raw) = some r from hr)
theorem partctlApply (master : Nat) : Statement (.partctlApply master) := fun _ h r _ hr => nomatch (show (none : Option Raw) = some r from hr)
theorem mgmtRegisterWrite (master addr value : Nat) : Statement (.mgmtRegisterWrite master addr value) := fun _ h r _ hr => nomatch (show (none : Option Raw) = some r from hr)
theorem functionLevelReset (fn : Nat) : Statement (.functionLevelReset fn) := fun _ h r _ hr => nomatch (show (none : Option Raw) = some r from hr)
theorem fwgo (master : Nat) : Statement (.fwgo master) := fun _ h r _ hr => nomatch (show (none : Option Raw) = some r from hr)
theorem bringUpComplete (ok : Bool) : Statement (.bringUpComplete ok) := fun _ h r _ hr => nomatch (show (none : Option Raw) = some r from hr)
theorem getCertificate (slot off len : Nat) : Statement (.getCertificate slot off len) := fun _ h r _ hr => nomatch (show (none : Option Raw) = some r from hr)
theorem challenge (slot nonce : Nat) : Statement (.challenge slot nonce) := fun _ h r _ hr => nomatch (show (none : Option Raw) = some r from hr)
theorem getMeasurements (idx nonce : Nat) : Statement (.getMeasurements idx nonce) := fun _ h r _ hr => nomatch (show (none : Option Raw) = some r from hr)
theorem spdmUnsupportedRequest (code : Nat) : Statement (.spdmUnsupportedRequest code) := fun _ h r _ hr => nomatch (show (none : Option Raw) = some r from hr)
theorem negotiateAlgorithms (alg : SpdmAlg) : Statement (.negotiateAlgorithms alg) := fun _ h r _ hr => nomatch (show (none : Option Raw) = some r from hr)
theorem powerWindow (watts temp : Nat) : Statement (.powerWindow watts temp) := fun _ h r _ hr => nomatch (show (none : Option Raw) = some r from hr)
theorem thermalShutdown (temp : Nat) : Statement (.thermalShutdown temp) := fun _ h r _ hr => nomatch (show (none : Option Raw) = some r from hr)
theorem sync (offset : Int) (accepted : Bool) : Statement (.sync offset accepted) := fun _ h r _ hr => nomatch (show (none : Option Raw) = some r from hr)
theorem softError (store key : Nat) (fatal : Bool) : Statement (.softError store key fatal) := fun _ h r _ hr => nomatch (show (none : Option Raw) = some r from hr)
theorem atsTranslationCompletion (id : Nat) (spa : Option Nat) : Statement (.atsTranslationCompletion id spa) := fun _ h r _ hr => nomatch (show (none : Option Raw) = some r from hr)
theorem hairlinePortTraining (port : Nat) (ok : Bool) : Statement (.hairlinePortTraining port ok) := fun _ h r _ hr => nomatch (show (none : Option Raw) = some r from hr)
theorem pdelay (port : Nat) (delay : Option Int) : Statement (.pdelay port delay) := fun _ h r _ hr => nomatch (show (none : Option Raw) = some r from hr)
theorem firmwareWindowWrite (master off : Nat) (bytes : List (BitVec 8)) : Statement (.firmwareWindowWrite master off bytes) := fun _ h r _ hr => nomatch (show (none : Option Raw) = some r from hr)
theorem priResponse (grp : Nat) (ok : Bool) : Statement (.priResponse grp ok) := fun _ h r _ hr => nomatch (show (none : Option Raw) = some r from hr)
theorem atsInvalidation (pasid page : Nat) : Statement (.atsInvalidation pasid page) := fun _ h r _ hr => nomatch (show (none : Option Raw) = some r from hr)

end Sys2Proof.Laws.ReadBack
end

