-- ==== Sys2Proof/Laws/PerLane.lean ====
section
/-! SUPPORT. Units that act lane by lane: everything `perLane` can do when nothing interrupts it. -/

namespace Sys2Proof.Machine

/-- What some results of a warp's lanes do to the state beside its threads, which become `th`. -/
structure Eff (s b : State) (w : Nat) (th : Nat → Thread) (ws : List Wr) (os : List Owed) (n : Int) : Prop where
  thread : ∀ k, b.thread k = th k
  ports : ∀ c q, b.port c q = if c = coreOf w ∧ q ≠ 14 then s.port c q ++ pushedTo q ws else s.port c q
  session : ∀ c j, Tab.get {} (b.ctx c).sess j = if c = (s.warp w).ctx ∧ j = (s.warp w).bid then
      { Tab.get {} (s.ctx c).sess j with cmds := (Tab.get {} (s.ctx c).sess j).cmds ++ pushedTo 14 ws }
    else Tab.get {} (s.ctx c).sess j
  counts : ∀ c k, Tab.get 0 (b.ctx c).counters k =
    if c = (s.warp w).ctx ∧ k = dieIdx (coreOf w) * 16 + 1 ∧ n ≠ 0 then min (Tab.get 0 (s.ctx c).counters k + n) (half 27)
    else Tab.get 0 (s.ctx c).counters k
  ctxs : ∀ c, b.ctx c = { s.ctx c with sess := (b.ctx c).sess, counters := (b.ctx c).counters }
  cores : ∀ c, b.core c = { s.core c with ports := (b.core c).ports }
  warps : ∀ v, b.warp v = if v = w then { s.warp v with owed := (s.warp v).owed ++ os } else s.warp v
  rest : b = { s with thr := b.thr, wrp := b.wrp, cor := b.cor, ctxs := b.ctxs }

theorem pushedTo_append (q : Nat) (a b : List Wr) : pushedTo q (a ++ b) = pushedTo q a ++ pushedTo q b := List.flatMap_append ..
theorem owedBy_append (t : Nat) (a b : List Wr) : owedBy t (a ++ b) = owedBy t a ++ owedBy t b := List.flatMap_append ..
@[simp] theorem pushedTo_nil (q : Nat) : pushedTo q [] = [] := rfl
@[simp] theorem owedBy_nil (q : Nat) : owedBy q [] = [] := rfl

theorem Eff.refl (s : State) (w : Nat) : Eff s s w s.thread [] [] 0 :=
  ⟨fun _ => rfl, fun c q => by simp, fun c j => by split <;> simp, fun c k => by simp, fun _ => rfl, fun _ => rfl,
   fun v => by split <;> simp, rfl⟩

theorem Eff.trans {s b c : State} {w : Nat} {th th' : Nat → Thread} {ws ws' : List Wr} {os os' : List Owed} {n n' : Int}
    (h : Eff s b w th ws os n) (g : Eff b c w th' ws' os' n') (hn : 0 ≤ n) (hn' : 0 ≤ n') :
    Eff s c w th' (ws ++ ws') (os ++ os') (n + n') := by
  have hw : (b.warp w).ctx = (s.warp w).ctx ∧ (b.warp w).bid = (s.warp w).bid := by rw [h.warps, if_pos rfl]; exact ⟨rfl, rfl⟩
  refine ⟨g.thread, fun x q => ?_, fun x j => ?_, fun x k => ?_, fun x => ?_, fun x => ?_, fun v => ?_, ?_⟩
  · rw [g.ports, h.ports]; split <;> simp [pushedTo_append]
  · rw [g.session, h.session, hw.1, hw.2]; split <;> simp [pushedTo_append]
  · rw [g.counts, h.counts, hw.1]
    by_cases h1 : x = (s.warp w).ctx ∧ k = dieIdx (coreOf w) * 16 + 1
    · obtain ⟨rfl, rfl⟩ := h1
      by_cases a : n = 0 <;> by_cases b : n' = 0
      · simp [a, b]
      · simp [a, b]
      · simp [a, b]
      · have : n + n' ≠ 0 := by omega
        simp only [ne_eq, a, not_false_eq_true, and_self, if_true, b, this]; omega
    · have h2 : ∀ p : Prop, ¬(x = (s.warp w).ctx ∧ k = dieIdx (coreOf w) * 16 + 1 ∧ p) := fun p hp => h1 ⟨hp.1, hp.2.1⟩
      rw [if_neg (h2 _), if_neg (h2 _), if_neg (h2 _)]
  · rw [g.ctxs, h.ctxs]
  · rw [g.cores, h.cores]
  · rw [g.warps, h.warps]; split <;> simp
  · rw [g.rest, h.rest]

/-- A change of one thread alone. -/
theorem Eff.setThread (s : State) (w t : Nat) (x : Thread) : Eff s (s.setThread t x) w (fun k => if k = t then x else s.thread k) [] [] 0 :=
  ⟨fun k => State.thread_setThread .., fun c q => by simp [State.port], fun c j => by split <;> simp_all, fun c k => by simp,
   fun _ => rfl, fun _ => rfl, fun v => by split <;> simp_all, rfl⟩

theorem Eff.count (s : State) (w : Nat) (n : Int) (hn : n ≠ 0) :
    Eff s (s.count (s.warp w).ctx (dieIdx (coreOf w)) 37 n) w s.thread [] [] n := by
  refine ⟨fun k => rfl, fun c q => by split <;> simp [State.port, State.count], fun c j => ?_, fun c k => ?_, fun c => ?_, fun c => rfl,
    fun v => by split <;> simp_all [State.count], rfl⟩
  · simp only [State.count, State.ctx_setCtx, pushedTo_nil, List.append_nil]; split <;> simp_all
  · simp only [State.count, State.ctx_setCtx]
    by_cases h : c = (s.warp w).ctx
    · subst h; simp [Tab.get_set, hn]; split <;> simp_all
    · simp [h]
  · simp only [State.count, State.ctx_setCtx]; split <;> simp_all

/-- One result of a lane. -/
theorem Eff.applyWr (s : State) (t : Nat) (x : Wr) (hw : widOf (warpOf t) ≠ 27) (hs : (s.thread t).st ≠ .stopped) :
    Eff s (s.applyWr t x) (warpOf t) (fun k => if k = t then (s.thread t).wrote x else s.thread k) [x] (owedBy t [x]) 0 := by
  have same : ∀ y, Eff s (s.setThread t y) (warpOf t) (fun k => if k = t then y else s.thread k) [] [] 0 := Eff.setThread s _ t
  have setReg : ∀ (a : State) r v, a.setReg t r v = if r < 216 then a.setThread t ((a.thread t).putReg r v) else a := fun a r v => by
    unfold State.setReg Thread.putReg; split <;> rfl
  have lift : ∀ {b th}, Eff s b (warpOf t) th [] [] 0 → (∀ q, pushedTo q [x] = []) → owedBy t [x] = [] →
      Eff s b (warpOf t) th [x] (owedBy t [x]) 0 := fun h hp ho => by
    refine ⟨h.thread, fun c q => by rw [h.ports, hp, pushedTo_nil], fun c j => by rw [h.session, hp, pushedTo_nil], h.counts, h.ctxs,
      h.cores, by rw [ho]; exact h.warps, h.rest⟩
  have keep : Eff s s (warpOf t) (fun k => if k = t then s.thread t else s.thread k) [] [] 0 := by
    have e : (fun k => if k = t then s.thread t else s.thread k) = s.thread := by funext k; split <;> simp_all
    rw [e]; exact Eff.refl s _
  cases x with
  | reg r v =>
    refine lift ?_ (fun _ => rfl) rfl
    simp only [State.applyWr, setReg, Thread.wrote]
    split
    · exact same _
    · rename_i h; simp only [Thread.putReg, h, if_false]; exact keep
  | pair r v =>
    refine lift ?_ (fun _ => rfl) rfl
    simp only [State.applyWr, State.setPair, Thread.wrote]
    split
    · rename_i h
      simp only [setReg, h, if_true, State.thread_setThread_self]
      split
      · have h2 := (same ((s.thread t).putReg r (loW v))).trans (Eff.setThread (s.setThread t ((s.thread t).putReg r (loW v))) _ t
          (((s.thread t).putReg r (loW v)).putReg (r + 1) (hiW v))) (by simp) (by simp)
        refine ⟨fun k => ?_, h2.ports, h2.session, h2.counts, h2.ctxs, h2.cores, h2.warps, h2.rest⟩
        rw [h2.thread]; simp only [State.thread_setThread]; split <;> simp_all
      · rename_i h2
        simp only [Thread.putReg, h, h2, if_true, if_false]
        have := same ((s.thread t).putReg r (loW v))
        simpa [Thread.putReg, h] using this
    · exact keep
  | pred f v => exact lift (same _) (fun _ => rfl) rfl
  | mr v => exact lift (same _) (fun _ => rfl) rfl
  | jump pc =>
    refine lift ?_ (fun _ => rfl) rfl
    simp only [State.applyWr, State.retire_eq s t pc hw hs, Thread.wrote]
    exact same _
  | push r v =>
    simp only [State.applyWr, State.portPush]
    split
    · rename_i h14
      refine ⟨fun k => by simp only [Thread.wrote]; split <;> simp_all, fun c q => ?_, fun c j => ?_, fun c k => ?_, fun c => ?_,
        fun c => rfl, fun v => by split <;> simp_all [owedBy], rfl⟩
      · simp only [State.port, State.core_setCtx, pushedTo, List.flatMap_cons, List.flatMap_nil, List.append_nil, h14]
        split
        · rename_i hc; simp [Ne.symm hc.2]
        · rfl
      · simp only [State.ctx_setCtx, pushedTo, List.flatMap_cons, List.flatMap_nil, List.append_nil, h14, if_true]
        by_cases h : c = (s.warp (warpOf t)).ctx
        · subst h; simp only [if_true, Tab.get_put, true_and]; split <;> simp_all
        · simp [h]
      · simp only [State.ctx_setCtx]; split <;> simp_all
      · simp only [State.ctx_setCtx]; split <;> simp_all
    · rename_i h14
      refine ⟨fun k => by simp only [Thread.wrote, State.setPort]; split <;> simp_all, fun c q => ?_, fun c j => ?_, fun c k => by simp [State.setPort],
        fun c => rfl, fun c => ?_, fun v => by split <;> simp_all [owedBy, State.setPort], rfl⟩
      · simp only [State.port, State.setPort, State.core_setCore, pushedTo, List.flatMap_cons, List.flatMap_nil, List.append_nil]
        by_cases hc : c = coreOf (warpOf t)
        · subst hc
          simp only [if_true, Tab.get_set, true_and]
          by_cases hq : q = r - 216
          · simp only [hq, if_true, ne_eq, h14, not_false_eq_true]
          · simp only [hq, Ne.symm hq, if_false, List.append_nil, ite_self]
        · simp [hc]
      · simp only [State.setPort, State.ctx_setCore, pushedTo, List.flatMap_cons, List.flatMap_nil, List.append_nil, h14, if_false]
        split <;> simp_all
      · simp only [State.setPort, State.core_setCore]; split <;> simp_all
  | owe r v =>
    refine ⟨fun k => by simp only [Thread.wrote, State.applyWr]; split <;> simp_all, fun c q => by split <;> simp [State.port, State.applyWr, pushedTo],
      fun c j => by simp only [pushedTo, State.applyWr]; split <;> simp_all, fun c k => by simp [State.applyWr], fun c => rfl, fun c => rfl, fun v' => ?_, rfl⟩
    simp only [State.applyWr, State.warp_setWarp, owedBy, List.flatMap_cons, List.flatMap_nil, List.append_nil]
    split <;> simp_all

theorem Thread.wrote_live (x : Thread) (y : Wr) (h : x.st = .runnable) : (x.wrote y).st = .runnable := by
  cases y <;> simp only [Thread.wrote, Thread.putReg, Thread.retired] <;> (repeat' split) <;> first | rfl | exact h
theorem Thread.wrote_fold_live (x : Thread) (ws : List Wr) (h : x.st = .runnable) : (ws.foldl Thread.wrote x).st = .runnable := by
  induction ws generalizing x with
  | nil => exact h
  | cons y ws ih => exact ih _ (Thread.wrote_live x y h)

/-- All results of a lane that stands RUNNABLE. -/
theorem Eff.applyAll (s : State) (t : Nat) (ws : List Wr) (hw : widOf (warpOf t) ≠ 27) (hs : (s.thread t).st = .runnable) :
    Eff s (ws.foldl (fun a x => a.applyWr t x) s) (warpOf t) (fun k => if k = t then ws.foldl Thread.wrote (s.thread t) else s.thread k)
      ws (owedBy t ws) 0 := by
  induction ws generalizing s with
  | nil =>
    have e : (fun k => if k = t then s.thread t else s.thread k) = s.thread := by funext k; split <;> simp_all
    simp only [List.foldl_nil, e]; exact Eff.refl s _
  | cons x ws ih =>
    have h1 := Eff.applyWr s t x hw (by rw [hs]; decide)
    have e : (s.applyWr t x).thread t = (s.thread t).wrote x := by rw [h1.thread, if_pos rfl]
    have h2 := ih (s.applyWr t x) (by rw [e]; exact Thread.wrote_live _ _ hs)
    have h := h1.trans h2 (by simp) (by simp)
    refine ⟨fun k => ?_, h.ports, h.session, h.counts, h.ctxs, h.cores, ?_, h.rest⟩
    · rw [List.foldl_cons, h.thread, e]; split
      · rfl
      · rename_i hk; rw [h1.thread, if_neg hk]
    · rw [show x :: ws = [x] ++ ws from rfl, owedBy_append]; exact h.warps

/-- A lane's outcome without a cause. -/
theorem Eff.applyOut (s : State) (t : Nat) (o : Out) (hf : o.fault = none) (hw : widOf (warpOf t) ≠ 27)
    (hs : (s.thread t).st ≠ .stopped) (hn : 0 ≤ o.sat) :
    Eff s (s.applyOut t o) (warpOf t) (fun k => if k = t then o.wr.foldl Thread.wrote ((s.thread t).retired s.cur.next) else s.thread k)
      o.wr (owedBy t o.wr) o.sat := by
  have h0 : ∃ a, Eff s a (warpOf t) s.thread [] [] o.sat ∧ a.cur = s.cur ∧
      s.applyOut t o = o.wr.foldl (fun a x => a.applyWr t x) (a.retire t s.cur.next) := by
    by_cases h : o.sat = 0
    · refine ⟨s, by rw [h]; exact Eff.refl s _, rfl, ?_⟩
      simp only [State.applyOut, h, if_true, hf]
    · refine ⟨_, Eff.count s (warpOf t) o.sat h, rfl, ?_⟩
      simp only [State.applyOut, h, if_false, hf]
  obtain ⟨a, ha, hc, e⟩ := h0
  have hst : (a.thread t).st ≠ .stopped := by rw [ha.thread]; exact hs
  rw [e, State.retire_eq a t _ hw hst, ha.thread]
  have h1 := ha.trans (Eff.setThread a (warpOf t) t ((s.thread t).retired s.cur.next)) hn (by simp)
  have h2 := Eff.applyAll (a.setThread t ((s.thread t).retired s.cur.next)) t o.wr hw (by simp [Thread.retired])
  have h := h1.trans h2 (by omega) (by simp)
  refine ⟨fun k => ?_, h.ports, h.session, ?_, h.ctxs, h.cores, h.warps, h.rest⟩
  · rw [h.thread]; simp only [State.thread_setThread_self, State.thread_setThread, ha.thread]; split <;> rfl
  · simpa using h.counts

/-! Reading the source fields. -/

/-- What a warp that observed some completions keeps: all but its release times (R131). -/
theorem State.observed_same (s : State) (v : Nat) (ws : List Int) :
    s.observed v ws = { s.warp v with rtC := (s.observed v ws).rtC, rtD := (s.observed v ws).rtD, rtP := (s.observed v ws).rtP, rtN := (s.observed v ws).rtN } := by
  have h : ∀ (ws : List Int) (x : Warp), ws.foldl s.later x =
      { x with rtC := (ws.foldl s.later x).rtC, rtD := (ws.foldl s.later x).rtD, rtP := (ws.foldl s.later x).rtP, rtN := (ws.foldl s.later x).rtN } := by
    intro ws
    induction ws with
    | nil => intro x; rfl
    | cons w ws ih => intro x; rw [List.foldl_cons, ih]; rfl
  unfold State.observed
  split
  · exact h ws _
  · rfl
theorem State.later_comm (s : State) (x : Warp) (a b : Int) : s.later (s.later x a) b = s.later (s.later x b) a := by
  simp only [State.later]
  congr 1 <;> omega
/-- The order in which completions are observed does not matter. -/
theorem State.observed_perm {s : State} {v : Nat} {ws us : List Int} (h : ws.Perm us) : s.observed v ws = s.observed v us := by
  have : RightCommutative s.later := ⟨fun x a b => State.later_comm s x a b⟩
  unfold State.observed
  split
  · exact h.foldl_eq _
  · rfl
theorem State.observed_nil (s : State) (v : Nat) : s.observed v [] = s.warp v := by unfold State.observed; split <;> rfl

/-- A state that differs from another in what a warp took from its core's ports, and what it observed with it. -/
structure Popped (s p : State) (w : Nat) (n : Nat → Nat) (ws : List Int) : Prop where
  rest : p = { s with cor := p.cor, wrp := p.wrp }
  cores : ∀ x, p.core x = { s.core x with ports := (p.core x).ports, tokW := (p.core x).tokW }
  ports : ∀ x q, p.port x q = if x = coreOf w then (s.port x q).drop (n q) else s.port x q
  tokW : ∀ x q, Tab.get [] (p.core x).tokW q = if x = coreOf w ∧ (q = 9 ∨ q = 14) then (Tab.get [] (s.core x).tokW q).drop (n q)
    else Tab.get [] (s.core x).tokW q
  warps : ∀ v, p.warp v = if v = w then s.observed v ws else s.warp v
  here : ∀ v, (Tab.find p.wrp v).isSome = (Tab.find s.wrp v).isSome

theorem Popped.warp_same {s p : State} {w : Nat} {n : Nat → Nat} {ws : List Int} (h : Popped s p w n ws) (v : Nat) :
    p.warp v = { s.warp v with rtC := (p.warp v).rtC, rtD := (p.warp v).rtD, rtP := (p.warp v).rtP, rtN := (p.warp v).rtN } := by
  rw [h.warps]; split
  · exact State.observed_same s v ws
  · rfl

theorem Popped.reg {s p : State} {w : Nat} {n : Nat → Nat} {ws : List Int} (h : Popped s p w n ws) (t r : Nat) : p.reg t r = s.reg t r := by
  have e : (p.core (coreOf (warpOf t))).clid = (s.core (coreOf (warpOf t))).clid := by rw [h.cores]
  have e1 : p.thr = s.thr := by rw [h.rest]
  have e2 : (p.warp (warpOf t)).bid = (s.warp (warpOf t)).bid ∧ (p.warp (warpOf t)).ctx = (s.warp (warpOf t)).ctx := by
    rw [h.warp_same]; exact ⟨rfl, rfl⟩
  have e3 : p.ctxs = s.ctxs := by rw [h.rest]
  have e4 : p.pkg = s.pkg := by rw [h.rest]
  simp only [State.reg, State.special, State.launchOf, State.thread, State.ctx, e, e1, e2, e3, e4]

theorem Popped.refl (s : State) (w : Nat) : Popped s s w (fun _ => 0) [] :=
  ⟨rfl, fun _ => rfl, fun x q => by simp, fun x q => by simp, fun v => by rw [State.observed_nil]; simp, fun _ => rfl⟩

theorem Popped.trans {s p q : State} {w : Nat} {n m : Nat → Nat} {ws us : List Int} (h : Popped s p w n ws) (g : Popped p q w m us) :
    Popped s q w (fun i => n i + m i) (ws ++ us) := by
  have hl : p.later = s.later := by
    have e : p.mg = s.mg := by rw [h.rest]
    funext x i
    simp only [State.later, State.guard, e]
  refine ⟨by rw [g.rest, h.rest], fun x => by rw [g.cores, h.cores], fun x i => ?_, fun x i => ?_, fun v => ?_, fun v => by rw [g.here, h.here]⟩
  · rw [g.ports, h.ports]; split <;> simp [List.drop_drop]
  · rw [g.tokW, h.tokW]; split <;> simp [List.drop_drop]
  · rw [g.warps]
    split
    · rename_i hv
      simp only [State.observed, h.here, h.warps, hl, if_pos hv, List.foldl_append]
      split <;> rfl
    · rename_i hv; rw [h.warps, if_neg hv]

/-- Several times raise a warp's release times one after the other. -/
theorem State.raiseRTs_spec (w : Nat) (ws : List Int) (s : State) :
    ws.foldl (fun a t => a.raiseRT w t) s = { s with wrp := (ws.foldl (fun a t => a.raiseRT w t) s).wrp } ∧
      (∀ v, (ws.foldl (fun a t => a.raiseRT w t) s).warp v = if v = w then s.observed v ws else s.warp v) ∧
      ∀ v, (Tab.find (ws.foldl (fun a t => a.raiseRT w t) s).wrp v).isSome = (Tab.find s.wrp v).isSome := by
  induction ws generalizing s with
  | nil => exact ⟨rfl, fun v => by rw [State.observed_nil]; simp, fun _ => rfl⟩
  | cons t ws ih =>
    rw [List.foldl_cons]
    obtain ⟨h1, h2, h3⟩ := ih (s.raiseRT w t)
    cases hf : Tab.find s.wrp w with
    | none =>
      have e : s.raiseRT w t = s := by simp only [State.raiseRT, hf]
      rw [e] at h1 h2 h3 ⊢
      refine ⟨h1, fun v => ?_, h3⟩
      rw [h2]
      split
      · rename_i hv; subst hv; simp [State.observed, hf]
      · rfl
    | some x =>
      have hx : s.warp w = x := Tab.get_of_find _ _ _ _ hf
      have e : s.raiseRT w t = s.setWarp w (s.later x t) := by simp only [State.raiseRT, hf, State.later]
      have hl : (s.setWarp w (s.later x t)).later = s.later := rfl
      rw [e] at h1 h2 h3 ⊢
      refine ⟨by rw [h1]; rfl, fun v => ?_, fun v => ?_⟩
      · rw [h2]
        split
        · rename_i hv
          subst hv
          simp only [State.observed, hl, State.warp_setWarp_self, hf, Option.isSome_some, if_true, List.foldl_cons, hx]
          have e2 : (s.setWarp v (s.later x t)).wrp = Tab.put v (s.later x t) s.wrp := rfl
          simp [e2, Tab.find_put]
        · rename_i hv; rw [State.warp_setWarp, if_neg hv]
      · have e2 : (s.setWarp w (s.later x t)).wrp = Tab.put w (s.later x t) s.wrp := rfl
        rw [h3, e2, Tab.find_put]
        split
        · rename_i hv; subst hv; simp [hf]
        · rfl

theorem State.portPop_spec (s : State) (w q k : Nat) :
    Popped s (s.portPop w q k) w (fun i => if i = q then k else 0)
      (if q = 9 ∨ q = 14 then (Tab.get [] (s.core (coreOf w)).tokW q).take k else []) := by
  have hports : ∀ (x i : Nat), (s.setPort (coreOf w) q ((s.port (coreOf w) q).drop k)).port x i =
      if x = coreOf w then (s.port x i).drop (if i = q then k else 0) else s.port x i := fun x i => by
    simp only [State.port, State.setPort, State.core_setCore]
    by_cases h : x = coreOf w
    · subst h
      simp only [if_true, Tab.get_set]
      by_cases hq : i = q
      · simp [hq]
      · simp [hq]
    · simp [h]
  unfold State.portPop
  by_cases hq : q = 9 ∨ q = 14
  · simp only [if_pos hq]
    set s1 := s.setPort (coreOf w) q ((s.port (coreOf w) q).drop k) with hs1
    have hc1 : ∀ x, s1.core x = { s.core x with ports := (s1.core x).ports } := fun x => by
      simp only [hs1, State.setPort, State.core_setCore]; split <;> simp_all
    set ws := Tab.get [] (s1.core (coreOf w)).tokW q with hws
    have hws' : ws = Tab.get [] (s.core (coreOf w)).tokW q := by rw [hws, hc1]
    set s2 := s1.setCore (coreOf w) { s1.core (coreOf w) with tokW := Tab.put q (ws.drop k) (s1.core (coreOf w)).tokW } with hs2
    obtain ⟨h1, h2, h3⟩ := State.raiseRTs_spec w (ws.take k) s2
    set p := (ws.take k).foldl (fun a t => a.raiseRT w t) s2
    have hc : ∀ x, p.core x = s2.core x := fun x => by rw [h1]; rfl
    have hs2w : s2.wrp = s.wrp := rfl
    refine ⟨by rw [h1]; rfl, fun x => ?_, fun x i => ?_, fun x i => ?_, fun v => ?_, fun v => by rw [h3, hs2w]⟩
    · rw [hc, hs2, State.core_setCore]; split
      · rename_i hx; subst hx; rw [hc1]
      · rw [hc1]
    · rw [← hports]
      simp only [State.port, hc]
      rw [hs2, State.core_setCore]
      split
      · rename_i hx; rw [hx]
      · rfl
    · rw [hc, hs2, State.core_setCore]
      by_cases hx : x = coreOf w
      · subst hx
        simp only [if_true, true_and, Tab.get_put, hws']
        by_cases hi : i = q
        · subst hi; simp [hq]
        · simp only [hi, if_false, List.drop_zero, ite_self]; rw [hc1]
      · simp only [hx, if_false, false_and]; rw [hc1]
    · rw [h2, hws']; rfl
  · simp only [if_neg hq]
    refine ⟨rfl, fun x => ?_, hports, fun x i => ?_, fun v => by rw [State.observed_nil]; simp [State.setPort], fun v => rfl⟩
    · simp only [State.setPort, State.core_setCore]; split <;> simp_all
    · have e : Tab.get [] ((s.setPort (coreOf w) q ((s.port (coreOf w) q).drop k)).core x).tokW i = Tab.get [] (s.core x).tokW i := by
        simp only [State.setPort, State.core_setCore]; split <;> simp_all
      rw [e]
      split
      · rename_i h
        have : i ≠ q := by rintro rfl; exact hq h.2
        simp [this]
      · rfl

theorem State.readField_spec (s : State) (ts : List Nat) (r : Nat) :
    Popped s (s.readField ts r).1 s.cur.warp (fun q => if isPort r ∧ r = q + 216 then ts.length else 0)
        (if r = 225 ∨ r = 230 then (Tab.get [] (s.core (coreOf s.cur.warp)).tokW (r - 216)).take ts.length else []) ∧
      (s.readField ts r).2 = if isPort r then (s.port (coreOf s.cur.warp) (r - 216)).take ts.length else ts.map (fun t => s.reg t r) := by
  unfold State.readField
  split
  · rename_i hp
    have h216 : 216 ≤ r := by simp only [isPort, Bool.and_eq_true, decide_eq_true_eq] at hp; omega
    have h := State.portPop_spec s s.cur.warp (r - 216) ts.length
    have e : (fun i => if i = r - 216 then ts.length else 0) = fun q => if isPort r ∧ r = q + 216 then ts.length else 0 := by
      funext q
      by_cases hq : q = r - 216
      · rw [if_pos hq, if_pos ⟨hp, by omega⟩]
      · rw [if_neg hq, if_neg (fun h => hq (by omega))]
    rw [e] at h
    refine ⟨?_, rfl⟩
    dsimp only
    by_cases h1 : r = 225 ∨ r = 230
    · rw [if_pos (show r - 216 = 9 ∨ r - 216 = 14 by omega)] at h
      rw [if_pos h1]; exact h
    · rw [if_neg (show ¬(r - 216 = 9 ∨ r - 216 = 14) by omega)] at h
      rw [if_neg h1]; exact h
  · rename_i hp
    have : ¬(r = 225 ∨ r = 230) := by rintro (rfl | rfl) <;> exact hp rfl
    rw [if_neg this]
    have e : (fun q => if isPort r = true ∧ r = q + 216 then ts.length else 0) = fun _ => 0 := by funext q; simp [hp]
    rw [e]
    exact ⟨Popped.refl s _, rfl⟩

/-- Reading the source fields pops each port once per lane and field. -/
theorem State.readFields_spec (ts fs : List Nat) (s : State) :
    (∃ ws, Popped s (s.readFields ts fs).1 s.cur.warp (fun q => ts.length * (fs.filter isPort).count (q + 216)) ws ∧
      ws.Perm ((Tab.get [] (s.core (coreOf s.cur.warp)).tokW 9).take (ts.length * (fs.filter isPort).count 225) ++
        (Tab.get [] (s.core (coreOf s.cur.warp)).tokW 14).take (ts.length * (fs.filter isPort).count 230))) ∧
      (s.readFields ts fs).2.length = fs.length ∧
      ∀ j, j < fs.length → ∀ i, i < ts.length → ((s.readFields ts fs).2.getD j []).getD i 0 =
        if isPort (fs.getD j 0) then (s.port (coreOf s.cur.warp) (fs.getD j 0 - 216)).getD (ts.length * (fs.take j).count (fs.getD j 0) + i) 0
        else s.reg (ts.getD i 0) (fs.getD j 0) := by
  induction fs generalizing s with
  | nil =>
    refine ⟨⟨[], ?_, by simp⟩, rfl, fun j hj => by simp at hj⟩
    exact Popped.refl s _
  | cons r fs ih =>
    obtain ⟨h1, h2⟩ := State.readField_spec s ts r
    obtain ⟨⟨us, g1, gp⟩, g2, g3⟩ := ih (s.readField ts r).1
    have hcur : (s.readField ts r).1.cur = s.cur := by rw [h1.rest]
    rw [hcur] at g1 g3 gp
    refine ⟨?_, by simp [State.readFields, g2], ?_⟩
    · have e : ∀ q, (if isPort r ∧ r = q + 216 then ts.length else 0) + ts.length * (fs.filter isPort).count (q + 216) =
          ts.length * ((r :: fs).filter isPort).count (q + 216) := fun q => by
        by_cases hp : isPort r = true
        · by_cases hq : r = q + 216
          · have hp' := hp
            rw [hq] at hp'
            simp [hq, hp', Nat.mul_add, Nat.add_comm]
          · simp [hq, hp]
        · simp [hp]
      refine ⟨_, by have := h1.trans g1; rwa [funext e] at this, ?_⟩
      have e9 := e 9
      have e14 := e 14
      norm_num only at e9 e14
      have t9 := h1.tokW (coreOf s.cur.warp) 9
      have t14 := h1.tokW (coreOf s.cur.warp) 14
      simp only [true_or, or_true, and_self, if_true, Nat.reduceAdd] at t9 t14
      rw [t9, t14] at gp
      rw [← e9, ← e14]
      by_cases h9 : r = 225
      · subst h9
        have hA : (if isPort 225 = true ∧ 225 = 225 then ts.length else 0) = ts.length := if_pos ⟨rfl, rfl⟩
        have hB : (if isPort 225 = true ∧ 225 = 230 then ts.length else 0) = 0 := if_neg (by decide)
        rw [hA, hB, List.drop_zero] at gp
        rw [hA, hB, Nat.zero_add, if_pos (.inl rfl), List.take_add, List.append_assoc]
        exact gp.append_left _
      · by_cases h14 : r = 230
        · subst h14
          have hA : (if isPort 230 = true ∧ 230 = 230 then ts.length else 0) = ts.length := if_pos ⟨rfl, rfl⟩
          have hB : (if isPort 230 = true ∧ 230 = 225 then ts.length else 0) = 0 := if_neg (by decide)
          rw [hA, hB, List.drop_zero] at gp
          rw [hA, hB, Nat.zero_add, if_pos (.inr rfl), List.take_add, ← List.append_assoc]
          refine (gp.append_left _).trans ?_
          rw [← List.append_assoc]
          exact List.perm_append_comm.append_right _
        · simpa [h9, h14] using gp
    · intro j hj i hi
      cases j with
      | zero =>
        simp only [State.readFields, List.getD_cons_zero, List.take_zero, List.count_nil, Nat.mul_zero, Nat.zero_add, h2]
        split
        · simp [List.getD_eq_getElem?_getD, hi]
        · simp [List.getD_eq_getElem?_getD, hi]
      | succ j =>
        simp only [State.readFields, List.getD_cons_succ, List.take_succ_cons]
        rw [g3 j (by simpa using hj) i hi]
        split
        · rename_i hp
          rw [h1.ports, if_pos rfl]
          have hp216 : 216 ≤ fs.getD j 0 := by
            have := hp; simp only [isPort, Bool.and_eq_true, decide_eq_true_eq] at this; omega
          rw [List.count_cons]
          by_cases he : r = fs.getD j 0
          · have : isPort r ∧ r = fs.getD j 0 - 216 + 216 := by
              rw [he]; exact ⟨hp, by omega⟩
            rw [if_pos this]
            simp only [he, beq_self_eq_true, if_true, List.getD_eq_getElem?_getD, List.getElem?_drop]
            congr 2; ring
          · have : ¬ (isPort r ∧ r = fs.getD j 0 - 216 + 216) := by
              rintro ⟨_, h⟩; exact he (by omega)
            have e : (r == fs.getD j 0) = false := beq_eq_false_iff_ne.2 he
            simp only [if_neg this, e, List.drop_zero, Bool.false_eq_true, if_false, Nat.add_zero]
        · exact h1.reg _ _

/-! The lanes one after the other. -/

/-- Lanes that perform outcomes without causes. -/
theorem State.runLanes_spec (f : State → Nat → List Int → Out) (s0 : State) (vs : List (List Int)) (w : Nat) (hw : widOf w ≠ 27)
    (ts : List Nat) (i : Nat) (s : State) (hn : ts.Nodup) (ht : ∀ t ∈ ts, warpOf t = w)
    (hs : ∀ t ∈ ts, (s.thread t).st ≠ .stopped) (hd : ∀ t ∈ ts, s0.drafting (warpOf t) (t % 16) = false)
    (hf : ∀ j, j < ts.length → (f s0 (ts.getD j 0) (fieldVal vs (i + j))).fault = none ∧ 0 ≤ (f s0 (ts.getD j 0) (fieldVal vs (i + j))).sat) :
    ∃ th, Eff s (State.runLanes s f s0 vs i ts) w th
        ((List.range ts.length).flatMap (fun j => (f s0 (ts.getD j 0) (fieldVal vs (i + j))).wr))
        ((List.range ts.length).flatMap (fun j => owedBy (ts.getD j 0) (f s0 (ts.getD j 0) (fieldVal vs (i + j))).wr))
        (((List.range ts.length).map (fun j => (f s0 (ts.getD j 0) (fieldVal vs (i + j))).sat)).sum) ∧
      (∀ j, j < ts.length → th (ts.getD j 0) =
        (f s0 (ts.getD j 0) (fieldVal vs (i + j))).wr.foldl Thread.wrote ((s.thread (ts.getD j 0)).retired s.cur.next)) ∧
      (∀ k, k ∉ ts → th k = s.thread k) := by
  induction ts generalizing s i with
  | nil => exact ⟨s.thread, by simpa [State.runLanes] using Eff.refl s w, fun j hj => by simp at hj, fun _ _ => rfl⟩
  | cons t ts ih =>
    have hnt := List.nodup_cons.1 hn
    have h0 := hf 0 (by simp)
    have hr : s0.rolled s t = false := by simp [State.rolled, hd t (by simp)]
    simp only [List.getD_cons_zero, Nat.add_zero] at h0
    have h1 := Eff.applyOut s t (f s0 t (fieldVal vs i)) h0.1 (by rw [ht t (by simp)]; exact hw) (hs t (by simp)) h0.2
    rw [ht t (by simp)] at h1
    have hne : ∀ x ∈ ts, x ≠ t := fun x hx e => hnt.1 (e ▸ hx)
    have hcur : (s.applyOut t (f s0 t (fieldVal vs i))).cur = s.cur := by rw [h1.rest]
    obtain ⟨th, h2, h3, h4⟩ := ih (i + 1) (s.applyOut t (f s0 t (fieldVal vs i))) hnt.2 (fun x hx => ht x (by simp [hx]))
      (fun x hx => by rw [h1.thread, if_neg (hne x hx)]; exact hs x (by simp [hx])) (fun x hx => hd x (by simp [hx]))
      (fun j hj => by
        have := hf (j + 1) (by simpa using hj)
        simpa [Nat.add_assoc, Nat.add_comm 1 j] using this)
    have hsum : 0 ≤ ((List.range ts.length).map (fun j => (f s0 (ts.getD j 0) (fieldVal vs (i + 1 + j))).sat)).sum := by
      refine List.sum_nonneg fun x hx => ?_
      obtain ⟨j, hj, rfl⟩ := List.mem_map.1 hx
      have := hf (j + 1) (by simpa using List.mem_range.1 hj)
      simp only [List.getD_cons_succ] at this
      rw [show i + 1 + j = i + (j + 1) by omega]; exact this.2
    have h := h1.trans h2 h0.2 hsum
    refine ⟨th, ?_, fun j hj => ?_, fun k hk => ?_⟩
    · have e : ∀ j, i + 1 + j = i + (j + 1) := fun j => by omega
      simp only [List.length_cons, List.range_succ_eq_map, List.flatMap_cons, List.flatMap_map, List.map_cons, List.map_map, List.sum_cons,
        List.getD_cons_zero, List.getD_cons_succ, Nat.add_zero, Function.comp_def, Nat.succ_eq_add_one]
      simp only [e] at h
      simp only [State.runLanes, hr, Bool.false_eq_true, if_false]
      exact h
    · cases j with
      | zero =>
        simp only [List.getD_cons_zero, Nat.add_zero]
        rw [h4 t hnt.1, h1.thread, if_pos rfl]
      | succ j =>
        simp only [List.getD_cons_succ]
        have hj' : j < ts.length := by simpa using hj
        rw [h3 j hj', hcur, h1.thread, if_neg, show i + 1 + j = i + (j + 1) by omega]
        refine hne _ ?_
        rw [List.getD_eq_getElem _ _ hj']; exact List.getElem_mem _
    · simp only [List.mem_cons, not_or] at hk
      rw [h4 k hk.2, h1.thread, if_neg hk.1]

/-- What the body of a unit sees that may differ from the state before: the group's threads are at their issue. -/
structure Same (s p : State) (u : Uses) : Prop where
  rest : p = { s with thr := p.thr, cor := p.cor, wrp := p.wrp, stamp := s.stamp + 1 }
  cores : ∀ x, p.core x = { s.core x with ports := (p.core x).ports, tokW := (p.core x).tokW }
  warps : ∀ v, p.warp v = { s.warp v with rtC := (p.warp v).rtC, rtD := (p.warp v).rtD, rtP := (p.warp v).rtP, rtN := (p.warp v).rtN }
  ports : u.src.filter isPort = [] → p.cor = s.cor ∧ p.wrp = s.wrp
  thread : ∀ k, ∃ pc st wait busy deadline stamp next last ready kept ldnb, p.thread k =
    { s.thread k with pc := pc, st := st, wait := wait, busy := busy, deadline := deadline, stamp := stamp, next := next, last := last
                      ready := ready, kept := kept, ldnb := ldnb }
  others : ∀ k, (∀ l ∈ s.cur.lanes, k ≠ s.lane l) → p.thread k = s.thread k

theorem Same.reg {s p : State} {u : Uses} (h : Same s p u) (t r : Nat) : p.reg t r = s.reg t r := by
  obtain ⟨_, _, _, _, _, _, _, _, _, _, _, e⟩ := h.thread t
  have e0 : (p.core (coreOf (warpOf t))).clid = (s.core (coreOf (warpOf t))).clid := by rw [h.cores]
  have e2 : (p.warp (warpOf t)).bid = (s.warp (warpOf t)).bid ∧ (p.warp (warpOf t)).ctx = (s.warp (warpOf t)).ctx := by
    rw [h.warps]; exact ⟨rfl, rfl⟩
  have e3 : p.ctxs = s.ctxs := by rw [h.rest]
  have e4 : p.pkg = s.pkg := by rw [h.rest]
  simp only [State.reg, State.special, State.launchOf, State.ctx, e, e0, e2, e3, e4]
theorem Same.regPair {s p : State} {u : Uses} (h : Same s p u) (t r : Nat) : p.regPair t r = s.regPair t r := by
  simp only [State.regPair, h.reg]
theorem Same.pred {s p : State} {u : Uses} (h : Same s p u) (t r : Nat) : p.pred t r = s.pred t r := by
  obtain ⟨_, _, _, _, _, _, _, _, _, _, _, e⟩ := h.thread t
  simp only [State.pred, e]
theorem Same.cur {s p : State} {u : Uses} (h : Same s p u) : p.cur = s.cur := by rw [h.rest]

/-- A unit that acts lane by lane: with its ports able to serve it and no lane raising a cause, it does what `Ran` says, and
meetings are re-examined. -/
theorem State.perLane_meet {s : State} {h : Hdr} {u : Uses} {f g : State → Nat → List Int → Out} (hp : Plain s) (hl : Legal s h u)
    (hport : s.portSt u (s.active h).length = .ready) (hf : ∀ i, i < (s.active h).length → (s.outOf h u f i).fault = none)
    (hn : ∀ i, i < (s.active h).length → 0 ≤ (s.outOf h u f i).sat)
    (hfg : ∀ p, Same s p u → ∀ l ∈ s.cur.lanes, ∀ v, g p (s.lane l) v = f s (s.lane l) v) :
    ∃ b, Ran s b h u f ∧ s.perLane h u g = b.meet s.cur.warp ∧ ∀ l ∈ s.cur.lanes, (b.thread (s.lane l)).st = .runnable := by
  obtain ⟨a, ha, _, e⟩ := State.issue_plain hp hl (laneBody u g)
  have hact : ∀ l ∈ s.active h, l ∈ s.cur.lanes ∧ s.laneOn h (s.lane l) = true := fun l hl => List.mem_filter.1 hl
  have hcur : a.cur = s.cur := by rw [ha.rest]
  rw [State.perLane, e]
  set act := s.active h with hactdef
  -- the body
  set ts := act.map s.lane with hts
  have hlen : ts.length = act.length := by simp [hts]
  have hget : ∀ j, j < act.length → ts.getD j 0 = s.lane (act.getD j 0) := fun j hj => by
    simp [hts, List.getD_eq_getElem?_getD, hj]
  have hmem : ∀ j, j < act.length → act.getD j 0 ∈ act := fun j hj => by
    rw [List.getD_eq_getElem _ _ hj]; exact List.getElem_mem _
  have hnd : ts.Nodup := nodup_map_threadOf (hp.nodup.filter _)
  have hwt : ∀ t ∈ ts, warpOf t = s.cur.warp := fun t ht => by
    obtain ⟨l, hl, rfl⟩ := List.mem_map.1 ht
    exact threadOf_warp (hp.lane l (hact l hl).1)
  have hpa : a.portSt u act.length = .ready := by rw [← hport, ha.rest]; rfl
  have hcores : ∀ x, a.core x = s.core x := fun x => by rw [ha.rest]; rfl
  obtain ⟨⟨ws, r1, rp⟩, r2, r3⟩ := State.readFields_spec ts u.src a
  set p := (a.readFields ts u.src).1 with hpdef
  set vs := (a.readFields ts u.src).2 with hvs
  have hpthr : ∀ k, p.thread k = a.thread k := fun k => by rw [r1.rest]; rfl
  have hsame : Same s p u := by
    refine ⟨by rw [r1.rest, ha.rest], fun x => by rw [r1.cores, hcores], fun v => by rw [r1.warp_same, ha.rest]; rfl, fun hno => ?_, fun k => ?_, fun k hk => by rw [hpthr, ha.others k hk]⟩
    · have : ∀ fs : List Nat, fs.filter isPort = [] → ∀ b : State, (b.readFields ts fs).1 = b := by
        intro fs
        induction fs with
        | nil => intro _ b; rfl
        | cons r fs ih =>
          intro h b
          simp only [List.filter_cons] at h
          split at h
          · simp at h
          · rename_i hr
            have : (b.readField ts r).1 = b := by simp [State.readField, hr]
            simp only [State.readFields, this, ih h]
      rw [hpdef, this _ hno, ha.rest]; exact ⟨rfl, rfl⟩
    · rw [hpthr]
      by_cases hk : ∃ l ∈ s.cur.lanes, k = s.lane l
      · obtain ⟨l, hl, rfl⟩ := hk
        cases h1 : s.laneOn h (s.lane l)
        · rw [ha.off l hl h1]; exact ⟨_, _, _, _, _, _, _, _, _, _, _, rfl⟩
        · rw [ha.on l hl h1]; exact ⟨_, _, _, _, _, _, _, _, _, _, _, rfl⟩
      · rw [ha.others k (fun l hl e => hk ⟨l, hl, e⟩)]; exact ⟨_, _, _, _, _, _, _, _, _, _, _, rfl⟩
  have hareg : ∀ t r, a.reg t r = s.reg t r := fun t r => by rw [← r1.reg, hsame.reg]
  have hval : ∀ i, i < act.length → fieldVal vs i = s.srcWords act u.src i := fun i hi => by
    apply List.ext_getElem
    · simp [fieldVal, State.srcWords, r2]
    · intro j hj _
      have hj' : j < u.src.length := by simpa [fieldVal, r2] using hj
      have := r3 j hj' i (by omega)
      rw [List.getD_eq_getElem vs _ (by omega)] at this
      simp only [fieldVal, List.getElem_map, State.srcWords, List.getElem_range, State.srcWord]
      rw [this, hcur, hlen]
      have hport' : ∀ c q, a.port c q = s.port c q := fun c q => by simp only [State.port, hcores]
      rw [hport', hareg, hget i hi]
  have hg : ∀ j, j < act.length → g p (ts.getD j 0) (fieldVal vs (0 + j)) = s.outOf h u f j := fun j hj => by
    rw [Nat.zero_add, hval j hj, hget j hj, hfg p hsame _ (hact _ (hmem j hj)).1]; rfl
  obtain ⟨th, hE, h3, h4⟩ := State.runLanes_spec g p vs s.cur.warp hp.wid ts 0 p hnd hwt (fun t ht => by
      obtain ⟨l, hl, rfl⟩ := List.mem_map.1 ht
      have := hact l hl
      rw [hpthr, ha.on l this.1 this.2]
      rcases hp.live l this.1 with e | e <;> simp [State.atIssue, State.lane, e]) (fun t ht => by
      obtain ⟨l, hl, rfl⟩ := List.mem_map.1 ht
      have hm := hact l hl
      have e : p.drafting s.cur.warp l = s.drafting s.cur.warp l := by simp only [State.drafting]; rw [hsame.warps]
      rw [State.lane, threadOf_warp (hp.lane l hm.1), threadOf_lane (hp.lane l hm.1), e]
      exact hp.undrafted l hm.1) (fun j hj => by
      rw [hlen] at hj; rw [hg j hj]; exact ⟨hf j hj, hn j hj⟩)
  set b := State.runLanes p g p vs 0 ts with hb
  have hbody : laneBody u g act a = b := by
    have e1 : a.curThreads act = ts := by simp only [State.curThreads, hcur]; rfl
    simp only [laneBody, hpa, e1]
    rfl
  rw [hlen] at hE
  have hws : (List.range act.length).flatMap (fun j => (g p (ts.getD j 0) (fieldVal vs (0 + j))).wr) = s.allWr h u f := by
    unfold State.allWr
    simp only [List.flatMap]
    congr 1
    exact List.map_congr_left fun j hj => by rw [hg j (List.mem_range.1 hj)]
  have hos : (List.range act.length).flatMap (fun j => owedBy (ts.getD j 0) (g p (ts.getD j 0) (fieldVal vs (0 + j))).wr) = s.allOwed h u f := by
    unfold State.allOwed
    simp only [List.flatMap]
    congr 1
    exact List.map_congr_left fun j hj => by rw [hg j (List.mem_range.1 hj), hget j (List.mem_range.1 hj)]
  have hsat : ((List.range act.length).map (fun j => (g p (ts.getD j 0) (fieldVal vs (0 + j))).sat)).sum = s.allSat h u f := by
    unfold State.allSat
    congr 1
    exact List.map_congr_left fun j hj => by rw [hg j (List.mem_range.1 hj)]
  rw [hws, hos, hsat] at hE
  -- the threads
  have hon : ∀ i, i < act.length → th (s.lane (act.getD i 0)) =
      (s.outOf h u f i).wr.foldl Thread.wrote ((s.atIssue (act.getD i 0)).retired s.cur.next) := fun i hi => by
    have := h3 i (by rw [hlen]; exact hi)
    have hm := hact _ (hmem i hi)
    rw [hget i hi] at this
    rw [this, ← hget i hi, hg i hi, hget i hi, hpthr, ha.on _ hm.1 hm.2, show p.cur = s.cur from hsame.cur]
  have hoff : ∀ k, k ∉ ts → th k = a.thread k := fun k hk => by rw [h4 k hk, hpthr]
  have hnot : ∀ l ∈ s.cur.lanes, s.laneOn h (s.lane l) = false → s.lane l ∉ ts := fun l hl h1 hc => by
    obtain ⟨x, hx, e⟩ := List.mem_map.1 hc
    have := (hact x hx).2
    rw [threadOf_inj e, h1] at this; cases this
  have hwp : (p.warp s.cur.warp).ctx = (s.warp s.cur.warp).ctx ∧ (p.warp s.cur.warp).bid = (s.warp s.cur.warp).bid := by
    rw [hsame.warps]; exact ⟨rfl, rfl⟩
  have hobs : ∀ v us, a.observed v us = s.observed v us := fun v us => by rw [ha.rest]; rfl
  have htok : ∀ v, s.observed v ws = s.observed v (s.tokens u act.length) := fun v => by
    rw [hcur, hcores, hlen] at rp
    exact State.observed_perm rp
  have hcp : ∀ c, p.ctx c = s.ctx c := fun c => by rw [hsame.rest]; rfl
  have hRan : Ran s b h u f := by
    refine ⟨fun i hi => by rw [hE.thread]; exact hon i hi, fun l hl h1 => ?_, fun k hk => ?_, fun c q => ?_, fun c j => ?_, fun c k => ?_,
      fun c => ?_, ⟨fun c q => ?_, fun c => by rw [hE.cores, hsame.cores]⟩, fun v => ?_, ?_⟩
    · rw [hE.thread, hoff _ (hnot l hl h1), ha.off l hl h1]
    · rw [hE.thread, hoff, ha.others k hk]
      intro hc; obtain ⟨l, hl, rfl⟩ := List.mem_map.1 hc; exact hk l (hact l hl).1 rfl
    · have hport' : ∀ c q, a.port c q = s.port c q := fun c q => by simp only [State.port, hcores]
      rw [hE.ports, r1.ports, hcur, hport', hlen]
      by_cases h1 : c = coreOf s.cur.warp
      · simp only [h1, if_true, true_and]
        by_cases h2 : q = 14 <;> simp [h2, hactdef, Uses.takes]
      · simp [h1]
    · rw [hE.session, hwp.1, hwp.2, hcp]
    · rw [hE.counts, hwp.1, hcp]
    · rw [hE.ctxs, hcp]
    · rw [hE.cores]
      simp only
      rw [r1.tokW, hcur, hcores, hlen]; rfl
    · rw [hE.warps, r1.warps, hcur, hobs, htok]
      split
      · rw [State.observed_same]
      · rw [ha.rest]; rfl
    · rw [hE.rest, hsame.rest]
  obtain ⟨l0, ls, hls⟩ := List.exists_cons_of_ne_nil hp.some_
  have hl0 : l0 ∈ s.cur.lanes := by simp [hls]
  by_cases hemp : act = []
  · rw [if_pos hemp]
    have hemp' : s.active h = [] := hemp
    have e1 : s.allWr h u f = [] := by simp [State.allWr, hemp']
    have e2 : s.allOwed h u f = [] := by simp [State.allOwed, hemp']
    have e3 : s.allSat h u f = 0 := by simp [State.allSat, hemp']
    have ew : ∀ v, a.warp v = s.warp v := fun v => by rw [ha.rest]; rfl
    have ec : ∀ c, a.ctx c = s.ctx c := fun c => by rw [ha.rest]; rfl
    have hoffs : ∀ l ∈ s.cur.lanes, s.laneOn h (s.lane l) = false := fun l hl => by
      by_contra hc
      have : l ∈ act := List.mem_filter.2 ⟨hl, by simpa [State.lane] using hc⟩
      rw [hemp] at this; cases this
    have hst : ∀ l ∈ s.cur.lanes, (a.thread (s.lane l)).st = .runnable := fun l hl => by
      rw [ha.off l hl (hoffs l hl)]; rfl
    refine ⟨a, ?_, ?_, hst⟩
    · refine ⟨fun i hi => by simp [hemp'] at hi, ha.off, ha.others, fun c q => ?_, fun c j => ?_, fun c k => ?_, fun c => by rw [ec],
        ⟨fun c q => by rw [hcores]; simp [Uses.takes, hemp'], fun c => by rw [hcores]⟩, fun v => ?_, by rw [ha.rest]⟩
      · simp only [State.port, hcores, hemp', e1]; split <;> simp [Uses.takes]
      · rw [ec, e1]; split <;> simp
      · rw [ec, e3]; simp
      · have e4 : s.tokens u (s.active h).length = [] := by simp [State.tokens, Uses.takes, hemp']
        rw [ew, e2, e4, State.observed_nil]; split <;> simp
    · refine (State.meet_eq ?_).symm
      rw [← hp.nomeet]
      refine State.meetsNow_congr fun k _ => ?_
      by_cases hc : ∃ j ∈ s.cur.lanes, k = s.lane j
      · obtain ⟨j, hj, rfl⟩ := hc
        rw [ha.off j hj (hoffs j hj)]
        rcases hp.live j hj with e | e <;> rw [← State.lane_def] at e <;> simp [Thread.retired, State.atIssue, e]
      · rw [ha.others k (fun j hj e => hc ⟨j, hj, e⟩)]; simp
  · rw [if_neg hemp, hbody]
    have hbst : b.stepTrap s.cur.warp s.cur.lanes = b := State.stepTrap_eq (by
      rw [hRan.ctxs, hRan.warps, if_pos rfl, State.observed_same]; exact hp.nostep)
    rw [hbst]
    have hst : ∀ l ∈ s.cur.lanes, (b.thread (s.lane l)).st = .runnable := fun l hl => by
      by_cases h1 : s.laneOn h (s.lane l) = true
      · have hm : l ∈ act := List.mem_filter.2 ⟨hl, h1⟩
        obtain ⟨i, hi, e⟩ := List.getElem_of_mem hm
        have := hRan.on i hi
        rw [← hactdef, List.getD_eq_getElem _ _ hi, e] at this
        rw [this]; exact Thread.wrote_fold_live _ _ rfl
      · rw [hRan.off l hl (by simpa using h1)]; rfl
    refine ⟨b, hRan, ?_, hst⟩
    refine State.settle_meet (t := s.lane l0) ?_ (mem_threadsOf.2 ⟨l0, hp.lane l0 hl0, rfl⟩) (by rw [hst l0 hl0]; decide)
    rw [hRan.warps, if_pos rfl, State.observed_same]; exact hp.going

/-- A result that leaves the meeting register alone. -/
def Wr.plain : Wr → Bool
  | .mr _ => false
  | _ => true

theorem Thread.wrote_mr (x : Thread) (y : Wr) (h : y.plain = true) : (x.wrote y).mr = x.mr := by
  cases y <;> simp only [Thread.wrote, Thread.putReg, Thread.retired] <;> (repeat' split) <;> first | rfl | simp [Wr.plain] at h
theorem Thread.wrote_fold_mr (x : Thread) (ws : List Wr) (h : ws.all Wr.plain = true) : (ws.foldl Thread.wrote x).mr = x.mr := by
  induction ws generalizing x with
  | nil => rfl
  | cons y ws ih =>
    simp only [List.all_cons, Bool.and_eq_true] at h
    rw [List.foldl_cons, ih _ h.2, Thread.wrote_mr _ _ h.1]

/-- A unit that acts lane by lane and does not write the meeting register does what `Ran` says. -/
theorem State.perLane_ran {s : State} {h : Hdr} {u : Uses} {f g : State → Nat → List Int → Out} (hp : Plain s) (hl : Legal s h u)
    (hport : s.portSt u (s.active h).length = .ready) (hf : ∀ i, i < (s.active h).length → (s.outOf h u f i).fault = none)
    (hn : ∀ i, i < (s.active h).length → 0 ≤ (s.outOf h u f i).sat)
    (hmr : ∀ i, i < (s.active h).length → (s.outOf h u f i).wr.all Wr.plain = true)
    (hfg : ∀ p, Same s p u → ∀ l ∈ s.cur.lanes, ∀ v, g p (s.lane l) v = f s (s.lane l) v) : Ran s (s.perLane h u g) h u f := by
  obtain ⟨b, hb, e, hst⟩ := State.perLane_meet hp hl hport hf hn hfg
  rw [e, State.meet_eq]
  · exact hb
  · rw [← hp.nomeet]
    refine State.meetsNow_congr fun k _ => ?_
    by_cases hc : ∃ j ∈ s.cur.lanes, k = s.lane j
    · obtain ⟨j, hj, rfl⟩ := hc
      have hmr' : (b.thread (s.lane j)).mr = (s.thread (s.lane j)).mr := by
        by_cases h1 : s.laneOn h (s.lane j) = true
        · have hm : j ∈ s.active h := List.mem_filter.2 ⟨hj, h1⟩
          obtain ⟨i, hi, e⟩ := List.getElem_of_mem hm
          have := hb.on i hi
          rw [List.getD_eq_getElem _ _ hi, e] at this
          rw [this, Thread.wrote_fold_mr _ _ (hmr i hi)]; rfl
        · rw [hb.off j hj (by simpa using h1)]; rfl
      rw [hst j hj, hmr']
      rcases hp.live j hj with e | e <;> rw [← State.lane_def] at e <;> simp [e]
    · rw [hb.others k (fun j hj e => hc ⟨j, hj, e⟩)]; simp

theorem Plain.warpOf_lane {s : State} (h : Plain s) {l : Nat} (hl : l ∈ s.cur.lanes) : warpOf (s.lane l) = s.cur.warp :=
  threadOf_warp (h.lane l hl)

/-- An instruction whose meaning acts lane by lane by `g` does what `f` states, when `g` agrees with `f` on what the unit
sees. -/
theorem Runs.of {i : Instr} {h : Hdr} {u : Uses} {f g : State → Nat → List Int → Out} (e : ∀ s, exec i s = .next (s.perLane h u g))
    (hfg : ∀ s p, Plain s → Same s p u → ∀ l ∈ s.cur.lanes, ∀ v, g p (s.lane l) v = f s (s.lane l) v)
    (hn : ∀ s t v, 0 ≤ (f s t v).sat) (hmr : ∀ s t v, (f s t v).wr.all Wr.plain = true) : Runs i h u f :=
  fun s hp hl hport hf => ⟨_, e s, State.perLane_ran hp hl hport hf (fun _ _ => hn ..) (fun _ _ => hmr ..) (fun p => hfg s p hp)⟩

/-- The same for one that writes the meeting register. -/
theorem RunsMeet.of {i : Instr} {h : Hdr} {u : Uses} {f g : State → Nat → List Int → Out} (e : ∀ s, exec i s = .next (s.perLane h u g))
    (hfg : ∀ s p, Plain s → Same s p u → ∀ l ∈ s.cur.lanes, ∀ v, g p (s.lane l) v = f s (s.lane l) v)
    (hn : ∀ s t v, 0 ≤ (f s t v).sat) : RunsMeet i h u f :=
  fun s hp hl hport hf => by
    obtain ⟨b, hb, he, _⟩ := State.perLane_meet hp hl hport hf (fun _ _ => hn ..) (fun p => hfg s p hp)
    obtain ⟨m1, m2⟩ := State.meet_spec b s.cur.warp
    have hs : b.stamp = s.stamp + 1 := by rw [hb.rest]
    rw [hs] at m1 m2
    exact ⟨b, _, e s, hb, by rw [he]; exact m1, fun k => by rw [he]; exact m2 k⟩

theorem toW_plain (d : Nat) (x : Int) : (toW d x).wr.all Wr.plain = true := by simp only [toW, wrW]; split <;> rfl
theorem later_plain (d : Nat) (x : Int) : (later d x).wr.all Wr.plain = true := by
  simp only [later, wrW]; split
  · rfl
  · split <;> rfl

end Sys2Proof.Machine
end

