-- ==== Sys2Proof/Laws/Units.lean ====
section
/-! SUPPORT. Units and their fields: packing and unpacking agree (R145), and the prefixes read back (R161, R162). -/

namespace Sys2Proof.Machine

/-- Fields that fit their places are read back from the unit that holds them (R145). -/
theorem Raw.unpack_pack (r : Raw) (hr : rawOk r = true) (hop : r.op < 729) (hp : r.gpred < 243) (hc : r.gcond < 9)
    (hl : inRange r.lag 3 = true) (he : inRange r.cede 1 = true) (hz : inRange r.last 2 = true) (hm : inRange r.md 15 = true) :
    Raw.unpack r.pack = r := by
  obtain ⟨op, gpred, gcond, d, a, b, c, lag, cede, last, md, imm⟩ := r
  simp only [rawOk, inRange, Bool.and_eq_true, decide_eq_true_eq, Laws.ReadBack.hvv] at *
  have P : pow3 27 = 7625597484987 ∧ pow3 42 = 109418989131512359209 ∧ pow3 44 = 984770902183611232881 ∧ pow3 45 = 2954312706550833698643
      ∧ pow3 48 = 79766443076872509863361 ∧ pow3 53 = 19383245667680019896796723 ∧ pow3 58 = 4710128697246244834921603689
      ∧ pow3 63 = 1144561273430837494885949696427 ∧ pow3 68 = 278128389443693511257285776231761
      ∧ pow3 70 = 2503155504993241601315571986085849 ∧ pow3 75 = 608266787713357709119683992618861307 ∧ pow3 0 = 1 ∧ pow3 1 = 3
      ∧ pow3 2 = 9 ∧ pow3 3 = 27 ∧ pow3 5 = 243 ∧ pow3 6 = 729 ∧ pow3 15 = 14348907 := by decide
  have H : half 27 = 3812798742493 ∧ half 42 = 54709494565756179604 ∧ half 44 = 492385451091805616440 ∧ half 45 = 1477156353275416849321
      ∧ half 48 = 39883221538436254931680 ∧ half 53 = 9691622833840009948398361 ∧ half 58 = 2355064348623122417460801844
      ∧ half 63 = 572280636715418747442974848213 ∧ half 68 = 139064194721846755628642888115880
      ∧ half 70 = 1251577752496620800657785993042924 ∧ half 75 = 304133393856678854559841996309430653 ∧ half 0 = 0 ∧ half 1 = 1
      ∧ half 2 = 4 ∧ half 3 = 13 ∧ half 5 = 121 ∧ half 6 = 364 ∧ half 15 = 7174453 := by decide
  simp only [Raw.unpack, Raw.pack, offF, fld, shr, wrap, eo, P, H, Raw.mk.injEq]
  refine ⟨?_, ?_, ?_, ?_, ?_, ?_, ?_, ?_, ?_, ?_, ?_, ?_⟩ <;> omega

/-- The opcode of a unit whose fields fit (R145). -/
theorem Raw.op_pack (r : Raw) (hr : rawOk r = true) (hop : r.op < 729) (hp : r.gpred < 243) (hc : r.gcond < 9)
    (hl : inRange r.lag 3 = true) (he : inRange r.cede 1 = true) (hz : inRange r.last 2 = true) (hm : inRange r.md 15 = true) :
    offF r.pack 75 6 = r.op :=
  congrArg Raw.op (Raw.unpack_pack r hr hop hp hc hl he hz hm)

/-- A PXI unit reads back (R161). -/
theorem pxi_back {x : Int} (h : inRange x 54 = true) : offF (pxiUnit x) 75 6 = 540 ∧ fld (pxiUnit x) 0 54 = x := by
  have P : pow3 75 = 608266787713357709119683992618861307 ∧ pow3 0 = 1 ∧ pow3 6 = 729 ∧ pow3 54 = 58149737003040059690390169 := by decide
  have H : half 75 = 304133393856678854559841996309430653 ∧ half 0 = 0 ∧ half 6 = 364 ∧ half 54 = 29074868501520029845195084 := by decide
  simp only [inRange, H, Bool.and_eq_true, decide_eq_true_eq] at h
  simp only [pxiUnit, offF, fld, shr, wrap, eo, P, H]
  omega

/-- A PXS unit reads back (R162). -/
theorem pxs_back (p : Pxs) : offF (pxsUnit p) 75 6 = 541 ∧ readPxs (pxsUnit p) = some p := by
  obtain ⟨a1, a2, a3⟩ := Laws.ReadBack.Scope.cd p.scope
  obtain ⟨b1, b2, b3⟩ := Laws.ReadBack.Ord.cd p.ord
  obtain ⟨c1, c2, c3⟩ := Laws.ReadBack.Lease.cd p.lease
  have P : pow3 75 = 608266787713357709119683992618861307 ∧ pow3 2 = 9 ∧ pow3 6 = 729 ∧ pow3 4 = 81 ∧ pow3 3 = 27 := by decide
  have H : half 75 = 304133393856678854559841996309430653 ∧ half 2 = 4 ∧ half 6 = 364 ∧ half 4 = 40 ∧ half 3 = 13 := by decide
  have h1 : offF (pxsUnit p) 75 6 = 541 := by simp only [pxsUnit, pxsImm, offF, fld, shr, wrap, eo, P, H]; omega
  have h2 : fld (pxsUnit p) 6 3 = p.scope.code := by simp only [pxsUnit, pxsImm, fld, shr, wrap, eo, P, H]; omega
  have h3 : fld (pxsUnit p) 4 2 = p.ord.code := by simp only [pxsUnit, pxsImm, fld, shr, wrap, eo, P, H]; omega
  have h4 : fld (pxsUnit p) 2 2 = p.lease.code := by simp only [pxsUnit, pxsImm, fld, shr, wrap, eo, P, H]; omega
  refine ⟨h1, ?_⟩
  simp only [readPxs, h2, h3, h4, a3, b3, c3, if_true]

end Sys2Proof.Machine
end

