-- ==== Sys2Proof/Tests/Slice0.lean ====
section
/-! SUPPORT. The model's own tests: every row of the opcode map decoded from units spelled field by field (R145, R163); an
ill-formed term for each check of WellFormed; a few values that the spec works out; and for every statement with
hypotheses states and operands that meet all of them together, clause by clause, at which the statement is applied. -/

set_option Elab.async false

namespace Sys2Proof.Tests
open Machine

/-! Small states. -/

/-- A thread that runs at index 1000. -/
def th : Thread := { st := .runnable, prior := .runnable, pc := 1000, next := 1001 }
/-- A user context with one block on core 1. -/
def uctx : Ctx := { part := 1, live := true, tvec := 5000, blk := [(0, .placed 1)], lr := { dies := [0], regs := 27, preds := 27, folios := 9, rings := 3 } }
/-- Warp 28 on core 1 with two lanes. -/
def uwarp : Warp := { ctx := 1, n := 27 }
/-- A machine with that block. -/
def base : State := { State.reset with
  thr := [(448, th), (449, th)], wrp := [(28, uwarp)], cor := [(1, { blk := some (1, 0) })], ctxs := [(1, uctx), (28, { part := 1, live := true })]
  cur := { warp := 28, lanes := [0, 1], n := 1000, first := 1000, next := 1001 }, nextId := 50, stamp := 7 }
def base2 (f : Thread) (g : Thread) : State := { base with thr := [(448, f), (449, g)] }
def baseW (w : Warp) : State := { base with wrp := [(28, w)] }
def baseC (c : CoreSt) : State := { base with cor := [(1, c)] }
def baseX (x : Ctx) : State := { base with ctxs := [(1, x), (28, { part := 1, live := true })] }
def core1 : CoreSt := { blk := some (1, 0) }
def hd : Hdr := plainHdr
/-- A small page of memory with every right, whose translation die 0 holds. -/
def leaf0 : Leaf := { size := 0, r := true, w := true, x := true, cmp := false, place := 0, lease := 0, clown := 0, pa := 0 }
def die0 : DieSt := { roots := [(1, 100)], tlb := [{ ctx := 1, va := 0, leaf := leaf0 }], tlb1 := [(0, [{ ctx := 1, va := 0, leaf := leaf0 }]), (9, [{ ctx := 1, va := 0, leaf := leaf0 }])] }
def baseD (d : DieSt) : State := { base with die := [(0, d)] }
/-- A device address of die 0. -/
def dv (k : Int) : Int := devAddr 0 k
def stW : Thread := { th with st := .waiting }
def baseR (d : DieSt) (rs : List Req) : State := { base with die := [(0, d)], reqs := rs }
/-- A request of lane 0. -/
def rq (k : RK) : Req := { id := 9, kind := k, ctx := 1, core := 1, warp := 28, lane := 0, gid := 3, ea := dv 0, own := 0, pa := 0, leaf := some leaf0, pc := 1000, next := 1001 }
def fullSec : L2Sec := { tr := (List.range 27).map (fun i => (i, { written := true, val := (i : Int) - 13 : LTryte })), ctx := 1 }
def dieL2 : DieSt := { die0 with l2 := [(l2Key 0 false, fullSec)] }
def atomR : Req := { rq (.atom .add .wd 5 3) with stage := .home }
def tktR : Req := { rq (.tkt 4 3) with stage := .home }
def ldR : Req := { rq (.load .wd 3 .page false) with stage := .home }
def stvR (st : Stage) : Req := { rq (.stva .wd 70000 100) with stage := st }
def tkpR (n : Int) (st : Stage) : Req := { rq (.tkp 4 n) with stage := st }
def tr27 : Tab Int := (List.range 27).map (fun i => (i + 27, (i : Int)))
def pfR : Req := { rq (.pref .page) with stage := .filled tr27 (.at_ 9) 0, t := dv 0 }
def ldS : Req := { rq (.load .dw 4 .page false) with stage := .l1, got := (List.range 6).map (fun i => (i, (i : Int) + 1)) }
def l1All : Tab L1Line := [(ikey (lineOf (dv 0)), { tr := (List.range 81).map (fun i => (i, { written := false, val := (i : Int) - 40 })), ends := [(0, .at_ 9), (1, .unlim), (2, .at_ 0)] })]
def ldSt : State := { baseR die0 [ldS] with cor := [(1, { core1 with l1 := l1All })], wrp := [(28, { uwarp with out := [{ gid := 3, cls := .ld, left := 2 }] })] }
def svR : Req := { rq (.stva .wd 5 7) with stage := .reply 0 20 }
def feR : Req := { rq (.fetch 5) with lanes := [0, 1], stage := .filled ((List.range 81).map (fun i => (i, (i : Int)))) .unlim 0 }
def oaR : Req := { rq (.load .wd 4 .page false) with leaf := none }
def pfltR : Req := { rq (.load .wd 4 .page false) with stage := .faulted false, t := dv 0 }
def wbR : Req := { rq (.wb [(30, 5), (31, 6)] 0) with stage := .faulted true, lane := 16, gid := 0 }
def heR (k : RK) (own : Nat) : Req := { rq k with held := true, own := own, ea := devAddr own 0, sent := 3 }
def hostR (k : RK) : Req := { rq k with ea := -pow3 53 + 4097, own := 9 }
def lop : NibOp := .loop 0 1 2 true .t3 .t3 3 3
def ncmd (op : NibOp) : NibCmd := { id := 4, part := 0, warp := 28, lanes := [0, 1], gid := 3, slot := 2, op := op, tok := some 5 }
def scr1 : Tab Int := (List.range 3000).map (fun i => (2 * i, ((i * i % 19683 : Nat) : Int) - 9841))
def nibCore (l : List NibCmd) (st0 st1 : Nat) : CoreSt := { core1 with rings := [(0, { mem := [0] }), (1, { mem := [1] }), (2, { mem := [2] })], folio := [(0, { st := st0, nz := [5,5,5,5,5,5,5,5,5] }), (1, { st := st1, nz := [5,5,5,5,5,5,5,5,5] })], nib := l, scr := scr1, slots := [(2, { acc := [(0, 7), (728, -9), (100, 3000000000000)], pa := 3 })] }
def nst (l : List NibCmd) (st0 st1 : Nat) : State := { baseC (nibCore l st0 st1) with wrp := [(28, { uwarp with out := [{ gid := 3, cls := .tl, left := 2 }] })] }
def ncmd2 : NibCmd := { ncmd lop with now := true, aFolio := some 0, bFolio := some 1 }
def dro : DrainOp := { res := false, drop := false, z := true, tok := true, slot := 2, ro := 2, rr := 0, a := 0, b := 0, c := 0 }
def ncmd4 : NibCmd := { ncmd (.drain dro .t9 400 243 0 1 1 0 0 77) with now := true, aFolio := some 2 }
def ncmd5 : NibCmd := { ncmd (.qscale 4 5 243 243 .t9) with now := true }
def ncmd6 : NibCmd := { ncmd5 with now := false, fin := true }
def cpo : CpOpt := { mode := .tt, tok := true, sring := none, dring := none, btype := .i8, tty := .t9, qw := 0, tag := 12 }
def cp0 : Copy := { id := 6, warp := 28, lanes := [0, 1], gid := 3, pc := 1000, form := .lin, o := cpo, src := dv 0, dst := dv 500, count := 3, pos := 1 }
def cst (x : Copy) (d : DieSt) : State := { baseD d with cor := [(1, { core1 with copies := [x] })], wrp := [(28, { uwarp with out := [{ gid := 3, cls := .cp, left := 2 }] })] }
def dieC : DieSt := { die0 with roots := [(1, 7)], l2 := [(l2Key 0 false, { tr := (List.range 27).map (fun i => (i, { written := true, val := (i : Int) - 9 : LTryte })) })], clk := 50 }
def cpb : Copy := { cp0 with buf := [(0, 0, (List.range 27).map (fun i => (i : Int) - 9))] }
def dieC2 : DieSt := { dieC with l2 := dieC.l2 ++ [(l2Key (3 * lineOf (cp0.dstAddr 1 - dv 0)) false, { ctx := 1, slice := hashSlice 0 (lineOf (cp0.dstAddr 1 - dv 0)) })] }
def cpq : Copy := { cp0 with o := { cpo with mode := .q }, pos := 0 }
def cqst : State := { cst cpq die0 with cor := [(1, { core1 with copies := [cpq], sq := [{ tag := 10, scale := 5 }, { tag := 11, scale := 5, used := true }, { tag := 12, scale := 200 }, { tag := 13, scale := 3 }] })] }
def cpg : Copy := { cp0 with form := .gather, idxPort := some 11, pos := 0 }
def cpe : Copy := { cp0 with pos := 3, w := 40, soft := true }
def des : State := baseX { uctx with sess := [(0, { cmds := [2 * pow3 24 + 5, 7] })] }
def des2 : State := baseX { uctx with sess := [(0, { flushing := some 4 })] }
def des3 : State := baseX { uctx with sess := [(0, { cmds := [3 * pow3 24 + 5, 7], hist := [(0, [])], slots := [(1, [])] })] }
def des4 : State := baseX { uctx with sess := [(0, { frames := [{ hist := [(0, [])], num := 1 }], slots := [(1, [])] })] }
def dwords : List Int := [-13, loW (dv 1000000), hiW (dv 1000000), 1, loW (dv 0), hiW (dv 0), 2, 0, 0, 2 + 2 * pow3 9, -13 * pow3 18 + 2 + 2 * pow3 9] ++ List.replicate 16 0
def dtr : List Int := dwords.flatMap (toTrytes 3)
def secAt (k : Nat) : L2Sec := { tr := (List.range 27).map (fun i => (i, { written := true, val := dtr.getD (27 * k + i) 0 : LTryte })) }
def dieDec : DieSt := { die0 with roots := [(1, 7)], l2 := [(l2Key (-1) false, secAt 0), (l2Key 0 false, secAt 1), (l2Key 1 false, secAt 2)], wins := [(0, { vbase := 1000000, blen := 64, pbase := 0, ctx := 1, r := 1, w := 1 })] }
def dcmd : Int := pow3 24 - half 24
def ddst : State := { baseX { uctx with decbase := dv 0, sess := [(0, { cmds := [dcmd, 9] })] } with die := [(0, dieDec)] }
def pnd (c : Nat) : Raise := { cause := c, pc := 990, code := 3, status := 2, ea := 44 }
def tst (w : Warp) (a b : Thread) : State := { base2 a b with wrp := [(28, { w with stopping := true })], parts := [(1, { resetPart with up := true })] }
def xsv : Ctx := { uctx with savebase := pow3 53 - half 12 }
def tst2 (x : Ctx) (hm : Bool) : State := { tst { uwarp with hm := hm } { th with pend := some (pnd 5), inH := hm } { stW with wait := .claim } with ctxs := [(1, x), (28, { part := 1, live := true })], wrp := [(28, { uwarp with hm := hm, stopping := true }), (30, uwarp)], thr := [(448, { th with pend := some (pnd 5), inH := hm }), (449, { stW with wait := .claim }), (481, th)] }
def hst : State := { base2 { stW with wait := .claim } { stW with wait := .claim } with ctxs := [(1, { uctx with hang := some 0 }), (28, { part := 1, live := true })], die := [(0, { clk := 2000000 })] }
def kst : State := { baseX { uctx with killing := true, killNeg := true } with cor := [(0, { blk := some (28, 0) }), (1, { core1 with clid := 3 }), (2, { blk := some (1, 1) }), (3, { blk := some (2, 0) })], thr := [(448, th), (896, th), (448 * 3, th)], wrp := [(28, uwarp), (56, uwarp), (84, { ctx := 2 })], bars := [] }
def svst : State := { baseX { xsv with savebase := dv 0 - half 12, blk := [(0, .saving 1 77), (1, .ended)] } with mem := [], die := [(0, {})], wrp := [(28, { uwarp with stopping := false })], thr := [(448, { stW with st := .stopped, prior := .runnable }), (449, th)], cor := [(0, { blk := some (28, 0) }), (1, { core1 with clid := 3 })], parts := [(1, { resetPart with up := true })] }
def qe : Queued := { ctx := 1, bid := 5, since := 0, resume := false }
def best : State := { base with thr := [], wrp := [], cor := [(1, { blk := some (1, 0), clid := 4, pbuf := [.red 0 28 5 .add .wd 6 false] })], ctxs := [(1, { uctx with pend := [(0, [.red 0 28 4 .add .wd 6 false])] })] }
def ccst : State := { baseX { uctx with blk := [(0, .ended)], lr := { uctx.lr with cmpa := dv 4 } } with die := [(0, { die0 with l2 := [(l2Key 0 false, { tr := (List.range 27).map (fun i => (i, { written := true, val := (i : Int) - 9 : LTryte })) })], queue := [{ ctx := 1, bid := 3, since := 0, resume := false }] })], recs := [] }
def bn : Bin := { entry := 5, args := [(1, 2), (3, 0), (0, 4)], due := 0, flush := true }
def cgst : State := { base2 { stW with wait := .claim } { stW with wait := .claim } with cor := [(1, { core1 with claims := [{ by_ := .warp 28 2 [0, 1], words := 288 }, { by_ := .bin 3, words := 4 }] })] }
def hs : State := { base with parts := [(1, { resetPart with dies := [0, 1], up := true })], mg := { hostRd := [[1]] } }
def b8 : List (BitVec 8) := [1, 0xff, 0, 0, 0, 0, 0, 0]
def pw (sec : Bool) : Posted := { no := 3, req := 2, part := 1, own := 0, byte := 64, bytes := (List.range 64).map (fun i => 300 - i), sector := sec }
def hs2 (sec : Bool) : State := { hs with mg := { posted := [pw sec, { pw sec with no := 4 }], lastW := [(33, 7)] }, die := [(0, { clk := 50, l2 := [(l2Key (1 - halfSecs 0) false, { tr := [(3, { written := true, val := 5 })] })] })] }
def hs3 : State := { hs with mg := { p2p := 1 }, die := [(0, { wins := [(0, { vbase := 1000000, blen := 64, pbase := 0, ctx := 1, r := 1, w := 1 })] })] }
def m1 : State := { base with mg := { owner := 2, claimst := 7 } }
def sst : State := { base with ctxs := [(1, uctx), (28, { part := 1, live := true })], reqs := [{ rq (.stva .wd 3 4) with stage := .home }], parts := [(1, { resetPart with up := true })], mg := { owner := 2 } }
def aU (pc : Int) : State := { base with thr := [(448, { th with pc := pc }), (449, { th with pc := pc })], wrp := [(28, { uwarp with fetch := some (lineWith pc [spellUnit (-364) 0 (-4) (-121) (-120) (-119) 0 0 0 0 0 0] (codeLine pc)) })], die := [(0, { clk := 5 })] }
def pc0 : Int := State.firstIndex base
def addI : Instr := .add hd false false 0 1 2
def tt := match exec addI ((aU pc0).atUnit 28 [0,1] pc0 1) with | .next t => t | _ => base
def rg : Thread := { th with regs := [(0, 5), (1, 6), (2, loW (dv 0)), (3, hiW (dv 0)), (4, 2), (5, -3), (6, 243 + 300 * pow3 9 + 729 * pow3 18)], preds := [(3, 1)] }
def rg2 : Thread := { rg with regs := [(0, 7), (1, 6), (4, 3), (5, 9)], preds := [] }
def ub : State := { base2 rg rg2 with wrp := [(28, { uwarp with pl := 0, hm := true })], cor := [(1, { core1 with ports := [(0, [1,2,3,4,5,6,7]), (13, [5])], folio := [(2, { st := 2, nz := [1,2,3,4,5,6,7,8,9] })] })] }
def gd : Hdr := { hd with gpred := 3, gcond := 1 }
def un : State := { ub with cor := [(1, { core1 with rings := [(0, { mem := [0] }), (1, { mem := [1] }), (2, { mem := [2] })], slots := [(2, { atype := .t3, btype := .t3, pa := 3, pb := .p3 })] })] }
def uc : State := { ub with thr := [(448, { rg with regs := [(0, 3 + 2 * pow3 9), (2, loW (dv 0)), (3, hiW (dv 0)), (4, loW (dv 900)), (5, hiW (dv 900)), (6, 3), (7, -88572), (8, loW (dv (-364))), (9, hiW (dv (-364)))] }), (449, rg2)] }
def co : CpOpt := { mode := .tt, tok := true, sring := none, dring := none, btype := .i8, tty := .t9, qw := 0, tag := 12 }
def rg13 : Thread := { th with regs := [(0, 5), (1, 6), (2, loW (dv 0)), (3, hiW (dv 0)), (4, 1), (5, -3), (6, -364), (7, -1)], preds := [(3, 1)] }
def rg213 : Thread := { rg13 with regs := [(0, 7), (1, 6), (4, 3), (5, 9)], preds := [] }
def swarp : Warp := { ctx := 28, n := 27, pl := 1 }
def bs : State := { base2 th { th with wait := .until_, st := .waiting } with thr := [(0, rg13), (1, rg213), (448, th), (449, { th with st := .waiting, wait := .until_ })], wrp := [(0, swarp), (28, uwarp)], cor := [(0, {}), (1, core1)], cur := { warp := 0, lanes := [0, 1], n := 1000, first := 1000, next := 1001 } }
def fbd : DieSt := { die0 with fb := [{ ctx := 1, page := pageOf (dv 0) }, { ctx := 1, page := 5 }, { ctx := 2, page := 5 }], dropped := [1, 2] }
def rqs : State := { bs with die := [(0, fbd)], reqs := [{ rq (.load .wd 8 .page false) with stage := .parked }], ctxs := [(1, { uctx with lr := { uctx.lr with blocks := 3 } }), (28, { part := 1, live := true })], thr := [(0, { rg13 with regs := [(2, loW (dv 0)), (3, hiW (dv 0)), (4, 1), (6, -364)] }), (1, rg213), (448, { th with busy := true }), (449, th)] }
def rsv : State := { rqs with ctxs := [(1, { uctx with blk := [(0, .placed 1), (1, .held true), (2, .ended)], lr := { uctx.lr with blocks := 3 } }), (28, { part := 1, live := true })] }
def rg15 : Thread := { th with regs := [(0, 5), (1, 6), (2, loW (dv 0)), (3, hiW (dv 0)), (4, 1), (5, -3), (6, 0), (7, -1), (9, 300), (10, 0), (11, 600)], preds := [(3, 1)] }
def rg215 : Thread := { rg15 with regs := [(0, 7), (1, 6), (2, loW (dv 27)), (3, hiW (dv 27)), (4, 3), (5, 9), (9, 303)], preds := [] }
def rg3 : Thread := { rg215 with preds := [(3, 1)] }
def lc : Launch := { dies := [0], regs := 27, preds := 27, folios := 9, rings := 3, counts := [(0, 2), (1, 2)] }
def ub15 : State := { base2 rg15 rg215 with wrp := [(28, { uwarp with pl := 0, hm := true })], cor := [(1, { core1 with ports := [(0, [1,2,3,4,5,6,7]), (11, [5, 6])] })], ctxs := [(1, { uctx with lr := lc }), (28, { part := 1, live := true })] }
def u2 : State := { ub15 with thr := [(448, rg15), (449, rg3)] }
def fn : State := { u2 with thr := [(448, { rg15 with wait := .fenced .sys }), (449, { rg3 with wait := .fenced .sys })] }
def mm (a k : Nat) (d : Int) : MOp := { a := a, b := k, k := 1, disp := d }
def rg16 : Thread := { th with regs := [(0, 5), (1, 6), (2, loW (dv 0)), (3, hiW (dv 0)), (4, 1), (5, -3), (6, 0), (7, -1), (9, 300), (10, 0), (11, 600)], preds := [(3, 1)] }
def rg216 : Thread := { rg16 with regs := [(0, 7), (1, 6), (2, loW (dv 27)), (3, hiW (dv 27)), (4, 3), (5, 9), (9, 303)], preds := [] }
def rg316 : Thread := { rg216 with preds := [(3, 1)] }
def ub16 : State := { base2 rg16 rg216 with wrp := [(28, { uwarp with pl := 0, hm := true })], cor := [(1, { core1 with ports := [(0, [1,2,3,4,5,6,7]), (11, [5, 6])] })], ctxs := [(1, { uctx with lr := lc }), (28, { part := 1, live := true })] }
def u216 : State := { ub16 with thr := [(448, rg16), (449, rg316)] }
def fi : Int := pow3 51 - 1000
def u3 : State := { u216 with wrp := [(28, uwarp)] }
def ht : State := { u216 with thr := [(448, { rg16 with inH := true, epc := pow3 40, emr := 7 }), (449, { rg316 with inH := true, epc := 5 }), (450, { rg16 with st := .stopped, prior := .runnable })] }
def rg17 : Thread := { th with regs := [(0, 5), (1, 6), (2, loW (dv 0)), (3, hiW (dv 0)), (4, 1), (5, -3), (6, 0), (7, -1), (9, 300), (10, 0), (11, 600)], preds := [(3, 1)] }
def rg217 : Thread := { rg17 with regs := [(0, 7), (1, 6), (2, loW (dv 27)), (3, hiW (dv 27)), (4, 3), (5, 9), (9, 303)], preds := [] }
def rg317 : Thread := { rg217 with preds := [(3, 1)] }
def ub17 : State := { base2 rg17 rg217 with wrp := [(28, { uwarp with pl := 0, hm := true })], cor := [(1, { core1 with ports := [(0, [1,2,3,4,5,6,7]), (11, [5, 6])] })], ctxs := [(1, { uctx with lr := lc }), (28, { part := 1, live := true })] }
def u217 : State := { ub17 with thr := [(448, rg17), (449, rg317)] }
def lm : Launch := { lc with blocks := 2 }
def um : State := { u217 with ctxs := [(1, { uctx with lr := lm, blk := [(0, .placed 1), (1, .placed 2)] }), (28, { part := 1, live := true })] }
def ul : State := { u217 with thr := [(448, { rg17 with regs := [(2, 33), (4, 1)], preds := [(3, 1)] }), (449, { rg317 with regs := [(2, 36), (4, 2)] })], cor := [(1, { core1 with scr := [(30, 5), (33, 6)], ports := [(0, [0, 3, 6])] })] }
def oo : Acc := { ord := .rlx, scope := .dflt }
def mz (a k : Nat) (d : Int) : MOp := { a := a, b := k, k := 0, disp := d }
def rg19 : Thread := { th with regs := [(0, 5), (1, 6), (2, loW (dv 0)), (3, hiW (dv 0)), (4, 1), (5, -3), (6, 0), (7, -1), (9, 300), (10, 0), (11, 600)], preds := [(3, 1)] }
def rg219 : Thread := { rg19 with regs := [(0, 7), (1, 6), (2, loW (dv 27)), (3, hiW (dv 27)), (4, 3), (5, 9), (9, 303)], preds := [] }
def rg319 : Thread := { rg219 with preds := [(3, 1)] }
def ub19 : State := { base2 rg19 rg219 with wrp := [(28, { uwarp with pl := 0, hm := true })], cor := [(1, { core1 with ports := [(0, [1,2,3,4,5,6,7]), (11, [5, 6])] })], ctxs := [(1, { uctx with lr := lc }), (28, { part := 1, live := true })] }
def u219 : State := { ub19 with thr := [(448, rg19), (449, rg319)] }
def ent (sig tgt : Int) : Int := tgt + sig * pow3 54
def ict (e : Int) : State := { u219 with ctxs := [(1, { uctx with ftbase := dv 0, ftlen := 50, lr := lc }), (28, { part := 1, live := true })], cor := [(1, { core1 with ic := [(ikey (lineOf (dv 0)), { line := lineOf (dv 0), units := List.replicate 9 e })] })] }
def dg : State := { u219 with wrp := [(28, { uwarp with pl := 0, hm := false, draft := { depth := 2, lanes := [0, 1], handler := 4000, ckpt := [{ lane := 0, regs := [(1, 4)], preds := [(2, 1)], mr := 9 }, { lane := 1, regs := [(1, 5)], preds := [(2, -1)], mr := 8 }] } })] }
def dg1 : State := { u219 with wrp := [(28, { uwarp with pl := 0, hm := false, draft := { depth := 1, lanes := [0, 1], handler := 4000, ckpt := [{ lane := 0, regs := [(1, 4)], preds := [(2, 1)], mr := 9 }, { lane := 1, regs := [(1, 5)], preds := [(2, -1)], mr := 8 }] } })] }
def scw : State := { u219 with cur := { warp := 28 + 27, lanes := [3], n := 1000, first := 1000, next := 1001 }, wrp := [(55, { uwarp with pl := 0, hm := true })], thr := [((28 + 27) * 16 + 3, rg19)], cor := [(1, { core1 with scribe := { state := 2, start := 995, len := 20, warp := 28 } })] }
def rg20 : Thread := { th with regs := [(0, 5), (1, 6), (2, loW (dv 0)), (3, hiW (dv 0)), (4, 1), (5, -3), (6, 0), (7, -1), (9, 300), (10, 0), (11, 600)], preds := [(3, 1)] }
def rg220 : Thread := { rg20 with regs := [(0, 7), (1, 6), (2, loW (dv 27)), (3, hiW (dv 27)), (4, 3), (5, 9), (9, 303)], preds := [] }
def rg320 : Thread := { rg220 with preds := [(3, 1)] }
def ub20 : State := { base2 rg20 rg220 with wrp := [(28, { uwarp with pl := 0, hm := true })], cor := [(1, { core1 with ports := [(0, [1,2,3,4,5,6,7]), (11, [5, 6])] })], ctxs := [(1, { uctx with lr := lc }), (28, { part := 1, live := true })] }
def u220 : State := { ub20 with thr := [(448, rg20), (449, rg320)] }
def rg22 : Thread := { th with regs := [(0, 5), (1, 6), (2, loW (dv 0)), (3, hiW (dv 0)), (4, 1), (5, -3), (6, 0), (7, -1), (9, 300), (10, 0), (11, 600), (12, unitScale * (1 + 19683 + 19683 * 19683)), (13, 1003)], preds := [(3, 1)] }
def rg222 : Thread := { rg22 with preds := [] }
def tbl12 : Tab Int := [(0, 2), (3, 3), (6, 1), (9, 4), (12, 5)]
def ub22 : State := { base2 rg22 rg222 with wrp := [(28, { uwarp with pl := 0, hm := true })], cor := [(1, { core1 with ports := [(0, [1,2,3,4,5,6,7]), (11, [5, 6])] })], ctxs := [(1, { uctx with lr := lc }), (28, { part := 1, live := true })] }
def uc22 : State := { ub22 with thr := [(448, { rg22 with regs := [(0, 3 + 2 * pow3 9), (1, -88572), (2, loW (dv 0)), (3, hiW (dv 0)), (4, loW (dv 900)), (5, hiW (dv 900)), (6, 3), (7, -88572), (8, loW (dv (-364))), (9, hiW (dv (-364)))] }), (449, rg222)] }
def dn : Int := dv 0 / 9 + 100
def udv : State := { u2 with cur := { u2.cur with n := dn, first := dn, next := dn + 1 } }
def sc : State := { udv with cor := [(1, { core1 with scribe := { state := 1, start := dn + 3, len := 1, warp := 28, alloc := true, lanes := [0], grans := 1, units := (encode (.exit hd)).getD [] } })] }
def swarp22 : Warp := { ctx := 28, n := 27, pl := 1 }
def bs22 : State := { base with cur := { warp := 0, lanes := [0, 1], n := 1000, first := 1000, next := 1001 } }
def vrg : Thread := { rg22 with regs := [(2, loW (dv 0)), (3, hiW (dv 0)), (4, loW 21523361), (5, hiW 21523361), (6, 3)] }
def vst : State := { bs22 with thr := [(0, vrg), (1, vrg)], cor := [(0, {}), (1, {})], ctxs := [(28, { part := 1, live := true })], wrp := [(0, swarp22)], die := [(0, die0)] }
def rg23 : Thread := { th with regs := [(0, 5), (1, 6), (2, loW (dv 0)), (3, hiW (dv 0)), (4, 1), (5, -3), (6, 0), (7, -1), (9, 300), (10, 0), (11, 600)], preds := [(3, 1)] }
def rg223 : Thread := { rg23 with regs := [(0, 7), (1, 6), (2, loW (dv 27)), (3, hiW (dv 27)), (4, 3), (5, 9), (9, 303)], preds := [] }
def rg323 : Thread := { rg223 with preds := [(3, 1)] }
def ub23 : State := { base2 rg23 rg223 with wrp := [(28, { uwarp with pl := 0, hm := true })], cor := [(1, { core1 with ports := [(0, [1,2,3,4,5,6,7]), (11, [5, 6])] })], ctxs := [(1, { uctx with lr := lc }), (28, { part := 1, live := true })] }
def u223 : State := { ub23 with thr := [(448, rg23), (449, rg323)] }
def u323 : State := { u223 with wrp := [(28, uwarp)] }
def mm23 (a b : Nat) (d : Int) : MOp := { a := a, b := b, k := 0, disp := d }
def dr : Draft := { depth := 2, lanes := [0, 1], handler := 4000, ckpt := [{ lane := 0, regs := [(1, 4)], preds := [(2, 1)], mr := 9 }, { lane := 1, regs := [(1, 5)], preds := [(2, -1)], mr := 8 }] }
def dg23 : State := { u223 with wrp := [(28, { uwarp with pl := 0, hm := false, draft := dr, owed := [{ thr := 448, d := 20, val := 5 }] })], cor := [(1, { core1 with blot := [{ warp := 28, lane := 1, ea := 5, val := 6 }, { warp := 29, lane := 1, ea := 5, val := 6 }] })] }
def dgm : State := { dg23 with wrp := [(28, { uwarp with pl := 0, hm := false, draft := { dr with lanes := [1, 5] , ckpt := dr.ckpt ++ [{ lane := 5, regs := [], preds := [], mr := 3 }]} })], thr := dg23.thr ++ [(453, { rg23 with st := .stopped })], reqs := [{ rq (.load .wd 8 .page false) with lane := 5, drafted := true }, rq (.load .wd 8 .page false)] }
def dgs : State := { dg23 with wrp := [(28, { uwarp with ctx := 28, pl := 1, hm := false, draft := dr })] }
def u4 : State := { u323 with thr := [(448, { rg23 with regs := rg23.regs ++ [(12, 5), (13, 500), (14, 0), (16, 0)] }), (449, { rg323 with regs := rg323.regs ++ [(11, 7), (12, 1000), (13, 4000000000000 - 1), (14, 9), (16, 20000000)] }), (450, th)] }
def scw23 : State := { u223 with cur := { warp := 28 + 27, lanes := [3], n := 1000, first := 1000, next := 1001 }, wrp := [(55, { uwarp with pl := 0, hm := true, idx := 27, n := 18 })], thr := [((28 + 27) * 16 + 3, rg23)], cor := [(1, { core1 with scribe := { state := 2, start := 995, len := 20, warp := 28 }, ports := [(11, [4])] })] }
def scl : State := { scw23 with thr := [((28 + 27) * 16 + 3, { rg23 with loops := [{ start := 998, stop := 1001, left := 3 }, { start := 997, stop := 1001, left := 3 }] })] }
def wd (s : State) (low e : Int) : State := s.homePut 0 false 1 ((List.range 6).map (fun (i : Nat) => (low + ((i : Nat) : Int), (toTrytes 6 e).getD i 0)))
def off : Int := 1234567890123
def low (k : Int) : Int := 6561 * k - 3280
def lr : Req := { rq (.load .wd 4 .page false) with stage := .owner, ea := devAddr 0 off, pa := 0, leaf := none }
def far (k : RK) : Req := { rq k with held := true, own := 27, ea := devAddr 27 5, stage := .owner, leaf := none, sent := 0 }
def fst_ (r : Req) : State := { base with thr := [(448, { th with busy := true }), (449, th)], wrp := [(28, { uwarp with out := [{ gid := 3, cls := .ld, left := 2 }] })], reqs := [r], die := [(0, { clk := 20000000 })], mg := { domain := 3, trained := (List.range 9).map (fun i => (i, false)) } }
def fullS : L2Sec := { tr := (List.range 27).map (fun i => (i, { written := true, val := (i : Int) - 9 : LTryte })) }
def dieL24 : DieSt := { die0 with clk := 30, l2 := [(l2Key 0 false, fullS)], wins := [(0, { vbase := 1000000, blen := 640, pbase := 0, ctx := 1, r := 1, w := 1 })] }
def ldbR : Req := { rq (.ldb .i16 .t27 false 3) with stage := .home, pa := 70 }
def stbR : Req := { rq (.stb 4 70000 true) with stage := .home, pa := 70 }
def st1 : State := baseW { uwarp with owed := [{ thr := 448, d := 215, val := 9 }] }
def st2 : State := base2 { stW with wait := .fence .cluster false true 0 } th
def st5 : State := base2 { stW with wait := .until_, deadline := some 0 } th
def st6 : State := base2 { stW with wait := .timed false, deadline := some (-1) } th
def st7 : State := baseC { core1 with alarms := [{ at_ := 5, word := 1 }, { at_ := 0, word := 2 }, { at_ := 0, word := 3 }] }
def st8 : State := base2 { stW with wait := .timed false } { stW with wait := .reissue (.folio 3) false, stamp := 1 }
def st9 : State := { base with die := [(0, { clk := 2187 })] }
def st10 : State := { base2 { stW with wait := .barrier .warp 28 2 5 false } { stW with wait := .barw .warp 28 2 5 } with wrp := [(28, { uwarp with barr := [(2, [0, 1])], bph := [(2, 5)] })] }
def st11 : State := { base2 { stW with wait := .barrier .block 1 2 9841 false } th with cor := [(1, { core1 with bars := [(2, { phase := 9841, warps := [{ blk := 2000000, idx := 0, bv := none }] })] })], ctxs := [(1, { uctx with lr := { uctx.lr with counts := [(2, 1)] } })] }
def st12 : State := { base2 { stW with wait := .phase } th with ctxs := [(1, { uctx with phaseApplied := true, phaseW := 0, closed := [(0, 0)] })] }
def st13 : State := { base with reqs := [{ rq (.msg 0 77) with stage := .home }] }
def st14 : State := baseR die0 [{ rq (.prep 28 100 none true) with stage := .home }]
def st16 : State := { baseR die0 [{ rq (.prep 28 100 none true) with stage := .reply 1 0 }, { rq (.prep 28 100 none false) with id := 10, stage := .reply 1 0 }, { rq (.store .wd 3) with id := 11 }] with wrp := [(28, { uwarp with draft := { depth := 1, lanes := [0], ink := .sent 100 } })], cor := [(1, { core1 with blot := [{ warp := 28, lane := 0, ea := dv 0, val := 4 }] })] }
def st18 : State := { base2 { stW with wait := .ink } th with wrp := [(28, { uwarp with draft := { depth := 1, lanes := [0], ink := .going 0 } })], cor := [(1, { core1 with blot := [{ warp := 28, lane := 0, ea := -88572, val := 4 }, { warp := 28, lane := 0, ea := 3, val := 5 }] })] }
def st21 : State := baseR die0 [ldR]
def st22 : State := baseR { die0 with clk := 100 } [stvR .home]
def st26 : State := baseR die0 [tkpR 3 .refused]
def st27 : State := baseD dieL2
def st28 : State := base2 { th with regs := [(3, 8)] } th
def st29 : State := baseC { core1 with ic := [(4, { line := 4, units := [] })] }
def st30 : State := { baseR die0 [pfR] with cor := [(1, { core1 with l1 := [(ikey (lineOf (dv 0)), { tr := [(30, { written := true, val := 8 })] })] })] }
def st31 : State := { baseR die0 [svR] with wrp := [(28, { uwarp with out := [{ gid := 3, cls := .st, left := 1 }], rtC := 5, rtN := 90 })] }
def st32 : State := { ldSt with cor := [(1, { core1 with l1 := [(ikey (lineOf (dv 0)), { tr := [(30, { written := true, val := 8 }), (31, { written := false, val := 8 })] })] })] }
def st33 : State := { base2 { th with busy := true } { th with busy := true } with reqs := [feR] }
def st34 : State := { baseR { die0 with roots := [(1, 7)] } [oaR] with thr := [(448, { th with busy := true }), (449, th)] }
def st35 : State := { baseR die0 [pfltR] with wrp := [(28, { uwarp with out := [{ gid := 3, cls := .ld, left := 2 }] })], thr := [(448, { th with busy := true }), (449, th)], parts := [(1, { resetPart with up := true })] }
def st36 : State := { base with recs := [{ core := 81, deferred := true, words := [1, 2, 3] }, { core := 0, deferred := true, words := [1, 2, 3] }] }
def st37 : State := baseR die0 [wbR]
def st38 : State := { baseR die0 [heR (.atom .add .wd 5 3) 27] with mg := { domain := 3 }, die := [(27, { clk := 5 })] }
def st39 : State := baseR die0 [hostR (.stb 4 300 false)]
def st40 : State := baseR die0 [hostR (.stb 4 300 false)]
def st41 : State := baseR die0 [{ hostR (.stb 4 300 false) with stage := .pri }]
def st42 : State := { base with ats := [(3, 4, 5, true), (3, 5, 6, false)] }
def st43 : State := { base with die := [(0, { clk := 100, budget := [(0, 5)] })] }
def st45 : State := { baseC { core1 with scribe := { state := 2, warp := 28 } } with wrp := [(28, uwarp), (55, uwarp)] }
def st46 : State := base2 { th with later := [{ cause := 9, deferred := true }, { cause := 17, deferred := true }] } { th with busy := true, later := [{ cause := 9 }] }
def st47 : State := base2 { th with later := [{ cause := 11, deferred := true, ea := 7 }] } th
def st48 : State := { baseX { uctx with blk := [(0, .placed 1), (5, .wait false)], lr := { uctx.lr with blocks := 6, nbt := 3, dies := [0, 2] } } with die := [(2, { clk := 3 })] }
def st49 : State := { baseX { uctx with blk := [(0, .placed 1), (5, .queued)], lr := { uctx.lr with blocks := 6 } } with die := [(0, { queue := [qe] })], cor := [(1, { blk := some (1, 0) })] }
def st50 : State := baseX { uctx with blk := [(0, .placed 1), (5, .taken 2 false)], lr := { uctx.lr with blocks := 6, warps := 5, entry := 321, init := [7, 8, 0, 9] } }
def st51 : State := baseC { core1 with bins := [(3, { entry := 5, args := [(1, 2)], due := 0 })] }
def st52 : State := baseC { core1 with bins := [(2, { entry := 6, args := [(1, 2)], due := 0 }), (3, bn)], spawned := 2 }
def st53 : State := { hs with mem := [(63, 9), (64, 8)] }
def st54 : State := { base with mg := { bootst := 4 } }
def st55 : State := { sst with bad := [(0, 3), (2, 4)], mem := [(3, 4)] }
def st56 : State := { base with mg := { therm := 65536 * 65535 } }
def st58 : State := { sst with mem := [(3, 4), (27 * 2199023255552 + 5, 3)] }
def st59 : State := { sst with pkg := 1, mg := { domain := 3 } }
def st61 : State := { sst with pkg := 1, mg := { domain := 3, noSync := 8 } }
def st62 : State := { sst with mg := { holdover := true, goodSync := 16 } }
def st63 : State := { ub with thr := [(448, { rg with mr := 1012 }), (449, { rg2 with mr := 1012 }), (450, { rg with mr := 1012, st := .held })] }
def st64 : State := { ub with thr := [(448, { rg with mr := 1012 }), (449, { rg2 with mr := 1012 }), (450, { rg with mr := 1012, st := .held })] }
def st65 : State := { ub with reqs := [{ rq (.load .wd 8 .page false) with stage := .home }] }
def st66 : State := { ub with reqs := [{ rq (.icpf 5) with stage := .home }] }
def st67 : State := { ub with reqs := [{ rq (.icpf 5) with stage := .home }] }
def st70 : State := { bs with cor := [(0, { ports := [(13, [4])] }), (1, core1)] }
def st72 : State := { bs with ctxs := [(1, { uctx with savebase := pow3 53 - half 12 }), (28, { part := 1, live := true })] }
def st73 : State := { bs with ctxs := [(1, { uctx with savebase := pow3 53 - half 12, lr := { uctx.lr with blocks := 3 } }), (28, { part := 1, live := true })] }
def st74 : State := { rqs with thr := [(0, { rg13 with wait := .fenced .sys, regs := [(2, loW (dv (-364))), (3, hiW (dv (-364)))] }), (1, rg213), (448, th)] }
def st75 : State := { rsv with thr := [(0, rg13), (1, rg213)] }
def st77 : State := { rsv with thr := [(0, { rg13 with regs := [(0, 12)] }), (1, rg213)] }
def st78 : State := { ub15 with reqs := [{ rq (.store .wd 8) with stage := .owner }], wrp := [(28, { uwarp with out := [{ gid := 3, cls := .st, left := 1 }] })] }
def st79 : State := { u2 with wrp := [(28, { uwarp with out := [{ gid := 3, cls := .st, left := 1 }] })] }
def st81 : State := { u2 with reqs := [{ rq (.load .wd 8 .page false) with stage := .home }] }
def st82 : State := { u2 with thr := [(448, { rg15 with regs := [] }), (449, { rg3 with regs := [] })] }
def st83 : State := { u2 with ctxs := [(1, { uctx with lr := { lc with det := true } }), (28, { part := 1, live := true })] }
def st85 : State := { u2 with ctxs := [(1, { uctx with lr := { lc with regs := 216, group := 27, warps := 27 } }), (28, { part := 1, live := true })], wrp := (List.range 27).map (fun i => (28 + i, { uwarp with n := 216, pl := 0 })) }
def st86 : State := { u2 with cor := [(1, { core1 with ports := [(0, [1,2,3,4,5,6,7]), (11, [5, 6])] })] }
def st89 : State := { u2 with cor := [(1, { core1 with ports := [(0, [1,4,3,4,5,6,7]), (11, [5, 6])] })] }
def st93 : State := { u216 with wrp := [(28, { uwarp with owed := [{ thr := 448, d := 5, val := 6 }, { thr := 450, d := 5, val := 6 }] })] }
def st98 : State := { um with thr := [(448, rg17), (449, { rg317 with regs := [(7, 2), (0, 44)] })] }
def st102 : State := { u217 with cor := [(1, core1)] }
def st103 : State := { u217 with cor := [(1, core1)] }
def st116 : State := { u219 with cor := [(1, { core1 with scribe := { state := 2, start := 995, len := 20, warp := 28 } })] }
def st122 : State := { uc22 with cor := [(1, { core1 with scr := tbl12 })] }
def st124 : State := { u4 with thr := [(448, { rg23 with regs := [(0, 5), (16, roundF f27 (.fin 40000 0))] }), (449, { rg323 with regs := [(16, roundF f27 (.fin 4000 0))] })] }
def st125 : State := { u4 with thr := [(448, { rg23 with regs := [(12, loW (pow3 51)), (13, hiW (pow3 51))] }), (449, { rg323 with regs := [(12, 5)] })] }
def st131 : State := { baseR dieL24 [ldbR] with mem := [(70, 9), (71, 200)] }
def st132 : State := { baseR dieL24 [stbR] with mem := [(70, 9), (71, 200)] }
def udr : State := { udv with thr := [(448, { rg with regs := [(2, loW dn), (3, hiW dn)] }), (449, { rg3 with regs := [(2, loW dn), (3, hiW dn)] })] }
def leaf1 : Leaf := { leaf0 with place := 1 }
def atomC : Req := { atomR with leaf := some leaf1 }
def tktC : Req := { tktR with leaf := some leaf1 }
def tkpC (n : Int) : Req := { tkpR n .home with leaf := some leaf1 }
def stvC : Req := { stvR .buffered with leaf := some leaf1 }
def sqD (x : Seq) : DieSt := { die0 with seqs := [(4, x)], clk := 30000 }
def ict1 : State := ict (ent 77 (pow3 51))
def u3v : State := { u3 with thr := [(448, { th with regs := [(9, 300)], preds := [(3, 1)] }), (449, { th with regs := [(9, 300)], preds := [(3, 1)] })] }
def comR : Req := { rq (.commit 28 100 [(3, 5), (4, 19684), (3, 6)]) with stage := .home }
def slotSec (o : Nat) (k : Int) : L2Sec := { ctx := 1, slice := hashSlice o k, tr := (List.range 27).map (fun i => (i, { written := true, val := (i : Int) - 9 : LTryte })) }
def endSt : State := { ccst with die := [(0, { die0 with l2 := [(l2Key 0 false, slotSec 0 0)], queue := [{ ctx := 1, bid := 3, since := 0, resume := false }] })] }
def comSt : State := baseR { die0 with clk := 100, l2 := [(l2Key 0 false, slotSec 0 0)], lines := [(ikey 0, { preps := [{ warp := 28, v := 100, wr := true }] })] } [comR]
def addUnit : List Int := [spellUnit (-364) 0 (-4) (-121) (-120) (-119) 0 0 0 0 0 0]
def aU3 : State := { aU pc0 with die := [(0, { clk := 6 })] }
def wOff : Int := -364 * (pow3 41 + pow3 35 + pow3 29 + pow3 23) - 363 * pow3 17
def wPtr : Int := 6561 - pow3 53
def wLeaf : Int := pow3 53 + oAt 2 2 51 + pow3 50 + oAt 2 2 45 + oAt 1 2 43 + oAt 8 4 39
def wLf : Leaf := { size := 2, r := true, w := false, x := false, cmp := false, place := 2, lease := 1, clown := 8, pa := 0 }
def wSt (a b : Int) : State := { base with die := [(0, { roots := [(1, 3281)], l2 := [(l2Key 122 false, { ctx := 1, tr := (toTrytes 6 a ++ toTrytes 6 b).zipIdx.map (fun p => (p.2, { written := true, val := p.1 : LTryte })) })] })] }
def wReq : Req := { rq (.load .wd 4 .page false) with stage := .owner, ea := devAddr 0 wOff, pa := 0, leaf := none }
def wLd : State := { wSt 0 0 with thr := [(448, { th with busy := true }), (449, th)], reqs := [wReq] }
def supX (x : Int) : State := { u2 with wrp := [(28, { uwarp with ctx := 28, pl := 1, xsel := x })] }
def casC : Req := { rq (.cas .wd 5 70000 3) with stage := .home, leaf := some leaf1 }

/-! How the hypotheses are met by evaluation. -/

def plainB (s : State) : Bool :=
  decide (s.cur.lanes ≠ []) && decide s.cur.lanes.Nodup && s.cur.lanes.all (fun l => decide (l < 16) &&
    (decide ((s.thread (threadOf s.cur.warp l)).st = .runnable) || decide ((s.thread (threadOf s.cur.warp l)).st = .waiting)) &&
    !s.drafting s.cur.warp l) && decide (widOf s.cur.warp ≠ 27) && !(s.warp s.cur.warp).stopping &&
    (decide (trit (s.ctx (s.warp s.cur.warp).ctx).dbg 0 ≠ 1) || (s.warp s.cur.warp).hm) && !s.meetsNow s.cur.warp
theorem plain_of {s : State} (h : plainB s = true) : Plain s := by
  simp only [plainB, Bool.and_eq_true, List.all_eq_true, decide_eq_true_eq, Bool.or_eq_true, Bool.not_eq_true'] at h
  obtain ⟨⟨⟨⟨⟨⟨h1, h2⟩, h3⟩, h4⟩, h5⟩, h6⟩, h7⟩ := h
  exact ⟨h1, h2, fun l m => (h3 l m).1.1, fun l m => (h3 l m).1.2, h4, h5, fun l m => (h3 l m).2, h6, h7⟩
def draftedB (s : State) : Bool :=
  decide (s.cur.lanes ≠ []) && decide s.cur.lanes.Nodup && s.cur.lanes.all (fun l => decide (l < 16) &&
    (decide ((s.thread (s.lane l)).st = .runnable) || decide ((s.thread (s.lane l)).st = .waiting)) &&
    s.drafting s.cur.warp l) && decide (widOf s.cur.warp ≠ 27) && !(s.warp s.cur.warp).stopping &&
    (decide (trit (s.ctx (s.warp s.cur.warp).ctx).dbg 0 ≠ 1) || (s.warp s.cur.warp).hm) && !s.meetsNow s.cur.warp
theorem drafted_of {s : State} (h : draftedB s = true) : Drafted s := by
  simp only [draftedB, Bool.and_eq_true, List.all_eq_true, decide_eq_true_eq, Bool.or_eq_true, Bool.not_eq_true'] at h
  obtain ⟨⟨⟨⟨⟨⟨h1, h2⟩, h3⟩, h4⟩, h5⟩, h6⟩, h7⟩ := h
  exact ⟨h1, h2, fun l m => (h3 l m).1.1, fun l m => (h3 l m).1.2, h4, h5, fun l m => (h3 l m).2, h6, h7⟩
def legalB (s : State) (h : Hdr) (u : Uses) : Bool := s.ready h u && !s.privFault u && decide (s.fieldFault u = none)
theorem legal_of {s : State} {h : Hdr} {u : Uses} (e : legalB s h u = true) : Legal s h u := by
  simp only [legalB, Bool.and_eq_true, Bool.not_eq_true', decide_eq_true_eq] at e
  exact ⟨e.1.1, e.1.2, e.2⟩
def enterableB (s : State) : Bool :=
  decide ((s.ctx (s.warp s.cur.warp).ctx).tvec ≠ 0) && !(s.warp s.cur.warp).hm && decide ((s.warp s.cur.warp).draft.depth = 0) &&
    s.quiet s.cur.warp && !s.frozen s.cur.warp && decide (s.raisers s.cur.warp = []) && s.cur.lanes.all (fun l => decide ((s.thread (s.lane l)).kept = none))
theorem enterable_of {s : State} (e : enterableB s = true) : Enterable s := by
  simp only [enterableB, Bool.and_eq_true, Bool.not_eq_true', decide_eq_true_eq, List.all_eq_true] at e
  obtain ⟨⟨⟨⟨⟨⟨h1, h2⟩, h3⟩, h4⟩, h5⟩, h6⟩, h7⟩ := e
  exact ⟨h1, h2, h3, h4, h5, h6, h7⟩
def stillB (s : State) (w : Nat) : Bool :=
  decide (widOf w ≠ 27) && (Tab.find s.wrp w).isSome && !(s.warp w).stopping && !s.meetsNow w &&
    (threadsOf w).any (fun t => decide ((s.thread t).st ≠ .exited)) && (decide (trit (s.ctx (s.warp w).ctx).dbg 0 ≠ 1) || (s.warp w).hm)
theorem still_of {s : State} {w : Nat} (e : stillB s w = true) : Still s w := by
  simp only [stillB, Bool.and_eq_true, Bool.not_eq_true', Bool.or_eq_true, decide_eq_true_eq] at e
  obtain ⟨⟨⟨⟨⟨h1, h2⟩, h3⟩, h4⟩, h5⟩, h6⟩ := e
  exact ⟨h1, h2, h3, h4, h5, h6⟩
def inDraftB (s : State) (h : Hdr) : Bool :=
  decide s.cur.lanes.Nodup && s.cur.lanes.all (fun l => decide (l < 16) &&
    (decide ((s.thread (threadOf s.cur.warp l)).st = .runnable) || decide ((s.thread (threadOf s.cur.warp l)).st = .waiting))) &&
    decide (widOf s.cur.warp ≠ 27) && !(s.warp s.cur.warp).stopping && (decide (trit (s.ctx (s.warp s.cur.warp).ctx).dbg 0 ≠ 1) || (s.warp s.cur.warp).hm) &&
    (s.active h).any (fun l => s.drafting s.cur.warp l) && decide ((s.warp s.cur.warp).draft.depth ≠ 0) &&
    decide ((s.warp s.cur.warp).draft.ink = .idle) && decide (s.warp s.cur.warp).draft.lanes.Nodup &&
    (s.warp s.cur.warp).draft.lanes.all (fun l => decide (l < 16) && decide ((s.thread (s.lane l)).kept = none) &&
      ((s.warp s.cur.warp).draft.ckpt.find? (fun c => decide (c.lane = l))).isSome)
theorem indraft_of {s : State} {h : Hdr} (e : inDraftB s h = true) : InDraft s h := by
  simp only [inDraftB, Bool.and_eq_true, List.all_eq_true, List.any_eq_true, decide_eq_true_eq, Bool.or_eq_true, Bool.not_eq_true'] at e
  obtain ⟨⟨⟨⟨⟨⟨⟨⟨⟨h1, h2⟩, h3⟩, h4⟩, h5⟩, h6⟩, h7⟩, h8⟩, h9⟩, h10⟩ := e
  exact ⟨h1, fun l m => (h2 l m).1, fun l m => (h2 l m).2, h3, h4, h5, h6, h7, fun e => by rw [h8]; nofun, h9,
    fun l m => ⟨(h10 l m).1.1, (h10 l m).1.2, (h10 l m).2⟩⟩
def scribingB (s : State) : Bool :=
  decide (s.cur.lanes ≠ []) && decide s.cur.lanes.Nodup && s.cur.lanes.all (fun l => decide (l < 16) &&
    (decide ((s.thread (s.lane l)).st = .runnable) || decide ((s.thread (s.lane l)).st = .waiting)) && !s.drafting s.cur.warp l &&
    (s.thread (s.lane l)).loops.all (fun y => decide (y.stop ≠ s.cur.next))) && decide (widOf s.cur.warp = 27) &&
    !(s.warp s.cur.warp).stopping && (decide (trit (s.ctx (s.warp s.cur.warp).ctx).dbg 0 ≠ 1) || (s.warp s.cur.warp).hm) &&
    !s.meetsNow s.cur.warp &&
    decide (s.cur.next < (s.core (coreOf s.cur.warp)).scribe.start + ((s.core (coreOf s.cur.warp)).scribe.len : Int))
theorem scribing_of {s : State} (e : scribingB s = true) : Scribing s := by
  simp only [scribingB, Bool.and_eq_true, List.all_eq_true, decide_eq_true_eq, Bool.or_eq_true, Bool.not_eq_true'] at e
  obtain ⟨⟨⟨⟨⟨⟨⟨h1, h2⟩, h3⟩, h4⟩, h5⟩, h6⟩, h7⟩, h8⟩ := e
  exact ⟨h1, h2, fun l m => (h3 l m).1.1.1, fun l m => (h3 l m).1.1.2, h4, h5, fun l m => (h3 l m).1.2, h6, h7, h8,
    fun l m => (h3 l m).2⟩
/-- What is said of all listed threads holds if it holds of each in turn. -/
theorem all_of {α : Type} {l : List α} {f : α → Bool} {P : α → Prop} (hf : ∀ a, f a = true → P a) (h : l.all f = true) : ∀ a ∈ l, P a :=
  fun a m => hf a (List.all_eq_true.1 h a m)
abbrev Goes (i : Instr) (s : State) : Prop := ∃ t, exec i s = .next t
theorem runs_goes {i : Instr} {h : Hdr} {u : Uses} {f : State → Nat → List Int → Out} (H : Runs i h u f) {s : State} (p : plainB s = true)
    (l : legalB s h u = true) (q : s.portSt u (s.active h).length = .ready)
    (e : ∀ k, k < (s.active h).length → (s.outOf h u f k).fault = none) : Goes i s :=
  (H s (plain_of p) (legal_of l) q e).elim fun _ x => ⟨_, x.1⟩
theorem raises_goes {i : Instr} {h : Hdr} {u : Uses} {f : State → Nat → List Int → Out} (H : RaisesIn i h u f) {s : State} (c : Nat)
    (p : plainB s = true) (l : legalB s h u = true) (en : enterableB s = true)
    (q : (u.src ++ u.dst).any isPort = false) (a : s.active h ≠ [])
    (e : ∀ k, k < (s.active h).length → (s.outOf h u f k).fault = some { cause := c }) : Goes i s :=
  (H s c (plain_of p) (legal_of l) (enterable_of en) q a e).elim fun _ x => ⟨_, x.1⟩
theorem sends_goes {i : Instr} {h : Hdr} {u : Uses} {cls : Option Cls} {P : State → List Nat → Prop} {ok : State → Nat → List Int → Prop}
    {mk : State → Nat → List Int → Req} (H : Sends i h u cls P ok mk) {s : State} (p : plainB s = true)
    (w : (Tab.find s.wrp s.cur.warp).isSome = true) (l : legalB s h u = true) (a : s.acqPending = false)
    (pr : P s (s.active h)) (q : s.portSt u (s.active h).length = .ready)
    (c : ∀ c ∈ cls, cntOf c (s.warp s.cur.warp) < 242) (kp : ∀ l ∈ s.active h, (s.thread (s.lane l)).kept = none)
    (k : ∀ k, k < (s.active h).length → ok s (s.lane ((s.active h).getD k 0)) (s.srcWords (s.active h) u.src k)) : Goes i s :=
  (H s (plain_of p) w (legal_of l) a (fun _ => ⟨pr, q, c, kp, k⟩)).elim fun _ x => ⟨_, x.1⟩

def barB (s : State) (l : Level) (key k : Nat) (p : Int) (q : Nat × Thread) : Bool :=
  !q.2.atBar l key k p || (stillB s (warpOf q.1) && decide (q.2.st = .waiting) && decide (q.2.wait ≠ .barrier l key k p true))

theorem waiters_of {s : State} {l : Level} {key k : Nat} {p : Int}
    (h : (Tab.sorted s.thr && s.thr.all (fun q => barB s l key k p q && (!q.2.atBar l key k p || !s.savingCore (coreOf (warpOf q.1))))) = true) :
    s.barWaiters l key k p := by
  simp only [Bool.and_eq_true] at h
  refine ⟨h.1, all_of (fun q hq hb => ?_) h.2⟩
  simp only [barB, hb, Bool.not_true, Bool.false_or, Bool.and_eq_true, decide_eq_true_eq, Bool.not_eq_true'] at hq
  exact ⟨still_of hq.1.1.1, hq.2, hq.1.1.2, hq.1.2⟩
theorem l2Has_one {s : State} {own : Nat} {sl : Int → Nat} {ls : List Int} (ln : Int) (p : Nat × L2Sec) (i : Nat)
    (m : (s.dieSt own).l2[i]? = some p) (a : p.2.slice = sl ln) (b : p.1 % 2 = 0) (c : shr (unKey (p.1 / 2)) 1 = ln)
    (e : ls.all (fun l => decide (l = ln)) = true) : s.l2Has own sl ls := fun l h => by
  have h1 : l = ln := of_decide_eq_true (List.all_eq_true.1 e l h)
  subst h1
  exact ⟨p, List.mem_of_getElem? m, a, b, c⟩
def isNext : Host.Outcome State Fault Refusal → Bool
  | .next _ => true
  | _ => false
theorem goes_of {r : Host.Outcome State Fault Refusal} (h : isNext r = true) : ∃ t, r = .next t := by
  cases r <;> first | exact ⟨_, rfl⟩ | cases h

def after (r : Host.Outcome State Fault Refusal) : State :=
  match r with
  | .next t => t
  | _ => State.reset
theorem after_eq {r : Host.Outcome State Fault Refusal} (h : isNext r = true) : r = .next (after r) := by
  cases r <;> first | rfl | cases h

theorem selA (s : State) (h : (decide (s.pickGroup 28 [] = [0, 1]) && decide (s.thread (threadOf 28 0) = s.thread (threadOf 28 1)) && decide (∀ j, j < addUnit.length → deviceIndex (pc0 + (j : Int)) = true ∧
      s.ownerOk (81 * codeLine (pc0 + (j : Int))) = true ∧ s.unitOf 28 (pc0 + (j : Int)) = some (addUnit.getD j 0)) &&
      decide ((s.thread (threadOf 28 0)).pc = pc0) && decide ((s.thread (threadOf 28 0)).mr ≠ pc0)) = true) : s.selects 28 0 [1] addUnit addI := by
  simp only [Bool.and_eq_true, decide_eq_true_eq] at h
  obtain ⟨⟨⟨⟨a, b⟩, c⟩, d⟩, e⟩ := h
  refine ⟨a, by decide, by rw [d]; exact c, by rw [d]; rfl, fun k hk => ?_⟩
  rw [d]
  rcases List.mem_cons.1 hk with rfl | hk
  · exact fun x => e x.1
  · rw [List.mem_singleton] at hk
    subst hk
    exact fun x => e (by rw [b]; exact x.1)

theorem traps_priv {i : Instr} {h : Hdr} {u : Uses} (H : TrapsFirst i h u) {s : State} (p : plainB s = true) (en : enterableB s = true)
    (a : s.ready h u = true) (e : s.privFault u = true) : Goes i s :=
  ((H s (plain_of p) (enterable_of en) a).1 e).elim fun _ x => ⟨_, x.1⟩
theorem traps_field {i : Instr} {h : Hdr} {u : Uses} (H : TrapsFirst i h u) {s : State} (c : Nat) (p : plainB s = true) (en : enterableB s = true)
    (a : s.ready h u = true) (e : s.privFault u = false) (f : s.fieldFault u = some c) : Goes i s :=
  ((H s (plain_of p) (enterable_of en) a).2 c e f).elim fun _ x => ⟨_, x.1⟩

theorem walking_of {s : State} {off : Int} (h : (s.hasTables 0 1 && decide (Tab.get 0 (s.dieSt 0).roots 1 = 3281) && decide (s.tlbNear 0 1 1 off = none) &&
    decide ((s.dieSt 0).tlb.find? (TlbE.has 1 off) = none) && !s.faultHeld 0 1 off) = true) : s.Walking 0 1 1 off 3281 := by
  simp only [Bool.and_eq_true, decide_eq_true_eq, Bool.not_eq_true'] at h
  exact ⟨h.1.1.1.1, ⟨h.1.1.1.2, by decide⟩, h.1.1.2, h.1.2, h.2⟩
def goodPtr (e : Int) : Bool := decide (fld e 47 6 = 0 ∧ fld (fld e 0 47) 0 8 = 0 ∧ physOk 0 (fld e 0 47 - 3280) = true ∧ physOk 0 (fld e 0 47 + 3280) = true)
theorem walks_of {s : State} {off : Int} : ∀ l, l < 6 → (∀ k, k < l → (decide (trit (s.entryAt 0 off 3281 k) 53 = -1) && goodPtr (s.entryAt 0 off 3281 k) &&
    decide (fld (s.entryAt 0 off 3281 k) 0 47 = 6561)) = true) → s.Walks 0 off 3281 l 3281
  | 0, _, _ => .root
  | l + 1, hl, h => by
    have e := h l (by omega)
    simp only [Bool.and_eq_true, decide_eq_true_eq, goodPtr] at e
    have x := State.Walks.next l 3281 (walks_of l (by omega) fun k hk => h k (by omega)) (by omega) e.1.1 e.1.2
    rwa [e.2] at x
theorem leaf_of {e : Int} {x : Leaf} {l : Nat} (h : decide ((fld e 51 2 + 4 = (x.size : Int)) ∧ ((x.size = 2 ∧ l = 4) ∨ (x.size < 2 ∧ l = 5)) ∧
    (trit e 50 = (if x.r = true then 1 else 0) ∧ trit e 49 = (if x.w = true then 1 else 0) ∧ trit e 48 = (if x.x = true then 1 else 0) ∧
      trit e 47 = (if x.cmp = true then 1 else 0)) ∧ (fld e 45 2 + 4 = (x.place : Int) ∧ x.place ≤ 2) ∧ (fld e 43 2 + 4 = (x.lease : Int) ∧ x.lease ≤ 2) ∧
    (fld e 39 4 + 40 = (x.clown : Int) ∧ x.clown ≤ 8) ∧ fld e 36 3 = 0 ∧
    (x.pa = fld e 0 36 * pow3 11 ∧ (x.size = 1 → fld (fld e 0 36) 0 3 = 0) ∧ (x.size = 2 → fld (fld e 0 36) 0 6 = 0)) ∧
    (physOk 0 (x.pa - half (11 + 3 * x.size)) = true ∧ physOk 0 (x.pa + half (11 + 3 * x.size)) = true)) = true) : LeafAt 0 l e x := by
  obtain ⟨a, b, c, d, f, g, i, j, k⟩ := of_decide_eq_true h
  exact ⟨a, b, c, d, f, g, i, j, k⟩

/-- Hypotheses met together. -/
theorem meets2 {a b q : Prop} (f : a → b → q) (h : a ∧ b) : q := f h.1 h.2
theorem meets3 {a b c q : Prop} (f : a → b → c → q) (h : a ∧ b ∧ c) : q := meets2 (f h.1) h.2
theorem meets4 {a b c d q : Prop} (f : a → b → c → d → q) (h : a ∧ b ∧ c ∧ d) : q := meets3 (f h.1) h.2
theorem meets5 {a b c d e q : Prop} (f : a → b → c → d → e → q) (h : a ∧ b ∧ c ∧ d ∧ e) : q := meets4 (f h.1) h.2
theorem both2 {a b x : Prop} (h : a ∧ b) (y : x) : a ∧ b ∧ x := ⟨h.1, h.2, y⟩
theorem both3 {a b c x : Prop} (h : a ∧ b ∧ c) (y : x) : a ∧ b ∧ c ∧ x := ⟨h.1, both2 h.2 y⟩
theorem both4 {a b c d x : Prop} (h : a ∧ b ∧ c ∧ d) (y : x) : a ∧ b ∧ c ∧ d ∧ x := ⟨h.1, both3 h.2 y⟩

/-! Decoding. -/

/-- A unit spelled from its row and column of R163, its register fields, its modifier and its immediate; no guard (R145). -/
def spelt (row col d a b c : Int) (md imm : Int := 0) : Int := spellUnit (27 * row + col - 364) 0 (-4) (d - 121) (a - 121) (b - 121) (c - 121) 0 0 0 md imm
def reads (l : List (Int × Instr)) : Bool := l.all (fun p => decide (decodeUnit 0 [p.1] = .ok (p.2, 1)))
/-- Row 0 of the opcode map (R163) decodes to its forms. -/
theorem test_decode_integer : reads [
    (spelt 0 0 6 2 8 121, .add plainHdr false false 6 2 8),
    (spelt 0 1 6 2 121 121 (0) (5), .addi plainHdr false false false 6 2 5),
    (spelt 0 2 6 2 8 121, .sub plainHdr false false 6 2 8),
    (spelt 0 3 6 2 121 121, .neg plainHdr false 6 2),
    (spelt 0 4 6 2 121 121, .abs plainHdr false 6 2),
    (spelt 0 5 6 2 121 121, .sgn plainHdr false 6 2),
    (spelt 0 6 6 2 8 121, .mul plainHdr false false 6 2 8),
    (spelt 0 7 6 2 8 121, .mulh plainHdr false 6 2 8),
    (spelt 0 8 6 2 8 121, .mulw plainHdr 6 2 8),
    (spelt 0 9 6 2 8 10, .mad plainHdr false false 6 2 8 10),
    (spelt 0 10 6 2 8 121, .div plainHdr false 6 2 8),
    (spelt 0 11 6 2 8 121, .rem plainHdr false 6 2 8),
    (spelt 0 12 6 2 8 121, .min plainHdr false 6 2 8),
    (spelt 0 13 6 2 8 121, .max plainHdr false 6 2 8),
    (spelt 0 14 6 2 8 10, .clamp plainHdr false 6 2 8 10),
    (spelt 0 15 6 2 8 121, .addx plainHdr 6 2 8),
    (spelt 0 16 6 2 8 121, .subx plainHdr 6 2 8),
    (spelt 0 17 6 2 8 121 (0) (5), .lea plainHdr 6 { a := 2, b := 8, k := 0, disp := 5 })] = true := by decide +kernel
/-- Row 1 of the opcode map (R163) decodes to its forms. -/
theorem test_decode_compare_trit : reads [
    (spelt 1 0 6 2 8 121, .cmp plainHdr false false 6 2 8),
    (spelt 1 1 6 2 121 121 (0) (5), .cmpi plainHdr false 6 2 5),
    (spelt 1 2 6 2 8 121, .tand plainHdr 6 2 8),
    (spelt 1 3 6 2 8 121, .tor plainHdr 6 2 8),
    (spelt 1 4 6 2 8 121, .tsum plainHdr 6 2 8),
    (spelt 1 5 6 2 8 121, .tmult plainHdr 6 2 8),
    (spelt 1 6 6 2 8 121, .tcons plainHdr 6 2 8)] = true := by decide +kernel
/-- Row 2 of the opcode map (R163) decodes to its forms. -/
theorem test_decode_shift : reads [
    (spelt 2 0 6 2 8 121, .shl plainHdr false 6 2 (Count.reg 8)),
    (spelt 2 1 6 2 8 121, .shr plainHdr false 6 2 (Count.reg 8)),
    (spelt 2 2 6 2 8 121, .rot plainHdr false 6 2 (Count.reg 8)),
    (spelt 2 3 6 2 121 121 (pow3 6 * (3 - 121) + 3 * (4 - 121)), .fext plainHdr 6 2 3 4),
    (spelt 2 4 6 2 8 121 (pow3 6 * (3 - 121) + 3 * (24 - 121)), .fins plainHdr 6 2 8 3 24),
    (spelt 2 5 6 2 121 121, .tcnt plainHdr 0 6 2),
    (spelt 2 6 6 2 121 121, .tlz plainHdr 6 2),
    (spelt 2 7 6 2 121 121, .trev plainHdr 6 2)] = true := by decide +kernel
/-- Row 3 of the opcode map (R163) decodes to its forms. -/
theorem test_decode_move : reads [
    (spelt 3 0 6 2 121 121, .mov plainHdr false 6 2),
    (spelt 3 0 6 216 121 10 (pow3 14), .movNb plainHdr 6 216 10),
    (spelt 3 1 6 121 121 121 (0) (5), .movi plainHdr false 6 5),
    (spelt 3 2 6 2 8 10, .sel3 plainHdr 121 6 2 8 10),
    (spelt 3 3 6 121 121 121, .pset plainHdr 6 0),
    (spelt 3 3 6 2 121 121 (pow3 11 + pow3 6 * (26 - 121)), .psetTrit plainHdr 6 2 26),
    (spelt 3 4 6 2 121 121, .pmov plainHdr 6 2),
    (spelt 3 4 6 2 121 121 (-pow3 11), .pmovFw plainHdr 6 2),
    (spelt 3 4 6 2 121 121 (pow3 11), .pmovTw plainHdr 6 2),
    (spelt 3 5 6 2 8 121, .pand plainHdr 6 2 8),
    (spelt 3 6 6 2 8 121, .por plainHdr 6 2 8),
    (spelt 3 7 6 2 121 121, .pnot plainHdr 6 2)] = true := by decide +kernel
/-- Row 4 of the opcode map (R163) decodes to its forms. -/
theorem test_decode_convert : reads [
    (spelt 4 0 6 2 121 121, .cvt plainHdr false false (IntTy.t1) 6 2),
    (spelt 4 1 6 2 121 121 (-pow3 10 - pow3 7), .cvtf plainHdr false (CvtTy.t9) (CvtTy.f9) 6 2),
    (spelt 4 2 6 2 8 121, .rng plainHdr 6 2 8)] = true := by decide +kernel
/-- Row 5 of the opcode map (R163) decodes to its forms. -/
theorem test_decode_float : reads [
    (spelt 5 0 6 2 8 121, .fadd plainHdr (FFmt.word) 6 2 8),
    (spelt 5 1 6 2 8 121, .fsub plainHdr (FFmt.word) 6 2 8),
    (spelt 5 2 6 2 8 121, .fmul plainHdr (FFmt.word) 6 2 8),
    (spelt 5 3 6 2 8 10, .ffma plainHdr (FFmt.word) 6 2 8 10),
    (spelt 5 4 6 2 8 121, .fmin plainHdr (FFmt.word) 6 2 8),
    (spelt 5 5 6 2 8 121, .fmax plainHdr (FFmt.word) 6 2 8),
    (spelt 5 6 6 2 121 121, .fneg plainHdr (FFmt.word) 6 2),
    (spelt 5 7 6 2 121 121, .fabs plainHdr (FFmt.word) 6 2),
    (spelt 5 8 6 2 8 121 (0) (5), .fscl plainHdr (FFmt.word) 6 2 8 5)] = true := by decide +kernel
/-- Row 6 of the opcode map (R163) decodes to its forms. -/
theorem test_decode_float_misc : reads [
    (spelt 6 0 6 2 8 121, .fcmp plainHdr (FFmt.word) 6 2 8),
    (spelt 6 1 6 2 121 121, .fclass plainHdr (FFmt.word) 6 2),
    (spelt 6 2 6 2 121 121 (0) (5), .frnd plainHdr (FFmt.word) 6 2 5),
    (spelt 6 3 6 2 121 121 (-pow3 11), .fcvtF27 plainHdr 6 2),
    (spelt 6 3 6 2 121 121 (pow3 11), .fcvtF9 plainHdr 6 2)] = true := by decide +kernel
/-- Row 7 of the opcode map (R163) decodes to its forms. -/
theorem test_decode_float_function : reads [
    (spelt 7 0 6 2 8 121, .fdiv plainHdr (FFmt.word) 6 2 8),
    (spelt 7 1 6 2 121 121, .fsqrt plainHdr (FFmt.word) 6 2),
    (spelt 7 2 6 2 121 121, .frcp plainHdr (FFmt.word) 6 2),
    (spelt 7 3 6 2 121 121, .frsq plainHdr (FFmt.word) 6 2),
    (spelt 7 4 6 2 121 121, .fexp plainHdr (FFmt.word) 6 2),
    (spelt 7 5 6 2 121 121, .fexp3 plainHdr (FFmt.word) 6 2),
    (spelt 7 6 6 2 121 121, .flog plainHdr (FFmt.word) 6 2),
    (spelt 7 7 6 2 121 121, .flog3 plainHdr (FFmt.word) 6 2),
    (spelt 7 8 6 2 121 121, .fsin plainHdr (FFmt.word) 6 2),
    (spelt 7 9 6 2 121 121, .fcos plainHdr (FFmt.word) 6 2),
    (spelt 7 10 6 2 121 121, .ftanh plainHdr (FFmt.word) 6 2),
    (spelt 7 11 6 2 121 121, .fsigm plainHdr (FFmt.word) 6 2),
    (spelt 7 12 6 2 121 121, .ferf plainHdr (FFmt.word) 6 2)] = true := by decide +kernel
/-- Row 8 of the opcode map (R163) decodes to its forms. -/
theorem test_decode_load_store : reads [
    (spelt 8 0 6 2 8 121 (0) (5), .ld plainHdr (Sz.wd) { ord := Ord.dflt, scope := Scope.dflt } (Lease.page) 6 { a := 2, b := 8, k := 0, disp := 5 }),
    (spelt 8 1 6 2 8 121 (0) (5), .st plainHdr (Sz.wd) { ord := Ord.dflt, scope := Scope.dflt } 6 { a := 2, b := 8, k := 0, disp := 5 }),
    (spelt 8 2 6 2 8 121 (0) (5), .ldb plainHdr (BType.i8) (TType.t27) false { ord := Ord.dflt, scope := Scope.dflt } 6 { a := 2, b := 8, k := 0, disp := 5 }),
    (spelt 8 3 6 2 8 121 (pow3 8) (5), .stb plainHdr (BType.i8) (TType.t9) false { ord := Ord.dflt, scope := Scope.dflt } 6 { a := 2, b := 8, k := 0, disp := 5 }),
    (spelt 8 4 6 2 8 10 (0) (5), .ldnb plainHdr (Sz.wd) { ord := Ord.dflt, scope := Scope.dflt } (Lease.page) 6 { a := 2, b := 8, k := 0, disp := 5 } 10),
    (spelt 8 5 6 2 8 10 (0) (5), .stva plainHdr (Sz.wd) { ord := Ord.dflt, scope := Scope.dflt } 6 { a := 2, b := 8, k := 0, disp := 5 } 10)] = true := by decide +kernel
/-- Row 9 of the opcode map (R163) decodes to its forms. -/
theorem test_decode_line : reads [
    (spelt 9 0 121 2 8 121 (0) (5), .pref plainHdr (Lease.page) { a := 2, b := 8, k := 0, disp := 5 }),
    (spelt 9 1 121 2 8 121 (0) (5), .wb plainHdr { a := 2, b := 8, k := 0, disp := 5 }),
    (spelt 9 1 121 121 121 121 (pow3 12), .wbAll plainHdr),
    (spelt 9 2 121 2 8 121 (0) (5), .inv plainHdr { a := 2, b := 8, k := 0, disp := 5 }),
    (spelt 9 2 121 121 121 121 (pow3 12), .invAll plainHdr)] = true := by decide +kernel
/-- Row 10 of the opcode map (R163) decodes to its forms. -/
theorem test_decode_atomic : reads [
    (spelt 10 0 6 2 8 10 (0) (5), .atom plainHdr (AOp.add) (Sz.wd) { ord := Ord.dflt, scope := Scope.dflt } 6 { a := 2, b := 8, k := 0, disp := 5 } 10),
    (spelt 10 1 6 2 8 10 (0) (5), .cas plainHdr (Sz.wd) { ord := Ord.dflt, scope := Scope.dflt } 6 { a := 2, b := 8, k := 0, disp := 5 } 10),
    (spelt 10 2 121 2 8 10 (0) (5), .red plainHdr (AOp.add) (Sz.wd) { ord := Ord.dflt, scope := Scope.dflt } { a := 2, b := 8, k := 0, disp := 5 } 10),
    (spelt 10 3 6 2 8 10 (0) (5), .atomo plainHdr (AOp.add) (Sz.wd) { ord := Ord.dflt, scope := Scope.dflt } 6 2 8 5 10)] = true := by decide +kernel
/-- Row 11 of the opcode map (R163) decodes to its forms. -/
theorem test_decode_sync_time : reads [
    (spelt 11 0 121 121 121 121, .fence plainHdr { ord := Ord.dflt, scope := Scope.dflt }),
    (spelt 11 1 6 121 121 121, .tnow plainHdr 6),
    (spelt 11 2 121 121 121 10 (0) (5), .twait plainHdr (When.at_ 10) (Scope.dflt) 5),
    (spelt 11 3 121 2 121 10 (0) (5), .talarm plainHdr (When.at_ 10) 2 5),
    (spelt 11 4 121 121 121 121 (pow3 11), .bar plainHdr (Level.cluster) 4 false),
    (spelt 11 5 6 121 121 121 (pow3 11), .bara plainHdr (Level.cluster) 4 false 6),
    (spelt 11 6 121 2 121 121 (pow3 11), .barw plainHdr (Level.cluster) 4 false 2),
    (spelt 11 7 6 2 8 121 (0) (5), .tkt plainHdr 13 6 { a := 2, b := 8, k := 0, disp := 5 }),
    (spelt 11 7 121 2 8 121 (-pow3 11) (5), .tktClose plainHdr 13 { a := 2, b := 8, k := 0, disp := 5 }),
    (spelt 11 7 121 2 8 121 (pow3 11) (5), .tktOpen plainHdr 13 { a := 2, b := 8, k := 0, disp := 5 }),
    (spelt 11 8 121 2 8 10 (0) (5), .tkp plainHdr { a := 2, b := 8, k := 0, disp := 5 } 10),
    (spelt 11 9 121 2 8 121, .msg plainHdr false 2 8 none),
    (spelt 11 10 6 216 121 121, .qstat plainHdr 6 216),
    (spelt 11 11 121 2 8 121 (pow3 11) (5), .barv plainHdr (Level.cluster) 4 false (AOp.add) 2 8 5)] = true := by decide +kernel
/-- Row 12 of the opcode map (R163) decodes to its forms. -/
theorem test_decode_draft : reads [
    (spelt 12 0 121 121 121 121 (0) (5), .draft plainHdr 5),
    (spelt 12 1 121 121 121 121, .ink plainHdr),
    (spelt 12 2 121 121 121 121 (0) (5), .erase plainHdr 5),
    (spelt 12 3 6 121 121 121, .dstat plainHdr 6)] = true := by decide +kernel
/-- Row 13 of the opcode map (R163) decodes to its forms. -/
theorem test_decode_control : reads [
    (spelt 13 0 121 121 121 121 (0) (5), .br plainHdr 5),
    (spelt 13 1 6 121 121 121 (0) (5), .call plainHdr 6 5),
    (spelt 13 2 6 2 121 121 (0) (5), .callt plainHdr 6 2 5),
    (spelt 13 3 121 2 121 121, .ret plainHdr 2),
    (spelt 13 4 121 121 121 121 (0) (5), .setmr plainHdr 5),
    (spelt 13 4 121 121 121 121 (pow3 11), .setmrClr plainHdr),
    (spelt 13 5 6 121 121 121 (pow3 11), .movmrGet plainHdr 6),
    (spelt 13 5 121 2 121 121 (-pow3 11), .movmrPut plainHdr 2),
    (spelt 13 6 121 121 121 121, .exit plainHdr),
    (spelt 13 7 121 121 121 121 (0) (5), .brk plainHdr 5),
    (spelt 13 8 121 121 121 121 (0) (5), .trap plainHdr 5),
    (spelt 13 9 121 121 121 121, .yld plainHdr),
    (spelt 13 13 121 121 121 121, .nop plainHdr)] = true := by decide +kernel
/-- Row 14 of the opcode map (R163) decodes to its forms. -/
theorem test_decode_warp_control : reads [
    (spelt 14 0 121 2 8 121 (0) (5), .spawn plainHdr 2 8 5),
    (spelt 14 1 121 121 121 121 (0) (5), .rclaim plainHdr 5),
    (spelt 14 2 121 121 121 121 (0) (5), .rgive plainHdr 5),
    (spelt 14 3 121 121 121 121 (0) (5), .wait plainHdr 121 121 121 126),
    (spelt 14 4 121 121 121 121 (0) (5), .icpf plainHdr 4 5),
    (spelt 14 5 121 121 121 121, .ifence plainHdr),
    (spelt 14 6 121 121 121 121 (0) (5), .icinv plainHdr 5),
    (spelt 14 6 121 121 121 121 (pow3 12), .icinvAll plainHdr)] = true := by decide +kernel
/-- Row 15 of the opcode map (R163) decodes to its forms. -/
theorem test_decode_nib_setup : reads [
    (spelt 15 0 121 216 121 121 (0) (-265720), .mcfg plainHdr 216 { slot := 0, atype := NTy.t9, btype := NTy.t9, otype := OTy.t9, pa := 1, pb := PB.p9, otag := 0 }),
    (spelt 15 1 121 121 121 121 (0) (-265720), .ring plainHdr 0 0 0),
    (spelt 15 2 6 2 121 121 (-pow3 10) (5), .fstat plainHdr 3 6 2 5),
    (spelt 15 3 121 2 234 121 (-pow3 12) 5, .fsetEmpty plainHdr false 2 5),
    (spelt 15 3 121 2 8 121 (pow3 12) (5), .fsetReady plainHdr false 2 8 5),
    (spelt 15 4 121 121 121 121 (0) (-13), .mzero plainHdr 0)] = true := by decide +kernel
/-- Row 16 of the opcode map (R163) decodes to its forms. -/
theorem test_decode_nib_command : reads [
    (spelt 16 0 121 216 121 121 (0) (-13), .mloop plainHdr false false 216 0 13 13 9841),
    (spelt 16 1 121 121 121 121, .mrdy plainHdr),
    (spelt 16 2 121 2 8 10 (pow3 11) (-13), .mdrain plainHdr { res := false, drop := true, z := false, tok := false, slot := 0, ro := 13, rr := 13, a := 2, b := 8, c := 10 }),
    (spelt 16 3 6 121 121 10 (0) (-13), .qscale plainHdr false 6 10 0),
    (spelt 16 4 6 121 121 121 (0) (-13), .fitr plainHdr false 6 0),
    (spelt 16 5 6 121 121 121, .mbudg plainHdr 6)] = true := by decide +kernel
/-- Row 17 of the opcode map (R163) decodes to its forms. -/
theorem test_decode_copy_scribe : reads [
    (spelt 17 0 6 2 8 121 (0) (5), .cpy plainHdr { mode := CMode.tt, tok := false, sring := none, dring := none, btype := BType.i8, tty := TType.t27, qw := 0, tag := 5 } 6 2 8),
    (spelt 17 1 6 2 121 10 (0) (5), .cpys plainHdr { mode := CMode.tt, tok := false, sring := none, dring := none, btype := BType.i8, tty := TType.t27, qw := 0, tag := 5 } 6 2 10),
    (spelt 17 2 6 2 8 10 (0) (5), .cpyg plainHdr { mode := CMode.tt, tok := false, sring := none, dring := none, btype := BType.i8, tty := TType.t27, qw := 0, tag := 5 } 6 2 8 10),
    (spelt 17 3 6 2 8 10 (0) (5), .cpyx plainHdr { mode := CMode.tt, tok := false, sring := none, dring := none, btype := BType.i8, tty := TType.t27, qw := 0, tag := 5 } 6 2 8 10),
    (spelt 17 4 6 2 8 121 (0) (5), .cpyc plainHdr false 5 6 2 8),
    (spelt 17 5 6 2 8 121 (0) (5), .cpyv plainHdr false 5 6 2 8),
    (spelt 17 6 121 2 8 121 (0) (5), .scrb plainHdr 2 8 122 5 5),
    (spelt 17 7 6 121 121 121, .scrh plainHdr 6),
    (spelt 17 7 6 121 121 121 (pow3 12), .scrhStop plainHdr 6),
    (spelt 17 8 121 2 121 121 (0) (5), .sloop plainHdr 2 0 5)] = true := by decide +kernel
/-- Row 18 of the opcode map (R163) decodes to its forms. -/
theorem test_decode_phase : reads [
    (spelt 18 0 121 121 121 121, .phase plainHdr)] = true := by decide +kernel
/-- Row 19 of the opcode map (R163) decodes to its forms. -/
theorem test_decode_privileged : reads [
    (spelt 19 0 6 121 121 121 (0) (5), .csrr plainHdr 6 5),
    (spelt 19 1 121 2 121 121 (0) (5), .csrw plainHdr 2 5),
    (spelt 19 2 121 121 121 121, .tret plainHdr),
    (spelt 19 3 121 121 121 121, .clrc plainHdr 0),
    (spelt 19 4 6 2 121 121, .launch plainHdr 6 2),
    (spelt 19 4 6 2 8 121 (pow3 11), .launchRes plainHdr 6 2 8),
    (spelt 19 5 121 2 121 121, .kill plainHdr 2),
    (spelt 19 6 121 2 121 121, .preempt plainHdr 2),
    (spelt 19 6 121 2 8 121 (pow3 11), .preemptBlk plainHdr 2 8),
    (spelt 19 7 6 2 8 121, .replay plainHdr 6 2 8),
    (spelt 19 8 121 2 8 121, .deny plainHdr 2 8),
    (spelt 19 9 121 2 8 121, .tlbi plainHdr 2 8),
    (spelt 19 9 121 2 8 121 (pow3 11), .tlbiCtx plainHdr 2 8),
    (spelt 19 9 121 121 8 121 (-pow3 11), .tlbiDie plainHdr 8),
    (spelt 19 10 121 121 121 121, .halt plainHdr)] = true := by decide +kernel

/-! WellFormed refuses an ill-formed term for each of its checks. -/
/-- The guard, control trits and prefixes of a header (R145, R151, R161). -/
theorem test_wf_header : ([{ plainHdr with gpred := 243 }, { plainHdr with gcond := 9 }, { plainHdr with lag := 14 }, { plainHdr with cede := 2 },
    { plainHdr with last := 5 }, { plainHdr with pxi := some (pow3 54) }, { plainHdr with pxiFirst := false }] : List Hdr).all
    (fun h => !(Instr.addi h false false false 6 2 5).wf) = true := by decide +kernel
/-- The register fields and the immediate of a unit (R145). -/
theorem test_wf_fields : [Instr.mad plainHdr false false 243 2 8 10, .mad plainHdr false false 6 243 8 10, .mad plainHdr false false 6 2 243 10,
    .mad plainHdr false false 6 2 8 243, .addi plainHdr false false false 6 2 (half 27 + 1)].all (fun i => !i.wf) = true := by decide +kernel
/-- The sub-fields of modifiers and immediates (R176, R214, R238, R260, R292, R293, R316). -/
theorem test_wf_subfields : [Instr.shl plainHdr false 6 2 (.imm 243), .tcnt plainHdr 2 6 2, .sel3 plainHdr 243 6 2 8 10, .bar plainHdr .block 9 false,
    .tkt plainHdr 27 6 { a := 2, b := 8, k := 0, disp := 0 }, .wait plainHdr 243 0 0 0, .icpf plainHdr 9 0,
    .mcfg plainHdr 2 { slot := 0, atype := .t3, btype := .t3, otype := .t9, pa := 10, pb := .p3, otag := 0 },
    .mcfg plainHdr 2 { slot := 0, atype := .t3, btype := .t3, otype := .t9, pa := 1, pb := .p3, otag := 9842 },
    .ring plainHdr 27 0 1, .ring plainHdr 0 243 1, .mloop plainHdr false false 2 0 27 0 1,
    .cpy plainHdr { mode := .tt, tok := false, sring := some 27, dring := none, btype := .i8, tty := .t9, qw := 0, tag := 0 } 6 2 8,
    .cpy plainHdr { mode := .tt, tok := false, sring := none, dring := none, btype := .i8, tty := .t9, qw := 0, tag := 9842 } 6 2 8,
    .sloop plainHdr 2 (half 18 + 1) 5, .hint 0].all (fun i => !i.wf) = true := by decide +kernel
/-- A field of step 4 of R159: a width of no trits (R185), and a position and width beyond the word. -/
theorem test_wf_reserved : [Instr.fext plainHdr 6 2 3 0, .fext plainHdr 6 2 20 8].all (fun i => !i.wf) = true := by decide +kernel
/-- Terms that every check accepts. -/
theorem test_wf_accepts : [Instr.mad plainHdr false false 6 2 8 10, .shl plainHdr false 6 2 (.imm 242), .sel3 plainHdr 242 6 2 8 10,
    .bar plainHdr .block 8 false, .fext plainHdr 6 2 20 7, .addi plainHdr false false false 6 2 (half 27)].all (fun i => i.wf) = true := by decide +kernel

/-! One step on a small state; the values are the spec's own. -/
/-- One thread whose words w1 and w2 hold twoWords values. -/
def twoWords (x y : Int) : State := { base2 { th with regs := [(1, x), (2, y)] } th with cur := { base.cur with lanes := [0] } }
/-- A word of that thread after an instruction. -/
def wordAfter (i : Instr) (s : State) (r : Nat) : Option Int :=
  match exec i s with
  | .next t => some (t.reg 448 r)
  | _ => none
/-- R31 and R177: a sum beyond the word wraps, and .sat keeps it at the end. -/
theorem test_add_wraps : wordAfter (.add plainHdr false false 3 1 2) (twoWords (half 27) 1) 3 = some (-half 27) ∧
    wordAfter (.add plainHdr false true 3 1 2) (twoWords (half 27) 1) 3 = some (half 27) := by decide +kernel
/-- The table of the division rule: 7 / 2 is 4 and leaves -1; 5 / 2 is 2; 8 / 3 is 3 and leaves -1. -/
theorem test_div_nearest : wordAfter (.div plainHdr false 3 1 2) (twoWords 7 2) 3 = some 4 ∧ wordAfter (.div plainHdr false 3 1 2) (twoWords 5 2) 3 = some 2 ∧
    wordAfter (.div plainHdr false 3 1 2) (twoWords 8 3) 3 = some 3 := by decide +kernel
theorem test_rem_of_nearest : wordAfter (.rem plainHdr false 3 1 2) (twoWords 7 2) 3 = some (-1) ∧
    wordAfter (.rem plainHdr false 3 1 2) (twoWords 8 3) 3 = some (-1) := by decide +kernel
/-- A destination that is also a source (R171: every source is read before a result is written). -/
theorem test_sub_in_place : wordAfter (.sub plainHdr false false 1 1 1) (twoWords 7 2) 1 = some 0 := by decide +kernel
/-- R56 of an all-zero sector: 48 codes of 121 and one of 13. -/
theorem test_sector_codes : (atomImage (List.replicate 27 0) 0 []).take 49 = List.replicate 48 121 ++ [13] := by decide +kernel
/-- FENCE is opcode 297 (R163). -/
theorem test_fence_opcode : (Raw.unpack (spelt 11 0 121 121 121 121)).op = 297 := by decide +kernel
/-- The machine steps from reset: nothing is fetched before a program is loaded. -/
theorem test_reset_steps : isNext (step State.reset) = true := by decide +kernel

/-! Witnesses of the statements. -/

theorem test_witness_IntegerArithmetic (H : Obligations.IntegerArithmetic) :
    Goes (Instr.add gd false true 8 2 10) (u220) ∧
    Goes (Instr.sub gd false true 8 2 10) (u220) ∧
    Goes (Instr.neg gd false 8 2) (u220) ∧
    Goes (Instr.abs gd false 8 2) (u220) ∧
    Goes (Instr.sgn gd false 8 2) (u220) ∧
    Goes (Instr.mul gd false true 8 2 10) (u220) ∧
    Goes (Instr.mulh gd false 8 2 10) (u220) ∧
    Goes (Instr.mad gd false true 8 2 10 4) (u220) ∧
    Goes (Instr.min gd false 8 2 10) (u220) ∧
    Goes (Instr.max gd false 8 2 10) (u220) ∧
    Goes (Instr.clamp gd false 8 2 10 4) (u220) :=
  ⟨(H.1 gd false true 8 2 10 u220 (plain_of (by decide +kernel)) (legal_of (by decide +kernel)) (by decide +kernel) (by decide +kernel)).elim fun _ e => ⟨_, e.1⟩,
   (H.2.1 gd false true 8 2 10 u220 (plain_of (by decide +kernel)) (legal_of (by decide +kernel)) (by decide +kernel) (by decide +kernel)).elim fun _ e => ⟨_, e.1⟩,
   (H.2.2.1 gd false 8 2 u220 (plain_of (by decide +kernel)) (legal_of (by decide +kernel)) (by decide +kernel) (by decide +kernel)).elim fun _ e => ⟨_, e.1⟩,
   (H.2.2.2.1 gd false 8 2 u220 (plain_of (by decide +kernel)) (legal_of (by decide +kernel)) (by decide +kernel) (by decide +kernel)).elim fun _ e => ⟨_, e.1⟩,
   (H.2.2.2.2.1 gd false 8 2 u220 (plain_of (by decide +kernel)) (legal_of (by decide +kernel)) (by decide +kernel) (by decide +kernel)).elim fun _ e => ⟨_, e.1⟩,
   (H.2.2.2.2.2.1 gd false true 8 2 10 u220 (plain_of (by decide +kernel)) (legal_of (by decide +kernel)) (by decide +kernel) (by decide +kernel)).elim fun _ e => ⟨_, e.1⟩,
   (H.2.2.2.2.2.2.1 gd false 8 2 10 u220 (plain_of (by decide +kernel)) (legal_of (by decide +kernel)) (by decide +kernel) (by decide +kernel)).elim fun _ e => ⟨_, e.1⟩,
   (H.2.2.2.2.2.2.2.1 gd false true 8 2 10 4 u220 (plain_of (by decide +kernel)) (legal_of (by decide +kernel)) (by decide +kernel) (by decide +kernel)).elim fun _ e => ⟨_, e.1⟩,
   (H.2.2.2.2.2.2.2.2.1 gd false 8 2 10 u220 (plain_of (by decide +kernel)) (legal_of (by decide +kernel)) (by decide +kernel) (by decide +kernel)).elim fun _ e => ⟨_, e.1⟩,
   (H.2.2.2.2.2.2.2.2.2.1 gd false 8 2 10 u220 (plain_of (by decide +kernel)) (legal_of (by decide +kernel)) (by decide +kernel) (by decide +kernel)).elim fun _ e => ⟨_, e.1⟩,
   (H.2.2.2.2.2.2.2.2.2.2 gd false 8 2 10 4 u220 (plain_of (by decide +kernel)) (legal_of (by decide +kernel)) (by decide +kernel) (by decide +kernel)).elim fun _ e => ⟨_, e.1⟩⟩
theorem test_witness_WideArithmetic (H : Obligations.WideArithmetic) :
    Goes (Instr.addi gd false true false 8 2 5) (u220) ∧
    Goes (Instr.addi gd false true true 8 2 5) (u220) ∧
    Goes (Instr.mulw gd 8 2 10) (u220) ∧
    Goes (Instr.addx gd 8 2 10) (u220) ∧
    Goes (Instr.subx gd 8 2 10) (u220) ∧
    Goes (Instr.lea gd 8 (mm 2 4 5)) (u220) ∧
    Goes (Instr.mov gd false 8 2) (u220) ∧
    Goes (Instr.mov gd true 8 2) (u220) ∧
    Goes (Instr.movi gd false 8 5) (u220) ∧
    Goes (Instr.movi gd true 8 5) (u220) :=
  ⟨(H.1 gd false true 8 2 5 u220 (plain_of (by decide +kernel)) (legal_of (by decide +kernel)) (by decide +kernel) (by decide +kernel)).elim fun _ e => ⟨_, e.1⟩,
   (H.2.1 gd false true 8 2 5 u220 (plain_of (by decide +kernel)) (legal_of (by decide +kernel)) (by decide +kernel) (by decide +kernel)).elim fun _ e => ⟨_, e.1⟩,
   (H.2.2.1 gd 8 2 10 u220 (plain_of (by decide +kernel)) (legal_of (by decide +kernel)) (by decide +kernel) (by decide +kernel)).elim fun _ e => ⟨_, e.1⟩,
   (H.2.2.2.1 gd 8 2 10 u220 (plain_of (by decide +kernel)) (legal_of (by decide +kernel)) (by decide +kernel) (by decide +kernel)).elim fun _ e => ⟨_, e.1⟩,
   (H.2.2.2.2.1 gd 8 2 10 u220 (plain_of (by decide +kernel)) (legal_of (by decide +kernel)) (by decide +kernel) (by decide +kernel)).elim fun _ e => ⟨_, e.1⟩,
   (H.2.2.2.2.2.1 gd 8 (mm 2 4 5) u220 (plain_of (by decide +kernel)) (legal_of (by decide +kernel)) (by decide +kernel) (by decide +kernel)).elim fun _ e => ⟨_, e.1⟩,
   (H.2.2.2.2.2.2.1 gd 8 2 u220 (plain_of (by decide +kernel)) (legal_of (by decide +kernel)) (by decide +kernel) (by decide +kernel)).elim fun _ e => ⟨_, e.1⟩,
   (H.2.2.2.2.2.2.2.1 gd 8 2 u220 (plain_of (by decide +kernel)) (legal_of (by decide +kernel)) (by decide +kernel) (by decide +kernel)).elim fun _ e => ⟨_, e.1⟩,
   (H.2.2.2.2.2.2.2.2.1 gd 8 5 u220 (plain_of (by decide +kernel)) (legal_of (by decide +kernel)) (by decide +kernel) (by decide +kernel)).elim fun _ e => ⟨_, e.1⟩,
   (H.2.2.2.2.2.2.2.2.2 gd 8 5 u220 (plain_of (by decide +kernel)) (legal_of (by decide +kernel)) (by decide +kernel) (by decide +kernel)).elim fun _ e => ⟨_, e.1⟩⟩
theorem test_witness_Division (H : Obligations.Division) :
    Goes (.div gd false 8 0 4) u2 ∧
    Goes (.div gd false 8 0 10) u3 ∧
    Goes (.rem gd false 8 0 4) u2 ∧
    Goes (.rem gd true 8 0 10) u3 ∧
    2 * |7 - nearest 7 2 * 2| ≤ |(2 : Int)| :=
  ⟨runs_goes (H.1 gd false 8 0 4).1 (by decide +kernel) (by decide +kernel) (by decide +kernel) (by decide +kernel),
   raises_goes (H.1 gd false 8 0 10).2 8 (by decide +kernel) (by decide +kernel) (by decide +kernel) rfl (by decide +kernel) (by decide +kernel),
   runs_goes (H.2.1 gd false 8 0 4).1 (by decide +kernel) (by decide +kernel) (by decide +kernel) (by decide +kernel),
   raises_goes (H.2.1 gd true 8 0 10).2 8 (by decide +kernel) (by decide +kernel) (by decide +kernel) rfl (by decide +kernel) (by decide +kernel),
   (H.2.2 7 2 (by decide)).1⟩
theorem test_witness_PredicateResults (H : Obligations.PredicateResults) :
    Goes (Instr.cmp gd false false 8 2 10) (u220) ∧
    Goes (Instr.cmp gd true false 8 2 10) (u220) ∧
    Goes (Instr.cmp gd false true 8 2 10) (u220) ∧
    Goes (Instr.cmpi gd false 8 2 5) (u220) ∧
    Goes (Instr.cmpi gd true 8 2 5) (u220) ∧
    Goes (Instr.sel3 gd 3 8 2 10 4) (u220) ∧
    Goes (Instr.pset gd 8 1) (u220) ∧
    Goes (Instr.psetTrit gd 8 2 4) (u220) ∧
    Goes (Instr.pmov gd 8 2) (u220) ∧
    Goes (Instr.pmovTw gd 8 2) (u220) ∧
    Goes (Instr.pmovFw gd 8 2) (u220) ∧
    Goes (Instr.pand gd 8 2 10) (u220) ∧
    Goes (Instr.por gd 8 2 10) (u220) ∧
    Goes (Instr.pnot gd 8 2) (u220) :=
  ⟨(H.1.1 gd 8 2 10 u220 (plain_of (by decide +kernel)) (legal_of (by decide +kernel)) (by decide +kernel) (by decide +kernel)).elim fun _ e => ⟨_, e.1⟩,
   (H.1.2.1 gd 8 2 10 u220 (plain_of (by decide +kernel)) (legal_of (by decide +kernel)) (by decide +kernel) (by decide +kernel)).elim fun _ e => ⟨_, e.1⟩,
   (H.1.2.2.1 gd false 8 2 10 u220 (plain_of (by decide +kernel)) (legal_of (by decide +kernel)) (by decide +kernel) (by decide +kernel)).elim fun _ e => ⟨_, e.1⟩,
   (H.1.2.2.2.1 gd 8 2 5 u220 (plain_of (by decide +kernel)) (legal_of (by decide +kernel)) (by decide +kernel) (by decide +kernel)).elim fun _ e => ⟨_, e.1⟩,
   (H.1.2.2.2.2 gd 8 2 5 u220 (plain_of (by decide +kernel)) (legal_of (by decide +kernel)) (by decide +kernel) (by decide +kernel)).elim fun _ e => ⟨_, e.1⟩,
   (H.2.1 gd 3 8 2 10 4 u220 (plain_of (by decide +kernel)) (legal_of (by decide +kernel)) (by decide +kernel) (by decide +kernel)).elim fun _ e => ⟨_, e.1⟩,
   (H.2.2.1 gd 8 1 u220 (plain_of (by decide +kernel)) (legal_of (by decide +kernel)) (by decide +kernel) (by decide +kernel)).elim fun _ e => ⟨_, e.1⟩,
   (H.2.2.2.1 gd 8 2 4 u220 (plain_of (by decide +kernel)) (legal_of (by decide +kernel)) (by decide +kernel) (by decide +kernel)).elim fun _ e => ⟨_, e.1⟩,
   (H.2.2.2.2.1 gd 8 2 u220 (plain_of (by decide +kernel)) (legal_of (by decide +kernel)) (by decide +kernel) (by decide +kernel)).elim fun _ e => ⟨_, e.1⟩,
   (H.2.2.2.2.2.1 gd 8 2 u220 (plain_of (by decide +kernel)) (legal_of (by decide +kernel)) (by decide +kernel) (by decide +kernel)).elim fun _ e => ⟨_, e.1⟩,
   (H.2.2.2.2.2.2.1 gd 8 2 u220 (plain_of (by decide +kernel)) (legal_of (by decide +kernel)) (by decide +kernel) (by decide +kernel)).elim fun _ e => ⟨_, e.1⟩,
   (H.2.2.2.2.2.2.2.1 gd 8 2 10 u220 (plain_of (by decide +kernel)) (legal_of (by decide +kernel)) (by decide +kernel) (by decide +kernel)).elim fun _ e => ⟨_, e.1⟩,
   (H.2.2.2.2.2.2.2.2.1 gd 8 2 10 u220 (plain_of (by decide +kernel)) (legal_of (by decide +kernel)) (by decide +kernel) (by decide +kernel)).elim fun _ e => ⟨_, e.1⟩,
   (H.2.2.2.2.2.2.2.2.2 gd 8 2 u220 (plain_of (by decide +kernel)) (legal_of (by decide +kernel)) (by decide +kernel) (by decide +kernel)).elim fun _ e => ⟨_, e.1⟩⟩
theorem test_witness_TritInstructions (H : Obligations.TritInstructions) :
    Goes (Instr.shl gd false 8 2 (Count.reg 10)) (u220) ∧
    Goes (Instr.shl gd false 8 2 (Count.imm 2)) (u220) ∧
    Goes (Instr.shr gd false 8 2 (Count.reg 10)) (u220) ∧
    Goes (Instr.shr gd false 8 2 (Count.imm 2)) (u220) ∧
    Goes (Instr.rot gd false 8 2 (Count.reg 10)) (u220) ∧
    Goes (Instr.rot gd false 8 2 (Count.imm 2)) (u220) ∧
    Goes (Instr.fext gd 8 2 3 5) (u220) ∧
    Goes (Instr.fins gd 8 2 10 3 5) (u220) ∧
    Goes (Instr.tcnt gd 1 8 2) (u220) ∧
    Goes (Instr.tlz gd 8 2) (u220) ∧
    Goes (Instr.trev gd 8 2) (u220) :=
  ⟨(H.1 gd false 8 2 10 u220 (plain_of (by decide +kernel)) (legal_of (by decide +kernel)) (by decide +kernel) (by decide +kernel)).elim fun _ e => ⟨_, e.1⟩,
   (H.2.1 gd false 8 2 2 u220 (plain_of (by decide +kernel)) (legal_of (by decide +kernel)) (by decide +kernel) (by decide +kernel)).elim fun _ e => ⟨_, e.1⟩,
   (H.2.2.1 gd false 8 2 10 u220 (plain_of (by decide +kernel)) (legal_of (by decide +kernel)) (by decide +kernel) (by decide +kernel)).elim fun _ e => ⟨_, e.1⟩,
   (H.2.2.2.1 gd false 8 2 2 u220 (plain_of (by decide +kernel)) (legal_of (by decide +kernel)) (by decide +kernel) (by decide +kernel)).elim fun _ e => ⟨_, e.1⟩,
   (H.2.2.2.2.1 gd false 8 2 10 u220 (plain_of (by decide +kernel)) (legal_of (by decide +kernel)) (by decide +kernel) (by decide +kernel)).elim fun _ e => ⟨_, e.1⟩,
   (H.2.2.2.2.2.1 gd false 8 2 2 u220 (plain_of (by decide +kernel)) (legal_of (by decide +kernel)) (by decide +kernel) (by decide +kernel)).elim fun _ e => ⟨_, e.1⟩,
   (H.2.2.2.2.2.2.1 gd 8 2 3 5 u220 (plain_of (by decide +kernel)) (legal_of (by decide +kernel)) (by decide +kernel) (by decide +kernel)).elim fun _ e => ⟨_, e.1⟩,
   (H.2.2.2.2.2.2.2.1 gd 8 2 10 3 5 u220 (plain_of (by decide +kernel)) (legal_of (by decide +kernel)) (by decide +kernel) (by decide +kernel)).elim fun _ e => ⟨_, e.1⟩,
   (H.2.2.2.2.2.2.2.2.1 gd 1 8 2 u220 (plain_of (by decide +kernel)) (legal_of (by decide +kernel)) (by decide +kernel) (by decide +kernel)).elim fun _ e => ⟨_, e.1⟩,
   (H.2.2.2.2.2.2.2.2.2.1 gd 8 2 u220 (plain_of (by decide +kernel)) (legal_of (by decide +kernel)) (by decide +kernel) (by decide +kernel)).elim fun _ e => ⟨_, e.1⟩,
   (H.2.2.2.2.2.2.2.2.2.2 gd 8 2 u220 (plain_of (by decide +kernel)) (legal_of (by decide +kernel)) (by decide +kernel) (by decide +kernel)).elim fun _ e => ⟨_, e.1⟩⟩
theorem test_witness_TritwiseResults (H : Obligations.TritwiseResults) :
    Goes (Instr.tand gd 8 2 10) (u220) ∧
    Goes (Instr.tor gd 8 2 10) (u220) ∧
    Goes (Instr.tsum gd 8 2 10) (u220) ∧
    Goes (Instr.tmult gd 8 2 10) (u220) ∧
    Goes (Instr.tcons gd 8 2 10) (u220) ∧
    trit (tand 27 5 7) 26 = min (trit 5 26) (trit 7 26) ∧ trit (wrap (-5) 27) 26 = -trit 5 26 :=
  ⟨(H.1 gd 8 2 10 u220 (plain_of (by decide +kernel)) (legal_of (by decide +kernel)) (by decide +kernel) (by decide +kernel)).elim fun _ e => ⟨_, e.1⟩,
   (H.2.1 gd 8 2 10 u220 (plain_of (by decide +kernel)) (legal_of (by decide +kernel)) (by decide +kernel) (by decide +kernel)).elim fun _ e => ⟨_, e.1⟩,
   (H.2.2.1 gd 8 2 10 u220 (plain_of (by decide +kernel)) (legal_of (by decide +kernel)) (by decide +kernel) (by decide +kernel)).elim fun _ e => ⟨_, e.1⟩,
   (H.2.2.2.1 gd 8 2 10 u220 (plain_of (by decide +kernel)) (legal_of (by decide +kernel)) (by decide +kernel) (by decide +kernel)).elim fun _ e => ⟨_, e.1⟩,
   (H.2.2.2.2.1 gd 8 2 10 u220 (plain_of (by decide +kernel)) (legal_of (by decide +kernel)) (by decide +kernel) (by decide +kernel)).elim fun _ e => ⟨_, e.1⟩,
   ⟨(H.2.2.2.2.2.1 5 7 26 (by decide)).1, H.2.2.2.2.2.2 5 26 (by decide)⟩⟩
theorem test_witness_WrapAndSaturate (H : Obligations.WrapAndSaturate) : wrap (half 3) 3 = half 3 ∧ sat (half 3 + 1) 3 = half 3 :=
  ⟨((H (half 3) 3).2.2.2.1 (by decide)).1, (H (half 3 + 1) 3).2.2.2.2.1 (by decide)⟩
theorem test_witness_Conversions (H : Obligations.Conversions) :
    Goes (.cvt gd false false .t9 8 4) u2 ∧
    Goes (.cvt gd false false .t3 8 9) u3v ∧
    Goes (.cvt gd true true .t9 8 4) u2 ∧
    Goes (.cvtf gd false .t27 .f9 8 4) u2 ∧
    Goes (.cvtf gd true .f9 .t27 8 4) u2 ∧
    Goes (Instr.rng gd 8 2 10) (u220) :=
  ⟨runs_goes (H.1 gd false .t9 8 4).1 (by decide +kernel) (by decide +kernel) (by decide +kernel) (by decide +kernel),
   raises_goes (H.1 gd false .t3 8 9).2 7 (by decide +kernel) (by decide +kernel) (by decide +kernel) rfl (by decide +kernel) (by decide +kernel),
   runs_goes (H.2.1 gd true .t9 8 4).1 (by decide +kernel) (by decide +kernel) (by decide +kernel) (by decide +kernel),
   runs_goes (H.2.2.1 gd false .t27 .f9 8 4 rfl).1 (by decide +kernel) (by decide +kernel) (by decide +kernel) (by decide +kernel),
   runs_goes (H.2.2.2.1 gd true .f9 .t27 8 4 rfl).1 (by decide +kernel) (by decide +kernel) (by decide +kernel) (by decide +kernel),
   (H.2.2.2.2 gd 8 2 10 u220 (plain_of (by decide +kernel)) (legal_of (by decide +kernel)) (by decide +kernel) (by decide +kernel)).elim fun _ e => ⟨_, e.1⟩⟩
theorem test_witness_FloatArithmetic (H : Obligations.FloatArithmetic) :
    Goes (Instr.fadd gd FFmt.word 8 2 10) (u220) ∧
    Goes (Instr.fsub gd FFmt.word 8 2 10) (u220) ∧
    Goes (Instr.fmul gd FFmt.word 8 2 10) (u220) ∧
    Goes (Instr.ffma gd FFmt.word 8 2 10 4) (u220) ∧
    Goes (Instr.fmin gd FFmt.word 8 2 10) (u220) ∧
    Goes (Instr.fmax gd FFmt.word 8 2 10) (u220) ∧
    Goes (Instr.fneg gd FFmt.word 8 2) (u220) ∧
    Goes (Instr.fabs gd FFmt.word 8 2) (u220) ∧
    Goes (Instr.fscl gd FFmt.word 8 2 10 5) (u220) ∧
    Goes (Instr.frnd gd FFmt.word 8 2 5) (u220) ∧
    Goes (Instr.fcvtF9 gd 8 2) (u220) ∧
    Goes (Instr.fcvtF27 gd 8 2) (u220) ∧
    Goes (Instr.fclass gd FFmt.word 8 2) (u220) ∧
    Goes (Instr.fcmp gd FFmt.word 8 2 10) (u220) ∧
    Goes (Instr.fcmp gd FFmt.s9 8 2 10) (u220) ∧
    Goes (Instr.fcmp gd FFmt.t3 8 2 10) (u220) :=
  ⟨(H.1 gd .word 8 2 10 u220 (plain_of (by decide +kernel)) (legal_of (by decide +kernel)) (by decide +kernel) (by decide +kernel)).elim fun _ e => ⟨_, e.1⟩,
   (H.2.1 gd .word 8 2 10 u220 (plain_of (by decide +kernel)) (legal_of (by decide +kernel)) (by decide +kernel) (by decide +kernel)).elim fun _ e => ⟨_, e.1⟩,
   (H.2.2.1 gd .word 8 2 10 u220 (plain_of (by decide +kernel)) (legal_of (by decide +kernel)) (by decide +kernel) (by decide +kernel)).elim fun _ e => ⟨_, e.1⟩,
   (H.2.2.2.1 gd .word 8 2 10 4 u220 (plain_of (by decide +kernel)) (legal_of (by decide +kernel)) (by decide +kernel) (by decide +kernel)).elim fun _ e => ⟨_, e.1⟩,
   (H.2.2.2.2.1 gd .word 8 2 10 u220 (plain_of (by decide +kernel)) (legal_of (by decide +kernel)) (by decide +kernel) (by decide +kernel)).elim fun _ e => ⟨_, e.1⟩,
   (H.2.2.2.2.2.1 gd .word 8 2 10 u220 (plain_of (by decide +kernel)) (legal_of (by decide +kernel)) (by decide +kernel) (by decide +kernel)).elim fun _ e => ⟨_, e.1⟩,
   (H.2.2.2.2.2.2.1 gd .word 8 2 u220 (plain_of (by decide +kernel)) (legal_of (by decide +kernel)) (by decide +kernel) (by decide +kernel)).elim fun _ e => ⟨_, e.1⟩,
   (H.2.2.2.2.2.2.2.1 gd .word 8 2 u220 (plain_of (by decide +kernel)) (legal_of (by decide +kernel)) (by decide +kernel) (by decide +kernel)).elim fun _ e => ⟨_, e.1⟩,
   (H.2.2.2.2.2.2.2.2.1 gd .word 8 2 10 5 u220 (plain_of (by decide +kernel)) (legal_of (by decide +kernel)) (by decide +kernel) (by decide +kernel)).elim fun _ e => ⟨_, e.1⟩,
   (H.2.2.2.2.2.2.2.2.2.1 gd .word 8 2 5 u220 (plain_of (by decide +kernel)) (legal_of (by decide +kernel)) (by decide +kernel) (by decide +kernel)).elim fun _ e => ⟨_, e.1⟩,
   (H.2.2.2.2.2.2.2.2.2.2.1 gd 8 2 u220 (plain_of (by decide +kernel)) (legal_of (by decide +kernel)) (by decide +kernel) (by decide +kernel)).elim fun _ e => ⟨_, e.1⟩,
   (H.2.2.2.2.2.2.2.2.2.2.2.1 gd 8 2 u220 (plain_of (by decide +kernel)) (legal_of (by decide +kernel)) (by decide +kernel) (by decide +kernel)).elim fun _ e => ⟨_, e.1⟩,
   (H.2.2.2.2.2.2.2.2.2.2.2.2.1 gd .word 8 2 u220 (plain_of (by decide +kernel)) (legal_of (by decide +kernel)) (by decide +kernel) (by decide +kernel)).elim fun _ e => ⟨_, e.1⟩,
   (H.2.2.2.2.2.2.2.2.2.2.2.2.2.1 gd 8 2 10 u220 (plain_of (by decide +kernel)) (legal_of (by decide +kernel)) (by decide +kernel) (by decide +kernel)).elim fun _ e => ⟨_, e.1⟩,
   (H.2.2.2.2.2.2.2.2.2.2.2.2.2.2.1 gd 8 2 10 u220 (plain_of (by decide +kernel)) (legal_of (by decide +kernel)) (by decide +kernel) (by decide +kernel)).elim fun _ e => ⟨_, e.1⟩,
   (H.2.2.2.2.2.2.2.2.2.2.2.2.2.2.2 gd 8 2 10 u220 (plain_of (by decide +kernel)) (legal_of (by decide +kernel)) (by decide +kernel) (by decide +kernel)).elim fun _ e => ⟨_, e.1⟩⟩
theorem test_witness_FloatFunctions (H : Obligations.FloatFunctions) :
    Goes (Instr.fdiv gd FFmt.word 8 2 10) (u220) ∧
    Goes (Instr.frcp gd FFmt.word 8 2) (u220) ∧
    Goes (Instr.fsqrt gd FFmt.word 8 2) (u220) ∧
    Goes (Instr.frsq gd FFmt.word 8 2) (u220) ∧
    Goes (Instr.fexp gd FFmt.word 8 2) (u220) ∧
    Goes (Instr.fexp3 gd FFmt.word 8 2) (u220) ∧
    Goes (Instr.flog gd FFmt.word 8 2) (u220) ∧
    Goes (Instr.flog3 gd FFmt.word 8 2) (u220) ∧
    Goes (Instr.fsin gd FFmt.word 8 2) (u220) ∧
    Goes (Instr.fcos gd FFmt.word 8 2) (u220) ∧
    Goes (Instr.ftanh gd FFmt.word 8 2) (u220) ∧
    Goes (Instr.fsigm gd FFmt.word 8 2) (u220) ∧
    Goes (Instr.ferf gd FFmt.word 8 2) (u220) :=
  ⟨(H.1 gd .word 8 2 10 u220 (plain_of (by decide +kernel)) (legal_of (by decide +kernel)) (by decide +kernel) (by decide +kernel)).elim fun _ e => ⟨_, e.1⟩,
   (H.2.1 gd .word 8 2 u220 (plain_of (by decide +kernel)) (legal_of (by decide +kernel)) (by decide +kernel) (by decide +kernel)).elim fun _ e => ⟨_, e.1⟩,
   (H.2.2.1 gd .word 8 2 u220 (plain_of (by decide +kernel)) (legal_of (by decide +kernel)) (by decide +kernel) (by decide +kernel)).elim fun _ e => ⟨_, e.1⟩,
   (H.2.2.2.1 gd .word 8 2 u220 (plain_of (by decide +kernel)) (legal_of (by decide +kernel)) (by decide +kernel) (by decide +kernel)).elim fun _ e => ⟨_, e.1⟩,
   (H.2.2.2.2.1 gd .word 8 2 u220 (plain_of (by decide +kernel)) (legal_of (by decide +kernel)) (by decide +kernel) (by decide +kernel)).elim fun _ e => ⟨_, e.1⟩,
   (H.2.2.2.2.2.1 gd .word 8 2 u220 (plain_of (by decide +kernel)) (legal_of (by decide +kernel)) (by decide +kernel) (by decide +kernel)).elim fun _ e => ⟨_, e.1⟩,
   (H.2.2.2.2.2.2.1 gd .word 8 2 u220 (plain_of (by decide +kernel)) (legal_of (by decide +kernel)) (by decide +kernel) (by decide +kernel)).elim fun _ e => ⟨_, e.1⟩,
   (H.2.2.2.2.2.2.2.1 gd .word 8 2 u220 (plain_of (by decide +kernel)) (legal_of (by decide +kernel)) (by decide +kernel) (by decide +kernel)).elim fun _ e => ⟨_, e.1⟩,
   (H.2.2.2.2.2.2.2.2.1 gd .word 8 2 u220 (plain_of (by decide +kernel)) (legal_of (by decide +kernel)) (by decide +kernel) (by decide +kernel)).elim fun _ e => ⟨_, e.1⟩,
   (H.2.2.2.2.2.2.2.2.2.1 gd .word 8 2 u220 (plain_of (by decide +kernel)) (legal_of (by decide +kernel)) (by decide +kernel) (by decide +kernel)).elim fun _ e => ⟨_, e.1⟩,
   (H.2.2.2.2.2.2.2.2.2.2.1 gd .word 8 2 u220 (plain_of (by decide +kernel)) (legal_of (by decide +kernel)) (by decide +kernel) (by decide +kernel)).elim fun _ e => ⟨_, e.1⟩,
   (H.2.2.2.2.2.2.2.2.2.2.2.1 gd .word 8 2 u220 (plain_of (by decide +kernel)) (legal_of (by decide +kernel)) (by decide +kernel) (by decide +kernel)).elim fun _ e => ⟨_, e.1⟩,
   (H.2.2.2.2.2.2.2.2.2.2.2.2 gd .word 8 2 u220 (plain_of (by decide +kernel)) (legal_of (by decide +kernel)) (by decide +kernel) (by decide +kernel)).elim fun _ e => ⟨_, e.1⟩⟩
theorem test_witness_FloatRounding (H : Obligations.FloatRounding) :
    Rounds f9 (((243 : Int) : ℝ) * 3 ^ (-5 : Int) / (((243 : Int) : ℝ) * 3 ^ (-5 : Int))) (divV f9 (valF f9 243) (valF f9 243)) ∧
    divV f9 (valF f9 243) (valF f9 0) = nanF f9 ∧
    sqrtV f9 (valF f9 (-243)) = nanF f9 ∧
    Rounds f9 (1 / Real.sqrt (((243 : Int) : ℝ) * 3 ^ (-5 : Int))) (rsqV f9 (valF f9 243)) :=
  ⟨(H f9 (by decide) 243 243 243 (-5) 243 (-5) (by decide +kernel) (by decide +kernel)).1 (by decide),
   (H f9 (by decide) 243 0 243 (-5) 0 0 (by decide +kernel) (by decide +kernel)).2.2.2.2.2.2.1 rfl,
   ((H f9 (by decide) (-243) 243 (-243) (-5) 243 (-5) (by decide +kernel) (by decide +kernel)).2.2.2.2.2.2.2.1 (by decide)).1,
   (H f9 (by decide) 243 243 243 (-5) 243 (-5) (by decide +kernel) (by decide +kernel)).2.2.2.1 (by decide)⟩
theorem test_witness_Transfers (H : Obligations.Transfers) :
    Goes (.br gd 50) udv ∧
    Goes (.br gd 50) u3 ∧
    Goes (.call gd 8 50) udv ∧
    Goes (.ret gd 2) udr ∧
    Goes (Instr.movmrGet gd 8) (u220) :=
  ⟨runs_goes (H.1 gd 50).1 (by decide +kernel) (by decide +kernel) (by decide +kernel) (by decide +kernel),
   raises_goes (H.1 gd 50).2 6 (by decide +kernel) (by decide +kernel) (by decide +kernel) rfl (by decide +kernel) (by decide +kernel),
   runs_goes (H.2.1 gd 8 50).1 (by decide +kernel) (by decide +kernel) (by decide +kernel) (by decide +kernel),
   runs_goes (H.2.2.1 gd 2).1 (by decide +kernel) (by decide +kernel) (by decide +kernel) (by decide +kernel),
   (H.2.2.2 gd 8 u220 (plain_of (by decide +kernel)) (legal_of (by decide +kernel)) (by decide +kernel) (by decide +kernel)).elim fun _ e => ⟨_, e.1⟩⟩
theorem test_witness_StatusAndMeeting (H : Obligations.StatusAndMeeting) :
    Goes (Instr.tnow gd 8) (ub) ∧
    Goes (Instr.qstat hd 8 216) (ub) ∧
    Goes (Instr.dstat hd 8) (ub) ∧
    Goes (Instr.fstat hd 1 8 4 0) (ub) ∧
    Goes (Instr.mbudg hd 8) (ub) ∧
    Goes (Instr.scrh hd 8) (ub) ∧
    Goes (Instr.csrr gd 8 0) (ub22) ∧
    Goes (Instr.csrr gd 8 1) (ub22) ∧
    Goes (Instr.setmr hd 12) (st63) ∧
    Goes (Instr.setmrClr gd) (st64) ∧
    Goes (Instr.movmrPut hd 2) (ub) :=
  ⟨(H.1.1 gd 8 ub (plain_of (by decide +kernel)) (legal_of (by decide +kernel)) (by decide +kernel) (by decide +kernel)).elim fun _ e => ⟨_, e.1⟩,
   (H.1.2.1 hd 8 216 ub (plain_of (by decide +kernel)) (legal_of (by decide +kernel)) (by decide +kernel) (by decide +kernel)).elim fun _ e => ⟨_, e.1⟩,
   (H.1.2.2.1 hd 8 ub (plain_of (by decide +kernel)) (legal_of (by decide +kernel)) (by decide +kernel) (by decide +kernel)).elim fun _ e => ⟨_, e.1⟩,
   (H.1.2.2.2.1 hd 1 8 4 0 ub (plain_of (by decide +kernel)) (legal_of (by decide +kernel)) (by decide +kernel) (by decide +kernel)).elim fun _ e => ⟨_, e.1⟩,
   (H.1.2.2.2.2.1 hd 8 ub (plain_of (by decide +kernel)) (legal_of (by decide +kernel)) (by decide +kernel) (by decide +kernel)).elim fun _ e => ⟨_, e.1⟩,
   (H.1.2.2.2.2.2.1 hd 8 ub (plain_of (by decide +kernel)) (legal_of (by decide +kernel)) (by decide +kernel) (by decide +kernel)).elim fun _ e => ⟨_, e.1⟩,
   (H.1.2.2.2.2.2.2.1 gd 8 0 { isPair := false, read := .handler, write := .never } rfl rfl ub22 (plain_of (by decide +kernel)) (legal_of (by decide +kernel)) (by decide +kernel) (by decide +kernel)).elim fun _ e => ⟨_, e.1⟩,
   (H.1.2.2.2.2.2.2.2 gd 8 1 { isPair := true, read := .handler, write := .handler } rfl rfl ub22 (plain_of (by decide +kernel)) (legal_of (by decide +kernel)) (by decide +kernel) (by decide +kernel)).elim fun _ e => ⟨_, e.1⟩,
   (H.2.1 hd 12 st63 (plain_of (by decide +kernel)) (legal_of (by decide +kernel)) (by decide +kernel) (by decide +kernel)).elim fun _ y => y.elim fun _ e => ⟨_, e.1⟩,
   (H.2.2.1 gd st64 (plain_of (by decide +kernel)) (legal_of (by decide +kernel)) (by decide +kernel) (by decide +kernel)).elim fun _ y => y.elim fun _ e => ⟨_, e.1⟩,
   (H.2.2.2 hd 2 ub (plain_of (by decide +kernel)) (legal_of (by decide +kernel)) (by decide +kernel) (by decide +kernel)).elim fun _ y => y.elim fun _ e => ⟨_, e.1⟩⟩
theorem test_witness_RetiringForms (H : Obligations.RetiringForms) :
    Goes (Instr.yld gd) (ub) ∧
    Goes (Instr.nop gd) (ub22) ∧
    Goes (Instr.mrdy gd) (ub22) ∧
    Goes (Instr.invAll gd) (ub22) ∧
    Goes (Instr.icpf gd 2 3000) (ub) ∧
    Goes (Instr.ifence gd) (ub) ∧
    Goes (Instr.ifence gd) (st65) ∧
    Goes (Instr.icinv gd 3000) (st66) ∧
    Goes (Instr.icinvAll gd) (st67) ∧
    Goes (Instr.hint 5) (ub) :=
  ⟨(H.1.1 gd ub (by decide +kernel) (plain_of (by decide +kernel)) (legal_of (by decide +kernel)) (fun _ => trivial)).elim fun _ e => ⟨_, e.1⟩,
   (H.1.2.1 gd ub22 (by decide +kernel) (plain_of (by decide +kernel)) (legal_of (by decide +kernel)) (fun _ => trivial)).elim fun _ e => ⟨_, e.1⟩,
   (H.1.2.2.1 gd ub22 (by decide +kernel) (plain_of (by decide +kernel)) (legal_of (by decide +kernel)) (fun _ => trivial)).elim fun _ e => ⟨_, e.1⟩,
   (H.1.2.2.2.1 gd ub22 (by decide +kernel) (plain_of (by decide +kernel)) (legal_of (by decide +kernel)) (fun _ => trivial)).elim fun _ e => ⟨_, e.1⟩,
   (H.1.2.2.2.2.1 gd 2 3000 ub (by decide +kernel) (plain_of (by decide +kernel)) (legal_of (by decide +kernel)) (fun _ => trivial)).elim fun _ e => ⟨_, e.1⟩,
   (H.1.2.2.2.2.2.1 gd ub (by decide +kernel) (plain_of (by decide +kernel)) (legal_of (by decide +kernel)) (by decide +kernel)).elim fun _ e => ⟨_, e.1⟩,
   (H.1.2.2.2.2.2.2.1 gd st65 (by decide +kernel) (plain_of (by decide +kernel)) (legal_of (by decide +kernel)) (by decide +kernel)).elim fun _ e => ⟨_, e.1⟩,
   (H.1.2.2.2.2.2.2.2.1 gd 3000 st66 (by decide +kernel) (plain_of (by decide +kernel)) (legal_of (by decide +kernel)) (fun _ => trivial)).elim fun _ e => ⟨_, e.1⟩,
   (H.1.2.2.2.2.2.2.2.2 gd st67 (by decide +kernel) (plain_of (by decide +kernel)) (legal_of (by decide +kernel)) (fun _ => trivial)).elim fun _ e => ⟨_, e.1⟩,
   (H.2 5 ub (plain_of (by decide +kernel))).elim fun _ e => ⟨_, e.1⟩⟩
theorem test_witness_InactiveLanes (H : Obligations.InactiveLanes) : Start u2 (u2.opened gd) gd :=
  H u2 gd (plain_of (by decide +kernel))
theorem test_witness_NibConfiguration (H : Obligations.NibConfiguration) :
    Goes (Instr.mcfg gd 12 { slot := 2, atype := NTy.t3, btype := NTy.t3, otype := OTy.t9, pa := 3, pb := PB.p3, otag := 5 }) (ub22) ∧
    Goes (Instr.ring gd 2 3 4) (ub) ∧
    Goes (Instr.fsetReady gd true 4 5 1) (ub) ∧
    Goes (Instr.fsetEmpty gd true 4 0) (ub) :=
  ⟨(H.1 gd 12 { slot := 2, atype := .t3, btype := .t3, otype := .t9, pa := 3, pb := .p3, otag := 5 } ub22 (by decide +kernel) (plain_of (by decide +kernel)) (legal_of (by decide +kernel)) (by decide +kernel)).elim fun _ e => ⟨_, e.1⟩,
   (H.2.1 gd 2 3 4 ub (by decide +kernel) (plain_of (by decide +kernel)) (legal_of (by decide +kernel)) (by decide +kernel)).elim fun _ e => ⟨_, e.1⟩,
   (H.2.2.1 gd true 4 5 1 ub (by decide +kernel) (plain_of (by decide +kernel)) (legal_of (by decide +kernel)) (by decide +kernel)).elim fun _ e => ⟨_, e.1⟩,
   (H.2.2.2 gd true 4 0 ub (by decide +kernel) (plain_of (by decide +kernel)) (legal_of (by decide +kernel)) (by decide +kernel)).elim fun _ e => ⟨_, e.1⟩⟩
theorem test_witness_NibCommands (H : Obligations.NibCommands) :
    Goes (Instr.mzero gd 2) (un) ∧
    Goes (Instr.mloop gd true true 4 2 0 1 3) (un) ∧
    Goes (Instr.mdrain gd { res := true, drop := true, z := true, tok := true, slot := 2, ro := 2, rr := 0, a := 4, b := 0, c := 6 }) (un) ∧
    Goes (Instr.qscale gd true 3 4 2) (un) ∧
    Goes (Instr.fitr gd true 3 2) (un) :=
  ⟨(H.1 gd 2 un (by decide +kernel) (plain_of (by decide +kernel)) (legal_of (by decide +kernel)) (by decide +kernel)).elim fun _ e => ⟨_, e.1⟩,
   (H.2.1 gd true true 4 2 0 1 3 un (by decide +kernel) (plain_of (by decide +kernel)) (legal_of (by decide +kernel)) (by decide +kernel)).elim fun _ e => ⟨_, e.1⟩,
   (H.2.2.1 gd { res := true, drop := true, z := true, tok := true, slot := 2, ro := 2, rr := 0, a := 4, b := 0, c := 6 } un (by decide +kernel) (plain_of (by decide +kernel)) (legal_of (by decide +kernel)) (by decide +kernel)).elim fun _ e => ⟨_, e.1⟩,
   (H.2.2.2.1 gd true 3 4 2 un (by decide +kernel) (plain_of (by decide +kernel)) (legal_of (by decide +kernel)) (by decide +kernel)).elim fun _ e => ⟨_, e.1⟩,
   (H.2.2.2.2 gd true 3 2 un (by decide +kernel) (plain_of (by decide +kernel)) (legal_of (by decide +kernel)) (by decide +kernel)).elim fun _ e => ⟨_, e.1⟩⟩
theorem test_witness_CopyIssue (H : Obligations.CopyIssue) :
    Goes (Instr.cpy gd co 4 2 6) (uc) ∧
    Goes (Instr.cpys gd co 4 2 7) (st122) ∧
    Goes (Instr.cpyg gd co 4 2 7 0) (uc) ∧
    Goes (Instr.cpyx gd co 4 2 7 0) (uc) ∧
    Goes (Instr.cpyc gd true 5 2 4 6) (uc) ∧
    Goes (Instr.cpyv gd true 12 4 2 6) (vst) :=
  ⟨(H.1 gd co 4 2 6 uc (by decide +kernel) (plain_of (by decide +kernel)) (legal_of (by decide +kernel)) (fun _ => ⟨(by delta Sys2Proof.Machine.copyRoom; exact (by decide +kernel)), ⟨(by decide +kernel), ⟨(by decide +kernel), (by delta Sys2Proof.Machine.copyOk; exact (by decide +kernel))⟩⟩⟩)).elim fun _ e => ⟨_, e.1⟩,
   (H.2.1 gd co 4 2 7 st122 (by decide +kernel) (plain_of (by decide +kernel)) (legal_of (by decide +kernel)) (fun _ => ⟨(by delta Sys2Proof.Machine.copyRoom; exact (by decide +kernel)), (both2 (by decide +kernel) (both4 (by decide +kernel) (by delta Sys2Proof.Machine.copyOk; exact (by decide +kernel))))⟩)).elim fun _ e => ⟨_, e.1⟩,
   (H.2.2.1 gd co 4 2 7 0 uc (by decide +kernel) (plain_of (by decide +kernel)) (legal_of (by decide +kernel)) (fun _ => ⟨(by delta Sys2Proof.Machine.copyRoom; exact (by decide +kernel)), (both3 (by decide +kernel) (both4 (by decide +kernel) (by delta Sys2Proof.Machine.copyOk; exact (by decide +kernel))))⟩)).elim fun _ e => ⟨_, e.1⟩,
   (H.2.2.2.1 gd co 4 2 7 0 uc (by decide +kernel) (plain_of (by decide +kernel)) (legal_of (by decide +kernel)) (fun _ => ⟨(by delta Sys2Proof.Machine.copyRoom; exact (by decide +kernel)), (both4 (by decide +kernel) (both4 (by decide +kernel) (by delta Sys2Proof.Machine.copyOk; exact (by decide +kernel))))⟩)).elim fun _ e => ⟨_, e.1⟩,
   (H.2.2.2.2.1 gd true 5 2 4 6 uc (by decide +kernel) (plain_of (by decide +kernel)) (legal_of (by decide +kernel)) (fun _ => ⟨(by delta Sys2Proof.Machine.copyRoom; exact (by decide +kernel)), (by decide +kernel)⟩)).elim fun _ e => ⟨_, e.1⟩,
   (H.2.2.2.2.2 gd true 12 4 2 6 vst (by decide +kernel) (plain_of (by decide +kernel)) (legal_of (by decide +kernel)) (fun _ => ⟨(by delta Sys2Proof.Machine.copyRoom; exact (by decide +kernel)), (by decide +kernel)⟩)).elim fun _ e => ⟨_, e.1⟩⟩
theorem test_witness_ControlWrites (H : Obligations.ControlWrites) :
    Goes (Instr.csrw gd 2 2) (bs) ∧
    Goes (Instr.csrw gd 2 18) (bs) ∧
    Goes (Instr.csrw gd 5 17) (bs) ∧
    Goes (Instr.clrc gd 10) (bs) ∧
    Goes (Instr.halt gd) (st70) ∧
    Goes (Instr.halt gd) (bs) :=
  ⟨(H.1 gd 2 2 { isPair := true, read := .handler, write := .handler } rfl (by decide) nofun bs (by decide +kernel) (plain_of (by decide +kernel)) (legal_of (by decide +kernel)) (by decide +kernel)).elim fun _ e => ⟨_, e.1⟩,
   (H.2.1 gd 2 18 { isPair := true, read := .super, write := .super } rfl (by decide) rfl nofun bs (plain_of (by decide +kernel)) (legal_of (by decide +kernel)) (by decide +kernel)).elim fun _ e => ⟨_, e.2⟩,
   (H.2.2.1 gd 5 17 { isPair := false, read := .super, write := .super } rfl (by decide) rfl nofun bs (plain_of (by decide +kernel)) (legal_of (by decide +kernel)) (by decide +kernel)).elim fun _ e => ⟨_, e.2⟩,
   (H.2.2.2.1 gd 10 bs (by decide +kernel) (plain_of (by decide +kernel)) (legal_of (by decide +kernel)) (fun _ => trivial)).elim fun _ e => ⟨_, e.1⟩,
   (H.2.2.2.2.1 gd st70 (by decide +kernel) (plain_of (by decide +kernel)) (legal_of (by decide +kernel)) (by decide +kernel)).elim fun _ e => ⟨_, e.1⟩,
   (H.2.2.2.2.2 gd bs (by decide +kernel) (plain_of (by decide +kernel)) (legal_of (by decide +kernel)) (by decide +kernel)).elim fun _ e => ⟨_, e.1⟩⟩
theorem test_witness_RegisterReads (H : Obligations.RegisterReads) :
    u2.reg 449 235 = 1 ∧
    u2.csr 448 30 = 387597637 ∧
    u2.csr 448 9 = (u2.ctx 1).tmask ∧
    (supX 1).csr 448 9 = ((supX 1).ctx 1).tmask ∧
    (supX 2).csr 448 9 = 0 ∧
    (supX 2).csr 448 36 = 0 ∧
    fld (u2.scribeStatus 1) 9 16 = 0 :=
  ⟨(H.1 u2 1 0 1 (by decide) (by decide)).2.1,
   (H.2.1 u2 448).2.2.2.2.2.2.2.2.2.2.2,
   (H.2.2.1 u2 448 9 (fun _ x => x.tmask) (.inl (by simp))).1 (.inl (by decide +kernel)),
   (H.2.2.1 (supX 1) 448 9 (fun _ x => x.tmask) (.inl (by simp))).2.1 (by decide +kernel) (by decide +kernel) (by decide +kernel) (by decide +kernel),
   ((H.2.2.1 (supX 2) 448 9 (fun _ x => x.tmask) (.inl (by simp))).2.2 (by decide +kernel) (by decide +kernel) (.inl (by decide +kernel))).1,
   ((H.2.2.1 (supX 2) 448 36 (fun d x => Tab.get 0 x.counters (16 * d + (36 - 36))) (.inr ⟨by decide, by decide, rfl⟩)).2.2 (by decide +kernel) (by decide +kernel) (.inl (by decide +kernel))).1,
   (H.2.2.2 u2 1).2.2⟩
theorem test_witness_ContextControl (H : Obligations.ContextControl) :
    Goes (Instr.kill gd 4) (bs) ∧
    Goes (Instr.preempt gd 4) (st72) ∧
    Goes (Instr.preemptBlk gd 4 12) (st73) ∧
    Goes (Instr.replay gd 8 4 6) (rqs) ∧
    Goes (.tlbi gd 4 2) rqs ∧
    Goes (.tlbiCtx gd 4 6) rqs ∧
    Goes (Instr.tlbiDie gd 6) (rqs) :=
  ⟨(H.1 gd 4 bs (plain_of (by decide +kernel)) (legal_of (by decide +kernel)) (by decide +kernel)).elim fun _ e => ⟨_, e.2⟩,
   (H.2.1 gd 4 st72 (plain_of (by decide +kernel)) (legal_of (by decide +kernel)) (by decide +kernel)).elim fun _ e => ⟨_, e.2⟩,
   (H.2.2.1 gd 4 12 st73 (plain_of (by decide +kernel)) (legal_of (by decide +kernel)) (by decide +kernel)).elim fun _ e => ⟨_, e.2⟩,
   (H.2.2.2.1 gd 8 4 6 rqs (plain_of (by decide +kernel)) (legal_of (by decide +kernel)) (by decide +kernel)).elim fun _ e => ⟨_, e.2⟩,
   (H.2.2.2.2.1 gd 4 2 rqs (plain_of (by decide +kernel)) (legal_of (by decide +kernel)) (fun _ => ⟨1, 0, (by decide +kernel)⟩)).elim fun _ e => ⟨_, e.2⟩,
   (H.2.2.2.2.2.1 gd 4 6 rqs (plain_of (by decide +kernel)) (legal_of (by decide +kernel)) (fun _ => ⟨1, 0, (by decide +kernel)⟩)).elim fun _ e => ⟨_, e.2⟩,
   (H.2.2.2.2.2.2 gd 6 rqs (plain_of (by decide +kernel)) (legal_of (by decide +kernel)) (by decide +kernel)).elim fun _ e => ⟨_, e.2⟩⟩
theorem test_witness_DenyAndLaunch (H : Obligations.DenyAndLaunch) :
    Goes (Instr.deny gd 4 2) (rqs) ∧
    Goes (Instr.launch gd 8 2) (st74) ∧
    Goes (Instr.launchRes gd 8 4 7) (st75) ∧
    Goes (Instr.launchRes gd 8 0 7) (st77) :=
  ⟨(H.1 gd 4 2 rqs (plain_of (by decide +kernel)) (legal_of (by decide +kernel)) (by decide +kernel)).elim fun _ e => ⟨_, e.2⟩,
   (H.2.1 gd 8 2 (supLeaf (offOf (dv (-364)))) st74 (plain_of (by decide +kernel)) (legal_of (by decide +kernel)) (by decide +kernel)).elim fun _ e => ⟨_, e.2⟩,
   (H.2.2.1 gd 8 4 7 st75 (plain_of (by decide +kernel)) (legal_of (by decide +kernel)) (by decide +kernel)).elim fun _ e => ⟨_, e.2⟩,
   (H.2.2.2 gd 8 0 7 st77 (plain_of (by decide +kernel)) (legal_of (by decide +kernel)) (by decide +kernel)).elim fun _ e => ⟨_, e.2⟩⟩
theorem test_witness_FencesAndWaits (H : Obligations.FencesAndWaits) :
    Goes (Instr.fence gd { ord := Ord.dflt, scope := Scope.cluster }) (ub15) ∧
    Goes (Instr.fence gd { ord := Ord.dflt, scope := Scope.sys }) (st78) ∧
    Goes (Instr.twait gd (When.at_ 6) Scope.dflt (-5)) (ub15) ∧
    Goes (Instr.twait gd When.after Scope.cluster 500) (ub15) ∧
    Goes (Instr.talarm gd When.after 4 500) (u2) ∧
    Goes (Instr.wait gd 0 0 0 0) (u2) ∧
    Goes (Instr.wait gd 0 0 0 0) (st79) :=
  ⟨(H.1 gd { ord := .dflt, scope := .cluster } ub15 (by decide +kernel) (plain_of (by decide +kernel)) (legal_of (by decide +kernel)) (by decide +kernel)).elim fun _ e => ⟨_, e.1⟩,
   (H.2.1 gd { ord := .dflt, scope := .sys } 0 st78 (by decide +kernel) (plain_of (by decide +kernel)) (legal_of (by decide +kernel)) (by decide +kernel)).elim fun _ e => ⟨_, e.1⟩,
   (H.2.2.1 gd (.at_ 6) .dflt (-5) ub15 (by decide +kernel) (plain_of (by decide +kernel)) (legal_of (by decide +kernel)) (by decide +kernel)).elim fun _ e => ⟨_, e.1⟩,
   (H.2.2.2.1 gd .after .cluster 500 ub15 (by decide +kernel) (plain_of (by decide +kernel)) (legal_of (by decide +kernel)) (by decide +kernel)).elim fun _ e => ⟨_, e.1⟩,
   (H.2.2.2.2.1 gd .after 4 500 u2 (by decide +kernel) (plain_of (by decide +kernel)) (legal_of (by decide +kernel)) (fun _ => ⟨(by delta Sys2Proof.Machine.portsReady; exact (by decide +kernel)), (by decide +kernel)⟩)).elim fun _ e => ⟨_, e.1⟩,
   (H.2.2.2.2.2.1 gd 0 0 0 0 u2 (by decide +kernel) (plain_of (by decide +kernel)) (legal_of (by decide +kernel)) (by decide +kernel)).elim fun _ e => ⟨_, e.1⟩,
   (H.2.2.2.2.2.2 gd 0 0 0 0 st79 (by decide +kernel) (plain_of (by decide +kernel)) (legal_of (by decide +kernel)) (by decide +kernel)).elim fun _ e => ⟨_, e.1⟩⟩
theorem test_witness_BarrierForms (H : Obligations.BarrierForms) :
    Goes (Instr.bar gd Level.block 0 true) (u2) ∧
    Goes (Instr.bara gd Level.block 1 false 8) (fn) ∧
    Goes (Instr.bara gd Level.block 1 false 217) (fn) ∧
    Goes (Instr.barw gd Level.block 1 true 4) (u2) ∧
    Goes (Instr.barw gd Level.block 1 false 4) (st81) ∧
    Goes (Instr.barw gd Level.block 1 true 6) (st82) ∧
    Goes (Instr.barv gd Level.block 1 true AOp.add 9 10 3) (u2) ∧
    Goes (Instr.phase gd) (st83) :=
  ⟨(H.1 gd .block 0 true u2 (by decide +kernel) (plain_of (by decide +kernel)) (legal_of (by decide +kernel)) (fun _ => ⟨(by delta Sys2Proof.Machine.fenced; exact (by decide +kernel)), (by decide +kernel)⟩)).elim fun _ e => ⟨_, e.1⟩,
   (H.2.1 gd .block 1 false 8 (by decide) fn (by decide +kernel) (plain_of (by decide +kernel)) (legal_of (by decide +kernel)) (fun _ => ⟨(by delta Sys2Proof.Machine.fenced; exact (by decide +kernel)), (by decide +kernel)⟩)).elim fun _ e => ⟨_, e.1⟩,
   (H.2.2.1 gd .block 1 false 217 rfl fn (by decide +kernel) (plain_of (by decide +kernel)) (legal_of (by decide +kernel)) (fun _ => ⟨(by delta Sys2Proof.Machine.fenced; exact (by decide +kernel)), ⟨(by delta Sys2Proof.Machine.portsReady; exact (by decide +kernel)), (by decide +kernel)⟩⟩)).elim fun _ e => ⟨_, e.1⟩,
   (H.2.2.2.1 gd .block 1 true 4 u2 (by decide +kernel) (plain_of (by decide +kernel)) (legal_of (by decide +kernel)) (fun _ => ⟨(by delta Sys2Proof.Machine.portsReady; exact (by decide +kernel)), (by decide +kernel)⟩)).elim fun _ e => ⟨_, e.1⟩,
   (H.2.2.2.2.1 gd .block 1 4 st81 (by decide +kernel) (plain_of (by decide +kernel)) (legal_of (by decide +kernel)) (fun _ => ⟨(by delta Sys2Proof.Machine.portsReady; exact (by decide +kernel)), (by decide +kernel)⟩)).elim fun _ e => ⟨_, e.1⟩,
   (H.2.2.2.2.2.1 gd .block 1 true 6 st82 (by decide +kernel) (plain_of (by decide +kernel)) (legal_of (by decide +kernel)) (fun _ => ⟨(by delta Sys2Proof.Machine.portsReady; exact (by decide +kernel)), (by decide +kernel)⟩)).elim fun _ e => ⟨_, e.1⟩,
   (H.2.2.2.2.2.2.1 gd .block 1 true .add 9 10 3 u2 (by decide +kernel) (plain_of (by decide +kernel)) (legal_of (by decide +kernel)) (fun _ => ⟨(by delta Sys2Proof.Machine.fenced; exact (by decide +kernel)), ⟨(by delta Sys2Proof.Machine.portsReady; exact (by decide +kernel)), (by decide +kernel)⟩⟩)).elim fun _ e => ⟨_, e.1⟩,
   (H.2.2.2.2.2.2.2 gd st83 (by decide +kernel) (plain_of (by decide +kernel)) (legal_of (by decide +kernel)) (by decide +kernel)).elim fun _ e => ⟨_, e.1⟩⟩
theorem test_witness_SpawnDraftGive (H : Obligations.SpawnDraftGive) :
    Goes (Instr.spawn gd 0 216 fi) (u216) ∧
    Goes (Instr.draft gd 300) (u2) ∧
    Goes (Instr.draft gd 300) (st85) ∧
    Goes (Instr.rgive gd 1) (u2) ∧
    Goes (Instr.rclaim gd 2) (u217) :=
  ⟨(H.1 gd 0 216 fi 0 u216 (by decide +kernel) (plain_of (by decide +kernel)) (legal_of (by decide +kernel)) (fun _ => ⟨(by delta Sys2Proof.Machine.portsReady; exact (by decide +kernel)), (by decide +kernel)⟩)).elim fun _ e => ⟨_, e.1⟩,
   (H.2.1 gd 300 u2 (by decide +kernel) (plain_of (by decide +kernel)) (legal_of (by decide +kernel)) (by decide +kernel)).elim fun _ e => ⟨_, e.1⟩,
   (H.2.2.1 gd 300 st85 (by decide +kernel) (plain_of (by decide +kernel)) (legal_of (by decide +kernel)) (by decide +kernel)).elim fun _ e => ⟨_, e.1⟩,
   (H.2.2.2.1 gd 1 u2 (by decide +kernel) (plain_of (by decide +kernel)) (legal_of (by decide +kernel)) (by decide +kernel)).elim fun _ e => ⟨_, e.1⟩,
   (meets5 (H.2.2.2.2 gd 2 u217 (plain_of (by decide +kernel)) (legal_of (by decide +kernel))) (by decide +kernel) (by decide +kernel)).elim fun _ e => ⟨_, e.1⟩⟩
theorem test_witness_LineForms (H : Obligations.LineForms) :
    Goes (Instr.pref gd Lease.page (mm 2 4 5)) (u2) ∧
    Goes (Instr.inv gd (mm 2 4 5)) (st86) ∧
    Goes (Instr.wb gd (mm 2 4 0)) (st102) ∧
    Goes (Instr.wbAll gd) (st103) :=
  ⟨(H.1 gd .page (mm 2 4 5) u2 (by decide +kernel) (plain_of (by decide +kernel)) (legal_of (by decide +kernel)) (fun _ => (by delta Sys2Proof.Machine.portsReady; exact (by decide +kernel)))).elim fun _ e => ⟨_, e.1⟩,
   (H.2.1 gd (mm 2 4 5) st86 (by decide +kernel) (plain_of (by decide +kernel)) (legal_of (by decide +kernel)) (fun _ => (by delta Sys2Proof.Machine.portsReady; exact (by decide +kernel)))).elim fun _ e => ⟨_, e.1⟩,
   (H.2.2.1 gd (mm 2 4 0) st102 (by decide +kernel) (plain_of (by decide +kernel)) (legal_of (by decide +kernel)) (fun _ => ⟨(by delta Sys2Proof.Machine.portsReady; exact (by decide +kernel)), (by decide +kernel)⟩)).elim fun _ e => ⟨_, e.1⟩,
   (H.2.2.2 gd st103 (by decide +kernel) (plain_of (by decide +kernel)) (legal_of (by decide +kernel)) (by decide +kernel)).elim fun _ e => ⟨_, e.1⟩⟩
theorem test_witness_MemoryRequests (H : Obligations.MemoryRequests) :
    Goes (.ld gd .wd { ord := .acq, scope := .die } .l81 8 (mm 2 4 6)) u2 ∧
    Goes (.ldnb gd .wd { ord := .dflt, scope := .dflt } .l81 8 (mm 2 4 6) 6) u2 ∧
    Goes (.st gd .wd { ord := .rlx, scope := .dflt } 4 (mm 2 4 6)) u2 ∧
    Goes (.stva gd .wd { ord := .rlx, scope := .dflt } 4 (mm 2 4 6) 6) u2 ∧
    Goes (.ldb gd .i8 .t27 true { ord := .rlx, scope := .dflt } 8 (mm 2 4 6)) u2 ∧
    Goes (.stb gd .i8 .t27 true { ord := .rlx, scope := .dflt } 4 (mm 2 4 6)) u2 ∧
    Goes (.atom gd .add .wd { ord := .rlx, scope := .dflt } 8 (mm 2 4 6) 5) u2 ∧
    Goes (.cas gd .wd { ord := .rlx, scope := .dflt } 8 (mm 2 4 6) 216) u2 ∧
    Goes (.red gd .min .wd { ord := .rlx, scope := .dflt } (mm 2 4 6) 216) u2 ∧
    Goes (.atomo gd .add .wd { ord := .rlx, scope := .dflt } 8 2 4 6 5) u2 ∧
    Goes (.tkt gd 3 8 (mm 2 4 6)) u2 ∧
    Goes (.tktOpen gd 3 (mm 2 216 6)) st89 ∧
    Goes (.tktClose gd 3 (mm 2 4 6)) u2 ∧
    Goes (.tkp gd (mm 2 4 6) 5) u2 :=
  ⟨sends_goes (H.1 gd .wd { ord := .acq, scope := .die } .l81 8 (mm 2 4 6)) (s := u2) (by decide +kernel) (by decide +kernel) (by decide +kernel) (by decide +kernel) trivial (by decide +kernel) (by decide +kernel) (by decide +kernel) (by dsimp only [devOk, binOk]; decide +kernel),
   sends_goes (H.2.1 gd .wd { ord := .dflt, scope := .dflt } .l81 8 (mm 2 4 6) 6) (s := u2) (by decide +kernel) (by decide +kernel) (by decide +kernel) (by decide +kernel) trivial (by decide +kernel) (by decide +kernel) (by decide +kernel) (by dsimp only [devOk, binOk]; decide +kernel),
   sends_goes (H.2.2.1 gd .wd { ord := .rlx, scope := .dflt } 4 (mm 2 4 6)) (s := u2) (by decide +kernel) (by decide +kernel) (by decide +kernel) (by decide +kernel) (.inl (by decide)) (by decide +kernel) (by decide +kernel) (by decide +kernel) (by dsimp only [devOk, binOk]; decide +kernel),
   sends_goes (H.2.2.2.1 gd .wd { ord := .rlx, scope := .dflt } 4 (mm 2 4 6) 6) (s := u2) (by decide +kernel) (by decide +kernel) (by decide +kernel) (by decide +kernel) (.inl (by decide)) (by decide +kernel) (by decide +kernel) (by decide +kernel) (by dsimp only [devOk, binOk]; decide +kernel),
   sends_goes (H.2.2.2.2.1 gd .i8 .t27 true { ord := .rlx, scope := .dflt } 8 (mm 2 4 6)) (s := u2) (by decide +kernel) (by decide +kernel) (by decide +kernel) (by decide +kernel) trivial (by decide +kernel) (by decide +kernel) (by decide +kernel) (by dsimp only [devOk, binOk]; decide +kernel),
   sends_goes (H.2.2.2.2.2.1 gd .i8 .t27 true { ord := .rlx, scope := .dflt } 4 (mm 2 4 6)) (s := u2) (by decide +kernel) (by decide +kernel) (by decide +kernel) (by decide +kernel) (.inl (by decide)) (by decide +kernel) (by decide +kernel) (by decide +kernel) (by dsimp only [devOk, binOk]; decide +kernel),
   sends_goes (H.2.2.2.2.2.2.1 gd .add .wd { ord := .rlx, scope := .dflt } 8 (mm 2 4 6) 5) (s := u2) (by decide +kernel) (by decide +kernel) (by decide +kernel) (by decide +kernel) (.inl (by decide)) (by decide +kernel) (by decide +kernel) (by decide +kernel) (by dsimp only [devOk, binOk]; decide +kernel),
   sends_goes (H.2.2.2.2.2.2.2.1 gd .wd { ord := .rlx, scope := .dflt } 8 (mm 2 4 6) 216) (s := u2) (by decide +kernel) (by decide +kernel) (by decide +kernel) (by decide +kernel) (.inl (by decide)) (by decide +kernel) (by decide +kernel) (by decide +kernel) (by dsimp only [devOk, binOk]; decide +kernel),
   sends_goes (H.2.2.2.2.2.2.2.2.1 gd .min .wd { ord := .rlx, scope := .dflt } (mm 2 4 6) 216) (s := u2) (by decide +kernel) (by decide +kernel) (by decide +kernel) (by decide +kernel) (.inl (by decide)) (by decide +kernel) (by decide +kernel) (by decide +kernel) (by dsimp only [devOk, binOk]; decide +kernel),
   sends_goes (H.2.2.2.2.2.2.2.2.2.1 gd .add .wd { ord := .rlx, scope := .dflt } 8 2 4 6 5) (s := u2) (by decide +kernel) (by decide +kernel) (by decide +kernel) (by decide +kernel) (.inl (by decide)) (by decide +kernel) (by decide +kernel) (by decide +kernel) (by dsimp only [devOk, binOk]; decide +kernel),
   sends_goes (H.2.2.2.2.2.2.2.2.2.2.1 gd 3 8 (mm 2 4 6)) (s := u2) (by decide +kernel) (by decide +kernel) (by decide +kernel) (by decide +kernel) trivial (by decide +kernel) (by decide +kernel) (by decide +kernel) (by dsimp only [devOk, binOk]; decide +kernel),
   sends_goes (H.2.2.2.2.2.2.2.2.2.2.2.1 gd 3 (mm 2 216 6)) (s := st89) (by decide +kernel) (by decide +kernel) (by decide +kernel) (by decide +kernel) trivial (by decide +kernel) (by decide +kernel) (by decide +kernel) (by dsimp only [devOk, binOk]; decide +kernel),
   sends_goes (H.2.2.2.2.2.2.2.2.2.2.2.2.1 gd 3 (mm 2 4 6)) (s := u2) (by decide +kernel) (by decide +kernel) (by decide +kernel) (by decide +kernel) trivial (by decide +kernel) (by decide +kernel) (by decide +kernel) (by dsimp only [devOk, binOk]; decide +kernel),
   sends_goes (H.2.2.2.2.2.2.2.2.2.2.2.2.2 gd (mm 2 4 6) 5) (s := u2) (by decide +kernel) (by decide +kernel) (by decide +kernel) (by decide +kernel) trivial (by decide +kernel) (by decide +kernel) (by decide +kernel) (by dsimp only [devOk, binOk]; decide +kernel)⟩
theorem test_witness_UnitTraps (H : Obligations.UnitTraps) :
    Goes (.csrr gd 8 0) u3 ∧
    Goes (.csrw gd 300 18) u3 ∧
    Goes (.clrc gd 0) u3 ∧
    Goes (.halt gd) u3 ∧
    Goes (.kill gd 0) u3 ∧
    Goes (.preempt gd 0) u3 ∧
    Goes (.tlbiDie gd 0) u3 ∧
    Goes (.launch gd 8 4) u3 ∧
    Goes (.add gd false false 8 100 5) u3 ∧
    Goes (.mov gd false 100 5) u3 ∧
    Goes (Instr.brk gd 5) (u3) ∧
    Goes (Instr.trap gd 5) (u3) ∧
    Goes (Instr.div gd false 8 0 14) (u4) ∧
    Goes (Instr.rem gd false 8 0 14) (u4) ∧
    Goes (Instr.cvt gd false false IntTy.t9 8 16) (u4) ∧
    Goes (Instr.cvtf gd false CvtTy.f27 CvtTy.t9 8 16) (st124) ∧
    Goes (Instr.ret gd 12) (st125) :=
  ⟨traps_priv (H.1.1 gd 8 0 { isPair := false, read := .handler, write := .never } rfl rfl) (by decide +kernel) (by decide +kernel) (by decide +kernel) (by decide +kernel),
   traps_priv (H.1.2.1 gd 300 18 { isPair := true, read := .super, write := .super } rfl rfl) (by decide +kernel) (by decide +kernel) (by decide +kernel) (by decide +kernel),
   traps_priv (H.1.2.2.1 gd 0) (by decide +kernel) (by decide +kernel) (by decide +kernel) (by decide +kernel),
   traps_priv (H.1.2.2.2.1 gd) (by decide +kernel) (by decide +kernel) (by decide +kernel) (by decide +kernel),
   traps_priv (H.1.2.2.2.2.1 gd 0) (by decide +kernel) (by decide +kernel) (by decide +kernel) (by decide +kernel),
   traps_priv (H.1.2.2.2.2.2.1 gd 0) (by decide +kernel) (by decide +kernel) (by decide +kernel) (by decide +kernel),
   traps_priv (H.1.2.2.2.2.2.2.1 gd 0) (by decide +kernel) (by decide +kernel) (by decide +kernel) (by decide +kernel),
   traps_priv (H.1.2.2.2.2.2.2.2.1 gd 8 4) (by decide +kernel) (by decide +kernel) (by decide +kernel) (by decide +kernel),
   traps_field (H.1.2.2.2.2.2.2.2.2.1 gd false false 8 100 5) 0 (by decide +kernel) (by decide +kernel) (by decide +kernel) (by decide +kernel) (by decide +kernel),
   traps_field (H.1.2.2.2.2.2.2.2.2.2 gd 100 5) 0 (by decide +kernel) (by decide +kernel) (by decide +kernel) (by decide +kernel) (by decide +kernel),
   (H.2.1.1 gd 5 u3 (plain_of (by decide +kernel)) (legal_of (by decide +kernel)) (enterable_of (by decide +kernel)) (by decide +kernel)).elim fun _ e => ⟨_, e.1⟩,
   (H.2.1.2 gd 5 u3 (plain_of (by decide +kernel)) (legal_of (by decide +kernel)) (enterable_of (by decide +kernel)) (by decide +kernel)).elim fun _ y => y.elim fun _ e => ⟨_, e.1⟩,
   (meets5 (H.2.2.1 gd false 8 0 14 u4 8 (plain_of (by decide +kernel)) (legal_of (by decide +kernel)) (enterable_of (by decide +kernel))) (by decide +kernel)).elim fun _ y => y.elim fun _ e => ⟨_, e.1⟩,
   (meets5 (H.2.2.2.1 gd false 8 0 14 u4 8 (plain_of (by decide +kernel)) (legal_of (by decide +kernel)) (enterable_of (by decide +kernel))) (by decide +kernel)).elim fun _ y => y.elim fun _ e => ⟨_, e.1⟩,
   (meets5 (H.2.2.2.2.1 gd .t9 8 16 u4 7 (plain_of (by decide +kernel)) (legal_of (by decide +kernel)) (enterable_of (by decide +kernel))) (by decide +kernel)).elim fun _ y => y.elim fun _ e => ⟨_, e.1⟩,
   (meets5 (H.2.2.2.2.2.1 gd .f27 .t9 8 16 rfl st124 7 (plain_of (by decide +kernel)) (legal_of (by decide +kernel)) (enterable_of (by decide +kernel))) (by decide +kernel)).elim fun _ y => y.elim fun _ e => ⟨_, e.1⟩,
   (meets5 (H.2.2.2.2.2.2 gd 12 st125 6 (plain_of (by decide +kernel)) (legal_of (by decide +kernel)) (enterable_of (by decide +kernel))) (by decide +kernel)).elim fun _ y => y.elim fun _ e => ⟨_, e.1⟩⟩
theorem test_witness_TrapReturn (H : Obligations.TrapReturn) :
    Goes (Instr.tret gd) (ht) ∧
    Goes (Instr.exit gd) (st93) :=
  ⟨(meets5 (H.1 gd ht (plain_of (by decide +kernel)) (legal_of (by decide +kernel))) (by decide +kernel)).elim fun _ e => ⟨_, e.1⟩,
   (H.2 gd st93 (plain_of (by decide +kernel)) (legal_of (by decide +kernel)) (by decide +kernel)).elim fun _ e => ⟨_, e.2⟩⟩
theorem test_witness_TableCalls (H : Obligations.TableCalls) : Goes (.callt gd 8 12 77) ict1 :=
  by obtain ⟨_, t, e, -⟩ := H gd 8 12 77 ict1 (plain_of (by decide +kernel)) (legal_of (by decide +kernel)) (by decide +kernel) (by decide +kernel) (by decide +kernel); exact ⟨t, e⟩
theorem test_witness_MessagesAndMoves (H : Obligations.MessagesAndMoves) :
    Goes (.msg gd true 216 12 none) um ∧
    Goes (.msg gd true 216 12 (some 5)) um ∧
    Goes (Instr.msg gd true 216 7 (some 5)) (st98) ∧
    Goes (Instr.movNb gd 8 216 5) (u217) ∧
    Goes (Instr.movNb gd 217 0 5) (u217) ∧
    Goes (Instr.movNb gd 230 0 5) (u219) :=
  ⟨(H.1.1 gd true 216 12 um trivial (plain_of (by decide +kernel)) (legal_of (by decide +kernel)) (fun _ => ⟨by delta portsReady; decide +kernel, .inl rfl, fun i hi => ⟨1, by revert i; decide +kernel⟩⟩)).elim fun _ e => ⟨_, e.1⟩,
   (H.1.2.1 gd true 216 12 5 um trivial (plain_of (by decide +kernel)) (legal_of (by decide +kernel)) (fun _ => ⟨by delta portsReady; decide +kernel, .inl rfl, fun i hi => ⟨1, by revert i; decide +kernel⟩⟩)).elim fun _ e => ⟨_, e.1⟩,
   (H.1.2.2 gd true 216 7 5 true st98 (by decide +kernel) (plain_of (by decide +kernel)) (legal_of (by decide +kernel)) (fun _ => ⟨(by delta Sys2Proof.Machine.portsReady; exact (by decide +kernel)), ⟨(by delta Sys2Proof.Machine.fenced; exact (by decide +kernel)), (by decide +kernel)⟩⟩)).elim fun _ e => ⟨_, e.1⟩,
   (H.2.1 gd 8 216 5 u217 (plain_of (by decide +kernel)) (legal_of (by decide +kernel)) (by decide +kernel) (by decide +kernel) (by decide +kernel)).elim fun _ e => ⟨_, e.1⟩,
   (H.2.2.1 gd 217 0 5 u217 (plain_of (by decide +kernel)) (legal_of (by decide +kernel)) (by decide +kernel) (by decide +kernel) (by decide +kernel)).elim fun _ e => ⟨_, e.1⟩,
   (H.2.2.2 gd 230 0 5 u219 (plain_of (by decide +kernel)) (legal_of (by decide +kernel)) (by decide +kernel)).elim fun _ e => ⟨_, e.1⟩⟩
theorem test_witness_LocalAccesses (H : Obligations.LocalAccesses) :
    Goes (Instr.ld gd Sz.wd oo Lease.page 8 (mz 2 234 0)) (ul) ∧
    Goes (Instr.st gd Sz.wd oo 4 (mz 2 216 0)) (ul) :=
  ⟨(meets5 (H.1 gd .wd oo .page 8 (mz 2 234 0) ul (plain_of (by decide +kernel)) (legal_of (by decide +kernel))) (by decide +kernel)).elim fun _ e => ⟨_, e.1⟩,
   (H.2 gd .wd oo 4 (mz 2 216 0) ul (plain_of (by decide +kernel)) (legal_of (by decide +kernel)) (by decide +kernel) (by decide +kernel) (by decide +kernel) (by delta Sys2Proof.Machine.released; exact (by decide +kernel)) (by decide +kernel) (by decide +kernel)).elim fun _ e => ⟨_, e.1⟩⟩
theorem test_witness_ScribeForms (H : Obligations.ScribeForms) :
    Goes (Instr.scrb gd 0 1 1 1 3) (sc) ∧
    Goes (Instr.scrhStop gd 8) (st116) ∧
    Goes (Instr.sloop gd 6 3 4) (scw) ∧
    Goes (Instr.add gd false true 8 0 1) (scw23) ∧
    Goes (Instr.mad gd true true 228 0 1 9) (scw23) ∧
    Goes (Instr.addi gd false true false 8 0 77) (scw23) ∧
    Goes (Instr.mov gd false 227 11) (scw23) ∧
    Goes (Instr.movi gd false 234 11) (scw23) ∧
    Goes (Instr.nop gd) (scl) :=
  ⟨(H.1.1 gd 0 1 1 1 3 sc (by decide +kernel) (plain_of (by decide +kernel)) (legal_of (by decide +kernel)) (by decide +kernel)).elim fun _ e => ⟨_, e.1⟩,
   (H.1.2 gd 8 st116 (plain_of (by decide +kernel)) (legal_of (by decide +kernel)) (fun _ => trivial)).elim fun _ e => ⟨_, e.2⟩,
   (meets3 (meets5 (H.2.1 gd 6 3 4 scw 3) (by decide +kernel)) (by decide +kernel) (legal_of (by decide +kernel)) (by decide +kernel) (by decide +kernel) (by decide +kernel) (by decide +kernel)).elim fun _ e => ⟨_, e.1⟩,
   (H.2.2.1.1 gd false true 8 0 1 scw23 (scribing_of (by decide +kernel)) (legal_of (by decide +kernel)) (by decide +kernel) (by decide +kernel)).elim fun _ e => ⟨_, e.1⟩,
   (H.2.2.1.2.1 gd true true 228 0 1 9 scw23 (scribing_of (by decide +kernel)) (legal_of (by decide +kernel)) (by decide +kernel) (by decide +kernel)).elim fun _ e => ⟨_, e.1⟩,
   (H.2.2.1.2.2.1 gd false true 8 0 77 scw23 (scribing_of (by decide +kernel)) (legal_of (by decide +kernel)) (by decide +kernel) (by decide +kernel)).elim fun _ e => ⟨_, e.1⟩,
   (H.2.2.1.2.2.2.1 gd 227 11 scw23 (scribing_of (by decide +kernel)) (legal_of (by decide +kernel)) (by decide +kernel) (by decide +kernel)).elim fun _ e => ⟨_, e.1⟩,
   (H.2.2.1.2.2.2.2 gd 234 11 scw23 (scribing_of (by decide +kernel)) (legal_of (by decide +kernel)) (by decide +kernel) (by decide +kernel)).elim fun _ e => ⟨_, e.1⟩,
   (meets4 (meets5 (H.2.2.2 gd scl 3 { start := 998, stop := 1001, left := 3 } [{ start := 997, stop := 1001, left := 3 }]) (by decide +kernel)) (by decide +kernel) (legal_of (by decide +kernel)) (by decide +kernel) (by decide +kernel) (by decide +kernel) (by decide +kernel)).elim fun _ e => ⟨_, e.1⟩⟩
theorem test_witness_DraftEnds (H : Obligations.DraftEnds) :
    Goes (Instr.ink gd) (dg) ∧
    Goes (Instr.ink gd) (dg1) ∧
    Goes (Instr.erase gd 5) (dg) ∧
    Goes (Instr.ink gd) (u219) ∧
    Goes (Instr.erase gd 5) (u219) :=
  ⟨(H.1.1 gd dg (drafted_of (by decide +kernel)) (legal_of (by decide +kernel)) (by decide +kernel) (by decide +kernel)).elim fun _ e => ⟨_, e.1⟩,
   (H.1.2.1 gd dg1 (drafted_of (by decide +kernel)) (legal_of (by decide +kernel)) (by decide +kernel) (by decide +kernel)).elim fun _ e => ⟨_, e.1⟩,
   (H.1.2.2 gd 5 dg (drafted_of (by decide +kernel)) (legal_of (by decide +kernel)) (by decide +kernel) (by decide +kernel)).elim fun _ e => ⟨_, e.1⟩,
   (H.2.1 gd u219 (by decide +kernel) (plain_of (by decide +kernel)) (legal_of (by decide +kernel)) (fun _ => trivial)).elim fun _ e => ⟨_, e.1⟩,
   (H.2.2 gd 5 u219 (by decide +kernel) (plain_of (by decide +kernel)) (legal_of (by decide +kernel)) (fun _ => trivial)).elim fun _ e => ⟨_, e.1⟩⟩
theorem test_witness_DraftForbids (H : Obligations.DraftForbids) :
    Goes (Instr.add gd false false 216 1 4) (dgm) ∧
    Goes (Instr.mov gd false 216 4) (dgm) ∧
    Goes (Instr.movNb gd 216 4 3) (dgm) ∧
    Goes (Instr.qstat gd 8 216) (dg23) ∧
    Goes (Instr.msg gd false 4 5 none) (dg23) ∧
    Goes (Instr.ldb gd BType.i16 TType.t27 true { ord := Ord.rlx, scope := Scope.dflt } 12 (mm23 2 4 6)) (dg23) ∧
    Goes (Instr.stb gd BType.i16 TType.t27 true { ord := Ord.rlx, scope := Scope.dflt } 12 (mm23 2 4 6)) (dg23) ∧
    Goes (Instr.atom gd AOp.add Sz.wd { ord := Ord.rlx, scope := Scope.dflt } 12 (mm23 2 4 6) 5) (dg23) ∧
    Goes (Instr.cas gd Sz.wd { ord := Ord.rel, scope := Scope.dflt } 12 (mm23 2 4 6) 5) (dgm) ∧
    Goes (Instr.red gd AOp.add Sz.wd { ord := Ord.rlx, scope := Scope.dflt } (mm23 2 4 6) 5) (dg23) ∧
    Goes (Instr.atomo gd AOp.add Sz.wd { ord := Ord.rlx, scope := Scope.dflt } 12 2 4 6 5) (dg23) ∧
    Goes (Instr.tkt gd 3 12 (mm23 2 4 6)) (dg23) ∧
    Goes (Instr.tkp gd (mm23 2 4 6) 5) (dg23) ∧
    Goes (Instr.bar gd Level.cluster 3 false) (dg23) ∧
    Goes (Instr.bara gd Level.block 3 true 9) (dgm) ∧
    Goes (Instr.barv gd Level.block 3 true AOp.add 4 5 3) (dgm) ∧
    Goes (Instr.barw gd Level.block 3 false 4) (dgm) ∧
    Goes (Instr.mzero gd 3) (dgm) ∧
    Goes (Instr.mcfg gd 4 { slot := 0, atype := NTy.t9, btype := NTy.t9, otype := OTy.t9, pa := 9, pb := PB.p9, otag := 0 }) (dg23) ∧
    Goes (Instr.fstat gd 3 9 4 0) (dgm) ∧
    Goes (Instr.scrb gd 3 9 4 2 100) (dgm) ∧
    Goes (Instr.scrh gd 3) (dgm) ∧
    Goes (Instr.sloop gd 3 5 2) (dgm) ∧
    Goes (Instr.phase gd) (dgm) ∧
    Goes (Instr.spawn gd 4 5 100) (dgm) ∧
    Goes (Instr.rclaim gd 2) (dgm) ∧
    Goes (Instr.exit gd) (dgm) ∧
    Goes (Instr.trap gd 7) (dgm) ∧
    Goes (Instr.ifence gd) (dgm) ∧
    Goes (Instr.icinv gd 100) (dgm) ∧
    Goes (Instr.clrc gd 100) (dgm) ∧
    Goes (Instr.halt gd) (dgs) ∧
    Goes (Instr.kill gd 4) (dgs) :=
  ⟨(H.1 gd false false 216 1 4 rfl dgm (indraft_of (by decide +kernel)) (legal_of (by decide +kernel))).elim fun _ e => ⟨_, e.1⟩,
   (H.2.1 gd 216 4 rfl dgm (indraft_of (by decide +kernel)) (legal_of (by decide +kernel))).elim fun _ e => ⟨_, e.1⟩,
   (H.2.2.1 gd 216 4 3 rfl dgm (indraft_of (by decide +kernel)) (legal_of (by decide +kernel))).elim fun _ e => ⟨_, e.1⟩,
   (H.2.2.2.1 gd 8 216 dg23 (indraft_of (by decide +kernel)) (legal_of (by decide +kernel))).elim fun _ e => ⟨_, e.1⟩,
   (H.2.2.2.2.1 gd false 4 5 none dg23 (indraft_of (by decide +kernel)) (legal_of (by decide +kernel))).elim fun _ e => ⟨_, e.1⟩,
   (H.2.2.2.2.2.1 gd .i16 true { ord := .rlx, scope := .dflt } 12 (mm23 2 4 6) dg23 (indraft_of (by decide +kernel)) (legal_of (by decide +kernel))).elim fun _ e => ⟨_, e.1⟩,
   (H.2.2.2.2.2.2.1 gd .i16 true { ord := .rlx, scope := .dflt } 12 (mm23 2 4 6) dg23 (indraft_of (by decide +kernel)) (legal_of (by decide +kernel))).elim fun _ e => ⟨_, e.1⟩,
   (H.2.2.2.2.2.2.2.1 gd .add { ord := .rlx, scope := .dflt } 12 (mm23 2 4 6) 5 dg23 (indraft_of (by decide +kernel)) (legal_of (by decide +kernel))).elim fun _ e => ⟨_, e.1⟩,
   (H.2.2.2.2.2.2.2.2.1 gd { ord := .rel, scope := .dflt } 12 (mm23 2 4 6) 5 dgm (indraft_of (by decide +kernel)) (legal_of (by decide +kernel))).elim fun _ e => ⟨_, e.1⟩,
   (H.2.2.2.2.2.2.2.2.2.1 gd .add { ord := .rlx, scope := .dflt } (mm23 2 4 6) 5 dg23 (indraft_of (by decide +kernel)) (legal_of (by decide +kernel))).elim fun _ e => ⟨_, e.1⟩,
   (H.2.2.2.2.2.2.2.2.2.2.1 gd .add { ord := .rlx, scope := .dflt } 12 2 4 6 5 dg23 (indraft_of (by decide +kernel)) (legal_of (by decide +kernel))).elim fun _ e => ⟨_, e.1⟩,
   (H.2.2.2.2.2.2.2.2.2.2.2.1 gd 3 12 (mm23 2 4 6) dg23 (indraft_of (by decide +kernel)) (legal_of (by decide +kernel))).elim fun _ e => ⟨_, e.1⟩,
   (H.2.2.2.2.2.2.2.2.2.2.2.2.1 gd (mm23 2 4 6) 5 dg23 (indraft_of (by decide +kernel)) (legal_of (by decide +kernel))).elim fun _ e => ⟨_, e.1⟩,
   (H.2.2.2.2.2.2.2.2.2.2.2.2.2.1 gd .cluster 3 false dg23 (indraft_of (by decide +kernel)) (legal_of (by decide +kernel))).elim fun _ e => ⟨_, e.1⟩,
   (H.2.2.2.2.2.2.2.2.2.2.2.2.2.2.1 gd .block 3 true 9 dgm (indraft_of (by decide +kernel)) (legal_of (by decide +kernel))).elim fun _ e => ⟨_, e.1⟩,
   (H.2.2.2.2.2.2.2.2.2.2.2.2.2.2.2.1 gd .block 3 true .add 4 5 3 dgm (indraft_of (by decide +kernel)) (legal_of (by decide +kernel))).elim fun _ e => ⟨_, e.1⟩,
   (H.2.2.2.2.2.2.2.2.2.2.2.2.2.2.2.2.1 gd .block 3 false 4 dgm (indraft_of (by decide +kernel)) (legal_of (by decide +kernel))).elim fun _ e => ⟨_, e.1⟩,
   (H.2.2.2.2.2.2.2.2.2.2.2.2.2.2.2.2.2.1 gd 3 dgm (indraft_of (by decide +kernel)) (legal_of (by decide +kernel))).elim fun _ e => ⟨_, e.1⟩,
   (H.2.2.2.2.2.2.2.2.2.2.2.2.2.2.2.2.2.2.1 gd 4 { slot := 0, atype := .t9, btype := .t9, otype := .t9, pa := 9, pb := .p9, otag := 0 } dg23 (indraft_of (by decide +kernel)) (legal_of (by decide +kernel))).elim fun _ e => ⟨_, e.1⟩,
   (H.2.2.2.2.2.2.2.2.2.2.2.2.2.2.2.2.2.2.2.1 gd 3 9 4 0 dgm (indraft_of (by decide +kernel)) (legal_of (by decide +kernel))).elim fun _ e => ⟨_, e.1⟩,
   (H.2.2.2.2.2.2.2.2.2.2.2.2.2.2.2.2.2.2.2.2.1 gd 3 9 4 2 100 dgm (indraft_of (by decide +kernel)) (legal_of (by decide +kernel))).elim fun _ e => ⟨_, e.1⟩,
   (H.2.2.2.2.2.2.2.2.2.2.2.2.2.2.2.2.2.2.2.2.2.1 gd 3 dgm (indraft_of (by decide +kernel)) (legal_of (by decide +kernel))).elim fun _ e => ⟨_, e.1⟩,
   (H.2.2.2.2.2.2.2.2.2.2.2.2.2.2.2.2.2.2.2.2.2.2.1 gd 3 5 2 dgm (indraft_of (by decide +kernel)) (legal_of (by decide +kernel))).elim fun _ e => ⟨_, e.1⟩,
   (H.2.2.2.2.2.2.2.2.2.2.2.2.2.2.2.2.2.2.2.2.2.2.2.1 gd dgm (indraft_of (by decide +kernel)) (legal_of (by decide +kernel))).elim fun _ e => ⟨_, e.1⟩,
   (H.2.2.2.2.2.2.2.2.2.2.2.2.2.2.2.2.2.2.2.2.2.2.2.2.1 gd 4 5 100 dgm (indraft_of (by decide +kernel)) (legal_of (by decide +kernel))).elim fun _ e => ⟨_, e.1⟩,
   (H.2.2.2.2.2.2.2.2.2.2.2.2.2.2.2.2.2.2.2.2.2.2.2.2.2.1 gd 2 dgm (indraft_of (by decide +kernel)) (legal_of (by decide +kernel))).elim fun _ e => ⟨_, e.1⟩,
   (H.2.2.2.2.2.2.2.2.2.2.2.2.2.2.2.2.2.2.2.2.2.2.2.2.2.2.1 gd dgm (indraft_of (by decide +kernel)) (legal_of (by decide +kernel))).elim fun _ e => ⟨_, e.1⟩,
   (H.2.2.2.2.2.2.2.2.2.2.2.2.2.2.2.2.2.2.2.2.2.2.2.2.2.2.2.1 gd 7 dgm (indraft_of (by decide +kernel)) (legal_of (by decide +kernel))).elim fun _ e => ⟨_, e.1⟩,
   (H.2.2.2.2.2.2.2.2.2.2.2.2.2.2.2.2.2.2.2.2.2.2.2.2.2.2.2.2.1 gd dgm (indraft_of (by decide +kernel)) (legal_of (by decide +kernel))).elim fun _ e => ⟨_, e.1⟩,
   (H.2.2.2.2.2.2.2.2.2.2.2.2.2.2.2.2.2.2.2.2.2.2.2.2.2.2.2.2.2.1 gd 100 dgm (indraft_of (by decide +kernel)) (legal_of (by decide +kernel))).elim fun _ e => ⟨_, e.1⟩,
   (H.2.2.2.2.2.2.2.2.2.2.2.2.2.2.2.2.2.2.2.2.2.2.2.2.2.2.2.2.2.2.1 gd 100 dgm (indraft_of (by decide +kernel)) (legal_of (by decide +kernel))).elim fun _ e => ⟨_, e.1⟩,
   (H.2.2.2.2.2.2.2.2.2.2.2.2.2.2.2.2.2.2.2.2.2.2.2.2.2.2.2.2.2.2.2.1 gd dgs (indraft_of (by decide +kernel)) (legal_of (by decide +kernel))).elim fun _ e => ⟨_, e.1⟩,
   (H.2.2.2.2.2.2.2.2.2.2.2.2.2.2.2.2.2.2.2.2.2.2.2.2.2.2.2.2.2.2.2.2 gd 4 dgs (indraft_of (by decide +kernel)) (legal_of (by decide +kernel))).elim fun _ e => ⟨_, e.1⟩⟩
theorem test_witness_WaitsEnd (H : Obligations.WaitsEnd) :
    Goes (Instr.functionResultWrite 28) (st1) ∧
    Goes (Instr.fenceComplete 28) (st2) ∧
    Goes (Instr.timedWaitDeadline 448) (st5) ∧
    Goes (Instr.vellumWindowEnd 448) (st6) ∧
    Goes (Instr.alarmDue 1) (st7) ∧
    Goes (Instr.queueServe 28) (st8) ∧
    Goes (Instr.vwinAdvance 0) (st9) :=
  ⟨(H.1 st1 28 { thr := 448, d := 215, val := 9 } [] (still_of (by decide +kernel)) (by decide +kernel) (by decide +kernel)).elim fun _ e => ⟨_, e.1⟩,
   (H.2.1 st2 28 448 .cluster false true 0 [] (still_of (by decide +kernel)) (by decide +kernel) (by decide +kernel)).elim fun _ e => ⟨_, e.1⟩,
   (H.2.2.1 st5 448 (still_of (by decide +kernel)) (by decide +kernel) (by decide +kernel)).elim fun _ e => ⟨_, e.1⟩,
   (H.2.2.2.1 st6 448 (by decide +kernel)).elim fun _ e => ⟨_, e.1⟩,
   (meets5 (H.2.2.2.2.1 st7 1 [{ at_ := 5, word := 1 }] { at_ := 0, word := 2 } [{ at_ := 0, word := 3 }]) (by decide +kernel)).elim fun _ e => ⟨_, e.1⟩,
   (H.2.2.2.2.2.1 st8 28).elim fun _ e => ⟨_, e.1⟩,
   (H.2.2.2.2.2.2 st9 0 (by decide +kernel)).elim fun _ e => ⟨_, e.1⟩⟩
theorem test_witness_PhasesEnd (H : Obligations.PhasesEnd) :
    Goes (.barrierPhaseComplete .warp 28 2) st10 ∧
    Goes (.barrierPhaseComplete .block 1 2) st11 ∧
    Goes (Instr.barrierSignal 9841 3 { blocks := 2, sent := 77 } (some (AOp.add, 5)) [1, 2]) (base) ∧
    Goes (.phaseEnd 1) st12 ∧
    Goes (.messageArrival 9) st13 :=
  ⟨(H.1 st10 28 2 (still_of (by decide +kernel)) (by decide +kernel) (by decide +kernel) (waiters_of (by decide +kernel))).elim fun _ e => ⟨_, e.1⟩,
   (H.2.1 st11 1 2 { phase := 9841, warps := [{ blk := 2000000, idx := 0, bv := none }] } (by decide +kernel) (by decide +kernel) (by decide +kernel) (by intro m hm; rw [List.mem_singleton] at hm; subst hm; exact ⟨rfl, 1, by decide +kernel⟩) (by decide +kernel) (by decide +kernel) (waiters_of (by decide +kernel))).elim fun _ e => ⟨_, e.1⟩,
   (H.2.2.1 base 9841 3 2 77 (some (.add, 5)) [1, 2] (by decide +kernel)).elim fun _ e => ⟨_, e.1⟩,
   (H.2.2.2.1 st12 1 (by decide +kernel) (by decide +kernel) (by decide +kernel) (by decide +kernel) (all_of (f := fun q => stillB st12 (warpOf q.1) && (decide (q.2.wait ≠ .phase) || decide (q.2.st = .waiting))) (fun q h hw _ => by simp only [Bool.and_eq_true, Bool.or_eq_true, decide_eq_true_eq, hw, ne_eq, not_true_eq_false, false_or] at h; exact ⟨still_of h.1, h.2⟩) (by decide +kernel))).elim fun _ e => ⟨_, e.1⟩,
   (H.2.2.2.2 st13 9 { rq (.msg 0 77) with stage := .home } 0 77 1 (by decide +kernel) (by decide +kernel) (all_of (f := fun q => decide (9 ≤ q.id)) (fun q h l => absurd (of_decide_eq_true h) (by omega)) (by decide +kernel)) (by decide +kernel)).elim fun _ e => ⟨_, e.1⟩⟩
theorem test_witness_DraftCommits (H : Obligations.DraftCommits) :
    Goes (Instr.draftPrepare 9) (st14) ∧
    Goes (Instr.draftDecision 28) (st16) ∧
    Goes (.draftCommitArrival 9) comSt ∧
    Goes (Instr.inkRetire 28) (st18) :=
  ⟨(meets5 (H.1 st14 9 { rq (.prep 28 100 none true) with stage := .home } 28 100 none true leaf0) (by decide +kernel) (by decide +kernel) (by delta Sys2Proof.Machine.State.cached; exact (by decide +kernel)) (by decide +kernel) (by decide +kernel) (by decide +kernel) (by decide +kernel) (by decide +kernel)).elim fun _ e => ⟨_, e.1⟩,
   (H.2.1 st16 28 100 (by decide +kernel) (by delta Sys2Proof.Machine.State.numbered; exact (by decide +kernel)) (by decide +kernel) (by decide +kernel) (by decide +kernel)).elim fun _ e => ⟨_, e.1⟩,
   (H.2.2.1 comSt 9 comR 28 100 [(3, 5), (4, 19684), (3, 6)] (by decide +kernel) rfl rfl (by decide +kernel) (by decide +kernel) (by decide +kernel) (by decide +kernel) (l2Has_one 0 (l2Key 0 false, slotSec 0 0) 0 rfl rfl (by decide +kernel) (by decide +kernel) (by decide +kernel))).elim fun _ e => ⟨_, e.1⟩,
   (H.2.2.2 st18 28 0 (still_of (by decide +kernel)) (by decide +kernel) (by decide +kernel) (by decide +kernel)).elim fun _ e => ⟨_, e.1⟩⟩
theorem test_witness_HomesPerform (H : Obligations.HomesPerform) :
    Goes (.homeRequest 9) (baseR dieL2 [atomC]) ∧
    Goes (.homeRequest 9) (baseR dieL2 [casC]) ∧
    Goes (Instr.homeRequest 9) (st131) ∧
    Goes (Instr.homeRequest 9) (st132) ∧
    Goes (.homeRequest 9) (baseR (sqD { ctx := 1, n := 2, d := 244, drawn := [] }) [tktC]) ∧
    Goes (Instr.sectorFill 9) (st21) ∧
    Goes (Instr.stvaArrival 9) (st22) ∧
    Goes (.stvaPerform 9) (baseR { dieL2 with clk := 100 } [stvC]) ∧
    Goes (.atomoArrival 9) (baseR (sqD { ctx := 1, n := 2, d := 4, drawn := [(2, 0), (3, 0)] }) [tkpC 2]) ∧
    Goes (.atomoArrival 9) (baseR (sqD { ctx := 1, n := 2, d := 4, drawn := [(2, 0), (3, 0)] }) [tkpC 3]) ∧
    Goes (Instr.atomoResend 9) (st26) ∧
    Goes (Instr.l2Eviction (0 * partBase + 2 * ikey (3 * 0))) (st27) ∧
    Goes (Instr.softError 3 4 false) (base) ∧
    Goes (Instr.softError 5 (448 * 256 + 3) true) (st28) ∧
    Goes (Instr.softError 7 (1 * partBase + 4) true) (st29) :=
  ⟨(H.1.1 (baseR dieL2 [atomC]) 9 atomC .add .wd 5 3 (by decide +kernel) rfl rfl (by decide +kernel) rfl (by decide +kernel) (by decide +kernel) (by decide +kernel) (l2Has_one 0 (l2Key 0 false, fullSec) 0 rfl rfl (by decide +kernel) (by decide +kernel) (by decide +kernel)) (by decide +kernel)).elim fun _ e => ⟨_, e.1⟩,
   (H.1.2.1 (baseR dieL2 [casC]) 9 casC .wd 5 70000 3 (by decide +kernel) rfl rfl (by decide +kernel) rfl (by decide +kernel) (by decide +kernel) (by decide +kernel) (l2Has_one 0 (l2Key 0 false, fullSec) 0 rfl rfl (by decide +kernel) (by decide +kernel) (by decide +kernel)) (by decide +kernel)).elim fun _ e => ⟨_, e.1⟩,
   ⟨_, meets5 (H.1.2.2.1 st131 9 ldbR .i16 .t27 false 3) (by decide +kernel) (by decide +kernel)⟩,
   (meets2 (meets5 (H.1.2.2.2.1 st132 9 stbR 4 70000 true) (by decide +kernel)) (by decide +kernel)).elim fun _ e => ⟨_, e.1⟩,
   (H.1.2.2.2.2.1 (baseR (sqD { ctx := 1, n := 2, d := 244, drawn := [] }) [tktC]) 9 tktC 4 3 { ctx := 1, n := 2, d := 244, drawn := [] } (by decide +kernel) rfl rfl (by decide +kernel) rfl (by decide +kernel) (by decide +kernel)).elim fun _ e => ⟨_, e.1⟩,
   (meets5 (H.1.2.2.2.2.2.1 st21 9 ldR (dv 0)) (by decide +kernel) (by decide +kernel)).elim fun _ e => ⟨_, e.1⟩,
   ⟨_, meets4 (meets5 (H.1.2.2.2.2.2.2.1 st22 9 (stvR .home) .wd 70000 100) (by decide +kernel)) (by decide +kernel)⟩,
   (H.1.2.2.2.2.2.2.2.1 (baseR { dieL2 with clk := 100 } [stvC]) 9 stvC .wd 70000 100 (by decide +kernel) rfl rfl (by decide +kernel) (by decide +kernel) (all_of (f := fun q => decide (q = stvC)) (fun q h _ _ z x u e => by have hq := of_decide_eq_true h; rw [hq] at e ⊢; cases e; decide +kernel) (by decide +kernel)) (by decide +kernel) (l2Has_one 0 (l2Key 0 false, fullSec) 0 rfl rfl (by decide +kernel) (by decide +kernel) (by decide +kernel))).elim fun _ e => ⟨_, e.1⟩,
   (H.1.2.2.2.2.2.2.2.2.1 (baseR (sqD { ctx := 1, n := 2, d := 4, drawn := [(2, 0), (3, 0)] }) [tkpC 2]) 9 (tkpC 2) 4 2 { ctx := 1, n := 2, d := 4, drawn := [(2, 0), (3, 0)] } (by decide +kernel) rfl rfl rfl (by decide +kernel) (by decide +kernel) (by decide +kernel) (by decide +kernel) rfl (by decide +kernel) (by decide +kernel) (by decide +kernel) (by decide +kernel)).elim fun _ e => ⟨_, e.1⟩,
   ⟨_, meets3 (meets5 (H.1.2.2.2.2.2.2.2.2.2.1 (baseR (sqD { ctx := 1, n := 2, d := 4, drawn := [(2, 0), (3, 0)] }) [tkpC 3]) 9 (tkpC 3) 4 3 { ctx := 1, n := 2, d := 4, drawn := [(2, 0), (3, 0)] } (by decide +kernel) rfl rfl rfl) (by decide +kernel)) (by decide +kernel)⟩,
   ⟨_, H.1.2.2.2.2.2.2.2.2.2.2.1 st26 9 (tkpR 3 .refused) (by decide +kernel) (by decide +kernel)⟩,
   (H.1.2.2.2.2.2.2.2.2.2.2.2 st27 0 0 (by decide +kernel) (by decide +kernel)).elim fun _ e => ⟨_, e.1⟩,
   ⟨_, H.2.1 base 3 4⟩,
   (H.2.2.1 st28 448 3 (still_of (by decide +kernel)) (by decide +kernel) (by decide +kernel)).elim fun _ e => ⟨_, e.1⟩,
   (H.2.2.2 st29 1 4 (by decide +kernel)).elim fun _ e => ⟨_, e.1⟩⟩
theorem test_witness_RepliesArrive (H : Obligations.RepliesArrive) :
    Goes (Instr.l1Fill 9) (st30) ∧
    Goes (Instr.loadReply 9) (ldSt) ∧
    Goes (Instr.writeCompletion 9) (st31) ∧
    Goes (Instr.leaseEnd 1 (lineOf (dv 0))) (ldSt) ∧
    Goes (Instr.l1Eviction 1 (lineOf (dv 0))) (st32) ∧
    Goes (.instructionFetchFill 9) st33 :=
  ⟨(meets3 (meets5 (H.1 st30 9 pfR .page tr27 (.at_ 9) 0) (by decide +kernel)) (by decide +kernel)).elim fun _ e => ⟨_, e.1⟩,
   (meets3 (meets5 (H.2.1 ldSt 9 ldS .dw 4 .page false) (by decide +kernel)) (by decide +kernel) (by delta Sys2Proof.Machine.State.stillReq; exact ⟨(still_of (by decide +kernel)), (by decide +kernel)⟩)).elim fun _ e => ⟨_, e.1⟩,
   (meets5 (meets5 (H.2.2.1 st31 9 svR .wd 5 7 0 20) (by decide +kernel)) (by decide +kernel) (by decide +kernel) (still_of (by decide +kernel))).elim fun _ e => ⟨_, e.1⟩,
   (H.2.2.2.1 ldSt 1 (lineOf (dv 0))).elim fun _ e => ⟨_, e.1⟩,
   (H.2.2.2.2.1 st32 1 (lineOf (dv 0))).elim fun _ e => ⟨_, e.1⟩,
   (meets2 (meets5 (H.2.2.2.2.2 st33 9 feR 5 ((List.range 81).map (fun i => (i, (i : Int)))) .unlim 0) (by decide +kernel)) (by decide +kernel) (still_of (by decide +kernel)) (by decide +kernel)).elim fun _ e => ⟨_, e.1⟩⟩
theorem test_witness_AnswersArrive (H : Obligations.AnswersArrive) :
    Goes (Instr.ownerAnswer 9) (st34) ∧
    Goes (.pageFault 9) st35 ∧
    Goes (Instr.faultRecordPush 1) (st36) ∧
    Goes (Instr.deferredWriteBackFault 9) (st37) ∧
    Goes (Instr.hairlineArrival 9) (st38) ∧
    Goes (Instr.atsTranslationCompletion 9 (some 2)) (st39) ∧
    Goes (.atsTranslationCompletion 9 none) st40 ∧
    Goes (Instr.priResponse 9 true) (st41) ∧
    Goes (Instr.atsInvalidation 3 4) (st42) :=
  ⟨(meets2 (meets5 (meets5 (H.1 st34 9 oaR .wd 4 .page false leaf0) (by decide +kernel)) (by decide +kernel)) (by decide +kernel) (by delta Sys2Proof.Machine.State.cached; exact (by decide +kernel)) (by decide +kernel) (by delta Sys2Proof.Machine.State.stillReq; exact ⟨(still_of (by decide +kernel)), (by decide +kernel)⟩) (by decide +kernel)).elim fun _ e => ⟨_, e.1⟩,
   (meets5 (H.2.1 st35 9 pfltR .wd 4 .page false false) (by decide +kernel) (by decide +kernel) ⟨still_of (by decide +kernel), (by decide +kernel)⟩ (by decide +kernel) (by decide +kernel) (fun e h => by have x : (st35.dieSt pfltR.faultOwner).fb = [] ∧ (st35.dieSt pfltR.faultOwner).missed = [] := (by decide +kernel); simp [x.1, x.2] at h) (by decide +kernel) (by decide +kernel)).elim fun _ e => e.elim fun _ e => ⟨_, e.1⟩,
   (H.2.2.1 st36 1 { core := 81, deferred := true, words := [1, 2, 3] } [{ core := 0, deferred := true, words := [1, 2, 3] }] (by decide +kernel) (by decide +kernel) (by decide +kernel) (by decide +kernel)).elim fun _ e => ⟨_, e.1⟩,
   (meets2 (meets5 (H.2.2.2.1 st37 9 wbR true [(30, 5), (31, 6)] (30, 5) [(31, 6)]) (by decide +kernel)) (by decide +kernel) (still_of (by decide +kernel))).elim fun _ e => ⟨_, e.1⟩,
   ⟨_, H.2.2.2.2.1 st38 9 (heR (.atom .add .wd 5 3) 27) (by decide +kernel) (by decide +kernel) (by decide +kernel) (by decide +kernel)⟩,
   (meets5 (H.2.2.2.2.2.1 st39 9 (hostR (.stb 4 300 false)) 4 300 2) (by decide +kernel) (by delta Sys2Proof.Machine.State.stillReq; exact ⟨(still_of (by decide +kernel)), (by decide +kernel)⟩) (by decide +kernel)).elim fun _ e => ⟨_, e.1⟩,
   (meets5 (H.2.2.2.2.2.2.1 st40 9 (hostR (.stb 4 300 false))) (by decide +kernel) (fun d h => nomatch h) (by decide +kernel) ⟨still_of (by decide +kernel), (by decide +kernel)⟩ (by decide +kernel)).elim fun _ e => ⟨_, e.1⟩,
   ⟨_, H.2.2.2.2.2.2.2.1 st41 9 { hostR (.stb 4 300 false) with stage := .pri } (by decide +kernel) (by decide +kernel)⟩,
   (H.2.2.2.2.2.2.2.2 st42 3 4).elim fun _ e => ⟨_, e.1⟩⟩
theorem test_witness_WalksAndLosses (H : Obligations.WalksAndLosses) :
    (∃ t, (wSt wPtr wLeaf).translate 0 1 1 wOff = (t, .leaf wLf)) ∧
    ((wSt 0 0).translate 0 1 1 wOff).2 = .miss false ∧
    ((wSt wLeaf 0).translate 0 1 1 wOff).2 = .miss true ∧
    ((wSt (wPtr + 1) 0).translate 0 1 1 wOff).2 = .miss true ∧
    Goes (.ownerAnswer 9) wLd ∧
    Goes (Instr.hairlineUndeliverable 9) (fst_ (far (RK.load Sz.dw 4 Lease.page false))) ∧
    Goes (Instr.hairlineUndeliverable 9) (fst_ (far (RK.stva Sz.wd 3 4))) ∧
    Goes (Instr.hairlineUndeliverable 9) (fst_ (far (RK.atom AOp.add Sz.wd 3 4))) :=
  ⟨(H.1 (wSt wPtr wLeaf) 0 1 1 wOff 3281 3281 4 wLf (walking_of (by decide +kernel)) (walks_of 4 (by decide) (by decide +kernel)) (by decide +kernel) (leaf_of (by decide +kernel))).elim fun t e => ⟨t, e.1⟩,
   (H.2.1 (wSt 0 0) 0 1 1 wOff 3281 3281 0 (walking_of (by decide +kernel)) .root (by decide)).1 (by decide +kernel),
   (H.2.1 (wSt wLeaf 0) 0 1 1 wOff 3281 3281 0 (walking_of (by decide +kernel)) .root (by decide)).2.1 (by decide +kernel) (fun x h => by rcases h.level with ⟨_, h⟩ | ⟨_, h⟩ <;> exact absurd h (by decide)),
   (H.2.1 (wSt (wPtr + 1) 0) 0 1 1 wOff 3281 3281 0 (walking_of (by decide +kernel)) .root (by decide)).2.2 (by decide +kernel) (.inr (by delta pointerOk; decide +kernel)),
   (meets3 (meets5 (H.2.2.1 wLd 9 wReq .wd 4 .page false false (by decide +kernel) rfl rfl rfl (by decide +kernel) rfl) (by decide +kernel)) (by decide +kernel) (all_of (f := fun q => decide (q.stage = .owner)) (fun q h b e => by have h := of_decide_eq_true h; rw [h] at e; cases e) (by decide +kernel))).elim fun t e => ⟨t, e.1⟩,
   (meets5 (H.2.2.2.1 (fst_ (far (.load .dw 4 .page false))) 9 (far (.load .dw 4 .page false)) .dw 4 .page false) (by decide +kernel) (by delta Sys2Proof.Machine.State.stillReq; exact ⟨(still_of (by decide +kernel)), (by decide +kernel)⟩) (by decide +kernel)).elim fun _ e => ⟨_, e.1⟩,
   (meets5 (H.2.2.2.2.1 (fst_ (far (.stva .wd 3 4))) 9 (far (.stva .wd 3 4)) .wd 3 4) (by decide +kernel) (by delta Sys2Proof.Machine.State.stillReq; exact ⟨(still_of (by decide +kernel)), (by decide +kernel)⟩) (by decide +kernel)).elim fun _ e => ⟨_, e.1⟩,
   (meets5 (H.2.2.2.2.2 (fst_ (far (.atom .add .wd 3 4))) 9 (far (.atom .add .wd 3 4)) .add .wd 3 4) (by decide +kernel) (by delta Sys2Proof.Machine.State.stillReq; exact ⟨(still_of (by decide +kernel)), (by decide +kernel)⟩) (by decide +kernel)).elim fun _ e => ⟨_, e.1⟩⟩
theorem test_witness_NibWork (H : Obligations.NibWork) :
    Goes (Instr.nibStepStart 1) (nst [ncmd lop] 2 2) ∧
    Goes (Instr.nibStepComplete 1) (nst [ncmd2] 3 3) ∧
    Goes (Instr.nibZeroPerform 1) (nst [ncmd NibOp.zero] 2 2) ∧
    Goes (Instr.nibDrainComplete 1) (nst [ncmd4] 2 2) ∧
    Goes (Instr.nibQscaleComplete 1) (nst [ncmd5] 2 2) ∧
    Goes (Instr.nibCommandComplete 1) (nst [ncmd6] 2 2) ∧
    Goes (Instr.budgetRefill 0) (st43) :=
  ⟨(meets5 (H.1 (nst [ncmd lop] 2 2) 1 (ncmd lop) 2 0 1 2 true .t3 .t3 3 3 0 1) (by decide +kernel)).elim fun _ e => ⟨_, e.1⟩,
   (meets5 (H.2.1 (nst [ncmd2] 3 3) 1 ncmd2 0 1 2 true .t3 .t3 3 3 0 1) (by decide +kernel) (by decide +kernel)).elim fun _ e => ⟨_, e.1⟩,
   (H.2.2.1 (nst [ncmd .zero] 2 2) 1 (ncmd .zero) (by decide +kernel) (by decide +kernel)).elim fun _ e => ⟨_, e.1⟩,
   (meets3 (meets5 (H.2.2.2.1 (nst [ncmd4] 2 2) 1 ncmd4 dro .t9 400 243 0 1 1 0 0 77 2) (by decide +kernel)) (by decide +kernel)).elim fun _ e => ⟨_, e.1⟩,
   (H.2.2.2.2.1 (nst [ncmd5] 2 2) 1 ncmd5 4 5 243 243 .t9 (by decide +kernel) (by decide +kernel) (by decide +kernel) (by decide +kernel) (still_of (by decide +kernel)) (by decide +kernel) (by decide +kernel)).elim fun _ e => ⟨_, e.1⟩,
   (H.2.2.2.2.2.1 (nst [ncmd6] 2 2) 1 ncmd6 5 (by decide +kernel) (by decide +kernel) (still_of (by decide +kernel))).elim fun _ e => ⟨_, e.1⟩,
   (H.2.2.2.2.2.2 st43 0 (by decide +kernel) (by decide +kernel)).elim fun _ e => ⟨_, e.1⟩⟩
theorem test_witness_CopyWork (H : Obligations.CopyWork) :
    Goes (Instr.copyElementTransfer 1 6) (cst cp0 dieC) ∧
    Goes (.copyElementTransfer 1 6) (cst cpb dieC2) ∧
    Goes (Instr.scaleQueueMatch 1 6) (cqst) ∧
    Goes (Instr.copyStop 1 6) (cst cpg die0) ∧
    Goes (Instr.copyComplete 1 6) (cst cpe dieC) ∧
    Goes (Instr.scribeProgramEnd 1) (st45) :=
  ⟨(meets5 (meets5 (H.1 (cst cp0 dieC) 1 6 cp0 0 (cp0.srcAddr 1 - dv 0) leaf0 (by decide +kernel) (by delta Sys2Proof.Machine.State.copyGoes; exact (by decide +kernel))) (by decide +kernel)) (by decide +kernel)).elim fun _ e => ⟨_, e.1⟩,
   (H.2.1 (cst cpb dieC2) 1 6 cpb 0 (cp0.srcAddr 1 - dv 0) leaf0 0 (cp0.dstAddr 1 - dv 0) leaf0 ((List.range 27).map (fun i => (i : Int) - 9)) (by decide +kernel) (by delta State.copyGoes; decide +kernel) rfl rfl rfl rfl rfl rfl (by decide +kernel) rfl (by decide +kernel) (l2Has_one (lineOf (cp0.dstAddr 1 - dv 0)) (l2Key (3 * lineOf (cp0.dstAddr 1 - dv 0)) false, { ctx := 1, slice := hashSlice 0 (lineOf (cp0.dstAddr 1 - dv 0)) }) 1 rfl rfl (by decide +kernel) (by decide +kernel) (by decide +kernel))).elim fun _ e => ⟨_, e.1⟩,
   (meets4 (meets5 (H.2.2.1 cqst 1 6 cpq [{ tag := 10, scale := 5 }, { tag := 11, scale := 5, used := true }] { tag := 12, scale := 200 } [{ tag := 13, scale := 3 }]) (by decide +kernel)) (by decide +kernel)).elim fun _ e => ⟨_, e.1⟩,
   (meets5 (meets5 (H.2.2.2.1 (cst cpg die0) 1 6 cpg 11 (by decide +kernel) (by delta Sys2Proof.Machine.State.copyGoes; exact (by decide +kernel))) (by decide +kernel)) (by decide +kernel)).elim fun _ e => ⟨_, e.1⟩,
   (meets3 (meets5 (H.2.2.2.2.1 (cst cpe dieC) 1 6 cpe) (by decide +kernel)) (by decide +kernel) (still_of (by decide +kernel))).elim fun _ e => ⟨_, e.1⟩,
   (H.2.2.2.2.2 st45 1 (by decide +kernel) (by decide +kernel) (by decide +kernel) (by decide +kernel)).elim fun _ e => ⟨_, e.1⟩⟩
theorem test_witness_DecodeWork (H : Obligations.DecodeWork) :
    Goes (Instr.decode 1 0) (ddst) ∧
    Goes (Instr.decodeFlush 1 0) (des) ∧
    Goes (Instr.decodeFlush 1 0) (des2) ∧
    Goes (Instr.decodeReset 1 0) (des3) ∧
    Goes (Instr.decodeFrameOutput 1 0) (des4) :=
  ⟨(meets5 (meets5 (H.1 ddst 1 0 1 dcmd [9] ddst dtr (ddst, 0) ddst [121] (ddst, 0)) (by decide +kernel)) (by decide +kernel) (by decide +kernel) (by delta Sys2Proof.Machine.State.wordGoes; exact (by decide +kernel))).elim fun _ e => ⟨_, e.1⟩,
   (H.2.1 des 1 0 (2 * pow3 24 + 5) [7] (by decide +kernel) (by decide +kernel) (by decide +kernel) (by decide +kernel)).elim fun _ e => ⟨_, e.1⟩,
   (H.2.2.1 des2 1 0 1 4 (by decide +kernel) (by decide +kernel) (by decide +kernel) (by delta Sys2Proof.Machine.State.wordGoes; exact (by decide +kernel))).elim fun _ e => ⟨_, e.1⟩,
   (H.2.2.2.1 des3 1 0 1 (3 * pow3 24 + 5) [7] (by decide +kernel) (by decide +kernel) (by decide +kernel) (by decide +kernel) (by delta Sys2Proof.Machine.State.wordGoes; exact (by decide +kernel))).elim fun _ e => ⟨_, e.1⟩,
   (meets5 (H.2.2.2.2 des4 1 0 1 { hist := [(0, [])], num := 1 } [] 1 [] [] des4 0) (by decide +kernel) (by delta Sys2Proof.Machine.State.wordGoes; exact (by decide +kernel))).elim fun _ y => y.elim fun _ e => ⟨_, e.1⟩⟩
theorem test_witness_Traps (H : Obligations.Traps) :
    Goes (Instr.trapEntry 28) (tst uwarp { th with pend := some (pnd 5) } { stW with wait := Wait.claim }) ∧
    Goes (Instr.doubleTrap 28) { tst { uwarp with ctx := 28, hm := true } { th with inH := true, pend := some (pnd 5) } { stW with wait := Wait.claim } with ctxs := [(28, { part := 1, live := true })] } ∧
    Goes (Instr.doubleTrap 28) (tst2 xsv true) ∧
    Goes (Instr.unhandledTrap 28) (tst2 { xsv with tvec := 0 } false) ∧
    Goes (Instr.deferredCause 448) (st46) ∧
    Goes (Instr.deferredCause 448) (st47) :=
  ⟨(H.1 (tst uwarp { th with pend := some (pnd 5) } { stW with wait := .claim }) 28 (by decide +kernel) (by delta Sys2Proof.Machine.State.raisersLive; exact (by decide +kernel)) (by decide +kernel) (by decide +kernel) (by decide +kernel)).elim fun _ e => ⟨_, e.1⟩,
   (H.2.1 { tst { uwarp with ctx := 28, hm := true } { th with pend := some (pnd 5), inH := true } { stW with wait := .claim } with ctxs := [(28, { part := 1, live := true })] } 28 (by decide +kernel) (by delta Sys2Proof.Machine.State.raisersLive; exact (by decide +kernel)) (by decide +kernel) (by decide +kernel) (by decide +kernel)).elim fun _ e => ⟨_, e.1⟩,
   (H.2.2.1 (tst2 xsv true) 28 (by decide +kernel) (by delta Sys2Proof.Machine.State.raisersLive; exact (by decide +kernel)) (by decide +kernel) (by decide +kernel) (by decide +kernel) (by delta Sys2Proof.Machine.State.forceable; exact (by decide +kernel)) (by delta Sys2Proof.Machine.State.q17Free; exact (by decide +kernel)) (by decide +kernel)).elim fun _ e => ⟨_, e.1⟩,
   (H.2.2.2.1 (tst2 { xsv with tvec := 0 } false) 28 (by decide +kernel) (by delta Sys2Proof.Machine.State.raisersLive; exact (by decide +kernel)) (by decide +kernel) (by decide +kernel) (by decide +kernel) (by decide +kernel) (by delta Sys2Proof.Machine.State.forceable; exact (by decide +kernel)) (by delta Sys2Proof.Machine.State.q17Free; exact (by decide +kernel)) (by decide +kernel)).elim fun _ e => ⟨_, e.1⟩,
   (H.2.2.2.2.1 st46 448 (still_of (by decide +kernel)) (by decide +kernel) (by decide +kernel)).elim fun _ e => ⟨_, e.1⟩,
   (meets5 (meets5 (H.2.2.2.2.2 st47 448 { cause := 11, deferred := true, ea := 7 } (still_of (by decide +kernel))) (by decide +kernel)) (by decide +kernel)).elim fun _ e => ⟨_, e.1⟩⟩
theorem test_witness_ContextEnds (H : Obligations.ContextEnds) :
    Goes (Instr.hang 1) (hst) ∧
    Goes (Instr.killComplete 1) (kst) ∧
    Goes (.saveComplete 1 0) svst :=
  ⟨(meets5 (H.1 hst 1 0 0 1) (by decide +kernel) (by decide +kernel) (by delta Sys2Proof.Machine.State.q17Free; exact (by decide +kernel)) (by decide +kernel)).elim fun _ e => ⟨_, e.1⟩,
   (meets5 (H.2.1 kst 1) (by decide +kernel) (by decide +kernel) (by delta Sys2Proof.Machine.State.q17Free; exact (by decide +kernel)) (by decide +kernel)).elim fun _ e => ⟨_, e.1⟩,
   (meets5 (meets5 (H.2.2 svst 1 0 1 77) (by decide +kernel)) (by decide +kernel) (by delta State.q17Free; decide +kernel) (by decide +kernel)).elim fun _ e => ⟨_, e.1⟩⟩
theorem test_witness_BlockLife (H : Obligations.BlockLife) :
    Goes (Instr.blockEligible 1 5) (st48) ∧
    Goes (Instr.placement 0) (st49) ∧
    Goes (Instr.blockStart 1 5) (st50) ∧
    Goes (Instr.blockEnd 1 0) (best) ∧
    Goes (.contextCompletion 1) endSt :=
  ⟨(meets5 (H.1 st48 1 5 false 2) (by decide +kernel)).elim fun _ e => ⟨_, e.1⟩,
   (meets4 (meets5 (H.2.1 st49 0 qe 0 2 [3,4,5,6,7,8]) (by decide +kernel)) (by decide +kernel)).elim fun _ e => ⟨_, e.1⟩,
   (H.2.2.1 st50 1 5 2 (by decide +kernel) (by decide +kernel) (by decide +kernel)).elim fun _ e => ⟨_, e.1⟩,
   (meets2 (meets5 (H.2.2.2.1 best 1 0 1) (by decide +kernel)) (by decide +kernel)).elim fun _ e => ⟨_, e.1⟩,
   (meets4 (meets5 (H.2.2.2.2 endSt 1 leaf0) (by decide +kernel)) (by decide +kernel) ⟨(by decide +kernel), (by decide +kernel)⟩ (by decide +kernel) (by decide +kernel) (l2Has_one 0 (l2Key 0 false, slotSec 0 0) 0 rfl rfl (by decide +kernel) (by decide +kernel) (by decide +kernel))).elim fun _ e => ⟨_, e.1⟩⟩
theorem test_witness_BinsAndClaims (H : Obligations.BinsAndClaims) :
    Goes (Instr.spawnBinTimer 1 3) (st51) ∧
    Goes (Instr.spawnWarpCreate 1 3) (st52) ∧
    Goes (Instr.claimGrant 1) (cgst) :=
  ⟨(H.1 st51 1 3 { entry := 5, args := [(1, 2)], due := 0 } (by decide +kernel) (by decide +kernel)).elim fun _ e => ⟨_, e.1⟩,
   (meets5 (meets5 (H.2.1 st52 1 3 bn 9 (1, 0)) (by decide +kernel)) (by decide +kernel)).elim fun _ e => ⟨_, e.1⟩,
   (H.2.2 cgst 1 28 2 [0, 1] 288 [{ by_ := .bin 3, words := 4 }] (by decide +kernel) (by decide +kernel) (by decide +kernel) (by decide +kernel) (still_of (by decide +kernel)) (by decide +kernel) (by decide +kernel)).elim fun _ e => ⟨_, e.1⟩⟩
theorem test_witness_HostAccess (H : Obligations.HostAccess) :
    Goes (Instr.inbox 2 1 8 b8) (hs) ∧
    Goes (Instr.inbox 2 1 9 b8) (hs) ∧
    Goes (Instr.hostWrite (pw true).req) (hs2 true) ∧
    Goes (.sectorApertureRead 2 1 60 10) st53 ∧
    Goes (Instr.sectorApertureRead 2 1 (51539607552 * 2 - 3) 10) (hs) ∧
    Goes (Instr.sectorApertureWrite 2 1 128 (List.replicate 64 0)) (hs) ∧
    Goes (Instr.windowApertureRead 2 1 3 10) (hs3) ∧
    Goes (Instr.windowApertureWrite 2 1 3 [1, 2, 3]) (hs) ∧
    Goes (Instr.sectorApertureRead 2 17 3 5) (hs) ∧
    Goes (Instr.flush 1) (hs) ∧
    Goes (Instr.flush 1) { hs2 true with nextId := 50 } :=
  ⟨(meets5 (H.1 hs 2 1 1 8 b8) (by decide +kernel) (by delta Sys2Proof.Machine.State.noInbox; exact (by decide +kernel)) (by decide +kernel) (by decide +kernel) (by decide +kernel) (by decide +kernel)).elim fun _ e => ⟨_, e.1⟩,
   (H.2.1 hs 2 1 1 9 b8 (by decide +kernel) (by decide +kernel) (by decide +kernel)).elim fun _ e => ⟨_, e.1⟩,
   (H.2.2.1 (hs2 true) (pw true) [{ pw true with no := 4 }] (by decide +kernel) (by decide +kernel) (by delta Sys2Proof.Machine.State.noInbox; exact (by decide +kernel)) (by decide +kernel) (by decide +kernel)).elim fun _ y => y.elim fun _ e => ⟨_, e.1⟩,
   ⟨_, meets5 (H.2.2.2.1 st53 2 1 1 60 10) (by decide +kernel) (fun i hi => ⟨((st53.aperture 1 (60 + i)).getD (0, 0)).1, ((st53.aperture 1 (60 + i)).getD (0, 0)).2, by revert i; decide +kernel⟩)⟩,
   ⟨_, meets5 (H.2.2.2.2.1 hs 2 1 1 (51539607552 * 2 - 3) 10) (by decide +kernel)⟩,
   ⟨_, meets5 (H.2.2.2.2.2.1 hs 2 1 1 128 (List.replicate 64 0) 0 128) (by decide +kernel)⟩,
   ⟨_, H.2.2.2.2.2.2.1 hs3 2 1 1 3 10 (by decide +kernel) (by decide +kernel) (by decide +kernel)⟩,
   ⟨_, meets5 (H.2.2.2.2.2.2.2.1 hs 2 1 1 3 [1,2,3] 0 3) (by decide +kernel)⟩,
   (H.2.2.2.2.2.2.2.2.1 hs 2 17 3 5 (by decide +kernel) (by decide +kernel)).elim fun _ e => ⟨_, e⟩,
   ⟨_, meets5 (H.2.2.2.2.2.2.2.2.2.1 hs 1 1) (by decide +kernel)⟩,
   (meets5 (H.2.2.2.2.2.2.2.2.2.2 { hs2 true with nextId := 50 } 1 1 (pw true)) (by decide +kernel)).elim fun _ e => ⟨_, e⟩⟩
theorem test_witness_Management (H : Obligations.Management) :
    Goes (Instr.claim 2 (2 + 256 * 3)) (m1) ∧
    Goes (Instr.claim 3 (2 + 256 * 3)) (m1) ∧
    Goes (Instr.mgmtRegisterWrite 2 4 (2 + 256 * 3)) (m1) ∧
    Goes (Instr.mgmtRegisterWrite 1 16 5) (m1) ∧
    Goes (Instr.mgmtRegisterWrite 2 16 1001) (m1) ∧
    Goes (Instr.fwgo 2) (m1) ∧
    Goes (Instr.firmwareWindowWrite 2 4194302 [1, 2, 3]) (m1) :=
  ⟨⟨_, meets5 (H.1 m1 2 (2 + 256 * 3)) (by decide +kernel)⟩,
   ⟨_, H.2.1 m1 3 (2 + 256 * 3) (by decide +kernel) (by decide +kernel) (by decide +kernel) (by decide +kernel)⟩,
   ⟨_, H.2.2.1 m1 2 (2 + 256 * 3)⟩,
   ⟨_, H.2.2.2.1 m1 1 0x10 5 (by decide +kernel) (by decide +kernel) (by decide +kernel)⟩,
   ⟨_, (H.2.2.2.2.1 m1 2 0x000003e9 (by decide +kernel) (by decide +kernel) (by decide +kernel) (by decide +kernel)).1⟩,
   ⟨_, H.2.2.2.2.2.1 m1 2 (by decide +kernel) (by decide +kernel) (by decide +kernel) (by decide +kernel)⟩,
   (H.2.2.2.2.2.2 m1 2 4194302 [1,2,3] (by decide +kernel) (by decide +kernel) (by decide +kernel)).elim fun _ e => ⟨_, e.1⟩⟩
theorem test_witness_Supervisors (H : Obligations.Supervisors) :
    Goes (Instr.partctlApply 2) (sst) ∧
    Goes (Instr.functionLevelReset 1) (sst) ∧
    Goes (Instr.functionLevelReset 0) (sst) ∧
    Goes (Instr.bringUpComplete false) (st54) ∧
    Goes (Instr.bringUpComplete true) { State.reset with mg := { bootst := 4 } } ∧
    Goes (Instr.powerUp) (st55) :=
  ⟨(meets5 (meets5 (H.1 sst 2 { rq (.stva .wd 3 4) with stage := .home }) (by decide +kernel)) (by decide +kernel) (by decide +kernel)).elim fun _ e => ⟨_, e.1⟩,
   (meets2 (meets5 (meets5 (H.2.1 sst 1 1 { rq (.stva .wd 3 4) with stage := .home }) (by decide +kernel)) (by decide +kernel)) (by decide +kernel)).elim fun _ e => ⟨_, e.1⟩,
   ⟨_, H.2.2.1 sst (by decide +kernel)⟩,
   ⟨_, H.2.2.2.1 st54 false (by decide +kernel) (by decide +kernel) (by decide +kernel)⟩,
   (H.2.2.2.2.1 { State.reset with mg := { bootst := 4, domcfg := 1 } } (by decide +kernel) (by decide +kernel) (by decide +kernel)).elim fun _ e => ⟨_, e.1⟩,
   (H.2.2.2.2.2 st55 (by decide +kernel)).elim fun _ e => ⟨_, e.1⟩⟩
theorem test_witness_SpdmResponder (H : Obligations.SpdmResponder) : Goes (.spdmUnsupportedRequest 5) base :=
  ⟨_, (H base rfl).2.2.2.2.2 5⟩
theorem test_witness_PowerAndTime (H : Obligations.PowerAndTime) :
    Goes (Instr.powerWindow 1600 50) (st56) ∧
    Goes (Instr.thermalShutdown 110) (st58) ∧
    Goes (Instr.hairlinePortTraining 8 false) (sst) ∧
    Goes (Instr.sync (-2) true) (st59) ∧
    Goes (Instr.syncInterval) (sst) ∧
    Goes (Instr.pdelay 8 none) (sst) ∧
    Goes (Instr.holdoverEntry) (st61) ∧
    Goes (Instr.holdoverExit) (st62) :=
  ⟨⟨_, H.1 st56 1600 50 (by decide +kernel)⟩,
   (H.2.1 st58 110 (by decide +kernel) (by decide +kernel)).elim fun _ e => ⟨_, e.1⟩,
   (H.2.2.1 sst 8 false (by decide +kernel) (by decide +kernel)).elim fun _ e => ⟨_, e.1⟩,
   ⟨_, H.2.2.2.1 st59 (-2) (by decide +kernel) (by decide +kernel)⟩,
   ⟨_, H.2.2.2.2.1 sst (by decide +kernel)⟩,
   ⟨_, H.2.2.2.2.2.1 sst 8 none (by decide +kernel) (by decide +kernel)⟩,
   (meets5 (H.2.2.2.2.2.2.1 st61) (by decide +kernel)).elim fun _ e => ⟨_, e.1⟩,
   ⟨_, H.2.2.2.2.2.2.2 st62 (by decide +kernel) (by decide +kernel) (by decide +kernel)⟩⟩
theorem test_witness_EncodeDecode (H : Obligations.EncodeDecode) : decodeUnit 0 (((encode (.add hd false false 8 2 4)).getD []) ++ [5]) = .ok (.add hd false false 8 2 4, 1) :=
  H (.add hd false false 8 2 4) 0 ((encode (.add hd false false 8 2 4)).getD []) [5] rfl rfl (fun k hk => by have x : k + 1 < 1 := hk; omega)
theorem test_witness_StepRuns (H : Obligations.StepRuns) :
    (∃ t, step { aU pc0 with inputs := .issue 28 :: (aU pc0).inputs } = .next t) ∧
    (∃ t, step aU3 = .next t) ∧
    (∃ t, step { base with inputs := .event (.budgetRefill 0) :: base.inputs } = .next t) :=
  ⟨⟨_, H.1 (aU pc0) 28 0 [1] addUnit addI (after (exec addI ((aU pc0).atUnit 28 [0, 1] pc0 1))) rfl (selA _ (by decide +kernel)) (after_eq (by decide +kernel)) (fun h => absurd (congrArg State.stamp h) (by decide +kernel)) (fun h => absurd (congrArg State.stamp h) (by decide +kernel))⟩,
   ⟨_, H.2.1 aU3 28 0 [1] addUnit addI (after (exec addI (aU3.atUnit 28 [0, 1] pc0 1))) [] [] rfl rfl (by decide +kernel) (by decide +kernel) (fun _ h => nomatch h) (selA _ (by decide +kernel)) (after_eq (by decide +kernel)) (fun h => absurd (congrArg State.stamp h) (by decide +kernel)) (fun h => absurd (congrArg State.stamp h) (by decide +kernel))⟩,
   ⟨_, H.2.2 base (.budgetRefill 0) _ (by decide +kernel) (by decide +kernel) rfl⟩⟩
theorem test_witness_StepKeepsForm (H : Obligations.StepKeepsForm) : (∃ t, step State.reset = .next t ∧ Formed t) :=
  (goes_of (r := step State.reset) (by decide +kernel)).elim fun t e => ⟨t, e, H _ _ (by constructor <;> first | decide +kernel | (delta State.numbered; decide +kernel)) e⟩
theorem test_witness_SectorImage (H : Obligations.SectorImage) : (readAtom (atomImage (List.replicate 27 9841) 0 [])).rejected = false ∧ (readAtom (List.replicate 64 243)).rejected = true :=
  ⟨by rw [((H.1 (List.replicate 27 9841) rfl (by decide)).1)], ((H.2 (List.replicate 64 243) rfl).1).2 (.inl ⟨0, by decide, by decide⟩)⟩

end Sys2Proof.Tests
end

