-- ==== Sys2Proof/Proofs/Trits.lean ====
section
/-! The named narrowing functions of R8: how 3^n, the bound of n trits, `wrap` and `sat` relate. -/

namespace Sys2Proof.Machine

theorem pow3_eq (n : Nat) : pow3 n = 3 ^ n := by
  change ((3 ^ n : Nat) : Int) = 3 ^ n
  push_cast
  rfl

theorem pow3_pos (n : Nat) : 0 < pow3 n := by
  rw [pow3_eq]
  positivity

theorem odd_pow3 (n : Nat) : Odd (pow3 n) := by
  rw [pow3_eq]
  exact Odd.pow (by decide)

/-- The n-trit values are the 3^n integers from `-half n` to `half n` (R4); the halving is exact because 3^n is odd. -/
theorem pow3_eq_two_mul_half_add_one (n : Nat) : pow3 n = 2 * half n + 1 := by
  obtain ⟨k, hk⟩ := odd_pow3 n
  unfold half
  omega

theorem half_nonneg (n : Nat) : 0 ≤ half n := by
  have hpos := pow3_pos n
  have hodd := pow3_eq_two_mul_half_add_one n
  omega

theorem abs_wrap_le (x : Int) (n : Nat) : |wrap x n| ≤ half n := by
  have hlow : 0 ≤ (x + half n) % pow3 n := Int.emod_nonneg _ (pow3_pos n).ne'
  have hhigh : (x + half n) % pow3 n < pow3 n := Int.emod_lt_of_pos _ (pow3_pos n)
  have hodd := pow3_eq_two_mul_half_add_one n
  rw [abs_le]
  unfold wrap
  omega

theorem wrap_sub_self_emod (x : Int) (n : Nat) : (wrap x n - x) % pow3 n = 0 := by
  have hdiv := Int.emod_add_mul_ediv (x + half n) (pow3 n)
  have hmul : wrap x n - x = pow3 n * -((x + half n) / pow3 n) := by
    rw [mul_neg]
    unfold wrap
    omega
  rw [hmul, Int.mul_emod_right]

theorem wrap_of_abs_le {x : Int} {n : Nat} (hx : |x| ≤ half n) : wrap x n = x := by
  have hodd := pow3_eq_two_mul_half_add_one n
  obtain ⟨hlow, hhigh⟩ := abs_le.mp hx
  have hmod : (x + half n) % pow3 n = x + half n := Int.emod_eq_of_lt (by omega) (by omega)
  rw [wrap, hmod, add_sub_cancel_right]

theorem sat_of_half_lt {x : Int} {n : Nat} (hx : half n < x) : sat x n = half n := if_pos hx

theorem sat_of_lt_neg_half {x : Int} {n : Nat} (hx : x < -half n) : sat x n = -half n := by
  have hle : ¬ x > half n := by
    have hnonneg := half_nonneg n
    omega
  rw [sat, if_neg hle, if_pos hx]

theorem sat_of_abs_le {x : Int} {n : Nat} (hx : |x| ≤ half n) : sat x n = x := by
  obtain ⟨hlow, hhigh⟩ := abs_le.mp hx
  rw [sat, if_neg hhigh.not_gt, if_neg hlow.not_gt]

theorem abs_sat_le (x : Int) (n : Nat) : |sat x n| ≤ half n := by
  have hnonneg := half_nonneg n
  rcases lt_or_ge (half n) x with habove | hhigh
  · rw [sat_of_half_lt habove, abs_of_nonneg hnonneg]
  rcases lt_or_ge x (-half n) with hbelow | hlow
  · rw [sat_of_lt_neg_half hbelow, abs_neg, abs_of_nonneg hnonneg]
  · have hx : |x| ≤ half n := abs_le.mpr ⟨hlow, hhigh⟩
    rwa [sat_of_abs_le hx]

end Sys2Proof.Machine
end

