-- ==== Sys2Proof/Proofs/Scope.lean ====
section

namespace Sys2Proof.Machine

/-- Settles O7, from the laws of `wrap` and `sat`: both rest on 3^n = 2 * half n + 1. -/
theorem wrapAndSaturate : Obligations.WrapAndSaturate := by
  intro x n
  exact ⟨abs_wrap_le x n, abs_sat_le x n, wrap_sub_self_emod x n, fun hx => ⟨wrap_of_abs_le hx, sat_of_abs_le hx⟩,
    sat_of_half_lt, sat_of_lt_neg_half⟩

end Sys2Proof.Machine
end

