-- ==== Sys2Proof/Proofs/Fields.lean ====
section
/-! Trit fields (R2, R8): a number is its low trits and what stands above them, and a list of fields of one width is the
number that `shr` takes apart again. -/

namespace Sys2Proof.Machine

/-! One field: `wrap` gives the low trits, `shr` the rest. -/

theorem wrap_add_pow3_mul_shr (x : Int) (n : Nat) : wrap x n + pow3 n * shr x n = x := by
  have hdiv := Int.emod_add_mul_ediv (x + half n) (pow3 n)
  unfold wrap shr
  omega

theorem wrap_add_pow3_mul {r : Int} {n : Nat} (hr : |r| ≤ half n) (q : Int) : wrap (r + pow3 n * q) n = r := by
  calc wrap (r + pow3 n * q) n = wrap r n := by
        rw [wrap, wrap, add_right_comm, Int.add_mul_emod_self_left]
    _ = r := wrap_of_abs_le hr

theorem shr_add_pow3_mul {r : Int} {n : Nat} (hr : |r| ≤ half n) (q : Int) : shr (r + pow3 n * q) n = q := by
  have hsplit := wrap_add_pow3_mul_shr (r + pow3 n * q) n
  rw [wrap_add_pow3_mul hr] at hsplit
  exact mul_left_cancel₀ (pow3_pos n).ne' (add_left_cancel hsplit)

theorem pow3_add (m n : Nat) : pow3 (m + n) = pow3 m * pow3 n := by
  simp only [pow3_eq, pow_add]

theorem half_add (m n : Nat) : half (m + n) = half m + pow3 m * half n := by
  have hsum := pow3_eq_two_mul_half_add_one (m + n)
  have hm := pow3_eq_two_mul_half_add_one m
  rw [pow3_add, pow3_eq_two_mul_half_add_one n, mul_add, mul_one, mul_left_comm] at hsum
  omega

@[simp] theorem shr_zero (x : Int) : shr x 0 = x := by
  simp [shr, half, pow3_eq]

@[simp] theorem shr_zero_left (n : Nat) : shr 0 n = 0 := by
  simpa using shr_add_pow3_mul (r := 0) (n := n) (by simpa using half_nonneg n) 0

/-- Dropping m trits and then n more drops m + n: nearest integers to powers of three never meet a midway value (R33). -/
theorem shr_shr (x : Int) (m n : Nat) : shr (shr x m) n = shr x (m + n) := by
  have hpos := pow3_pos m
  calc ((x + half m) / pow3 m + half n) / pow3 n
      = (x + half m + pow3 m * half n) / pow3 m / pow3 n := by
        rw [Int.add_mul_ediv_left _ _ hpos.ne']
    _ = (x + half m + pow3 m * half n) / (pow3 m * pow3 n) := Int.ediv_ediv_of_nonneg hpos.le
    _ = (x + half (m + n)) / pow3 (m + n) := by
        rw [half_add, pow3_add, add_assoc]

theorem abs_le_half_add_of_abs_shr_le {x : Int} {m n : Nat} (hx : |shr x m| ≤ half n) : |x| ≤ half (m + n) := by
  have hsplit := wrap_add_pow3_mul_shr x m
  have hhigh : |pow3 m * shr x m| ≤ pow3 m * half n := by
    rw [abs_mul, abs_of_pos (pow3_pos m)]
    exact mul_le_mul_of_nonneg_left hx (pow3_pos m).le
  calc |x| = |wrap x m + pow3 m * shr x m| := by rw [hsplit]
    _ ≤ |wrap x m| + |pow3 m * shr x m| := abs_add_le _ _
    _ ≤ half m + pow3 m * half n := add_le_add (abs_wrap_le x m) hhigh
    _ = half (m + n) := (half_add m n).symm

theorem abs_shr_le {x : Int} {m n : Nat} (hx : |x| ≤ half (m + n)) : |shr x m| ≤ half n := by
  have hpos := pow3_pos m
  have hodd := pow3_eq_two_mul_half_add_one m
  have hnonneg := half_nonneg m
  obtain ⟨hlow, hhigh⟩ := abs_le.mp hx
  rw [half_add] at hlow hhigh
  refine abs_le.mpr ⟨(Int.le_ediv_iff_mul_le hpos).mpr ?_, Int.lt_add_one_iff.mp ((Int.ediv_lt_iff_lt_mul hpos).mpr ?_)⟩
  · rw [neg_mul, mul_comm]
    omega
  · rw [add_mul, one_mul, mul_comm]
    omega

theorem offF_eq (x : Int) (lo n : Nat) : (offF x lo n : Int) = fld x lo n + half n := by
  have hlow := (abs_le.mp (abs_wrap_le (shr x lo) n)).1
  exact Int.toNat_of_nonneg (by unfold fld; omega)

/-! Fields of one width. -/

/-- The value of fields of n trits each, the first one lowest. -/
def ofFields (n : Nat) : List Int → Int
  | [] => 0
  | v :: vs => v + pow3 n * ofFields n vs

@[simp] theorem ofFields_nil (n : Nat) : ofFields n [] = 0 := rfl

theorem ofFields_cons (n : Nat) (v : Int) (vs : List Int) : ofFields n (v :: vs) = v + pow3 n * ofFields n vs := rfl

theorem ofTrytes_eq_ofFields (ts : List Int) : ofTrytes ts = ofFields 9 ts := by
  induction ts with
  | nil => rfl
  | cons t ts ih => rw [ofTrytes, ih, ofFields_cons]

theorem shr_ofFields {n : Nat} (k : Nat) {vs : List Int} (hvs : ∀ v ∈ vs, |v| ≤ half n) :
    shr (ofFields n vs) (n * k) = ofFields n (vs.drop k) := by
  induction k generalizing vs with
  | zero => simp
  | succ k ih =>
    rw [Nat.mul_succ, Nat.add_comm, ← shr_shr]
    cases vs with
    | nil => simp
    | cons v vs =>
      obtain ⟨hv, hrest⟩ := List.forall_mem_cons.mp hvs
      rw [ofFields_cons, shr_add_pow3_mul hv, List.drop_succ_cons, ih hrest]

theorem fld_ofFields {n k : Nat} {vs : List Int} (hvs : ∀ v ∈ vs, |v| ≤ half n) (hk : k < vs.length) :
    fld (ofFields n vs) (n * k) n = vs[k] := by
  rw [fld, shr_ofFields k hvs, List.drop_eq_getElem_cons hk, ofFields_cons, wrap_add_pow3_mul (hvs _ (List.getElem_mem hk))]

/-- A number is its k lowest fields and what stands above them. -/
theorem ofFields_fld_append_shr (n k : Nat) (x : Int) :
    ofFields n ((List.range k).map (fun b => fld x (n * b) n) ++ [shr x (n * k)]) = x := by
  induction k generalizing x with
  | zero => simp [ofFields_cons]
  | succ k ih =>
    have hfld (b : Nat) : fld x (n * (b + 1)) n = fld (shr x n) (n * b) n := by
      rw [fld, fld, shr_shr, Nat.mul_succ, Nat.add_comm]
    have hshr : shr x (n * (k + 1)) = shr (shr x n) (n * k) := by
      rw [shr_shr, Nat.mul_succ, Nat.add_comm]
    have hlow : fld x (n * 0) n = wrap x n := by
      rw [Nat.mul_zero, fld, shr_zero]
    rw [List.range_succ_eq_map, List.map_cons, List.map_map, List.cons_append, ofFields_cons, hlow, hshr]
    simp only [Function.comp_def, Nat.succ_eq_add_one, hfld]
    rw [ih (shr x n), wrap_add_pow3_mul_shr]

/-! Trytes (R30). -/

theorem abs_ofTrytes_le {ts : List Int} (hts : ∀ v ∈ ts, |v| ≤ half 9) : |ofTrytes ts| ≤ half (9 * ts.length) := by
  have hnone : |shr (ofTrytes ts) (9 * ts.length)| ≤ half 0 := by
    rw [ofTrytes_eq_ofFields, shr_ofFields _ hts, List.drop_length, ofFields_nil, abs_zero]
    exact half_nonneg 0
  exact abs_le_half_add_of_abs_shr_le hnone

theorem ofTrytes_toTrytes {n : Nat} {x : Int} (hx : |x| ≤ half (9 * n)) : ofTrytes (toTrytes n x) = x := by
  induction n generalizing x with
  | zero => exact (abs_nonpos_iff.mp hx).symm
  | succ n ih =>
    have hrest : |shr x 9| ≤ half (9 * n) := abs_shr_le (by rwa [Nat.add_comm])
    rw [toTrytes, ofTrytes, ih hrest, wrap_add_pow3_mul_shr]

theorem toTrytes_ofTrytes {ts : List Int} (hts : ∀ v ∈ ts, |v| ≤ half 9) : toTrytes ts.length (ofTrytes ts) = ts := by
  induction ts with
  | nil => rfl
  | cons t ts ih =>
    obtain ⟨ht, hrest⟩ := List.forall_mem_cons.mp hts
    rw [List.length_cons, toTrytes, ofTrytes, wrap_add_pow3_mul ht, shr_add_pow3_mul ht, ih hrest]

end Sys2Proof.Machine
end

