-- ==== Sys2Proof/Proofs/Numbers.lean ====
section
/-! The image of a sector (R50-R53): each data byte is one field of the sector's value, and a byte past its field's codes is
read as zero trits. -/

namespace Sys2Proof.Machine

/-! The data bytes. -/

/-- The trits that data byte b holds: three in byte 48, five in the others (R50). -/
def byteTrits (b : Nat) : Nat := if b = 48 then 3 else 5

/-- The largest code of data byte b (R52). -/
def topCode (b : Nat) : Nat := if b = 48 then 26 else 242

/-- The value read from data byte b when it holds x: the trits of a rejected code are zero (R52). -/
def codeValue (b x : Nat) : Int := if x ≤ topCode b then (x : Int) - half (byteTrits b) else 0

theorem byteTrits_of_lt {b : Nat} (hb : b < 48) : byteTrits b = 5 := if_neg hb.ne

theorem topCode_of_lt {b : Nat} (hb : b < 48) : topCode b = 242 := if_neg hb.ne

theorem topCode_eq (b : Nat) : (topCode b : Int) = 2 * half (byteTrits b) := by
  unfold topCode byteTrits
  split <;> rfl

theorem codeValue_of_lt {b : Nat} (hb : b < 48) (x : Nat) : codeValue b x = if x ≤ 242 then (x : Int) - 121 else 0 := by
  rw [codeValue, topCode_of_lt hb, byteTrits_of_lt hb]
  rfl

theorem codeValue_48 (x : Nat) : codeValue 48 x = if x ≤ 26 then (x : Int) - 13 else 0 := rfl

theorem abs_codeValue_le (b x : Nat) : |codeValue b x| ≤ half (byteTrits b) := by
  have htop := topCode_eq b
  have hnonneg := half_nonneg (byteTrits b)
  unfold codeValue
  split
  · rw [abs_le]
    omega
  · rwa [abs_zero]

theorem offF_le_topCode (x : Int) (lo b : Nat) : offF x lo (byteTrits b) ≤ topCode b := by
  have hoff := offF_eq x lo (byteTrits b)
  have htop := topCode_eq b
  have hhigh : fld x lo (byteTrits b) ≤ half (byteTrits b) := (abs_le.mp (abs_wrap_le _ _)).2
  omega

/-- A field written in its offset reading is read back. -/
theorem codeValue_offF (x : Int) (lo b : Nat) : codeValue b (offF x lo (byteTrits b)) = fld x lo (byteTrits b) := by
  rw [codeValue, if_pos (offF_le_topCode x lo b), offF_eq, add_sub_cancel_right]

/-! Reading an atom. -/

/-- The 49 values read from an atom's data bytes. -/
def dataValues (bs : List Nat) : List Int := (List.range 49).map (fun b => codeValue b (bs.getD b 0))

theorem dataValues_eq (bs : List Nat) :
    dataValues bs = (List.range 48).map (fun b => codeValue b (bs.getD b 0)) ++ [codeValue 48 (bs.getD 48 0)] := by
  rw [dataValues, List.range_succ, List.map_append, List.map_singleton]

theorem zipIdx_take_data {bs : List Nat} (hbs : 49 ≤ bs.length) :
    (bs.take 49).zipIdx = (List.range 49).map (fun b => (bs.getD b 0, b)) := by
  refine List.ext_getElem (by simpa using hbs) fun b hb _ => ?_
  have hlt : b < bs.length := by grind
  simp [hlt]

/-- The sum that `readAtom` takes over the values, from the value of byte k on. -/
theorem foldl_zipIdx_eq_ofFields (vs : List Int) (k : Nat) (acc : Int) :
    (vs.zipIdx k).foldl (fun acc (v, b) => acc + v * pow3 (5 * b)) acc = acc + pow3 (5 * k) * ofFields 5 vs := by
  induction vs generalizing k acc with
  | nil => simp
  | cons v vs ih =>
    rw [List.zipIdx_cons, List.foldl_cons, ih, ofFields_cons, Nat.mul_succ, pow3_add]
    ring

theorem readAtom_eq {bs : List Nat} (hbs : 49 ≤ bs.length) :
    readAtom bs = { trytes := toTrytes 27 (ofFields 5 (dataValues bs))
                    rejected := (List.range 49).any (fun b => decide (topCode b < bs.getD b 0)) } := by
  have hvalid (b x : Nat) : (if b = 48 then decide (x ≤ 26) else decide (x ≤ 242)) = decide (x ≤ topCode b) := by
    unfold topCode
    split <;> rfl
  have hvalue (b x : Nat) : (if x ≤ topCode b then if b = 48 then (x : Int) - 13 else (x : Int) - 121 else 0) = codeValue b x := by
    rw [codeValue, byteTrits]
    split_ifs <;> rfl
  simp only [readAtom, zipIdx_take_data hbs, List.map_map, List.any_map, Function.comp_def, hvalid, decide_eq_true_eq, hvalue,
    foldl_zipIdx_eq_ofFields]
  simp [dataValues, pow3_eq, ← decide_not]

theorem rejected_readAtom_iff {bs : List Nat} (hbs : 49 ≤ bs.length) :
    (readAtom bs).rejected = true ↔ (∃ b, b < 48 ∧ 242 < bs.getD b 0) ∨ 26 < bs.getD 48 0 := by
  have hbytes : (∃ b, b < 48 ∧ topCode b < bs.getD b 0) ↔ ∃ b, b < 48 ∧ 242 < bs.getD b 0 :=
    exists_congr fun b => and_congr_right fun hb => by rw [topCode_of_lt hb]
  rw [readAtom_eq hbs, List.any_eq_true, ← hbytes]
  simp only [List.mem_range, decide_eq_true_eq]
  rw [Nat.exists_lt_succ_right]
  rfl

theorem abs_dataValues_le (bs : List Nat) : ∀ v ∈ dataValues bs, |v| ≤ half 5 := by
  intro v hv
  obtain ⟨b, -, rfl⟩ := List.mem_map.mp hv
  refine (abs_codeValue_le b _).trans ?_
  unfold byteTrits
  split <;> decide

theorem shr_dataValues_240 (bs : List Nat) : shr (ofFields 5 (dataValues bs)) 240 = codeValue 48 (bs.getD 48 0) := by
  have htop : (dataValues bs).drop 48 = [codeValue 48 (bs.getD 48 0)] := by
    rw [dataValues_eq, List.drop_left' (by simp)]
  rw [shr_ofFields 48 (abs_dataValues_le bs), htop, ofFields_cons, ofFields_nil, mul_zero, add_zero]

/-- The 27 trytes read hold all the values of the data bytes. -/
theorem ofTrytes_readAtom {bs : List Nat} (hbs : 49 ≤ bs.length) :
    ofTrytes (readAtom bs).trytes = ofFields 5 (dataValues bs) := by
  have hbound : |ofFields 5 (dataValues bs)| ≤ half (240 + 3) :=
    abs_le_half_add_of_abs_shr_le (by rw [shr_dataValues_240]; exact abs_codeValue_le 48 _)
  rw [readAtom_eq hbs, ofTrytes_toTrytes hbound]

theorem fld_readAtom {bs : List Nat} (hbs : 49 ≤ bs.length) {b : Nat} (hb : b < 48) :
    fld (ofTrytes (readAtom bs).trytes) (5 * b) 5 = codeValue b (bs.getD b 0) := by
  have hlen : b < (dataValues bs).length := by
    rw [dataValues, List.length_map, List.length_range]
    omega
  rw [ofTrytes_readAtom hbs, fld_ofFields (abs_dataValues_le bs) hlen]
  simp [dataValues]

theorem fld_readAtom_240 {bs : List Nat} (hbs : 49 ≤ bs.length) :
    fld (ofTrytes (readAtom bs).trytes) 240 3 = codeValue 48 (bs.getD 48 0) := by
  rw [ofTrytes_readAtom hbs, fld, shr_dataValues_240]
  exact wrap_of_abs_le (abs_codeValue_le 48 _)

/-! Writing an atom. -/

theorem pentads_eq (ts : List Int) :
    pentads ts = (List.range 49).map (fun b => offF (ofTrytes ts) (5 * b) (byteTrits b)) := by
  have hbytes : (List.range 48).map (fun b => offF (ofTrytes ts) (5 * b) 5) =
      (List.range 48).map (fun b => offF (ofTrytes ts) (5 * b) (byteTrits b)) :=
    List.map_congr_left fun b hb => by rw [byteTrits_of_lt (List.mem_range.mp hb)]
  rw [List.range_succ, List.map_append, List.map_singleton, ← hbytes]
  rfl

theorem length_pentads (ts : List Int) : (pentads ts).length = 49 := by
  rw [pentads_eq, List.length_map, List.length_range]

theorem length_atomImage (ts : List Int) (tag : Nat) (crc : List Nat) : (atomImage ts tag crc).length = 64 := by
  unfold atomImage
  split <;> simp [length_pentads, *]

theorem getD_atomImage (ts : List Int) (tag : Nat) (crc : List Nat) {b : Nat} (hb : b < 49) :
    (atomImage ts tag crc).getD b 0 = offF (ofTrytes ts) (5 * b) (byteTrits b) := by
  have hdata : b < (pentads ts).length := by rwa [length_pentads]
  rw [atomImage, List.append_assoc, List.append_assoc, List.getD_append _ _ _ _ hdata, pentads_eq]
  simp [hb]

theorem badMeta_atomImage (ts : List Int) : badMeta (atomImage ts 0 []) = false := by
  rw [badMeta, atomImage, List.append_assoc, List.append_assoc, List.drop_left' (length_pentads ts)]
  decide

theorem rejected_readAtom_atomImage (ts : List Int) (tag : Nat) (crc : List Nat) :
    (readAtom (atomImage ts tag crc)).rejected = false := by
  rw [readAtom_eq (by rw [length_atomImage]; decide), List.any_eq_false]
  intro b hb
  rw [getD_atomImage ts tag crc (List.mem_range.mp hb), decide_eq_true_eq]
  exact (offF_le_topCode _ _ b).not_gt

/-- The values read from a sector's image are its own fields, so they add up to the sector's value. -/
theorem ofFields_dataValues_atomImage {ts : List Int} (hts : |ofTrytes ts| ≤ half (240 + 3)) (tag : Nat) (crc : List Nat) :
    ofFields 5 (dataValues (atomImage ts tag crc)) = ofTrytes ts := by
  have hvalue {b : Nat} (hb : b < 49) :
      codeValue b ((atomImage ts tag crc).getD b 0) = fld (ofTrytes ts) (5 * b) (byteTrits b) := by
    rw [getD_atomImage ts tag crc hb, codeValue_offF]
  have hbytes : (List.range 48).map (fun b => codeValue b ((atomImage ts tag crc).getD b 0)) =
      (List.range 48).map (fun b => fld (ofTrytes ts) (5 * b) 5) :=
    List.map_congr_left fun b hb => by
      have hlt := List.mem_range.mp hb
      rw [hvalue (by omega), byteTrits_of_lt hlt]
  have htop : codeValue 48 ((atomImage ts tag crc).getD 48 0) = shr (ofTrytes ts) 240 := by
    rw [hvalue (by decide)]
    exact wrap_of_abs_le (abs_shr_le hts)
  rw [dataValues_eq, hbytes, htop]
  exact ofFields_fld_append_shr 5 48 (ofTrytes ts)

theorem readAtom_atomImage {ts : List Int} (hlen : ts.length = 27) (hts : ∀ v ∈ ts, |v| ≤ half 9) (tag : Nat) (crc : List Nat) :
    readAtom (atomImage ts tag crc) = { trytes := ts, rejected := false } := by
  have hbound := abs_ofTrytes_le hts
  have hback := toTrytes_ofTrytes hts
  rw [hlen] at hbound hback
  have htrytes : (readAtom (atomImage ts tag crc)).trytes = ts := by
    rw [readAtom_eq (by rw [length_atomImage]; decide), ofFields_dataValues_atomImage hbound, hback]
  exact congrArg₂ AtomRead.mk htrytes (rejected_readAtom_atomImage ts tag crc)

/-- Settles O60: an image's bytes are the fields of the sector's value in their offset reading, and the values read, zero for a
rejected code, are the fields of the trytes read. -/
theorem sectorImage : Obligations.SectorImage := by
  refine ⟨fun ts hlen hts => ⟨readAtom_atomImage hlen hts 0 [], badMeta_atomImage ts, length_atomImage ts 0 [], fun b hb => ?_, ?_⟩,
    fun bs hbs => ?_⟩
  · rw [getD_atomImage ts 0 [] (by omega), byteTrits_of_lt hb, offF_eq]
    rfl
  · rw [getD_atomImage ts 0 [] (by decide), offF_eq]
    rfl
  · have hdata : 49 ≤ bs.length := by omega
    refine ⟨rejected_readAtom_iff hdata, fun b hb => ?_, fld_readAtom_240 hdata⟩
    rw [fld_readAtom hdata hb, codeValue_of_lt hb]

end Sys2Proof.Machine
end

