-- ==== Sys2Proof/Proofs/Registers.lean ====
section
/-! Reads of registers: special registers (R59), control registers and the reach of XSEL (R396, R397), and the word that SCRH
reads (R344). -/

namespace Sys2Proof.Machine

/-! Where a thread is. -/

theorem warpOf_lane {w l : Nat} (hl : l < 16) : warpOf (16 * w + l) = w := by
  unfold warpOf
  omega

theorem lane_mod {w l : Nat} (hl : l < 16) : (16 * w + l) % 16 = l := by omega

theorem coreOf_slot {c k : Nat} (hk : k < 28) : coreOf (28 * c + k) = c := by
  unfold coreOf
  omega

theorem widOf_slot {c k : Nat} (hk : k < 28) : widOf (28 * c + k) = k := by
  unfold widOf
  omega

/-! Control registers. -/

/-- The die that XSEL names: its field reads 0 for the own die, as die 13 does in the offset reading (R397). -/
theorem xselDie_eq (x : Int) (c : Nat) : xselDie x c = if fld x 6 3 ≠ 0 then (fld x 6 3 + 13).toNat else dieIdx c := by
  have hhalf : half 3 = 13 := by decide
  have hread := offF_eq x 6 3
  unfold xselDie
  by_cases hzero : fld x 6 3 = 0
  · rw [if_pos (by omega), if_neg (not_not.mpr hzero)]
  · rw [if_neg (by omega), if_pos hzero]
    omega

theorem State.csrDie_eq (s : State) (t : Nat) : s.csrDie t =
    if isSup (s.warp (warpOf t)).ctx = true ∧ fld (s.warp (warpOf t)).xsel 6 3 ≠ 0 then (fld (s.warp (warpOf t)).xsel 6 3 + 13).toNat
    else dieIdx (coreOf (warpOf t)) := by
  unfold State.csrDie
  by_cases hsup : isSup (s.warp (warpOf t)).ctx = true
  · simp only [hsup, if_true, true_and, xselDie_eq]
  · rw [if_neg hsup, if_neg (fun h => hsup h.1)]

/-- The control registers in XSEL's scope: those of a context, and its counters on a die (R397). -/
def ctxScope (n : Nat) : Prop := (9 ≤ n ∧ n ≤ 15) ∨ (17 ≤ n ∧ n ≤ 19) ∨ 36 ≤ n

theorem State.csr_of_ctxScope {s : State} {t n : Nat} (hn : ctxScope n) :
    s.csr t n = (s.csrCtx t).elim 0 (fun c => ctxCsr (s.ctx c) (s.csrDie t) n) := by
  unfold ctxScope at hn
  have hother : ∀ m ∈ [0, 1, 2, 3, 4, 5, 6, 16, 27, 28, 29, 30], n ≠ m := by simp; omega
  simp only [List.forall_mem_cons, List.not_mem_nil, false_imp_iff, implies_true, and_true] at hother
  simp only [State.csr, hother, if_false]
  cases s.csrCtx t <;> rfl

theorem State.setCsr_of_csrCtx_none {s : State} {t n : Nat} (hn : ctxScope n) (hnone : s.csrCtx t = none) (v : Int) :
    s.setCsr t n v = s := by
  unfold ctxScope at hn
  have hother : ∀ m ∈ [1, 2, 5, 6, 27, 28, 29], n ≠ m := by simp; omega
  simp only [List.forall_mem_cons, List.not_mem_nil, false_imp_iff, implies_true, and_true] at hother
  simp only [State.setCsr, hother, if_false, hnone]

theorem State.csrCtx_own {s : State} {t : Nat} (h : isSup (s.warp (warpOf t)).ctx = false ∨ wrap (s.warp (warpOf t)).xsel 6 = 0) :
    s.csrCtx t = some (s.warp (warpOf t)).ctx := if_pos (by simpa using h)

/-- A supervisor's access reaches the context that XSEL names when that is a live one of its partition, and else none. -/
theorem State.csrCtx_named {s : State} {t : Nat} (hsup : isSup (s.warp (warpOf t)).ctx = true) (hk : 0 < wrap (s.warp (warpOf t)).xsel 6) :
    s.csrCtx t = if (s.ctx (wrap (s.warp (warpOf t)).xsel 6).toNat).live = true ∧
        (s.ctx (wrap (s.warp (warpOf t)).xsel 6).toNat).part = (s.ctx (s.warp (warpOf t)).ctx).part
      then some (wrap (s.warp (warpOf t)).xsel 6).toNat else none :=
  if_neg (by simp [hsup, hk.ne'])

/-! The Scribe's status. -/

theorem oAt_add (u n : Nat) : oAt u 2 25 + (n : Int) = (n : Int) + pow3 25 * ((u : Int) - 4) := by
  have hhalf : half 2 = 4 := by decide
  rw [oAt, eo, hhalf, mul_comm, add_comm]

/-- A count below the status's field leaves the field to the state. -/
theorem fld_status {u n : Nat} (hu : u ≤ 8) (hn : n ≤ 16) : fld (oAt u 2 25 + (n : Int)) 25 2 + 4 = (u : Int) := by
  have hlow : |(n : Int)| ≤ half 25 := by
    have hhalf : half 25 = 423644304721 := by decide
    rw [hhalf, abs_le]
    omega
  have hhigh : |(u : Int) - 4| ≤ half 2 := by
    have hhalf : half 2 = 4 := by decide
    rw [hhalf, abs_le]
    omega
  rw [oAt_add, fld, shr_add_pow3_mul hlow, wrap_of_abs_le hhigh, sub_add_cancel]

/-- The status's low tryte is the count, and nothing stands between it and the state. -/
theorem wrap_status (u : Nat) {n : Nat} (hn : n ≤ 16) :
    wrap (oAt u 2 25 + (n : Int)) 9 = (n : Int) ∧ fld (oAt u 2 25 + (n : Int)) 9 16 = 0 := by
  have hlow : |(n : Int)| ≤ half 9 := by
    have hhalf : half 9 = 9841 := by decide
    rw [hhalf, abs_le]
    omega
  have hzero : |(0 : Int)| ≤ half 16 := by
    rw [abs_zero]
    exact half_nonneg 16
  rw [oAt_add, show (25 : Nat) = 9 + 16 from rfl, pow3_add, mul_assoc, fld, wrap_add_pow3_mul hlow, shr_add_pow3_mul hlow]
  exact ⟨rfl, by simpa using wrap_add_pow3_mul hzero ((u : Int) - 4)⟩

theorem length_filter_threadsOf_le (w : Nat) (p : Nat → Bool) : ((threadsOf w).filter p).length ≤ 16 := by
  have hle := (threadsOf w).length_filter_le p
  rwa [threadsOf, List.length_map, List.length_range] at hle

/-- What the Scribe's status says: its state, for a running program whether a trap has stopped it, and the threads left (R344). -/
theorem State.scribeStatus_eq (s : State) (c : Nat) : s.scribeStatus c =
    let live := (threadsOf (28 * c + 27)).filter (fun t => decide ((s.thread t).st ≠ .exited))
    if (s.core c).scribe.state = 2 then
      oAt (if (s.warp (28 * c + 27)).stopping = true ∨ (s.warp (28 * c + 27)).hm = true ∨ ∃ t ∈ live, (s.thread t).st = .stopped then 3 else 2) 2 25
        + (live.length : Int)
    else oAt (s.core c).scribe.state 2 25 + ((0 : Nat) : Int) := by
  simp only [State.scribeStatus, scribeWarp, mul_comm c 28, Bool.or_eq_true, List.any_eq_true, decide_eq_true_eq, or_assoc,
    Nat.cast_zero, add_zero]

/-- The registers of a context in XSEL's scope, each with what it holds (R397). -/
theorem ctxScope_and_ctxCsr {n : Nat} {f : Nat → Ctx → Int}
    (hf : (n, f) ∈ [(9, fun (_ : Nat) (x : Ctx) => x.tmask), (10, fun _ x => x.tvec), (11, fun _ x => x.hsave), (12, fun _ x => x.ftbase),
      (13, fun _ x => x.ftlen), (14, fun _ x => x.decbase), (15, fun _ x => pair x.k0 x.k1), (17, fun _ x => x.dbg), (18, fun _ x => x.waddr),
      (19, fun _ x => x.savebase)] ∨ 36 ≤ n ∧ n ≤ 45 ∧ f = fun d x => Tab.get 0 x.counters (16 * d + (n - 36))) :
    ctxScope n ∧ ∀ x d, ctxCsr x d n = f d x := by
  rcases hf with hlist | ⟨hlow, -, rfl⟩
  · simp only [List.mem_cons, Prod.mk.injEq, List.not_mem_nil, or_false] at hlist
    rcases hlist with h | h | h | h | h | h | h | h | h | h <;>
    · obtain ⟨rfl, rfl⟩ := h
      exact ⟨by unfold ctxScope; decide, fun _ _ => rfl⟩
  · refine ⟨.inr (.inr hlow), fun x d => ?_⟩
    have hother : ∀ m ∈ [9, 10, 11, 12, 13, 14, 15, 17, 18, 19], n ≠ m := by simp; omega
    simp only [List.forall_mem_cons, List.not_mem_nil, false_imp_iff, implies_true, and_true] at hother
    simp only [ctxCsr, hother, if_false, mul_comm d 16]

/-- Settles O20: special registers and thread-scope registers by the place of the thread, registers in XSEL's scope by the context
that the access reaches, the Scribe's status by the fields of its word. -/
theorem registerReads : Obligations.RegisterReads := by
  refine ⟨fun s c k l hk hl => ?_, fun s t => ?_, fun s t n f hf => ?_, fun s c => ?_⟩
  · have hplace : ∀ r, ¬ r < 216 → s.reg (16 * (28 * c + k) + l) r = s.special (16 * (28 * c + k) + l) r := fun r hr => if_neg hr
    refine ⟨?_, ?_, ?_, ?_, ?_, ?_, ?_, ?_, ?_, fun r hr => if_pos hr⟩ <;>
      simp [hplace, State.special, State.launchOf, warpOf_lane hl, lane_mod hl, coreOf_slot hk, widOf_slot hk, dieIdx]
  · refine ⟨rfl, rfl, rfl, rfl, rfl, rfl, rfl, rfl, rfl, rfl, ?_, rfl⟩
    rw [← State.csrDie_eq]
    rfl
  · obtain ⟨hscope, hread⟩ := ctxScope_and_ctxCsr hf
    refine ⟨fun hown => ?_, fun hsup hk hlive hpart => ?_, fun hsup hk hgone => ?_⟩
    · rw [State.csr_of_ctxScope hscope, State.csrCtx_own hown, Option.elim_some, hread, State.csrDie_eq]
    · rw [State.csr_of_ctxScope hscope, State.csrCtx_named hsup hk, if_pos ⟨hlive, hpart⟩, Option.elim_some, hread, State.csrDie_eq]
    · have hnone : s.csrCtx t = none := by
        rw [State.csrCtx_named hsup hk, if_neg (by rintro ⟨hlive, hpart⟩; exact hgone.elim (by simp [hlive]) (· hpart))]
      exact ⟨by rw [State.csr_of_ctxScope hscope, hnone, Option.elim_none], State.setCsr_of_csrCtx_none hscope hnone⟩
  · intro v q live held
    have hv : v = if q = 2 then oAt (if held then 3 else 2) 2 25 + (live.length : Int) else oAt q 2 25 + ((0 : Nat) : Int) := s.scribeStatus_eq c
    have hlive : live.length ≤ 16 := length_filter_threadsOf_le ..
    refine ⟨fun hq => ?_, fun hq => ?_, ?_⟩
    · rw [hv, if_pos hq]
      refine ⟨?_, (wrap_status _ hlive).1⟩
      split
      · exact fld_status (by decide) hlive
      · exact fld_status (by decide) hlive
    · rw [hv, if_neg (by omega)]
      exact ⟨fld_status (by omega) (by decide), (wrap_status _ (by decide)).1⟩
    · rw [hv]
      split
      · exact (wrap_status _ hlive).2
      · exact (wrap_status _ (by decide)).2

end Sys2Proof.Machine
end

