-- ==== Sys2Proof/Proofs/Messages.lean ====
section
/-! The arrival of a message against the statement of PhasesEnd: the statement lets every message arrive that no earlier one of its
block precedes, where a message arrives no earlier than it was sent (R121). -/

namespace Sys2Proof.Machine

/-- A message whose sender's count was ahead of the receiving core's. -/
def aheadMsg : Req := { id := 1, kind := .msg 0 5, stage := .home, ctx := 1, sent := 1 }

/-- Block 0 of context 1 lies on core 1, whose die counts 0, and a message sent at count 1 is on its way to it. -/
def aheadState : State :=
  { State.reset with ctxs := [(1, { blk := [(0, .placed 1)] })], reqs := [aheadMsg] }

theorem messageArrival_aheadState : exec (.messageArrival 1) aheadState = .next aheadState := by
  rfl

/-- Refutes O37: a message that was sent at a count the receiving core's die has not reached stays in flight (R121), and its
arrival's clause asks nothing of that count. -/
theorem not_phasesEnd : ¬ Obligations.PhasesEnd := by
  rintro ⟨-, -, -, -, harrives⟩
  obtain ⟨t, hexec, hgone, -⟩ := harrives aheadState 1 aheadMsg 0 5 1 rfl rfl
    (fun q hq hlt => by
      obtain rfl : q = aheadMsg := List.mem_singleton.mp hq
      exact absurd hlt (lt_irrefl _)) rfl
  rw [messageArrival_aheadState] at hexec
  obtain rfl : aheadState = t := Host.Outcome.next.inj hexec
  have hreqs : [aheadMsg] = [aheadMsg].filter (fun q => decide (q.id ≠ 1)) := congrArg State.reqs hgone
  exact absurd hreqs (by decide)

end Sys2Proof.Machine
end

