-- ==== Sys2Proof/Proofs/Still.lean ====
section
/-! Folds that write threads, readers of states that share a table, and warps in which nothing is due: an event that ends waits in
such a warp changes its threads and no more. -/

namespace Sys2Proof.Machine

/-! Folds that write threads. -/

/-- A fold that writes one thread for each element of a list, each another one. -/
theorem fold_setThread {α : Type} (key : α → Nat) (val : α → Thread) (ps : List α) (hn : (ps.map key).Nodup) (s : State) :
    let t := ps.foldl (fun a p => a.setThread (key p) (val p)) s
    t = { s with thr := t.thr } ∧ (∀ p ∈ ps, t.thread (key p) = val p) ∧ ∀ u, (∀ p ∈ ps, u ≠ key p) → t.thread u = s.thread u := by
  induction ps generalizing s with
  | nil => exact ⟨rfl, by simp, fun _ _ => rfl⟩
  | cons p ps ih =>
    obtain ⟨hp, hps⟩ := List.nodup_cons.mp hn
    obtain ⟨hrest, hon, hoff⟩ := ih hps (s.setThread (key p) (val p))
    refine ⟨hrest, List.forall_mem_cons.mpr ⟨?_, hon⟩, fun u hu => ?_⟩
    · rw [List.foldl_cons, hoff _ fun q hq heq => hp (List.mem_map.mpr ⟨q, hq, heq.symm⟩), State.thread_setThread_self]
    · obtain ⟨hne, hu⟩ := List.forall_mem_cons.mp hu
      rw [List.foldl_cons, hoff u hu, State.thread_setThread, if_neg hne]

/-- A fold that changes one thread after the other, whether or not it lists one that stays as it is. -/
theorem fold_threads_read (s : State) (F : State → Nat → State) (g : Thread → Thread) (ts : List Nat) (hn : ts.Nodup)
    (hF : ∀ a t, t ∈ ts → F a t = { a with thr := (F a t).thr } ∧ ∀ k, (F a t).thread k = if k = t then g (a.thread k) else a.thread k) :
    ts.foldl F s = { s with thr := (ts.foldl F s).thr } ∧
      ∀ k, (ts.foldl F s).thread k = if k ∈ ts then g (s.thread k) else s.thread k := by
  induction ts generalizing s with
  | nil => exact ⟨rfl, by simp⟩
  | cons t ts ih =>
    obtain ⟨ht, hts⟩ := List.nodup_cons.mp hn
    obtain ⟨hone, hread⟩ := hF s t List.mem_cons_self
    obtain ⟨hrest, hall⟩ := ih (F s t) hts fun a u hu => hF a u (List.mem_cons_of_mem _ hu)
    refine ⟨?_, fun k => ?_⟩
    · rw [List.foldl_cons, hrest, hone]
    · rw [List.foldl_cons, hall, hread]
      by_cases hk : k = t
      · simp [hk, ht]
      · simp [hk]

/-! Readers of states that share a table. -/

theorem State.thread_congr {s a : State} (h : a.thr = s.thr) (u : Nat) : a.thread u = s.thread u := by rw [State.thread, h, State.thread]
theorem State.warp_congr {s a : State} (h : a.wrp = s.wrp) (w : Nat) : a.warp w = s.warp w := by rw [State.warp, h, State.warp]
theorem State.core_congr {s a : State} (h : a.cor = s.cor) (c : Nat) : a.core c = s.core c := by rw [State.core, h, State.core]
theorem State.dieSt_congr {s a : State} (h : a.die = s.die) (k : Nat) : a.dieSt k = s.dieSt k := by rw [State.dieSt, h, State.dieSt]
theorem State.ctx_congr {s a : State} (h : a.ctxs = s.ctxs) (c : Nat) : a.ctx c = s.ctx c := by rw [State.ctx, h, State.ctx]

/-! Still warps. -/

/-- What a meeting looks at in a thread is the same in two (R67). -/
structure Thread.MeetsAs (x y : Thread) : Prop where
  mr : y.mr = x.mr
  exited : y.st = .exited ↔ x.st = .exited
  held : y.st = .held ↔ x.st = .held

theorem Thread.meetsAs_of_eq {x y : Thread} (hmr : y.mr = x.mr) (hst : y.st = x.st) : x.MeetsAs y :=
  ⟨hmr, by rw [hst], by rw [hst]⟩

theorem Thread.meetsAs_retired {x : Thread} (hwait : x.st = .waiting) (pc : Int) : x.MeetsAs (x.retired pc) :=
  ⟨rfl, by simp [Thread.retired, hwait], by simp [Thread.retired, hwait]⟩

theorem Thread.MeetsAs.trans {x y z : Thread} (h : x.MeetsAs y) (h' : y.MeetsAs z) : x.MeetsAs z :=
  ⟨h'.mr.trans h.mr, h'.exited.trans h.exited, h'.held.trans h.held⟩

/-- Nothing has changed that decides whether something is due in a warp. -/
structure Kept (s a : State) (w : Nat) : Prop where
  ctxs : a.ctxs = s.ctxs
  ctx : (a.warp w).ctx = (s.warp w).ctx
  hm : (a.warp w).hm = (s.warp w).hm
  stopping : (a.warp w).stopping = (s.warp w).stopping
  threads : ∀ k ∈ threadsOf w, (s.thread k).MeetsAs (a.thread k)

theorem Still.settle_eq {s a : State} {w : Nat} (h : Still s w) (hkept : Kept s a w) : a.settle w = a := by
  obtain ⟨u, hu, hlive⟩ := List.any_eq_true.mp h.live
  refine State.settle_eq (t := u) (hkept.stopping.trans h.going) ?_ hu ?_
  · rw [State.meetsNow_congr fun k hk => ⟨(hkept.threads k hk).mr, (hkept.threads k hk).exited, (hkept.threads k hk).held⟩]
    exact h.nomeet
  · exact fun hexit => of_decide_eq_true hlive ((hkept.threads u hu).exited.mp hexit)

/-- STEP raises nothing in a warp that was still (R401). -/
theorem Still.stepTrap_eq {s a : State} {w : Nat} (h : Still s w) (hkept : Kept s a w) (ls : List Nat) : a.stepTrap w ls = a :=
  State.stepTrap_eq (by
    rw [hkept.ctx, hkept.hm, State.ctx, hkept.ctxs]
    exact h.nostep)

theorem Still.stepTrap_settle_eq {s a : State} {w : Nat} (h : Still s w) (hkept : Kept s a w) (ls : List Nat) :
    (a.stepTrap w ls).settle w = a := by
  rw [h.stepTrap_eq hkept, h.settle_eq hkept]

/-- The end of a wait in a thread of no Scribe warp. -/
theorem State.endWait_eq {s : State} {u : Nat} (hw : widOf (warpOf u) ≠ 27) (hwait : (s.thread u).st = .waiting) :
    s.endWait u = s.setThread u ((s.thread u).retired (s.thread u).next) :=
  State.retire_eq s u _ hw (by simp [hwait])

theorem warpOf_of_mem {w u : Nat} (hu : u ∈ threadsOf w) : warpOf u = w := by
  obtain ⟨l, hl, rfl⟩ := mem_threadsOf.mp hu
  exact threadOf_warp hl

end Sys2Proof.Machine
end

