-- ==== Sys2Proof/Proofs/Waits.lean ====
section
/-! Events that end waits. -/

namespace Sys2Proof.Machine

/-! Float results (R211). -/

theorem State.setReg_eq {r : Nat} (hr : r < 216) (s : State) (t : Nat) (v : Int) : s.setReg t r v = s.setThread t ((s.thread t).putReg r v) := by
  rw [State.setReg, if_pos hr, Thread.putReg, if_pos hr]

theorem Thread.meetsAs_putReg (x : Thread) (r : Nat) (v : Int) : x.MeetsAs (x.putReg r v) := by
  unfold Thread.putReg
  split <;> exact Thread.meetsAs_of_eq rfl rfl

theorem exec_functionResultWrite {s : State} {w : Nat} {o : Owed} {os : List Owed} (hstill : Still s w) (howed : (s.warp w).owed = o :: os)
    (hd : o.d < 216) : exec (.functionResultWrite w) s =
      .next ((s.setThread o.thr ((s.thread o.thr).putReg o.d o.val)).setWarp w { s.warp w with owed := os }) := by
  have hrun : exec (.functionResultWrite w) s = .next (((s.setReg o.thr o.d o.val).setWarp w { s.warp w with owed := os }).settle w) := by
    change execFunctionResultWrite w s = _
    simp only [execFunctionResultWrite, howed]
  rw [hrun, State.setReg_eq hd]
  refine congrArg Host.Outcome.next (hstill.settle_eq ⟨rfl, by simp, by simp, by simp, fun k _ => ?_⟩)
  rw [State.thread_setWarp, State.thread_setThread]
  split
  · next heq => exact heq ▸ Thread.meetsAs_putReg ..
  · exact Thread.meetsAs_of_eq rfl rfl

/-! Fences (R132). -/

/-- A fence that is complete has changed nothing by its last step. -/
theorem State.fenceRun_of_none {s : State} {w : Nat} {sc : Scope} {rel : Bool} {lanes : List Nat} {pc : Int} {ph : Nat}
    (hnone : (s.fenceRun w sc rel lanes pc ph).2 = none) : (s.fenceRun w sc rel lanes pc ph).1 = s := by
  revert hnone
  match ph with
  | 0 =>
    simp only [State.fenceRun]
    split
    · simp
    · split <;> simp
  | 1 =>
    simp only [State.fenceRun]
    split
    · simp
    · split <;> simp
  | _ + 2 => exact fun _ => rfl

/-- The lane of a fence's list that a thread gives. -/
def Thread.fenceStep (x : Thread) (u : Nat) : Option (Nat × Scope × Bool × Bool × Nat) :=
  match x.wait with
  | .fence sc rel ends ph => if x.st = .waiting then some (u, sc, rel, ends, ph) else none
  | _ => none

theorem State.fenceLanes_eq (s : State) (w : Nat) : s.fenceLanes w = (threadsOf w).filterMap (fun u => (s.thread u).fenceStep u) := rfl

theorem Thread.fenceStep_eq_some {x : Thread} {u v : Nat} {sc : Scope} {rel ends : Bool} {ph : Nat} :
    x.fenceStep u = some (v, sc, rel, ends, ph) ↔ u = v ∧ x.inStep sc rel ends ph = true := by
  unfold Thread.fenceStep Thread.inStep
  split
  · next hwait =>
    by_cases hst : x.st = .waiting
    · simp [hst, hwait]
    · simp [hst]
  · next hother =>
    have hne : x.wait ≠ .fence sc rel ends ph := fun h => hother _ _ _ _ h
    simp [hne]

theorem State.mem_fenceLanes {s : State} {w u : Nat} {sc : Scope} {rel ends : Bool} {ph : Nat} :
    (u, sc, rel, ends, ph) ∈ s.fenceLanes w ↔ u ∈ threadsOf w ∧ (s.thread u).inStep sc rel ends ph = true := by
  rw [State.fenceLanes_eq, List.mem_filterMap]
  constructor
  · rintro ⟨v, hv, hstep⟩
    obtain ⟨rfl, hin⟩ := Thread.fenceStep_eq_some.mp hstep
    exact ⟨hv, hin⟩
  · exact fun ⟨hu, hin⟩ => ⟨u, hu, Thread.fenceStep_eq_some.mpr ⟨rfl, hin⟩⟩

theorem State.nodup_fenceLanes (s : State) (w : Nat) : ((s.fenceLanes w).map (·.1)).Nodup := by
  have hsub : ∀ us : List Nat, ((us.filterMap (fun u => (s.thread u).fenceStep u)).map (·.1)).Sublist us := by
    intro us
    induction us with
    | nil => exact .slnil
    | cons u us ih =>
      rw [List.filterMap_cons]
      split
      · exact ih.cons u
      · next y hy =>
        obtain ⟨rfl, -⟩ := Thread.fenceStep_eq_some.mp hy
        exact ih.cons_cons _
  exact (hsub _).nodup (nodup_threadsOf w)

/-- The lanes that wait in one step of a fence, where none waits in another. -/
theorem State.mem_fenceLanes_map {s : State} {w u : Nat} {sc : Scope} {rel ends : Bool} {ph : Nat}
    {more : List (Nat × Scope × Bool × Bool × Nat)} (hlanes : s.fenceLanes w = (u, sc, rel, ends, ph) :: more)
    (hmore : ∀ m ∈ more, m.2 = (sc, rel, ends, ph)) (k : Nat) :
    k ∈ u :: more.map (·.1) ↔ k ∈ threadsOf w ∧ (s.thread k).inStep sc rel ends ph = true := by
  rw [← State.mem_fenceLanes, hlanes]
  constructor
  · intro hk
    rcases List.mem_cons.mp hk with rfl | hk
    · exact List.mem_cons_self
    · obtain ⟨m, hm, rfl⟩ := List.mem_map.mp hk
      exact List.mem_cons_of_mem _ (hmore m hm ▸ hm)
  · intro hk
    have := List.mem_map_of_mem (f := (·.1)) hk
    simpa using this

/-- A fence takes a step that is not its last: its lanes go on to it. -/
theorem exec_fenceComplete_step {s : State} {w u : Nat} {sc : Scope} {rel ends : Bool} {ph q : Nat}
    {more : List (Nat × Scope × Bool × Bool × Nat)} (hlanes : s.fenceLanes w = (u, sc, rel, ends, ph) :: more)
    (hstep : (s.fenceRun w sc rel ((u :: more.map (·.1)).map (· % 16)) (s.thread u).pc ph).2 = some q) :
    exec (.fenceComplete w) s = .next (if q = ph then s else (u :: more.map (·.1)).foldl
      (fun a v => a.setThread v { a.thread v with wait := .fence sc rel ends q })
      (s.fenceRun w sc rel ((u :: more.map (·.1)).map (· % 16)) (s.thread u).pc ph).1) := by
  change execFenceComplete w s = _
  unfold execFenceComplete
  simp only [hlanes, hstep]
  split <;> rfl

/-- A warp that keeps its fence's guards no longer. -/
def State.unguard (s : State) (w : Nat) (sc : Scope) : State :=
  s.setWarp w { s.warp w with fguard := none, fetch := if sc = .dflt then none else (s.warp w).fetch }

/-- The lanes of a complete fence retire, or may let their unit act. -/
def State.fenceEnds (s : State) (sc : Scope) (ends : Bool) (ts : List Nat) : State :=
  if ends = true then ts.foldl State.endWait s else ts.foldl (fun a v => a.setThread v { a.thread v with wait := .fenced sc }) s

theorem Thread.fenceOver_of_fence {x : Thread} {sc : Scope} {rel ends : Bool} {ph : Nat} (hwait : x.wait = .fence sc rel ends ph) :
    x.fenceOver = if ends = true then x.retired x.next else { x with wait := .fenced sc } := by
  rw [Thread.fenceOver, hwait]

theorem State.fenceEnds_spec {s : State} {w : Nat} {sc : Scope} {rel ends : Bool} {ph : Nat} {ts : List Nat} (hwid : widOf w ≠ 27)
    (hnodup : ts.Nodup) (hts : ∀ k ∈ ts, k ∈ threadsOf w) (hst : ∀ k ∈ ts, (s.thread k).st = .waiting)
    (hwait : ∀ k ∈ ts, (s.thread k).wait = .fence sc rel ends ph) :
    ∃ t, s.fenceEnds sc ends ts = t ∧ t = { s with thr := t.thr } ∧
      ∀ k, t.thread k = if k ∈ ts then (s.thread k).fenceOver else s.thread k := by
  refine ⟨_, rfl, ?_⟩
  cases ends with
  | true =>
    have hfold := fold_threads s State.endWait (fun x => x.retired x.next) _ hnodup fun a k hk _ hthr => by
      refine State.endWait_eq ?_ (hthr ▸ hst k hk)
      rw [warpOf_of_mem (hts k hk)]
      exact hwid
    refine ⟨hfold.1, fun k => (hfold.2 k).trans (ite_congr rfl (fun hk => ?_) fun _ => rfl)⟩
    rw [Thread.fenceOver_of_fence (hwait k hk), if_pos rfl]
  | false =>
    have hfold := fold_threads s (fun a v => a.setThread v { a.thread v with wait := .fenced sc }) (fun x => { x with wait := .fenced sc }) _
      hnodup fun _ _ _ _ _ => rfl
    refine ⟨hfold.1, fun k => (hfold.2 k).trans (ite_congr rfl (fun hk => ?_) fun _ => rfl)⟩
    rw [Thread.fenceOver_of_fence (hwait k hk), if_neg (by decide)]

theorem Thread.meetsAs_fenceOver {x : Thread} (hst : x.st = .waiting) : x.MeetsAs x.fenceOver := by
  unfold Thread.fenceOver
  split
  · split
    · exact Thread.meetsAs_retired hst _
    · exact Thread.meetsAs_of_eq rfl rfl
  · exact Thread.meetsAs_of_eq rfl rfl

/-- The last step of a fence, where nothing else is due in the warp. -/
theorem exec_fenceComplete_ends {s a : State} {w u : Nat} {sc : Scope} {rel ends : Bool} {ph : Nat}
    {more : List (Nat × Scope × Bool × Bool × Nat)} (hstill : Still s w) (hlanes : s.fenceLanes w = (u, sc, rel, ends, ph) :: more)
    (hdone : (s.fenceRun w sc rel ((u :: more.map (·.1)).map (· % 16)) (s.thread u).pc ph).2 = none)
    (ha : (s.unguard w sc).fenceEnds sc ends (u :: more.map (·.1)) = a) (hkept : Kept s a w) :
    exec (.fenceComplete w) s = .next a := by
  have hsame := State.fenceRun_of_none hdone
  have hunguard : s.setWarp w { s.warp w with fguard := none, fetch := if sc = .dflt then none else (s.warp w).fetch } = s.unguard w sc := rfl
  unfold State.fenceEnds at ha
  change execFenceComplete w s = _
  unfold execFenceComplete
  simp only [hlanes, hdone, hsame, hunguard]
  cases ends with
  | true => exact congrArg Host.Outcome.next ((congrArg (fun b : State => (b.stepTrap w _).settle w) ha).trans (hstill.stepTrap_settle_eq hkept _))
  | false => exact congrArg Host.Outcome.next ((congrArg (fun b : State => b.settle w) ha).trans (hstill.settle_eq hkept))

/-- A fence is complete: its warp keeps its guards no longer, and its lanes retire or may let their unit act. -/
theorem exec_fenceComplete_done {s : State} {w u : Nat} {sc : Scope} {rel ends : Bool} {ph : Nat}
    {more : List (Nat × Scope × Bool × Bool × Nat)} (hstill : Still s w) (hlanes : s.fenceLanes w = (u, sc, rel, ends, ph) :: more)
    (hmore : ∀ m ∈ more, m.2 = (sc, rel, ends, ph))
    (hdone : (s.fenceRun w sc rel ((u :: more.map (·.1)).map (· % 16)) (s.thread u).pc ph).2 = none) :
    ∃ t, exec (.fenceComplete w) s = .next t ∧ t = { s with thr := t.thr, wrp := t.wrp } ∧
      (∀ k, t.thread k = if k ∈ threadsOf w ∧ (s.thread k).inStep sc rel ends ph then (s.thread k).fenceOver else s.thread k) ∧
      ∀ v, t.warp v = if v = w then { s.warp v with fguard := none, fetch := if sc = .dflt then none else (s.warp v).fetch } else s.warp v := by
  have hts := State.mem_fenceLanes_map hlanes hmore
  have hnodup : (u :: more.map (·.1)).Nodup := by simpa [hlanes] using s.nodup_fenceLanes w
  have hin : ∀ k ∈ u :: more.map (·.1), (s.thread k).st = .waiting ∧ (s.thread k).wait = .fence sc rel ends ph := fun k hk => by
    simpa [Thread.inStep] using ((hts k).mp hk).2
  have hself : (s.unguard w sc).warp w = { s.warp w with fguard := none, fetch := if sc = .dflt then none else (s.warp w).fetch } :=
    State.warp_setWarp_self ..
  obtain ⟨t, ht, hrest, hthr⟩ := State.fenceEnds_spec (s := s.unguard w sc) (w := w) hstill.wid hnodup
    (fun k hk => ((hts k).mp hk).1) (fun k hk => (hin k hk).1) (fun k hk => (hin k hk).2)
  have hwarp : ∀ v, t.warp v = (s.unguard w sc).warp v := State.warp_congr (by rw [hrest])
  have hkept : Kept s t w := by
    refine ⟨by rw [hrest]; rfl, by rw [hwarp, hself], by rw [hwarp, hself], by rw [hwarp, hself], fun k _ => ?_⟩
    rw [hthr]
    split
    · next hk => exact Thread.meetsAs_fenceOver (hin k hk).1
    · exact Thread.meetsAs_of_eq rfl rfl
  refine ⟨t, exec_fenceComplete_ends hstill hlanes hdone ht hkept, ?_, fun k => ?_, fun v => ?_⟩
  · rw [hrest]
    rfl
  · rw [hthr]
    simp only [hts]
    rfl
  · rw [hwarp, State.unguard, State.warp_setWarp]
    exact ite_congr rfl (fun hv => by rw [hv]) fun _ => rfl

/-! Waits for a time (R116, R242). -/

theorem Thread.timeOver_of_not_timed {x : Thread} (h : x.timed = false) : x.timeOver = x := by
  revert h
  unfold Thread.timed Thread.timeOver
  split <;> simp_all

theorem State.mem_dueLanes {s : State} {w k : Nat} :
    k ∈ (threadsOf w).filter (fun u => s.dueNow u && (s.thread u).timed) ↔ k ∈ threadsOf w ∧ s.dueNow k = true ∧ (s.thread k).timed = true := by
  simp

theorem State.waiting_of_dueNow {s : State} {u : Nat} (h : s.dueNow u = true) : (s.thread u).st = .waiting := by
  simp only [State.dueNow, Bool.and_eq_true, decide_eq_true_eq] at h
  exact h.1

theorem Thread.meetsAs_timeOver {x : Thread} (hwait : x.st = .waiting) : x.MeetsAs x.timeOver := by
  unfold Thread.timeOver
  split
  · exact Thread.meetsAs_retired hwait _
  · exact Thread.meetsAs_of_eq rfl rfl
  · exact Thread.meetsAs_of_eq rfl rfl

/-- One lane's wait for a time ends. -/
def State.timeLane (s : State) (u : Nat) : State :=
  if (s.thread u).wait = .until_ then s.endWait u else s.setThread u { s.thread u with wait := .timed true, deadline := none }

theorem State.timeLane_eq {s : State} {u : Nat} (hw : widOf (warpOf u) ≠ 27) (hwait : (s.thread u).st = .waiting) (htimed : (s.thread u).timed = true) :
    s.timeLane u = s.setThread u (s.thread u).timeOver := by
  unfold State.timeLane Thread.timeOver
  unfold Thread.timed at htimed
  split
  · next huntil =>
    rw [State.endWait_eq hw hwait]
    simp only [huntil]
  · next hother =>
    split
    · exact absurd ‹_› hother
    · rfl
    · simp_all

theorem exec_timedWaitDeadline {s : State} {u : Nat} (hstill : Still s (warpOf u)) (hdue : s.dueNow u = true) (htimed : (s.thread u).timed = true) :
    ∃ t, exec (.timedWaitDeadline u) s = .next t ∧ t = { s with thr := t.thr } ∧
      ∀ k, t.thread k = if k ∈ threadsOf (warpOf u) ∧ s.dueNow k = true then (s.thread k).timeOver else s.thread k := by
  have hfold := fold_threads s State.timeLane Thread.timeOver ((threadsOf (warpOf u)).filter (fun v => s.dueNow v && (s.thread v).timed))
    ((nodup_threadsOf _).filter _) fun a k hk _ hthr => by
      obtain ⟨hmem, hdue, htimed⟩ := State.mem_dueLanes.mp hk
      refine State.timeLane_eq ?_ (hthr ▸ State.waiting_of_dueNow hdue) (hthr ▸ htimed)
      rw [warpOf_of_mem hmem]
      exact hstill.wid
  obtain ⟨hrest, hthr⟩ := hfold
  set t := ((threadsOf (warpOf u)).filter (fun v => s.dueNow v && (s.thread v).timed)).foldl State.timeLane s
  have hwarp : ∀ v, t.warp v = s.warp v := fun v => by rw [hrest]; rfl
  have hkept : Kept s t (warpOf u) := by
    refine ⟨by rw [hrest], by rw [hwarp], by rw [hwarp], by rw [hwarp], fun k _ => ?_⟩
    rw [hthr]
    split
    · next hk => exact Thread.meetsAs_timeOver (State.waiting_of_dueNow (State.mem_dueLanes.mp hk).2.1)
    · exact Thread.meetsAs_of_eq rfl rfl
  refine ⟨t, ?_, hrest, fun k => ?_⟩
  · have hgo : ¬ (!s.dueNow u || !(s.thread u).timed) = true := by simp [hdue, htimed]
    exact (if_neg hgo).trans (congrArg Host.Outcome.next (hstill.stepTrap_settle_eq hkept _))
  · rw [hthr]
    by_cases htimed : (s.thread k).timed = true
    · simp only [State.mem_dueLanes, htimed, and_true]
    · have hnone := Thread.timeOver_of_not_timed (Bool.eq_false_iff.mpr htimed)
      simp only [hnone, ite_self]

theorem State.wait_of_windowDue {s : State} {u : Nat} (h : s.windowDue u = true) : ∃ due, (s.thread u).wait = .timed due := by
  simp only [State.windowDue, Bool.and_eq_true] at h
  obtain ⟨-, h⟩ := h
  split at h
  · next hwait => exact ⟨_, hwait⟩
  · exact absurd h (by decide)

/-- The lanes whose bank's window has ended issue their units again (R116). -/
theorem exec_vellumWindowEnd {s : State} {u : Nat} (hdue : s.windowDue u = true) :
    ∃ t, exec (.vellumWindowEnd u) s = .next t ∧ t = { s with thr := t.thr } ∧
      ∀ k, t.thread k = if k ∈ threadsOf (warpOf u) ∧ s.windowDue k = true then (s.thread k).timeOver else s.thread k := by
  have hfold := fold_threads s (fun a v => a.setThread v { a.thread v with wait := .timed true, deadline := none })
    (fun x => { x with wait := .timed true, deadline := none }) ((threadsOf (warpOf u)).filter s.windowDue) ((nodup_threadsOf _).filter _)
    fun _ _ _ _ _ => rfl
  refine ⟨_, if_neg (by simp [hdue]), hfold.1, fun k => (hfold.2 k).trans ?_⟩
  simp only [List.mem_filter]
  refine ite_congr rfl (fun hk => ?_) fun _ => rfl
  obtain ⟨_, hwait⟩ := State.wait_of_windowDue hk.2
  rw [Thread.timeOver, hwait]

/-! Alarms (R243). -/

/-- The earlier of two alarms, the first armed of equal ones. -/
def earlierAlarm (b : Option Alarm) (a : Alarm) : Option Alarm :=
  match b with
  | none => some a
  | some x => if a.at_ < x.at_ then some a else b

theorem foldl_earlierAlarm_of_le {a : Alarm} {as : List Alarm} (h : ∀ b ∈ as, a.at_ ≤ b.at_) : as.foldl earlierAlarm (some a) = some a := by
  induction as with
  | nil => rfl
  | cons b as ih =>
    obtain ⟨hb, hrest⟩ := List.forall_mem_cons.mp h
    rw [List.foldl_cons, earlierAlarm, if_neg hb.not_gt, ih hrest]

theorem foldl_earlierAlarm_of_lt {a : Alarm} {as : List Alarm} (h : ∀ b ∈ as, a.at_ < b.at_) (x : Option Alarm) (hx : ∀ b ∈ x, a.at_ < b.at_) :
    earlierAlarm (as.foldl earlierAlarm x) a = some a := by
  induction as generalizing x with
  | nil =>
    cases x with
    | none => rfl
    | some b => exact if_pos (hx b rfl)
  | cons b as ih =>
    obtain ⟨hb, hrest⟩ := List.forall_mem_cons.mp h
    refine ih hrest _ fun c hc => ?_
    cases x with
    | none => exact Option.some.inj hc ▸ hb
    | some d =>
      rw [earlierAlarm] at hc
      split at hc
      · exact Option.some.inj hc ▸ hb
      · exact hx c hc

theorem exec_alarmDue {s : State} {c : Nat} {l r : List Alarm} {a : Alarm} (halarms : (s.core c).alarms = l ++ a :: r) (hdue : a.at_ ≤ s.now c)
    (hl : ∀ b ∈ l, a.at_ < b.at_) (hr : ∀ b ∈ r, a.at_ ≤ b.at_) (hroom : (s.port c 15).length < 81) :
    exec (.alarmDue c) s = .next ((s.setCore c { s.core c with alarms := l ++ r }).setPort c 15 (s.port c 15 ++ [a.word])) := by
  have hfirst : ((l ++ a :: r).filter (fun b => decide (b.at_ ≤ s.now c))).foldl earlierAlarm none = some a := by
    rw [List.filter_append, List.filter_cons, if_pos (decide_eq_true hdue), List.foldl_append, List.foldl_cons,
      foldl_earlierAlarm_of_lt (fun b hb => hl b (List.mem_of_mem_filter hb)) none (by simp)]
    exact foldl_earlierAlarm_of_le fun b hb => hr b (List.mem_of_mem_filter hb)
  have herase : (l ++ a :: r).erase a = l ++ r := by
    rw [List.erase_append_right _ fun ha => (hl a ha).false, List.erase_cons_head]
  have hrun : exec (.alarmDue c) s = match ((s.core c).alarms.filter (fun b => decide (b.at_ ≤ s.now c))).foldl earlierAlarm none with
      | none => .next s
      | some b => if 81 ≤ (s.port c 15).length then .next s
        else .next ((s.setCore c { s.core c with alarms := (s.core c).alarms.erase b }).setPort c 15 (s.port c 15 ++ [b.word])) := rfl
  rw [hrun, halarms, hfirst]
  simp only [if_neg hroom.not_ge, herase]

theorem State.port_setPort (s : State) (c q : Nat) (v : List Int) (e p : Nat) :
    (s.setPort c q v).port e p = if e = c ∧ p = q then v else s.port e p := by
  rw [State.port, State.setPort, State.core_setCore]
  by_cases he : e = c
  · simp [he, Tab.get_set, State.port]
  · simp [he, State.port]

theorem State.core_setPort (s : State) (c q : Nat) (v : List Int) (e : Nat) :
    (s.setPort c q v).core e = if e = c then { s.core c with ports := ((s.setPort c q v).core c).ports } else s.core e := by
  rw [State.setPort, State.core_setCore, State.core_setCore_self]

/-! Units issued again (R80, R414). -/

/-- One lane's unit is to be issued again. -/
def State.serveLane (s : State) (u : Nat) : State :=
  match (s.thread u).wait with
  | .reissue k _ => s.setThread u { s.thread u with wait := .reissue k true }
  | .counters b _ => s.setThread u { s.thread u with wait := .counters b true }
  | _ => s.setThread u { s.thread u with wait := .timed true }

theorem State.serveLane_eq (s : State) (u : Nat) : s.serveLane u = s.setThread u (s.thread u).served := by
  unfold State.serveLane Thread.served
  cases (s.thread u).wait <;> rfl

theorem exec_queueServe (s : State) (w : Nat) : ∃ t, exec (.queueServe w) s = .next t ∧ t = { s with thr := t.thr } ∧
    ∀ k, t.thread k = if k ∈ threadsOf w ∧ (s.thread k).servable = true then (s.thread k).served else s.thread k := by
  have hfold := fold_threads s State.serveLane Thread.served ((threadsOf w).filter (fun u => (s.thread u).servable))
    ((nodup_threadsOf w).filter _) fun a u _ _ _ => a.serveLane_eq u
  refine ⟨_, rfl, hfold.1, fun k => (hfold.2 k).trans ?_⟩
  simp only [List.mem_filter]

/-! Rotations of Vellum (R115). -/

theorem exec_vwinAdvance {s : State} {i : Nat} (hdue : (s.dieSt (s.ownKey i)).vwin + 2187 ≤ (s.dieSt (s.ownKey i)).clk) :
    exec (.vwinAdvance i) s =
      .next (s.setDie (s.ownKey i) { s.dieSt (s.ownKey i) with vwin := (s.dieSt (s.ownKey i)).vwin + 2187 }) := if_pos hdue

/-- Settles O36, event by event: the warps concerned are still, so that nothing follows an event's own effect. -/
theorem waitsEnd : Obligations.WaitsEnd := by
  refine ⟨fun s w o os hstill howed hd => ?_, fun s w u sc rel ends ph more hstill hlanes hmore => ?_,
    fun s u hstill hdue htimed => exec_timedWaitDeadline hstill hdue htimed, fun s u hdue => exec_vellumWindowEnd hdue,
    fun s c l a r halarms hdue hl hr hroom => ?_, exec_queueServe, fun s i hdue => ?_⟩
  · refine ⟨_, exec_functionResultWrite hstill howed hd, rfl, fun k => ?_, fun v => ?_⟩
    · rw [State.thread_setWarp, State.thread_setThread]
      exact ite_congr rfl (fun hk => by rw [hk]) fun _ => rfl
    · rw [State.warp_setWarp, State.warp_setThread]
      exact ite_congr rfl (fun hv => by rw [hv]) fun _ => rfl
  · intro r
    rcases hr : r.2 with _ | q
    · obtain ⟨t, hexec, hrest, hthr, hwrp⟩ := exec_fenceComplete_done hstill hlanes hmore hr
      refine ⟨t, hexec, ?_⟩
      rw [State.fenceRun_of_none hr]
      exact ⟨hrest, hthr, hwrp⟩
    · refine ⟨_, exec_fenceComplete_step hlanes hr, ?_⟩
      by_cases hq : q = ph
      · simp [hq]
      · have hnodup : (u :: more.map (·.1)).Nodup := by simpa [hlanes] using s.nodup_fenceLanes w
        have hfold := fold_threads r.1 (fun a v => a.setThread v { a.thread v with wait := .fence sc rel ends q })
          (fun x => { x with wait := .fence sc rel ends q }) _ hnodup fun _ _ _ _ _ => rfl
        simp only [if_neg hq]
        refine ⟨hfold.1, fun k => (hfold.2 k).trans ?_⟩
        simp only [State.mem_fenceLanes_map hlanes hmore]
  · refine ⟨_, exec_alarmDue halarms hdue hl hr hroom, rfl, fun e he => ?_, ?_, fun q => ?_⟩
    · rw [State.core_setPort, if_neg he, State.core_setCore, if_neg he]
    · rw [State.core_setPort, if_pos rfl, State.core_setCore_self]
    · rw [State.port_setPort]
      refine ite_congr (propext (and_iff_right rfl)) (fun hq => by rw [hq]) fun _ => ?_
      rw [State.port, State.core_setCore_self, State.port]
  · refine ⟨_, exec_vwinAdvance hdue, rfl, fun k => ?_⟩
    rw [State.dieSt_setDie]
    exact ite_congr rfl (fun hk => by rw [hk]) fun _ => rfl

end Sys2Proof.Machine
end

