-- ==== Sys2Proof/Proofs/Bins.lean ====
section
/-! Spawn bins, the warps that they become, and the grant of claims (R61, R73, R76, R271). -/

namespace Sys2Proof.Machine

/-! The register pool (R75). -/

theorem State.poolFree_congr {s a : State} {c : Nat} (hwrp : a.wrp = s.wrp) (hscribe : (a.core c).scribe = (s.core c).scribe) :
    a.poolFree c = s.poolFree c := by
  have hwarp : a.warp = s.warp := funext fun w => by rw [State.warp, State.warp, hwrp]
  have hwarps : a.warpsOf c = s.warpsOf c := by rw [State.warpsOf, State.warpsOf, hwrp]
  unfold State.poolFree
  rw [hwarps, hwarp, hscribe]

theorem State.savingCore_congr {s a : State} {c : Nat} (hctxs : a.ctxs = s.ctxs) (hblk : (a.core c).blk = (s.core c).blk) :
    a.savingCore c = s.savingCore c := by
  simp only [State.savingCore, State.ctx, hctxs, hblk]

/-! Bins (R61, R73). -/

theorem exec_spawnBinTimer {s : State} {c b : Nat} {y : Bin} (hbin : Tab.find (s.core c).bins b = some y) (hdue : y.due ≤ s.now c) :
    exec (.spawnBinTimer c b) s = .next (s.setCore c { s.core c with bins := Tab.put b { y with flush := true } (s.core c).bins }) := by
  change execSpawnBinTimer c b s = _
  simp only [execSpawnBinTimer, hbin, if_pos hdue]

/-- The warp that a bin of a core becomes. -/
def State.binWarp (s : State) (c : Nat) (bl : Nat × Nat) : Warp :=
  { ctx := bl.1, bid := bl.2, idx := (s.ctx bl.1).lr.warps + (s.core c).spawned, spawned := true, n := (s.ctx bl.1).lr.regs
    pl := if isSup bl.1 then 1 else -1 }
/-- A thread of such a warp, with its two arguments (R73). -/
def State.binThread (s : State) (y : Bin) (p : Int × Int) : Thread :=
  { pc := y.entry, st := .runnable, regs := Tab.set 0 0 p.1 (Tab.set 0 1 p.2 []), stamp := s.stamp }

/-- A warp is created from a bin: its threads start with their arguments, and the bin is gone (R73). -/
theorem State.createWarp_spec {s : State} {c b i : Nat} {y : Bin} {bl : Nat × Nat} (hbin : Tab.find (s.core c).bins b = some y)
    (hslot : y.slot = some i) (hblk : (s.core c).blk = some bl) :
    s.createWarp c b = { s with cor := (s.createWarp c b).cor, wrp := (s.createWarp c b).wrp, thr := (s.createWarp c b).thr } ∧
      (∀ k, (s.createWarp c b).core k =
        if k = c then { s.core c with bins := Tab.del b (s.core c).bins, spawned := (s.core c).spawned + 1 } else s.core k) ∧
      (∀ w, (s.createWarp c b).warp w = if w = c * 28 + i then s.binWarp c bl else s.warp w) ∧
      (∀ l p, y.args[l]? = some p → (s.createWarp c b).thread (threadOf (c * 28 + i) l) = s.binThread y p) ∧
      ∀ u, (∀ l, l < y.args.length → u ≠ threadOf (c * 28 + i) l) → (s.createWarp c b).thread u = s.thread u := by
  set s1 := (s.setWarp (c * 28 + i) (s.binWarp c bl)).setCore c
    { s.core c with bins := Tab.del b (s.core c).bins, spawned := (s.core c).spawned + 1 } with hs1
  have hrun : s.createWarp c b = y.args.zipIdx.foldl (fun a q => a.setThread (threadOf (c * 28 + i) q.2) (s.binThread y q.1)) s1 := by
    have hblk' : (s.core c).blk.getD (0, 0) = bl := by rw [hblk, Option.getD_some]
    simp only [State.createWarp, hbin, hslot, hblk', Option.getD_some]
    rfl
  have hnodup : (y.args.zipIdx.map (fun q => threadOf (c * 28 + i) q.2)).Nodup := by
    have hkeys := nodup_map_threadOf (w := c * 28 + i) (List.nodup_range' (s := 0) (n := y.args.length))
    rwa [← List.zipIdx_map_snd, List.map_map] at hkeys
  obtain ⟨hthr, hon, hoff⟩ := fold_setThread (fun q => threadOf (c * 28 + i) q.2) (fun q => s.binThread y q.1) y.args.zipIdx hnodup s1
  rw [← hrun] at hthr hon hoff
  refine ⟨by rw [hthr]; rfl, fun k => ?_, fun w => ?_, fun l p hp => hon (p, l) (List.mk_mem_zipIdx_iff_getElem?.mpr hp), fun u hu => hoff u fun q hq => hu q.2 ?_⟩
  · rw [hthr]
    exact State.core_setCore ..
  · rw [hthr]
    exact State.warp_setWarp ..
  · exact (List.getElem?_eq_some_iff.mp (List.mem_zipIdx_iff_getElem?.mp hq)).1

/-- A bin's claim on a core without claims is granted at once when it fits: the warp is created (R76). -/
theorem State.claim_bin_eq {s : State} {c b words : Nat} (hempty : (s.core c).claims = []) (hfree : (words : Int) ≤ s.poolFree c)
    (hgoes : s.savingCore c = false) :
    ∃ a : State, s.claim c { by_ := .bin b, words := words } = a.createWarp c b ∧ a = { s with cor := a.cor } ∧ ∀ e, a.core e = s.core e := by
  set q : Claim := { by_ := .bin b, words := words }
  set s1 := s.setCore c { s.core c with claims := [q] } with hs1
  have hclaims : (s1.core c).claims = [q] := by rw [hs1, State.core_setCore_self]
  have hpool : s1.poolFree c = s.poolFree c := State.poolFree_congr rfl (by rw [hs1, State.core_setCore_self])
  have hsaving : s1.savingCore c = s.savingCore c := State.savingCore_congr rfl (by rw [hs1, State.core_setCore_self])
  refine ⟨s1.setCore c { s1.core c with claims := [] }, ?_, rfl, fun e => ?_⟩
  · have hgrant : s.claim c q = s1.grantHead c := by
      simp only [State.claim, hempty, List.nil_append, ← hs1, State.regrant, hclaims, List.length_singleton, State.grantAll]
    have hfits : ¬ (decide (s1.poolFree c < (q.words : Int)) || s1.savingCore c) = true := by
      rw [hpool, hsaving, hgoes]
      simpa using hfree
    rw [hgrant, State.grantHead]
    simp only [hclaims, if_neg hfits]
    rfl
  · rw [State.core_setCore, hs1, State.core_setCore_self, State.core_setCore]
    split
    · next he => rw [he, ← hempty]
    · rfl

theorem exec_spawnWarpCreate {s : State} {c b i : Nat} {y : Bin} {bl : Nat × Nat} (hbin : Tab.find (s.core c).bins b = some y)
    (hnew : y.slot = none) (hargs : y.args ≠ []) (hfull : y.flush = true ∨ y.args.length = 16) (hslot : s.freeSlot c = some i)
    (hblk : (s.core c).blk = some bl) (hgoes : s.savingCore c = false) :
    exec (.spawnWarpCreate c b) s = .next ((s.setCore c { s.core c with bins := Tab.put b { y with slot := some i } (s.core c).bins }).claim c
      { by_ := .bin b, words := 16 * (s.ctx bl.1).lr.regs }) := by
  have hholds : ¬ (y.slot.isSome = true ∨ y.args.isEmpty = true ∨ s.savingCore c = true ∨ !(y.flush || decide (y.args.length = 16))) := by
    rcases hfull with hfull | hfull <;> simp [hnew, hargs, hgoes, hfull]
  change execSpawnWarpCreate c b s = _
  unfold execSpawnWarpCreate
  simp only [hbin, hslot, if_neg hholds, hblk, Option.getD_some]

/-- A due bin becomes a warp at once when a slot is free and its registers fit (R61, R73). -/
theorem spawnWarpCreate_spec {s : State} {c b i : Nat} {y : Bin} {bl : Nat × Nat} (hbin : Tab.find (s.core c).bins b = some y)
    (hnew : y.slot = none) (hargs : y.args ≠ []) (hfull : y.flush = true ∨ y.args.length = 16) (hslot : s.freeSlot c = some i)
    (hempty : (s.core c).claims = []) (hblk : (s.core c).blk = some bl) (hgoes : s.savingCore c = false)
    (hfree : (16 * (s.ctx bl.1).lr.regs : Int) ≤ s.poolFree c) :
    ∃ t, exec (.spawnWarpCreate c b) s = .next t ∧ t = { s with cor := t.cor, wrp := t.wrp, thr := t.thr } ∧
      (∀ k, t.core k = if k = c then { s.core c with bins := Tab.del b (Tab.put b { y with slot := some i } (s.core c).bins)
                                                     spawned := (s.core c).spawned + 1 } else s.core k) ∧
      (∀ w, t.warp w = if w = c * 28 + i then s.binWarp c bl else s.warp w) ∧
      (∀ l p, y.args[l]? = some p → t.thread (threadOf (c * 28 + i) l) = s.binThread y p) ∧
      ∀ u, (∀ l, l < y.args.length → u ≠ threadOf (c * 28 + i) l) → t.thread u = s.thread u := by
  set s1 := s.setCore c { s.core c with bins := Tab.put b { y with slot := some i } (s.core c).bins } with hs1
  have hcore : s1.core c = { s.core c with bins := Tab.put b { y with slot := some i } (s.core c).bins } := by rw [hs1, State.core_setCore_self]
  have hpool : s1.poolFree c = s.poolFree c := State.poolFree_congr rfl (by rw [hcore])
  have hsaving : s1.savingCore c = s.savingCore c := State.savingCore_congr rfl (by rw [hcore])
  obtain ⟨a, hclaim, hrest, hcores⟩ := State.claim_bin_eq (s := s1) (c := c) (b := b) (words := 16 * (s.ctx bl.1).lr.regs)
    (by rw [hcore]; exact hempty) (by rw [hpool]; exact_mod_cast hfree) (hsaving.trans hgoes)
  obtain ⟨hsame, hcor, hwrp, hon, hoff⟩ := State.createWarp_spec (s := a) (c := c) (b := b) (i := i) (y := { y with slot := some i }) (bl := bl)
    (by rw [hcores, hcore, Tab.find_put, if_pos rfl]) rfl (by rw [hcores, hcore]; exact hblk)
  have hctx : ∀ k, a.ctx k = s.ctx k := fun k => by rw [hrest]; rfl
  have hwarp : a.binWarp c bl = s.binWarp c bl := by rw [State.binWarp, State.binWarp, hctx, hcores, hcore]
  refine ⟨_, (exec_spawnWarpCreate hbin hnew hargs hfull hslot hblk hgoes).trans (congrArg _ hclaim), ?_, fun k => ?_, fun w => ?_, fun l p hp => ?_,
    fun u hu => ?_⟩
  · rw [hsame, hrest]
    rfl
  · rw [hcor, hcores, hcore]
    refine ite_congr rfl (fun _ => rfl) fun hk => ?_
    rw [hcores, hs1, State.core_setCore, if_neg hk]
  · rw [hwrp, hwarp, hrest]
    rfl
  · rw [hon l p hp, hrest]
    rfl
  · rw [hoff u hu, hrest]
    rfl

/-! The grant of a warp's claim (R76, R271). -/

/-- Registers at or above a number are lost to one thread, whether or not it is listed. -/
def State.loseLane (n : Nat) (s : State) (u : Nat) : State :=
  match Tab.find s.thr u with
  | some x => s.setThread u { x with regs := below n x.regs }
  | none => s

theorem State.loseLane_spec (n : Nat) (s : State) (u : Nat) : s.loseLane n u = { s with thr := (s.loseLane n u).thr } ∧
    ∀ k, (s.loseLane n u).thread k = if k = u then { s.thread k with regs := below n (s.thread k).regs } else s.thread k := by
  unfold State.loseLane
  rcases hfind : Tab.find s.thr u with _ | x
  · have hnone : s.thread u = {} := Tab.get_of_find_none ({} : Thread) u s.thr hfind
    refine ⟨rfl, fun k => ?_⟩
    change s.thread k = _
    by_cases hk : k = u
    · rw [if_pos hk, hk, hnone]
      rfl
    · rw [if_neg hk]
  · have hsome : s.thread u = x := Tab.get_of_find ({} : Thread) x u s.thr hfind
    refine ⟨rfl, fun k => ?_⟩
    rw [State.thread_setThread]
    exact ite_congr rfl (fun hk => by rw [hk, hsome]) fun _ => rfl

theorem Warp.keeps_of_nil {x : Warp} (hnil : x.draft.ckpt = []) (n : Nat) : x.keeps n = x := by
  have hdraft : { x.draft with ckpt := x.draft.ckpt.map (fun (k : Ckpt) => { k with regs := below n k.regs }) } = x.draft := by
    rw [hnil, List.map_nil, ← hnil]
  rw [Warp.keeps, hdraft]

/-- What losing registers does to the warp: its checkpoint keeps those below a number. -/
def State.loseCkpt (s : State) (w n : Nat) : State :=
  if (s.warp w).draft.ckpt.isEmpty then s else s.setWarp w ((s.warp w).keeps n)

theorem State.loseRegs_eq (s : State) (w n : Nat) : s.loseRegs w n = (threadsOf w).foldl (State.loseLane n) (s.loseCkpt w n) := rfl

theorem State.loseCkpt_spec (s : State) (w n : Nat) : s.loseCkpt w n = { s with wrp := (s.loseCkpt w n).wrp } ∧
    ∀ v, (s.loseCkpt w n).warp v = if v = w then (s.warp v).keeps n else s.warp v := by
  unfold State.loseCkpt
  split
  · next hempty =>
    refine ⟨rfl, fun v => ?_⟩
    have hkeeps := Warp.keeps_of_nil (List.isEmpty_iff.mp hempty) n
    by_cases hv : v = w
    · rw [if_pos hv, hv, hkeeps]
    · rw [if_neg hv]
  · refine ⟨rfl, fun v => ?_⟩
    rw [State.warp_setWarp]
    exact ite_congr rfl (fun hv => by rw [hv]) fun _ => rfl

/-- What losing registers leaves: the threads' and the checkpoint's registers below a number. -/
theorem State.loseRegs_spec (s : State) (w n : Nat) : s.loseRegs w n = { s with thr := (s.loseRegs w n).thr, wrp := (s.loseRegs w n).wrp } ∧
    (∀ k, (s.loseRegs w n).thread k = if k ∈ threadsOf w then { s.thread k with regs := below n (s.thread k).regs } else s.thread k) ∧
    ∀ v, (s.loseRegs w n).warp v = if v = w then (s.warp v).keeps n else s.warp v := by
  obtain ⟨hrest, hwrp⟩ := s.loseCkpt_spec w n
  obtain ⟨hthr, hread⟩ := fold_threads_read (s.loseCkpt w n) (State.loseLane n) (fun x => { x with regs := below n x.regs }) _ (nodup_threadsOf w)
    fun a u _ => a.loseLane_spec n u
  rw [← State.loseRegs_eq] at hthr hread
  have hsame : (s.loseCkpt w n).thr = s.thr := by rw [hrest]
  have hkeeps : (s.loseRegs w n).wrp = (s.loseCkpt w n).wrp := by rw [hthr]
  refine ⟨?_, fun k => ?_, fun v => ?_⟩
  · rw [hthr, hrest]
  · rw [hread, State.thread_congr hsame]
  · rw [← hwrp, State.warp_congr hkeeps]

/-- The state in which a claim's lanes end their wait: the claim is gone, and the warp has its registers. -/
def State.granted (s : State) (c w g : Nat) (rest : List Claim) : State :=
  let a := (s.setCore c { s.core c with claims := rest }).loseRegs w (s.warp w).n
  a.setWarp w { a.warp w with n := (s.warp w).n + 9 * g }

theorem State.granted_spec (s : State) (c w g : Nat) (rest : List Claim) :
    s.granted c w g rest = { s with thr := (s.granted c w g rest).thr, wrp := (s.granted c w g rest).wrp, cor := (s.granted c w g rest).cor } ∧
    (∀ e, (s.granted c w g rest).core e = if e = c then { s.core e with claims := rest } else s.core e) ∧
    (∀ v, (s.granted c w g rest).warp v = if v = w then { (s.warp v).keeps (s.warp v).n with n := (s.warp v).n + 9 * g } else s.warp v) ∧
    ∀ u, (s.granted c w g rest).thread u =
      if u ∈ threadsOf w then { s.thread u with regs := below (s.warp w).n (s.thread u).regs } else s.thread u := by
  obtain ⟨b, hb⟩ : ∃ b, s.setCore c { s.core c with claims := rest } = b := ⟨_, rfl⟩
  obtain ⟨hrest, hthr, hwrp⟩ := b.loseRegs_spec w (s.warp w).n
  obtain ⟨a, ha⟩ : ∃ a, b.loseRegs w (s.warp w).n = a := ⟨_, rfl⟩
  rw [ha] at hrest hthr hwrp
  have hrun : s.granted c w g rest = a.setWarp w { a.warp w with n := (s.warp w).n + 9 * g } := by rw [State.granted, hb, ha]
  have hbt : ∀ u, b.thread u = s.thread u := fun u => by rw [← hb, State.thread_setCore]
  have hbw : ∀ v, b.warp v = s.warp v := fun v => by rw [← hb, State.warp_setCore]
  rw [hrun]
  refine ⟨?_, fun e => ?_, fun v => ?_, fun u => ?_⟩
  · rw [hrest, ← hb]
    rfl
  · have hcor : a.cor = b.cor := by rw [hrest]
    rw [State.core_setWarp, State.core_congr hcor, ← hb, State.core_setCore]
    exact ite_congr rfl (fun he => by rw [he]) fun _ => rfl
  · rw [State.warp_setWarp, hwrp, if_pos rfl, hbw]
    refine ite_congr rfl (fun hv => ?_) fun hv => ?_
    · rw [hv]
    · rw [hwrp, if_neg hv, hbw]
  · rw [State.thread_setWarp, hthr, hbt]

/-- The head claim of a warp is granted: the warp has its registers, and the lanes that waited for it retire (R76, R271). -/
theorem claimGrant_spec {s : State} {c w g k : Nat} {lanes : List Nat} {rest : List Claim}
    (hclaims : (s.core c).claims = { by_ := .warp w g lanes, words := k } :: rest) (hfree : (k : Int) ≤ s.poolFree c)
    (hgoes : s.savingCore c = false) (hbound : (s.warp w).n + 9 * g ≤ 216) (hstill : Still s w) (hnodup : lanes.Nodup)
    (hwaits : ∀ l ∈ lanes, l < 16 ∧ (s.thread (threadOf w l)).st = .waiting) :
    ∃ t, exec (.claimGrant c) s = .next t ∧ t = { s.granted c w g rest with thr := t.thr } ∧ ∀ u, t.thread u =
      if ∃ l ∈ lanes, u = threadOf w l then ((s.granted c w g rest).thread u).retired ((s.granted c w g rest).thread u).next
      else (s.granted c w g rest).thread u := by
  obtain ⟨hsame, -, hwarp, hthread⟩ := s.granted_spec c w g rest
  obtain ⟨a, ha⟩ : ∃ a, s.granted c w g rest = a := ⟨_, rfl⟩
  rw [ha] at hsame hwarp hthread ⊢
  have hlane : ∀ u ∈ lanes.map (threadOf w), u ∈ threadsOf w ∧ (s.thread u).st = .waiting := fun u hu => by
    obtain ⟨l, hl, rfl⟩ := List.mem_map.mp hu
    exact ⟨mem_threadsOf.mpr ⟨l, (hwaits l hl).1, rfl⟩, (hwaits l hl).2⟩
  have hst : ∀ u, (a.thread u).st = (s.thread u).st ∧ (a.thread u).mr = (s.thread u).mr := fun u => by
    rw [hthread]
    split <;> exact ⟨rfl, rfl⟩
  have hfold := fold_threads a State.endWait (fun x => x.retired x.next) (lanes.map (threadOf w)) (nodup_map_threadOf hnodup)
      fun b u hu _ hsame => by
        refine State.endWait_eq ?_ ?_
        · rw [warpOf_of_mem (hlane u hu).1]
          exact hstill.wid
        · rw [hsame, (hst u).1]
          exact (hlane u hu).2
  obtain ⟨t, ht⟩ : ∃ t, (lanes.map (threadOf w)).foldl State.endWait a = t := ⟨_, rfl⟩
  rw [ht] at hfold
  obtain ⟨hrest, hthr⟩ := hfold
  have hkept : Kept s t w := by
    have hwrp : t.wrp = a.wrp := by rw [hrest]
    have hw := (State.warp_congr hwrp w).trans ((hwarp w).trans (if_pos rfl))
    refine ⟨by rw [hrest, hsame], by rw [hw]; rfl, by rw [hw]; rfl, by rw [hw]; rfl, fun u hu => ?_⟩
    have hmeets : (s.thread u).MeetsAs (a.thread u) := Thread.meetsAs_of_eq (hst u).2 (hst u).1
    rw [hthr]
    split
    · next hu =>
      exact hmeets.trans (Thread.meetsAs_retired ((hst u).1.trans (hlane u hu).2) _)
    · exact hmeets
  have hfits : ¬ (decide (s.poolFree c < (k : Int)) || s.savingCore c) = true := by
    rw [hgoes]
    simpa using hfree
  refine ⟨t, ?_, hrest, fun u => (hthr u).trans ?_⟩
  · have hfits' : ¬ 216 < ((s.setCore c { s.core c with claims := rest }).warp w).n + 9 * g := hbound.not_gt
    have hrun : s.grantHead c = (t.stepTrap w lanes).settle w := by
      rw [← ht, ← ha, State.grantHead]
      simp only [hclaims, if_neg hfits, if_neg hfits']
      rfl
    exact congrArg Host.Outcome.next (hrun.trans (hstill.stepTrap_settle_eq hkept lanes))
  · refine if_congr ?_ rfl rfl
    simp only [List.mem_map, eq_comm]

/-- A word in each of the two first registers, and none in the others. -/
theorem get_binRegs (v0 v1 : Int) (r : Nat) : Tab.get 0 (Tab.set 0 0 v0 (Tab.set 0 1 v1 [])) r = if r = 0 then v0 else if r = 1 then v1 else 0 := by
  rw [Tab.get_set, Tab.get_set, Tab.get_nil]

/-- Settles O49: a claim that heads its core's queue and fits is granted as it comes, so that a due bin is a warp in the same step. -/
theorem binsAndClaims : Obligations.BinsAndClaims := by
  refine ⟨fun s c b y hbin hdue => ?_, fun s c b y i bl hbin hnew hargs _ hfull hslot hempty hblk hgoes hfree => ?_,
    fun s c w g lanes k rest hclaims hfree hgoes hbound hstill hnodup hwaits => ?_⟩
  · refine ⟨_, exec_spawnBinTimer hbin hdue, rfl, fun k => ?_⟩
    rw [State.core_setCore]
    exact ite_congr rfl (fun hk => by rw [hk]) fun _ => rfl
  · obtain ⟨t, hexec, hrest, hcore, hwarp, hon, hoff⟩ := spawnWarpCreate_spec hbin hnew hargs hfull hslot hempty hblk hgoes hfree
    have hplace : ∀ l, 16 * (28 * c + i) + l = threadOf (c * 28 + i) l := fun l => by
      unfold threadOf
      omega
    have hc : t.core c = _ := (hcore c).trans (if_pos rfl)
    refine ⟨t, hexec, hrest, fun k hk => (hcore k).trans (if_neg hk), by rw [hc], fun j => ?_, fun w => ?_, fun l p hp => ?_, fun u hu => ?_⟩
    · rw [hc, Tab.find_del, Tab.find_put]
      split <;> rfl
    · rw [hwarp, mul_comm c 28]
      rfl
    · rw [hplace, hon l p hp]
      exact ⟨rfl, get_binRegs p.1 p.2⟩
    · exact hoff u fun l hl => hplace l ▸ hu l hl
  · obtain ⟨t, hexec, hrest, hthr⟩ := claimGrant_spec hclaims hfree hgoes hbound hstill hnodup hwaits
    obtain ⟨hsame, hcore, hwarp, hthread⟩ := s.granted_spec c w g rest
    obtain ⟨a, ha⟩ : ∃ a, s.granted c w g rest = a := ⟨_, rfl⟩
    rw [ha] at hrest hthr hsame hcore hwarp hthread
    have hcor : t.cor = a.cor := by rw [hrest]
    have hwrp : t.wrp = a.wrp := by rw [hrest]
    refine ⟨t, hexec, by rw [hrest, hsame], fun e => (State.core_congr hcor e).trans (hcore e), fun v => (State.warp_congr hwrp v).trans (hwarp v),
      fun u => ?_⟩
    rw [hthr, hthread]

end Sys2Proof.Machine
end

