-- ==== Sys2Proof/Proofs/Blocks.lean ====
section
/-! Tables whose entries are changed or dropped by key. -/

namespace Sys2Proof.Machine

theorem Tab.get_map {α : Type} (f : α → α) {z : α} (hz : f z = z) (t : Tab α) (k : Nat) :
    Tab.get z (t.map (fun p => (p.1, f p.2))) k = f (Tab.get z t k) := by
  induction t with
  | nil => exact hz.symm
  | cons p t ih =>
    rw [List.map_cons, Tab.get, Tab.get, ih]
    split <;> rfl

theorem Tab.get_filter_key {α : Type} (z : α) (keep : Nat → Bool) (t : Tab α) (k : Nat) :
    Tab.get z (t.filter (fun p => keep p.1)) k = if keep k = true then Tab.get z t k else z := by
  induction t with
  | nil => simp
  | cons p t ih =>
    obtain ⟨j, v⟩ := p
    rw [List.filter_cons]
    by_cases hj : j = k
    · subst hj
      by_cases hkeep : keep j = true
      · simp [hkeep, Tab.get]
      · simpa [hkeep] using ih
    · by_cases hkeep : keep j = true
      · simpa [hkeep, Tab.get, hj] using ih
      · simpa [hkeep, Tab.get, hj] using ih

/-- What a lookup gives is the default or listed. -/
theorem Tab.get_eq_or_mem {α : Type} (z : α) (t : Tab α) (k : Nat) : Tab.get z t k = z ∨ ∃ p ∈ t, p.2 = Tab.get z t k := by
  induction t with
  | nil => exact .inl rfl
  | cons p t ih =>
    rw [Tab.get]
    split
    · exact .inr ⟨p, List.mem_cons_self, rfl⟩
    · exact ih.imp_right fun ⟨q, hq, heq⟩ => ⟨q, List.mem_cons_of_mem _ hq, heq⟩

end Sys2Proof.Machine
end

section
/-! The life of a block until it has ended (R61, R70, R446-R448). -/

namespace Sys2Proof.Machine

/-! Eligibility (R446). -/

theorem exec_blockEligible {s : State} {c b d : Nat} {m : Bool} (hwait : s.blkSt c b = .wait m) (hlive : (s.ctx c).live = true)
    (hgoes : (s.ctx c).killing = false) (hdie : d = dieOfBlk (s.ctx c).lr b)
    (hmet : m = true ∨ ((s.ctx c).lr.nbt ≤ (s.dieSt (s.ownKey d)).clk ∧ ((s.ctx c).lr.depa = 0 ∨ (s.ctx c).depMet = true))) :
    exec (.blockEligible c b) s = .next (s.enqueue d c b false) := by
  subst hdie
  change execBlockEligible c b s = _
  unfold execBlockEligible
  simp only [hwait, hlive, hgoes, if_pos hmet]
  rfl

/-! Placement (R70, R447). -/

/-- The shorter of two lists of free cores, the first one of equal ones; an empty list is none. -/
def fewerFree (m : Option (List Nat)) (f : List Nat) : Option (List Nat) :=
  if f.length < 1 then m
  else match m with
    | none => some f
    | some g => if f.length < g.length then some f else m

theorem foldl_fewerFree_of_le {g : List Nat} {fs : List (List Nat)} (h : ∀ f ∈ fs, f ≠ [] → g.length ≤ f.length) :
    fs.foldl fewerFree (some g) = some g := by
  induction fs with
  | nil => rfl
  | cons f fs ih =>
    obtain ⟨hf, hrest⟩ := List.forall_mem_cons.mp h
    rw [List.foldl_cons, fewerFree]
    split
    · exact ih hrest
    · next hne =>
      simp only [if_neg (hf fun hnil => hne (by simp [hnil])).not_gt]
      exact ih hrest

theorem fewerFree_foldl_of_lt {g : List Nat} (hg : g ≠ []) {fs : List (List Nat)} (h : ∀ f ∈ fs, f ≠ [] → g.length < f.length)
    (m : Option (List Nat)) (hm : ∀ f ∈ m, g.length < f.length) : fewerFree (fs.foldl fewerFree m) g = some g := by
  induction fs generalizing m with
  | nil =>
    rw [List.foldl_nil]
    unfold fewerFree
    rw [if_neg (by simpa [Nat.lt_one_iff] using hg)]
    cases m with
    | none => rfl
    | some f => exact if_pos (hm f rfl)
  | cons f fs ih =>
    obtain ⟨hf, hrest⟩ := List.forall_mem_cons.mp h
    refine ih hrest _ fun k hk => ?_
    unfold fewerFree at hk
    split at hk
    · exact hm k hk
    · next hne =>
      have hlt := hf fun hnil => hne (by simp [hnil])
      cases m with
      | none => exact Option.some.inj hk ▸ hlt
      | some d =>
        simp only at hk
        split at hk
        · exact Option.some.inj hk ▸ hlt
        · exact hm k hk

/-- The cluster with the fewest free cores, the lowest of equal ones, among those that have one (R447). -/
theorem foldl_fewerFree {F : Nat → List Nat} {n cl : Nat} (hcl : cl < n) (hne : F cl ≠ [])
    (hfewest : ∀ k, k < n → F k ≠ [] → (F cl).length ≤ (F k).length ∧ (k < cl → (F cl).length < (F k).length)) :
    ((List.range n).map F).foldl fewerFree none = some (F cl) := by
  have hlen : cl < ((List.range n).map F).length := by simpa using hcl
  have hget : ((List.range n).map F)[cl] = F cl := by simp
  rw [← List.take_append_drop cl ((List.range n).map F), List.drop_eq_getElem_cons hlen, hget, List.foldl_append, List.foldl_cons,
    fewerFree_foldl_of_lt hne ?_ none (by simp)]
  · refine foldl_fewerFree_of_le fun f hf hfne => ?_
    obtain ⟨k, hk, rfl⟩ := List.mem_map.mp (List.mem_of_mem_drop hf)
    exact (hfewest k (List.mem_range.mp hk) hfne).1
  · intro f hf hfne
    rw [← List.map_take, List.take_range] at hf
    obtain ⟨k, hk, rfl⟩ := List.mem_map.mp hf
    have hlt := lt_min_iff.mp (List.mem_range.mp hk)
    exact (hfewest k hlt.2 hfne).2 hlt.1

/-- A lone new block is placed by itself. -/
theorem State.bunchOf_lone {s : State} {d : Nat} {e : Queued} (hqueue : (s.dieSt (s.ownKey d)).queue = [e]) (hnew : e.resume = false)
    (hdet : (s.ctx e.ctx).lr.det = false) (hgroup : (s.ctx e.ctx).lr.group = 1) (hqueued : s.blkSt e.ctx e.bid = .queued) :
    s.bunchOf d e = some { ents := [e], need := 1 } := by
  have hplace : s.placeQueue d = [e] := by rw [State.placeQueue, hqueue, List.mergeSort_singleton]
  simp [State.bunchOf, hnew, hdet, hgroup, hqueued, hplace]

theorem State.coresFor_lone {s : State} {d cl f : Nat} {e : Queued} {fs : List Nat} (hdet : (s.ctx e.ctx).lr.det = false) (hcl : cl < 9)
    (hfree : s.freeCores d cl = f :: fs) (hfewest : ∀ k, k < 9 → s.freeCores d k ≠ [] →
      fs.length < (s.freeCores d k).length ∧ (k < cl → fs.length + 1 < (s.freeCores d k).length)) :
    s.coresFor d { ents := [e], need := 1 } = some [f] := by
  have hbest := foldl_fewerFree (F := s.freeCores d) hcl (by simp [hfree]) fun k hk hne => by
    simpa [hfree] using hfewest k hk hne
  have hrun : s.coresFor d { ents := [e], need := 1 } =
      (((List.range 9).map (s.freeCores d)).foldl fewerFree none).map (fun g => g.take 1) := by
    rw [List.foldl_map]
    simp only [State.coresFor, hdet]
    rfl
  rw [hrun, hbest, hfree]
  rfl

theorem exec_placement_lone {s : State} {d cl f : Nat} {e : Queued} {fs : List Nat} (hqueue : (s.dieSt (s.ownKey d)).queue = [e])
    (hnew : e.resume = false) (hdet : (s.ctx e.ctx).lr.det = false) (hgroup : (s.ctx e.ctx).lr.group = 1)
    (hqueued : s.blkSt e.ctx e.bid = .queued) (hgoes : (s.ctx e.ctx).killing = false) (hcl : cl < 9) (hfree : s.freeCores d cl = f :: fs)
    (hfewest : ∀ k, k < 9 → s.freeCores d k ≠ [] →
      fs.length < (s.freeCores d k).length ∧ (k < cl → fs.length + 1 < (s.freeCores d k).length)) :
    exec (.placement d) s = .next (s.takeCore e.ctx e.bid f false) := by
  have hplace : s.placeQueue d = [e] := by rw [State.placeQueue, hqueue, List.mergeSort_singleton]
  change execPlacement d s = _
  unfold execPlacement
  simp [hplace, hgoes, State.bunchOf_lone hqueue hnew hdet hgroup hqueued, State.coresFor_lone hdet hcl hfree hfewest, hnew]

theorem State.dieSt_unqueue (s : State) (c b k : Nat) : (s.unqueue c b).dieSt k =
    { s.dieSt k with queue := (s.dieSt k).queue.filter (fun q => decide (q.ctx ≠ c) || decide (q.bid ≠ b)) } := by
  have hmap := Tab.get_map (fun (x : DieSt) => { x with queue := x.queue.filter (fun q => !(decide (q.ctx = c) && decide (q.bid = b))) })
    (z := {}) rfl s.die k
  have hpred : (fun q : Queued => !(decide (q.ctx = c) && decide (q.bid = b))) = fun q => decide (q.ctx ≠ c) || decide (q.bid ≠ b) := by
    funext q
    rw [Bool.not_and, decide_not, decide_not]
  rw [← hpred]
  exact hmap

theorem State.ctx_setBlk (s : State) (c b : Nat) (x : BlkSt) (k : Nat) :
    (s.setBlk c b x).ctx k = if k = c then { s.ctx k with blk := Tab.put b x (s.ctx k).blk } else s.ctx k := by
  rw [State.setBlk, State.ctx_setCtx]
  exact ite_congr rfl (fun hk => by rw [hk]) fun _ => rfl

/-- What a block's taking of a core leaves (R70). -/
theorem State.takeCore_spec (s : State) (c b f : Nat) :
    s.takeCore c b f false = { s with die := (s.takeCore c b f false).die, ctxs := (s.takeCore c b f false).ctxs, cor := (s.takeCore c b f false).cor } ∧
    (∀ k, (s.takeCore c b f false).dieSt k =
      { s.dieSt k with queue := (s.dieSt k).queue.filter (fun q => decide (q.ctx ≠ c) || decide (q.bid ≠ b)) }) ∧
    (∀ k, (s.takeCore c b f false).ctx k = if k = c then
        { s.ctx k with blk := Tab.put b (.taken f false) (s.ctx k).blk
                       place1 := Tab.put b ((Tab.find (s.ctx k).place1 b).getD (clusterOf f)) (s.ctx k).place1 }
      else s.ctx k) ∧
    ∀ k, (s.takeCore c b f false).core k =
      if k = f then { blk := some (c, b), clid := (Tab.find (s.ctx c).place1 b).getD (clusterOf f) } else s.core k := by
  have htaken : ∀ k, ((s.unqueue c b).setBlk c b (.taken f false)).ctx k =
      if k = c then { s.ctx k with blk := Tab.put b (.taken f false) (s.ctx k).blk } else s.ctx k := State.ctx_setBlk _ c b _
  have hself := (htaken c).trans (if_pos rfl)
  refine ⟨rfl, fun k => s.dieSt_unqueue c b k, fun k => ?_, fun k => ?_⟩
  · rw [State.takeCore, State.ctx_setCore, State.ctx_setCtx, hself, htaken]
    by_cases hk : k = c
    · subst hk
      simp only [if_true]
    · simp only [if_neg hk]
  · rw [State.takeCore, State.core_setCore, hself]
    rfl

/-! Start (R61, R442, R448). -/

/-- The slot of a block's i-th initial warp: the partitions take the warps in turn (R61). -/
def startSlot (f i : Nat) : Nat := 28 * f + 9 * (i % 3) + i / 3

theorem startSlot_inj {f i j : Nat} (hi : i < 27) (hj : j < 27) (h : startSlot f i = startSlot f j) : i = j := by
  unfold startSlot at h
  omega

/-- The registers at the start of a block: a launch's initial words in order (R442). -/
def startRegs (init : List Int) : Tab Int := init.zipIdx.foldl (fun t p => Tab.set 0 p.2 p.1 t) []

theorem get_foldl_zipIdx_set (vs : List Int) (n : Nat) (t : Tab Int) (r : Nat) :
    Tab.get 0 ((vs.zipIdx n).foldl (fun t p => Tab.set 0 p.2 p.1 t) t) r =
      if n ≤ r ∧ r < n + vs.length then vs.getD (r - n) 0 else Tab.get 0 t r := by
  induction vs generalizing n t with
  | nil =>
    rw [List.zipIdx_nil, List.foldl_nil, if_neg (by simp)]
  | cons v vs ih =>
    rw [List.zipIdx_cons, List.foldl_cons, ih, Tab.get_set, List.length_cons]
    by_cases hr : r = n
    · subst hr
      simp
    · by_cases hin : n + 1 ≤ r ∧ r < n + 1 + vs.length
      · rw [if_pos hin, if_pos (by omega), show r - n = r - (n + 1) + 1 by omega, List.getD_cons_succ]
      · rw [if_neg hin, if_neg hr, if_neg (by omega)]

theorem get_startRegs (init : List Int) (r : Nat) : Tab.get 0 (startRegs init) r = init.getD r 0 := by
  rw [startRegs, get_foldl_zipIdx_set, Tab.get_nil]
  by_cases hr : r < init.length
  · rw [if_pos (by omega), Nat.sub_zero]
  · rw [if_neg (by omega), List.getD_eq_default _ _ (by omega)]

/-- One initial warp begins, with its sixteen threads. -/
def State.startWarp (s : State) (w : Nat) (v : Warp) (x : Thread) : State :=
  (threadsOf w).foldl (fun b t => b.setThread t x) (s.setWarp w v)

theorem State.startWarp_spec (s : State) (w : Nat) (v : Warp) (x : Thread) :
    s.startWarp w v x = { s with thr := (s.startWarp w v x).thr, wrp := (s.startWarp w v x).wrp } ∧
    (∀ j, (s.startWarp w v x).warp j = if j = w then v else s.warp j) ∧
    ∀ u, (s.startWarp w v x).thread u = if warpOf u = w then x else s.thread u := by
  have hfold := fold_threads (s.setWarp w v) (fun b t => b.setThread t x) (fun _ => x) (threadsOf w) (nodup_threadsOf w) fun _ _ _ _ _ => rfl
  change State.startWarp s w v x = _ ∧ ∀ k, (State.startWarp s w v x).thread k = _ at hfold
  obtain ⟨t, ht⟩ : ∃ t, s.startWarp w v x = t := ⟨_, rfl⟩
  rw [ht] at hfold ⊢
  obtain ⟨hrest, hthr⟩ := hfold
  have hwrp : t.wrp = (s.setWarp w v).wrp := by rw [hrest]
  refine ⟨by rw [hrest]; rfl, fun j => by rw [State.warp_congr hwrp, State.warp_setWarp], fun u => (hthr u).trans (if_congr ?_ rfl rfl)⟩
  refine ⟨warpOf_of_mem, fun hu => mem_threadsOf.mpr ⟨u % 16, Nat.mod_lt _ (by decide), ?_⟩⟩
  unfold warpOf at hu
  unfold threadOf
  omega

/-- The initial warps of a block, the first n of them (R61). -/
def State.startFirst (s : State) (f : Nat) (v : Nat → Warp) (x : Thread) (n : Nat) : State :=
  (List.range n).foldl (fun a i => a.startWarp (startSlot f i) (v i) x) s

theorem State.startFirst_spec (s : State) (f : Nat) (v : Nat → Warp) (x : Thread) {n : Nat} (hn : n ≤ 27) :
    s.startFirst f v x n = { s with thr := (s.startFirst f v x n).thr, wrp := (s.startFirst f v x n).wrp } ∧
    (∀ i, i < n → (s.startFirst f v x n).warp (startSlot f i) = v i ∧
      ∀ u, warpOf u = startSlot f i → (s.startFirst f v x n).thread u = x) ∧
    ∀ w, (∀ i, i < n → w ≠ startSlot f i) → (s.startFirst f v x n).warp w = s.warp w ∧
      ∀ u, warpOf u = w → (s.startFirst f v x n).thread u = s.thread u := by
  induction n with
  | zero => exact ⟨rfl, fun i hi => absurd hi (Nat.not_lt_zero i), fun w _ => ⟨rfl, fun _ _ => rfl⟩⟩
  | succ n ih =>
    obtain ⟨hrest, hon, hoff⟩ := ih (by omega)
    have hrun : s.startFirst f v x (n + 1) = (s.startFirst f v x n).startWarp (startSlot f n) (v n) x := by
      unfold State.startFirst
      rw [List.range_succ, List.foldl_append, List.foldl_cons, List.foldl_nil]
    obtain ⟨a, ha⟩ : ∃ a, s.startFirst f v x n = a := ⟨_, rfl⟩
    rw [ha] at hrest hon hoff hrun
    have hone := a.startWarp_spec (startSlot f n) (v n) x
    rw [← hrun] at hone
    obtain ⟨t, ht⟩ : ∃ t, s.startFirst f v x (n + 1) = t := ⟨_, rfl⟩
    rw [ht] at hone ⊢
    obtain ⟨hstart, hwarp, hthr⟩ := hone
    refine ⟨?_, fun i hi => ?_, fun w hw => ?_⟩
    · rw [hstart, hrest]
    · by_cases hin : i = n
      · subst hin
        exact ⟨(hwarp _).trans (if_pos rfl), fun u hu => (hthr u).trans (if_pos hu)⟩
      · have hne : startSlot f i ≠ startSlot f n := fun h => hin (startSlot_inj (by omega) (by omega) h)
        obtain ⟨hw, ht⟩ := hon i (by omega)
        exact ⟨(hwarp _).trans ((if_neg hne).trans hw), fun u hu => (hthr u).trans ((if_neg (hu ▸ hne)).trans (ht u hu))⟩
    · obtain ⟨hold, holdt⟩ := hoff w fun i hi => hw i (by omega)
      have hne := hw n (Nat.lt_succ_self n)
      exact ⟨(hwarp w).trans ((if_neg hne).trans hold), fun u hu => (hthr u).trans ((if_neg (hu ▸ hne)).trans (holdt u hu))⟩

/-- An initial warp of a block, and a thread of it (R61, R442). -/
def State.initWarp (s : State) (c b i : Nat) : Warp := { ctx := c, bid := b, idx := i, n := (s.ctx c).lr.regs, pl := -1 }
def State.initThread (s : State) (c : Nat) : Thread :=
  { pc := (s.ctx c).lr.entry, st := .runnable, regs := startRegs (s.ctx c).lr.init, stamp := s.stamp }

theorem exec_blockStart {s : State} {c b f : Nat} (htaken : s.blkSt c b = .taken f false) (hgoes : (s.ctx c).killing = false) :
    exec (.blockStart c b) s =
      .next ((s.startFirst f (s.initWarp c b) (s.initThread c) (s.ctx c).lr.warps).setBlk c b (.placed f)) := by
  have hrun : s.startWarps c b f (-1) = s.startFirst f (s.initWarp c b) (s.initThread c) (s.ctx c).lr.warps := by
    unfold State.startWarps State.startFirst startSlot
    rw [mul_comm f 28]
    rfl
  change execBlockStart c b s = _
  unfold execBlockStart
  simp only [htaken, hgoes, hrun]
  rfl

/-! End (R70, R249, R436). -/

/-- Passing drawn numbers where no sequence register is open changes nothing that is read (R249). -/
theorem State.passDrawn_of_nil {s : State} {own : Nat} (hseqs : (s.dieSt own).seqs = []) (c : Nat) (mine : Nat → Bool) :
    s.passDrawn own c mine = s.setDie own (s.dieSt own) := by
  have hsame : { s.dieSt own with seqs := [] } = s.dieSt own := by rw [← hseqs]
  unfold State.passDrawn
  simp only [hseqs, List.map_nil, List.foldl_nil, hsame]

theorem State.foldl_passDrawn {s : State} (hseqs : ∀ k, (s.dieSt k).seqs = []) (c : Nat) (mine : Nat → Bool) (ks : Tab DieSt) :
    ∃ t, ks.foldl (fun a p => a.passDrawn p.1 c mine) s = t ∧ t = { s with die := t.die } ∧ ∀ k, t.dieSt k = s.dieSt k := by
  induction ks generalizing s with
  | nil => exact ⟨s, rfl, rfl, fun _ => rfl⟩
  | cons p ks ih =>
    have hread : ∀ k, (s.passDrawn p.1 c mine).dieSt k = s.dieSt k := fun k => by
      rw [State.passDrawn_of_nil (hseqs p.1), State.dieSt_setDie]
      split
      · next hk => rw [hk]
      · rfl
    obtain ⟨t, ht, hrest, hdie⟩ := ih fun k => (hread k).symm ▸ hseqs k
    refine ⟨t, ht, ?_, fun k => (hdie k).trans (hread k)⟩
    rw [hrest, State.passDrawn_of_nil (hseqs p.1)]
    rfl

theorem State.seqs_of_all {s : State} (h : ∀ p ∈ s.die, p.2.seqs = []) (k : Nat) : (s.dieSt k).seqs = [] := by
  rcases Tab.get_eq_or_mem ({} : DieSt) s.die k with hz | ⟨p, hp, heq⟩
  · rw [State.dieSt, hz]
  · rw [State.dieSt, ← heq]
    exact h p hp

/-- What the leaving of a core leaves: it is free, and its threads and warps are gone (R70). -/
theorem State.clearCore_spec (s : State) (f : Nat) :
    s.clearCore f = { s with thr := (s.clearCore f).thr, wrp := (s.clearCore f).wrp, cor := (s.clearCore f).cor, bad := (s.clearCore f).bad } ∧
    (∀ k, (s.clearCore f).core k = if k = f then { clid := (s.core f).clid } else s.core k) ∧
    (∀ u, (s.clearCore f).thread u = if coreOf (warpOf u) = f then {} else s.thread u) ∧
    ∀ w, (s.clearCore f).warp w = if coreOf w = f then {} else s.warp w := by
  refine ⟨rfl, fun k => State.core_setCore .., fun u => ?_, fun w => ?_⟩
  · refine (Tab.get_filter_key ({} : Thread) (fun j => decide (j / 448 ≠ f)) s.thr u).trans ?_
    have hcore : coreOf (warpOf u) = u / 448 := Nat.div_div_eq_div_mul ..
    by_cases hu : u / 448 = f <;> simp [hcore, hu, State.thread]
  · refine (Tab.get_filter_key ({} : Warp) (fun j => decide (j / 28 ≠ f)) s.wrp w).trans ?_
    by_cases hw : w / 28 = f <;> simp [coreOf, hw, State.warp]

/-- A context one of whose blocks has ended: what the block's core held of the open phase stays with it (R363). -/
def Ctx.endBlk (x : Ctx) (b : Nat) (held : List PEnt) : Ctx :=
  { x with blk := Tab.put b .ended x.blk, sess := Tab.del b x.sess
           pend := if held.isEmpty then x.pend else Tab.put b (Tab.get [] x.pend b ++ held) x.pend }

theorem blockEnd_spec {s : State} {c b f : Nat} (hplaced : s.blkSt c b = .placed f) (huser : isSup c = false) (hover : s.blockOver c b f = true)
    (hclean : s.dirtyLines f = []) (hwbf : (s.core f).wbf = []) (hseqs : ∀ p ∈ s.die, p.2.seqs = [])
    (hreqs : ∀ r ∈ s.reqs, r.ctx = c → r.bid = b → isMsg r.kind = true) :
    ∃ a : State, exec (.blockEnd c b) s = .next (a.clearCore f) ∧ a = { s with ctxs := a.ctxs, die := a.die, nextId := a.nextId } ∧
      (∀ k, a.dieSt k = s.dieSt k) ∧ ∀ k, a.ctx k = if k = c then (s.ctx k).endBlk b (s.core f).pbuf else s.ctx k := by
  obtain ⟨s1, hs1⟩ : ∃ s1, { s with nextId := s.nextId + 1 } = s1 := ⟨_, rfl⟩
  have hsave : s.saveL1 f = s1 := by rw [State.saveL1, hclean, ← hs1, List.foldl_nil]
  have hdie1 : ∀ k, s1.dieSt k = s.dieSt k := fun k => by rw [← hs1]; rfl
  obtain ⟨s2, hs2, hrest2, hdie2⟩ := State.foldl_passDrawn (s := s1) (fun k => (hdie1 k).symm ▸ State.seqs_of_all hseqs k) c
    (fun j => decide (j = b)) s1.die
  have hctx2 : ∀ k, s2.ctx k = s.ctx k := fun k => by rw [hrest2, ← hs1]; rfl
  have hcondition : ¬ (isSup c = true ∨ (!s.blockOver c b f) = true) := by simp [huser, hover]
  have horphans : s2.reqs.map (fun (r : Req) => if r.ctx = c ∧ r.bid = b ∧ (!isMsg r.kind) = true then orphan r else r) = s.reqs := by
    have hsame : s2.reqs = s.reqs := by rw [hrest2, ← hs1]
    rw [hsame]
    refine (List.map_congr_left (g := id) fun r hr => if_neg ?_).trans (List.map_id _)
    rintro ⟨hc, hb, hmsg⟩
    simp [hreqs r hr hc hb] at hmsg
  refine ⟨{ s2.setCtx c ((s2.ctx c).endBlk b (s.core f).pbuf) with reqs := s.reqs }, ?_, ?_, fun k => (hdie2 k).trans (hdie1 k), fun k => ?_⟩
  · change execBlockEnd c b s = _
    unfold execBlockEnd
    simp only [hplaced, if_neg hcondition, hsave, hwbf, List.foldl_nil, hs2, State.setCtx_reqs, horphans]
    rfl
  · rw [hrest2, ← hs1]
    rfl
  · refine (State.ctx_setCtx ..).trans ?_
    rw [hctx2, hctx2]
    exact ite_congr rfl (fun hk => by rw [hk]) fun _ => rfl

end Sys2Proof.Machine
end

