-- ==== Sys2Proof/Proofs/Homes.lean ====
section
/-! Writes at a home whose slices hold the lines: nothing makes room, and each tryte reads as its last write (R110, R112). -/

namespace Sys2Proof.Machine

theorem half_54 : half 54 = 3 * half 53 + 1 := by
  have h : half 54 = half 1 + pow3 1 * half 53 := half_add 1 53
  have hpow : pow3 1 = 3 := by decide
  have hhalf : half 1 = 1 := by decide
  rw [h, hpow, hhalf, add_comm]

theorem unKey_ikey {x : Int} (hx : -half 54 ≤ x) : unKey (ikey x) = x := by
  unfold unKey ikey
  omega

theorem neg_half_le_of_shr {x : Int} {m n : Nat} (hx : -half n ≤ shr x m) : -half (m + n) ≤ x := by
  have hsplit := wrap_add_pow3_mul_shr x m
  have hlow := (abs_le.mp (abs_wrap_le x m)).1
  have hhigh := mul_le_mul_of_nonneg_left hx (pow3_pos m).le
  rw [half_add]
  rw [mul_neg] at hhigh
  omega

/-- A line that a table of sectors can list has sectors that it can list. -/
theorem secOf_listed {p : Int} (k : Nat) (hk : shr (unKey k) 1 = lineOf p) : -half 54 ≤ secOf p := by
  have hkey : -half 54 ≤ unKey k := by
    unfold unKey
    omega
  have hline : -half 53 ≤ shr (unKey k) 1 := by
    have hpow : pow3 1 = 3 := by decide
    have hhalf : half 1 = 1 := by decide
    have h54 := half_54
    rw [shr, hpow, hhalf]
    omega
  refine neg_half_le_of_shr (m := 1) (n := 53) ?_
  rw [secOf, shr_shr]
  rwa [hk] at hline

theorem Tab.mem_put_self {α : Type} (k : Nat) (v : α) (t : Tab α) : (k, v) ∈ Tab.put k v t := by
  induction t with
  | nil => exact List.mem_singleton_self _
  | cons p t ih =>
    rw [Tab.put]
    split
    · exact List.mem_cons_self
    · split
      · exact List.mem_cons_self
      · exact List.mem_cons_of_mem _ ih

theorem Tab.mem_put_of_mem {α : Type} {k : Nat} {v : α} {t : Tab α} {p : Nat × α} (hp : p ∈ t) (hk : p.1 ≠ k) : p ∈ Tab.put k v t := by
  induction t with
  | nil => cases hp
  | cons q t ih =>
    rw [Tab.put]
    split
    · exact List.mem_cons_of_mem _ hp
    · split
      · next heq =>
        rcases List.mem_cons.mp hp with rfl | hp
        · exact absurd heq.symm hk
        · exact List.mem_cons_of_mem _ hp
      · rcases List.mem_cons.mp hp with rfl | hp
        · exact List.mem_cons_self
        · exact List.mem_cons_of_mem _ (ih hp)

/-- A line that its slice holds needs no room (R110). -/
theorem State.l2Room_eq {s : State} {own sl : Nat} {ln : Int} (h : ∃ p ∈ (s.dieSt own).l2, p.2.slice = sl ∧ p.1 % 2 = 0 ∧ shr (unKey (p.1 / 2)) 1 = ln) :
    s.l2Room own sl ln false = s := by
  obtain ⟨p, hp, hslice, heven, hline⟩ := h
  have hmem : ((ln, false), p.2.stamp) ∈ s.l2Set own sl ln := by
    refine List.mem_filterMap.mpr ⟨p, List.mem_filter.mpr ⟨hp, decide_eq_true hslice⟩, ?_⟩
    change (if offF (shr (unKey (p.1 / 2)) 1) 0 7 = offF ln 0 7 then some ((shr (unKey (p.1 / 2)) 1, decide (p.1 % 2 = 1)), p.2.stamp)
      else none) = _
    rw [hline, if_pos rfl, heven]
    rfl
  have hheld : ((s.l2Set own sl ln).map (·.1)).dedup.contains (ln, false) = true := by
    rw [List.contains_iff_mem, List.mem_dedup]
    exact List.mem_map_of_mem (f := (·.1)) hmem
  unfold State.l2Room
  simp only [hheld, Bool.true_or, if_true]

/-- One tryte of a list of writes at its home. -/
def State.putTryte (s : State) (own ctx : Nat) (sl : Int → Nat) (p v : Int) : State :=
  s.setSec own (secOf p) false { tr := Tab.put (secPos p) { written := true, val := wrap v 9 : LTryte } (s.sec own (secOf p) false).tr
                                 ctx := ctx, slice := sl (lineOf p), stamp := s.stamp }

theorem State.homePut_cons {s : State} {own ctx : Nat} {sl : Int → Nat} {ls : List Int} {p v : Int} {tr : List (Int × Int)} (hl2 : s.l2Has own sl ls)
    (hp : lineOf p ∈ ls) : s.homePut own false ctx ((p, v) :: tr) sl = (s.putTryte own ctx sl p v).homePut own false ctx tr sl := by
  simp only [State.homePut, List.foldl_cons, State.l2Room_eq (hl2 _ hp)]
  rfl

theorem Tab.put_ne_nil {α : Type} (k : Nat) (v : α) (t : Tab α) : Tab.put k v t ≠ [] :=
  List.ne_nil_of_mem (Tab.mem_put_self k v t)

/-- The sector that a write of one tryte leaves (R112). -/
def State.putSec (s : State) (own ctx : Nat) (sl : Int → Nat) (p v : Int) : L2Sec :=
  { tr := Tab.put (secPos p) { written := true, val := wrap v 9 : LTryte } (s.sec own (secOf p) false).tr
    ctx := ctx, slice := sl (lineOf p), stamp := s.stamp }

theorem State.putTryte_eq (s : State) (own ctx : Nat) (sl : Int → Nat) (p v : Int) : s.putTryte own ctx sl p v =
    s.setDie own { s.dieSt own with l2 := Tab.put (l2Key (secOf p) false) (s.putSec own ctx sl p v) (s.dieSt own).l2 } := by
  have hne : s.putSec own ctx sl p v ≠ {} := fun h => Tab.put_ne_nil _ _ _ (congrArg L2Sec.tr h)
  change s.setDie own { s.dieSt own with l2 := Tab.set {} (l2Key (secOf p) false) (s.putSec own ctx sl p v) (s.dieSt own).l2 } = _
  rw [Tab.set, if_neg hne]

theorem l2Key_false_mod (k : Int) : l2Key k false % 2 = 0 := by
  simp [l2Key]

theorem l2Key_false_div (k : Int) : l2Key k false / 2 = ikey k := by
  simp [l2Key]

/-- A write keeps every line in its slice. -/
theorem State.l2Has_putTryte {s : State} {own ctx : Nat} {sl : Int → Nat} {ls : List Int} {p v : Int} (hl2 : s.l2Has own sl ls)
    (hp : lineOf p ∈ ls) : (s.putTryte own ctx sl p v).l2Has own sl ls := by
  obtain ⟨q, _, _, _, hq⟩ := hl2 _ hp
  have hline : shr (unKey (ikey (secOf p))) 1 = lineOf p := by
    rw [unKey_ikey (secOf_listed _ hq), secOf, shr_shr]
    rfl
  intro ln hln
  rw [State.putTryte_eq, State.dieSt_setDie_self]
  obtain ⟨r, hr, hslice, heven, hrline⟩ := hl2 ln hln
  by_cases hkey : r.1 = l2Key (secOf p) false
  · refine ⟨_, Tab.mem_put_self _ _ _, ?_, l2Key_false_mod _, ?_⟩
    · rw [hkey, l2Key_false_div, hline] at hrline
      rw [← hrline]
      rfl
    · rw [← hrline, hkey]
  · exact ⟨r, Tab.mem_put_of_mem hr hkey, hslice, heven, hrline⟩

/-- A tryte is its sector and its place there. -/
theorem eq_of_secOf_of_secPos {a p : Int} (hsec : secOf a = secOf p) (hpos : secPos a = secPos p) : a = p := by
  have hlow : wrap a 3 = wrap p 3 := by
    have ha := offF_eq a 0 3
    have hp := offF_eq p 0 3
    simp only [fld, shr_zero] at ha hp
    unfold secPos at hpos
    omega
  rw [← wrap_add_pow3_mul_shr a 3, ← wrap_add_pow3_mul_shr p 3, hlow]
  exact congrArg (wrap p 3 + pow3 3 * ·) hsec

theorem State.readSec_congr {s t : State} (hmem : t.mem = s.mem) (hbad : t.bad = s.bad) (own : Nat) (k : Int) (cmp : Bool) :
    t.readSec own k cmp = s.readSec own k cmp := by
  have hatom : t.atom = s.atom := by
    funext j i
    simp only [State.atom, State.bytes, State.byte, hmem]
  have hchunk : t.chunkAtoms = s.chunkAtoms := by
    funext j i
    rw [State.chunkAtoms, State.chunkAtoms, hatom]
  unfold State.readSec
  rw [hatom, hchunk, hbad]

theorem State.homeTryte_congr {s t : State} {own : Nat} (hl2 : (t.dieSt own).l2 = (s.dieSt own).l2) (hmem : t.mem = s.mem) (hbad : t.bad = s.bad)
    (a : Int) : t.homeTryte own a false = s.homeTryte own a false := by
  rw [State.homeTryte, State.homeTryte, State.readSec_congr hmem hbad, State.sec, State.sec, hl2]

theorem State.sec_putTryte (s : State) (own ctx : Nat) (sl : Int → Nat) (p v k : Int) : (s.putTryte own ctx sl p v).sec own k false =
    if l2Key k false = l2Key (secOf p) false then s.putSec own ctx sl p v else s.sec own k false := by
  rw [State.putTryte_eq, State.sec, State.dieSt_setDie_self, Tab.get_put]
  rfl

theorem l2Key_false_inj {j k : Int} (hj : -half 54 ≤ j) (hk : -half 54 ≤ k) : l2Key j false = l2Key k false ↔ j = k := by
  refine ⟨fun h => ?_, fun h => by rw [h]⟩
  have hkey : ikey j = ikey k := by rw [← l2Key_false_div, ← l2Key_false_div, h]
  rw [← unKey_ikey hj, ← unKey_ikey hk, hkey]

theorem neg_half_le_secOf {a : Int} (ha : |a| ≤ half 47) : -half 54 ≤ secOf a := by
  have hsec : |secOf a| ≤ half 44 := abs_shr_le (m := 3) (n := 44) ha
  have hle : half 44 ≤ half 54 := by decide
  have hlow := (abs_le.mp hsec).1
  omega

/-- What a tryte of the home reads after a write. -/
theorem State.homeTryte_putTryte {s : State} {own ctx : Nat} {sl : Int → Nat} {ls : List Int} {p v : Int} (hl2 : s.l2Has own sl ls)
    (hp : lineOf p ∈ ls) {a : Int} (ha : |a| ≤ half 47) :
    (s.putTryte own ctx sl p v).homeTryte own a false = if p = a then wrap v 9 else s.homeTryte own a false := by
  obtain ⟨q, _, _, _, hq⟩ := hl2 _ hp
  have hread := State.readSec_congr (s := s) (t := s.putTryte own ctx sl p v) rfl rfl own (secOf a) false
  rw [State.homeTryte, hread, State.sec_putTryte, if_congr (l2Key_false_inj (neg_half_le_secOf ha) (secOf_listed _ hq)) rfl rfl]
  by_cases hsec : secOf a = secOf p
  · rw [if_pos hsec, State.putSec]
    simp only [Tab.find_put]
    by_cases hpos : secPos a = secPos p
    · rw [if_pos (eq_of_secOf_of_secPos hsec hpos).symm, if_pos hpos]
      rfl
    · rw [if_neg (fun h : p = a => hpos (h ▸ rfl)), if_neg hpos, ← hsec]
      rfl
  · rw [if_neg hsec, if_neg (fun h : p = a => hsec (h ▸ rfl))]
    rfl

/-- A list of writes to lines that their slices hold: each tryte reads as its last write (R112). -/
theorem State.homePut_spec {own ctx : Nat} {sl : Int → Nat} {ls : List Int} {tr : List (Int × Int)} (htr : ∀ q ∈ tr, lineOf q.1 ∈ ls) {s : State}
    (hl2 : s.l2Has own sl ls) : ∃ t, s.homePut own false ctx tr sl = t ∧ t = { s with die := t.die } ∧
      (∀ k, t.dieSt k = if k = own then { s.dieSt k with l2 := (t.dieSt own).l2 } else s.dieSt k) ∧
      ∀ a, |a| ≤ half 47 → t.homeTryte own a false = afterPuts tr a (s.homeTryte own a false) := by
  induction tr generalizing s with
  | nil =>
    refine ⟨s, rfl, rfl, fun k => ?_, fun _ _ => rfl⟩
    split
    · next hk => rw [hk]
    · rfl
  | cons q tr ih =>
    obtain ⟨hq, htr⟩ := List.forall_mem_cons.mp htr
    obtain ⟨t, ht, hrest, hdie, hread⟩ := ih htr (State.l2Has_putTryte hl2 hq (ctx := ctx) (v := q.2))
    refine ⟨t, (State.homePut_cons hl2 hq).trans ht, ?_, fun k => ?_, fun a ha => ?_⟩
    · rw [hrest]
      rfl
    · rw [hdie, State.putTryte_eq, State.dieSt_setDie]
      split
      · next hk => rw [hk]
      · rfl
    · rw [hread a ha, State.homeTryte_putTryte hl2 hq ha]
      rfl

end Sys2Proof.Machine
end

