-- ==== Sys2Proof/Proofs/Completion.lean ====
section
/-! The completion of a context (R446). -/

namespace Sys2Proof.Machine

/-! The atomic add at cmpa. -/

/-- Trytes that the slice holds need no fill (R112). -/
theorem State.fillFor_of_has {s : State} {own : Nat} {pas : List Int} (h : s.secHas own pas false = true) (ctx die : Nat) (sl : Int → Nat) :
    s.fillFor own pas false ctx die sl = (s, []) := by
  unfold State.fillFor
  induction pas with
  | nil => rfl
  | cons a pas ih =>
    simp only [State.secHas, List.all_cons, Bool.and_eq_true] at h
    have hone : s.secHas own [a] false = true := by simpa [State.secHas] using h.1
    rw [List.foldl_cons]
    simp only [hone, if_true]
    exact ih h.2

theorem State.wrote_spec (s : State) (own : Nat) (ln : Int) : s.wrote own ln = { s with die := (s.wrote own ln).die } ∧
    ∀ k, (s.wrote own ln).dieSt k = { s.dieSt k with lines := ((s.wrote own ln).dieSt k).lines } := by
  refine ⟨rfl, fun k => ?_⟩
  rw [State.wrote, State.setHline, State.dieSt_setDie]
  split
  · next hk => rw [hk]
  · rfl

/-- What the add of 1 at cmpa leaves where its page is cached, its line free and its trytes at hand. -/
theorem State.addCmpa_spec {s : State} {c : Nat} {l : Leaf} {ea : Int} {own : Nat} {pa : Int} (hea : (s.ctx c).lr.cmpa = ea) (hown : ownerOf ea = own)
    (hpa : l.phys (offOf ea) = pa) (hset : ea ≠ 0) (hcached : s.cached own c 0 (offOf ea) l) (hfree : s.lineHeld own (lineOf pa) = false)
    (hhas : s.secHas own (covers .wd pa) false = true) (hl2 : s.l2Has own (l.slices own) ((covers .wd pa).map lineOf)) :
    ∃ t, s.addCmpa c = some t ∧ t = { s with die := t.die } ∧ (∀ k, (t.dieSt k).seqs = (s.dieSt k).seqs) ∧
      ∀ a, |a| ≤ half 47 → t.homeTryte own a false =
        afterPuts (List.zip (covers .wd pa) (toTrytes 3 (wrap (s.homeVal own pa .wd + 1) 27))) a (s.homeTryte own a false) := by
  obtain ⟨huser, htables, hnear⟩ := hcached
  have hwalk : s.translate own c 0 (offOf ea) = (s, .leaf l) := by
    have hsup : ¬ (isSup c = true ∧ Tab.get 0 (s.dieSt own).roots c = 0) := by simp [huser]
    unfold State.translate
    simp only [htables, if_neg hsup, hnear]
    rfl
  obtain ⟨b, hput, hrest, hdie, hread⟩ := State.homePut_spec (ctx := c) (tr := List.zip (covers .wd pa) (toTrytes 3 (wrap (s.homeVal own pa .wd + 1) 27)))
    (fun q hq => List.mem_map_of_mem (List.of_mem_zip hq).1) hl2
  obtain ⟨hwrote, hlines⟩ := b.wrote_spec own (lineOf pa)
  obtain ⟨t, ht⟩ : ∃ t, b.wrote own (lineOf pa) = t := ⟨_, rfl⟩
  rw [ht] at hwrote hlines
  refine ⟨t, ?_, ?_, fun k => ?_, fun a ha => ?_⟩
  · subst hown hea hpa
    rw [State.addCmpa]
    simp only [if_neg hset, hwalk, hfree, Bool.false_eq_true, if_false, State.fillFor_of_has hhas, State.homeStore, szLen, hput, ht]
  · rw [hwrote, hrest]
  · rw [hlines, hdie]
    split <;> rfl
  · rw [← hread a ha]
    exact State.homeTryte_congr (by rw [hlines]) (by rw [hwrote]) (by rw [hwrote]) a

/-! What a completed context leaves behind. -/

/-- The sequence registers of a context are closed (R446). -/
def State.dropSeqs (s : State) (c : Nat) : State :=
  { s with die := s.die.map (fun p => (p.1, { p.2 with seqs := p.2.seqs.filter (fun q => decide (q.2.ctx ≠ c)) })) }

theorem State.dropSeqs_l2 (s : State) (c k : Nat) : ((s.dropSeqs c).dieSt k).l2 = (s.dieSt k).l2 :=
  have hmap := Tab.get_map (fun (x : DieSt) => { x with seqs := x.seqs.filter (fun q => decide (q.2.ctx ≠ c)) }) (z := {}) rfl s.die k
  (congrArg DieSt.l2 hmap :)

/-- Without requests and open sequences nothing waits for a number (R249). -/
theorem State.endTickets_spec {s : State} {c : Nat} (hreqs : ∀ r ∈ s.reqs, r.ctx ≠ c) (hseqs : ∀ k, (s.dieSt k).seqs = []) :
    ∃ t, s.endTickets c = t ∧ t = { s with die := t.die } ∧ ∀ k, (t.dieSt k).l2 = (s.dieSt k).l2 := by
  obtain ⟨a, ha, hrest, hdie⟩ := State.foldl_passDrawn hseqs c (fun _ => true) s.die
  have hnone : ∀ q : Req → Bool, s.reqs.filter (fun r => decide (r.ctx = c) && q r) = [] := fun q =>
    List.filter_eq_nil_iff.mpr fun r hr => by simp [hreqs r hr]
  have hsame : ∀ (q : Req → Bool) (f : Req → Req), s.reqs.map (fun r => if (decide (r.ctx = c) && q r) = true then f r else r) = s.reqs :=
    fun q f => (List.map_congr_left (g := id) fun r hr => if_neg (by simp [hreqs r hr])).trans (List.map_id _)
  have hkept : a.reqs = s.reqs := by rw [hrest]
  refine ⟨_, rfl, ?_⟩
  have hrun : s.endTickets c = a.dropSeqs c := by
    unfold State.endTickets
    simp only [Bool.and_assoc, hsame]
    rw [show s.die.foldl _ { s with reqs := s.reqs } = a from ha, hkept, hnone, List.mergeSort_nil, List.foldl_nil]
    rfl
  rw [hrun]
  refine ⟨?_, fun k => ?_⟩
  · rw [State.dropSeqs, hrest]
  · rw [State.dropSeqs_l2, hdie]

theorem State.endQueued_spec (s : State) (c : Nat) : s.endQueued c = { s with die := (s.endQueued c).die } ∧
    ∀ k, ((s.endQueued c).dieSt k).l2 = (s.dieSt k).l2 := by
  refine ⟨rfl, fun k => ?_⟩
  have hmap := Tab.get_map (fun (x : DieSt) => { x with queue := x.queue.filter (fun q => decide (q.ctx ≠ c)) }) (z := {}) rfl s.die k
  exact (congrArg DieSt.l2 hmap :)

/-- The completion of a context all of whose work is done, its address cmpa at hand at its home (R446). -/
theorem contextCompletion_spec {s : State} {c : Nat} {l : Leaf} {ea : Int} {own : Nat} {pa : Int} (hea : (s.ctx c).lr.cmpa = ea)
    (hown : ownerOf ea = own) (hpa : l.phys (offOf ea) = pa) (huser : isSup c = false) (hlive : (s.ctx c).live = true)
    (hgoes : (s.ctx c).killing = false) (hended : ∀ p ∈ (s.ctx c).blk, p.2 = .ended) (hreqs : ∀ r ∈ s.reqs, r.ctx ≠ c)
    (hpend : (s.ctx c).pend = []) (htime : ∀ d ∈ (s.ctx c).lr.dies, (s.ctx c).rtN ≤ (s.dieSt (s.ownKey d)).clk)
    (hseqs : ∀ p ∈ s.die, p.2.seqs = []) (hset : ea ≠ 0) (hcached : s.cached own c 0 (offOf ea) l)
    (hfree : s.lineHeld own (lineOf pa) = false) (hhas : s.secHas own (covers .wd pa) false = true)
    (hl2 : s.l2Has own (l.slices own) ((covers .wd pa).map lineOf)) :
    ∃ t, exec (.contextCompletion c) s = .next t ∧ t = { s with die := t.die, ctxs := t.ctxs, bars := t.bars } ∧
      (∀ k, t.ctx k = if k = c then { part := (s.ctx c).part, counters := (s.ctx c).counters } else s.ctx k) ∧
      ∀ a, |a| ≤ half 47 → t.homeTryte own a false =
        afterPuts (List.zip (covers .wd pa) (toTrytes 3 (wrap (s.homeVal own pa .wd + 1) 27))) a (s.homeTryte own a false) := by
  obtain ⟨s1, hadd, hrest1, hseqs1, hread1⟩ := State.addCmpa_spec hea hown hpa hset hcached hfree hhas hl2
  have hreqs1 : s1.reqs = s.reqs := by rw [hrest1]
  obtain ⟨s2, hs2, hrest2, hl2same⟩ := s1.endTickets_spec (c := c) (hreqs1.symm ▸ hreqs)
    fun k => (hseqs1 k).trans (State.seqs_of_all hseqs k)
  obtain ⟨s3, hs3⟩ : ∃ s3, s2.endBars c = s3 := ⟨_, rfl⟩
  have hrest3 : s3 = { s2 with bars := s3.bars } := hs3 ▸ rfl
  obtain ⟨hrest4, hl2queue⟩ := s3.endQueued_spec c
  obtain ⟨s4, hs4⟩ : ∃ s4, s3.endQueued c = s4 := ⟨_, rfl⟩
  rw [hs4] at hrest4 hl2queue
  have hdie3 : s3.die = s2.die := by rw [hrest3]
  have hrest : s4 = { s with die := s4.die, bars := s4.bars } := by rw [hrest4, hrest3, hrest2, hrest1]
  have hctx : ∀ k, s4.ctx k = s.ctx k := State.ctx_congr (by rw [hrest])
  have hcondition : ¬ (isSup c = true ∨ (!(s.ctx c).live) = true ∨ (s.ctx c).killing = true ∨
      (!((s.ctx c).blk.all (fun p => decide (p.2 = .ended)))) = true ∨ s.reqs.any (fun r => decide (r.ctx = c)) = true ∨
      (!(s.ctx c).pend.isEmpty) = true ∨
      (!((s.ctx c).lr.dies.all (fun d => decide ((s.ctx c).rtN ≤ (s.dieSt (s.ownKey d)).clk)))) = true) := by
    simpa [huser, hlive, hgoes, hpend] using ⟨fun k x hx => hended (k, x) hx, hreqs, htime⟩
  refine ⟨s4.endCtx c, ?_, ?_, fun k => ?_, fun a ha => ?_⟩
  · change execContextCompletion c s = _
    unfold execContextCompletion
    simp only [if_neg hcondition, hadd, hs2, hs3, hs4]
  · rw [State.endCtx, hrest]
    rfl
  · rw [State.endCtx, State.ctx_setCtx, hctx, hctx]
  · rw [← hread1 a ha]
    refine (State.homeTryte_congr (s := s1) ?_ ?_ ?_ a)
    · exact (hl2queue own).trans ((congrArg DieSt.l2 (State.dieSt_congr hdie3 own)).trans (hl2same own))
    · exact (by rw [hrest4, hrest3, hrest2] : s4.mem = s1.mem)
    · exact (by rw [hrest4, hrest3, hrest2] : s4.bad = s1.bad)

end Sys2Proof.Machine
end

section
/-! The life of a block, from eligibility to the completion of its context (R61, R70, R446-R448). -/

namespace Sys2Proof.Machine

/-- What a block's entry into its placement queue leaves (R446). -/
theorem State.enqueue_spec (s : State) (d c b : Nat) :
    s.enqueue d c b false = { s with die := (s.enqueue d c b false).die, ctxs := (s.enqueue d c b false).ctxs } ∧
    (∀ k, (s.enqueue d c b false).ctx k = if k = c then { s.ctx k with blk := Tab.put b .queued (s.ctx k).blk } else s.ctx k) ∧
    ∀ k, (s.enqueue d c b false).dieSt k = if k = s.ownKey d then
      { s.dieSt k with queue := (s.dieSt k).queue ++ [{ ctx := c, bid := b, since := (s.dieSt k).clk, resume := false }] } else s.dieSt k := by
  refine ⟨rfl, fun k => State.ctx_setBlk _ c b _ k, fun k => ?_⟩
  refine (State.dieSt_setDie ..).trans ?_
  split
  · next hk => rw [hk]
  · rfl

/-- What the start of a block's warps leaves (R61, R442). -/
theorem State.startFirst_placed_spec (s : State) (c b f : Nat) (hn : (s.ctx c).lr.warps ≤ 27) :
    ∃ t, (s.startFirst f (s.initWarp c b) (s.initThread c) (s.ctx c).lr.warps).setBlk c b (.placed f) = t ∧
    t = { s with thr := t.thr, wrp := t.wrp, ctxs := t.ctxs } ∧
    (∀ k, t.ctx k = if k = c then { s.ctx k with blk := Tab.put b (.placed f) (s.ctx k).blk } else s.ctx k) ∧
    (∀ i, i < (s.ctx c).lr.warps → t.warp (startSlot f i) = s.initWarp c b i ∧ ∀ u, warpOf u = startSlot f i → t.thread u = s.initThread c) ∧
    ∀ w, (∀ i, i < (s.ctx c).lr.warps → w ≠ startSlot f i) → t.warp w = s.warp w ∧ ∀ u, warpOf u = w → t.thread u = s.thread u := by
  have hstart := s.startFirst_spec f (s.initWarp c b) (s.initThread c) hn
  obtain ⟨a, ha⟩ : ∃ a, s.startFirst f (s.initWarp c b) (s.initThread c) (s.ctx c).lr.warps = a := ⟨_, rfl⟩
  rw [ha] at hstart ⊢
  obtain ⟨hrest, hon, hoff⟩ := hstart
  have hctx : ∀ k, a.ctx k = s.ctx k := State.ctx_congr (by rw [hrest])
  refine ⟨_, rfl, ?_, fun k => ?_, hon, hoff⟩
  · rw [State.setBlk, State.setCtx, hrest]
  · rw [State.ctx_setBlk, hctx]

/-- The threads of a slot. -/
theorem warpOf_mul_add {w l : Nat} (hl : l < 16) : warpOf (16 * w + l) = w := by
  unfold warpOf
  omega

/-- Settles O48, event by event: what the dispatcher, the start, the end of a block and the completion of its context each leave. -/
theorem blockLife : Obligations.BlockLife := by
  unfold Obligations.BlockLife
  refine ⟨fun s c b m d hwait hlive hgoes hdie hmet => ?_,
    fun s d e cl f fs hqueue hnew hdet hgroup hqueued hgoes hcl hfree hfewest => ?_,
    fun s c b f htaken hgoes hn => ?_,
    fun s c b f hplaced huser hover hclean hwbf hseqs hreqs => ?_,
    fun s c l huser hlive hgoes hended hreqs hpend htime hseqs hset hcached hfree hhas hl2 => ?_⟩
  · exact ⟨_, exec_blockEligible hwait hlive hgoes hdie hmet, s.enqueue_spec d c b⟩
  · exact ⟨_, exec_placement_lone hqueue hnew hdet hgroup hqueued hgoes hcl hfree hfewest, s.takeCore_spec e.ctx e.bid f⟩
  · obtain ⟨t, ht, hrest, hctx, hon, hoff⟩ := s.startFirst_placed_spec c b f hn
    refine ⟨t, (exec_blockStart htaken hgoes).trans (by rw [ht]), hrest, hctx, fun i hi => ⟨(hon i hi).1, fun l hl => ?_⟩, hoff⟩
    have hthread : t.thread (16 * (28 * f + 9 * (i % 3) + i / 3) + l) = s.initThread c := (hon i hi).2 _ (warpOf_mul_add hl)
    rw [hthread]
    exact ⟨rfl, get_startRegs _⟩
  · obtain ⟨a, hrun, hrest, hdie, hctx⟩ := blockEnd_spec hplaced huser hover hclean hwbf hseqs hreqs
    obtain ⟨hclear, hcore, hthr, hwarp⟩ := a.clearCore_spec f
    obtain ⟨t, ht⟩ : ∃ t, a.clearCore f = t := ⟨_, rfl⟩
    rw [ht] at hrun hclear hcore hthr hwarp
    have hcore0 : ∀ k, a.core k = s.core k := State.core_congr (by rw [hrest])
    have hthr0 : ∀ u, a.thread u = s.thread u := State.thread_congr (by rw [hrest])
    have hwarp0 : ∀ w, a.warp w = s.warp w := State.warp_congr (by rw [hrest])
    have hdie0 : ∀ k, t.dieSt k = a.dieSt k := State.dieSt_congr (by rw [hclear])
    have hctx0 : ∀ k, t.ctx k = a.ctx k := State.ctx_congr (by rw [hclear])
    refine ⟨t, hrun, ?_, fun k => ?_, fun u => ?_, fun w => ?_, fun k => ?_, fun k => ?_⟩
    · rw [hclear, hrest]
    · rw [hcore, hcore0, hcore0]
    · rw [hthr, hthr0]
    · rw [hwarp, hwarp0]
    · rw [hdie0, hdie]
    · rw [hctx0, hctx, Ctx.endBlk]
      simp only [List.isEmpty_iff]
  · exact contextCompletion_spec rfl rfl rfl huser hlive hgoes hended hreqs hpend htime hseqs hset hcached hfree hhas hl2

end Sys2Proof.Machine
end

