-- ==== Sys2Proof/Proofs/Lines.lean ====
section
/-! The lines of a core's L1 (R106-R109, R126): one line set, filled, cleaned or written back, and the others as they were. -/

namespace Sys2Proof.Machine

/-! One line. -/

/-- Only one line of one core's L1 has changed in the cores. -/
structure OnlyLine (s t : State) (c : Nat) (line : Int) : Prop where
  others : ∀ e, e ≠ c → t.core e = s.core e
  self : t.core c = { s.core c with l1 := (t.core c).l1 }
  lines : ∀ j, j ≠ ikey line → Tab.find (t.core c).l1 j = Tab.find (s.core c).l1 j

theorem OnlyLine.of_cor {s a t : State} {c : Nat} {line : Int} (h : OnlyLine s a c line) (hcor : t.cor = a.cor) : OnlyLine s t c line := by
  have hcore : ∀ e, t.core e = a.core e := State.core_congr hcor
  refine ⟨fun e he => ?_, ?_, fun j hj => ?_⟩
  · rw [hcore, h.others e he]
  · rw [hcore, ← h.self]
  · rw [hcore, h.lines j hj]

theorem OnlyLine.refl (s : State) (c : Nat) (line : Int) : OnlyLine s s c line := ⟨fun _ _ => rfl, rfl, fun _ _ => rfl⟩

theorem OnlyLine.trans {s a t : State} {c : Nat} {line : Int} (h : OnlyLine s a c line) (h' : OnlyLine a t c line) : OnlyLine s t c line :=
  ⟨fun e he => (h'.others e he).trans (h.others e he), h'.self.trans (by rw [h.self]), fun j hj => (h'.lines j hj).trans (h.lines j hj)⟩

/-- A line without trytes is listed no longer. -/
theorem State.find_setL1 (s : State) (c : Nat) (line : Int) (x : L1Line) (j : Nat) :
    Tab.find ((s.setL1 c line x).core c).l1 j =
      if j = ikey line then (if x.tr = [] then none else some x) else Tab.find (s.core c).l1 j := by
  rw [State.setL1, State.core_setCore_self]
  by_cases hx : x.tr = []
  · simp [hx, Tab.find_del]
  · simp [hx, Tab.find_put]

theorem State.setL1_onlyLine (s : State) (c : Nat) (line : Int) (x : L1Line) : OnlyLine s (s.setL1 c line x) c line := by
  refine ⟨fun e he => ?_, ?_, fun j hj => ?_⟩
  · rw [State.setL1, State.core_setCore, if_neg he]
  · rw [State.setL1, State.core_setCore_self]
  · rw [State.find_setL1, if_neg hj]

theorem State.l1_setL1 {x : L1Line} (hx : x.tr ≠ []) (s : State) (c : Nat) (line : Int) : (s.setL1 c line x).l1 c line = x :=
  Tab.get_of_find _ _ _ _ (by rw [State.find_setL1, if_pos rfl, if_neg hx])

theorem State.l1_setL1_tr (s : State) (c : Nat) (line : Int) (x : L1Line) : ((s.setL1 c line x).l1 c line).tr = x.tr := by
  by_cases hx : x.tr = []
  · rw [State.l1, Tab.get_of_find_none _ _ _ (by rw [State.find_setL1, if_pos rfl, if_pos hx]), hx]
  · rw [State.l1_setL1 hx]

/-! Fills (R108, R125). -/

/-- One tryte of a fill enters a line's trytes. -/
def fillTryte (t : Tab LTryte) (q : Nat × Int) : Tab LTryte :=
  match Tab.find t q.1 with
  | some o => if o.written then t else Tab.put q.1 { written := false, val := q.2 } t
  | none => Tab.put q.1 { written := false, val := q.2 } t

theorem find_fillTryte (t : Tab LTryte) (q : Nat × Int) (p : Nat) : Tab.find (fillTryte t q) p =
    if p = q.1 then fillOver (Tab.find t p) (some { written := false, val := q.2 }) else Tab.find t p := by
  unfold fillTryte
  cases hold : Tab.find t q.1 with
  | none =>
    rw [Tab.find_put]
    split
    · next hp => rw [hp, hold]; rfl
    · rfl
  | some o =>
    by_cases hwritten : o.written = true
    · simp only [if_pos hwritten]
      split
      · next hp => rw [hp, hold]; exact (if_pos hwritten).symm
      · rfl
    · simp only [if_neg hwritten, Tab.find_put]
      split
      · next hp => rw [hp, hold]; exact (if_neg hwritten).symm
      · rfl

theorem fillOver_none (old : Option LTryte) : fillOver old none = old := by cases old <;> rfl

theorem fillTrytes_eq_none {tr : Tab Int} {p : Nat} (hp : p ∉ tr.map (·.1)) : fillTrytes tr p = none := by
  unfold fillTrytes
  induction tr with
  | nil => rfl
  | cons q tr ih =>
    obtain ⟨hne, hp⟩ := not_or.mp (fun h => hp (List.mem_cons.mpr h))
    rw [Tab.find, if_neg (Ne.symm hne)]
    exact ih hp

/-- A fill that names each tryte once (R108). -/
theorem find_foldl_fillTryte {tr : Tab Int} (hnodup : (tr.map (·.1)).Nodup) (t : Tab LTryte) (p : Nat) :
    Tab.find (tr.foldl fillTryte t) p = fillOver (Tab.find t p) (fillTrytes tr p) := by
  induction tr generalizing t with
  | nil => exact (fillOver_none _).symm
  | cons q tr ih =>
    obtain ⟨hq, htr⟩ := List.nodup_cons.mp hnodup
    rw [List.foldl_cons, ih htr, find_fillTryte]
    by_cases hp : p = q.1
    · subst hp
      rw [if_pos rfl, fillTrytes_eq_none hq, fillOver_none, fillTrytes, Tab.find, if_pos rfl]
      rfl
    · rw [if_neg hp, fillTrytes, fillTrytes, Tab.find, if_neg (Ne.symm hp)]

/-- A fill leaves trytes in its line. -/
theorem foldl_fillTryte_ne_nil {tr : Tab Int} (hnodup : (tr.map (·.1)).Nodup) (htr : tr ≠ []) (t : Tab LTryte) : tr.foldl fillTryte t ≠ [] := by
  obtain ⟨q, more, rfl⟩ := List.exists_cons_of_ne_nil htr
  intro hnil
  have hfind := find_foldl_fillTryte hnodup t q.1
  rw [hnil, Tab.find_nil, fillTrytes, Tab.find, if_pos rfl] at hfind
  cases hold : Tab.find t q.1 with
  | none => simp [hold, fillOver] at hfind
  | some o => cases hw : o.written <;> simp [hold, hw, fillOver] at hfind

theorem Tab.get_foldl_put {α : Type} (z v : α) (ks : List Nat) (t : Tab α) (j : Nat) :
    Tab.get z (ks.foldl (fun a k => Tab.put k v a) t) j = if j ∈ ks then v else Tab.get z t j := by
  induction ks generalizing t with
  | nil => simp
  | cons k ks ih =>
    rw [List.foldl_cons, ih, Tab.get_put]
    by_cases hj : j ∈ ks
    · simp [hj]
    · simp [hj]

/-- What a fill leaves of its line: the trytes that were written and its own, its sectors under its lease (R108, R125). -/
theorem State.l1Place_spec {tr : Tab Int} (hnodup : (tr.map (·.1)).Nodup) (htr : tr ≠ []) (s : State) (c : Nat) (line : Int) (secs : List Nat)
    (e : LEnd) (g : Int) : ∃ t, s.l1Place c line tr secs e g = t ∧ t = { s with cor := t.cor } ∧ OnlyLine s t c line ∧
      (∀ p, Tab.find (t.l1 c line).tr p = fillOver (Tab.find (s.l1 c line).tr p) (fillTrytes tr p)) ∧
      ∀ k ∈ secs, Tab.get .none_ (t.l1 c line).ends k = e := by
  have hplace : s.l1Place c line tr secs e g = s.setL1 c line { s.l1 c line with
      tr := tr.foldl fillTryte (s.l1 c line).tr, ends := secs.foldl (fun a k => Tab.put k e a) (s.l1 c line).ends
      grant := secs.foldl (fun a k => Tab.put k g a) (s.l1 c line).grant, stamp := s.stamp } := rfl
  refine ⟨_, hplace, rfl, s.setL1_onlyLine .., fun p => ?_, fun k hk => ?_⟩
  · rw [State.l1_setL1_tr]
    exact find_foldl_fillTryte hnodup _ p
  · rw [State.l1_setL1 (foldl_fillTryte_ne_nil hnodup htr _)]
    exact (Tab.get_foldl_put ..).trans (if_pos hk)

theorem exec_l1Fill_pref {s : State} {id : Nat} {r : Req} {l : Lease} {tr : Tab Int} {e : LEnd} {g : Int} (hreq : s.req id = some r)
    (hkind : r.kind = .pref l) (hstage : r.stage = .filled tr e g) (harrived : s.arrived r = true) (hbefore : s.fillBefore r g = false)
    (hroom : s.l1Room r.core r.warp (lineOf r.t) = s) :
    exec (.l1Fill id) s = .next ((s.l1Place r.core (lineOf r.t) tr (tr.map (·.1 / 27)).dedup e g).delReq id) := by
  change execL1Fill id s = _
  simp only [execL1Fill, hreq, hkind, hstage, harrived, hbefore, hroom]
  rfl

/-! Leases' ends (R126). -/

/-- A clean tryte is left in a line while its sector is none of those that are cleaned. -/
theorem L1Line.mem_clean (x : L1Line) (secs : List Nat) (p : Nat × LTryte) :
    p ∈ (x.clean secs).tr ↔ p ∈ x.tr ∧ (p.2.written = true ∨ p.1 / 27 ∉ secs) := by
  simp [L1Line.clean]

/-- The sectors of a line whose leases have ended (R126). -/
def State.ended (s : State) (c : Nat) (line : Int) : List Nat :=
  [0, 1, 2].filter (fun k => match Tab.get .none_ (s.l1 c line).ends k with
    | .at_ e => decide (e ≤ s.now c)
    | _ => false)

theorem State.mem_ended {s : State} {c : Nat} {line : Int} {k : Nat} :
    k ∈ s.ended c line ↔ ∃ e, Tab.get .none_ (s.l1 c line).ends k = .at_ e ∧ e ≤ s.now c ∧ k < 3 := by
  have hthree : k ∈ [0, 1, 2] ↔ k < 3 := by
    simp only [List.mem_cons, List.not_mem_nil, or_false]
    omega
  rw [State.ended, List.mem_filter, hthree]
  cases hend : Tab.get .none_ (s.l1 c line).ends k with
  | none_ => simp
  | unlim => simp
  | at_ e => simp [and_comm]

theorem exec_leaseEnd (s : State) (c : Nat) (line : Int) : exec (.leaseEnd c line) s = .next (s.l1Clean c line (s.ended c line)) := rfl

/-! Write-backs (R109, R138). -/

theorem State.wbLine_of_clean {s : State} {c : Nat} {line : Int} (hclean : (s.l1 c line).tr.any (fun p => p.2.written) = false) (w by_ gid : Nat)
    (lanes : List Nat) (pc : Int) : s.wbLine c w line by_ gid lanes pc = s := by
  have hnone : (s.l1 c line).tr.filter (fun p => p.2.written) = [] := by simpa using hclean
  simp [State.wbLine, hnone]

/-- The request that takes an evicted line's written trytes home, with the warps whose stores it holds (R109; DEDUCED, log 56). -/
def State.evictReq (s : State) (c w : Nat) (line : Int) : Req where
  id := 0
  kind := .wb (((s.l1 c line).tr.filter (fun p => p.2.written)).map (fun p => (p.1, p.2.val))) 0
  stage := .home
  ctx := (s.warp w).ctx
  core := c
  warp := w
  lane := 16
  ea := 81 * line
  own := ownerOf (81 * line)
  ws := (s.l1 c line).by_

/-- A line whose written trytes have been sent home: the words that held one are clean without a lease, and so invalid (R109). -/
def L1Line.sent (x : L1Line) : L1Line :=
  { x with tr := x.tr.filter (fun p => !(x.tr.filter (fun q => q.2.written)).any (fun q => decide (q.1 / 3 = p.1 / 3))), by_ := [] }

theorem State.wbLine_of_written {s : State} {c : Nat} {line : Int} (hwritten : (s.l1 c line).tr.any (fun p => p.2.written) = true) (w : Nat) :
    s.wbLine c w line 0 0 [] 0 = ((s.setL1 c line (s.l1 c line).sent).dropFills c line).addReq (s.evictReq c w line) := by
  have hsome : ((s.l1 c line).tr.filter (fun p => p.2.written)).map (fun p => (p.1, p.2.val)) ≠ [] := by simpa using hwritten
  simp only [State.wbLine, List.isEmpty_iff, if_neg hsome]
  rfl

/-- What the write-back of an eviction does: nothing to a line that holds no written tryte; else one request leaves, and fills of the
line that are on their way come to nothing (R109, R128). -/
theorem State.wbLine_evict_spec (s : State) (c w : Nat) (line : Int) : ∃ t, s.wbLine c w line 0 0 [] 0 = t ∧
    t = { s with cor := t.cor, reqs := t.reqs, nextId := t.nextId } ∧ OnlyLine s t c line ∧
    t.reqs = if (s.l1 c line).tr.any (fun p => p.2.written) = false then s.reqs
      else (s.dropFills c line).reqs ++ [s.newReq 0 (s.evictReq c w line)] := by
  by_cases hwritten : (s.l1 c line).tr.any (fun p => p.2.written) = true
  · refine ⟨_, State.wbLine_of_written hwritten w, rfl, (s.setL1_onlyLine c line _).of_cor rfl, ?_⟩
    rw [if_neg (by simp [hwritten])]
    rfl
  · have hclean : (s.l1 c line).tr.any (fun p => p.2.written) = false := by simpa using hwritten
    exact ⟨s, State.wbLine_of_clean hclean .., rfl, .refl .., (if_pos hclean).symm⟩

theorem exec_l1Eviction (s : State) (c : Nat) (line : Int) : exec (.l1Eviction c line) s =
    .next ((s.wbLine c (c * 28 + Tab.get 0 (s.l1 c line).stw 0) line 0 0 [] 0).setL1 c line {}) := rfl

end Sys2Proof.Machine
end

