-- ==== Sys2Proof/Proofs/Replies.lean ====
section
/-! Replies at a core: a request is answered and counts no longer (R158), a load writes its destination (R221), W raises release
times (R131), and a line of code lets its lanes go on (R277). -/

namespace Sys2Proof.Machine

/-! Requests that have been answered (R158). -/

/-- A warp in which nothing was due settles where its threads meet as they did. -/
theorem Still.settle_eq_of_meetsAs {s a : State} {w : Nat} (h : Still s w) (hgoing : (a.warp w).stopping = false)
    (hthreads : ∀ k ∈ threadsOf w, (s.thread k).MeetsAs (a.thread k)) : a.settle w = a := by
  obtain ⟨u, hu, hlive⟩ := List.any_eq_true.mp h.live
  refine State.settle_eq (t := u) hgoing ?_ hu fun hexit => of_decide_eq_true hlive ((hthreads u hu).exited.mp hexit)
  rw [State.meetsNow_congr fun k hk => ⟨(hthreads k hk).mr, (hthreads k hk).exited, (hthreads k hk).held⟩]
  exact h.nomeet

theorem State.find_warp {s : State} {w : Nat} (hhere : (Tab.find s.wrp w).isSome = true) : Tab.find s.wrp w = some (s.warp w) := by
  obtain ⟨x, hx⟩ := Option.isSome_iff_exists.mp hhere
  rw [hx, State.warp, Tab.get_of_find _ _ _ _ hx]

theorem State.doneLane_eq {s : State} {w : Nat} (hhere : (Tab.find s.wrp w).isSome = true) (gid : Nat) :
    s.doneLane w gid = s.setWarp w ((s.warp w).less gid) := by
  simp only [State.doneLane, State.find_warp hhere]
  rfl

/-- An answer without soft causes to a warp in which nothing is due. -/
theorem State.answered_eq {s a : State} {r : Req} (hstill : Still s r.warp) (hcauses : r.causes = []) (hhere : (Tab.find a.wrp r.warp).isSome = true)
    (hgoing : (a.warp r.warp).stopping = false) (hthreads : ∀ k ∈ threadsOf r.warp, (s.thread k).MeetsAs (a.thread k)) :
    a.answered r = (a.delReq r.id).setWarp r.warp ((a.warp r.warp).less r.gid) := by
  have hdone : (a.delReq r.id).doneLane r.warp r.gid = (a.delReq r.id).setWarp r.warp ((a.warp r.warp).less r.gid) :=
    State.doneLane_eq (s := a.delReq r.id) hhere _
  rw [State.answered, hcauses, List.foldl_nil, hdone]
  refine hstill.settle_eq_of_meetsAs ?_ hthreads
  rw [State.warp_setWarp_self]
  exact hgoing

/-! Loads (R221). -/

theorem State.noteRead_eq {r : Req} (hdrafted : r.drafted = false) (s : State) (a g : Int) (e : LEnd) : s.noteRead r a g e = s := by
  simp [State.noteRead, hdrafted]

/-- Outside a draft nothing is noted of what is served (R252). -/
theorem State.noteServed_eq {r : Req} (hdrafted : r.drafted = false) (s : State) : s.noteServed r = s := by
  refine List.foldl_fixed' (fun a => ?_) _
  simp only [State.noteRead_eq hdrafted]
  split <;> simp

theorem State.setReg_spec (s : State) (u d : Nat) (v : Int) : s.setReg u d v = { s with thr := (s.setReg u d v).thr } ∧
    ∀ k, (s.setReg u d v).thread k = if k = u then (s.thread k).putReg d v else s.thread k := by
  by_cases hd : d < 216
  · rw [State.setReg_eq hd]
    refine ⟨rfl, fun k => (State.thread_setThread ..).trans (ite_congr rfl (fun hk => ?_) fun _ => rfl)⟩
    rw [hk]
  · simp [State.setReg, Thread.putReg, hd]

theorem Thread.wrote_pair (x : Thread) (d : Nat) (v : Int) :
    x.wrote (.pair d v) = if d < 216 then (x.putReg d (loW v)).putReg (d + 1) (hiW v) else x := rfl

theorem State.setPair_spec (s : State) (u d : Nat) (v : Int) : s.setPair u d v = { s with thr := (s.setPair u d v).thr } ∧
    ∀ k, (s.setPair u d v).thread k = if k = u then (s.thread k).wrote (.pair d v) else s.thread k := by
  simp only [State.setPair, Thread.wrote_pair]
  by_cases hd : d < 216
  · simp only [if_pos hd]
    obtain ⟨hlow, hlowT⟩ := s.setReg_spec u d (loW v)
    obtain ⟨hhigh, hhighT⟩ := (s.setReg u d (loW v)).setReg_spec u (d + 1) (hiW v)
    refine ⟨?_, fun k => ?_⟩
    · rw [hhigh, hlow]
    · rw [hhighT, hlowT]
      split <;> rfl
  · simp [hd]

/-- A load's value in a thread that has not exited. -/
theorem State.putLoad_spec {s : State} {u : Nat} (hlive : (s.thread u).st ≠ .exited) (sz : Sz) (d : Nat) (v : Int) :
    s.putLoad u sz d v = { s with thr := (s.putLoad u sz d v).thr } ∧
    ∀ k, (s.putLoad u sz d v).thread k = if k = u then (s.thread k).putLoad sz d v else s.thread k := by
  unfold State.putLoad Thread.putLoad
  simp only [if_neg hlive]
  by_cases hsz : sz = .dw
  · simp only [if_pos hsz]
    exact s.setPair_spec u d v
  · simp only [if_neg hsz]
    exact s.setReg_spec u d v

theorem Thread.meetsAs_putLoad (x : Thread) (sz : Sz) (d : Nat) (v : Int) : x.MeetsAs (x.putLoad sz d v) := by
  rw [Thread.putLoad, Thread.wrote_pair]
  split
  · split
    · exact (Thread.meetsAs_putReg x d (loW v)).trans (Thread.meetsAs_putReg ..)
    · exact Thread.meetsAs_of_eq rfl rfl
  · exact Thread.meetsAs_putReg ..

theorem exec_loadReply_load {s : State} {id : Nat} {r : Req} {sz : Sz} {d : Nat} {le : Lease} {nb : Bool} (hreq : s.req id = some r)
    (hkind : r.kind = .load sz d le nb) (hstage : r.stage = .l1) (haway : r.away = false) (harrived : s.arrived r = true)
    (hdrafted : r.drafted = false) (hmissing : s.missing r = []) :
    exec (.loadReply id) s = .next ((s.putLoad r.thr sz d (s.loadVal r)).answered r) := by
  change execLoadReply id s = _
  simp only [execLoadReply, hreq, hkind, hstage, haway, harrived, hmissing, State.noteServed_eq hdrafted]
  rfl

/-- A load whose trytes are there writes its register and counts no longer (R158, R221). -/
theorem State.putLoad_answered_spec {s : State} {r : Req} (hstill : s.stillReq r) (hcauses : r.causes = []) (sz : Sz) (d : Nat) (v : Int) :
    ∃ t, (s.putLoad r.thr sz d v).answered r = t ∧ t = { s with thr := t.thr, wrp := t.wrp, reqs := s.reqs.filter (fun q => decide (q.id ≠ r.id)) } ∧
      (∀ k, t.thread k = if k = r.thr then (s.thread k).putLoad sz d v else s.thread k) ∧
      ∀ w, t.warp w = if w = r.warp then (s.warp w).less r.gid else s.warp w := by
  obtain ⟨hwarp, -, hlive⟩ := hstill
  obtain ⟨hrest, hread⟩ := State.putLoad_spec hlive sz d v
  generalize s.putLoad r.thr sz d v = a at hrest hread
  have hwrp : a.wrp = s.wrp := by rw [hrest]
  have hwarps : ∀ w, a.warp w = s.warp w := State.warp_congr hwrp
  refine ⟨_, State.answered_eq hwarp hcauses (hwrp ▸ hwarp.here) (by rw [hwarps]; exact hwarp.going) (fun k _ => ?_), ?_, hread, fun w => ?_⟩
  · rw [hread]
    split
    · exact Thread.meetsAs_putLoad ..
    · exact Thread.meetsAs_of_eq rfl rfl
  · rw [hrest]
    rfl
  · rw [State.warp_setWarp, hwarps]
    exact ite_congr rfl (fun hw => by rw [hw]) fun _ => hwarps w

/-! Completions of writes (R131). -/

theorem State.raiseRT_eq {s : State} {w : Nat} (hhere : (Tab.find s.wrp w).isSome = true) (t : Int) :
    s.raiseRT w t = s.setWarp w (s.later (s.warp w) t) := by
  simp only [State.raiseRT, State.find_warp hhere]
  rfl

theorem State.nodup_warpsOf (s : State) (c : Nat) : (s.warpsOf c).Nodup :=
  (List.nodup_range.map fun _ _ h => Nat.add_left_cancel h).filter _

theorem State.mem_warpsOf {s : State} {w : Nat} (hhere : (Tab.find s.wrp w).isSome = true) : w ∈ s.warpsOf (coreOf w) := by
  refine List.mem_filter.mpr ⟨List.mem_map.mpr ⟨w % 28, List.mem_range.mpr (Nat.mod_lt _ (by decide)), ?_⟩, hhere⟩
  unfold coreOf
  omega

/-- W of a store that passed the L1 by raises the release times of its own warp alone (R131). -/
theorem State.warpsRaised_stva {s : State} {r : Req} {sz : Sz} {v tm : Int} (hkind : r.kind = .stva sz v tm) (hws : r.ws = [])
    (hcore : r.core = coreOf r.warp) (hidx : r.widx = (s.warp r.warp).idx) (hhere : (Tab.find s.wrp r.warp).isSome = true) :
    (s.warpsOf r.core).filter (fun x => r.raises x (s.warp x).idx) = [r.warp] := by
  have hraises : ∀ x, r.raises x (s.warp x).idx = decide (x = r.warp) := fun x => by
    by_cases hx : x = r.warp
    · simp [Req.raises, hx, hidx]
    · simp [Req.raises, hkind, hws, hx, Ne.symm hx]
  simp only [hraises]
  rw [List.filter_eq, hcore, List.count_eq_one_of_mem (s.nodup_warpsOf _) (State.mem_warpsOf hhere), List.replicate_one]

theorem exec_writeCompletion_stva {s : State} {id : Nat} {r : Req} {sz : Sz} {v tm x w : Int} (hreq : s.req id = some r)
    (hkind : r.kind = .stva sz v tm) (hstage : r.stage = .reply x w) (haway : r.away = false) (harrived : s.arrived r = true)
    (hlate : r.late = false) (hws : r.ws = []) (hspace : spaceOf r.ea = 1) (hcore : r.core = coreOf r.warp)
    (hidx : r.widx = (s.warp r.warp).idx) (hhere : (Tab.find s.wrp r.warp).isSome = true) :
    exec (.writeCompletion id) s = .next ((((s.dropCopies r.core (lineOf r.ea)).raiseRT r.warp w).ctxRT r.ctx w).answered r) := by
  have hraised : ((s.dropCopies r.core (lineOf r.ea)).warpsOf r.core).filter
      (fun x => r.raises x ((s.dropCopies r.core (lineOf r.ea)).warp x).idx) = [r.warp] :=
    State.warpsRaised_stva (s := s.dropCopies r.core (lineOf r.ea)) hkind hws hcore hidx hhere
  change execWriteCompletion id s = _
  simp only [execWriteCompletion, hreq, hkind, hstage, endsAsWrite, haway, harrived, if_pos hspace, hraised, hlate]
  rfl

/-- What the completion of a write leaves where nothing is due in its warp: the release times raised, and one lane less to wait for
(R131, R158). -/
theorem State.completed_spec {s a : State} {r : Req} (hstill : Still s r.warp) (hcauses : r.causes = []) (hthr : a.thr = s.thr)
    (hwrp : a.wrp = s.wrp) (w : Int) : ∃ t, ((a.raiseRT r.warp w).ctxRT r.ctx w).answered r = t ∧
      t = { a with wrp := t.wrp, ctxs := t.ctxs, reqs := a.reqs.filter (fun q => decide (q.id ≠ r.id)) } ∧
      (∀ v, t.warp v = if v = r.warp then (a.later (s.warp v) w).less r.gid else s.warp v) ∧
      ∀ c, t.ctx c = if c = r.ctx then { a.ctx c with rtN := max (a.ctx c).rtN (w + a.guard .domain) } else a.ctx c := by
  have hwarps : ∀ v, a.warp v = s.warp v := State.warp_congr hwrp
  rw [State.raiseRT_eq (hwrp ▸ hstill.here)]
  generalize hb : (a.setWarp r.warp (a.later (a.warp r.warp) w)).ctxRT r.ctx w = b
  have hself : b.warp r.warp = a.later (s.warp r.warp) w := by
    rw [← hb, ← hwarps]
    exact State.warp_setWarp_self ..
  refine ⟨_, State.answered_eq hstill hcauses ?_ (by rw [hself]; exact hstill.going) (fun k _ => ?_), ?_, fun v => ?_, fun c => ?_⟩
  · rw [← hb]
    change (Tab.find (Tab.put _ _ _) _).isSome = true
    rw [Tab.find_put, if_pos rfl]
    rfl
  · have hthreads : ∀ k, b.thread k = s.thread k := State.thread_congr (by rw [← hb]; exact hthr)
    rw [hthreads]
    exact Thread.meetsAs_of_eq rfl rfl
  · rw [← hb]
    rfl
  · rw [State.warp_setWarp, hself]
    refine ite_congr rfl (fun hv => by rw [hv]) fun hv => ?_
    rw [← hwarps, ← hb]
    exact (State.warp_setWarp ..).trans (if_neg hv)
  · rw [← hb]
    refine (State.ctx_setCtx ..).trans (ite_congr rfl (fun hc => ?_) fun _ => rfl)
    rw [hc]
    rfl

/-! Lines of code (R276, R277). -/

theorem State.id_of_req {s : State} {id : Nat} {r : Req} (hreq : s.req id = some r) : r.id = id :=
  of_decide_eq_true (List.find?_some (p := fun q : Req => decide (q.id = id)) hreq)

/-- A line is placed beside the lines that were held, or beside those but one (R276; DESIGN CHOICE, log 14). -/
theorem State.icPlace_eq (s : State) (c : Nat) (line : Int) (units : List Int) :
    ∃ others, (others = (s.core c).ic ∨ ∃ k, others = Tab.del k (s.core c).ic) ∧ s.icPlace c line units =
      { s.setCore c { s.core c with ic := Tab.put (ikey line) { line := line, units := units, stamp := s.stamp } others } with
        stamp := s.stamp + 1 } := by
  refine ⟨_, ?_, rfl⟩
  split
  · exact .inl rfl
  · exact .inr ⟨_, rfl⟩

theorem State.icPlace_spec (s : State) (c : Nat) (line : Int) (units : List Int) : ∃ t, s.icPlace c line units = t ∧
    t = { s with cor := t.cor, stamp := s.stamp + 1 } ∧ (∀ e, e ≠ c → t.core e = s.core e) ∧
    t.core c = { s.core c with ic := (t.core c).ic } ∧ t.icLine c line = some { line := line, units := units, stamp := s.stamp } ∧
    ∀ j, j ≠ ikey line → Tab.find (t.core c).ic j = none ∨ Tab.find (t.core c).ic j = Tab.find (s.core c).ic j := by
  obtain ⟨others, hothers, heq⟩ := s.icPlace_eq c line units
  refine ⟨_, rfl, by rw [heq]; rfl, fun e he => ?_, ?_, ?_, fun j hj => ?_⟩
  all_goals have hcore : ∀ e, (s.icPlace c line units).core e = _ := fun e => (State.core_congr (by rw [heq]) e).trans (State.core_setCore s c _ e)
  · rw [hcore, if_neg he]
  · rw [hcore, if_pos rfl]
  · rw [State.icLine, hcore, if_pos rfl, Tab.find_put, if_pos rfl]
  · rw [hcore, if_pos rfl, Tab.find_put, if_neg hj]
    obtain rfl | ⟨k, rfl⟩ := hothers
    · exact .inr rfl
    · rw [Tab.find_del]
      split
      · exact .inl rfl
      · exact .inr rfl

theorem State.unbusy_spec (ts : List Nat) (s : State) : s.unbusy ts = { s with thr := (s.unbusy ts).thr } ∧
    ∀ k, (s.unbusy ts).thread k = if k ∈ ts then { s.thread k with busy := false } else s.thread k := by
  induction ts generalizing s with
  | nil => exact ⟨rfl, fun k => (if_neg List.not_mem_nil).symm⟩
  | cons u ts ih =>
    obtain ⟨hrest, hread⟩ := ih (s.setThread u { s.thread u with busy := false })
    have hcons : s.unbusy (u :: ts) = (s.setThread u { s.thread u with busy := false }).unbusy ts := rfl
    refine ⟨by rw [hcons, hrest]; rfl, fun k => ?_⟩
    rw [hcons, hread, State.thread_setThread]
    by_cases hk : k = u
    · simp [hk]
    · simp [hk]

/-- A request for a line of code ends without soft causes, where nothing is due in its warp: its lanes wait no longer. -/
theorem State.codeEnd_spec {s a : State} {r : Req} {line : Int} (hstill : Still s r.warp) (hkind : r.kind = .fetch line) (hthr : a.thr = s.thr)
    (hwrp : a.wrp = s.wrp) (units : List Int) : ∃ t, a.codeEnd units [] r = t ∧
      t = { a with thr := t.thr, reqs := a.reqs.filter (fun q => decide (q.id ≠ r.id)) } ∧
      ∀ k, t.thread k = if ∃ l ∈ r.lanes, k = threadOf r.warp l then { s.thread k with busy := false } else s.thread k := by
  obtain ⟨hrest, hread⟩ := State.unbusy_spec (r.lanes.map (threadOf r.warp)) (a.delReq r.id)
  have hthreads : ∀ k, (a.delReq r.id).thread k = s.thread k := State.thread_congr hthr
  have hsettled : ((a.delReq r.id).unbusy (r.lanes.map (threadOf r.warp))).settle r.warp = (a.delReq r.id).unbusy (r.lanes.map (threadOf r.warp)) := by
    refine hstill.settle_eq_of_meetsAs ?_ fun k _ => ?_
    · have hwarps : ∀ w, ((a.delReq r.id).unbusy (r.lanes.map (threadOf r.warp))).warp w = s.warp w := State.warp_congr (by rw [hrest]; exact hwrp)
      rw [hwarps]
      exact hstill.going
    · rw [hread, hthreads]
      split <;> exact Thread.meetsAs_of_eq rfl rfl
  refine ⟨_, ?_, hrest, fun k => ?_⟩
  · simp only [State.codeEnd, hkind, Req.thrs, List.foldl_nil, List.foldl_fixed, hsettled]
  · rw [hread, hthreads]
    simp only [List.mem_map, eq_comm]

theorem exec_instructionFetchFill_alone {s : State} {id : Nat} {r : Req} {line : Int} {tr : Tab Int} {e : LEnd} {g : Int}
    (hreq : s.req id = some r) (hkind : r.kind = .fetch line) (hstage : r.stage = .filled tr e g) (hlate : r.late = false)
    (harrived : s.arrived r = true) (halone : ∀ q ∈ s.reqs, q.joined = true → q.core = r.core → lineOf q.ea ≠ lineOf r.ea) :
    exec (.instructionFetchFill id) s = .next ((s.icPlace r.core (lineOf r.ea) (unitsOf tr)).codeEnd (unitsOf tr) r.causes r) := by
  have hmates : s.reqs.filter (fun q => q.joined && decide (q.core = r.core) && decide (lineOf q.ea = lineOf r.ea)) = [] := by
    simpa [List.filter_eq_nil_iff] using halone
  change execInstructionFetchFill id s = _
  simp only [execInstructionFetchFill, hreq, hkind, hstage, hlate, harrived, hmates]
  rfl

end Sys2Proof.Machine
end

section
/-! What reaches a core (R108, R109, R126, R131, R158, R221, R277). -/

namespace Sys2Proof.Machine

/-- Settles O40, event by event: fills, leases' ends and evictions set one line of the L1; the warps concerned are still, so that
an answer leaves no more than its own effect. -/
theorem repliesArrive : Obligations.RepliesArrive := by
  refine ⟨fun s id r l tr e g hreq hkind hstage htr hnodup harrived hbefore hroom => ?_,
    fun s id r sz d le nb hreq hkind hstage haway harrived hdrafted hcauses hmissing hstill => ?_,
    fun s id r sz v tm x w hreq hkind hstage haway harrived hlate hcauses hws hspace hcore hidx hstill => ?_,
    fun s c line => ?_, fun s c line => ?_,
    fun s id r line tr e g hreq hkind hstage hlate hcauses harrived halone hstill _ => ?_⟩
  · obtain ⟨t, ht, hrest, hline, htrytes, hends⟩ :=
      s.l1Place_spec hnodup htr r.core (lineOf r.t) (tr.map (·.1 / 27)).dedup e g
    have hdel := hline.of_cor (t := t.delReq id) rfl
    refine ⟨t.delReq id, ?_, ?_, hdel.others, hdel.self, hdel.lines, htrytes, fun p hp => ?_⟩
    · rw [exec_l1Fill_pref hreq hkind hstage harrived hbefore hroom, ht]
    · rw [hrest]
      rfl
    · exact hends _ (List.mem_dedup.mpr (List.mem_map_of_mem hp))
  · obtain ⟨t, ht, heffect⟩ := State.putLoad_answered_spec hstill hcauses sz d (s.loadVal r)
    exact ⟨t, by rw [exec_loadReply_load hreq hkind hstage haway harrived hdrafted hmissing, ht], heffect⟩
  · obtain ⟨t, ht, hrest, hwarp, hctx⟩ := State.completed_spec (a := s.dropCopies r.core (lineOf r.ea)) hstill hcauses rfl rfl w
    refine ⟨t, ?_, ?_, ?_, ?_, hwarp, hctx⟩
    · rw [exec_writeCompletion_stva hreq hkind hstage haway harrived hlate hws hspace hcore hidx hstill.here, ht]
    · rw [hrest]
      rfl
    · rw [hrest]
    · rw [hrest]
  · have hline := s.setL1_onlyLine c line ((s.l1 c line).clean (s.ended c line))
    refine ⟨_, exec_leaseEnd s c line, rfl, hline.others, hline.self, hline.lines, fun p => ?_⟩
    rw [State.l1Clean, State.l1_setL1_tr, L1Line.mem_clean, State.mem_ended]
  · obtain ⟨a, ha, hrest, hline, hreqs⟩ := s.wbLine_evict_spec c (c * 28 + Tab.get 0 (s.l1 c line).stw 0) line
    have hgone := hline.trans (a.setL1_onlyLine c line {})
    refine ⟨a.setL1 c line {}, ?_, hgone.others, hgone.self, ?_, hgone.lines, ?_, hreqs⟩
    · rw [exec_l1Eviction, ha]
    · rw [State.find_setL1, if_pos rfl, if_pos rfl]
    · rw [State.setL1, hrest]
      rfl
  · obtain ⟨a, ha, hrest, hothers, hself, hplaced, hkeeps⟩ := s.icPlace_spec r.core (lineOf r.ea) (unitsOf tr)
    obtain ⟨t, ht, hrest', hthr⟩ := State.codeEnd_spec (a := a) hstill hkind (by rw [hrest]) (by rw [hrest]) (unitsOf tr)
    have hcore : ∀ c, t.core c = a.core c := State.core_congr (by rw [hrest'])
    refine ⟨t, ?_, ?_, hthr, fun c hc => (hcore c).trans (hothers c hc), by rw [hcore]; exact hself,
      by rw [State.icLine, hcore]; exact hplaced, by rw [hcore]; exact hkeeps⟩
    · rw [exec_instructionFetchFill_alone hreq hkind hstage hlate harrived halone, ha, hcauses, ht]
    · rw [hrest', hrest, State.id_of_req hreq]

end Sys2Proof.Machine
end

section
/-! Power and the domain's time (R123, R463, R466): what stands in memory after a shutdown, and what a holdover reports. -/

namespace Sys2Proof.Machine

theorem State.linked_of_on {s : State} (hon : s.mg.powerOff = false) (f : State → State) : s.linked f = .next (f s) := by
  rw [State.linked, hon]
  rfl

theorem State.keepsTime_of_ne {s : State} (h : s.grandmaster ≠ s.pkg) : s.keepsTime = false := decide_eq_false h

/-! Thermal shutdown (R466). -/

theorem exec_thermalShutdown {s : State} {tp : Nat} (hon : s.mg.powerOff = false) (htp : 110 ≤ tp) : exec (.thermalShutdown tp) s =
    .next { State.reset with
      mem := s.mem.filter (fun q => decide (q.1 / cellKey 27 0 ≠ s.pkg)), host := s.host
      die := s.die.filter (fun q => decide (q.1 / 27 ≠ s.pkg)), pkg := s.pkg, inputs := s.inputs
      fresh := s.fresh, stamp := s.stamp, nextId := s.nextId, mg := { powerOff := true } } := by
  change execThermalShutdown tp s = _
  rw [execThermalShutdown, State.linked_of_on hon, if_neg (Nat.not_lt.mpr htp)]

/-- The package of a byte's cell, by its die's number (R113). -/
theorem cellKey_div_package {o b : Nat} (hb : b < 2 ^ 41) : cellKey o b / cellKey 27 0 = o / 27 := by
  unfold cellKey
  omega

theorem zeroCell_cellKey (o b : Nat) : zeroCell (cellKey o b) = BitVec.ofNat 8 (zeroByte (b % 64)) := by
  have hmod : cellKey o b % 64 = b % 64 := by unfold cellKey; omega
  rw [zeroCell, hmod]

/-- Memory after the cells of one package are gone. -/
theorem State.byte_of_package_lost {s t : State} {p : Nat} (hmem : t.mem = s.mem.filter (fun q => decide (q.1 / cellKey 27 0 ≠ p)))
    {o b : Nat} (hb : b < 2 ^ 41) :
    t.byte o b = if o / 27 = p then (BitVec.ofNat 8 (zeroByte (b % 64))).toNat else s.byte o b := by
  rw [State.byte, hmem, Tab.get_filter_key (keep := fun k => decide (k / cellKey 27 0 ≠ p)), cellKey_div_package hb]
  by_cases ho : o / 27 = p
  · simp [ho, zeroCell_cellKey]
  · simp [ho, State.byte]

/-! The domain's time (R463). -/

theorem exec_hairlinePortTraining {s : State} {p : Nat} (hon : s.mg.powerOff = false) (hp : p < 9) (ok : Bool) :
    exec (.hairlinePortTraining p ok) s = .next (s.withMg { s.mg with trained := Tab.set true p ok s.mg.trained }) := by
  change execHairlinePortTraining p ok s = _
  rw [execHairlinePortTraining, State.linked_of_on hon, if_pos hp]
  rfl

theorem exec_sync_accepted {s : State} (hon : s.mg.powerOff = false) (hother : s.grandmaster ≠ s.pkg) (off : Int) :
    exec (.sync off true) s = .next (s.withMg { s.mg with
      offset := off, noSync := 0, goodSync := if |off| ≤ 2 then s.mg.goodSync + 1 else 0
      clkOut := s.mg.clkOut ++ s.treePorts.map (fun p => (p, Clk.sync, (s.dieSt (s.ownKey 9)).clk)) }) := by
  change execSync off true s = _
  rw [execSync, State.linked_of_on hon, State.keepsTime_of_ne hother]
  simp only [abs_le, Bool.false_eq_true, if_false, Bool.not_true, Bool.and_eq_true, decide_eq_true_eq]
  rfl

theorem exec_syncInterval {s : State} (hon : s.mg.powerOff = false) : exec .syncInterval s = .next (s.withMg { s.mg with
    noSync := if s.grandmaster = s.pkg then s.mg.noSync else s.mg.noSync + 1
    clkOut := s.mg.clkOut ++ (if s.grandmaster = s.pkg then s.treePorts.map (fun p => (p, Clk.sync, (s.dieSt (s.ownKey 9)).clk)) else [])
      ++ ((List.range 9).filter (fun q => Tab.get true s.mg.trained q)).map (fun p => (p, Clk.pdelayReq, (s.dieSt (s.ownKey 9)).clk)) }) := by
  change execSyncInterval s = _
  rw [execSyncInterval, State.linked_of_on hon]
  by_cases hgm : s.grandmaster = s.pkg
  · rw [State.keepsTime, decide_eq_true hgm, if_pos hgm, if_pos hgm]
    rfl
  · rw [State.keepsTime_of_ne hgm, if_neg hgm, if_neg hgm, List.append_nil]
    rfl

theorem exec_pdelay {s : State} {p : Nat} (hon : s.mg.powerOff = false) (hp : p < 9) (v : Option Int) :
    exec (.pdelay p v) s = .next (s.withMg (match v with
      | none => { s.mg with clkOut := s.mg.clkOut ++ [(p, Clk.pdelayResp, (s.dieSt (s.ownKey 9)).clk)] }
      | some d => { s.mg with delays := Tab.put p d s.mg.delays })) := by
  change execPdelay p v s = _
  rw [execPdelay, State.linked_of_on hon, if_neg (Nat.not_le.mpr hp)]
  cases v <;> rfl

theorem exec_powerWindow {s : State} (hon : s.mg.powerOff = false) (w tp : Nat) : exec (.powerWindow w tp) s =
    let c := if s.mg.pcap < w ∨ 100 ≤ tp then max 390 (s.mg.clk - 26) else min 1300 (s.mg.clk + 26)
    .next (s.withMg { s.mg with clk := c
                                therm := min tp 255 + (if c < 1300 then 256 else 0) + 65536 *
                                  min (s.mg.therm / 2 ^ 16 % 2 ^ 16 + (if s.mg.clk = 1300 ∧ c < 1300 then 1 else 0)) (2 ^ 16 - 1)
                                msix := s.mg.msix ++ (if c = s.mg.clk then [] else [2]) }) := by
  change execPowerWindow w tp s = _
  rw [execPowerWindow, State.linked_of_on hon]
  simp only [Bool.or_eq_true, Bool.and_eq_true, decide_eq_true_eq]
  generalize (if s.mg.pcap < w ∨ 100 ≤ tp then max 390 (s.mg.clk - 26) else min 1300 (s.mg.clk + 26)) = c
  by_cases hc : c = s.mg.clk
  · simp only [if_pos hc, List.append_nil]
    rfl
  · simp only [if_neg hc]
    rfl

/-! Holdover (R123, R404). -/

/-- Counting in every live context on its dies changes the contexts alone. -/
theorem State.foldl_count_dies (ds : List Nat) (c n : Nat) (k : Int) (s : State) :
    ∃ cs, ds.foldl (fun b d => b.count c d n k) s = { s with ctxs := cs } := by
  induction ds generalizing s with
  | nil => exact ⟨_, rfl⟩
  | cons d ds ih =>
    obtain ⟨cs, hcs⟩ := ih (s.count c d n k)
    exact ⟨cs, by rw [List.foldl_cons, hcs]; rfl⟩

theorem State.foldl_count_live (xs : Tab Ctx) (dies : Nat → List Nat) (n : Nat) (k : Int) (s : State) :
    ∃ cs, xs.foldl (fun a (c, x) => if x.live then (dies c).foldl (fun b d => b.count c d n k) a else a) s = { s with ctxs := cs } := by
  induction xs generalizing s with
  | nil => exact ⟨_, rfl⟩
  | cons x xs ih =>
    obtain ⟨cs, hcs⟩ : ∃ cs, (if x.2.live then (dies x.1).foldl (fun b d => b.count x.1 d n k) s else s) = { s with ctxs := cs } := by
      split
      · exact State.foldl_count_dies _ _ _ _ _
      · exact ⟨_, rfl⟩
    obtain ⟨cs', hcs'⟩ := ih { s with ctxs := cs }
    refine ⟨cs', Eq.trans ?_ hcs'⟩
    rw [List.foldl_cons]
    exact congrArg (fun a => List.foldl _ a xs) hcs

/-- What deferring a cause without an address leaves in a thread (R403). -/
def Thread.deferred (x : Thread) (c : Nat) : Thread := if x.st = .exited then x else x.owes c

theorem State.defer_spec (s : State) (u c : Nat) : s.defer u c 0 = { s with thr := (s.defer u c 0).thr } ∧
    ∀ k, (s.defer u c 0).thread k = if k = u then (s.thread k).deferred c else s.thread k := by
  by_cases hx : (s.thread u).st = .exited
  · have heq : s.defer u c 0 = s := by rw [State.defer]; exact if_pos hx
    rw [heq]
    refine ⟨rfl, fun k => ?_⟩
    split
    · next hk => rw [Thread.deferred, hk, if_pos hx]
    · rfl
  · have heq : s.defer u c 0 = s.setThread u ((s.thread u).owes c) := by rw [State.defer]; exact if_neg hx
    rw [heq]
    refine ⟨rfl, fun k => ?_⟩
    rw [State.thread_setThread]
    refine ite_congr rfl (fun hk => ?_) fun _ => rfl
    rw [hk, Thread.deferred, if_neg hx]

theorem Tab.nodup_keys_of_sorted {α : Type} {t : Tab α} (h : Tab.sorted t = true) : (t.map (·.1)).Nodup := by
  induction t with
  | nil => exact List.nodup_nil
  | cons p t ih =>
    obtain ⟨hlow, ht⟩ := (Tab.sorted_cons p.1 p.2 t).mp h
    refine List.nodup_cons.mpr ⟨fun hmem => ?_, ih ht⟩
    obtain ⟨q, hq, heq⟩ := List.mem_map.mp hmem
    exact absurd heq (hlow q hq).ne'

theorem Tab.get_of_not_mem_keys {α : Type} (z : α) {t : Tab α} {k : Nat} (h : k ∉ t.map (·.1)) : Tab.get z t k = z := by
  induction t with
  | nil => rfl
  | cons p t ih =>
    obtain ⟨hne, hnot⟩ := not_or.mp (mt List.mem_cons.mpr h)
    rw [Tab.get, if_neg (Ne.symm hne), ih hnot]

/-- A cause deferred in every listed thread is owed by every thread that has not exited. -/
theorem State.deferAll_spec {s : State} (hsorted : Tab.sorted s.thr = true) (c : Nat) :
    let t := s.thr.foldl (fun a (u, _) => a.defer u c 0) s
    t = { s with thr := t.thr } ∧ ∀ u, t.thread u = (s.thread u).deferred c := by
  obtain ⟨hrest, hread⟩ := fold_threads_read s (fun a u => a.defer u c 0) (·.deferred c) (s.thr.map (·.1))
    (Tab.nodup_keys_of_sorted hsorted) fun a u _ => a.defer_spec u c
  rw [List.foldl_map] at hrest hread
  refine ⟨hrest, fun u => (hread u).trans ?_⟩
  split
  · rfl
  · next hu =>
    rw [State.thread, Tab.get_of_not_mem_keys _ hu]
    rfl

theorem exec_holdoverEntry_spec {s : State} (hon : s.mg.powerOff = false) (hnot : s.mg.holdover = false) (hother : s.grandmaster ≠ s.pkg)
    (hlost : 8 ≤ s.mg.noSync ∨ 243 < |s.mg.offset|) (hsorted : Tab.sorted s.thr = true) : ∃ t, exec .holdoverEntry s = .next t ∧
    t = { s with thr := t.thr, ctxs := t.ctxs, mg := { s.mg with holdover := true, goodSync := 0, msix := s.mg.msix ++ [3] } } ∧
    ∀ u, t.thread u = (s.thread u).deferred 23 := by
  obtain ⟨cs, hcs⟩ := State.foldl_count_live s.ctxs s.diesOf 45 1
    (s.withMg { s.mg with holdover := true, goodSync := 0, msix := s.mg.msix ++ [3] })
  obtain ⟨hrest, hread⟩ := State.deferAll_spec (s := { s.withMg { s.mg with holdover := true, goodSync := 0, msix := s.mg.msix ++ [3] } with
    ctxs := cs }) hsorted 23
  refine ⟨_, ?_, by rw [hrest]; rfl, hread⟩
  have hlost' : 8 ≤ s.mg.noSync ∨ 243 < s.mg.offset ∨ s.mg.offset < -243 := by rw [lt_abs] at hlost; omega
  change execHoldoverEntry s = _
  rw [execHoldoverEntry, State.linked_of_on hon, if_neg (by simp [hnot, State.keepsTime_of_ne hother, hlost'])]
  exact congrArg (fun a : State => (.next (a.thr.foldl (fun a (u, _) => a.defer u 23 0) a) : R)) hcs

theorem exec_holdoverExit {s : State} (hon : s.mg.powerOff = false) (hin : s.mg.holdover = true) (hgood : 16 ≤ s.mg.goodSync) :
    exec .holdoverExit s = .next (s.withMg { s.mg with holdover := false, msix := s.mg.msix ++ [3] }) := by
  change execHoldoverExit s = _
  rw [execHoldoverExit, State.linked_of_on hon, if_pos ⟨hin, hgood⟩]
  rfl

/-- Settles O54, clause by clause: each event has its equation; a shutdown's memory is read through the cells' packages, and
holdover's causes through the sorted table of threads. -/
theorem powerAndTime : Obligations.PowerAndTime := by
  refine ⟨fun s w tp hon => exec_powerWindow hon w tp, fun s tp hon htp => ?_, fun s p ok hon hp => ?_,
    fun s off hon hother => exec_sync_accepted hon hother off, fun s hon => exec_syncInterval hon,
    fun s p v hon hp => exec_pdelay hon hp v, fun s hon hnot hother hlost hsorted => ?_,
    fun s hon hin hgood => exec_holdoverExit hon hin hgood⟩
  · exact ⟨_, exec_thermalShutdown hon htp, rfl, rfl, rfl, rfl, rfl, rfl, rfl, rfl, rfl, fun o b hb => State.byte_of_package_lost rfl hb⟩
  · exact ⟨_, exec_hairlinePortTraining hon hp ok, rfl, fun q => Tab.get_set true ok p q s.mg.trained⟩
  · exact exec_holdoverEntry_spec hon hnot hother hlost hsorted

end Sys2Proof.Machine
end

section
/-! Answers of owners and of the host's side: a lane that its owner lets go retires, one whose page is missing parks (R219, R428),
and the records of faults reach q17 (R429). -/

namespace Sys2Proof.Machine

/-! What a lane's request leaves in its lane. -/

theorem Thread.meetsAs_retired_of_runnable {x : Thread} (hrun : x.st = .runnable) (pc : Int) : x.MeetsAs (x.retired pc) :=
  Thread.meetsAs_of_eq rfl hrun.symm

theorem Thread.meetsAs_park {x : Thread} (hrun : x.st = .runnable) : x.MeetsAs x.park :=
  ⟨rfl, by simp [Thread.park, hrun], by simp [Thread.park, hrun]⟩

theorem State.warpOf_thr {s : State} {r : Req} (hstill : s.stillReq r) : warpOf r.thr = r.warp := threadOf_warp hstill.2.1

/-- What decides whether something is due in a warp stays after one of its threads has changed. -/
theorem Kept.setThread {s a : State} {w u : Nat} {x : Thread} (h : Kept s a w) (hx : (s.thread u).MeetsAs x) : Kept s (a.setThread u x) w := by
  refine ⟨h.ctxs, h.ctx, h.hm, h.stopping, fun k hk => ?_⟩
  rw [State.thread_setThread]
  split
  · next hu => rw [hu]; exact hx
  · exact h.threads k hk

/-- An accepted request's lane retires (R219). -/
theorem State.retireReq_eq {s a : State} {r : Req} (hstill : s.stillReq r) (hrun : (s.thread r.thr).st = .runnable) (hkept : Kept s a r.warp)
    (hsame : a.thread r.thr = s.thread r.thr) : a.retireReq r = a.setThread r.thr ((s.thread r.thr).retired r.next) := by
  have hretire : a.retire r.thr r.next = a.setThread r.thr ((s.thread r.thr).retired r.next) := by
    rw [State.retire_eq _ _ _ (by rw [State.warpOf_thr hstill]; exact hstill.1.wid) (by simp [hsame, hrun]), hsame]
  rw [State.retireReq, if_neg hstill.2.1.ne, hretire]
  exact hstill.1.stepTrap_settle_eq (hkept.setThread (Thread.meetsAs_retired_of_runnable hrun _)) _

theorem Req.thrs_of_lane {r : Req} (hlane : r.lane < 16) (hfetch : isFetch r.kind = false) (hlaunch : ∀ d, r.kind ≠ .launch d) : r.thrs = [r.thr] := by
  unfold Req.thrs
  split
  · next hk => simp [hk, isFetch] at hfetch
  · next hk => exact absurd hk (hlaunch _)
  · exact if_neg hlane.ne

/-- A lane's request that must wait parks its lane and counts no longer (R65, R158). -/
theorem State.parkReq_eq {s a : State} {r : Req} (hstill : s.stillReq r) (hrun : (s.thread r.thr).st = .runnable) (hthr : a.thr = s.thr)
    (hwrp : a.wrp = s.wrp) (hthrs : r.thrs = [r.thr]) (st : Stage) : a.parkReq r st =
      ((a.setWarp r.warp ((s.warp r.warp).less r.gid)).setThread r.thr (s.thread r.thr).park).setReq { r with stage := st, gid := 0 } := by
  obtain ⟨hw, -, -⟩ := hstill
  have hwarps : ∀ w, a.warp w = s.warp w := State.warp_congr hwrp
  have hthreads : ∀ u, a.thread u = s.thread u := State.thread_congr hthr
  have hpark : (a.setWarp r.warp ((s.warp r.warp).less r.gid)).setThread r.thr { s.thread r.thr with
      busy := false, wait := .none_, st := if (s.thread r.thr).st = .stopped then .stopped else .parked
      prior := if (s.thread r.thr).st = .stopped then .parked else (s.thread r.thr).prior } =
      (a.setWarp r.warp ((s.warp r.warp).less r.gid)).setThread r.thr (s.thread r.thr).park := by
    simp only [hrun, reduceCtorEq, if_false]
    rfl
  rw [State.parkReq, State.doneLane_eq (by rw [hwrp]; exact hw.here), hthrs, List.foldl_cons, List.foldl_nil, hwarps]
  simp only [State.thread_setWarp, hthreads, hpark]
  refine hw.settle_eq_of_meetsAs ?_ fun k _ => ?_
  · exact (congrArg Warp.stopping (State.warp_setWarp_self ..)).trans hw.going
  · change (s.thread k).MeetsAs (((a.setWarp r.warp ((s.warp r.warp).less r.gid)).setThread r.thr (s.thread r.thr).park).thread k)
    rw [State.thread_setThread]
    split
    · next hk => rw [hk]; exact Thread.meetsAs_park hrun
    · rw [State.thread_setWarp, hthreads]
      exact Thread.meetsAs_of_eq rfl rfl

theorem State.parkReq_spec {s a : State} {r : Req} (hstill : s.stillReq r) (hrun : (s.thread r.thr).st = .runnable) (hthr : a.thr = s.thr)
    (hwrp : a.wrp = s.wrp) (hthrs : r.thrs = [r.thr]) (st : Stage) : ∃ t, a.parkReq r st = t ∧ t = { a with thr := t.thr, wrp := t.wrp, reqs := t.reqs } ∧
    t.reqs = (a.setReq { r with stage := st, gid := 0 }).reqs ∧ (∀ k, t.thread k = if k = r.thr then (s.thread k).park else s.thread k) ∧
    ∀ w, t.warp w = if w = r.warp then (s.warp w).less r.gid else s.warp w := by
  refine ⟨_, State.parkReq_eq hstill hrun hthr hwrp hthrs st, rfl, rfl, fun k => ?_, fun w => ?_⟩
  · refine (State.thread_setThread ..).trans (ite_congr rfl (fun hk => by rw [hk]) fun _ => ?_)
    exact State.thread_congr (s := s) (a := a) hthr k
  · refine (State.warp_setWarp ..).trans (ite_congr rfl (fun hk => by rw [hk]) fun _ => ?_)
    exact State.warp_congr hwrp w

/-! The owner's answer (R219, R425). -/

/-- A cached page needs no walk (R421). -/
theorem State.translate_of_cached {s : State} {own ctx core : Nat} {off : Int} {l : Leaf} (h : s.cached own ctx core off l) :
    s.translate own ctx core off = (s, .leaf l) := by
  obtain ⟨huser, htables, hnear⟩ := h
  have hsup : ¬ (isSup ctx = true ∧ Tab.get 0 (s.dieSt own).roots ctx = 0) := by simp [huser]
  unfold State.translate
  simp only [htables, if_neg hsup, hnear]
  rfl

theorem State.translated_load {s : State} {r : Req} {l : Leaf} {sz : Sz} {d : Nat} {le : Lease} {nb : Bool} (hkind : r.kind = .load sz d le nb)
    (hone : r.ea2 = none) (hcached : s.cached r.own r.ctx r.core (offOf r.ea) l) (hread : l.r = true) : s.translated r =
      (s.setReq { r with stage := .l1, pa := l.phys (offOf r.ea), leaf := some l }).retireReq
        { r with pa := l.phys (offOf r.ea), leaf := some l } := by
  simp only [State.translated, State.translate_of_cached hcached, hone, Option.isSome_none, Bool.false_eq_true, if_false, State.accept, hkind,
    permOf, hread, if_true]
  rfl

theorem exec_ownerAnswer_load {s : State} {id : Nat} {r : Req} {sz : Sz} {d : Nat} {le : Lease} {nb : Bool} {l : Leaf} (hreq : s.req id = some r)
    (hkind : r.kind = .load sz d le nb) (hstage : r.stage = .owner) (haway : r.held = false) (hspace : spaceOf r.ea ≠ -1) (hone : r.ea2 = none)
    (hown : r.own = ownerOf r.ea) (harrived : r.sent ≤ (s.dieSt r.own).clk) (hbefore : s.ownerBefore r = false)
    (htables : s.hasTables r.own r.ctx = true) (hwin : s.winAt r.own r.ctx (offOf r.ea) = none) (hwatch : s.watched r = false)
    (hcached : s.cached r.own r.ctx r.core (offOf r.ea) l) (hread : l.r = true) : exec (.ownerAnswer id) s =
      .next ((s.setReq { r with stage := .l1, pa := l.phys (offOf r.ea), leaf := some l }).retireReq
        { r with pa := l.phys (offOf r.ea), leaf := some l }) := by
  have hfate : s.ownersFate r 5 = none := by
    simp [State.ownersFate, hone, ← hown, htables, hwin]
  have hanswer : s.ownerAnswer r = s.translated r := by
    simp only [State.ownerAnswer, hkind, hfate, hwatch, Bool.false_eq_true, if_false]
  have hfresh : r.joined = false := by simp [Req.joined, hstage]
  change execOwnerAnswer id s = _
  simp only [execOwnerAnswer, hreq, hfresh, hstage, haway, hbefore, if_neg hspace, hanswer, State.translated_load hkind hone hcached hread]
  simp [harrived.not_gt]

/-! Records of faults (R429, R430). -/

/-- Words in a port change nothing else of a core (R77). -/
theorem State.core_setPort_ports (s : State) (c q : Nat) (v : List Int) (e : Nat) :
    (s.setPort c q v).core e = { s.core e with ports := ((s.setPort c q v).core e).ports } := by
  rw [State.core_setPort]
  split
  · next he => rw [he]
  · rfl

/-- The first of the waiting records enters its core's q17, alone of that core's. -/
theorem State.flushRecs_eq {s : State} {x : Rec} {xs : List Rec} (hrecs : s.recs = x :: xs) (halone : ∀ y ∈ xs, y.core ≠ x.core)
    (hroom : (s.port x.core 17).length + x.words.length ≤ 81) :
    s.flushRecs x.core = { s.setPort x.core 17 (s.port x.core 17 ++ x.words) with recs := xs } := by
  have hskip : ∀ (ys : List Rec) (acc : State × Bool), (∀ y ∈ ys, y.core ≠ x.core) → ys.foldl (fun (acc : State × Bool) r =>
      if acc.2 ∧ r.core = x.core then
        if (acc.1.port x.core 17).length + r.words.length ≤ 81 then
          ({ (acc.1.setPort x.core 17 (acc.1.port x.core 17 ++ r.words)) with recs := acc.1.recs.erase r }, true)
        else (acc.1, false)
      else acc) acc = acc := by
    intro ys acc hys
    induction ys with
    | nil => rfl
    | cons y ys ih =>
      obtain ⟨hy, hys⟩ := List.forall_mem_cons.mp hys
      rw [List.foldl_cons, if_neg fun h => hy h.2, ih hys]
  rw [State.flushRecs, hrecs, List.foldl_cons, hskip xs _ halone, if_pos ⟨rfl, rfl⟩, if_pos hroom]
  have herase : s.recs.erase x = xs := by rw [hrecs, List.erase_cons_head]
  rw [herase]

theorem State.pushRec_eq {s : State} {x : Rec} (hrecs : s.recs = []) (hnow : x.deferred = false)
    (hroom : (s.port x.core 17).length + x.words.length ≤ 81) : s.pushRec x = s.setPort x.core 17 (s.port x.core 17 ++ x.words) := by
  have hflush := State.flushRecs_eq (s := { s with recs := s.recs ++ [x] }) (x := x) (xs := []) (by simp [hrecs]) (by simp) hroom
  rw [State.pushRec, hnow, if_neg (by simp), hflush]
  simp only [State.setPort, State.setCore, ← hrecs]
  rfl

/-- A fault that its owner's table does not hold enters it with one record (R428, R430). -/
theorem State.addFault_eq {s : State} {own ctx : Nat} {page : Int} (hroom : (s.dieSt own).fb.length < 8)
    (hnew : ∀ e, e ∈ (s.dieSt own).fb ∨ e ∈ (s.dieSt own).missed → e ≠ { ctx := ctx, page := pageOf page })
    (ea : Int) (ak core wid lane : Nat) (pc : Int) (mal : Bool) : ∃ x : Rec, s.addFault own ctx page ea ak core wid lane pc mal =
      (s.setDie own { s.dieSt own with fb := (s.dieSt own).fb ++ [{ ctx := ctx, page := pageOf page }] }).pushRec x ∧
    x.core = s.q17Core ctx own ∧ x.deferred = false ∧ x.words.length = 6 ∧
    x.words.take 3 = [recHead 1 5 (recCtx ctx) (own % 27), loW ea, hiW ea] := by
  have hlisted : ((s.dieSt own).fb.contains { ctx := ctx, page := pageOf page } ||
      (s.dieSt own).missed.contains { ctx := ctx, page := pageOf page }) = false := by
    rw [Bool.or_eq_false_iff, ← Bool.not_eq_true, ← Bool.not_eq_true, List.contains_iff_mem, List.contains_iff_mem]
    exact ⟨fun h => hnew _ (.inl h) rfl, fun h => hnew _ (.inr h) rfl⟩
  simp only [State.addFault, hlisted, Bool.false_eq_true, if_false, if_neg hroom.not_ge]
  exact ⟨_, rfl, rfl, rfl, rfl, rfl⟩

theorem State.addFault_spec {s : State} {own ctx : Nat} {page : Int} (hroom : (s.dieSt own).fb.length < 8)
    (hnew : ∀ e, e ∈ (s.dieSt own).fb ∨ e ∈ (s.dieSt own).missed → e ≠ { ctx := ctx, page := pageOf page }) (hrecs : s.recs = [])
    (hport : (s.port (s.q17Core ctx own) 17).length ≤ 75) (ea : Int) (ak core wid lane : Nat) (pc : Int) (mal : Bool) :
    ∃ t ws, s.addFault own ctx page ea ak core wid lane pc mal = t ∧ t = { s with die := t.die, cor := t.cor } ∧
    (∀ k, t.dieSt k = if k = own then { s.dieSt k with fb := (s.dieSt k).fb ++ [{ ctx := ctx, page := pageOf page }] } else s.dieSt k) ∧
    (∀ c, t.core c = { s.core c with ports := (t.core c).ports }) ∧
    (∀ c q, t.port c q = if c = s.q17Core ctx own ∧ q = 17 then s.port c q ++ ws else s.port c q) ∧
    ws.length = 6 ∧ ws.take 3 = [recHead 1 5 (recCtx ctx) (own % 27), loW ea, hiW ea] := by
  obtain ⟨x, heq, hcore, hnow, hlen, htake⟩ := State.addFault_eq hroom hnew ea ak core wid lane pc mal
  have hfits : (s.port x.core 17).length + x.words.length ≤ 81 := by
    rw [hcore, hlen]
    exact Nat.add_le_add_right hport 6
  refine ⟨_, x.words, heq.trans (State.pushRec_eq hrecs hnow hfits), rfl, fun k => ?_, fun c => ?_, fun c q => ?_, hlen, htake⟩
  · exact (State.dieSt_setDie ..).trans (ite_congr rfl (fun hk => by rw [hk]) fun _ => rfl)
  · exact State.core_setPort_ports ..
  · rw [State.port_setPort, hcore]
    exact ite_congr rfl (fun hk => by rw [hk.1, hk.2]; rfl) fun _ => rfl

/-- A load whose walk has ended in a fault, no other request awaiting its page (R428). -/
theorem exec_pageFault_load {s : State} {id : Nat} {r : Req} {sz : Sz} {d : Nat} {le : Lease} {nb m : Bool} (hreq : s.req id = some r)
    (hkind : r.kind = .load sz d le nb) (hstage : r.stage = .faulted m) (hplain : s.drafting r.warp r.lane = false)
    (hbefore : s.faultBefore r = false)
    (halone : ∀ q ∈ s.reqs, q.id ≠ id → q.ctx = r.ctx → q.faultOwner = r.faultOwner → pageOf q.t ≠ pageOf r.t) :
    exec (.pageFault id) s = .next ((s.addFault r.faultOwner r.ctx r.t r.t 0 r.core (widOf r.warp) r.lane r.pc m).parkReq r .parked) := by
  have hmates : s.reqs.filter (fun q => decide (q.id ≠ id) && decide (q.ctx = r.ctx) && decide (q.faultOwner = r.faultOwner)
      && decide (pageOf q.t = pageOf r.t)) = [] := by
    simpa [List.filter_eq_nil_iff] using halone
  have htake : s.takeFault r m = (s.addFault r.faultOwner r.ctx r.t r.t 0 r.core (widOf r.warp) r.lane r.pc m).parkReq r .parked := by
    simp [State.takeFault, hkind, isQuiet, isFetch, akind, hplain]
  change execPageFault id s = _
  simp only [execPageFault, hreq, hkind, hstage, hbefore, hmates, htake, Bool.false_eq_true, if_false, List.foldl_nil]

theorem State.pageFault_load_spec {s : State} {r : Req} {sz : Sz} {d : Nat} {le : Lease} {nb m : Bool} (hkind : r.kind = .load sz d le nb)
    (hstill : s.stillReq r) (hrun : (s.thread r.thr).st = .runnable) (hroom : (s.dieSt r.faultOwner).fb.length < 8)
    (hnew : ∀ e, e ∈ (s.dieSt r.faultOwner).fb ∨ e ∈ (s.dieSt r.faultOwner).missed → e ≠ { ctx := r.ctx, page := pageOf r.t })
    (hrecs : s.recs = []) (hport : (s.port (s.q17Core r.ctx r.faultOwner) 17).length ≤ 75) :
    ∃ t ws, (s.addFault r.faultOwner r.ctx r.t r.t 0 r.core (widOf r.warp) r.lane r.pc m).parkReq r .parked = t ∧
    t = { s with thr := t.thr, wrp := t.wrp, die := t.die, cor := t.cor, reqs := t.reqs } ∧
    t.reqs = (s.setReq { r with stage := .parked, gid := 0 }).reqs ∧
    (∀ k, t.thread k = if k = r.thr then (s.thread k).park else s.thread k) ∧
    (∀ w, t.warp w = if w = r.warp then (s.warp w).less r.gid else s.warp w) ∧
    (∀ k, t.dieSt k = if k = r.faultOwner then { s.dieSt k with fb := (s.dieSt k).fb ++ [{ ctx := r.ctx, page := pageOf r.t }] } else s.dieSt k) ∧
    (∀ c, t.core c = { s.core c with ports := (t.core c).ports }) ∧
    (∀ c q, t.port c q = if c = s.q17Core r.ctx r.faultOwner ∧ q = 17 then s.port c q ++ ws else s.port c q) ∧
    ws.length = 6 ∧ ws.take 3 = [recHead 1 5 (recCtx r.ctx) (r.faultOwner % 27), loW r.t, hiW r.t] := by
  obtain ⟨a, ws, ha, hrest, hdie, hcore, hports, hlen, htake⟩ :=
    State.addFault_spec hroom hnew hrecs hport r.t 0 r.core (widOf r.warp) r.lane r.pc m
  obtain ⟨t, ht, hrest', hreqs, hthr, hwrp⟩ := State.parkReq_spec (a := a) hstill hrun (by rw [hrest]) (by rw [hrest])
    (Req.thrs_of_lane hstill.2.1 (by rw [hkind]; rfl) fun d => by rw [hkind]; exact RK.noConfusion) .parked
  have hcor : t.cor = a.cor := by rw [hrest']
  have hcores := State.core_congr hcor
  refine ⟨t, ws, by rw [ha, ht], by rw [hrest', hrest], by rw [hreqs, hrest]; rfl, hthr, hwrp, fun k => ?_, fun c => ?_, fun c q => ?_, hlen, htake⟩
  · rw [← hdie]
    exact State.dieSt_congr (by rw [hrest']) k
  · rw [hcores]
    exact hcore c
  · rw [← hports, State.port, hcores, State.port]

/-! Write-backs that were refused (R436). -/

theorem dedup_map_of_eq {α : Type} (f : α → Nat) (p : α) (k : List α) (h : ∀ q ∈ k, f q = f p) : ((p :: k).map f).dedup = [f p] := by
  have hrep : (p :: k).map f = List.replicate (k.length + 1) (f p) :=
    List.eq_replicate_iff.mpr ⟨by simp, by simpa using h⟩
  rw [hrep, List.replicate_dedup (Nat.succ_ne_zero _)]

theorem Warp.less_of_not_mem {x : Warp} {gid : Nat} (h : ∀ g ∈ x.out, g.gid ≠ gid) : x.less gid = x := by
  have hmap : x.out.map (fun g => if g.gid = gid then { g with left := g.left - 1 } else g) = x.out :=
    (List.map_congr_left (g := id) fun g hg => if_neg (h g hg)).trans (List.map_id _)
  have hfilter : x.out.filter (fun g => decide (g.gid ≠ gid) || decide (g.left ≠ 0)) = x.out :=
    List.filter_eq_self.mpr fun g hg => by simp [h g hg]
  rw [Warp.less, hmap, hfilter]

theorem exec_deferredWriteBackFault_eviction {s : State} {id : Nat} {r : Req} {m : Bool} {p : Nat × Int} {k : Tab Int} (hreq : s.req id = some r)
    (hkind : r.kind = .wb (p :: k) 0) (hstage : r.stage = .faulted m) (hone : ∀ q ∈ k, q.1 / 27 = p.1 / 27)
    (hroom : (s.core r.core).wbf.length < 27) : exec (.deferredWriteBackFault id) s =
      .next (((((s.count r.ctx (dieIdx r.core) 44 1).delReq id).setCore r.core { s.core r.core with wbf := (s.core r.core).wbf ++
        [{ own := r.own, ea := r.ea + 27 * (((p.1 / 27 : Nat) : Int) - 1), malformed := m }] }).doneLane r.warp r.gid).settle r.warp) := by
  have hcore : ((s.count r.ctx (dieIdx r.core) 44 1).delReq id).core r.core = s.core r.core := rfl
  change execDeferredWriteBackFault id s = _
  simp only [execDeferredWriteBackFault, hreq, hkind, hstage, dedup_map_of_eq (fun q : Nat × Int => q.1 / 27) p k hone, List.length_singleton,
    List.foldl_cons, List.foldl_nil, if_true, Nat.cast_one, hcore, decide_eq_false hroom.not_ge, Bool.false_eq_true, if_false]

/-- A fault of an eviction stays with its core, and its counted instruction, which is over, is not touched (R158, R436). -/
theorem State.evictionFault_spec {s : State} {r : Req} {k : Nat} (hstill : Still s r.warp) (hgone : ∀ g ∈ (s.warp r.warp).out, g.gid ≠ r.gid)
    (x : HeldWbf) : ∃ t, ((((s.count r.ctx k 44 1).delReq r.id).setCore r.core { s.core r.core with wbf := (s.core r.core).wbf ++
      [x] }).doneLane r.warp r.gid).settle r.warp = t ∧
    t = { s with wrp := t.wrp, ctxs := t.ctxs, cor := t.cor, reqs := s.reqs.filter (fun q => decide (q.id ≠ r.id)) } ∧ (∀ w, t.warp w = s.warp w) ∧
    (∀ c, t.core c = if c = r.core then { s.core c with wbf := (s.core c).wbf ++ [x] } else s.core c) ∧
    ∀ c, t.ctx c = if c = r.ctx then (s.ctx c).counted k 44 1 else s.ctx c := by
  obtain ⟨a, ha⟩ : ∃ a, ((s.count r.ctx k 44 1).delReq r.id).setCore r.core { s.core r.core with wbf := (s.core r.core).wbf ++ [x] } = a := ⟨_, rfl⟩
  have hwrp : a.wrp = s.wrp := by rw [← ha]; rfl
  have hself : a.doneLane r.warp r.gid = a.setWarp r.warp (s.warp r.warp) := by
    rw [State.doneLane_eq (by rw [hwrp]; exact hstill.here), State.warp_congr hwrp, Warp.less_of_not_mem hgone]
  have hwarps : ∀ w, (a.setWarp r.warp (s.warp r.warp)).warp w = s.warp w := fun w => by
    rw [State.warp_setWarp, State.warp_congr hwrp]
    split
    · next hw => rw [hw]
    · rfl
  have hsettled : (a.setWarp r.warp (s.warp r.warp)).settle r.warp = a.setWarp r.warp (s.warp r.warp) := by
    refine hstill.settle_eq_of_meetsAs (by rw [hwarps]; exact hstill.going) fun u _ => ?_
    rw [← ha]
    exact Thread.meetsAs_of_eq rfl rfl
  refine ⟨_, by rw [ha, hself, hsettled], ?_, hwarps, fun c => ?_, fun c => ?_⟩
  · rw [← ha]
    rfl
  · rw [← ha]
    exact (State.core_setCore ..).trans (ite_congr rfl (fun hc => by rw [hc]) fun _ => rfl)
  · rw [← ha]
    exact (State.ctx_setCtx ..).trans (ite_congr rfl (fun hc => by rw [hc]; rfl) fun _ => rfl)

/-! Host space (R143, R427). -/

theorem length_toBytes (n x : Nat) : (toBytes n x).length = n := by
  induction n generalizing x with
  | zero => rfl
  | succ n ih => rw [toBytes, List.length_cons, ih]

theorem State.hostByte_setHost (vs : List Nat) (s : State) (a b : Nat) :
    (s.setHost a vs).hostByte b = if a ≤ b ∧ b < a + vs.length then vs.getD (b - a) 0 % 256 else s.hostByte b := by
  induction vs generalizing s a with
  | nil => rw [State.setHost, if_neg (by simp)]
  | cons v vs ih =>
    have hfirst : ({ s with host := Tab.set (0 : BitVec 8) a (BitVec.ofNat 8 v) s.host } : State).hostByte b =
        if b = a then v % 256 else s.hostByte b := by
      unfold State.hostByte
      rw [Tab.get_set]
      split <;> rfl
    rw [State.setHost, ih, hfirst, List.length_cons]
    obtain hlt | rfl | hgt := Nat.lt_trichotomy b a
    · rw [if_neg (by omega), if_neg (by omega), if_neg (by omega)]
    · rw [if_neg (by omega), if_pos rfl, if_pos (by omega), Nat.sub_self, List.getD_cons_zero]
    · rw [if_neg hgt.ne']
      refine ite_congr (propext (by omega)) (fun _ => ?_) fun _ => rfl
      rw [show b - a = b - (a + 1) + 1 by omega, List.getD_cons_succ]

/-- A host write whose translation arrives is performed under it, and its lane retires (R427). -/
theorem exec_atsTranslationCompletion_stb {s : State} {id : Nat} {r : Req} {n bits : Nat} {p : Nat} (hreq : s.req id = some r)
    (hkind : r.kind = .stb n bits false) (hstage : r.stage = .owner) (hspace : spaceOf r.ea = -1) (hbefore : s.hostBefore r = false)
    (hstill : s.stillReq r) (hrun : (s.thread r.thr).st = .runnable) : exec (.atsTranslationCompletion id (some p)) s =
      .next (((((s.atsPut r.ctx r.ea p true).setWarp r.warp { s.warp r.warp with lastHost := r.ea }).setHost
        (p * 4096 + (fld r.ea 0 53 % 4096).toNat) (toBytes n bits)).reply r 0 (s.dieSt (s.ownKey 9)).clk).setThread r.thr
          ((s.thread r.thr).retired r.next)) := by
  obtain ⟨b, hb⟩ : ∃ b, (((s.atsPut r.ctx r.ea p true).setWarp r.warp { s.warp r.warp with lastHost := r.ea }).setHost
    (p * 4096 + (fld r.ea 0 53 % 4096).toNat) (toBytes n bits)) = b := ⟨_, rfl⟩
  have hrest := State.setHost_rest (toBytes n bits) ((s.atsPut r.ctx r.ea p true).setWarp r.warp { s.warp r.warp with lastHost := r.ea })
    (p * 4096 + (fld r.ea 0 53 % 4096).toNat)
  rw [hb] at hrest
  have hself : b.warp r.warp = { s.warp r.warp with lastHost := r.ea } := by
    rw [hrest]
    exact State.warp_setWarp_self ..
  have hthreads : ∀ u, b.thread u = s.thread u := State.thread_congr (by rw [hrest]; rfl)
  have hkept : Kept s (b.reply r 0 (s.dieSt (s.ownKey 9)).clk) r.warp := by
    refine ⟨by rw [hrest]; rfl, ?_, ?_, ?_, fun k _ => ?_⟩
    · exact (congrArg Warp.ctx hself :)
    · exact (congrArg Warp.hm hself :)
    · exact (congrArg Warp.stopping hself :)
    · exact Thread.meetsAs_of_eq (congrArg Thread.mr (hthreads k)) (congrArg Thread.st (hthreads k))
  have hperform : (s.atsPut r.ctx r.ea p true).hostPerform r (p * 4096 + (fld r.ea 0 53 % 4096).toNat) =
      (b.reply r 0 (s.dieSt (s.ownKey 9)).clk).retireReq r := by
    rw [← hb]
    simp only [State.hostPerform, State.clampedStore, hkind]
    rfl
  have hretired := State.retireReq_eq hstill hrun hkept (hthreads _)
  rw [hb]
  change execAtsTranslationCompletion id (some p) s = _
  simp only [execAtsTranslationCompletion, hreq, hstage, hspace, hbefore, hkind, writesHost, hperform, hretired]
  simp

theorem exec_atsTranslationCompletion_none {s : State} {id : Nat} {r : Req} (hreq : s.req id = some r) (hstage : r.stage = .owner)
    (hspace : spaceOf r.ea = -1) (hbefore : s.hostBefore r = false) (hroom : s.priCount (s.ctx r.ctx).part < 243) :
    exec (.atsTranslationCompletion id none) s = .next (s.parkReq r .pri) := by
  change execAtsTranslationCompletion id none s = _
  simp only [execAtsTranslationCompletion, hreq, hstage, hspace, hbefore, if_neg hroom.not_ge]
  simp

theorem exec_hairlineArrival {s : State} {id : Nat} {r : Req} (hreq : s.req id = some r) (haway : r.held = true) (hup : s.routeUp (r.own / 27) = true)
    (hdue : r.sent ≤ (s.dieSt r.own).clk) : exec (.hairlineArrival id) s = .next (s.setReq { r with held := false }) := by
  change execHairlineArrival id s = _
  simp only [execHairlineArrival, hreq, haway, hup]
  simp [hdue]

theorem exec_priResponse_success {s : State} {id : Nat} {r : Req} (hreq : s.req id = some r) (hstage : r.stage = .pri) :
    exec (.priResponse id true) s = .next (s.setReq { r with stage := .owner }) := by
  change execPriResponse id true s = _
  simp only [execPriResponse, hreq, hstage]
  simp

theorem exec_atsInvalidation (s : State) (pasid page : Nat) : ∃ t, exec (.atsInvalidation pasid page) s = .next t ∧ t = { s with ats := t.ats } ∧
    ∀ e, e ∈ t.ats ↔ e ∈ s.ats ∧ ¬ (e.1 = (pasid : Int) ∧ e.2.1 = (page : Int)) := by
  refine ⟨_, rfl, rfl, fun e => ?_⟩
  rw [List.mem_filter, not_and_or]
  simp

/-- Settles O41, answer by answer: the warp concerned is still, so that an accepted lane retires and a missing page parks its lane
with no more effect than that. -/
theorem answersArrive : Obligations.AnswersArrive := by
  refine ⟨fun s id r sz d le nb l hreq hkind hstage haway hspace hone hown harrived hbefore htables hwin hwatch hcached hread hstill hrun => ?_,
    fun s id r sz d le nb m hreq hkind hstage hplain hbefore halone hstill hrun hroom hnew hrecs hport => ?_,
    fun s i x xs hrecs hcore halone hroom => ?_,
    fun s id r m tr p k hreq hkind hstage htr hone hroom hgone hstill => ?_,
    fun s id r hreq haway hup hdue => exec_hairlineArrival hreq haway hup hdue,
    fun s id r n bits p hreq hkind hstage hspace hbefore hstill hrun => ?_,
    fun s id r hreq hstage hspace hbefore hfetch hlaunch hroom hstill hrun => ?_,
    fun s id r hreq hstage => exec_priResponse_success hreq hstage,
    fun s pasid page => exec_atsInvalidation s pasid page⟩
  · have hretired := State.retireReq_eq (a := s.setReq { r with stage := .l1, pa := l.phys (offOf r.ea), leaf := some l })
      (r := { r with pa := l.phys (offOf r.ea), leaf := some l }) hstill hrun
      ⟨rfl, rfl, rfl, rfl, fun k _ => Thread.meetsAs_of_eq rfl rfl⟩ rfl
    refine ⟨_, (exec_ownerAnswer_load hreq hkind hstage haway hspace hone hown harrived hbefore htables hwin hwatch hcached hread).trans
      (congrArg Host.Outcome.next hretired), rfl, rfl, fun k => ?_⟩
    exact (State.thread_setThread ..).trans (ite_congr rfl (fun hk => by rw [hk]; rfl) fun _ => rfl)
  · rw [exec_pageFault_load hreq hkind hstage hplain hbefore halone]
    obtain ⟨t, ws, ht, heffect⟩ := State.pageFault_load_spec (m := m) hkind hstill hrun hroom hnew hrecs hport
    exact ⟨t, ws, by rw [ht], heffect⟩
  · have hflush := State.flushRecs_eq hrecs (by rwa [hcore]) (by rwa [hcore])
    rw [hcore] at hflush
    refine ⟨_, congrArg Host.Outcome.next hflush, rfl, fun c => ?_, fun c q => ?_⟩
    · exact State.core_setPort_ports ..
    · exact (State.port_setPort ..).trans (ite_congr rfl (fun h => by rw [h.1, h.2]) fun _ => rfl)
  · subst htr
    obtain rfl := State.id_of_req hreq
    obtain ⟨t, ht, hrest, hwrp, hcore, hctx⟩ := State.evictionFault_spec (k := dieIdx r.core) hstill hgone
      { own := r.own, ea := r.ea + 27 * (((p.1 / 27 : Nat) : Int) - 1), malformed := m }
    exact ⟨t, by rw [exec_deferredWriteBackFault_eviction hreq hkind hstage hone hroom, ht], hrest, hwrp, hcore, hctx⟩
  · refine ⟨_, exec_atsTranslationCompletion_stb hreq hkind hstage hspace hbefore hstill hrun, ?_, ?_, fun k => ?_, fun w => ?_, fun b => ?_⟩
    · rw [State.setHost_rest]
      rfl
    · rw [State.setHost_rest]
      rfl
    · refine (State.thread_setThread ..).trans (ite_congr rfl (fun hk => by rw [hk]) fun _ => ?_)
      exact State.thread_congr (by rw [State.setHost_rest]; rfl) k
    · exact (State.warp_congr (by rw [State.setHost_rest]; rfl) w).trans
        ((State.warp_setWarp ..).trans (ite_congr rfl (fun hw => by rw [hw]) fun _ => rfl))
    · refine (State.hostByte_setHost (toBytes n bits) _ _ b).trans ?_
      rw [length_toBytes]
      rfl
  · obtain ⟨t, ht, heffect⟩ := State.parkReq_spec hstill hrun rfl rfl (Req.thrs_of_lane hstill.2.1 hfetch hlaunch) .pri
    exact ⟨t, by rw [exec_atsTranslationCompletion_none hreq hstage hspace hbefore hroom, ht], heffect⟩

end Sys2Proof.Machine
end

section
/-! The commit of a draft (R142, R254): what a home keeps of a line, the requests that leave when every prepare has been accepted, and
what the core performs at V. -/

namespace Sys2Proof.Machine

/-! Lines at a home. -/

theorem State.dieSt_setHline (s : State) (own : Nat) (ln : Int) (x : HLine) (k : Nat) : (s.setHline own ln x).dieSt k =
    if k = own then { s.dieSt k with lines := Tab.set {} (ikey ln) x (s.dieSt k).lines } else s.dieSt k := by
  rw [State.setHline, State.dieSt_setDie]
  exact ite_congr rfl (fun hk => by rw [hk]) fun _ => rfl

/-- A home that has noted something of a line answers a request. -/
theorem State.setHline_reply_spec {s a : State} {r : Req} (h : OnlyHome s a r.own) (hreqs : a.reqs = s.reqs) (ln : Int) (x : HLine) (v w : Int) :
    ∃ t, (a.setHline r.own ln x).reply r v w = t ∧ OnlyHome s t r.own ∧ t.reqs = s.replied r v w ∧ t.mem = a.mem ∧ t.bad = a.bad ∧
    (t.dieSt r.own).l2 = (a.dieSt r.own).l2 ∧
    ∀ j, Tab.get {} (t.dieSt r.own).lines j = if j = ikey ln then x else Tab.get {} (a.dieSt r.own).lines j := by
  have hdie : ∀ k, ((a.setHline r.own ln x).reply r v w).dieSt k =
      if k = r.own then { a.dieSt k with lines := Tab.set {} (ikey ln) x (a.dieSt k).lines } else a.dieSt k := a.dieSt_setHline r.own ln x
  have hclk : ((a.setHline r.own ln x).dieSt r.own).clk = (s.dieSt r.own).clk := by
    rw [State.dieSt_setHline, if_pos rfl, h.parts]
  refine ⟨_, rfl, ⟨?_, fun k hk => ?_, ?_⟩, ?_, rfl, rfl, ?_, fun j => ?_⟩
  · rw [h.rest]
    rfl
  · rw [hdie, if_neg hk, h.others k hk]
  · rw [hdie, if_pos rfl, h.parts]
  · rw [State.reply, State.answer, hclk, State.replied, State.setReq, State.setReq, ← hreqs]
    rfl
  · rw [hdie, if_pos rfl]
  · rw [hdie, if_pos rfl]
    exact Tab.get_set ..

theorem OnlyHome.refl (s : State) (own : Nat) : OnlyHome s s own := ⟨rfl, fun _ _ => rfl, rfl⟩

/-! Prepares (R254). -/

/-- A prepare that no lease, prepare, timed store or later write forbids is accepted. -/
theorem exec_draftPrepare_accepted {s : State} {id : Nat} {r : Req} {w : Nat} {v : Int} {chk : Option Int} {wr : Bool} {l : Leaf}
    (hreq : s.req id = some r) (hstage : r.stage = .home) (hkind : r.kind = .prep w v chk wr) (haway : r.held = false)
    (harrived : r.sent ≤ (s.dieSt r.own).clk) (hbehind : s.behind r = false) (hcached : s.cached r.own r.ctx r.core (offOf r.ea) l)
    (hperm : wr = true → l.w = true ∧ l.cmp = false)
    (hleases : ∀ g ∈ (s.hline r.own (lineOf (l.phys (offOf r.ea)))).grants, g.core = r.core ∨ g.stop ≤ v ∨ g.stop ≤ (s.dieSt r.own).clk)
    (hpreps : ∀ q ∈ (s.hline r.own (lineOf (l.phys (offOf r.ea)))).preps, q.wr = false ∨ q.warp = w)
    (htimed : ∀ q ∈ s.reqs, q.own = r.own → lineOf (l.phys (offOf r.ea)) ∉ q.plines)
    (hwrites : ∀ n, chk = some n → (s.hline r.own (lineOf (l.phys (offOf r.ea)))).writes ≤ n) :
    exec (.draftPrepare id) s = .next ((s.setHline r.own (lineOf (l.phys (offOf r.ea)))
      { s.hline r.own (lineOf (l.phys (offOf r.ea))) with
        preps := (s.hline r.own (lineOf (l.phys (offOf r.ea)))).preps ++ [{ warp := w, v := v, wr := wr }]
        grants := if chk.isSome ∧ l.w = true then extendLease (s.hline r.own (lineOf (l.phys (offOf r.ea)))).grants r.core v
          else (s.hline r.own (lineOf (l.phys (offOf r.ea)))).grants }).reply { r with pa := l.phys (offOf r.ea), leaf := some l } 1 0) := by
  change execDraftPrepare id s = _
  simp only [execDraftPrepare, hreq, hstage, hkind, haway, hbehind, State.translate_of_cached hcached]
  generalize hline : s.hline r.own (lineOf (l.phys (offOf r.ea))) = x at *
  have hleases' : x.grants.any (fun g => decide (g.core ≠ r.core) && decide (v < g.stop) && decide ((s.dieSt r.own).clk < g.stop)) = false := by
    rw [List.any_eq_false]
    intro g hg
    have := hleases g hg
    simp only [Bool.and_eq_true, decide_eq_true_eq]
    omega
  have hpreps' : x.preps.any (fun q => q.wr && decide (q.warp ≠ w)) = false := by
    rw [List.any_eq_false]
    intro q hq
    rcases hpreps q hq with h | h <;> simp [h]
  have hwrites' : chk.any (fun n => decide (n < x.writes)) = false := by
    cases chk with
    | none => rfl
    | some n => exact decide_eq_false (hwrites n rfl).not_gt
  have hperm' : (wr && !(l.w && !l.cmp)) = false := by
    cases wr with
    | false => rfl
    | true => simp [hperm rfl]
  have htimed' : ∀ p : Req → Bool, s.reqs.any (fun q => p q && decide (q.own = r.own) && q.plines.contains (lineOf (l.phys (offOf r.ea)))) = false := by
    intro p
    rw [List.any_eq_false]
    intro q hq
    by_cases hown : q.own = r.own
    · simp [htimed q hq hown]
    · simp [hown]
  simp only [hleases', hpreps', hwrites', hperm', htimed', harrived.not_gt, Bool.or_self, Bool.false_eq_true, or_self, if_false,
    Bool.and_eq_true]

/-! Decisions (R254). -/

/-- Whether a request has its answer. -/
def Req.hasReply (r : Req) : Bool :=
  match r.stage with
  | .reply .. => true
  | _ => false

/-- The commit of a line that a draft has prepared. -/
def State.commitOf (s : State) (w : Nat) (v : Int) (r : Req) : Req :=
  { r with kind := .commit w v (s.commitTrytes w (lineOf r.ea) r.pa), stage := .home
           lanes := (((s.drafted w).filter (fun b => decide (lineOf b.ea = lineOf r.ea))).map (·.lane)).eraseDups }

/-- One accepted prepare leaves; a commit takes its place where the draft writes its line. -/
def State.decideReq (s : State) (w : Nat) (v : Int) (a : State) (r : Req) : State :=
  match r.kind with
  | .prep _ _ _ true => (a.delReq r.id).addReq (s.commitOf w v r)
  | _ => a.delReq r.id

theorem exec_draftDecision_sent {s : State} {w : Nat} {v : Int} (hink : (s.warp w).draft.ink = .sent v) : exec (.draftDecision w) s =
    if (!(s.reqs.filter (isPrep w)).all (fun r => s.arrived r && r.hasReply)) = true then .next s
    else if ((s.reqs.filter (isPrep w)).any (fun r => decide (r.stage = .reply 0 0)) ||
        decide ((s.reqs.filter (isPrep w)).length < (s.draftLw w ++ s.draftLr w).length)) = true then .next ((s.abort w 3 0).settle w)
    else if v < s.now (coreOf w) then .next (((s.count (s.warp w).ctx (dieIdx (coreOf w)) 38 1).abort w 4 0).settle w)
    else .next ((((s.reqs.filter (isPrep w)).foldl (s.decideReq w v) s).setWarp w
      { ((s.reqs.filter (isPrep w)).foldl (s.decideReq w v) s).warp w with draft := { (s.warp w).draft with ink := .going v } }).inkAt w) := by
  change execDraftDecision w s = _
  unfold execDraftDecision
  simp only [hink]
  rfl

theorem isPrep_iff {w : Nat} {r : Req} : isPrep w r = true ↔ r.warp = w ∧ ∃ u v chk wr, r.kind = .prep u v chk wr := by
  rw [isPrep, Bool.and_eq_true, decide_eq_true_eq]
  refine and_congr_right fun _ => ?_
  split
  · next hkind => simp [hkind]
  · next hother => simpa using hother

theorem isWrPrep_of_kind {w : Nat} {r : Req} {u : Nat} {v : Int} {chk : Option Int} {wr : Bool} (hw : r.warp = w)
    (hkind : r.kind = .prep u v chk wr) : isWrPrep w r = wr := by
  simp [isWrPrep, hw, hkind]

theorem State.decideReq_eq {s : State} {w : Nat} {r : Req} (hprep : isPrep w r = true) (v : Int) (a : State) : s.decideReq w v a r =
    if isWrPrep w r = true then (a.delReq r.id).addReq (s.commitOf w v r) else a.delReq r.id := by
  obtain ⟨hw, u, v', chk, wr, hkind⟩ := isPrep_iff.mp hprep
  rw [isWrPrep_of_kind hw hkind, State.decideReq, hkind]
  cases wr <;> rfl

/-- The commits that leave in the place of some prepares, numbered on from a number (R254). -/
def State.commits (s : State) (w : Nat) (v : Int) (n : Nat) (rs : List Req) : List Req :=
  ((rs.filter (isWrPrep w)).zipIdx n).map (fun p => s.newReq p.2 (s.commitOf w v p.1))

theorem State.commits_cons (s : State) (w : Nat) (v : Int) (n : Nat) (r : Req) (rs : List Req) : s.commits w v n (r :: rs) =
    if isWrPrep w r = true then s.newReq n (s.commitOf w v r) :: s.commits w v (n + 1) rs else s.commits w v n rs := by
  rw [State.commits, List.filter_cons]
  split <;> rfl

/-- The requests numbered as none of a list. -/
def unlisted (ms : List Req) (q : Req) : Bool := ms.all (fun m => decide (q.id ≠ m.id))

/-- The decision takes every prepare from the requests in flight and lets the commits leave in their order. -/
theorem State.foldl_decideReq {s : State} {w : Nat} (v : Int) {ms : List Req} (hms : ∀ m ∈ ms, isPrep w m = true ∧ m.id < s.nextId) (rs : List Req)
    (n : Nat) : ms.foldl (s.decideReq w v) { s with reqs := rs, nextId := s.nextId + n } =
      { s with reqs := rs.filter (unlisted ms) ++ s.commits w v n ms, nextId := s.nextId + n + (ms.filter (isWrPrep w)).length } := by
  induction ms generalizing rs n with
  | nil =>
    have hall : rs.filter (unlisted []) = rs := List.filter_eq_self.mpr fun _ _ => rfl
    simp [State.commits, hall]
  | cons m ms ih =>
    obtain ⟨⟨hprep, _⟩, hms⟩ := List.forall_mem_cons.mp hms
    have hsplit : unlisted (m :: ms) = fun q => decide (q.id ≠ m.id) && unlisted ms q := rfl
    rw [List.foldl_cons, State.decideReq_eq hprep, State.commits_cons, List.filter_cons]
    split
    · have hnew : unlisted ms (s.newReq n (s.commitOf w v m)) = true := List.all_eq_true.mpr fun q hq => by
        have hid : (s.newReq n (s.commitOf w v m)).id = s.nextId + n := rfl
        have := (hms q hq).2
        simp only [hid, decide_eq_true_eq]
        omega
      have hadd : ({ s with reqs := rs, nextId := s.nextId + n }.delReq m.id).addReq (s.commitOf w v m) =
          { s with reqs := rs.filter (fun q => decide (q.id ≠ m.id)) ++ [s.newReq n (s.commitOf w v m)], nextId := s.nextId + (n + 1) } := rfl
      rw [hadd, ih hms, List.filter_append, List.filter_filter, List.filter_cons, if_pos hnew, hsplit]
      simp [Bool.and_comm, Nat.add_assoc, Nat.add_comm, Nat.add_left_comm]
    · have hdel : { s with reqs := rs, nextId := s.nextId + n }.delReq m.id =
          { s with reqs := rs.filter (fun q => decide (q.id ≠ m.id)), nextId := s.nextId + n } := rfl
      rw [hdel, ih hms, List.filter_filter, hsplit]
      simp [Bool.and_comm]

/-- Where numbers are distinct, the requests that no prepare's number names are those that are no prepares. -/
theorem State.filter_unlisted {s : State} (hnum : s.numbered) (p : Req → Bool) :
    s.reqs.filter (unlisted (s.reqs.filter p)) = s.reqs.filter (fun r => !p r) := by
  refine List.filter_congr fun q hq => ?_
  by_cases hp : p q = true
  · have hmem : q ∈ s.reqs.filter p := List.mem_filter.mpr ⟨hq, hp⟩
    rw [hp, unlisted, Bool.not_true, List.all_eq_false]
    exact ⟨q, hmem, by simp⟩
  · rw [unlisted, Bool.eq_false_iff.mpr hp, Bool.not_false, List.all_eq_true]
    intro m hm
    obtain ⟨hm, hpm⟩ := List.mem_filter.mp hm
    refine decide_eq_true fun hid => hp ?_
    rwa [List.inj_on_of_nodup_map hnum.1 hq hm hid]

theorem filter_isWrPrep (w : Nat) (rs : List Req) : (rs.filter (isPrep w)).filter (isWrPrep w) = rs.filter (isWrPrep w) := by
  rw [List.filter_filter]
  refine List.filter_congr fun r _ => ?_
  unfold isPrep isWrPrep
  split <;> simp_all

theorem State.draftDecision_spec {s : State} {w : Nat} {v : Int} (hink : (s.warp w).draft.ink = .sent v) (hnum : s.numbered)
    (hback : ∀ r ∈ s.reqs, isPrep w r = true → r.stage = .reply 1 0 ∧ s.arrived r = true)
    (hall : (s.draftLw w ++ s.draftLr w).length ≤ (s.reqs.filter (isPrep w)).length) (htime : s.now (coreOf w) ≤ v) :
    ∃ t : State, exec (.draftDecision w) s = .next (t.inkAt w) ∧
    t = { s with wrp := t.wrp, reqs := t.reqs, nextId := s.nextId + (s.reqs.filter (isWrPrep w)).length } ∧
    t.reqs = s.reqs.filter (fun r => !isPrep w r) ++ s.commits w v 0 s.reqs ∧
    ∀ u, t.warp u = if u = w then { s.warp u with draft := { (s.warp u).draft with ink := .going v } } else s.warp u := by
  have hmine : ∀ m ∈ s.reqs.filter (isPrep w), isPrep w m = true ∧ m.id < s.nextId := fun m hm =>
    ⟨(List.mem_filter.mp hm).2, hnum.2 m (List.mem_filter.mp hm).1⟩
  have hreplies : ∀ m ∈ s.reqs.filter (isPrep w), m.stage = .reply 1 0 ∧ s.arrived m = true := fun m hm =>
    hback m (List.mem_filter.mp hm).1 (List.mem_filter.mp hm).2
  have hall' : (s.reqs.filter (isPrep w)).all (fun r => s.arrived r && r.hasReply) = true := List.all_eq_true.mpr fun m hm => by
    simp [hreplies m hm, Req.hasReply]
  have hyes : (s.reqs.filter (isPrep w)).any (fun r => decide (r.stage = .reply 0 0)) = false := List.any_eq_false.mpr fun m hm => by
    simp [hreplies m hm]
  have hfold := State.foldl_decideReq v hmine s.reqs 0
  rw [State.filter_unlisted hnum, filter_isWrPrep] at hfold
  have hcommits : s.commits w v 0 (s.reqs.filter (isPrep w)) = s.commits w v 0 s.reqs := by
    rw [State.commits, filter_isWrPrep, State.commits]
  rw [hcommits] at hfold
  refine ⟨(((s.reqs.filter (isPrep w)).foldl (s.decideReq w v) s).setWarp w
      { ((s.reqs.filter (isPrep w)).foldl (s.decideReq w v) s).warp w with draft := { (s.warp w).draft with ink := .going v } }), ?_, ?_, ?_,
      fun u => ?_⟩
  · rw [exec_draftDecision_sent hink, hall', hyes, decide_eq_false hall.not_gt, if_neg htime.not_gt]
    rfl
  all_goals rw [show (s.reqs.filter (isPrep w)).foldl (s.decideReq w v) s = _ from hfold]
  · rfl
  · rfl
  · exact (State.warp_setWarp ..).trans (ite_congr rfl (fun hu => by rw [hu]; rfl) fun _ => rfl)

/-! Commits at their homes (R142, R254). -/

theorem exec_draftCommitArrival_due {s : State} {id : Nat} {r : Req} {w : Nat} {v : Int} {tr : List (Int × Int)} (hreq : s.req id = some r)
    (hkind : r.kind = .commit w v tr) (hstage : r.stage = .home) (haway : r.held = false) (hdue : v ≤ (s.dieSt r.own).clk)
    (harrived : r.sent ≤ (s.dieSt r.own).clk) (hplain : (s.ctx r.ctx).lr.det = false) {a : State}
    (ha : (s.homePut r.own false r.ctx tr r.slices).wrote r.own (lineOf r.pa) = a) : exec (.draftCommitArrival id) s =
      .next ((a.setHline r.own (lineOf r.pa) { a.hline r.own (lineOf r.pa) with
        preps := (a.hline r.own (lineOf r.pa)).preps.filter (fun q => !(decide (q.warp = w) && decide (q.v = v))) }).reply
          { r with causes := [] } 0 v) := by
  have htouch : s.touch r r.ea = (s, false) := by
    simp [State.touch, State.touchAs, hplain]
  change execDraftCommitArrival id s = _
  simp only [execDraftCommitArrival, hreq, hkind, hstage, haway, hdue.not_gt, harrived.not_gt, htouch, ha]
  rfl

theorem State.draftCommit_spec {s : State} {r : Req} {w : Nat} {v : Int} {tr : List (Int × Int)}
    (hl2 : s.l2Has r.own r.slices (tr.map (fun q => lineOf q.1))) : ∃ a t, (s.homePut r.own false r.ctx tr r.slices).wrote r.own (lineOf r.pa) = a ∧
    (a.setHline r.own (lineOf r.pa) { a.hline r.own (lineOf r.pa) with
        preps := (a.hline r.own (lineOf r.pa)).preps.filter (fun q => !(decide (q.warp = w) && decide (q.v = v))) }).reply
          { r with causes := [] } 0 v = t ∧ OnlyHome s t r.own ∧ t.reqs = s.replied { r with causes := [] } 0 v ∧
    (∀ a, |a| ≤ half 47 → t.homeTryte r.own a false = afterPuts tr a (s.homeTryte r.own a false)) ∧
    ∀ j, Tab.get {} (t.dieSt r.own).lines j = if j = ikey (lineOf r.pa) then
        { s.hline r.own (lineOf r.pa) with writes := (s.hline r.own (lineOf r.pa)).writes + 1
                                           preps := (s.hline r.own (lineOf r.pa)).preps.filter (fun q => !(decide (q.warp = w) && decide (q.v = v))) }
      else Tab.get {} (s.dieSt r.own).lines j := by
  obtain ⟨b, hb, hrest, hdie, hread⟩ := State.homePut_spec (own := r.own) (ctx := r.ctx) (tr := tr) (fun q hq => List.mem_map_of_mem (f := fun q => lineOf q.1) hq) hl2
  have hline : b.hline r.own (lineOf r.pa) = s.hline r.own (lineOf r.pa) := by
    rw [State.hline, hdie, if_pos rfl, State.hline]
  have hself : (b.wrote r.own (lineOf r.pa)).dieSt r.own = { s.dieSt r.own with
      l2 := (b.dieSt r.own).l2
      lines := Tab.set {} (ikey (lineOf r.pa)) { s.hline r.own (lineOf r.pa) with writes := (s.hline r.own (lineOf r.pa)).writes + 1 }
        (s.dieSt r.own).lines } := by
    rw [State.wrote, State.dieSt_setHline, if_pos rfl, hline, hdie, if_pos rfl]
  have honly : OnlyHome s (b.wrote r.own (lineOf r.pa)) r.own := by
    refine ⟨?_, fun k hk => ?_, ?_⟩
    · rw [State.wrote, State.setHline, hrest]
      rfl
    · rw [State.wrote, State.dieSt_setHline, if_neg hk, hdie, if_neg hk]
    · rw [hself]
  have hnow : (b.wrote r.own (lineOf r.pa)).hline r.own (lineOf r.pa) =
      { s.hline r.own (lineOf r.pa) with writes := (s.hline r.own (lineOf r.pa)).writes + 1 } := by
    rw [State.hline, hself, Tab.get_set, if_pos rfl]
  obtain ⟨t, ht, hhome, hreqs, hmem, hbad, hl2', hlines⟩ := State.setHline_reply_spec (r := { r with causes := [] }) honly
    (by rw [State.wrote, State.setHline, hrest]; rfl) (lineOf r.pa)
    { (b.wrote r.own (lineOf r.pa)).hline r.own (lineOf r.pa) with
        preps := ((b.wrote r.own (lineOf r.pa)).hline r.own (lineOf r.pa)).preps.filter (fun q => !(decide (q.warp = w) && decide (q.v = v))) } 0 v
  refine ⟨_, t, by rw [hb], ht, hhome, hreqs, fun a ha => ?_, fun j => (hlines j).trans ?_⟩
  · rw [← hread a ha]
    have hkept : (b.wrote r.own (lineOf r.pa)).homeTryte r.own a false = b.homeTryte r.own a false :=
      State.homeTryte_congr (s := b) (t := b.wrote r.own (lineOf r.pa)) (by rw [hself]) rfl rfl a
    exact (State.homeTryte_congr hl2' hmem hbad a).trans hkept
  · rw [hnow, hself]
    refine ite_congr rfl (fun _ => rfl) fun hj => ?_
    rw [Tab.get_set, if_neg hj]

/-! What the core performs at V (R142, R254). -/

/-- A fold over threads that may name one twice, where a second turn changes nothing. -/
theorem fold_threads_again (s0 : State) (F : State → Nat → State) (g : Thread → Thread) (ts : List Nat)
    (hF : ∀ a t, t ∈ ts → a = { s0 with thr := a.thr } → (a.thread t = s0.thread t ∨ a.thread t = g (s0.thread t)) →
      F a t = a.setThread t (g (s0.thread t))) :
    ts.foldl F s0 = { s0 with thr := (ts.foldl F s0).thr } ∧
      ∀ k, (ts.foldl F s0).thread k = if k ∈ ts then g (s0.thread k) else s0.thread k := by
  suffices H : ∀ (us : List Nat) (a : State), (∀ t ∈ us, t ∈ ts) → a = { s0 with thr := a.thr } →
      (∀ t, a.thread t = s0.thread t ∨ a.thread t = g (s0.thread t)) →
      us.foldl F a = { s0 with thr := (us.foldl F a).thr } ∧
        ∀ k, (us.foldl F a).thread k = if k ∈ us then g (s0.thread k) else a.thread k from
    H ts s0 (fun _ h => h) rfl (fun _ => .inl rfl)
  intro us
  induction us with
  | nil => intro a _ ha _; exact ⟨ha, by simp⟩
  | cons t us ih =>
    intro a hs ha hk
    obtain ⟨ht, hs⟩ := List.forall_mem_cons.mp hs
    have hone : F a t = a.setThread t (g (s0.thread t)) := hF a t ht ha (hk t)
    have hread : ∀ k, (F a t).thread k = if k = t then g (s0.thread t) else a.thread k := fun k => by rw [hone, State.thread_setThread]
    obtain ⟨hrest, hall⟩ := ih (F a t) hs (by rw [hone, State.setThread, ha]) fun k => by
      rw [hread]
      split
      · next h => rw [h]; exact .inr rfl
      · exact hk k
    refine ⟨hrest, fun k => ?_⟩
    rw [List.foldl_cons, hall, hread]
    by_cases hkt : k = t
    · simp [hkt]
    · simp [hkt]

/-- The lanes of a draft, each waiting, retire INK (R254). -/
theorem State.endWaits_spec {s : State} {w : Nat} (hwid : widOf w ≠ 27) {ls : List Nat}
    (hls : ∀ l ∈ ls, l < 16 ∧ (s.thread (threadOf w l)).st = .waiting) :
    let t := (ls.map (threadOf w)).foldl (fun a u => a.endWait u) s
    t = { s with thr := t.thr } ∧
    ∀ k, t.thread k = if ∃ l ∈ ls, k = threadOf w l then (s.thread k).retired (s.thread k).next else s.thread k := by
  have hfold := fold_threads_again s (fun a u => a.endWait u) (fun x => x.retired x.next) (ls.map (threadOf w)) fun a u hu _ hread => by
    obtain ⟨l, hl, rfl⟩ := List.mem_map.mp hu
    obtain ⟨hlane, hwait⟩ := hls l hl
    have hstopped : (a.thread (threadOf w l)).st ≠ .stopped := by
      rcases hread with h | h
      · simp [h, hwait]
      · simp [h, Thread.retired]
    have hsame : (a.thread (threadOf w l)).retired (a.thread (threadOf w l)).next =
        (s.thread (threadOf w l)).retired (s.thread (threadOf w l)).next := by
      rcases hread with h | h <;> rw [h]
      rfl
    rw [← hsame]
    exact State.retire_eq _ _ _ (by rw [threadOf_warp hlane]; exact hwid) hstopped
  refine ⟨hfold.1, fun k => (hfold.2 k).trans ?_⟩
  simp only [List.mem_map, eq_comm]

/-! The scratchpad (R99). -/

theorem regionOf_eq_scratch {a : Int} (h : regionOf a = .scratch) : -88573 ≤ a ∧ a ≤ 88573 := by
  unfold regionOf at h
  split at h
  · exact absurd h (by decide)
  split at h
  · exact absurd h (by decide)
  split at h
  · assumption
  split at h
  · exact absurd h (by decide)
  split at h
  · exact absurd h (by decide)
  · exact absurd h (by decide)

theorem scrKey_inj {a b : Int} (ha : regionOf a = .scratch) (hb : regionOf b = .scratch) : scrKey a = scrKey b ↔ a = b := by
  have := regionOf_eq_scratch ha
  have := regionOf_eq_scratch hb
  unfold scrKey
  omega

theorem State.scr_setScr (s : State) (c : Nat) {a b : Int} (ha : regionOf a = .scratch) (hb : regionOf b = .scratch) (v : Int) :
    (s.setScr c a v).scr c b = if a = b then wrap v 9 else s.scr c b := by
  have hcore : (s.setScr c a v).core c = { s.core c with scr := Tab.set 0 (scrKey a) (wrap v 9) (s.core c).scr } := State.core_setCore_self ..
  have hbad : (s.setScr c a v).isBad 2 (c * partBase + scrKey b) = if a = b then false else s.isBad 2 (c * partBase + scrKey b) := by
    change (s.bad.filter _).contains _ = _
    rw [Bool.eq_iff_iff, List.contains_iff_mem, List.mem_filter]
    by_cases hab : a = b
    · simp [hab]
    · have hne : scrKey b ≠ scrKey a := fun h => hab ((scrKey_inj hb ha).mp h).symm
      rw [if_neg hab, State.isBad, List.contains_iff_mem]
      simp [hne]
  rw [State.scr, hbad, hcore, Tab.get_set]
  by_cases hab : a = b
  · simp [hab]
  · have hne : scrKey b ≠ scrKey a := fun h => hab ((scrKey_inj hb ha).mp h).symm
    simp only [if_neg hab, if_neg hne]
    rfl

/-- What drafted trytes leave in a core's scratchpad, each reading as the last write to it. -/
theorem State.foldl_setScr (c : Nat) {bs : List BTryte} (hbs : ∀ b ∈ bs, regionOf b.ea = .scratch) (s : State) :
    let t := bs.foldl (fun a b => a.setScr c b.ea b.val) s
    t = { s with cor := t.cor, bad := t.bad } ∧ (∀ e, e ≠ c → t.core e = s.core e) ∧ t.core c = { s.core c with scr := (t.core c).scr } ∧
    ∀ a, regionOf a = .scratch → t.scr c a = afterPuts (bs.map (fun b => (b.ea, b.val))) a (s.scr c a) := by
  induction bs generalizing s with
  | nil => exact ⟨rfl, fun _ _ => rfl, rfl, fun _ _ => rfl⟩
  | cons b bs ih =>
    obtain ⟨hb, hbs⟩ := List.forall_mem_cons.mp hbs
    obtain ⟨hrest, hothers, hself, hread⟩ := ih hbs (s.setScr c b.ea b.val)
    have hcore : (s.setScr c b.ea b.val).core c = { s.core c with scr := ((s.setScr c b.ea b.val).core c).scr } := by
      rw [show (s.setScr c b.ea b.val).core c = _ from State.core_setCore_self ..]
    refine ⟨hrest.trans rfl, fun e he => (hothers e he).trans ?_, hself.trans (by rw [hcore]; rfl), fun a ha => (hread a ha).trans ?_⟩
    · exact (State.core_setCore ..).trans (if_neg he)
    · rw [State.scr_setScr s c hb ha]
      rfl

/-- Writes elsewhere leave a tryte. -/
theorem afterPuts_filter (keep : Int → Bool) (tr : List (Int × Int)) {a : Int} (ha : keep a = true) (old : Int) :
    afterPuts (tr.filter (fun p => keep p.1)) a old = afterPuts tr a old := by
  induction tr generalizing old with
  | nil => rfl
  | cons p tr ih =>
    rw [List.filter_cons]
    by_cases hp : keep p.1 = true
    · rw [if_pos hp]
      exact ih _
    · have hne : p.1 ≠ a := fun h => hp (h ▸ ha)
      rw [if_neg hp, ih, afterPuts, afterPuts, List.foldl_cons, if_neg hne]

theorem State.draftScr_spec (s : State) (w : Nat) : let t := s.draftScr w
    t = { s with cor := t.cor, bad := t.bad } ∧ (∀ e, e ≠ coreOf w → t.core e = s.core e) ∧
    t.core (coreOf w) = { s.core (coreOf w) with scr := (t.core (coreOf w)).scr } ∧
    ∀ a, regionOf a = .scratch → t.scr (coreOf w) a = afterPuts ((s.drafted w).map (fun b => (b.ea, b.val))) a (s.scr (coreOf w) a) := by
  obtain ⟨hrest, hothers, hself, hread⟩ := State.foldl_setScr (coreOf w) (bs := (s.drafted w).filter (fun b => decide (regionOf b.ea = .scratch)))
    (fun b hb => of_decide_eq_true (List.mem_filter.mp hb).2) s
  refine ⟨hrest, hothers, hself, fun a ha => (hread a ha).trans ?_⟩
  have hfilter : ((s.drafted w).filter (fun b => decide (regionOf b.ea = .scratch))).map (fun b => (b.ea, b.val)) =
      ((s.drafted w).map (fun b => (b.ea, b.val))).filter (fun p => decide (regionOf p.1 = .scratch)) := by
    rw [List.filter_map]
    rfl
  rw [hfilter]
  exact afterPuts_filter (fun x => decide (regionOf x = .scratch)) _ (decide_eq_true ha) _

/-! What the drafted trytes supersede (R142). -/

/-- Changes of some lines of one core's L1 leave the rest of the state but requests in flight. -/
theorem State.foldl_supersede (c : Nat) (f : Int → L1Line → L1Line) (ls : List Int) (s : State) :
    let t := ls.foldl (fun a l => (a.setL1 c l (f l (a.l1 c l))).dropCopies c l) s
    t = { s with cor := t.cor, reqs := t.reqs } ∧ (∀ e, e ≠ c → t.core e = s.core e) ∧ t.core c = { s.core c with l1 := (t.core c).l1 } := by
  induction ls generalizing s with
  | nil => exact ⟨rfl, fun _ _ => rfl, rfl⟩
  | cons l ls ih =>
    obtain ⟨hrest, hothers, hself⟩ := ih ((s.setL1 c l (f l (s.l1 c l))).dropCopies c l)
    have hline : OnlyLine s ((s.setL1 c l (f l (s.l1 c l))).dropCopies c l) c l :=
      (s.setL1_onlyLine c l _).trans (((s.setL1 c l (f l (s.l1 c l))).setL1_onlyLine c l _).of_cor rfl)
    exact ⟨hrest.trans rfl, fun e he => (hothers e he).trans (hline.others e he), hself.trans (by rw [hline.self]; rfl)⟩

theorem State.supersede_spec (s : State) (w : Nat) : let t := s.supersede w
    t = { s with cor := t.cor, reqs := t.reqs } ∧ (∀ e, e ≠ coreOf w → t.core e = s.core e) ∧
    t.core (coreOf w) = { s.core (coreOf w) with l1 := (t.core (coreOf w)).l1 } := by
  obtain ⟨b, f, hb, hrest, hcor⟩ : ∃ (b : State) (f : Int → L1Line → L1Line), s.supersede w =
      (s.draftLw w).foldl (fun a l => (a.setL1 (coreOf w) l (f l (a.l1 (coreOf w) l))).dropCopies (coreOf w) l) b ∧
      b = { s with reqs := b.reqs } ∧ b.cor = s.cor := by
    refine ⟨_, fun l x => { x with tr := x.tr.filter (fun q => !(s.drafted w).any (fun b => decide (lineOf b.ea = l) && decide (linePos b.ea = q.1))) },
      rfl, rfl, rfl⟩
  obtain ⟨hrest', hothers, hself⟩ := State.foldl_supersede (coreOf w) f (s.draftLw w) b
  have hcore : ∀ e, b.core e = s.core e := State.core_congr hcor
  refine ⟨?_, fun e he => ?_, ?_⟩
  · rw [hb, hrest', hrest]
  · rw [hb, hothers e he, hcore]
  · rw [hb, hself, hcore]

/-- The end of a committed draft whose lanes wait in INK. -/
theorem State.draftEnd_spec {s a : State} {w : Nat} (hstill : Still s w) (hthr : a.thr = s.thr) (hctxs : a.ctxs = s.ctxs)
    (hctx : (a.warp w).ctx = (s.warp w).ctx) (hhm : (a.warp w).hm = (s.warp w).hm) (hstop : (a.warp w).stopping = (s.warp w).stopping)
    (hlanes : ∀ l ∈ (a.warp w).draft.lanes, l < 16 ∧ (s.thread (threadOf w l)).st = .waiting) :
    ∃ t, a.draftEnd w = t ∧ t = { a with thr := t.thr, wrp := t.wrp, cor := t.cor, bad := t.bad } ∧
    (∀ k, t.thread k = if ∃ l ∈ (a.warp w).draft.lanes, k = threadOf w l then (s.thread k).retired (s.thread k).next else s.thread k) ∧
    (∀ u, t.warp u = if u = w then { a.warp u with draft := {} } else a.warp u) ∧ (∀ e, e ≠ coreOf w → t.core e = a.core e) ∧
    t.core (coreOf w) = { a.core (coreOf w) with blot := (a.core (coreOf w)).blot.filter (fun b => decide (b.warp ≠ w))
                                                 scr := (t.core (coreOf w)).scr } ∧
    ∀ x, regionOf x = .scratch → t.scr (coreOf w) x = afterPuts ((a.drafted w).map (fun b => (b.ea, b.val))) x (a.scr (coreOf w) x) := by
  obtain ⟨hrest, hothers, hself, hscr⟩ := a.draftScr_spec w
  obtain ⟨b, hb⟩ : ∃ b, a.draftScr w = b := ⟨_, rfl⟩
  rw [hb] at hrest hothers hself hscr
  obtain ⟨d, hd⟩ : ∃ d, (b.setCore (coreOf w) { b.core (coreOf w) with blot := (b.core (coreOf w)).blot.filter (fun x => decide (x.warp ≠ w)) }).setWarp w
    { b.warp w with draft := {} } = d := ⟨_, rfl⟩
  have hbthr : ∀ k, d.thread k = s.thread k := State.thread_congr (by rw [← hd, ← hthr, hrest]; rfl)
  have hbwarp : ∀ u, b.warp u = a.warp u := State.warp_congr (by rw [hrest])
  have hdwarp : ∀ u, d.warp u = if u = w then { a.warp u with draft := {} } else a.warp u := fun u => by
    rw [← hd, State.warp_setWarp, hbwarp]
    refine ite_congr rfl (fun hu => by rw [hu]) fun _ => hbwarp u
  have hdcore : ∀ e, d.core e = if e = coreOf w then { b.core e with blot := (b.core e).blot.filter (fun x => decide (x.warp ≠ w)) } else b.core e := by
    intro e
    rw [← hd]
    exact (State.core_setCore ..).trans (ite_congr rfl (fun he => by rw [he]) fun _ => rfl)
  obtain ⟨hrest', hthreads⟩ := State.endWaits_spec (s := d) hstill.wid (ls := (a.warp w).draft.lanes) fun l hl => by
    rw [hbthr]
    exact hlanes l hl
  obtain ⟨t, ht⟩ : ∃ t, ((a.warp w).draft.lanes.map (threadOf w)).foldl (fun a u => a.endWait u) d = t := ⟨_, rfl⟩
  rw [ht] at hrest' hthreads
  simp only [hbthr] at hthreads
  have htwarp : ∀ u, t.warp u = d.warp u := State.warp_congr (by rw [hrest'])
  have htcore : ∀ e, t.core e = d.core e := State.core_congr (by rw [hrest'])
  have hkept : Kept s t w := by
    refine ⟨?_, ?_, ?_, ?_, fun k _ => ?_⟩
    · rw [hrest', ← hd, hrest]
      exact hctxs
    · rw [htwarp, hdwarp, if_pos rfl, ← hctx]
    · rw [htwarp, hdwarp, if_pos rfl, ← hhm]
    · rw [htwarp, hdwarp, if_pos rfl, ← hstop]
    · rw [hthreads]
      split
      · next h =>
        obtain ⟨l, hl, rfl⟩ := h
        exact Thread.meetsAs_retired (hlanes l hl).2 _
      · exact Thread.meetsAs_of_eq rfl rfl
  refine ⟨t, ?_, ?_, hthreads, fun u => by rw [htwarp, hdwarp], fun e he => ?_, ?_, fun x hx => ?_⟩
  · rw [State.draftEnd]
    simp only [hb, hd, ht]
    exact hstill.stepTrap_settle_eq hkept _
  · rw [hrest', ← hd, hrest]
    rfl
  · rw [htcore, hdcore, if_neg he, hothers e he]
  · rw [htcore, hdcore, if_pos rfl, hself]
  · rw [← hscr x hx, State.scr, State.scr, htcore, hdcore, if_pos rfl, State.isBad, State.isBad, hrest', ← hd]
    rfl

theorem State.drafted_congr {s a : State} {w : Nat} (hlanes : (a.warp w).draft.lanes = (s.warp w).draft.lanes)
    (hblot : (a.core (coreOf w)).blot = (s.core (coreOf w)).blot) : a.drafted w = s.drafted w := by
  rw [State.drafted, State.drafted, hlanes, hblot]

theorem State.scr_congr {s a : State} {c : Nat} (hscr : (a.core c).scr = (s.core c).scr) (hbad : a.bad = s.bad) (x : Int) : a.scr c x = s.scr c x := by
  rw [State.scr, State.scr, State.isBad, State.isBad, hscr, hbad]

theorem exec_inkRetire_due {s : State} {w : Nat} {v : Int} (hhere : (Tab.find s.wrp w).isSome = true) (hink : (s.warp w).draft.ink = .going v)
    (hdue : v ≤ s.now (coreOf w)) : exec (.inkRetire w) s =
      .next (((s.supersede w).setWarp w (s.later (s.warp w) v)).draftEnd w) := by
  obtain ⟨hrest, -, -⟩ := s.supersede_spec w
  have hwrp : (s.supersede w).wrp = s.wrp := by rw [hrest]
  have hlater : ∀ x : Warp, (s.supersede w).later x v = s.later x v := fun x => by rw [hrest]; rfl
  have hraise : (s.supersede w).raiseRT w v = (s.supersede w).setWarp w (s.later (s.warp w) v) := by
    rw [State.raiseRT_eq (by rw [hwrp]; exact hhere), State.warp_congr hwrp, hlater]
  change execInkRetire w s = _
  rw [execInkRetire, State.inkAt, hink]
  simp only [if_neg hdue.not_gt, hraise]

theorem State.inkRetire_spec {s : State} {w : Nat} {v : Int} (hstill : Still s w)
    (hlanes : ∀ l ∈ (s.warp w).draft.lanes, l < 16 ∧ (s.thread (threadOf w l)).st = .waiting) :
    ∃ t, ((s.supersede w).setWarp w (s.later (s.warp w) v)).draftEnd w = t ∧
    t = { s with thr := t.thr, wrp := t.wrp, cor := t.cor, bad := t.bad, reqs := t.reqs } ∧
    t.reqs = (s.supersede w).reqs ∧
    (∀ k, t.thread k = if ∃ l ∈ (s.warp w).draft.lanes, k = threadOf w l then (s.thread k).retired (s.thread k).next else s.thread k) ∧
    (∀ u, t.warp u = if u = w then { s.later (s.warp u) v with draft := {} } else s.warp u) ∧
    (∀ e, e ≠ coreOf w → t.core e = s.core e) ∧
    t.core (coreOf w) = { s.core (coreOf w) with blot := (s.core (coreOf w)).blot.filter (fun b => decide (b.warp ≠ w))
                                                 scr := (t.core (coreOf w)).scr, l1 := (t.core (coreOf w)).l1 } ∧
    ∀ a, regionOf a = .scratch → t.scr (coreOf w) a = afterPuts ((s.drafted w).map (fun b => (b.ea, b.val))) a (s.scr (coreOf w) a) := by
  obtain ⟨hrest, hothers, hself⟩ := s.supersede_spec w
  obtain ⟨b, hb⟩ : ∃ b, s.supersede w = b := ⟨_, rfl⟩
  rw [hb] at hrest hothers hself
  rw [hb]
  have hkept : ∀ u, b.warp u = s.warp u := State.warp_congr (by rw [hrest])
  have hwarps : ∀ u, (b.setWarp w (s.later (s.warp w) v)).warp u = if u = w then s.later (s.warp u) v else s.warp u := fun u => by
    rw [State.warp_setWarp, hkept]
    exact ite_congr rfl (fun hu => by rw [hu]) fun _ => rfl
  have hlater : (b.setWarp w (s.later (s.warp w) v)).warp w = s.later (s.warp w) v := by rw [hwarps, if_pos rfl]
  have hlanes' : ((b.setWarp w (s.later (s.warp w) v)).warp w).draft.lanes = (s.warp w).draft.lanes := by
    rw [hlater]
    rfl
  have hcores : ∀ e, (b.setWarp w (s.later (s.warp w) v)).core e = b.core e := fun _ => rfl
  obtain ⟨t, ht, hrest', hthr, hwrp, hothers', hself', hscr⟩ := State.draftEnd_spec (a := b.setWarp w (s.later (s.warp w) v)) hstill
    (by rw [hrest]; rfl) (by rw [hrest]; rfl) (by rw [hlater]; rfl) (by rw [hlater]; rfl) (by rw [hlater]; rfl) (by rw [hlanes']; exact hlanes)
  refine ⟨t, ht, ?_, by rw [hrest']; rfl, ?_, fun u => ?_, fun e he => ?_, ?_, fun x hx => ?_⟩
  · rw [hrest', hrest]
    rfl
  · rwa [hlanes'] at hthr
  · rw [hwrp, hwarps]
    exact ite_congr rfl (fun hu => by rw [if_pos hu]) fun hu => if_neg hu
  · rw [hothers' e he, hcores, hothers e he]
  · rw [hself', hcores, hself]
  · rw [hscr x hx, State.drafted_congr hlanes' (by rw [hcores, hself]), State.scr_congr (s := s) (by rw [hcores, hself]) (by rw [hrest]; rfl)]

/-- Settles O38, phase by phase: the home notes a prepare; the prepares' requests make way for commits; a commit writes its line; and at
V the draft ends, each of its lanes retiring. -/
theorem draftCommits : Obligations.DraftCommits := by
  refine ⟨fun s id r w v chk wr l hreq hstage hkind haway harrived hbehind hcached hperm hleases hpreps htimed hwrites => ?_,
    fun s w v hink hnum hback hall htime => State.draftDecision_spec hink hnum hback hall htime,
    fun s id r w v tr hreq hkind hstage haway hdue harrived hplain hl2 => ?_, fun s w v hstill hink hdue hlanes => ?_⟩
  · obtain ⟨t, ht, hhome, hreqs, -, -, -, hlines⟩ := State.setHline_reply_spec (r := { r with pa := l.phys (offOf r.ea), leaf := some l })
      (OnlyHome.refl s r.own) rfl (lineOf (l.phys (offOf r.ea))) { s.hline r.own (lineOf (l.phys (offOf r.ea))) with
        preps := (s.hline r.own (lineOf (l.phys (offOf r.ea)))).preps ++ [{ warp := w, v := v, wr := wr }]
        grants := if chk.isSome ∧ l.w = true then extendLease (s.hline r.own (lineOf (l.phys (offOf r.ea)))).grants r.core v
          else (s.hline r.own (lineOf (l.phys (offOf r.ea)))).grants } 1 0
    refine ⟨t, ?_, hhome, hreqs, hlines⟩
    rw [exec_draftPrepare_accepted hreq hstage hkind haway harrived hbehind hcached hperm hleases hpreps htimed hwrites]
    exact congrArg _ ht
  · obtain ⟨a, t, ha, ht, heffect⟩ := State.draftCommit_spec (v := v) (w := w) hl2
    exact ⟨t, by rw [exec_draftCommitArrival_due hreq hkind hstage haway hdue harrived hplain ha, ht], heffect⟩
  · obtain ⟨t, ht, heffect⟩ := State.inkRetire_spec (v := v) hstill hlanes
    exact ⟨t, by rw [exec_inkRetire_due hstill.here hink hdue, ht], heffect⟩

end Sys2Proof.Machine
end

section
/-! The copy engine's pieces of work: a source's sector read whole at its home, a tryte written at its own, the match of the scale
queue, stops and completions (R139, R140, R330, R337, R338). -/

namespace Sys2Proof.Machine

/-! Copies of a core. -/

theorem State.core_setCopy (s : State) (c : Nat) (x : Copy) (k : Nat) : (s.setCopy c x).core k =
    if k = c then { s.core k with copies := putCopy x (s.core k).copies } else s.core k := by
  rw [State.setCopy, State.core_setCore]
  exact ite_congr rfl (fun hk => by rw [hk]; rfl) fun _ => rfl

theorem Copy.softly_nil (x : Copy) : x.softly [] = x := by
  simp [Copy.softly]

theorem exec_copyElementTransfer_done {s : State} {c i : Nat} {x : Copy} {t : State} (hcopy : s.copyOf c i = some x)
    (hmove : s.copyMove c x = .done t) : exec (.copyElementTransfer c i) s = .next t := by
  change execCopyElementTransfer c i s = _
  simp only [execCopyElementTransfer, hcopy, hmove]

/-! Ternary copies element by element (R319, R322). -/

theorem srcSide_t9 {o : CpOpt} (hmode : o.mode = .tt) (hty : o.tty = .t9) : srcSide o = .tern .tr := by
  rw [srcSide, hmode, hty]
  rfl

theorem dstSide_t9 {o : CpOpt} (hmode : o.mode = .tt) (hty : o.tty = .t9) : dstSide o = .tern .tr := by
  rw [dstSide, hmode, hty]
  rfl

theorem covers_tr (a : Int) : covers .tr a = [a] := by
  simp [covers, szLen, szLow]

theorem misaligned_tr (a : Int) : misaligned .tr a = false := rfl

/-- One address that can be used at once. -/
theorem State.copyAts_single {s : State} {c ctx n : Nat} {tern : Bool} {k : CUse} {a : Int} {p : CAt} (hat : s.copyAt c ctx tern k n a = (s, p))
    (hok : p.ok = true) : s.copyAts c ctx tern k n [a] = (s, [(a, p)]) := by
  simp only [State.copyAts, hat, hok, if_true]

/-- The engine's work on a linear copy whose source is no ring begins with its reads. -/
theorem State.copyMove_lin_error {s : State} {c : Nat} {x : Copy} {m : Move1} (hgoes : s.copyGoes c x) (hform : x.form = .lin) (hmode : x.o.mode = .tt)
    (hring : x.o.sring = none) (hreads : s.copyReads c ((s.core c).blk.getD (0, 0)).1 x x.pos x.batch = .error m) : s.copyMove c x = m := by
  obtain ⟨hstop, hpark, hpos, hdrop, hheard, hsave⟩ := hgoes
  simp [State.copyMove, hstop, hpark, hpos.not_ge, hdrop, hheard.not_gt, hsave, hform, hmode, hring, hreads]

theorem State.copyMove_lin_ok {s : State} {c : Nat} {x : Copy} {g : State × Copy × List (List Int)} (hgoes : s.copyGoes c x) (hform : x.form = .lin)
    (hmode : x.o.mode = .tt) (hring : x.o.sring = none)
    (hreads : s.copyReads c ((s.core c).blk.getD (0, 0)).1 x x.pos x.batch = .ok g) :
    s.copyMove c x = g.1.copyWrites c ((s.core c).blk.getD (0, 0)).1 g.2.1 g.2.2 := by
  obtain ⟨hstop, hpark, hpos, hdrop, hheard, hsave⟩ := hgoes
  simp [State.copyMove, hstop, hpark, hpos.not_ge, hdrop, hheard.not_gt, hsave, hform, hmode, hring, hreads]

theorem Copy.batch_t9 {x : Copy} (hmode : x.o.mode = .tt) (hty : x.o.tty = .t9) : x.batch = 1 := by
  rw [Copy.batch, dstSide_t9 hmode hty, if_neg (by decide)]

/-- A source tryte whose sector is not at hand: the sector is read first (R139). -/
theorem State.copyReads_unread {s : State} {c ctx : Nat} {x : Copy} {p : CAt} {k n : Nat} (hmode : x.o.mode = .tt) (hty : x.o.tty = .t9)
    (hat : s.copyAt c ctx true .read 1 (x.srcAddr k) = (s, p)) (hok : p.ok = true) (hlacks : x.lacks (x.srcAddr k, p) = true) :
    s.copyReads c ctx x k (n + 1) =
      .error (.done ((s.copyLoad c ctx x (x.srcAddr k) p).1.setCopy c (s.copyLoad c ctx x (x.srcAddr k) p).2)) := by
  have hgood : notOk false [(x.srcAddr k, p)] = none := by
    cases p <;> simp [CAt.ok] at hok <;> rfl
  simp only [State.copyReads, srcSide_t9 hmode hty, Side.cells, covers_tr, State.copyAts_single hat hok, misaligned_tr, hgood, Copy.unread,
    List.any_cons, List.any_nil, hlacks, Bool.or_false, if_true, Bool.false_eq_true, if_false, State.copyLoads, List.foldl_cons, List.foldl_nil]

/-! The read of a sector (R112, R139). -/

/-- The trytes of a sector, by their places. -/
theorem secOf_place (k : Int) {i : Nat} (hi : i < 27) : secOf (27 * k - 13 + (i : Int)) = k := by
  have hsplit : 27 * k - 13 + (i : Int) = ((i : Int) - 13) + pow3 3 * k := by
    have : pow3 3 = 27 := rfl
    rw [this]
    ring
  rw [secOf, hsplit]
  refine shr_add_pow3_mul ?_ k
  have : half 3 = 13 := rfl
  rw [this, abs_le]
  omega

theorem secPos_place (k : Int) {i : Nat} (hi : i < 27) : secPos (27 * k - 13 + (i : Int)) = i := by
  have hsplit : 27 * k - 13 + (i : Int) = ((i : Int) - 13) + pow3 3 * k := by
    have : pow3 3 = 27 := rfl
    rw [this]
    ring
  have hhalf : half 3 = 13 := rfl
  have hwrap : wrap (27 * k - 13 + (i : Int)) 3 = (i : Int) - 13 := by
    rw [hsplit]
    refine wrap_add_pow3_mul ?_ k
    rw [hhalf, abs_le]
    omega
  have hread := offF_eq (27 * k - 13 + (i : Int)) 0 3
  rw [fld, shr_zero, hwrap, hhalf] at hread
  unfold secPos
  omega

/-- The trytes of a sector by address, as a copy reads them. -/
def secAddrs (k : Int) : List Int := (List.range 27).map (fun (i : Nat) => 27 * k - 13 + (i : Int))

theorem mem_secAddrs {k a : Int} : a ∈ secAddrs k ↔ ∃ i : Nat, i < 27 ∧ 27 * k - 13 + (i : Int) = a := by
  simp [secAddrs]

/-- A sector that its slice holds whole, without an error. -/
def State.secWhole (s : State) (own : Nat) (k : Int) : Prop := ∀ i, i < 27 → ∃ y, Tab.find (s.sec own k false).tr i = some y ∧ y.lost = false

theorem State.secHas_of_whole {s : State} {own : Nat} {k : Int} (h : s.secWhole own k) : s.secHas own (secAddrs k) false = true := by
  refine List.all_eq_true.mpr fun a ha => ?_
  obtain ⟨i, hi, rfl⟩ := mem_secAddrs.mp ha
  obtain ⟨y, hy, -⟩ := h i hi
  rw [secOf_place k hi, secPos_place k hi, hy]
  rfl

theorem State.lostAt_of_whole {s : State} {own : Nat} {k : Int} (h : s.secWhole own k) : s.lostAt own (secAddrs k) false = false := by
  refine List.any_eq_false.mpr fun a ha => ?_
  obtain ⟨i, hi, rfl⟩ := mem_secAddrs.mp ha
  obtain ⟨y, hy, hlost⟩ := h i hi
  rw [secOf_place k hi, secPos_place k hi, hy]
  simp [hlost]

/-- Outside a deterministic context no block owns a line (R359). -/
theorem State.touchAs_of_plain {s : State} {ctx : Nat} (hplain : (s.ctx ctx).lr.det = false) (core bid key : Nat) (wr : Bool) (va : Int) :
    s.touchAs ctx core bid key wr va = (s, false) := by
  simp [State.touchAs, hplain]

theorem State.copyRead_whole {s : State} {c ctx : Nat} {x : Copy} {own : Nat} {pa : Int} {l : Leaf} (hplain : (s.ctx ctx).lr.det = false)
    (hcmp : l.cmp = false) (hbad : x.bad = []) (hwhole : s.secWhole own (secOf pa)) (a : Int) : s.copyRead c ctx x a (.mem own pa l) =
      (s, x, (secAddrs (secOf pa)).map (fun b => s.homeTryte own b false)) := by
  have hfill : s.fillFor own (secAddrs (secOf pa)) false ctx (dieIdx c) (l.slices own) = (s, []) :=
    State.fillFor_of_has (State.secHas_of_whole hwhole) ctx (dieIdx c) (l.slices own)
  have hlost : s.lostRead own (secAddrs (secOf pa)) false ctx (dieIdx c) = (s, []) := by
    rw [State.lostRead, if_neg (by rw [State.lostAt_of_whole hwhole]; decide)]
  rw [secAddrs] at hfill hlost
  simp only [State.copyRead, State.touchAs_of_plain hplain, hbad, hcmp, hfill, hlost, List.contains_nil, Bool.false_eq_true, false_and, if_false,
    List.append_nil, Copy.softly_nil]
  rfl

/-- A tryte of a sector that is read whole (R139). -/
theorem State.copyLoad_whole {s : State} {c ctx : Nat} {x : Copy} {own : Nat} {pa : Int} {l : Leaf} (hplain : (s.ctx ctx).lr.det = false)
    (hcmp : l.cmp = false) (hbad : x.bad = []) (hwhole : s.secWhole own (secOf pa)) (a : Int) : s.copyLoad c ctx x a (.mem own pa l) =
      (s, { x with buf := (own * 4, secOf pa, (List.range 27).map (fun (n : Nat) => s.homeTryte own (27 * secOf pa - 13 + (n : Int)) false)) :: x.buf
                   heard := max x.heard (s.dieSt own).clk }) := by
  have hown : own * 4 / 4 = own := by omega
  simp only [State.copyLoad, CAt.place, State.copyRead_whole hplain hcmp hbad hwhole, hcmp, Bool.toNat_false, Nat.add_zero, hown, secAddrs, List.map_map]
  rfl

/-! The write of a tryte (R127, R139). -/

/-- An element that a search finds is one. -/
theorem any_of_find? {α : Type} {p : α → Bool} {l : List α} {b : α} (h : l.find? p = some b) : l.any p = true :=
  List.any_eq_true.mpr ⟨b, List.mem_of_find?_eq_some h, List.find?_some h⟩

/-- A unit of a sector that has been read comes from the copy's buffer (R139). -/
theorem State.copyGet_buffered {c ctx : Nat} {x : Copy} {so : Nat} {sp : Int} {sl : Leaf} {ts : List Int}
    (hbuf : (x.buf.find? (fun b => decide (b.1 = so * 4 + sl.cmp.toNat) && decide (b.2.1 = secOf sp))).map (·.2.2) = some ts) (s : State) (a : Int) :
    s.copyGet c ctx x a (.mem so sp sl) = (s, x, ts.getD (secPos sp) 0) := by
  obtain ⟨b, hb, rfl⟩ := Option.map_eq_some_iff.mp hbuf
  simp only [State.copyGet, CAt.place, hb, Option.map_some, Option.getD_some]

theorem Copy.not_lacks_buffered {x : Copy} {so : Nat} {sp : Int} {sl : Leaf} {ts : List Int}
    (hbuf : (x.buf.find? (fun b => decide (b.1 = so * 4 + sl.cmp.toNat) && decide (b.2.1 = secOf sp))).map (·.2.2) = some ts) (a : Int) :
    x.lacks (a, .mem so sp sl) = false := by
  obtain ⟨b, hb, -⟩ := Option.map_eq_some_iff.mp hbuf
  rw [Copy.lacks, CAt.place, Option.any_some, any_of_find? hb]
  rfl

/-- A source tryte whose sector has been read (R139). -/
theorem State.copyReads_read {s : State} {c ctx : Nat} {x : Copy} {so : Nat} {sp : Int} {sl : Leaf} {k : Nat} {ts : List Int} (hmode : x.o.mode = .tt)
    (hty : x.o.tty = .t9) (hat : s.copyAt c ctx true .read 1 (x.srcAddr k) = (s, .mem so sp sl))
    (hbuf : (x.buf.find? (fun b => decide (b.1 = so * 4 + sl.cmp.toNat) && decide (b.2.1 = secOf sp))).map (·.2.2) = some ts) :
    s.copyReads c ctx x k 1 = .ok (s, x, [[ts.getD (secPos sp) 0]]) := by
  have hgood : notOk false [(x.srcAddr k, CAt.mem so sp sl)] = none := rfl
  simp only [State.copyReads, srcSide_t9 hmode hty, Side.cells, covers_tr, if_true, State.copyAts_single hat rfl, misaligned_tr, hgood, Copy.unread,
    List.any_cons, List.any_nil, Copy.not_lacks_buffered hbuf, Bool.or_false, Bool.false_eq_true, if_false, State.copyGets,
    State.copyGet_buffered hbuf, convElem, hmode]

/-- One tryte written at its home: the copy keeps the W and goes on to its next element (R127, R139). -/
theorem State.copyWrites_tryte {s : State} {c ctx : Nat} {x : Copy} {d : Nat} {dp : Int} {dl : Leaf} {v : Int} (hform : x.form = .lin)
    (hmode : x.o.mode = .tt) (hty : x.o.tty = .t9) (hsring : x.o.sring = none) (hdring : x.o.dring = none)
    (hat : s.copyAt c ctx true .write 1 (x.dstAddr x.pos) = (s, .mem d dp dl)) (hplain : (s.ctx ctx).lr.det = false) :
    s.copyWrites c ctx x [[v]] = .done (((s.homePut d false ctx [(dp, v)] (dl.slices d)).wrote d (lineOf dp)).setCopy c
      { x with pos := x.pos + 1, w := max x.w (s.wOf d (lineOf dp)) }) := by
  have hgood : notOk true [(x.dstAddr x.pos, CAt.mem d dp dl)] = none := rfl
  have hplace : ¬ x.form = .vellum := by rw [hform]; decide
  simp only [State.copyWrites, hdring, dstSide_t9 hmode hty, if_neg hplace, Side.cells, covers_tr, if_true, State.copyAts_single hat rfl,
    misaligned_tr, hgood, Bool.false_eq_true, if_false]
  simp only [List.headD_cons, List.zip_cons_cons, List.zip_nil_right, State.copyPuts, State.copyPut, State.touchAs_of_plain hplain, Bool.false_eq_true,
    if_false, hsring, Option.isSome_none, false_and]
  rfl

/-- What one tryte written at its home leaves, where its slice holds its line. -/
theorem State.trytePut_spec {s : State} {c d ctx : Nat} {dp v : Int} {dl : Leaf} (hl2 : s.l2Has d (dl.slices d) [lineOf dp]) (x : Copy) :
    ∃ t, ((s.homePut d false ctx [(dp, v)] (dl.slices d)).wrote d (lineOf dp)).setCopy c x = t ∧
    t = { s with cor := t.cor, die := t.die } ∧
    (∀ a, |a| ≤ half 47 → t.homeTryte d a false = afterPuts [(dp, v)] a (s.homeTryte d a false)) ∧
    (∀ k, k ≠ d → t.dieSt k = s.dieSt k) ∧ t.dieSt d = { s.dieSt d with l2 := (t.dieSt d).l2, lines := (t.dieSt d).lines } ∧
    ∀ k, t.core k = if k = c then { s.core k with copies := putCopy x (s.core k).copies } else s.core k := by
  obtain ⟨b, hb, hrest, hdie, hread⟩ := State.homePut_spec (ctx := ctx) (tr := [(dp, v)]) (ls := [lineOf dp]) (by simp) hl2
  have hwrote : ∀ k, ((b.wrote d (lineOf dp)).setCopy c x).dieSt k = if k = d then
      { b.dieSt k with lines := (((b.wrote d (lineOf dp)).setCopy c x).dieSt k).lines } else b.dieSt k := fun k => by
    change (b.wrote d (lineOf dp)).dieSt k = if k = d then { b.dieSt k with lines := ((b.wrote d (lineOf dp)).dieSt k).lines } else b.dieSt k
    rw [State.wrote, State.dieSt_setHline]
    split
    · rfl
    · rfl
  refine ⟨_, by rw [hb], ?_, fun a ha => ?_, fun k hk => ?_, ?_, fun k => ?_⟩
  · rw [State.setCopy, State.setCore, State.wrote, State.setHline, hrest]
    rfl
  · rw [← hread a ha]
    exact State.homeTryte_congr (s := b) (t := (b.wrote d (lineOf dp)).setCopy c x) (by rw [hwrote, if_pos rfl]) rfl rfl a
  · rw [hwrote, if_neg hk, hdie, if_neg hk]
  · rw [hwrote, if_pos rfl, hdie, if_pos rfl]
  · rw [State.core_setCopy, State.core_congr (s := s) (by rw [State.wrote, State.setHline, hrest]; rfl)]

/-! The scale queue (R337, R338). -/

/-- A match passes the entries before the one of its tag, counting those that no match has used. -/
theorem matchQ_append {tg : Int} {l q : List SqEnt} {h : SqEnt} (hl : ∀ e ∈ l, 0 < wrap (tg - e.tag) 9) (htag : h.tag = tg) :
    matchQ tg (l ++ h :: q) = some ({ h with used := true } :: q, some h.scale, ((l.countP (fun e => !e.used) : Nat) : Int)) := by
  induction l with
  | nil =>
    have hzero : wrap (tg - h.tag) 9 = 0 := by rw [htag, Int.sub_self]; rfl
    rw [List.nil_append, matchQ]
    simp only [hzero, if_true]
    rfl
  | cons e l ih =>
    obtain ⟨he, hl⟩ := List.forall_mem_cons.mp hl
    rw [List.cons_append, matchQ]
    simp only [if_neg he.ne', if_pos he, ih hl, Option.map_some, List.countP_cons]
    cases e.used <;> simp

theorem exec_scaleQueueMatch_found {s : State} {c i : Nat} {x : Copy} {l q : List SqEnt} {h : SqEnt} (hcopy : s.copyOf c i = some x)
    (hmode : x.o.mode = .q) (hunmatched : x.matched = false) (hgoing : x.stopped = false) (hturn : s.sqTurn c x = true)
    (hqueue : (s.core c).sq = l ++ h :: q) (hl : ∀ e ∈ l, 0 < wrap (x.o.tag - e.tag) 9) (htag : h.tag = x.o.tag)
    (hscale : (useScale h.scale).2 = false) : exec (.scaleQueueMatch c i) s =
      .next (((s.setCore c { s.core c with sq := { h with used := true } :: q }).count ((s.core c).blk.getD (0, 0)).1 (dieIdx c) 42
        ((l.countP (fun e => !e.used) : Nat) : Int)).setCopy c { x with matched := true, scale := (useScale h.scale).1 }) := by
  change execScaleQueueMatch c i s = _
  simp only [execScaleQueueMatch, hcopy, hmode, hunmatched, hgoing, hturn, hqueue, matchQ_append hl htag, hscale, Bool.false_eq_true, if_false,
    Copy.softly_nil]
  rfl

/-! Stops (R330). -/

theorem exec_copyStop_gather {s : State} {c i : Nat} {x : Copy} {q : Nat} (hcopy : s.copyOf c i = some x) (hgoes : s.copyGoes c x)
    (hform : x.form = .gather) (hmode : x.o.mode = .tt) (hrow : x.idxs.length ≤ x.pos / x.rowLen)
    (hport : x.idxPort = some q) (hempty : s.port c q = []) (hclosed : s.portClosed c ((s.core c).blk.getD (0, 0)).1 q = true) :
    exec (.copyStop c i) s = .next (s.stopCopy c x 0) := by
  obtain ⟨hstop, hpark, hpos, hdrop, hheard, hsave⟩ := hgoes
  have hmove : s.copyMove c x = .stop 0 := by
    simp [State.copyMove, hstop, hpark, hpos.not_ge, hdrop, hheard.not_gt, hsave, hform, hmode, hrow, hport, hempty, hclosed]
  change execCopyStop c i s = _
  simp only [execCopyStop, hcopy, hmove]

/-- A copy of no source ring stops: its warp, which runs, owes PERM in the copy's lanes (R330, R403). -/
theorem State.stopCopy_spec {s : State} {c : Nat} {x : Copy} (hring : x.o.sring = none) (hpark : x.parked = none) (hnodup : x.lanes.Nodup)
    (hruns : (s.warp x.warp).out.any (fun g => decide (g.gid = x.gid)) = true) : ∃ t, s.stopCopy c x 0 = t ∧
    t = { s with thr := t.thr, cor := t.cor } ∧
    (∀ k, t.core k = if k = c then { s.core k with copies := putCopy { x with stopped := true } (s.core k).copies } else s.core k) ∧
    ∀ u, t.thread u = if u ∈ x.lanes.map (threadOf x.warp) then (s.thread u).deferred 5 else s.thread u := by
  obtain ⟨hrest, hread⟩ := fold_threads_read s (fun a u => a.defer u 5 0) (·.deferred 5) (x.lanes.map (threadOf x.warp))
    (nodup_map_threadOf hnodup) fun a u _ => a.defer_spec u 5
  have hcause : s.copyCause x 5 0 = (x.lanes.map (threadOf x.warp)).foldl (fun a u => a.defer u 5 0) s := by
    rw [State.copyCause, if_pos hruns, List.foldl_map]
  have hcopy : ({ x with stopped := true, parked := none } : Copy) = { x with stopped := true } := by rw [← hpark]
  obtain ⟨b, hb⟩ : ∃ b, (x.lanes.map (threadOf x.warp)).foldl (fun a u => a.defer u 5 0) s = b := ⟨_, rfl⟩
  rw [hb] at hrest hread hcause
  have hstop : s.stopCopy c x 0 = b.setCopy c { x with stopped := true } := by
    simp [State.stopCopy, hcause, hring, hcopy]
  refine ⟨_, hstop, ?_, fun k => ?_, hread⟩
  · rw [hrest]
    rfl
  · rw [State.core_setCopy, State.core_congr (s := s) (by rw [hrest])]

/-! Completions (R140, R329). -/

/-- The state after a copy has left its core with a token. -/
def State.copyGone (s : State) (c i : Nat) (x : Copy) : State :=
  let a := s.pushToken c 9 (x.o.tag + (if x.stopped then -1 else if x.soft then 0 else 1) * pow3 9) x.w
  a.setCore c { a.core c with copies := (a.core c).copies.filter (fun y => decide (y.id ≠ i)) }

theorem State.copyGone_spec (s : State) (c i : Nat) (x : Copy) : let t := s.copyGone c i x
    t = { s with cor := t.cor } ∧ (∀ k, k ≠ c → t.core k = s.core k) ∧
    t.core c = { s.core c with ports := (t.core c).ports, tokW := (t.core c).tokW
                               copies := (s.core c).copies.filter (fun y => decide (y.id ≠ i)) } ∧
    (∀ q, Tab.get [] (t.core c).tokW q = if q = 9 then Tab.get [] (s.core c).tokW q ++ [x.w] else Tab.get [] (s.core c).tokW q) ∧
    ∀ q, t.port c q = if q = 9 then s.port c q ++ [x.o.tag + (if x.stopped then -1 else if x.soft then 0 else 1) * pow3 9] else s.port c q := by
  refine ⟨rfl, fun k hk => ?_, ?_, fun q => ?_, fun q => ?_⟩
  · rw [State.copyGone, State.core_setCore, if_neg hk, State.pushToken, State.core_setPort, if_neg hk, State.core_setCore, if_neg hk]
  · rw [State.copyGone, State.core_setCore_self, State.pushToken, State.setPort, State.core_setCore_self, State.core_setCore_self]
  · simp only [State.copyGone, State.pushToken, State.setPort, State.core_setCore_self, Tab.get_put]
    exact ite_congr rfl (fun hq => by rw [hq]) fun _ => rfl
  · simp only [State.port, State.copyGone, State.pushToken, State.setPort, State.core_setCore_self, Tab.get_set]
    exact ite_congr rfl (fun hq => by rw [hq]) fun _ => rfl

theorem exec_copyComplete_token {s : State} {c i : Nat} {x : Copy} (hcopy : s.copyOf c i = some x) (hdone : x.stopped = true ∨ x.count ≤ x.pos)
    (hpast : max x.w x.heard ≤ s.now c) (hmode : x.o.mode ≠ .q) (hform : x.form ≠ .vellum) (hfolios : x.dfol = []) (htok : x.o.tok = true)
    (hroom : (s.port c 9).length < 81) (hhere : (Tab.find s.wrp x.warp).isSome = true) : exec (.copyComplete c i) s =
      .next ((((((s.copyGone c i x).setWarp x.warp { s.warp x.warp with cpW := max (s.warp x.warp).cpW x.w }).ctxRT
        ((s.core c).blk.getD (0, 0)).1 x.w)).doneLane x.warp x.gid).settle x.warp) := by
  have hdone' : (x.stopped || decide (x.count ≤ x.pos)) = true := by simpa using hdone
  have hfind : Tab.find (s.copyGone c i x).wrp x.warp = some (s.warp x.warp) := State.find_warp hhere
  change execCopyComplete c i s = _
  simp only [execCopyComplete, hcopy, hdone', hpast.not_gt, hmode, htok, hroom.not_ge, hfolios, List.zipIdx_nil, List.foldl_nil, if_neg hform]
  simp only [Bool.not_true, Bool.false_eq_true, false_and, and_false, or_self, if_false, if_true]
  rw [show Tab.find ((s.pushToken c 9 _ x.w).setCore c _).wrp x.warp = some (s.warp x.warp) from hfind]
  rfl

theorem State.copyComplete_spec {s a : State} {x : Copy} (hstill : Still s x.warp) (hrest : a = { s with cor := a.cor }) (ctx : Nat) :
    ∃ t, ((((a.setWarp x.warp { s.warp x.warp with cpW := max (s.warp x.warp).cpW x.w }).ctxRT ctx x.w)).doneLane x.warp x.gid).settle x.warp = t ∧
    t = { s with cor := a.cor, wrp := t.wrp, ctxs := t.ctxs } ∧
    (∀ w, t.warp w = if w = x.warp then { s.warp w with cpW := max (s.warp w).cpW x.w }.less x.gid else s.warp w) ∧
    ∀ k, t.ctx k = if k = ctx then { s.ctx k with rtN := max (s.ctx k).rtN (x.w + s.guard .domain) } else s.ctx k := by
  obtain ⟨b, hb⟩ : ∃ b, (a.setWarp x.warp { s.warp x.warp with cpW := max (s.warp x.warp).cpW x.w }).ctxRT ctx x.w = b := ⟨_, rfl⟩
  have hself : b.warp x.warp = { s.warp x.warp with cpW := max (s.warp x.warp).cpW x.w } := by
    rw [← hb]
    exact State.warp_setWarp_self ..
  have hhere : (Tab.find b.wrp x.warp).isSome = true := by
    rw [← hb]
    change (Tab.find (Tab.put _ _ _) _).isSome = true
    rw [Tab.find_put, if_pos rfl]
    rfl
  have hsettled : (b.setWarp x.warp ((b.warp x.warp).less x.gid)).settle x.warp = b.setWarp x.warp ((b.warp x.warp).less x.gid) := by
    refine hstill.settle_eq_of_meetsAs ?_ fun k _ => ?_
    · rw [State.warp_setWarp_self, hself]
      exact hstill.going
    · have hthreads : ∀ k, (b.setWarp x.warp ((b.warp x.warp).less x.gid)).thread k = s.thread k := State.thread_congr (by
        rw [← hb, hrest]
        rfl)
      rw [hthreads]
      exact Thread.meetsAs_of_eq rfl rfl
  refine ⟨_, by rw [hb, State.doneLane_eq hhere, hsettled], ?_, fun w => ?_, fun k => ?_⟩
  · rw [← hb, hrest]
    rfl
  · rw [State.warp_setWarp, hself]
    refine ite_congr rfl (fun hw => by rw [hw]) fun hw => ?_
    rw [← hb, hrest]
    exact (State.warp_setWarp ..).trans (if_neg hw)
  · rw [← hb, hrest]
    refine (State.ctx_setCtx ..).trans (ite_congr rfl (fun hk => ?_) fun _ => rfl)
    rw [hk]
    rfl

/-! The end of a Scribe program (R342). -/

theorem coreOf_scribeWarp (c : Nat) : coreOf (scribeWarp c) = c := by
  unfold coreOf scribeWarp
  omega

/-- A warp all of whose threads have exited and that counts no load leaves, where its core's Scribe runs no program and no claim waits
(R269). -/
theorem State.freeWarp_eq {s : State} {w : Nat} {x : Warp} (hfind : Tab.find s.wrp w = some x)
    (hexit : ∀ u ∈ threadsOf w, (s.thread u).st = .exited) (hld : cntOf .ld x = 0)
    (hscribe : (s.core (coreOf w)).scribe.state ≠ 2) (hclaims : (s.core (coreOf w)).claims = []) : s.freeWarp w =
      { s with thr := s.thr.filter (fun p => decide (warpOf p.1 ≠ w)), wrp := Tab.del w s.wrp
               ctxs := (s.setCtx x.ctx { s.ctx x.ctx with rtN := max (s.ctx x.ctx).rtN x.rtN }).ctxs
               cor := (s.setCore (coreOf w) (s.core (coreOf w))).cor } := by
  have hgoes : ((threadsOf w).all (fun t => decide ((s.thread t).st = .exited)) && decide (cntOf .ld x = 0) &&
      (decide (widOf w ≠ 27) || decide ((s.core (coreOf w)).scribe.state ≠ 2))) = true := by
    simp only [Bool.and_eq_true, List.all_eq_true, decide_eq_true_eq, Bool.or_eq_true]
    exact ⟨⟨hexit, hld⟩, .inr hscribe⟩
  have hcore : { s.core (coreOf w) with claims := [] } = s.core (coreOf w) := by rw [← hclaims]
  simp only [State.freeWarp, hfind, hgoes, if_true, hclaims, List.filter_nil, hcore]
  rfl

theorem State.freeWarp_spec {s : State} {w : Nat} (hexit : ∀ u ∈ threadsOf w, (s.thread u).st = .exited) (hld : cntOf .ld (s.warp w) = 0)
    (hscribe : (s.core (coreOf w)).scribe.state ≠ 2) (hclaims : (s.core (coreOf w)).claims = []) : ∃ t, s.freeWarp w = t ∧
    t = { s with thr := t.thr, wrp := t.wrp, cor := t.cor, ctxs := t.ctxs } ∧ Tab.find t.wrp w = none ∧ (∀ v, v ≠ w → t.warp v = s.warp v) ∧
    (∀ u, warpOf u ≠ w → t.thread u = s.thread u) ∧ ∀ k, t.core k = s.core k := by
  cases hfind : Tab.find s.wrp w with
  | none =>
    refine ⟨s, ?_, rfl, hfind, fun _ _ => rfl, fun _ _ => rfl, fun _ => rfl⟩
    simp only [State.freeWarp, hfind]
  | some x =>
    have hx : s.warp w = x := Tab.get_of_find _ _ _ _ hfind
    refine ⟨_, State.freeWarp_eq hfind hexit (hx ▸ hld) hscribe hclaims, rfl, (Tab.find_del ..).trans (if_pos rfl),
      fun v hv => (Tab.get_del ..).trans (if_neg hv), fun u hu => ?_, fun k => ?_⟩
    · exact (Tab.get_filter_key _ (fun k => decide (warpOf k ≠ w)) _ _).trans (if_pos (decide_eq_true hu))
    · refine (State.core_setCore s (coreOf w) (s.core (coreOf w)) k).trans ?_
      split
      · next hk => rw [hk]
      · rfl

theorem State.scribeEnd_spec {s : State} {c : Nat} (hexit : ∀ u ∈ threadsOf (scribeWarp c), (s.thread u).st = .exited)
    (hclaims : (s.core c).claims = []) (hld : cntOf .ld (s.warp (scribeWarp c)) = 0) : ∃ t, s.scribeEnd c = t ∧
    t = { s with thr := t.thr, wrp := t.wrp, cor := t.cor, ctxs := t.ctxs } ∧ Tab.find t.wrp (scribeWarp c) = none ∧
    (∀ w, w ≠ scribeWarp c → t.warp w = s.warp w) ∧ (∀ u, warpOf u ≠ scribeWarp c → t.thread u = s.thread u) ∧
    ∀ k, t.core k = if k = c then { s.core k with scribe := {} } else s.core k := by
  have hcore : ∀ k, (s.setCore c { s.core c with scribe := {} }).core k = if k = c then { s.core k with scribe := {} } else s.core k := fun k =>
    (State.core_setCore ..).trans (ite_congr rfl (fun hk => by rw [hk]) fun _ => rfl)
  obtain ⟨t, ht, hrest, hgone, hwarps, hthreads, hcores⟩ := State.freeWarp_spec (s := s.setCore c { s.core c with scribe := {} }) (w := scribeWarp c)
    hexit hld (by rw [coreOf_scribeWarp, hcore, if_pos rfl]; exact Nat.zero_ne_add_one 1) (by rw [coreOf_scribeWarp, hcore, if_pos rfl]; exact hclaims)
  have hidle : t.regrant c = t := by
    rw [State.regrant, hcores, hcore, if_pos rfl, hclaims]
    rfl
  refine ⟨t, ?_, ?_, hgone, hwarps, hthreads, fun k => (hcores k).trans (hcore k)⟩
  · rw [State.scribeEnd]
    simp only [ht, hidle]
  · rw [hrest]
    rfl

end Sys2Proof.Machine
end

section
/-! The work of the copy engine and the end of the Scribe (R139, R140, R330, R337, R338, R342). -/

namespace Sys2Proof.Machine

/-- Settles O44, piece by piece of a copy's work: a sector at hand is read into the copy, a tryte of it is written at its home, and the scale
queue, a stop and a completion each leave their own effect. -/
theorem copyWork : Obligations.CopyWork := by
  refine ⟨fun s c i x so sp sl hcopy hgoes hform hmode hty hring hat hplain hcmp hlacks hwhole hbad => ?_,
    fun s c i x so sp sl d dp dl ts hcopy hgoes hform hmode hty hsring hdring hat hbuf hput hplain hl2 => ?_,
    fun s c i x l h q hcopy hmode hunmatched hgoing hturn hqueue hl htag hscale => ?_,
    fun s c i x q hcopy hgoes hform hmode hring hrow hport hempty hclosed hnodup hlanes hruns => ?_,
    fun s c i x hcopy hdone hpast hmode hform hfolios htok hroom hstill => ?_, fun s c hstate hexit hclaims hld => ?_⟩
  · have hreads := State.copyReads_unread (n := 0) hmode hty hat rfl hlacks
    rw [State.copyLoad_whole hplain hcmp hbad hwhole] at hreads
    have hmove := State.copyMove_lin_error hgoes hform hmode hring (by rw [Copy.batch_t9 hmode hty]; exact hreads)
    exact ⟨_, exec_copyElementTransfer_done hcopy hmove, rfl, fun k => State.core_setCopy ..⟩
  · have hreads : s.copyReads c ((s.core c).blk.getD (0, 0)).1 x x.pos x.batch = .ok (s, x, [[ts.getD (secPos sp) 0]]) := by
      rw [Copy.batch_t9 hmode hty]
      exact State.copyReads_read hmode hty hat hbuf
    have hmove := (State.copyMove_lin_ok hgoes hform hmode hsring hreads).trans
      (State.copyWrites_tryte (v := ts.getD (secPos sp) 0) hform hmode hty hsring hdring hput hplain)
    obtain ⟨t, ht, heffect⟩ := State.trytePut_spec (c := c) (ctx := ((s.core c).blk.getD (0, 0)).1) (v := ts.getD (secPos sp) 0) hl2
      { x with pos := x.pos + 1, w := max x.w (s.wOf d (lineOf dp)) }
    exact ⟨t, by rw [exec_copyElementTransfer_done hcopy hmove, ht], heffect⟩
  · have hcore : ∀ k, ((s.setCore c { s.core c with sq := { h with used := true } :: q }).count ((s.core c).blk.getD (0, 0)).1 (dieIdx c) 42
        ((l.countP (fun e => !e.used) : Nat) : Int)).core k = if k = c then { s.core k with sq := { h with used := true } :: q } else s.core k := fun k =>
      (State.core_setCore ..).trans (ite_congr rfl (fun hk => by rw [hk]) fun _ => rfl)
    refine ⟨_, exec_scaleQueueMatch_found hcopy hmode hunmatched hgoing hturn hqueue hl htag hscale, rfl, fun k => ?_, fun k => ?_⟩
    · rw [State.core_setCopy, hcore]
      split <;> rfl
    · exact (State.ctx_setCtx ..).trans (ite_congr rfl (fun hk => by rw [hk]; rfl) fun _ => rfl)
  · obtain ⟨t, ht, hrest, hcore, hthr⟩ := State.stopCopy_spec hring hgoes.2.1 hnodup hruns
    refine ⟨t, by rw [exec_copyStop_gather hcopy hgoes hform hmode hrow hport hempty hclosed, ht], hrest, hcore, fun u => (hthr u).trans ?_⟩
    have hmem : u ∈ x.lanes.map (threadOf x.warp) ↔ ∃ l ∈ x.lanes, u = threadOf x.warp l := by simp only [List.mem_map, eq_comm]
    rw [Thread.deferred, if_congr hmem rfl rfl, ite_and]
    exact ite_congr rfl (fun _ => (ite_not ..).symm) fun _ => rfl
  · obtain ⟨hrest, hothers, hself, htokens, hports⟩ := s.copyGone_spec c i x
    obtain ⟨t, ht, hrest', hwarp, hctx⟩ := State.copyComplete_spec hstill hrest ((s.core c).blk.getD (0, 0)).1
    have hcores : ∀ k, t.core k = (s.copyGone c i x).core k := State.core_congr (by rw [hrest'])
    refine ⟨t, by rw [exec_copyComplete_token hcopy hdone hpast hmode hform hfolios htok hroom hstill.here, ht], ?_, fun k hk => ?_, ?_, fun q => ?_,
      fun q => ?_, hwarp, hctx⟩
    · rw [hrest']
    · rw [hcores, hothers k hk]
    · rw [hcores, hself]
    · rw [hcores, htokens]
    · rw [← hports, State.port, State.port, hcores]
  · obtain ⟨t, ht, heffect⟩ := State.scribeEnd_spec hexit hclaims hld
    refine ⟨t, ?_, heffect⟩
    have hall : (threadsOf (scribeWarp c)).all (fun u => decide ((s.thread u).st = .exited)) = true :=
      List.all_eq_true.mpr fun u hu => decide_eq_true (hexit u hu)
    change execScribeProgramEnd c s = _
    rw [execScribeProgramEnd, if_pos ⟨hstate, hall⟩, ht]

end Sys2Proof.Machine
end

section
/-! The host's accesses (R143, R440, R453-R457): bytes of memory after writes of bytes and of sectors, and what the inbox does after a
step in which at most one message waits. -/

namespace Sys2Proof.Machine

/-! Folds in which at most one element acts. -/

theorem foldl_of_fixed {α β : Type} {f : β → α → β} {b : β} {l : List α} (h : ∀ a ∈ l, f b a = b) : l.foldl f b = b := by
  induction l with
  | nil => rfl
  | cons a l ih =>
    obtain ⟨ha, hl⟩ := List.forall_mem_cons.mp h
    rw [List.foldl_cons, ha, ih hl]

/-! Bytes of memory (R113, R454). -/

theorem cellKey_inj {o b o' b' : Nat} (hb : b < 2 ^ 41) (hb' : b' < 2 ^ 41) : cellKey o b = cellKey o' b' ↔ o = o' ∧ b = b' := by
  unfold cellKey
  omega

theorem State.byte_setBytes (vs : List Nat) {own a : Nat} (ha : a + vs.length ≤ 2 ^ 41) (s : State) {o b : Nat} (hb : b < 2 ^ 41) :
    (s.setBytes own a vs).byte o b = if o = own ∧ a ≤ b ∧ b < a + vs.length then vs.getD (b - a) 0 % 256 else s.byte o b := by
  induction vs generalizing s a with
  | nil => rw [State.setBytes, if_neg (by simp only [List.length_nil]; omega)]
  | cons v vs ih =>
    rw [List.length_cons] at ha
    rw [State.setBytes, ih (by omega), State.byte_setByte, if_congr (cellKey_inj hb (by omega)) rfl rfl, List.length_cons]
    by_cases ho : o = own
    · obtain hlt | rfl | hgt := Nat.lt_trichotomy b a
      · rw [if_neg (by omega), if_neg (by omega), if_neg (by omega)]
      · rw [if_neg (by omega), if_pos ⟨ho, rfl⟩, if_pos (by omega), Nat.sub_self, List.getD_cons_zero]
      · rw [if_neg (c := o = own ∧ b = a) (by omega)]
        refine ite_congr (propext (by omega)) (fun _ => ?_) fun _ => rfl
        rw [show b - a = b - (a + 1) + 1 by omega, List.getD_cons_succ]
    · simp [ho]

/-- The sector of a byte, by its owner's numbering (R419). -/
theorem atomNo_of_byte (own b : Nat) : atomNo own (((b / 64 : Nat) : Int) - halfSecs own) = b / 64 := by
  unfold atomNo
  omega

theorem State.sec_setSec_ne (s : State) (own : Nat) {j k : Int} {c d : Bool} (hne : l2Key k c ≠ l2Key j d) (x : L2Sec) :
    (s.setSec own j d x).sec own k c = s.sec own k c := by
  rw [State.setSec, State.sec, State.dieSt_setDie_self, Tab.get_set, if_neg hne]
  rfl

theorem State.sec_setSec_self (s : State) (own : Nat) (k : Int) (c : Bool) (x : L2Sec) : (s.setSec own k c x).sec own k c = x := by
  rw [State.setSec, State.sec, State.dieSt_setDie_self, Tab.get_set, if_pos rfl]

theorem l2Key_ne (j k : Int) : l2Key k false ≠ l2Key j true := by
  simp only [l2Key, Bool.false_eq_true, if_false, if_true]
  omega

/-- Compressed copies of some sectors leave L2: nothing else changes. -/
theorem State.foldl_dropCompressed (own : Nat) (k0 k : Int) (js : List Nat) (s : State) :
    let t := js.foldl (fun a (j : Nat) => a.setSec own (k0 + (j : Int)) true {}) s
    t = { s with die := t.die } ∧ t.sec own k false = s.sec own k false := by
  induction js generalizing s with
  | nil => exact ⟨rfl, rfl⟩
  | cons j js ih =>
    obtain ⟨hrest, hsec⟩ := ih (s.setSec own (k0 + (j : Int)) true {})
    exact ⟨hrest.trans rfl, hsec.trans (State.sec_setSec_ne s own (l2Key_ne _ _) _)⟩

/-- A sector's write changes its bytes, its lines and what L2 holds of it (R454). -/
theorem State.putSector_spec (s : State) (own : Nat) (k : Int) (bs : List Nat) : let t := s.putSector own k bs
    t = { s with mem := (s.setBytes own (64 * atomNo own k) bs).mem, die := t.die, bad := t.bad } ∧ t.sec own k false = {} := by
  obtain ⟨a, ha⟩ : ∃ a : State, { (s.setAtom own k bs) with bad := s.healed 0 (cellKey own (atomNo own k)) }.setSec own k false {} = a := ⟨_, rfl⟩
  obtain ⟨b, hb⟩ : ∃ b, (List.range 27).foldl (fun a (j : Nat) => a.setSec own (27 * shr k 3 - 13 + (j : Int)) true {}) a = b := ⟨_, rfl⟩
  obtain ⟨hrest, hsec⟩ := State.foldl_dropCompressed own (27 * shr k 3 - 13) k (List.range 27) a
  rw [hb] at hrest hsec
  obtain ⟨hwrote, hlines⟩ := b.wrote_spec own (lineOf (27 * k))
  have hput : s.putSector own k bs = b.wrote own (lineOf (27 * k)) := by
    simp only [State.putSector, ha, hb]
  have hself : a.sec own k false = {} := by
    rw [← ha]
    exact State.sec_setSec_self ..
  refine ⟨?_, ?_⟩
  · rw [hput, hwrote, hrest, ← ha, State.setAtom, State.setBytes_rest]
    rfl
  · rw [hput, State.sec, hlines]
    exact hsec.trans hself

/-! The inbox (R440, R456). -/

theorem State.part_of_noInbox {s : State} (h : s.noInbox) (p : Nat) : (s.part p).inbox = [] ∧ (s.part p).msgs = [] := by
  rcases Tab.get_eq_or_mem (z := ({} : Part)) s.parts p with hz | hmem
  · rw [State.part, hz]
    exact ⟨rfl, rfl⟩
  · obtain ⟨q, hq, heq⟩ := hmem
    rw [State.part, ← heq]
    exact h.2 q hq

/-- Where nothing waits in an inbox, nothing is noted. -/
theorem State.noteInbox_of_empty {s : State} (h : ∀ q ∈ s.parts, q.2.inbox = [] ∧ q.2.msgs = []) : s.noteInbox = s :=
  foldl_of_fixed fun q hq => by simp [h q hq]

/-- One message waits, in one partition (R440). -/
theorem State.noteInbox_one {s : State} (hsorted : Tab.sorted s.parts = true) {p : Nat} {x : Part} {m : InMsg} (hmem : (p, x) ∈ s.parts)
    (hinbox : x.inbox = []) (hmsgs : x.msgs = [m]) (hothers : ∀ q ∈ s.parts, q.1 ≠ p → q.2.inbox = [] ∧ q.2.msgs = [])
    {t : State} (ht : s.inboxTake p 1 = t) : s.noteInbox = t := by
  obtain ⟨before, after, hsplit⟩ := List.append_of_mem hmem
  have hkeys := Tab.nodup_keys_of_sorted hsorted
  rw [hsplit, List.map_append, List.map_cons] at hkeys
  have hout : ∀ q, q ∈ before ∨ q ∈ after → q.2.inbox = [] ∧ q.2.msgs = [] := fun q hq => by
    refine hothers q (by rw [hsplit]; simp; tauto) fun hkey => ?_
    obtain ⟨-, hafter, hdisj⟩ := List.nodup_append.mp hkeys
    rcases hq with hq | hq
    · exact hdisj q.1 (List.mem_map_of_mem hq) p List.mem_cons_self hkey
    · exact (List.nodup_cons.mp hafter).1 (hkey ▸ List.mem_map_of_mem (f := (·.1)) hq)
  rw [State.noteInbox, hsplit, List.foldl_append, foldl_of_fixed (l := before) (fun q hq => by simp [hout q (.inl hq)]), List.foldl_cons]
  have hone : (if (x.inbox.isEmpty && x.msgs.isEmpty) = true then s else (s.inboxPush p x.inbox.length).inboxTake p x.msgs.length) = t := by
    rw [hinbox, hmsgs]
    exact ht
  exact (congrArg (fun a => after.foldl _ a) hone).trans (foldl_of_fixed fun q hq => by simp [hout q (.inr hq)])

theorem State.inboxPush_one {s : State} {p : Nat} {v : Int} (hinbox : (s.part p).inbox = [v]) (hup : (s.part p).up = true)
    (hroom : (s.port (s.inboxCore p) 16).length < 81) : s.inboxPush p 1 =
      (s.setPart p { s.part p with inbox := [] }).setPort (s.inboxCore p) 16 (s.port (s.inboxCore p) 16 ++ [v]) := by
  simp only [State.inboxPush, hinbox, if_pos (And.intro hroom hup)]

theorem State.inboxTake_one {s : State} {p : Nat} {m : InMsg} (hinbox : (s.part p).inbox = []) (hmsgs : (s.part p).msgs = [m])
    (hready : s.msgReady p m = true) : s.inboxTake p 1 =
      ((s.setPart p { s.part p with msgs := [] }).setPart p { s.part p with msgs := [], inbox := [m.word] }).inboxPush p 1 := by
  simp [State.inboxTake, hmsgs, hready, hinbox]

/-- A message whose conditions are met enters q16 of the supervisor's core, which has room (R440). -/
theorem State.inboxTake_spec {s : State} {p : Nat} {m : InMsg} (hinbox : (s.part p).inbox = []) (hmsgs : (s.part p).msgs = [m])
    (hready : s.msgReady p m = true) (hup : (s.part p).up = true) (hroom : (s.port (s.inboxCore p) 16).length < 81) :
    ∃ t, s.inboxTake p 1 = t ∧ t = { s with parts := t.parts, cor := t.cor } ∧
    (∀ k, t.part k = if k = p then { s.part k with msgs := [] } else s.part k) ∧
    (∀ e, t.core e = { s.core e with ports := (t.core e).ports }) ∧
    ∀ e q, t.port e q = if e = s.inboxCore p ∧ q = 16 then s.port e q ++ [m.word] else s.port e q := by
  obtain ⟨a, ha⟩ : ∃ a, (s.setPart p { s.part p with msgs := [] }).setPart p { s.part p with msgs := [], inbox := [m.word] } = a := ⟨_, rfl⟩
  have hpart : ∀ k, a.part k = if k = p then { s.part p with msgs := [], inbox := [m.word] } else s.part k := fun k => by
    rw [← ha, State.part_setPart, State.part_setPart]
    split <;> rfl
  have hself : a.part p = { s.part p with msgs := [], inbox := [m.word] } := by rw [hpart, if_pos rfl]
  have hcore : a.inboxCore p = s.inboxCore p := by rw [State.inboxCore, hself, State.inboxCore]
  have hports : ∀ e q, a.port e q = s.port e q := fun e q => by
    rw [← ha]
    rfl
  have hpush := State.inboxPush_one (s := a) (p := p) (v := m.word) (by rw [hself]) (by rw [hself]; exact hup) (by rw [hcore, hports]; exact hroom)
  rw [hcore, hports] at hpush
  refine ⟨_, (State.inboxTake_one hinbox hmsgs hready).trans ((congrArg (·.inboxPush p 1) ha).trans hpush), ?_, fun k => ?_, fun e => ?_, fun e q => ?_⟩
  · rw [← ha]
    rfl
  · refine (State.part_setPart ..).trans ?_
    rw [hself, hpart]
    split
    · next hk => rw [hk, ← hinbox]
    · rfl
  · refine (State.core_setPort_ports ..).trans ?_
    rw [← ha]
    rfl
  · refine (State.port_setPort ..).trans (ite_congr rfl (fun h => by rw [h.1, h.2]) fun _ => ?_)
    exact hports e q

/-- A message of the host has been received (R440). -/
def State.received (s : State) (p : Nat) (m : InMsg) : State :=
  { s.setPart p { s.part p with msgs := (s.part p).msgs ++ [m] } with nextId := s.nextId + 1 }

theorem exec_inbox {s : State} {f p : Nat} (hon : s.mg.powerOff = false) (hfn : s.fnOf f = some p) (req a : Nat) (bs : List (BitVec 8)) :
    exec (.inbox req f a bs) s = .next (if bs.length ≠ 8 ∨ a % 8 ≠ 0 ∨ int64 (byteVals bs) < - half 27 ∨ half 27 < int64 (byteVals bs)
      then s.inboxDrop p
      else (s.received p { no := s.nextId, req := req, word := int64 (byteVals bs), w := Tab.find s.mg.lastW (req * 16 + p) }).noteInbox) := by
  change execInbox req f a bs s = _
  rw [execInbox, State.linked_of_on hon]
  simp only [hfn]
  rfl

/-- A message that need not wait goes to q16 in the step that brings it (R440, R456). -/
theorem State.inboxSend_spec {s : State} {p : Nat} {m : InMsg} (hnone : s.noInbox) (hup : (s.part p).up = true)
    (hroom : (s.port (s.inboxCore p) 16).length < 81) (hready : s.msgReady p m = true) :
    ∃ t, (s.received p m).noteInbox = t ∧
    t = { s with parts := t.parts, cor := t.cor, nextId := s.nextId + 1 } ∧ (∀ k, t.part k = s.part k) ∧
    (∀ e, t.core e = { s.core e with ports := (t.core e).ports }) ∧
    ∀ e q, t.port e q = if e = s.inboxCore p ∧ q = 16 then s.port e q ++ [m.word] else s.port e q := by
  obtain ⟨hinbox, hmsgs⟩ := State.part_of_noInbox hnone p
  have hreceived : s.received p m = { s.setPart p { s.part p with msgs := [m] } with nextId := s.nextId + 1 } := by
    rw [State.received, hmsgs, List.nil_append]
  rw [hreceived]
  obtain ⟨b, hb⟩ : ∃ b : State, { s.setPart p { s.part p with msgs := [m] } with nextId := s.nextId + 1 } = b := ⟨_, rfl⟩
  rw [hb]
  have hpart : ∀ k, b.part k = if k = p then { s.part p with msgs := [m] } else s.part k := fun k => by
    rw [← hb]
    exact State.part_setPart ..
  have hself : b.part p = { s.part p with msgs := [m] } := by rw [hpart, if_pos rfl]
  have hcore : b.inboxCore p = s.inboxCore p := by rw [State.inboxCore, hself, State.inboxCore]
  have hready' : b.msgReady p m = true := by
    rw [State.msgReady, hcore, ← hb]
    exact hready
  obtain ⟨t, ht, hrest, hparts, hcores, hports⟩ := State.inboxTake_spec (s := b) (by rw [hself]; exact hinbox) (by rw [hself]) hready'
    (by rw [hself]; exact hup) (by rw [hcore, ← hb]; exact hroom)
  rw [hcore] at hports
  have hnote : b.noteInbox = t := by
    refine State.noteInbox_one (x := { s.part p with msgs := [m] }) ?_ ?_ hinbox rfl (fun q hq hne => ?_) ht
    · rw [← hb]
      exact Tab.sorted_put _ _ hnone.1
    · rw [← hb]
      exact Tab.mem_put_self ..
    · rw [← hb] at hq
      rcases Tab.mem_put hq with rfl | hq
      · exact absurd rfl hne
      · exact hnone.2 q hq
  refine ⟨t, hnote, ?_, fun k => ?_, fun e => ?_, fun e q => ?_⟩
  · rw [hrest, ← hb]
    rfl
  · rw [hparts, hpart]
    split
    · next hk => rw [hk, ← hmsgs]
    · rfl
  · rw [hcores, ← hb]
    rfl
  · rw [hports, ← hb]
    rfl

/-! Posted writes (R143, R454-R457). -/

/-- A posted write has been performed with its W: what waits for it is told (R456, R457). -/
def State.writeNoted (s : State) (x : Posted) (w : Int) : State :=
  { s.setPart x.part { s.part x.part with
      msgs := (s.part x.part).msgs.map (fun m => if m.req = x.req ∧ x.no < m.no then { m with w := some (max (m.w.getD w) w) } else m) } with
    mg := { s.mg with posted := s.mg.posted.erase x
                      lastW := Tab.put (x.req * 16 + x.part) (max w (Tab.get w s.mg.lastW (x.req * 16 + x.part))) s.mg.lastW
                      flushes := s.mg.flushes.map (fun q => if x.no < q.1 then (q.1, some (max (q.2.getD w) w)) else q) } }

theorem State.performPosted_sector {s : State} {x : Posted} (hsector : x.sector = true)
    (hfree : s.lineHeld x.own (lineOf (27 * ((x.byte / 64 : Nat) - halfSecs x.own))) = false) : s.performPosted x =
      (s.putSector x.own ((x.byte / 64 : Nat) - halfSecs x.own) x.bytes).writeNoted x
        (s.wOf x.own (lineOf (27 * ((x.byte / 64 : Nat) - halfSecs x.own)))) := by
  simp only [State.performPosted, hsector, hfree, Bool.false_eq_true, and_false, if_false, if_true]
  rfl

theorem State.performPosted_bytes {s : State} {x : Posted} (hsector : x.sector = false) : s.performPosted x =
    (s.setBytes x.own x.byte x.bytes).writeNoted x (s.dieSt x.own).clk := by
  simp only [State.performPosted, hsector, Bool.false_eq_true, false_and, if_false]
  rfl

theorem exec_hostWrite_first {s : State} {x : Posted} {rest : List Posted} (hon : s.mg.powerOff = false) (hposted : s.mg.posted = x :: rest) :
    exec (.hostWrite x.req) s = .next (s.performPosted x).noteInbox := by
  change execHostWrite x.req s = _
  rw [execHostWrite, State.linked_of_on hon]
  simp only [hposted, List.find?_cons_of_pos, decide_true]

/-- Without messages only the management state and the partitions' table note a write, no partition changing. -/
theorem State.writeNoted_spec {s a : State} {x : Posted} {rest : List Posted} (hparts : a.parts = s.parts) (hmg : a.mg = s.mg) (hnone : s.noInbox)
    (hposted : s.mg.posted = x :: rest) (w : Int) : ∃ t, (a.writeNoted x w).noteInbox = t ∧
    t = { a with parts := t.parts
                 mg := { s.mg with posted := rest
                                   lastW := Tab.put (x.req * 16 + x.part) (max w (Tab.get w s.mg.lastW (x.req * 16 + x.part))) s.mg.lastW
                                   flushes := s.mg.flushes.map (fun q => if x.no < q.1 then (q.1, some (max (q.2.getD w) w)) else q) } } ∧
    ∀ k, t.part k = s.part k := by
  have hpart : ∀ k, a.part k = s.part k := fun k => by rw [State.part, hparts, State.part]
  obtain ⟨hinbox, hmsgs⟩ := State.part_of_noInbox hnone x.part
  have hsame : { a.part x.part with
      msgs := (a.part x.part).msgs.map (fun m => if m.req = x.req ∧ x.no < m.no then { m with w := some (max (m.w.getD w) w) } else m) } =
      s.part x.part := by
    rw [hpart, hmsgs, List.map_nil, ← hmsgs]
  have hnoted : (a.writeNoted x w).noteInbox = a.writeNoted x w := State.noteInbox_of_empty fun q hq => by
    rcases Tab.mem_put hq with rfl | hq
    · rw [hsame]
      exact ⟨hinbox, hmsgs⟩
    · exact hnone.2 q (hparts ▸ hq)
  refine ⟨_, hnoted, ?_, fun k => ?_⟩
  · have herase : s.mg.posted.erase x = rest := by rw [hposted, List.erase_cons_head]
    rw [State.writeNoted, hmg, herase]
    rfl
  · refine (State.part_setPart ..).trans ?_
    rw [hsame, hpart]
    split
    · next hk => rw [hk]
    · rfl

/-- A posted write of one atom's bytes is performed at its home (R143, R455). -/
theorem State.performPosted_spec {s : State} {x : Posted} {rest : List Posted} (hposted : s.mg.posted = x :: rest) (hnone : s.noInbox)
    (hsector : x.sector = true → x.bytes.length = 64 ∧ x.byte % 64 = 0 ∧
      s.lineHeld x.own (lineOf (27 * ((x.byte / 64 : Nat) - halfSecs x.own))) = false) (hfits : x.byte + x.bytes.length ≤ 2 ^ 41) :
    ∃ t w, (s.performPosted x).noteInbox = t ∧
    w = (if x.sector = true then s.wOf x.own (lineOf (27 * ((x.byte / 64 : Nat) - halfSecs x.own))) else (s.dieSt x.own).clk) ∧
    t = { s with mem := t.mem, die := t.die, bad := t.bad, parts := t.parts
                 mg := { s.mg with posted := rest, lastW := Tab.put (x.req * 16 + x.part) (max w (Tab.get w s.mg.lastW (x.req * 16 + x.part))) s.mg.lastW
                                   flushes := s.mg.flushes.map (fun q => if x.no < q.1 then (q.1, some (max (q.2.getD w) w)) else q) } } ∧
    (∀ k, t.part k = s.part k) ∧
    (∀ o b, b < 2 ^ 41 → t.byte o b = if o = x.own ∧ x.byte ≤ b ∧ b < x.byte + x.bytes.length then x.bytes.getD (b - x.byte) 0 % 256 else s.byte o b) ∧
    (x.sector = true → t.sec x.own ((x.byte / 64 : Nat) - halfSecs x.own) false = {}) ∧ (x.sector = false → t.die = s.die ∧ t.bad = s.bad) := by
  cases hkind : x.sector with
  | false =>
    have hrest := State.setBytes_rest x.own x.bytes s x.byte
    obtain ⟨t, ht, hnoted, hparts⟩ := State.writeNoted_spec (a := s.setBytes x.own x.byte x.bytes) (by rw [hrest]) (by rw [hrest]) hnone hposted
      (s.dieSt x.own).clk
    refine ⟨t, _, by rw [State.performPosted_bytes hkind, ht], rfl, ?_, hparts, fun o b hb => ?_, fun h => absurd h Bool.false_ne_true, fun _ => ?_⟩
    · rw [hnoted, hrest]
      rfl
    · rw [← State.byte_setBytes x.bytes hfits s hb, State.byte, State.byte, hnoted]
    · rw [hnoted, hrest]
      exact ⟨rfl, rfl⟩
  | true =>
    obtain ⟨hlen, halign, hfree⟩ := hsector hkind
    have hperform := State.performPosted_sector hkind hfree
    obtain ⟨hrest, hsec⟩ := s.putSector_spec x.own ((x.byte / 64 : Nat) - halfSecs x.own) x.bytes
    have haddr : 64 * (x.byte / 64) = x.byte := by omega
    rw [atomNo_of_byte, haddr] at hrest
    generalize s.putSector x.own ((x.byte / 64 : Nat) - halfSecs x.own) x.bytes = a at hperform hrest hsec
    obtain ⟨t, ht, hnoted, hparts⟩ := State.writeNoted_spec (a := a)
      (by rw [hrest]) (by rw [hrest]) hnone hposted (s.wOf x.own (lineOf (27 * ((x.byte / 64 : Nat) - halfSecs x.own))))
    have hmem : t.mem = (s.setBytes x.own x.byte x.bytes).mem := by rw [hnoted, hrest]
    have hdie : t.die = a.die := by rw [hnoted]
    refine ⟨t, _, by rw [hperform, ht], rfl, ?_, hparts, fun o b hb => ?_, fun _ => ?_, fun h => absurd h.symm Bool.false_ne_true⟩
    · rw [hnoted, hrest]
      rfl
    · rw [← State.byte_setBytes x.bytes hfits s hb, State.byte, State.byte, hmem]
    · rw [← hsec, State.sec, State.sec, State.dieSt_congr hdie]

/-! Reads (R454, R455). -/

theorem State.hostReply_eq (s : State) (bs : List Nat) :
    s.hostReply bs = s.withMg { s.mg with hostRd := s.mg.hostRd ++ [bs.map (BitVec.ofNat 8)] } := rfl

/-- The atom of a sector of which L2 holds nothing written and which holds no error is the stored bytes (R454). -/
theorem State.homeAtom_stored {s : State} {o b : Nat} (hclean : ∀ q ∈ (s.sec o ((b / 64 : Nat) - halfSecs o) false).tr, q.2.written = false)
    (hgood : (0, cellKey o (b / 64)) ∉ s.bad) : (s.homeAtom o b).getD (b % 64) 0 = s.byte o b := by
  have hwritten : (s.sec o ((b / 64 : Nat) - halfSecs o) false).tr.any (fun p => p.2.written) = false :=
    List.any_eq_false.mpr fun q hq => by simp [hclean q hq]
  have hbad : s.bad.contains (0, cellKey o (b / 64)) = false := by simpa using hgood
  have hlow : b % 64 < 64 := Nat.mod_lt _ (by decide)
  have haddr : 64 * (b / 64) + b % 64 = b := Nat.div_add_mod b 64
  simp only [State.homeAtom, hwritten, atomNo_of_byte, hbad, Bool.false_eq_true, or_self, if_false, State.atom, State.bytes]
  rw [List.getD_eq_getElem _ _ (by simpa using hlow)]
  simp [haddr]

theorem exec_sectorApertureRead_now {s : State} {req f p off n : Nat} (hon : s.mg.powerOff = false) (hfn : s.fnOf f = some p)
    (hwrites : s.writesWait req p = false) (hheld : s.readHeld p off n = false) : exec (.sectorApertureRead req f off n) s =
      .next (if n = 0 ∨ (s.aperture p off).isNone = true ∨ (s.aperture p (off + n - 1)).isNone = true then s.hostReply []
        else s.hostReply ((List.range n).map (fun i => ((s.aperture p (off + i)).map (fun q => (s.homeAtom q.1 q.2).getD (q.2 % 64) 0)).getD 0))) := by
  change execSectorApertureRead req f off n s = _
  rw [execSectorApertureRead, State.linked_of_on hon]
  simp only [hfn, hwrites, hheld, Bool.false_eq_true, or_self, if_false]
  refine congrArg Host.Outcome.next (ite_congr rfl (fun _ => rfl) fun _ => congrArg s.hostReply (List.map_congr_left fun i _ => ?_))
  cases s.aperture p (off + i) <;> rfl

/-! Writes (R454, R455). -/

/-- A write of the bytes of one atom is posted whole, whatever fuel is left. -/
theorem State.sectorWrite_atom {s : State} {off p o b : Nat} {bs : List Nat} (hsome : bs ≠ []) (hlen : bs.length ≤ 64 - off % 64)
    (hplace : s.aperture p off = some (o, b)) (req n : Nat) : s.sectorWrite req p off bs (n + 1) =
      if s.imageOk o b bs = true then s.post req p o b bs true else s.hostDrop := by
  have hdone : ∀ a : State, a.sectorWrite req p (off + bs.length) [] n = a := fun a => by cases n <;> rfl
  rw [State.sectorWrite, List.isEmpty_eq_false_iff.mpr hsome]
  simp only [Bool.false_eq_true, if_false, hplace, Nat.min_eq_left hlen, List.take_length, List.drop_length, hdone]

theorem exec_sectorApertureWrite_atom {s : State} {req f p off : Nat} {bs : List (BitVec 8)} {o b : Nat} (hon : s.mg.powerOff = false)
    (hfn : s.fnOf f = some p) (hlen : bs.length = 64) (halign : off % 64 = 0) (hplace : s.aperture p off = some (o, b)) :
    exec (.sectorApertureWrite req f off bs) s =
      .next (if s.imageOk o b (byteVals bs) = true then s.post req p o b (byteVals bs) true else s.hostDrop) := by
  have hlen' : (byteVals bs).length = 64 := by rw [byteVals, List.length_map, hlen]
  have hsome : byteVals bs ≠ [] := List.ne_nil_of_length_eq_add_one hlen'
  change execSectorApertureWrite req f off bs s = _
  rw [execSectorApertureWrite, State.linked_of_on hon, hlen, ← State.sectorWrite_atom hsome (by rw [hlen', halign]) hplace req 63]
  simp only [hfn]

theorem exec_windowApertureWrite_atom {s : State} {req f p off : Nat} {bs : List (BitVec 8)} {o b : Nat} (hon : s.mg.powerOff = false)
    (hfn : s.fnOf f = some p) (hsome : bs ≠ []) (hlen : bs.length ≤ 64 - off % 64) (hplace : s.aperture p off = some (o, b)) :
    exec (.windowApertureWrite req f off bs) s = .next (if s.winAccess p off bs.length = true then s.post req p o b (byteVals bs) false
      else s.withMg { s.mg with hdisc := satAdd 32 s.mg.hdisc 1, aer := s.mg.aer + 1 }) := by
  have hlen' : (byteVals bs).length = bs.length := by rw [byteVals, List.length_map]
  have hsome' : (byteVals bs).isEmpty = false := by
    rw [List.isEmpty_eq_false_iff, ← List.length_pos_iff, hlen', List.length_pos_iff]
    exact hsome
  obtain ⟨n, hn⟩ : ∃ n, bs.length = n + 1 := Nat.exists_eq_succ_of_ne_zero (by simpa using hsome)
  have hwrite : s.windowWrite req p off (byteVals bs) bs.length = s.post req p o b (byteVals bs) false := by
    have hmin : min (byteVals bs).length (64 - off % 64) = (byteVals bs).length := Nat.min_eq_left (hlen' ▸ hlen)
    rw [hn, State.windowWrite, hsome']
    simp only [Bool.false_eq_true, if_false, hplace, hmin, List.take_length, List.drop_length]
    cases n <;> rfl
  have hgiven : bs.isEmpty = false := by simpa using hsome
  change execWindowApertureWrite req f off bs s = _
  rw [execWindowApertureWrite, State.linked_of_on hon]
  simp only [hfn, hgiven, Bool.false_eq_true, if_false, hwrite]
  cases s.winAccess p off bs.length <;> rfl

/-! FLUSH (R457). -/

/-- The latest of some times is one of them. -/
theorem mem_of_foldl_latest {l : List Int} {m : Option Int} {w : Int} (h : l.foldl (fun (m : Option Int) v => some (max v (m.getD v))) m = some w) :
    w ∈ l ∨ m = some w := by
  induction l generalizing m with
  | nil => exact .inr h
  | cons v l ih =>
    rcases ih h with hw | hw
    · exact .inl (List.mem_cons_of_mem _ hw)
    · cases m with
      | none => simp_all
      | some u =>
        rcases max_choice v u with hmax | hmax <;> simp_all

/-- The latest W of the writes so far (R457). -/
def State.latestW (s : State) : Option Int := (s.mg.lastW.map (·.2)).foldl (fun (m : Option Int) v => some (max v (m.getD v))) none

theorem State.mem_of_latestW {s : State} {w : Int} (h : s.latestW = some w) : ∃ q ∈ s.mg.lastW, q.2 = w := by
  rcases mem_of_foldl_latest h with hmem | hnone
  · exact List.mem_map.mp hmem
  · exact absurd hnone (Option.some_ne_none w).symm

/-- A read of FLUSH that has been received (R457). -/
def State.flushReceived (s : State) : State :=
  { s with nextId := s.nextId + 1, mg := { s.mg with flushes := s.mg.flushes ++ [(s.nextId, s.latestW)] } }

theorem State.flushes_flushReceived {s : State} (hflushes : s.mg.flushes = []) : s.flushReceived.mg.flushes = [(s.nextId, s.latestW)] := by
  rw [State.flushReceived, hflushes, List.nil_append]

theorem exec_flush {s : State} {f p : Nat} (hon : s.mg.powerOff = false) (hfn : s.fnOf f = some p) : exec (.flush f) s = .next s.flushReceived.noteFlush := by
  change execFlush f s = _
  rw [execFlush, State.linked_of_on hon]
  simp only [hfn]
  rfl

theorem State.noteFlush_one {s : State} {q : Nat × Option Int} (hone : s.mg.flushes = [q]) : s.noteFlush =
    if (s.mg.posted.any (fun x => decide (x.no < q.1)) || !q.2.all (fun w => decide (w + s.guard .pkg ≤ (s.dieSt (s.ownKey 9)).clk))) = true then s
    else s.withMg { s.mg with flushes := [], hostRd := s.mg.hostRd ++ [[0, 0, 0, 0, 0, 0, 0, 0]] } := by
  have herase : s.mg.flushes.erase q = [] := by rw [hone, List.erase_cons_head]
  rw [State.noteFlush, hone, List.foldl_cons, List.foldl_nil]
  simp only [herase]
  rfl

theorem State.msgReady_of_done {s : State} {req p : Nat} {m : InMsg} (hreq : m.req = req) (hposted : ∀ x ∈ s.mg.posted, x.req ≠ req ∨ x.part ≠ p)
    (hpast : ∀ w, m.w = some w → w + s.guard .pkg ≤ s.now (s.inboxCore p)) : s.msgReady p m = true := by
  rw [State.msgReady, Bool.and_eq_true, List.all_eq_true]
  refine ⟨fun x hx => ?_, ?_⟩
  · rcases hposted x hx with h | h <;> simp [hreq, h]
  · cases hw : m.w with
    | none => rfl
    | some w => exact decide_eq_true (hpast w hw)

theorem exec_windowApertureRead_now {s : State} {req f p off n : Nat} (hon : s.mg.powerOff = false) (hfn : s.fnOf f = some p)
    (hwrites : s.writesWait req p = false) : exec (.windowApertureRead req f off n) s =
      .next (s.hostReply (if n ≠ 0 ∧ s.winAccess p off n = true then
        (List.range n).map (fun i => ((s.aperture p (off + i)).map (fun q => s.byte q.1 q.2)).getD 0) else [])) := by
  change execWindowApertureRead req f off n s = _
  rw [execWindowApertureRead, State.linked_of_on hon]
  simp only [hfn, hwrites, Bool.false_eq_true, if_false]
  by_cases hgood : n ≠ 0 ∧ s.winAccess p off n = true
  · rw [if_pos hgood, if_neg (by simp [hgood.1, hgood.2])]
    refine congrArg (fun bs => Host.Outcome.next (s.hostReply bs)) (List.map_congr_left fun i _ => ?_)
    cases s.aperture p (off + i) <;> rfl
  · rw [if_neg hgood, if_pos (by by_cases hn : n = 0 <;> simp_all)]

theorem exec_apertureRead_absent {s : State} {f : Nat} (hon : s.mg.powerOff = false) (hfn : s.fnOf f = none) (req off n : Nat) :
    exec (.sectorApertureRead req f off n) s = .next (s.hostReply []) ∧ exec (.windowApertureRead req f off n) s = .next (s.hostReply []) := by
  refine ⟨?_, ?_⟩
  · change execSectorApertureRead req f off n s = _
    rw [execSectorApertureRead, State.linked_of_on hon]
    simp only [hfn]
  · change execWindowApertureRead req f off n s = _
    rw [execWindowApertureRead, State.linked_of_on hon]
    simp only [hfn]

end Sys2Proof.Machine
end

section
/-! The host's accesses, access by access (R143, R440, R453-R457). -/

namespace Sys2Proof.Machine

/-- Settles O50, access by access: a message and a posted write leave what they are for and no more, since nothing else waits; a read gives
the bytes that the homes hold; and FLUSH looks at the writes before it. -/
theorem hostAccess : Obligations.HostAccess := by
  refine ⟨fun s req f p a bs hon hfn hlen halign hword hnone hup hroom hposted hpast => ?_, fun s req f p a bs hon hfn hbad => ?_,
    fun s x rest hon hposted hnone hsector hfits => ?_, fun s req f p off n hon hfn hwrites hheld hpos hplaces => ?_,
    fun s req f p off n hon hfn hwrites hheld hnothing => ?_, fun s req f p off bs o b hon hfn hlen halign hplace => ?_,
    fun s req f p off n hon hfn hwrites => ?_, fun s req f p off bs o b hon hfn hsome hlen hplace => ?_,
    fun s req f off n hon hfn => exec_apertureRead_absent hon hfn req off n, fun s f p hon hfn hflushes hposted hpast => ?_,
    fun s f p x hon hfn hflushes hx hbefore => ?_⟩
  · obtain ⟨hlow, hhigh⟩ := abs_le.mp hword
    obtain ⟨t, ht, heffect⟩ := State.inboxSend_spec (m := { no := s.nextId, req := req, word := int64 (byteVals bs)
                                                            w := Tab.find s.mg.lastW (req * 16 + p) }) hnone hup hroom
      (State.msgReady_of_done rfl hposted hpast)
    refine ⟨t, ?_, heffect⟩
    rw [exec_inbox hon hfn, if_neg (by simp [hlen, halign, hlow.not_gt, hhigh.not_gt]), ht]
  · refine ⟨s.inboxDrop p, ?_, rfl, fun k => ?_⟩
    · rw [exec_inbox hon hfn, if_pos (by rw [lt_abs] at hbad; omega)]
    · exact (State.part_setPart ..).trans (ite_congr rfl (fun hk => by rw [hk]; rfl) fun _ => rfl)
  · obtain ⟨t, w, ht, heffect⟩ := State.performPosted_spec hposted hnone hsector hfits
    exact ⟨t, w, by rw [exec_hostWrite_first hon hposted, ht], heffect⟩
  · have hfirst : (s.aperture p off).isNone = false := by
      obtain ⟨o, b, hplace, -⟩ := hplaces 0 hpos
      rw [Nat.add_zero] at hplace
      rw [hplace]
      rfl
    have hlast : (s.aperture p (off + n - 1)).isNone = false := by
      obtain ⟨o, b, hplace, -⟩ := hplaces (n - 1) (by omega)
      rw [show off + n - 1 = off + (n - 1) by omega, hplace]
      rfl
    rw [exec_sectorApertureRead_now hon hfn hwrites hheld, if_neg (by simp [hpos.ne', hfirst, hlast]), State.hostReply_eq, List.map_map]
    refine congrArg (fun bs => Host.Outcome.next (s.withMg { s.mg with hostRd := s.mg.hostRd ++ [bs] })) (List.map_congr_left fun i hi => ?_)
    obtain ⟨o, b, hplace, hclean, hgood⟩ := hplaces i (List.mem_range.mp hi)
    simp only [Function.comp_apply, hplace, Option.map_some, Option.getD_some, State.homeAtom_stored hclean hgood]
  · rw [exec_sectorApertureRead_now hon hfn hwrites hheld, if_pos (by simpa using hnothing), State.hostReply_eq, List.map_nil]
  · rw [exec_sectorApertureWrite_atom hon hfn hlen halign hplace]
    rfl
  · rw [exec_windowApertureRead_now hon hfn hwrites, State.hostReply_eq]
    refine congrArg (fun bs => Host.Outcome.next (s.withMg { s.mg with hostRd := s.mg.hostRd ++ [bs] })) ?_
    split
    · rw [List.map_map]
      refine List.map_congr_left fun i _ => ?_
      rw [Function.comp_apply]
      cases s.aperture p (off + i) <;> rfl
    · rfl
  · rw [exec_windowApertureWrite_atom hon hfn hsome hlen hplace]
    rfl
  · have hall : s.latestW.all (fun w => decide (w + s.guard .pkg ≤ (s.dieSt (s.ownKey 9)).clk)) = true := by
      rw [Option.all_eq_true]
      intro w hw
      obtain ⟨q, hq, rfl⟩ := State.mem_of_latestW hw
      exact decide_eq_true (hpast q hq)
    have hready : ¬ (s.flushReceived.mg.posted.any (fun x => decide (x.no < s.nextId)) || !s.latestW.all (fun w =>
        decide (w + s.flushReceived.guard .pkg ≤ (s.flushReceived.dieSt (s.flushReceived.ownKey 9)).clk))) = true := by
      change ¬ (s.mg.posted.any (fun x => decide (x.no < s.nextId)) || !s.latestW.all (fun w =>
        decide (w + s.guard .pkg ≤ (s.dieSt (s.ownKey 9)).clk))) = true
      rw [hposted, hall]
      exact Bool.false_ne_true
    rw [exec_flush hon hfn, State.noteFlush_one (State.flushes_flushReceived hflushes), if_neg hready, ← hflushes]
    rfl
  · have hwaits : s.flushReceived.mg.posted.any (fun x => decide (x.no < s.nextId)) = true := List.any_eq_true.mpr ⟨x, hx, decide_eq_true hbefore⟩
    refine ⟨s.latestW, ?_⟩
    rw [exec_flush hon hfn, State.noteFlush_one (State.flushes_flushReceived hflushes), if_pos (by rw [hwaits]; rfl), State.flushReceived, hflushes,
      List.nil_append]

end Sys2Proof.Machine
end

