-- ==== Sys2Proof/Proofs/Alarms.lean ====
section
/-! TALARM against the statement of FencesAndWaits: a lane that waited for the alarm table keeps the time of its issue (R243), and the
statement's alarm counts from the time at which the lane issues again. -/

namespace Sys2Proof.Machine

/-- TALARM of the word in register 0, due at once. -/
def alarmNow : Instr := .talarm plainHdr .after 0 0

/-- What `alarmNow` uses. -/
def alarmUses : Uses := { src := [0], srcP := whenUses .after, forbid := true }

/-- Lane 0 issued `alarmNow` at count 7, when the alarm table was full, and issues it again at count 10. -/
def reissuedAlarm : State :=
  { State.reset with
    die := [(0, { clk := 10 })], thr := [(0, { st := .waiting, wait := .timed true, ldnb := some 7 })],
    cur := { warp := 0, lanes := [0] } }

theorem plain_reissuedAlarm : Plain reissuedAlarm where
  some_ := by decide
  nodup := by decide
  lane := by decide
  live := by decide
  wid := by decide
  going := by decide
  undrafted := by decide
  nostep := by decide
  nomeet := by decide

theorem legal_reissuedAlarm : Legal reissuedAlarm plainHdr alarmUses := ⟨rfl, rfl, rfl⟩

theorem active_reissuedAlarm : reissuedAlarm.active plainHdr = [0] := rfl

/-- The table has room for the lane's alarm. -/
theorem alarmRoom_reissuedAlarm :
    portsReady alarmUses (reissuedAlarm.opened plainHdr) [0] ∧
      ((reissuedAlarm.opened plainHdr).core (coreOf (reissuedAlarm.opened plainHdr).cur.warp)).alarms.length + [0].length ≤ 81 :=
  ⟨rfl, by decide⟩

/-- The alarm is armed for count 7, the time of the lane's first issue. -/
theorem alarmNow_armed_at_first_issue :
    ∃ b, exec alarmNow reissuedAlarm = .next b ∧ (b.core 0).alarms = [{ at_ := 7, word := 0 }] :=
  ⟨_, rfl, rfl⟩

/-- Refutes O23: a lane that waited for room in the alarm table arms its alarm for the time of its first issue (R243), here 7,
and TALARM's clause has it count from the time at which the lane issues again, here 10. -/
theorem not_fencesAndWaits : ¬ Obligations.FencesAndWaits := by
  rintro ⟨-, -, -, -, hTalarm, -⟩
  obtain ⟨b, hexec, hdone⟩ := hTalarm plainHdr .after 0 0 reissuedAlarm trivial plain_reissuedAlarm legal_reissuedAlarm
    (fun _ => alarmRoom_reissuedAlarm)
  rw [active_reissuedAlarm, if_neg (List.cons_ne_nil 0 [])] at hdone
  obtain ⟨b', hexec', harmed⟩ := alarmNow_armed_at_first_issue
  obtain rfl : b' = b := Host.Outcome.next.inj (hexec'.symm.trans hexec)
  have hstated : (b'.core 0).alarms = [{ at_ := 10, word := 0 }] := congrArg (fun g => (g.core 0).alarms) hdone.rest
  exact absurd (harmed.symm.trans hstated) (by decide)

end Sys2Proof.Machine
end

