-- ==== Sys2Proof/Proofs/Opening.lean ====
section
/-! The state in which a unit's active lanes act: the group's lanes at their issue, the inactive ones retired. -/

namespace Sys2Proof.Machine

/-! The start of a unit (R63). -/

theorem Plain.started_rest {s : State} (hp : Plain s) : s.started = { s with thr := s.started.thr, stamp := s.stamp + 1 } :=
  (State.started_spec hp.nodup).1

theorem Plain.started_cur {s : State} (hp : Plain s) : s.started.cur = s.cur := by rw [hp.started_rest]

theorem Plain.started_thread_lane {s : State} (hp : Plain s) {l : Nat} (hl : l ∈ s.cur.lanes) :
    s.started.thread (s.lane l) = s.atIssue l := by
  rw [(State.started_spec hp.nodup).2, if_pos (mem_lanes.mpr hl)]
  rfl

theorem Plain.started_thread_other {s : State} (hp : Plain s) {k : Nat} (hk : ∀ l ∈ s.cur.lanes, k ≠ s.lane l) :
    s.started.thread k = s.thread k := by
  rw [(State.started_spec hp.nodup).2, if_neg]
  rintro hmem
  obtain ⟨l, hl, rfl⟩ := List.mem_map.mp hmem
  exact hk l hl rfl

theorem Plain.started_laneOn {s : State} (hp : Plain s) (h : Hdr) (k : Nat) : s.started.laneOn h k = s.laneOn h k := by
  refine State.laneOn_congr ?_
  rw [(State.started_spec hp.nodup).2]
  split <;> rfl

theorem Plain.atIssue_active {s : State} (hp : Plain s) {l : Nat} (hl : l ∈ s.cur.lanes) : (s.atIssue l).active := hp.live l hl

/-! The inactive lanes retire (R152). -/

/-- The lanes of the group whose guard does not hold. -/
def State.inactive (s : State) (h : Hdr) : List Nat := s.cur.lanes.filter (fun l => !s.laneOn h (s.lane l))

theorem State.mem_inactive {s : State} {h : Hdr} {l : Nat} : l ∈ s.inactive h ↔ l ∈ s.cur.lanes ∧ s.laneOn h (s.lane l) = false := by
  simp [State.inactive]

/-- The inactive lanes are those that retire at the start. -/
theorem Plain.opened_eq_retireAll {s : State} (hp : Plain s) (h : Hdr) : s.opened h = s.started.retireAll (s.inactive h) := by
  simp only [State.opened, State.retireAll, State.curThreads, List.foldl_map, hp.started_cur, hp.started_laneOn]
  rfl

theorem Plain.opened_done {s : State} (hp : Plain s) (h : Hdr) :
    Done (s.opened h) (s.inactive h) (fun _ x => x.retired s.cur.next) s.started := by
  have hlane : ∀ l, s.started.lane l = s.lane l := fun l => by rw [State.lane, hp.started_cur, State.lane]
  have hmem : ∀ l ∈ s.inactive h, l ∈ s.cur.lanes := fun l hl => (State.mem_inactive.mp hl).1
  have hdone := State.retireAll_done (g := s.started) (act := s.inactive h) (hp.nodup.filter _) (by rw [hp.started_cur]; exact hp.wid)
    (fun l hl => hp.lane l (hmem l hl))
    (fun l hl => by rw [hlane, hp.started_thread_lane (hmem l hl)]; exact hp.atIssue_active (hmem l hl))
  rwa [← hp.opened_eq_retireAll, hp.started_cur] at hdone

/-- Every lane of a plain group is at its issue, the inactive ones have retired, and no more has happened (R151, R152). -/
theorem Plain.start_opened {s : State} (hp : Plain s) (h : Hdr) : Start s (s.opened h) h := by
  have hdone := hp.opened_done h
  have hlane : ∀ l, s.started.lane l = s.lane l := fun l => by rw [State.lane, hp.started_cur, State.lane]
  refine ⟨?rest, fun l hl hon => ?on, fun l hl hoff => ?off, fun k hk => ?others⟩
  case rest => rw [hdone.rest, hp.started_rest]
  case on =>
    rw [hdone.others, hp.started_thread_lane hl]
    intro j hj heq
    rw [hlane] at heq
    have hfalse := (State.mem_inactive.mp hj).2
    rw [← heq, hon] at hfalse
    cases hfalse
  case off =>
    have hthread := hdone.on l (State.mem_inactive.mpr ⟨hl, hoff⟩)
    rwa [hlane, hp.started_thread_lane hl] at hthread
  case others =>
    rw [hdone.others k fun l hl => by rw [hlane]; exact hk l (State.mem_inactive.mp hl).1, hp.started_thread_other hk]

/-- Settles O15: what `opened` computes is what `Start` says. -/
theorem inactiveLanes : Obligations.InactiveLanes := fun _ h hp => hp.start_opened h

end Sys2Proof.Machine
end

