-- ==== Sys2Proof/Proofs/Words.lean ====
section
/-! The units of the spec's own examples, spelled from their fields. -/

namespace Sys2Proof.Machine

/-- Settles O56: the decoder computes what each unit stands for, NOP's header that of the zero unit. -/
theorem decodedWords : Obligations.DecodedWords := by
  refine ⟨?guardedAdd, ?loadBehindPxi, ⟨{ plainHdr with gcond := 4 }, ?zeroUnit⟩, ?hint, ?reservedRow⟩
  case guardedAdd => rfl
  case loadBehindPxi => rfl
  case zeroUnit => rfl
  case hint => rfl
  case reservedRow => rfl

end Sys2Proof.Machine
end

