-- ==== Sys2Proof/Proofs/Turns.lean ====
section
/-! The issue of a partition against the statement of StepRuns: a partition issues the warp that has been ready longest (R449), whichever
of its warps the inputs name. -/

namespace Sys2Proof.Machine

/-- The NOP of the zero unit. -/
def zeroNop : Instr := .nop { plainHdr with gcond := 4 }

/-- A warp in the first slot of a line of zero units. -/
def nopWarp : Warp := { ctx := 1, n := 27, fetch := some (lineWith State.reset.firstIndex [0] (codeLine State.reset.firstIndex)) }

/-- A thread at that slot that has been ready since a count. -/
def nopThread (since : Int) : Thread := { st := .runnable, pc := State.reset.firstIndex, ready := some since }

/-- Two warps of one issue partition are ready, warp 28 since count 3 and warp 29 since count 1. -/
def twoReady : State :=
  { State.reset with
    thr := [(threadOf 28 0, nopThread 3), (threadOf 29 0, nopThread 1)], wrp := [(28, nopWarp), (29, nopWarp)]
    cor := [(1, { blk := some (1, 0) })], die := [(0, { clk := 5 })]
    ctxs := [(1, { part := 1, live := true, blk := [(0, .placed 1)], lr := { dies := [0], regs := 27 } })] }

theorem selects_twoReady : twoReady.selects 28 0 [] [0] zeroNop := by
  refine ⟨by decide +kernel, by decide, fun j hj => ?_, rfl, by decide +kernel⟩
  obtain rfl : j = 0 := by simpa using hj
  decide +kernel

/-- The state in which warp 28's NOP acts, and the state that it leaves. -/
def nopState : State := twoReady.atUnit 28 [0] State.reset.firstIndex 1
def nopDone : State := nopState.issue { plainHdr with gcond := 0 } {} (fun act s => s.retireAll act)

theorem exec_nopState : exec zeroNop nopState = .next nopDone := rfl

/-- The NOP acts: its group has taken a stamp. -/
theorem nopDone_stamp : nopDone.stamp ≠ twoReady.stamp ∧ nopDone.stamp ≠ nopState.stamp := by decide +kernel

/-- Where warp 28 stands in the state that a step answers. -/
def pcAfter : R → Option Int
  | .next t => some (t.thread (threadOf 28 0)).pc
  | _ => none

/-- The step issues warp 29, so that warp 28 stays where it is. -/
theorem pcAfter_step_twoReady :
    pcAfter (step { twoReady with inputs := .issue 28 :: twoReady.inputs }) = some State.reset.firstIndex := by decide +kernel

theorem pcAfter_nopDone : pcAfter (.next nopDone.noted) = some (State.reset.firstIndex + 1) := by decide +kernel

/-- Refutes O57: inputs name the issue of warp 28, which selects a NOP, and the step issues warp 29 of the same partition, which has been
ready longer (R449); the statement has warp 28 run. -/
theorem not_stepRuns : ¬ Obligations.StepRuns := by
  rintro ⟨hissue, -, -⟩
  have hstep := hissue twoReady 28 0 [] [0] zeroNop nopDone rfl selects_twoReady exec_nopState
    (fun heq => nopDone_stamp.1 (congrArg State.stamp heq)) (fun heq => nopDone_stamp.2 (congrArg State.stamp heq))
  have hpc : some State.reset.firstIndex = some (State.reset.firstIndex + 1) := by
    rw [← pcAfter_step_twoReady, hstep, pcAfter_nopDone]
  simp at hpc

end Sys2Proof.Machine
end

