-- ==== Sys2Proof/Proofs/Entry.lean ====
section
/-! Raising a cause and entering the handler: what some lanes' raising leaves, and what the settling of their warp makes of it (R398, R402). -/

namespace Sys2Proof.Machine

/-! A lane raises a cause (R398). -/

/-- A thread in which a trapping cause awaits delivery, none having done so before. -/
def Thread.raised (r : Raise) (x : Thread) : Thread :=
  { x with cause := setFld x.cause r.cause 1 1, pend := some r, early := some (x.early.getD r), busy := false }

/-- A cause that traps in every context (R399). -/
def Hard (c : Nat) : Prop := c ≠ 19 ∧ isSoft c = false

theorem Hard.traps {c : Nat} (h : Hard c) (s : State) (ctx : Nat) : s.traps ctx c = true := by
  simp [State.traps, h.1, h.2]

/-- Outside a draft a hard cause marks its thread and its warp, and does no more. -/
theorem State.raise_eq {s : State} {t : Nat} {r : Raise} (hhard : Hard r.cause) (hdraft : (s.warp (warpOf t)).draft.depth = 0)
    (hlive : (s.thread t).st ≠ .exited) (hpend : (s.thread t).pend = none) :
    s.raise t r = (s.setThread t ((s.thread t).raised r)).setWarp (warpOf t) { s.warp (warpOf t) with stopping := true } := by
  simp [State.raise, State.raiseSet, hlive, hdraft, hhard.traps, hpend, Thread.raised, setCause]

/-- `x` is `b` but for some lanes of a warp, which have raised a cause in it. -/
structure Raised (b x : State) (w : Nat) (ls : List Nat) (r : Raise) : Prop where
  on : ∀ l ∈ ls, x.thread (threadOf w l) = (b.thread (threadOf w l)).raised r
  others : ∀ k, (∀ l ∈ ls, k ≠ threadOf w l) → x.thread k = b.thread k
  warp : ∀ v, x.warp v = if v = w ∧ ls ≠ [] then { b.warp v with stopping := true } else b.warp v
  rest : x = { b with thr := x.thr, wrp := x.wrp }

theorem Raised.refl (b : State) (w : Nat) (r : Raise) : Raised b b w [] r := ⟨by simp, fun _ _ => rfl, fun v => by simp, rfl⟩

/-- What raising reads of its warp is as it was. -/
theorem Raised.warp_same {b x : State} {w : Nat} {ls : List Nat} {r : Raise} (h : Raised b x w ls r) :
    x.warp w = { b.warp w with stopping := (x.warp w).stopping } := by
  rw [h.warp]
  split <;> rfl

theorem Raised.thread_of_not_mem {b x : State} {w : Nat} {ls : List Nat} {r : Raise} (h : Raised b x w ls r) {l : Nat} (hl : l ∉ ls) :
    x.thread (threadOf w l) = b.thread (threadOf w l) :=
  h.others _ fun _ hj heq => hl (threadOf_inj heq ▸ hj)

theorem Raised.ctx_eq {b x : State} {w : Nat} {ls : List Nat} {r : Raise} (h : Raised b x w ls r) (c : Nat) : x.ctx c = b.ctx c :=
  State.ctx_congr (by rw [h.rest]) c

/-- What a lane must be to raise a cause that its warp delivers as its first. -/
structure MayRaise (b : State) (w l : Nat) : Prop where
  lane : l < 16
  live : (b.thread (threadOf w l)).active
  pend : (b.thread (threadOf w l)).pend = none
  kept : (b.thread (threadOf w l)).kept = none

theorem MayRaise.not_exited {b : State} {w l : Nat} (h : MayRaise b w l) : (b.thread (threadOf w l)).st ≠ .exited := by
  rcases h.live with hst | hst <;> rw [hst] <;> decide

/-- One more lane raises the cause. -/
theorem Raised.raise {b x : State} {w : Nat} {ls : List Nat} {r : Raise} (h : Raised b x w ls r) (hhard : Hard r.cause)
    (hdraft : (b.warp w).draft.depth = 0) {l : Nat} (hl : MayRaise b w l) (hnew : l ∉ ls) :
    Raised b (x.raise (threadOf w l) r) w (ls ++ [l]) r := by
  have hthread := h.thread_of_not_mem hnew
  have heq : x.raise (threadOf w l) r =
      (x.setThread (threadOf w l) ((b.thread (threadOf w l)).raised r)).setWarp w { x.warp w with stopping := true } := by
    have hraise := State.raise_eq (s := x) (t := threadOf w l) hhard (by rw [threadOf_warp hl.lane, h.warp_same]; exact hdraft)
      (by rw [hthread]; exact hl.not_exited) (by rw [hthread]; exact hl.pend)
    rwa [threadOf_warp hl.lane, hthread] at hraise
  rw [heq]
  refine ⟨fun j hj => ?on, fun k hk => ?others, fun v => ?warp, ?rest⟩
  case on =>
    rw [State.thread_setWarp, State.thread_setThread]
    rcases List.mem_append.mp hj with hold | hone
    · rw [if_neg fun he : threadOf w j = threadOf w l => hnew (threadOf_inj he ▸ hold), h.on j hold]
    · rw [List.mem_singleton.mp hone, if_pos rfl]
  case others =>
    rw [State.thread_setWarp, State.thread_setThread, if_neg (hk l (by simp)), h.others k fun j hj => hk j (by simp [hj])]
  case warp =>
    rw [State.warp_setWarp, State.warp_setThread]
    by_cases hv : v = w
    · rw [if_pos hv, if_pos ⟨hv, by simp⟩, hv, h.warp_same]
    · rw [if_neg hv, if_neg fun hc => hv hc.1, h.warp, if_neg fun hc => hv hc.1]
  case rest => simp only [State.setWarp, State.setThread]; rw [h.rest]

/-- Lanes outside a draft raise a cause one after the other. -/
theorem Raised.raiseAll {b : State} {w : Nat} {r : Raise} (hhard : Hard r.cause) (hdraft : (b.warp w).draft.depth = 0) (ls : List Nat)
    (hn : ls.Nodup) (hls : ∀ l ∈ ls, MayRaise b w l) : Raised b (b.raiseAll (ls.map (threadOf w)) r) w ls r := by
  have hroll : ∀ l ∈ ls, ∀ a, b.rolled a (threadOf w l) = false := fun l hl a => by
    simp [State.rolled, State.drafting, threadOf_warp (hls l hl).lane, hdraft]
  suffices hfold : ∀ (js ks : List Nat) (a : State), (ks ++ js).Nodup → (∀ l ∈ js, l ∈ ls) → Raised b a w ks r →
      Raised b ((js.map (threadOf w)).foldl (fun a t => if b.rolled a t then a else a.raise t r) a) w (ks ++ js) r from
    hfold ls [] b hn (fun _ hl => hl) (Raised.refl b w r)
  intro js
  induction js with
  | nil => intro ks a _ _ ha; rwa [List.append_nil]
  | cons l js ih =>
    intro ks a hnd hsub ha
    have hl := hsub l List.mem_cons_self
    have hnew : l ∉ ks := fun hk => (List.nodup_append.mp hnd).2.2 l hk l List.mem_cons_self rfl
    rw [List.map_cons, List.foldl_cons, hroll l hl, if_neg Bool.false_ne_true, List.append_cons]
    exact ih (ks ++ [l]) _ (by rwa [← List.append_cons]) (fun j hj => hsub j (List.mem_cons_of_mem l hj)) (ha.raise hhard hdraft (hls l hl) hnew)

/-! The warp stops and enters (R402). -/

/-- Changes of threads and warps alone, one after the other. -/
theorem State.rest_trans {a b c : State} (h : b = { a with thr := b.thr, wrp := b.wrp }) (h' : c = { b with thr := c.thr, wrp := c.wrp }) :
    c = { a with thr := c.thr, wrp := c.wrp } :=
  h'.trans (by rw [h])

/-- What a warp's stop makes of a thread (R66). -/
def Thread.halted (x : Thread) : Thread := if x.st = .exited ∨ x.st = .stopped then x else { x with st := .stopped, prior := x.st }

theorem State.stopWarp_spec (s : State) (w : Nat) :
    s.stopWarp w = { s with thr := (s.stopWarp w).thr } ∧
      ∀ k, (s.stopWarp w).thread k = if k ∈ threadsOf w then (s.thread k).halted else s.thread k := by
  refine fold_threads_read s _ Thread.halted (threadsOf w) (nodup_threadsOf w) fun a t _ => ?_
  by_cases hst : (a.thread t).st = .exited ∨ (a.thread t).st = .stopped
  · have hself : (a.thread t).halted = a.thread t := if_pos hst
    simp only [hst, if_true]
    exact ⟨trivial, fun k => by split <;> simp_all⟩
  · have hself : (a.thread t).halted = { a.thread t with st := .stopped, prior := (a.thread t).st } := if_neg hst
    simp only [hst, if_false, ← hself]
    exact ⟨rfl, fun k => by rw [State.thread_setThread]; split <;> simp_all⟩

/-- What a warp must be to enter its handler as soon as a lane raises a trapping cause. -/
structure MayEnter (s : State) (w : Nat) : Prop where
  vec : (s.ctx (s.warp w).ctx).tvec ≠ 0
  out : (s.warp w).hm = false
  nodraft : (s.warp w).draft.depth = 0
  idle : s.quiet w = true
  free : s.frozen w = false
  first : ∀ k ∈ threadsOf w, (s.thread k).pend = none

theorem State.raisers_eq_nil {s : State} {w : Nat} : s.raisers w = [] ↔ ∀ k ∈ threadsOf w, (s.thread k).pend = none := by
  simp [State.raisers, List.filter_eq_nil_iff]

theorem Enterable.mayEnter {s : State} (h : Enterable s) : MayEnter s s.cur.warp :=
  ⟨h.vec, h.out, h.nodraft, h.idle, h.free, State.raisers_eq_nil.mp h.first⟩

/-- It may still when only threads have changed that raise nothing. -/
theorem MayEnter.of_threads {s b : State} {w : Nat} (h : MayEnter s w) (hrest : b = { s with thr := b.thr, stamp := b.stamp })
    (hpend : ∀ k ∈ threadsOf w, (b.thread k).pend = (s.thread k).pend) : MayEnter b w := by
  refine ⟨?_, ?_, ?_, ?_, ?_, fun k hk => (hpend k hk).trans (h.first k hk)⟩ <;> rw [hrest]
  exacts [h.vec, h.out, h.nodraft, h.idle, h.free]

theorem Raised.mem_raisers {b x : State} {w : Nat} {ls : List Nat} {r : Raise} (h : Raised b x w ls r) (hb : MayEnter b w)
    (hls : ∀ l ∈ ls, l < 16) {k : Nat} : k ∈ x.raisers w ↔ ∃ l ∈ ls, k = threadOf w l := by
  rw [State.raisers, List.mem_filter]
  constructor
  · rintro ⟨hk, hpend⟩
    by_contra hno
    rw [h.others k fun l hl heq => hno ⟨l, hl, heq⟩, hb.first k hk] at hpend
    cases hpend
  · rintro ⟨l, hl, rfl⟩
    exact ⟨mem_threadsOf.mpr ⟨l, hls l hl, rfl⟩, by rw [h.on l hl]; rfl⟩

/-- What raising leaves of what delivery asks of the warp (R405). -/
theorem Raised.quiet_eq {b x : State} {w : Nat} {ls : List Nat} {r : Raise} (h : Raised b x w ls r) : x.quiet w = b.quiet w := by
  have hreqs : x.reqs = b.reqs := by rw [h.rest]
  have hcore : x.core (coreOf w) = b.core (coreOf w) := by rw [h.rest]; rfl
  simp only [State.quiet, hreqs, hcore]
  rw [h.warp_same]

theorem Raised.frozen_eq {b x : State} {w : Nat} {ls : List Nat} {r : Raise} (h : Raised b x w ls r) : x.frozen w = b.frozen w := by
  have hctx : (x.warp w).ctx = (b.warp w).ctx := by rw [h.warp_same]
  have hsaving : x.savingCore (coreOf w) = b.savingCore (coreOf w) := by rw [h.rest]; rfl
  have hmg : x.mg = b.mg := by rw [h.rest]
  simp only [State.frozen, hsaving, hctx, h.ctx_eq, hmg]

/-- A thread whose raising is delivered has entered the handler. -/
def Thread.entered (tvec : Int) (x : Thread) : Thread :=
  match x.pend with
  | some r => enterThread tvec x r
  | none => x

theorem State.meetsNow_of_not_held {s : State} {w : Nat} (h : ∀ k ∈ threadsOf w, (s.thread k).st ≠ .held) : s.meetsNow w = false := by
  simp only [State.meetsNow, List.any_eq_false]
  intro k hk
  simp [h k hk]

/-- The entry of one lane. -/
def State.enterLane (tvec : Int) (s : State) (t : Nat) : State :=
  match (s.thread t).pend with
  | some r => (s.dropKept t).setThread t (enterThread tvec ((s.dropKept t).thread t) r)
  | none => s

/-- The lanes' entry, before the warp's own registers are set. -/
def State.enterLanes (s : State) (w : Nat) : State := (s.raisers w).foldl (State.enterLane (s.ctx (s.warp w).ctx).tvec) s

theorem State.enter_eq (s : State) (w : Nat) : s.enter w = ((s.enterLanes w).setWarp w { (s.enterLanes w).warp w with
    pl := if isSup (s.warp w).ctx then (s.warp w).pl else 0, hm := true, stopping := false }).meet w := rfl

/-- Lanes that wait inside no unit that counts enter one after the other. -/
theorem State.enterLanes_spec {s : State} {w : Nat} (hkept : ∀ k ∈ s.raisers w, (s.thread k).kept = none) :
    s.enterLanes w = { s with thr := (s.enterLanes w).thr } ∧
      ∀ k, (s.enterLanes w).thread k = if k ∈ s.raisers w then (s.thread k).entered (s.ctx (s.warp w).ctx).tvec else s.thread k := by
  refine fold_threads s _ (Thread.entered (s.ctx (s.warp w).ctx).tvec) (s.raisers w) ((nodup_threadsOf w).filter _) fun a t ht _ hsame => ?_
  obtain ⟨r, hr⟩ := Option.isSome_iff_exists.mp (List.mem_filter.mp ht).2
  have hdrop : a.dropKept t = a := by simp only [State.dropKept, hsame, hkept t ht]
  simp only [State.enterLane, hsame, hr, hdrop, Thread.entered]

/-- Entry into the handler when no lane waits inside a unit that counts and no thread is held (R402). -/
theorem State.enter_spec {s : State} {w : Nat} (hkept : ∀ k ∈ s.raisers w, (s.thread k).kept = none)
    (hheld : ∀ k ∈ threadsOf w, (s.thread k).st ≠ .held) :
    s.enter w = { s with thr := (s.enter w).thr, wrp := (s.enter w).wrp } ∧
      (∀ k, (s.enter w).thread k = if k ∈ s.raisers w then (s.thread k).entered (s.ctx (s.warp w).ctx).tvec else s.thread k) ∧
      ∀ v, (s.enter w).warp v = if v = w then
        { s.warp v with pl := if isSup (s.warp v).ctx then (s.warp v).pl else 0, hm := true, stopping := false } else s.warp v := by
  obtain ⟨hrest, hthread⟩ := State.enterLanes_spec hkept
  have hwarp : ∀ v, (s.enterLanes w).warp v = s.warp v := State.warp_congr (by rw [hrest])
  have henter : s.enter w = (s.enterLanes w).setWarp w
      { s.warp w with pl := if isSup (s.warp w).ctx then (s.warp w).pl else 0, hm := true, stopping := false } := by
    rw [State.enter_eq, State.meet_eq, hwarp]
    refine State.meetsNow_of_not_held fun k hk => ?_
    rw [State.thread_setWarp, hthread]
    by_cases hraise : k ∈ s.raisers w
    · obtain ⟨r, hr⟩ := Option.isSome_iff_exists.mp (List.mem_filter.mp hraise).2
      simp [hraise, Thread.entered, hr, enterThread]
    · rw [if_neg hraise]
      exact hheld k hk
  rw [henter]
  refine ⟨?_, fun k => ?_, fun v => ?_⟩
  · rw [State.setWarp, hrest]
  · rw [State.thread_setWarp, hthread]
  · rw [State.warp_setWarp, hwarp]
    by_cases hv : v = w
    · rw [if_pos hv, if_pos hv, hv]
    · rw [if_neg hv, if_neg hv]

/-! Delivery (R402, R405). -/

theorem Thread.halted_pend (x : Thread) : x.halted.pend = x.pend := by unfold Thread.halted; split <;> rfl
theorem Thread.halted_kept (x : Thread) : x.halted.kept = x.kept := by unfold Thread.halted; split <;> rfl
theorem Thread.halted_not_held (x : Thread) : x.halted.st ≠ .held := by
  unfold Thread.halted
  split
  · next hst => rcases hst with hst | hst <;> rw [hst] <;> decide
  · exact fun hst => nomatch hst

/-- The thread of a lane that was active, raised a cause and has entered. -/
theorem Thread.entered_halted_raised {x : Thread} (hact : x.active) (r : Raise) (hdef : r.deferred = false) (tvec : Int) :
    ((x.raised r).halted).entered tvec =
      { x with cause := setFld x.cause r.cause 1 1, epc := r.pc, emr := x.mr, eaddr := r.ea
               einfo := einfoOf (x.early.getD r) r, mr := 0, pc := wrap tvec 52
               st := .runnable, prior := x.st, inH := true, tret := false, wait := .none_, deadline := none, busy := false, pend := none
               early := none, ldnb := none } := by
  have hlive : ¬ ((x.raised r).st = .exited ∨ (x.raised r).st = .stopped) := by
    have hst : (x.raised r).st = x.st := rfl
    rw [hst]
    rcases hact with h | h <;> rw [h] <;> decide
  have hhalt : (x.raised r).halted = { x.raised r with st := .stopped, prior := x.st } := if_neg hlive
  rw [hhalt]
  simp [Thread.entered, Thread.raised, enterThread, entryRegs, hdef]

/-- Delivery stops a warp that has raised a cause, and the warp enters. -/
theorem Raised.deliver_eq {b x : State} {w : Nat} {ls : List Nat} {r : Raise} (h : Raised b x w ls r) (hb : MayEnter b w)
    (hls : ∀ l ∈ ls, l < 16) (hne : ls ≠ []) : x.deliver w = (x.stopWarp w).enter w := by
  have hwarp : x.warp w = { b.warp w with stopping := true } := by rw [h.warp, if_pos ⟨rfl, hne⟩]
  have hraisers : (x.raisers w).isEmpty = false := by
    obtain ⟨l, hl⟩ := List.exists_mem_of_ne_nil ls hne
    have hmem := (h.mem_raisers hb hls).mpr ⟨l, hl, rfl⟩
    cases hr : x.raisers w with
    | nil => rw [hr] at hmem; cases hmem
    | cons _ _ => rfl
  have hvec : (x.ctx (b.warp w).ctx).tvec ≠ 0 := by rw [h.ctx_eq]; exact hb.vec
  simp [State.deliver, hwarp, hraisers, h.frozen_eq, h.quiet_eq, hb.free, hb.idle, hb.out, hvec]

/-- A warp that has been delivered settles when no thread of it is held and one has not exited. -/
theorem State.settle_of_deliver {x y : State} {w t : Nat} (hdeliver : x.deliver w = y) (hgoing : (y.warp w).stopping = false)
    (hheld : ∀ k ∈ threadsOf w, (y.thread k).st ≠ .held) (ht : t ∈ threadsOf w) (hlive : (y.thread t).st ≠ .exited) : x.settle w = y := by
  have hcalm := State.settle_eq hgoing (State.meetsNow_of_not_held hheld) ht hlive
  have hdone : y.deliver w = y := by simp [State.deliver, hgoing]
  rw [State.settle, hdone] at hcalm
  rw [State.settle, hdeliver, hcalm]

/-- A stopped warp in which some lanes have raised a cause enters its handler with them (R402). -/
theorem Raised.entered_of_stop {b x : State} {w : Nat} {ls : List Nat} {r : Raise} (h : Raised b x w ls r) (hb : MayEnter b w)
    (hls : ∀ l ∈ ls, MayRaise b w l) (hne : ls ≠ [])
    (hdef : r.deferred = false) : Entered b ((x.stopWarp w).enter w) w ls r := by
  obtain ⟨hstop, hhalt⟩ := x.stopWarp_spec w
  have hlanes : ∀ l ∈ ls, l < 16 := fun l hl => (hls l hl).lane
  have hmem : ∀ l ∈ ls, threadOf w l ∈ threadsOf w := fun l hl => mem_threadsOf.mpr ⟨l, hlanes l hl, rfl⟩
  have hraisers : ∀ k, k ∈ (x.stopWarp w).raisers w ↔ ∃ l ∈ ls, k = threadOf w l := fun k => by
    rw [← h.mem_raisers hb hlanes, State.raisers, State.raisers, List.mem_filter, List.mem_filter, hhalt]
    refine and_congr_right fun hk => ?_
    rw [if_pos hk, Thread.halted_pend]
  have hwarp : ∀ v, (x.stopWarp w).warp v = x.warp v := State.warp_congr (by rw [hstop])
  obtain ⟨hrest, hthread, hwarps⟩ := State.enter_spec (s := x.stopWarp w) (w := w)
    (fun k hk => by
      obtain ⟨l, hl, rfl⟩ := (hraisers k).mp hk
      rw [hhalt, if_pos (hmem l hl), Thread.halted_kept, h.on l hl]
      exact (hls l hl).kept)
    (fun k hk => by rw [hhalt, if_pos hk]; exact Thread.halted_not_held _)
  have htvec : ((x.stopWarp w).ctx ((x.stopWarp w).warp w).ctx).tvec = (b.ctx (b.warp w).ctx).tvec := by
    have hctx : ∀ c, (x.stopWarp w).ctx c = x.ctx c := State.ctx_congr (by rw [hstop])
    rw [hwarp, hctx, h.ctx_eq, h.warp_same]
  rw [htvec] at hthread
  have hon : ∀ l ∈ ls, ((x.stopWarp w).enter w).thread (threadOf w l) =
      (((b.thread (threadOf w l)).raised r).halted).entered (b.ctx (b.warp w).ctx).tvec := fun l hl => by
    rw [hthread, if_pos ((hraisers _).mpr ⟨l, hl, rfl⟩), hhalt, if_pos (hmem l hl), h.on l hl]
  have hoff : ∀ k, (∀ l ∈ ls, k ≠ threadOf w l) → ((x.stopWarp w).enter w).thread k = (x.stopWarp w).thread k := fun k hk => by
    rw [hthread, if_neg]
    intro hc
    obtain ⟨l, hl, heq⟩ := (hraisers k).mp hc
    exact hk l hl heq
  refine ⟨fun l hl => ?on, fun k hk hkl => ?stopped, fun k hk => ?others, fun v => ?warp, ?rest⟩
  case on => rw [hon l hl, Thread.entered_halted_raised (hls l hl).live r hdef]
  case stopped => rw [hoff k hkl, hhalt, if_pos hk, h.others k hkl]; rfl
  case others =>
    have hkl : ∀ l ∈ ls, k ≠ threadOf w l := fun l hl heq => hk (heq ▸ hmem l hl)
    rw [hoff k hkl, hhalt, if_neg hk, h.others k hkl]
  case warp =>
    rw [hwarps, hwarp, h.warp]
    by_cases hv : v = w
    · rw [if_pos hv, if_pos hv, if_pos ⟨hv, hne⟩]
    · rw [if_neg hv, if_neg hv, if_neg fun hc => hv hc.1]
  case rest => exact State.rest_trans (State.rest_trans h.rest (by rw [hstop])) hrest

/-- No thread of a warp that has entered is held. -/
theorem Entered.thread_not_held {b t : State} {w : Nat} {ls : List Nat} {r : Raise} (h : Entered b t w ls r) {k : Nat} (hk : k ∈ threadsOf w) :
    (t.thread k).st ≠ .held := by
  by_cases hmem : ∃ l ∈ ls, k = threadOf w l
  · obtain ⟨l, hl, rfl⟩ := hmem
    rw [h.on l hl]
    exact fun hst => nomatch hst
  · rw [h.stopped k hk fun l hl heq => hmem ⟨l, hl, heq⟩]
    exact Thread.halted_not_held _

/-- A warp in which some lanes have raised a cause enters its handler with them as it settles (R402). -/
theorem Raised.entered {b x : State} {w : Nat} {ls : List Nat} {r : Raise} (h : Raised b x w ls r) (hb : MayEnter b w)
    (hls : ∀ l ∈ ls, MayRaise b w l) (hne : ls ≠ []) (hdef : r.deferred = false) : Entered b (x.settle w) w ls r := by
  have hentered := h.entered_of_stop hb hls hne hdef
  obtain ⟨l, hl⟩ := List.exists_mem_of_ne_nil ls hne
  rw [State.settle_of_deliver (t := threadOf w l) (h.deliver_eq hb (fun l hl => (hls l hl).lane) hne) (by rw [hentered.warp, if_pos rfl])
    (fun k hk => hentered.thread_not_held hk) (mem_threadsOf.mpr ⟨l, (hls l hl).lane, rfl⟩)
    (by rw [hentered.on l hl]; exact fun hst => nomatch hst)]
  exact hentered

end Sys2Proof.Machine
end

