-- ==== Sys2Proof/Proofs/UnitTraps.lean ====
section
/-! Units that enter the handler: forms that trap before anything of their own happens, software traps, and causes of some lanes. -/

namespace Sys2Proof.Machine

/-! The lanes of a plain group may raise (R398). -/

theorem Plain.mayRaise_started {s : State} (hp : Plain s) (he : Enterable s) {l : Nat} (hl : l ∈ s.cur.lanes) :
    MayRaise s.started s.cur.warp l := by
  have hthread : s.started.thread (threadOf s.cur.warp l) = s.atIssue l := hp.started_thread_lane hl
  refine ⟨hp.lane l hl, ?_, ?_, ?_⟩ <;> rw [hthread]
  · exact hp.atIssue_active hl
  · exact he.mayEnter.first _ (mem_threadsOf.mpr ⟨l, hp.lane l hl, rfl⟩)
  · exact he.kept l hl

theorem Plain.mayRaise_opened {s : State} (hp : Plain s) (he : Enterable s) {h : Hdr} {l : Nat} (hl : l ∈ s.active h) :
    MayRaise (s.opened h) s.cur.warp l := by
  obtain ⟨hgroup, hon⟩ := State.mem_active hl
  have hthread : (s.opened h).thread (threadOf s.cur.warp l) = s.atIssue l := (hp.start_opened h).on l hgroup hon
  have hstarted : s.started.thread (threadOf s.cur.warp l) = s.atIssue l := hp.started_thread_lane hgroup
  have hmay := hp.mayRaise_started he hgroup
  refine ⟨hmay.lane, ?_, ?_, ?_⟩ <;> rw [hthread, ← hstarted]
  exacts [hmay.live, hmay.pend, hmay.kept]

/-- Nothing that a unit's start leaves in a thread awaits delivery. -/
theorem Start.pend {s a : State} {h : Hdr} (ha : Start s a h) (k : Nat) : (a.thread k).pend = (s.thread k).pend := by
  by_cases hk : ∃ l ∈ s.cur.lanes, k = s.lane l
  · obtain ⟨l, hl, rfl⟩ := hk
    cases hon : s.laneOn h (s.lane l) with
    | true => rw [ha.on l hl hon]; rfl
    | false => rw [ha.off l hl hon]; rfl
  · rw [ha.others k fun l hl heq => hk ⟨l, hl, heq⟩]

theorem Plain.mayEnter_opened {s : State} (hp : Plain s) (he : Enterable s) (h : Hdr) : MayEnter (s.opened h) s.cur.warp :=
  he.mayEnter.of_threads (by rw [(hp.start_opened h).rest]) fun k _ => (hp.start_opened h).pend k

theorem Plain.mayEnter_started {s : State} (hp : Plain s) (he : Enterable s) : MayEnter s.started s.cur.warp := by
  refine he.mayEnter.of_threads (by rw [hp.started_rest]) fun k _ => ?_
  by_cases hk : ∃ l ∈ s.cur.lanes, k = s.lane l
  · obtain ⟨l, hl, rfl⟩ := hk
    rw [hp.started_thread_lane hl]
    rfl
  · rw [hp.started_thread_other fun l hl heq => hk ⟨l, hl, heq⟩]

/-! Forms that trap first (R159, R395). -/

/-- The warp settles once every lane of the group has raised a cause at the unit. -/
def State.trapGroup (s : State) (c : Nat) : State :=
  (s.started.raiseAll (s.cur.lanes.map (threadOf s.cur.warp)) { cause := c, pc := s.cur.first }).settle s.cur.warp

theorem Plain.trapGroup_entered {s : State} (hp : Plain s) (he : Enterable s) {c : Nat} (hc : Hard c) :
    Entered s.started (s.trapGroup c) s.cur.warp s.cur.lanes { cause := c, pc := s.cur.first } :=
  have hmay := hp.mayEnter_started he
  have hlanes : ∀ l ∈ s.cur.lanes, MayRaise s.started s.cur.warp l := fun _ hl => hp.mayRaise_started he hl
  (Raised.raiseAll hc hmay.nodraft s.cur.lanes hp.nodup hlanes).entered hmay hlanes hp.some_ rfl

theorem Plain.started_privFault {s : State} (hp : Plain s) (u : Uses) : s.started.privFault u = s.privFault u := by rw [hp.started_rest]; rfl
theorem Plain.started_fieldFault {s : State} (hp : Plain s) (u : Uses) : s.started.fieldFault u = s.fieldFault u := by rw [hp.started_rest]; rfl

/-- The issue of a form at too low a level. -/
theorem Plain.issue_of_privFault {s : State} (hp : Plain s) {h : Hdr} {u : Uses} (hready : s.ready h u = true) (hpriv : s.privFault u = true)
    (body : List Nat → State → State) : s.issue h u body = s.trapGroup 1 := by
  simp only [State.issue, hready, hp.started_privFault, hpriv, hp.started_cur, State.curThreads, State.trapGroup]
  rfl

/-- The issue of a form with an illegal register field or port. -/
theorem Plain.issue_of_fieldFault {s : State} (hp : Plain s) {h : Hdr} {u : Uses} {c : Nat} (hready : s.ready h u = true)
    (hpriv : s.privFault u = false) (hfield : s.fieldFault u = some c) (body : List Nat → State → State) :
    s.issue h u body = s.trapGroup c := by
  simp only [State.issue, hready, hp.started_privFault, hpriv, hp.started_fieldFault, hfield, hp.started_cur, State.curThreads, State.trapGroup]
  rfl

/-- The causes of register fields trap in every context (R159). -/
theorem State.hard_of_fieldFault {s : State} {u : Uses} {c : Nat} (h : s.fieldFault u = some c) : Hard c := by
  have hc : c = 0 ∨ c = 15 := by
    simp only [State.fieldFault] at h
    split at h
    · exact .inl (Option.some.inj h).symm
    · split at h
      · exact .inr (Option.some.inj h).symm
      · cases h
  rcases hc with rfl | rfl <;> exact ⟨by decide, rfl⟩

/-- A form whose meaning is an issue traps before its body (R159). -/
theorem TrapsFirst.of {i : Instr} {h : Hdr} {u : Uses} (hexec : ∀ s, ∃ body, exec i s = .next (s.issue h u body)) : TrapsFirst i h u := by
  intro s hp he hready
  obtain ⟨body, hbody⟩ := hexec s
  refine ⟨fun hpriv => ⟨_, ?_, hp.trapGroup_entered he ⟨by decide, rfl⟩⟩,
    fun c hpriv hfield => ⟨_, ?_, hp.trapGroup_entered he (State.hard_of_fieldFault hfield)⟩⟩
  · rw [hbody, hp.issue_of_privFault hready hpriv]
  · rw [hbody, hp.issue_of_fieldFault hready hpriv hfield]

/-! CSRR and CSRW, whose level stands in the table of R397. -/

theorem csrr_trapsFirst (h : Hdr) (d n : Nat) (i : CsrInfo) (hi : csrInfo n = some i) (hsingle : i.isPair = false) : TrapsFirst (.csrr h d n) h
    { dstR := [d], level := if i.read = .handler then .handler else .sup, forbid := true } := by
  refine TrapsFirst.of fun s => ?_
  simp only [exec, execCsrr, hi, hsingle]
  exact ⟨_, rfl⟩

theorem csrw_trapsFirst (h : Hdr) (a n : Nat) (i : CsrInfo) (hi : csrInfo n = some i) (hpair : i.isPair = true) : TrapsFirst (.csrw h a n) h
    { srcP := [a], level := if i.write = .handler then .handler else .sup, forbid := true } := by
  refine TrapsFirst.of fun s => ?_
  simp only [exec, execCsrw, hi, hpair]
  exact ⟨_, rfl⟩

/-! Software traps (R275). -/

/-- A legal unit in whose body lanes `ls` raise a cause enters its handler with them; `b` is what the body leaves but for the raising. -/
theorem Plain.issue_entered {s b : State} {h : Hdr} {u : Uses} {body : List Nat → State → State} {ls : List Nat} {r : Raise}
    (hp : Plain s) (hl : Legal s h u) (hact : s.active h ≠ []) (hb : b = { s.opened h with thr := b.thr })
    (hraised : Raised b (body (s.active h) (s.opened h)) s.cur.warp ls r) (hmay : MayEnter b s.cur.warp)
    (hls : ∀ l ∈ ls, MayRaise b s.cur.warp l) (hne : ls ≠ []) (hdef : r.deferred = false) :
    Entered b (s.issue h u body) s.cur.warp ls r := by
  obtain ⟨a, ha, ⟨rfl, -⟩, hissue⟩ := State.issue_plain hp hl body
  rw [hissue, if_neg hact, State.stepTrap_eq]
  · exact hraised.entered hmay hls hne hdef
  · have hwarp : b.warp s.cur.warp = s.warp s.cur.warp := State.warp_congr (by rw [hb, ha.rest]) _
    have hctx : ∀ c, b.ctx c = s.ctx c := State.ctx_congr (by rw [hb, ha.rest])
    rw [hraised.warp_same, hraised.ctx_eq, hwarp, hctx]
    exact hp.nostep

/-- BRK: every active lane raises BREAK at its unit. -/
theorem brk_entered (h : Hdr) (code : Int) {s : State} (hp : Plain s) (hl : Legal s h {}) (he : Enterable s) (hact : s.active h ≠ []) :
    ∃ t, exec (.brk h code) s = .next t ∧
      Entered (s.opened h) t s.cur.warp (s.active h) { cause := 2, pc := s.cur.first, code := code } := by
  have hcur : (s.opened h).cur = s.cur := (hp.start_opened h).cur
  have hmay := hp.mayEnter_opened he h
  have hlanes : ∀ l ∈ s.active h, MayRaise (s.opened h) s.cur.warp l := fun _ hmem => hp.mayRaise_opened he hmem
  refine ⟨_, rfl, hp.issue_entered hl hact rfl ?_ hmay hlanes hact rfl⟩
  simp only [State.curThreads, hcur]
  exact Raised.raiseAll (show Hard 2 from ⟨by decide, rfl⟩) hmay.nodraft _ (active_nodup hp) hlanes

/-- TRAP: every active lane retires and raises TRAP at the next unit. -/
theorem trap_entered (h : Hdr) (code : Int) {s : State} (hp : Plain s) (hl : Legal s h { forbid := true }) (he : Enterable s)
    (hact : s.active h ≠ []) : ∃ b t, exec (.trap h code) s = .next t ∧ Done b (s.active h) (ret (s.opened h)) (s.opened h) ∧
      Entered b t s.cur.warp (s.active h) { cause := 3, pc := s.cur.next, code := code } := by
  have ha := hp.start_opened h
  have hdone := ha.retireAll hp (g := s.opened h) ha.cur rfl
  have hthread : ∀ l ∈ s.active h, ((s.opened h).retireAll (s.active h)).thread (threadOf s.cur.warp l) =
      ((s.opened h).thread (threadOf s.cur.warp l)).retired (s.opened h).cur.next := fun l hmem => by
    have hon := hdone.on l hmem
    rwa [ha.lane] at hon
  have hpend : ∀ k, (((s.opened h).retireAll (s.active h)).thread k).pend = ((s.opened h).thread k).pend := fun k => by
    by_cases hk : ∃ l ∈ s.active h, k = threadOf s.cur.warp l
    · obtain ⟨l, hmem, rfl⟩ := hk
      rw [hthread l hmem]
      rfl
    · rw [hdone.others k fun l hmem heq => hk ⟨l, hmem, by rw [heq, ha.lane, State.lane]⟩]
  have hmay : MayEnter ((s.opened h).retireAll (s.active h)) s.cur.warp :=
    (hp.mayEnter_opened he h).of_threads (by rw [hdone.rest]) fun k _ => hpend k
  have hlanes : ∀ l ∈ s.active h, MayRaise ((s.opened h).retireAll (s.active h)) s.cur.warp l := fun l hmem => by
    have hopen := hp.mayRaise_opened he hmem
    exact ⟨hopen.lane, by rw [hthread l hmem]; exact .inl rfl, (hpend _).trans hopen.pend, by rw [hthread l hmem]; rfl⟩
  refine ⟨_, _, rfl, hdone, hp.issue_entered hl hact hdone.rest ?_ hmay hlanes hact rfl⟩
  simp only [State.curThreads, ha.cur]
  exact Raised.raiseAll (show Hard 3 from ⟨by decide, rfl⟩) hmay.nodraft _ (active_nodup hp) hlanes

end Sys2Proof.Machine
end

