-- ==== Sys2Proof/Proofs/PartTraps.lean ====
section
/-! Units of which some active lanes raise a cause while the others complete (R47, R174, R179). -/

namespace Sys2Proof.Machine

/-! Results that stay in their lane's thread. -/

/-- A result that changes its lane's thread and nothing else. -/
def Wr.own : Wr → Bool
  | .push .. => false
  | .owe .. => false
  | _ => true

theorem State.setReg_rest (s : State) (t r : Nat) (v : Int) : s.setReg t r v = { s with thr := (s.setReg t r v).thr } := by
  unfold State.setReg
  split <;> rfl

theorem State.applyWr_rest {s : State} {t : Nat} {x : Wr} (hw : widOf (warpOf t) ≠ 27) (hs : (s.thread t).st ≠ .stopped) (hx : x.own = true) :
    s.applyWr t x = { s with thr := (s.applyWr t x).thr } := by
  cases x with
  | reg r v => exact s.setReg_rest t r v
  | pair r v =>
    simp only [State.applyWr, State.setPair]
    split
    · exact (State.setReg_rest _ t (r + 1) _).trans (by rw [State.setReg_rest s])
    · rfl
  | pred f v => rfl
  | mr v => rfl
  | jump pc => simp only [State.applyWr, State.retire_eq s t pc hw hs, State.setThread]
  | push r v => cases hx
  | owe r v => cases hx

theorem State.applyWrs_rest {t : Nat} (hw : widOf (warpOf t) ≠ 27) (ws : List Wr) (s : State) (hs : (s.thread t).st = .runnable)
    (hws : ws.all Wr.own = true) :
    ws.foldl (fun a x => a.applyWr t x) s = { s with thr := (ws.foldl (fun a x => a.applyWr t x) s).thr } := by
  induction ws generalizing s with
  | nil => rfl
  | cons x ws ih =>
    obtain ⟨hx, hws⟩ := (Bool.and_eq_true _ _).mp (List.all_cons ▸ hws)
    have hlive : ((s.applyWr t x).thread t).st = .runnable := by
      rw [(Eff.applyWr s t x hw (by rw [hs]; decide)).thread, if_pos rfl]
      exact Thread.wrote_live _ _ hs
    rw [List.foldl_cons, ih _ hlive hws, State.applyWr_rest hw (by rw [hs]; decide) hx]

/-- What an active lane may do in a unit of which some lanes raise one cause: it raises that, or writes to its own thread. -/
structure PartOut (c : Nat) (o : Out) : Prop where
  fault : o.fault = none ∨ o.fault = some { cause := c }
  sat : o.sat = 0
  own : o.wr.all Wr.own = true

/-- What a lane's outcome makes of its thread: a raising lane stays at its unit (R174). -/
def Out.leaves (o : Out) (next : Int) (x : Thread) : Thread :=
  if o.fault.isSome = true then x else o.wr.foldl Thread.wrote (x.retired next)

theorem Thread.wrote_pend (x : Thread) (y : Wr) : (x.wrote y).pend = x.pend := by
  cases y <;> simp only [Thread.wrote, Thread.putReg, Thread.retired] <;> (repeat' split) <;> rfl

theorem Out.leaves_pend (o : Out) (next : Int) (x : Thread) : (o.leaves next x).pend = x.pend := by
  have hwrs : ∀ (ws : List Wr) (y : Thread), (ws.foldl Thread.wrote y).pend = y.pend := fun ws => by
    induction ws with
    | nil => exact fun _ => rfl
    | cons w ws ih => exact fun y => (ih _).trans (Thread.wrote_pend y w)
  unfold Out.leaves
  split
  · rfl
  · exact hwrs _ _

/-- The outcome of a lane that completes changes its thread alone. -/
theorem State.applyOut_own {s : State} {w l c : Nat} {o : Out} (hw : widOf w ≠ 27) (hl : l < 16) (hs : (s.thread (threadOf w l)).active)
    (ho : PartOut c o) (hf : o.fault = none) :
    s.applyOut (threadOf w l) o = { s with thr := (s.applyOut (threadOf w l) o).thr } ∧ ∀ k, (s.applyOut (threadOf w l) o).thread k =
      if k = threadOf w l then o.leaves s.cur.next (s.thread (threadOf w l)) else s.thread k := by
  have hwid : widOf (warpOf (threadOf w l)) ≠ 27 := by rwa [threadOf_warp hl]
  have hgo : (s.thread (threadOf w l)).st ≠ .stopped := by rcases hs with h | h <;> rw [h] <;> decide
  refine ⟨?_, fun k => ?_⟩
  · simp only [State.applyOut, hf, ho.sat, if_true, State.retire_eq s _ _ hwid hgo]
    rw [State.applyWrs_rest hwid o.wr _ (by rw [State.thread_setThread_self]; rfl) ho.own]
    rfl
  · rw [(Eff.applyOut s _ o hf hwid hgo (le_of_eq ho.sat.symm)).thread, Out.leaves, hf]
    rfl

/-! The lanes one after the other. -/

/-- The lanes that raise, of some lanes with their outcomes. -/
def raisingOf (ps : List (Nat × Out)) : List Nat := (ps.filter (fun p => p.2.fault.isSome)).map (·.1)

/-- What some lanes' outcomes have made of a state in which lanes `ks` have raised: `x` is where they have raised too, and `b` is the
state before without any raising, `b'` the one after. -/
structure PartLanes (b b' x : State) (w : Nat) (ks : List Nat) (ps : List (Nat × Out)) (r : Raise) : Prop where
  raised : Raised b' x w (ks ++ raisingOf ps) r
  rest : b' = { b with thr := b'.thr }
  on : ∀ p ∈ ps, b'.thread (threadOf w p.1) = p.2.leaves b.cur.next (b.thread (threadOf w p.1))
  others : ∀ k, (∀ p ∈ ps, k ≠ threadOf w p.1) → b'.thread k = b.thread k

/-- One lane after which others follow. -/
theorem PartLanes.cons {b b1 b2 x1 x2 : State} {w : Nat} {ks : List Nat} {p : Nat × Out} {ps : List (Nat × Out)} {r : Raise}
    (h : PartLanes b b1 x1 w ks [p] r) (h' : PartLanes b1 b2 x2 w (ks ++ raisingOf [p]) ps r) (hnew : ∀ q ∈ ps, p.1 ≠ q.1) :
    PartLanes b b2 x2 w ks (p :: ps) r := by
  have hcur : b1.cur = b.cur := by rw [h.rest]
  have hlist : (ks ++ raisingOf [p]) ++ raisingOf ps = ks ++ raisingOf (p :: ps) := by
    rw [List.append_assoc, raisingOf, raisingOf, ← List.map_append, ← List.filter_append]
    rfl
  refine ⟨hlist ▸ h'.raised, h'.rest.trans (by rw [h.rest]), List.forall_mem_cons.mpr ⟨?_, fun q hq => ?_⟩, fun k hk => ?_⟩
  · rw [h'.others _ fun q hq heq => hnew q hq (threadOf_inj heq), h.on p List.mem_cons_self]
  · rw [h'.on q hq, hcur, h.others _ fun p' hp' heq => ?_]
    obtain rfl := List.mem_singleton.mp hp'
    exact hnew q hq (threadOf_inj heq).symm
  · obtain ⟨hp, hps⟩ := List.forall_mem_cons.mp hk
    rw [h'.others k hps, h.others k fun p' hp' => List.mem_singleton.mp hp' ▸ hp]

/-- A lane that completes where others have raised. -/
theorem Raised.complete {b x : State} {w c l : Nat} {ks : List Nat} {r : Raise} {o : Out} (h : Raised b x w ks r) (hw : widOf w ≠ 27)
    (hl : MayRaise b w l) (hnew : l ∉ ks) (ho : PartOut c o) (hf : o.fault = none) :
    PartLanes b (b.applyOut (threadOf w l) o) (x.applyOut (threadOf w l) o) w ks [(l, o)] r := by
  have hsame := h.thread_of_not_mem hnew
  have hcur : x.cur = b.cur := by rw [h.rest]
  obtain ⟨hbrest, hb⟩ := State.applyOut_own hw hl.lane hl.live ho hf
  obtain ⟨hxrest, hx⟩ := State.applyOut_own (s := x) hw hl.lane (by rw [hsame]; exact hl.live) ho hf
  rw [hsame, hcur] at hx
  have hnone : raisingOf [(l, o)] = [] := by simp [raisingOf, hf]
  refine ⟨?raised, hbrest, fun p hp => ?on, fun k hk => ?others⟩
  case on =>
    obtain rfl := List.mem_singleton.mp hp
    rw [hb, if_pos rfl]
  case others => rw [hb, if_neg (hk _ List.mem_cons_self)]
  case raised =>
    rw [hnone, List.append_nil]
    refine ⟨fun j hj => ?_, fun k hk => ?_, fun v => ?_, ?_⟩
    · have hne : threadOf w j ≠ threadOf w l := fun heq => hnew (threadOf_inj heq ▸ hj)
      rw [hx, if_neg hne, hb, if_neg hne, h.on j hj]
    · rw [hx, hb, h.others k hk]
    · rw [State.warp_congr (a := x.applyOut _ o) (s := x) (by rw [hxrest]), State.warp_congr (a := b.applyOut _ o) (s := b) (by rw [hbrest]), h.warp]
    · have hback : b = { b.applyOut (threadOf w l) o with thr := b.thr, wrp := b.wrp } := by rw [hbrest]
      exact State.rest_trans (State.rest_trans hback h.rest) (by rw [hxrest])

/-- A lane that raises where others have. -/
theorem Raised.fault {b x : State} {w c l : Nat} {ks : List Nat} {o : Out} (h : Raised b x w ks { cause := c, pc := b.cur.first })
    (hc : Hard c) (hdraft : (b.warp w).draft.depth = 0) (hl : MayRaise b w l) (hnew : l ∉ ks) (ho : PartOut c o)
    (hf : o.fault = some { cause := c }) :
    PartLanes b b (x.applyOut (threadOf w l) o) w ks [(l, o)] { cause := c, pc := b.cur.first } := by
  have hcur : x.cur = b.cur := by rw [h.rest]
  have heq : x.applyOut (threadOf w l) o = x.raise (threadOf w l) { cause := c, pc := b.cur.first } := by
    simp only [State.applyOut, ho.sat, hf, hcur, if_true]
  have hone : raisingOf [(l, o)] = [l] := by simp [raisingOf, hf]
  refine ⟨?_, rfl, fun p hp => ?_, fun _ _ => rfl⟩
  · rw [hone, heq]
    exact h.raise hc hdraft hl hnew
  · obtain rfl := List.mem_singleton.mp hp
    rw [Out.leaves, hf]
    rfl

/-- The lanes of a unit of which some raise one cause. -/
theorem Raised.applyOuts {w c : Nat} (hw : widOf w ≠ 27) (hc : Hard c) (ps : List (Nat × Out)) (b x : State) (ks : List Nat)
    (h : Raised b x w ks { cause := c, pc := b.cur.first }) (hdraft : (b.warp w).draft.depth = 0) (hn : (ks ++ ps.map (·.1)).Nodup)
    (hps : ∀ p ∈ ps, MayRaise b w p.1 ∧ PartOut c p.2) :
    ∃ b', PartLanes b b' (ps.foldl (fun a p => a.applyOut (threadOf w p.1) p.2) x) w ks ps { cause := c, pc := b.cur.first } := by
  induction ps generalizing b x ks with
  | nil => exact ⟨b, by rwa [raisingOf, List.filter_nil, List.map_nil, List.append_nil], rfl, by simp, fun _ _ => rfl⟩
  | cons p ps ih =>
    obtain ⟨⟨hl, ho⟩, hps⟩ := List.forall_mem_cons.mp hps
    have hnew : p.1 ∉ ks := fun hk => (List.nodup_append.mp hn).2.2 _ hk _ List.mem_cons_self rfl
    have hdiff : ∀ q ∈ ps, p.1 ≠ q.1 := fun q hq heq =>
      (List.nodup_cons.mp (List.nodup_append.mp hn).2.1).1 (List.mem_map.mpr ⟨q, hq, heq.symm⟩)
    have hone : ∃ b1, PartLanes b b1 (x.applyOut (threadOf w p.1) p.2) w ks [p] { cause := c, pc := b.cur.first } := by
      rcases ho.fault with hf | hf
      · exact ⟨_, h.complete hw hl hnew ho hf⟩
      · exact ⟨_, h.fault hc hdraft hl hnew ho hf⟩
    obtain ⟨b1, h1⟩ := hone
    have hcur : b1.cur = b.cur := by rw [h1.rest]
    have hsub : (ks ++ raisingOf [p] ++ ps.map (·.1)).Nodup := by
      refine hn.sublist ?_
      rw [List.append_assoc]
      refine (List.Sublist.refl ks).append ?_
      rw [List.map_cons, ← List.singleton_append]
      exact ((List.filter_sublist).map _).append (List.Sublist.refl _)
    obtain ⟨b2, h2⟩ := ih b1 _ (ks ++ raisingOf [p]) (by rw [hcur]; exact h1.raised)
      (by rw [State.warp_congr (a := b1) (s := b) (by rw [h1.rest])]; exact hdraft) hsub
      (fun q hq => by
        obtain ⟨hq1, hq2⟩ := hps q hq
        have hsame : b1.thread (threadOf w q.1) = b.thread (threadOf w q.1) := h1.others _ fun p' hp' heq => by
          obtain rfl := List.mem_singleton.mp hp'
          exact hdiff q hq (threadOf_inj heq).symm
        refine ⟨⟨hq1.lane, ?_, ?_, ?_⟩, hq2⟩ <;> rw [hsame]
        exacts [hq1.live, hq1.pend, hq1.kept])
    rw [hcur] at h2
    exact ⟨b2, h1.cons h2 hdiff⟩

/-- No lane's outcome lets another cause await delivery. -/
theorem PartLanes.pend {b b' x : State} {w : Nat} {ks : List Nat} {ps : List (Nat × Out)} {r : Raise} (h : PartLanes b b' x w ks ps r) (k : Nat) :
    (b'.thread k).pend = (b.thread k).pend := by
  by_cases hk : ∃ p ∈ ps, k = threadOf w p.1
  · obtain ⟨p, hmem, rfl⟩ := hk
    rw [h.on p hmem, Out.leaves_pend]
  · rw [h.others k fun p hmem heq => hk ⟨p, hmem, heq⟩]

/-- The lanes that raise stand as they did. -/
theorem PartLanes.mayRaise {b b' x : State} {w : Nat} {ks : List Nat} {ps : List (Nat × Out)} {r : Raise} (h : PartLanes b b' x w ks ps r)
    (hps : ∀ p ∈ ps, MayRaise b w p.1) {l : Nat} (hl : l ∈ raisingOf ps) : MayRaise b' w l := by
  obtain ⟨p, hmem, rfl⟩ := List.mem_map.mp hl
  obtain ⟨hin, hsome⟩ := List.mem_filter.mp hmem
  have hthread : b'.thread (threadOf w p.1) = b.thread (threadOf w p.1) := by rw [h.on p hin, Out.leaves, if_pos hsome]
  have hlane := hps p hin
  refine ⟨hlane.lane, ?_, ?_, ?_⟩ <;> rw [hthread]
  exacts [hlane.live, hlane.pend, hlane.kept]

end Sys2Proof.Machine
end

