-- ==== Sys2Proof/Proofs/TrapForms.lean ====
section
/-! The forms that enter the handler, one by one (R47, R159, R179, R193, R194, R261, R275). -/

namespace Sys2Proof.Machine

/-! A unit without ports. -/

theorem State.portSt_of_no_port {s : State} {u : Uses} (hu : (u.src ++ u.dst).any isPort = false) (k : Nat) : s.portSt u k = .ready := by
  obtain ⟨hno, hno'⟩ : (∀ r ∈ u.src, isPort r = false) ∧ ∀ r ∈ u.dst, isPort r = false := by simpa using hu
  have hsrc : ∀ f : Nat → Bool, u.src.any (fun r => isPort r && f r) = false := fun f =>
    List.any_eq_false.mpr fun r hr => by simp [hno r hr]
  have hdst : ∀ f : Nat → Bool, u.dst.any (fun r => isPort r && f r) = false := fun f =>
    List.any_eq_false.mpr fun r hr => by simp [hno' r hr]
  simp only [State.portSt, List.any_append, Bool.and_assoc, hsrc, hdst]
  rfl

theorem State.readFields_of_no_port {s : State} {ts fs : List Nat} (hfs : ∀ r ∈ fs, isPort r = false) :
    s.readFields ts fs = (s, fs.map (fun r => ts.map (fun t => s.reg t r))) := by
  induction fs with
  | nil => rfl
  | cons r fs ih =>
    obtain ⟨hr, hrs⟩ := List.forall_mem_cons.mp hfs
    simp [State.readFields, State.readField, hr, ih hrs]

/-- A plain unit's active lanes see what the state before the unit holds. -/
theorem Start.same {s a : State} {h : Hdr} (ha : Start s a h) (u : Uses) : Same s a u := by
  refine ⟨by rw [ha.rest], fun c => by rw [ha.rest]; rfl, fun v => by rw [ha.rest]; rfl, fun _ => by rw [ha.rest]; exact ⟨rfl, rfl⟩,
    fun k => ?_, ha.others⟩
  by_cases hk : ∃ l ∈ s.cur.lanes, k = s.lane l
  · obtain ⟨l, hl, rfl⟩ := hk
    cases hon : s.laneOn h (s.lane l) with
    | true => rw [ha.on l hl hon]; exact ⟨_, _, _, _, _, _, _, _, _, _, _, rfl⟩
    | false => rw [ha.off l hl hon]; exact ⟨_, _, _, _, _, _, _, _, _, _, _, rfl⟩
  · rw [ha.others k fun l hl heq => hk ⟨l, hl, heq⟩]
    exact ⟨_, _, _, _, _, _, _, _, _, _, _, rfl⟩

/-- Lanes outside a draft perform their outcomes one after the other. -/
theorem State.runLanes_eq_foldl {g : State → Nat → List Int → Out} {a : State} {vs : List (List Int)} {w : Nat} (ls : List Nat) (i : Nat)
    (x : State) (hroll : ∀ l ∈ ls, ∀ y, a.rolled y (threadOf w l) = false) :
    State.runLanes x g a vs i (ls.map (threadOf w)) = ((List.range ls.length).map (fun j =>
      (ls.getD j 0, g a (threadOf w (ls.getD j 0)) (fieldVal vs (i + j))))).foldl (fun y p => y.applyOut (threadOf w p.1) p.2) x := by
  induction ls generalizing i x with
  | nil => rfl
  | cons l ls ih =>
    obtain ⟨hl, hls⟩ := List.forall_mem_cons.mp hroll
    simp only [List.map_cons, State.runLanes, hl x, Bool.false_eq_true, if_false, ih (i + 1) _ hls, List.length_cons, List.range_succ_eq_map,
      List.foldl_cons, List.map_map, List.getD_cons_zero, Nat.add_zero, Function.comp_def, List.getD_cons_succ, Nat.succ_eq_add_one,
      Nat.add_assoc, Nat.add_comm 1]

/-- The active lanes with their outcomes. -/
def State.outcomes (s : State) (h : Hdr) (u : Uses) (f : State → Nat → List Int → Out) : List (Nat × Out) :=
  (List.range (s.active h).length).map (fun i => ((s.active h).getD i 0, s.outOf h u f i))

theorem State.raisingOf_outcomes (s : State) (h : Hdr) (u : Uses) (f : State → Nat → List Int → Out) :
    raisingOf (s.outcomes h u f) = s.raising h u f := by
  simp [raisingOf, State.outcomes, State.raising, List.filter_map, Function.comp_def]

theorem State.map_fst_outcomes (s : State) (h : Hdr) (u : Uses) (f : State → Nat → List Int → Out) :
    (s.outcomes h u f).map (·.1) = s.active h := by
  refine List.ext_getElem (by simp [State.outcomes]) fun i hi hi' => ?_
  simp [State.outcomes, hi']

theorem State.getD_mem_active (s : State) {h : Hdr} {i : Nat} (hi : i < (s.active h).length) : (s.active h).getD i 0 ∈ s.active h := by
  rw [List.getD_eq_getElem _ _ hi]
  exact List.getElem_mem _

/-- The body of a unit without ports performs the outcomes of its active lanes. -/
theorem Plain.laneBody_eq {s : State} {h : Hdr} {u : Uses} {f g : State → Nat → List Int → Out} (hp : Plain s)
    (hu : (u.src ++ u.dst).any isPort = false) (hfg : ∀ a, Same s a u → ∀ l ∈ s.cur.lanes, ∀ v, g a (s.lane l) v = f s (s.lane l) v) :
    laneBody u g (s.active h) (s.opened h) =
      (s.outcomes h u f).foldl (fun a p => a.applyOut (threadOf s.cur.warp p.1) p.2) (s.opened h) := by
  have ha := hp.start_opened h
  have hsame := ha.same u
  have hsrc : ∀ r ∈ u.src, isPort r = false := fun r hr => by
    have hno := List.any_eq_false.mp hu r (List.mem_append_left _ hr)
    simpa using hno
  have hroll : ∀ l ∈ s.active h, ∀ y, (s.opened h).rolled y (threadOf s.cur.warp l) = false := fun l hl y => by
    have hgroup := (State.mem_active hl).1
    have hdraft : (s.opened h).drafting s.cur.warp l = s.drafting s.cur.warp l := by rw [ha.rest]; rfl
    simp [State.rolled, threadOf_warp (hp.lane l hgroup), threadOf_lane (hp.lane l hgroup), hdraft, hp.undrafted l hgroup]
  have hts : (s.opened h).curThreads (s.active h) = (s.active h).map (threadOf s.cur.warp) := by rw [State.curThreads, ha.cur]
  simp only [laneBody, State.portSt_of_no_port hu, State.readFields_of_no_port hsrc, hts, State.runLanes_eq_foldl _ _ _ hroll]
  congr 1
  refine List.map_congr_left fun i hi => ?_
  have hlt := List.mem_range.mp hi
  have hmem := s.getD_mem_active hlt
  have hval : fieldVal (u.src.map fun r => ((s.active h).map (threadOf s.cur.warp)).map fun t => (s.opened h).reg t r) (0 + i) =
      s.srcWords (s.active h) u.src i := by
    refine List.ext_getElem (by simp [fieldVal, State.srcWords]) fun j hj hj' => ?_
    have hjlt : j < u.src.length := by simpa [State.srcWords] using hj'
    have hreg := hsrc _ (List.getElem_mem hjlt)
    simp [fieldVal, State.srcWords, State.srcWord, hjlt, hreg, hlt, hsame.reg, State.lane]
  rw [hval, ← State.lane_def, hfg _ hsame _ (State.mem_active hmem).1, State.outOf]

/-! Causes of some lanes (R47, R174, R179, R261). -/

/-- What a unit of which some lanes raise has left before the warp enters. -/
theorem PartLanes.partRan {s b x : State} {h : Hdr} {u : Uses} {f : State → Nat → List Int → Out} {r : Raise} (hp : Plain s)
    (hb : PartLanes (s.opened h) b x s.cur.warp [] (s.outcomes h u f) r) : PartRan s b h u f := by
  have ha := hp.start_opened h
  have hactive : ∀ p ∈ s.outcomes h u f, p.1 ∈ s.active h := fun p hmem => by
    rw [← s.map_fst_outcomes h u f]
    exact List.mem_map_of_mem hmem
  refine ⟨fun i hi => ?on, fun l hl hoff => ?off, fun k hk => ?others, hb.rest.trans (by rw [ha.rest])⟩
  case on =>
    have hmem := s.getD_mem_active hi
    obtain ⟨hgroup, hon⟩ := State.mem_active hmem
    have hthread := hb.on _ (List.mem_map_of_mem (List.mem_range.mpr hi))
    rwa [← State.lane_def, ha.on _ hgroup hon, ha.cur] at hthread
  case off =>
    rw [hb.others, ha.off l hl hoff]
    intro p hmem heq
    obtain rfl := threadOf_inj heq
    rw [(State.mem_active (hactive p hmem)).2] at hoff
    cases hoff
  case others => rw [hb.others k fun p hmem => hk p.1 (State.mem_active (hactive p hmem)).1, ha.others k hk]

theorem State.exists_cause_of_raising {s : State} {h : Hdr} {u : Uses} {f : State → Nat → List Int → Out} {c : Nat} (hraising : s.raising h u f ≠ [])
    (hfault : ∀ k, k < (s.active h).length → (s.outOf h u f k).fault = none ∨ (s.outOf h u f k).fault = some { cause := c }) :
    ∃ k, k < (s.active h).length ∧ (s.outOf h u f k).fault = some { cause := c } := by
  obtain ⟨l, hmem⟩ := List.exists_mem_of_ne_nil _ hraising
  obtain ⟨k, hk, -⟩ := List.mem_map.mp hmem
  obtain ⟨hlt, hsome⟩ := List.mem_filter.mp hk
  refine ⟨k, List.mem_range.mp hlt, (hfault k (List.mem_range.mp hlt)).resolve_left fun hnone => ?_⟩
  rw [hnone] at hsome
  cases hsome

/-- A unit whose lanes do what `f` says, each either writing to its own thread or raising a cause that traps. -/
theorem RaisesPart.of {i : Instr} {h : Hdr} {u : Uses} {f g : State → Nat → List Int → Out} (hexec : ∀ s, exec i s = .next (s.perLane h u g))
    (hfg : ∀ s a, Same s a u → ∀ t v, g a t v = f s t v) (hsat : ∀ s t v, (f s t v).sat = 0)
    (hown : (u.src ++ u.dst).any isPort = false → ∀ s t v, (f s t v).wr.all Wr.own = true)
    (hhard : ∀ s t v c, (f s t v).fault = some { cause := c } → Hard c) : RaisesPart i h u f := by
  intro s c hp hl he hports hraising _ _ hfault
  have ha := hp.start_opened h
  have hmay := hp.mayEnter_opened he h
  have hout : ∀ p ∈ s.outcomes h u f, MayRaise (s.opened h) s.cur.warp p.1 ∧ PartOut c p.2 := fun p hmem => by
    obtain ⟨k, hk, rfl⟩ := List.mem_map.mp hmem
    have hlt := List.mem_range.mp hk
    have hactive := s.getD_mem_active hlt
    exact ⟨hp.mayRaise_opened he hactive, hfault k hlt, hsat .., hown hports ..⟩
  have hc : Hard c := by
    obtain ⟨k, hlt, hcause⟩ := State.exists_cause_of_raising hraising hfault
    exact hhard _ _ _ c hcause
  have hactive : s.active h ≠ [] := fun hnil => hraising (by simp [State.raising, hnil])
  obtain ⟨b, hb⟩ := Raised.applyOuts hp.wid hc (s.outcomes h u f) (s.opened h) (s.opened h) [] (Raised.refl ..) hmay.nodraft
    (by rw [List.nil_append, s.map_fst_outcomes]; exact active_nodup hp) hout
  have hran := hb.partRan hp
  have hraised := hb.raised
  rw [List.nil_append, s.raisingOf_outcomes, ← hp.laneBody_eq hports fun a hsame l _ v => hfg s a hsame _ v, ha.cur] at hraised
  have hls : ∀ l ∈ s.raising h u f, MayRaise b s.cur.warp l := fun l hmem =>
    hb.mayRaise (fun p hp' => (hout p hp').1) (s.raisingOf_outcomes h u f ▸ hmem)
  exact ⟨b, _, hexec s, hran, hp.issue_entered hl hactive hb.rest hraised (hmay.of_threads (by rw [hb.rest]) fun k _ => hb.pend k) hls hraising
    rfl⟩

/-! The forms. -/

theorem toW_own {d : Nat} (hd : isPort d = false) (x : Int) : (toW d x).wr.all Wr.own = true := by simp [toW, wrW, hd, Wr.own]

/-- A unit with one word destination that writes it or raises a cause. -/
theorem RaisesPart.of_word {i : Instr} {h : Hdr} {fs : List Nat} {d n : Nat} {f g : State → Nat → List Int → Out} (hn : Hard n)
    (hexec : ∀ s, exec i s = .next (s.perLane h { src := fs, dst := [d] } g)) (hgf : ∀ s a t v, g a t v = f s t v)
    (hf : ∀ s t v, f s t v = raises n ∨ ∃ x, f s t v = toW d x) : RaisesPart i h { src := fs, dst := [d] } f := by
  refine RaisesPart.of hexec (fun s a _ t v => hgf s a t v) (fun s t v => ?_) (fun hports s t v => ?_) fun s t v c hc => ?_
  · rcases hf s t v with heq | ⟨x, heq⟩ <;> rw [heq] <;> rfl
  · have hd : isPort d = false := by
      have hno := List.any_eq_false.mp hports d (by simp)
      simpa using hno
    rcases hf s t v with heq | ⟨x, heq⟩ <;> rw [heq]
    · rfl
    · exact toW_own hd x
  · rcases hf s t v with heq | ⟨x, heq⟩ <;> rw [heq] at hc
    · rwa [← (Raise.mk.inj (Option.some.inj hc)).1]
    · cases hc

theorem arg_eq_src (v : List Int) (i : Nat) : arg v i = src v i := rfl

theorem inRange_iff_abs_le {x : Int} {n : Nat} : inRange x n = true ↔ |x| ≤ half n := by simp [inRange, abs_le]

theorem div_raisesPart (h : Hdr) (t3 : Bool) (d a b : Nat) : RaisesPart (.div h t3 d a b) h { src := [a, b], dst := [d] } (fun _ _ v =>
    if (if t3 then part (src v 1) 0 = 0 ∨ part (src v 1) 1 = 0 ∨ part (src v 1) 2 = 0 else src v 1 = 0) then raises 8
    else toW d (perPart t3 (fun n x y _ => wrap (nearest x y) n) (src v 0) (src v 1) 0)) :=
  RaisesPart.of_word ⟨by decide, rfl⟩ (fun _ => rfl) (fun _ _ _ _ => rfl) fun _ _ _ => (ite_eq_or_eq ..).imp_right fun heq => ⟨_, heq⟩

theorem rem_raisesPart (h : Hdr) (t3 : Bool) (d a b : Nat) : RaisesPart (.rem h t3 d a b) h { src := [a, b], dst := [d] } (fun _ _ v =>
    if (if t3 then part (src v 1) 0 = 0 ∨ part (src v 1) 1 = 0 ∨ part (src v 1) 2 = 0 else src v 1 = 0) then raises 8
    else toW d (perPart t3 (fun n x y _ => wrap (x - nearest x y * y) n) (src v 0) (src v 1) 0)) :=
  RaisesPart.of_word ⟨by decide, rfl⟩ (fun _ => rfl) (fun _ _ _ _ => rfl) fun _ _ _ => (ite_eq_or_eq ..).imp_right fun heq => ⟨_, heq⟩

theorem cvt_raisesPart (h : Hdr) (ty : IntTy) (d a : Nat) : RaisesPart (.cvt h false false ty d a) h { src := [a], dst := [d] } (fun _ _ v =>
    if |src v 0| ≤ half ty.width then toW d (src v 0) else raises 7) := by
  refine RaisesPart.of_word ⟨by decide, rfl⟩ (fun _ => rfl) (fun _ _ _ v => ?_) fun _ _ _ => (ite_eq_or_eq ..).symm.imp_right fun heq => ⟨_, heq⟩
  by_cases hin : |src v 0| ≤ half ty.width
  · have hrange : inRange (arg v 0) ty.width = true := inRange_iff_abs_le.mpr hin
    have hsat : sat (arg v 0) ty.width = src v 0 := sat_of_abs_le hin
    simp [hin, hrange, hsat, toW]
  · have hrange : inRange (arg v 0) ty.width = false := Bool.eq_false_iff.mpr (mt inRange_iff_abs_le.mp hin)
    simp [hin, hrange, raises]

theorem cvtf_raisesPart (h : Hdr) (ty dty : CvtTy) (d a : Nat) (hfloat : ty.isFloat = true) :
    RaisesPart (.cvtf h false ty dty d a) h { src := [a], dst := [d] } (fun _ _ v =>
      if (floatToInt (cvtBits dty) (valF (cvtFmt ty) (wrap (src v 0) (cvtBits ty)))).2 = false then
        toW d (floatToInt (cvtBits dty) (valF (cvtFmt ty) (wrap (src v 0) (cvtBits ty)))).1
      else raises 7) := by
  refine RaisesPart.of_word ⟨by decide, rfl⟩ (fun _ => rfl) (fun _ _ _ v => ?_) fun _ _ _ => (ite_eq_or_eq ..).symm.imp_right fun heq => ⟨_, heq⟩
  cases hout : (floatToInt (cvtBits dty) (valF (cvtFmt ty) (wrap (src v 0) (cvtBits ty)))).2 with
  | true => simp [hfloat, arg_eq_src, hout, raises]
  | false => simp [hfloat, arg_eq_src, hout, toW]

theorem ret_raisesPart (h : Hdr) (a : Nat) : RaisesPart (.ret h a) h { srcP := [a] } (fun s t _ =>
    if deviceIndex (s.regPair t a) then { wr := [.jump (s.regPair t a)] } else raises 6) := by
  refine RaisesPart.of (fun _ => rfl) (fun s b hsame t v => ?_) (fun s t v => ?_) (fun _ s t v => ?_) fun s t v c hc => ?_
  · rw [hsame.regPair]
    rfl
  · split <;> rfl
  · split <;> rfl
  · split at hc
    · cases hc
    · cases hc
      exact ⟨by decide, rfl⟩

/-- Settles O28: forms that trap first through `TrapsFirst.of`, software traps by the raising of their active lanes, and the units of which
some lanes raise through `RaisesPart.of`. -/
theorem unitTraps : Obligations.UnitTraps :=
  ⟨⟨csrr_trapsFirst, csrw_trapsFirst, fun _ _ => .of fun _ => ⟨_, rfl⟩, fun _ => .of fun _ => ⟨_, rfl⟩,
      fun _ _ => .of fun _ => ⟨_, rfl⟩, fun _ _ => .of fun _ => ⟨_, rfl⟩, fun _ _ => .of fun _ => ⟨_, rfl⟩,
      fun _ _ _ => .of fun _ => ⟨_, rfl⟩, fun _ _ _ _ _ _ => .of fun _ => ⟨_, rfl⟩, fun _ _ _ => .of fun _ => ⟨_, rfl⟩⟩,
    ⟨fun h code _ => brk_entered h code, fun h code _ => trap_entered h code⟩,
    ⟨div_raisesPart, rem_raisesPart, cvt_raisesPart, cvtf_raisesPart, ret_raisesPart⟩⟩

end Sys2Proof.Machine
end

