-- ==== Sys2Proof/Proofs/Results.lean ====
section
/-! Instructions that act lane by lane, by the kind of their result: a word, a pair or a predicate (R171, R177-R182, R187-R192). -/

namespace Sys2Proof.Machine

/-! One rule per kind of result. -/

section
variable {i : Instr} {h : Hdr} {u : Uses} {d : Nat} {f g : State → Nat → List Int → Int}

/-- A unit whose lanes each write one result, computed by `g` from what a lane reads; `f` computes alike before the unit. -/
theorem Runs.of_result {result : Int → Out} (hsat : ∀ x, 0 ≤ (result x).sat) (hplain : ∀ x, (result x).wr.all Wr.plain = true)
    (hexec : ∀ s, exec i s = .next (s.perLane h u (fun s t v => result (g s t v)))) (hgf : ∀ s a, Same s a u → ∀ t v, g a t v = f s t v) :
    Runs i h u (fun s t v => result (f s t v)) :=
  Runs.of hexec (fun s a _ hsame _ _ v => by rw [hgf s a hsame]) (fun _ _ _ => hsat _) fun _ _ _ => hplain _

/-- A word (R171). -/
theorem Runs.of_word (hexec : ∀ s, exec i s = .next (s.perLane h u (fun s t v => toW d (g s t v))))
    (hgf : ∀ s a, Same s a u → ∀ t v, g a t v = f s t v) : Runs i h u (fun s t v => toW d (f s t v)) :=
  .of_result (fun _ => le_rfl) (toW_plain d) hexec hgf

/-- A pair (R30). -/
theorem Runs.of_pair (hexec : ∀ s, exec i s = .next (s.perLane h u (fun s t v => toPair d (g s t v))))
    (hgf : ∀ s a, Same s a u → ∀ t v, g a t v = f s t v) : Runs i h u (fun s t v => toPair d (f s t v)) :=
  .of_result (fun _ => le_rfl) (fun _ => rfl) hexec hgf

/-- A predicate (R57). -/
theorem Runs.of_pred (hexec : ∀ s, exec i s = .next (s.perLane h u (fun s t v => toPred d (g s t v))))
    (hgf : ∀ s a, Same s a u → ∀ t v, g a t v = f s t v) : Runs i h u (fun s t v => toPred d (f s t v)) :=
  .of_result (fun _ => le_rfl) (fun _ => rfl) hexec hgf

end

/-- A unit that computes a word from its source words alone. -/
theorem Runs.of_words {i : Instr} {h : Hdr} {fs : List Nat} {d : Nat} {f g : List Int → Int}
    (hexec : ∀ s, exec i s = .next (s.perLane h { src := fs, dst := [d] } (opW d g))) (hgf : ∀ v, g v = f v) :
    Runs i h { src := fs, dst := [d] } (fun _ _ v => toW d (f v)) :=
  Runs.of_word hexec fun _ _ _ _ => hgf

/-- An arithmetic form: its operation on words or on trytes, the result wrapped or saturated (R172, R177). -/
theorem Runs.of_alu {i : Instr} {h : Hdr} {t3 isSat : Bool} {op : Nat → Int → Int → Int → Int} {fs : List Nat} {d : Nat} {f : List Int → Int}
    (hexec : ∀ s, exec i s = alu h t3 isSat op d fs s)
    (hf : ∀ v, perPart t3 (fun n x y z => fit isSat n (op n x y z)) (src v 0) (src v 1) (src v 2) = f v) :
    Runs i h { src := fs, dst := [d] } (fun _ _ v => toW d (f v)) :=
  Runs.of_words hexec hf

/-- The model's absolute value is the integers'. -/
theorem perPart_natAbs (t3 : Bool) (a b c : Int) :
    perPart t3 (fun n x _ _ => fit false n (x.natAbs : Int)) a b c = perPart t3 (fun n x _ _ => wrap |x| n) a 0 0 := by
  simp only [perPart, fit, Int.abs_eq_natAbs, Bool.false_eq_true, if_false]

/-- Settles O1: each form is its operation in `alu`. -/
theorem integerArithmetic : Obligations.IntegerArithmetic := by
  refine ⟨?add, ?sub, ?neg, ?abs, ?sgn, ?mul, ?mulh, ?mad, ?min, ?max, ?clamp⟩
  case abs => exact fun h t3 d a => .of_alu (fun _ => rfl) fun v => perPart_natAbs t3 (src v 0) (src v 1) (src v 2)
  case add | sub | mul => exact fun h t3 sat d a b => .of_alu (fun _ => rfl) fun _ => rfl
  case neg | sgn => exact fun h t3 d a => .of_alu (fun _ => rfl) fun _ => rfl
  case mulh | min | max => exact fun h t3 d a b => .of_alu (fun _ => rfl) fun _ => rfl
  case mad => exact fun h t3 sat d a b c => .of_alu (fun _ => rfl) fun _ => rfl
  case clamp => exact fun h t3 d a b c => .of_alu (fun _ => rfl) fun _ => rfl

/-- Settles O2: a lane reads its pairs as before the unit, and its immediate is the header's or its own (R161). -/
theorem wideArithmetic : Obligations.WideArithmetic := by
  refine ⟨?addi, ?addiX, ?mulw, ?addx, ?subx, ?lea, ?mov, ?movX, ?movi, ?moviX⟩
  case addi => exact fun h t3 sat d a imm => .of_words (fun _ => rfl) fun _ => rfl
  case addiX => exact fun h t3 sat d a imm => .of_pair (fun _ => rfl) fun _ _ hsame t _ => by rw [hsame.regPair]; rfl
  case mulw => exact fun h d a b => .of_pair (fun _ => rfl) fun _ _ _ _ _ => rfl
  case addx | subx => exact fun h d a b => .of_pair (fun _ => rfl) fun _ _ hsame t _ => by rw [hsame.regPair, hsame.regPair]
  case lea => exact fun h d m => .of_pair (fun _ => rfl) fun _ _ hsame t v => by rw [eaOf, hsame.regPair]; rfl
  case mov => exact fun h d a => .of_words (fun _ => rfl) fun _ => rfl
  case movX => exact fun h d a => .of_pair (fun _ => rfl) fun _ _ hsame t _ => hsame.regPair t a
  case movi => exact fun h d imm => .of_word (fun _ => rfl) fun _ _ _ _ _ => rfl
  case moviX => exact fun h d imm => .of_pair (fun _ => rfl) fun _ _ _ _ _ => rfl

/-! Comparisons and predicates. -/

theorem pred_plain (l : List Nat) (d : Nat) (x : Nat → Int) : (l.map (fun i => Wr.pred (d + i) (x i))).all Wr.plain = true := by
  simp [Wr.plain]

/-- Settles O4: a lane reads its registers and predicates as before the unit and writes the sign, the choice or the trits that its form
names. -/
theorem predicateResults : Obligations.PredicateResults := by
  refine ⟨⟨?cmp, ?cmpT3, ?cmpX, ?cmpi, ?cmpiX⟩, ?sel3, ?pset, ?psetTrit, ?pmov, ?pmovTw, ?pmovFw, ?pand, ?por, ?pnot⟩
  case cmp => exact fun h d a b => .of_pred (fun _ => rfl) fun _ _ _ _ _ => rfl
  case cmpT3 => exact fun h d a b => .of (fun _ => rfl) (fun _ _ _ _ _ _ _ => rfl) (fun _ _ _ => le_rfl) fun _ _ _ => rfl
  case cmpX => exact fun h t3 d a b => .of_pred (fun _ => rfl) fun _ _ hsame t _ => by rw [cmpTrit, hsame.regPair, hsame.regPair]
  case cmpi => exact fun h d a imm => .of_pred (fun _ => rfl) fun _ _ _ _ _ => rfl
  case cmpiX => exact fun h d a imm => .of_pred (fun _ => rfl) fun _ _ hsame t _ => by rw [cmpTrit, hsame.regPair]
  case sel3 => exact fun h p d a b c => .of_word (fun _ => rfl) fun _ _ hsame t v => by rw [hsame.pred]; rfl
  case pset => exact fun h d x => .of_pred (fun _ => rfl) fun _ _ _ _ _ => rfl
  case psetTrit => exact fun h d a i => .of_pred (fun _ => rfl) fun _ _ _ _ _ => rfl
  case pmov => exact fun h d a => .of_pred (fun _ => rfl) fun _ _ hsame t _ => hsame.pred t a
  case pmovTw => exact fun h d a => .of_word (fun _ => rfl) fun _ _ hsame t _ => by simp only [predsWord, hsame.pred]
  case pmovFw => exact fun h d a => .of (fun _ => rfl) (fun _ _ _ _ _ _ _ => rfl) (fun _ _ _ => le_rfl) fun _ _ _ => pred_plain ..
  case pand | por => exact fun h d a b => .of_pred (fun _ => rfl) fun _ _ hsame t _ => by rw [hsame.pred, hsame.pred]
  case pnot => exact fun h d a => .of_pred (fun _ => rfl) fun _ _ hsame t _ => by rw [hsame.pred]

end Sys2Proof.Machine
end

