-- ==== Sys2Proof/Proofs/TritWords.lean ====
section
/-! Words trit by trit (R2, R183-R186): a word is the list of its trits, and the tritwise operations act on each place. -/

namespace Sys2Proof.Machine

/-! The trits of a word. -/

theorem abs_trit_le (x : Int) (i : Nat) : |trit x i| ≤ 1 := abs_wrap_le (shr x i) 1

/-- The trits that the model peels off one by one stand at the places of the word. -/
theorem trits_eq (n : Nat) (x : Int) : trits n x = (List.range n).map (trit x) := by
  induction n generalizing x with
  | zero => rfl
  | succ n ih =>
    have hlow : wrap x 1 = trit x 0 := by rw [trit, fld, shr_zero]
    have hrest (i : Nat) : trit (shr x 1) i = trit x (i + 1) := by rw [trit, trit, fld, fld, shr_shr, Nat.add_comm]
    rw [trits, ih, hlow, List.range_succ_eq_map, List.map_cons, List.map_map]
    simp only [Function.comp_def, Nat.succ_eq_add_one, ← hrest]

theorem reverse_trits (n : Nat) (x : Int) : (trits n x).reverse = (List.range n).map (fun i => trit x (n - 1 - i)) := by
  refine List.ext_getElem (by simp [trits_eq]) fun i hi _ => ?_
  simp [trits_eq]

theorem countTrits_eq (n : Nat) (v x : Int) : countTrits n v x = (List.range n).countP (fun i => decide (trit x i = v)) := by
  rw [countTrits, trits_eq, List.countP_map]
  rfl

theorem leadingZeros_eq (n : Nat) (x : Int) :
    leadingZeros n x = ((List.range n).takeWhile (fun i => decide (trit x (n - 1 - i) = 0))).length := by
  rw [leadingZeros, reverse_trits, List.takeWhile_map, List.length_map]
  rfl

theorem ofTrits_eq_ofFields (ts : List Int) : ofTrits ts = ofFields 1 ts := by
  induction ts with
  | nil => rfl
  | cons t ts ih => rw [ofTrits, ih, ofFields_cons, show pow3 1 = 3 from rfl]

/-- A word made of trits has them at its places. -/
theorem trit_ofTrits {ts : List Int} (hts : ∀ t ∈ ts, |t| ≤ 1) {i : Nat} (hi : i < ts.length) : trit (ofTrits ts) i = ts[i] := by
  rw [trit, ofTrits_eq_ofFields]
  simpa only [one_mul] using fld_ofFields (n := 1) hts hi

/-! Tritwise operations (R183). -/

/-- An operation on trits. -/
def OnTrits (f : Int → Int → Int) : Prop := ∀ a b, |a| ≤ 1 → |b| ≤ 1 → |f a b| ≤ 1

theorem trit_tritwise {f : Int → Int → Int} (hf : OnTrits f) (a b : Int) {n i : Nat} (hi : i < n) :
    trit (tritwise f n a b) i = f (trit a i) (trit b i) := by
  have hlist : List.zipWith f (trits n a) (trits n b) = (List.range n).map (fun k => f (trit a k) (trit b k)) := by
    rw [trits_eq, trits_eq, List.zipWith_map, List.zipWith_self]
  have htrits : ∀ t ∈ (List.range n).map (fun k => f (trit a k) (trit b k)), |t| ≤ 1 := by
    intro t ht
    obtain ⟨k, -, rfl⟩ := List.mem_map.mp ht
    exact hf _ _ (abs_trit_le a k) (abs_trit_le b k)
  rw [tritwise, hlist, trit_ofTrits htrits (by simpa using hi)]
  simp

theorem onTrits_min : OnTrits min := fun _ _ ha hb => abs_min_le_max_abs_abs.trans (max_le ha hb)

theorem onTrits_max : OnTrits max := fun _ _ ha hb => abs_max_le_max_abs_abs.trans (max_le ha hb)

theorem onTrits_tsum1 : OnTrits tsum1 := fun a b _ _ => abs_wrap_le (a + b) 1

theorem onTrits_mul : OnTrits (· * ·) := fun a b ha hb => by
  rw [abs_mul]
  exact mul_le_one₀ ha (abs_nonneg b) hb

theorem onTrits_tcons1 : OnTrits tcons1 := fun a b ha _ => by
  unfold tcons1
  split
  · exact ha
  · decide

/-! Inversion. -/

/-- Inverting a number inverts its low trits and what stands above them. -/
theorem neg_eq_neg_wrap_add (x : Int) (n : Nat) : -x = -wrap x n + pow3 n * -shr x n := by
  rw [mul_neg, ← neg_add, wrap_add_pow3_mul_shr]

theorem wrap_neg (x : Int) (n : Nat) : wrap (-x) n = -wrap x n := by
  rw [neg_eq_neg_wrap_add x n]
  exact wrap_add_pow3_mul (by rw [abs_neg]; exact abs_wrap_le x n) _

theorem shr_neg (x : Int) (n : Nat) : shr (-x) n = -shr x n := by
  rw [neg_eq_neg_wrap_add x n]
  exact shr_add_pow3_mul (by rw [abs_neg]; exact abs_wrap_le x n) _

theorem trit_neg (x : Int) (i : Nat) : trit (-x) i = -trit x i := by
  rw [trit, fld, shr_neg, wrap_neg]
  rfl

/-- Adding a multiple of 3^n does not touch the trits below place n. -/
theorem trit_add_pow3_mul (x q : Int) {n i : Nat} (hi : i < n) : trit (x + pow3 n * q) i = trit x i := by
  obtain ⟨m, rfl⟩ := Nat.exists_eq_add_of_lt hi
  have hshr : shr (x + pow3 (i + m + 1) * q) i = shr x i + pow3 1 * (pow3 m * q) := by
    have hsplit : pow3 (i + m + 1) * q = pow3 i * (pow3 1 * (pow3 m * q)) := by
      rw [pow3_add, pow3_add]
      ring
    rw [hsplit, shr, shr, add_right_comm, Int.add_mul_ediv_left _ _ (pow3_pos i).ne']
  rw [trit, trit, fld, fld, hshr, wrap, wrap, add_right_comm, Int.add_mul_emod_self_left]

theorem trit_wrap (x : Int) {n i : Nat} (hi : i < n) : trit (wrap x n) i = trit x i := by
  rw [← trit_add_pow3_mul (wrap x n) (shr x n) hi, wrap_add_pow3_mul_shr]

/-- Settles O6: the forms write the combined word, whose trits `trit_tritwise` gives, and NEG inverts each trit. -/
theorem tritwiseResults : Obligations.TritwiseResults := by
  refine ⟨?tand, ?tor, ?tsum, ?tmult, ?tcons, fun a b i hi => ?trits, fun a i hi => ?neg⟩
  case tand | tor | tsum | tmult | tcons => exact fun h d a b => .of_words (fun _ => rfl) fun _ => rfl
  case trits =>
    exact ⟨trit_tritwise onTrits_min a b hi, trit_tritwise onTrits_max a b hi, trit_tritwise onTrits_tsum1 a b hi,
      trit_tritwise onTrits_mul a b hi, trit_tritwise onTrits_tcons1 a b hi⟩
  case neg => rw [trit_wrap _ hi, trit_neg]

/-- Settles O5: shifts and rotates work on words or trytes by their counts, the counts and TREV on the list of a word's trits. -/
theorem tritInstructions : Obligations.TritInstructions := by
  refine ⟨?shlR, ?shlI, ?shrR, ?shrI, ?rotR, ?rotI, ?fext, ?fins, ?tcnt, ?tlz, ?trev⟩
  case shlR | shrR | rotR => exact fun h t3 d a b => .of_words (fun _ => rfl) fun _ => rfl
  case shlI | shrI | rotI => exact fun h t3 d a k => .of_words (fun _ => rfl) fun _ => rfl
  case fext => exact fun h d a l w => .of_words (fun _ => rfl) fun _ => rfl
  case fins => exact fun h d a b l w => .of_words (fun _ => rfl) fun _ => rfl
  case tcnt => exact fun h x d a => .of_words (fun _ => rfl) fun v => congrArg _ (countTrits_eq 27 x (src v 0))
  case tlz => exact fun h d a => .of_words (fun _ => rfl) fun v => congrArg _ (leadingZeros_eq 27 (src v 0))
  case trev => exact fun h d a => .of_words (fun _ => rfl) fun v => congrArg _ (reverse_trits 27 (src v 0))

end Sys2Proof.Machine
end

