-- ==== Sys2Proof/Proofs/Quotients.lean ====
section
/-! Division (R35, R179) and conversion (R47, R193-R196): units whose active lanes write a word, or raise a cause. -/

namespace Sys2Proof.Machine

/-! A cause of every active lane (R174, R402). -/

/-- Lanes that all raise one cause, one after the other. -/
theorem Raised.applyRaises {b : State} {w c : Nat} (hc : Hard c) (hdraft : (b.warp w).draft.depth = 0) (ps : List (Nat × Out)) (x : State)
    (ks : List Nat) (h : Raised b x w ks { cause := c, pc := b.cur.first }) (hn : (ks ++ ps.map (·.1)).Nodup)
    (hps : ∀ p ∈ ps, MayRaise b w p.1 ∧ p.2 = raises c) :
    Raised b (ps.foldl (fun a p => a.applyOut (threadOf w p.1) p.2) x) w (ks ++ ps.map (·.1)) { cause := c, pc := b.cur.first } := by
  induction ps generalizing x ks with
  | nil => rwa [List.map_nil, List.append_nil]
  | cons p ps ih =>
    obtain ⟨⟨hl, hout⟩, hps⟩ := List.forall_mem_cons.mp hps
    have hnew : p.1 ∉ ks := fun hk => (List.nodup_append.mp hn).2.2 _ hk _ List.mem_cons_self rfl
    have hone : Raised b (x.applyOut (threadOf w p.1) p.2) w (ks ++ [p.1]) { cause := c, pc := b.cur.first } := by
      rw [hout]
      exact (h.fault hc hdraft hl hnew ⟨.inr rfl, rfl, rfl⟩ rfl).raised
    rw [List.map_cons, List.append_cons] at hn ⊢
    exact ih _ _ hone hn hps

/-- A unit whose lanes do what `f` says, each that raises a cause doing no more. -/
theorem RaisesIn.of {i : Instr} {h : Hdr} {u : Uses} {f g : State → Nat → List Int → Out} (hexec : ∀ s, exec i s = .next (s.perLane h u g))
    (hfg : ∀ s a, Same s a u → ∀ t v, g a t v = f s t v)
    (hf : ∀ s t v, (f s t v).fault = none ∨ ∃ c, Hard c ∧ f s t v = raises c) : RaisesIn i h u f := by
  intro s c hp hl he hports hactive hfault
  have hmay := hp.mayEnter_opened he h
  have hraises : ∀ k, k < (s.active h).length → Hard c ∧ s.outOf h u f k = raises c := fun k hk => by
    have hcause := hfault k hk
    rcases hf s (s.lane ((s.active h).getD k 0)) (s.srcWords (s.active h) u.src k) with hnone | ⟨c', hc', heq⟩
    · rw [State.outOf, hnone] at hcause
      cases hcause
    · rw [State.outOf, heq] at hcause ⊢
      cases hcause
      exact ⟨hc', rfl⟩
  have hc : Hard c := (hraises 0 (List.length_pos_of_ne_nil hactive)).1
  have hlanes : ∀ l ∈ s.active h, MayRaise (s.opened h) s.cur.warp l := fun _ hmem => hp.mayRaise_opened he hmem
  have hraised := Raised.applyRaises hc hmay.nodraft (s.outcomes h u f) (s.opened h) [] (Raised.refl ..)
    (by rw [List.nil_append, s.map_fst_outcomes]; exact active_nodup hp)
    (fun p hmem => by
      obtain ⟨k, hk, rfl⟩ := List.mem_map.mp hmem
      exact ⟨hlanes _ (s.getD_mem_active (List.mem_range.mp hk)), (hraises k (List.mem_range.mp hk)).2⟩)
  rw [List.nil_append, s.map_fst_outcomes, ← hp.laneBody_eq hports fun a hsame l _ v => hfg s a hsame _ v, (hp.start_opened h).cur] at hraised
  exact ⟨_, hexec s, hp.issue_entered hl hactive rfl hraised hmay hlanes hactive rfl⟩

/-- What a lane does that writes one word, perhaps counting a saturation, or raises a cause that traps. -/
def WordOr (d : Nat) (o : Out) : Prop := (∃ x n, 0 ≤ n ∧ o = { wr := [wrW d x], sat := n }) ∨ ∃ c, Hard c ∧ o = raises c

theorem WordOr.word (d : Nat) (x : Int) : WordOr d (toW d x) := .inl ⟨x, 0, le_rfl, rfl⟩

theorem WordOr.ite {P : Prop} [Decidable P] {c : Nat} (hc : Hard c) (d : Nat) (x : Int) : WordOr d (if P then raises c else toW d x) := by
  split
  · exact .inr ⟨c, hc, rfl⟩
  · exact .word d x

theorem WordOr.sat_nonneg {d : Nat} {o : Out} (h : WordOr d o) : 0 ≤ o.sat := by
  rcases h with ⟨x, n, hn, rfl⟩ | ⟨c, -, rfl⟩
  · exact hn
  · exact le_rfl

theorem WordOr.plain {d : Nat} {o : Out} (h : WordOr d o) : o.wr.all Wr.plain = true := by
  rcases h with ⟨x, n, -, rfl⟩ | ⟨c, -, rfl⟩
  · exact toW_plain d x
  · rfl

theorem WordOr.fault {d : Nat} {o : Out} (h : WordOr d o) : o.fault = none ∨ ∃ c, Hard c ∧ o = raises c :=
  h.imp_left fun ⟨_, _, _, heq⟩ => by rw [heq]

/-- A unit with one word destination whose lanes each write it or raise a cause. -/
theorem RunsOr.of_word {i : Instr} {h : Hdr} {fs : List Nat} {d : Nat} {f g : List Int → Out}
    (hexec : ∀ s, exec i s = .next (s.perLane h { src := fs, dst := [d] } (fun _ _ v => g v))) (hgf : ∀ v, g v = f v)
    (hf : ∀ v, WordOr d (f v)) : RunsOr i h { src := fs, dst := [d] } (fun _ _ v => f v) :=
  ⟨Runs.of hexec (fun _ _ _ _ _ _ => hgf) (fun _ _ v => (hf v).sat_nonneg) (fun _ _ v => (hf v).plain),
    RaisesIn.of hexec (fun _ _ _ _ => hgf) fun _ _ v => (hf v).fault⟩

/-! The nearest quotient (R35, R179). -/

/-- What makes an integer the quotient of R179: nearest to a / b, and even where a / b lies midway. -/
def Nearest (a b n : Int) : Prop := 2 * |a - n * b| ≤ |b| ∧ (2 * |a - n * b| = |b| → n % 2 = 0)

theorem nearestPos_spec (p : Int) {q : Int} (hq : 0 < q) : Nearest p q (nearestPos p q) := by
  have hlow := Int.emod_nonneg p hq.ne'
  have hhigh := Int.emod_lt_of_pos p hq
  have hfloor : p - p / q * q = p % q := by
    rw [Int.emod_def, mul_comm]
  have hceil : p - (p / q + 1) * q = -(q - p % q) := by
    rw [add_mul, one_mul, ← sub_sub, hfloor, neg_sub]
  have hdown : |p - p / q * q| = p % q := by rw [hfloor, abs_of_nonneg hlow]
  have hup : |p - (p / q + 1) * q| = q - p % q := by rw [hceil, abs_neg, abs_of_nonneg (by omega)]
  simp only [nearestPos, Nearest, abs_of_pos hq]
  split_ifs
  · rw [hdown]; omega
  · rw [hup]; omega
  · rw [hdown]; omega
  · rw [hup]; omega

theorem nearest_spec (a : Int) {b : Int} (hb : b ≠ 0) : Nearest a b (nearest a b) := by
  rw [nearest]
  split
  next hneg =>
    have hpos := nearestPos_spec (-a) (neg_pos.mpr hneg)
    have hrem (n : Int) : -a - n * -b = -(a - n * b) := by ring
    rwa [Nearest, hrem, abs_neg, abs_neg] at hpos
  next hnonneg => exact nearestPos_spec a (lt_of_le_of_ne (not_lt.mp hnonneg) hb.symm)

/-- A quotient is no larger than its dividend, so it stays in every range that holds that. -/
theorem Nearest.abs_le {a b n : Int} (h : Nearest a b n) (hb : b ≠ 0) : |n| ≤ |a| := by
  obtain ⟨hnear, -⟩ := h
  have hone : 1 ≤ |b| := Int.one_le_abs hb
  have hprod : |n| * |b| ≤ |a| + |a - n * b| := by
    calc |n| * |b| = |a - (a - n * b)| := by rw [sub_sub_cancel, abs_mul]
      _ ≤ |a| + |a - n * b| := abs_sub _ _
  by_contra hlarge
  have hmore : (|a| + 1) * |b| ≤ |n| * |b| := mul_le_mul_of_nonneg_right (by omega) (abs_nonneg b)
  have hscale : |a| ≤ |a| * |b| := le_mul_of_one_le_right (abs_nonneg a) hone
  rw [add_mul, one_mul] at hmore
  omega

/-- Settles O3: a zero divisor raises DIVZ (8), any other gives the nearest quotient or its remainder. -/
theorem division : Obligations.Division := by
  have hdivz : Hard 8 := ⟨by decide, rfl⟩
  refine ⟨?div, ?rem, fun a b hb => ?quotient⟩
  case div | rem =>
    exact fun h t3 d a b => .of_word (fun _ => rfl) (fun _ => rfl) fun v => .ite hdivz d _
  case quotient =>
    have hnear := nearest_spec a hb
    exact ⟨hnear.1, hnear.2, hnear.abs_le hb⟩

/-! Conversions (R47, R193, R194). -/

/-- A conversion: a value out of range saturates and is counted, or raises CONV (7). -/
theorem RunsOr.of_conversion {i : Instr} {h : Hdr} {fs : List Nat} {d : Nat} {sa : Bool} {bad : List Int → Bool} {P : List Int → Prop}
    [DecidablePred P] {x y : List Int → Int}
    (hexec : ∀ s, exec i s = .next (s.perLane h { src := fs, dst := [d] } (fun _ _ v =>
      if bad v && !sa then { fault := some { cause := 7 } } else { wr := [wrW d (y v)], sat := if bad v then 1 else 0 })))
    (hbad : ∀ v, bad v = false ↔ P v) (hxy : ∀ v, P v → y v = x v) :
    RunsOr i h { src := fs, dst := [d] } (fun _ _ v =>
      if P v then toW d (x v) else if sa then { wr := [wrW d (y v)], sat := 1 } else raises 7) := by
  have hconv : Hard 7 := ⟨by decide, rfl⟩
  refine RunsOr.of_word hexec (fun v => ?_) fun v => ?_
  · by_cases hin : P v
    · simp [(hbad v).mpr hin, hin, hxy v hin, toW]
    · have hout : bad v = true := by rwa [← Bool.not_eq_false, hbad]
      cases sa <;> simp [hout, hin, raises]
  · split_ifs
    · exact .word d _
    · exact .inl ⟨_, 1, by decide, rfl⟩
    · exact .inr ⟨7, hconv, rfl⟩

theorem not_inRange_eq_false_iff {x : Int} {n : Nat} : (!inRange x n) = false ↔ |x| ≤ half n := by
  rw [Bool.not_eq_false', inRange_iff_abs_le]

/-- Settles O8: CVT and CVTF from a float saturate or raise CONV, CVTF from a word rounds once, RNG reads its pairs' words. -/
theorem conversions : Obligations.Conversions := by
  refine ⟨fun h sa ty d a => ?cvt, fun h sa ty d a => ?cvtT3, fun h sa ty dty d a hty => ?fromInt, fun h sa ty dty d a hty => ?fromFloat,
    fun h d a b => ?rng⟩
  case cvt =>
    refine .of_conversion (bad := fun v => !inRange (src v 0) ty.width) (y := fun v => sat (src v 0) ty.width) (fun s => ?_)
      (fun v => not_inRange_eq_false_iff) fun v => sat_of_abs_le
    simp [exec, execCvt, arg_eq_src]
  case cvtT3 =>
    refine .of_conversion (bad := fun v => !inRange (part (src v 0) 0) ty.width || (!inRange (part (src v 0) 1) ty.width ||
      (!inRange (part (src v 0) 2) ty.width))) (fun s => ?_) (fun v => ?_) fun v hv => ?_
    · simp [exec, execCvt, arg_eq_src]
    · simp only [Bool.or_eq_false_iff, not_inRange_eq_false_iff]
    · obtain ⟨h0, h1, h2⟩ := hv
      rw [sat_of_abs_le h0, sat_of_abs_le h1, sat_of_abs_le h2]
  case fromInt => exact .of_word (fun s => by simp only [exec, execCvtf, hty]; rfl) (fun _ => rfl) fun v => .word d _
  case fromFloat => exact .of_conversion (fun s => by simp only [exec, execCvtf, hty]; rfl) (fun v => Iff.rfl) fun v _ => rfl
  case rng => exact .of_pair (fun _ => rfl) fun _ _ hsame _ _ => by simp only [hsame.reg]

end Sys2Proof.Machine
end

