-- ==== Sys2Proof/Proofs/FloatForms.lean ====
section
/-! Float instructions lane by lane (R197, R201-R211): a form's operation on the parts of its operands, whose result the unit writes
or leaves to follow. -/

namespace Sys2Proof.Machine

/-- The model takes operands apart and joins results as R197 does. -/
theorem floatOp_eq_perFmt (f : FFmt) (op : FmtF → Int → Int → Int → Int) (a b c : Int) : floatOp f op a b c = perFmt f op a b c := by
  cases f <;> rfl

section
variable {i : Instr} {h : Hdr} {f : FFmt} {op : FmtF → Int → Int → Int → Int} {fs : List Nat} {d : Nat} {y : List Int → Int}

/-- A form that writes its result (R197, R201). -/
theorem Runs.of_falu (hexec : ∀ s, exec i s = falu h f op d fs s) (hy : ∀ v, perFmt f op (src v 0) (src v 1) (src v 2) = y v) :
    Runs i h { src := fs, dst := [d] } (fun _ _ v => toW d (y v)) :=
  .of_words hexec fun v => (floatOp_eq_perFmt f op _ _ _).trans (hy v)

/-- A form whose result follows its unit (R211). -/
theorem Runs.of_ffun (hexec : ∀ s, exec i s = ffun h f op d fs s) (hy : ∀ v, perFmt f op (src v 0) (src v 1) (src v 2) = y v) :
    Runs i h { src := fs, dst := [d] } (fun _ _ v => later d (y v)) :=
  .of_result (fun _ => le_rfl) (later_plain d) hexec fun _ _ _ _ v => (floatOp_eq_perFmt f op _ _ _).trans (hy v)

end

/-- Settles O9: each form is its operation in `falu`; FCMP writes two predicates for each part (R205). -/
theorem floatArithmetic : Obligations.FloatArithmetic := by
  refine ⟨?fadd, ?fsub, ?fmul, ?ffma, ?fmin, ?fmax, ?fneg, ?fabs, ?fscl, ?frnd, ?fcvtF9, ?fcvtF27, ?fclass, ?fcmp, ?fcmpS9, ?fcmpT3⟩
  case fadd | fsub | fmul | fmin | fmax => exact fun h f d a b => .of_falu (fun _ => rfl) fun _ => rfl
  case ffma => exact fun h f d a b c => .of_falu (fun _ => rfl) fun _ => rfl
  case fneg | fabs | fclass => exact fun h f d a => .of_falu (fun _ => rfl) fun _ => rfl
  case fscl => exact fun h f d a b imm => .of_falu (fun _ => rfl) fun _ => rfl
  case frnd => exact fun h f d a imm => .of_falu (fun _ => rfl) fun _ => rfl
  case fcvtF9 | fcvtF27 => exact fun h d a => .of_falu (fun _ => rfl) fun _ => rfl
  case fcmp | fcmpS9 | fcmpT3 =>
    exact fun h d a b => .of (fun _ => rfl) (fun _ _ _ _ _ _ _ => rfl) (fun _ _ _ => le_rfl) fun _ _ _ => rfl

/-- Settles O10: each form is its operation in `ffun`. -/
theorem floatFunctions : Obligations.FloatFunctions := by
  refine ⟨?fdiv, ?frcp, ?fsqrt, ?frsq, ?fexp, ?fexp3, ?flog, ?flog3, ?fsin, ?fcos, ?ftanh, ?fsigm, ?ferf⟩
  case fdiv => exact fun h f d a b => .of_ffun (fun _ => rfl) fun _ => rfl
  case frcp | fsqrt | frsq | fexp | fexp3 | flog | flog3 | fsin | fcos | ftanh | fsigm | ferf =>
    exact fun h f d a => .of_ffun (fun _ => rfl) fun _ => rfl

end Sys2Proof.Machine
end

