-- ==== Sys2Proof/Proofs/Rounding.lean ====
section
/-! Rounding a rational to a float format (R33, R35, R41): the model's exponent and significand integer are those of the exact value. -/

namespace Sys2Proof.Machine

/-! The exponent of a value. -/

/-- e is the exponent that R41 chooses for the value x. -/
def HasExp (x : ℝ) (e : Int) : Prop := (3 : ℝ) ^ e ≤ 2 * |x| ∧ 2 * |x| < (3 : ℝ) ^ (e + 1)

theorem HasExp.ne_zero {x : ℝ} {e : Int} (h : HasExp x e) : x ≠ 0 := by
  rintro rfl
  have hpos : (0 : ℝ) < 3 ^ e := by positivity
  have hle := h.1
  rw [abs_zero, mul_zero] at hle
  exact hle.not_gt hpos

theorem log3_eq_log {fuel n : Nat} (k : Nat) (hn : n < 3 ^ fuel) : log3 fuel k n = k + Nat.log 3 n := by
  induction fuel generalizing k n with
  | zero =>
    obtain rfl : n = 0 := by omega
    rfl
  | succ fuel ih =>
    rw [log3]
    split
    next hlt => rw [Nat.log_of_lt hlt, Nat.add_zero]
    next hge =>
      rw [ih (k + 1) (by rw [pow_succ] at hn; omega), Nat.log_of_one_lt_of_le (by decide) (not_lt.mp hge)]
      omega

theorem flog3_eq_log (n : Nat) : flog3 n = Nat.log 3 n := by
  have hfuel : n < 3 ^ (n.log2 + 1) := Nat.lt_log2_self.trans_le (Nat.pow_le_pow_left (by decide) _)
  rw [flog3, log3_eq_log 0 hfuel, Nat.zero_add]

/-- `flog3` of a quotient is the whole exponent of the fraction. -/
theorem pow_flog3_div {a b : Nat} (hb : 0 < b) (hba : b ≤ a) :
    3 ^ flog3 (a / b) * b ≤ a ∧ a < 3 ^ (flog3 (a / b) + 1) * b := by
  have hquot : a / b ≠ 0 := (Nat.div_pos hba hb).ne'
  rw [flog3_eq_log]
  exact ⟨(Nat.le_div_iff_mul_le hb).mp (Nat.pow_log_le_self 3 hquot),
    (Nat.div_lt_iff_lt_mul hb).mp (Nat.lt_pow_succ_log_self (by decide) _)⟩

/-- e is the exponent of the ratio p / q, its denominator cleared. -/
def RatioExp (p q : Nat) (e : Int) : Prop := (3 : ℝ) ^ e * q ≤ 2 * p ∧ 2 * (p : ℝ) < (3 : ℝ) ^ (e + 1) * q

theorem RatioExp.of_le {p q : Nat} (hq : 0 < q) (h : q ≤ 2 * p) : RatioExp p q (flog3 (2 * p / q)) := by
  obtain ⟨hlow, hhigh⟩ := pow_flog3_div hq h
  rw [RatioExp, ← Nat.cast_add_one, zpow_natCast, zpow_natCast]
  exact ⟨by exact_mod_cast hlow, by exact_mod_cast hhigh⟩

/-- A ratio that is a power of three halved. -/
theorem RatioExp.neg {p q k : Nat} (hp : 0 < p) (h : 3 ^ k * (2 * p) = q) : RatioExp p q (-k) := by
  have hratio : (3 : ℝ) ^ (-(k : Int)) * q = 2 * p := by
    rw [← h, zpow_neg, zpow_natCast]
    push_cast
    exact inv_mul_cancel_left₀ (by positivity) _
  have hp' : (0 : ℝ) < p := by exact_mod_cast hp
  rw [RatioExp, zpow_add_one₀ (by norm_num), mul_right_comm, hratio]
  constructor <;> linarith

/-- A ratio that lies between two powers of three halved. -/
theorem RatioExp.neg_sub_one {p q k : Nat} (hlow : 3 ^ k * (2 * p) < q) (hhigh : q < 3 ^ (k + 1) * (2 * p)) :
    RatioExp p q (-k - 1) := by
  have hdown : -(k : Int) - 1 = -((k + 1 : Nat) : Int) := by
    push_cast
    ring
  rw [RatioExp, sub_add_cancel, hdown, zpow_neg, zpow_natCast, zpow_neg, zpow_natCast,
    inv_mul_le_iff₀ (by positivity), lt_inv_mul_iff₀ (by positivity)]
  exact ⟨by exact_mod_cast hhigh.le, by exact_mod_cast hlow⟩

theorem ratioExp_expOf {p q : Nat} (hp : 0 < p) (hq : 0 < q) : RatioExp p q (expOf p q) := by
  rw [expOf]
  split
  next hge => exact .of_le hq hge
  next hlt =>
    obtain ⟨hlow, hhigh⟩ := pow_flog3_div (by omega : 0 < 2 * p) (not_le.mp hlt).le
    generalize flog3 (q / (2 * p)) = k at hlow hhigh
    simp only [pow3_eq]
    split
    next hexact => exact .neg hp (hlow.antisymm (by exact_mod_cast hexact))
    next hover => exact .neg_sub_one (by exact_mod_cast not_le.mp hover) hhigh

theorem hasExp_ratio {p q : Int} (hp : p ≠ 0) (hq : 0 < q) (k : Int) :
    HasExp ((p : ℝ) / q * 3 ^ k) (expOf p.natAbs q.toNat + k) := by
  obtain ⟨hlow, hhigh⟩ := ratioExp_expOf (Int.natAbs_pos.mpr hp) (Int.lt_toNat.mpr hq)
  have hden : ((q.toNat : Nat) : ℝ) = q := by exact_mod_cast Int.toNat_of_nonneg hq.le
  have hq' : (0 : ℝ) < q := by exact_mod_cast hq
  have hscale : (0 : ℝ) < 3 ^ k := by positivity
  have habs : 2 * |(p : ℝ) / q * 3 ^ k| = 2 * (p.natAbs : ℝ) / q * 3 ^ k := by
    rw [abs_mul, abs_div, abs_of_pos hq', abs_of_pos hscale, Nat.cast_natAbs, Int.cast_abs]
    ring
  rw [hden] at hlow hhigh
  rw [HasExp, habs, add_right_comm, zpow_add₀ (by norm_num), zpow_add₀ (by norm_num) _ k]
  exact ⟨mul_le_mul_of_nonneg_right ((le_div_iff₀ hq').mpr hlow) hscale.le,
    mul_lt_mul_of_pos_right ((div_lt_iff₀ hq').mpr hhigh) hscale⟩

/-! The significand integer of a value. -/

/-- m is the integer nearest to y, the even one where y lies midway (R33, R35). -/
def RoundsTo (y : ℝ) (m : Int) : Prop := 2 * |y - m| ≤ 1 ∧ (2 * |y - m| = 1 → m % 2 = 0)

theorem roundsTo_nearest (a : Int) {b : Int} (hb : 0 < b) : RoundsTo ((a : ℝ) / b) (nearest a b) := by
  obtain ⟨hnear, heven⟩ := nearest_spec a hb.ne'
  generalize nearest a b = n at hnear heven
  rw [abs_of_pos hb] at hnear heven
  have hb' : (0 : ℝ) < b := by exact_mod_cast hb
  have hdist : 2 * |(a : ℝ) / b - n| = ((2 * |a - n * b| : Int) : ℝ) / b := by
    rw [div_sub' hb'.ne', abs_div, abs_of_pos hb']
    push_cast
    ring_nf
  rw [RoundsTo, hdist, div_le_one hb', div_eq_one_iff_eq hb'.ne']
  exact ⟨by exact_mod_cast hnear, fun h => heven (by exact_mod_cast h)⟩

theorem pow3_cast (n : Nat) : (pow3 n : ℝ) = 3 ^ n := by
  rw [pow3_eq]
  push_cast
  rfl

theorem pow3_toNat_cast {n : Int} (hn : 0 ≤ n) : (pow3 n.toNat : ℝ) = 3 ^ n := by
  rw [pow3_cast, ← zpow_natCast, Int.toNat_of_nonneg hn]

/-- The model scales the numerator or the denominator by a power of three and takes the nearest quotient. -/
theorem roundsTo_nearest_scaled (p : Int) {q : Int} (hq : 0 < q) (sh : Int) :
    RoundsTo ((p : ℝ) / q * 3 ^ sh) (if sh ≥ 0 then nearest (p * pow3 sh.toNat) q else nearest p (q * pow3 (-sh).toNat)) := by
  split
  next hup =>
    have hval : (p : ℝ) / q * 3 ^ sh = ((p * pow3 sh.toNat : Int) : ℝ) / q := by
      rw [Int.cast_mul, pow3_toNat_cast hup]
      ring
    rw [hval]
    exact roundsTo_nearest _ hq
  next hdown =>
    have hval : (p : ℝ) / q * 3 ^ sh = (p : ℝ) / ((q * pow3 (-sh).toNat : Int) : ℝ) := by
      rw [Int.cast_mul, pow3_toNat_cast (by omega), zpow_neg]
      field_simp
    rw [hval]
    exact roundsTo_nearest _ (mul_pos hq (pow3_pos _))

/-! What R41 asks of a result, case by case. -/

section
variable {f : FmtF} {x : ℝ} {e : Int}

theorem Rounds.zero (f : FmtF) : Rounds f 0 0 := ⟨fun _ => rfl, fun h => absurd rfl h⟩

theorem Rounds.overflow (he : HasExp x e) (hbig : f.emax < e) :
    Rounds f x (encF f (f.emax + 1) (if 0 < x then pow3 f.p else -pow3 f.p)) :=
  ⟨fun h => absurd h he.ne_zero, fun _ => ⟨e, he.1, he.2, by rw [if_pos hbig]⟩⟩

theorem Rounds.finite {m : Int} (he : HasExp x e) (hfit : ¬ f.emax < e) (hm : RoundsTo (x / 3 ^ (max e f.emin - (f.p : Int))) m) :
    Rounds f x (if m = 0 then 0 else encF f (max e f.emin) m) :=
  ⟨fun h => absurd h he.ne_zero, fun _ => ⟨e, he.1, he.2, by rw [if_neg hfit]; exact ⟨m, hm.1, hm.2, rfl⟩⟩⟩

/-- What is known of the result that a nonzero value rounds to. -/
theorem Rounds.cases {r : Int} (h : Rounds f x r) (hx : x ≠ 0) : ∃ e, HasExp x e ∧
    ((f.emax < e ∧ r = encF f (f.emax + 1) (if 0 < x then pow3 f.p else -pow3 f.p)) ∨
      (¬ f.emax < e ∧ ∃ m, RoundsTo (x / 3 ^ (max e f.emin - (f.p : Int))) m ∧ r = if m = 0 then 0 else encF f (max e f.emin) m)) := by
  obtain ⟨e, hlow, hhigh, hres⟩ := h.2 hx
  refine ⟨e, ⟨hlow, hhigh⟩, ?_⟩
  split at hres
  next hbig => exact .inl ⟨hbig, hres⟩
  next hfit =>
    obtain ⟨m, hnear, heven, hr⟩ := hres
    exact .inr ⟨hfit, m, ⟨hnear, heven⟩, hr⟩

end

theorem infF_eq {p : Int} (hp : p ≠ 0) (f : FmtF) :
    infF f p = encF f (f.emax + 1) (if 0 < p then pow3 f.p else -pow3 f.p) := by
  rcases lt_or_gt_of_ne hp with hneg | hpos
  · rw [infF, sgn, if_pos hneg, if_neg hneg.not_gt, neg_one_mul]
  · rw [infF, sgn, if_neg hpos.not_gt, if_neg hp, if_pos hpos, one_mul]

/-- `roundQ` is the rounding of R41 on the rational p / q * 3^k. -/
theorem rounds_roundQ (f : FmtF) (p : Int) {q : Int} (hq : 0 < q) (k : Int) : Rounds f ((p : ℝ) / q * 3 ^ k) (roundQ f p q k) := by
  rw [roundQ]
  split
  next hzero =>
    rw [hzero, Int.cast_zero, zero_div, zero_mul]
    exact .zero f
  next hp =>
    have he := hasExp_ratio hp hq k
    dsimp only
    split
    next hbig =>
      have hq' : (0 : ℝ) < q := by exact_mod_cast hq
      have hsign : 0 < p ↔ 0 < (p : ℝ) / q * 3 ^ k := by
        rw [mul_pos_iff_of_pos_right (by positivity), div_pos_iff_of_pos_right hq', Int.cast_pos]
      rw [infF_eq hp]
      simp only [hsign]
      exact .overflow he hbig
    next hfit =>
      have hmax (a : Int) : (if a < f.emin then f.emin else a) = max a f.emin := by
        rw [max_def]
        split_ifs <;> omega
      rw [hmax]
      refine .finite he hfit ?_
      rw [mul_div_assoc, ← zpow_sub₀ (by norm_num)]
      exact roundsTo_nearest_scaled p hq _

end Sys2Proof.Machine
end

