-- ==== Sys2Proof/Proofs/Roots.lean ====
section
/-! Quotients and square roots of float operands (R209, R210): a root that is no rational of the model's grid rounds as the middle of its
cell does, since no rounding boundary of the format lies inside a cell. -/

namespace Sys2Proof.Machine

/-! Values in one cell of a grid round alike. -/

/-- Twice x lies strictly between the neighbours j and j + 1 of the grid of 3^t. -/
def InCell (t : Int) (j : Nat) (x : ℝ) : Prop := (j : ℝ) * 3 ^ t < 2 * x ∧ 2 * x < ((j : ℝ) + 1) * 3 ^ t

theorem InCell.pos {t : Int} {j : Nat} {x : ℝ} (h : InCell t j x) : 0 < x := by
  have hleft : (0 : ℝ) ≤ j * 3 ^ t := by positivity
  linarith [h.1]

/-- Both values lie on one side of b, and neither on it. -/
def SameSide (b x y : ℝ) : Prop := b < 2 * x ∧ b < 2 * y ∨ 2 * x < b ∧ 2 * y < b

/-- A multiple of 3^s is a point of the grid of every smaller power, so it does not part a cell. -/
theorem InCell.sameSide {t s : Int} {j : Nat} {x y : ℝ} (hx : InCell t j x) (hy : InCell t j y) (hts : t ≤ s) (n : Int) :
    SameSide ((n : ℝ) * 3 ^ s) x y := by
  obtain ⟨k, rfl⟩ := Int.le.dest hts
  have hgrid : (n : ℝ) * 3 ^ (t + (k : Int)) = ((n * 3 ^ k : Int) : ℝ) * 3 ^ t := by
    rw [zpow_add₀ (by norm_num), zpow_natCast]
    push_cast
    ring
  have hpos : (0 : ℝ) < 3 ^ t := by positivity
  rw [hgrid]
  generalize n * 3 ^ k = i
  rcases le_or_gt i j with hle | hgt
  · have hle' : (i : ℝ) * 3 ^ t ≤ j * 3 ^ t := mul_le_mul_of_nonneg_right (by exact_mod_cast hle) hpos.le
    exact .inl ⟨hle'.trans_lt hx.1, hle'.trans_lt hy.1⟩
  · have hge : ((j : ℝ) + 1) * 3 ^ t ≤ i * 3 ^ t := mul_le_mul_of_nonneg_right (by exact_mod_cast hgt) hpos.le
    exact .inr ⟨hx.2.trans_le hge, hy.2.trans_le hge⟩

theorem SameSide.le_left {b x y : ℝ} (h : SameSide b x y) (hx : b ≤ 2 * x) : b < 2 * y :=
  h.elim And.right fun hlt => absurd hx hlt.1.not_ge

theorem SameSide.le_right {b x y : ℝ} (h : SameSide b x y) (hx : 2 * x ≤ b) : 2 * y < b :=
  h.elim (fun hlt => absurd hx hlt.1.not_ge) And.right

theorem HasExp.of_inCell {t e : Int} {j : Nat} {x y : ℝ} (hx : InCell t j x) (hy : InCell t j y) (hte : t ≤ e) (he : HasExp x e) :
    HasExp y e := by
  have hlow := hx.sameSide hy hte 1
  have hhigh := hx.sameSide hy (by omega : t ≤ e + 1) 1
  rw [Int.cast_one, one_mul] at hlow hhigh
  rw [HasExp, abs_of_pos hx.pos] at he
  rw [HasExp, abs_of_pos hy.pos]
  exact ⟨(hlow.le_left he.1).le, hhigh.le_right he.2.le⟩

theorem RoundsTo.of_inCell {t s m : Int} {j : Nat} {x y : ℝ} (hx : InCell t j x) (hy : InCell t j y) (hts : t ≤ s)
    (hm : RoundsTo (x / 3 ^ s) m) : RoundsTo (y / 3 ^ s) m := by
  have hscale : (0 : ℝ) < 3 ^ s := by positivity
  have hdist (z : ℝ) : |2 * z - 2 * m * 3 ^ s| = 2 * |z / 3 ^ s - m| * 3 ^ s := by
    have hfactor : 2 * z - 2 * m * 3 ^ s = 2 * (z / 3 ^ s - m) * 3 ^ s := by field_simp
    rw [hfactor, abs_mul, abs_mul, abs_two, abs_of_pos hscale]
  have hnear : |2 * x - 2 * m * 3 ^ s| ≤ 3 ^ s := by
    rw [hdist]
    exact mul_le_of_le_one_left hscale.le hm.1
  have hlow := hx.sameSide hy hts (2 * m - 1)
  have hhigh := hx.sameSide hy hts (2 * m + 1)
  push_cast at hlow hhigh
  obtain ⟨hxlow, hxhigh⟩ := abs_le.mp hnear
  have hylow := hlow.le_left (by linarith)
  have hyhigh := hhigh.le_right (by linarith)
  have hless : 2 * |y / 3 ^ s - m| < 1 := by
    rw [← mul_lt_iff_lt_one_left hscale, ← hdist, abs_lt]
    constructor <;> linarith
  exact ⟨hless.le, fun hmid => absurd hmid hless.ne⟩

/-- Values in a cell that is fine enough for the format's fraction round alike. -/
theorem Rounds.of_inCell {f : FmtF} {t : Int} {j : Nat} {x y : ℝ} {r : Int} (hj : 3 ^ f.p ≤ j) (hx : InCell t j x) (hy : InCell t j y)
    (h : Rounds f x r) : Rounds f y r := by
  obtain ⟨e, he, hres⟩ := h.cases hx.pos.ne'
  have hfine : t + f.p ≤ e := by
    have hexp : (3 : ℝ) ^ (t + (f.p : Int)) < 3 ^ (e + 1) := by
      calc (3 : ℝ) ^ (t + (f.p : Int)) = ((3 ^ f.p : Nat) : ℝ) * 3 ^ t := by
            rw [add_comm, zpow_add₀ (by norm_num), zpow_natCast]
            push_cast
            rfl
        _ ≤ j * 3 ^ t := mul_le_mul_of_nonneg_right (by exact_mod_cast hj) (by positivity)
        _ < 2 * |x| := by rw [abs_of_pos hx.pos]; exact hx.1
        _ < 3 ^ (e + 1) := he.2
    exact Int.lt_add_one_iff.mp ((zpow_lt_zpow_iff_right₀ (by norm_num)).mp hexp)
  have hey : HasExp y e := he.of_inCell hx hy (by omega)
  rcases hres with ⟨hbig, rfl⟩ | ⟨hfit, m, hm, rfl⟩
  · have hinf := Rounds.overflow hey hbig
    rw [if_pos hy.pos] at hinf
    rwa [if_pos hx.pos]
  · exact .finite hey hfit (hm.of_inCell hx hy (by omega))

/-! Square roots. -/

/-- The integer whose root over q, halved and scaled, is the root of p / q * 3^k. -/
def radicand (p k : Int) : Int := 4 * (if k % 2 = 0 then p else 3 * p) * pow3 600

theorem pow3_le_radicand {p : Int} (hp : 0 < p) (k : Int) : pow3 600 ≤ radicand p k := by
  have hpos := (pow3_pos 600).le
  refine le_mul_of_one_le_left hpos ?_
  split_ifs <;> omega

theorem sqrt_eq_sqrt_radicand (p q k : Int) : √((p : ℝ) / q * 3 ^ k) = √((radicand p k : ℝ) / q) / 2 * 3 ^ (k / 2 - 300) := by
  have hsquare : (p : ℝ) / q * 3 ^ k = (radicand p k : ℝ) / q / 2 ^ 2 * (3 ^ (k / 2 - 300)) ^ 2 := by
    have hroot : ((3 : ℝ) ^ (k / 2 - 300)) ^ 2 = 3 ^ (2 * (k / 2)) / 3 ^ 600 := by
      rw [← zpow_natCast, ← zpow_mul, ← zpow_natCast (3 : ℝ) 600, ← zpow_sub₀ (by norm_num)]
      congr 1
      push_cast
      ring
    have hk : (3 : ℝ) ^ k = 3 ^ (2 * (k / 2)) * 3 ^ (k % 2) := by rw [← zpow_add₀ (by norm_num), Int.mul_ediv_add_emod]
    have hodd : ((if k % 2 = 0 then p else 3 * p : Int) : ℝ) = p * 3 ^ (k % 2) := by
      split
      next h => rw [h, zpow_zero, mul_one]
      next h => rw [show k % 2 = 1 by omega, zpow_one, Int.cast_mul, Int.cast_ofNat, mul_comm]
    have hc : (3 : ℝ) ^ 600 ≠ 0 := by positivity
    rw [hroot, hk, radicand, Int.cast_mul, Int.cast_mul, hodd, pow3_cast, Int.cast_ofNat]
    generalize (3 : ℝ) ^ 600 = c at hc
    field_simp
    norm_num
  rw [hsquare, Real.sqrt_mul' _ (by positivity), Real.sqrt_div' _ (by positivity), Real.sqrt_sq (by norm_num), Real.sqrt_sq (by positivity)]

/-- The whole part of the root of n / q. -/
def floorRoot (n q : Int) : Nat := Nat.sqrt (n / q).toNat

theorem floorRoot_spec {n q : Int} (hn : 0 ≤ n) (hq : 0 < q) :
    (floorRoot n q : Int) * floorRoot n q * q ≤ n ∧ n < ((floorRoot n q : Int) + 1) * ((floorRoot n q : Int) + 1) * q := by
  have hquot : ((n / q).toNat : Int) = n / q := Int.toNat_of_nonneg (Int.ediv_nonneg hn hq.le)
  have hlow : (floorRoot n q : Int) * floorRoot n q ≤ n / q := by
    rw [← hquot]
    exact_mod_cast Nat.sqrt_le _
  have hhigh : n / q < ((floorRoot n q : Int) + 1) * ((floorRoot n q : Int) + 1) := by
    rw [← hquot]
    exact_mod_cast Nat.lt_succ_sqrt _
  exact ⟨(Int.le_ediv_iff_mul_le hq).mp hlow, (Int.ediv_lt_iff_lt_mul hq).mp hhigh⟩

theorem le_floorRoot {k : Nat} {n q : Int} (hn : 0 ≤ n) (hq : 0 < q) (h : pow3 (2 * k) * q ≤ n) : 3 ^ k ≤ floorRoot n q := by
  have hsquare : ((3 ^ k * 3 ^ k : Nat) : Int) = pow3 (2 * k) := by
    rw [pow3_eq, two_mul, pow_add]
    push_cast
    rfl
  rw [floorRoot, Nat.le_sqrt, Int.le_toNat (Int.ediv_nonneg hn hq.le), Int.le_ediv_iff_mul_le hq, hsquare]
  exact h

theorem sqrt_div_eq {j : Nat} {n q : Int} (hq : 0 < q) (h : (j : Int) * j * q = n) : √((n : ℝ) / q) = j := by
  have hq' : (q : ℝ) ≠ 0 := by exact_mod_cast hq.ne'
  rw [← h, Int.cast_mul, mul_div_cancel_right₀ _ hq', Int.cast_mul, Int.cast_natCast, Real.sqrt_mul_self j.cast_nonneg]

theorem sqrt_div_between {j : Nat} {n q : Int} (hq : 0 < q) (hlow : (j : Int) * j * q < n)
    (hhigh : n < ((j : Int) + 1) * ((j : Int) + 1) * q) : (j : ℝ) < √((n : ℝ) / q) ∧ √((n : ℝ) / q) < j + 1 := by
  have hq' : (0 : ℝ) < q := by exact_mod_cast hq
  rw [Real.lt_sqrt j.cast_nonneg, lt_div_iff₀ hq', sq, Real.sqrt_lt' (by positivity), div_lt_iff₀ hq', sq]
  exact ⟨by exact_mod_cast hlow, by exact_mod_cast hhigh⟩

theorem InCell.of_between {j : Nat} {y : ℝ} (t : Int) (h : (j : ℝ) < y ∧ y < j + 1) : InCell t j (y / 2 * 3 ^ t) := by
  have hpos : (0 : ℝ) < 3 ^ t := by positivity
  rw [InCell, ← mul_assoc, mul_div_cancel₀ _ two_ne_zero, mul_lt_mul_iff_left₀ hpos, mul_lt_mul_iff_left₀ hpos]
  exact h

theorem sqrtQ_eq (p q k : Int) : sqrtQ p q k =
    if (floorRoot (radicand p k) q : Int) * floorRoot (radicand p k) q * q = radicand p k then
      ((floorRoot (radicand p k) q : Int), 2, k / 2 - 300)
    else (2 * floorRoot (radicand p k) q + 1, 4, k / 2 - 300) := rfl

/-- A root rounds once (R209): the model finds it, or finds that it lies between two neighbours of the grid of 3^(k / 2 - 300) / 2. -/
theorem rounds_sqrtQ (f : FmtF) {p q : Int} (hp : 0 < p) (hq : 0 < q) (k : Int) (hfine : pow3 (2 * f.p) * q ≤ pow3 600) :
    Rounds f (√((p : ℝ) / q * 3 ^ k)) (roundQ f (sqrtQ p q k).1 (sqrtQ p q k).2.1 (sqrtQ p q k).2.2) := by
  have hn := pow3_le_radicand hp k
  rw [sqrt_eq_sqrt_radicand, sqrtQ_eq]
  generalize radicand p k = n at hn
  generalize k / 2 - 300 = t
  have hn0 : 0 ≤ n := (pow3_pos 600).le.trans hn
  obtain ⟨hlow, hhigh⟩ := floorRoot_spec hn0 hq
  have hj := le_floorRoot hn0 hq (hfine.trans hn)
  generalize floorRoot n q = j at hlow hhigh hj
  split
  next hexact =>
    have hround := rounds_roundQ f j two_pos t
    rwa [Int.cast_natCast, Int.cast_ofNat, ← sqrt_div_eq hq hexact] at hround
  next hbetween =>
    have hmiddle : ((2 * j + 1 : Int) : ℝ) / (4 : Int) * 3 ^ t = ((j : ℝ) + 1 / 2) / 2 * 3 ^ t := by
      push_cast
      ring
    have hround := rounds_roundQ f (2 * j + 1) (by norm_num : (0 : Int) < 4) t
    rw [hmiddle] at hround
    exact hround.of_inCell hj (.of_between t ⟨by linarith, by linarith⟩)
      (.of_between t (sqrt_div_between hq (lt_of_le_of_ne hlow hbetween) hhigh))

/-! The operations on finite operands (R201, R209, R210). -/

theorem abs_le_of_valF_eq_fin {f : FmtF} {x m e : Int} (h : valF f x = .fin m e) : |m| ≤ half (f.p + 1) := by
  rw [valF] at h
  split_ifs at h
  · cases h
    rw [abs_zero]
    exact half_nonneg _
  · cases h
    exact abs_wrap_le x _

/-- A quotient of finite values rounds once. -/
theorem rounds_divV (f : FmtF) (m e : Int) {n : Int} (g : Int) (hn : n ≠ 0) :
    Rounds f ((m : ℝ) * 3 ^ e / ((n : ℝ) * 3 ^ g)) (divV f (.fin m e) (.fin n g)) := by
  have habs : (n.natAbs : Int) = n * sgn n := by
    rw [sgn]
    split_ifs <;> omega
  have hsgn : (sgn n : ℝ) ≠ 0 := by
    rw [sgn, if_neg hn]
    split <;> norm_num
  have hval : (m : ℝ) * 3 ^ e / ((n : ℝ) * 3 ^ g) = ((m * sgn n : Int) : ℝ) / ((n.natAbs : Int) : ℝ) * 3 ^ (e - g) := by
    rw [habs, Int.cast_mul, Int.cast_mul, mul_div_mul_right _ _ hsgn, zpow_sub₀ (by norm_num), mul_div_mul_comm]
  rw [hval, divV, if_neg hn]
  exact rounds_roundQ f _ (by omega) _

theorem rounds_roundF (f : FmtF) (m e : Int) : Rounds f ((m : ℝ) * 3 ^ e) (roundF f (.fin m e)) := by
  have h := rounds_roundQ f m one_pos e
  rwa [Int.cast_one, div_one] at h

/-- A sum of finite values is exact (R201). -/
theorem rounds_addV (f : FmtF) (m e n g : Int) :
    Rounds f ((m : ℝ) * 3 ^ e + (n : ℝ) * 3 ^ g) (roundF f (addV (.fin m e) (.fin n g))) := by
  have hscale {i l : Int} (h : l ≤ i) : (3 : ℝ) ^ i = pow3 (i - l).toNat * 3 ^ l := by
    rw [pow3_toNat_cast (by omega), ← zpow_add₀ (by norm_num), sub_add_cancel]
  have hsum : (m : ℝ) * 3 ^ e + (n : ℝ) * 3 ^ g =
      ((m * pow3 (e - min e g).toNat + n * pow3 (g - min e g).toNat : Int) : ℝ) * 3 ^ min e g := by
    rw [hscale (min_le_left e g), hscale (min_le_right e g)]
    push_cast
    ring
  rw [hsum]
  exact rounds_roundF f _ _

/-- A product of finite values is exact (R201). -/
theorem rounds_mulV (f : FmtF) (m e n g : Int) :
    Rounds f ((m : ℝ) * 3 ^ e * ((n : ℝ) * 3 ^ g)) (roundF f (mulV (.fin m e) (.fin n g))) := by
  have hprod : (m : ℝ) * 3 ^ e * ((n : ℝ) * 3 ^ g) = ((m * n : Int) : ℝ) * 3 ^ (e + g) := by
    rw [zpow_add₀ (by norm_num), Int.cast_mul, mul_mul_mul_comm]
  rw [hprod]
  exact rounds_roundF f _ _

/-- The operands of the format leave a root enough places of the model's grid. -/
def Fine (f : FmtF) : Prop := 3 * f.p + 1 ≤ 600

theorem fine_f27 : Fine f27 := (by decide : 3 * 21 + 1 ≤ 600)

theorem fine_f9 : Fine f9 := (by decide : 3 * 5 + 1 ≤ 600)

theorem Fine.pow3_mul_le {f : FmtF} (hf : Fine f) {q : Int} (hq : |q| ≤ half (f.p + 1)) : pow3 (2 * f.p) * q ≤ pow3 600 := by
  have hodd := pow3_eq_two_mul_half_add_one (f.p + 1)
  have hnonneg := half_nonneg (f.p + 1)
  have hle : q ≤ pow3 (f.p + 1) := by
    have hself := le_abs_self q
    omega
  obtain ⟨k, hk⟩ := Nat.le.dest hf
  calc pow3 (2 * f.p) * q ≤ pow3 (2 * f.p) * pow3 (f.p + 1) := mul_le_mul_of_nonneg_left hle (pow3_pos _).le
    _ = pow3 (3 * f.p + 1) := by rw [← pow3_add]; congr 1; omega
    _ ≤ pow3 (3 * f.p + 1) * pow3 k := le_mul_of_one_le_right (pow3_pos _).le (pow3_pos k)
    _ = pow3 600 := by rw [← pow3_add, hk]

theorem rounds_sqrtV {f : FmtF} (hf : Fine f) {m : Int} (e : Int) (hm : 0 ≤ m) (hbound : |m| ≤ half (f.p + 1)) :
    Rounds f (√((m : ℝ) * 3 ^ e)) (sqrtV f (.fin m e)) := by
  rcases hm.eq_or_lt with rfl | hpos
  · rw [Int.cast_zero, zero_mul, Real.sqrt_zero]
    exact .zero f
  · have hone : |(1 : Int)| ≤ half (f.p + 1) := by
      rw [abs_one]
      exact (Int.one_le_abs hpos.ne').trans hbound
    have hroot := rounds_sqrtQ f hpos one_pos e (hf.pow3_mul_le hone)
    rw [Int.cast_one, div_one] at hroot
    rwa [sqrtV, if_neg hm.not_gt, if_neg hpos.ne']

theorem rounds_rsqV {f : FmtF} (hf : Fine f) {m : Int} (e : Int) (hm : 0 < m) (hbound : |m| ≤ half (f.p + 1)) :
    Rounds f (1 / √((m : ℝ) * 3 ^ e)) (rsqV f (.fin m e)) := by
  have hroot := rounds_sqrtQ f one_pos hm (-e) (hf.pow3_mul_le hbound)
  have hval : ((1 : Int) : ℝ) / m * 3 ^ (-e) = ((m : ℝ) * 3 ^ e)⁻¹ := by
    rw [Int.cast_one, one_div, zpow_neg, mul_inv]
  rw [hval, Real.sqrt_inv, ← one_div] at hroot
  rwa [rsqV, if_neg hm.not_gt, if_neg hm.ne']

/-- Settles O11: quotients, sums and products are rationals, which `roundQ` rounds; a root is rational too, or lies inside a cell. -/
theorem floatRounding : Obligations.FloatRounding := by
  intro f hmem x y m e n g hx hy
  have hf : Fine f := by
    rcases List.mem_pair.mp hmem with rfl | rfl
    · exact fine_f27
    · exact fine_f9
  have hbound := abs_le_of_valF_eq_fin hx
  rw [hx, hy]
  refine ⟨rounds_divV f m e g, fun hn => ?recip, fun hm => rounds_sqrtV hf e hm hbound, fun hm => rounds_rsqV hf e hm hbound,
    rounds_addV f m e n g, rounds_mulV f m e n g, fun hn => ?divZero, fun hm => ⟨?sqrtNeg, ?rsqNeg⟩, fun hm => ?rsqZero⟩
  case recip =>
    have hdiv := rounds_divV f 1 0 g hn
    rwa [Int.cast_one, zpow_zero, mul_one] at hdiv
  case divZero => rw [divV, if_pos hn]
  case sqrtNeg => rw [sqrtV, if_pos hm]
  case rsqNeg => rw [rsqV, if_pos hm]
  case rsqZero => rw [rsqV, if_neg (by omega), if_pos hm]

end Sys2Proof.Machine
end

