-- ==== Sys2Proof/Proofs/UnitEnds.lean ====
section
/-! The end of a unit that leaves its warp at rest: STEP raises nothing, no trap is delivered, no meeting is due and the warp stays
(R67, R269, R401, R402). -/

namespace Sys2Proof.Machine

/-- Once a unit of a plain group has left its warp not stopping, its lanes active and the states and meetings of the other threads as they
were, no more happens. -/
theorem Plain.unitEnd_eq {s b : State} (hp : Plain s) (hgoing : (b.warp s.cur.warp).stopping = false)
    (hstep : trit (b.ctx (b.warp s.cur.warp).ctx).dbg 0 ≠ 1 ∨ (b.warp s.cur.warp).hm = true)
    (hlanes : ∀ l ∈ s.cur.lanes, (b.thread (s.lane l)).active ∧ (b.thread (s.lane l)).mr = (s.thread (s.lane l)).mr)
    (hothers : ∀ k, (∀ l ∈ s.cur.lanes, k ≠ s.lane l) → (b.thread k).st = (s.thread k).st ∧ (b.thread k).mr = (s.thread k).mr) :
    s.unitEnd b = b := by
  have hnone : b.meetsNow s.cur.warp = false := by
    rw [← hp.nomeet]
    refine State.meetsNow_congr fun k _ => ?_
    by_cases hk : ∃ l ∈ s.cur.lanes, k = s.lane l
    · obtain ⟨l, hl, rfl⟩ := hk
      obtain ⟨hactive, hmr⟩ := hlanes l hl
      refine ⟨hmr, ?_⟩
      rcases hp.live l hl with hst | hst <;> rw [← State.lane_def] at hst <;>
        rcases hactive with hst' | hst' <;> rw [hst, hst'] <;> decide
    · obtain ⟨hst, hmr⟩ := hothers k fun l hl hkl => hk ⟨l, hl, hkl⟩
      rw [hst, hmr]
      exact ⟨rfl, Iff.rfl, Iff.rfl⟩
  obtain ⟨l, ls, hls⟩ := List.exists_cons_of_ne_nil hp.some_
  have hl : l ∈ s.cur.lanes := by simp [hls]
  rw [State.unitEnd, State.stepTrap_eq hstep]
  refine State.settle_eq (t := s.lane l) hgoing hnone (mem_threadsOf.mpr ⟨l, hp.lane l hl, rfl⟩) ?_
  rcases (hlanes l hl).1 with hst | hst <;> rw [hst] <;> decide

/-- What the end of a unit looks at is in `g` as it is in `a`. -/
structure Rests (a g : State) : Prop where
  cur : g.cur = a.cur
  warp : ∀ v, (g.warp v).stopping = (a.warp v).stopping ∧ (g.warp v).hm = (a.warp v).hm ∧ (g.warp v).ctx = (a.warp v).ctx
  dbg : ∀ c, (g.ctx c).dbg = (a.ctx c).dbg
  thread : ∀ k, (g.thread k).st = (a.thread k).st ∧ (g.thread k).mr = (a.thread k).mr

theorem Rests.refl (a : State) : Rests a a := ⟨rfl, fun _ => ⟨rfl, rfl, rfl⟩, fun _ => rfl, fun _ => ⟨rfl, rfl⟩⟩
theorem Rests.trans {a b c : State} (h : Rests a b) (h' : Rests b c) : Rests a c := by
  refine ⟨h'.cur.trans h.cur, fun v => ?_, fun k => (h'.dbg k).trans (h.dbg k), fun k => ?_⟩
  · obtain ⟨hstopping, hhm, hctx⟩ := h.warp v
    obtain ⟨hstopping', hhm', hctx'⟩ := h'.warp v
    exact ⟨hstopping'.trans hstopping, hhm'.trans hhm, hctx'.trans hctx⟩
  · obtain ⟨hst, hmr⟩ := h.thread k
    obtain ⟨hst', hmr'⟩ := h'.thread k
    exact ⟨hst'.trans hst, hmr'.trans hmr⟩

theorem Start.warp {s a : State} {h : Hdr} (ha : Start s a h) (v : Nat) : a.warp v = s.warp v := by rw [ha.rest]; rfl
theorem Start.ctx {s a : State} {h : Hdr} (ha : Start s a h) (c : Nat) : a.ctx c = s.ctx c := by rw [ha.rest]; rfl

/-- What an active lane does that retires or begins a wait: it stays active, and its meeting register stands. -/
def Keeps (d : Nat → Thread → Thread) : Prop := ∀ l x, x.active → (d l x).active ∧ (d l x).mr = x.mr

/-- A unit whose effect leaves its warp at rest, and whose lanes retire or wait, ends with that. -/
theorem Start.unitEnd_done {s g b : State} {h : Hdr} {d : Nat → Thread → Thread} (hp : Plain s) (ha : Start s (s.opened h) h)
    (hg : Rests (s.opened h) g) (hkeeps : Keeps d) (hb : Done b (s.active h) d g) : s.unitEnd b = b := by
  have hlane : ∀ l, g.lane l = s.lane l := fun l => by rw [State.lane, hg.cur, ← State.lane, ha.lane]
  have hwarp : ∀ v, b.warp v = g.warp v := fun v => by rw [hb.rest]; rfl
  have hctx : ∀ c, b.ctx c = g.ctx c := fun c => by rw [hb.rest]; rfl
  obtain ⟨hstopping, hhm, hwctx⟩ := hg.warp s.cur.warp
  refine hp.unitEnd_eq ?going ?step (fun l hl => ?lanes) (fun k hk => ?others)
  case going => rw [hwarp, hstopping, ha.warp]; exact hp.going
  case step => rw [hctx, hwarp, hg.dbg, hwctx, hhm, ha.ctx, ha.warp]; exact hp.nostep
  case lanes =>
    obtain ⟨hst, hmr⟩ := hg.thread (s.lane l)
    by_cases hon : s.laneOn h (s.lane l) = true
    · have hl' : l ∈ s.active h := List.mem_filter.mpr ⟨hl, hon⟩
      have hactive : (g.thread (s.lane l)).active := by
        rw [Thread.active, hst]
        exact ha.live hp hl'
      obtain ⟨hactive', hmr'⟩ := hkeeps l _ hactive
      rw [← hlane, hb.on l hl', hlane]
      exact ⟨hactive', by rw [hmr', hmr, ha.on l hl hon]; rfl⟩
    · have hout : ∀ j ∈ s.active h, s.lane l ≠ g.lane j := fun j hj heq => by
        rw [hlane] at heq
        exact hon (threadOf_inj heq ▸ (State.mem_active hj).2)
      rw [Thread.active, hb.others _ hout, hst, hmr, ha.off l hl (by simpa using hon)]
      exact ⟨.inl rfl, rfl⟩
  case others =>
    have hout : ∀ j ∈ s.active h, k ≠ g.lane j := fun j hj => by rw [hlane]; exact hk j (State.mem_active hj).1
    obtain ⟨hst, hmr⟩ := hg.thread k
    rw [hb.others k hout, hst, hmr, ha.others k hk]
    exact ⟨rfl, rfl⟩

/-- An instruction that acts once for its group, by what its body leaves in a plain group: its effect leaves the warp at rest, and its
lanes retire or wait. -/
theorem Acts.of_rests {i : Instr} {h : Hdr} {u : Uses} {P : State → List Nat → Prop} {d : State → Nat → Thread → Thread}
    {G : State → List Nat → State} {body : List Nat → State → State} (hexec : ∀ s, exec i s = .next (s.issue h u body))
    (hkeeps : ∀ a, Keeps (d a))
    (hbody : ∀ s, Plain s → Start s (s.opened h) h → P (s.opened h) (s.active h) → Rests (s.opened h) (G (s.opened h) (s.active h)) ∧
      Done (body (s.active h) (s.opened h)) (s.active h) (d (s.opened h)) (G (s.opened h) (s.active h))) : Acts i h u P d G := by
  intro s _ hp hl hP
  have ha := hp.start_opened h
  obtain ⟨b, hb, hrun⟩ := ActsEnd.of hexec (fun s hp ha _ hP => (hbody s hp ha hP).2) s hp hl hP
  have hend : s.unitEnd b = b := by
    by_cases hn : s.active h = []
    · rw [if_pos hn] at hb
      subst hb
      refine ha.unitEnd_done hp (.refl _) (hkeeps s) (d := d s) ⟨rfl, ?_, fun _ _ => rfl⟩
      rw [hn]
      exact fun _ hl => nomatch hl
    · rw [if_neg hn] at hb
      exact ha.unitEnd_done hp (hbody s hp ha (hP hn)).1 (hkeeps _) hb
  exact ⟨b, hrun.trans (congrArg Host.Outcome.next hend), hb⟩

theorem ret_keeps (a : State) : Keeps (ret a) := fun _ _ _ => ⟨.inl rfl, rfl⟩
theorem wait_keeps (k : State → Wait) (a : State) : Keeps (wait k a) := fun _ _ _ => ⟨.inr rfl, rfl⟩

/-- The same when nothing but the group's warp, its core and the requests in flight have changed, and no thread. -/
theorem Rests.of_thr {a g : State} (hcur : g.cur = a.cur) (hthr : g.thr = a.thr) (hctxs : g.ctxs = a.ctxs)
    (hwarp : ∀ v, (g.warp v).stopping = (a.warp v).stopping ∧ (g.warp v).hm = (a.warp v).hm ∧ (g.warp v).ctx = (a.warp v).ctx) : Rests a g :=
  ⟨hcur, hwarp, fun c => by rw [State.ctx, hctxs]; rfl, fun k => by rw [State.thread, hthr]; exact ⟨rfl, rfl⟩⟩

end Sys2Proof.Machine
end

