-- ==== Sys2Proof/Proofs/RetiringForms.lean ====
section
/-! Forms that only retire, or that touch the core's own caches and fetch (R164, R225, R227, R273, R274, R279-R281, R303). -/

namespace Sys2Proof.Machine

/-! Warps whose own entry changes. -/

/-- A warp's entry rewritten with the same level, context and delivery leaves the warp at rest. -/
theorem State.setWarp_rests (a : State) {w : Nat} {x : Warp} (hstopping : x.stopping = (a.warp w).stopping) (hhm : x.hm = (a.warp w).hm)
    (hctx : x.ctx = (a.warp w).ctx) : Rests a (a.setWarp w x) :=
  .of_thr rfl rfl rfl fun v => by
    rw [State.warp_setWarp]
    split
    · next hv => subst hv; exact ⟨hstopping, hhm, hctx⟩
    · exact ⟨rfl, rfl, rfl⟩

/-- YLD (R273). -/
theorem acts_yld (h : Hdr) : Acts (.yld h) h {} always ret (fun a _ =>
    a.setWarp a.cur.warp { a.warp a.cur.warp with yld := some (a.stamp, a.now (coreOf a.cur.warp) + 27) }) :=
  .of_rests (fun _ => rfl) ret_keeps fun _ hp ha _ => ⟨State.setWarp_rests _ rfl rfl rfl, ha.retireAll hp ha.cur rfl⟩

/-! ICPF (R279). -/

theorem lineOf_mul (l : Int) : lineOf (81 * l) = l := by
  have hhalf : half 4 = 40 := by decide
  have hpow : pow3 4 = 81 := by decide
  rw [lineOf, shr, hhalf, hpow]
  omega

/-- A warp's request for a line of code ahead (R279). -/
def State.aheadReq (a : State) (w : Nat) (l : Int) : Req where
  id := 0
  kind := .icpf l
  ctx := (a.warp w).ctx
  core := coreOf w
  warp := w
  lane := 16
  pc := a.cur.first
  ea := 81 * l
  own := ownerOf (81 * l)

/-- Whether ICPF asks for a line: the cache lacks it, no fill of it is under way, and an owner has it (R279). -/
def State.asksAhead (a : State) (w : Nat) (l : Int) : Bool :=
  (a.icLine (coreOf w) l).isNone && !a.fillUnderWay (coreOf w) l && decide (spaceOf (81 * l) = 1) && a.ownerOk (81 * l)

/-- What ICPF does for one line. -/
def State.aheadLine (w : Nat) (a : State) (l : Int) : State := if a.asksAhead w l = true then a.addReq (a.aheadReq w l) else a

theorem State.aheadLine_eq (w : Nat) (a : State) (l : Int) : a.aheadLine w l =
    if (a.icLine (coreOf w) l).isSome ∨ a.fillUnderWay (coreOf w) l ∨ spaceOf (81 * l) ≠ 1 ∨ !a.ownerOk (81 * l) then a
    else a.addReq (a.aheadReq w l) := by
  have hasks : a.asksAhead w l = true ↔
      ¬((a.icLine (coreOf w) l).isSome ∨ a.fillUnderWay (coreOf w) l ∨ spaceOf (81 * l) ≠ 1 ∨ !a.ownerOk (81 * l)) := by
    simp [State.asksAhead, not_or, and_assoc]
  rw [State.aheadLine, if_congr hasks rfl rfl, ite_not]

theorem exec_icpf (h : Hdr) (cnt : Nat) (imm : Int) (s : State) : exec (.icpf h cnt imm) s = .next (s.issue h {} (fun act a =>
    ((List.range (cnt + 1)).foldl (fun x (i : Nat) => x.aheadLine a.cur.warp (codeLine (a.cur.n + imm) + i)) a).retireAll act)) := by
  simp only [State.aheadLine_eq]
  rfl

/-- A request for one line is no fill of another. -/
theorem State.asksAhead_addReq {w : Nat} {l j : Int} (hne : l ≠ j) (a : State) : (a.addReq (a.aheadReq w l)).asksAhead w j = a.asksAhead w j := by
  have hfill : (a.addReq (a.aheadReq w l)).fillUnderWay (coreOf w) j = a.fillUnderWay (coreOf w) j := by
    simp [State.fillUnderWay, State.addReq, State.aheadReq, lineOf_mul, hne]
  exact congrArg (fun f => (a.icLine (coreOf w) j).isNone && !f && decide (spaceOf (81 * j) = 1) && a.ownerOk (81 * j)) hfill

/-- Of lines that are asked for one after the other, those leave a request that were lacking before. -/
theorem State.foldl_aheadLine (w : Nat) (l : Int) {is : List Nat} (hnodup : is.Nodup) (a : State) :
    is.foldl (fun x (i : Nat) => x.aheadLine w (l + i)) a =
      (is.filter (fun (i : Nat) => a.asksAhead w (l + i))).foldl (fun x (i : Nat) => x.addReq (a.aheadReq w (l + i))) a := by
  induction is generalizing a with
  | nil => rfl
  | cons i is ih =>
    obtain ⟨hi, hnodup⟩ := List.nodup_cons.mp hnodup
    rw [List.foldl_cons, ih hnodup, List.filter_cons]
    by_cases hasks : a.asksAhead w (l + i) = true
    · have hsame : is.filter (fun (j : Nat) => (a.addReq (a.aheadReq w (l + i))).asksAhead w (l + j)) =
          is.filter (fun (j : Nat) => a.asksAhead w (l + j)) :=
        List.filter_congr fun j hj => State.asksAhead_addReq (fun heq => hi (by
          obtain rfl : i = j := by omega
          exact hj)) a
      rw [State.aheadLine, if_pos hasks, if_pos hasks, hsame]
      rfl
    · rw [State.aheadLine, if_neg hasks, if_neg hasks]

/-- Requests that leave change nothing but the list of those in flight and the next number. -/
theorem State.foldl_addReq_rest {α : Type} (r : α → Req) (is : List α) (a : State) :
    is.foldl (fun x i => x.addReq (r i)) a = { a with reqs := (is.foldl (fun x i => x.addReq (r i)) a).reqs
                                                      nextId := (is.foldl (fun x i => x.addReq (r i)) a).nextId } := by
  induction is generalizing a with
  | nil => rfl
  | cons i is ih => rw [List.foldl_cons, ih]; rfl

/-- The state once ICPF has asked for the lines that are lacking. -/
def State.askedAhead (a : State) (l : Int) (cnt : Nat) : State :=
  ((List.range (cnt + 1)).filter (fun (i : Nat) => a.asksAhead a.cur.warp (l + i))).foldl
    (fun x (i : Nat) => x.addReq (a.aheadReq a.cur.warp (l + i))) a

theorem State.askedAhead_rest (a : State) (l : Int) (cnt : Nat) :
    a.askedAhead l cnt = { a with reqs := (a.askedAhead l cnt).reqs, nextId := (a.askedAhead l cnt).nextId } :=
  State.foldl_addReq_rest ..

theorem State.askedAhead_cur (a : State) (l : Int) (cnt : Nat) : (a.askedAhead l cnt).cur = a.cur := by rw [a.askedAhead_rest]
theorem State.askedAhead_thr (a : State) (l : Int) (cnt : Nat) : (a.askedAhead l cnt).thr = a.thr := by rw [a.askedAhead_rest]

theorem State.askedAhead_rests (a : State) (l : Int) (cnt : Nat) : Rests a (a.askedAhead l cnt) := by
  rw [a.askedAhead_rest]
  exact .of_thr rfl rfl rfl fun _ => ⟨rfl, rfl, rfl⟩

/-- ICPF (R279). -/
theorem acts_icpf (h : Hdr) (cnt : Nat) (imm : Int) :
    Acts (.icpf h cnt imm) h {} always ret (fun a _ => a.askedAhead (shr (a.cur.n + imm) 2) cnt) :=
  .of_rests (exec_icpf h cnt imm) ret_keeps fun s hp ha _ => ⟨State.askedAhead_rests .., by
    rw [State.foldl_aheadLine _ _ List.nodup_range]
    exact ha.retireAll hp ((State.askedAhead_cur ..).trans ha.cur) (State.askedAhead_thr ..)⟩

/-! IFENCE (R281). -/

/-- A warp that fetches its next unit anew. -/
def State.refetches (a : State) : State := a.setWarp a.cur.warp { a.warp a.cur.warp with fetch := none }

theorem State.refetches_rests (a : State) : Rests a a.refetches := State.setWarp_rests _ rfl rfl rfl

theorem acts_ifence_done (h : Hdr) :
    Acts (.ifence h) h { forbid := true } (fun a _ => a.loadsDone a.cur.warp = true) ret (fun a _ => a.refetches) :=
  .of_rests (fun _ => rfl) ret_keeps fun s hp ha hdone => ⟨State.refetches_rests _, by
    rw [if_pos hdone]
    exact ha.retireAll hp ha.cur rfl⟩

/-- A warp's entry may be rewritten after its lanes have acted as before. -/
theorem Done.setWarp {b g : State} {act : List Nat} {d : Nat → Thread → Thread} (hb : Done b act d g) (w : Nat) (x : Warp) :
    Done (b.setWarp w x) act d (g.setWarp w x) :=
  ⟨by rw [hb.rest]; rfl, hb.on, hb.others⟩

/-- The active lanes begin to wait in a fence, which keeps the guards that are in force (R123). -/
theorem Start.fenceWait {s g : State} {h : Hdr} (hp : Plain s) (ha : Start s (s.opened h) h) (hcur : g.cur = s.cur)
    (hthr : g.thr = (s.opened h).thr) (sc : Scope) (rel ends : Bool) (ph : Nat) :
    Done (g.fenceWait (s.active h) sc rel ends ph) (s.active h) (fun _ x => x.waits (.fence sc rel ends ph)) g.keepsGuards := by
  have hwait := ha.waitAll (k := .fence sc rel ends ph) hp hcur hthr
  have hwarp : (g.waitAll (s.active h) (.fence sc rel ends ph)).warp g.cur.warp = g.warp g.cur.warp := by rw [hwait.rest]; rfl
  simp only [State.fenceWait, hwarp]
  exact hwait.setWarp ..

theorem acts_ifence_waits (h : Hdr) : Acts (.ifence h) h { forbid := true } (fun a _ => a.loadsDone a.cur.warp = false)
    (wait (fun _ => .fence .dflt false true 0)) (fun a _ => a.refetches.keepsGuards) :=
  .of_rests (fun _ => rfl) (wait_keeps _) fun s hp ha hbusy => ⟨(State.refetches_rests _).trans (State.setWarp_rests _ rfl rfl rfl), by
    rw [if_neg (by simp [hbusy])]
    exact ha.fenceWait (g := (s.opened h).refetches) hp ha.cur rfl ..⟩

/-! ICINV (R280). -/

theorem acts_icinv (h : Hdr) (imm : Int) : Acts (.icinv h imm) h { forbid := true } always ret (fun a _ =>
    let c := coreOf a.cur.warp
    let line := shr (a.cur.n + imm) 2
    (a.setCore c { a.core c with ic := Tab.del (ikey line) (a.core c).ic }).dropCode c (fun l => decide (l = line))) :=
  .of_rests (fun _ => rfl) ret_keeps fun _ hp ha _ => ⟨.of_thr rfl rfl rfl fun _ => ⟨rfl, rfl, rfl⟩, ha.retireAll hp ha.cur rfl⟩

theorem acts_icinvAll (h : Hdr) : Acts (.icinvAll h) h { forbid := true } always ret (fun a _ =>
    (a.setCore (coreOf a.cur.warp) { a.core (coreOf a.cur.warp) with ic := [] }).dropCode (coreOf a.cur.warp) (fun _ => true)) :=
  .of_rests (fun _ => rfl) ret_keeps fun _ hp ha _ => ⟨.of_thr rfl rfl rfl fun _ => ⟨rfl, rfl, rfl⟩, ha.retireAll hp ha.cur rfl⟩

/-! Forms that change nothing else (R274, R303), and INV.all (R227). -/

theorem acts_nop (h : Hdr) : Acts (.nop h) { h with gcond := 0 } {} always ret (fun a _ => a) :=
  .of_rests (body := fun act a => a.retireAll act) (fun _ => rfl) ret_keeps fun _ hp ha _ => ⟨.refl _, ha.retireAll hp ha.cur rfl⟩

theorem acts_mrdy (h : Hdr) : Acts (.mrdy h) h { forbid := true } always ret (fun a _ => a) :=
  .of_rests (body := fun act a => a.retireAll act) (fun _ => rfl) ret_keeps fun _ hp ha _ => ⟨.refl _, ha.retireAll hp ha.cur rfl⟩

theorem acts_invAll (h : Hdr) : Acts (.invAll h) h {} always ret (fun a _ => a.l1CleanAll (coreOf a.cur.warp)) :=
  .of_rests (fun _ => rfl) ret_keeps fun _ hp ha _ => ⟨.of_thr rfl rfl rfl fun _ => ⟨rfl, rfl, rfl⟩, ha.retireAll hp ha.cur rfl⟩

/-! Hints (R164). -/

/-- All lanes of a plain group retire at once. -/
theorem Plain.started_retireAll {s : State} (hp : Plain s) :
    Done (s.started.retireAll s.cur.lanes) s.cur.lanes (fun _ x => x.retired s.cur.next) s.started := by
  have hlane : ∀ l, s.started.lane l = s.lane l := fun l => by rw [State.lane, hp.started_cur, State.lane]
  have hdone := State.retireAll_done (g := s.started) hp.nodup (by rw [hp.started_cur]; exact hp.wid) hp.lane
    (fun l hl => by rw [hlane, hp.started_thread_lane hl]; exact hp.atIssue_active hl)
  rwa [hp.started_cur] at hdone

theorem exec_hint {s : State} (hp : Plain s) (raw : Int) : exec (.hint raw) s = .next (s.unitEnd (s.started.retireAll s.cur.lanes)) := by
  rw [State.unitEnd, ← hp.started_cur]
  rfl

/-- A hint retires in every lane of its group and does no more (R164). -/
theorem hint_retires (raw : Int) {s : State} (hp : Plain s) : ∃ t, exec (.hint raw) s = .next t ∧
    (∀ l ∈ s.cur.lanes, t.thread (s.lane l) = (s.atIssue l).retired s.cur.next) ∧
    (∀ k, (∀ l ∈ s.cur.lanes, k ≠ s.lane l) → t.thread k = s.thread k) ∧ t = { s with thr := t.thr, stamp := s.stamp + 1 } := by
  have hdone := hp.started_retireAll
  have hlane : ∀ l, s.started.lane l = s.lane l := fun l => by rw [State.lane, hp.started_cur, State.lane]
  generalize ht : s.started.retireAll s.cur.lanes = t at hdone
  have hrest : t = { s with thr := t.thr, stamp := s.stamp + 1 } := by rw [hdone.rest, hp.started_rest]
  have hon : ∀ l ∈ s.cur.lanes, t.thread (s.lane l) = (s.atIssue l).retired s.cur.next := fun l hl => by
    rw [← hlane, hdone.on l hl, hlane, hp.started_thread_lane hl]
  have hothers : ∀ k, (∀ l ∈ s.cur.lanes, k ≠ s.lane l) → t.thread k = s.thread k := fun k hk => by
    rw [hdone.others k fun l hl => by rw [hlane]; exact hk l hl, hp.started_thread_other hk]
  have hend : s.unitEnd t = t := hp.unitEnd_eq (by rw [hrest]; exact hp.going) (by rw [hrest]; exact hp.nostep)
    (fun l hl => by rw [hon l hl]; exact ⟨.inl rfl, rfl⟩) (fun k hk => by rw [hothers k hk]; exact ⟨rfl, rfl⟩)
  exact ⟨t, by rw [exec_hint hp, ht, hend], hon, hothers, hrest⟩

/-- Settles O14: each form leaves its warp at rest, and its lanes retire or, where IFENCE has loads to await, wait. -/
theorem retiringForms : Obligations.RetiringForms :=
  ⟨⟨acts_yld, acts_nop, acts_mrdy, acts_invAll, acts_icpf, acts_ifence_done, acts_ifence_waits, acts_icinv, acts_icinvAll⟩,
    fun raw _ hp => hint_retires raw hp⟩

end Sys2Proof.Machine
end

