-- ==== Sys2Proof/Proofs/LaneSteps.lean ====
section
/-! Units that act lane by lane on the whole state and retire each lane (R219): where what a lane does takes no part in any thread, the lanes may
as well retire at the end. -/

namespace Sys2Proof.Machine

/-! Steps in which no thread takes part. -/

/-- A step that neither reads nor changes a thread. -/
def Threadless (F : State → State) : Prop := ∀ (x : State) (th : Tab Thread), F { x with thr := th } = { F x with thr := th }

section
variable {F G : State → State}

theorem Threadless.thr (hF : Threadless F) (x : State) : (F x).thr = x.thr := by
  have heq := congrArg State.thr (hF x x.thr)
  exact heq

theorem Threadless.refl : Threadless fun x => x := fun _ _ => rfl

theorem Threadless.ite {p : State → Prop} [∀ x, Decidable (p x)] (hp : ∀ (x : State) (th : Tab Thread), p { x with thr := th } ↔ p x)
    (hF : Threadless F) (hG : Threadless G) : Threadless fun x => if p x then F x else G x := fun x th => by
  by_cases hx : p x
  · simp only [if_pos ((hp x th).mpr hx), if_pos hx, hF x th]
  · simp only [if_neg (mt (hp x th).mp hx), if_neg hx, hG x th]

theorem Threadless.foldl {α : Type} {f : State → α → State} (hf : ∀ i, Threadless fun x => f x i) (is : List α) :
    Threadless fun x => is.foldl f x := fun x th => by
  induction is generalizing x with
  | nil => rfl
  | cons i is ih => exact (congrArg (is.foldl f) (hf i x th)).trans (ih (f x i))

/-- Such a step may come before or after a lane's retiring. -/
theorem Threadless.retire (hF : Threadless F) {t : Nat} (hwid : widOf (warpOf t) ≠ 27) (x : State) (pc : Int) :
    F (x.retire t pc) = (F x).retire t pc := by
  have hnot : ∀ y : Thread, ¬(widOf (warpOf t) = 27 ∧ (!y.inH) = true) := fun _ hc => hwid hc.1
  have hthread : (F x).thread t = x.thread t := by rw [State.thread, hF.thr, State.thread]
  simp only [State.retire, if_neg (hnot _), hthread, State.setThread, hF.thr]
  exact hF x _

theorem Threadless.retires (hF : Threadless F) {ts : List Nat} (hwid : ∀ t ∈ ts, widOf (warpOf t) ≠ 27) (x : State) (pc : Int) :
    F (ts.foldl (fun y t => y.retire t pc) x) = ts.foldl (fun y t => y.retire t pc) (F x) := by
  induction ts generalizing x with
  | nil => rfl
  | cons t ts ih =>
    rw [List.foldl_cons, ih (fun u hu => hwid u (List.mem_cons_of_mem t hu)), hF.retire (hwid t List.mem_cons_self), List.foldl_cons]

theorem Threadless.retireAll (hF : Threadless F) {x : State} (hcur : (F x).cur = x.cur) (hwid : widOf x.cur.warp ≠ 27) {act : List Nat}
    (hlane : ∀ l ∈ act, l < 16) : F (x.retireAll act) = (F x).retireAll act := by
  have hthreads : (F x).curThreads act = x.curThreads act := by rw [State.curThreads, hcur, State.curThreads]
  rw [State.retireAll, State.retireAll, hthreads, hcur]
  refine hF.retires (fun t ht => ?_) x x.cur.next
  obtain ⟨l, hl, rfl⟩ := List.mem_map.mp ht
  rwa [threadOf_warp (hlane l hl)]

end

/-- Lanes that retire one by one after such steps may retire at the end. -/
theorem foldl_step_retire {f : State → Nat × Nat → State} (hf : ∀ q, Threadless fun x => f x q) {qs : List (Nat × Nat)}
    (hwid : ∀ q ∈ qs, widOf (warpOf q.1) ≠ 27) (x : State) (pc : Int) :
    qs.foldl (fun y q => (f y q).retire q.1 pc) x = (qs.map (·.1)).foldl (fun y t => y.retire t pc) (qs.foldl f x) := by
  induction qs generalizing x with
  | nil => rfl
  | cons q qs ih =>
    rw [List.foldl_cons, ih (fun p hp => hwid p (List.mem_cons_of_mem q hp)),
      (Threadless.foldl hf qs).retire (hwid q List.mem_cons_self), List.map_cons, List.foldl_cons, List.foldl_cons]

/-! States that differ in no operand. -/

/-- A unit's operands, its group and the owners of memory are in `x` as they are in `a`. -/
structure Near (a x : State) : Prop where
  cur : x.cur = a.cur
  pkg : x.pkg = a.pkg
  mg : x.mg = a.mg
  die : x.die = a.die
  regs : ∀ t, (x.thread t).regs = (a.thread t).regs
  clid : ∀ c, (x.core c).clid = (a.core c).clid
  warps : ∀ v, x.warp v = { a.warp v with rtC := (x.warp v).rtC, rtD := (x.warp v).rtD, rtP := (x.warp v).rtP, rtN := (x.warp v).rtN
                                          out := (x.warp v).out }
  ctxs : ∀ c, x.ctx c = { a.ctx c with counters := (x.ctx c).counters }

/-- And no thread's state or meeting has changed either. -/
structure Stands (a x : State) : Prop extends Near a x where
  states : ∀ t, (x.thread t).st = (a.thread t).st ∧ (x.thread t).mr = (a.thread t).mr

section
variable {a b x : State}

theorem Near.refl (a : State) : Near a a := ⟨rfl, rfl, rfl, rfl, fun _ => rfl, fun _ => rfl, fun _ => rfl, fun _ => rfl⟩

theorem Near.trans (h : Near a b) (h' : Near b x) : Near a x :=
  ⟨h'.cur.trans h.cur, h'.pkg.trans h.pkg, h'.mg.trans h.mg, h'.die.trans h.die, fun t => (h'.regs t).trans (h.regs t),
    fun c => (h'.clid c).trans (h.clid c), fun v => by rw [h'.warps, h.warps], fun c => by rw [h'.ctxs, h.ctxs]⟩

theorem Near.reg (h : Near a x) (t r : Nat) : x.reg t r = a.reg t r := by
  have hbid : (x.warp (warpOf t)).bid = (a.warp (warpOf t)).bid := by rw [h.warps]
  have hctx : (x.warp (warpOf t)).ctx = (a.warp (warpOf t)).ctx := by rw [h.warps]
  have hlr : (x.ctx (a.warp (warpOf t)).ctx).lr = (a.ctx (a.warp (warpOf t)).ctx).lr := by rw [h.ctxs]
  simp only [State.reg, State.special, State.launchOf, h.regs, h.clid, h.pkg, hbid, hctx, hlr]

theorem Near.regPair (h : Near a x) (t r : Nat) : x.regPair t r = a.regPair t r := by simp only [State.regPair, h.reg]

theorem Near.eaOf (h : Near a x) (t : Nat) (m : MOp) (disp idx : Int) : eaOf x t m disp idx = eaOf a t m disp idx := by
  simp only [Sys2Proof.Machine.eaOf, h.regPair]

theorem Near.drafting (h : Near a x) (w l : Nat) : x.drafting w l = a.drafting w l := by
  have hdraft : (x.warp w).draft = (a.warp w).draft := by rw [h.warps]
  simp only [State.drafting, hdraft]

theorem Stands.refl (a : State) : Stands a a := ⟨.refl a, fun _ => ⟨rfl, rfl⟩⟩

theorem Stands.trans (h : Stands a b) (h' : Stands b x) : Stands a x := ⟨h.toNear.trans h'.toNear, fun t => by
  obtain ⟨hst, hmr⟩ := h.states t
  obtain ⟨hst', hmr'⟩ := h'.states t
  exact ⟨hst'.trans hst, hmr'.trans hmr⟩⟩

theorem Stands.rests (h : Stands a x) : Rests a x :=
  ⟨h.cur, fun v => by rw [h.warps]; exact ⟨rfl, rfl, rfl⟩, fun c => by rw [h.ctxs], h.states⟩

/-- Where cores and requests alone have changed, the cores keep their place. -/
theorem Stands.of_cores (hrest : x = { a with cor := x.cor, reqs := x.reqs, recs := x.recs, nextId := x.nextId })
    (hclid : ∀ c, (x.core c).clid = (a.core c).clid) : Stands a x := by
  have hthread : ∀ t, x.thread t = a.thread t := fun t => by rw [hrest]; rfl
  exact ⟨⟨by rw [hrest], by rw [hrest], by rw [hrest], by rw [hrest], fun t => by rw [hthread], hclid, fun v => by rw [hrest]; rfl,
    fun c => by rw [hrest]; rfl⟩, fun t => by rw [hthread]; exact ⟨rfl, rfl⟩⟩

theorem Stands.ite {p : Prop} [Decidable p] (hb : Stands a b) (hx : Stands a x) : Stands a (if p then b else x) := by
  split
  · exact hb
  · exact hx

end

theorem Stands.foldl {α : Type} {f : State → α → State} (hf : ∀ x i, Stands x (f x i)) (is : List α) (a : State) : Stands a (is.foldl f a) := by
  induction is generalizing a with
  | nil => exact .refl a
  | cons i is ih => exact (hf a i).trans (ih _)

theorem State.setCore_stands (a : State) (c : Nat) {k : CoreSt} (hk : k.clid = (a.core c).clid) : Stands a (a.setCore c k) :=
  .of_cores rfl fun e => by
    rw [State.core_setCore]
    split
    · next he => rw [he]; exact hk
    · rfl

theorem State.setWarp_stands (a : State) (w : Nat) (out : List Grp) : Stands a (a.setWarp w { a.warp w with out := out }) :=
  ⟨⟨rfl, rfl, rfl, rfl, fun _ => rfl, fun _ => rfl, fun v => by rw [State.warp_setWarp]; split <;> simp_all, fun _ => rfl⟩, fun _ => ⟨rfl, rfl⟩⟩

theorem State.count_stands (a : State) (ctx die n : Nat) (k : Int) : Stands a (a.count ctx die n k) :=
  ⟨⟨rfl, rfl, rfl, rfl, fun _ => rfl, fun _ => rfl, fun _ => rfl, fun c => by
    rw [State.count, State.ctx_setCtx]; split <;> simp_all⟩, fun _ => ⟨rfl, rfl⟩⟩

theorem State.addReq_stands (a : State) (r : Req) : Stands a (a.addReq r) := .of_cores rfl fun _ => rfl

/-- Words that a unit takes from its core's ports are no operand of another field. -/
theorem Popped.stands {s p : State} {w : Nat} {n : Nat → Nat} {ws : List Int} (h : Popped s p w n ws) : Stands s p := by
  have hthread : ∀ t, p.thread t = s.thread t := fun t => by rw [h.rest]; rfl
  exact ⟨⟨by rw [h.rest], by rw [h.rest], by rw [h.rest], by rw [h.rest], fun t => by rw [hthread], fun c => by rw [h.cores],
    fun v => by rw [h.warp_same], fun c => by rw [h.rest]; rfl⟩, fun t => by rw [hthread]; exact ⟨rfl, rfl⟩⟩

theorem State.readFields_stands (a : State) (ts fs : List Nat) : Stands a (a.readFields ts fs).1 := by
  obtain ⟨⟨ws, hpop, -⟩, -⟩ := State.readFields_spec ts fs a
  exact hpop.stands

/-- A lane that retires keeps its registers. -/
theorem State.retire_near (x : State) {t : Nat} (hwid : widOf (warpOf t) ≠ 27) (pc : Int) : Near x (x.retire t pc) := by
  have hnot : ¬(widOf (warpOf t) = 27 ∧ (!(x.thread t).inH) = true) := fun hc => hwid hc.1
  rw [State.retire]
  simp only [if_neg hnot]
  refine ⟨rfl, rfl, rfl, rfl, fun u => ?_, fun _ => rfl, fun _ => rfl, fun _ => rfl⟩
  rw [State.thread_setThread]
  split
  · next hu => rw [hu]
  · rfl

/-! The lanes of a unit. -/

/-- Steps that agree while an invariant holds lead to the same. -/
theorem foldl_eq_of_invariant {α β : Type} {f g : β → α → β} {inv : β → Prop} {is : List α} (hinv : ∀ y, ∀ i ∈ is, inv y → inv (g y i))
    (heq : ∀ y, ∀ i ∈ is, inv y → f y i = g y i) {x : β} (hx : inv x) : is.foldl f x = is.foldl g x := by
  induction is generalizing x with
  | nil => rfl
  | cons i is ih =>
    rw [List.foldl_cons, List.foldl_cons, heq x i List.mem_cons_self hx]
    exact ih (fun y j hj => hinv y j (List.mem_cons_of_mem i hj)) (fun y j hj => heq y j (List.mem_cons_of_mem i hj))
      (hinv x i List.mem_cons_self hx)

section
variable {a x : State} {u : Uses} {act : List Nat} {k k' : State → Nat → List Int → State}

/-- Lanes outside a draft are not rolled back, so that each does its part. -/
theorem State.eachLane_eq (hx : Near a x) (hlane : ∀ l ∈ act, l < 16) (hout : ∀ l ∈ act, a.drafting a.cur.warp l = false) :
    x.eachLane u act k = (x.curThreads act).zipIdx.foldl (fun y q => k y q.1 (fieldVal (x.readFields (x.curThreads act) u.src).2 q.2))
      (x.readFields (x.curThreads act) u.src).1 := by
  rw [State.eachLane]
  refine List.foldl_ext _ _ _ fun y q hq => if_neg ?_
  obtain ⟨l, hl, hlq⟩ := List.mem_map.mp (List.fst_mem_of_mem_zipIdx hq)
  rw [State.rolled, ← hlq, threadOf_warp (hlane l hl), threadOf_lane (hlane l hl), hx.cur, hx.drafting, hout l hl]
  exact Bool.false_ne_true

theorem State.eachLane_stands (hx : Near a x) (hlane : ∀ l ∈ act, l < 16) (hout : ∀ l ∈ act, a.drafting a.cur.warp l = false)
    (hk' : ∀ y t v, Stands y (k' y t v)) : Stands x (x.eachLane u act k') := by
  rw [State.eachLane_eq hx hlane hout]
  exact (State.readFields_stands ..).trans (.foldl (fun y _ => hk' y _ _) _ _)

/-- Lanes that do their part and retire: their parts are done, and all of them have retired. -/
theorem State.eachLane_retireAll (hx : Near a x) (hwid : widOf a.cur.warp ≠ 27) (hlane : ∀ l ∈ act, l < 16)
    (hout : ∀ l ∈ act, a.drafting a.cur.warp l = false) (hthr : ∀ t v, Threadless fun y => k' y t v) (hstands : ∀ y t v, Stands y (k' y t v))
    (hk : ∀ y t v, warpOf t = a.cur.warp → Near a y → k y t v = (k' y t v).retire t y.cur.next) :
    x.eachLane u act k = (x.eachLane u act k').retireAll act := by
  have hcur : (x.eachLane u act k').cur = x.cur := (State.eachLane_stands hx hlane hout hstands).cur
  have hthreads : (x.eachLane u act k').curThreads act = x.curThreads act := by rw [State.curThreads, hcur, State.curThreads]
  have hwarp : ∀ q ∈ (x.curThreads act).zipIdx, warpOf q.1 = a.cur.warp := fun q hq => by
    obtain ⟨l, hl, hlq⟩ := List.mem_map.mp (List.fst_mem_of_mem_zipIdx hq)
    rw [← hlq, threadOf_warp (hlane l hl), hx.cur]
  have hwids : ∀ q ∈ (x.curThreads act).zipIdx, widOf (warpOf q.1) ≠ 27 := fun q hq => by rwa [hwarp q hq]
  have hpart : ∀ y (q : Nat × Nat), q ∈ (x.curThreads act).zipIdx → Near a y → ∀ v, k y q.1 v = (k' y q.1 v).retire q.1 x.cur.next :=
    fun y q hq hy v => by rw [hk y q.1 v (hwarp q hq) hy, hy.cur, hx.cur]
  rw [State.retireAll, hthreads, hcur, State.eachLane_eq hx hlane hout, State.eachLane_eq hx hlane hout]
  have hread := hx.trans (x.readFields_stands (x.curThreads act) u.src).toNear
  generalize x.readFields (x.curThreads act) u.src = p at hread
  calc
    _ = (x.curThreads act).zipIdx.foldl (fun y q => (k' y q.1 (fieldVal p.2 q.2)).retire q.1 x.cur.next) p.1 :=
      foldl_eq_of_invariant (inv := Near a)
        (fun y q hq hy => hy.trans ((hstands y _ _).toNear.trans (State.retire_near _ (hwids q hq) _)))
        (fun y q hq hy => hpart y q hq hy _) hread
    _ = _ := foldl_step_retire (fun q => hthr q.1 (fieldVal p.2 q.2)) hwids p.1 x.cur.next
    _ = _ := by rw [List.zipIdx_map_fst]

end

/-- An instruction that acts once for its group and whose lanes then retire, by what its body leaves in a plain group. -/
theorem Acts.retires_of_stands {i : Instr} {h : Hdr} {u : Uses} {P : State → List Nat → Prop} {G : State → List Nat → State}
    {body : List Nat → State → State} (hexec : ∀ s, exec i s = .next (s.issue h u body))
    (hbody : ∀ s, Plain s → Start s (s.opened h) h → P (s.opened h) (s.active h) → Stands (s.opened h) (G (s.opened h) (s.active h)) ∧
      body (s.active h) (s.opened h) = (G (s.opened h) (s.active h)).retireAll (s.active h)) : Acts i h u P ret G := by
  refine .of_rests hexec ret_keeps fun s hp ha hP => ?_
  obtain ⟨hstands, heq⟩ := hbody s hp ha hP
  have hcur := hstands.cur.trans ha.cur
  have hdone := State.retireAll_done (active_nodup (h := h) hp) (by rw [hcur]; exact hp.wid) (fun l hl => hp.lane l (State.mem_active hl).1)
    (fun l hl => by
      rw [Thread.active, (hstands.states _).1, State.lane, hcur]
      exact ha.live hp hl)
  rw [heq]
  rw [hstands.cur] at hdone
  exact ⟨hstands.rests, hdone⟩

theorem Plain.active_lt {s : State} (hp : Plain s) (h : Hdr) : ∀ l ∈ s.active h, l < 16 := fun l hl => hp.lane l (State.mem_active hl).1

theorem Start.not_scribe {s a : State} {h : Hdr} (ha : Start s a h) (hp : Plain s) : widOf a.cur.warp ≠ 27 := by
  rw [ha.cur]
  exact hp.wid

theorem Start.not_drafting {s a : State} {h : Hdr} (ha : Start s a h) (hp : Plain s) : ∀ l ∈ s.active h, a.drafting a.cur.warp l = false :=
  fun l hl => by
    have hsame : a.drafting a.cur.warp l = s.drafting s.cur.warp l := by rw [ha.rest]; rfl
    rw [hsame]
    exact hp.undrafted l (State.mem_active hl).1

end Sys2Proof.Machine
end

