-- ==== Sys2Proof/Proofs/LineForms.lean ====
section
/-! Forms that act on single lines (R225-R227): PREF, INV, WB and WB.all. -/

namespace Sys2Proof.Machine

/-! What happens to a line takes part in no thread and in no operand. -/

theorem State.setL1_stands (a : State) (c : Nat) (l : Int) (x : L1Line) : Stands a (a.setL1 c l x) := State.setCore_stands _ _ rfl

theorem threadless_wbLine (c w : Nat) (l : Int) (by_ gid : Nat) (lanes : List Nat) (pc : Int) :
    Threadless fun x => x.wbLine c w l by_ gid lanes pc :=
  .ite (fun _ _ => Iff.rfl) (fun _ _ => rfl) (fun _ _ => rfl)

theorem State.wbLine_stands (a : State) (c w : Nat) (l : Int) (by_ gid : Nat) (lanes : List Nat) (pc : Int) :
    Stands a (a.wbLine c w l by_ gid lanes pc) :=
  .ite (.refl a) ((a.setL1_stands c l _).trans ((Stands.of_cores rfl fun _ => rfl : Stands _ (State.dropFills _ c l)).trans (State.addReq_stands _ _)))

theorem threadless_l1Room (c w : Nat) (l : Int) : Threadless fun x => x.l1Room c w l :=
  .ite (fun _ _ => Iff.rfl) (fun _ _ => rfl) fun x th => by
    simp only [threadless_wbLine c w _ 0 0 [] 0 x th]
    rfl

theorem State.l1Room_stands (a : State) (c w : Nat) (l : Int) : Stands a (a.l1Room c w l) :=
  .ite (.refl a) ((a.wbLine_stands ..).trans (State.setCore_stands _ _ rfl))

theorem threadless_velFill (c w : Nat) (k : Int) : Threadless fun x => x.velFill c w k :=
  .ite (fun _ _ => Iff.rfl)
    (fun x th => by
      simp only [threadless_l1Room c w _ x th]
      rfl)
    (fun x th => by
      simp only [threadless_l1Room c w _ x th]
      rfl)

theorem State.velFill_stands (a : State) (c w : Nat) (k : Int) : Stands a (a.velFill c w k) := by
  have hplaced : Stands a ((a.l1Room c w (shr k 1)).l1Place c (shr k 1)
      ((List.range 27).map (fun j => (27 * offF k 0 1 + j, a.vel (a.ownKey (dieIdx c)) (27 * k - 13 + j)))) [offF k 0 1] .unlim (a.now c)) :=
    (a.l1Room_stands c w (shr k 1)).trans (State.setL1_stands ..)
  exact .ite (hplaced.trans (State.count_stands ..)) hplaced

/-! Forms of row 9 that raise nothing (R219). -/

/-- A form of row 9 that raises nothing, by what each lane does for its address: `part` does it with the operands read before the unit, in the
group's warp. -/
theorem Acts.of_quiet {i : Instr} {h : Hdr} {m : MOp} {k : State → Nat → Int → State} {part : State → State → Nat → Int → State}
    (hexec : ∀ s, exec i s = .next (s.quietUnit h m k)) (hthr : ∀ a t ea, Threadless fun y => part a y t ea)
    (hstands : ∀ a y t ea, Stands y (part a y t ea)) (hk : ∀ a y t ea, warpOf t = a.cur.warp → Near a y → k y t ea = part a y t ea) :
    Acts i h { src := [m.b], srcP := [m.a] } (portsReady { src := [m.b], srcP := [m.a] }) ret (fun s act =>
      s.eachLane { src := [m.b], srcP := [m.a] } act (fun x t v =>
        part s x t (wrap (s.regPair t m.a + src v 0 * pow3 m.k + effImm h m.disp) 54))) := by
  refine .retires_of_stands hexec fun s hp ha hports => ?_
  have hwid := ha.not_scribe hp
  have hlane := hp.active_lt h
  have hout := ha.not_drafting hp
  have hready : (s.opened h).portSt { src := [m.b], srcP := [m.a] } (s.active h).length = .ready := hports
  refine ⟨State.eachLane_stands (.refl _) hlane hout (fun y t v => hstands ..), ?_⟩
  simp only [laneSteps, State.withPorts, hready]
  refine State.eachLane_retireAll (.refl _) hwid hlane hout (fun t v => hthr _ t _) (fun y t v => hstands ..) fun y t v ht hy => ?_
  rw [hk _ y t _ ht hy, hy.eaOf]
  rfl

/-- What PREF does for a lane's address (R116, R225). -/
def State.prefPart (h : Hdr) (l : Lease) (a y : State) (t : Nat) (ea : Int) : State :=
  match regionOf ea with
  | .device => if a.ownerOk ea then (List.range 3).foldl (fun y (i : Nat) =>
      y.addReq { y.mkReq t 0 (.pref (effLease h l)) (81 * lineOf ea + 27 * ((i : Int) - 1)) with lane := 16 }) y else y
  | .vellum => if (a.velBusy (a.ownKey (dieIdx (coreOf a.cur.warp))) ea).isSome then (List.range 3).foldl (fun y (i : Nat) =>
      y.addReq { y.mkReq t 0 (.pref (effLease h l)) (81 * lineOf ea + 27 * ((i : Int) - 1)) with
        lane := 16, stage := .home, own := a.ownKey (dieIdx (coreOf a.cur.warp)) }) y
    else (List.range 3).foldl (fun y (i : Nat) => y.velFill (coreOf a.cur.warp) a.cur.warp (3 * lineOf ea + (i : Int) - 1)) y
  | _ => y

theorem threadless_prefPart (h : Hdr) (l : Lease) (a : State) (t : Nat) (ea : Int) : Threadless fun y => a.prefPart h l y t ea := by
  unfold State.prefPart
  split
  · exact .ite (fun _ _ => Iff.rfl) (.foldl (fun _ _ _ => rfl) _) .refl
  · exact .ite (fun _ _ => Iff.rfl) (.foldl (fun _ _ _ => rfl) _) (.foldl (fun _ => threadless_velFill _ _ _) _)
  · exact .refl

theorem State.prefPart_stands (h : Hdr) (l : Lease) (a y : State) (t : Nat) (ea : Int) : Stands y (a.prefPart h l y t ea) := by
  unfold State.prefPart
  split
  · exact .ite (.foldl (fun _ _ => State.addReq_stands ..) _ _) (.refl y)
  · exact .ite (.foldl (fun _ _ => State.addReq_stands ..) _ _) (.foldl (fun _ _ => State.velFill_stands ..) _ _)
  · exact .refl y

/-- The sectors of a line, from its lowest on. -/
theorem foldl_sectors {β : Type} (f : β → Int → β) (l : Int) (y : β) :
    [3 * l - 1, 3 * l, 3 * l + 1].foldl f y = (List.range 3).foldl (fun y (i : Nat) => f y (3 * l + (i : Int) - 1)) y := by
  have hsectors : [3 * l - 1, 3 * l, 3 * l + 1] = (List.range 3).map (fun (i : Nat) => 3 * l + (i : Int) - 1) := by
    simp [List.range_succ]
    omega
  rw [hsectors, List.foldl_map]

theorem Near.ownKey {a y : State} (hy : Near a y) (d : Nat) : y.ownKey d = a.ownKey d := by rw [State.ownKey, hy.pkg, State.ownKey]
theorem Near.ownerOk {a y : State} (hy : Near a y) (ea : Int) : y.ownerOk ea = a.ownerOk ea := by
  simp only [State.ownerOk, State.present, hy.mg]
theorem Near.velBusy {a y : State} (hy : Near a y) (own : Nat) (ea : Int) : y.velBusy own ea = a.velBusy own ea := by
  have hdie : y.dieSt own = a.dieSt own := by rw [State.dieSt, hy.die, State.dieSt]
  rw [State.velBusy, hdie, State.velBusy]

/-- PREF (R225). -/
theorem acts_pref (h : Hdr) (l : Lease) (m : MOp) : Acts (.pref h l m) h { src := [m.b], srcP := [m.a] }
    (portsReady { src := [m.b], srcP := [m.a] }) ret (fun s act => s.eachLane { src := [m.b], srcP := [m.a] } act (fun x t v =>
      s.prefPart h l x t (wrap (s.regPair t m.a + src v 0 * pow3 m.k + effImm h m.disp) 54))) := by
  refine .of_quiet (fun _ => rfl) (threadless_prefPart h l) (State.prefPart_stands h l) fun a y t ea ht hy => ?_
  have hsector : ∀ i : Nat, 27 * (3 * lineOf ea + (i : Int) - 1) = 81 * lineOf ea + 27 * ((i : Int) - 1) := fun i => by ring
  unfold State.prefPart
  simp only [ht, hy.ownerOk, hy.velBusy, hy.ownKey, foldl_sectors, hsector]
  cases regionOf ea
  case vellum =>
    refine if_congr Iff.rfl (foldl_eq_of_invariant (inv := Near a) (fun x i _ hx => hx.trans (State.addReq_stands ..).toNear) (fun x i _ hx => ?_) hy) rfl
    rw [hx.ownKey]
  all_goals rfl

/-- INV (R227). -/
theorem acts_inv (h : Hdr) (m : MOp) : Acts (.inv h m) h { src := [m.b], srcP := [m.a] }
    (portsReady { src := [m.b], srcP := [m.a] }) ret (fun s act => s.eachLane { src := [m.b], srcP := [m.a] } act (fun x t v =>
      let ea := wrap (s.regPair t m.a + src v 0 * pow3 m.k + effImm h m.disp) 54
      if regionOf ea = .device ∨ regionOf ea = .vellum then x.l1Clean (coreOf s.cur.warp) (lineOf ea) [0, 1, 2] else x)) :=
  .of_quiet (part := fun a y _ ea => if regionOf ea = .device ∨ regionOf ea = .vellum then y.l1Clean (coreOf a.cur.warp) (lineOf ea) [0, 1, 2] else y)
    (fun _ => rfl) (fun _ _ _ => .ite (fun _ _ => Iff.rfl) (fun _ _ => rfl) .refl) (fun _ y _ _ => .ite (y.setL1_stands ..) (.refl y))
    fun a y t ea ht _ => by rw [ht]

/-! Faults of write-backs that a unit is told of change no operand (R220, R436). -/

theorem State.defer_stands (a : State) (t c : Nat) (ea : Int) (status : Int) : Stands a (a.defer t c ea status) := by
  have hthread : ∀ u, ((a.defer t c ea status).thread u).regs = (a.thread u).regs ∧ ((a.defer t c ea status).thread u).st = (a.thread u).st ∧
      ((a.defer t c ea status).thread u).mr = (a.thread u).mr := fun u => by
    rw [State.defer]
    split
    · exact ⟨rfl, rfl, rfl⟩
    · rw [State.thread_setThread]
      split
      · next hu => rw [hu]; exact ⟨rfl, rfl, rfl⟩
      · exact ⟨rfl, rfl, rfl⟩
  have hrest : a.defer t c ea status = { a with thr := (a.defer t c ea status).thr } := by
    rw [State.defer]
    split <;> rfl
  exact ⟨⟨by rw [hrest], by rw [hrest], by rw [hrest], by rw [hrest], fun u => (hthread u).1, fun _ => by rw [hrest]; rfl,
    fun _ => by rw [hrest]; rfl, fun _ => by rw [hrest]; rfl⟩, fun u => (hthread u).2⟩

theorem State.setPort_stands (a : State) (c q : Nat) (v : List Int) : Stands a (a.setPort c q v) := State.setCore_stands _ _ rfl

/-- Waiting records that reach their core's q17 are words of a port. -/
theorem State.flushRecs_stands (a : State) (c : Nat) : Stands a (a.flushRecs c) := by
  suffices hacc : ∀ (rs : List Rec) (p : State × Bool), Stands a p.1 → Stands a (rs.foldl (fun (acc : State × Bool) r =>
      if acc.2 ∧ r.core = c then
        if (acc.1.port c 17).length + r.words.length ≤ 81 then
          ({ (acc.1.setPort c 17 (acc.1.port c 17 ++ r.words)) with recs := acc.1.recs.erase r }, true)
        else (acc.1, false)
      else acc) p).1 from hacc a.recs (a, true) (.refl a)
  intro rs
  induction rs with
  | nil => exact fun _ hp => hp
  | cons r rs ih =>
    intro p hp
    rw [List.foldl_cons]
    refine ih _ ?_
    split
    · split
      · exact (hp.trans (State.setPort_stands ..)).trans (.of_cores rfl fun _ => rfl)
      · exact hp
    · exact hp

theorem State.pushRec_stands (a : State) (r : Rec) : Stands a (a.pushRec r) :=
  .ite (.refl a) ((Stands.of_cores rfl fun _ => rfl : Stands a { a with recs := a.recs ++ [r] }).trans (State.flushRecs_stands ..))

/-! Groups of write-backs (R158, R226). -/

/-- The group counts the write-backs that it has caused; one that has caused none counts no longer. -/
def State.wbCounted (x : State) (w gid : Nat) : State :=
  let n := x.wbCount gid
  let y := x.warp w
  x.setWarp w { y with out := if n = 0 then y.out.filter (fun g => decide (g.gid ≠ gid))
                              else y.out.map (fun g => if g.gid = gid then { g with left := n } else g) }

theorem State.wbCounted_stands (x : State) (w gid : Nat) : Stands x (x.wbCounted w gid) := State.setWarp_stands ..

theorem threadless_wbCounted (w gid : Nat) : Threadless fun x => x.wbCounted w gid := fun _ _ => rfl

theorem State.openGrp_stands (a : State) (w : Nat) (c : Cls) (n : Nat) : Stands a (a.openGrp w c n).1 :=
  (State.setWarp_stands ..).trans (.of_cores rfl fun _ => rfl)

section
variable {a : State} {act : List Nat}

/-- With room in its counter, a group of write-backs begins once its unit has been told of the faults that its core holds, and it is counted
at the end. -/
theorem State.wbGroup_spec (hroom : cntOf .st (a.warp a.cur.warp) < 242) :
    ∃ gid b, Stands a b ∧ ∀ k, a.wbGroup act k = (k gid b).wbCounted a.cur.warp gid := by
  refine ⟨_, _, Stands.trans ?told (State.openGrp_stands _ a.cur.warp .st 1), fun k => if_neg (Nat.not_le.mpr hroom)⟩
  exact (State.setCore_stands a (coreOf a.cur.warp) (k := { a.core (coreOf a.cur.warp) with wbf := [] }) rfl).trans
    (.foldl (fun x (f : HeldWbf) =>
      have hdeferred := Stands.foldl (fun (b : State) l => b.defer_stands (threadOf a.cur.warp l) 11 f.ea 0) act x
      .ite hdeferred (hdeferred.trans (State.pushRec_stands ..))) _ _)

variable {k k' : Nat → State → State}

theorem State.wbGroup_stands (hroom : cntOf .st (a.warp a.cur.warp) < 242) (hk' : ∀ gid b, Stands a b → Stands b (k' gid b)) :
    Stands a (a.wbGroup act k') := by
  obtain ⟨gid, b, hb, hgroup⟩ := State.wbGroup_spec (act := act) hroom
  rw [hgroup]
  exact hb.trans ((hk' gid b hb).trans (State.wbCounted_stands ..))

/-- Lanes that retire once their write-backs have left may retire once the group has counted them. -/
theorem State.wbGroup_retireAll (hroom : cntOf .st (a.warp a.cur.warp) < 242) (hwid : widOf a.cur.warp ≠ 27) (hlane : ∀ l ∈ act, l < 16)
    (hk' : ∀ gid b, Stands a b → Stands b (k' gid b)) (hk : ∀ gid b, Stands a b → k gid b = (k' gid b).retireAll act) :
    a.wbGroup act k = (a.wbGroup act k').retireAll act := by
  obtain ⟨gid, b, hb, hgroup⟩ := State.wbGroup_spec (act := act) hroom
  have hcur := (hb.trans (hk' gid b hb)).cur
  rw [hgroup, hgroup, hk gid b hb, (threadless_wbCounted a.cur.warp gid).retireAll rfl (by rwa [hcur]) hlane]

end

theorem State.wbCore_stands (a : State) (c w by_ gid : Nat) (lanes : List Nat) (pc : Int) : Stands a (a.wbCore c w by_ gid lanes pc) :=
  .foldl (fun _ _ => State.wbLine_stands ..) _ _

/-- What WB does for a lane's address. -/
def State.wbPart (a : State) (act : List Nat) (gid : Nat) (y : State) (ea : Int) : State :=
  if regionOf ea = .device then y.wbLine (coreOf a.cur.warp) a.cur.warp (lineOf ea) 2 gid act a.cur.first else y

theorem threadless_wbPart (a : State) (act : List Nat) (gid : Nat) (ea : Int) : Threadless fun y => a.wbPart act gid y ea :=
  .ite (fun _ _ => Iff.rfl) (threadless_wbLine _ _ _ _ _ _ _) .refl

theorem State.wbPart_stands (a : State) (act : List Nat) (gid : Nat) (y : State) (ea : Int) : Stands y (a.wbPart act gid y ea) :=
  .ite (State.wbLine_stands ..) (.refl y)

/-- WB (R226). -/
theorem acts_wb (h : Hdr) (m : MOp) : Acts (.wb h m) h { src := [m.b], srcP := [m.a] }
    (fun s act => portsReady { src := [m.b], srcP := [m.a] } s act ∧ cntOf .st (s.warp s.cur.warp) < 242) ret
    (fun s act => s.wbGroup act (fun gid x => x.eachLane { src := [m.b], srcP := [m.a] } act (fun y t v =>
      s.wbPart act gid y (wrap (s.regPair t m.a + src v 0 * pow3 m.k + effImm h m.disp) 54)))) := by
  refine .retires_of_stands (fun _ => rfl) fun s hp ha ⟨hports, hroom⟩ => ?_
  have hwid := ha.not_scribe hp
  have hlane := hp.active_lt h
  have hout := ha.not_drafting hp
  have hready : (s.opened h).portSt { src := [m.b], srcP := [m.a] } (s.active h).length = .ready := hports
  refine ⟨State.wbGroup_stands hroom fun gid b hb => State.eachLane_stands hb.toNear hlane hout fun _ _ _ => State.wbPart_stands .., ?_⟩
  simp only [State.withPorts, hready]
  refine State.wbGroup_retireAll hroom hwid hlane
    (fun gid b hb => State.eachLane_stands hb.toNear hlane hout fun _ _ _ => State.wbPart_stands ..)
    fun gid b hb => State.eachLane_retireAll hb.toNear hwid hlane hout (fun _ _ => threadless_wbPart _ _ _ _)
      (fun _ _ _ => State.wbPart_stands ..) fun y t v ht hy => ?_
  rw [hy.eaOf, ht, hy.cur]
  rfl

/-- WB.all (R226). -/
theorem acts_wbAll (h : Hdr) : Acts (.wbAll h) h {} (fun s _ => cntOf .st (s.warp s.cur.warp) < 242) ret
    (fun s act => s.wbGroup act (fun gid x => x.wbCore (coreOf s.cur.warp) s.cur.warp 2 gid act s.cur.first)) := by
  refine .retires_of_stands (fun _ => rfl) fun s hp ha hroom => ?_
  have hwid := ha.not_scribe hp
  have hlane := hp.active_lt h
  refine ⟨State.wbGroup_stands hroom fun _ _ _ => State.wbCore_stands ..,
    State.wbGroup_retireAll hroom hwid hlane (fun _ _ _ => State.wbCore_stands ..) fun gid b hb => ?_⟩
  rw [hb.cur]

/-- Settles O26: no thread takes part in what the forms do to lines, so that the lanes of the group may as well retire at the end. -/
theorem lineForms : Obligations.LineForms := ⟨acts_pref, acts_inv, acts_wb, acts_wbAll⟩

end Sys2Proof.Machine
end

