-- ==== Sys2Proof/Proofs/RequestNumbers.lean ====
section
/-! The numbers of requests against the statement of MemoryRequests: a lane's words go to the request that was sent last, which the core
knows by its number (R78), and the statement lets an older request of the lane's thread stand under the number that is given next. -/

namespace Sys2Proof.Machine

/-- TKT.close at the address in registers 0 and 1. -/
def closeTicket : Instr := .tktClose plainHdr 0 { a := 0, b := 234, k := 0, disp := 0 }

/-- What `closeTicket` uses. -/
def closeUses : Uses := { src := [234], srcP := [0], forbid := true }

/-- A pass of lane 0 that has left, under number 1. -/
def olderPass : Req := { id := 1, kind := .tkp 0 0 }

/-- Lane 0 issues `closeTicket` at the start of die 0's memory; its older pass is still in flight, and 1 is the next number too. -/
def sameNumber : State :=
  { State.reset with
    wrp := [(0, { n := 2 })], thr := [(0, { st := .runnable, regs := [(0, loW (devAddr 0 0)), (1, hiW (devAddr 0 0))] })],
    reqs := [olderPass], nextId := 1, cur := { warp := 0, lanes := [0] } }

theorem plain_sameNumber : Plain sameNumber where
  some_ := by decide
  nodup := by decide
  lane := by decide
  live := by decide
  wid := by decide
  going := by decide
  undrafted := by decide
  nostep := by decide
  nomeet := by decide

theorem legal_sameNumber : Legal sameNumber plainHdr closeUses := ⟨rfl, rfl, rfl⟩

theorem active_sameNumber : sameNumber.active plainHdr = [0] := rfl

/-- The address in registers 0 and 1 is one that a ticket form may use. -/
theorem ticketAddress_sameNumber :
    devOk sameNumber .wd (eaOf sameNumber 0 { a := 0, b := 234, k := 0, disp := 0 } 0 0) ∧
      sameNumber.hazard 0 .wd (eaOf sameNumber 0 { a := 0, b := 234, k := 0, disp := 0 } 0 0) = false ∧
      sameNumber.shared (sameNumber.warp 0).ctx (eaOf sameNumber 0 { a := 0, b := 234, k := 0, disp := 0 } 0 0) = none := by
  unfold devOk
  decide +kernel

/-- Both requests take the lane's words. -/
theorem closeTicket_words_of_both : ∃ b, exec closeTicket sameNumber = .next b ∧ b.reqs.map (·.words) = [[0], [0]] :=
  ⟨_, rfl, by decide +kernel⟩

/-- Refutes O27: where a request of the lane's thread stands under the number that is given next, it takes the words of the lane's new
request, and the clause of TKT.close has the requests in flight stay as they were. -/
theorem not_memoryRequests : ¬ Obligations.MemoryRequests := by
  rintro ⟨-, -, -, -, -, -, -, -, -, -, -, -, hclose, -⟩
  obtain ⟨b, hexec, hsent⟩ := hclose plainHdr 0 { a := 0, b := 234, k := 0, disp := 0 } sameNumber plain_sameNumber rfl legal_sameNumber rfl
    (fun _ => ⟨trivial, rfl, by simp, by decide, fun k hk => by
      obtain rfl : k = 0 := Nat.lt_one_iff.mp hk
      exact ticketAddress_sameNumber⟩)
  rw [active_sameNumber, if_neg (List.cons_ne_nil 0 [])] at hsent
  obtain ⟨b', hexec', hwords⟩ := closeTicket_words_of_both
  obtain rfl : b' = b := Host.Outcome.next.inj (hexec'.symm.trans hexec)
  have hkept : (b'.reqs.map (·.words)).head? = some [] := by rw [hsent.reqs]; rfl
  rw [hwords] at hkept
  exact absurd hkept (by decide)

end Sys2Proof.Machine
end

