-- ==== Sys2Proof/Proofs/DraftForbids.lean ====
section
/-! A form that a draft may not contain against the statement of DraftForbids: a binary load waits for an earlier acquire of its group (R130),
and the statement has it abort the draft at once. -/

namespace Sys2Proof.Machine

/-- LDB of a byte into register 2, from the address in registers 0 and 1. -/
def forbiddenLoad : Instr := .ldb plainHdr .i8 .t27 false { ord := .rlx, scope := .dflt } 2 { a := 0, b := 234, k := 0, disp := 0 }

/-- What `forbiddenLoad` uses. -/
def forbiddenUses : Uses := { src := [234], srcP := [0], dstR := [2], forbid := true }

/-- An acquire load of lane 0 into register 4 that has not returned. -/
def pendingAcquire : Req := { id := 1, kind := .load .wd 4 .page false, ord := .acq, drafted := true }

/-- Lane 0, in its warp's draft, issues `forbiddenLoad` while its acquire load is in flight. -/
def acquiringDraft : State :=
  { State.reset with
    wrp := [(0, { draft := { depth := 1, lanes := [0], handler := 40, ckpt := [{ lane := 0, regs := [], preds := [], mr := 0 }] } })],
    thr := [(0, { st := .runnable })], reqs := [pendingAcquire], nextId := 2, cur := { warp := 0, lanes := [0] } }

theorem inDraft_acquiringDraft : InDraft acquiringDraft plainHdr where
  nodup := by decide
  lane := by decide
  live := by decide
  wid := by decide
  going := by decide
  nostep := by decide
  drafted := by decide
  deep := by decide
  unsent := fun _ => nofun
  once := by decide
  lanes := by decide

theorem legal_acquiringDraft : Legal acquiringDraft plainHdr forbiddenUses := ⟨rfl, rfl, rfl⟩

/-- The load waits: nothing happens at all. -/
theorem exec_forbiddenLoad_waits : exec forbiddenLoad acquiringDraft = .next acquiringDraft := rfl

/-- A warp of which no thread awaits a trap, none is HELD and one has not exited ends its unit with nothing more where STEP is off. -/
theorem State.unitEnd_eq_of_calm {s b : State} (hstep : trit (b.ctx (b.warp s.cur.warp).ctx).dbg 0 ≠ 1)
    (hthread : ∀ k ∈ threadsOf s.cur.warp, (b.thread k).pend = none ∧ (b.thread k).st ≠ .held)
    (hlive : ∃ k ∈ threadsOf s.cur.warp, (b.thread k).st ≠ .exited) : s.unitEnd b = b := by
  have hdeliver : b.deliver s.cur.warp = b := by
    simp only [State.deliver, State.raisers_eq_nil.mpr fun k hk => (hthread k hk).1, List.isEmpty_nil, true_or, or_true, if_true]
  have hmeet : b.meetsNow s.cur.warp = false := State.meetsNow_of_not_held fun k hk => (hthread k hk).2
  have hall : (threadsOf s.cur.warp).all (fun k => decide ((b.thread k).st = .exited)) = false := by
    obtain ⟨k, hk, hst⟩ := hlive
    exact List.all_eq_false.mpr ⟨k, hk, by simpa using hst⟩
  rw [State.unitEnd, State.stepTrap_eq (.inl hstep), State.settle, hdeliver, State.meet_eq hmeet, State.freeWarp]
  split
  · rfl
  · simp [hall]

/-- Once the draft is rolled back, the unit's end leaves it so. -/
theorem RolledBack.unitEnd_acquiringDraft {b : State} (hroll : RolledBack (acquiringDraft.opened plainHdr) b 0 6 0) :
    acquiringDraft.unitEnd b = b := by
  have hlane : (b.thread 0).pend = none ∧ (b.thread 0).st = .runnable := by
    rw [show b.thread 0 = _ from hroll.on 0 (by decide) { lane := 0, regs := [], preds := [], mr := 0 } rfl]
    exact ⟨rfl, rfl⟩
  have hother : ∀ k, k ≠ 0 → b.thread k = {} := fun k hk => by
    rw [hroll.others k fun l hl => by rw [List.mem_singleton.mp hl]; exact hk]
    exact if_neg (Ne.symm hk)
  refine State.unitEnd_eq_of_calm ?_ (fun k _ => ?_) ⟨0, by decide, by rw [hlane.2]; decide⟩
  · have hctx : ∀ c, b.ctx c = {} := fun c => by
      rw [State.ctx, hroll.same.2.2.1]
      rfl
    rw [hctx]
    decide
  · by_cases hk : k = 0
    · rw [hk, hlane.2]
      exact ⟨hlane.1, by decide⟩
    · rw [hother k hk]
      exact ⟨rfl, by decide⟩

/-- Refutes O35: a draft lane whose acquire load is in flight issues LDB, which waits for it (R130); the draft goes on, and the statement
has it aborted with FORBID. -/
theorem not_draftForbids : ¬ Obligations.DraftForbids := by
  rintro ⟨-, -, -, -, -, hldb, -⟩
  obtain ⟨b, hexec, hroll⟩ := hldb plainHdr .i8 false { ord := .rlx, scope := .dflt } 2 { a := 0, b := 234, k := 0, disp := 0 } acquiringDraft
    inDraft_acquiringDraft legal_acquiringDraft
  have hsame : acquiringDraft = b := by
    have hend := Host.Outcome.next.inj (exec_forbiddenLoad_waits.symm.trans hexec)
    rwa [hroll.unitEnd_acquiringDraft] at hend
  have hended : (acquiringDraft.warp 0).draft = {} := by
    rw [hsame]
    exact hroll.ended
  exact absurd hended (by decide)

end Sys2Proof.Machine
end

