-- ==== Sys2Proof/Proofs/DraftGroups.lean ====
section
/-! The issue of a unit in a warp's draft (R252): the group's lanes are at their issue as they are outside a draft, and the unit acts where the draft
permits it. -/

namespace Sys2Proof.Machine

/-! A drafted group without its draft. -/

/-- The state with the draft of the group's warp left out. -/
def State.undrafted (s : State) : State := s.setWarp s.cur.warp { s.warp s.cur.warp with draft := {} }

theorem Drafted.plain {s : State} (hd : Drafted s) : Plain s.undrafted where
  some_ := hd.some_
  nodup := hd.nodup
  lane := hd.lane
  live := hd.live
  wid := hd.wid
  going := by rw [State.undrafted, State.setWarp_cur, State.warp_setWarp_self]; exact hd.going
  undrafted := fun l _ => by simp [State.drafting, State.undrafted]
  nostep := by rw [State.undrafted, State.setWarp_cur, State.warp_setWarp_self]; exact hd.nostep
  nomeet := hd.nomeet

/-- A fold that neither reads nor changes the warps' entries. -/
theorem foldl_wrp {α : Type} {F : State → α → State} {ws : Tab Warp} {is : List α}
    (hF : ∀ x, ∀ i ∈ is, F { x with wrp := ws } i = { F x i with wrp := ws }) (x : State) :
    is.foldl F { x with wrp := ws } = { is.foldl F x with wrp := ws } := by
  induction is generalizing x with
  | nil => rfl
  | cons i is ih =>
    rw [List.foldl_cons, hF x i List.mem_cons_self, ih fun y j hj => hF y j (List.mem_cons_of_mem i hj), List.foldl_cons]

/-- The warps' entries take no part in the start of a unit of a group that is in no Scribe warp. -/
theorem Drafted.opened_wrp {s : State} (hd : Drafted s) (h : Hdr) (ws : Tab Warp) :
    { s with wrp := ws }.opened h = { s.opened h with wrp := ws } := by
  have hstarted : { s with wrp := ws }.started = { s.started with wrp := ws } :=
    foldl_wrp (fun _ _ _ => rfl) { s with stamp := s.stamp + 1 }
  have hcur : s.started.cur = s.cur := by rw [(State.started_spec hd.nodup).1]
  have hthreadless : Threadless fun x => { x with wrp := ws } := fun _ _ => rfl
  simp only [State.opened, hstarted]
  refine foldl_wrp (fun x l hl => (hthreadless.retire ?_ x s.started.cur.next).symm) s.started
  rw [threadOf_warp (hd.lane l (hcur ▸ (List.mem_filter.mp hl).1))]
  exact hd.wid

/-- Every lane of a drafted group is at its issue, the inactive ones have retired, and no more has happened (R151, R152). -/
theorem Drafted.start_opened {s : State} (hd : Drafted s) (h : Hdr) : Start s (s.opened h) h := by
  have ha := hd.plain.start_opened h
  have heq : s.undrafted.opened h = { s.opened h with wrp := s.undrafted.wrp } := hd.opened_wrp h _
  have hthread : ∀ k, (s.undrafted.opened h).thread k = (s.opened h).thread k := State.thread_congr (by rw [heq])
  refine ⟨?rest, fun l hl hon => (hthread _).symm.trans (ha.on l hl hon), fun l hl hoff => (hthread _).symm.trans (ha.off l hl hoff),
    fun k hk => (hthread k).symm.trans (ha.others k hk)⟩
  calc
    s.opened h = { s.opened h with wrp := s.wrp } := hd.opened_wrp h s.wrp
    _ = { s.undrafted.opened h with wrp := s.wrp } := by rw [heq]
    _ = { s with thr := (s.undrafted.opened h).thr, stamp := s.stamp + 1 } := by rw [ha.rest]; rfl
    _ = { s with thr := (s.opened h).thr, stamp := s.stamp + 1 } := by rw [heq]

/-! The unit acts (R258). -/

/-- STEP raises nothing in a warp (R401). -/
def State.NoStep (b : State) (w : Nat) : Prop := trit (b.ctx (b.warp w).ctx).dbg 0 ≠ 1 ∨ (b.warp w).hm = true

/-- A unit without operands that a draft permits acts on the opened group, and its end follows. -/
theorem Drafted.issue_eq {s : State} {h : Hdr} (hd : Drafted s) (hl : Legal s h {}) (hne : s.active h ≠ []) {body : List Nat → State → State}
    (hno : (body (s.active h) (s.opened h)).NoStep s.cur.warp) : s.issue h {} body = s.unitEnd (body (s.active h) (s.opened h)) := by
  obtain ⟨hready, hpriv, hfield⟩ := hl
  obtain ⟨hrest, hthread⟩ := State.started_spec hd.nodup
  have hcur : s.started.cur = s.cur := by rw [hrest]
  have hpriv' : s.started.privFault {} = false := by rw [← hpriv, hrest]; rfl
  have hfield' : s.started.fieldFault {} = none := by rw [← hfield, hrest]; rfl
  have hon : ∀ k, s.started.laneOn h k = s.laneOn h k := fun k => State.laneOn_congr (by rw [hthread]; split <;> rfl)
  have hact : s.cur.lanes.filter (fun l => s.laneOn h (threadOf s.cur.warp l)) = s.active h := rfl
  have hopened : (s.cur.lanes.filter fun l => !s.laneOn h (threadOf s.cur.warp l)).foldl
      (fun a l => a.retire (threadOf s.cur.warp l) s.cur.next) s.started = s.opened h := by
    simp only [State.opened, hcur, hon]
  have hdraft : (s.active h).any (fun l => (s.opened h).drafting s.cur.warp l) = true := by
    obtain ⟨l, ls, hls⟩ := List.exists_cons_of_ne_nil hne
    have hmem : l ∈ s.active h := by rw [hls]; exact List.mem_cons_self
    refine List.any_eq_true.mpr ⟨l, hmem, ?_⟩
    rw [(hd.start_opened h).rest]
    exact hd.drafted l (State.mem_active hmem).1
  have hempty : (s.active h).isEmpty = false := by simpa using hne
  have hgrans : (s.opened h).takeGrans s.cur.warp {} = some (s.opened h) := rfl
  have hends : ∀ ls, (body (s.active h) (s.opened h)).stepTrap s.cur.warp ls = body (s.active h) (s.opened h) := fun _ => State.stepTrap_eq hno
  simp only [State.issue, hready, hcur, hpriv', hfield', hon, hact, hopened, hempty, hdraft, hgrans, hends, State.unitEnd, Bool.not_true,
    Bool.false_eq_true, if_false, if_true]
  rfl

/-- A unit whose effect leaves its warp at rest, and whose lanes retire or wait, ends with that in a draft too. -/
theorem Drafted.unitEnd_done {s g b : State} {h : Hdr} {d : Nat → Thread → Thread} (hd : Drafted s) (hg : Rests (s.opened h) g) (hkeeps : Keeps d)
    (hb : Done b (s.active h) d g) : s.unitEnd b = b := by
  have heq : s.undrafted.opened h = { s.opened h with wrp := s.undrafted.wrp } := hd.opened_wrp h _
  have hstart := hd.plain.start_opened h
  have hrests : Rests (s.undrafted.opened h) (s.opened h) := by
    refine ⟨by rw [heq], fun v => ?_, fun c => by rw [heq]; rfl, fun k => by rw [heq]; exact ⟨rfl, rfl⟩⟩
    rw [hstart.warp, (hd.start_opened h).warp, State.undrafted, State.warp_setWarp]
    split
    · next hv => rw [hv]; exact ⟨rfl, rfl, rfl⟩
    · exact ⟨rfl, rfl, rfl⟩
  have hend : s.undrafted.unitEnd b = b := hstart.unitEnd_done hd.plain (hrests.trans hg) hkeeps hb
  exact hend

end Sys2Proof.Machine
end

