-- ==== Sys2Proof/Proofs/DraftEnds.lean ====
section
/-! INK and ERASE (R253-R256). -/

namespace Sys2Proof.Machine

/-! Whether STEP raises anything (R401). -/

theorem Rests.noStep {a g : State} {w : Nat} (hg : Rests a g) (hno : a.NoStep w) : g.NoStep w := by
  obtain ⟨-, hhm, hctx⟩ := hg.warp w
  rwa [State.NoStep, hctx, hhm, hg.dbg]

theorem Done.noStep {b g : State} {w : Nat} {act : List Nat} {d : Nat → Thread → Thread} (hb : Done b act d g) (hno : g.NoStep w) :
    b.NoStep w := by
  rw [hb.rest]
  exact hno

theorem Drafted.noStep_opened {s : State} (hd : Drafted s) (h : Hdr) : (s.opened h).NoStep s.cur.warp := by
  rw [(hd.start_opened h).rest]
  exact hd.nostep

/-- What STEP and delivery look at in the warps, and the contexts, are in `b` as they are in `a`. -/
structure Levels (a b : State) : Prop where
  ctxs : b.ctxs = a.ctxs
  warp : ∀ v, (b.warp v).stopping = (a.warp v).stopping ∧ (b.warp v).hm = (a.warp v).hm ∧ (b.warp v).ctx = (a.warp v).ctx

section
variable {a b c : State}

theorem Levels.refl (a : State) : Levels a a := ⟨rfl, fun _ => ⟨rfl, rfl, rfl⟩⟩

theorem Levels.trans (h : Levels a b) (h' : Levels b c) : Levels a c := ⟨h'.ctxs.trans h.ctxs, fun v => by
  obtain ⟨hstopping, hhm, hctx⟩ := h.warp v
  obtain ⟨hstopping', hhm', hctx'⟩ := h'.warp v
  exact ⟨hstopping'.trans hstopping, hhm'.trans hhm, hctx'.trans hctx⟩⟩

theorem Levels.noStep {w : Nat} (h : Levels a b) (hno : a.NoStep w) : b.NoStep w := by
  obtain ⟨-, hhm, hctx⟩ := h.warp w
  rwa [State.NoStep, hctx, hhm, State.ctx, h.ctxs]

theorem Levels.of_wrp (hctxs : b.ctxs = a.ctxs) (hwrp : b.wrp = a.wrp) : Levels a b :=
  ⟨hctxs, fun v => by rw [State.warp_congr hwrp]; exact ⟨rfl, rfl, rfl⟩⟩

theorem State.setWarp_levels (a : State) {w : Nat} {x : Warp} (hstopping : x.stopping = (a.warp w).stopping) (hhm : x.hm = (a.warp w).hm)
    (hctx : x.ctx = (a.warp w).ctx) : Levels a (a.setWarp w x) := ⟨rfl, (a.setWarp_rests hstopping hhm hctx).warp⟩

/-- A group that counts a lane less leaves its warp's level (R158). -/
theorem State.doneLane_levels (a : State) (w gid : Nat) : Levels a (a.doneLane w gid) := by
  unfold State.doneLane
  split
  · exact .refl a
  · next x hx =>
    have hself : a.warp w = x := Tab.get_of_find _ _ _ _ hx
    exact a.setWarp_levels (by rw [hself]) (by rw [hself]) (by rw [hself])

theorem State.dropKept_levels (a : State) (t : Nat) : Levels a (a.dropKept t) := by
  dsimp only [State.dropKept]
  split
  · exact (a.doneLane_levels ..).trans (.of_wrp rfl rfl)
  · exact .refl a

theorem State.endThread_levels (a : State) (t : Nat) : Levels a (a.endThread t) := by
  have howed : Levels (a.dropKept t) ((a.dropKept t).setWarp (warpOf t) { (a.dropKept t).warp (warpOf t) with
      owed := ((a.dropKept t).warp (warpOf t)).owed.filter (fun o => decide (o.thr ≠ t)) }) := State.setWarp_levels _ rfl rfl rfl
  exact (a.dropKept_levels t).trans (howed.trans (.of_wrp rfl rfl))

theorem State.retire_levels (a : State) (t : Nat) (pc : Int) : Levels a (a.retire t pc) := by
  dsimp only [State.retire]
  split
  · split
    · exact a.endThread_levels t
    · exact .of_wrp rfl rfl
  · exact .of_wrp rfl rfl

theorem State.addReq_levels (a : State) (r : Req) : Levels a (a.addReq r) := .of_wrp rfl rfl

theorem Levels.foldl {α : Type} {f : State → α → State} (hf : ∀ x i, Levels x (f x i)) (is : List α) (a : State) : Levels a (is.foldl f a) := by
  induction is generalizing a with
  | nil => exact .refl a
  | cons i is ih => exact (hf a i).trans (ih _)

end

/-! A thread that has not exited. -/

theorem State.thread_dropKept_st (a : State) (t u : Nat) : ((a.dropKept t).thread u).st = (a.thread u).st := by
  have hdone : ∀ w gid, (a.doneLane w gid).thread u = a.thread u := fun w gid => by
    unfold State.doneLane
    split <;> rfl
  dsimp only [State.dropKept]
  split
  · rw [State.thread_setThread]
    split
    · next hu => rw [hu]
    · rw [hdone]
  · rfl

/-- Where some lane retires, a thread of no Scribe warp does not end (R342). -/
theorem State.retire_alive {a : State} {u : Nat} (hwid : widOf (warpOf u) ≠ 27) (hlive : (a.thread u).st ≠ .exited) (t : Nat) (pc : Int) :
    ((a.retire t pc).thread u).st ≠ .exited := by
  by_cases hu : u = t
  · subst hu
    have hnot : ¬(widOf (warpOf u) = 27 ∧ (!(a.thread u).inH) = true) := fun hc => hwid hc.1
    simp only [State.retire, if_neg hnot, State.thread_setThread_self]
    split <;> decide
  · dsimp only [State.retire]
    split
    · split
      · have hthr : (a.endThread t).thread u = (a.dropKept t).thread u := by
          rw [State.thread, State.endThread, Tab.get_del, if_neg hu, State.thread]
        rwa [hthr, State.thread_dropKept_st]
      · rwa [State.thread_setThread, if_neg hu]
    · rwa [State.thread_setThread, if_neg hu]

/-! The end of a committed draft (R254). -/

/-- Retiring INK in a draft's lanes brings no STEP about and does not end a thread of no Scribe warp. -/
theorem State.settle_noStep {a : State} {w u : Nat} (hno : a.NoStep w) (hgoing : (a.warp w).stopping = false) (hu : u ∈ threadsOf w)
    (hlive : (a.thread u).st ≠ .exited) : (a.settle w).NoStep w := by
  rw [State.settle_meet hgoing hu hlive, (a.meet_spec w).1]
  exact hno

theorem State.draftEnd_noStep {a : State} {w u : Nat} (hno : a.NoStep w) (hgoing : (a.warp w).stopping = false) (hwid : widOf w ≠ 27)
    (hu : u ∈ threadsOf w) (hlive : (a.thread u).st ≠ .exited) : (a.draftEnd w).NoStep w := by
  obtain ⟨hscr, -⟩ := a.draftScr_spec w
  set b := a.draftScr w with hb
  set c := (b.setCore (coreOf w) { b.core (coreOf w) with blot := (b.core (coreOf w)).blot.filter (fun x => decide (x.warp ≠ w)) }).setWarp w
    { b.warp w with draft := {} } with hc
  have hlevels : Levels a c := by
    have hab : Levels a b := .of_wrp (by rw [hscr]) (by rw [hscr])
    have hcore : Levels b (b.setCore (coreOf w) { b.core (coreOf w) with blot := (b.core (coreOf w)).blot.filter (fun x => decide (x.warp ≠ w)) }) :=
      .of_wrp rfl rfl
    exact hab.trans (hcore.trans (State.setWarp_levels _ rfl rfl rfl))
  have hthread : c.thread u = a.thread u := State.thread_congr (by rw [hc, State.setWarp_thr, State.setCore_thr, hscr]) u
  set ts := ((a.warp w).draft.lanes).map (threadOf w)
  have hends : Levels a (ts.foldl (fun x t => x.endWait t) c) := hlevels.trans (.foldl (fun x t => x.retire_levels ..) _ _)
  have halive : ((ts.foldl (fun x t => x.endWait t) c).thread u).st ≠ .exited :=
    List.foldlRecOn (motive := fun x : State => (x.thread u).st ≠ .exited) ts _ (by rwa [hthread])
      fun x hx t _ => State.retire_alive (by rwa [warpOf_of_mem hu]) hx t _
  have hrun : a.draftEnd w = ((ts.foldl (fun x t => x.endWait t) c).stepTrap w (a.warp w).draft.lanes).settle w := rfl
  rw [hrun, State.stepTrap_eq (hends.noStep hno)]
  exact State.settle_noStep (hends.noStep hno) ((hends.warp w).1.trans hgoing) hu halive

/-- Nor does the sending of a draft's prepares. -/
theorem State.draftSend_noStep {a : State} {w u : Nat} (hno : a.NoStep w) (hgoing : (a.warp w).stopping = false) (hwid : widOf w ≠ 27)
    (hu : u ∈ threadsOf w) (hlive : (a.thread u).st ≠ .exited) : (a.draftSend w).NoStep w := by
  unfold State.draftSend
  dsimp only
  split
  · exact hno
  · split
    · exact State.draftEnd_noStep hno hgoing hwid hu hlive
    · refine Levels.noStep (Levels.trans ?_ (State.setWarp_levels _ rfl rfl rfl)) hno
      exact .foldl (fun x l => x.addReq_levels _) _ _

/-! INK (R254). -/

section
variable {s : State} (hd : Drafted s) (h : Hdr)
include hd

theorem Drafted.drafting_active {l : Nat} (hl : l ∈ s.active h) : (s.opened h).drafting s.cur.warp l = true := by
  rw [(hd.start_opened h).rest]
  exact hd.drafted l (State.mem_active hl).1

theorem Drafted.filter_inside : (s.active h).filter ((s.opened h).drafting s.cur.warp) = s.active h :=
  List.filter_eq_self.mpr fun _ hl => hd.drafting_active h hl

theorem Drafted.filter_outside : (s.active h).filter (fun l => !(s.opened h).drafting s.cur.warp l) = [] :=
  List.filter_eq_nil_iff.mpr fun _ hl => by simp [hd.drafting_active h hl]

theorem Drafted.nodup_active : (s.active h).Nodup := hd.nodup.filter _

theorem Drafted.live_active {l : Nat} (hl : l ∈ s.active h) : ((s.opened h).thread (s.lane l)).active := by
  obtain ⟨hmem, hon⟩ := State.mem_active hl
  rw [(hd.start_opened h).on l hmem hon]
  exact hd.live l hmem

end

/-- What INK does with some lanes of a draft. -/
def inkBody (act : List Nat) (a : State) : State :=
  if 2 ≤ (a.warp a.cur.warp).draft.depth then
    (a.setWarp a.cur.warp { a.warp a.cur.warp with
      draft := { (a.warp a.cur.warp).draft with depth := (a.warp a.cur.warp).draft.depth - 1 } }).retireAll act
  else
    let b := a.waitAll act .ink
    (b.setWarp a.cur.warp { b.warp a.cur.warp with
      draft := { (b.warp a.cur.warp).draft with inked := (b.warp a.cur.warp).draft.inked ++ act } }).draftSend a.cur.warp

/-- INK of a drafted group ends as its body leaves it. -/
theorem Drafted.exec_ink {s : State} {h : Hdr} (hd : Drafted s) (hl : Legal s h {}) (hne : s.active h ≠ [])
    (hno : (inkBody (s.active h) (s.opened h)).NoStep s.cur.warp) :
    exec (.ink h) s = .next (s.unitEnd (inkBody (s.active h) (s.opened h))) := by
  have hcur : (s.opened h).cur = s.cur := (hd.start_opened h).cur
  have hempty : (s.active h).isEmpty = false := by simpa using hne
  have hbody : ∀ body : List Nat → State → State, body (s.active h) (s.opened h) = inkBody (s.active h) (s.opened h) →
      s.issue h {} body = s.unitEnd (inkBody (s.active h) (s.opened h)) := fun body hb => by
    rw [← hb, hd.issue_eq hl hne (by rwa [hb])]
  refine congrArg Host.Outcome.next (hbody _ ?_)
  simp only [hcur, hd.filter_inside, hd.filter_outside, hempty, inkBody]
  rfl

theorem Drafted.inner_ink {s : State} {h : Hdr} (hd : Drafted s) (hl : Legal s h {}) (hdeep : 2 ≤ (s.warp s.cur.warp).draft.depth)
    (hne : s.active h ≠ []) : ∃ b, exec (.ink h) s = .next b ∧
    Done b (s.active h) (ret (s.opened h)) ((s.opened h).setWarp s.cur.warp { s.warp s.cur.warp with
      draft := { (s.warp s.cur.warp).draft with depth := (s.warp s.cur.warp).draft.depth - 1 } }) := by
  have ha := hd.start_opened h
  set g := (s.opened h).setWarp s.cur.warp { s.warp s.cur.warp with
    draft := { (s.warp s.cur.warp).draft with depth := (s.warp s.cur.warp).draft.depth - 1 } } with hg
  have hrests : Rests (s.opened h) g := State.setWarp_rests _ (by rw [ha.warp]) (by rw [ha.warp]) (by rw [ha.warp])
  have hdone : Done (g.retireAll (s.active h)) (s.active h) (ret (s.opened h)) g :=
    State.retireAll_done (hd.nodup_active h) (by rw [hg, State.setWarp_cur, ha.cur]; exact hd.wid) (fun l hl => hd.lane l (State.mem_active hl).1)
      fun l hl => by rw [State.lane_def, hg, State.setWarp_cur, ha.cur]; exact hd.live_active h hl
  have hbody : inkBody (s.active h) (s.opened h) = g.retireAll (s.active h) := by
    rw [inkBody, ha.cur, ha.warp, if_pos hdeep]
  refine ⟨_, ?_, hdone⟩
  rw [hd.exec_ink hl hne (by rw [hbody]; exact hdone.noStep (hrests.noStep (hd.noStep_opened h))), hbody, hd.unitEnd_done hrests (ret_keeps _) hdone]

theorem Drafted.outer_ink {s : State} {h : Hdr} (hd : Drafted s) (hl : Legal s h {}) (hone : (s.warp s.cur.warp).draft.depth = 1)
    (hne : s.active h ≠ []) : ∃ b, exec (.ink h) s = .next (s.unitEnd (b.draftSend s.cur.warp)) ∧
    Done b (s.active h) (fun _ x => x.waits .ink) ((s.opened h).setWarp s.cur.warp { s.warp s.cur.warp with
      draft := { (s.warp s.cur.warp).draft with inked := (s.warp s.cur.warp).draft.inked ++ s.active h } }) := by
  have ha := hd.start_opened h
  have hwait : Done ((s.opened h).waitAll (s.active h) .ink) (s.active h) (fun _ x => x.waits .ink) (s.opened h) :=
    State.waitAll_done (hd.nodup_active h) fun l hl => by rw [ha.lane]; exact hd.live_active h hl
  have hwarp : ((s.opened h).waitAll (s.active h) .ink).warp s.cur.warp = s.warp s.cur.warp := by
    rw [hwait.rest]
    exact ha.warp _
  have hdone := hwait.setWarp s.cur.warp { s.warp s.cur.warp with
    draft := { (s.warp s.cur.warp).draft with inked := (s.warp s.cur.warp).draft.inked ++ s.active h } }
  set b := ((s.opened h).waitAll (s.active h) .ink).setWarp s.cur.warp { s.warp s.cur.warp with
    draft := { (s.warp s.cur.warp).draft with inked := (s.warp s.cur.warp).draft.inked ++ s.active h } } with hb
  have hbody : inkBody (s.active h) (s.opened h) = b.draftSend s.cur.warp := by
    simp only [inkBody, ha.cur, ha.warp, hone, hwarp, hb]
    rfl
  have hno : (b.draftSend s.cur.warp).NoStep s.cur.warp := by
    obtain ⟨l, ls, hls⟩ := List.exists_cons_of_ne_nil hne
    have hmem : l ∈ s.active h := by rw [hls]; exact List.mem_cons_self
    refine State.draftSend_noStep (u := s.lane l) ?_ ?_ hd.wid (mem_threadsOf.mpr ⟨l, hd.lane l (State.mem_active hmem).1, rfl⟩) ?_
    · refine hdone.noStep (Rests.noStep ?_ (hd.noStep_opened h))
      exact State.setWarp_rests _ (by rw [ha.warp]) (by rw [ha.warp]) (by rw [ha.warp])
    · rw [hb, State.warp_setWarp_self]
      exact hd.going
    · have hon := hdone.on l hmem
      rw [State.lane_def, State.setWarp_cur, ha.cur] at hon
      rw [State.lane_def, hon]
      simp [Thread.waits]
  exact ⟨b, by rw [hd.exec_ink hl hne (by rwa [hbody]), hbody], hdone⟩

/-! Rollbacks (R256). -/

/-- A draft lane with its checkpoint restored stands at the handler. -/
def Thread.restored (x : Thread) (c : Ckpt) (handler code info : Int) : Thread :=
  { x with regs := c.regs, preds := c.preds, mr := c.mr, pc := handler, st := if x.st = .stopped then .stopped else .runnable
           prior := .runnable, wait := .none_, busy := false, deadline := none, ldnb := none, dcode := code, dinfo := info, pend := none }

/-- What a lane's rollback makes of its thread: a lane without a checkpoint stays as it is. -/
def Draft.restore (d : Draft) (l : Nat) (code info : Int) (x : Thread) : Thread :=
  match d.ckpt.find? (fun c => decide (c.lane = l)) with
  | some c => x.restored c d.handler code info
  | none => x

/-- In `b` the warp `w` counts other lanes than in `a`, and threads, requests and cores may differ. -/
structure Counted (a b : State) (w : Nat) : Prop where
  rest : b = { a with thr := b.thr, wrp := b.wrp, reqs := b.reqs, cor := b.cor }
  warp : ∀ v, b.warp v = if v = w then { a.warp v with out := (b.warp v).out } else a.warp v

theorem Counted.refl (a : State) (w : Nat) : Counted a a w := ⟨rfl, fun v => by split <;> rfl⟩

theorem Counted.trans {a b c : State} {w : Nat} (h : Counted a b w) (h' : Counted b c w) : Counted a c w := by
  refine ⟨by rw [h'.rest, h.rest], fun v => ?_⟩
  rw [h'.warp, h.warp]
  split <;> rfl

theorem State.doneLane_counted (a : State) (w gid : Nat) : Counted a (a.doneLane w gid) w ∧ (a.doneLane w gid).thr = a.thr := by
  unfold State.doneLane
  split
  · exact ⟨.refl a w, rfl⟩
  · next x hx =>
    have hself : a.warp w = x := Tab.get_of_find _ _ _ _ hx
    refine ⟨⟨rfl, fun v => ?_⟩, rfl⟩
    rw [State.warp_setWarp]
    split
    · next hv => rw [hv, hself]
    · rfl

theorem State.foldl_doneLane_counted (rs : List Req) (a : State) (w : Nat) :
    Counted a (rs.foldl (fun x r => x.doneLane w r.gid) a) w ∧ (rs.foldl (fun x r => x.doneLane w r.gid) a).thr = a.thr := by
  induction rs generalizing a with
  | nil => exact ⟨.refl a w, rfl⟩
  | cons r rs ih =>
    obtain ⟨hone, hthr⟩ := a.doneLane_counted w r.gid
    obtain ⟨hall, hthr'⟩ := ih (a.doneLane w r.gid)
    exact ⟨hone.trans hall, hthr'.trans hthr⟩

/-- The drafted requests of a lane that its rollback drops. -/
def State.rolledReqs (a : State) (w l : Nat) : List Req :=
  a.reqs.filter fun r => decide (r.warp = w) && !(decide (r.warp = w) && isFetch r.kind) && decide (r.lane = l) && r.drafted

/-- A lane that waits inside no counted unit is restored. -/
theorem State.rollLane_spec {a : State} {w l : Nat} (hkept : (a.thread (threadOf w l)).kept = none) (code info : Int) :
    Counted a (a.rollLane w l code info) w ∧ ∀ k, (a.rollLane w l code info).thread k =
      if k = threadOf w l then (a.warp w).draft.restore l code info (a.thread k) else a.thread k := by
  have hdrop : a.dropKept (threadOf w l) = a := by simp only [State.dropKept, hkept]
  set b := (a.rolledReqs w l).foldl (fun x r => x.doneLane w r.gid) a with hb
  have hrun : ((b.warp w).draft.ckpt.find? (fun c => decide (c.lane = l)) = none ∧ a.rollLane w l code info = b) ∨
      ∃ c rs cs, (b.warp w).draft.ckpt.find? (fun c => decide (c.lane = l)) = some c ∧ a.rollLane w l code info =
        { b.setThread (threadOf w l) ((b.thread (threadOf w l)).restored c (b.warp w).draft.handler code info) with reqs := rs, cor := cs } := by
    dsimp only [State.rollLane]
    rw [hdrop]
    split
    · next hc => exact .inl ⟨hc, rfl⟩
    · next c hc => exact .inr ⟨c, _, _, hc, rfl⟩
  obtain ⟨hcounted, hthr⟩ := State.foldl_doneLane_counted (a.rolledReqs w l) a w
  rw [← hb] at hcounted hthr
  have hthread : ∀ k, b.thread k = a.thread k := State.thread_congr hthr
  have hdraft : (b.warp w).draft = (a.warp w).draft := by rw [hcounted.warp, if_pos rfl]
  rw [hdraft] at hrun
  rcases hrun with ⟨hc, hrun⟩ | ⟨c, rs, cs, hc, hrun⟩
  · have hsame : ∀ x, (a.warp w).draft.restore l code info x = x := fun x => by rw [Draft.restore, hc]
    rw [hrun]
    exact ⟨hcounted, fun k => by rw [hthread, hsame, ite_self]⟩
  · have hrestored : ∀ x, (a.warp w).draft.restore l code info x = x.restored c (a.warp w).draft.handler code info := fun x => by
      rw [Draft.restore, hc]
    rw [hrun]
    refine ⟨hcounted.trans ⟨rfl, fun v => ?_⟩, fun k => ?_⟩
    · split <;> rfl
    · refine (State.thread_setThread ..).trans ?_
      rw [hthread, hthread, hrestored]
      exact ite_congr rfl (fun hk => by rw [hk]) fun _ => rfl

/-- Several lanes are restored one after the other. -/
theorem State.rollLanes_spec {w : Nat} {d : Draft} {ls : List Nat} (hnodup : ls.Nodup) (code info : Int) (a : State) (hdraft : (a.warp w).draft = d)
    (hkept : ∀ l ∈ ls, (a.thread (threadOf w l)).kept = none) : let b := ls.foldl (fun x l => x.rollLane w l code info) a
    Counted a b w ∧ (∀ l ∈ ls, b.thread (threadOf w l) = d.restore l code info (a.thread (threadOf w l))) ∧
      ∀ k, (∀ l ∈ ls, k ≠ threadOf w l) → b.thread k = a.thread k := by
  induction ls generalizing a with
  | nil => exact ⟨.refl a w, by simp, fun _ _ => rfl⟩
  | cons l ls ih =>
    obtain ⟨hl, hnodup⟩ := List.nodup_cons.mp hnodup
    obtain ⟨hkept, hkepts⟩ := List.forall_mem_cons.mp hkept
    obtain ⟨hone, hthread⟩ := State.rollLane_spec hkept code info
    have hne : ∀ j ∈ ls, threadOf w j ≠ threadOf w l := fun j hj heq => hl (threadOf_inj heq ▸ hj)
    have hsame : ∀ j ∈ ls, (a.rollLane w l code info).thread (threadOf w j) = a.thread (threadOf w j) := fun j hj => by
      rw [hthread, if_neg (hne j hj)]
    obtain ⟨hall, hon, hoff⟩ := ih hnodup (a.rollLane w l code info) (by rw [hone.warp, if_pos rfl]; exact hdraft)
      fun j hj => by rw [hsame j hj]; exact hkepts j hj
    refine ⟨hone.trans hall, List.forall_mem_cons.mpr ⟨?_, fun j hj => ?_⟩, fun k hk => ?_⟩
    · rw [List.foldl_cons, hoff _ fun j hj => (hne j hj).symm, hthread, if_pos rfl, hdraft]
    · rw [List.foldl_cons, hon j hj, hsame j hj]
    · obtain ⟨hkl, hk⟩ := List.forall_mem_cons.mp hk
      rw [List.foldl_cons, hoff k hk, hthread, if_neg hkl]

/-- A rollback restores its lanes and leaves memory, the host's memory, contexts and the warps' levels as they were. -/
theorem State.rollback_spec {a : State} {w : Nat} {ls : List Nat} (hnodup : ls.Nodup) (hkept : ∀ l ∈ ls, (a.thread (threadOf w l)).kept = none)
    (code info : Int) : let b := a.rollback w ls code info
    Levels a b ∧ b.mem = a.mem ∧ b.host = a.host ∧
      (∀ l ∈ ls, b.thread (threadOf w l) = (a.warp w).draft.restore l code info (a.thread (threadOf w l))) ∧
      ∀ k, (∀ l ∈ ls, k ≠ threadOf w l) → b.thread k = a.thread k := by
  obtain ⟨hcounted, hon, hoff⟩ := State.rollLanes_spec hnodup code info a rfl hkept
  set b := ls.foldl (fun x l => x.rollLane w l code info) a with hb
  obtain ⟨x, hrun, hstopping, hhm, hctx⟩ : ∃ x : Warp,
      (a.rollback w ls code info = (b.setWarp w x).liftPreps w ∨ a.rollback w ls code info = b.setWarp w x) ∧
      x.stopping = (b.warp w).stopping ∧ x.hm = (b.warp w).hm ∧ x.ctx = (b.warp w).ctx := by
    rw [State.rollback]
    simp only [← hb]
    split
    · exact ⟨_, .inl rfl, rfl, rfl, rfl⟩
    · exact ⟨_, .inr rfl, rfl, rfl, rfl⟩
  have hlevels : Levels a (b.setWarp w x) := by
    refine Levels.trans ⟨by rw [hcounted.rest], fun v => ?_⟩ (b.setWarp_levels hstopping hhm hctx)
    rw [hcounted.warp]
    split <;> exact ⟨rfl, rfl, rfl⟩
  have hmem : b.mem = a.mem ∧ b.host = a.host := by rw [hcounted.rest]; exact ⟨rfl, rfl⟩
  dsimp only
  rcases hrun with hrun | hrun
  · rw [hrun]
    exact ⟨hlevels.trans (.of_wrp rfl rfl), hmem.1, hmem.2, hon, hoff⟩
  · rw [hrun]
    exact ⟨hlevels, hmem.1, hmem.2, hon, hoff⟩

/-! ERASE (R255). -/

theorem Drafted.exec_erase {s : State} {h : Hdr} (hd : Drafted s) (hl : Legal s h {}) (hne : s.active h ≠ []) {code : Int}
    (hno : ((s.opened h).rollback s.cur.warp (s.active h) 1 code).NoStep s.cur.warp) :
    exec (.erase h code) s = .next (s.unitEnd ((s.opened h).rollback s.cur.warp (s.active h) 1 code)) := by
  have hcur : (s.opened h).cur = s.cur := (hd.start_opened h).cur
  have hempty : (s.active h).isEmpty = false := by simpa using hne
  have hbody : ∀ body : List Nat → State → State, body (s.active h) (s.opened h) = (s.opened h).rollback s.cur.warp (s.active h) 1 code →
      s.issue h {} body = s.unitEnd ((s.opened h).rollback s.cur.warp (s.active h) 1 code) := fun body hb => by
    rw [← hb, hd.issue_eq hl hne (by rwa [hb])]
  refine congrArg Host.Outcome.next (hbody _ ?_)
  simp only [hcur, hd.filter_inside, hd.filter_outside, hempty]
  rfl

theorem Drafted.erases {s : State} {h : Hdr} (hd : Drafted s) (hl : Legal s h {}) (hne : s.active h ≠ [])
    (hkept : ∀ l ∈ s.active h, (s.thread (s.lane l)).kept = none) (code : Int) : ∃ b, exec (.erase h code) s = .next (s.unitEnd b) ∧
    (∀ l ∈ s.active h, ∀ c : Ckpt, (s.warp s.cur.warp).draft.ckpt.find? (fun c => decide (c.lane = l)) = some c → b.thread (s.lane l) =
      { s.atIssue l with regs := c.regs, preds := c.preds, mr := c.mr, pc := (s.warp s.cur.warp).draft.handler, st := .runnable
                         prior := .runnable, wait := .none_, busy := false, deadline := none, dcode := 1, dinfo := code, pend := none
                         ldnb := none }) ∧
    (∀ k, (∀ l ∈ s.active h, k ≠ s.lane l) → b.thread k = (s.opened h).thread k) ∧ b.mem = s.mem ∧ b.host = s.host ∧ b.ctxs = s.ctxs := by
  have ha := hd.start_opened h
  have hissue : ∀ l ∈ s.active h, (s.opened h).thread (threadOf s.cur.warp l) = s.atIssue l := fun l hl =>
    ha.on l (State.mem_active hl).1 (State.mem_active hl).2
  obtain ⟨hlevels, hmem, hhost, hon, hoff⟩ := State.rollback_spec (a := s.opened h) (w := s.cur.warp) (hd.nodup_active h)
    (fun l hl => by rw [hissue l hl]; exact hkept l hl) 1 code
  refine ⟨_, hd.exec_erase hl hne (hlevels.noStep (hd.noStep_opened h)), fun l hl c hc => ?_, hoff, ?_, ?_, ?_⟩
  · have hst : (s.atIssue l).st ≠ .stopped := by
      have hlive := hd.live_active h hl
      rw [State.lane_def, hissue l hl] at hlive
      rcases hlive with hst | hst <;> rw [hst] <;> decide
    rw [State.lane_def, hon l hl, hissue l hl, ha.warp, Draft.restore, hc]
    simp only [Thread.restored, if_neg hst]
  · rw [hmem, ha.rest]
  · rw [hhost, ha.rest]
  · rw [hlevels.ctxs, ha.rest]

/-! Outside a draft (R254, R255). -/

theorem Start.filter_inside {s : State} {h : Hdr} (ha : Start s (s.opened h) h) (hp : Plain s) :
    (s.active h).filter ((s.opened h).drafting (s.opened h).cur.warp) = [] :=
  List.filter_eq_nil_iff.mpr fun l hl => by simp [ha.not_drafting hp l hl]

theorem Start.filter_outside {s : State} {h : Hdr} (ha : Start s (s.opened h) h) (hp : Plain s) :
    (s.active h).filter (fun l => !(s.opened h).drafting (s.opened h).cur.warp l) = s.active h :=
  List.filter_eq_self.mpr fun l hl => by simp [ha.not_drafting hp l hl]

theorem acts_ink (h : Hdr) : Acts (.ink h) h {} always ret (fun a _ => a) :=
  .of_rests (fun _ => rfl) ret_keeps fun s hp ha _ => ⟨.refl _, by
    simp only [ha.filter_inside hp, List.isEmpty_nil, if_true]
    exact ha.retireAll hp ha.cur rfl⟩

theorem acts_erase (h : Hdr) (code : Int) : Acts (.erase h code) h {} always ret (fun a _ => a) :=
  .of_rests (fun _ => rfl) ret_keeps fun s hp ha _ => ⟨.refl _, by
    simp only [ha.filter_inside hp, ha.filter_outside hp, List.isEmpty_nil, if_true]
    exact ha.retireAll hp ha.cur rfl⟩

/-- Settles O34: a drafted group is at its issue as a plain one is; INK leaves a level or waits, ERASE restores its lanes, and outside a draft
both retire. -/
theorem draftEnds : Obligations.DraftEnds :=
  ⟨⟨fun _ _ hd hl hdeep hne => hd.inner_ink hl hdeep hne, fun _ _ hd hl hone hne => hd.outer_ink hl hone hne,
    fun _ code _ hd hl hne hkept => hd.erases hl hne hkept code⟩, acts_ink, acts_erase⟩

end Sys2Proof.Machine
end

