-- ==== Sys2Proof/Proofs/GroupForms.lean ====
section
/-! Forms that act once for their group: what their body leaves in a plain group decides what they leave, and the words they read. -/

namespace Sys2Proof.Machine

/-- An instruction that acts once for its group, in states that meet a condition of its own: its effect leaves the warp at rest, and its lanes
retire or wait. -/
theorem ActsIf.of_rests {Q : State → Prop} {i : Instr} {h : Hdr} {u : Uses} {P : State → List Nat → Prop} {d : State → Nat → Thread → Thread}
    {G : State → List Nat → State} {body : State → List Nat → State → State}
    (hexec : ∀ s, Q s → Plain s → exec i s = .next (s.issue h u (body s))) (hkeeps : ∀ a, Keeps (d a))
    (hbody : ∀ s, Q s → Plain s → Start s (s.opened h) h → s.active h ≠ [] → P (s.opened h) (s.active h) →
      Rests (s.opened h) (G (s.opened h) (s.active h)) ∧
      Done (body s (s.active h) (s.opened h)) (s.active h) (d (s.opened h)) (G (s.opened h) (s.active h))) : ActsIf Q i h u P d G := by
  intro s hQ hp hl hP
  obtain ⟨a, ha, ⟨rfl, hend⟩, hissue⟩ := State.issue_plain hp hl (body s)
  rw [hexec s hQ hp, hissue]
  by_cases hn : s.active h = []
  · rw [if_pos hn]
    exact ⟨_, rfl, by rw [if_pos hn]⟩
  · obtain ⟨hrests, hdone⟩ := hbody s hQ hp ha hn (hP hn)
    rw [if_neg hn]
    exact ⟨_, congrArg Host.Outcome.next (ha.unitEnd_done hp hrests (hkeeps _) hdone), by rwa [if_neg hn]⟩

theorem Thread.active.not_stopped {x : Thread} (hx : x.active) : x.st ≠ .stopped := by
  rcases hx with hst | hst <;> rw [hst] <;> decide

theorem Thread.active.not_exited {x : Thread} (hx : x.active) : x.st ≠ .exited := by
  rcases hx with hst | hst <;> rw [hst] <;> decide

/-- Retiring after an effect that leaves the warp at rest. -/
theorem Start.retireAll_of_rests {s g : State} {h : Hdr} (hp : Plain s) (ha : Start s (s.opened h) h) (hg : Rests (s.opened h) g) :
    Done (g.retireAll (s.active h)) (s.active h) (ret (s.opened h)) g := by
  have hcur := hg.cur.trans ha.cur
  have hdone := State.retireAll_done (active_nodup (h := h) hp) (by rw [hcur]; exact hp.wid) (hp.active_lt h) (fun l hl => by
    rw [Thread.active, (hg.thread _).1, State.lane, hcur]
    exact ha.live hp hl)
  rwa [hg.cur] at hdone

/-! The words of a group's source fields (R173). -/

theorem State.length_curThreads (a : State) (act : List Nat) : (a.curThreads act).length = act.length := List.length_map ..

theorem State.getD_curThreads (a : State) {act : List Nat} {i : Nat} (hi : i < act.length) :
    (a.curThreads act).getD i 0 = a.lane (act.getD i 0) := by
  simp [State.curThreads, State.lane, hi]

theorem State.arg_readFields (a : State) {act fs : List Nat} {i j : Nat} (hi : i < act.length) (hj : j < fs.length) :
    arg (fieldVal (a.readFields (a.curThreads act) fs).2 i) j = a.srcWord act fs i j := by
  obtain ⟨-, hlen, hval⟩ := State.readFields_spec (a.curThreads act) fs a
  have hval := hval j hj i (by rwa [State.length_curThreads])
  have hfield : arg (fieldVal (a.readFields (a.curThreads act) fs).2 i) j = ((a.readFields (a.curThreads act) fs).2.getD j []).getD i 0 := by
    simp [arg, fieldVal, hlen, hj]
  rw [hfield, hval, State.length_curThreads, State.getD_curThreads a hi]
  rfl

end Sys2Proof.Machine
end

