-- ==== Sys2Proof/Proofs/SpawnDraftGive.lean ====
section
/-! SPAWN, DRAFT, RGIVE and RCLAIM (R76, R252, R270, R271). -/

namespace Sys2Proof.Machine

/-! SPAWN (R270). -/

theorem State.waitAll_nil (a : State) (k : Wait) : a.waitAll [] k = a := rfl

theorem acts_spawn (h : Hdr) (a b : Nat) (imm : Int) (i : Nat) : Acts (.spawn h a b imm) h { src := [a, b], forbid := true }
    (fun s act => let k := s.core (coreOf s.cur.warp)
      portsReady { src := [a, b], forbid := true } s act ∧ (s.launchOf s.cur.warp).det = false ∧ deviceIndex (s.cur.n + imm) = true ∧
      binFor k.bins (s.cur.n + imm) = some i ∧ act.length + ((Tab.find k.bins i).map (fun y => y.args.length)).getD 0 ≤ 16) ret
    (fun s act =>
      let c := coreOf s.cur.warp
      let y : Bin := (Tab.find (s.core c).bins i).getD { entry := s.cur.n + imm, args := [], due := s.now c + spawnNs (s.launchOf s.cur.warp).spint }
      let s1 := (s.readFields (s.curThreads act) [a, b]).1
      s1.setCore c { s1.core c with bins := Tab.put i { y with args := y.args ++ (List.range act.length).map (fun j =>
        (s.srcWord act [a, b] j 0, s.srcWord act [a, b] j 1)) } (s1.core c).bins }) := by
  refine ActsIf.of_rests (fun _ _ _ => rfl) ret_keeps fun s _ hp ha hne ⟨hports, hdet, hentry, hbin, hroom⟩ => ?_
  set x := s.opened h
  set act := s.active h
  set y : Bin := (Tab.find (x.core (coreOf x.cur.warp)).bins i).getD
    { entry := x.cur.n + imm, args := [], due := x.now (coreOf x.cur.warp) + spawnNs (x.launchOf x.cur.warp).spint } with hy
  have hfits : act.length ≤ 16 - y.args.length := by
    have hlen : y.args.length = ((Tab.find (x.core (coreOf x.cur.warp)).bins i).map fun y => y.args.length).getD 0 := by
      rw [hy]
      cases Tab.find (x.core (coreOf x.cur.warp)).bins i <;> rfl
    omega
  have hready : x.portSt { src := [a, b], forbid := true } act.length = .ready := hports
  have hempty : act.isEmpty = false := by simpa using hne
  have hargs : (List.range act.length).map (fun j => (arg (fieldVal (x.readFields (x.curThreads act) [a, b]).2 j) 0,
      arg (fieldVal (x.readFields (x.curThreads act) [a, b]).2 j) 1)) =
      (List.range act.length).map fun j => (x.srcWord act [a, b] j 0, x.srcWord act [a, b] j 1) :=
    List.map_congr_left fun j hj => by
      have hlt := List.mem_range.mp hj
      rw [State.arg_readFields x hlt (by simp), State.arg_readFields x hlt (by simp)]
  have hstands := (x.readFields_stands (x.curThreads act) [a, b]).trans (State.setCore_stands _ (coreOf x.cur.warp)
    (k := { (x.readFields (x.curThreads act) [a, b]).1.core (coreOf x.cur.warp) with
      bins := Tab.put i { y with args := y.args ++ (List.range act.length).map fun j => (x.srcWord act [a, b] j 0, x.srcWord act [a, b] j 1) }
        ((x.readFields (x.curThreads act) [a, b]).1.core (coreOf x.cur.warp)).bins }) rfl)
  refine ⟨hstands.rests, ?_⟩
  simp only [hdet, hentry, hready, hbin, ← hy, List.take_of_length_le hfits, List.drop_of_length_le hfits, hempty, hargs, State.waitAll_nil,
    Bool.not_true, Bool.false_eq_true, if_false]
  exact ha.retireAll_of_rests hp hstands.rests

/-! Two writes of one thread. -/

/-- The later of two writes at a key stands. -/
theorem Tab.put_put {α : Type} (k : Nat) (v w : α) (t : Tab α) : Tab.put k v (Tab.put k w t) = Tab.put k v t := by
  induction t with
  | nil => simp [Tab.put]
  | cons p t ih =>
    obtain ⟨j, x⟩ := p
    by_cases hlt : k < j
    · simp [Tab.put, hlt]
    · by_cases heq : k = j
      · simp [Tab.put, heq]
      · simp [Tab.put, hlt, heq, ih]

theorem State.setThread_setThread (a : State) (t : Nat) (x y : Thread) : (a.setThread t x).setThread t y = a.setThread t y := by
  rw [State.setThread, State.setThread, State.setThread, Tab.put_put]

/-! DRAFT (R252). -/

/-- What the lanes do in two steps, they do in one. -/
theorem Done.trans {c b g : State} {act : List Nat} {d d' : Nat → Thread → Thread} (hb : Done b act d g) (hc : Done c act d' b) :
    Done c act (fun l x => d' l (d l x)) g := by
  have hlane : ∀ l, b.lane l = g.lane l := fun l => by rw [hb.rest]; rfl
  refine ⟨hc.rest.trans (by rw [hb.rest]), fun l hl => ?_, fun k hk => (hc.others k fun l hl => by rw [hlane]; exact hk l hl).trans (hb.others k hk)⟩
  rw [← hlane, hc.on l hl, hlane, hb.on l hl]

/-- Lanes that have acted and stay active may retire. -/
theorem Done.retireAll {b g : State} {act : List Nat} {d : Nat → Thread → Thread} (hb : Done b act d g) (hnodup : act.Nodup)
    (hwid : widOf g.cur.warp ≠ 27) (hlane : ∀ l ∈ act, l < 16) (hlive : ∀ l ∈ act, (d l (g.thread (g.lane l))).active) :
    Done (b.retireAll act) act (fun l x => (d l x).retired g.cur.next) g := by
  have hcur : b.cur = g.cur := by rw [hb.rest]
  have hdone := State.retireAll_done hnodup (by rwa [hcur]) hlane fun l hl => by
    rw [State.lane, hcur]
    exact (hb.on l hl).symm ▸ hlive l hl
  rw [hcur] at hdone
  exact hb.trans hdone

theorem State.nothing_owed {s : State} (howed : ∀ l ∈ s.cur.lanes, s.owedRegs (s.lane l) = [] ∧ s.owedPreds (s.lane l) = []) :
    ¬(s.cur.lanes.any fun l => !(s.owedRegs (threadOf s.cur.warp l)).isEmpty || !(s.owedPreds (threadOf s.cur.warp l)).isEmpty) = true := by
  rw [List.any_eq_true]
  rintro ⟨l, hl, hany⟩
  obtain ⟨hregs, hpreds⟩ := howed l hl
  rw [State.lane_def] at hregs hpreds
  simp [hregs, hpreds] at hany

theorem acts_draft_checkpoint (h : Hdr) (imm : Int) :
    ActsIf (fun s => ∀ l ∈ s.cur.lanes, s.owedRegs (s.lane l) = [] ∧ s.owedPreds (s.lane l) = []) (.draft h imm) h {}
    (fun s _ => (s.warp s.cur.warp).draft.depth = 0 ∧ 288 ≤ s.poolFree (coreOf s.cur.warp))
    (fun s _ x => { x.retired s.cur.next with dcode := 0, dinfo := 0 })
    (fun s act => s.setWarp s.cur.warp { s.warp s.cur.warp with
      draft := { depth := 1, lanes := act, handler := wrap (s.cur.n + imm) 52
                 ckpt := act.map (fun l => { lane := l, regs := (s.thread (s.lane l)).regs, preds := (s.thread (s.lane l)).preds
                                             mr := (s.thread (s.lane l)).mr }) } }) := by
  refine .of_rests (fun s howed _ => if_neg (s.nothing_owed howed)) (fun _ _ _ _ => ⟨.inl rfl, rfl⟩) fun s _ hp ha _ ⟨hdepth, hfree⟩ => ?_
  rw [ha.cur] at hdepth hfree ⊢
  have hlane : (s.opened h).lane = threadOf s.cur.warp := funext ha.lane
  refine ⟨State.setWarp_rests _ rfl rfl rfl, ?_⟩
  simp only [hdepth, if_true, if_neg hfree.not_gt, hlane]
  set g := (s.opened h).setWarp s.cur.warp _
  have hcur : g.cur = s.cur := ha.cur
  have hdone : Done ((g.curThreads (s.active h)).foldl (fun a t => a.setThread t { a.thread t with dcode := 0, dinfo := 0 }) g) (s.active h)
      (fun _ x => { x with dcode := 0, dinfo := 0 }) g := fold_lanes (active_nodup hp) fun _ _ _ _ _ => rfl
  have hretired := hdone.retireAll (active_nodup hp) (by rw [hcur]; exact hp.wid) (hp.active_lt h) fun l hl => by
    rw [State.lane, hcur]
    exact ha.live hp hl
  rw [hcur] at hretired
  exact hretired

theorem acts_draft_full (h : Hdr) (imm : Int) :
    ActsIf (fun s => ∀ l ∈ s.cur.lanes, s.owedRegs (s.lane l) = [] ∧ s.owedPreds (s.lane l) = []) (.draft h imm) h {}
    (fun s _ => (s.warp s.cur.warp).draft.depth = 0 ∧ s.poolFree (coreOf s.cur.warp) < 288)
    (fun s _ x => { x.retired (wrap (s.cur.n + imm) 52) with dcode := 2, dinfo := 0 }) (fun s _ => s) := by
  refine .of_rests (fun s howed _ => if_neg (s.nothing_owed howed)) (fun _ _ _ _ => ⟨.inl rfl, rfl⟩) fun s _ hp ha _ ⟨hdepth, hfull⟩ => ?_
  rw [ha.cur] at hdepth hfull ⊢
  refine ⟨.refl _, ?_⟩
  simp only [hdepth, if_true, if_pos hfull]
  refine fold_lanes (active_nodup hp) fun x l hl _ hsame => ?_
  have hretire := State.retire_eq x ((s.opened h).lane l) (wrap (s.cur.n + imm) 52)
    (by rw [ha.lane, State.lane, threadOf_warp (hp.active_lt h l hl)]; exact hp.wid) (by
      rw [hsame, ha.lane]
      exact (ha.live hp hl).not_stopped)
  rw [hretire, State.setThread_setThread, State.thread_setThread_self]

/-! RGIVE (R271). -/

/-- With no claim before it nothing is granted. -/
theorem State.regrant_nil {a : State} {c : Nat} (hclaims : (a.core c).claims = []) : a.regrant c = a := by
  rw [State.regrant, hclaims]
  rfl

/-- Registers that a warp loses concern neither its level nor its threads' states. -/
theorem State.loseRegs_rests (a : State) (w n : Nat) : Rests a (a.loseRegs w n) := by
  obtain ⟨hrest, hthread, hwarp⟩ := a.loseRegs_spec w n
  generalize a.loseRegs w n = b at hrest hthread hwarp ⊢
  refine ⟨by rw [hrest], fun v => ?_, fun c => by rw [hrest]; rfl, fun k => ?_⟩
  · rw [hwarp]
    split <;> exact ⟨rfl, rfl, rfl⟩
  · rw [hthread]
    split <;> exact ⟨rfl, rfl⟩

/-- What RGIVE does once no result is owed to the registers given: the warp `w` keeps `n` of them. -/
def rgiveBody (w n : Nat) (left : Int) (act : List Nat) (a : State) : State :=
  if left < 9 then a.faultAll act 22 0
  else (((a.setWarp w { a.warp w with n := n }).loseRegs w n).retireAll act).regrant (coreOf w)

theorem exec_rgive {s : State} {h : Hdr} {g : Int}
    (howed : ∀ t ∈ threadsOf s.cur.warp, ∀ r ∈ s.owedRegs t, ((s.warp s.cur.warp).n : Int) - 9 * g ≤ r → 216 ≤ r) :
    exec (.rgive h g) s = .next (s.issue h { forbid := true }
      (fun act a => rgiveBody s.cur.warp (((s.warp s.cur.warp).n : Int) - 9 * g).toNat (((a.warp s.cur.warp).n : Int) - 9 * g) act a)) := by
  change execRgive h g s = _
  unfold execRgive
  rw [if_neg]
  · rfl
  · simp only [List.any_eq_true, not_exists, not_and, Bool.and_eq_true, decide_eq_true_eq]
    intro t ht r hr hge
    have hhigh := howed t ht r hr (by omega)
    omega

theorem acts_rgive (h : Hdr) (g : Int) :
    ActsIf (fun s => ∀ t ∈ threadsOf s.cur.warp, ∀ r ∈ s.owedRegs t, ((s.warp s.cur.warp).n : Int) - 9 * g ≤ r → 216 ≤ r) (.rgive h g) h
    { forbid := true } (fun s _ => 9 ≤ ((s.warp s.cur.warp).n : Int) - 9 * g ∧ (s.core (coreOf s.cur.warp)).claims = []) ret
    (fun s _ => (s.setWarp s.cur.warp { s.warp s.cur.warp with n := (((s.warp s.cur.warp).n : Int) - 9 * g).toNat }).loseRegs s.cur.warp
      (((s.warp s.cur.warp).n : Int) - 9 * g).toNat) := by
  refine .of_rests (fun s howed _ => exec_rgive howed) ret_keeps fun s _ hp ha _ ⟨hleft, hclaims⟩ => ?_
  rw [ha.cur] at hleft hclaims ⊢
  rw [ha.warp] at hleft ⊢
  generalize (((s.warp s.cur.warp).n : Int) - 9 * g).toNat = n
  obtain ⟨a, ha'⟩ : ∃ a, ((s.opened h).setWarp s.cur.warp { s.warp s.cur.warp with n := n }).loseRegs s.cur.warp n = a := ⟨_, rfl⟩
  have hrests : Rests (s.opened h) a := by
    rw [← ha']
    exact (State.setWarp_rests _ (by rw [ha.warp]) (by rw [ha.warp]) (by rw [ha.warp])).trans (State.loseRegs_rests _ _ _)
  have hdone := ha.retireAll_of_rests hp hrests
  have hnil : ((a.retireAll (s.active h)).core (coreOf s.cur.warp)).claims = [] := by
    rw [hdone.rest, ← ha', (State.loseRegs_spec _ _ _).1]
    exact hclaims
  rw [rgiveBody, ha.warp, if_neg hleft.not_gt, ha', State.regrant_nil hnil]
  exact ⟨hrests, hdone⟩

/-! RCLAIM (R76, R271). -/

/-- The head claim of a warp that fits is granted (R76). -/
theorem State.grantHead_warp {a : State} {c w g k : Nat} {lanes : List Nat} {rest : List Claim}
    (hclaims : (a.core c).claims = { by_ := .warp w g lanes, words := k } :: rest) (hfree : (k : Int) ≤ a.poolFree c)
    (hgoes : a.savingCore c = false) (hbound : (a.warp w).n + 9 * g ≤ 216) :
    a.grantHead c = (((lanes.map (threadOf w)).foldl State.endWait (a.granted c w g rest)).stepTrap w lanes).settle w := by
  have hfits : ¬ (decide (a.poolFree c < (k : Int)) || a.savingCore c) = true := by
    rw [hgoes]
    simpa using hfree
  have hbound' : ¬ 216 < ((a.setCore c { a.core c with claims := rest }).warp w).n + 9 * g := hbound.not_gt
  rw [State.grantHead]
  simp only [hclaims, if_neg hfits, if_neg hbound']
  rfl

/-- A claim on a core without claims heads its queue. -/
theorem State.claim_eq {a : State} {c : Nat} (hempty : (a.core c).claims = []) (q : Claim) :
    a.claim c q = (a.setCore c { a.core c with claims := [q] }).grantHead c := by
  obtain ⟨b, hb⟩ : ∃ b, a.setCore c { a.core c with claims := [q] } = b := ⟨_, rfl⟩
  have hclaims : (b.core c).claims = [q] := by rw [← hb, State.core_setCore_self]
  simp only [State.claim, hempty, List.nil_append, hb, State.regrant, hclaims, List.length_singleton, State.grantAll]

/-- Lanes that wait for a claim retire when it is granted. -/
theorem State.endWaits_done {a : State} {w : Nat} {act : List Nat} (hcur : a.cur.warp = w) (hnodup : act.Nodup) (hwid : widOf w ≠ 27)
    (hlane : ∀ l ∈ act, l < 16) (hwaits : ∀ l ∈ act, (a.thread (a.lane l)).st = .waiting) :
    Done ((act.map (threadOf w)).foldl State.endWait a) act (fun _ x => x.retired x.next) a := by
  subst hcur
  exact fold_lanes hnodup fun x l hl _ hsame => State.endWait_eq (by rwa [State.lane, threadOf_warp (hlane l hl)]) (by rw [hsame]; exact hwaits l hl)

/-- The state that a granted RCLAIM leaves, its active lanes at the head of their core's queue. -/
def State.claimed (a : State) (act : List Nat) (w g : Nat) : State :=
  let b := a.waitAll act .claim
  (b.setCore (coreOf w) { b.core (coreOf w) with claims := [{ by_ := .warp w g act, words := 144 * g }] }).granted (coreOf w) w g []

theorem Plain.lane_mem_threadsOf {s : State} (hp : Plain s) {l : Nat} (hl : l ∈ s.cur.lanes) : s.lane l ∈ threadsOf s.cur.warp :=
  mem_threadsOf.mpr ⟨l, hp.lane l hl, rfl⟩

section
variable {s : State} {h : Hdr} {g : Nat} (hp : Plain s) (ha : Start s (s.opened h) h)
include hp ha

/-- What the grant leaves before its lanes retire. -/
theorem Start.claimed_spec : let e := (s.opened h).claimed (s.active h) s.cur.warp g
    e = { s with thr := e.thr, wrp := e.wrp, cor := e.cor, stamp := s.stamp + 1 } ∧
    (∀ v, e.warp v = if v = s.cur.warp then { (s.warp v).keeps (s.warp v).n with n := (s.warp v).n + 9 * g } else s.warp v) ∧
    (∀ k, e.thread k = if k ∈ threadsOf s.cur.warp then
      { ((s.opened h).waitAll (s.active h) .claim).thread k with
        regs := below (s.warp s.cur.warp).n (((s.opened h).waitAll (s.active h) .claim).thread k).regs }
      else ((s.opened h).waitAll (s.active h) .claim).thread k) ∧
    ((s.core (coreOf s.cur.warp)).claims = [] → ∀ c, e.core c = s.core c) := by
  have hwait := ha.waitAll (k := .claim) hp ha.cur rfl
  dsimp only [State.claimed]
  generalize (s.opened h).waitAll (s.active h) .claim = b at hwait ⊢
  have hrest : b = { s with thr := b.thr, stamp := s.stamp + 1 } := by
    rw [hwait.rest, ha.rest]
  have hwarp : ∀ v, b.warp v = s.warp v := State.warp_congr (by rw [hrest])
  have hcore : ∀ c, b.core c = s.core c := State.core_congr (by rw [hrest])
  obtain ⟨b1, hb1⟩ : ∃ b1, b.setCore (coreOf s.cur.warp) { b.core (coreOf s.cur.warp) with
    claims := [{ by_ := .warp s.cur.warp g (s.active h), words := 144 * g }] } = b1 := ⟨_, rfl⟩
  have hwarp1 : ∀ v, b1.warp v = s.warp v := fun v => by rw [← hb1]; exact hwarp v
  have hthread1 : ∀ k, b1.thread k = b.thread k := fun k => by rw [← hb1]; rfl
  obtain ⟨hrest', hcor, hwrp, hthr⟩ := b1.granted_spec (coreOf s.cur.warp) s.cur.warp g []
  rw [hb1]
  generalize b1.granted (coreOf s.cur.warp) s.cur.warp g [] = e at hrest' hcor hwrp hthr ⊢
  refine ⟨?_, fun v => ?_, fun k => ?_, fun hclaims c => ?_⟩
  · rw [hrest', ← hb1, hrest]
    rfl
  · rw [hwrp, hwarp1]
  · rw [hthr, hthread1, hwarp1]
  · rw [hcor, ← hb1, State.core_setCore]
    split
    · next hc => rw [hc, hcore, ← hclaims]
    · exact hcore c

/-- A claim that fits is granted at once: the lanes have their registers and retire. -/
theorem Start.claim_eq (hbound : (s.warp s.cur.warp).n + 9 * g ≤ 216) (hclaims : (s.core (coreOf s.cur.warp)).claims = [])
    (hgoes : s.savingCore (coreOf s.cur.warp) = false) (hfree : 144 * (g : Int) ≤ s.poolFree (coreOf s.cur.warp)) :
    ((s.opened h).waitAll (s.active h) .claim).claim (coreOf s.cur.warp) { by_ := .warp s.cur.warp g (s.active h), words := 144 * g } =
      ((((s.active h).map (threadOf s.cur.warp)).foldl State.endWait ((s.opened h).claimed (s.active h) s.cur.warp g)).stepTrap s.cur.warp
        (s.active h)).settle s.cur.warp := by
  have hwait := ha.waitAll (k := .claim) hp ha.cur rfl
  dsimp only [State.claimed]
  generalize (s.opened h).waitAll (s.active h) .claim = b at hwait ⊢
  have hrest : b = { s with thr := b.thr, stamp := s.stamp + 1 } := by
    rw [hwait.rest, ha.rest]
  have hcore : b.core (coreOf s.cur.warp) = s.core (coreOf s.cur.warp) := State.core_congr (by rw [hrest]) _
  rw [State.claim_eq (by rw [hcore]; exact hclaims)]
  obtain ⟨b1, hb1⟩ : ∃ b1, b.setCore (coreOf s.cur.warp) { b.core (coreOf s.cur.warp) with
    claims := [{ by_ := .warp s.cur.warp g (s.active h), words := 144 * g }] } = b1 := ⟨_, rfl⟩
  have hcore1 : b1.core (coreOf s.cur.warp) = { s.core (coreOf s.cur.warp) with
      claims := [{ by_ := .warp s.cur.warp g (s.active h), words := 144 * g }] } := by rw [← hb1, State.core_setCore_self, hcore]
  rw [hb1]
  refine State.grantHead_warp (by rw [hcore1]) ?_ ?_ ?_
  · rw [State.poolFree_congr (s := s) (by rw [← hb1, hrest]; rfl) (by rw [hcore1])]
    exact_mod_cast hfree
  · rw [State.savingCore_congr (s := s) (by rw [← hb1, hrest]; rfl) (by rw [hcore1])]
    exact hgoes
  · rw [State.warp_congr (s := s) (by rw [← hb1, hrest]; rfl)]
    exact hbound

/-- The state that RCLAIM leaves when it is granted at once. -/
def State.reclaimed (s : State) (h : Hdr) (g : Nat) : State :=
  ((s.active h).map (threadOf s.cur.warp)).foldl State.endWait ((s.opened h).claimed (s.active h) s.cur.warp g)

/-- Its lanes have retired with the registers below the claimed ones (R271). -/
theorem Start.reclaimed_spec : let t := s.reclaimed h g
    t = { (s.opened h).claimed (s.active h) s.cur.warp g with thr := t.thr } ∧
    (∀ l ∈ s.cur.lanes, t.thread (s.lane l) =
      { (s.atIssue l).retired s.cur.next with regs := below (s.warp s.cur.warp).n (s.thread (s.lane l)).regs }) ∧
    ∀ k, (∀ l ∈ s.cur.lanes, k ≠ s.lane l) → t.thread k =
      if k ∈ threadsOf s.cur.warp then { s.thread k with regs := below (s.warp s.cur.warp).n (s.thread k).regs } else s.thread k := by
  obtain ⟨hrest, -, hthread, -⟩ := ha.claimed_spec (g := g) hp
  have hwait := ha.waitAll (k := .claim) hp ha.cur rfl
  dsimp only [State.reclaimed]
  generalize (s.opened h).claimed (s.active h) s.cur.warp g = e at hrest hthread ⊢
  generalize (s.opened h).waitAll (s.active h) .claim = b at hwait hthread
  have hlane : ∀ l, e.lane l = s.lane l := fun l => by rw [hrest]; rfl
  have hwaits : ∀ l ∈ s.active h, e.thread (s.lane l) = { (s.atIssue l).waits .claim with
      regs := below (s.warp s.cur.warp).n (s.thread (s.lane l)).regs } := fun l hl => by
    obtain ⟨hmem, hon⟩ := State.mem_active hl
    rw [hthread, if_pos (hp.lane_mem_threadsOf hmem), ← ha.lane, hwait.on l hl, ha.lane, ha.on l hmem hon]
    rfl
  have hdone := State.endWaits_done (a := e) (w := s.cur.warp) (by rw [hrest]) (active_nodup (h := h) hp) hp.wid (hp.active_lt h) fun l hl => by
    rw [hlane, hwaits l hl]
    rfl
  refine ⟨hdone.rest, fun l hl => ?_, fun k hk => ?_⟩
  · by_cases hon : s.laneOn h (s.lane l) = true
    · have hact : l ∈ s.active h := List.mem_filter.mpr ⟨hl, hon⟩
      rw [← hlane, hdone.on l hact, hlane, hwaits l hact]
      rfl
    · have hout : ∀ j ∈ s.active h, s.lane l ≠ s.lane j := fun j hj heq => hon (threadOf_inj heq ▸ (State.mem_active hj).2)
      rw [hdone.others _ fun j hj => by rw [hlane]; exact hout j hj, hthread, if_pos (hp.lane_mem_threadsOf hl),
        hwait.others _ fun j hj => by rw [ha.lane]; exact hout j hj, ha.off l hl (by simpa using hon)]
      rfl
  · have hout : ∀ j ∈ s.active h, k ≠ s.lane j := fun j hj => hk j (State.mem_active hj).1
    rw [hdone.others _ fun j hj => by rw [hlane]; exact hout j hj, hthread, hwait.others _ fun j hj => by rw [ha.lane]; exact hout j hj,
      ha.others k hk]

/-- After it nothing more happens in the warp. -/
theorem Start.reclaimed_still : let t := s.reclaimed h g
    t.NoStep s.cur.warp ∧ s.unitEnd t = t := by
  obtain ⟨hrest, hwarp, -, -⟩ := ha.claimed_spec (g := g) hp
  obtain ⟨hsame, hlanes, hothers⟩ := ha.reclaimed_spec (g := g) hp
  dsimp only
  generalize s.reclaimed h g = t at hsame hlanes hothers ⊢
  generalize (s.opened h).claimed (s.active h) s.cur.warp g = e at hrest hwarp hsame
  have hself : t.warp s.cur.warp = { (s.warp s.cur.warp).keeps (s.warp s.cur.warp).n with n := (s.warp s.cur.warp).n + 9 * g } := by
    rw [State.warp_congr (s := e) (by rw [hsame]), hwarp, if_pos rfl]
  have hctxs : t.ctxs = s.ctxs := by rw [hsame, hrest]
  have hno : t.NoStep s.cur.warp := by
    rw [State.NoStep, hself, State.ctx, hctxs]
    exact hp.nostep
  refine ⟨hno, hp.unitEnd_eq (by rw [hself]; exact hp.going) hno (fun l hl => ?_) fun k hk => ?_⟩
  · rw [hlanes l hl]
    exact ⟨.inl rfl, rfl⟩
  · rw [hothers k hk]
    split <;> exact ⟨rfl, rfl⟩

/-- RCLAIM with room is granted at once. -/
theorem Start.exec_rclaim (hl : Legal s h { forbid := true }) (hne : s.active h ≠ [])
    (hbound : (s.warp s.cur.warp).n + 9 * g ≤ 216) (hclaims : (s.core (coreOf s.cur.warp)).claims = [])
    (hgoes : s.savingCore (coreOf s.cur.warp) = false) (hfree : 144 * (g : Int) ≤ s.poolFree (coreOf s.cur.warp)) :
    exec (.rclaim h g) s = .next (s.reclaimed h g) := by
  obtain ⟨hno, hend⟩ := ha.reclaimed_still (g := g) hp
  have hsettle : (s.reclaimed h g).settle s.cur.warp = s.reclaimed h g := by
    rwa [State.unitEnd, State.stepTrap_eq hno] at hend
  obtain ⟨_, -, ⟨rfl, -⟩, hissue⟩ := State.issue_plain hp hl fun act a =>
    if 216 < ((a.warp a.cur.warp).n : Int) + 9 * g then a.faultAll act 22 0
    else (a.waitAll act .claim).claim (coreOf a.cur.warp) { by_ := .warp a.cur.warp (g : Int).toNat act, words := 144 * (g : Int).toNat }
  have hfits : ¬ 216 < ((s.warp s.cur.warp).n : Int) + 9 * g := by exact_mod_cast hbound.not_gt
  refine congrArg Host.Outcome.next (hissue.trans ?_)
  rw [if_neg hne, ha.cur, ha.warp, if_neg hfits, Int.toNat_natCast, ha.claim_eq hp hbound hclaims hgoes hfree]
  exact (congrArg s.unitEnd ((congrArg (State.settle · s.cur.warp) (State.stepTrap_eq hno)).trans hsettle)).trans hend

end

/-- Settles O25: each form by what its body leaves in a plain group; a claim that heads its core's queue and fits is granted in the same step. -/
theorem spawnDraftGive : Obligations.SpawnDraftGive := by
  refine ⟨acts_spawn, acts_draft_checkpoint, acts_draft_full, acts_rgive, fun h g s hp hl hne hpos hbound hclaims hgoes hfree => ?_⟩
  have ha := hp.start_opened h
  obtain ⟨g, rfl⟩ := Int.eq_ofNat_of_zero_le hpos
  have hexec := ha.exec_rclaim hp hl hne (by exact_mod_cast hbound) hclaims hgoes hfree
  obtain ⟨hrest, hwarp, -, hcore⟩ := ha.claimed_spec (g := g) hp
  obtain ⟨hsame, hlanes, hothers⟩ := ha.reclaimed_spec (g := g) hp
  generalize s.reclaimed h g = t at hexec hsame hlanes hothers
  generalize (s.opened h).claimed (s.active h) s.cur.warp g = e at hrest hwarp hcore hsame
  refine ⟨t, hexec, hlanes, hothers, fun v => ?_, fun c => ?_, ?_⟩
  · rw [State.warp_congr (s := e) (by rw [hsame]), hwarp, Int.toNat_natCast]
  · rw [State.core_congr (s := e) (by rw [hsame]), hcore hclaims]
  · rw [hsame, hrest]

end Sys2Proof.Machine
end

