-- ==== Sys2Proof/Proofs/BarrierForms.lean ====
section
/-! Barriers and PHASE (R244, R246, R364): arrivals ask of the threads only which have exited, so that a group's lanes arrive in lane order and
then wait or retire. -/

namespace Sys2Proof.Machine

/-! Steps that ask of the threads only which have exited. -/

/-- A step that changes no thread, and is the same whatever the threads are as long as the same ones have exited. -/
def ExitsOnly (F : State → State) : Prop := ∀ (x : State) (th : Tab Thread),
  (∀ k, (Tab.get {} th k : Thread).st = .exited ↔ (x.thread k).st = .exited) → F { x with thr := th } = { F x with thr := th }

section
variable {F G : State → State}

theorem Threadless.exitsOnly (hF : Threadless F) : ExitsOnly F := fun x th _ => hF x th

theorem ExitsOnly.thr (hF : ExitsOnly F) (x : State) : (F x).thr = x.thr := by
  have heq := congrArg State.thr (hF x x.thr fun _ => Iff.rfl)
  exact heq

theorem ExitsOnly.thread (hF : ExitsOnly F) (x : State) (k : Nat) : (F x).thread k = x.thread k := State.thread_congr (hF.thr x) k

theorem ExitsOnly.comp (hF : ExitsOnly F) (hG : ExitsOnly G) : ExitsOnly fun x => G (F x) := fun x th hth => by
  simp only [hF x th hth]
  exact hG (F x) th fun k => by rw [hF.thread]; exact hth k

theorem ExitsOnly.foldl {α : Type} {f : State → α → State} (hf : ∀ i, ExitsOnly fun x => f x i) (is : List α) :
    ExitsOnly fun x => is.foldl f x := by
  induction is with
  | nil => exact fun _ _ _ => rfl
  | cons i is ih => exact (hf i).comp ih

/-- Such a step may come before or after the rewriting of a thread that neither ends nor begins to live. -/
theorem ExitsOnly.setThread (hF : ExitsOnly F) {x : State} {t : Nat} {y : Thread} (hy : y.st = .exited ↔ (x.thread t).st = .exited) :
    F (x.setThread t y) = (F x).setThread t y := by
  have heq := hF x (Tab.put t y x.thr) fun k => by
    rw [Tab.get_put]
    split
    · next hk => rw [hk]; exact hy
    · rfl
  rw [State.setThread, State.setThread, hF.thr]
  exact heq

end

/-- Lanes that act one by one after such steps may act at the end. -/
theorem foldl_step_lanes {F D : State → Nat → State} {d : Thread → Thread} {ts : List Nat} (hF : ∀ t, ExitsOnly fun x => F x t)
    (hD : ∀ y, ∀ t ∈ ts, (y.thread t).active → D y t = y.setThread t (d (y.thread t))) (hd : ∀ y : Thread, y.active → (d y).active)
    (x : State) (hlive : ∀ t ∈ ts, (x.thread t).active) : ts.foldl (fun y t => D (F y t) t) x = ts.foldl D (ts.foldl F x) := by
  induction ts generalizing x with
  | nil => rfl
  | cons t ts ih =>
    have hstep := ExitsOnly.foldl hF ts
    have hactive : ((F x t).thread t).active := by
      rw [(hF t).thread]
      exact hlive t List.mem_cons_self
    have hlane := hD (F x t) t List.mem_cons_self hactive
    have hlast := hD (ts.foldl F (F x t)) t List.mem_cons_self (by rwa [hstep.thread])
    have hswap : ts.foldl F (D (F x t) t) = D (ts.foldl F (F x t)) t := by
      rw [hlane, hlast, hstep.thread]
      exact hstep.setThread ⟨fun hst => absurd hst (hd _ hactive).not_exited, fun hst => absurd hst hactive.not_exited⟩
    simp only [List.foldl_cons]
    rw [ih (fun y u hu => hD y u (List.mem_cons_of_mem t hu)) _ fun u hu => ?_, hswap]
    rw [hlane, State.thread_setThread]
    split
    · exact hd _ hactive
    · rw [(hF t).thread]
      exact hlive u (List.mem_cons_of_mem t hu)

/-! An arrival (R84, R244). -/

section
variable {x : State} {th : Tab Thread} (hth : ∀ k, (Tab.get {} th k : Thread).st = .exited ↔ (x.thread k).st = .exited)
include hth

theorem State.alive_withThr (w : Nat) : { x with thr := th }.alive w = x.alive w :=
  List.filter_congr fun k _ => by
    rw [decide_eq_decide]
    exact not_congr (hth k)

theorem State.warpArr_withThr (w : Nat) (l : Level) (b : Bar) : { x with thr := th }.warpArr w l b = x.warpArr w l b := by
  simp only [State.warpArr, State.alive_withThr hth]
  rfl

theorem State.blockArr_withThr (ctx bid c : Nat) (b : Bar) : { x with thr := th }.blockArr ctx bid c b = x.blockArr ctx bid c b := by
  simp only [State.blockArr, State.alive_withThr hth]
  rfl

end

theorem threadless_setBar (l : Level) (key k : Nat) (b : Bar) : Threadless fun x => x.setBar l key k b := fun x th => by
  unfold State.setBar
  split <;> rfl

theorem threadless_noteInPhase (ctx : Nat) (l : Level) (key k : Nat) : Threadless fun x => x.noteInPhase ctx l key k := fun x th =>
  threadless_setBar l key k _ x th

theorem threadless_closePhase (t : Nat) : Threadless fun x => x.closePhase t := fun _ _ => rfl

theorem exitsOnly_noteArr (w : Nat) (l : Level) (k : Nat) : ExitsOnly fun x => x.noteArr w l k := fun x th hth => by
  have hset : ∀ b, { x with thr := th }.setBar l (x.barKey l w) k b = { x.setBar l (x.barKey l w) k b with thr := th } :=
    fun b => threadless_setBar _ _ _ b x th
  have hbar : { x with thr := th }.bar l (x.barKey l w) k = x.bar l (x.barKey l w) k := rfl
  have hkey : { x with thr := th }.barKey l w = x.barKey l w := rfl
  have hwarp : { x with thr := th }.warp w = x.warp w := rfl
  simp only [State.noteArr, State.warpArr_withThr hth, State.blockArr_withThr hth, hkey, hbar, hset, hwarp]
  split <;> rfl

theorem exitsOnly_arrive (t : Nat) (l : Level) (k : Nat) (bv : Option (AOp × Nat)) (a b : Int) : ExitsOnly fun x => x.arrive t l k bv a b := by
  intro x th hth
  by_cases hl : l = .warp
  · simp only [State.arrive, if_pos hl]
    rfl
  · have hset : ∀ b, { x with thr := th }.setBar l (x.barKey l (warpOf t)) k b = { x.setBar l (x.barKey l (warpOf t)) k b with thr := th } :=
      fun b => threadless_setBar _ _ _ b x th
    have hbar : { x with thr := th }.bar l (x.barKey l (warpOf t)) k = x.bar l (x.barKey l (warpOf t)) k := rfl
    have hkey : { x with thr := th }.barKey l (warpOf t) = x.barKey l (warpOf t) := rfl
    have hwarp : { x with thr := th }.warp (warpOf t) = x.warp (warpOf t) := rfl
    have hlaunch : { x with thr := th }.launchOf (warpOf t) = x.launchOf (warpOf t) := rfl
    have hnote : ∀ b, { x.setBar l (x.barKey l (warpOf t)) k b with thr := th }.noteArr (warpOf t) l k =
        { (x.setBar l (x.barKey l (warpOf t)) k b).noteArr (warpOf t) l k with thr := th } := fun b =>
      exitsOnly_noteArr _ _ _ _ th fun u => by
        rw [State.thread, (threadless_setBar l _ k b).thr]
        exact hth u
    simp only [State.arrive, if_neg hl, hkey, hbar, hwarp, hset, hnote, hlaunch]
    split
    · exact (congrArg (State.closePhase · t) (threadless_noteInPhase _ l _ k _ th)).trans (threadless_closePhase t _ th)
    · rfl

/-! What an arrival leaves as it was. -/

theorem State.setBar_rests (a : State) (l : Level) (key k : Nat) (b : Bar) : Rests a (a.setBar l key k b) := by
  unfold State.setBar
  split <;> exact .of_thr rfl rfl rfl fun _ => ⟨rfl, rfl, rfl⟩

theorem State.noteArr_rests (a : State) (w : Nat) (l : Level) (k : Nat) : Rests a (a.noteArr w l k) := by
  dsimp only [State.noteArr]
  split
  · exact .refl a
  · exact a.setBar_rests ..

theorem State.closePhase_rests (a : State) (t : Nat) : Rests a (a.closePhase t) :=
  ⟨rfl, fun _ => ⟨rfl, rfl, rfl⟩, fun c => by
    rw [State.closePhase, State.ctx_setCtx]
    split
    · next hc => rw [hc]
    · rfl, fun _ => ⟨rfl, rfl⟩⟩

theorem State.arrive_rests (a : State) (t : Nat) (l : Level) (k : Nat) (bv : Option (AOp × Nat)) (src dst : Int) :
    Rests a (a.arrive t l k bv src dst) := by
  dsimp only [State.arrive]
  split
  · exact a.setWarp_rests rfl rfl rfl
  · have hnote : ∀ b, Rests a ((a.setBar l (a.barKey l (warpOf t)) k b).noteArr (warpOf t) l k) := fun b =>
      (a.setBar_rests ..).trans (State.noteArr_rests ..)
    split
    · exact (hnote _).trans ((State.setBar_rests ..).trans (State.closePhase_rests ..))
    · exact hnote _

theorem Rests.foldl {α : Type} {f : State → α → State} (hf : ∀ x i, Rests x (f x i)) (is : List α) (a : State) : Rests a (is.foldl f a) := by
  induction is generalizing a with
  | nil => exact .refl a
  | cons i is ih => exact (hf a i).trans (ih _)

/-! The lanes of a group that acts after its arrivals. -/

section
variable {s g : State} {h : Hdr} {F D : State → Nat → State} {d : Thread → Thread}

/-- Lanes that arrive, or take another such step, and act one by one: their steps are done in lane order, and then each has acted. -/
theorem Start.eachThread_done (hp : Plain s) (ha : Start s (s.opened h) h) (hg : Stands (s.opened h) g) (hF : ∀ t, ExitsOnly fun x => F x t)
    (hrests : ∀ x t, Rests x (F x t)) (hD : ∀ y t, widOf (warpOf t) ≠ 27 → (y.thread t).active → D y t = y.setThread t (d (y.thread t)))
    (hd : ∀ y : Thread, y.active → (d y).active) :
    Rests (s.opened h) (g.eachThread (s.active h) F) ∧
      Done ((g.curThreads (s.active h)).foldl (fun y t => D (F y t) t) g) (s.active h) (fun _ => d) (g.eachThread (s.active h) F) := by
  have hcur : g.cur = s.cur := hg.cur.trans ha.cur
  have hwid : ∀ t ∈ g.curThreads (s.active h), widOf (warpOf t) ≠ 27 := fun t ht => by
    obtain ⟨l, hl, rfl⟩ := List.mem_map.mp ht
    rw [threadOf_warp (hp.active_lt h l hl), hcur]
    exact hp.wid
  have hlive : ∀ t ∈ g.curThreads (s.active h), (g.thread t).active := fun t ht => by
    obtain ⟨l, hl, rfl⟩ := List.mem_map.mp ht
    rw [Thread.active, (hg.states _).1, hcur]
    exact ha.live hp hl
  have hall : Rests g (g.eachThread (s.active h) F) := .foldl hrests _ _
  have hthreads : (g.eachThread (s.active h) F).curThreads (s.active h) = g.curThreads (s.active h) := by
    rw [State.curThreads, hall.cur, State.curThreads]
  refine ⟨hg.rests.trans hall, ?_⟩
  rw [foldl_step_lanes hF (fun y t ht => hD y t (hwid t ht)) hd g hlive]
  have hdone := fold_lanes (g := g.eachThread (s.active h) F) (F := D) (f := fun _ => d) (active_nodup (h := h) hp) fun y l hl _ hsame =>
    have hmem : (g.eachThread (s.active h) F).lane l ∈ g.curThreads (s.active h) := by
      rw [← hthreads]
      exact List.mem_map.mpr ⟨l, hl, rfl⟩
    hD y _ (hwid _ hmem) (by
      rw [hsame, Thread.active, (hall.thread _).1]
      exact hlive _ hmem)
  rwa [hthreads] at hdone

end

/-! The arriving forms (R244). -/

/-- The members' lanes arrive once their fence is complete and none has arrived before. -/
theorem Acts.of_barUnit {i : Instr} {h : Hdr} {u : Uses} {P : State → List Nat → Prop} {d : State → Nat → Thread → Thread}
    {G : State → List Nat → State} {l : Level} {k : Nat} {rlx : Bool} {go : List Nat → State → State}
    (hexec : ∀ s, exec i s = .next (s.barUnit h u l k rlx go)) (hkeeps : ∀ a, Keeps (d a))
    (hgo : ∀ s act, P s act → fenced rlx (barScope l) s act ∧ s.barMember s.cur.warp l k = true ∧ ∀ j ∈ act, s.hasArrived (s.lane j) l k = false)
    (hbody : ∀ s, Plain s → Start s (s.opened h) h → s.active h ≠ [] → P (s.opened h) (s.active h) → Rests (s.opened h) (G (s.opened h) (s.active h)) ∧
      Done (go (s.active h) (s.opened h)) (s.active h) (d (s.opened h)) (G (s.opened h) (s.active h))) : Acts i h { u with forbid := true } P d G := by
  refine ActsIf.of_rests (fun s _ _ => hexec s) hkeeps fun s _ hp ha hne hP => ?_
  obtain ⟨hrests, hdone⟩ := hbody s hp ha hne hP
  obtain ⟨hfenced, hmember, hfirst⟩ := hgo _ _ hP
  have htwice : (s.active h).filter (fun j => (s.opened h).hasArrived (threadOf (s.opened h).cur.warp j) l k) = [] :=
    List.filter_eq_nil_iff.mpr fun j hj => by
      rw [← State.lane_def, hfirst j hj]
      exact Bool.false_ne_true
  have hall : (s.active h).filter (fun j => !(s.opened h).hasArrived (threadOf (s.opened h).cur.warp j) l k) = s.active h :=
    List.filter_eq_self.mpr fun j hj => by
      rw [← State.lane_def, hfirst j hj]
      rfl
  have hempty : (s.active h).isEmpty = false := by simpa using hne
  refine ⟨hrests, ?_⟩
  simp only [hmember, Bool.not_true, Bool.false_eq_true, if_false]
  rcases hfenced with hrlx | hfence
  · simp only [hrlx, if_true, htwice, hall, hempty, Bool.false_eq_true, if_false, State.waitAll_nil]
    exact hdone
  · simp only [State.afterFence, if_pos hfence, ite_self, htwice, hall, hempty, Bool.false_eq_true, if_false, State.waitAll_nil]
    exact hdone

/-- A lane that begins a wait, or goes on in one. -/
theorem State.waitLane_eq {a : State} {t : Nat} (ht : (a.thread t).active) (k : Wait) : a.waitLane t k = a.setThread t ((a.thread t).waits k) := by
  simp only [State.waitLane, if_neg ht.not_stopped, Thread.waits]

/-- Arrivals and then a wait. -/
theorem Start.eachThread_waits {s g : State} {h : Hdr} {F : State → Nat → State} (hp : Plain s) (ha : Start s (s.opened h) h)
    (hg : Stands (s.opened h) g) (hF : ∀ t, ExitsOnly fun x => F x t) (hrests : ∀ x t, Rests x (F x t)) (k : Wait) :
    Rests (s.opened h) (g.eachThread (s.active h) F) ∧
      Done ((g.curThreads (s.active h)).foldl (fun y t => (F y t).waitLane t k) g) (s.active h) (fun _ x => x.waits k)
        (g.eachThread (s.active h) F) :=
  ha.eachThread_done (D := fun y t => y.waitLane t k) (d := fun x => x.waits k) hp hg hF hrests (fun _ _ _ ht => State.waitLane_eq ht k)
    fun _ _ => .inr rfl

theorem acts_bar (h : Hdr) (l : Level) (k : Nat) (rlx : Bool) : Acts (.bar h l k rlx) h { forbid := true }
    (fun s act => fenced rlx (barScope l) s act ∧ s.barMember s.cur.warp l k = true ∧ ∀ j ∈ act, s.hasArrived (s.lane j) l k = false)
    (wait (fun s => .barrier l (s.barKey l s.cur.warp) k (s.barPhase s.cur.warp l k) false))
    (fun s act => s.eachThread act (fun x t => x.arrive t l k none 0 0)) := by
  refine Acts.of_barUnit (u := {}) (fun _ => rfl) (wait_keeps _) (fun _ _ hP => hP) fun s hp ha _ _ => ?_
  exact ha.eachThread_waits hp (.refl _) (fun t => exitsOnly_arrive t l k none 0 0) (fun x t => x.arrive_rests t l k none 0 0) _

/-! Units without source fields. -/

/-- Lanes that read nothing act one by one. -/
theorem State.eachLane_of_no_src {a x : State} {u : Uses} {act : List Nat} {k : State → Nat → State} (hu : u.src = []) (hx : Near a x)
    (hlane : ∀ l ∈ act, l < 16) (hout : ∀ l ∈ act, a.drafting a.cur.warp l = false) :
    x.eachLane u act (fun y t _ => k y t) = (x.curThreads act).foldl k x := by
  rw [State.eachLane_eq hx hlane hout, hu]
  calc
    _ = ((x.curThreads act).zipIdx.map (·.1)).foldl k x := (List.foldl_map ..).symm
    _ = _ := by rw [List.zipIdx_map_fst]

/-! BARA (R244). -/

theorem retW_keeps (d : Nat) (v : State → Int) (a : State) : Keeps (retW d v a) := fun l x hx => by
  unfold retW Thread.putReg
  split
  · exact ⟨.inl rfl, rfl⟩
  · exact ret_keeps a l x hx

/-- A lane retires and then has a word in a register. -/
theorem State.retire_reg_eq {a : State} {t d : Nat} (hwid : widOf (warpOf t) ≠ 27) (ht : (a.thread t).active) (hd : d < 216) (pc v : Int) :
    (a.retire t pc).applyWr t (wrW d v) = a.setThread t (((a.thread t).retired pc).putReg d v) := by
  have hport : isPort d = false := by simp [isPort]; omega
  simp only [State.retire_eq a t pc hwid ht.not_stopped, wrW, hport, Bool.false_eq_true, if_false, State.applyWr, State.setReg, if_pos hd,
    State.thread_setThread_self, State.setThread_setThread, Thread.putReg]

theorem acts_bara (h : Hdr) (l : Level) (k : Nat) (rlx : Bool) {d : Nat} (hd : d < 216) :
    Acts (.bara h l k rlx d) h { dst := [d], forbid := true }
    (fun s act => fenced rlx (barScope l) s act ∧ s.barMember s.cur.warp l k = true ∧ ∀ j ∈ act, s.hasArrived (s.lane j) l k = false)
    (retW d (fun s => s.barPhase s.cur.warp l k)) (fun s act => s.eachThread act (fun x t => x.arrive t l k none 0 0)) := by
  refine Acts.of_barUnit (u := { dst := [d] }) (fun _ => rfl) (retW_keeps d _) (fun _ _ hP => hP) fun s hp ha _ _ => ?_
  have hready : (s.opened h).portSt { dst := [d] } (s.active h).length = .ready :=
    State.portSt_of_no_port (by simp [isPort]; omega) _
  simp only [laneSteps, State.withPorts, hready]
  rw [State.eachLane_of_no_src rfl (.refl _) (hp.active_lt h) (ha.not_drafting hp)]
  exact ha.eachThread_done (D := fun y t => (y.retire t (s.opened h).cur.next).applyWr t (wrW d ((s.opened h).barPhase (s.opened h).cur.warp l k)))
    (d := fun x => (x.retired (s.opened h).cur.next).putReg d ((s.opened h).barPhase (s.opened h).cur.warp l k)) hp (.refl _)
    (fun t => exitsOnly_arrive t l k none 0 0) (fun x t => x.arrive_rests t l k none 0 0)
    (fun _ _ hwid ht => State.retire_reg_eq hwid ht hd _ _) fun x hx => (retW_keeps d (fun a => a.barPhase a.cur.warp l k) (s.opened h) 0 x hx).1

theorem threadless_portPush (c ctx bid q : Nat) (v : List Int) : Threadless fun x => x.portPush c ctx bid q v := fun x th => by
  unfold State.portPush
  split <;> rfl

theorem State.portPush_rests (a : State) (c ctx bid q : Nat) (v : List Int) : Rests a (a.portPush c ctx bid q v) := by
  unfold State.portPush
  split
  · exact ⟨rfl, fun _ => ⟨rfl, rfl, rfl⟩, fun x => by
      rw [State.ctx_setCtx]
      split
      · next hx => rw [hx]
      · rfl, fun _ => ⟨rfl, rfl⟩⟩
  · exact (a.setPort_stands ..).rests

/-- A warp's context and its block. -/
def State.place (a : State) (v : Nat) : Nat × Nat := ((a.warp v).ctx, (a.warp v).bid)

theorem State.place_congr {a b : State} (hwrp : b.wrp = a.wrp) (v : Nat) : b.place v = a.place v := by
  rw [State.place, State.warp_congr hwrp, State.place]

theorem State.place_retire (a : State) {t : Nat} (hwid : widOf (warpOf t) ≠ 27) (pc : Int) (v : Nat) : (a.retire t pc).place v = a.place v := by
  rw [State.place, (a.retire_near hwid pc).warps, State.place]

theorem State.place_portPush (a : State) (c ctx bid q : Nat) (ws : List Int) (v : Nat) : (a.portPush c ctx bid q ws).place v = a.place v := by
  refine State.place_congr ?_ v
  unfold State.portPush
  split <;> rfl

theorem State.place_arrive (a : State) (t : Nat) (l : Level) (k : Nat) (bv : Option (AOp × Nat)) (src dst : Int) (v : Nat) :
    (a.arrive t l k bv src dst).place v = a.place v := by
  have hset : ∀ (x : State) key b, (x.setBar l key k b).place v = x.place v := fun x key b => by
    refine State.place_congr ?_ v
    unfold State.setBar
    split <;> rfl
  have hnote : ∀ x : State, (x.noteArr (warpOf t) l k).place v = x.place v := fun x => by
    dsimp only [State.noteArr]
    split
    · rfl
    · exact hset ..
  dsimp only [State.arrive]
  split
  · rw [State.place, State.warp_setWarp]
    split
    · next hv => rw [hv]; rfl
    · rfl
  · split
    · exact (hset ..).trans ((hnote _).trans (hset ..))
    · exact (hnote _).trans (hset ..)

/-- A word pushed by a lane that has retired might have been pushed before. -/
theorem State.retire_push_eq (a : State) {t d : Nat} (hd : isPort d = true) (hwid : widOf (warpOf t) ≠ 27) (pc p : Int) :
    (a.retire t pc).applyWr t (wrW d p) =
      (a.portPush (coreOf (warpOf t)) (a.place (warpOf t)).1 (a.place (warpOf t)).2 (d - 216) [p]).retire t pc := by
  have hpush := Threadless.retire (threadless_portPush (coreOf (warpOf t)) (a.place (warpOf t)).1 (a.place (warpOf t)).2 (d - 216) [p]) hwid a pc
  rw [← hpush, ← a.place_retire hwid pc, wrW, if_pos hd]
  rfl

theorem acts_bara_port (h : Hdr) (l : Level) (k : Nat) (rlx : Bool) {d : Nat} (hd : isPort d = true) :
    Acts (.bara h l k rlx d) h { dst := [d], forbid := true }
    (fun s act => fenced rlx (barScope l) s act ∧ portsReady { dst := [d] } s act ∧ s.barMember s.cur.warp l k = true ∧
      ∀ j ∈ act, s.hasArrived (s.lane j) l k = false)
    ret (fun s act => s.eachThread act (fun x t => (x.arrive t l k none 0 0).portPush (coreOf s.cur.warp) (s.warp s.cur.warp).ctx
      (s.warp s.cur.warp).bid (d - 216) [s.barPhase s.cur.warp l k])) := by
  refine Acts.of_barUnit (u := { dst := [d] }) (fun _ => rfl) ret_keeps (fun _ _ ⟨hfenced, _, hmember, hfirst⟩ => ⟨hfenced, hmember, hfirst⟩)
    fun s hp ha _ ⟨_, hports, _⟩ => ?_
  have hready : (s.opened h).portSt { dst := [d] } (s.active h).length = .ready := hports
  simp only [laneSteps, State.withPorts, hready]
  rw [State.eachLane_of_no_src rfl (.refl _) (hp.active_lt h) (ha.not_drafting hp)]
  obtain ⟨n, hn⟩ : ∃ n, (s.opened h).cur.next = n := ⟨_, rfl⟩
  obtain ⟨w, hw⟩ : ∃ w, (s.opened h).cur.warp = w := ⟨_, rfl⟩
  obtain ⟨p, hp'⟩ : ∃ p, (s.opened h).barPhase w l k = p := ⟨_, rfl⟩
  have hthread : ∀ t ∈ (s.opened h).curThreads (s.active h), warpOf t = w ∧ widOf (warpOf t) ≠ 27 := fun t ht => by
    obtain ⟨j, hj, rfl⟩ := List.mem_map.mp ht
    rw [threadOf_warp (hp.active_lt h j hj)]
    exact ⟨hw, ha.not_scribe hp⟩
  have hsame := foldl_eq_of_invariant (is := (s.opened h).curThreads (s.active h)) (inv := fun y => y.place w = (s.opened h).place w)
    (f := fun y t => ((y.arrive t l k none 0 0).retire t n).applyWr t (wrW d p))
    (g := fun y t => ((y.arrive t l k none 0 0).portPush (coreOf w) ((s.opened h).place w).1 ((s.opened h).place w).2 (d - 216) [p]).retire t n)
    (fun y t ht hy => by rw [State.place_retire _ (hthread t ht).2, State.place_portPush, State.place_arrive, hy])
    (fun y t ht hy => by rw [State.retire_push_eq _ hd (hthread t ht).2, (hthread t ht).1, State.place_arrive, hy]) (x := s.opened h) rfl
  simp only [hn, hw, hp']
  rw [hsame]
  have hdone := ha.eachThread_done (D := fun y t => y.retire t n) (d := fun x => x.retired n) hp (.refl _)
    (fun t => (exitsOnly_arrive t l k none 0 0).comp (threadless_portPush (coreOf w) ((s.opened h).place w).1 ((s.opened h).place w).2 (d - 216) [p]).exitsOnly)
    (fun x t => (x.arrive_rests t l k none 0 0).trans (State.portPush_rests ..))
    (fun y t hwid ht => State.retire_eq y t _ hwid ht.not_stopped) fun x hx => .inl rfl
  refine ⟨hdone.1, ?_⟩
  unfold ret
  rw [hn]
  exact hdone.2

/-! BARV (R246) and PHASE (R364). -/

/-- The regions of a group's BARV: those that an earlier group of its warp named, or its lowest lane's words. -/
def State.barvRegions (s : State) (act : List Nat) (l : Level) (k a b : Nat) : Int × Int :=
  (s.barvNamed s.cur.warp l k).getD (s.srcWord act [a, b] 0 0, s.srcWord act [a, b] 0 1)

/-- Regions that are named here and count are checked, others are not. -/
theorem State.barv_cause {s : State} {act : List Nat} {l : Level} {k a b n : Nat} (hgood : s.barvNamed s.cur.warp l k = none →
      s.barvCounts s.cur.warp l k = true → regionCause (s.srcWord act [a, b] 0 0) n = none ∧ regionCause (s.srcWord act [a, b] 0 1) n = none) :
    (if (s.barvNamed s.cur.warp l k).isSome || !s.barvCounts s.cur.warp l k then none
      else (regionCause (s.barvRegions act l k a b).1 n).orElse fun _ => regionCause (s.barvRegions act l k a b).2 n) = none := by
  unfold State.barvRegions
  cases hnamed : s.barvNamed s.cur.warp l k with
  | some p => rfl
  | none =>
    cases hcounts : s.barvCounts s.cur.warp l k with
    | false => rfl
    | true =>
      obtain ⟨hsrc, hdst⟩ := hgood hnamed hcounts
      simp [hsrc, hdst]

theorem acts_barv (h : Hdr) (l : Level) (k : Nat) (rlx : Bool) (op : AOp) (a b : Nat) (n : Int) :
    Acts (.barv h l k rlx op a b n) h { src := [a, b], forbid := true }
    (fun s act => fenced rlx (barScope l) s act ∧ portsReady { src := [a, b] } s act ∧ s.barMember s.cur.warp l k = true ∧
      (∀ j ∈ act, s.hasArrived (s.lane j) l k = false) ∧
      (s.barvNamed s.cur.warp l k = none →
        s.barvCounts s.cur.warp l k = true → regionCause (s.srcWord act [a, b] 0 0) n.toNat = none ∧ regionCause (s.srcWord act [a, b] 0 1) n.toNat = none))
    (wait (fun s => .barrier l (s.barKey l s.cur.warp) k (s.barPhase s.cur.warp l k) true))
    (fun s act => (s.readFields (s.curThreads act) [a, b]).1.eachThread act (fun x t =>
      let p := (s.barvNamed s.cur.warp l k).getD (s.srcWord act [a, b] 0 0, s.srcWord act [a, b] 0 1)
      x.arrive t l k (some (op, n.toNat)) p.1 p.2)) := by
  refine Acts.of_barUnit (u := { src := [a, b] }) (fun _ => rfl) (wait_keeps _)
    (fun _ _ ⟨hfenced, _, hmember, hfirst, _⟩ => ⟨hfenced, hmember, hfirst⟩) fun s hp ha hne ⟨_, hports, _, _, hgood⟩ => ?_
  have hready : (s.opened h).portSt { src := [a, b] } (s.active h).length = .ready := hports
  have hlen : 0 < (s.active h).length := List.length_pos_of_ne_nil hne
  have hstands := (s.opened h).readFields_stands ((s.opened h).curThreads (s.active h)) [a, b]
  have hthreads : ((s.opened h).readFields ((s.opened h).curThreads (s.active h)) [a, b]).1.curThreads (s.active h) =
      (s.opened h).curThreads (s.active h) := by rw [State.curThreads, hstands.cur, State.curThreads]
  have hcause := State.barv_cause hgood
  obtain ⟨hrests, hdone⟩ := ha.eachThread_waits hp hstands
    (fun t => exitsOnly_arrive t l k (some (op, n.toNat)) ((s.opened h).barvRegions (s.active h) l k a b).1
      ((s.opened h).barvRegions (s.active h) l k a b).2) (fun x t => x.arrive_rests ..)
    (.barrier l ((s.opened h).barKey l (s.opened h).cur.warp) k ((s.opened h).barPhase (s.opened h).cur.warp l k) true)
  rw [hthreads] at hdone
  rw [State.barvRegions] at hcause
  refine ⟨hrests, ?_⟩
  simp only [hready, State.arg_readFields _ hlen (show 0 < [a, b].length by simp), State.arg_readFields _ hlen (show 1 < [a, b].length by simp),
    hcause]
  exact hdone

theorem acts_phase (h : Hdr) : Acts (.phase h) h { forbid := true } (fun s _ => (s.launchOf s.cur.warp).det = true) (wait (fun _ => .phase))
    (fun s act => s.eachThread act (fun x t => x.closePhase t)) := by
  refine ActsIf.of_rests (fun _ _ _ => rfl) (wait_keeps _) fun s _ hp ha _ hdet => ?_
  simp only [hdet, Bool.not_true, Bool.false_eq_true, if_false]
  exact ha.eachThread_waits hp (.refl _) (fun t => (threadless_closePhase t).exitsOnly) (fun x t => x.closePhase_rests t) _

/-! BARW (R244). -/

/-- Lanes that all do the same, as long as an invariant holds. -/
theorem State.eachLane_uniform {a x : State} {u : Uses} {act : List Nat} {k : State → Nat → List Int → State} {D : State → Nat → State}
    {inv : State → Prop} (hx : Near a x) (hlane : ∀ l ∈ act, l < 16) (hout : ∀ l ∈ act, a.drafting a.cur.warp l = false)
    (hinv : ∀ y, ∀ t ∈ x.curThreads act, inv y → inv (D y t))
    (hk : ∀ y, ∀ t ∈ x.curThreads act, ∀ i, i < act.length → inv y → k y t (fieldVal (x.readFields (x.curThreads act) u.src).2 i) = D y t)
    (hread : inv (x.readFields (x.curThreads act) u.src).1) :
    x.eachLane u act k = (x.curThreads act).foldl D (x.readFields (x.curThreads act) u.src).1 := by
  rw [State.eachLane_eq hx hlane hout]
  generalize x.readFields (x.curThreads act) u.src = p at hk hread
  have hmem : ∀ q ∈ (x.curThreads act).zipIdx, q.1 ∈ x.curThreads act ∧ q.2 < act.length := fun q hq =>
    ⟨List.fst_mem_of_mem_zipIdx hq, by
      have hlt := List.snd_lt_of_mem_zipIdx hq
      rwa [State.length_curThreads, Nat.add_zero] at hlt⟩
  calc
    _ = (x.curThreads act).zipIdx.foldl (fun y q => D y q.1) p.1 :=
      foldl_eq_of_invariant (inv := inv) (fun y q hq hy => hinv y q.1 (hmem q hq).1 hy)
        (fun y q hq hy => hk y q.1 (hmem q hq).1 q.2 (hmem q hq).2 hy) hread
    _ = ((x.curThreads act).zipIdx.map (·.1)).foldl D p.1 := (List.foldl_map ..).symm
    _ = _ := by rw [List.zipIdx_map_fst]

/-- Waiting after an effect that leaves every thread's state. -/
theorem Start.waitAll_of_rests {s g : State} {h : Hdr} (hp : Plain s) (ha : Start s (s.opened h) h) (hg : Rests (s.opened h) g) (k : Wait) :
    Done (g.waitAll (s.active h) k) (s.active h) (fun _ x => x.waits k) g :=
  State.waitAll_done (active_nodup hp) fun l hl => by
    rw [Thread.active, (hg.thread _).1, State.lane, hg.cur, ha.cur]
    exact ha.live hp hl

/-- What BARW does with the lanes of a warp that is a member, `p` being the current phase. -/
def barwBody (l : Level) (k : Nat) (rlx : Bool) (a : Nat) (act : List Nat) (x : State) : State :=
  let w := x.cur.warp
  let p := x.barPhase w l k
  let vs := (x.readField (x.curThreads act) a).2
  if isPort a && decide (x.portSt { src := [a], forbid := true } act.length = .ready) && vs.any (fun v => decide (v = p)) then
    x.waitAll act (.barw l (x.barKey l w) k p)
  else laneSteps { src := [a], forbid := true } (fun y t v =>
    if arg v 0 = p then y.waitLane t (.barw l (x.barKey l w) k p)
    else if rlx || y.loadsDone w then y.retire t x.cur.next
    else y.waitLane t (.fence (barScope l) false true 0)) act x

theorem Acts.of_barw {h : Hdr} {l : Level} {k : Nat} {rlx : Bool} {a : Nat} {P : State → List Nat → Prop} {d : State → Nat → Thread → Thread}
    {G : State → List Nat → State} (hkeeps : ∀ a, Keeps (d a)) (hmember : ∀ s act, P s act → s.barMember s.cur.warp l k = true)
    (hbody : ∀ s, Plain s → Start s (s.opened h) h → s.active h ≠ [] → P (s.opened h) (s.active h) →
      Rests (s.opened h) (G (s.opened h) (s.active h)) ∧
      Done (barwBody l k rlx a (s.active h) (s.opened h)) (s.active h) (d (s.opened h)) (G (s.opened h) (s.active h))) :
    Acts (.barw h l k rlx a) h { src := [a], forbid := true } P d G :=
  ActsIf.of_rests (body := fun _ act x => if !x.barMember x.cur.warp l k then x.faultAll act 0 0 else barwBody l k rlx a act x)
    (fun _ _ _ => rfl) hkeeps fun s _ hp ha hne hP => by
      simp only [hmember _ _ hP, Bool.not_true, Bool.false_eq_true, if_false]
      exact hbody s hp ha hne hP

/-- A port that can serve the group holds its words. -/
theorem State.popNeed_le {x : State} {u : Uses} {n r : Nat} (hready : x.portSt u n = .ready) (hr : r ∈ u.src) (hport : isPort r = true) :
    popNeed u r n ≤ (x.port (coreOf x.cur.warp) (r - 216)).length := by
  by_contra hshort
  have hany : (u.src.any fun r => isPort r && decide ((x.port (coreOf x.cur.warp) (r - 216)).length < popNeed u r n)) = true :=
    List.any_eq_true.mpr ⟨r, hr, by simpa [hport] using hshort⟩
  simp only [State.portSt, hany, Bool.true_or, if_true] at hready
  split at hready <;> cases hready

theorem take_eq_map_getD {ws : List Int} {n : Nat} (hn : n ≤ ws.length) : ws.take n = (List.range n).map fun i => ws.getD i 0 :=
  List.ext_getElem (by simpa using hn) fun i hi hi' => by
    have hlt : i < ws.length := by simp at hi; omega
    simp [hlt]

/-- The words that one field reads from a port are its lanes'. -/
theorem State.readField_words {x : State} {act : List Nat} {a : Nat} (hport : isPort a = true)
    (hready : x.portSt { src := [a], forbid := true } act.length = .ready) :
    (x.readField (x.curThreads act) a).2 = (List.range act.length).map fun i => x.srcWord act [a] i 0 := by
  have hneed := State.popNeed_le hready List.mem_cons_self hport
  rw [popNeed, List.count_singleton_self, Nat.mul_one] at hneed
  simp only [State.readField, if_pos hport, State.length_curThreads, take_eq_map_getD hneed]
  refine List.map_congr_left fun i _ => ?_
  simp [State.srcWord, hport]

section
variable {s : State} {h : Hdr} {l : Level} {k a : Nat} {rlx : Bool} (hp : Plain s) (ha : Start s (s.opened h) h)
  (hports : portsReady { src := [a], forbid := true } (s.opened h) (s.active h))
include hp ha hports

/-- Where no lane's word names the current phase, all lanes go on alike. -/
theorem Start.barw_other {D : State → Nat → State}
    (hother : ∀ i, i < (s.active h).length → (s.opened h).srcWord (s.active h) [a] i 0 ≠ (s.opened h).barPhase (s.opened h).cur.warp l k)
    (hreqs : ∀ y, ∀ t ∈ (s.opened h).curThreads (s.active h), (D y t).reqs = y.reqs)
    (hD : ∀ y t, y.reqs = (s.opened h).reqs → (if rlx || y.loadsDone (s.opened h).cur.warp then y.retire t (s.opened h).cur.next
      else y.waitLane t (.fence (barScope l) false true 0)) = D y t) :
    barwBody l k rlx a (s.active h) (s.opened h) = ((s.opened h).curThreads (s.active h)).foldl D
      ((s.opened h).readField ((s.opened h).curThreads (s.active h)) a).1 := by
  have hready : (s.opened h).portSt { src := [a], forbid := true } (s.active h).length = .ready := hports
  have hnone : (isPort a && (((s.opened h).readField ((s.opened h).curThreads (s.active h)) a).2.any
      fun v => decide (v = (s.opened h).barPhase (s.opened h).cur.warp l k))) = false := by
    cases hport : isPort a with
    | false => rfl
    | true =>
      rw [State.readField_words hport hready, Bool.true_and, List.any_eq_false]
      intro v hv
      obtain ⟨i, hi, rfl⟩ := List.mem_map.mp hv
      simpa using hother i (List.mem_range.mp hi)
  have hlanes := State.eachLane_uniform (u := { src := [a], forbid := true }) (D := D) (inv := fun y => y.reqs = (s.opened h).reqs)
    (k := fun y t v => if arg v 0 = (s.opened h).barPhase (s.opened h).cur.warp l k then
        y.waitLane t (.barw l ((s.opened h).barKey l (s.opened h).cur.warp) k ((s.opened h).barPhase (s.opened h).cur.warp l k))
      else if rlx || y.loadsDone (s.opened h).cur.warp then y.retire t (s.opened h).cur.next
      else y.waitLane t (.fence (barScope l) false true 0)) (.refl (s.opened h)) (hp.active_lt h) (ha.not_drafting hp)
    (fun y t ht hy => (hreqs y t ht).trans hy)
    (fun y t _ i hi hy => by rw [State.arg_readFields _ hi (by simp), if_neg (hother i hi), hD y t hy])
    (by
      obtain ⟨⟨_, hpop, -⟩, -⟩ := State.readFields_spec ((s.opened h).curThreads (s.active h)) [a] (s.opened h)
      rw [hpop.rest])
  rw [barwBody]
  simp only [hready, decide_true, Bool.and_true, hnone, Bool.false_eq_true, if_false, laneSteps, State.withPorts]
  exact hlanes

/-- Where every lane's word names it, all lanes wait. -/
theorem Start.barw_same (hne : s.active h ≠ [])
    (hsame : ∀ i, i < (s.active h).length → (s.opened h).srcWord (s.active h) [a] i 0 = (s.opened h).barPhase (s.opened h).cur.warp l k) :
    barwBody l k rlx a (s.active h) (s.opened h) = (s.opened h).waitAll (s.active h)
      (.barw l ((s.opened h).barKey l (s.opened h).cur.warp) k ((s.opened h).barPhase (s.opened h).cur.warp l k)) := by
  have hready : (s.opened h).portSt { src := [a], forbid := true } (s.active h).length = .ready := hports
  rw [barwBody]
  cases hport : isPort a with
  | true =>
    have hany : (((s.opened h).readField ((s.opened h).curThreads (s.active h)) a).2.any
        fun v => decide (v = (s.opened h).barPhase (s.opened h).cur.warp l k)) = true := by
      rw [State.readField_words hport hready, List.any_map, List.any_eq_true]
      exact ⟨0, List.mem_range.mpr (List.length_pos_of_ne_nil hne), by simpa using hsame 0 (List.length_pos_of_ne_nil hne)⟩
    simp only [hready, decide_true, hany, Bool.and_true, if_true]
  | false =>
    have hread : (s.opened h).readFields ((s.opened h).curThreads (s.active h)) [a] =
        (s.opened h, [a].map fun r => ((s.opened h).curThreads (s.active h)).map fun t => (s.opened h).reg t r) :=
      State.readFields_of_no_port (by simpa using hport)
    simp only [Bool.false_and, Bool.false_eq_true, if_false, laneSteps, State.withPorts, hready]
    rw [State.eachLane_uniform (D := fun y t => y.waitLane t (.barw l ((s.opened h).barKey l (s.opened h).cur.warp) k
      ((s.opened h).barPhase (s.opened h).cur.warp l k))) (inv := fun _ => True) (.refl (s.opened h)) (hp.active_lt h) (ha.not_drafting hp)
      (fun _ _ _ _ => trivial) (fun y t _ i hi _ => by rw [State.arg_readFields _ hi (by simp), if_pos (hsame i hi)]) trivial, hread]
    rfl

end

theorem State.loadsDone_congr {x y : State} (hreqs : y.reqs = x.reqs) (w : Nat) : y.loadsDone w = x.loadsDone w := by
  rw [State.loadsDone, hreqs, State.loadsDone]

theorem State.reqs_retire (a : State) {t : Nat} (hwid : widOf (warpOf t) ≠ 27) (pc : Int) : (a.retire t pc).reqs = a.reqs := by
  have hnot : ¬(widOf (warpOf t) = 27 ∧ (!(a.thread t).inH) = true) := fun hc => hwid hc.1
  rw [State.retire]
  simp only [if_neg hnot]
  rfl

theorem Rests.curThreads {a g : State} (hg : Rests a g) (act : List Nat) : g.curThreads act = a.curThreads act := by
  rw [State.curThreads, hg.cur, State.curThreads]

theorem State.readField_stands (x : State) (ts : List Nat) (a : Nat) : Stands x (x.readField ts a).1 := x.readFields_stands ts [a]

theorem acts_barw_passes (h : Hdr) (l : Level) (k : Nat) (rlx : Bool) (a : Nat) : Acts (.barw h l k rlx a) h { src := [a], forbid := true }
    (fun s act => portsReady { src := [a], forbid := true } s act ∧ s.barMember s.cur.warp l k = true ∧
      (rlx = true ∨ s.loadsDone s.cur.warp = true) ∧
      ∀ i, i < act.length → s.srcWord act [a] i 0 ≠ s.barPhase s.cur.warp l k) ret (fun s act => (s.readField (s.curThreads act) a).1) := by
  refine .of_barw ret_keeps (fun _ _ ⟨_, hmember, _⟩ => hmember) fun s hp ha _ ⟨hports, _, hdone, hother⟩ => ?_
  have hstands := (s.opened h).readField_stands ((s.opened h).curThreads (s.active h)) a
  refine ⟨hstands.rests, ?_⟩
  rw [ha.barw_other (D := fun y t => y.retire t (s.opened h).cur.next) hp hports hother (fun y t ht => ?_) fun y t hy => ?_]
  · have hretired := ha.retireAll_of_rests hp hstands.rests
    rwa [State.retireAll, hstands.rests.curThreads, hstands.cur] at hretired
  · obtain ⟨j, hj, rfl⟩ := List.mem_map.mp ht
    exact y.reqs_retire (by rw [threadOf_warp (hp.active_lt h j hj)]; exact ha.not_scribe hp) _
  · rw [State.loadsDone_congr hy, if_pos (by simpa using hdone)]

theorem acts_barw_fences (h : Hdr) (l : Level) (k a : Nat) : Acts (.barw h l k false a) h { src := [a], forbid := true }
    (fun s act => portsReady { src := [a], forbid := true } s act ∧ s.barMember s.cur.warp l k = true ∧ s.loadsDone s.cur.warp = false ∧
      ∀ i, i < act.length → s.srcWord act [a] i 0 ≠ s.barPhase s.cur.warp l k)
    (wait (fun _ => .fence (barScope l) false true 0)) (fun s act => (s.readField (s.curThreads act) a).1) := by
  refine .of_barw (wait_keeps _) (fun _ _ ⟨_, hmember, _⟩ => hmember) fun s hp ha _ ⟨hports, _, hbusy, hother⟩ => ?_
  have hstands := (s.opened h).readField_stands ((s.opened h).curThreads (s.active h)) a
  refine ⟨hstands.rests, ?_⟩
  rw [ha.barw_other (D := fun y t => y.waitLane t (.fence (barScope l) false true 0)) hp hports hother (fun _ _ _ => rfl) fun y t hy => ?_]
  · have hwaits := ha.waitAll_of_rests hp hstands.rests (.fence (barScope l) false true 0)
    rwa [State.waitAll, hstands.rests.curThreads] at hwaits
  · rw [State.loadsDone_congr hy, hbusy]
    rfl

theorem acts_barw_waits (h : Hdr) (l : Level) (k : Nat) (rlx : Bool) (a : Nat) : Acts (.barw h l k rlx a) h { src := [a], forbid := true }
    (fun s act => portsReady { src := [a], forbid := true } s act ∧ s.barMember s.cur.warp l k = true ∧
      ∀ i, i < act.length → s.srcWord act [a] i 0 = s.barPhase s.cur.warp l k)
    (wait (fun s => .barw l (s.barKey l s.cur.warp) k (s.barPhase s.cur.warp l k))) (fun s _ => s) := by
  refine .of_barw (wait_keeps _) (fun _ _ ⟨_, hmember, _⟩ => hmember) fun s hp ha hne ⟨hports, _, hsame⟩ => ⟨.refl _, ?_⟩
  rw [ha.barw_same hp hports hne hsame]
  exact ha.waitAll_of_rests hp (.refl _) _

/-- Settles O24: arrivals ask of the threads only which have exited, so that the lanes that arrive one by one may wait or retire together at the
end; BARW's lanes all do the same. -/
theorem barrierForms : Obligations.BarrierForms :=
  ⟨acts_bar, fun h l k rlx _ hd => acts_bara h l k rlx hd, fun h l k rlx _ hd => acts_bara_port h l k rlx hd, acts_barw_passes, acts_barw_fences,
    acts_barw_waits, acts_barv, acts_phase⟩

end Sys2Proof.Machine
end

