-- ==== Sys2Proof/Proofs/LaneItems.lean ====
section
/-! Lanes that take a step beside the threads and then change their own: the steps are taken in lane order, and what a lane's thread becomes
depends on the steps before. -/

namespace Sys2Proof.Machine

theorem Threadless.setThread {F : State → State} (hF : Threadless F) (x : State) (t : Nat) (y : Thread) :
    F (x.setThread t y) = (F x).setThread t y := by
  rw [State.setThread, State.setThread, hF.thr]
  exact hF x _

/-- Items of distinct threads. -/
theorem foldl_items {α : Type} {key : α → Nat} {F : State → α → State} {e : State → α → Thread → Thread} (hF : ∀ q, Threadless fun x => F x q)
    (he : ∀ (x : State) th q, e { x with thr := th } q = e x q) {qs : List α} (hnodup : (qs.map key).Nodup) (x : State) :
    let b := qs.foldl (fun y q => (F y q).setThread (key q) (e y q (y.thread (key q)))) x
    b = { qs.foldl F x with thr := b.thr } ∧
      (∀ i q, qs[i]? = some q → b.thread (key q) = e ((qs.take i).foldl F x) q (x.thread (key q))) ∧
      ∀ k, (∀ q ∈ qs, k ≠ key q) → b.thread k = x.thread k := by
  induction qs generalizing x with
  | nil => exact ⟨rfl, fun i q hq => by simp at hq, fun _ _ => rfl⟩
  | cons q qs ih =>
    obtain ⟨hq, hnodup⟩ := List.nodup_cons.mp hnodup
    have hne : ∀ p ∈ qs, key p ≠ key q := fun p hp heq => hq (heq ▸ List.mem_map_of_mem hp)
    obtain ⟨y, hy⟩ : ∃ y, e x q (x.thread (key q)) = y := ⟨_, rfl⟩
    have hstep : (F x q).setThread (key q) y = { F x q with thr := Tab.put (key q) y x.thr } := by
      rw [State.setThread, (hF q).thr]
    have hfold : ∀ ps : List α, ps.foldl F ((F x q).setThread (key q) y) = { (q :: ps).foldl F x with thr := Tab.put (key q) y x.thr } := fun ps => by
      rw [hstep]
      exact Threadless.foldl hF ps (F x q) _
    have hthread : ∀ k, k ≠ key q → ((F x q).setThread (key q) y).thread k = x.thread k := fun k hk => by
      rw [State.thread_setThread, if_neg hk, State.thread, (hF q).thr, State.thread]
    obtain ⟨hrest, hon, hoff⟩ := ih hnodup ((F x q).setThread (key q) y)
    dsimp only
    rw [List.foldl_cons, hy]
    refine ⟨by rw [hrest, hfold], fun i p hp => ?_, fun k hk => ?_⟩
    · cases i with
      | zero =>
        obtain rfl : q = p := by simpa using hp
        rw [hoff _ fun p hp => (hne p hp).symm, State.thread_setThread_self, ← hy]
        rfl
      | succ i =>
        have hp' : qs[i]? = some p := by simpa using hp
        rw [hon i p hp', hfold, he, hthread _ (hne p (List.mem_of_getElem? hp'))]
        rfl
    · obtain ⟨hkq, hk⟩ := List.forall_mem_cons.mp hk
      rw [hoff k hk, hthread k hkq]

/-- The same for a group's lanes, the item of each lane standing at its place. -/
theorem Done.of_items {α : Type} {key : α → Nat} {F : State → α → State} {e : State → α → Thread → Thread} {d : Nat → Thread → Thread} {qs : List α}
    {act : List Nat} {x : State} (hF : ∀ q, Threadless fun x => F x q) (he : ∀ (x : State) th q, e { x with thr := th } q = e x q)
    (hcur : (qs.foldl F x).cur = x.cur) (hkeys : qs.map key = x.curThreads act) (hnodup : act.Nodup)
    (hd : ∀ i q l, qs[i]? = some q → act[i]? = some l → e ((qs.take i).foldl F x) q = d l) :
    Done (qs.foldl (fun y q => (F y q).setThread (key q) (e y q (y.thread (key q)))) x) act d (qs.foldl F x) := by
  obtain ⟨hrest, hon, hoff⟩ := foldl_items hF he (by rw [hkeys]; exact nodup_map_threadOf hnodup) x
  have hthread : ∀ k, (qs.foldl F x).thread k = x.thread k := State.thread_congr ((Threadless.foldl hF qs).thr x)
  have hlane : ∀ l, (qs.foldl F x).lane l = threadOf x.cur.warp l := fun l => by rw [State.lane, hcur]
  refine ⟨hrest, fun l hl => ?_, fun k hk => ?_⟩
  · obtain ⟨i, hi⟩ := List.mem_iff_getElem?.mp hl
    have hmap : (qs.map key)[i]? = some (threadOf x.cur.warp l) := by simp [hkeys, State.curThreads, hi]
    rw [List.getElem?_map] at hmap
    obtain ⟨q, hq, hkey⟩ := Option.map_eq_some_iff.mp hmap
    rw [hthread, hlane, ← hkey, hon i q hq, hd i q l hq hi]
  · rw [hthread]
    refine hoff k fun q hq hkq => ?_
    have hmem : key q ∈ x.curThreads act := hkeys ▸ List.mem_map_of_mem hq
    obtain ⟨l, hl, hlq⟩ := List.mem_map.mp hmem
    exact hk l hl (by rw [hlane, hkq, ← hlq])

/-- Steps of lanes that are active are such items. -/
theorem foldl_lanes_eq {step P : State → Nat → State} {e : State → Nat → Thread → Thread} {inv : State → Prop} {ts : List Nat}
    (hP : ∀ t, Threadless fun x => P x t) (hactive : ∀ y t z, (e y t z).active)
    (hstep : ∀ y, ∀ t ∈ ts, inv y → (y.thread t).active → step y t = (P y t).setThread t (e y t (y.thread t)))
    (hinv : ∀ y, ∀ t ∈ ts, inv y → (y.thread t).active → inv ((P y t).setThread t (e y t (y.thread t)))) {x : State} (hx : inv x)
    (hlive : ∀ t ∈ ts, (x.thread t).active) : ts.foldl step x = ts.foldl (fun y t => (P y t).setThread t (e y t (y.thread t))) x := by
  refine foldl_eq_of_invariant (inv := fun y => inv y ∧ ∀ t ∈ ts, (y.thread t).active) (fun y t ht ⟨hy, hlive⟩ => ?_)
    (fun y t ht ⟨hy, hlive⟩ => hstep y t ht hy (hlive t ht)) ⟨hx, hlive⟩
  refine ⟨hinv y t ht hy (hlive t ht), fun u hu => ?_⟩
  rw [State.thread_setThread]
  split
  · exact hactive ..
  · rw [State.thread, (hP t).thr]
    exact hlive u hu

/-- A unit whose body does nothing without active lanes ends with what the body leaves. -/
theorem Start.issue_done {s g : State} {h : Hdr} {u : Uses} {d : Nat → Thread → Thread} {body : List Nat → State → State} (hp : Plain s)
    (ha : Start s (s.opened h) h) (hl : Legal s h u) (hnil : body [] (s.opened h) = s.opened h) (hg : Rests (s.opened h) g) (hkeeps : Keeps d)
    (hb : Done (body (s.active h) (s.opened h)) (s.active h) d g) : s.issue h u body = body (s.active h) (s.opened h) := by
  obtain ⟨_, -, ⟨rfl, -⟩, hissue⟩ := State.issue_plain hp hl body
  rw [hissue]
  by_cases hn : s.active h = []
  · rw [if_pos hn, hn, hnil]
  · rw [if_neg hn]
    exact ha.unitEnd_done hp hg hkeeps hb

/-- What the threads of a plain group are once its active lanes have acted and nothing else has changed a thread. -/
theorem Start.done_threads {s g b : State} {h : Hdr} {d : Nat → Thread → Thread} (ha : Start s (s.opened h) h) (hcur : g.cur = s.cur)
    (hthr : g.thr = (s.opened h).thr) (hb : Done b (s.active h) d g) :
    (∀ l ∈ s.active h, b.thread (s.lane l) = d l (s.atIssue l)) ∧
    (∀ l ∈ s.cur.lanes, s.laneOn h (s.lane l) = false → b.thread (s.lane l) = (s.atIssue l).retired s.cur.next) ∧
    ∀ k, (∀ l ∈ s.cur.lanes, k ≠ s.lane l) → b.thread k = s.thread k := by
  have hlane : ∀ l, g.lane l = s.lane l := fun l => by rw [State.lane, hcur]; rfl
  have hthread := State.thread_congr hthr
  refine ⟨fun l hl => ?_, fun l hl hoff => ?_, fun k hk => ?_⟩
  · obtain ⟨hmem, hon⟩ := State.mem_active hl
    rw [← hlane, hb.on l hl, hlane, hthread, ha.on l hmem hon]
  · rw [hb.others _ fun j hj => ?_, hthread, ha.off l hl hoff]
    rw [hlane]
    intro heq
    rw [heq, (State.mem_active hj).2] at hoff
    cases hoff
  · rw [hb.others _ fun j hj => ?_, hthread, ha.others k hk]
    rw [hlane]
    exact hk j (State.mem_active hj).1

end Sys2Proof.Machine
end

