-- ==== Sys2Proof/Proofs/MovNb.lean ====
section
/-! MOV.nb (R81, R187). -/

namespace Sys2Proof.Machine

/-- A lane of a unit that never waits: it retires, and its predicate says how it fared. -/
def Thread.fared (x : Thread) (next : Int) (c : Nat) (v : Int) : Thread := (x.retired next).wrote (.pred c v)

theorem Thread.fared_active (x : Thread) (next : Int) (c : Nat) (v : Int) : (x.fared next c v).active := .inl rfl

theorem State.retire_setPred_eq {a : State} {t : Nat} (hwid : widOf (warpOf t) ≠ 27) (ht : (a.thread t).active) (next : Int) (c : Nat) (v : Int) :
    (a.retire t next).setPred t c v = a.setThread t ((a.thread t).fared next c v) := by
  simp only [State.retire_eq a t next hwid ht.not_stopped, State.setPred, State.thread_setThread_self, State.setThread_setThread]
  rfl

theorem State.portClosed_congr {x y : State} (hcor : y.cor = x.cor) (hctxs : y.ctxs = x.ctxs) (c ctx q : Nat) :
    y.portClosed c ctx q = x.portClosed c ctx q := by
  simp only [State.portClosed, State.port, State.core_congr hcor, State.ctx_congr hctxs]

theorem Start.portClosed {s a : State} {h : Hdr} (ha : Start s a h) (c ctx q : Nat) : a.portClosed c ctx q = s.portClosed c ctx q :=
  State.portClosed_congr (by rw [ha.rest]) (by rw [ha.rest]) c ctx q

/-- What MOV.nb does with its lanes. -/
def movNbBody (d a c : Nat) (act : List Nat) (x : State) : State :=
  if x.portClosed (coreOf x.cur.warp) (x.warp x.cur.warp).ctx ((if isPort a then a else d) - 216) then
    (x.curThreads act).foldl (fun b t => (b.retire t x.cur.next).setPred t c (-1)) x
  else (x.curThreads act).foldl (nbLane d a c ((if isPort a then a else d) - 216) (isPort a)) x

theorem movNbBody_nil (d a c : Nat) (x : State) : movNbBody d a c [] x = x := by
  unfold movNbBody
  exact ite_self x

theorem exec_movNb (h : Hdr) (d a c : Nat) (s : State) :
    exec (.movNb h d a c) s = .next (s.issue h { src := [a], dst := [d], preds := [c] } (movNbBody d a c)) := rfl

section
variable {s : State} {h : Hdr} {d a c : Nat} (hp : Plain s) (ha : Start s (s.opened h) h) (hl : Legal s h { src := [a], dst := [d], preds := [c] })
include hp ha hl

/-! At a closed port. -/

theorem Start.movNb_closed (hclosed : s.portClosed (coreOf s.cur.warp) (s.warp s.cur.warp).ctx ((if isPort a then a else d) - 216) = true) :
    ∃ t, exec (.movNb h d a c) s = .next t ∧
      (∀ l ∈ s.active h, t.thread (s.lane l) = ((s.atIssue l).retired s.cur.next).wrote (.pred c (-1))) ∧
      (∀ l ∈ s.cur.lanes, s.laneOn h (s.lane l) = false → t.thread (s.lane l) = (s.atIssue l).retired s.cur.next) ∧
      (∀ k, (∀ l ∈ s.cur.lanes, k ≠ s.lane l) → t.thread k = s.thread k) ∧ t = { s with thr := t.thr, stamp := s.stamp + 1 } := by
  have hrun : movNbBody d a c (s.active h) (s.opened h) =
      ((s.opened h).curThreads (s.active h)).foldl (fun b t => (b.retire t (s.opened h).cur.next).setPred t c (-1)) (s.opened h) := by
    rw [movNbBody, ha.portClosed, ha.warp, ha.cur, if_pos hclosed]
  have hdone : Done (movNbBody d a c (s.active h) (s.opened h)) (s.active h) (fun _ x => x.fared s.cur.next c (-1)) (s.opened h) := by
    rw [hrun, ha.cur]
    exact fold_lanes (active_nodup hp) fun x l hl' _ hsame => State.retire_setPred_eq
      (by rw [ha.lane, State.lane, threadOf_warp (hp.active_lt h l hl')]; exact hp.wid)
      (by rw [hsame, ha.lane]; exact ha.live hp hl') _ _ _
  have hissue := ha.issue_done hp hl (movNbBody_nil d a c _) (.refl _) (fun _ x _ => ⟨x.fared_active s.cur.next c (-1), rfl⟩) hdone
  obtain ⟨hon, hoff, hothers⟩ := ha.done_threads ha.cur rfl hdone
  refine ⟨_, (exec_movNb h d a c s).trans (congrArg Host.Outcome.next hissue), hon, hoff, hothers, ?_⟩
  generalize movNbBody d a c (s.active h) (s.opened h) = b at hdone
  rw [hdone.rest, ha.rest]

end

/-! From an open port. -/

theorem threadless_raiseRT (w : Nat) (t : Int) : Threadless fun x => x.raiseRT w t := fun x th => by
  change { x with thr := th }.raiseRT w t = { x.raiseRT w t with thr := th }
  rcases hfind : Tab.find x.wrp w with _ | y <;> simp only [State.raiseRT, hfind]
  rfl

theorem threadless_portPop (w q n : Nat) : Threadless fun x => x.portPop w q n := fun x th => by
  let y := x.setPort (coreOf w) q ((x.port (coreOf w) q).drop n)
  let ws := Tab.get [] (y.core (coreOf w)).tokW q
  dsimp only [State.portPop]
  split
  · exact Threadless.foldl (fun t => threadless_raiseRT w t) (ws.take n)
      (y.setCore (coreOf w) { y.core (coreOf w) with tokW := Tab.put q (ws.drop n) (y.core (coreOf w)).tokW }) th
  · rfl

/-- One word is taken from a port, where there is one. -/
def State.popWord (x : State) (w q : Nat) : State :=
  match x.port (coreOf w) q with
  | [] => x
  | _ :: _ => x.portPop w q 1

theorem threadless_popWord (w q : Nat) : Threadless fun x => x.popWord w q := fun x th => by
  have hport : { x with thr := th }.port (coreOf w) q = x.port (coreOf w) q := rfl
  dsimp only [State.popWord]
  rw [hport]
  split
  · rfl
  · exact threadless_portPop w q 1 x th

/-- The times that the first words taken from a port announce. -/
def State.announced (x : State) (w q n : Nat) : List Int := if q = 9 ∨ q = 14 then (Tab.get [] (x.core (coreOf w)).tokW q).take n else []

theorem State.announced_zero (x : State) (w q : Nat) : x.announced w q 0 = [] := by simp [State.announced]

theorem State.popWord_spec (x : State) (w q : Nat) : Popped x (x.popWord w q) w (fun i => if i = q then min 1 (x.port (coreOf w) q).length else 0)
    (x.announced w q (min 1 (x.port (coreOf w) q).length)) := by
  rcases hport : x.port (coreOf w) q with _ | ⟨v, vs⟩
  · have hsame : x.popWord w q = x := by rw [State.popWord, hport]
    simpa only [hsame, List.length_nil, Nat.min_zero, ite_self, State.announced_zero] using Popped.refl x w
  · have hpop : x.popWord w q = x.portPop w q 1 := by rw [State.popWord, hport]
    have hone : min 1 (v :: vs).length = 1 := by simp
    rw [hpop, hone]
    exact x.portPop_spec w q 1

/-- Words taken after others announce what is left. -/
theorem Popped.announced_append {x y : State} {w q n : Nat} {ws : List Int} (h : Popped x y w (fun i => if i = q then n else 0) ws) (m : Nat) :
    x.announced w q n ++ y.announced w q m = x.announced w q (n + m) := by
  unfold State.announced
  split
  · next hq => rw [h.tokW, if_pos ⟨rfl, hq⟩, if_pos rfl, ← List.take_add]
  · rfl

/-- Several words are taken one by one, as far as they go. -/
theorem State.popWords_spec {α : Type} (w q : Nat) (ts : List α) (x : State) :
    Popped x (ts.foldl (fun y _ => y.popWord w q) x) w (fun i => if i = q then min ts.length (x.port (coreOf w) q).length else 0)
      (x.announced w q (min ts.length (x.port (coreOf w) q).length)) := by
  induction ts generalizing x with
  | nil => simpa only [List.foldl_nil, List.length_nil, Nat.zero_min, ite_self, State.announced_zero] using Popped.refl x w
  | cons t ts ih =>
    have hone := x.popWord_spec w q
    have hlen : ((x.popWord w q).port (coreOf w) q).length = (x.port (coreOf w) q).length - min 1 (x.port (coreOf w) q).length := by
      rw [hone.ports, if_pos rfl, if_pos rfl, List.length_drop]
    have hboth := hone.trans (ih (x.popWord w q))
    rw [hone.announced_append, hlen] at hboth
    have hcount : min 1 (x.port (coreOf w) q).length + min ts.length ((x.port (coreOf w) q).length - min 1 (x.port (coreOf w) q).length) =
        min (t :: ts).length (x.port (coreOf w) q).length := by
      rw [List.length_cons]
      omega
    have hcounts : (fun i => (if i = q then min 1 (x.port (coreOf w) q).length else 0) +
        if i = q then min ts.length ((x.port (coreOf w) q).length - min 1 (x.port (coreOf w) q).length) else 0) =
        fun i => if i = q then min (t :: ts).length (x.port (coreOf w) q).length else 0 := by
      funext i
      split
      · exact hcount
      · rfl
    rw [hcount, hcounts] at hboth
    exact hboth

theorem drop_min_length (n : Nat) (ws : List Int) : ws.drop (min n ws.length) = ws.drop n := by
  rcases Nat.le_total n ws.length with hle | hle
  · rw [Nat.min_eq_left hle]
  · rw [Nat.min_eq_right hle, List.drop_length, List.drop_of_length_le hle]

/-- After some words the port holds the others. -/
theorem State.popWords_port {α : Type} (w q : Nat) (ts : List α) (x : State) :
    (ts.foldl (fun y _ => y.popWord w q) x).port (coreOf w) q = (x.port (coreOf w) q).drop ts.length := by
  rw [(x.popWords_spec w q ts).ports, if_pos rfl, if_pos rfl, drop_min_length]

/-- What a lane makes of the port's first word, or of none. -/
def Thread.takesWord (x : Thread) (next : Int) (d c : Nat) : Option Int → Thread
  | some v => ((x.retired next).putReg d v).wrote (.pred c 1)
  | none => x.fared next c 0

theorem Thread.takesWord_active (x : Thread) (next : Int) (d c : Nat) (v : Option Int) : (x.takesWord next d c v).active := by
  cases v with
  | none => exact x.fared_active ..
  | some v =>
    dsimp only [Thread.takesWord, Thread.putReg]
    split <;> exact .inl rfl

theorem Thread.takesWord_mr (x : Thread) (next : Int) (d c : Nat) (v : Option Int) : (x.takesWord next d c v).mr = x.mr := by
  cases v with
  | none => rfl
  | some v =>
    dsimp only [Thread.takesWord, Thread.putReg]
    split <;> rfl

theorem State.setThread_setReg (x : State) (t d : Nat) (y : Thread) (v : Int) : (x.setThread t y).setReg t d v = x.setThread t (y.putReg d v) := by
  unfold State.setReg Thread.putReg
  split
  · rw [State.thread_setThread_self, State.setThread_setThread]
  · rfl

theorem State.setThread_setPred (x : State) (t c : Nat) (y : Thread) (v : Int) :
    (x.setThread t y).setPred t c v = x.setThread t (y.wrote (.pred c v)) := by
  rw [State.setPred, State.thread_setThread_self, State.setThread_setThread]
  rfl

/-- A lane of MOV.nb from a port. -/
theorem nbLane_pop_eq {y : State} {t d a c q w : Nat} {next : Int} (hw : y.cur.warp = w) (hnext : y.cur.next = next) (hwid : widOf (warpOf t) ≠ 27)
    (ht : (y.thread t).active) :
    nbLane d a c q true y t = (y.popWord w q).setThread t ((y.thread t).takesWord next d c (y.port (coreOf w) q).head?) := by
  subst hw hnext
  dsimp only [nbLane]
  rw [if_pos rfl]
  rcases hport : y.port (coreOf y.cur.warp) q with _ | ⟨v, vs⟩
  · have hsame : y.popWord y.cur.warp q = y := by rw [State.popWord, hport]
    rw [hsame]
    exact State.retire_setPred_eq hwid ht ..
  · have hpop : y.popWord y.cur.warp q = y.portPop y.cur.warp q 1 := by rw [State.popWord, hport]
    have hswap := Threadless.setThread (threadless_portPop y.cur.warp q 1) y t ((y.thread t).retired y.cur.next)
    simp only [State.retire_eq y t _ hwid ht.not_stopped, hswap, State.setThread_setReg, State.setThread_setPred, hpop]
    rfl

theorem popWords_cur (w q : Nat) (ts : List Nat) (x : State) : (ts.foldl (fun y _ => y.popWord w q) x).cur = x.cur := by
  rw [(x.popWords_spec w q ts).rest]

theorem Start.core {s a : State} {h : Hdr} (ha : Start s a h) (k : Nat) : a.core k = s.core k := State.core_congr (by rw [ha.rest]) k

theorem Start.observed {s a : State} {h : Hdr} (ha : Start s a h) (v : Nat) (ws : List Int) : a.observed v ws = s.observed v ws := by
  rw [ha.rest]
  rfl

theorem Start.port {s a : State} {h : Hdr} (ha : Start s a h) (k q : Nat) : a.port k q = s.port k q := by
  rw [State.port, ha.core, State.port]

theorem Start.portRoom {s a : State} {h : Hdr} (ha : Start s a h) (c ctx bid q : Nat) : a.portRoom c ctx bid q = s.portRoom c ctx bid q := by
  rw [State.portRoom, ha.ctx, ha.port, State.portRoom]

section
variable {s : State} {h : Hdr} {d a c : Nat} (hp : Plain s) (ha : Start s (s.opened h) h)
include hp ha

theorem Start.thread_active {t : Nat} (ht : t ∈ (s.opened h).curThreads (s.active h)) :
    warpOf t = s.cur.warp ∧ widOf (warpOf t) ≠ 27 ∧ ((s.opened h).thread t).active := by
  obtain ⟨l, hl, rfl⟩ := List.mem_map.mp ht
  rw [threadOf_warp (hp.active_lt h l hl), ha.cur]
  exact ⟨rfl, hp.wid, ha.live hp hl⟩

/-- At an open port the lanes take its words in lane order. -/
theorem Start.movNb_pop_done (hport : isPort a = true)
    (hopen : s.portClosed (coreOf s.cur.warp) (s.warp s.cur.warp).ctx (a - 216) = false) :
    Done (movNbBody d a c (s.active h) (s.opened h)) (s.active h)
      (fun l x => x.takesWord s.cur.next d c (s.port (coreOf s.cur.warp) (a - 216))[(s.active h).idxOf l]?)
      (((s.opened h).curThreads (s.active h)).foldl (fun y _ => y.popWord s.cur.warp (a - 216)) (s.opened h)) := by
  have hrun : movNbBody d a c (s.active h) (s.opened h) =
      ((s.opened h).curThreads (s.active h)).foldl (nbLane d a c (a - 216) true) (s.opened h) := by
    rw [movNbBody, hport, if_pos rfl, ha.portClosed, ha.warp, ha.cur, if_neg (by simp [hopen])]
  have hlanes := foldl_lanes_eq (step := nbLane d a c (a - 216) true) (P := fun y _ => y.popWord s.cur.warp (a - 216))
    (e := fun y _ z => z.takesWord s.cur.next d c (y.port (coreOf s.cur.warp) (a - 216)).head?) (inv := fun y => y.cur = s.cur)
    (ts := (s.opened h).curThreads (s.active h)) (fun _ => threadless_popWord _ _) (fun _ _ _ => Thread.takesWord_active ..)
    (fun y t ht hy hact => nbLane_pop_eq (by rw [hy]) (by rw [hy]) (ha.thread_active hp ht).2.1 hact)
    (fun y t _ hy _ => by rw [State.setThread_cur, (y.popWord_spec _ _).rest]; exact hy) ha.cur fun t ht => (ha.thread_active hp ht).2.2
  rw [hrun, hlanes]
  refine Done.of_items (key := id) (e := fun y _ z => z.takesWord s.cur.next d c (y.port (coreOf s.cur.warp) (a - 216)).head?)
    (fun _ => threadless_popWord _ _) (fun _ _ _ => rfl) (popWords_cur ..) (List.map_id _) (active_nodup hp) fun i q l hq hl => ?_
  obtain ⟨hi, rfl⟩ := List.getElem?_eq_some_iff.mp hl
  obtain ⟨hlt, -⟩ := List.getElem?_eq_some_iff.mp hq
  have hopened : (s.opened h).port (coreOf s.cur.warp) (a - 216) = s.port (coreOf s.cur.warp) (a - 216) := ha.port ..
  have hlen : (((s.opened h).curThreads (s.active h)).take i).length = i := List.length_take_of_le hlt.le
  simp only [State.popWords_port, hopened, hlen, List.head?_drop, (active_nodup (h := h) hp).idxOf_getElem i hi]

theorem Start.movNb_pop (hl : Legal s h { src := [a], dst := [d], preds := [c] }) (hport : isPort a = true)
    (hopen : s.portClosed (coreOf s.cur.warp) (s.warp s.cur.warp).ctx (a - 216) = false) : ∃ t, exec (.movNb h d a c) s = .next t ∧
      (∀ i, i < (s.active h).length → t.thread (s.lane ((s.active h).getD i 0)) =
        let x := (s.atIssue ((s.active h).getD i 0)).retired s.cur.next
        match (s.port (coreOf s.cur.warp) (a - 216))[i]? with
        | some v => (x.putReg d v).wrote (.pred c 1)
        | none => x.wrote (.pred c 0)) ∧
      (∀ l ∈ s.cur.lanes, s.laneOn h (s.lane l) = false → t.thread (s.lane l) = (s.atIssue l).retired s.cur.next) ∧
      (∀ k, (∀ l ∈ s.cur.lanes, k ≠ s.lane l) → t.thread k = s.thread k) ∧
      (∀ k q, t.port k q = if k = coreOf s.cur.warp ∧ q = a - 216 then (s.port k q).drop (s.active h).length else s.port k q) ∧
      let n := min (s.active h).length (s.port (coreOf s.cur.warp) (a - 216)).length
      let tok : Bool := decide (a = 225) || decide (a = 230)
      (∀ k q, Tab.get [] (t.core k).tokW q = if k = coreOf s.cur.warp ∧ q = a - 216 ∧ tok = true then (Tab.get [] (s.core k).tokW q).drop n
        else Tab.get [] (s.core k).tokW q) ∧
      (∀ v, t.warp v = if v = s.cur.warp ∧ tok = true then
        s.observed v ((Tab.get [] (s.core (coreOf s.cur.warp)).tokW (a - 216)).take n) else s.warp v) ∧
      (∀ k, t.core k = { s.core k with ports := (t.core k).ports, tokW := (t.core k).tokW }) ∧
      t = { s with thr := t.thr, wrp := t.wrp, cor := t.cor, stamp := s.stamp + 1 } := by
  have hdone := ha.movNb_pop_done (d := d) (c := c) hp hport hopen
  have hpop := (s.opened h).popWords_spec s.cur.warp (a - 216) ((s.opened h).curThreads (s.active h))
  have hissue := ha.issue_done hp hl (movNbBody_nil d a c _) hpop.stands.rests
    (fun _ x hx => ⟨x.takesWord_active .., x.takesWord_mr ..⟩) hdone
  obtain ⟨hon, hoff, hothers⟩ := ha.done_threads (by rw [hpop.rest]; exact ha.cur) (by rw [hpop.rest]) hdone
  have hexec := (exec_movNb h d a c s).trans (congrArg Host.Outcome.next hissue)
  generalize movNbBody d a c (s.active h) (s.opened h) = t at hdone hexec hon hoff hothers
  generalize ((s.opened h).curThreads (s.active h)).foldl (fun y _ => y.popWord s.cur.warp (a - 216)) (s.opened h) = g at hdone hpop
  rw [State.length_curThreads, ha.port] at hpop
  have htok : (a = 225 ∨ a = 230) ↔ (a - 216 = 9 ∨ a - 216 = 14) := by
    simp only [isPort, Bool.and_eq_true, decide_eq_true_eq] at hport
    omega
  have hcore : ∀ k, t.core k = g.core k := State.core_congr (by rw [hdone.rest])
  have hwarp : ∀ v, t.warp v = g.warp v := State.warp_congr (by rw [hdone.rest])
  refine ⟨t, hexec, fun i hi => ?_, hoff, hothers, fun k q => ?_, ?_⟩
  · have hmem : (s.active h).getD i 0 = (s.active h)[i] := by simp [hi]
    rw [hmem, hon _ (List.getElem_mem hi), (active_nodup (h := h) hp).idxOf_getElem i hi]
    cases (s.port (coreOf s.cur.warp) (a - 216))[i]? <;> rfl
  · have hsame : t.port k q = g.port k q := by rw [State.port, hcore, State.port]
    have hports := hpop.ports k q
    rw [hsame, hports, ha.port]
    by_cases hk : k = coreOf s.cur.warp
    · by_cases hq : q = a - 216
      · simp only [hk, hq, if_true, and_self, drop_min_length]
      · simp only [hk, hq, if_true, and_false, if_false, List.drop_zero]
    · simp only [hk, false_and, if_false]
  · refine ⟨fun k q => ?_, fun v => ?_, fun k => ?_, ?_⟩
    · rw [hcore, hpop.tokW, ha.core]
      by_cases hk : k = coreOf s.cur.warp
      · by_cases hq : q = a - 216
        · simp only [hk, hq, true_and, if_true, Bool.or_eq_true, decide_eq_true_eq, htok]
        · simp only [hk, hq, true_and, false_and, if_false, List.drop_zero, ite_self]
      · simp only [hk, false_and, if_false]
    · rw [hwarp, hpop.warps, ha.observed, ha.warp, State.announced, ha.core]
      by_cases hv : v = s.cur.warp
      · simp only [hv, true_and, if_true, Bool.or_eq_true, decide_eq_true_eq, htok]
        split
        · rfl
        · exact s.observed_nil _
      · simp only [hv, false_and, if_false]
    · rw [hcore, hpop.cores, ha.core]
    · rw [hdone.rest, hpop.rest, ha.rest]

end

/-! Into an open port. -/

/-- Some words have gone to a port of a warp's core, or to its block's session (R346). -/
structure Pushed (x y : State) (w q : Nat) (ws : List Int) : Prop where
  rest : y = { x with cor := y.cor, ctxs := y.ctxs }
  ports : ∀ k i, y.port k i = if k = coreOf w ∧ i = q ∧ i ≠ 14 then x.port k i ++ ws else x.port k i
  session : ∀ c b, Tab.get {} (y.ctx c).sess b = if c = (x.warp w).ctx ∧ b = (x.warp w).bid ∧ q = 14 then
    { Tab.get {} (x.ctx c).sess b with cmds := (Tab.get {} (x.ctx c).sess b).cmds ++ ws } else Tab.get {} (x.ctx c).sess b
  cores : ∀ k, y.core k = { x.core k with ports := (y.core k).ports }
  ctxs : ∀ c, y.ctx c = { x.ctx c with sess := (y.ctx c).sess }

section
variable {x y z : State} {w q : Nat} {ws us : List Int}

theorem Pushed.refl (x : State) (w q : Nat) : Pushed x x w q [] :=
  ⟨rfl, fun k i => by rw [List.append_nil, ite_self], fun c b => by simp only [List.append_nil, ite_self], fun _ => rfl, fun _ => rfl⟩

theorem Pushed.warp (h : Pushed x y w q ws) (v : Nat) : y.warp v = x.warp v := State.warp_congr (by rw [h.rest]) v

theorem Pushed.trans (h : Pushed x y w q ws) (h' : Pushed y z w q us) : Pushed x z w q (ws ++ us) := by
  refine ⟨by rw [h'.rest, h.rest], fun k i => ?_, fun c b => ?_, fun k => by rw [h'.cores, h.cores], fun c => by rw [h'.ctxs, h.ctxs]⟩
  · rw [h'.ports, h.ports]
    split
    · rw [List.append_assoc]
    · rfl
  · rw [h'.session, h.session, h.warp]
    split
    · simp only [List.append_assoc]
    · rfl

/-- A thread's registers, special ones included, read as before. -/
theorem Pushed.reg (h : Pushed x y w q ws) (t r : Nat) : y.reg t r = x.reg t r := by
  have hthread : y.thread t = x.thread t := State.thread_congr (by rw [h.rest]) t
  have hclid : (y.core (coreOf (warpOf t))).clid = (x.core (coreOf (warpOf t))).clid := by rw [h.cores]
  have hlr : ∀ c, (y.ctx c).lr = (x.ctx c).lr := fun c => by rw [h.ctxs]
  have hpkg : y.pkg = x.pkg := by rw [h.rest]
  simp only [State.reg, State.special, State.launchOf, h.warp, hthread, hclid, hlr, hpkg]

/-- The words take room. -/
theorem Pushed.room (h : Pushed x y w q ws) :
    y.portRoom (coreOf w) (y.warp w).ctx (y.warp w).bid q = x.portRoom (coreOf w) (x.warp w).ctx (x.warp w).bid q - ws.length := by
  rw [h.warp, State.portRoom, State.portRoom]
  by_cases hq : q = 14
  · rw [if_pos hq, if_pos hq, h.session, if_pos ⟨rfl, rfl, hq⟩, List.length_append]
    omega
  · rw [if_neg hq, if_neg hq, h.ports, if_pos ⟨rfl, rfl, hq⟩, List.length_append]
    omega

end

theorem State.portPush_pushed (x : State) (w q : Nat) (ws : List Int) :
    Pushed x (x.portPush (coreOf w) (x.warp w).ctx (x.warp w).bid q ws) w q ws := by
  unfold State.portPush
  split
  · next hq =>
    refine ⟨rfl, fun k i => ?_, fun c b => ?_, fun _ => rfl, fun c => ?_⟩
    · rw [if_neg fun hc => hc.2.2 (hc.2.1.trans hq)]
      rfl
    · rw [State.ctx_setCtx]
      by_cases hc : c = (x.warp w).ctx
      · simp only [hc, hq, if_true, true_and, and_true, Tab.get_put]
        split
        · next hb => rw [hb]
        · rfl
      · simp only [hc, if_false, false_and]
    · rw [State.ctx_setCtx]
      split
      · next hc => rw [hc]
      · rfl
  · next hq =>
    refine ⟨rfl, fun k i => ?_, fun c b => ?_, fun k => ?_, fun _ => rfl⟩
    · simp only [State.port, State.setPort, State.core_setCore]
      by_cases hk : k = coreOf w
      · by_cases hi : i = q
        · simp only [hk, hi, if_true, Tab.get_set, true_and, ne_eq, hq, not_false_eq_true]
        · simp only [hk, hi, if_true, Tab.get_set, if_false, false_and, and_false]
      · simp only [hk, if_false, false_and]
    · rw [if_neg fun hc => hq hc.2.2]
      rfl
    · simp only [State.setPort, State.core_setCore]
      split
      · next hk => rw [hk]
      · rfl

/-- One word goes to a port, where there is room. -/
def State.pushWord (x : State) (w q : Nat) (v : Int) : State :=
  if x.portRoom (coreOf w) (x.warp w).ctx (x.warp w).bid q = 0 then x else x.portPush (coreOf w) (x.warp w).ctx (x.warp w).bid q [v]

theorem threadless_pushWord (w q : Nat) (v : Int) : Threadless fun x => x.pushWord w q v :=
  .ite (fun _ _ => Iff.rfl) .refl (fun x th => threadless_portPush (coreOf w) (x.warp w).ctx (x.warp w).bid q [v] x th)

theorem State.pushWord_rests (x : State) (w q : Nat) (v : Int) : Rests x (x.pushWord w q v) := by
  unfold State.pushWord
  split
  · exact .refl x
  · exact x.portPush_rests ..

theorem State.pushWord_spec (x : State) (w q : Nat) (v : Int) :
    Pushed x (x.pushWord w q v) w q ([v].take (x.portRoom (coreOf w) (x.warp w).ctx (x.warp w).bid q)) := by
  unfold State.pushWord
  split
  · next hroom =>
    rw [hroom]
    exact .refl x w q
  · next hroom =>
    rw [List.take_of_length_le (Nat.one_le_iff_ne_zero.mpr hroom)]
    exact x.portPush_pushed w q [v]

/-- Several words go to a port one by one, as far as there is room. -/
theorem State.pushWords_spec (w q : Nat) (f : Nat → Int) (ts : List Nat) (x : State) :
    Pushed x (ts.foldl (fun y t => y.pushWord w q (f t)) x) w q ((ts.map f).take (x.portRoom (coreOf w) (x.warp w).ctx (x.warp w).bid q)) := by
  induction ts generalizing x with
  | nil => simpa only [List.foldl_nil, List.map_nil, List.take_nil] using Pushed.refl x w q
  | cons t ts ih =>
    have hone := x.pushWord_spec w q (f t)
    have hboth := hone.trans (ih (x.pushWord w q (f t)))
    rw [hone.room] at hboth
    rcases hroom : x.portRoom (coreOf w) (x.warp w).ctx (x.warp w).bid q with _ | n
    · rw [hroom] at hboth
      simpa using hboth
    · rw [hroom] at hboth
      simpa using hboth

/-- After some words the room is less by theirs. -/
theorem State.pushWords_room (w q : Nat) (f : Nat → Int) (ts : List Nat) (x : State) :
    let y := ts.foldl (fun y t => y.pushWord w q (f t)) x
    y.portRoom (coreOf w) (y.warp w).ctx (y.warp w).bid q = x.portRoom (coreOf w) (x.warp w).ctx (x.warp w).bid q - ts.length := by
  dsimp only
  rw [(x.pushWords_spec w q f ts).room, List.length_take, List.length_map]
  omega

/-- A lane of MOV.nb into a port. -/
theorem nbLane_push_eq {y : State} {t d a c q w : Nat} {next v : Int} (hw : y.cur.warp = w) (hnext : y.cur.next = next) (hv : y.reg t a = v)
    (hwid : widOf (warpOf t) ≠ 27) (ht : (y.thread t).active) :
    nbLane d a c q false y t = (y.pushWord w q v).setThread t
      ((y.thread t).fared next c (if y.portRoom (coreOf w) (y.warp w).ctx (y.warp w).bid q = 0 then 0 else 1)) := by
  subst hw hnext hv
  dsimp only [nbLane]
  rw [if_neg Bool.false_ne_true, State.pushWord]
  by_cases hroom : y.portRoom (coreOf y.cur.warp) (y.warp y.cur.warp).ctx (y.warp y.cur.warp).bid q = 0
  · simp only [if_pos hroom]
    exact State.retire_setPred_eq hwid ht ..
  · have hswap := Threadless.setThread (threadless_portPush (coreOf y.cur.warp) (y.warp y.cur.warp).ctx (y.warp y.cur.warp).bid q [y.reg t a]) y t
      ((y.thread t).retired y.cur.next)
    simp only [if_neg hroom, State.retire_eq y t _ hwid ht.not_stopped, hswap, State.setThread_setPred]
    rfl

/-- A thread rewritten with the same registers reads as before. -/
theorem State.reg_setThread (x : State) {t : Nat} {y : Thread} (hy : y.regs = (x.thread t).regs) (u r : Nat) :
    (x.setThread t y).reg u r = x.reg u r := by
  have hregs : ((x.setThread t y).thread u).regs = (x.thread u).regs := by
    rw [State.thread_setThread]
    split
    · next hu => rw [hu, hy]
    · rfl
  simp only [State.reg, hregs]
  rfl

section
variable {s : State} {h : Hdr} {d a c : Nat} (hp : Plain s) (ha : Start s (s.opened h) h)
include hp ha

/-- At an open port the lanes push their words in lane order. -/
theorem Start.movNb_push_done (hsrc : isPort a = false)
    (hopen : s.portClosed (coreOf s.cur.warp) (s.warp s.cur.warp).ctx (d - 216) = false) :
    Done (movNbBody d a c (s.active h) (s.opened h)) (s.active h)
      (fun l x => x.fared s.cur.next c (if s.portRoom (coreOf s.cur.warp) (s.warp s.cur.warp).ctx (s.warp s.cur.warp).bid (d - 216) -
        (s.active h).idxOf l = 0 then 0 else 1))
      (((s.opened h).curThreads (s.active h)).foldl (fun y t => y.pushWord s.cur.warp (d - 216) (s.reg t a)) (s.opened h)) := by
  have hrun : movNbBody d a c (s.active h) (s.opened h) =
      ((s.opened h).curThreads (s.active h)).foldl (nbLane d a c (d - 216) false) (s.opened h) := by
    rw [movNbBody, hsrc, if_neg Bool.false_ne_true, ha.portClosed, ha.warp, ha.cur, if_neg (by simp [hopen])]
  have hlanes := foldl_lanes_eq (step := nbLane d a c (d - 216) false) (P := fun y t => y.pushWord s.cur.warp (d - 216) (s.reg t a))
    (e := fun y _ z => z.fared s.cur.next c
      (if y.portRoom (coreOf s.cur.warp) (y.warp s.cur.warp).ctx (y.warp s.cur.warp).bid (d - 216) = 0 then 0 else 1))
    (inv := fun y => y.cur = s.cur ∧ ∀ t, y.reg t a = s.reg t a)
    (ts := (s.opened h).curThreads (s.active h)) (fun _ => threadless_pushWord _ _ _) (fun _ _ _ => Thread.fared_active ..)
    (fun y t ht ⟨hcur, hreg⟩ hact => nbLane_push_eq (by rw [hcur]) (by rw [hcur]) (hreg t) (ha.thread_active hp ht).2.1 hact)
    (fun y t _ ⟨hcur, hreg⟩ _ => by
      have hpush := y.pushWord_spec s.cur.warp (d - 216) (s.reg t a)
      have hthread : (y.pushWord s.cur.warp (d - 216) (s.reg t a)).thread t = y.thread t := State.thread_congr (by rw [hpush.rest]) t
      refine ⟨by rw [State.setThread_cur, hpush.rest]; exact hcur, fun u => ?_⟩
      rw [State.reg_setThread _ (by rw [hthread]; rfl), hpush.reg, hreg]) ⟨ha.cur, fun t => (ha.same {}).reg t a⟩ fun t ht => (ha.thread_active hp ht).2.2
  have hspec := (s.opened h).pushWords_spec s.cur.warp (d - 216) (fun t => s.reg t a)
  rw [hrun, hlanes]
  refine Done.of_items (key := id) (e := fun y _ z => z.fared s.cur.next c
      (if y.portRoom (coreOf s.cur.warp) (y.warp s.cur.warp).ctx (y.warp s.cur.warp).bid (d - 216) = 0 then 0 else 1))
    (fun _ => threadless_pushWord _ _ _) (fun _ _ _ => rfl) (by rw [(hspec _).rest]) (List.map_id _) (active_nodup hp) fun i q l hq hl => ?_
  obtain ⟨hi, rfl⟩ := List.getElem?_eq_some_iff.mp hl
  obtain ⟨hlt, -⟩ := List.getElem?_eq_some_iff.mp hq
  have hlen : (((s.opened h).curThreads (s.active h)).take i).length = i := List.length_take_of_le hlt.le
  simp only [State.pushWords_room, ha.portRoom, ha.warp, hlen, (active_nodup (h := h) hp).idxOf_getElem i hi]

theorem Start.movNb_push (hl : Legal s h { src := [a], dst := [d], preds := [c] }) (hsrc : isPort a = false)
    (hopen : s.portClosed (coreOf s.cur.warp) (s.warp s.cur.warp).ctx (d - 216) = false) : ∃ t, exec (.movNb h d a c) s = .next t ∧
      let room := s.portRoom (coreOf s.cur.warp) (s.warp s.cur.warp).ctx (s.warp s.cur.warp).bid (d - 216)
      let words := ((s.active h).map (fun l => s.reg (s.lane l) a)).take room
      (∀ i, i < (s.active h).length → t.thread (s.lane ((s.active h).getD i 0)) =
        ((s.atIssue ((s.active h).getD i 0)).retired s.cur.next).wrote (.pred c (if i < room then 1 else 0))) ∧
      (∀ l ∈ s.cur.lanes, s.laneOn h (s.lane l) = false → t.thread (s.lane l) = (s.atIssue l).retired s.cur.next) ∧
      (∀ k, (∀ l ∈ s.cur.lanes, k ≠ s.lane l) → t.thread k = s.thread k) ∧
      (∀ k q, t.port k q = if k = coreOf s.cur.warp ∧ q = d - 216 ∧ q ≠ 14 then s.port k q ++ words else s.port k q) ∧
      (∀ x b, Tab.get {} (t.ctx x).sess b = if x = (s.warp s.cur.warp).ctx ∧ b = (s.warp s.cur.warp).bid ∧ d - 216 = 14 then
        { Tab.get {} (s.ctx x).sess b with cmds := (Tab.get {} (s.ctx x).sess b).cmds ++ words } else Tab.get {} (s.ctx x).sess b) ∧
      (∀ k, t.core k = { s.core k with ports := (t.core k).ports }) ∧ (∀ x, t.ctx x = { s.ctx x with sess := (t.ctx x).sess }) ∧
      t = { s with thr := t.thr, cor := t.cor, ctxs := t.ctxs, stamp := s.stamp + 1 } := by
  have hdone := ha.movNb_push_done (d := d) (c := c) hp hsrc hopen
  have hpush := (s.opened h).pushWords_spec s.cur.warp (d - 216) (fun t => s.reg t a) ((s.opened h).curThreads (s.active h))
  have hissue := ha.issue_done hp hl (movNbBody_nil d a c _) (.foldl (fun x t => x.pushWord_rests ..) _ _)
    (fun _ x hx => ⟨x.fared_active .., rfl⟩) hdone
  obtain ⟨hon, hoff, hothers⟩ := ha.done_threads (by rw [hpush.rest]; exact ha.cur) (by rw [hpush.rest]) hdone
  have hexec := (exec_movNb h d a c s).trans (congrArg Host.Outcome.next hissue)
  generalize movNbBody d a c (s.active h) (s.opened h) = t at hdone hexec hon hoff hothers
  generalize ((s.opened h).curThreads (s.active h)).foldl (fun y t => y.pushWord s.cur.warp (d - 216) (s.reg t a)) (s.opened h) = g at hdone hpush
  have hwords : ((s.opened h).curThreads (s.active h)).map (fun t => s.reg t a) = (s.active h).map fun l => s.reg (s.lane l) a := by
    rw [State.curThreads, ha.cur, List.map_map]
    rfl
  rw [hwords, ha.portRoom, ha.warp] at hpush
  have hcore : ∀ k, t.core k = g.core k := State.core_congr (by rw [hdone.rest])
  have hctx : ∀ x, t.ctx x = g.ctx x := State.ctx_congr (by rw [hdone.rest])
  refine ⟨t, hexec, fun i hi => ?_, hoff, hothers, fun k q => ?_, fun x b => ?_, fun k => ?_, fun x => ?_, ?_⟩
  · have hmem : (s.active h).getD i 0 = (s.active h)[i] := by simp [hi]
    have hfull : ∀ room : Nat, (if room - i = 0 then (0 : Int) else 1) = if i < room then 1 else 0 := fun room => by
      simp only [Nat.sub_eq_zero_iff_le, ← Nat.not_lt, ite_not]
    rw [hmem, hon _ (List.getElem_mem hi), (active_nodup (h := h) hp).idxOf_getElem i hi, Thread.fared, hfull]
  · have hsame : t.port k q = g.port k q := by rw [State.port, hcore, State.port]
    rw [hsame, hpush.ports, ha.port]
  · rw [hctx, hpush.session, ha.warp, ha.ctx]
  · rw [hcore, hpush.cores, ha.core]
  · rw [hctx, hpush.ctxs, ha.ctx]
  · rw [hdone.rest, hpush.rest, ha.rest]

end

end Sys2Proof.Machine
end

