-- ==== Sys2Proof/Proofs/Messages.lean ====
section
/-! MSG (R250). -/

namespace Sys2Proof.Machine

/-! What MSG does with its lanes. -/

/-- A group's messages: each lane's thread, word and target block. -/
def State.messages (x : State) (act : List Nat) (a b : Nat) : List (Nat × Int × Int) :=
  (x.curThreads act).zipIdx.map fun (t, i) =>
    (t, arg (fieldVal (x.readFields (x.curThreads act) [a, b]).2 i) 0, arg (fieldVal (x.readFields (x.curThreads act) [a, b]).2 i) 1)

/-- A lane's word leaves. -/
def State.sendMsg (x : State) (q : Nat × Int × Int) : State := x.send q.1 q.2.2.toNat q.2.1

/-- A lane of MSG.nb. -/
def State.tryMsg (ctx : Nat) (next : Int) (f : Nat) (x : State) (q : Nat × Int × Int) : State :=
  match x.msgTo ctx q.2.2 with
  | .bad => (x.retire q.1 next).setPred q.1 f (-1)
  | .later => (x.retire q.1 next).setPred q.1 f 0
  | .at_ c => if 0 < x.msgRoom ctx q.2.2.toNat c then ((x.retire q.1 next).sendMsg q).setPred q.1 f 1
    else (x.retire q.1 next).setPred q.1 f 0

/-- Messages whose target exists, or does not. -/
def State.targets (x : State) (ctx : Nat) (good : Bool) (qs : List (Nat × Int × Int)) : List (Nat × Int × Int) :=
  if good then qs.filter (fun q => decide (x.msgTo ctx q.2.2 ≠ .bad)) else qs.filter (fun q => decide (x.msgTo ctx q.2.2 = .bad))

/-- The threads `ts` send their messages `qs`, of which those in `good` have a target; those in `bad` raise QPORT. -/
def State.runMsg (y : State) (ctx : Nat) (ts : List Nat) (a b : Nat) (qs good bad : List (Nat × Int × Int)) : Option Nat → State
  | some f => qs.foldl (State.tryMsg ctx y.cur.next f) (y.readFields ts [a, b]).1
  | none => (good.foldl (fun x q => (x.sendMsg q).retire q.1 y.cur.next) (y.readFields ts [a, b]).1).raiseAll (bad.map (·.1))
      { cause := 15, pc := y.cur.first }

/-- Whether the targets have room for all messages. -/
def State.msgsFit (x : State) (ctx : Nat) (qs : List (Nat × Int × Int)) : Bool :=
  qs.all fun q => match x.msgTo ctx q.2.2 with
    | .at_ c => decide ((qs.filter (fun p => decide (p.2.2 = q.2.2))).length ≤ x.msgRoom ctx q.2.2.toNat c)
    | _ => false

/-- The blocking form's wait for room. -/
def State.waitRoom (x : State) (act : List Nat) (ctx : Nat) (qs : List (Nat × Int × Int)) : State :=
  let full := (qs.filter fun q => match x.msgTo ctx q.2.2 with
    | .at_ c => decide (x.msgRoom ctx q.2.2.toNat c < (qs.filter fun p => decide (p.2.2 = q.2.2)).length)
    | _ => true).map (·.2.2.toNat)
  x.waitAll act (.reissue (.mail (full.headD 0) (qs.filter fun q => decide (q.2.2 = (full.headD 0 : Int))).length) false)

/-- The body of MSG. -/
def msgBody (rlx : Bool) (a b : Nat) (nb : Option Nat) (act : List Nat) (x : State) : State :=
  let ctx := (x.warp x.cur.warp).ctx
  let qs := x.messages act a b
  let good := x.targets ctx true qs
  let bad := x.targets ctx false qs
  match x.portSt { src := [a, b], preds := nb.toList, forbid := true } act.length with
  | .closed => x.faultAll act 15 0
  | .short => x.waitAll act (.reissue (x.shortPorts { src := [a, b], preds := nb.toList, forbid := true } act.length) false)
  | .ready =>
    if nb.isNone && !x.msgsFit ctx good then x.waitRoom act ctx good
    else if rlx then x.runMsg ctx (x.curThreads act) a b qs good bad nb
    else x.afterFence act (x.msgScope x.cur.warp (qs.map (·.2.2))) (fun y => y.runMsg ctx (x.curThreads act) a b qs good bad nb)

theorem exec_msg (h : Hdr) (rlx : Bool) (a b : Nat) (nb : Option Nat) (s : State) :
    exec (.msg h rlx a b nb) s = .next (s.issue h { src := [a, b], preds := nb.toList, forbid := true } (msgBody rlx a b nb)) := by
  cases nb <;> rfl

/-! The messages of a group. -/

section
variable (x : State) (act : List Nat) (a b : Nat)

theorem State.messages_threads : (x.messages act a b).map (·.1) = x.curThreads act := by
  rw [State.messages, List.map_map]
  exact List.zipIdx_map_fst 0 _

theorem State.messages_targets : (x.messages act a b).map (·.2.2) = (List.range act.length).map fun i => x.srcWord act [a, b] i 1 := by
  refine List.ext_getElem (by simp [State.messages, State.length_curThreads]) fun i hi hi' => ?_
  have hlt : i < act.length := by simpa using hi'
  simp only [State.messages, List.getElem_map, List.getElem_zipIdx, List.getElem_range, Nat.zero_add]
  exact x.arg_readFields hlt (by simp)

/-- The blocks that a group's messages name can take them. -/
def State.CanSend (ctx : Nat) (qs : List (Nat × Int × Int)) : Prop :=
  ∀ q ∈ qs, ∃ c, x.msgTo ctx q.2.2 = .at_ c ∧ (qs.map (·.2.2)).countP (fun v => decide (v = q.2.2)) ≤ x.msgRoom ctx q.2.2.toNat c

variable {x act a b}

theorem State.target_of_message {q : Nat × Int × Int} (hq : q ∈ x.messages act a b) :
    ∃ i, i < act.length ∧ q.2.2 = x.srcWord act [a, b] i 1 := by
  have hmem : q.2.2 ∈ (x.messages act a b).map (·.2.2) := List.mem_map_of_mem hq
  rw [State.messages_targets] at hmem
  obtain ⟨i, hi, heq⟩ := List.mem_map.mp hmem
  exact ⟨i, List.mem_range.mp hi, heq.symm⟩

theorem State.canSend_messages {ctx : Nat} (hcan : ∀ i, i < act.length → ∃ c, x.msgTo ctx (x.srcWord act [a, b] i 1) = .at_ c ∧
    (List.range act.length).countP (fun j => decide (x.srcWord act [a, b] j 1 = x.srcWord act [a, b] i 1)) ≤
      x.msgRoom ctx (x.srcWord act [a, b] i 1).toNat c) : x.CanSend ctx (x.messages act a b) := fun q hq => by
  obtain ⟨i, hi, heq⟩ := State.target_of_message hq
  rw [heq, State.messages_targets, List.countP_map]
  exact hcan i hi

theorem State.CanSend.targets {ctx : Nat} {qs : List (Nat × Int × Int)} (hcan : x.CanSend ctx qs) :
    x.targets ctx true qs = qs ∧ x.targets ctx false qs = [] := by
  have hat : ∀ q ∈ qs, x.msgTo ctx q.2.2 ≠ .bad := fun q hq hbad => by
    obtain ⟨c, hc, -⟩ := hcan q hq
    rw [hbad] at hc
    cases hc
  exact ⟨List.filter_eq_self.mpr fun q hq => decide_eq_true (hat q hq), List.filter_eq_nil_iff.mpr fun q hq => by simpa using hat q hq⟩

theorem State.CanSend.fit {ctx : Nat} {qs : List (Nat × Int × Int)} (hcan : x.CanSend ctx qs) : x.msgsFit ctx qs = true :=
  List.all_eq_true.mpr fun q hq => by
    obtain ⟨c, hc, hroom⟩ := hcan q hq
    rw [List.countP_map, List.countP_eq_length_filter] at hroom
    rw [hc]
    exact decide_eq_true hroom

end

/-- A group whose ports can serve it, whose fence is complete and which need not wait for room runs. -/
theorem msgBody_runs {x : State} {act : List Nat} {rlx : Bool} {a b : Nat} {nb : Option Nat}
    (hready : x.portSt { src := [a, b], preds := nb.toList, forbid := true } act.length = .ready)
    (hfenced : fenced rlx (x.msgScope x.cur.warp ((List.range act.length).map (fun i => x.srcWord act [a, b] i 1))) x act)
    (hgoes : (nb.isNone && !x.msgsFit (x.warp x.cur.warp).ctx (x.targets (x.warp x.cur.warp).ctx true (x.messages act a b))) = false) :
    msgBody rlx a b nb act x = x.runMsg (x.warp x.cur.warp).ctx (x.curThreads act) a b (x.messages act a b)
      (x.targets (x.warp x.cur.warp).ctx true (x.messages act a b)) (x.targets (x.warp x.cur.warp).ctx false (x.messages act a b)) nb := by
  rw [← State.messages_targets] at hfenced
  dsimp only [msgBody]
  rw [hready]
  simp only [hgoes, Bool.false_eq_true, if_false]
  rcases hfenced with hrlx | hfence
  · rw [if_pos hrlx]
  · rw [State.afterFence, if_pos hfence, ite_self]

/-! Sending. -/

theorem threadless_sendMsg (q : Nat × Int × Int) : Threadless fun x => x.sendMsg q := fun _ _ => rfl

theorem State.msgTo_congr {x y : State} (hctxs : y.ctxs = x.ctxs) (ctx : Nat) (bid : Int) : y.msgTo ctx bid = x.msgTo ctx bid := by
  simp only [State.msgTo, State.ctx_congr hctxs]

/-- A block that can take messages has a number. -/
theorem State.msgTo_nonneg {x : State} {ctx c : Nat} {bid : Int} (hat : x.msgTo ctx bid = .at_ c) : 0 ≤ bid := by
  by_contra hneg
  rw [State.msgTo, if_pos (.inl (by omega))] at hat
  cases hat

/-- A message takes room of its block and of no other. -/
theorem State.msgRoom_sendMsg (x : State) (q : Nat × Int × Int) (bid c : Nat) :
    (x.sendMsg q).msgRoom (x.warp (warpOf q.1)).ctx bid c = x.msgRoom (x.warp (warpOf q.1)).ctx bid c - if q.2.2.toNat = bid then 1 else 0 := by
  simp only [State.msgRoom, State.sendMsg, State.send, State.addReq, List.countP_append, List.countP_singleton, decide_true, Bool.true_and,
    decide_eq_true_eq]
  exact (Nat.sub_sub ..).symm

/-- What a thread of `.nb` becomes. -/
theorem State.tryMsg_sends {x : State} {ctx f c : Nat} {next : Int} {q : Nat × Int × Int} (hat : x.msgTo ctx q.2.2 = .at_ c)
    (hroom : 0 < x.msgRoom ctx q.2.2.toNat c) (hwid : widOf (warpOf q.1) ≠ 27) (hlive : (x.thread q.1).active) :
    State.tryMsg ctx next f x q = (x.sendMsg q).setThread q.1 ((x.thread q.1).fared next f 1) := by
  have hswap := Threadless.setThread (threadless_sendMsg q) x q.1 ((x.thread q.1).retired next)
  rw [State.tryMsg, hat]
  dsimp only
  rw [if_pos hroom, State.retire_eq x q.1 next hwid hlive.not_stopped, hswap, State.setThread_setPred]
  rfl

/-- Where every message has room, all are sent. -/
theorem foldl_tryMsg {ctx w f : Nat} {next : Int} {qs : List (Nat × Int × Int)} (hwid : widOf w ≠ 27) (hwarp : ∀ q ∈ qs, warpOf q.1 = w) {x : State}
    (hctx : (x.warp w).ctx = ctx) (hlive : ∀ q ∈ qs, (x.thread q.1).active) (hcan : x.CanSend ctx qs) :
    qs.foldl (State.tryMsg ctx next f) x = qs.foldl (fun y q => (y.sendMsg q).setThread q.1 ((y.thread q.1).fared next f 1)) x := by
  induction qs generalizing x with
  | nil => rfl
  | cons q qs ih =>
    obtain ⟨hw, hwarp⟩ := List.forall_mem_cons.mp hwarp
    obtain ⟨hq, hlive⟩ := List.forall_mem_cons.mp hlive
    obtain ⟨c, hat, hroom⟩ := hcan q List.mem_cons_self
    have hfirst : 0 < x.msgRoom ctx q.2.2.toNat c := by
      refine Nat.lt_of_lt_of_le ?_ hroom
      simp
    rw [List.foldl_cons, List.foldl_cons, State.tryMsg_sends hat hfirst (by rw [hw]; exact hwid) hq]
    refine ih hwarp hctx (fun p hp => ?_) fun p hp => ?_
    · rw [State.thread_setThread]
      split
      · exact Thread.fared_active ..
      · exact hlive p hp
    · obtain ⟨c', hat', hroom'⟩ := hcan p (List.mem_cons_of_mem q hp)
      have hctxs : ((x.sendMsg q).setThread q.1 ((x.thread q.1).fared next f 1)).ctxs = x.ctxs := rfl
      have hleft : ((x.sendMsg q).setThread q.1 ((x.thread q.1).fared next f 1)).msgRoom ctx p.2.2.toNat c' =
          x.msgRoom ctx p.2.2.toNat c' - if q.2.2.toNat = p.2.2.toNat then 1 else 0 := by
        rw [← hctx, ← hw]
        exact x.msgRoom_sendMsg q p.2.2.toNat c'
      refine ⟨c', (State.msgTo_congr hctxs ctx _).trans hat', ?_⟩
      rw [List.map_cons, List.countP_cons] at hroom'
      rw [hleft]
      have hpos := State.msgTo_nonneg hat
      have hpos' := State.msgTo_nonneg hat'
      by_cases heq : q.2.2 = p.2.2
      · rw [heq] at hroom' ⊢
        simp only [decide_true, if_true] at hroom' ⊢
        omega
      · have hne : q.2.2.toNat ≠ p.2.2.toNat := by omega
        simp only [heq, decide_false, Bool.false_eq_true, if_false, Nat.add_zero] at hroom'
        rwa [if_neg hne]

section
variable {s : State} {h : Hdr} {a b : Nat} (hp : Plain s) (ha : Start s (s.opened h) h)
include hp ha

/-- The lanes send one after another. -/
theorem Start.eachLane_sends : (s.opened h).eachLane { src := [a, b], forbid := true } (s.active h)
      (fun x t v => x.send t (src v 1).toNat (src v 0)) =
    ((s.opened h).messages (s.active h) a b).foldl State.sendMsg ((s.opened h).readFields ((s.opened h).curThreads (s.active h)) [a, b]).1 := by
  rw [State.eachLane_eq (.refl _) (hp.active_lt h) (ha.not_drafting hp), State.messages, List.foldl_map]
  rfl

theorem Start.sends_stands : Stands (s.opened h) ((s.opened h).eachLane { src := [a, b], forbid := true } (s.active h)
    (fun x t v => x.send t (src v 1).toNat (src v 0))) :=
  State.eachLane_stands (.refl _) (hp.active_lt h) (ha.not_drafting hp) fun _ _ _ => State.addReq_stands _ _

end

theorem acts_msg (h : Hdr) (rlx : Bool) (a b : Nat) : Acts (.msg h rlx a b none) h { src := [a, b], forbid := true }
    (fun s act => portsReady { src := [a, b], forbid := true } s act ∧
      fenced rlx (s.msgScope s.cur.warp ((List.range act.length).map (fun i => s.srcWord act [a, b] i 1))) s act ∧ ∀ i, i < act.length →
      ∃ c, s.msgTo (s.warp s.cur.warp).ctx (s.srcWord act [a, b] i 1) = .at_ c ∧
        (List.range act.length).countP (fun j => decide (s.srcWord act [a, b] j 1 = s.srcWord act [a, b] i 1)) ≤
          s.msgRoom (s.warp s.cur.warp).ctx (s.srcWord act [a, b] i 1).toNat c) ret
    (fun s act => s.eachLane { src := [a, b], forbid := true } act (fun x t v => x.send t (src v 1).toNat (src v 0))) := by
  refine ActsIf.of_rests (fun s _ _ => exec_msg h rlx a b none s) ret_keeps fun s _ hp ha _ ⟨hports, hfenced, hcan⟩ => ?_
  have hcan := State.canSend_messages hcan
  have hgood := hcan.targets
  have hstands := ha.sends_stands (a := a) (b := b) hp
  have hsends := State.eachLane_retireAll (u := { src := [a, b], forbid := true })
    (k := fun y t v => (y.send t (src v 1).toNat (src v 0)).retire t (s.opened h).cur.next)
    (k' := fun y t v => y.send t (src v 1).toNat (src v 0))
    (.refl (s.opened h)) (ha.not_scribe hp) (hp.active_lt h) (ha.not_drafting hp) (fun t v => fun _ _ => rfl)
    (fun _ _ _ => State.addReq_stands _ _) fun y t v _ hy => by rw [hy.cur]
  have hruns : msgBody rlx a b none (s.active h) (s.opened h) = (s.opened h).eachLane { src := [a, b], forbid := true } (s.active h)
      (fun y t v => (y.send t (src v 1).toNat (src v 0)).retire t (s.opened h).cur.next) := by
    rw [msgBody_runs hports hfenced (by rw [hgood.1, hcan.fit]; rfl), hgood.1, hgood.2,
      State.eachLane_eq (.refl _) (hp.active_lt h) (ha.not_drafting hp), State.runMsg, State.messages, List.foldl_map]
    rfl
  refine ⟨hstands.rests, ?_⟩
  rw [hruns, hsends]
  exact ha.retireAll_of_rests hp hstands.rests

/-- Words taken from ports leave at least as much room. -/
theorem Popped.canSend {x y : State} {w : Nat} {n : Nat → Nat} {ws : List Int} (hpop : Popped x y w n ws) {ctx : Nat}
    {qs : List (Nat × Int × Int)} (hcan : x.CanSend ctx qs) : y.CanSend ctx qs := fun q hq => by
  obtain ⟨c, hat, hroom⟩ := hcan q hq
  have hctxs : y.ctxs = x.ctxs := by rw [hpop.rest]
  have hreqs : y.reqs = x.reqs := by rw [hpop.rest]
  have hlen : (y.port c 13).length ≤ (x.port c 13).length := by
    rw [hpop.ports]
    split
    · rw [List.length_drop]
      exact Nat.sub_le ..
    · exact le_rfl
  refine ⟨c, (State.msgTo_congr hctxs ctx _).trans hat, hroom.trans ?_⟩
  simp only [State.msgRoom, hreqs]
  omega

section
variable {s : State} {h : Hdr} {a b : Nat} (hp : Plain s) (ha : Start s (s.opened h) h)
include hp ha

/-- A group's messages stand for its lanes, each of which is active where their words have been read. -/
theorem Start.message_thread {q : Nat × Int × Int} (hq : q ∈ (s.opened h).messages (s.active h) a b) :
    warpOf q.1 = s.cur.warp ∧
      (((s.opened h).readFields ((s.opened h).curThreads (s.active h)) [a, b]).1.thread q.1).active := by
  have hmem : q.1 ∈ (s.opened h).curThreads (s.active h) := by
    rw [← (s.opened h).messages_threads (s.active h) a b]
    exact List.mem_map_of_mem hq
  obtain ⟨hw, -, hlive⟩ := ha.thread_active hp hmem
  rw [Thread.active, (((s.opened h).readFields_stands _ _).states q.1).1]
  exact ⟨hw, hlive⟩

end

/-- Each message does a step and its lane fares as given. -/
theorem Plain.messages_done {s : State} (hp : Plain s) (h : Hdr) (a b f : Nat) {F : State → Nat × Int × Int → State} (hF : ∀ q, Threadless fun x => F x q)
    (hcur : ∀ x q, (F x q).cur = x.cur) (v : Int) :
    let p := ((s.opened h).readFields ((s.opened h).curThreads (s.active h)) [a, b]).1
    let qs := (s.opened h).messages (s.active h) a b
    Done (qs.foldl (fun y q => (F y q).setThread q.1 ((y.thread q.1).fared (s.opened h).cur.next f v)) p) (s.active h)
      (fun _ x => x.fared (s.opened h).cur.next f v) (qs.foldl F p) := by
  refine Done.of_items (key := (·.1)) (e := fun _ _ z => z.fared (s.opened h).cur.next f v) hF (fun _ _ _ => rfl) ?_ ?_ (active_nodup hp)
    fun _ _ _ _ _ => rfl
  · exact List.foldlRecOn (motive := fun x : State => x.cur = _) _ _ rfl fun x hx q _ => (hcur x q).trans hx
  · rw [State.messages_threads, ((s.opened h).readFields_stands _ _).rests.curThreads]

theorem acts_msg_nb (h : Hdr) (rlx : Bool) (a b f : Nat) : Acts (.msg h rlx a b (some f)) h { src := [a, b], preds := [f], forbid := true }
    (fun s act => portsReady { src := [a, b], preds := [f], forbid := true } s act ∧
      fenced rlx (s.msgScope s.cur.warp ((List.range act.length).map (fun i => s.srcWord act [a, b] i 1))) s act ∧ ∀ i, i < act.length →
      ∃ c, s.msgTo (s.warp s.cur.warp).ctx (s.srcWord act [a, b] i 1) = .at_ c ∧
        (List.range act.length).countP (fun j => decide (s.srcWord act [a, b] j 1 = s.srcWord act [a, b] i 1)) ≤
          s.msgRoom (s.warp s.cur.warp).ctx (s.srcWord act [a, b] i 1).toNat c)
    (fun s _ x => (x.retired s.cur.next).wrote (.pred f 1))
    (fun s act => s.eachLane { src := [a, b], forbid := true } act (fun x t v => x.send t (src v 1).toNat (src v 0))) := by
  refine ActsIf.of_rests (fun s _ _ => exec_msg h rlx a b (some f) s) (fun _ _ _ _ => ⟨.inl rfl, rfl⟩) fun s _ hp ha _ ⟨hports, hfenced, hcan⟩ => ?_
  obtain ⟨⟨ws, hpop, -⟩, -⟩ := State.readFields_spec ((s.opened h).curThreads (s.active h)) [a, b] (s.opened h)
  have hsends := foldl_tryMsg (f := f) (next := (s.opened h).cur.next) hp.wid (fun q hq => (ha.message_thread hp hq).1)
    (x := ((s.opened h).readFields ((s.opened h).curThreads (s.active h)) [a, b]).1) (by rw [hpop.warp_same, ← ha.cur])
    (fun q hq => (ha.message_thread hp hq).2) (hpop.canSend (State.canSend_messages hcan))
  refine ⟨(ha.sends_stands hp).rests, ?_⟩
  rw [ha.eachLane_sends hp, msgBody_runs hports hfenced rfl, State.runMsg, hsends]
  exact hp.messages_done h a b f threadless_sendMsg (fun _ _ => rfl) 1

/-- A lane whose block cannot take its word. -/
theorem State.tryMsg_stays {x : State} {ctx f : Nat} {next : Int} {q : Nat × Int × Int} {bad : Bool}
    (hto : x.msgTo ctx q.2.2 = if bad then .bad else .later) (hwid : widOf (warpOf q.1) ≠ 27) (hlive : (x.thread q.1).active) :
    State.tryMsg ctx next f x q = x.setThread q.1 ((x.thread q.1).fared next f (if bad then -1 else 0)) := by
  rw [State.tryMsg, hto]
  cases bad <;> exact State.retire_setPred_eq hwid hlive ..

theorem acts_msg_nb_stays (h : Hdr) (rlx : Bool) (a b f : Nat) (bad : Bool) :
    Acts (.msg h rlx a b (some f)) h { src := [a, b], preds := [f], forbid := true }
    (fun s act => portsReady { src := [a, b], preds := [f], forbid := true } s act ∧
      fenced rlx (s.msgScope s.cur.warp ((List.range act.length).map (fun i => s.srcWord act [a, b] i 1))) s act ∧ ∀ i, i < act.length →
      s.msgTo (s.warp s.cur.warp).ctx (s.srcWord act [a, b] i 1) = if bad then .bad else .later)
    (fun s _ x => (x.retired s.cur.next).wrote (.pred f (if bad then -1 else 0))) (fun s act => (s.readFields (s.curThreads act) [a, b]).1) := by
  refine ActsIf.of_rests (fun s _ _ => exec_msg h rlx a b (some f) s) (fun _ _ _ _ => ⟨.inl rfl, rfl⟩) fun s _ hp ha _ ⟨hports, hfenced, hto⟩ => ?_
  have hstands := (s.opened h).readFields_stands ((s.opened h).curThreads (s.active h)) [a, b]
  obtain ⟨⟨ws, hpop, -⟩, -⟩ := State.readFields_spec ((s.opened h).curThreads (s.active h)) [a, b] (s.opened h)
  have hdone := hp.messages_done h a b f (F := fun x _ => x) (fun _ => Threadless.refl) (fun _ _ => rfl) (if bad then -1 else 0)
  have hfold := foldl_eq_of_invariant (is := (s.opened h).messages (s.active h) a b)
    (f := State.tryMsg ((s.opened h).warp (s.opened h).cur.warp).ctx (s.opened h).cur.next f)
    (g := fun y q => y.setThread q.1 ((y.thread q.1).fared (s.opened h).cur.next f (if bad then -1 else 0)))
    (inv := fun y => y.ctxs = (s.opened h).ctxs ∧ ∀ q ∈ (s.opened h).messages (s.active h) a b, (y.thread q.1).active)
    (fun y q _ ⟨hctxs, hlive⟩ => ⟨hctxs, fun p hp' => by
      rw [State.thread_setThread]
      split
      · exact Thread.fared_active ..
      · exact hlive p hp'⟩)
    (fun y q hq ⟨hctxs, hlive⟩ => by
      obtain ⟨i, hi, heq⟩ := State.target_of_message hq
      refine State.tryMsg_stays ?_ (by rw [(ha.message_thread hp hq).1]; exact hp.wid) (hlive q hq)
      rw [State.msgTo_congr hctxs, heq]
      exact hto i hi)
    (x := ((s.opened h).readFields ((s.opened h).curThreads (s.active h)) [a, b]).1)
    ⟨by rw [hpop.rest], fun q hq => (ha.message_thread hp hq).2⟩
  refine ⟨hstands.rests, ?_⟩
  rw [msgBody_runs hports hfenced rfl, State.runMsg, hfold]
  dsimp only at hdone
  rw [List.foldl_fixed] at hdone
  exact hdone

/-- Settles O31: the lanes of MSG and of MOV.nb take steps that neither read nor change a thread, so that what leaves, goes to a port or comes
from one is settled in lane order before each lane retires with its predicate. -/
theorem messagesAndMoves : Obligations.MessagesAndMoves :=
  ⟨⟨acts_msg, acts_msg_nb, acts_msg_nb_stays⟩,
    fun _ _ _ _ _ hp hl hsrc _ hopen => (hp.start_opened _).movNb_pop hp hl hsrc hopen,
    fun _ _ _ _ _ hp hl hsrc _ hopen => (hp.start_opened _).movNb_push hp hl hsrc hopen,
    fun _ _ _ _ _ hp hl hclosed => (hp.start_opened _).movNb_closed hp hl hclosed⟩

end Sys2Proof.Machine
end

