-- ==== Sys2Proof/Proofs/Transfers.lean ====
section
/-! Transfers (R261-R264) and the read of the meeting register (R268). -/

namespace Sys2Proof.Machine

/-! What a transfer's lane does (R261). -/

theorem transfer_sat (target : Int) (ws : List Wr) : (transfer target ws).sat = 0 := by
  unfold transfer
  split <;> rfl

theorem transfer_plain (target : Int) {ws : List Wr} (hws : ws.all Wr.plain = true) : (transfer target ws).wr.all Wr.plain = true := by
  unfold transfer
  split
  · simp [hws, Wr.plain]
  · rfl

/-- FETCH is the only cause of a transfer. -/
theorem transfer_fault (target : Int) (ws : List Wr) :
    (transfer target ws).fault = none ∨ ∃ c, Hard c ∧ transfer target ws = raises c := by
  unfold transfer
  split
  · exact .inl rfl
  · exact .inr ⟨6, ⟨by decide, rfl⟩, rfl⟩

/-- A unit whose lanes each transfer to a target and may write a link, both as before the unit. -/
theorem RunsOr.of_transfer {i : Instr} {h : Hdr} {u : Uses} {target : State → Nat → Int} {link : State → List Wr}
    (hexec : ∀ s, exec i s = .next (s.perLane h u (fun s t _ => transfer (target s t) (link s))))
    (htarget : ∀ s a, Same s a u → ∀ t, target a t = target s t) (hlink : ∀ s a, Same s a u → link a = link s)
    (hplain : ∀ s, (link s).all Wr.plain = true) : RunsOr i h u (fun s t _ => transfer (target s t) (link s)) :=
  ⟨Runs.of hexec (fun s a _ hsame _ _ _ => by rw [htarget s a hsame, hlink s a hsame]) (fun _ _ _ => (transfer_sat ..).ge)
      fun s _ _ => transfer_plain _ (hplain s),
    RaisesIn.of hexec (fun s a hsame _ _ => by rw [htarget s a hsame, hlink s a hsame]) fun _ _ _ => transfer_fault ..⟩

/-! What a lane sees of its meeting register. -/

theorem Same.mr {s p : State} {u : Uses} (h : Same s p u) (t : Nat) : (p.thread t).mr = (s.thread t).mr := by
  obtain ⟨_, _, _, _, _, _, _, _, _, _, _, heq⟩ := h.thread t
  rw [heq]

/-- Settles O12: BR, CALL and RET are transfers to a target and with a link that the unit's start leaves as they were, and so is the meeting
register that MOVMR.get reads. -/
theorem transfers : Obligations.Transfers := by
  refine ⟨?br, ?call, ?ret, ?get⟩
  case br =>
    exact fun h imm => .of_transfer (target := fun s _ => s.cur.n + effImm h imm) (link := fun _ => []) (fun _ => rfl)
      (fun _ _ hsame _ => by rw [hsame.cur]) (fun _ _ _ => rfl) fun _ => rfl
  case call =>
    exact fun h d imm => .of_transfer (target := fun s _ => s.cur.n + effImm h imm) (link := fun s => [.pair d (s.cur.n + 1)]) (fun _ => rfl)
      (fun _ _ hsame _ => by rw [hsame.cur]) (fun _ _ hsame => by rw [hsame.cur]) fun _ => rfl
  case ret =>
    exact fun h a => .of_transfer (target := fun s t => s.regPair t a) (link := fun _ => []) (fun _ => rfl)
      (fun _ _ hsame t => hsame.regPair t a) (fun _ _ _ => rfl) fun _ => rfl
  case get => exact fun h d => .of_pair (fun _ => rfl) fun _ _ hsame t _ => hsame.mr t

end Sys2Proof.Machine
end

