-- ==== Sys2Proof/Proofs/TableCalls.lean ====
section
/-! The requests in flight against the statement of TableCalls: a lane that ends CALLT at once has sent no request, and the words that it read
go to the request with the last number given (R78), which may be an older one of its own; the statement has all requests stay as they were. -/

namespace Sys2Proof.Machine

/-- CALLT of the entry whose number is in register 0, with signature 0 and the link in registers 2 and 3. -/
def tableCall : Instr := .callt plainHdr 2 0 0

/-- What `tableCall` uses. -/
def tableCallUses : Uses := { src := [0], dstP := [2] }

/-- The line with the first entry of a function table at the start of die 0's memory. -/
def tableLine : Int := lineOf (devAddr 0 0)

/-- Lane 0 issues `tableCall`; all entries of the table's line, which its core's instruction cache holds, have signature 0 and name
one index in device space. The last request sent is lane 0's own pass, which is still in flight. -/
def callAfterPass : State :=
  { State.reset with
    wrp := [(0, { n := 4 })], thr := [(0, { st := .runnable })], ctxs := [(0, { ftbase := devAddr 0 0, ftlen := 1 })],
    cor := [(0, { ic := [(ikey tableLine, { line := tableLine, units := List.replicate 9 (pow3 51) })] })],
    reqs := [olderPass], nextId := 2, cur := { warp := 0, lanes := [0] } }

theorem plain_callAfterPass : Plain callAfterPass where
  some_ := by decide
  nodup := by decide
  lane := by decide
  live := by decide
  wid := by decide
  going := by decide
  undrafted := by decide
  nostep := by decide
  nomeet := by decide

theorem legal_callAfterPass : Legal callAfterPass plainHdr tableCallUses := ⟨rfl, rfl, rfl⟩

/-- The pass takes the word that the call has read. -/
theorem tableCall_words_of_pass : ∃ b, exec tableCall callAfterPass = .next b ∧ b.reqs.map (·.words) = [[0]] :=
  ⟨_, rfl, by decide +kernel⟩

/-- Refutes O30: CALLT whose line is at hand gives the word that its lane has read to the lane's last request, here a pass in flight, and
the statement has the requests in flight stay as they were. -/
theorem not_tableCalls : ¬ Obligations.TableCalls := by
  intro h
  obtain ⟨b, t, hexec, hran, hrest, -⟩ :=
    h plainHdr 2 0 0 callAfterPass plain_callAfterPass legal_callAfterPass rfl (by decide) (by decide +kernel)
  obtain ⟨t', hexec', hwords⟩ := tableCall_words_of_pass
  obtain rfl : t' = t := Host.Outcome.next.inj (hexec'.symm.trans hexec)
  have hkept : t'.reqs = [olderPass] := (congrArg State.reqs hrest).trans (congrArg State.reqs hran.rest)
  rw [hkept] at hwords
  exact absurd hwords (by decide)

end Sys2Proof.Machine
end

