-- ==== Sys2Proof/Proofs/EncodeDecode.lean ====
section
/-! A unit decodes to what it was encoded from (R145, R159-R162): the final instruction by its fields, whichever prefixes stand in
front of it. -/

namespace Sys2Proof.Machine

/-- The fields of every well-formed instruction's unit read back as the instruction, form by form. -/
theorem readBack : ∀ i : Instr, Laws.ReadBack.Statement i
  | .add .. => Laws.ReadBack.add _ _ _ _ _ _ | .addi .. => Laws.ReadBack.addi _ _ _ _ _ _ _ | .sub .. => Laws.ReadBack.sub _ _ _ _ _ _
  | .neg .. => Laws.ReadBack.neg _ _ _ _ | .abs .. => Laws.ReadBack.abs _ _ _ _ | .sgn .. => Laws.ReadBack.sgn _ _ _ _
  | .mul .. => Laws.ReadBack.mul _ _ _ _ _ _ | .mulh .. => Laws.ReadBack.mulh _ _ _ _ _ | .mulw .. => Laws.ReadBack.mulw _ _ _ _
  | .mad .. => Laws.ReadBack.mad _ _ _ _ _ _ _ | .div .. => Laws.ReadBack.div _ _ _ _ _ | .rem .. => Laws.ReadBack.rem _ _ _ _ _
  | .min .. => Laws.ReadBack.min _ _ _ _ _ | .max .. => Laws.ReadBack.max _ _ _ _ _ | .clamp .. => Laws.ReadBack.clamp _ _ _ _ _ _
  | .addx .. => Laws.ReadBack.addx _ _ _ _ | .subx .. => Laws.ReadBack.subx _ _ _ _ | .lea .. => Laws.ReadBack.lea _ _ _
  | .cmp .. => Laws.ReadBack.cmp _ _ _ _ _ _ | .cmpi .. => Laws.ReadBack.cmpi _ _ _ _ _ | .tand .. => Laws.ReadBack.tand _ _ _ _
  | .tor .. => Laws.ReadBack.tor _ _ _ _ | .tsum .. => Laws.ReadBack.tsum _ _ _ _ | .tmult .. => Laws.ReadBack.tmult _ _ _ _
  | .tcons .. => Laws.ReadBack.tcons _ _ _ _ | .shl .. => Laws.ReadBack.shl _ _ _ _ _ | .shr .. => Laws.ReadBack.shr _ _ _ _ _
  | .rot .. => Laws.ReadBack.rot _ _ _ _ _ | .fext .. => Laws.ReadBack.fext _ _ _ _ _ | .fins .. => Laws.ReadBack.fins _ _ _ _ _ _
  | .tcnt .. => Laws.ReadBack.tcnt _ _ _ _ | .tlz .. => Laws.ReadBack.tlz _ _ _ | .trev .. => Laws.ReadBack.trev _ _ _
  | .mov .. => Laws.ReadBack.mov _ _ _ _ | .movNb .. => Laws.ReadBack.movNb _ _ _ _ | .movi .. => Laws.ReadBack.movi _ _ _ _
  | .sel3 .. => Laws.ReadBack.sel3 _ _ _ _ _ _ | .pset .. => Laws.ReadBack.pset _ _ _ | .psetTrit .. => Laws.ReadBack.psetTrit _ _ _ _
  | .pmov .. => Laws.ReadBack.pmov _ _ _ | .pmovTw .. => Laws.ReadBack.pmovTw _ _ _ | .pmovFw .. => Laws.ReadBack.pmovFw _ _ _
  | .pand .. => Laws.ReadBack.pand _ _ _ _ | .por .. => Laws.ReadBack.por _ _ _ _ | .pnot .. => Laws.ReadBack.pnot _ _ _
  | .cvt .. => Laws.ReadBack.cvt _ _ _ _ _ _ | .cvtf .. => Laws.ReadBack.cvtf _ _ _ _ _ _ | .rng .. => Laws.ReadBack.rng _ _ _ _
  | .fadd .. => Laws.ReadBack.fadd _ _ _ _ _ | .fsub .. => Laws.ReadBack.fsub _ _ _ _ _ | .fmul .. => Laws.ReadBack.fmul _ _ _ _ _
  | .ffma .. => Laws.ReadBack.ffma _ _ _ _ _ _ | .fmin .. => Laws.ReadBack.fmin _ _ _ _ _ | .fmax .. => Laws.ReadBack.fmax _ _ _ _ _
  | .fneg .. => Laws.ReadBack.fneg _ _ _ _ | .fabs .. => Laws.ReadBack.fabs _ _ _ _ | .fscl .. => Laws.ReadBack.fscl _ _ _ _ _ _
  | .fcmp .. => Laws.ReadBack.fcmp _ _ _ _ _ | .fclass .. => Laws.ReadBack.fclass _ _ _ _ | .frnd .. => Laws.ReadBack.frnd _ _ _ _ _
  | .fcvtF9 .. => Laws.ReadBack.fcvtF9 _ _ _ | .fcvtF27 .. => Laws.ReadBack.fcvtF27 _ _ _ | .fdiv .. => Laws.ReadBack.fdiv _ _ _ _ _
  | .fsqrt .. => Laws.ReadBack.fsqrt _ _ _ _ | .frcp .. => Laws.ReadBack.frcp _ _ _ _ | .frsq .. => Laws.ReadBack.frsq _ _ _ _
  | .fexp .. => Laws.ReadBack.fexp _ _ _ _ | .fexp3 .. => Laws.ReadBack.fexp3 _ _ _ _ | .flog .. => Laws.ReadBack.flog _ _ _ _
  | .flog3 .. => Laws.ReadBack.flog3 _ _ _ _ | .fsin .. => Laws.ReadBack.fsin _ _ _ _ | .fcos .. => Laws.ReadBack.fcos _ _ _ _
  | .ftanh .. => Laws.ReadBack.ftanh _ _ _ _ | .fsigm .. => Laws.ReadBack.fsigm _ _ _ _ | .ferf .. => Laws.ReadBack.ferf _ _ _ _
  | .functionResultWrite .. => Laws.ReadBack.functionResultWrite _ | .ld .. => Laws.ReadBack.ld _ _ _ _ _ _
  | .st .. => Laws.ReadBack.st _ _ _ _ _ | .ldb .. => Laws.ReadBack.ldb _ _ _ _ _ _ _ | .stb .. => Laws.ReadBack.stb _ _ _ _ _ _ _
  | .ldnb .. => Laws.ReadBack.ldnb _ _ _ _ _ _ _ | .stva .. => Laws.ReadBack.stva _ _ _ _ _ _ | .pref .. => Laws.ReadBack.pref _ _ _
  | .wb .. => Laws.ReadBack.wb _ _ | .wbAll .. => Laws.ReadBack.wbAll _ | .inv .. => Laws.ReadBack.inv _ _
  | .invAll .. => Laws.ReadBack.invAll _ | .atom .. => Laws.ReadBack.atom _ _ _ _ _ _ _ | .cas .. => Laws.ReadBack.cas _ _ _ _ _ _
  | .red .. => Laws.ReadBack.red _ _ _ _ _ _ | .atomo .. => Laws.ReadBack.atomo _ _ _ _ _ _ _ _ _ | .fence .. => Laws.ReadBack.fence _ _
  | .fenceComplete .. => Laws.ReadBack.fenceComplete _ | .tnow .. => Laws.ReadBack.tnow _ _ | .twait .. => Laws.ReadBack.twait _ _ _ _
  | .timedWaitDeadline .. => Laws.ReadBack.timedWaitDeadline _ | .talarm .. => Laws.ReadBack.talarm _ _ _ _
  | .alarmDue .. => Laws.ReadBack.alarmDue _ | .bar .. => Laws.ReadBack.bar _ _ _ _ | .bara .. => Laws.ReadBack.bara _ _ _ _ _
  | .barw .. => Laws.ReadBack.barw _ _ _ _ _ | .barv .. => Laws.ReadBack.barv _ _ _ _ _ _ _ _
  | .barrierPhaseComplete .. => Laws.ReadBack.barrierPhaseComplete _ _ _ | .barrierSignal .. => Laws.ReadBack.barrierSignal _ _ _ _ _
  | .tkt .. => Laws.ReadBack.tkt _ _ _ _ | .tktOpen .. => Laws.ReadBack.tktOpen _ _ _ | .tktClose .. => Laws.ReadBack.tktClose _ _ _
  | .tkp .. => Laws.ReadBack.tkp _ _ _ | .msg .. => Laws.ReadBack.msg _ _ _ _ _ | .messageArrival .. => Laws.ReadBack.messageArrival _
  | .qstat .. => Laws.ReadBack.qstat _ _ _ | .queueServe .. => Laws.ReadBack.queueServe _ | .draft .. => Laws.ReadBack.draft _ _
  | .ink .. => Laws.ReadBack.ink _ | .draftPrepare .. => Laws.ReadBack.draftPrepare _ | .draftDecision .. => Laws.ReadBack.draftDecision _
  | .draftCommitArrival .. => Laws.ReadBack.draftCommitArrival _ | .inkRetire .. => Laws.ReadBack.inkRetire _
  | .erase .. => Laws.ReadBack.erase _ _ | .dstat .. => Laws.ReadBack.dstat _ _ | .br .. => Laws.ReadBack.br _ _
  | .call .. => Laws.ReadBack.call _ _ _ | .callt .. => Laws.ReadBack.callt _ _ _ _ | .ret .. => Laws.ReadBack.ret _ _
  | .setmr .. => Laws.ReadBack.setmr _ _ | .setmrClr .. => Laws.ReadBack.setmrClr _ | .movmrGet .. => Laws.ReadBack.movmrGet _ _
  | .movmrPut .. => Laws.ReadBack.movmrPut _ _ | .exit .. => Laws.ReadBack.exit _ | .brk .. => Laws.ReadBack.brk _ _
  | .trap .. => Laws.ReadBack.trap _ _ | .yld .. => Laws.ReadBack.yld _ | .nop .. => Laws.ReadBack.nop _ | .hint .. => Laws.ReadBack.hint _
  | .spawn .. => Laws.ReadBack.spawn _ _ _ _ | .spawnBinTimer .. => Laws.ReadBack.spawnBinTimer _ _
  | .spawnWarpCreate .. => Laws.ReadBack.spawnWarpCreate _ _ | .rclaim .. => Laws.ReadBack.rclaim _ _ | .rgive .. => Laws.ReadBack.rgive _ _
  | .claimGrant .. => Laws.ReadBack.claimGrant _ | .wait .. => Laws.ReadBack.wait _ _ _ _ _ | .icpf .. => Laws.ReadBack.icpf _ _ _
  | .ifence .. => Laws.ReadBack.ifence _ | .icinv .. => Laws.ReadBack.icinv _ _ | .icinvAll .. => Laws.ReadBack.icinvAll _
  | .instructionFetchFill .. => Laws.ReadBack.instructionFetchFill _ | .mcfg .. => Laws.ReadBack.mcfg _ _ _
  | .ring .. => Laws.ReadBack.ring _ _ _ _ | .fstat .. => Laws.ReadBack.fstat _ _ _ _ _ | .fsetReady .. => Laws.ReadBack.fsetReady _ _ _ _ _
  | .fsetEmpty .. => Laws.ReadBack.fsetEmpty _ _ _ _ | .mzero .. => Laws.ReadBack.mzero _ _
  | .mloop .. => Laws.ReadBack.mloop _ _ _ _ _ _ _ _ | .mrdy .. => Laws.ReadBack.mrdy _ | .mdrain .. => Laws.ReadBack.mdrain _ _
  | .qscale .. => Laws.ReadBack.qscale _ _ _ _ _ | .fitr .. => Laws.ReadBack.fitr _ _ _ _ | .mbudg .. => Laws.ReadBack.mbudg _ _
  | .nibStepStart .. => Laws.ReadBack.nibStepStart _ | .nibStepComplete .. => Laws.ReadBack.nibStepComplete _
  | .nibZeroPerform .. => Laws.ReadBack.nibZeroPerform _ | .nibDrainComplete .. => Laws.ReadBack.nibDrainComplete _
  | .nibQscaleComplete .. => Laws.ReadBack.nibQscaleComplete _ | .nibCommandComplete .. => Laws.ReadBack.nibCommandComplete _
  | .budgetRefill .. => Laws.ReadBack.budgetRefill _ | .cpy .. => Laws.ReadBack.cpy _ _ _ _ _ | .cpys .. => Laws.ReadBack.cpys _ _ _ _ _
  | .cpyg .. => Laws.ReadBack.cpyg _ _ _ _ _ _ | .cpyx .. => Laws.ReadBack.cpyx _ _ _ _ _ _ | .cpyc .. => Laws.ReadBack.cpyc _ _ _ _ _ _
  | .cpyv .. => Laws.ReadBack.cpyv _ _ _ _ _ _ | .copyElementTransfer .. => Laws.ReadBack.copyElementTransfer _ _
  | .scaleQueueMatch .. => Laws.ReadBack.scaleQueueMatch _ _ | .copyStop .. => Laws.ReadBack.copyStop _ _
  | .copyComplete .. => Laws.ReadBack.copyComplete _ _ | .scrb .. => Laws.ReadBack.scrb _ _ _ _ _ _ | .scrh .. => Laws.ReadBack.scrh _ _
  | .scrhStop .. => Laws.ReadBack.scrhStop _ _ | .sloop .. => Laws.ReadBack.sloop _ _ _ _
  | .scribeProgramEnd .. => Laws.ReadBack.scribeProgramEnd _ | .decode .. => Laws.ReadBack.decode _ _
  | .decodeFlush .. => Laws.ReadBack.decodeFlush _ _ | .decodeReset .. => Laws.ReadBack.decodeReset _ _
  | .decodeFrameOutput .. => Laws.ReadBack.decodeFrameOutput _ _ | .phase .. => Laws.ReadBack.phase _
  | .phaseEnd .. => Laws.ReadBack.phaseEnd _ | .csrr .. => Laws.ReadBack.csrr _ _ _ | .csrw .. => Laws.ReadBack.csrw _ _ _
  | .tret .. => Laws.ReadBack.tret _ | .clrc .. => Laws.ReadBack.clrc _ _ | .launch .. => Laws.ReadBack.launch _ _ _
  | .launchRes .. => Laws.ReadBack.launchRes _ _ _ _ | .kill .. => Laws.ReadBack.kill _ _ | .killComplete .. => Laws.ReadBack.killComplete _
  | .preempt .. => Laws.ReadBack.preempt _ _ | .preemptBlk .. => Laws.ReadBack.preemptBlk _ _ _
  | .saveComplete .. => Laws.ReadBack.saveComplete _ _ | .replay .. => Laws.ReadBack.replay _ _ _ _ | .deny .. => Laws.ReadBack.deny _ _ _
  | .tlbi .. => Laws.ReadBack.tlbi _ _ _ | .tlbiCtx .. => Laws.ReadBack.tlbiCtx _ _ _ | .tlbiDie .. => Laws.ReadBack.tlbiDie _ _
  | .halt .. => Laws.ReadBack.halt _ | .trapEntry .. => Laws.ReadBack.trapEntry _ | .doubleTrap .. => Laws.ReadBack.doubleTrap _
  | .unhandledTrap .. => Laws.ReadBack.unhandledTrap _ | .deferredCause .. => Laws.ReadBack.deferredCause _
  | .hang .. => Laws.ReadBack.hang _ | .loadReply .. => Laws.ReadBack.loadReply _ | .writeCompletion .. => Laws.ReadBack.writeCompletion _
  | .homeRequest .. => Laws.ReadBack.homeRequest _ | .sectorFill .. => Laws.ReadBack.sectorFill _ | .l1Fill .. => Laws.ReadBack.l1Fill _
  | .leaseEnd .. => Laws.ReadBack.leaseEnd _ _ | .l1Eviction .. => Laws.ReadBack.l1Eviction _ _
  | .l2Eviction .. => Laws.ReadBack.l2Eviction _ | .stvaArrival .. => Laws.ReadBack.stvaArrival _
  | .stvaPerform .. => Laws.ReadBack.stvaPerform _ | .atomoArrival .. => Laws.ReadBack.atomoArrival _
  | .atomoResend .. => Laws.ReadBack.atomoResend _ | .blockEnd .. => Laws.ReadBack.blockEnd _ _
  | .vellumWindowEnd .. => Laws.ReadBack.vellumWindowEnd _ | .vwinAdvance .. => Laws.ReadBack.vwinAdvance _
  | .pageFault .. => Laws.ReadBack.pageFault _ | .faultRecordPush .. => Laws.ReadBack.faultRecordPush _
  | .deferredWriteBackFault .. => Laws.ReadBack.deferredWriteBackFault _ | .blockEligible .. => Laws.ReadBack.blockEligible _ _
  | .placement .. => Laws.ReadBack.placement _ | .blockStart .. => Laws.ReadBack.blockStart _ _
  | .contextCompletion .. => Laws.ReadBack.contextCompletion _ | .hostWrite .. => Laws.ReadBack.hostWrite _
  | .powerUp .. => Laws.ReadBack.powerUp | .getVersion .. => Laws.ReadBack.getVersion | .getCapabilities .. => Laws.ReadBack.getCapabilities
  | .getDigests .. => Laws.ReadBack.getDigests | .holdoverEntry .. => Laws.ReadBack.holdoverEntry
  | .holdoverExit .. => Laws.ReadBack.holdoverExit | .hairlineArrival .. => Laws.ReadBack.hairlineArrival _
  | .hairlineUndeliverable .. => Laws.ReadBack.hairlineUndeliverable _ | .ownerAnswer .. => Laws.ReadBack.ownerAnswer _
  | .syncInterval .. => Laws.ReadBack.syncInterval | .inbox .. => Laws.ReadBack.inbox _ _ _ _
  | .sectorApertureRead .. => Laws.ReadBack.sectorApertureRead _ _ _ _
  | .sectorApertureWrite .. => Laws.ReadBack.sectorApertureWrite _ _ _ _
  | .windowApertureRead .. => Laws.ReadBack.windowApertureRead _ _ _ _
  | .windowApertureWrite .. => Laws.ReadBack.windowApertureWrite _ _ _ _ | .flush .. => Laws.ReadBack.flush _
  | .claim .. => Laws.ReadBack.claim _ _ | .partctlApply .. => Laws.ReadBack.partctlApply _
  | .mgmtRegisterWrite .. => Laws.ReadBack.mgmtRegisterWrite _ _ _ | .functionLevelReset .. => Laws.ReadBack.functionLevelReset _
  | .fwgo .. => Laws.ReadBack.fwgo _ | .bringUpComplete .. => Laws.ReadBack.bringUpComplete _
  | .getCertificate .. => Laws.ReadBack.getCertificate _ _ _ | .challenge .. => Laws.ReadBack.challenge _ _
  | .getMeasurements .. => Laws.ReadBack.getMeasurements _ _ | .spdmUnsupportedRequest .. => Laws.ReadBack.spdmUnsupportedRequest _
  | .negotiateAlgorithms .. => Laws.ReadBack.negotiateAlgorithms _ | .powerWindow .. => Laws.ReadBack.powerWindow _ _
  | .thermalShutdown .. => Laws.ReadBack.thermalShutdown _ | .sync .. => Laws.ReadBack.sync _ _
  | .softError .. => Laws.ReadBack.softError _ _ _ | .atsTranslationCompletion .. => Laws.ReadBack.atsTranslationCompletion _ _
  | .hairlinePortTraining .. => Laws.ReadBack.hairlinePortTraining _ _ | .pdelay .. => Laws.ReadBack.pdelay _ _
  | .firmwareWindowWrite .. => Laws.ReadBack.firmwareWindowWrite _ _ _ | .priResponse .. => Laws.ReadBack.priResponse _ _
  | .atsInvalidation .. => Laws.ReadBack.atsInvalidation _ _

/-- The units of the prefixes that a header names, in their order (R160). -/
def prefixUnits (h : Hdr) : List Int :=
  if h.pxiFirst then (h.pxi.map pxiUnit).toList ++ (h.pxs.map pxsUnit).toList
  else (h.pxs.map pxsUnit).toList ++ (h.pxi.map pxiUnit).toList

/-- The encoder gives the prefixes of the header and the unit of the fields. -/
theorem encode_of_rawOf {i : Instr} {h : Hdr} {r : Raw} (hr : rawOf i = some r) (hh : hdr i = some h) :
    encode i = some (prefixUnits h ++ [r.pack]) := by
  unfold encode
  split
  case h_1 u => exact nomatch (show (none : Option Raw) = some r from hr)
  case h_2 =>
    rw [hr, hh]
    cases hx : h.pxi <;> cases hs : h.pxs <;> simp [prefixUnits, hx, hs]

/-- An instruction with units is a hint, or has fields and a header. -/
theorem encode_cases {i : Instr} {us : List Int} (he : encode i = some us) :
    (∃ u, i = .hint u ∧ us = [u]) ∨ ∃ h r, hdr i = some h ∧ rawOf i = some r ∧ us = prefixUnits h ++ [r.pack] := by
  cases hr : rawOf i with
  | some r =>
    cases hh : hdr i with
    | some h => exact .inr ⟨h, r, rfl, rfl, Option.some.inj (he.symm.trans (encode_of_rawOf hr hh))⟩
    | none =>
      unfold encode at he
      split at he
      case h_1 u => exact .inl ⟨u, rfl, (Option.some.inj he).symm⟩
      case h_2 => rw [hr, hh] at he; exact nomatch he
  | none =>
    unfold encode at he
    split at he
    case h_1 u => exact .inl ⟨u, rfl, (Option.some.inj he).symm⟩
    case h_2 => rw [hr] at he; exact nomatch he

/-- A well-formed instruction with a header and fields has them in range, and passes the checks of R159. -/
theorem wf_parts {i : Instr} {h : Hdr} {r : Raw} (hw : i.wf = true) (hh : hdr i = some h) (hr : rawOf i = some r) :
    hdrOk h = true ∧ rawOk r = true ∧ legal i = true := by
  unfold Instr.wf at hw
  rw [hh, hr] at hw
  simp only [Bool.and_eq_true] at hw
  exact ⟨hw.2.1.1, hw.2.1.2, hw.2.2⟩

/-- The unit of a well-formed instruction's fields has its opcode, none that stands in front of another unit, and unpacks to them (R145). -/
theorem unpack_pack_of_wf {i : Instr} {h : Hdr} {r : Raw} (hw : i.wf = true) (hh : hdr i = some h) (hr : rawOf i = some r) :
    Raw.unpack r.pack = r ∧ offF r.pack 75 6 = r.op ∧ r.op < 540 := by
  obtain ⟨hhdr, hraw, -⟩ := wf_parts hw hh hr
  obtain ⟨-, hmd, hop, hgp, hgc, hlag, hcede, hlast⟩ := readBack i hw h r hh hr
  simp only [hdrOk, Bool.and_eq_true, decide_eq_true_eq] at hhdr
  obtain ⟨⟨⟨⟨⟨⟨hp, hc⟩, hl⟩, he⟩, hz⟩, -⟩, -⟩ := hhdr
  have hop' : r.op < 729 := by omega
  rw [← hgp] at hp; rw [← hgc] at hc; rw [← hlag] at hl; rw [← hcede] at he; rw [← hlast] at hz
  exact ⟨r.unpack_pack hraw hop' hp hc hl he hz hmd, r.op_pack hraw hop' hp hc hl he hz hmd, hop⟩

/-- Under its own prefixes the final unit of a well-formed instruction decodes to the instruction (R159). -/
theorem decodeFinal_pack {i : Instr} {h : Hdr} {r : Raw} (hw : i.wf = true) (hh : hdr i = some h) (hr : rawOf i = some r) :
    decodeFinal { pxi := h.pxi, pxs := h.pxs, pxiFirst := h.pxiFirst } r.pack = .ok i := by
  obtain ⟨-, -, hlegal⟩ := wf_parts hw hh hr
  obtain ⟨hread, -, -, hgp, hgc, hlag, hcede, hlast⟩ := readBack i hw h r hh hr
  obtain ⟨hunpack, -, hop⟩ := unpack_pack_of_wf hw hh hr
  have hhdr : ({ gpred := r.gpred, gcond := r.gcond, lag := r.lag, cede := r.cede, last := r.last, pxi := h.pxi, pxs := h.pxs
                 pxiFirst := h.pxiFirst } : Hdr) = h := by rw [hgp, hgc, hlag, hcede, hlast]
  unfold decodeFinal
  simp only [hunpack]
  rw [if_neg (by omega), hhdr, hread]
  exact if_pos ⟨hr, hlegal⟩

/-- The prefixes of a header in form are read in front of a unit whose opcode is none of theirs, where no line ends between them (R160). -/
theorem decodeUnit_prefixUnits {h : Hdr} {n v : Int} {rest : List Int} {i : Instr} (hhdr : hdrOk h = true) (h540 : offF v 75 6 ≠ 540)
    (h541 : offF v 75 6 ≠ 541) (hends : ∀ k, k < (prefixUnits h).length → lineEnds (n + (k : Int)) = false)
    (hfin : decodeFinal { pxi := h.pxi, pxs := h.pxs, pxiFirst := h.pxiFirst } v = .ok i) :
    decodeUnit n (prefixUnits h ++ v :: rest) = .ok (i, (prefixUnits h).length + 1) := by
  simp only [hdrOk, Bool.and_eq_true] at hhdr
  obtain ⟨⟨-, hpxi⟩, hfirst⟩ := hhdr
  obtain ⟨gpred, gcond, lag, cede, last, pxi, pxs, pxiFirst⟩ := h
  have h0 (hlen : 0 < (prefixUnits ⟨gpred, gcond, lag, cede, last, pxi, pxs, pxiFirst⟩).length) : lineEnds n = false := by
    simpa using hends 0 hlen
  have h1 (hlen : 1 < (prefixUnits ⟨gpred, gcond, lag, cede, last, pxi, pxs, pxiFirst⟩).length) : lineEnds (n + 1) = false := by
    simpa using hends 1 hlen
  clear hends
  cases pxi with
  | none =>
    obtain rfl : pxiFirst = true := by simpa using hfirst
    cases pxs with
    | none =>
      unfold decodeUnit
      simp [prefixUnits, h540, h541, hfin]
    | some p =>
      obtain ⟨hop, hread⟩ := pxs_back p
      simp [prefixUnits] at h0 ⊢
      generalize pxsUnit p = u at hop hread ⊢
      unfold decodeUnit
      simp [hop, hread, h0, h540, h541, hfin]
  | some x =>
    obtain ⟨hopx, hback⟩ := pxi_back hpxi
    cases pxs with
    | none =>
      obtain rfl : pxiFirst = true := by simpa using hfirst
      simp [prefixUnits] at h0 ⊢
      generalize hu : pxiUnit x = u at hopx hback ⊢
      unfold decodeUnit
      simp [hopx, hback, hu, h0, h540, h541, hfin]
    | some p =>
      obtain ⟨hop, hread⟩ := pxs_back p
      cases pxiFirst with
      | true =>
        simp [prefixUnits] at h0 h1 ⊢
        generalize hu : pxiUnit x = u at hopx hback ⊢
        generalize pxsUnit p = v at hop hread ⊢
        unfold decodeUnit
        simp [hopx, hback, hu, hop, hread, h0, h1, h540, h541, hfin]
      | false =>
        simp [prefixUnits] at h0 h1 ⊢
        generalize hu : pxiUnit x = u at hopx hback ⊢
        generalize pxsUnit p = v at hop hread ⊢
        unfold decodeUnit
        simp [hopx, hback, hu, hop, hread, h0, h1, h540, h541, hfin]

/-- A hint's unit decodes to the hint (R164). -/
theorem decodeUnit_hint {u n : Int} {rest : List Int} (hop : 675 ≤ offF u 75 6) : decodeUnit n (u :: rest) = .ok (.hint u, 1) := by
  have hfin : decodeFinal { pxi := none, pxs := none, pxiFirst := true } u = .ok (.hint u) := by
    simp [decodeFinal, Raw.unpack, hop]
  have h540 : offF u 75 6 ≠ 540 := by omega
  have h541 : offF u 75 6 ≠ 541 := by omega
  unfold decodeUnit
  simp [h540, h541, hfin]

/-- Settles O55: the fields read back form by form, and the prefixes stand in front of them as the header names them. -/
theorem encodeDecode : Obligations.EncodeDecode := by
  intro i n us rest hw he hends
  obtain ⟨u, rfl, rfl⟩ | ⟨h, r, hh, hr, rfl⟩ := encode_cases he
  · have hop : 675 ≤ (Raw.unpack u).op := by
      have hsub := (Bool.and_eq_true_iff.1 hw).1
      simp only [subOk, Bool.and_eq_true, decide_eq_true_eq] at hsub
      exact hsub.2
    exact decodeUnit_hint hop
  · obtain ⟨hhdr, -, -⟩ := wf_parts hw hh hr
    obtain ⟨-, hopeq, hop⟩ := unpack_pack_of_wf hw hh hr
    have hunits := decodeUnit_prefixUnits (n := n) (rest := rest) hhdr (by omega) (by omega)
      (fun k hk => hends k (by simpa using hk)) (decodeFinal_pack hw hh hr)
    simpa using hunits

end Sys2Proof.Machine
end

