-- ==== Sys2Proof/Proofs/Management.lean ====
section
/-! Reset (R458-R470), the management registers and the firmware (R458-R460, R464), and the SPDM responder (R465): each event's own
equation while the package has power. -/

namespace Sys2Proof.Machine

/-- Settles O58: every table of the reset state is empty, or has the one partition. -/
theorem resetState : Obligations.ResetState :=
  ⟨⟨rfl, rfl, rfl, rfl, rfl, rfl, rfl, rfl, List.nodup_nil, fun _ h => nomatch h⟩, rfl, fun _ => rfl, fun _ => rfl, rfl, rfl, rfl, rfl, rfl⟩

/-! The SPDM responder. -/

theorem State.spdm_eq (s : State) (bs : List Nat) :
    s.spdm bs = s.withMg { s.mg with spdmOut := s.mg.spdmOut ++ [bs.map (BitVec.ofNat 8)] } := rfl

theorem spdmError_eq (c : Nat) : spdmError c = [0x7F, c, 0] := rfl

theorem exec_getCertificate {s : State} (hon : s.mg.powerOff = false) (slot off len : Nat) :
    exec (.getCertificate slot off len) s =
      let c := byteVals (Config.certChain (Config.sha384 s.mg.fwImage))
      .next (s.spdm (if slot ≠ 0 ∨ c.length ≤ off then spdmError 1
        else [0x02, 0] ++ leBytes 2 ((c.drop off).take len).length ++ leBytes 2 (c.length - off - ((c.drop off).take len).length)
          ++ (c.drop off).take len)) := by
  change execGetCertificate slot off len s = _
  rw [execGetCertificate, State.linked_of_on hon]
  simp only [apply_ite s.spdm]

theorem exec_challenge {s : State} (hon : s.mg.powerOff = false) (slot nonce : Nat) :
    exec (.challenge slot nonce) s =
      let body := [0x03, 0] ++ byteVals (Config.sha384 (Config.certChain (Config.sha384 s.mg.fwImage))) ++ leBytes 32 nonce
      .next (s.spdm (if slot ≠ 0 then spdmError 1 else body ++ s.sign body)) := by
  change execChallenge slot nonce s = _
  rw [execChallenge, State.linked_of_on hon]
  simp only [apply_ite s.spdm]

theorem exec_getMeasurements {s : State} (hon : s.mg.powerOff = false) (idx nonce : Nat) :
    exec (.getMeasurements idx nonce) s =
      let ms := if idx = 255 then [1, 2, 3, 4] else [idx]
      let body := [0x60, ms.length] ++ ms.flatMap (fun i => i :: s.measurement i) ++ leBytes 32 nonce
      .next (s.spdm (if idx = 0 then [0x60, 4] else if 4 < idx ∧ idx ≠ 255 then spdmError 1 else body ++ s.sign body)) := by
  change execGetMeasurements idx nonce s = _
  rw [execGetMeasurements, State.linked_of_on hon]
  simp only [apply_ite s.spdm]

theorem byteVals_length (bs : List (BitVec 8)) : (byteVals bs).length = bs.length := List.length_map ..

/-- Settles O53, request by request: each has one response, which is all that changes. -/
theorem spdmResponder : Obligations.SpdmResponder := by
  intro s hon
  refine ⟨fun i v hi => ?_, fun alg => ?_, fun slot off len => ?_, fun slot nonce => exec_challenge hon slot nonce,
    fun idx nonce => exec_getMeasurements hon idx nonce, fun code => ?_⟩
  · simp only [List.mem_cons, Prod.mk.injEq, List.not_mem_nil, or_false] at hi
    obtain ⟨rfl, rfl⟩ | ⟨rfl, rfl⟩ | ⟨rfl, rfl⟩ := hi
    · change execGetVersion s = _
      rw [execGetVersion, State.linked_of_on hon]
      rfl
    · change execGetCapabilities s = _
      rw [execGetCapabilities, State.linked_of_on hon]
      rfl
    · change execGetDigests s = _
      rw [execGetDigests, State.linked_of_on hon]
      rfl
  · change execNegotiateAlgorithms alg s = _
    rw [execNegotiateAlgorithms, State.linked_of_on hon, State.spdm_eq]
    cases alg.asym <;> cases alg.hash <;> rfl
  · simp only [exec_getCertificate hon, byteVals_length]
    rfl
  · have hcode : BitVec.ofNat 8 (code % 256) = BitVec.ofNat 8 code := by
      apply BitVec.eq_of_toNat_eq
      simp
    change execSpdmUnsupportedRequest code s = _
    rw [execSpdmUnsupportedRequest, State.linked_of_on hon, State.spdm_eq]
    simp only [List.map_cons, List.map_nil, hcode]
    rfl

/-! Ownership and the registers. -/

theorem State.byOwner_of_owner {s : State} {m : Nat} (hm : m = s.mg.owner) (h0 : m ≠ 0) (f : State → State) : s.byOwner m f = f s :=
  if_pos ⟨hm, h0⟩

theorem State.byOwner_of_other {s : State} {m : Nat} (h : m ≠ s.mg.owner ∨ m = 0) (f : State → State) :
    s.byOwner m f = s.withMg { s.mg with mdisc := min (s.mg.mdisc + 1) (2 ^ 32 - 1) } := by
  have hnot : ¬ (m = s.mg.owner ∧ m ≠ 0) := by tauto
  exact if_neg hnot

/-- A master's claim that names the owner and hands the package to itself, or on (R460). -/
def claims (s : State) (m v : Nat) : Prop :=
  s.mg.owner = v % 256 ∧ ((s.mg.owner = 0 ∧ v / 256 % 256 = m) ∨ (s.mg.owner = m ∧ v / 256 % 256 ≤ 3))

theorem bitsOf_low_byte (v : Nat) : bitsOf v 0 8 = v % 256 := by simp [bitsOf]
theorem bitsOf_next_byte (v : Nat) : bitsOf v 8 8 = v / 256 % 256 := by simp [bitsOf]

theorem State.claimWrite_of_claims {s : State} {m v : Nat} (h1 : 1 ≤ m) (h3 : m ≤ 3) (h : claims s m v) :
    s.claimWrite m v = s.withMg { s.mg with
      owner := v / 256 % 256, claimst := noBit s.mg.claimst (m - 1) + 2 ^ (m - 1)
      msix := s.mg.msix ++ (if v / 256 % 256 = s.mg.owner then [] else [0]) } := by
  unfold claims at h
  unfold State.claimWrite
  simp only [bitsOf_low_byte, bitsOf_next_byte]
  rw [if_neg (by omega), if_pos h]
  split
  · rw [List.append_nil]; rfl
  · rfl

theorem State.claimWrite_of_not_claims {s : State} {m v : Nat} (h1 : 1 ≤ m) (h3 : m ≤ 3) (h : ¬ claims s m v) :
    s.claimWrite m v = s.withMg { s.mg with claimst := noBit s.mg.claimst (m - 1) } := by
  unfold claims at h
  unfold State.claimWrite
  simp only [bitsOf_low_byte, bitsOf_next_byte]
  rw [if_neg (by omega), if_neg h]
  rfl

/-- A register other than CLAIM that the owner writes (R458, R459). -/
theorem exec_mgmtRegisterWrite_owner {s : State} {m : Nat} (hon : s.mg.powerOff = false) (hm : m = s.mg.owner) (h0 : m ≠ 0) {a v : Nat}
    (ha : a ≠ 0x0004) (hv : v < 2 ^ 32) : exec (.mgmtRegisterWrite m a v) s = .next (
      if a = 0x0010 then (if rowsReserved v then s else s.withMg { s.mg with pending := partcfgBits v })
      else if a = 0x0014 then
        let s1 := s.withMg { s.mg with p2p := bitsOf v 16 9 }
        if v.testBit 31 then s1.startApply else s1
      else if a = 0x0024 then s.withMg { s.mg with fwlen := v }
      else if a = 0x0028 then (if v.testBit 0 then s.verify else s)
      else if a = 0x0030 then s.withMg { s.mg with domcfg := v }
      else if a = 0x0040 then (if 600 ≤ v ∧ v ≤ 1500 then s.withMg { s.mg with pcap := v } else s)
      else s) := by
  change execMgmtRegisterWrite m a v s = _
  rw [execMgmtRegisterWrite, State.linked_of_on hon, if_neg ha, State.byOwner_of_owner hm h0, Nat.mod_eq_of_lt hv]
  rfl

/-- The boot ROM's verdict, from BOOTST 1 or 3 (R464). -/
theorem State.verify_eq {s : State} (h : s.mg.bootst = 1 ∨ s.mg.bootst = 3) : s.verify = s.withMg (if s.fwCode = 0 then
    { s.mg with bootst := 4, fwImage := s.image, fwstat := 0, msix := s.mg.msix ++ [1, 1] }
    else { s.mg with bootst := 3, fwstat := s.fwCode, msix := s.mg.msix ++ [1, 1] }) := by
  unfold State.verify
  have hstart : s.setBoot 2 = s.withMg { s.mg with bootst := 2, msix := s.mg.msix ++ [1] } := if_neg (by omega)
  have hboot (g : Mgmt) (k : Nat) (hg : g.bootst ≠ k) : (s.withMg g).setBoot k = s.withMg { g with bootst := k, msix := g.msix ++ [1] } := if_neg hg
  rw [if_neg (by omega), hstart]
  dsimp only
  by_cases hc : s.fwCode = 0
  · rw [if_pos hc, if_pos hc]
    refine (hboot { s.mg with bootst := 2, msix := s.mg.msix ++ [1], fwImage := s.image, fwstat := 0 } 4 (show 2 ≠ 4 by decide)).trans ?_
    simp only [List.append_assoc, List.cons_append, List.nil_append]
  · rw [if_neg hc, if_neg hc]
    refine (hboot { s.mg with bootst := 2, msix := s.mg.msix ++ [1], fwstat := s.fwCode } 3 (show 2 ≠ 3 by decide)).trans ?_
    simp only [List.append_assoc, List.cons_append, List.nil_append]

/-- Bytes written from an offset into a window of n bytes (R464). -/
def windowBytes (n off : Nat) (bs : List (BitVec 8)) (m : List Host.Cell) : List Host.Cell :=
  bs.zipIdx.foldl (fun m (b, i) => if off + i < n then Tab.set 0 (off + i) b m else m) m

theorem windowBytes_append (n off : Nat) (bs : List (BitVec 8)) (b : BitVec 8) (m : List Host.Cell) : windowBytes n off (bs ++ [b]) m =
    if off + bs.length < n then Tab.set 0 (off + bs.length) b (windowBytes n off bs m) else windowBytes n off bs m := by
  simp [windowBytes, List.zipIdx_append]

/-- The window reads as the bytes written where they fit, and as before elsewhere. -/
theorem get_windowBytes (n off : Nat) (bs : List (BitVec 8)) (m : List Host.Cell) (i : Nat) : Tab.get 0 (windowBytes n off bs m) i =
    if off ≤ i ∧ i < off + bs.length ∧ i < n then bs.getD (i - off) 0 else Tab.get 0 m i := by
  induction bs using List.reverseRecOn with
  | nil => rw [if_neg (by simp; omega)]; rfl
  | append_singleton bs b ih =>
    rw [windowBytes_append, apply_ite (fun t => Tab.get (0 : BitVec 8) t i), Tab.get_set, ih]
    simp only [List.length_append, List.length_singleton]
    rcases Nat.lt_trichotomy i (off + bs.length) with hi | rfl | hi
    · have hget : (bs ++ [b]).getD (i - off) 0 = if off ≤ i then bs.getD (i - off) 0 else (bs ++ [b]).getD (i - off) 0 := by
        split
        · exact List.getD_append _ _ _ _ (by omega)
        · rfl
      split_ifs <;> first | omega | simp_all
    · have hget : (bs ++ [b]).getD (off + bs.length - off) 0 = b := by simp
      rw [hget]
      split_ifs <;> first | omega | rfl
    · split_ifs <;> first | omega | rfl

/-- Settles O51: CLAIM by the owner that it names, each register by its own arm, the verdict on the image, and the window's bytes. -/
theorem management : Obligations.Management := by
  refine ⟨fun s m v hon h1 h3 how hwho => ?_, fun s m v hon h1 h3 hnot => ?_, fun s m v => rfl, fun s m a v hon ha hm => ?_,
    fun s m v hon hm h0 hv => ⟨?_, fun h31 => ?_, ?_, ?_, ?_, fun hodd => ?_⟩, fun s m hon hm h0 hboot => ?_,
    fun s m off bs hon hm h0 => ⟨s.withMg { s.mg with fw := windowBytes 4194304 off bs s.mg.fw }, ?_, rfl,
      get_windowBytes 4194304 off bs s.mg.fw⟩⟩
  · change execClaim m v s = _
    rw [execClaim, State.linked_of_on hon, State.claimWrite_of_claims h1 h3 ⟨how, hwho⟩]
  · change execClaim m v s = _
    rw [execClaim, State.linked_of_on hon, State.claimWrite_of_not_claims h1 h3 hnot]
  · change execMgmtRegisterWrite m a v s = _
    rw [execMgmtRegisterWrite, State.linked_of_on hon, if_neg ha, State.byOwner_of_other hm]
  · exact exec_mgmtRegisterWrite_owner hon hm h0 (by decide) hv
  · have hbit : v.testBit 31 = false := Nat.testBit_lt_two_pow h31
    refine (exec_mgmtRegisterWrite_owner hon hm h0 (by decide) hv).trans ?_
    simp only [hbit]
    rfl
  · exact exec_mgmtRegisterWrite_owner hon hm h0 (by decide) hv
  · exact exec_mgmtRegisterWrite_owner hon hm h0 (by decide) hv
  · exact exec_mgmtRegisterWrite_owner hon hm h0 (by decide) hv
  · have hbit : v.testBit 0 = true := by simp [Nat.testBit_zero, hodd]
    rw [exec_mgmtRegisterWrite_owner hon hm h0 (by decide) hv]
    change _ = execFwgo m s
    rw [execFwgo, State.linked_of_on hon, State.byOwner_of_owner hm h0]
    simp [hbit]
  · change execFwgo m s = _
    rw [execFwgo, State.linked_of_on hon, State.byOwner_of_owner hm h0, State.verify_eq hboot]
  · change execFirmwareWindowWrite m off bs s = _
    rw [execFirmwareWindowWrite, State.linked_of_on hon, State.byOwner_of_owner hm h0]
    rfl

end Sys2Proof.Machine
end

