-- ==== Sys2Proof/Proofs/StatusForms.lean ====
section
/-! Reads of the machine's own state (R241, R251, R257, R297, R313, R344, R396), and writes of the meeting register (R267, R268): what
such a unit reads is not among what its start changes. -/

namespace Sys2Proof.Machine

/-! What the start of a unit without source ports leaves. -/

section
variable {s p : State} {u : Uses}

theorem Same.cor (h : Same s p u) (hu : u.src.filter isPort = []) : p.cor = s.cor := (h.ports hu).1
theorem Same.warp (h : Same s p u) (hu : u.src.filter isPort = []) (w : Nat) : p.warp w = s.warp w := State.warp_congr (h.ports hu).2 w
theorem Same.core (h : Same s p u) (hu : u.src.filter isPort = []) (c : Nat) : p.core c = s.core c := State.core_congr (h.cor hu) c
theorem Same.ctxs (h : Same s p u) : p.ctxs = s.ctxs := by rw [h.rest]
theorem Same.ctx (h : Same s p u) (c : Nat) : p.ctx c = s.ctx c := State.ctx_congr h.ctxs c
theorem Same.dieSt (h : Same s p u) (k : Nat) : p.dieSt k = s.dieSt k := by rw [h.rest]; rfl
theorem Same.ownKey (h : Same s p u) (i : Nat) : p.ownKey i = s.ownKey i := by rw [h.rest]; rfl
theorem Same.part (h : Same s p u) (k : Nat) : p.part k = s.part k := by rw [h.rest]; rfl
theorem Same.port (h : Same s p u) (hu : u.src.filter isPort = []) (c q : Nat) : p.port c q = s.port c q := by
  rw [State.port, h.core hu, State.port]

theorem Same.launchOf (h : Same s p u) (hu : u.src.filter isPort = []) (w : Nat) : p.launchOf w = s.launchOf w := by
  rw [State.launchOf, h.warp hu, h.ctx, State.launchOf]
theorem Same.folio (h : Same s p u) (hu : u.src.filter isPort = []) (c f : Nat) : p.folio c f = s.folio c f := by
  rw [State.folio, h.core hu, State.folio]

theorem Same.portClosed (h : Same s p u) (hu : u.src.filter isPort = []) (c x q : Nat) : p.portClosed c x q = s.portClosed c x q :=
  State.portClosed_congr (h.cor hu) h.ctxs c x q

theorem Same.portRoom (h : Same s p u) (hu : u.src.filter isPort = []) (c x b q : Nat) : p.portRoom c x b q = s.portRoom c x b q := by
  simp only [State.portRoom, h.ctx, h.port hu]

theorem Same.budgetOf (h : Same s p u) (c : Nat) : p.budgetOf c = s.budgetOf c := by
  simp only [State.budgetOf, h.ownKey, h.dieSt]

/-- A word of a control register reads nothing that the start of a unit changes. -/
theorem Same.csr (h : Same s p u) (t n : Nat) : p.csr t n = s.csr t n := by
  obtain ⟨_, _, _, _, _, _, _, _, _, _, _, hthr⟩ := h.thread t
  have hctx : (p.warp (warpOf t)).ctx = (s.warp (warpOf t)).ctx := by rw [h.warps]
  have hxsel : (p.warp (warpOf t)).xsel = (s.warp (warpOf t)).xsel := by rw [h.warps]
  simp only [State.csr, State.csrCtx, State.csrDie, h.ctx, h.part, h.dieSt, h.ownKey, hctx, hxsel]
  rw [hthr]

/-- The Scribe's status is that of another warp's threads. -/
theorem Same.scribeStatus (h : Same s p u) (hp : Plain s) (hu : u.src.filter isPort = []) (c : Nat) :
    p.scribeStatus c = s.scribeStatus c := by
  have hthr : ∀ t ∈ threadsOf (scribeWarp c), p.thread t = s.thread t := fun t ht => h.others t fun l hl heq => by
    obtain ⟨k, hk, rfl⟩ := mem_threadsOf.mp ht
    have hwarp : scribeWarp c = s.cur.warp := by
      rw [← threadOf_warp (w := scribeWarp c) hk, heq, hp.warpOf_lane hl]
    refine hp.wid ?_
    rw [← hwarp, widOf, scribeWarp]
    omega
  have hlive : (threadsOf (scribeWarp c)).filter (fun t => decide ((p.thread t).st ≠ .exited)) =
      (threadsOf (scribeWarp c)).filter (fun t => decide ((s.thread t).st ≠ .exited)) :=
    List.filter_congr fun t ht => by rw [hthr t ht]
  have hany : ((threadsOf (scribeWarp c)).filter (fun t => decide ((s.thread t).st ≠ .exited))).any (fun t => decide ((p.thread t).st = .stopped)) =
      ((threadsOf (scribeWarp c)).filter (fun t => decide ((s.thread t).st ≠ .exited))).any (fun t => decide ((s.thread t).st = .stopped)) :=
    Bool.eq_iff_iff.mpr (by
      simp only [List.any_eq_true]
      exact exists_congr fun t => and_congr_right fun ht => by rw [hthr t (List.mem_of_mem_filter ht)])
  simp only [State.scribeStatus, h.core hu, h.warp hu, hlive, hany]

end

/-- A word in a register of each active lane, which reads alike before the unit. -/
theorem Runs.of_reg {i : Instr} {h : Hdr} {u : Uses} {d : Nat} {f g : State → Nat → Int}
    (hexec : ∀ s, exec i s = .next (s.perLane h u (fun s t _ => { wr := [.reg d (g s t)] })))
    (hgf : ∀ s p, Plain s → Same s p u → ∀ l ∈ s.cur.lanes, g p (s.lane l) = f s (s.lane l)) :
    Runs i h u (fun s t _ => { wr := [.reg d (f s t)] }) :=
  Runs.of hexec (fun s p hp hsame l hl _ => by rw [hgf s p hp hsame l hl]) (fun _ _ _ => le_rfl) fun _ _ _ => rfl

theorem csrr_reads_word {n : Nat} {i : CsrInfo} (hinfo : csrInfo n = some i) (hpair : i.isPair = false) (h : Hdr) (d : Nat) :
    Runs (.csrr h d n) h { dstR := [d], level := if i.read = .handler then .handler else .sup, forbid := true }
      (fun s t _ => { wr := [.reg d (s.csr t n)] }) := by
  refine .of_reg (g := fun s t => s.csr t n) (fun s => ?_) fun _ _ _ hsame _ _ => hsame.csr ..
  change execCsrr h d n s = _
  rw [execCsrr, hinfo]
  simp only [hpair]
  rfl

theorem csrr_reads_pair {n : Nat} {i : CsrInfo} (hinfo : csrInfo n = some i) (hpair : i.isPair = true) (h : Hdr) (d : Nat) :
    Runs (.csrr h d n) h { dstP := [d], level := if i.read = .handler then .handler else .sup, forbid := true }
      (fun s t _ => toPair d (s.csr t n)) := by
  refine .of_pair (g := fun s t _ => s.csr t n) (fun s => ?_) fun _ _ hsame _ _ => hsame.csr ..
  change execCsrr h d n s = _
  rw [execCsrr, hinfo]
  simp only [hpair]
  rfl

theorem fstat_reads (h : Hdr) (k d a : Nat) (off : Int) : Runs (.fstat h k d a off) h { srcR := [a], dstR := [d], forbid := true }
    (fun s t _ => if 0 ≤ s.reg t a + off ∧ s.reg t a + off < ((s.launchOf s.cur.warp).folios : Int) then
        { wr := [.reg d (folioEntry (s.folio (coreOf s.cur.warp) (s.reg t a + off).toNat) k)] }
      else raises 14) := by
  refine Runs.of (fun _ => rfl) (fun s p hp hsame l hl _ => ?_) (fun s t _ => ?_) (fun s t _ => ?_)
  · simp only [hsame.reg, hp.warpOf_lane hl, hsame.launchOf rfl, hsame.folio rfl]
    by_cases hin : 0 ≤ s.reg (s.lane l) a + off ∧ s.reg (s.lane l) a + off < ((s.launchOf s.cur.warp).folios : Int)
    · rw [if_pos hin, if_neg (by omega)]
    · rw [if_neg hin, if_pos (by omega)]
      rfl
  · split
    · exact le_rfl
    · exact le_rfl
  · split
    · rfl
    · rfl

/-- Settles O13: each form's word is read from what the unit's start leaves as it was, and SETMR, SETMR.clr and MOVMR.put write MR. -/
theorem statusAndMeeting : Obligations.StatusAndMeeting := by
  refine ⟨⟨?tnow, ?qstat, ?dstat, fstat_reads, ?mbudg, ?scrh, fun h d n i hinfo hpair => csrr_reads_word hinfo hpair h d,
    fun h d n i hinfo hpair => csrr_reads_pair hinfo hpair h d⟩, ?setmr, ?clr, ?put⟩
  case tnow =>
    intro h d
    -- The count is read at the issue, before the group's lanes take their stamps.
    refine fun s hp hl hport hf => ⟨_, rfl, State.perLane_ran hp hl hport hf (fun _ _ => le_rfl) (fun _ _ => rfl) fun p hsame _ _ _ => rfl⟩
  case qstat =>
    refine fun h d a => Runs.of (fun _ => rfl) (fun s p hp hsame l hl _ => ?_) (fun _ _ _ => le_rfl) fun _ _ _ => toW_plain ..
    simp only [hp.warpOf_lane hl, hsame.warp rfl, hsame.portClosed rfl, hsame.portRoom rfl, hsame.port rfl]
    rfl
  case dstat =>
    refine fun h d => Runs.of (fun _ => rfl) (fun s p hp hsame l hl _ => ?_) (fun _ _ _ => le_rfl) fun _ _ _ => toW_plain ..
    obtain ⟨_, _, _, _, _, _, _, _, _, _, _, hthr⟩ := hsame.thread (s.lane l)
    simp only [hp.warpOf_lane hl, hsame.warp rfl, hthr]
    rfl
  case mbudg =>
    refine fun h d s hp hl hport hf => ⟨_, rfl, State.perLane_ran hp hl hport hf (fun _ _ => le_rfl) (fun _ _ => rfl) fun p hsame _ _ _ => ?_⟩
    simp only [hsame.budgetOf, hsame.dieSt, hsame.ownKey]
    rfl
  case scrh =>
    exact fun h d => .of_reg (g := fun s t => s.scribeStatus (coreOf (warpOf t))) (fun _ => rfl) fun s p hp hsame l hl => by
      rw [hp.warpOf_lane hl, hsame.scribeStatus hp rfl]
  case setmr => exact fun h imm => .of (fun _ => rfl) (fun s p _ hsame _ _ _ => by rw [hsame.cur]) fun _ _ _ => le_rfl
  case clr => exact fun h => .of (fun _ => rfl) (fun _ _ _ _ _ _ _ => rfl) fun _ _ _ => le_rfl
  case put => exact fun h a => .of (fun _ => rfl) (fun s p _ hsame l _ _ => by rw [hsame.regPair]) fun _ _ _ => le_rfl

end Sys2Proof.Machine
end

