-- ==== Sys2Proof/Proofs/NibForms.lean ====
section
/-! The forms of the Nib (R293-R308): what their effect leaves in a plain group, and that it leaves the group's warp at rest. -/

namespace Sys2Proof.Machine

/-! Folios, rings, slots and queues are a core's own. -/

section
variable (a : State) (c : Nat)

theorem State.setFolio_stands (f : Nat) (x : Folio) : Stands a (a.setFolio c f x) := a.setCore_stands c rfl
theorem State.setRing_stands (r : Nat) (x : Ring) : Stands a (a.setRing c r x) := a.setCore_stands c rfl
theorem State.setSlot_stands (k : Nat) (x : Slot) : Stands a (a.setSlot c k x) := a.setCore_stands c rfl

theorem State.fset_stands {f : Nat} {ready : Bool} {b : State} (h : a.fset c f ready = some b) : Stands a b := by
  have hst (st : Nat) : Stands a (a.folioSt c f st) := a.setFolio_stands c f _
  unfold State.fset at h
  dsimp only at h
  split at h <;> split at h
  · exact Option.some.inj h ▸ (hst 2).trans (State.setRing_stands ..)
  · exact nomatch h
  · exact Option.some.inj h ▸ (hst 0).trans (State.setRing_stands ..)
  · exact nomatch h
  · exact Option.some.inj h ▸ hst 2
  · exact nomatch h
  · exact Option.some.inj h ▸ hst 0
  · exact nomatch h

theorem State.fset_getD_stands (f : Nat) (ready : Bool) : Stands a ((a.fset c f ready).getD a) := by
  cases h : a.fset c f ready with
  | none => exact .refl a
  | some b => exact a.fset_stands c h

theorem State.nibPush_stands (w : Nat) (ls : List Nat) (slot : Nat) (op : NibOp) (tok : Option Int) (counted soft : Bool) :
    Stands a (a.nibPush w ls slot op tok counted soft) := by
  unfold State.nibPush
  refine Stands.trans ?_ (State.setCore_stands _ _ rfl)
  split
  · exact a.openGrp_stands ..
  · exact .of_cores rfl fun _ => rfl

end

/-- A check that finds nothing raises nothing (R403). -/
theorem State.scaleAt_false (a : State) (t : Nat) : a.scaleAt t false = a := rfl

/-- A form of the Nib that acts once for its group and whose lanes then retire, by what it does for the lowest lane. -/
theorem Acts.of_nibUnit {i : Instr} {h : Hdr} {u : Uses} {P : State → List Nat → Prop} {G : State → List Nat → State}
    {g : List Nat → Nat → State → State} (hexec : ∀ s, exec i s = .next (s.nibUnit h u g)) (hstands : ∀ a act, P a act → Stands a (G a act))
    (hbody : ∀ a act, P a act → g act (a.low act) a = (G a act).retireAll act) : Acts i h { u with forbid := true } P ret G :=
  .retires_of_stands (body := fun act x => g act (x.low act) x) hexec fun _ _ _ hP => ⟨hstands _ _ hP, hbody _ _ hP⟩

/-! Folios and configuration (R293-R298). -/

theorem mcfg_acts (h : Hdr) (r : Nat) (g : CfgOp) : Acts (.mcfg h r g) h { srcR := [r], forbid := true }
    (fun s act => ∀ j, j < 3 → (useScale (part (s.reg (s.low act) r) j)).2 = false) ret (fun s act =>
      let w := s.reg (s.low act) r
      let sa := (useScale (part w 0)).1
      let sb := (useScale (part w 1)).1
      let so := (useScale (part w 2)).1
      s.setSlot (coreOf s.cur.warp) g.slot { s.slotOf (coreOf s.cur.warp) g.slot with
        atype := g.atype, btype := g.btype, otype := g.otype, pa := g.pa, pb := g.pb, otag := g.otag
        sa := sa, sb := sb, so := so, s := combScale sa sb so }) := by
  refine .of_nibUnit (u := { srcR := [r] }) (fun _ => rfl) (fun _ _ _ => State.setSlot_stands ..) fun a act hok => ?_
  have h0 := hok 0 (by decide)
  have h1 := hok 1 (by decide)
  have h2 := hok 2 (by decide)
  simp only [h0, h1, h2, Bool.or_self, State.scaleAt_false]

theorem ring_acts (h : Hdr) (r first count : Nat) : Acts (.ring h r first count) h { forbid := true }
    (fun s _ => let c := coreOf s.cur.warp
      (∀ f, f ∈ (List.range count).map (first + ·) ++ (s.ringOf c r).mem → (s.folio c f).st ≠ 1 ∧ (s.folio c f).st ≠ 3) ∧
      ∀ i, i < count → ((s.folio c (first + i)).ring = 0 ∨ (s.folio c (first + i)).ring = r + 1) ∧ first + i < (s.launchOf s.cur.warp).folios)
    ret (fun s _ =>
      let c := coreOf s.cur.warp
      let s1 := (s.ringOf c r).mem.foldl (fun a f => a.setFolio c f { a.folio c f with st := 0, ring := 0, slot := 0 }) s
      let s2 := ((List.range count).map (first + ·)).zipIdx.foldl (fun a p => a.setFolio c p.1 { a.folio c p.1 with st := 0, ring := r + 1, slot := p.2 }) s1
      s2.setRing c r { mem := (List.range count).map (first + ·) }) := by
  refine .of_nibUnit (u := {}) (fun _ => rfl) (fun a act _ => ?stands) fun a act ⟨hidle, hfree⟩ => if_neg ?free
  case stands =>
    exact (Stands.foldl (fun _ _ => State.setFolio_stands ..) _ _).trans
      ((Stands.foldl (fun _ _ => State.setFolio_stands ..) _ _).trans (State.setRing_stands ..))
  case free =>
    simp only [Bool.or_eq_true, Bool.and_eq_true, List.any_eq_true, decide_eq_true_eq, not_or, not_exists, not_and]
    refine ⟨⟨fun f hf => hidle f hf, fun f hf hring => ?_⟩, fun f hf => ?_⟩
    · obtain ⟨i, hi, rfl⟩ := List.mem_map.mp hf
      rcases (hfree i (List.mem_range.mp hi)).1 with h0 | h0
      · exact absurd h0 hring
      · exact not_not_intro h0
    · obtain ⟨i, hi, rfl⟩ := List.mem_map.mp hf
      exact Nat.not_le.mpr (hfree i (List.mem_range.mp hi)).2

/-- A folio of the launch that the table of R298 lets change, whatever of its entry FSET then writes. -/
theorem fset_acts {i : Instr} {h : Hdr} {u : Uses} {r : Nat} {off : Int} {ready : Bool} {E : State → List Nat → State → Folio}
    (hexec : ∀ s, exec i s = .next (s.nibUnit h u (fun act t s =>
      if s.reg t r + off < 0 ∨ ((s.launchOf s.cur.warp).folios : Int) ≤ s.reg t r + off then s.faultAll act 14 0
      else match s.fset (coreOf s.cur.warp) (s.reg t r + off).toNat ready with
        | none => s.faultAll act 14 0
        | some s1 => (s1.setFolio (coreOf s.cur.warp) (s.reg t r + off).toNat (E s act s1)).retireAll act))) :
    Acts i h { u with forbid := true }
      (fun s act => 0 ≤ s.reg (s.low act) r + off ∧ s.reg (s.low act) r + off < (s.launchOf s.cur.warp).folios ∧
        (s.fset (coreOf s.cur.warp) (s.reg (s.low act) r + off).toNat ready).isSome = true) ret
      (fun s act => let s1 := (s.fset (coreOf s.cur.warp) (s.reg (s.low act) r + off).toNat ready).getD s
        s1.setFolio (coreOf s.cur.warp) (s.reg (s.low act) r + off).toNat (E s act s1)) := by
  refine .of_nibUnit hexec (fun a act _ => (a.fset_getD_stands ..).trans (State.setFolio_stands ..)) fun a act ⟨h0, hlt, hsome⟩ => ?_
  obtain ⟨b, hb⟩ := Option.isSome_iff_exists.mp hsome
  simp only [hb]
  exact if_neg (by omega)

/-- Settles O16: MCFG sets its slot, RING lays its folios out, and FSET changes the entry that the table lets it change. -/
theorem nibConfiguration : Obligations.NibConfiguration := by
  refine ⟨mcfg_acts, ring_acts, fun h full r b off => ?ready, fun h full r off => ?empty⟩
  case ready => exact fset_acts (u := { srcR := [r, b] }) (E := fun s act s1 => { s1.folio (coreOf s.cur.warp) (s.reg (s.low act) r + off).toNat with stag := wrap (s.reg (s.low act) b) 9, nz := if full then List.replicate 9 729 else (s1.folio (coreOf s.cur.warp) (s.reg (s.low act) r + off).toNat).nz }) (fun _ => rfl)
  case empty => exact fset_acts (u := { srcR := [r] }) (E := fun s act s1 => { s1.folio (coreOf s.cur.warp) (s.reg (s.low act) r + off).toNat with nz := if full then List.replicate 9 729 else (s1.folio (coreOf s.cur.warp) (s.reg (s.low act) r + off).toNat).nz }) (fun _ => rfl)

/-! Commands (R299-R308). -/

/-- A queue with room and a counter below its limit keep no command waiting (R158, R299). -/
theorem State.nibWait_none {a : State} (hroom : a.nibRoom a.cur.warp = true) (hcount : cntOf .tl (a.warp a.cur.warp) < 242) (act : List Nat) :
    a.nibWait act = none := by
  rw [State.nibWait]
  simp only [hroom, Bool.not_true, Bool.false_eq_true, if_false]
  exact if_neg (by omega)

/-- Settles O17: a queue with room takes the command, and the lanes retire, or wait for it. -/
theorem nibCommands : Obligations.NibCommands := by
  refine ⟨fun h slot => ?zero, fun h bhold tok r slot ra rb kc => ?loop, fun h o => ?drain, fun h tok d c slot => ?qscale,
    fun h clr d slot => ?fitr⟩
  case zero =>
    refine .of_nibUnit (u := {}) (fun _ => rfl) (fun _ _ _ => State.nibPush_stands ..) fun a act hroom => if_neg ?_
    simp [hroom]
  case loop =>
    refine .of_nibUnit (u := { srcR := [r] }) (fun _ => rfl) (fun _ _ _ => State.nibPush_stands ..)
      fun a act ⟨h1, h729, hra, hrb, hne, htype, hroom, hcount⟩ => ?_
    rw [State.nibWait_none hroom hcount, if_neg (by omega), if_neg (by simp only [List.isEmpty_iff]; tauto), if_neg (by simp [htype])]
    rfl
  case drain =>
    refine .of_nibUnit (fun _ => rfl) (fun _ _ _ => State.nibPush_stands ..) fun a act ⟨hro, hres, htype, hroom, hcount⟩ => ?_
    have hscale : (o.res && (useScale (part (a.reg (a.low act) o.c) 0)).2) = false := by
      cases hr : o.res with
      | false => rfl
      | true => exact (hres hr).2.2
    rw [State.nibWait_none hroom hcount, if_neg (by simp only [List.isEmpty_iff]; tauto), if_neg (by simp [htype])]
    simp only [hscale, State.scaleAt_false]
    rfl
  case qscale =>
    refine .of_nibUnit (u := { dstR := [d], preds := [c] }) (fun _ => rfl) (fun _ _ _ => State.nibPush_stands ..)
      fun a act ⟨htype, hf9, hsa, hsb, hroom, hcount⟩ => ?_
    rw [State.nibWait_none hroom hcount, if_neg (by simp [htype, hf9])]
    simp only [hsa, hsb, Bool.or_self, State.scaleAt_false]
    rfl
  case fitr =>
    refine .of_rests (u := { dstR := [d], forbid := true }) (body := fun act a =>
      if !a.nibRoom a.cur.warp then a.waitAll act (.counters [242, 242, 242, 0] false)
      else (a.nibPush a.cur.warp act slot (.fitr d clr) none false false).waitAll act (.nib a.nextId)) (fun _ => rfl) (wait_keeps _)
      fun s hp ha hroom => ⟨(State.nibPush_stands ..).rests, ?_⟩
    rw [if_neg (by simp [hroom])]
    exact ha.waitAll hp (by exact ha.cur) rfl

end Sys2Proof.Machine
end

