-- ==== Sys2Proof/Proofs/CopyForms.lean ====
section
/-! Copies at their issue (R318-R326): a copy that the checks of R321 accept is queued on the core and counts, and the lanes retire. -/

namespace Sys2Proof.Machine

theorem State.withCopy_stands (a : State) (x : Copy) : Stands a (a.withCopy x) :=
  (a.openGrp_stands a.cur.warp .cp 1).trans (State.setCore_stands _ _ rfl)

/-- What a copy form does with its group once it has its operands: what it decides, then the room that it needs (R318). -/
def State.copyTurn (k : State → Nat → Copy → Issue) (act : List Nat) (a : State) : State :=
  match k a (a.low act) (a.newCopy act) with
  | .bad cause status => a.faultAll act cause status
  | .go x =>
    if 81 ≤ (a.core (coreOf a.cur.warp)).copies.length then a.waitAll act (.counters [242, 242, 0, 242] false)
    else if 242 ≤ cntOf .cp (a.warp a.cur.warp) then a.waitAll act (.reissue (.limit .cp) false)
    else (a.withCopy x).retireAll act

theorem State.copyUnit_eq (s : State) (h : Hdr) (u : Uses) (k : State → Nat → Copy → Issue) :
    s.copyUnit h u k = s.issue h { u with forbid := true } (State.copyTurn k) := rfl

/-- A form of copy, by what it decides at its issue when the core and the warp's counter have room. -/
theorem Acts.of_copyUnit {i : Instr} {h : Hdr} {u : Uses} {P : State → List Nat → Prop} {X : State → List Nat → Copy}
    {k : State → Nat → Copy → Issue} (hexec : ∀ s, exec i s = .next (s.copyUnit h u k)) (hroom : ∀ a act, P a act → copyRoom a)
    (hgo : ∀ a act, P a act → k a (a.low act) (a.newCopy act) = .go (X a act)) :
    Acts i h { u with forbid := true } P ret (fun a act => a.withCopy (X a act)) := by
  refine .retires_of_stands (body := State.copyTurn k) (fun s => (hexec s).trans (congrArg _ (s.copyUnit_eq h u k)))
    fun s _ _ hP => ⟨State.withCopy_stands .., ?_⟩
  obtain ⟨hcore, hcount⟩ := hroom _ _ hP
  rw [State.copyTurn, hgo _ _ hP]
  dsimp only
  rw [if_neg (by omega), if_neg (by omega)]

section
variable {a : State} {o : CpOpt} {ends : Bool} {x y : Copy}

/-- A copy that R321's checks accept is queued. -/
theorem State.cpCheck_go (hwarp : x.warp = a.cur.warp) (hok : copyOk a o ends y) (hsrc : ends = true → y.src = x.src)
    (hdst : ends = true → y.dst = x.dst) (hcount : ends = true → y.count = x.count) : a.cpCheck o true ends x = .go x := by
  obtain ⟨htypes, hrings, hends⟩ := hok
  unfold State.cpCheck
  rw [hwarp]
  simp only [Bool.not_true, Bool.false_eq_true, htypes, hrings, or_self, if_false]
  cases ends with
  | false => rfl
  | true =>
    obtain ⟨hs, hd⟩ := hends rfl
    rw [hsrc rfl, hcount rfl] at hs
    rw [hdst rfl, hcount rfl] at hd
    have hs' : (if o.sring.isSome then none else a.endsFate (a.warp a.cur.warp).ctx (srcSide o) false x.src x.count) = none := by
      split <;> simp_all
    have hd' : (if o.dring.isSome then none else a.endsFate (a.warp a.cur.warp).ctx (dstSide o) true x.dst x.count) = none := by
      split <;> simp_all
    rw [hs', hd']

/-- A gather or a scatter with a count of rows and a length of row in range. -/
theorem State.rowCopy_go {t b c : Nat} {form : CpForm} {ok : Bool} (hwarp : x.warp = a.cur.warp) (hform : ok = true)
    (hlen : 1 ≤ fld (a.reg t c) 0 9 ∧ fld (a.reg t c) 0 9 ≤ 729) (hrows : 1 ≤ fld (a.reg t c) 9 9)
    (hcount : fld (a.reg t c) 0 9 * fld (a.reg t c) 9 9 ≤ 1594323) (hmode : o.mode ≠ .up6 ∧ o.mode ≠ .pk6 ∧ o.mode ≠ .sqp)
    (hok : copyOk a o false y) : a.rowCopy o ok t b c form x =
      .go { x with o := o, count := (fld (a.reg t c) 0 9 * fld (a.reg t c) 9 9).toNat, rowLen := (fld (a.reg t c) 0 9).toNat, form := form
                   idxPort := if isPort b then some (b - 216) else none
                   idxs := if isPort b then [] else a.scrTable (coreOf a.cur.warp) (a.reg t b) (fld (a.reg t c) 9 9).toNat } := by
  obtain ⟨hup, hpk, hsq⟩ := hmode
  unfold State.rowCopy
  simp only [hform, hlen, hrows, hcount, hup, hpk, hsq, ne_eq, not_false_eq_true, decide_true, Bool.and_self]
  exact State.cpCheck_go (y := y) hwarp hok nofun nofun nofun

end

/-- Settles O18: each form's own conditions make its checks accept, and the copy is queued. -/
theorem copyIssue : Obligations.CopyIssue := by
  refine ⟨fun h o d a b => ?linear, fun h o d a c => ?strided, fun h o d a b c => ?gather, fun h o d a b c => ?scatter,
    fun h tok tag d a b => ?chunks, fun h tok tag d a b => ?vellum⟩
  case linear =>
    refine .of_copyUnit (fun _ => rfl) (fun _ _ hP => hP.1) fun s act ⟨_, h0, hmax, hok⟩ => ?_
    simp only [h0, hmax, decide_true, Bool.and_self]
    exact State.cpCheck_go rfl hok (fun _ => rfl) (fun _ => rfl) fun _ => rfl
  case strided =>
    refine .of_copyUnit (fun _ => rfl) (fun _ _ hP => hP.1) fun s act ⟨_, hlen, hpos, hcount, hup, hpk, hsq, hok⟩ => ?_
    have hall : (((s.scrTable (coreOf s.cur.warp) (s.reg (s.low act) c) 12).take 4).all fun v => decide (1 ≤ v)) = true := by
      simpa using hpos
    simp only [← List.prod_eq_foldl, hlen, hall, hcount, hup, hpk, hsq, ne_eq, not_false_eq_true, decide_true, Bool.and_self]
    exact State.cpCheck_go rfl hok nofun nofun nofun
  case gather =>
    refine .of_copyUnit (fun _ => rfl) (fun _ _ hP => hP.1) fun s act ⟨_, h1, hmax, hrows, hcount, hup, hpk, hsq, hok⟩ => ?_
    exact State.rowCopy_go rfl rfl ⟨h1, hmax⟩ hrows hcount ⟨hup, hpk, hsq⟩ hok
  case scatter =>
    refine .of_copyUnit (fun _ => rfl) (fun _ _ hP => hP.1) fun s act ⟨_, h1, hmax, hrows, hcount, hup, hpk, hsq, hq, hok⟩ => ?_
    exact State.rowCopy_go rfl (decide_eq_true hq) ⟨h1, hmax⟩ hrows hcount ⟨hup, hpk, hsq⟩ hok
  case chunks =>
    refine .of_copyUnit (u := { srcP := [d, a], srcR := [b] }) (fun _ => rfl) (fun _ _ hP => hP.1) fun s act ⟨_, h1, hmax, hsrc, hdst, hfld⟩ => ?_
    rw [if_neg (by omega), hsrc, hdst]
    exact if_neg (not_not_intro hfld)
  case vellum =>
    refine .of_copyUnit (u := { srcP := [d, a], srcR := [b], level := .sup }) (fun _ => rfl) (fun _ _ hP => hP.1)
      fun s act ⟨_, h1, hmax, hlive, hsrc, hr1, hr2, hr3, hr4⟩ => ?_
    rw [if_neg (by omega), if_neg (by simp [hlive]), hsrc]
    exact if_neg (by simp [hr1, hr2, hr3, hr4])

end Sys2Proof.Machine
end

