-- ==== Sys2Proof/Proofs/ControlForms.lean ====
section
/-! Control registers written, causes cleared, HALT (R396, R397, R406, R408). -/

namespace Sys2Proof.Machine

/-! Rows of R397's table that a write reaches. -/

theorem csrInfo_own {n : Nat} {i : CsrInfo} (hi : csrInfo n = some i) (hn : n ≤ 6) (hw : i.write ≠ .never) :
    i.isPair = true ∧ (n = 1 ∨ n = 2 ∨ n = 5 ∨ n = 6) := by
  unfold csrInfo at hi
  split at hi
  · cases hi; exact absurd rfl hw
  split at hi
  next h => cases hi; exact ⟨rfl, h⟩
  split at hi
  · cases hi; exact absurd rfl hw
  repeat' split at hi
  all_goals omega

section
variable (a : State) (t n : Nat) (v : Int)

theorem State.setCsr_own (hn : n = 1 ∨ n = 2 ∨ n = 5 ∨ n = 6) : a.setCsr t n v = a.setThread t ((a.thread t).putCsr n v) := by
  rcases hn with rfl | rfl | rfl | rfl <;> rfl

/-- A register of no thread's own is written outside the threads. -/
theorem State.setCsr_shared (hn : 6 < n) : (a.setCsr t n v).thr = a.thr ∧ (a.setCsr t n v).cur = a.cur := by
  unfold State.setCsr
  dsimp only
  rw [if_neg (by omega), if_neg (by omega), if_neg (by omega), if_neg (by omega)]
  split
  · exact ⟨rfl, rfl⟩
  split
  · exact ⟨rfl, rfl⟩
  split
  · exact ⟨rfl, rfl⟩
  split <;> exact ⟨rfl, rfl⟩

end

theorem Thread.putCsr_active (x : Thread) (n : Nat) (v : Int) : (x.putCsr n v).st = x.st ∧ (x.putCsr n v).mr = x.mr := by
  unfold Thread.putCsr
  repeat' split
  all_goals exact ⟨rfl, rfl⟩

/-- What retiring writes is not what a control register holds. -/
theorem Thread.retired_putCsr (x : Thread) (n : Nat) (v pc : Int) : (x.putCsr n v).retired pc = (x.retired pc).putCsr n v := by
  unfold Thread.putCsr Thread.retired
  repeat' split
  all_goals rfl

theorem State.faultAll_nil (a : State) (c : Nat) (status : Int) : a.faultAll [] c status = a := rfl

/-- What CSRW does once its group acts (R396): `val` is the written value of a thread, and `wr` the lanes that write. -/
def csrwBody (n : Nat) (val : State → Nat → Int) (act : List Nat) (a : State) : State :=
  let wr := if threadCsr n then act else act.take 1
  let bad := wr.filter (fun l => !csrOk n (val a (threadOf a.cur.warp l)))
  let good := wr.filter (fun l => csrOk n (val a (threadOf a.cur.warp l)))
  let b := (a.curThreads good).foldl (fun x t => x.setCsr t n (val a t)) a
  (b.retireAll (act.filter (fun l => !bad.contains l))).faultAll bad 0 0

/-- With no value out of its register's ranges every lane of the group retires. -/
theorem csrwBody_of_ok {n : Nat} {val : State → Nat → Int} {act wr : List Nat} {a : State} (hwr : (if threadCsr n then act else act.take 1) = wr)
    (hok : ∀ l ∈ wr, csrOk n (val a (threadOf a.cur.warp l)) = true) :
    csrwBody n val act a = ((a.curThreads wr).foldl (fun x t => x.setCsr t n (val a t)) a).retireAll act := by
  have hbad : wr.filter (fun l => !csrOk n (val a (threadOf a.cur.warp l))) = [] := List.filter_eq_nil_iff.mpr fun l hl => by simp [hok l hl]
  have hgood : wr.filter (fun l => csrOk n (val a (threadOf a.cur.warp l))) = wr := List.filter_eq_self.mpr hok
  have hall : act.filter (fun l => !([] : List Nat).contains l) = act := List.filter_eq_self.mpr fun _ _ => rfl
  unfold csrwBody
  dsimp only
  rw [hwr, hbad, hgood, hall, State.faultAll_nil]

section
variable {h : Hdr} {r n : Nat} {i : CsrInfo} (hi : csrInfo n = some i)
include hi

theorem exec_csrw_pair (hpair : i.isPair = true) (s : State) : exec (.csrw h r n) s = .next (s.issue h
    { srcP := [r], level := if i.write = .handler then .handler else .sup, forbid := true } (csrwBody n (fun a t => a.regPair t r))) := by
  change execCsrw h r n s = _
  unfold execCsrw
  rw [hi]
  simp only [hpair, if_true]
  rfl

theorem exec_csrw_word (hpair : i.isPair = false) (s : State) : exec (.csrw h r n) s = .next (s.issue h
    { srcR := [r], level := if i.write = .handler then .handler else .sup, forbid := true } (csrwBody n (fun a t => a.reg t r))) := by
  change execCsrw h r n s = _
  unfold execCsrw
  rw [hi]
  simp only [hpair, Bool.false_eq_true, if_false]
  rfl

end

/-- A register of no thread's own is written once, with the value of the lowest active lane. -/
theorem ActsEnd.of_csrw_shared {ins : Instr} {h : Hdr} {u : Uses} {n : Nat} {val : State → Nat → Int} (hn : 6 < n)
    (hexec : ∀ s, exec ins s = .next (s.issue h u (csrwBody n val))) :
    ActsEnd ins h u (fun s act => csrOk n (val s (s.low act)) = true) ret (fun s act => s.setCsr (s.low act) n (val s (s.low act))) := by
  refine .of hexec fun s hp ha hne hok => ?_
  have hwr : (if threadCsr n then s.active h else (s.active h).take 1) = [(s.active h).headD 0] := by
    rw [threadCsr, if_neg (by simpa using hn)]
    cases hact : s.active h with
    | nil => exact absurd hact hne
    | cons l ls => rfl
  rw [csrwBody_of_ok hwr fun l hl => List.mem_singleton.mp hl ▸ hok]
  obtain ⟨hthr, hcur⟩ := State.setCsr_shared (s.opened h) ((s.opened h).low (s.active h)) n (val (s.opened h) ((s.opened h).low (s.active h))) hn
  exact ha.retireAll hp (hcur.trans ha.cur) hthr

/-- A thread's own register is written in each lane (R396). -/
theorem csrw_own_acts {h : Hdr} {r n : Nat} {i : CsrInfo} (hi : csrInfo n = some i) (hn : n ≤ 6) (hw : i.write ≠ .never) :
    Acts (.csrw h r n) h { srcP := [r], level := if i.write = .handler then .handler else .sup, forbid := true }
      (fun s act => ∀ l ∈ act, csrOk n (s.regPair (s.lane l) r) = true)
      (fun s l x => (x.retired s.cur.next).putCsr n (s.regPair (s.lane l) r)) (fun s _ => s) := by
  obtain ⟨hpair, hown⟩ := csrInfo_own hi hn hw
  refine .of_rests (exec_csrw_pair hi hpair) (fun a l x hx => ?keeps) fun s hp ha hok => ⟨.refl _, ?_⟩
  case keeps =>
    obtain ⟨hst, hmr⟩ := (x.retired a.cur.next).putCsr_active n (a.regPair (a.lane l) r)
    rw [Thread.active, hst, hmr]
    exact ⟨.inl rfl, rfl⟩
  have hwr : (if threadCsr n then s.active h else (s.active h).take 1) = s.active h := if_pos (decide_eq_true hn)
  rw [csrwBody_of_ok (val := fun a t => a.regPair t r) hwr hok]
  have hset : Done (((s.opened h).curThreads (s.active h)).foldl (fun x t => x.setCsr t n ((s.opened h).regPair t r)) (s.opened h)) (s.active h)
      (fun l x => x.putCsr n ((s.opened h).regPair ((s.opened h).lane l) r)) (s.opened h) :=
    fold_lanes (active_nodup hp) fun _ _ _ _ _ => State.setCsr_own _ _ _ _ hown
  have hlive : ∀ l ∈ s.active h, (((s.opened h).thread ((s.opened h).lane l)).putCsr n ((s.opened h).regPair ((s.opened h).lane l) r)).active := fun l hl => by
    rw [Thread.active, (Thread.putCsr_active ..).1, ha.lane]
    exact ha.live hp hl
  have hdone := hset.retireAll (active_nodup hp) (ha.not_scribe hp) (hp.active_lt h) hlive
  simpa only [Thread.retired_putCsr] using hdone

theorem clrc_acts (h : Hdr) (mask : Int) : Acts (.clrc h mask) h { level := .handler, forbid := true } always
    (fun s _ x => { x.retired s.cur.next with cause := (List.range 27).foldl (fun v i => if trit mask i = 1 then setFld v i 1 0 else v) x.cause })
    (fun s _ => s) := by
  refine .of_rests (fun _ => rfl) (fun _ _ _ _ => ⟨.inl rfl, rfl⟩) fun s hp ha _ => ⟨.refl _, ?_⟩
  refine fold_lanes (active_nodup hp) fun a l hl _ hk => ?_
  have hwid : widOf (warpOf ((s.opened h).lane l)) ≠ 27 := by
    rw [State.lane, threadOf_warp (hp.active_lt h l hl)]
    exact ha.not_scribe hp
  have hst : (a.thread ((s.opened h).lane l)).st ≠ .stopped := by
    rw [hk, ha.lane]
    rcases ha.live hp hl with e | e <;> rw [e] <;> decide
  dsimp only
  rw [State.retire_eq _ _ _ hwid hst, State.thread_setThread_self, State.setThread_setThread]
  rfl

/-- HALT once its warp's level admits it (R408). -/
def haltBody (act : List Nat) (a : State) : State :=
  if [13, 15, 16, 17].any (fun q => !(a.port (coreOf a.cur.warp) q).isEmpty) then a.retireAll act else a.waitAll act (.timed false)

/-- Settles O19: the lanes write their own registers, the lowest one a register that they share, and HALT looks at its core's ports. -/
theorem controlWrites : Obligations.ControlWrites := by
  refine ⟨fun h a n i hi hn hw => csrw_own_acts hi hn hw, fun h a n i hi hn hpair _ => .of_csrw_shared (val := fun x t => x.regPair t a) hn (exec_csrw_pair hi hpair),
    fun h a n i hi hn hpair _ => .of_csrw_shared (val := fun x t => x.reg t a) hn (exec_csrw_word hi hpair), clrc_acts, fun h => ?retires, fun h => ?waits⟩
  case retires =>
    refine .retires_of_stands (body := haltBody) (fun _ => rfl) fun s _ _ ⟨q, hq, hport⟩ => ⟨.refl _, if_pos ?_⟩
    exact List.any_eq_true.mpr ⟨q, hq, by simpa using hport⟩
  case waits =>
    refine .of_rests (body := haltBody) (fun _ => rfl) (wait_keeps _) fun s hp ha hports => ⟨.refl _, ?_⟩
    rw [haltBody, if_neg]
    · exact ha.waitAll hp ha.cur rfl
    · rw [List.any_eq_true]
      rintro ⟨q, hq, hne⟩
      simp [hports q hq] at hne

end Sys2Proof.Machine
end

