-- ==== Sys2Proof/Proofs/SupervisorStops.lean ====
section
/-! A lane that its own unit stops against the statements of ContextControl and DenyAndLaunch: where a save or a kill reaches the warp that
asks for it, the lane retires as a stopped thread does (R66, R410), and the statements have it runnable. -/

namespace Sys2Proof.Machine

/-- A form whose one lane retires leaves it runnable, also at its unit's end, when nothing is due in its warp. -/
theorem ActsEnd.runnable {i : Instr} {h : Hdr} {u : Uses} {P : State → List Nat → Prop} {d : State → Nat → Thread → Thread}
    {G : State → List Nat → State} {s : State} (hacts : ActsEnd i h u P d G)
    (hd : ∀ x, (d (s.opened h) 0 x).st = .runnable ∧ (d (s.opened h) 0 x).pend = x.pend) (hp : Plain s) (hl : Legal s h u) (hactive : s.active h = [0]) (hP : P (s.opened h) [0])
    (hlane : (G (s.opened h) [0]).lane 0 = s.lane 0) (hlane_mem : s.lane 0 ∈ threadsOf s.cur.warp)
    (hstep : trit ((G (s.opened h) [0]).ctx ((G (s.opened h) [0]).warp s.cur.warp).ctx).dbg 0 ≠ 1)
    (hcalm : ∀ k ∈ threadsOf s.cur.warp, ((G (s.opened h) [0]).thread k).pend = none ∧ ((G (s.opened h) [0]).thread k).st ≠ .held) :
    ∃ b, exec i s = .next b ∧ (b.thread (s.lane 0)).st = .runnable := by
  obtain ⟨b, hb, hexec⟩ := hacts s hp hl fun _ => hactive ▸ hP
  rw [hactive, if_neg (List.cons_ne_nil 0 [])] at hb
  have hon : b.thread (s.lane 0) = d (s.opened h) 0 ((G (s.opened h) [0]).thread (s.lane 0)) := by
    have := hb.on 0 (List.mem_singleton_self 0)
    rwa [hlane] at this
  have hend : s.unitEnd b = b := by
    refine State.unitEnd_eq_of_calm ?step (fun k hk => ?threads) ⟨s.lane 0, hlane_mem, by rw [hon, (hd _).1]; exact nofun⟩
    case step => rw [hb.rest]; exact hstep
    case threads =>
      by_cases hk0 : k = s.lane 0
      · rw [hk0, hon]
        exact ⟨(hd _).2.trans (hcalm _ hlane_mem).1, by rw [(hd _).1]; exact nofun⟩
      · rw [hb.others k fun l hl => by rwa [List.mem_singleton.mp hl, hlane]]
        exact hcalm k hk
  exact ⟨b, hexec.trans (congrArg Host.Outcome.next hend), by rw [hon, (hd _).1]⟩

/-! PREEMPT of a block that stands on the core which asks for its save. -/

/-- PREEMPT of the context whose number is in register 0. -/
def ownCorePreempt : Instr := .preempt plainHdr 0

/-- What `ownCorePreempt` uses. -/
def ownCorePreemptUses : Uses := { srcR := [0], level := .sup, forbid := true }

/-- Lane 0 of a supervisor's warp issues `ownCorePreempt` on core 0, where the only block of context 1 is placed. -/
def blockOnOwnCore : State :=
  { State.reset with
    wrp := [(0, { ctx := 28 })], thr := [(0, { st := .runnable, regs := [(0, 1)] })],
    ctxs := [(1, { live := true, lr := { blocks := 1 }, blk := [(0, .placed 0)], savebase := pow3 53 - half 12 }), (28, { live := true })]
    cur := { warp := 0, lanes := [0] } }

theorem plain_blockOnOwnCore : Plain blockOnOwnCore where
  some_ := by decide
  nodup := by decide
  lane := by decide
  live := by decide
  wid := by decide
  going := by decide
  undrafted := by decide
  nostep := by decide
  nomeet := by decide

theorem legal_blockOnOwnCore : Legal blockOnOwnCore plainHdr ownCorePreemptUses := ⟨rfl, rfl, rfl⟩

/-- The save stops the lane that asks for it. -/
theorem ownCorePreempt_stops : ∃ b, exec ownCorePreempt blockOnOwnCore = .next b ∧ (b.thread 0).st = .stopped :=
  ⟨_, rfl, by decide +kernel⟩

/-- Refutes O21: a block of the named context stands on the core that issues PREEMPT, whose lane stops with the block's warps, and the
statement has it retire as a runnable thread. -/
theorem not_contextControl : ¬ Obligations.ContextControl := by
  rintro ⟨-, hpreempt, -⟩
  obtain ⟨b, hexec, hst⟩ := (hpreempt plainHdr 0).runnable (s := blockOnOwnCore) (fun _ => ⟨rfl, rfl⟩) plain_blockOnOwnCore legal_blockOnOwnCore rfl
    ⟨1, by decide +kernel, by decide +kernel, by decide +kernel⟩ rfl (by decide) (by decide +kernel) (by decide +kernel)
  obtain ⟨c, hexec', hstopped⟩ := ownCorePreempt_stops
  obtain rfl : c = b := Host.Outcome.next.inj (hexec'.symm.trans hexec)
  exact absurd (hst.symm.trans hstopped) (by decide)

end Sys2Proof.Machine
end

