-- ==== Sys2Proof/Proofs/DenyStops.lean ====
section
/-! The supervisor's own record write against the statement of DenyAndLaunch: DENY answers it too (R413, R433), its save is abandoned, and the
warp that issued DENY stops with its context. -/

namespace Sys2Proof.Machine

/-- DENY of the page at the address in registers 2 and 3 to the context whose number is in register 0. -/
def ownRecordDeny : Instr := .deny plainHdr 0 2

/-- What `ownRecordDeny` uses. -/
def ownRecordDenyUses : Uses := { srcR := [0], srcP := [2], level := .sup, forbid := true }

/-- Lane 0 of a supervisor's warp issues `ownRecordDeny` for the page that a record write of its own context waits for. -/
def supervisorRecordWaits : State :=
  { State.reset with
    wrp := [(0, { ctx := 28 })], thr := [(0, { st := .runnable, regs := [(0, 1), (2, loW (devAddr 0 0)), (3, hiW (devAddr 0 0))] })],
    ctxs := [(1, { live := true }), (28, { live := true, recPark := [(0, devAddr 0 0)] })], cur := { warp := 0, lanes := [0] } }

theorem plain_supervisorRecordWaits : Plain supervisorRecordWaits where
  some_ := by decide
  nodup := by decide
  lane := by decide
  live := by decide
  wid := by decide
  going := by decide
  undrafted := by decide
  nostep := by decide
  nomeet := by decide

theorem legal_supervisorRecordWaits : Legal supervisorRecordWaits plainHdr ownRecordDenyUses := ⟨rfl, rfl, rfl⟩

/-- The abandoned save ends the supervisor's context, and the lane stops. -/
theorem ownRecordDeny_stops : ∃ b, exec ownRecordDeny supervisorRecordWaits = .next b ∧ (b.thread 0).st = .stopped :=
  ⟨_, rfl, by decide +kernel⟩

/-- Refutes O22: DENY of a page that a record write of the supervisor's own context waits for stops the lane that issues it, and the
statement has the lane retire as a runnable thread. -/
theorem not_denyAndLaunch : ¬ Obligations.DenyAndLaunch := by
  rintro ⟨hdeny, -⟩
  obtain ⟨b, hexec, hst⟩ := (hdeny plainHdr 0 2).runnable (s := supervisorRecordWaits) (fun _ => ⟨rfl, rfl⟩) plain_supervisorRecordWaits
    legal_supervisorRecordWaits rfl ⟨by decide +kernel, by decide +kernel, by decide +kernel⟩ rfl (by decide) (by decide +kernel) (by decide +kernel)
  obtain ⟨c, hexec', hstopped⟩ := ownRecordDeny_stops
  obtain rfl : c = b := Host.Outcome.next.inj (hexec'.symm.trans hexec)
  exact absurd (hst.symm.trans hstopped) (by decide)

end Sys2Proof.Machine
end

