-- ==== Sys2Proof/Proofs/TrapReturns.lean ====
section
/-! TRET and EXIT (R269, R406): what the last TRET leaves in the warp, and what a thread's end drops. -/

namespace Sys2Proof.Machine

/-! What the opening of a unit leaves of a thread. -/

section
variable {s : State} {h : Hdr}

/-- The opening of a unit changes neither a thread's place in the handler nor what it is to raise, and ends no thread's life. -/
theorem Plain.opened_handler (hp : Plain s) (t : Nat) : ((s.opened h).thread t).inH = (s.thread t).inH ∧
    ((s.opened h).thread t).tret = (s.thread t).tret ∧ ((s.opened h).thread t).pend = (s.thread t).pend ∧
    (((s.opened h).thread t).st = .exited ↔ (s.thread t).st = .exited) := by
  have ha := hp.start_opened h
  by_cases ht : ∃ l ∈ s.cur.lanes, t = s.lane l
  · obtain ⟨l, hl, rfl⟩ := ht
    have hlive : (s.thread (s.lane l)).st ≠ .exited := by
      rcases hp.live l hl with e | e <;> rw [State.lane, e] <;> decide
    by_cases hon : s.laneOn h (s.lane l) = true
    · rw [ha.on l hl hon]
      exact ⟨rfl, rfl, rfl, Iff.rfl⟩
    · rw [ha.off l hl (by simpa using hon)]
      exact ⟨rfl, rfl, rfl, by simp [hlive, Thread.retired]⟩
  · rw [ha.others t fun l hl heq => ht ⟨l, hl, heq⟩]
    exact ⟨rfl, rfl, rfl, Iff.rfl⟩

end

/-! TRET. -/

/-- A lane that has executed TRET (R406). -/
def Thread.treturns (x : Thread) : Thread := { x with st := .waiting, wait := .tret, tret := true }

/-- A thread as the warp leaves its handler (R406). -/
def Thread.leaves (x : Thread) : Thread :=
  if x.st = .exited then x
  else if x.inH then { x with pc := wrap x.epc 52, mr := wrap x.emr 52, st := .runnable, inH := false, tret := false, wait := .none_ }
  else if x.st = .stopped then { x with st := x.prior } else x

theorem Thread.treturns_leaves {x : Thread} (hactive : x.active) (hin : x.inH = true) : x.treturns.leaves = x.leaves := by
  have hst : x.st ≠ .exited := by rcases hactive with e | e <;> rw [e] <;> decide
  simp [Thread.leaves, Thread.treturns, hst, hin]

theorem Thread.leaves_pend (x : Thread) : x.leaves.pend = x.pend := by
  unfold Thread.leaves
  repeat' split
  all_goals rfl

/-- The warp's threads leave the handler. -/
def State.leaveLanes (s : State) (w : Nat) : State :=
  (threadsOf w).foldl (fun a t =>
    let y := a.thread t
    if y.st = .exited then a
    else if y.inH then
      let b := a.setThread t { y with pc := wrap y.epc 52, mr := wrap y.emr 52, st := .runnable, inH := false, tret := false, wait := .none_ }
      if widOf w = 27 then b.retire t (wrap y.epc 52) else b
    else if y.st = .stopped then a.setThread t { y with st := y.prior }
    else a) s

/-- The warp at user level again (R406), before what its threads' return makes due. -/
def State.left (s : State) (w : Nat) : State :=
  (s.leaveLanes w).setWarp w { (s.leaveLanes w).warp w with
    pl := if isSup (s.warp w).ctx then (s.warp w).pl else -1, hm := false, stopping := !((s.leaveLanes w).raisers w).isEmpty }

theorem State.leave_eq (s : State) (w : Nat) : s.leave w = ((s.left w).meet w).settle w := rfl

theorem State.leaveLanes_spec (s : State) {w : Nat} (hwid : widOf w ≠ 27) : s.leaveLanes w = { s with thr := (s.leaveLanes w).thr } ∧
    ∀ k, (s.leaveLanes w).thread k = if k ∈ threadsOf w then (s.thread k).leaves else s.thread k := by
  refine fold_threads_read s _ Thread.leaves (threadsOf w) (nodup_threadsOf w) fun a t _ => ?_
  have hset (y : Thread) (hy : (a.thread t).leaves = y) (k : Nat) :
      (a.setThread t y).thread k = if k = t then (a.thread k).leaves else a.thread k := by
    rw [State.thread_setThread]
    split
    next hk => rw [hk, hy]
    next => rfl
  have hstay (hy : (a.thread t).leaves = a.thread t) (k : Nat) : a.thread k = if k = t then (a.thread k).leaves else a.thread k := by
    split
    next hk => rw [hk, hy]
    next => rfl
  dsimp only
  rw [if_neg hwid]
  unfold Thread.leaves at hset hstay ⊢
  split
  next hst => exact ⟨rfl, hstay (if_pos hst)⟩
  next hst =>
    rw [if_neg hst] at hset hstay
    split
    next hin => exact ⟨rfl, hset _ (if_pos hin)⟩
    next hin =>
      rw [if_neg hin] at hset hstay
      split
      next hstop => exact ⟨rfl, hset _ (if_pos hstop)⟩
      next hstop => exact ⟨rfl, hstay (if_neg hstop)⟩

theorem State.setWarp_rest {a y : State} (h : y = { a with thr := y.thr }) (w : Nat) (x : Warp) :
    y.setWarp w x = { a with thr := (y.setWarp w x).thr, wrp := (y.setWarp w x).wrp } := by
  obtain ⟨th, rfl⟩ : ∃ th, y = { a with thr := th } := ⟨_, h⟩
  rfl

/-- A warp of whose threads none has anything to raise leaves its handler. -/
theorem State.left_spec {s : State} {w : Nat} (hwid : widOf w ≠ 27) (hraise : s.raisers w = []) :
    (∀ k, (s.left w).thread k = if k ∈ threadsOf w then (s.thread k).leaves else s.thread k) ∧
    (∀ v, (s.left w).warp v = if v = w then { s.warp v with pl := if isSup (s.warp v).ctx then (s.warp v).pl else -1, hm := false, stopping := false }
      else s.warp v) ∧ s.left w = { s with thr := (s.left w).thr, wrp := (s.left w).wrp } := by
  obtain ⟨hrest, hthread⟩ := s.leaveLanes_spec hwid
  have hwarp : ∀ v, (s.leaveLanes w).warp v = s.warp v := State.warp_congr (by rw [hrest])
  have hnone : (s.leaveLanes w).raisers w = [] := by
    rw [State.raisers_eq_nil] at hraise ⊢
    intro k hk
    rw [hthread, if_pos hk, Thread.leaves_pend]
    exact hraise k hk
  refine ⟨fun k => by rw [State.left, State.thread_setWarp, hthread], fun v => ?_, ?_⟩
  · rw [State.left, State.warp_setWarp, hnone, hwarp]
    split
    next hv => rw [hv]; rfl
    next => exact hwarp v
  · exact State.setWarp_rest hrest w _

section
variable {s : State} {h : Hdr}

/-- The active lanes execute TRET. -/
def State.treturnAll (act : List Nat) (a : State) : State :=
  (a.curThreads act).foldl (fun a t =>
    let b := a.waitLane t .tret
    b.setThread t { b.thread t with tret := true }) a

/-- TRET in a handler (R406). -/
def tretBody (act : List Nat) (a : State) : State :=
  if !(a.warp a.cur.warp).hm then a.faultAll act 0 0
  else if (State.treturnAll act a).allReturn a.cur.warp then (State.treturnAll act a).leave a.cur.warp else State.treturnAll act a

theorem Start.treturnAll (hp : Plain s) (ha : Start s (s.opened h) h) :
    Done (State.treturnAll (s.active h) (s.opened h)) (s.active h) (fun _ => Thread.treturns) (s.opened h) := by
  refine fold_lanes (active_nodup hp) fun a l hl _ hk => ?_
  have hst : (a.thread ((s.opened h).lane l)).st ≠ .stopped := by
    rw [hk, ha.lane]
    rcases ha.live hp hl with e | e <;> rw [e] <;> decide
  simp only [State.waitLane, if_neg hst, State.thread_setThread_self, State.setThread_setThread]
  rfl

/-- With TRET in every active lane the handler's last threads have executed it. -/
theorem Start.treturnAll_allReturn (hp : Plain s) (ha : Start s (s.opened h) h) (hm : (s.warp s.cur.warp).hm = true) (hne : s.active h ≠ [])
    (hin : ∀ l ∈ s.active h, (s.thread (s.lane l)).inH = true)
    (hall : ∀ t ∈ threadsOf s.cur.warp, (s.thread t).inH = true → (∃ l ∈ s.active h, t = s.lane l) ∨ (s.thread t).tret = true ∨ (s.thread t).st = .exited) :
    (State.treturnAll (s.active h) (s.opened h)).allReturn s.cur.warp = true := by
  have hdone := ha.treturnAll hp
  have hwarp : (State.treturnAll (s.active h) (s.opened h)).warp s.cur.warp = s.warp s.cur.warp := by rw [hdone.rest, ha.rest]; rfl
  have hon : ∀ l ∈ s.active h, (State.treturnAll (s.active h) (s.opened h)).thread (s.lane l) = ((s.opened h).thread (s.lane l)).treturns := fun l hl => by
    simpa only [ha.lane] using hdone.on l hl
  simp only [State.allReturn, hwarp, hm, Bool.true_and, Bool.and_eq_true, List.any_eq_true, List.all_eq_true, Bool.or_eq_true, Bool.not_eq_true',
    decide_eq_true_eq]
  constructor
  · obtain ⟨l, hl⟩ := List.exists_mem_of_ne_nil _ hne
    refine ⟨s.lane l, mem_threadsOf.2 ⟨l, hp.active_lt h l hl, rfl⟩, ?_, ?_⟩ <;> rw [hon l hl]
    · exact (hp.opened_handler _).1.trans (hin l hl)
    · rfl
  · intro t ht
    by_cases hl : ∃ l ∈ s.active h, t = s.lane l
    · obtain ⟨l, hl, rfl⟩ := hl
      exact .inl (.inr (by rw [hon l hl]; rfl))
    · obtain ⟨hinH, htret, -, hexit⟩ := hp.opened_handler (h := h) t
      rw [hdone.others t fun l hl' heq => hl ⟨l, hl', heq.trans (ha.lane l)⟩, hinH, htret, hexit]
      cases hb : (s.thread t).inH with
      | false => exact .inl (.inl rfl)
      | true => rcases hall t ht hb with h' | h' | h'
                · exact absurd h' hl
                · exact .inl (.inr h')
                · exact .inr h'

end

/-! EXIT. -/

theorem State.endThread_eq {a : State} {t : Nat} (hkept : (a.thread t).kept = none) :
    a.endThread t = { a.setWarp (warpOf t) { a.warp (warpOf t) with owed := (a.warp (warpOf t)).owed.filter (fun o => decide (o.thr ≠ t)) } with
      thr := Tab.del t a.thr } := by
  have hdrop : a.dropKept t = a := by rw [State.dropKept]; simp only [hkept]
  rw [State.endThread, hdrop]

/-- Some threads of a warp end. -/
theorem foldl_endThread {w : Nat} {ts : List Nat} (hne : ts ≠ []) (hnodup : ts.Nodup) (hw : ∀ t ∈ ts, warpOf t = w) (a : State)
    (hkept : ∀ t ∈ ts, (a.thread t).kept = none) :
    ts.foldl State.endThread a = { a.setWarp w { a.warp w with owed := (a.warp w).owed.filter (fun o => !ts.contains o.thr) } with
      thr := (ts.foldl State.endThread a).thr } ∧ ∀ k, (ts.foldl State.endThread a).thread k = if k ∈ ts then {} else a.thread k := by
  induction ts generalizing a with
  | nil => exact absurd rfl hne
  | cons t ts ih =>
    obtain ⟨ht, hnodup⟩ := List.nodup_cons.mp hnodup
    have heq := State.endThread_eq (hkept t List.mem_cons_self)
    rw [hw t List.mem_cons_self] at heq
    have hthread : ∀ k, (a.endThread t).thread k = if k = t then {} else a.thread k := fun k => by
      rw [heq]
      exact Tab.get_del ..
    have hkeptOf : ∀ o : Owed, (!(t :: ts).contains o.thr) = (!ts.contains o.thr && decide (o.thr ≠ t)) := fun o => by
      by_cases ho : o.thr = t <;> simp [ho]
    by_cases hnil : ts = []
    · subst hnil
      refine ⟨?_, fun k => (hthread k).trans (by simp)⟩
      simp only [List.foldl_cons, List.foldl_nil, hkeptOf]
      rw [heq]
      simp
    · have hwarp : (a.endThread t).warp w = { a.warp w with owed := (a.warp w).owed.filter (fun o => decide (o.thr ≠ t)) } := by
        rw [heq]
        exact State.warp_setWarp_self ..
      obtain ⟨hrest, hon⟩ := ih hnil hnodup (fun u hu => hw u (List.mem_cons_of_mem t hu)) (a.endThread t) fun u hu => by
        rw [hthread, if_neg (ne_of_mem_of_not_mem hu ht)]
        exact hkept u (List.mem_cons_of_mem t hu)
      refine ⟨?_, fun k => ?_⟩
      · rw [List.foldl_cons, hrest, hwarp]
        simp only [List.filter_filter, hkeptOf]
        rw [heq]
        simp only [State.setWarp, Tab.put_put]
      · rw [List.foldl_cons, hon, hthread]
        by_cases hk : k = t
        · simp [hk]
        · simp [hk]

/-- A barrier without an arrival is as it was. -/
theorem State.noteArr_of_empty {a : State} {w k : Nat} {l : Level} (h : (a.bar l (a.barKey l w) k).arr = []) : a.noteArr w l k = a := by
  rw [State.noteArr]
  simp only [h, List.isEmpty_nil, if_true]

theorem State.noteExit_of_empty {a : State} {w : Nat}
    (h : ∀ l ∈ [Level.block, .cluster, .die, .domain], ∀ k, k < 9 → (a.bar l (a.barKey l w) k).arr = []) : a.noteExit w = a := by
  have hfix {α : Type} (F : State → α → State) (xs : List α) (hF : ∀ x ∈ xs, F a x = a) : xs.foldl F a = a := by
    induction xs with
    | nil => rfl
    | cons x xs ih => rw [List.foldl_cons, hF x List.mem_cons_self, ih fun y hy => hF y (List.mem_cons_of_mem x hy)]
  refine hfix _ _ fun l hl => ?_
  split
  · rfl
  · exact hfix _ _ fun k hk => State.noteArr_of_empty (h l hl k (List.mem_range.mp hk))

/-- EXIT once its lanes are known (R269). -/
def exitBody (act : List Nat) (a : State) : State :=
  if (((a.curThreads act).foldl State.endThread a).noteExit a.cur.warp).allReturn a.cur.warp then
    (((a.curThreads act).foldl State.endThread a).noteExit a.cur.warp).leave a.cur.warp
  else ((a.curThreads act).foldl State.endThread a).noteExit a.cur.warp

section
variable {s : State} {h : Hdr}

/-- The active lanes' threads end, and what is owed to them is dropped. -/
theorem Start.endThreads (hp : Plain s) (ha : Start s (s.opened h) h) (hne : s.active h ≠ [])
    (hkept : ∀ l ∈ s.active h, (s.thread (s.lane l)).kept = none) :
    Done (((s.opened h).curThreads (s.active h)).foldl State.endThread (s.opened h)) (s.active h) (fun _ _ => {})
      ((s.opened h).setWarp s.cur.warp { s.warp s.cur.warp with
        owed := (s.warp s.cur.warp).owed.filter (fun o => !((s.active h).map s.lane).contains o.thr) }) := by
  have hts : (s.opened h).curThreads (s.active h) = (s.active h).map s.lane := by rw [State.curThreads, ha.cur]; rfl
  have hopened : ∀ l ∈ s.active h, (s.opened h).thread (s.lane l) = s.atIssue l := fun l hl =>
    ha.on l (State.mem_active hl).1 (List.mem_filter.mp hl).2
  obtain ⟨hrest, hon⟩ := foldl_endThread (w := s.cur.warp) (ts := (s.active h).map s.lane) (by simpa using hne)
    (nodup_map_threadOf (active_nodup hp)) (fun t ht => by
      obtain ⟨l, hl, rfl⟩ := List.mem_map.mp ht
      exact threadOf_warp (hp.active_lt h l hl)) (s.opened h) (fun t ht => by
      obtain ⟨l, hl, rfl⟩ := List.mem_map.mp ht
      rw [hopened l hl]
      exact hkept l hl)
  have hlane (x : Warp) (l : Nat) : ((s.opened h).setWarp s.cur.warp x).lane l = s.lane l := ha.lane l
  rw [hts]
  refine ⟨by rw [hrest, ha.warp], fun l hl => ?_, fun k hk => ?_⟩
  · rw [hlane, hon, if_pos (List.mem_map_of_mem hl)]
  · rw [hon, if_neg]
    · rfl
    · intro hmem
      obtain ⟨l, hl, rfl⟩ := List.mem_map.mp hmem
      exact hk l hl (hlane _ l).symm

end

/-- Settles O29: the last TRET of a handler takes the warp out of it, and EXIT ends its lanes' threads. -/
theorem trapReturn : Obligations.TrapReturn := by
  refine ⟨fun h s hp hl hm hne hin hraise hall => ?tret, fun h s hp hl hP => ?exit⟩
  case tret =>
    have ha := hp.start_opened h
    obtain ⟨a, -, ⟨rfl, -⟩, hissue⟩ := State.issue_plain hp hl tretBody
    have hexec : exec (.tret h) s = .next (s.unitEnd (tretBody (s.active h) (s.opened h))) := by
      rw [if_neg hne] at hissue
      exact congrArg Host.Outcome.next hissue
    have hdone := ha.treturnAll hp
    have hret := ha.treturnAll_allReturn hp hm hne hin hall
    have hraise' : (State.treturnAll (s.active h) (s.opened h)).raisers s.cur.warp = [] := by
      rw [State.raisers_eq_nil] at hraise ⊢
      intro t ht
      have hpend : ((s.opened h).thread t).pend = none := (hp.opened_handler t).2.2.1.trans (hraise t ht)
      by_cases hl : ∃ l ∈ s.active h, t = (s.opened h).lane l
      · obtain ⟨l, hl, rfl⟩ := hl
        rw [hdone.on l hl]
        exact hpend
      · rw [hdone.others t fun l hl' heq => hl ⟨l, hl', heq⟩]
        exact hpend
    obtain ⟨hthread, hwarp, hrest⟩ := State.left_spec hp.wid hraise'
    refine ⟨(State.treturnAll (s.active h) (s.opened h)).left s.cur.warp, ?_, fun t ht => ?_, fun t ht => ?_, fun v => ?_, ?_⟩
    · rw [hexec, tretBody, ha.cur, ha.warp, hm, hret]
      simp only [Bool.not_true, Bool.false_eq_true, if_false, if_true, State.leave_eq]
    · rw [hthread, if_pos ht]
      by_cases hl : ∃ l ∈ s.active h, t = (s.opened h).lane l
      · obtain ⟨l, hl, rfl⟩ := hl
        rw [hdone.on l hl, Thread.treturns_leaves (by rw [ha.lane]; exact ha.live hp hl)
          ((hp.opened_handler _).1.trans (by rw [ha.lane]; exact hin l hl))]
        rfl
      · rw [hdone.others t fun l hl' heq => hl ⟨l, hl', heq⟩]
        rfl
    · have hout : ∀ l ∈ s.cur.lanes, t ≠ s.lane l := fun l hl heq => ht (mem_threadsOf.2 ⟨l, hp.lane l hl, heq⟩)
      rw [hthread, if_neg ht, hdone.others t fun l hl => by rw [ha.lane]; exact hout l (State.mem_active hl).1, ha.others t hout]
    · have hsame : ∀ v, (State.treturnAll (s.active h) (s.opened h)).warp v = s.warp v := fun v => by rw [hdone.rest, ha.rest]; rfl
      rw [hwarp, hsame]
    · rw [hrest, hdone.rest, ha.rest]
  case exit =>
    have ha := hp.start_opened h
    obtain ⟨a, -, ⟨rfl, hquiet⟩, hissue⟩ := State.issue_plain hp hl exitBody
    have hexec : exec (.exit h) s = .next (s.issue h { forbid := true } exitBody) := rfl
    by_cases hne : s.active h = []
    · refine ⟨s.opened h, by rw [if_pos hne], ?_⟩
      rw [hexec, hissue, if_pos hne, if_neg (fun hc => hc.1 hne), State.unitEnd, hquiet]
    · obtain ⟨hbars, hkept⟩ := hP hne
      have hdone := ha.endThreads hp hne hkept
      generalize hb : ((s.opened h).curThreads (s.active h)).foldl State.endThread (s.opened h) = b at hdone
      have hsame : ∀ v, ((b.warp v).ctx, (b.warp v).bid) = ((s.warp v).ctx, (s.warp v).bid) := fun v => by
        rw [hdone.rest]
        change ((((s.opened h).setWarp _ _).warp v).ctx, (((s.opened h).setWarp _ _).warp v).bid) = _
        rw [State.warp_setWarp]
        split
        next hv => rw [hv]
        next => rw [ha.warp]
      have hnote : b.noteExit s.cur.warp = b := State.noteExit_of_empty fun l hl k hk => by
        have hbar := hbars l hl k hk
        have hctx := congrArg Prod.fst (hsame s.cur.warp)
        have hkey : b.barKey l s.cur.warp = (s.opened h).barKey l s.cur.warp := by
          have hctx' : (b.warp s.cur.warp).ctx = ((s.opened h).warp s.cur.warp).ctx := hctx.trans (by rw [ha.warp])
          unfold State.barKey State.launchOf
          rw [hctx', hdone.rest]
          rfl
        rw [hkey, hdone.rest]
        exact hbar
      refine ⟨b, by rw [if_neg hne]; exact hdone, ?_⟩
      rw [hexec, hissue, if_neg hne, exitBody, ha.cur, hb, hnote]
      simp only [ne_eq, hne, not_false_eq_true, true_and]
      rfl

end Sys2Proof.Machine
end

