-- ==== Sys2Proof/Proofs/ScribeStops.lean ====
section
/-! A claim that waits behind the Scribe's against the statement of ScribeForms: SCRH.stop gives up the program that is being loaded, the next
claim is then looked at (R76), and one that asks for more registers than a warp may have traps in its lanes, whose warp may be the one that
issued SCRH.stop. -/

namespace Sys2Proof.Machine

/-- SCRH.stop with its status in register 0. -/
def stopLoading : Instr := .scrhStop plainHdr 0

/-- What `stopLoading` uses. -/
def stopLoadingUses : Uses := { dstR := [0], forbid := true }

/-- Lane 0 issues `stopLoading` while its core loads a Scribe program; lane 1 waits in RCLAIM for 24 granules, and their warp has one. -/
def claimBehindScribe : State :=
  { State.reset with
    wrp := [(0, { n := 9 })], thr := [(0, { st := .runnable }), (1, { st := .waiting, wait := .claim })], ctxs := [(0, { tvec := 1 })],
    cor := [(0, { scribe := { state := 1 }, claims := [{ by_ := .warp 0 24 [1], words := 0 }] })], cur := { warp := 0, lanes := [0] } }

theorem plain_claimBehindScribe : Plain claimBehindScribe where
  some_ := by decide
  nodup := by decide
  lane := by decide
  live := by decide
  wid := by decide
  going := by decide
  undrafted := by decide
  nostep := by decide
  nomeet := by decide

theorem legal_claimBehindScribe : Legal claimBehindScribe plainHdr stopLoadingUses := ⟨rfl, rfl, rfl⟩

/-- Lane 1 enters the handler, and lane 0 stops with the rest of the warp. -/
theorem stopLoading_stops : ∃ b, exec stopLoading claimBehindScribe = .next b ∧ (b.thread 0).st = .stopped :=
  ⟨_, rfl, by decide +kernel⟩

/-- Refutes O33: the claim that SCRH.stop lets come to its turn traps in another lane of the warp, whose entry stops the lane that issues
SCRH.stop, and the statement has that lane retire as a runnable thread. -/
theorem not_scribeForms : ¬ Obligations.ScribeForms := by
  rintro ⟨⟨-, hstop⟩, -⟩
  obtain ⟨b, hexec, hst⟩ := (hstop plainHdr 0).runnable (s := claimBehindScribe) (fun _ => ⟨rfl, rfl⟩) plain_claimBehindScribe
    legal_claimBehindScribe rfl trivial rfl (by decide) (by decide +kernel) (by decide +kernel)
  obtain ⟨c, hexec', hstopped⟩ := stopLoading_stops
  obtain rfl : c = b := Host.Outcome.next.inj (hexec'.symm.trans hexec)
  exact absurd (hst.symm.trans hstopped) (by decide)

end Sys2Proof.Machine
end

