-- ==== Sys2Proof/Proofs/KilledTraps.lean ====
section
/-! A kill against the statement of Traps: no trap of a context that is being killed is delivered (R415), and the statement has the warp enter its
handler. -/

namespace Sys2Proof.Machine

/-- Thread 0 of warp 0 has met BREAK, and its warp's context, which has a handler, is being killed. -/
def trapInKilled : State :=
  { State.reset with
    wrp := [(0, { stopping := true })], thr := [(0, { st := .runnable, pend := some { cause := 2, pc := 0 } })],
    ctxs := [(0, { tvec := 1, killing := true })] }

theorem raisersLive_trapInKilled : trapInKilled.raisersLive 0 := by
  unfold State.raisersLive
  decide +kernel

/-- Nothing is delivered. -/
theorem exec_trapEntry_trapInKilled : ∃ t, exec (.trapEntry 0) trapInKilled = .next t ∧ (t.warp 0).hm = false :=
  ⟨_, rfl, by decide +kernel⟩

/-- Refutes O46: a warp of a context that is being killed enters no handler, and the clause of TRAP_ENTRY has it enter. -/
theorem not_traps : ¬ Obligations.Traps := by
  rintro ⟨hentry, -⟩
  obtain ⟨t, hexec, -, -, hwarp⟩ := hentry trapInKilled 0 rfl raisersLive_trapInKilled rfl (by decide) (by decide +kernel)
  obtain ⟨t', hexec', hm⟩ := exec_trapEntry_trapInKilled
  obtain rfl : t' = t := Host.Outcome.next.inj (hexec'.symm.trans hexec)
  have hentered : (t'.warp 0).hm = true := by rw [hwarp]; rfl
  exact absurd (hentered.symm.trans hm) (by decide)

end Sys2Proof.Machine
end

