-- ==== Sys2Proof/Proofs/NibIssuers.lean ====
section
/-! The end of a warp against the statement of NibWork: QSCALE writes the threads of the warp that issued it (R307), and the statement has it write
those of the warp that stands in that warp's slot when QSCALE ends (R269). -/

namespace Sys2Proof.Machine

/-- A QSCALE into register 0 and predicate 0 that lane 0 of the warp with launch index 1 has issued in slot 0 of core 0. -/
def endedIssuerQscale : NibCmd :=
  { id := 0, part := 0, warp := 0, widx := 1, lanes := [0], gid := 0, slot := 0, op := .qscale 0 0 0 0 .t9, tok := none, now := true }

/-- The QSCALE is in progress on core 0, and the warp with launch index 0 has the slot. -/
def slotTakenOver : State :=
  { State.reset with
    wrp := [(0, {})], thr := [(0, { st := .runnable })], cor := [(0, { nib := [endedIssuerQscale] })], bad := [] }

theorem still_slotTakenOver : Still slotTakenOver 0 where
  wid := by decide
  here := rfl
  going := rfl
  nomeet := by decide
  live := by decide
  nostep := by decide

/-- The thread in the slot keeps its register. -/
theorem qscale_keeps_slotTakenOver : ∃ t, exec (.nibQscaleComplete 0) slotTakenOver = .next t ∧ (t.thread 0).regs = [] :=
  ⟨_, rfl, by decide +kernel⟩

/-- Refutes O43: a QSCALE whose warp has left writes nothing, and the statement has it write the warp that has the slot now. -/
theorem not_nibWork : ¬ Obligations.NibWork := by
  rintro ⟨-, -, -, -, hqscale, -⟩
  obtain ⟨t, hexec, -, hthread, -⟩ := hqscale slotTakenOver 0 endedIssuerQscale 0 0 0 0 .t9 rfl rfl rfl (by decide) still_slotTakenOver
    (by decide) (by decide)
  obtain ⟨t', hexec', hkept⟩ := qscale_keeps_slotTakenOver
  obtain rfl : t' = t := Host.Outcome.next.inj (hexec'.symm.trans hexec)
  have hmax : slotTakenOver.accMax 0 endedIssuerQscale.slot = 0 := by decide +kernel
  have hwritten : (t'.thread 0).regs = [(0, unitScale)] := by
    rw [hthread, if_pos ⟨⟨0, by decide, by decide⟩, by decide⟩, hmax]
    decide +kernel
  rw [hkept] at hwritten
  exact absurd hwritten (by decide)

end Sys2Proof.Machine
end

