-- ==== Sys2Proof/Proofs/HomeWork.lean ====
section
/-! What the work at a home may change (R110-R112, R421, R438): the owners' tables and memory, the errors held, and the counters and release
times of contexts. -/

namespace Sys2Proof.Machine

/-- `b` is `a` after work at some homes. -/
structure HomeWork (a b : State) : Prop where
  rest : b = { a with die := b.die, mem := b.mem, bad := b.bad, ctxs := b.ctxs }
  ctxs : ∀ k, b.ctx k = { a.ctx k with counters := (b.ctx k).counters, rtN := (b.ctx k).rtN }

namespace HomeWork

variable {a b c : State}

theorem refl (a : State) : HomeWork a a := ⟨rfl, fun _ => rfl⟩

theorem trans (h : HomeWork a b) (h' : HomeWork b c) : HomeWork a c :=
  ⟨h'.rest.trans (by rw [h.rest]), fun k => (h'.ctxs k).trans (by rw [h.ctxs k])⟩

theorem foldl {α : Type} {f : State → α → State} (hf : ∀ x i, HomeWork x (f x i)) (is : List α) (a : State) : HomeWork a (is.foldl f a) := by
  induction is generalizing a with
  | nil => exact .refl a
  | cons i is ih => exact (hf a i).trans (ih _)

/-- A fold that keeps what it has met beside its state. -/
theorem foldl_fst {α β : Type} {f : State × β → α → State × β} (hf : ∀ p i, HomeWork p.1 (f p i).1) (is : List α) (p : State × β) :
    HomeWork p.1 (is.foldl f p).1 := by
  induction is generalizing p with
  | nil => exact .refl p.1
  | cons i is ih => exact (hf p i).trans (ih _)

theorem ite {p : Prop} [Decidable p] (h : HomeWork a b) (h' : HomeWork a c) : HomeWork a (if p then b else c) := by
  split
  · exact h
  · exact h'

theorem thread (h : HomeWork a b) (k : Nat) : b.thread k = a.thread k := by rw [h.rest]; rfl
theorem warp (h : HomeWork a b) (w : Nat) : b.warp w = a.warp w := by rw [h.rest]; rfl
theorem core (h : HomeWork a b) (e : Nat) : b.core e = a.core e := by rw [h.rest]; rfl
theorem thr (h : HomeWork a b) : b.thr = a.thr := by rw [h.rest]
theorem wrp (h : HomeWork a b) : b.wrp = a.wrp := by rw [h.rest]
theorem cor (h : HomeWork a b) : b.cor = a.cor := by rw [h.rest]
theorem reqs (h : HomeWork a b) : b.reqs = a.reqs := by rw [h.rest]
theorem recs (h : HomeWork a b) : b.recs = a.recs := by rw [h.rest]
theorem parts (h : HomeWork a b) : b.parts = a.parts := by rw [h.rest]
theorem mg (h : HomeWork a b) : b.mg = a.mg := by rw [h.rest]

end HomeWork

section
variable (a : State)

theorem State.setDie_homeWork (k : Nat) (x : DieSt) : HomeWork a (a.setDie k x) := ⟨rfl, fun _ => rfl⟩

theorem State.count_homeWork (ctx die n : Nat) (k : Int) : HomeWork a (a.count ctx die n k) := by
  refine ⟨rfl, fun j => ?_⟩
  rw [State.count, State.ctx_setCtx]
  split
  · next hj => rw [hj]
  · rfl

theorem State.ctxRT_homeWork (ctx : Nat) (t : Int) : HomeWork a (a.ctxRT ctx t) := by
  refine ⟨rfl, fun j => ?_⟩
  rw [State.ctxRT, State.ctx_setCtx]
  split
  · next hj => rw [hj]
  · rfl

theorem State.countAll_homeWork (ctx die : Nat) (cs : List Nat) : HomeWork a (a.countAll ctx die cs) :=
  .foldl (fun x _ => x.count_homeWork ..) cs a

theorem State.setBytes_homeWork (own b : Nat) (vs : List Nat) : HomeWork a (a.setBytes own b vs) := by
  induction vs generalizing a b with
  | nil => exact .refl a
  | cons v vs ih =>
    have hbyte : HomeWork a (a.setByte own b v) := ⟨rfl, fun _ => rfl⟩
    exact hbyte.trans (ih (a.setByte own b v) (b + 1))

theorem State.setBad_homeWork (bad : List (Nat × Nat)) : HomeWork a { a with bad := bad } := ⟨rfl, fun _ => rfl⟩

theorem State.setSec_homeWork (own : Nat) (k : Int) (cmp : Bool) (x : L2Sec) : HomeWork a (a.setSec own k cmp x) := a.setDie_homeWork ..

theorem State.evictSec_homeWork (own : Nat) (k : Int) (cmp : Bool) : HomeWork a (a.evictSec own k cmp) := by
  unfold State.evictSec
  dsimp only
  have hcount : ∀ ctx die cs, ∀ p : Bool, HomeWork a (if p then a.countAll ctx die cs else a) := fun ctx die cs p =>
    .ite (a.countAll_homeWork ctx die cs) (.refl a)
  split
  · exact (hcount _ _ _ _).trans (State.setSec_homeWork ..)
  · exact (hcount _ _ _ _).trans ((State.setBad_homeWork ..).trans ((State.setBytes_homeWork ..).trans (State.setSec_homeWork ..)))

theorem State.l2Room_homeWork (own slice : Nat) (l : Int) (cmp : Bool) : HomeWork a (a.l2Room own slice l cmp) :=
  .ite (.refl a) (.foldl (fun x _ => x.evictSec_homeWork ..) _ a)

theorem State.fillSec_homeWork (own : Nat) (k : Int) (cmp : Bool) (ctx die sl : Nat) : HomeWork a (a.fillSec own k cmp ctx die sl).1 :=
  (a.l2Room_homeWork ..).trans ((State.setSec_homeWork ..).trans (State.countAll_homeWork ..))

theorem State.fillFor_homeWork (own : Nat) (pas : List Int) (cmp : Bool) (ctx die : Nat) (sl : Int → Nat) :
    HomeWork a (a.fillFor own pas cmp ctx die sl).1 :=
  .foldl_fst (fun p _ => by
    dsimp only
    split
    · exact .refl p.1
    · exact p.1.fillSec_homeWork ..) pas (a, [])

theorem State.lostRead_homeWork (own : Nat) (pas : List Int) (cmp : Bool) (ctx die : Nat) : HomeWork a (a.lostRead own pas cmp ctx die).1 := by
  unfold State.lostRead
  split
  · exact a.count_homeWork ..
  · exact .refl a

theorem State.homePut_homeWork (own : Nat) (cmp : Bool) (ctx : Nat) (tr : List (Int × Int)) (sl : Int → Nat) :
    HomeWork a (a.homePut own cmp ctx tr sl) :=
  .foldl (fun x _ => (x.l2Room_homeWork ..).trans (State.setSec_homeWork ..)) tr a

theorem State.wrote_homeWork (own : Nat) (l : Int) : HomeWork a (a.wrote own l) := a.setDie_homeWork ..

theorem State.walkFills_homeWork (own ctx die : Nat) (root off : Int) : HomeWork a (a.walkFills own ctx die root off) :=
  (a.fillFor_homeWork ..).trans (.foldl (fun x _ => x.lostRead_homeWork ..) _ _)

theorem State.translate_homeWork (own ctx core : Nat) (off : Int) : HomeWork a (a.translate own ctx core off).1 := by
  unfold State.translate
  split
  · exact .refl a
  split
  · exact .refl a
  split
  · exact .refl a
  split
  · exact a.setDie_homeWork ..
  split
  · exact .refl a
  dsimp only
  split
  · exact (a.walkFills_homeWork ..).trans ((State.setDie_homeWork ..).trans (State.setDie_homeWork ..))
  · exact a.walkFills_homeWork ..

theorem State.copyAt_homeWork (c ctx : Nat) (tern : Bool) (k : CUse) (n : Nat) (ea : Int) : HomeWork a (a.copyAt c ctx tern k n ea).1 := by
  unfold State.copyAt
  dsimp only
  split
  case h_1 =>
    iterate 3 (split; · exact .refl a)
    split
    · repeat' split
      all_goals exact .refl a
    · split
      · exact .refl a
      · have h := a.translate_homeWork (ownerOf ea) ctx c (offOf ea)
        split
        · exact h
        · repeat' split
          all_goals exact h
  all_goals repeat' split
  all_goals exact .refl a

theorem State.framePut_homeWork (ctx : Nat) (w : Int) (cells : List (Int × Int)) : HomeWork a (a.framePut ctx w cells).1 := by
  induction cells generalizing a w with
  | nil => exact .refl a
  | cons p r ih =>
    obtain ⟨ea, v⟩ := p
    have h := a.copyAt_homeWork engineCore ctx true .write 1 ea
    unfold State.framePut
    dsimp only
    split
    · exact h.trans (((State.homePut_homeWork ..).trans (State.wrote_homeWork ..)).trans (ih ..))
    · exact h

end

end Sys2Proof.Machine
end

