-- ==== Sys2Proof/Proofs/DecodeForms.lean ====
section
/-! Video decode (R346-R351): the commands of a session and its frames. -/

namespace Sys2Proof.Machine

/-! Sessions and the words that announce writes. -/

section
variable (s : State)

theorem State.session_setSession (ctx bid : Nat) (y : Session) (c b : Nat) :
    (s.setSession ctx bid y).session c b = if c = ctx ∧ b = bid then y else s.session c b := by
  rw [State.session, State.setSession, State.ctx_setCtx]
  by_cases hc : c = ctx
  · simp [hc, Tab.get_put, State.session]
  · simp [hc, State.session]

theorem State.ctx_setSession (ctx bid : Nat) (y : Session) (k : Nat) :
    (s.setSession ctx bid y).ctx k = { s.ctx k with sess := ((s.setSession ctx bid y).ctx k).sess } := by
  rw [State.setSession, State.ctx_setCtx]
  split
  · next hk => rw [hk]
  · rfl

theorem State.ctx_setSession_of_ne {ctx bid : Nat} (y : Session) {k : Nat} (hk : k ≠ ctx) : (s.setSession ctx bid y).ctx k = s.ctx k := by
  rw [State.setSession, State.ctx_setCtx, if_neg hk]

theorem State.setSession_setSession (ctx bid : Nat) (y z : Session) : (s.setSession ctx bid y).setSession ctx bid z = s.setSession ctx bid z := by
  unfold State.setSession
  rw [State.ctx_setCtx_self]
  simp only [State.setCtx, Tab.put_put]

theorem State.port_pushToken (c q : Nat) (v w : Int) (k p : Nat) :
    (s.pushToken c q v w).port k p = if k = c ∧ p = q then s.port k p ++ [v] else s.port k p := by
  have hset : ∀ x, (s.setCore c { s.core c with tokW := x }).port k p = s.port k p := fun x => by
    rw [State.port, State.core_setCore]
    split
    · next hk => rw [hk]; rfl
    · rfl
  rw [State.pushToken, State.port_setPort, hset]
  split
  · next hk => rw [hk.1, hk.2]
  · rfl

theorem State.tokW_pushToken (c q : Nat) (v w : Int) (k p : Nat) : Tab.get [] ((s.pushToken c q v w).core k).tokW p =
    if k = c ∧ p = q then Tab.get [] (s.core k).tokW p ++ [w] else Tab.get [] (s.core k).tokW p := by
  rw [State.pushToken, State.core_setPort_ports, State.core_setCore]
  by_cases hk : k = c
  · simp only [hk, if_true, true_and, Tab.get_put]
    split
    · next hp => rw [hp]
    · rfl
  · simp [hk]

theorem State.core_pushToken (c q : Nat) (v w : Int) (k : Nat) : (s.pushToken c q v w).core k =
    { s.core k with ports := ((s.pushToken c q v w).core k).ports, tokW := ((s.pushToken c q v w).core k).tokW } := by
  rw [State.pushToken, State.core_setPort_ports, State.core_setCore]
  split
  · next hk => rw [hk]
  · rfl

end

/-- A completion word of a session that holds none goes to q14 at once. -/
theorem State.finish_eq {s : State} {ctx bid e : Nat} {y : Session} (hout : y.outw = []) (v : Int) {tm : Int} (hgoes : s.wordGoes ctx bid e tm) :
    (s.setSession ctx bid y).finish ctx bid v tm = (s.pushToken e 14 v tm).setSession ctx bid y := by
  obtain ⟨hblk, hroom, hclk⟩ := hgoes
  have hsess : ∀ z, (s.setSession ctx bid z).session ctx bid = z := fun z => by rw [State.session_setSession, if_pos ⟨rfl, rfl⟩]
  have hplace : ∀ z, Tab.find ((s.setSession ctx bid z).ctx ctx).blk bid = some (.placed e) := fun z => by rwa [State.ctx_setSession]
  have hopen : ∀ z, ¬ (81 ≤ ((s.setSession ctx bid z).port e 14).length ∨
      ((s.setSession ctx bid z).dieSt ((s.setSession ctx bid z).ownKey 9)).clk < tm) := fun z => by
    change ¬ (81 ≤ (s.port e 14).length ∨ (s.dieSt (s.ownKey 9)).clk < tm)
    omega
  have hpush : ∀ z, (s.setSession ctx bid z).pushToken e 14 v tm = (s.pushToken e 14 v tm).setSession ctx bid z := fun _ => rfl
  rw [State.finish, hsess, hout, State.setSession_setSession, State.pushOut]
  simp only [hsess, hplace, List.nil_append]
  rw [if_neg (hopen _), hpush, State.setSession_setSession, ← hout]

/-- What a session's step leaves when its completion word goes to q14 at once. -/
theorem WordGone.of_finish {s : State} {ctx bid e : Nat} {y : Session} (hout : y.outw = []) (v : Int) {tm : Int} (hgoes : s.wordGoes ctx bid e tm) :
    WordGone s ((s.setSession ctx bid y).finish ctx bid v tm) ctx bid e y v tm := by
  rw [State.finish_eq hout v hgoes]
  refine ⟨rfl, ?_, fun b hb => ?_, fun k => (s.pushToken e 14 v tm).ctx_setSession ctx bid y k, fun k hk => (s.pushToken e 14 v tm).ctx_setSession_of_ne y hk,
    s.core_pushToken e 14 v tm, s.port_pushToken e 14 v tm, s.tokW_pushToken e 14 v tm⟩
  · rw [State.session_setSession, if_pos ⟨rfl, rfl⟩]
  · rw [State.session_setSession, if_neg fun h => hb h.2]
    rfl

section
variable {s : State} {ctx bid : Nat}

theorem Session.outw_of_free {y : Session} (h : y.free = true) : y.outw = [] := by
  unfold Session.free at h
  simp only [Bool.and_eq_true, List.isEmpty_iff] at h
  exact h.1

/-- A DECODE whose descriptor and bitstream are at hand does what the codec makes of its unit (R346, R347). -/
theorem execDecode_of_read {c : Int} {rest : List Int} {s1 s2 : State} {ts bs : List Int} {b d : State × Int}
    (hcmds : (s.session ctx bid).cmds = c :: rest) (hfree : (s.session ctx bid).free = true) (hflush : (s.session ctx bid).flushing = none)
    (hop : cmdOp c = 1) (hframes : (s.session ctx bid).frames = []) (hslots : (s.session ctx bid).slots.length < 16)
    (hdesc : s.engineRead ctx true ((List.range 81).map (fun (j : Nat) => (s.ctx ctx).decbase + 81 * (cmdIdx c + half 24) - 40 + (j : Int))) = (.ok (s1, ts), b))
    (hok : descOk ((chunksOf 3 27 ts).map ofTrytes) (8192, 8192) = true)
    (hslot : s1.slotBad ctx (descOf ((chunksOf 3 27 ts).map ofTrytes)) = false)
    (hstream : s1.engineRead ctx false ((List.range (descOf ((chunksOf 3 27 ts).map ofTrytes)).bslen.toNat).map (fun (j : Nat) =>
      (descOf ((chunksOf 3 27 ts).map ofTrytes)).bsaddr + (j : Int))) = (.ok (s2, bs), d)) :
    let ws := (chunksOf 3 27 ts).map ofTrytes
    let h := (s.session ctx bid).hist ++ [((descOf ws).codec, bs.map (fun b => BitVec.ofNat 8 b.toNat))]
    let reject : State := (s2.setSession ctx bid { s.session ctx bid with cmds := rest }).finish ctx bid (doneWord (-1) (-1) (cmdIdx c)) 0
    execDecode ctx bid s = .next (match Config.codecFrames h with
      | none => reject
      | some n => if shapeOk (descOf ws).codec (Config.codecShape h) = true ∧ descOk ws ((Config.codecShape h).1, (Config.codecShape h).2.1) = true then
          (s2.setSession ctx bid { s.session ctx bid with cmds := rest, hist := h, slots := (s.session ctx bid).slots ++ [(cmdIdx c, ws)],
                                                          frames := (List.range n).map (fun j => { hist := h, num := j }) }).finish
            ctx bid (doneWord (-1) 1 (cmdIdx c)) 0
        else reject) := by
  intro ws h reject
  have hother : ¬ ((s.session ctx bid).flushing.isSome = true ∨ cmdOp c = 2 ∨ cmdOp c = 3 ∨
      (!((s.session ctx bid).frames.isEmpty || (s.session ctx bid).slots.isEmpty)) = true) := by
    simp [hflush, hop, hframes]
  have hor {p q : Bool} : ((!p) = true ∨ (!q) = true) ↔ ¬ (p = true ∧ q = true) := by cases p <;> cases q <;> decide
  unfold execDecode
  simp only [hcmds, hfree, Bool.not_true, Bool.false_eq_true, if_false]
  rw [if_neg hother, if_neg (not_not_intro hop), hdesc]
  dsimp only
  rw [if_neg (by simp [hok, hslot]), hstream]
  dsimp only
  cases hcodec : Config.codecFrames h with
  | none => rfl
  | some n =>
    dsimp only
    by_cases hshape : shapeOk (descOf ws).codec (Config.codecShape h) = true ∧ descOk ws ((Config.codecShape h).1, (Config.codecShape h).2.1) = true
    · rw [if_pos hshape, if_neg fun hbad => hor.mp hbad hshape, if_neg (by omega), hframes]
      rfl
    · rw [if_neg hshape, if_pos (hor.mpr hshape)]

end

/-- Settles O45: a command that can be performed takes its session on, and its word goes to q14. -/
theorem decodeWork : Obligations.DecodeWork := by
  refine ⟨?decode, ?flush, ?flushed, ?reset, ?frame⟩
  case decode =>
    intro s ctx bid e c rest s1 ts b s2 bs d hcmds hfree hflush hop hframes hslots hdesc hok hslot hstream hsess hgoes
    refine ⟨_, execDecode_of_read hcmds hfree hflush hop hframes hslots hdesc hok hslot hstream, ?_⟩
    have hout := Session.outw_of_free hfree
    dsimp only
    cases Config.codecFrames ((s.session ctx bid).hist ++
        [((descOf ((chunksOf 3 27 ts).map ofTrytes)).codec, bs.map (fun b => BitVec.ofNat 8 b.toNat))]) with
    | none => exact .of_finish (by exact hout) _ hgoes
    | some n =>
      dsimp only
      split
      · exact .of_finish (by exact hout) _ hgoes
      · exact .of_finish (by exact hout) _ hgoes
  case flush =>
    intro s ctx bid c rest hcmds hfree hflush hop
    have hexec : exec (.decodeFlush ctx bid) s = .next (s.setSession ctx bid { s.session ctx bid with
        cmds := rest, hist := (s.session ctx bid).hist ++ [(0, [])], flushing := some (cmdIdx c)
        frames := (s.session ctx bid).frames ++ (List.range ((Config.codecFrames ((s.session ctx bid).hist ++ [(0, [])])).getD 0)).map
          (fun j => { hist := (s.session ctx bid).hist ++ [(0, [])], num := j }) }) := by
      change execDecodeFlush ctx bid s = _
      unfold execDecodeFlush
      simp only [hfree, Bool.not_true, Bool.false_eq_true, if_false, hflush, hcmds]
      exact if_neg (not_not_intro hop)
    exact ⟨_, hexec, rfl, fun k hk => s.ctx_setSession_of_ne _ hk, s.ctx_setSession ..,
      fun b hb => (s.session_setSession ..).trans (if_neg fun h => hb h.2), (s.session_setSession ..).trans (if_pos ⟨rfl, rfl⟩)⟩
  case flushed =>
    intro s ctx bid e x hflush hfree hframes hgoes
    refine ⟨_, ?_, .of_finish (by exact Session.outw_of_free hfree) _ hgoes⟩
    change execDecodeFlush ctx bid s = _
    unfold execDecodeFlush
    simp only [hfree, Bool.not_true, Bool.false_eq_true, if_false, hflush, hframes, List.isEmpty_nil, true_or, if_true]
  case reset =>
    intro s ctx bid e c rest hcmds hfree hflush hop hgoes
    refine ⟨_, ?_, .of_finish (by exact Session.outw_of_free hfree) _ hgoes⟩
    change execDecodeReset ctx bid s = _
    unfold execDecodeReset
    simp only [hcmds]
    exact if_neg (by simp [hfree, hflush, hop])
  case frame =>
    intro s ctx bid e f fs x ws ss p w hfree hframes hslots hput hsess hgoes
    have hout := Session.outw_of_free hfree
    have hexec : exec (.decodeFrameOutput ctx bid) s = .next (((p.setSession ctx bid { s.session ctx bid with frames := fs, slots := ss }).finish ctx bid
        (doneWord 1 (if Config.codecConcealed f.hist f.num then 0 else 1) x) w).ctxRT ctx w) := by
      change execDecodeFrameOutput ctx bid s = _
      unfold execDecodeFrameOutput
      simp only [hfree, Bool.not_true, Bool.false_eq_true, if_false, hframes, hslots, hput]
    refine ⟨_, _, hexec, .of_finish (by exact hout) _ hgoes, rfl, fun k => ?_⟩
    have hguard : ((p.setSession ctx bid { s.session ctx bid with frames := fs, slots := ss }).finish ctx bid
        (doneWord 1 (if Config.codecConcealed f.hist f.num then 0 else 1) x) w).guard .domain = s.guard .domain := by
      have hmg : p.mg = s.mg := by
        rw [← show (s.framePut ctx 0 (frameCells (descOf ws) f)).1 = p by rw [hput]]
        exact (s.framePut_homeWork ..).mg
      rw [State.finish_eq (by exact hout) _ hgoes, State.guard, State.guard, ← hmg]
      rfl
    rw [State.ctxRT, State.ctx_setCtx, hguard]
    split
    · next hk => rw [hk]
    · rfl

end Sys2Proof.Machine
end

