-- ==== Sys2Proof/Proofs/PartitionKills.lean ====
section
/-! The contexts of a partition as an apply or a function-level reset kills them (R415, R461). -/

namespace Sys2Proof.Machine

theorem Tab.find_of_mem {α : Type} {t : Tab α} (hsorted : Tab.sorted t = true) {k : Nat} {v : α} (h : (k, v) ∈ t) : Tab.find t k = some v := by
  induction t with
  | nil => exact absurd h List.not_mem_nil
  | cons p t ih =>
    obtain ⟨hlow, ht⟩ := (Tab.sorted_cons p.1 p.2 t).mp hsorted
    rcases List.mem_cons.mp h with rfl | hin
    · exact if_pos rfl
    · exact (if_neg (hlow _ hin).ne).trans (ih ht hin)

theorem Tab.mem_of_find {α : Type} {t : Tab α} {k : Nat} {v : α} (h : Tab.find t k = some v) : (k, v) ∈ t := by
  induction t with
  | nil => cases h
  | cons p t ih =>
    obtain ⟨j, w⟩ := p
    rw [Tab.find] at h
    split at h
    · next heq => obtain rfl := Option.some.inj h; exact heq ▸ List.mem_cons_self
    · exact List.mem_cons_of_mem _ (ih h)

theorem Tab.mem_keys_iff {α : Type} {t : Tab α} (hsorted : Tab.sorted t = true) {k : Nat} : k ∈ t.map (·.1) ↔ (Tab.find t k).isSome = true := by
  refine ⟨fun h => ?_, fun h => ?_⟩
  · obtain ⟨q, hq, rfl⟩ := List.mem_map.mp h
    exact Option.isSome_iff_exists.mpr ⟨_, Tab.find_of_mem hsorted hq⟩
  · obtain ⟨v, hv⟩ := Option.isSome_iff_exists.mp h
    exact List.mem_map.mpr ⟨_, Tab.mem_of_find hv, rfl⟩

theorem Thread.halted_halted (x : Thread) : x.halted.halted = x.halted := by
  by_cases h : x.st = .exited ∨ x.st = .stopped
  · have hself : x.halted = x := if_pos h
    rw [hself, hself]
  · have hself : x.halted = { x with st := .stopped, prior := x.st } := if_neg h
    rw [hself]; rfl

theorem mem_threadsOf_iff_warpOf {w u : Nat} : u ∈ threadsOf w ↔ warpOf u = w := by
  rw [mem_threadsOf]
  unfold threadOf warpOf
  exact ⟨fun ⟨l, hl, h⟩ => by omega, fun h => ⟨u % 16, by omega, by omega⟩⟩

/-- A warp stops that runs a context (R415). -/
def State.stopIf (c : Nat) (s : State) (q : Nat × Warp) : State := if q.2.ctx = c then s.stopWarp q.1 else s

theorem State.foldl_stopIf_spec (c : Nat) (l : Tab Warp) (s : State) :
    l.foldl (State.stopIf c) s = { s with thr := (l.foldl (State.stopIf c) s).thr } ∧
      ∀ u, (l.foldl (State.stopIf c) s).thread u = if ∃ q ∈ l, q.1 = warpOf u ∧ q.2.ctx = c then (s.thread u).halted else s.thread u := by
  induction l generalizing s with
  | nil => simp
  | cons q l ih =>
    obtain ⟨hrest, hthr⟩ := ih (s.stopIf c q)
    rw [List.foldl_cons]
    by_cases hq : q.2.ctx = c
    · obtain ⟨hstop, hhalt⟩ := s.stopWarp_spec q.1
      have hself : s.stopIf c q = s.stopWarp q.1 := if_pos hq
      rw [hself] at hrest hthr ⊢
      refine ⟨hrest.trans (by rw [hstop]), fun u => ?_⟩
      rw [hthr, hhalt]
      by_cases hw : warpOf u = q.1
      · simp [mem_threadsOf_iff_warpOf, hw, hq, Thread.halted_halted]
      · rw [if_neg (mt mem_threadsOf_iff_warpOf.mp hw)]
        exact if_congr ⟨fun ⟨x, hx, h⟩ => ⟨x, List.mem_cons_of_mem _ hx, h⟩, fun ⟨x, hx, h⟩ =>
          ⟨x, (List.mem_cons.mp hx).resolve_left fun heq => hw (heq ▸ h.1).symm, h⟩⟩ rfl rfl
    · have hself : s.stopIf c q = s := if_neg hq
      rw [hself] at hrest hthr ⊢
      exact ⟨hrest, fun u => (hthr u).trans (if_congr ⟨fun ⟨x, hx, h⟩ => ⟨x, List.mem_cons_of_mem _ hx, h⟩, fun ⟨x, hx, h⟩ =>
        ⟨x, (List.mem_cons.mp hx).resolve_left fun heq => hq (heq ▸ h.2), h⟩⟩ rfl rfl)⟩

/-- Some contexts are being killed. -/
structure Slain (s t : State) (cs : Nat → Bool) : Prop where
  rest : t = { s with thr := t.thr, ctxs := t.ctxs, parts := t.parts }
  sorted : Tab.sorted s.ctxs = true → Tab.sorted t.ctxs = true
  ctxs : ∀ k, t.ctx k = if cs k = true then { s.ctx k with killing := true, killNeg := false } else s.ctx k
  thrs : ∀ u, t.thread u = if (Tab.find s.wrp (warpOf u)).isSome = true ∧ cs (s.warp (warpOf u)).ctx = true
    then (s.thread u).halted else s.thread u

namespace Slain

theorem none (s : State) : Slain s s (fun _ => false) := ⟨rfl, id, fun _ => (if_neg (by simp)).symm, fun _ => (if_neg (by simp)).symm⟩

variable {s a b : State} {cs ds : Nat → Bool}

theorem wrp (h : Slain s a cs) : a.wrp = s.wrp := by rw [h.rest]

theorem trans (h : Slain s a cs) (h' : Slain a b ds) : Slain s b (fun k => cs k || ds k) where
  rest := h'.rest.trans (by rw [h.rest])
  sorted := fun hs => h'.sorted (h.sorted hs)
  ctxs k := by
    rw [h'.ctxs, h.ctxs]
    cases cs k <;> cases ds k <;> rfl
  thrs u := by
    rw [h'.thrs, h.thrs, h.wrp, State.warp_congr h.wrp]
    cases hc : cs (s.warp (warpOf u)).ctx <;> cases ds (s.warp (warpOf u)).ctx <;> by_cases hf : (Tab.find s.wrp (warpOf u)).isSome = true <;>
      simp [hf, Thread.halted_halted]

theorem congr (h : Slain s a cs) (heq : ∀ k, cs k = ds k) : Slain s a ds := funext heq ▸ h

theorem parts (h : Slain s a cs) (p : Tab Part) : Slain s { a with parts := p } cs :=
  ⟨by rw [h.rest], h.sorted, h.ctxs, h.thrs⟩

theorem setPart (h : Slain s a cs) (p : Nat) (x : Part) : Slain s (a.setPart p x) cs := h.parts _

theorem reqs (h : Slain s a cs) : a.reqs = s.reqs := by rw [h.rest]

theorem live (h : Slain s a cs) (k : Nat) : (a.ctx k).live = (s.ctx k).live := by rw [h.ctxs]; split <;> rfl

theorem part (h : Slain s a cs) (k : Nat) : (a.ctx k).part = (s.ctx k).part := by rw [h.ctxs]; split <;> rfl

end Slain

theorem State.startKill_slain {s : State} (hsorted : Tab.sorted s.wrp = true) (c : Nat) :
    Slain s (s.startKill c false) (fun k => decide (k = c)) ∧ (s.startKill c false).parts = s.parts := by
  obtain ⟨hrest, hthr⟩ := s.foldl_stopIf_spec c s.wrp
  have heq : s.startKill c false = (s.wrp.foldl (State.stopIf c) s).setCtx c { s.ctx c with killing := true, killNeg := false } := rfl
  obtain ⟨a, ha⟩ : ∃ a, s.wrp.foldl (State.stopIf c) s = a := ⟨_, rfl⟩
  rw [ha] at hrest hthr heq
  have hctxs : a.ctxs = s.ctxs := by rw [hrest]
  rw [heq]
  refine ⟨⟨by rw [hrest]; rfl, fun h => Tab.sorted_put _ _ (hctxs.symm ▸ h), fun k => ?_, fun u => ?_⟩, by rw [hrest]; rfl⟩
  · have hctx : a.ctx k = s.ctx k := by rw [State.ctx, hctxs]; rfl
    rw [State.ctx_setCtx, hctx]
    by_cases hk : k = c
    · subst hk; simp
    · simp [hk]
  · rw [State.thread_setCtx, hthr]
    refine if_congr ⟨fun ⟨q, hq, hw, hc⟩ => ?_, fun ⟨hf, hc⟩ => ⟨(warpOf u, s.warp (warpOf u)), Tab.mem_of_find (State.find_warp hf), rfl, by simpa using hc⟩⟩ rfl rfl
    have hf := Tab.find_of_mem hsorted hq
    rw [← hw, State.warp, Tab.get_of_find {} q.2 q.1 s.wrp hf]
    exact ⟨Option.isSome_iff_exists.mpr ⟨_, hf⟩, decide_eq_true hc⟩

theorem State.foldl_startKill_slain (cs : List Nat) {s : State} (hsorted : Tab.sorted s.wrp = true) :
    Slain s (cs.foldl (fun a c => a.startKill c false) s) (fun k => decide (k ∈ cs)) ∧ (cs.foldl (fun a c => a.startKill c false) s).parts = s.parts := by
  induction cs generalizing s with
  | nil => exact ⟨(Slain.none s).congr (by simp), rfl⟩
  | cons c cs ih =>
    obtain ⟨hone, hp⟩ := State.startKill_slain hsorted c
    obtain ⟨hmore, hps⟩ := ih (hone.wrp.symm ▸ hsorted)
    exact ⟨(hone.trans hmore).congr (by simp), hps.trans hp⟩

/-- A context of a partition. -/
def State.liveIn (s : State) (p k : Nat) : Bool := (s.ctx k).live && decide ((s.ctx k).part = p)

theorem State.mem_ctxsOf {s : State} (hsorted : Tab.sorted s.ctxs = true) {p k : Nat} : k ∈ s.ctxsOf p ↔ s.liveIn p k = true := by
  unfold State.ctxsOf State.liveIn
  refine ⟨fun h => ?_, fun h => ?_⟩
  · obtain ⟨q, hq, rfl⟩ := List.mem_map.mp h
    obtain ⟨hmem, hlive⟩ := List.mem_filter.mp hq
    rwa [State.ctx, Tab.get_of_find {} q.2 q.1 s.ctxs (Tab.find_of_mem hsorted hmem)]
  · rcases Tab.get_eq_or_mem {} s.ctxs k with hz | _
    · rw [State.ctx, hz] at h; cases h
    · cases hf : Tab.find s.ctxs k with
      | none => rw [State.ctx, Tab.get_of_find_none {} k s.ctxs hf] at h; cases h
      | some v =>
        rw [State.ctx, Tab.get_of_find {} v k s.ctxs hf] at h
        exact List.mem_map.mpr ⟨(k, v), List.mem_filter.mpr ⟨Tab.mem_of_find hf, h⟩, rfl⟩

theorem State.killPart_slain {s : State} (hw : Tab.sorted s.wrp = true) (hc : Tab.sorted s.ctxs = true) (p : Nat) :
    Slain s (s.killPart p) (s.liveIn p) ∧ (s.killPart p).parts = Tab.put p { s.part p with up := false } s.parts := by
  obtain ⟨hslain, hparts⟩ := State.foldl_startKill_slain (s.ctxsOf p) (s := s.setPart p { s.part p with up := false }) hw
  refine ⟨?_, hparts⟩
  refine (((Slain.none s).setPart p { s.part p with up := false }).trans hslain).congr fun k => ?_
  rw [Bool.false_or, Bool.eq_iff_iff, decide_eq_true_iff, State.mem_ctxsOf hc]

theorem State.foldl_killPart_slain (ps : List Nat) {s : State} (hw : Tab.sorted s.wrp = true) (hc : Tab.sorted s.ctxs = true) :
    Slain s (ps.foldl (fun a p => a.killPart p) s) (fun k => (s.ctx k).live && decide ((s.ctx k).part ∈ ps)) ∧
      (∀ k, (ps.foldl (fun a p => a.killPart p) s).part k = if k ∈ ps then { s.part k with up := false } else s.part k) ∧
      ∀ k, (Tab.find s.parts k).isSome = true → (Tab.find (ps.foldl (fun a p => a.killPart p) s).parts k).isSome = true := by
  induction ps generalizing s with
  | nil => exact ⟨(Slain.none s).congr (by simp), by simp, fun _ h => h⟩
  | cons p ps ih =>
    obtain ⟨hone, hparts⟩ := State.killPart_slain hw hc p
    obtain ⟨hmore, hps, hkeys⟩ := ih (hone.wrp.symm ▸ hw) (hone.sorted hc)
    refine ⟨(hone.trans hmore).congr fun k => ?_, fun k => ?_, fun k hk => hkeys k ?_⟩
    · rw [hone.live, hone.part, State.liveIn]
      cases (s.ctx k).live <;> simp
    · rw [List.foldl_cons, hps]
      have hpart : (s.killPart p).part k = if k = p then { s.part k with up := false } else s.part k := by
        rw [State.part, hparts, Tab.get_put]
        split
        · next h => rw [h]
        · rfl
      rw [hpart]
      by_cases hk : k = p <;> by_cases hm : k ∈ ps <;> simp [hk, hm]
    · rw [hparts, Tab.find_put]
      split
      · rfl
      · exact hk

theorem Slain.killed {s t : State} {ps : Nat → Bool} (h : Slain s t (fun k => (s.ctx k).live && ps (s.ctx k).part)) : Killed s t ps :=
  ⟨fun k => by rw [h.ctxs]; simp, fun u => by rw [h.thrs]; simp only [Bool.and_eq_true]; rfl⟩

/-- Work of a partition's contexts is left to be performed. -/
theorem State.not_drained {s : State} {r : Req} {cs : List Nat} (hr : r ∈ s.reqs) (hmust : r.mustEnd = true) (hin : r.ctx ∈ cs) : s.drained cs = false := by
  have hany : s.reqs.any (fun r => cs.contains r.ctx && r.mustEnd) = true := List.any_eq_true.mpr ⟨r, hr, by simp [hmust, hin]⟩
  rw [State.drained, hany, Bool.not_true]

end Sys2Proof.Machine
end

