-- ==== Sys2Proof/Proofs/Restarts.lean ====
section
/-! Applies, function-level resets, bring-up and power-up (R395, R415, R461, R464, R470). -/

namespace Sys2Proof.Machine

/-! Kills that an apply or a reset begins. -/

theorem exec_partctlApply_begins {s : State} {r : Req} (hon : s.mg.powerOff = false) (howner : s.mg.owner ≠ 0) (hidle : s.mg.applying = false)
    (hc : Tab.sorted s.ctxs = true) (hp : Tab.sorted s.parts = true) (hw : Tab.sorted s.wrp = true) (hr : r ∈ s.reqs)
    (hmust : r.mustEnd = true) (hlive : (s.ctx r.ctx).live = true) (hpart : (Tab.find s.parts (s.ctx r.ctx).part).isSome = true) :
    ∃ t, exec (.partctlApply s.mg.owner) s = .next t ∧
      t = { s with thr := t.thr, ctxs := t.ctxs, parts := t.parts, mg := { s.mg with applying := true } } ∧
      Killed s t (fun p => (Tab.find s.parts p).isSome) ∧ ∀ k, t.part k = { s.part k with up := false } := by
  obtain ⟨hslain, hparts, hkeys⟩ := State.foldl_killPart_slain (s.parts.map (·.1)) hw hc
  obtain ⟨a, ha⟩ : ∃ a, (s.parts.map (·.1)).foldl (fun a p => a.killPart p) s = a := ⟨_, rfl⟩
  rw [ha] at hslain hparts hkeys
  have hmg : a.mg = s.mg := by rw [hslain.rest]
  have hleft : ({ a with mg := { a.mg with applying := true } } : State).drained ((a.parts.map (·.1)).flatMap a.ctxsOf) = false := by
    refine State.not_drained (r := r) (hslain.reqs.symm ▸ hr) hmust (List.mem_flatMap.mpr ⟨(s.ctx r.ctx).part, ?_, ?_⟩)
    · obtain ⟨x, hx⟩ := Option.isSome_iff_exists.mp (hkeys _ hpart)
      exact List.mem_map.mpr ⟨_, Tab.mem_of_find hx, rfl⟩
    · rw [State.mem_ctxsOf (hslain.sorted hc), State.liveIn, hslain.live, hslain.part, hlive, decide_eq_true rfl]; rfl
  have hnote : ({ a with mg := { a.mg with applying := true } } : State).noteRestart = { a with mg := { a.mg with applying := true } } := by
    unfold State.noteRestart
    exact (if_pos rfl).trans (if_neg (Bool.eq_false_iff.mp hleft))
  refine ⟨{ a with mg := { a.mg with applying := true } }, ?_, by rw [hslain.rest], ?_, fun k => ?_⟩
  · change execPartctlApply _ s = _
    rw [execPartctlApply, State.linked_of_on hon, State.byOwner, if_pos ⟨rfl, howner⟩, State.startApply, if_neg (by simp [hidle])]
    simp only [ha, hnote]
  · have hkilled := (hslain.congr (ds := fun k => (s.ctx k).live && (Tab.find s.parts (s.ctx k).part).isSome) fun k => by
      rw [Bool.eq_iff_iff, Bool.and_eq_true, Bool.and_eq_true, decide_eq_true_iff, Tab.mem_keys_iff hp]).killed (ps := fun p => (Tab.find s.parts p).isSome)
    exact ⟨hkilled.ctxs, hkilled.thrs⟩
  · refine (hparts k).trans ?_
    split
    · rfl
    · next hnot => rw [State.part, Tab.get_of_not_mem_keys {} hnot]

/-- No reset is in progress but one that has work left. -/
theorem State.noteRestart_of_left {s : State} (hidle : s.mg.applying = false)
    (hleft : ∀ p, (s.part p).flr = true → s.drained (s.ctxsOf p) = false) : s.noteRestart = s := by
  have hstay : ∀ ps : List Nat, ps.foldl (fun (a : State) p => if (a.part p).flr ∧ a.drained (a.ctxsOf p) then (a.dropPart p).startSup p else a) s = s := fun ps => by
    induction ps with
    | nil => rfl
    | cons p ps ih =>
      rw [List.foldl_cons, if_neg fun ⟨hflr, hd⟩ => absurd hd (by rw [hleft p hflr]; exact Bool.false_ne_true)]
      exact ih
  unfold State.noteRestart
  rw [if_neg (by simp [hidle])]
  exact hstay _

theorem exec_functionLevelReset_begins {s : State} {f fn : Nat} {r : Req} (hon : s.mg.powerOff = false) (hf : f ≠ 0) (hfn : s.fnOf f = some fn)
    (hidle : s.mg.applying = false) (hc : Tab.sorted s.ctxs = true) (hw : Tab.sorted s.wrp = true) (hflr : ∀ p ∈ s.parts, p.2.flr = false)
    (hr : r ∈ s.reqs) (hmust : r.mustEnd = true) (hlive : (s.ctx r.ctx).live = true) (hpart : (s.ctx r.ctx).part = fn) :
    ∃ t, exec (.functionLevelReset f) s = .next t ∧ t = { s with thr := t.thr, ctxs := t.ctxs, parts := t.parts } ∧
      Killed s t (fun p => decide (p = fn)) ∧
      ∀ k, t.part k = if k = fn then { s.part k with up := false, flr := s.broughtUp, inbox := [], msgs := [] } else s.part k := by
  obtain ⟨hslain, hparts⟩ := State.killPart_slain hw hc fn
  obtain ⟨a, ha⟩ : ∃ a, s.killPart fn = a := ⟨_, rfl⟩
  rw [ha] at hslain hparts
  have hapart : ∀ k, a.part k = if k = fn then { s.part k with up := false } else s.part k := fun k => by
    rw [State.part, hparts, Tab.get_put]
    split
    · next h => rw [h]
    · rfl
  have hslain' := hslain.setPart fn { a.part fn with flr := s.broughtUp, inbox := [], msgs := [] }
  obtain ⟨b, hb⟩ : ∃ b, a.setPart fn { a.part fn with flr := s.broughtUp, inbox := [], msgs := [] } = b := ⟨_, rfl⟩
  have hbpart : ∀ k, b.part k = if k = fn then { s.part k with up := false, flr := s.broughtUp, inbox := [], msgs := [] } else s.part k := fun k => by
    rw [← hb, State.part_setPart, hapart, hapart, if_pos rfl]
    split
    · next h => rw [h]
    · rfl
  rw [hb] at hslain'
  have hnote : b.noteRestart = b := State.noteRestart_of_left (by rw [hslain'.rest]; exact hidle) fun p hp => by
    rw [hbpart] at hp
    by_cases hpfn : p = fn
    · refine State.not_drained (r := r) (hslain'.reqs ▸ hr) hmust ?_
      rw [State.mem_ctxsOf (hslain'.sorted hc), State.liveIn, hslain'.live, hslain'.part, hlive, hpart, hpfn, decide_eq_true rfl]; rfl
    · rw [if_neg hpfn, State.part] at hp
      rcases Tab.get_eq_or_mem {} s.parts p with hz | ⟨q, hq, hqp⟩
      · rw [hz] at hp; cases hp
      · rw [← hqp, hflr q hq] at hp; cases hp
  refine ⟨b, ?_, hslain'.rest, (hslain'.congr (ds := fun k => (s.ctx k).live && decide ((s.ctx k).part = fn)) fun _ => rfl).killed, hbpart⟩
  change execFunctionLevelReset _ s = _
  rw [execFunctionLevelReset, State.linked_of_on hon, if_neg hf, hfn]
  simp only [hidle, Bool.false_eq_true, if_false, ha, hb, hnote]

theorem exec_functionLevelReset_zero {s : State} (hon : s.mg.powerOff = false) :
    exec (.functionLevelReset 0) s = .next (s.withMg { s.mg with fw := [], fwlen := 0 }) := by
  change execFunctionLevelReset _ s = _
  rw [execFunctionLevelReset, State.linked_of_on hon, if_pos rfl]; rfl

/-! Bring-up that fails, and power-up. -/

theorem State.setBoot_of_ne {s : State} {v : Nat} (h : s.mg.bootst ≠ v) :
    s.setBoot v = s.withMg { s.mg with bootst := v, msix := s.mg.msix ++ [1] } := by
  rw [State.setBoot, if_neg h]; rfl

theorem exec_bringUpComplete_fails {s : State} {ok : Bool} (hon : s.mg.powerOff = false) (hboot : s.mg.bootst = 4)
    (hbad : ok = false ∨ domainBad s.mg.domcfg = true) :
    exec (.bringUpComplete ok) s = .next (s.withMg { s.mg with bootst := 6, msix := s.mg.msix ++ [1] }) := by
  change execBringUpComplete _ s = _
  rw [execBringUpComplete, State.linked_of_on hon, if_neg (not_not.mpr hboot), if_pos (hbad.imp_left fun h => by rw [h]; rfl),
    State.setBoot_of_ne (by rw [hboot]; decide)]

theorem exec_powerUp {s : State} (hpkg : s.pkg = 0) : ∃ t, exec .powerUp s = .next t ∧
    t = { State.reset with mem := s.mem, host := s.host, bad := t.bad, die := t.die, inputs := s.inputs, fresh := s.fresh, stamp := s.stamp
                           nextId := s.nextId } ∧
    (∀ q, q ∈ t.bad ↔ q ∈ s.bad ∧ q.1 = 0) ∧ ∀ k, t.dieSt k = if k / 27 = 0 then {} else s.dieSt k := by
  have hsame : s.renumber 0 = s := if_pos hpkg.symm
  have hexec : exec .powerUp s = execPowerUp s := rfl
  rw [execPowerUp, hsame] at hexec
  refine ⟨_, hexec, rfl, fun q => by simp, fun k => ?_⟩
  have hget := Tab.get_filter_key ({} : DieSt) (fun k => decide (k / 27 ≠ 0)) s.die k
  refine hget.trans ?_
  by_cases hk : k / 27 = 0 <;> simp [hk, State.dieSt]

end Sys2Proof.Machine
end

