-- ==== Sys2Proof/Proofs/BringUp.lean ====
section
/-! The supervisors that bring-up starts (R395, R464, R470). -/

namespace Sys2Proof.Machine

/-- Writing one value under some thread keys. -/
theorem State.foldl_setThread_const (x : Thread) (ts : List Nat) (s : State) :
    ts.foldl (fun b t => b.setThread t x) s = { s with thr := ts.foldl (fun m t => Tab.put t x m) s.thr } := by
  induction ts generalizing s with
  | nil => rfl
  | cons t ts ih => rw [List.foldl_cons, ih]; rfl

/-- What a supervisor's block on a die finds (R395). -/
structure SupAt (s : State) (p d : Nat) : Prop where
  core : ((s.core (81 * d)).blk.map (·.1)) = some (supOf p)
  warp : (s.warp (28 * (81 * d))).pl = 1
  thread : ∀ l, l < 16 → (s.thread (16 * (28 * (81 * d)) + l)).st = .runnable ∧ (s.thread (16 * (28 * (81 * d)) + l)).pc = Config.supEntry p

/-- A supervisor's block starts on core 0 of a die (R395). -/
def State.supBlock (p : Nat) (s : State) (db : Nat × Nat) : State :=
  ((s.setCore (db.1 * 81) { blk := some (supOf p, db.2) }).startWarps (supOf p) db.2 (db.1 * 81) 1).setBlk (supOf p) db.2 (.placed (db.1 * 81))

/-- What the start of a supervisor leaves of the rest. -/
structure SupOnly (s t : State) : Prop where
  rest : t = { s with thr := t.thr, wrp := t.wrp, cor := t.cor, ctxs := t.ctxs, parts := t.parts, nextId := t.nextId
                      mg := { s.mg with stopped := t.mg.stopped } }

theorem SupOnly.trans {a b c : State} (h : SupOnly a b) (h' : SupOnly b c) : SupOnly a c :=
  ⟨h'.rest.trans (by rw [h.rest])⟩

/-- A thread of an initial warp (R442). -/
def State.startThread (s : State) (ctx : Nat) : Thread :=
  { pc := (s.ctx ctx).lr.entry, st := .runnable, regs := (s.ctx ctx).lr.init.zipIdx.foldl (fun t (v, i) => Tab.set 0 i v t) [], stamp := s.stamp }

theorem State.startWarps_one {s : State} {ctx : Nat} (h : (s.ctx ctx).lr.warps = 1) (bid c : Nat) (pl : Int) :
    s.startWarps ctx bid c pl = { s with
      wrp := Tab.put (c * 28) { ctx := ctx, bid := bid, idx := 0, n := (s.ctx ctx).lr.regs, pl := pl } s.wrp
      thr := (threadsOf (c * 28)).foldl (fun m t => Tab.put t (s.startThread ctx) m) s.thr } := by
  unfold State.startWarps
  have hidx : c * 28 + 9 * (0 % 3) + 0 / 3 = c * 28 := by omega
  simp only [h, List.range_one, List.foldl_cons, List.foldl_nil, hidx]
  rw [State.foldl_setThread_const]
  rfl

/-- The warp of a supervisor's block (R395). -/
def State.supWarp (s : State) (p b : Nat) : Warp := { ctx := supOf p, bid := b, idx := 0, n := (s.ctx (supOf p)).lr.regs, pl := 1 }

theorem State.supBlock_eq {s : State} {p : Nat} (hone : (s.ctx (supOf p)).lr.warps = 1) (d b : Nat) :
    s.supBlock p (d, b) = { s with
      cor := Tab.put (d * 81) { blk := some (supOf p, b) } s.cor
      wrp := Tab.put (d * 81 * 28) (s.supWarp p b) s.wrp
      thr := (threadsOf (d * 81 * 28)).foldl (fun m t => Tab.put t (s.startThread (supOf p)) m) s.thr
      ctxs := Tab.put (supOf p) { s.ctx (supOf p) with blk := Tab.put b (.placed (d * 81)) (s.ctx (supOf p)).blk } s.ctxs } := by
  generalize hc : d * 81 = c
  unfold State.supBlock
  simp only [hc]
  rw [State.startWarps_one (by rw [State.ctx_setCore]; exact hone)]
  simp only [State.setBlk, State.setCtx, State.setCore, State.startThread, State.supWarp, State.ctx]

theorem State.supBlock_spec {s : State} {p : Nat} (hone : (s.ctx (supOf p)).lr.warps = 1) (hentry : (s.ctx (supOf p)).lr.entry = Config.supEntry p)
    (d b : Nat) : SupOnly s (s.supBlock p (d, b)) ∧ (s.supBlock p (d, b)).parts = s.parts ∧
      ((s.supBlock p (d, b)).ctx (supOf p)).lr = (s.ctx (supOf p)).lr ∧
      SupAt (s.supBlock p (d, b)) p d ∧ ∀ q e, e ≠ d → SupAt s q e → SupAt (s.supBlock p (d, b)) q e := by
  have heq := State.supBlock_eq hone d b
  obtain ⟨x, hx⟩ : ∃ x, s.startThread (supOf p) = x := ⟨_, rfl⟩
  have hst : x.st = .runnable := by rw [← hx]; rfl
  have hpc : x.pc = Config.supEntry p := by rw [← hx]; exact hentry
  obtain ⟨t, ht⟩ : ∃ t, s.supBlock p (d, b) = t := ⟨_, rfl⟩
  rw [ht] at heq ⊢
  rw [hx] at heq
  have hcore : ∀ k, t.core k = if k = d * 81 then { blk := some (supOf p, b) } else s.core k := fun k => by
    rw [State.core, heq, Tab.get_put]; rfl
  have hwarp : ∀ k, t.warp k = if k = d * 81 * 28 then s.supWarp p b else s.warp k := fun k => by
    rw [State.warp, heq, Tab.get_put]; rfl
  have hthread : ∀ k, t.thread k = if k ∈ threadsOf (d * 81 * 28) then x else s.thread k := fun k => by
    rw [State.thread, heq, Tab.get_foldl_put]; rfl
  have hctx : t.ctx (supOf p) = { s.ctx (supOf p) with blk := Tab.put b (.placed (d * 81)) (s.ctx (supOf p)).blk } := by
    rw [State.ctx, heq, Tab.get_put_self]
  refine ⟨⟨by rw [heq]⟩, by rw [heq], by rw [hctx], ⟨?_, ?_, fun l hl => ?_⟩, fun q e he h => ⟨?_, ?_, fun l hl => ?_⟩⟩
  · rw [hcore, if_pos (Nat.mul_comm ..)]; rfl
  · rw [hwarp, if_pos (by omega)]; rfl
  · rw [hthread, if_pos (mem_threadsOf.mpr ⟨l, hl, by unfold threadOf; omega⟩)]
    exact ⟨hst, hpc⟩
  · rw [hcore, if_neg (by omega)]; exact h.core
  · rw [hwarp, if_neg (by omega)]; exact h.warp
  · rw [hthread, if_neg fun hin => ?_]
    · exact h.thread l hl
    · obtain ⟨m, hm, heqm⟩ := mem_threadsOf.mp hin
      unfold threadOf at heqm
      omega

theorem State.foldl_supBlock_spec (p : Nat) (l : List (Nat × Nat)) {s : State} (hone : (s.ctx (supOf p)).lr.warps = 1)
    (hentry : (s.ctx (supOf p)).lr.entry = Config.supEntry p) : SupOnly s (l.foldl (State.supBlock p) s) ∧
      (l.foldl (State.supBlock p) s).parts = s.parts ∧ (∀ d ∈ l.map (·.1), SupAt (l.foldl (State.supBlock p) s) p d) ∧
      ∀ q e, e ∉ l.map (·.1) → SupAt s q e → SupAt (l.foldl (State.supBlock p) s) q e := by
  induction l generalizing s with
  | nil => exact ⟨⟨rfl⟩, rfl, by simp, fun _ _ _ h => h⟩
  | cons db l ih =>
    obtain ⟨d, b⟩ := db
    obtain ⟨hrest, hparts, hlr, hat, hothers⟩ := State.supBlock_spec hone hentry d b
    obtain ⟨hrest', hparts', hat', hothers'⟩ := ih (s := s.supBlock p (d, b)) (hlr ▸ hone) (hlr ▸ hentry)
    refine ⟨hrest.trans hrest', hparts'.trans hparts, fun e he => ?_, fun q e he h => ?_⟩
    · by_cases hl : e ∈ l.map (·.1)
      · exact hat' e hl
      · obtain rfl : e = d := (List.mem_cons.mp he).resolve_right hl
        exact hothers' p e hl hat
    · obtain ⟨hne, hl⟩ := not_or.mp (mt List.mem_cons.mpr he)
      exact hothers' q e hl (hothers q e hne h)

theorem State.startSup_spec (s : State) (p : Nat) : SupOnly s (s.startSup p) ∧
    (∀ q, (s.startSup p).part q = if q = p then { s.part p with up := true, flr := false } else s.part q) ∧
    (∀ d ∈ (s.part p).dies, SupAt (s.startSup p) p d) ∧ ∀ q d, d ∉ (s.part p).dies → SupAt s q d → SupAt (s.startSup p) q d := by
  obtain ⟨a, ha⟩ : ∃ a : State, { (s.setCtx (supOf p) (supContext p s.nextId (s.part p).dies)) with nextId := s.nextId + 1 } = a := ⟨_, rfl⟩
  have hctx : a.ctx (supOf p) = supContext p s.nextId (s.part p).dies := by rw [← ha]; exact State.ctx_setCtx_self ..
  obtain ⟨hrest, hparts, hat, hothers⟩ := State.foldl_supBlock_spec p (s.part p).dies.zipIdx (s := a) (by rw [hctx]; rfl) (by rw [hctx]; rfl)
  have hkeys : (s.part p).dies.zipIdx.map (·.1) = (s.part p).dies := List.zipIdx_map_fst ..
  rw [hkeys] at hat hothers
  obtain ⟨b, hb⟩ : ∃ b, (s.part p).dies.zipIdx.foldl (State.supBlock p) a = b := ⟨_, rfl⟩
  rw [hb] at hrest hparts hat hothers
  have heq : s.startSup p = { (b.setPart p { s.part p with up := true, flr := false }) with
      mg := { b.mg with stopped := b.mg.stopped.filter (fun c => !(s.part p).dies.contains (c / 81)) } } := by rw [← hb, ← ha]; rfl
  have hsa : SupOnly s a := ⟨by rw [← ha]; rfl⟩
  have hkeep : ∀ q d, SupAt b q d → SupAt (s.startSup p) q d := fun q d h => by rw [heq]; exact ⟨h.core, h.warp, h.thread⟩
  refine ⟨(hsa.trans hrest).trans ⟨by rw [heq]; rfl⟩, fun q => ?_, fun d hd => hkeep p d (hat d hd), fun q d hd h => hkeep q d (hothers q d hd ?_)⟩
  · rw [heq]
    refine (Tab.get_put ..).trans ?_
    rw [hparts, ← ha]; rfl
  · rw [← ha]; exact ⟨h.core, h.warp, h.thread⟩

/-- The supervisors of some partitions, whose dies are apart, start in turn. -/
theorem State.foldl_startSup_spec (ps : List Nat) {s : State} (hnodup : ps.Nodup)
    (happart : ∀ p ∈ ps, ∀ q ∈ ps, p ≠ q → ∀ d ∈ (s.part p).dies, d ∉ (s.part q).dies) :
    SupOnly s (ps.foldl (fun a p => a.startSup p) s) ∧
    (∀ p, (ps.foldl (fun a p => a.startSup p) s).part p = if p ∈ ps then { s.part p with up := true, flr := false } else s.part p) ∧
    (∀ p ∈ ps, ∀ d ∈ (s.part p).dies, SupAt (ps.foldl (fun a p => a.startSup p) s) p d) ∧
    ∀ q d, (∀ p ∈ ps, d ∉ (s.part p).dies) → SupAt s q d → SupAt (ps.foldl (fun a p => a.startSup p) s) q d := by
  induction ps generalizing s with
  | nil => exact ⟨⟨rfl⟩, by simp, by simp, fun _ _ _ h => h⟩
  | cons p ps ih =>
    obtain ⟨hp, hps⟩ := List.nodup_cons.mp hnodup
    obtain ⟨hrest, hpart, hat, hothers⟩ := s.startSup_spec p
    have hdies : ∀ q, ((s.startSup p).part q).dies = (s.part q).dies := fun q => by
      rw [hpart]; split
      · next h => rw [h]
      · rfl
    obtain ⟨hrest', hpart', hat', hothers'⟩ := ih (s := s.startSup p) hps fun q hq r hr hne => by
      rw [hdies, hdies]; exact happart q (List.mem_cons_of_mem _ hq) r (List.mem_cons_of_mem _ hr) hne
    refine ⟨hrest.trans hrest', fun q => ?_, fun q hq d hd => ?_, fun q d hd h => ?_⟩
    · rw [List.foldl_cons, hpart', hpart]
      by_cases hq : q = p
      · subst hq; simp [hp]
      · simp [hq]
    · rcases List.mem_cons.mp hq with rfl | hq'
      · refine hothers' q d (fun r hr => ?_) (hat d hd)
        rw [hdies]
        exact happart q List.mem_cons_self r (List.mem_cons_of_mem _ hr) (fun h => hp (h ▸ hr)) d hd
      · exact hat' q hq' d (by rwa [hdies])
    · refine hothers' q d (fun r hr => ?_) (hothers q d (hd p List.mem_cons_self) h)
      rw [hdies]
      exact hd r (List.mem_cons_of_mem _ hr)

/-! The layout, and what bring-up does before the supervisors start. -/

theorem layoutDies_apart (cfg : Nat) : (layoutDies cfg).Pairwise List.Disjoint := by
  unfold layoutDies
  split
  · exact List.pairwise_singleton _ _
  · simp only [List.range_succ, List.range_zero, List.nil_append, List.cons_append, List.flatMap_cons, List.flatMap_nil, List.append_nil]
    split <;> split <;> split <;> simp [List.Disjoint]

theorem find_layoutOf {cfg p : Nat} {x : Part} (h : Tab.find (layoutOf cfg) p = some x) :
    ∃ i, p = i + 1 ∧ (layoutDies cfg)[i]? = some x.dies ∧ x.flr = false := by
  obtain ⟨⟨ds, i⟩, hmem, heq⟩ := List.mem_map.mp (Tab.mem_of_find h)
  obtain ⟨rfl, rfl⟩ := Prod.mk.inj heq
  exact ⟨i, rfl, List.mk_mem_zipIdx_iff_getElem?.mp hmem, rfl⟩

theorem layoutOf_apart {cfg p q : Nat} {x y : Part} (hx : Tab.find (layoutOf cfg) p = some x) (hy : Tab.find (layoutOf cfg) q = some y) (hne : p ≠ q) :
    ∀ d ∈ x.dies, d ∉ y.dies := by
  obtain ⟨i, rfl, hi, _⟩ := find_layoutOf hx
  obtain ⟨j, rfl, hj, _⟩ := find_layoutOf hy
  obtain ⟨hil, hi⟩ := List.getElem?_eq_some_iff.mp hi
  obtain ⟨hjl, hj⟩ := List.getElem?_eq_some_iff.mp hj
  have hpair := List.pairwise_iff_getElem.mp (layoutDies_apart cfg)
  rw [← hi, ← hj]
  rcases Nat.lt_or_gt_of_ne (fun h : i = j => hne (by rw [h])) with h | h
  · exact fun d hd hd' => hpair i j hil hjl h hd hd'
  · exact fun d hd hd' => hpair j i hjl hil h hd' hd

theorem sorted_layoutOf (cfg : Nat) : Tab.sorted (layoutOf cfg) = true := by
  have hgen : ∀ (ds : List (List Nat)) (k : Nat),
      Tab.sorted ((ds.zipIdx k).map (fun (ds, i) => (i + 1, ({ dies := ds, portB := cfg.testBit (16 + i) } : Part)))) = true := by
    intro ds
    induction ds with
    | nil => exact fun _ => rfl
    | cons e ds ih =>
      refine fun k => (Tab.sorted_cons ..).mpr ⟨fun q hq => ?_, ih (k + 1)⟩
      obtain ⟨⟨e', i⟩, hmem, rfl⟩ := List.mem_map.mp hq
      have hle := (List.mem_zipIdx hmem).1
      show k + 1 < i + 1
      omega
  exact hgen _ 0

theorem State.renumber_mg (s : State) (p : Nat) : (s.renumber p).mg = s.mg ∧ (s.renumber p).pkg = p := by
  unfold State.renumber
  split
  · next h => exact ⟨rfl, h.symm⟩
  · exact ⟨rfl, rfl⟩

theorem State.foldl_setDie_rest {α : Type} (F : State → α → State) (hF : ∀ a x, F a x = { a with die := (F a x).die }) (l : List α) (s : State) :
    l.foldl F s = { s with die := (l.foldl F s).die } := by
  induction l generalizing s with
  | nil => rfl
  | cons x l ih => rw [List.foldl_cons, ih]; exact (by rw [hF])

theorem State.startTime_rest (s : State) : s.startTime = { s with die := s.startTime.die, fresh := s.startTime.fresh } := by
  unfold State.startTime
  simp only []
  rw [State.foldl_setDie_rest _ fun a x => rfl]

theorem State.resetOwners_rest (s : State) : s.resetOwners false = { s with die := (s.resetOwners false).die } := by
  unfold State.resetOwners
  exact State.foldl_setDie_rest _ (fun a x => rfl) _ _

theorem State.setBoot_part (s : State) (v : Nat) : s.setBoot v = { s with mg := { s.mg with bootst := v, msix := (s.setBoot v).mg.msix } } := by
  unfold State.setBoot
  split
  · next h => rw [← h]
  · rfl

theorem exec_bringUpComplete_starts {s : State} (hon : s.mg.powerOff = false) (hboot : s.mg.bootst = 4) (hgood : domainBad s.mg.domcfg = false) :
    ∃ t, exec (.bringUpComplete true) s = .next t ∧
    t.pkg = s.mg.domcfg / 2 ^ 27 % 2 ^ 5 ∧ t.mg.bootst = 5 ∧ t.mg.partcfg = s.mg.pending ∧ t.mg.domain = s.mg.domcfg % 2 ^ 27 ∧
    ∀ p x, Tab.find (layoutOf s.mg.pending) p = some x → t.part p = { x with up := true } ∧
      ∀ d ∈ x.dies, SupAt t p d := by
  obtain ⟨hmg, hpkg⟩ := s.renumber_mg (bitsOf s.mg.domcfg 27 5)
  obtain ⟨s1, hs1⟩ : ∃ s1, s.renumber (bitsOf s.mg.domcfg 27 5) = s1 := ⟨_, rfl⟩
  rw [hs1] at hmg hpkg
  obtain ⟨s2, hs2⟩ : ∃ s2, ({ s1 with mg := { s1.mg with domain := s1.mg.domcfg % 2 ^ 27 } } : State).startTime = s2 := ⟨_, rfl⟩
  have hrest2 := State.startTime_rest { s1 with mg := { s1.mg with domain := s1.mg.domcfg % 2 ^ 27 } }
  rw [hs2] at hrest2
  obtain ⟨s3, hs3⟩ : ∃ s3, ({ s2 with parts := layoutOf s2.mg.pending, mg := { s2.mg with partcfg := s2.mg.pending, applying := false } } : State).resetOwners false = s3 := ⟨_, rfl⟩
  have hrest3 := State.resetOwners_rest { s2 with parts := layoutOf s2.mg.pending, mg := { s2.mg with partcfg := s2.mg.pending, applying := false } }
  rw [hs3] at hrest3
  have hmg2 : s2.mg = { s.mg with domain := s.mg.domcfg % 2 ^ 27 } := by rw [hrest2, ← hmg]
  have hmg3 : s3.mg = { s.mg with domain := s.mg.domcfg % 2 ^ 27, partcfg := s.mg.pending, applying := false } := by rw [hrest3]; simp only [hmg2]
  have hparts : s3.parts = layoutOf s.mg.pending := by rw [hrest3]; simp only [hmg2]
  have hpkg3 : s3.pkg = bitsOf s.mg.domcfg 27 5 := by rw [hrest3, hrest2]; exact hpkg
  have hfind : ∀ p ∈ s3.parts.map (·.1), Tab.find (layoutOf s.mg.pending) p = some (s3.part p) := fun p hp => by
    rw [hparts] at hp
    obtain ⟨x, hx⟩ := Option.isSome_iff_exists.mp ((Tab.mem_keys_iff (sorted_layoutOf _)).mp hp)
    rw [State.part, hparts, Tab.get_of_find {} x p _ hx, hx]
  obtain ⟨hrest, hpart, hat, _⟩ := State.foldl_startSup_spec (s3.parts.map (·.1)) (s := s3) (Tab.nodup_keys_of_sorted (hparts ▸ sorted_layoutOf _))
    fun p hp q hq hne => layoutOf_apart (hfind p hp) (hfind q hq) hne
  obtain ⟨s4, hs4⟩ : ∃ s4, (s3.parts.map (·.1)).foldl (fun a p => a.startSup p) s3 = s4 := ⟨_, rfl⟩
  rw [hs4] at hrest hpart hat
  have hmg4 : s4.mg = { s3.mg with stopped := s4.mg.stopped } := by rw [hrest.rest]
  have hboot' := State.setBoot_part s4 5
  refine ⟨s4.setBoot 5, ?_, ?_, ?_, ?_, ?_, fun p x hx => ?_⟩
  · change execBringUpComplete _ s = _
    rw [execBringUpComplete, State.linked_of_on hon, if_neg (not_not.mpr hboot), if_neg (by simp [hgood])]
    simp only [hs1, hs2, State.applyLayout, hs3, if_true, hs4]
  · rw [hboot', hrest.rest]; exact hpkg3
  · rw [hboot']
  · rw [hboot', hmg4, hmg3]
  · rw [hboot', hmg4, hmg3]
  · have hp : p ∈ s3.parts.map (·.1) := by rw [hparts]; exact List.mem_map.mpr ⟨_, Tab.mem_of_find hx, rfl⟩
    have hself : s3.part p = x := by rw [State.part, hparts, Tab.get_of_find {} x p _ hx]
    obtain ⟨_, _, _, hflr⟩ := find_layoutOf hx
    rw [hboot']
    refine ⟨(hpart p).trans ?_, fun d hd => ?_⟩
    · rw [if_pos hp, hself, ← hflr]
    · obtain ⟨hc, hw, ht⟩ := hat p hp d (hself ▸ hd)
      exact ⟨hc, hw, ht⟩

/-- Settles O52: the kills fold over the contexts and leave work undrained, the layout's dies are apart, and the rest are equations. -/
theorem supervisors : Obligations.Supervisors := by
  unfold Obligations.Supervisors
  refine ⟨?_, ?_, fun s hon => exec_functionLevelReset_zero hon, fun s ok hon hboot hbad => exec_bringUpComplete_fails hon hboot hbad, ?_,
    fun s hpkg => exec_powerUp hpkg⟩
  · rintro s m r hon rfl howner hidle hc hp hw hr hmust hlive hpart
    exact exec_partctlApply_begins hon howner hidle hc hp hw hr hmust hlive hpart
  · intro s f fn r hon hf hfn hidle hc _ hw hflr hr hmust hlive hpart
    exact exec_functionLevelReset_begins hon hf hfn hidle hc hw hflr hr hmust hlive hpart
  · intro s hon hboot hgood
    obtain ⟨t, hexec, hpkg, hboot', hpartcfg, hdomain, hparts⟩ := exec_bringUpComplete_starts hon hboot hgood
    refine ⟨t, hexec, hpkg, hboot', hpartcfg, hdomain, fun p x hx => ⟨(hparts p x hx).1, fun d hd => ?_⟩⟩
    obtain ⟨hcore, hwarp, hthread⟩ := (hparts p x hx).2 d hd
    exact ⟨hcore, hwarp, hthread⟩

end Sys2Proof.Machine
end

