-- ==== Sys2Proof/Proofs/Walks.lean ====
section
/-! Walks of the tables (R421-R423, R428). -/

namespace Sys2Proof.Machine

/-! What the fills of a walk leave of the owners' tables. -/

/-- Of the owners' tables, what L2 holds has changed. -/
structure L2Only (s t : State) : Prop where
  dies : ∀ k, t.dieSt k = { s.dieSt k with l2 := (t.dieSt k).l2 }

namespace L2Only

variable {a b c : State}

theorem refl (a : State) : L2Only a a := ⟨fun _ => rfl⟩

theorem trans (h : L2Only a b) (h' : L2Only b c) : L2Only a c := ⟨fun k => (h'.dies k).trans (by rw [h.dies k])⟩

theorem of_die (h : b.die = a.die) : L2Only a b := ⟨fun k => by rw [State.dieSt, h]; rfl⟩

theorem foldl {α : Type} {f : State → α → State} (hf : ∀ x i, L2Only x (f x i)) (is : List α) (a : State) : L2Only a (is.foldl f a) := by
  induction is generalizing a with
  | nil => exact .refl a
  | cons i is ih => exact (hf a i).trans (ih _)

theorem foldl_fst {α β : Type} {f : State × β → α → State × β} (hf : ∀ p i, L2Only p.1 (f p i).1) (is : List α) (p : State × β) :
    L2Only p.1 (is.foldl f p).1 := by
  induction is generalizing p with
  | nil => exact .refl p.1
  | cons i is ih => exact (hf p i).trans (ih _)

end L2Only

section
variable (a : State)

theorem State.setSec_l2Only (own : Nat) (k : Int) (cmp : Bool) (x : L2Sec) : L2Only a (a.setSec own k cmp x) := ⟨fun j => by
  rw [State.setSec, State.dieSt_setDie]
  split
  · next h => rw [h]
  · rfl⟩

theorem State.countAll_l2Only (ctx die : Nat) (cs : List Nat) : L2Only a (a.countAll ctx die cs) := 
  L2Only.foldl (f := fun a c => a.count ctx die (ctrOf c) 1) (fun x _ => .of_die (a := x) rfl) cs a

theorem State.setBad_l2Only (bad : List (Nat × Nat)) : L2Only a { a with bad := bad } := ⟨fun _ => rfl⟩

theorem State.setBytes_l2Only (own b : Nat) (vs : List Nat) : L2Only a (a.setBytes own b vs) := .of_die (by rw [State.setBytes_rest])

theorem State.evictSec_l2Only (own : Nat) (k : Int) (cmp : Bool) : L2Only a (a.evictSec own k cmp) := by
  unfold State.evictSec
  dsimp only
  have hcount : ∀ ctx die cs, ∀ p : Bool, L2Only a (if p then a.countAll ctx die cs else a) := fun ctx die cs p => by
    split
    · exact a.countAll_l2Only ..
    · exact .refl a
  split
  · exact (hcount _ _ _ _).trans (State.setSec_l2Only ..)
  · exact (hcount _ _ _ _).trans ((State.setBad_l2Only ..).trans ((State.setBytes_l2Only ..).trans (State.setSec_l2Only ..)))

theorem State.l2Room_l2Only (own slice : Nat) (l : Int) (cmp : Bool) : L2Only a (a.l2Room own slice l cmp) := by
  unfold State.l2Room
  dsimp only
  split
  · exact .refl a
  · exact .foldl (fun x _ => x.evictSec_l2Only ..) _ a

theorem State.fillSec_l2Only (own : Nat) (k : Int) (cmp : Bool) (ctx die sl : Nat) : L2Only a (a.fillSec own k cmp ctx die sl).1 :=
  (a.l2Room_l2Only ..).trans ((State.setSec_l2Only ..).trans (State.countAll_l2Only ..))

theorem State.fillFor_l2Only (own : Nat) (pas : List Int) (cmp : Bool) (ctx die : Nat) (sl : Int → Nat) :
    L2Only a (a.fillFor own pas cmp ctx die sl).1 :=
  L2Only.foldl_fst (fun p _ => by
    dsimp only
    split
    · exact .refl p.1
    · exact p.1.fillSec_l2Only ..) pas (a, [])

theorem State.lostRead_l2Only (own : Nat) (pas : List Int) (cmp : Bool) (ctx die : Nat) : L2Only a (a.lostRead own pas cmp ctx die).1 := by
  unfold State.lostRead
  split
  · exact .of_die rfl
  · exact .refl a

theorem State.walkFills_l2Only (own ctx die : Nat) (root off : Int) : L2Only a (a.walkFills own ctx die root off) :=
  (a.fillFor_l2Only ..).trans (.foldl (fun x _ => x.lostRead_l2Only ..) _ _)

end

/-- A translation leaves the miss table as it is (R428). -/
theorem State.translate_faultHeld (s : State) (own ctx core : Nat) (off : Int) (o c : Nat) (f : Int) :
    (s.translate own ctx core off).1.faultHeld o c f = s.faultHeld o c f := by
  have hsame : ∀ t : State, (t.dieSt o).fb = (s.dieSt o).fb → (t.dieSt o).missed = (s.dieSt o).missed → t.faultHeld o c f = s.faultHeld o c f :=
    fun t hf hm => by rw [State.faultHeld, State.faultHeld, hf, hm]
  have hkeep : ∀ (t : State) e, ((t.tlbKeep own core e).dieSt o).fb = (t.dieSt o).fb ∧ ((t.tlbKeep own core e).dieSt o).missed = (t.dieSt o).missed :=
    fun t e => by
      rw [State.tlbKeep, State.dieSt_setDie]
      split
      · next h => subst h; exact ⟨rfl, rfl⟩
      · exact ⟨rfl, rfl⟩
  have hfills := s.walkFills_l2Only own ctx (dieIdx core) (Tab.get 0 (s.dieSt own).roots ctx) off |>.dies o
  unfold State.translate
  split
  · rfl
  split
  · rfl
  split
  · rfl
  split
  · exact hsame _ (hkeep s _).1 (hkeep s _).2
  split
  · rfl
  dsimp only
  split
  · refine hsame _ ((hkeep _ _).1.trans ?_) ((hkeep _ _).2.trans ?_) <;> rw [State.dieSt_setDie] <;> split
    · next h => subst h; rw [hfills]
    · rw [hfills]
    · next h => subst h; rw [hfills]
    · rw [hfills]
  · exact hsame _ (by rw [hfills]) (by rw [hfills])

/-! The walk. -/

theorem trit_cases (x : Int) (i : Nat) : trit x i = -1 ∨ trit x i = 0 ∨ trit x i = 1 := by
  have h : trit x i = (shr x i + 1) % 3 - 1 := rfl
  omega

theorem trit_eq_ite {x : Int} {i : Nat} {b : Bool} : trit x i = (if b = true then 1 else 0) ↔ trit x i ≠ -1 ∧ decide (trit x i = 1) = b := by
  have h := trit_cases x i
  cases b <;> simp <;> omega

theorem offF_eq_iff {x : Int} {lo n k : Nat} {h : Int} (hh : half n = h) : fld x lo n + h = (k : Int) ↔ offF x lo n = k := by
  rw [← hh, ← offF_eq, Int.ofNat_inj]

/-- The checks of a leaf entry (R423). -/
theorem readLeaf_eq_some {own lvl : Nat} {e : Int} {x : Leaf} : readLeaf own lvl e = some x ↔ LeafAt own lvl e x := by
  have h2 : half 2 = 4 := rfl
  have h4 : half 4 = 40 := rfl
  unfold readLeaf
  dsimp only
  rw [Option.ite_none_right_eq_some, Option.some.injEq]
  simp only [Bool.and_eq_true, decide_eq_true_eq]
  constructor
  · rintro ⟨⟨⟨⟨⟨⟨⟨⟨⟨⟨⟨⟨⟨hsize, hlvl⟩, hr⟩, hw⟩, hx⟩, hc⟩, hplace⟩, hlease⟩, hclown⟩, hzero⟩, hframe⟩, hlow⟩, hhigh⟩, rfl⟩
    refine ⟨(offF_eq_iff h2).mpr rfl, ?_, ⟨trit_eq_ite.mpr ⟨hr, rfl⟩, trit_eq_ite.mpr ⟨hw, rfl⟩, trit_eq_ite.mpr ⟨hx, rfl⟩, trit_eq_ite.mpr ⟨hc, rfl⟩⟩,
      ⟨(offF_eq_iff h2).mpr rfl, hplace⟩, ⟨(offF_eq_iff h2).mpr rfl, hlease⟩, ⟨(offF_eq_iff h4).mpr rfl, hclown⟩, hzero, ⟨rfl, fun h => ?_, fun h => ?_⟩,
      hlow, hhigh⟩
    · dsimp only
      split at hlvl <;> omega
    · rwa [if_pos (show offF e 51 2 = 1 from h)] at hframe
    · have h' : offF e 51 2 = 2 := h
      rw [if_neg (by omega), if_pos h'] at hframe
      exact hframe
  · rintro ⟨hsize, hlvl, ⟨hr, hw, hx, hc⟩, ⟨hplace, hplace'⟩, ⟨hlease, hlease'⟩, ⟨hclown, hclown'⟩, hzero, ⟨hpa, hone, htwo⟩, hlow, hhigh⟩
    obtain ⟨size, r, w, xx, cmp, place, lease, clown, pa⟩ := x
    dsimp only at *
    rw [offF_eq_iff h2] at hsize hplace hlease
    rw [offF_eq_iff h4] at hclown
    obtain ⟨hr', rfl⟩ := trit_eq_ite.mp hr
    obtain ⟨hw', rfl⟩ := trit_eq_ite.mp hw
    obtain ⟨hx', rfl⟩ := trit_eq_ite.mp hx
    obtain ⟨hc', rfl⟩ := trit_eq_ite.mp hc
    subst hsize hplace hlease hclown hpa
    refine ⟨⟨⟨⟨⟨⟨⟨⟨⟨⟨⟨⟨⟨?_, ?_⟩, hr'⟩, hw'⟩, hx'⟩, hc'⟩, hplace'⟩, hlease'⟩, hclown'⟩, hzero⟩, ?_⟩, hlow⟩, hhigh⟩, rfl⟩
    · omega
    · split <;> omega
    · split
      · next h => exact hone h
      · split
        · next h => exact htwo h
        · trivial

theorem State.entryAt_eq (s : State) (own : Nat) (off n : Int) (lvl : Nat) :
    s.physDword own (n + 6 * (offF off (41 - 6 * lvl) 6 : Int)) = s.entryAt own off n lvl := by
  rw [State.entryAt, offF_eq]; rfl

section
variable {s : State} {own lvl : Nat} {off n : Int} (fuel : Nat)

/-! One level of a walk. -/

theorem State.walk_invalid (h : trit (s.entryAt own off n lvl) 53 = 0) : s.walk own off n (fuel + 1) lvl = .miss false := by
  rw [State.walk, State.entryAt_eq]
  exact if_pos h

theorem State.walk_leaf (h : trit (s.entryAt own off n lvl) 53 = 1) {x : Leaf} (hleaf : LeafAt own lvl (s.entryAt own off n lvl) x) :
    s.walk own off n (fuel + 1) lvl = .leaf x := by
  rw [State.walk, State.entryAt_eq]
  simp only [h, readLeaf_eq_some.mpr hleaf]
  rfl

theorem State.walk_badLeaf (h : trit (s.entryAt own off n lvl) 53 = 1) (hleaf : ∀ x, ¬ LeafAt own lvl (s.entryAt own off n lvl) x) :
    s.walk own off n (fuel + 1) lvl = .miss true := by
  have hnone : readLeaf own lvl (s.entryAt own off n lvl) = none := Option.eq_none_iff_forall_ne_some.mpr fun x hx => hleaf x (readLeaf_eq_some.mp hx)
  rw [State.walk, State.entryAt_eq]
  simp only [h, hnone]
  rfl

theorem State.walk_badPointer (h : trit (s.entryAt own off n lvl) 53 = -1) (hbad : lvl = 5 ∨ ¬ pointerOk own (s.entryAt own off n lvl)) :
    s.walk own off n (fuel + 1) lvl = .miss true := by
  rw [State.walk, State.entryAt_eq]
  dsimp only
  rw [if_neg (by rw [h]; decide), if_neg (by rw [h]; decide), if_pos]
  refine hbad.imp_right fun hnot => ?_
  unfold pointerOk at hnot
  simp only [Bool.not_eq_true', ← Bool.not_eq_true]
  tauto

theorem State.walk_pointer (h : trit (s.entryAt own off n lvl) 53 = -1) (hlvl : lvl ≠ 5) (hgood : pointerOk own (s.entryAt own off n lvl)) :
    s.walk own off n (fuel + 1) lvl = s.walk own off (fld (s.entryAt own off n lvl) 0 47 - 3280) fuel (lvl + 1) := by
  rw [State.walk, State.entryAt_eq]
  dsimp only
  rw [if_neg (by rw [h]; decide), if_neg (by rw [h]; decide), if_neg]
  obtain ⟨hhigh, hlow, hfirst, hlast⟩ := hgood
  simp [hlvl, hhigh, hlow, hfirst, hlast]

end

theorem State.walk_of_walks {s : State} {own : Nat} {off root n : Int} {lvl : Nat} (h : s.Walks own off root lvl n) :
    ∀ fuel, s.walk own off root (lvl + fuel) 0 = s.walk own off n fuel lvl := by
  induction h with
  | root => intro fuel; rw [Nat.zero_add]
  | next lvl n _ hlvl htrit hgood ih =>
    intro fuel
    rw [Nat.add_right_comm, Nat.add_assoc, ih, State.walk_pointer fuel htrit hlvl.ne hgood]

/-- What a translation that must walk comes to (R421, R422). -/
theorem State.translate_of_walking {s : State} {own ctx core : Nat} {off root : Int} (h : s.Walking own ctx core off root) :
    s.translate own ctx core off = match s.walk own off root 6 0 with
      | .leaf l => (((s.walkFills own ctx (dieIdx core) root off).setDie own { (s.walkFills own ctx (dieIdx core) root off).dieSt own with
          tlb := (({ ctx := ctx, va := off, leaf := l } : TlbE) :: ((s.walkFills own ctx (dieIdx core) root off).dieSt own).tlb).take 19683 }).tlbKeep
            own core { ctx := ctx, va := off, leaf := l }, .leaf l)
      | .miss m => (s.walkFills own ctx (dieIdx core) root off, .miss m) := by
  obtain ⟨htables, ⟨hroot, hne⟩, hnear, hfar, hfree⟩ := h
  unfold State.translate
  rw [if_neg (by simp [htables]), if_neg (by simp [hroot, hne]), hnear, hfar, hroot]
  dsimp only
  exact if_neg (by rw [hfree]; exact Bool.false_ne_true)

theorem TlbE.has_self (ctx : Nat) (off : Int) (l : Leaf) : TlbE.has ctx off { ctx := ctx, va := off, leaf := l } = true := by
  simp [TlbE.has]

/-- The entry that a table keeps is met first (R421). -/
theorem State.tlbNear_tlbKeep (s : State) (own ctx core : Nat) (off : Int) (l : Leaf) :
    (s.tlbKeep own core { ctx := ctx, va := off, leaf := l }).tlbNear own ctx core off = some l := by
  have hpath : (s.tlbKeep own core { ctx := ctx, va := off, leaf := l }).tlbPath own core = s.tlbPath own core := rfl
  rw [State.tlbNear, hpath, State.tlbKeep, State.dieSt_setDie_self, Tab.get_put_self, List.take_succ_cons, List.find?_cons_of_pos (TlbE.has_self ..)]
  rfl

theorem State.translate_walked_leaf {s : State} {own ctx core : Nat} {off root : Int} {x : Leaf} (h : s.Walking own ctx core off root)
    (hwalk : s.walk own off root 6 0 = .leaf x) : ∃ t, s.translate own ctx core off = (t, .leaf x) ∧
    t.tlbNear own ctx core off = some x ∧ t.thr = s.thr ∧ t.reqs = s.reqs := by
  have heq := State.translate_of_walking h
  rw [hwalk] at heq
  have hwork := s.translate_homeWork own ctx core off
  rw [heq] at hwork
  exact ⟨_, heq, State.tlbNear_tlbKeep .., hwork.thr, hwork.reqs⟩

theorem State.translate_walked_miss {s : State} {own ctx core : Nat} {off root : Int} {m : Bool} (h : s.Walking own ctx core off root)
    (hwalk : s.walk own off root 6 0 = .miss m) : (s.translate own ctx core off).2 = .miss m := by
  rw [State.translate_of_walking h, hwalk]

/-- The levels that are left below a node (R422). -/
theorem State.walk_from {s : State} {own : Nat} {off root n : Int} {lvl : Nat} (h : s.Walks own off root lvl n) (hlvl : lvl ≤ 5) :
    s.walk own off root 6 0 = s.walk own off n (5 - lvl + 1) lvl := by
  rw [← State.walk_of_walks h]
  congr 1
  omega

/-! A load whose walk faults (R422, R428). -/

theorem State.translated_of_miss {s : State} {r : Req} {m : Bool} (hone : r.ea2 = none) (hmiss : (s.translate r.own r.ctx r.core (offOf r.ea)).2 = .miss m) :
    s.translated r = (s.translate r.own r.ctx r.core (offOf r.ea)).1.missed { r with t := r.ea } m := by
  unfold State.translated
  simp only [hone, Option.isSome_none, Bool.false_eq_true, if_false, hmiss]

/-- A request whose pair is not held waits for its turn (R429). -/
theorem State.missed_eq {s : State} {r : Req} (hfree : s.faultHeld r.faultOwner r.ctx (offOf r.t) = false)
    (halone : ∀ q ∈ s.reqs, ∀ b, q.stage ≠ .faulted b) (m : Bool) :
    s.missed r m = { s.setReq { r with stage := .faulted m, arr := s.nextId } with nextId := s.nextId + 1 } := by
  unfold State.missed
  rw [hfree, if_neg Bool.false_ne_true]
  dsimp only
  generalize hmate : List.find? _ s.reqs = mate
  have hnone : mate = none := by
    rw [← hmate]
    refine List.find?_eq_none.mpr fun q hq => ?_
    have hstage := halone q hq
    cases hst : q.stage with
    | faulted b => exact absurd hst (hstage b)
    | _ => simp
  rw [hnone]
  rfl

theorem exec_ownerAnswer_missed {s : State} {id : Nat} {r : Req} {sz : Sz} {d : Nat} {le : Lease} {nb m : Bool} (hreq : s.req id = some r)
    (hkind : r.kind = .load sz d le nb) (hstage : r.stage = .owner) (haway : r.held = false) (hspace : spaceOf r.ea ≠ -1) (hone : r.ea2 = none)
    (hown : r.own = ownerOf r.ea) (harrived : r.sent ≤ (s.dieSt r.own).clk) (hbefore : s.ownerBefore r = false)
    (htables : s.hasTables r.own r.ctx = true) (hwin : s.winAt r.own r.ctx (offOf r.ea) = none) (hwatch : s.watched r = false)
    (hmiss : (s.translate r.own r.ctx r.core (offOf r.ea)).2 = .miss m) (hfree : s.faultHeld r.own r.ctx (offOf r.ea) = false)
    (halone : ∀ q ∈ s.reqs, ∀ b, q.stage ≠ .faulted b) : ∃ t, exec (.ownerAnswer id) s = .next t ∧ t.thr = s.thr ∧
      t.reqs = (s.setReq { r with t := r.ea, stage := .faulted m, arr := s.nextId }).reqs := by
  have hfate : s.ownersFate r 5 = none := by
    simp [State.ownersFate, hone, ← hown, htables, hwin]
  have hanswer : s.ownerAnswer r = s.translated r := by
    simp only [State.ownerAnswer, hkind, hfate, hwatch, Bool.false_eq_true, if_false]
  have hfresh : r.joined = false := by simp [Req.joined, hstage]
  have hwork := s.translate_homeWork r.own r.ctx r.core (offOf r.ea)
  obtain ⟨a, ha⟩ : ∃ a, (s.translate r.own r.ctx r.core (offOf r.ea)).1 = a := ⟨_, rfl⟩
  have hheld : a.faultHeld r.own r.ctx (offOf r.ea) = false := by rw [← ha, State.translate_faultHeld]; exact hfree
  have howner : ({ r with t := r.ea } : Req).faultOwner = r.own := by simp [Req.faultOwner, hone]
  rw [ha] at hwork
  have hmissed := State.missed_eq (s := a) (r := { r with t := r.ea }) (by rw [howner]; exact hheld) (by rw [hwork.reqs]; exact halone) m
  have hexec : exec (.ownerAnswer id) s = .next (a.missed { r with t := r.ea } m) := by
    change execOwnerAnswer id s = _
    simp only [execOwnerAnswer, hreq, hfresh, hstage, haway, hbefore, if_neg hspace, hanswer, State.translated_of_miss hone hmiss, ha]
    simp [harrived.not_gt]
  rw [hmissed] at hexec
  refine ⟨_, hexec, ?_, ?_⟩
  · exact hwork.thr
  · have hnext : a.nextId = s.nextId := by rw [hwork.rest]
    simp only [State.setReq, hwork.reqs, hnext]

/-! Requests that no link delivers (R462). -/

theorem State.execHairlineUndeliverable_eq {s : State} {id : Nat} {r : Req} (hreq : s.req id = some r) (hheld : r.held = true)
    (hroute : s.routeUp (r.own / 27) = false) (hlong : r.sent + 10000000 ≤ s.now r.core) :
    exec (.hairlineUndeliverable id) s = .next (s.bestEffort r) := by
  change execHairlineUndeliverable id s = _
  unfold execHairlineUndeliverable
  rw [hreq]
  exact if_pos ⟨hheld, by simp [hroute], hlong⟩

/-- Nothing has changed that decides whether something is due in a warp, whatever a context counts. -/
structure KeptBut (s a : State) (w : Nat) : Prop where
  dbg : (a.ctx (a.warp w).ctx).dbg = (s.ctx (s.warp w).ctx).dbg
  hm : (a.warp w).hm = (s.warp w).hm
  stopping : (a.warp w).stopping = (s.warp w).stopping
  threads : ∀ k ∈ threadsOf w, (s.thread k).MeetsAs (a.thread k)

/-- A lane whose request is accepted retires, whatever it owes (R219). -/
theorem State.retireReq_eq_of_keptBut {s a : State} {r : Req} (hstill : s.stillReq r) (hrun : (a.thread r.thr).st = .runnable) (hkept : KeptBut s a r.warp) :
    a.retireReq r = a.setThread r.thr ((a.thread r.thr).retired r.next) := by
  have hretire : a.retire r.thr r.next = a.setThread r.thr ((a.thread r.thr).retired r.next) :=
    State.retire_eq _ _ _ (by rw [State.warpOf_thr hstill]; exact hstill.1.wid) (by simp [hrun])
  have hmeets : ∀ k ∈ threadsOf r.warp, (s.thread k).MeetsAs ((a.setThread r.thr ((a.thread r.thr).retired r.next)).thread k) := fun k hk => by
    rw [State.thread_setThread]
    split
    · next hu => exact (hkept.threads k hk).trans (hu ▸ Thread.meetsAs_retired_of_runnable hrun _)
    · exact hkept.threads k hk
  rw [State.retireReq, if_neg hstill.2.1.ne, hretire, State.stepTrap_eq]
  · exact hstill.1.settle_eq_of_meetsAs (hkept.stopping.trans hstill.1.going) hmeets
  · rw [State.warp_setThread, State.ctx_setThread, hkept.dbg, hkept.hm]
    exact hstill.1.nostep

theorem State.ctx_count (s : State) (ctx die n : Nat) (k : Int) (c : Nat) :
    (s.count ctx die n k).ctx c = if c = ctx then (s.ctx c).counted die n k else s.ctx c := by
  rw [State.count, State.ctx_setCtx]
  split
  · next h => rw [h]; rfl
  · rfl

theorem State.dbg_count (s : State) (ctx die n : Nat) (k : Int) (c : Nat) : ((s.count ctx die n k).ctx c).dbg = (s.ctx c).dbg := by
  rw [State.ctx_count]
  split <;> rfl

theorem exec_hairlineUndeliverable_load {s : State} {id : Nat} {r : Req} {sz : Sz} {d : Nat} {le : Lease} {nb : Bool} (hreq : s.req id = some r)
    (hkind : r.kind = .load sz d le nb) (hheld : r.held = true) (hroute : s.routeUp (r.own / 27) = false)
    (hlong : r.sent + 10000000 ≤ s.now r.core) (hstill : s.stillReq r) (hrun : (s.thread r.thr).st = .runnable) :
    ∃ t, exec (.hairlineUndeliverable id) s = .next t ∧ t = { s with thr := t.thr, reqs := t.reqs, ctxs := t.ctxs } ∧
    t.reqs = (s.setReq { r with held := false, causes := r.causes ++ [17], stage := .l1
                                got := (reqTrytes r).foldl (fun g a => Tab.put (ikey a) 0 g) [] }).reqs ∧
    (∀ k, t.thread k = if k = r.thr then (s.thread k).retired r.next else s.thread k) ∧
    ∀ c, t.ctx c = if c = r.ctx then (s.ctx c).counted (dieIdx r.core) 39 1 else s.ctx c := by
  obtain ⟨b, hb⟩ : ∃ b, s.count r.ctx (dieIdx r.core) 39 1 = b := ⟨_, rfl⟩
  obtain ⟨q, hq⟩ : ∃ q : Req, { r with held := false, causes := r.causes ++ [17], stage := .l1
                                       got := (reqTrytes r).foldl (fun g a => Tab.put (ikey a) 0 g) [] } = q := ⟨_, rfl⟩
  have hkept : KeptBut s (b.setReq q) r.warp := by
    rw [← hb]
    exact ⟨State.dbg_count .., rfl, rfl, fun _ _ => Thread.meetsAs_of_eq rfl rfl⟩
  have hthr : (b.setReq q).thread r.thr = s.thread r.thr := by rw [← hb]; rfl
  have heffort : s.bestEffort r = (b.setReq q).setThread r.thr ((s.thread r.thr).retired r.next) := by
    rw [← hthr, ← State.retireReq_eq_of_keptBut hstill (by rw [hthr]; exact hrun) hkept, ← hb, ← hq]
    simp only [State.bestEffort, hkind]
  refine ⟨_, (State.execHairlineUndeliverable_eq hreq hheld hroute hlong).trans (congrArg _ heffort), by rw [← hb]; rfl, ?_, fun k => ?_, fun c => ?_⟩
  · rw [← hb, ← hq]; rfl
  · rw [State.thread_setThread]
    refine ite_congr rfl (fun hk => by rw [hk]) fun _ => by rw [← hb]; rfl
  · rw [State.ctx_setThread, ← hb]
    exact State.ctx_count ..

theorem exec_hairlineUndeliverable_stva {s : State} {id : Nat} {r : Req} {sz : Sz} {v tm : Int} (hreq : s.req id = some r)
    (hkind : r.kind = .stva sz v tm) (hheld : r.held = true) (hroute : s.routeUp (r.own / 27) = false)
    (hlong : r.sent + 10000000 ≤ s.now r.core) (hstill : s.stillReq r) (hrun : (s.thread r.thr).st = .runnable) :
    ∃ t, exec (.hairlineUndeliverable id) s = .next t ∧
    t = { s with thr := t.thr, wrp := t.wrp, reqs := s.reqs.filter (fun q => decide (q.id ≠ id)), ctxs := t.ctxs } ∧
    (∀ k, t.thread k = if k = r.thr then ((s.thread k).owes 17).retired r.next else s.thread k) ∧
    (∀ w, t.warp w = if w = r.warp then (s.warp w).less r.gid else s.warp w) ∧
    ∀ c, t.ctx c = if c = r.ctx then (s.ctx c).counted (dieIdx r.core) 39 1 else s.ctx c := by
  have hid : r.id = id := State.id_of_req hreq
  obtain ⟨b, hb⟩ : ∃ b, ((s.count r.ctx (dieIdx r.core) 39 1).delReq r.id).setWarp r.warp ((s.warp r.warp).less r.gid) = b := ⟨_, rfl⟩
  have hbthr : ∀ k, b.thread k = s.thread k := fun k => by rw [← hb]; rfl
  have hbwarp : ∀ w, b.warp w = if w = r.warp then (s.warp w).less r.gid else s.warp w := fun w => by
    rw [← hb, State.warp_setWarp]
    refine ite_congr rfl (fun hw => by rw [hw]) fun _ => rfl
  have hbctx : ∀ c, b.ctx c = if c = r.ctx then (s.ctx c).counted (dieIdx r.core) 39 1 else s.ctx c := fun c => by
    rw [← hb, State.ctx_setWarp]
    exact State.ctx_count ..
  have hdone : ((s.count r.ctx (dieIdx r.core) 39 1).delReq r.id).doneLane r.warp r.gid = b :=
    (State.doneLane_eq (s := (s.count r.ctx (dieIdx r.core) 39 1).delReq r.id) hstill.1.here _).trans hb
  have hdefer : b.defer r.thr 17 0 = b.setThread r.thr ((s.thread r.thr).owes 17) := by
    unfold State.defer
    rw [hbthr, if_neg hstill.2.2]; rfl
  have hself : (b.setThread r.thr ((s.thread r.thr).owes 17)).thread r.thr = (s.thread r.thr).owes 17 := State.thread_setThread_self ..
  have hkept : KeptBut s (b.setThread r.thr ((s.thread r.thr).owes 17)) r.warp := by
    refine ⟨?_, ?_, ?_, fun k _ => ?_⟩
    · rw [State.warp_setThread, State.ctx_setThread, hbwarp, if_pos rfl, hbctx]
      split <;> rfl
    · rw [State.warp_setThread, hbwarp, if_pos rfl]; rfl
    · rw [State.warp_setThread, hbwarp, if_pos rfl]; rfl
    · rw [State.thread_setThread]
      split
      · next hk => rw [hk]; exact Thread.meetsAs_of_eq rfl rfl
      · rw [hbthr]; exact Thread.meetsAs_of_eq rfl rfl
  have heffort : s.bestEffort r = (b.setThread r.thr ((s.thread r.thr).owes 17)).setThread r.thr (((s.thread r.thr).owes 17).retired r.next) := by
    have hretire := State.retireReq_eq_of_keptBut hstill (by rw [hself]; exact hrun) hkept
    rw [hself] at hretire
    rw [← hretire, ← hdefer, ← hdone]
    simp only [State.bestEffort, hkind]
  refine ⟨_, (State.execHairlineUndeliverable_eq hreq hheld hroute hlong).trans (congrArg _ heffort), by rw [← hid, ← hb]; rfl, fun k => ?_, fun w => ?_, fun c => ?_⟩
  · rw [State.thread_setThread, State.thread_setThread]
    by_cases hk : k = r.thr
    · rw [if_pos hk, if_pos hk, hk]
    · rw [if_neg hk, if_neg hk, if_neg hk, hbthr]
  · rw [State.warp_setThread, State.warp_setThread, hbwarp]
  · rw [State.ctx_setThread, State.ctx_setThread, hbctx]

theorem exec_hairlineUndeliverable_atom {s : State} {id : Nat} {r : Req} {op : AOp} {sz : Sz} {v : Int} {d : Nat} (hreq : s.req id = some r)
    (hkind : r.kind = .atom op sz v d) (hheld : r.held = true) (hroute : s.routeUp (r.own / 27) = false)
    (hlong : r.sent + 10000000 ≤ s.now r.core) (hstill : s.stillReq r) (hrun : (s.thread r.thr).st = .runnable) :
    ∃ t, exec (.hairlineUndeliverable id) s = .next t ∧ t = { s with thr := t.thr, reqs := t.reqs } ∧
    t.reqs = (s.setReq { r with held := false, stage := .reply 0 0 }).reqs ∧
    ∀ k, t.thread k = if k = r.thr then (s.thread k).retired r.next else s.thread k := by
  have heffort : s.bestEffort r = (s.setReq { r with held := false, stage := .reply 0 0 }).setThread r.thr ((s.thread r.thr).retired r.next) := by
    refine Eq.trans ?_ (State.retireReq_eq_of_keptBut (a := s.setReq { r with held := false, stage := .reply 0 0 }) hstill hrun
      ⟨rfl, rfl, rfl, fun _ _ => Thread.meetsAs_of_eq rfl rfl⟩)
    simp only [State.bestEffort, hkind]
  refine ⟨_, (State.execHairlineUndeliverable_eq hreq hheld hroute hlong).trans (congrArg _ heffort), rfl, rfl, fun k => ?_⟩
  rw [State.thread_setThread]
  exact ite_congr rfl (fun hk => by rw [hk]) fun _ => rfl

/-- Settles O42: a walk from a root stands where good pointers have led it, and the rest is what an owner's miss and a request without a link
come to. -/
theorem walksAndLosses : Obligations.WalksAndLosses := by
  unfold Obligations.WalksAndLosses
  refine ⟨fun s own ctx core off root n lvl x hwalking hwalks htrit hleaf => ?_, fun s own ctx core off root n lvl hwalking hwalks hlvl => ⟨?_, ?_, ?_⟩,
    ?_, ?_, ?_, ?_⟩
  · have hlvl : lvl ≤ 5 := by rcases hleaf.level with h | h <;> omega
    exact State.translate_walked_leaf hwalking ((State.walk_from hwalks hlvl).trans (State.walk_leaf _ htrit hleaf))
  · exact fun htrit => State.translate_walked_miss hwalking ((State.walk_from hwalks hlvl).trans (State.walk_invalid _ htrit))
  · exact fun htrit hleaf => State.translate_walked_miss hwalking ((State.walk_from hwalks hlvl).trans (State.walk_badLeaf _ htrit hleaf))
  · exact fun htrit hbad => State.translate_walked_miss hwalking ((State.walk_from hwalks hlvl).trans (State.walk_badPointer _ htrit hbad))
  · intro s id r sz d le nb m hreq hkind hstage haway hspace hone hown harrived hbefore htables hwin hwatch hmiss hfree halone
    exact exec_ownerAnswer_missed hreq hkind hstage haway hspace hone hown harrived hbefore htables hwin hwatch hmiss hfree halone
  · intro s id r sz d le nb hreq hkind hheld hroute hlong hstill hrun
    exact exec_hairlineUndeliverable_load hreq hkind hheld hroute hlong hstill hrun
  · intro s id r sz v tm hreq hkind hheld hroute hlong hstill hrun
    exact exec_hairlineUndeliverable_stva hreq hkind hheld hroute hlong hstill hrun
  · intro s id r op sz v d hreq hkind hheld hroute hlong hstill hrun
    exact exec_hairlineUndeliverable_atom hreq hkind hheld hroute hlong hstill hrun

end Sys2Proof.Machine
end

