-- ==== Sys2Proof/Proofs/ContextEnds.lean ====
section
/-! The ends of contexts and of saves (R410-R418). -/

namespace Sys2Proof.Machine

/-! Notices (R417). -/

/-- A notice enters q17 at once where no record waits and the words fit. -/
theorem State.notice_eq {s : State} {kind : Int} {ctx die : Nat} {body : List Int} (hfree : s.q17Free ctx die (body.length + 1)) :
    s.notice kind ctx die body = s.setPort (s.q17Core ctx (s.ownKey die)) 17
      (s.port (s.q17Core ctx (s.ownKey die)) 17 ++ recHead kind body.length (recCtx ctx) die :: body) :=
  State.pushRec_eq hfree.1 rfl hfree.2

/-- The core with a context's notices is the same where the context's partition is. -/
theorem State.q17Core_congr {s a : State} {ctx : Nat} (hpart : (a.ctx ctx).part = (s.ctx ctx).part) (hparts : a.parts = s.parts) (hpkg : a.pkg = s.pkg)
    (own : Nat) : a.q17Core ctx own = s.q17Core ctx own := by
  rw [State.q17Core, State.q17Core, hpart, State.part, State.part, hparts, hpkg]

/-! Hangs. -/

theorem State.mem_warpsIn {s : State} {c w : Nat} : w ∈ s.warpsIn c ↔ ∃ q ∈ s.wrp, q.1 = w ∧ q.2.ctx = c := by
  simp [State.warpsIn, and_comm]

/-- The warps of a context stop, and the context is being killed (R415). -/
structure Slaying (s t : State) (c : Nat) (neg : Bool) : Prop where
  rest : t = { s with thr := t.thr, ctxs := t.ctxs }
  ctxs : ∀ k, t.ctx k = if k = c then { s.ctx k with killing := true, killNeg := neg } else s.ctx k
  thrs : ∀ u, t.thread u = if warpOf u ∈ s.warpsIn c then (s.thread u).halted else s.thread u

theorem State.startKill_slaying (s : State) (c : Nat) (neg : Bool) : Slaying s (s.startKill c neg) c neg := by
  obtain ⟨hrest, hthr⟩ := s.foldl_stopIf_spec c s.wrp
  have heq : s.startKill c neg = (s.wrp.foldl (State.stopIf c) s).setCtx c { s.ctx c with killing := true, killNeg := neg } := rfl
  obtain ⟨a, ha⟩ : ∃ a, s.wrp.foldl (State.stopIf c) s = a := ⟨_, rfl⟩
  rw [ha] at hrest hthr heq
  rw [heq]
  refine ⟨by rw [hrest]; rfl, fun k => ?_, fun u => ?_⟩
  · rw [State.ctx_setCtx]
    split
    · next hk => rw [hk]
    · rw [hrest]; rfl
  · rw [State.thread_setCtx, hthr]
    exact if_congr State.mem_warpsIn.symm rfl rfl

namespace Slaying

variable {s a t : State} {c : Nat} {neg : Bool}

theorem warpsIn (h : Slaying s t c neg) (k : Nat) : t.warpsIn k = s.warpsIn k := by rw [h.rest]; rfl

theorem again (h : Slaying s a c neg) (h' : Slaying a t c neg) : Slaying s t c neg := by
  refine ⟨h'.rest.trans (by rw [h.rest]), fun k => ?_, fun u => ?_⟩
  · rw [h'.ctxs, h.ctxs]
    split <;> rfl
  · rw [h'.thrs, h.thrs, h.warpsIn]
    split
    · exact Thread.halted_halted _
    · rfl

theorem savebase (h : Slaying s t c neg) : (t.ctx c).savebase = (s.ctx c).savebase := by rw [h.ctxs, if_pos rfl]

theorem blkSt (h : Slaying s t c neg) (b : Nat) : t.blkSt c b = s.blkSt c b := by rw [State.blkSt, h.ctxs, if_pos rfl]; rfl

end Slaying

/-- A resident block's save is forced (R413). -/
def State.forceOne (c : Nat) (s : State) (b : Nat) : State :=
  match s.blkSt c b with
  | .placed _ => s.forceSave c b
  | _ => s

theorem State.forceOne_of_placed {s : State} {c b e : Nat} (hplaced : s.blkSt c b = .placed e) (hbase : saveBaseOk (s.ctx c).savebase = false) :
    s.forceOne c b = s.startKill c true := by
  simp only [State.forceOne, hplaced, State.forceSave, hbase, Bool.false_eq_true, if_false]

theorem State.forceOne_of_away {s : State} {c b : Nat} (haway : ∀ e, s.blkSt c b ≠ .placed e) : s.forceOne c b = s := by
  unfold State.forceOne
  split
  · next e h => exact absurd h (haway e)
  · rfl

/-- Without a save area the first resident block's save is the context's end (R413). -/
theorem State.foldl_forceOne {c : Nat} (bs : List Nat) {s : State} (hbase : saveBaseOk (s.ctx c).savebase = false) :
    Slaying s (bs.foldl (State.forceOne c) s) c true ∨
      (bs.foldl (State.forceOne c) s = s ∧ ∀ b ∈ bs, ∀ e, s.blkSt c b ≠ .placed e) := by
  induction bs generalizing s with
  | nil => exact .inr ⟨rfl, by simp⟩
  | cons b bs ih =>
    rw [List.foldl_cons]
    by_cases hplaced : ∃ e, s.blkSt c b = .placed e
    · obtain ⟨e, he⟩ := hplaced
      have hslay := s.startKill_slaying c true
      rw [State.forceOne_of_placed he hbase]
      refine .inl ?_
      rcases ih (s := s.startKill c true) (by rw [hslay.savebase]; exact hbase) with h | ⟨h, _⟩
      · exact hslay.again h
      · rw [h]; exact hslay
    · have haway : ∀ e, s.blkSt c b ≠ .placed e := fun e h => hplaced ⟨e, h⟩
      rw [State.forceOne_of_away haway]
      exact (ih hbase).imp_right fun ⟨h, hall⟩ => ⟨h, List.forall_mem_cons.mpr ⟨haway, hall⟩⟩

/-- HANG is set in a thread (R416). -/
def State.hangOne (s : State) (u : Nat) : State := s.setThread u { s.thread u with cause := setCause (s.thread u).cause 19 }

theorem State.mem_alive {s : State} {w u : Nat} : u ∈ s.alive w ↔ warpOf u = w ∧ (s.thread u).st ≠ .exited := by
  rw [State.alive, List.mem_filter, mem_threadsOf_iff_warpOf, decide_eq_true_iff]

theorem State.foldl_hangOne {s : State} {c : Nat} (hnodup : (s.warpsIn c).Nodup) :
    ∃ t, (s.warpsIn c).foldl (fun a w => (s.alive w).foldl State.hangOne a) s = t ∧ t = { s with thr := t.thr } ∧
      ∀ u, t.thread u = if warpOf u ∈ s.warpsIn c ∧ (s.thread u).st ≠ .exited then { s.thread u with cause := setFld (s.thread u).cause 19 1 1 }
        else s.thread u := by
  have hthreads : ((s.warpsIn c).flatMap s.alive).Nodup := by
    refine List.nodup_flatMap.mpr ⟨fun w _ => (nodup_threadsOf w).filter _, hnodup.imp_of_mem fun {a b} _ _ hne u hu hu' => hne ?_⟩
    exact (State.mem_alive.mp hu).1.symm.trans (State.mem_alive.mp hu').1
  obtain ⟨hrest, hread⟩ := fold_threads_read s State.hangOne (fun x => { x with cause := setFld x.cause 19 1 1 }) _ hthreads fun a u _ =>
    ⟨rfl, fun k => (State.thread_setThread ..).trans (ite_congr rfl (fun hk => by rw [hk]; rfl) fun _ => rfl)⟩
  rw [List.foldl_flatMap] at hrest hread
  refine ⟨_, rfl, hrest, fun u => (hread u).trans (if_congr ?_ rfl rfl)⟩
  rw [List.mem_flatMap]
  exact ⟨fun ⟨w, hw, hu⟩ => by obtain ⟨rfl, hlive⟩ := State.mem_alive.mp hu; exact ⟨hw, hlive⟩,
    fun ⟨hw, hlive⟩ => ⟨warpOf u, hw, State.mem_alive.mpr ⟨rfl, hlive⟩⟩⟩

theorem exec_hang_spec {s : State} {c b e : Nat} {t0 : Int} (hsince : (s.ctx c).hang = some t0) (hhung : s.isHung c = true)
    (hdue : t0 + (s.part (s.ctx c).part).hangth ≤ (s.dieSt (s.ownKey (s.hangDie c))).clk) (hbase : saveBaseOk (s.ctx c).savebase = false)
    (hb : b < (s.ctx c).lr.blocks) (hplaced : s.blkSt c b = .placed e) (hfree : s.q17Free c (s.hangDie c) 3) (hnodup : (s.warpsIn c).Nodup) :
    ∃ t, exec (.hang c) s = .next t ∧ t = { s with thr := t.thr, cor := t.cor, ctxs := t.ctxs, fresh := s.fresh + 243 } ∧
    (∀ u, t.thread u = if warpOf u ∈ s.warpsIn c ∧ (s.thread u).st ≠ .exited then
        { s.thread u with cause := setFld (s.thread u).cause 19 1 1 }.stops else s.thread u) ∧
    (∀ k, t.ctx k = if k = c then { s.ctx k with killing := true, killNeg := true, hang := none, graph := none
                                                 recPark := Tab.del 0 (s.ctx k).recPark } else s.ctx k) ∧
    Noticed s t c (s.hangDie c) (recHead 3 2 (recCtx c) (s.hangDie c) ::
      [loW (t0 + (s.part (s.ctx c).part).hangth), hiW (t0 + (s.part (s.ctx c).part).hangth)]) := by
  obtain ⟨s1, hs1, hrest1, hthr1⟩ := State.foldl_hangOne hnodup
  obtain ⟨tm, htm⟩ : ∃ tm, t0 + (s.part (s.ctx c).part).hangth = tm := ⟨_, rfl⟩
  obtain ⟨g, hg⟩ : ∃ g, s.hangGraph c = g := ⟨_, rfl⟩
  obtain ⟨s2, hs2⟩ : ∃ s2 : State, { s1.setCtx c { s1.ctx c with hang := none, graph := some (tm, g) } with fresh := s1.fresh + 243 } = s2 := ⟨_, rfl⟩
  have hctx1 : ∀ k, s1.ctx k = s.ctx k := fun k => by rw [hrest1]; rfl
  have hctx2 : ∀ k, s2.ctx k = if k = c then { s.ctx k with hang := none, graph := some (tm, g) } else s.ctx k := fun k => by
    rw [← hs2]
    refine (State.ctx_setCtx ..).trans ?_
    rw [hctx1, hctx1]
    exact ite_congr rfl (fun hk => by rw [hk]) fun _ => rfl
  have hrest2 : s2 = { s with thr := s1.thr, ctxs := s2.ctxs, fresh := s.fresh + 243 } := by rw [← hs2, hrest1]; rfl
  have hblk : s2.blkSt c b = s.blkSt c b := by rw [State.blkSt, hctx2, if_pos rfl]; rfl
  have hbase2 : saveBaseOk (s2.ctx c).savebase = false := by rw [hctx2, if_pos rfl]; exact hbase
  have hslay : Slaying s2 ((List.range (s.ctx c).lr.blocks).foldl (State.forceOne c) s2) c true :=
    (State.foldl_forceOne _ hbase2).resolve_right fun ⟨_, hall⟩ => hall b (List.mem_range.mpr hb) e (hblk.trans hplaced)
  obtain ⟨s3, hs3⟩ : ∃ s3, (List.range (s.ctx c).lr.blocks).foldl (State.forceOne c) s2 = s3 := ⟨_, rfl⟩
  rw [hs3] at hslay
  have hctx3 : s3.ctx c = { s.ctx c with killing := true, killNeg := true, hang := none, graph := some (tm, g) } := by
    rw [hslay.ctxs, if_pos rfl, hctx2, if_pos rfl]
  obtain ⟨s4, hs4⟩ : ∃ s4, s3.setCtx c { s3.ctx c with graph := none, recPark := Tab.del 0 (s3.ctx c).recPark } = s4 := ⟨_, rfl⟩
  have hrest4 : s4 = { s with thr := s3.thr, ctxs := s4.ctxs, fresh := s.fresh + 243 } := by rw [← hs4, hslay.rest, hrest2]; rfl
  have hctx4 : ∀ k, s4.ctx k = if k = c then { s.ctx k with killing := true, killNeg := true, hang := none, graph := none
                                                            recPark := Tab.del 0 (s.ctx k).recPark } else s.ctx k := fun k => by
    rw [← hs4, State.ctx_setCtx, hctx3]
    split
    · next hk => rw [hk]
    · next hk => rw [hslay.ctxs, if_neg hk, hctx2, if_neg hk]
  have hdie3 : s3.hangDie c = s.hangDie c := by rw [State.hangDie, hctx3]; rfl
  have hcore4 : ∀ k, s4.core k = s.core k := fun k => by rw [hrest4]; rfl
  have hport4 : ∀ k q, s4.port k q = s.port k q := fun k q => by rw [State.port, hcore4]; rfl
  have hown4 : s4.ownKey (s.hangDie c) = s.ownKey (s.hangDie c) := by rw [hrest4]; rfl
  have hq17 : s4.q17Core c (s4.ownKey (s.hangDie c)) = s.q17Core c (s.ownKey (s.hangDie c)) := by
    rw [hown4]
    exact State.q17Core_congr (by rw [hctx4, if_pos rfl]) (by rw [hrest4]) (by rw [hrest4]) _
  have hfree4 : s4.q17Free c (s.hangDie c) 3 := ⟨by rw [hrest4]; exact hfree.1, by rw [hq17, hport4]; exact hfree.2⟩
  have hnote : s3.putGraph c (coreOf ((s.warpsIn c).headD 0)) = s4.notice 3 c (s.hangDie c) [loW tm, hiW tm] := by
    simp only [State.putGraph, State.hangNote, hctx3, hbase, hdie3, ← hs4, Bool.not_false, if_true]
  rw [State.notice_eq hfree4, hq17, hport4] at hnote
  rw [htm]
  have hexec : exec (.hang c) s = .next (s3.putGraph c (coreOf ((s.warpsIn c).headD 0))) := by
    change execHang c s = _
    unfold execHang
    simp only [hsince]
    rw [if_neg (by rw [hhung]; simpa using hdue), ← hs3, ← hs2, ← hs1, hg, htm]
    rfl
  rw [hnote] at hexec
  refine ⟨_, hexec, by rw [hrest4]; rfl, fun u => ?_, fun k => (State.ctx_setCore ..).trans (hctx4 k), fun k => ?_, fun k q => ?_⟩
  · have hthr4 : s4.thread u = s3.thread u := by rw [← hs4]; rfl
    have hthr2 : s2.thread u = s1.thread u := by rw [← hs2]; rfl
    have hwarps : s2.warpsIn c = s.warpsIn c := by rw [hrest2]; rfl
    refine (State.thread_setCore ..).trans ?_
    rw [hthr4, hslay.thrs, hthr2, hthr1, hwarps]
    by_cases hw : warpOf u ∈ s.warpsIn c
    · by_cases hst : (s.thread u).st = .exited
      · rw [if_pos hw, if_neg fun h => h.2 hst, if_neg fun h => h.2 hst]
        exact if_pos (Or.inl hst)
      · rw [if_pos hw, if_pos ⟨hw, hst⟩, if_pos ⟨hw, hst⟩]
        rfl
    · rw [if_neg hw, if_neg fun h => hw h.1, if_neg fun h => hw h.1]
  · exact (State.core_setPort_ports ..).trans (by rw [hcore4])
  · rw [State.port_setPort, hport4]
    exact ite_congr rfl (fun h => by rw [h.1, h.2]; rfl) fun _ => rfl

/-! The end of a kill. -/

/-- Some cores are free, and what stood in them is gone (R70, R415). -/
structure Freed (s t : State) (gone : Nat → Prop) [DecidablePred gone] : Prop where
  rest : t = { s with thr := t.thr, wrp := t.wrp, cor := t.cor, bad := t.bad }
  cores : ∀ e, t.core e = if gone e then { clid := (s.core e).clid } else s.core e
  thrs : ∀ u, t.thread u = if gone (coreOf (warpOf u)) then {} else s.thread u
  wrps : ∀ w, t.warp w = if gone (coreOf w) then {} else s.warp w

theorem State.clearCore_freed (s : State) (f : Nat) : Freed s (s.clearCore f) (fun e => e = f) := by
  obtain ⟨hrest, hcore, hthr, hwarp⟩ := s.clearCore_spec f
  refine ⟨hrest, fun e => (hcore e).trans ?_, hthr, hwarp⟩
  exact ite_congr rfl (fun he => by rw [he]) fun _ => rfl

theorem State.foldl_clearCore_freed {α : Type} (ps : List (Nat × α)) (s : State) :
    Freed s (ps.foldl (fun a p => a.clearCore p.1) s) (fun e => e ∈ ps.map (·.1)) := by
  induction ps generalizing s with
  | nil => exact ⟨rfl, fun _ => (if_neg List.not_mem_nil).symm, fun _ => (if_neg List.not_mem_nil).symm, fun _ => (if_neg List.not_mem_nil).symm⟩
  | cons p ps ih =>
    obtain ⟨hrest, hcore, hthr, hwarp⟩ := s.clearCore_freed p.1
    obtain ⟨hrest', hcore', hthr', hwarp'⟩ := ih (s.clearCore p.1)
    refine ⟨hrest'.trans rfl, fun e => ?_, fun u => ?_, fun w => ?_⟩
    · rw [List.foldl_cons, hcore', hcore]
      by_cases he : e = p.1 <;> by_cases hin : e ∈ ps.map (·.1) <;> simp [he, hin]
    · rw [List.foldl_cons, hthr', hthr]
      by_cases he : coreOf (warpOf u) = p.1 <;> by_cases hin : coreOf (warpOf u) ∈ ps.map (·.1) <;> simp [he, hin]
    · rw [List.foldl_cons, hwarp', hwarp]
      by_cases he : coreOf w = p.1 <;> by_cases hin : coreOf w ∈ ps.map (·.1) <;> simp [he, hin]

theorem State.mem_coresOf {s : State} (hsorted : Tab.sorted s.cor = true) {c e : Nat} :
    e ∈ (s.cor.filter (fun p => decide ((p.2.blk.map (·.1)) = some c))).map (·.1) ↔ (s.core e).blk.map (·.1) = some c := by
  refine ⟨fun h => ?_, fun h => ?_⟩
  · obtain ⟨q, hq, rfl⟩ := List.mem_map.mp h
    obtain ⟨hmem, hblk⟩ := List.mem_filter.mp hq
    rw [State.core, Tab.get_of_find {} q.2 q.1 s.cor (Tab.find_of_mem hsorted hmem)]
    exact of_decide_eq_true hblk
  · cases hf : Tab.find s.cor e with
    | none => rw [State.core, Tab.get_of_find_none {} e s.cor hf] at h; cases h
    | some v =>
      rw [State.core, Tab.get_of_find {} v e s.cor hf] at h
      exact List.mem_map.mpr ⟨(e, v), List.mem_filter.mpr ⟨Tab.mem_of_find hf, decide_eq_true h⟩, rfl⟩

/-- Without a request of the context, the end of its tickets touches the owners' sequences alone (R249). -/
theorem State.endTickets_rest {s : State} {c : Nat} (hnone : ∀ r ∈ s.reqs, r.ctx ≠ c) (hseqs : ∀ p ∈ s.die, p.2.seqs = []) :
    ∃ t, s.endTickets c = t ∧ t = { s with die := t.die } := by
  obtain ⟨t, ht, hrest, _⟩ := State.foldl_passDrawn (s := s) (fun k => State.seqs_of_all hseqs k) c (fun _ => true) s.die
  have hmap : s.reqs.map (fun r => if (decide (r.ctx = c) && (seqOf r.kind).isSome && (decide (r.stage = .buffered) || decide (r.stage = .refused))) = true
      then { r with stage := .buffered } else r) = s.reqs :=
    (List.map_congr_left (g := id) fun r hr => if_neg (by simp [hnone r hr])).trans (List.map_id _)
  have hleft : t.reqs.filter (fun r => decide (r.ctx = c) && (seqOf r.kind).isSome && (decide (r.stage = .buffered) || decide (r.stage = .refused))) = [] := by
    rw [hrest]
    exact List.filter_eq_nil_iff.mpr fun r hr => by simp [hnone r hr]
  refine ⟨_, rfl, ?_⟩
  unfold State.endTickets
  simp only [hmap, ht, hleft, List.mergeSort_nil, List.foldl_nil]
  rw [hrest]

theorem State.foldl_liftPreps_rest (ws : List Nat) (s : State) : ws.foldl (fun a w => a.liftPreps w) s =
    { s with die := (ws.foldl (fun a w => a.liftPreps w) s).die, reqs := (ws.foldl (fun a w => a.liftPreps w) s).reqs } := by
  induction ws generalizing s with
  | nil => rfl
  | cons w ws ih => rw [List.foldl_cons, ih]; rfl

/-- Without records the end of barriers and faults leaves the cores and their threads (R415). -/
theorem State.endFaults_endBars_rest {s : State} (c : Nat) (hrecs : s.recs = []) :
    (s.endBars c).endFaults c = { s with die := ((s.endBars c).endFaults c).die, bars := (s.endBars c).bars } := by
  unfold State.endFaults State.endBars
  rw [hrecs, List.filter_nil]

/-- What is gone with a context that has no request in flight (R415). -/
theorem State.dropCtx_spec {s : State} {c : Nat} (hnone : ∀ r ∈ s.reqs, r.ctx ≠ c) (hseqs : ∀ p ∈ s.die, p.2.seqs = []) (hsorted : Tab.sorted s.cor = true)
    (hrecs : s.recs = []) : ∃ t, s.dropCtx c = t ∧
      t = { s with thr := t.thr, wrp := t.wrp, cor := t.cor, die := t.die, ctxs := t.ctxs, bars := t.bars, reqs := t.reqs, bad := t.bad } ∧
      (∀ k, t.ctx k = if k = c then { part := (s.ctx c).part, counters := (s.ctx c).counters } else s.ctx k) ∧
      (∀ u, t.thread u = if (s.core (coreOf (warpOf u))).blk.map (·.1) = some c then {} else s.thread u) ∧
      (∀ w, t.warp w = if (s.core (coreOf w)).blk.map (·.1) = some c then {} else s.warp w) ∧
      ∀ e, t.core e = if (s.core e).blk.map (·.1) = some c then { clid := (s.core e).clid } else s.core e := by
  obtain ⟨s1, hs1, hrest1⟩ := State.endTickets_rest hnone hseqs
  obtain ⟨s2, hs2⟩ : ∃ s2, ((s1.wrp.filter (fun p => decide (p.2.ctx = c))).map (·.1)).foldl (fun a w => a.liftPreps w) s1 = s2 := ⟨_, rfl⟩
  have hrest2 := State.foldl_liftPreps_rest ((s1.wrp.filter (fun p => decide (p.2.ctx = c))).map (·.1)) s1
  rw [hs2] at hrest2
  have hrest2' : s2 = { s with die := s2.die, reqs := s2.reqs } := hrest2.trans (by rw [hrest1])
  obtain ⟨s3, hs3, hrest3⟩ : ∃ s3 : State, s.dropCtx c = (s3.endCores c).endCtx c ∧ s3 = { s with die := s3.die, bars := s3.bars, reqs := s3.reqs } := by
    obtain ⟨qs, hqs⟩ : ∃ qs, s2.reqs.filterMap (fun (r : Req) =>
      if r.ctx ≠ c then some r
      else match r.stage, r.kind with
        | .buffered, .stva .. => some (orphan r)
        | .home, .stva .. => some (orphan r)
        | _, _ => none) = qs := ⟨_, rfl⟩
    refine ⟨(({ s2 with reqs := qs } : State).endBars c).endFaults c, by rw [← hqs, ← hs2, ← hs1]; rfl, ?_⟩
    have hr2 : ({ s2 with reqs := qs } : State).recs = [] := by
      change s2.recs = []
      rw [hrest2']; exact hrecs
    refine (State.endFaults_endBars_rest c hr2).trans ?_
    rw [State.mk.injEq]
    rw [hrest2']
    exact ⟨rfl, rfl, rfl, rfl, rfl, rfl, rfl, rfl, rfl, rfl, rfl, rfl, rfl, rfl, rfl, rfl, rfl, rfl, rfl, rfl⟩
  obtain ⟨ps, hps⟩ : ∃ ps : Tab CoreSt, s3.cor.filter (fun p => decide ((p.2.blk.map (·.1)) = some c)) = ps := ⟨_, rfl⟩
  obtain ⟨hrest, hcores, hthrs, hwrps⟩ := State.foldl_clearCore_freed ps s3
  obtain ⟨s4, hs4⟩ : ∃ s4, ps.foldl (fun a p => a.clearCore p.1) s3 = s4 := ⟨_, rfl⟩
  have hend : s3.endCores c = s4 := by rw [State.endCores, hps]; exact hs4
  rw [hs4] at hrest hcores hthrs hwrps
  have hcor : s3.cor = s.cor := by rw [hrest3]
  have hgone : ∀ e, e ∈ ps.map (·.1) ↔ (s.core e).blk.map (·.1) = some c := fun e => by
    rw [← hps, hcor]; exact State.mem_coresOf hsorted
  have hcore3 : ∀ e, s3.core e = s.core e := State.core_congr hcor
  have hctx4 : ∀ k, s4.ctx k = s.ctx k := fun k => by rw [hrest, hrest3]; rfl
  rw [hend] at hs3
  refine ⟨_, hs3, ?_, fun k => ?_, fun u => ?_, fun w => ?_, fun e => ?_⟩
  · rw [hrest, hrest3]; rfl
  · refine (State.ctx_setCtx ..).trans ?_
    rw [hctx4, hctx4]
  · refine (State.thread_setCtx ..).trans ((hthrs u).trans (if_congr (hgone _) rfl ?_))
    rw [hrest3]; rfl
  · refine (State.warp_setCtx ..).trans ((hwrps w).trans (if_congr (hgone _) rfl ?_))
    rw [hrest3]; rfl
  · refine (State.core_setCtx ..).trans ((hcores e).trans ?_)
    rw [hcore3]
    exact if_congr (hgone e) rfl rfl

theorem exec_killComplete_spec {s : State} {c : Nat} (hlive : (s.ctx c).live = true) (hkilling : (s.ctx c).killing = true) (hgraph : (s.ctx c).graph = none)
    (hnone : ∀ r ∈ s.reqs, r.ctx ≠ c) (hseqs : ∀ p ∈ s.die, p.2.seqs = []) (hsorted : Tab.sorted s.cor = true)
    (hfree : s.q17Free c ((s.ctx c).lr.dies.headD 0) 2)
    (hother : (s.core (s.q17Core c (s.ownKey ((s.ctx c).lr.dies.headD 0)))).blk.map (·.1) ≠ some c) :
    ∃ t, exec (.killComplete c) s = .next t ∧
    t = { s with thr := t.thr, wrp := t.wrp, cor := t.cor, die := t.die, ctxs := t.ctxs, bars := t.bars, reqs := t.reqs, bad := t.bad } ∧
    (∀ k, t.ctx k = if k = c then { part := (s.ctx c).part, counters := (s.ctx c).counters } else s.ctx k) ∧
    (∀ u, t.thread u = if (s.core (coreOf (warpOf u))).blk.map (·.1) = some c then {} else s.thread u) ∧
    (∀ w, t.warp w = if (s.core (coreOf w)).blk.map (·.1) = some c then {} else s.warp w) ∧
    (∀ e, t.core e = if (s.core e).blk.map (·.1) = some c then { clid := (s.core e).clid } else { s.core e with ports := (t.core e).ports }) ∧
    ∀ e q, (s.core e).blk.map (·.1) ≠ some c → t.port e q =
      if e = s.q17Core c (s.ownKey ((s.ctx c).lr.dies.headD 0)) ∧ q = 17 then s.port e q ++
        [recHead 5 1 (recCtx c) ((s.ctx c).lr.dies.headD 0), if (s.ctx c).killNeg = true then -1 else 0] else s.port e q := by
  obtain ⟨a, ha, hrest, hctxs, hthrs, hwrps, hcores⟩ := State.dropCtx_spec hnone hseqs hsorted hfree.1
  obtain ⟨die, hdie⟩ : ∃ die, (s.ctx c).lr.dies.headD 0 = die := ⟨_, rfl⟩
  rw [hdie] at hfree hother ⊢
  have hown : a.ownKey die = s.ownKey die := by rw [hrest]; rfl
  have hq17 : a.q17Core c (a.ownKey die) = s.q17Core c (s.ownKey die) := by
    rw [hown]
    exact State.q17Core_congr (by rw [hctxs, if_pos rfl]) (by rw [hrest]) (by rw [hrest]) _
  obtain ⟨e0, he0⟩ : ∃ e0, s.q17Core c (s.ownKey die) = e0 := ⟨_, rfl⟩
  rw [he0] at hother hq17 ⊢
  have hport : ∀ e q, (s.core e).blk.map (·.1) ≠ some c → a.port e q = s.port e q := fun e q h => by
    rw [State.port, hcores, if_neg h]; rfl
  have hfree' : a.q17Free c die 2 := ⟨by rw [hrest]; exact hfree.1, by rw [hq17, hport _ _ hother]; exact he0 ▸ hfree.2⟩
  have hnote := State.notice_eq (kind := 5) (body := [if (s.ctx c).killNeg = true then -1 else 0]) hfree'
  rw [hq17] at hnote
  have hexec : exec (.killComplete c) s = .next (a.notice 5 c die [if (s.ctx c).killNeg = true then -1 else 0]) := by
    change execKillComplete c s = _
    have hmust : s.reqs.any (fun r => decide (r.ctx = c) && r.mustEnd) = false := List.any_eq_false.mpr fun r hr => by simp [hnone r hr]
    have hgraphless : s.hangNote c = s := by simp only [State.hangNote, hgraph]
    unfold execKillComplete
    simp only [hlive, hkilling, hmust, hgraphless, ha, hdie]
    rfl
  rw [hnote] at hexec
  refine ⟨_, hexec, ?_, fun k => (State.ctx_setCore ..).trans (hctxs k), fun u => (State.thread_setCore ..).trans (hthrs u),
    fun w => (State.warp_setCore ..).trans (hwrps w), fun e => ?_, fun e q he => ?_⟩
  · rw [State.setPort, State.setCore]
    exact (by rw [hrest])
  · by_cases he : (s.core e).blk.map (·.1) = some c
    · have hne : e ≠ e0 := fun h => hother (h ▸ he)
      rw [if_pos he, State.core_setPort, if_neg hne, hcores, if_pos he]
    · rw [if_neg he]
      exact (State.core_setPort_ports ..).trans (by rw [hcores, if_neg he])
  · rw [State.port_setPort]
    split
    · next h => rw [hport _ _ hother, h.1, h.2]; rfl
    · exact hport e q he

/-! The end of a save. -/

theorem State.putRecWords_homeWork (s : State) (ctx : Nat) (low : Int) (ws : List (Nat × Int)) : HomeWork s (s.putRecWords ctx low ws) :=
  .foldl (fun a _ => by
    dsimp only
    split
    · exact .refl a
    · exact ((a.homePut_homeWork ..).trans (State.wrote_homeWork ..)).trans (State.ctxRT_homeWork ..)) ws s

/-- What the writing of a block's record may change (R412). -/
theorem State.putRecord_spec (s : State) (ctx bid c : Nat) (t : Int) : ∃ a, s.putRecord ctx bid c t = a ∧
    a = { s with die := a.die, mem := a.mem, bad := a.bad, ctxs := a.ctxs, fresh := a.fresh } ∧
    ∀ k, a.ctx k = { s.ctx k with counters := (a.ctx k).counters, rtN := (a.ctx k).rtN } := by
  unfold State.putRecord
  dsimp only
  generalize (List.range 177147).filterMap _ = ws
  generalize ws.drop 1 ++ s.openWords 145152 6561 ++ s.openWords 152685 18711 ++ ws.take 1 = xs
  have h1 := s.putRecWords_homeWork ctx (s.recLow ctx (some bid)) xs
  generalize hs1 : s.putRecWords ctx (s.recLow ctx (some bid)) xs = s1 at h1 ⊢
  generalize hs2 : ({ s1 with fresh := s1.fresh + 177147 } : State) = s2
  generalize s2.openWords 81 2106 ++ _ = ys
  have h2 := s2.putRecWords_homeWork ctx (s2.recLow ctx none) ys
  generalize hs3 : s2.putRecWords ctx (s2.recLow ctx none) ys = s3 at h2 ⊢
  refine ⟨_, rfl, ?_, fun k => ?_⟩
  · rw [h2.rest, ← hs2, h1.rest]
  · have hctx : s2.ctx k = s1.ctx k := by rw [← hs2]; rfl
    change s3.ctx k = _
    rw [h2.ctxs, hctx, h1.ctxs]
    rfl

theorem State.payOwed_of_nil {s : State} {w : Nat} (h : (s.warp w).owed = []) : s.payOwed w = s.setWarp w (s.warp w) := by
  unfold State.payOwed
  simp only [h, List.foldl_nil]
  congr 1
  rw [← h]

theorem State.foldl_payOwed_of_nil (ws : List Nat) {s : State} (h : ∀ w ∈ ws, (s.warp w).owed = []) :
    ∃ t, ws.foldl (fun a w => a.payOwed w) s = t ∧ t = { s with wrp := t.wrp } ∧ ∀ w, t.warp w = s.warp w := by
  induction ws generalizing s with
  | nil => exact ⟨s, rfl, rfl, fun _ => rfl⟩
  | cons v ws ih =>
    obtain ⟨hv, hws⟩ := List.forall_mem_cons.mp h
    have hread : ∀ w, (s.setWarp v (s.warp v)).warp w = s.warp w := fun w => by
      rw [State.warp_setWarp]
      split
      · next hw => rw [hw]
      · rfl
    obtain ⟨t, ht, hrest, hwarps⟩ := ih (s := s.setWarp v (s.warp v)) fun w hw => by rw [hread]; exact hws w hw
    exact ⟨t, by rw [List.foldl_cons, State.payOwed_of_nil hv]; exact ht, hrest.trans rfl, fun w => (hwarps w).trans (hread w)⟩

theorem State.partReqs_of_none {s : State} {e : Nat} (h : ∀ r ∈ s.reqs, r.core ≠ e) (ctx bid : Nat) : s.partReqs e ctx bid = s := by
  have hgone : s.reqs.filter (fun r => decide (r.core = e) && !r.away && r.dropped) = [] :=
    List.filter_eq_nil_iff.mpr fun r hr => by simp [h r hr]
  unfold State.partReqs
  simp only [hgone, List.foldl_nil]
  have hmap : s.reqs.map (fun r => if r.core = e ∧ (!r.away) = true ∧ r.stays = true then { r with away := true, warp := awayWarp ctx bid (widOf r.warp) } else r) = s.reqs :=
    (List.map_congr_left (g := id) fun r hr => if_neg fun hand => h r hr hand.1).trans (List.map_id _)
  rw [hmap]

/-- The threads of a core under their places in it. -/
theorem Tab.get_corePart {α : Type} (z : α) (t : Tab α) (e n i : Nat) (hi : i < n) :
    Tab.get z ((t.filter (fun p => decide (p.1 / n = e))).map (fun p => (p.1 % n, p.2))) i = Tab.get z t (n * e + i) := by
  induction t with
  | nil => rfl
  | cons p t ih =>
    obtain ⟨k, v⟩ := p
    rw [List.filter_cons, Tab.get]
    by_cases hk : k = n * e + i
    · have hdiv : k / n = e := by rw [hk, Nat.mul_add_div (by omega), Nat.div_eq_of_lt hi, Nat.add_zero]
      have hmod : k % n = i := by rw [hk, Nat.mul_add_mod, Nat.mod_eq_of_lt hi]
      rw [if_pos (decide_eq_true hdiv), if_pos hk, List.map_cons, Tab.get, if_pos hmod]
    · rw [if_neg hk]
      split
      · next hdiv =>
        have hdiv : k / n = e := of_decide_eq_true hdiv
        have hmod : ¬ k % n = i := fun h => hk (by rw [← hdiv, ← h]; exact (Nat.div_add_mod k n).symm)
        rw [List.map_cons, Tab.get, if_neg hmod, ih]
      · exact ih

/-- What is kept of a block that leaves its core (R410, R412). -/
def State.savedAt (s : State) (e : Nat) : Saved :=
  { at_ := e, core := keptCore (s.core e)
    warps := (s.wrp.filter (fun p => decide (p.1 / 28 = e))).map (fun p => (p.1 % 28, { p.2 with fetch := none }))
    thr := (s.thr.filter (fun p => decide (p.1 / 448 = e))).map (fun p => (p.1 % 448, p.2)) }

theorem exec_saveComplete_spec {s : State} {c b e : Nat} {t0 : Int} (hsaving : s.blkSt c b = .saving e t0) (hlives : (s.ctx c).killing = false)
    (hgraph : (s.ctx c).graph = none) (hpark : Tab.find (s.ctx c).recPark (b + 1) = none) (hready : s.saveReady e = true)
    (hto : s.saveTo c (s.recLow c (some b)) = .ok) (hto' : s.saveTo c (s.recLow c none) = .ok) (hclean : s.dirtyLines e = [])
    (hreqs : ∀ r ∈ s.reqs, r.core ≠ e) (howed : ∀ w ∈ s.warpsOf e, (s.warp w).owed = []) (hfree : s.q17Free c (dieIdx e) 2)
    (hother : s.q17Core c (s.ownKey (dieIdx e)) ≠ e) : ∃ t, exec (.saveComplete c b) s = .next t ∧
    t = { s with thr := t.thr, wrp := t.wrp, cor := t.cor, die := t.die, ctxs := t.ctxs, bad := t.bad, mem := t.mem, fresh := t.fresh, nextId := t.nextId } ∧
    (∀ u, t.thread u = if coreOf (warpOf u) = e then {} else s.thread u) ∧ (∀ w, t.warp w = if coreOf w = e then {} else s.warp w) ∧
    (∀ j, t.core j = if j = e then { clid := (s.core e).clid } else { s.core j with ports := (t.core j).ports }) ∧
    (∀ j q, j ≠ e → t.port j q = if j = s.q17Core c (s.ownKey (dieIdx e)) ∧ q = 17 then s.port j q ++ [recHead 4 1 (recCtx c) (dieIdx e), (b : Int)]
      else s.port j q) ∧
    (∀ k, k ≠ b → t.blkSt c k = s.blkSt c k) ∧ t.blkSt c b = .saved e ∧
    ∃ y, Tab.find (t.ctx c).saved b = some y ∧ y.at_ = e ∧ ∀ i, i < 448 → Tab.get {} y.thr i = s.thread (448 * e + i) := by
  obtain ⟨s1, hs1, hrest1, hwarp1⟩ := State.foldl_payOwed_of_nil (s.warpsOf e) howed
  obtain ⟨s2, hs2⟩ : ∃ s2 : State, { s1 with nextId := s1.nextId + 1 } = s2 := ⟨_, rfl⟩
  have hclean1 : s1.dirtyLines e = [] := by
    rw [hrest1]; exact hclean
  have hl1 : (s1.partReqs e c b).saveL1 e = s2 := by
    rw [State.partReqs_of_none (by rw [hrest1]; exact hreqs), State.saveL1, hclean1, List.foldl_nil, hs2]
  obtain ⟨s3, hs3, hrest3, hctx3⟩ := s2.putRecord_spec c b e t0
  have hrest : s3 = { s with wrp := s1.wrp, die := s3.die, mem := s3.mem, bad := s3.bad, ctxs := s3.ctxs, fresh := s3.fresh, nextId := s1.nextId + 1 } :=
    hrest3.trans (by rw [← hs2, hrest1])
  have hctx : ∀ k, s3.ctx k = { s.ctx k with counters := (s3.ctx k).counters, rtN := (s3.ctx k).rtN } := fun k =>
    (hctx3 k).trans (by rw [← hs2, hrest1]; rfl)
  obtain ⟨x, hx⟩ : ∃ x : Ctx, { s3.ctx c with saved := Tab.put b (s3.savedAt e) (s3.ctx c).saved, blk := Tab.put b (.saved e) (s3.ctx c).blk } = x := ⟨_, rfl⟩
  obtain ⟨hcrest, hccore, hcthr, hcwarp⟩ := (s3.setCtx c x).clearCore_spec e
  obtain ⟨s4, hs4⟩ : ∃ s4, (s3.setCtx c x).clearCore e = s4 := ⟨_, rfl⟩
  rw [hs4] at hcrest hccore hcthr hcwarp
  have hfinish : s.finishSave c b e t0 = s4.notice 4 c (dieIdx e) [(b : Int)] := by
    rw [← hs4, ← hx]
    simp only [State.finishSave, hs1, hl1, hs3]
    rfl
  have hctx4 : s4.ctx c = x := by
    rw [hcrest]
    exact State.ctx_setCtx_self ..
  have hparts4 : s4.parts = s.parts := by rw [hcrest, hrest]; rfl
  have hpkg4 : s4.pkg = s.pkg := by rw [hcrest, hrest]; rfl
  have hpart4 : (s4.ctx c).part = (s.ctx c).part := by rw [hctx4, ← hx]; exact (by rw [hctx])
  have hown4 : s4.ownKey (dieIdx e) = s.ownKey (dieIdx e) := by rw [State.ownKey, hpkg4]; rfl
  have hq17 : s4.q17Core c (s4.ownKey (dieIdx e)) = s.q17Core c (s.ownKey (dieIdx e)) := by
    rw [hown4]
    exact State.q17Core_congr hpart4 hparts4 hpkg4 _
  obtain ⟨e0, he0⟩ : ∃ e0, s.q17Core c (s.ownKey (dieIdx e)) = e0 := ⟨_, rfl⟩
  rw [he0] at hother hq17 ⊢
  have hcore3 : ∀ j, (s3.setCtx c x).core j = s.core j := fun j => by rw [State.core_setCtx, hrest]; rfl
  have hport : ∀ j q, j ≠ e → s4.port j q = s.port j q := fun j q h => by rw [State.port, hccore, if_neg h, hcore3]; rfl
  have hrecs4 : s4.recs = [] := by rw [hcrest, hrest]; exact hfree.1
  have hfree4 : s4.q17Free c (dieIdx e) 2 := ⟨hrecs4, by rw [hq17, hport _ _ hother]; exact he0 ▸ hfree.2⟩
  have hnote := State.notice_eq (kind := 4) (body := [(b : Int)]) hfree4
  rw [hq17] at hnote
  have hexec : exec (.saveComplete c b) s = .next (s.finishSave c b e t0) := by
    change execSaveComplete c b s = _
    unfold execSaveComplete
    simp only [hsaving, hlives, hgraph, hpark, hready, hto, hto']
    rfl
  rw [hfinish, hnote] at hexec
  refine ⟨_, hexec, ?_, fun u => ?_, fun w => ?_, fun j => ?_, fun j q hj => ?_, fun k hk => ?_, ?_, s3.savedAt e, ?_, rfl, fun i hi => ?_⟩
  · have hrest4 : s4 = { s with thr := s4.thr, wrp := s4.wrp, cor := s4.cor, die := s4.die, ctxs := s4.ctxs, bad := s4.bad, mem := s4.mem
                                fresh := s4.fresh, nextId := s4.nextId } := by
      rw [hcrest, hrest]; rfl
    rw [State.setPort, State.setCore]
    exact (by rw [hrest4])
  · refine (State.thread_setCore ..).trans ((hcthr u).trans (if_congr Iff.rfl rfl ?_))
    rw [State.thread_setCtx, hrest]; rfl
  · refine (State.warp_setCore ..).trans ((hcwarp w).trans (if_congr Iff.rfl rfl ?_))
    rw [State.warp_setCtx, hrest]; exact hwarp1 w
  · by_cases hj : j = e
    · have hne : j ≠ e0 := fun h => hother (h ▸ hj)
      rw [if_pos hj, State.core_setPort, if_neg hne, hccore, if_pos hj, hcore3]
    · rw [if_neg hj]
      exact (State.core_setPort_ports ..).trans (by rw [hccore, if_neg hj, hcore3])
  · rw [State.port_setPort]
    split
    · next h => rw [hport _ _ hother, h.1, h.2]; rfl
    · exact hport j q hj
  · have hblk : (s4.setPort e0 17 (s4.port e0 17 ++ [recHead 4 1 (recCtx c) (dieIdx e), (b : Int)])).ctx c = x := (State.ctx_setCore ..).trans hctx4
    refine (congrArg (fun y : Ctx => Tab.get BlkSt.ended y.blk k) hblk).trans ?_
    rw [← hx]
    exact (Tab.get_put_ne _ _ _ hk).trans (by rw [hctx]; rfl)
  · have hblk : (s4.setPort e0 17 (s4.port e0 17 ++ [recHead 4 1 (recCtx c) (dieIdx e), (b : Int)])).ctx c = x := (State.ctx_setCore ..).trans hctx4
    refine (congrArg (fun y : Ctx => Tab.get BlkSt.ended y.blk b) hblk).trans ?_
    rw [← hx]
    exact Tab.get_put_self ..
  · have hblk : (s4.setPort e0 17 (s4.port e0 17 ++ [recHead 4 1 (recCtx c) (dieIdx e), (b : Int)])).ctx c = x := (State.ctx_setCore ..).trans hctx4
    refine (congrArg (fun y : Ctx => Tab.find y.saved b) hblk).trans ?_
    rw [← hx]
    exact (Tab.find_put ..).trans (if_pos rfl)
  · have hthr3 : s3.thr = s.thr := by rw [hrest]
    have hget := Tab.get_corePart ({} : Thread) s3.thr e 448 i hi
    rw [hthr3] at hget
    rw [State.savedAt, hthr3]
    exact hget

/-- Settles O47: a hang without a save area is a kill, a kill without requests clears its cores, and a save without work clears one. -/
theorem contextEnds : Obligations.ContextEnds := by
  unfold Obligations.ContextEnds
  refine ⟨?_, ?_, ?_⟩
  · intro s c t0 b e hsince hhung hdue hbase hb hplaced hfree hnodup
    exact exec_hang_spec hsince hhung hdue hbase hb hplaced hfree hnodup
  · intro s c hlive hkilling hgraph hnone hseqs hsorted hfree hother
    exact exec_killComplete_spec hlive hkilling hgraph hnone hseqs hsorted hfree hother
  · intro s c b e t0 hsaving hlives hgraph hpark hready hto hto' hclean hreqs howed hfree hother
    exact exec_saveComplete_spec hsaving hlives hgraph hpark hready hto hto' hclean hreqs howed hfree hother

end Sys2Proof.Machine
end

