-- ==== Sys2Proof/Proofs/HomeRequests.lean ====
section
/-! Homes: what an access writes reads back as one value (R30, R112). -/

namespace Sys2Proof.Machine

/-! Values in trytes. -/

theorem wrap_add (x : Int) (m n : Nat) : wrap x (m + n) = wrap x m + pow3 m * wrap (shr x m) n := by
  have hbound : |wrap x m + pow3 m * wrap (shr x m) n| ≤ half (m + n) := by
    have hlow := abs_le.mp (abs_wrap_le x m)
    have hhigh := abs_le.mp (abs_wrap_le (shr x m) n)
    have h1 := mul_le_mul_of_nonneg_left hhigh.1 (pow3_pos m).le
    have h2 := mul_le_mul_of_nonneg_left hhigh.2 (pow3_pos m).le
    rw [half_add, abs_le]
    rw [mul_neg] at h1
    constructor <;> linarith [hlow.1, hlow.2]
  have hx : x = (wrap x m + pow3 m * wrap (shr x m) n) + pow3 (m + n) * shr x (m + n) := by
    conv_lhs => rw [← wrap_add_pow3_mul_shr x m, ← wrap_add_pow3_mul_shr (shr x m) n, shr_shr]
    rw [pow3_add]
    ring
  conv_lhs => rw [hx]
  exact wrap_add_pow3_mul hbound _

theorem ofTrytes_toTrytes_wrap (n : Nat) (x : Int) : ofTrytes (toTrytes n x) = wrap x (9 * n) := by
  induction n generalizing x with
  | zero => exact (abs_nonpos_iff.mp (abs_wrap_le x 0)).symm
  | succ n ih =>
    have hmul : 9 * (n + 1) = 9 + 9 * n := by ring
    rw [hmul, wrap_add, ← ih]
    rfl

theorem length_toTrytes (n : Nat) (x : Int) : (toTrytes n x).length = n := by
  induction n generalizing x with
  | zero => rfl
  | succ n ih => exact congrArg (· + 1) (ih _)

theorem wrap_of_mem_toTrytes {n : Nat} {x y : Int} (h : y ∈ toTrytes n x) : wrap y 9 = y := by
  induction n generalizing x with
  | zero => cases h
  | succ n ih =>
    rcases List.mem_cons.mp h with rfl | h
    · exact wrap_of_abs_le (abs_wrap_le x 9)
    · exact ih h

/-! Writes to distinct trytes. -/

theorem afterPuts_of_not_mem {as vs : List Int} {a : Int} (h : a ∉ as) (old : Int) : afterPuts (List.zip as vs) a old = old := by
  induction as generalizing vs with
  | nil => rfl
  | cons b as ih =>
    obtain ⟨hb, has⟩ := not_or.mp (mt List.mem_cons.mpr h)
    cases vs with
    | nil => rfl
    | cons v vs =>
      rw [List.zip_cons_cons, afterPuts, List.foldl_cons, if_neg (Ne.symm hb)]
      exact ih has

theorem map_afterPuts {as vs : List Int} (hnodup : as.Nodup) (hlen : vs.length = as.length) (f : Int → Int) :
    as.map (fun a => afterPuts (List.zip as vs) a (f a)) = vs.map (wrap · 9) := by
  induction as generalizing vs f with
  | nil =>
    obtain rfl := List.length_eq_zero_iff.mp hlen
    rfl
  | cons b as ih =>
    obtain ⟨hb, has⟩ := List.nodup_cons.mp hnodup
    cases vs with
    | nil => cases hlen
    | cons v vs =>
      have hhead : afterPuts (List.zip (b :: as) (v :: vs)) b (f b) = wrap v 9 := by
        rw [List.zip_cons_cons, afterPuts, List.foldl_cons, if_pos rfl]
        exact afterPuts_of_not_mem hb _
      have htail : as.map (fun a => afterPuts (List.zip (b :: as) (v :: vs)) a (f a)) = as.map (fun a => afterPuts (List.zip as vs) a (f a)) := by
        refine List.map_congr_left fun a ha => ?_
        rw [List.zip_cons_cons, afterPuts, List.foldl_cons, if_neg fun h : b = a => hb (h ▸ ha)]
        rfl
      rw [List.map_cons, hhead, htail, ih has (Nat.succ_inj.mp hlen), List.map_cons]

theorem nodup_covers (sz : Sz) (pa : Int) : (covers sz pa).Nodup :=
  List.nodup_range.map fun i j h => by simpa using h

theorem length_covers (sz : Sz) (pa : Int) : (covers sz pa).length = szLen sz := by simp [covers]

theorem szTrits_eq (sz : Sz) : szTrits sz = 9 * szLen sz := by cases sz <;> rfl

theorem abs_le_of_mem_covers {sz : Sz} {pa a : Int} (hpa : |pa| < half 46) (ha : a ∈ covers sz pa) : |a| ≤ half 47 := by
  obtain ⟨i, hi, rfl⟩ := List.mem_map.mp ha
  have hlen : szLen sz ≤ 6 := by cases sz <;> decide
  have hi : i < szLen sz := List.mem_range.mp hi
  have hlow : szLow sz pa = pa ∨ szLow sz pa = pa - 1 := by
    unfold szLow
    split
    · exact .inl rfl
    · exact .inr rfl
  have hroom : half 46 + 10 ≤ half 47 := by decide
  rw [abs_lt] at hpa
  rw [abs_le]
  omega

/-- A value that a home has written reads back as it is (R112, R229). -/
theorem State.homeVal_of_puts {s t : State} {own : Nat} {pa v : Int} {sz : Sz} (hpa : |pa| < half 46)
    (hread : ∀ a, |a| ≤ half 47 → t.homeTryte own a false = afterPuts (List.zip (covers sz pa) (toTrytes (szLen sz) v)) a (s.homeTryte own a false)) :
    t.homeVal own pa sz = wrap v (szTrits sz) := by
  have hmap : (covers sz pa).map (fun a => t.homeTryte own a false) = toTrytes (szLen sz) v := by
    refine (List.map_congr_left fun a ha => hread a (abs_le_of_mem_covers hpa ha)).trans ?_
    rw [map_afterPuts (nodup_covers sz pa) (by rw [length_toTrytes, length_covers])]
    exact (List.map_congr_left fun y hy => wrap_of_mem_toTrytes hy).trans (List.map_id _)
  rw [State.homeVal, hmap, ofTrytes_toTrytes_wrap, szTrits_eq]

/-! Requests at their homes (R113, R229, R230). -/

theorem State.touch_of_free {s : State} {r : Req} (hdet : (s.ctx r.ctx).lr.det = false) (va : Int) : s.touch r va = (s, false) := by
  rw [State.touch, State.touchAs]
  exact if_pos (.inl (by simp [hdet]))

/-- What a home does with a request for which it needs no sector whole (R113). -/
def State.homeTakes (s : State) (r : Req) : Option State :=
  match r.kind with
  | .atom .. => some (s.perform r)
  | .cas .. => some (s.perform r)
  | .ldb .. => some (s.windowArrive r)
  | .stb .. => some (s.windowArrive r)
  | .tkt q _ => some (s.draw r q)
  | _ => none

theorem exec_homeRequest_takes {s t : State} {id : Nat} {r : Req} (hreq : s.req id = some r) (hspace : spaceOf r.ea = 1) (hready : s.homeReady r = true)
    (htakes : s.homeTakes r = some t) : exec (.homeRequest id) s = .next t := by
  have hregion : regionOf r.ea = .device := if_pos hspace
  change execHomeRequest id s = _
  unfold execHomeRequest
  simp only [hreq, hregion, hready]
  unfold State.homeTakes at htakes
  cases hkind : r.kind <;> rw [hkind] at htakes <;> cases htakes <;> rfl

/-- An atomic is performed at a home that needs no fill (R137). -/
theorem State.perform_writes {s : State} {r : Req} {sz : Sz} {v : Int} (hdet : (s.ctx r.ctx).lr.det = false) (hsz : rkSz r.kind = sz)
    (hhas : s.secHas r.own (covers sz r.pa) false = true) (hphase : ∀ s w, State.notePhase s r w = s)
    (hrmw : rmwOf r.kind (s.homeVal r.own r.pa sz) = some v) : s.perform r =
      ((s.homePut r.own false r.ctx (List.zip (covers sz r.pa) (toTrytes (szLen sz) v)) r.slices).wrote r.own (lineOf r.pa)).reply r
        (s.homeVal r.own r.pa sz) (s.wOf r.own (lineOf r.pa)) := by
  unfold State.perform
  simp only [State.touch_of_free hdet, hsz, State.fillFor_of_has hhas, hrmw, Bool.false_eq_true, if_false, List.append_nil, State.homeStore, hphase]

theorem State.perform_reads {s : State} {r : Req} {sz : Sz} (hdet : (s.ctx r.ctx).lr.det = false) (hsz : rkSz r.kind = sz)
    (hhas : s.secHas r.own (covers sz r.pa) false = true) (hrmw : rmwOf r.kind (s.homeVal r.own r.pa sz) = none) :
    s.perform r = s.reply r (s.homeVal r.own r.pa sz) (s.dieSt r.own).clk := by
  unfold State.perform
  simp only [State.touch_of_free hdet, hsz, State.fillFor_of_has hhas, hrmw, Bool.false_eq_true, if_false, List.append_nil]

theorem State.notePhase_of_atom {s : State} {r : Req} {op : AOp} {sz : Sz} {v : Int} {d : Nat} (hkind : r.kind = .atom op sz v d) (w : Int) :
    s.notePhase r w = s := by
  simp only [State.notePhase, hkind]

theorem State.notePhase_of_cas {s : State} {r : Req} {sz : Sz} {e v : Int} {d : Nat} (hkind : r.kind = .cas sz e v d) (w : Int) :
    s.notePhase r w = s := by
  simp only [State.notePhase, hkind]

/-- A home writes a value, notes its line and replies (R112, R127). -/
theorem State.putReply_spec {s : State} {r : Req} {sz : Sz} {v : Int} (hline : ∀ a ∈ covers sz r.pa, lineOf a = lineOf r.pa)
    (hl2 : s.l2Has r.own r.slices [lineOf r.pa]) (old w : Int) : ∃ t,
    ((s.homePut r.own false r.ctx (List.zip (covers sz r.pa) (toTrytes (szLen sz) v)) r.slices).wrote r.own (lineOf r.pa)).reply r old w = t ∧
    OnlyHome s t r.own ∧ t.reqs = s.replied r old w ∧
    (∀ a, |a| ≤ half 47 → t.homeTryte r.own a false = afterPuts (List.zip (covers sz r.pa) (toTrytes (szLen sz) v)) a (s.homeTryte r.own a false)) ∧
    ∀ j, Tab.get {} (t.dieSt r.own).lines j = if j = ikey (lineOf r.pa) then
      { s.hline r.own (lineOf r.pa) with writes := (s.hline r.own (lineOf r.pa)).writes + 1 } else Tab.get {} (s.dieSt r.own).lines j := by
  obtain ⟨b, hb, hrest, hdie, hread⟩ := State.homePut_spec (own := r.own) (ctx := r.ctx) (sl := r.slices) (tr := List.zip (covers sz r.pa) (toTrytes (szLen sz) v))
    (fun q hq => List.mem_singleton.mpr (hline _ (List.of_mem_zip hq).1)) hl2
  have hself : b.dieSt r.own = { s.dieSt r.own with l2 := (b.dieSt r.own).l2 } := (hdie r.own).trans (if_pos rfl)
  have honly : OnlyHome s b r.own := ⟨by rw [hrest], fun k hk => (hdie k).trans (if_neg hk), by rw [hself]⟩
  have hnow : b.hline r.own (lineOf r.pa) = s.hline r.own (lineOf r.pa) := by rw [State.hline, hself]; rfl
  obtain ⟨t, ht, hhome, hreqs, hmem, hbad, hl2', hlines⟩ := State.setHline_reply_spec honly (by rw [hrest]) (lineOf r.pa)
    { b.hline r.own (lineOf r.pa) with writes := (b.hline r.own (lineOf r.pa)).writes + 1 } old w
  refine ⟨t, by rw [hb]; exact ht, hhome, hreqs, fun a ha => ?_, fun j => (hlines j).trans ?_⟩
  · exact (State.homeTryte_congr hl2' hmem hbad a).trans (hread a ha)
  · rw [hnow, hself]

theorem State.reply_only (s : State) (r : Req) (v w : Int) : OnlyHome s (s.reply r v w) r.own := ⟨rfl, fun _ _ => rfl, rfl⟩

theorem exec_homeRequest_atom {s : State} {id : Nat} {r : Req} {op : AOp} {sz : Sz} {v : Int} {d : Nat} (hreq : s.req id = some r)
    (hspace : spaceOf r.ea = 1) (hready : s.homeReady r = true) (hkind : r.kind = .atom op sz v d) (hdet : (s.ctx r.ctx).lr.det = false)
    (hhas : s.secHas r.own (covers sz r.pa) false = true) (hline : ∀ a ∈ covers sz r.pa, lineOf a = lineOf r.pa)
    (hl2 : s.l2Has r.own r.slices [lineOf r.pa]) (hpa : |r.pa| < half 46) : ∃ t, exec (.homeRequest id) s = .next t ∧ OnlyHome s t r.own ∧
    t.homeVal r.own r.pa sz = wrap (atomOp op sz (s.homeVal r.own r.pa sz) v) (szTrits sz) ∧
    (∀ a, a ∉ covers sz r.pa → |a| ≤ half 47 → t.homeTryte r.own a false = s.homeTryte r.own a false) ∧
    t.reqs = s.replied r (s.homeVal r.own r.pa sz) (s.wOf r.own (lineOf r.pa)) ∧
    ∀ j, Tab.get {} (t.dieSt r.own).lines j = if j = ikey (lineOf r.pa) then
        { s.hline r.own (lineOf r.pa) with writes := (s.hline r.own (lineOf r.pa)).writes + 1 } else Tab.get {} (s.dieSt r.own).lines j := by
  obtain ⟨t, ht, honly, hreqs, hread, hlines⟩ := State.putReply_spec (v := atomOp op sz (s.homeVal r.own r.pa sz) v) hline hl2
    (s.homeVal r.own r.pa sz) (s.wOf r.own (lineOf r.pa))
  have hexec : exec (.homeRequest id) s = .next (s.perform r) := exec_homeRequest_takes hreq hspace hready (by simp only [State.homeTakes, hkind])
  have hsz : rkSz r.kind = sz := by rw [hkind]; rfl
  have hperform := State.perform_writes hdet hsz hhas (fun x w => State.notePhase_of_atom (s := x) hkind w)
    (v := atomOp op sz (s.homeVal r.own r.pa sz) v) (by rw [hkind]; rfl)
  refine ⟨t, hexec.trans (congrArg _ (hperform.trans ht)), honly, State.homeVal_of_puts hpa hread, fun a ha hb => ?_, hreqs, hlines⟩
  rw [hread a hb, afterPuts_of_not_mem ha]

theorem exec_homeRequest_cas {s : State} {id : Nat} {r : Req} {sz : Sz} {e v : Int} {d : Nat} (hreq : s.req id = some r)
    (hspace : spaceOf r.ea = 1) (hready : s.homeReady r = true) (hkind : r.kind = .cas sz e v d) (hdet : (s.ctx r.ctx).lr.det = false)
    (hhas : s.secHas r.own (covers sz r.pa) false = true) (hline : ∀ a ∈ covers sz r.pa, lineOf a = lineOf r.pa)
    (hl2 : s.l2Has r.own r.slices [lineOf r.pa]) : ∃ t, exec (.homeRequest id) s = .next t ∧ OnlyHome s t r.own ∧
    (∀ a, |a| ≤ half 47 → t.homeTryte r.own a false = if s.homeVal r.own r.pa sz = e then
        afterPuts (List.zip (covers sz r.pa) (toTrytes (szLen sz) v)) a (s.homeTryte r.own a false) else s.homeTryte r.own a false) ∧
    t.reqs = s.replied r (s.homeVal r.own r.pa sz) (if s.homeVal r.own r.pa sz = e then s.wOf r.own (lineOf r.pa) else (s.dieSt r.own).clk) ∧
    ∀ j, Tab.get {} (t.dieSt r.own).lines j = if j = ikey (lineOf r.pa) ∧ s.homeVal r.own r.pa sz = e then
        { s.hline r.own (lineOf r.pa) with writes := (s.hline r.own (lineOf r.pa)).writes + 1 } else Tab.get {} (s.dieSt r.own).lines j := by
  have hexec : exec (.homeRequest id) s = .next (s.perform r) := exec_homeRequest_takes hreq hspace hready (by simp only [State.homeTakes, hkind])
  have hsz : rkSz r.kind = sz := by rw [hkind]; rfl
  have hrmw : rmwOf r.kind (s.homeVal r.own r.pa sz) = if s.homeVal r.own r.pa sz = e then some v else none := by rw [hkind]; rfl
  by_cases heq : s.homeVal r.own r.pa sz = e
  · obtain ⟨t, ht, honly, hreqs, hread, hlines⟩ := State.putReply_spec (v := v) hline hl2 (s.homeVal r.own r.pa sz) (s.wOf r.own (lineOf r.pa))
    have hperform := State.perform_writes hdet hsz hhas (fun x w => State.notePhase_of_cas (s := x) hkind w) (hrmw.trans (if_pos heq))
    refine ⟨t, hexec.trans (congrArg _ (hperform.trans ht)), honly, fun a ha => (hread a ha).trans (if_pos heq).symm, ?_, fun j => (hlines j).trans ?_⟩
    · rw [if_pos heq]; exact hreqs
    · exact if_congr (and_iff_left heq).symm rfl rfl
  · have hperform := State.perform_reads hdet hsz hhas (hrmw.trans (if_neg heq))
    refine ⟨_, hexec.trans (congrArg _ hperform), s.reply_only r _ _, fun a _ => ?_, ?_, fun j => ?_⟩
    · rw [if_neg heq]; rfl
    · rw [if_neg heq]; rfl
    · rw [if_neg fun h => heq h.2]; rfl

/-! Windows and tickets (R119, R247). -/

theorem State.setSeq_spec (s : State) (own slice q : Nat) (x : Seq) : OnlyHome s (s.setSeq own slice q (some x)) own ∧
    ((s.setSeq own slice q (some x)).dieSt own).l2 = (s.dieSt own).l2 ∧ ((s.setSeq own slice q (some x)).dieSt own).lines = (s.dieSt own).lines ∧
    ∀ j, Tab.find ((s.setSeq own slice q (some x)).dieSt own).seqs j = if j = slice * 27 + q then some x else Tab.find (s.dieSt own).seqs j := by
  have hself : (s.setSeq own slice q (some x)).dieSt own = { s.dieSt own with seqs := Tab.put (slice * 27 + q) x (s.dieSt own).seqs } :=
    State.dieSt_setDie_self ..
  refine ⟨⟨rfl, fun k hk => (State.dieSt_setDie ..).trans (if_neg hk), by rw [hself]⟩, by rw [hself], by rw [hself], fun j => ?_⟩
  rw [hself]
  exact Tab.find_put ..

theorem OnlyHome.reply {s a : State} {r : Req} (h : OnlyHome s a r.own) (v w : Int) : OnlyHome s (a.reply r v w) r.own :=
  ⟨by rw [State.reply, State.answer, State.setReq, h.rest], h.others, h.parts⟩

theorem OnlyHome.reply_reqs {s a : State} {r : Req} (h : OnlyHome s a r.own) (hreqs : a.reqs = s.reqs) (v w : Int) :
    (a.reply r v w).reqs = s.replied r v w := by
  have hclk : (a.dieSt r.own).clk = (s.dieSt r.own).clk := by rw [h.parts]
  simp only [State.reply, State.answer, State.setReq, State.replied, hclk, hreqs]

theorem State.winLost_of_good {s : State} {r : Req} (hgood : (0, cellKey r.own (r.pa.toNat / 64)) ∉ s.bad) : s.winLost r = (s, []) := by
  rw [State.winLost, State.atomLost, if_neg (by rwa [List.contains_iff_mem])]

theorem exec_homeRequest_ldb {s : State} {id : Nat} {r : Req} {b : BType} {tt : TType} {sa : Bool} {d : Nat} (hreq : s.req id = some r)
    (hspace : spaceOf r.ea = 1) (hready : s.homeReady r = true) (hkind : r.kind = .ldb b tt sa d) (hgood : (0, cellKey r.own (r.pa.toNat / 64)) ∉ s.bad) :
    exec (.homeRequest id) s = .next { s with
      reqs := s.replied r (ofBytes ((List.range b.bytes).map (fun i => s.byte r.own (r.pa.toNat + i)))) 0 } := by
  have hexec : exec (.homeRequest id) s = .next (s.windowArrive r) := exec_homeRequest_takes hreq hspace hready (by simp only [State.homeTakes, hkind])
  rw [hexec]
  simp only [State.windowArrive, hkind, State.winLost_of_good hgood, List.append_nil]
  rw [← hkind]
  rfl

theorem exec_homeRequest_stb {s : State} {id : Nat} {r : Req} {n v : Nat} {sa : Bool} (hreq : s.req id = some r)
    (hspace : spaceOf r.ea = 1) (hready : s.homeReady r = true) (hkind : r.kind = .stb n v sa) (hgood : (0, cellKey r.own (r.pa.toNat / 64)) ∉ s.bad)
    (hroom : r.pa.toNat + n ≤ 2 ^ 41) : ∃ t, exec (.homeRequest id) s = .next t ∧
    t = { s with mem := t.mem, reqs := s.replied r 0 (s.dieSt r.own).clk } ∧ ∀ o b, b < 2 ^ 41 → t.byte o b =
      if o = r.own ∧ r.pa.toNat ≤ b ∧ b < r.pa.toNat + n then (toBytes n v).getD (b - r.pa.toNat) 0 % 256 else s.byte o b := by
  have hexec : exec (.homeRequest id) s = .next (s.windowArrive r) := exec_homeRequest_takes hreq hspace hready (by simp only [State.homeTakes, hkind])
  have harrive : s.windowArrive r = (s.setBytes r.own r.pa.toNat (toBytes n v)).reply r 0 (s.dieSt r.own).clk := by
    simp only [State.windowArrive, hkind, State.winLost_of_good hgood, List.append_nil]
    rw [← hkind]
  have hrest := State.setBytes_rest r.own (toBytes n v) s r.pa.toNat
  obtain ⟨a, ha⟩ : ∃ a, s.setBytes r.own r.pa.toNat (toBytes n v) = a := ⟨_, rfl⟩
  rw [ha] at harrive hrest
  rw [harrive] at hexec
  refine ⟨_, hexec, ?_, fun o b hb => ?_⟩
  · rw [State.reply, State.answer, State.setReq, hrest]
    rfl
  · have hbyte := State.byte_setBytes (toBytes n v) (own := r.own) (a := r.pa.toNat) (by rw [length_toBytes]; exact hroom) s (o := o) hb
    rw [ha, length_toBytes] at hbyte
    exact hbyte

theorem exec_homeRequest_tkt {s : State} {id : Nat} {r : Req} {q d : Nat} {x : Seq} (hreq : s.req id = some r)
    (hspace : spaceOf r.ea = 1) (hready : s.homeReady r = true) (hkind : r.kind = .tkt q d) (hseq : s.seq r.own r.slice q = some x) (hfew : x.d - x.n < 243) :
    ∃ t, exec (.homeRequest id) s = .next t ∧ OnlyHome s t r.own ∧ (t.dieSt r.own).l2 = (s.dieSt r.own).l2 ∧ (t.dieSt r.own).lines = (s.dieSt r.own).lines ∧
    (∀ j, Tab.find (t.dieSt r.own).seqs j = if j = r.slice * 27 + q then some { x with d := x.d + 1, drawn := x.drawn ++ [(x.d, r.bid)] }
      else Tab.find (s.dieSt r.own).seqs j) ∧
    t.reqs = s.replied r (tktWord q x.d) 0 := by
  have hexec : exec (.homeRequest id) s = .next (s.draw r q) := exec_homeRequest_takes hreq hspace hready (by simp only [State.homeTakes, hkind])
  have hdraw : s.draw r q = (s.setSeq r.own r.slice q (some { x with d := x.d + 1, drawn := x.drawn ++ [(x.d, r.bid)] })).reply r (tktWord q x.d) 0 := by
    simp only [State.draw, hseq, if_neg hfew.not_ge]
  obtain ⟨honly, hl2, hlines, hseqs⟩ := State.setSeq_spec s r.own r.slice q { x with d := x.d + 1, drawn := x.drawn ++ [(x.d, r.bid)] }
  rw [hdraw] at hexec
  refine ⟨_, hexec, honly.reply .., hl2, hlines, hseqs, ?_⟩
  rw [honly.reply_reqs rfl]

end Sys2Proof.Machine
end

