-- ==== Sys2Proof/Proofs/HomeEvents.lean ====
section
/-! Fills, timed stores, ordered passes, evictions and storage errors at a home (R112, R134, R234, R437, R438). -/

namespace Sys2Proof.Machine

/-! Fills. -/

/-- One place of a sector that a fill completes (R112). -/
def fillPlace (vals : List Int) (t : Tab LTryte) (i : Nat) : Tab LTryte :=
  if (Tab.find t i).isSome then t else Tab.put i { written := false, val := vals.getD i 0 : LTryte } t

theorem find_foldl_fillPlace (vals : List Int) (is : List Nat) (t : Tab LTryte) (j : Nat) : Tab.find (is.foldl (fillPlace vals) t) j =
    (Tab.find t j).or (if j ∈ is then some { written := false, val := vals.getD j 0 } else none) := by
  induction is generalizing t with
  | nil => simp
  | cons i is ih =>
    rw [List.foldl_cons, ih, fillPlace]
    by_cases hi : (Tab.find t i).isSome = true
    · rw [if_pos hi]
      cases hj : Tab.find t j with
      | some x => rfl
      | none =>
        have hne : j ≠ i := fun h => by rw [← h, hj] at hi; cases hi
        simp [hne]
    · rw [if_neg hi, Tab.find_put]
      by_cases hj : j = i
      · subst hj
        have hnone : Tab.find t j = none := Option.not_isSome_iff_eq_none.mp hi
        simp [hnone]
      · simp [hj]

/-- A sector after a fill that finds room (R112). -/
def State.filled (s : State) (own : Nat) (k : Int) (cmp : Bool) (sl : Nat) : L2Sec :=
  { s.sec own k cmp with tr := (List.range 27).foldl (fillPlace (s.readSec own k cmp).1) (s.sec own k cmp).tr, slice := sl, stamp := s.stamp }

theorem State.fillSec_of_room {s : State} {own : Nat} {k : Int} {cmp : Bool} {sl : Nat} (hroom : s.l2Room own sl (shr k 1) cmp = s)
    (hclean : (s.readSec own k cmp).2 = []) (ctx die : Nat) : s.fillSec own k cmp ctx die sl = (s.setSec own k cmp (s.filled own k cmp sl), []) := by
  unfold State.fillSec
  simp only [hroom, hclean]
  rfl

theorem State.find_filled (s : State) (own : Nat) (k : Int) (cmp : Bool) (sl j : Nat) : Tab.find (s.filled own k cmp sl).tr j =
    (Tab.find (s.sec own k cmp).tr j).or (if j ∈ List.range 27 then some { written := false, val := (s.readSec own k cmp).1.getD j 0 } else none) := by
  unfold State.filled
  generalize List.range 27 = is
  exact find_foldl_fillPlace ..

theorem State.filled_ne (s : State) (own : Nat) (k : Int) (cmp : Bool) (sl : Nat) : s.filled own k cmp sl ≠ {} := fun h => by
  have hfind := s.find_filled own k cmp sl 0
  rw [h] at hfind
  cases hold : Tab.find (s.sec own k cmp).tr 0 <;> rw [hold] at hfind <;> simp at hfind

theorem State.sec_setSec {s : State} {own : Nat} {k : Int} {cmp : Bool} {x : L2Sec} (j : Int) (c : Bool) :
    (s.setSec own k cmp x).sec own j c = if l2Key j c = l2Key k cmp then x else s.sec own j c := by
  rw [State.setSec, State.sec, State.dieSt_setDie_self, Tab.get_set]
  rfl

theorem l2Key_inj {j k : Int} {c d : Bool} (hj : |j| ≤ half 44) (h : l2Key j c = l2Key k d) : j = k ∧ c = d := by
  have hle : half 44 < half 54 := by decide
  rw [abs_le] at hj
  unfold l2Key ikey at h
  cases c <;> cases d <;> simp at h ⊢ <;> omega

/-- A fill changes nothing that the home reads (R112). -/
theorem State.homeTryte_filled (s : State) (own : Nat) (k : Int) (cmp : Bool) (sl : Nat) {b : Int} (hb : |b| ≤ half 47) (c : Bool) :
    (s.setSec own k cmp (s.filled own k cmp sl)).homeTryte own b c = s.homeTryte own b c := by
  have hread := State.readSec_congr (s := s) (t := s.setSec own k cmp (s.filled own k cmp sl)) rfl rfl own (secOf b) c
  rw [State.homeTryte, hread, State.sec_setSec]
  by_cases hkey : l2Key (secOf b) c = l2Key k cmp
  · obtain ⟨hk, rfl⟩ := l2Key_inj (abs_shr_le (m := 3) (n := 44) hb) hkey
    have hk : secOf b = k := hk
    subst hk
    rw [if_pos rfl, State.find_filled, State.homeTryte]
    cases Tab.find (s.sec own (secOf b) c).tr (secPos b) with
    | some x => rfl
    | none =>
      rw [Option.none_or]
      by_cases hpos : secPos b ∈ List.range 27
      · rw [if_pos hpos]; rfl
      · rw [if_neg hpos]
  · rw [if_neg hkey]; rfl

theorem exec_sectorFill_spec {s : State} {id : Nat} {r : Req} {a : Int} (hreq : s.req id = some r) (hhome : atHome r = true) (hneed : s.needSecs r = [a])
    (hpart : s.secFull r.own (secOf (r.physAt a)) (r.leafAt a).cmp = false) (hclean : (s.readSec r.own (secOf (r.physAt a)) (r.leafAt a).cmp).2 = [])
    (hroom : s.l2Room r.own ((r.leafAt a).slices r.own (lineOf (r.physAt a))) (lineOf (r.physAt a)) (r.leafAt a).cmp = s) :
    ∃ t, exec (.sectorFill id) s = .next t ∧ OnlyHome s t r.own ∧ t.reqs = s.reqs ∧ (t.dieSt r.own).lines = (s.dieSt r.own).lines ∧
    (∀ i, i < 27 → (Tab.find (t.sec r.own (secOf (r.physAt a)) (r.leafAt a).cmp).tr i).isSome = true) ∧
    ∀ b c, |b| ≤ half 47 → t.homeTryte r.own b c = s.homeTryte r.own b c := by
  obtain ⟨k, hk⟩ : ∃ k, secOf (r.physAt a) = k := ⟨_, rfl⟩
  obtain ⟨cmp, hcmp⟩ : ∃ cmp, (r.leafAt a).cmp = cmp := ⟨_, rfl⟩
  obtain ⟨sl, hsl⟩ : ∃ sl, (r.leafAt a).slices r.own (lineOf (r.physAt a)) = sl := ⟨_, rfl⟩
  have hline : lineOf (r.physAt a) = shr k 1 := by rw [← hk, secOf, shr_shr]; rfl
  rw [hk, hcmp] at hpart hclean ⊢
  rw [hsl, hcmp, hline] at hroom
  have hfill := State.fillSec_of_room hroom hclean r.ctx (dieIdx r.core)
  have hself : (s.setSec r.own k cmp (s.filled r.own k cmp sl)).dieSt r.own =
      { s.dieSt r.own with l2 := Tab.set {} (l2Key k cmp) (s.filled r.own k cmp sl) (s.dieSt r.own).l2 } := State.dieSt_setDie_self ..
  have hexec : exec (.sectorFill id) s = .next (s.setSec r.own k cmp (s.filled r.own k cmp sl)) := by
    change execSectorFill id s = _
    unfold execSectorFill
    simp only [hreq, hneed, hhome, List.find?_cons, hk, hcmp, hsl, hpart, Bool.not_false]
    rw [hk, hfill]
    simp only [List.append_nil, ite_self, List.map_id']
  refine ⟨_, hexec, ⟨rfl, fun j hj => (State.dieSt_setDie ..).trans (if_neg hj), by rw [hself]⟩, rfl, by rw [hself], fun i hi => ?_,
    fun b c hb => State.homeTryte_filled s r.own k cmp sl hb c⟩
  rw [State.sec_setSec, if_pos rfl, State.find_filled, if_pos (List.mem_range.mpr hi)]
  cases Tab.find (s.sec r.own k cmp).tr i <;> rfl

/-! Timed stores (R134). -/

theorem exec_stvaArrival_waits {s : State} {id : Nat} {r : Req} {sz : Sz} {v tm : Int} (hreq : s.req id = some r) (hstage : r.stage = .home)
    (hkind : r.kind = .stva sz v tm) (hhere : r.held = false) (hsent : r.sent ≤ (s.dieSt r.own).clk) (hbehind : s.behind r = false)
    (hlines : ∀ l ∈ r.plines, s.lineHeld r.own l = false ∧ ∀ g ∈ (s.hline r.own l).grants, g.stop ≤ tm ∨ g.stop ≤ (s.dieSt r.own).clk)
    (hearly : (s.dieSt r.own).clk ≤ tm) (hroom : s.pendUsed r.own r.slice < 243) :
    exec (.stvaArrival id) s = .next { s.setReq { r with stage := .buffered, arr := s.nextId } with nextId := s.nextId + 1 } := by
  have hfree : r.plines.any (s.lineHeld r.own) = false := List.any_eq_false.mpr fun l hl => by simp [(hlines l hl).1]
  have hlease : r.plines.any (fun l => (s.hline r.own l).grants.any (fun g => decide (tm < g.stop) && decide ((s.dieSt r.own).clk < g.stop))) = false :=
    List.any_eq_false.mpr fun l hl => by
      rw [Bool.not_eq_true, List.any_eq_false]
      intro g hg
      rcases (hlines l hl).2 g hg with h | h <;> simp [h.not_gt]
  change execStvaArrival id s = _
  unfold execStvaArrival
  simp only [hreq, hstage, hkind, hhere, hbehind, hfree, hlease, hsent.not_gt, hearly.not_gt, hroom, decide_true]
  rfl

theorem State.foldl_wrote_spec (own : Nat) (ls : List Int) (s : State) : OnlyHome s (ls.foldl (fun a l => a.wrote own l) s) own ∧
    (ls.foldl (fun a l => a.wrote own l) s).reqs = s.reqs ∧ (ls.foldl (fun a l => a.wrote own l) s).mem = s.mem ∧
    (ls.foldl (fun a l => a.wrote own l) s).bad = s.bad ∧
    ((ls.foldl (fun a l => a.wrote own l) s).dieSt own).l2 = (s.dieSt own).l2 ∧ ((ls.foldl (fun a l => a.wrote own l) s).dieSt own).seqs = (s.dieSt own).seqs := by
  induction ls generalizing s with
  | nil => exact ⟨.refl s own, rfl, rfl, rfl, rfl, rfl⟩
  | cons l ls ih =>
    obtain ⟨honly, hreqs, hmem, hbad, hl2, hseqs⟩ := ih (s.wrote own l)
    have hself : (s.wrote own l).dieSt own = { s.dieSt own with lines := ((s.wrote own l).dieSt own).lines } := (s.wrote_spec own l).2 own
    refine ⟨⟨honly.rest.trans rfl, fun k hk => (honly.others k hk).trans ?_, honly.parts.trans ?_⟩, hreqs, hmem, hbad, hl2.trans (by rw [hself]),
      hseqs.trans (by rw [hself])⟩
    · rw [State.wrote, State.dieSt_setHline, if_neg hk]
    · rw [hself]
      rfl

theorem exec_stvaPerform_due {s : State} {id : Nat} {r : Req} {sz : Sz} {v tm : Int} (hreq : s.req id = some r) (hstage : r.stage = .buffered)
    (hkind : r.kind = .stva sz v tm) (hdue : tm ≤ (s.dieSt r.own).clk) (hdet : (s.ctx r.ctx).lr.det = false)
    (hfirst : ∀ q ∈ s.reqs, q.own = r.own → q.stage = .buffered → ∀ z x u, q.kind = .stva z x u → tm < u ∨ (tm = u ∧ r.arr ≤ q.arr))
    (hlines : ∀ l ∈ r.plines, s.prepHeld r.own l = false) (hl2 : s.l2Has r.own r.slices r.plines) :
    ∃ t, exec (.stvaPerform id) s = .next t ∧ OnlyHome s t r.own ∧ (t.dieSt r.own).seqs = (s.dieSt r.own).seqs ∧
    (∀ a, |a| ≤ half 47 → t.homeTryte r.own a false = afterPuts (List.zip r.pas (toTrytes (szLen sz) v)) a (s.homeTryte r.own a false)) ∧
    t.reqs = s.replied { r with late := false, causes := [] } 0 tm := by
  have hfree : r.plines.any (s.prepHeld r.own) = false := List.any_eq_false.mpr fun l hl => by simp [hlines l hl]
  obtain ⟨b, hb, hrest, hdie, hread⟩ := State.homePut_spec (own := r.own) (ctx := r.ctx) (sl := r.slices) (tr := List.zip r.pas (toTrytes (szLen sz) v))
    (fun q hq => List.mem_dedup.mpr (List.mem_map_of_mem (List.of_mem_zip hq).1)) hl2
  have hself : b.dieSt r.own = { s.dieSt r.own with l2 := (b.dieSt r.own).l2 } := (hdie r.own).trans (if_pos rfl)
  obtain ⟨honly, hreqs, hmem, hbad, hl2', hseqs⟩ := State.foldl_wrote_spec r.own r.plines b
  obtain ⟨a, ha⟩ : ∃ a, r.plines.foldl (fun a l => a.wrote r.own l) b = a := ⟨_, rfl⟩
  rw [ha] at honly hreqs hmem hbad hl2' hseqs
  have honly' : OnlyHome s a ({ r with late := false, causes := [] } : Req).own := by
    refine ⟨honly.rest.trans (by rw [hrest]), fun k hk => (honly.others k hk).trans ((hdie k).trans (if_neg hk)), ?_⟩
    exact honly.parts.trans (by rw [hself])
  have hexec : exec (.stvaPerform id) s = .next (a.reply { r with late := false, causes := [] } 0 tm) := by
    change execStvaPerform id s = _
    unfold execStvaPerform
    simp only [hreq, hstage, hkind, hfree, hdue.not_gt]
    rw [if_neg]
    · simp only [State.stvaStore, State.touch_of_free hdet, hb, ha, Bool.false_eq_true, if_false]
      rw [← hkind, ← hstage]
    · simp only [false_or, Bool.false_eq_true, or_false, List.any_eq_true, not_exists, not_and]
      intro q hq hall
      simp only [Bool.and_eq_true, decide_eq_true_eq] at hall
      obtain ⟨⟨hown, hbuf⟩, hbefore⟩ := hall
      split at hbefore
      · next z x u hq' =>
        simp only [Bool.or_eq_true, decide_eq_true_eq, Bool.and_eq_true] at hbefore
        rcases hfirst q hq hown hbuf z x u hq' with h | h <;> omega
      · cases hbefore
  refine ⟨_, hexec, honly'.reply 0 tm, hseqs.trans (by rw [hself]), fun x hx => ?_, honly'.reply_reqs (by rw [hreqs, hrest]) 0 tm⟩
  exact (State.homeTryte_congr hl2' hmem hbad x).trans (hread x hx)

/-! Ordered passes (R234, R248). -/

theorem State.noteDeps_of_none {s : State} (h : ∀ y ∈ s.ctxs, y.2.lr.depa = 0) : s.noteDeps = s := by
  have hmap : s.noteDeps.ctxs = s.ctxs := (List.map_congr_left (g := id) fun p hp => if_neg fun hand => hand.2.1 (h p hp)).trans (List.map_id _)
  have hrest : s.noteDeps = { s with ctxs := s.noteDeps.ctxs } := rfl
  rw [hrest, hmap]

/-- Nothing else waits for a number (R234). -/
theorem State.drainSeq_of_none {s : State} {own slice q : Nat} {x : Seq} (hseq : s.seq own slice q = some x) (hdrawn : ∀ p ∈ x.drawn, p.2 ≠ passedMark)
    (hnone : ∀ k ∈ s.reqs, k.own = own → k.stage ≠ .buffered) (fuel : Nat) : s.drainSeq fuel own slice q = s := by
  cases fuel with
  | zero => rfl
  | succ fuel =>
    have hmark : x.drawn.contains (x.n, passedMark) = false := by
      rw [← Bool.not_eq_true, List.contains_iff_mem]
      exact fun h => hdrawn _ h rfl
    have hfind : ∀ p : Req → Bool, s.reqs.find? (fun r => decide (r.own = own) && decide (r.stage = .buffered) && p r) = none := fun p =>
      List.find?_eq_none.mpr fun k hk hall => by
        simp only [Bool.and_eq_true, decide_eq_true_eq] at hall
        exact hnone k hk hall.1.1 hall.1.2
    rw [State.drainSeq]
    simp only [hseq, hmark, Bool.false_eq_true, if_false, Bool.and_assoc]
    simp only [Bool.and_assoc] at hfind
    rw [hfind]

/-- A pass that may arrive (R234, R248). -/
structure State.TkpComes (s : State) (id : Nat) (r : Req) (q : Nat) (n : Int) (x : Seq) : Prop where
  req : s.req id = some r
  stage : r.stage = .home
  kind : r.kind = .tkp q n
  here : r.held = false
  sent : r.sent ≤ (s.dieSt r.own).clk
  first : s.behind r = false
  free : s.lineHeld r.own (lineOf r.pa) = false
  seq : s.seq r.own r.slice q = some x
  drawn : n < x.d

theorem exec_atomoArrival_passes {s : State} {id : Nat} {r : Req} {q : Nat} {n : Int} {x : Seq} (h : s.TkpComes id r q n x) (hnext : x.n = n)
    (hdrawn : ∀ p ∈ x.drawn, p.2 ≠ passedMark) (hdeps : ∀ y ∈ s.ctxs, y.2.lr.depa = 0)
    (halone : ∀ k ∈ s.reqs, k.own = r.own → k.id = id ∨ k.stage ≠ .buffered) : ∃ t, exec (.atomoArrival id) s = .next t ∧ OnlyHome s t r.own ∧
    (∀ j, Tab.find (t.dieSt r.own).seqs j = if j = r.slice * 27 + q then
      some { x with n := n + 1, drawn := x.drawn.filter (fun p => decide (p.1 ≠ n)) } else Tab.find (s.dieSt r.own).seqs j) ∧
    t.reqs = s.replied r 0 (s.dieSt r.own).clk := by
  obtain ⟨hreq, hstage, hkind, hhere, hsent, hfirst, hfree, hseq, hlast⟩ := h
  subst hnext
  have hid : r.id = id := State.id_of_req hreq
  have hmark : x.drawn.contains (x.n, passedMark) = false := by
    rw [← Bool.not_eq_true, List.contains_iff_mem]
    exact fun h => hdrawn _ h rfl
  obtain ⟨a, ha⟩ : ∃ a, s.reply r 0 (s.dieSt r.own).clk = a := ⟨_, rfl⟩
  have hareqs : a.reqs = s.replied r 0 (s.dieSt r.own).clk := by rw [← ha]; exact (OnlyHome.refl s r.own).reply_reqs rfl _ _
  have haonly : OnlyHome s a r.own := ha ▸ s.reply_only r _ _
  have hadie : a.dieSt r.own = s.dieSt r.own := by rw [← ha]; rfl
  have hdeps' : a.noteDeps = a := State.noteDeps_of_none (by rw [← ha]; exact hdeps)
  obtain ⟨honly, -, -, hseqs⟩ := a.setSeq_spec r.own r.slice q x.pass
  obtain ⟨t, ht⟩ : ∃ t, a.setSeq r.own r.slice q (some x.pass) = t := ⟨_, rfl⟩
  have htreqs : t.reqs = a.reqs := by rw [← ht]; rfl
  rw [ht] at honly hseqs
  have hdrain : t.drainSeq 300 r.own r.slice q = t := by
    refine State.drainSeq_of_none (x := x.pass) ((hseqs _).trans (if_pos rfl)) (fun p hp => hdrawn p (List.mem_filter.mp hp).1) (fun k hk hown => ?_) 300
    rw [htreqs, hareqs] at hk
    obtain ⟨k', hk', rfl⟩ := List.mem_map.mp hk
    split
    · simp
    · next hne =>
      rw [if_neg hne] at hown
      exact (halone k' hk' hown).resolve_left fun h => hne (h.trans hid.symm)
  have hexec : exec (.atomoArrival id) s = .next t := by
    change execAtomoArrival id s = _
    unfold execAtomoArrival
    have hno : ¬ (x.n < x.n ∨ (True ∧ x.d ≤ x.n) ∨ x.drawn.contains (x.n, passedMark) = true) := by
      simp only [hmark]
      simp [hlast]
    have hperform : s.performSeq r false = a := by simp only [State.performSeq, hkind, ← ha]; rfl
    simp only [hreq, hkind, seqOf, hstage, hhere, hfirst, hfree, hsent, hseq, decide_true, Bool.not_false, Bool.and_self]
    rw [if_neg hno, if_pos trivial, hperform, hdeps', ht, hdrain]
  refine ⟨t, hexec, ⟨honly.rest.trans (by rw [haonly.rest]), fun k hk => (honly.others k hk).trans (haonly.others k hk), honly.parts.trans (by rw [hadie])⟩,
    fun j => (hseqs j).trans (by rw [hadie]; rfl), htreqs.trans hareqs⟩

theorem exec_atomoArrival_waits {s : State} {id : Nat} {r : Req} {q : Nat} {n : Int} {x : Seq} (h : s.TkpComes id r q n x) (hlater : x.n < n)
    (hmark : (n, passedMark) ∉ x.drawn) (hroom : s.oabUsed r.own r.slice ≤ 25) :
    exec (.atomoArrival id) s = .next (s.setReq { r with stage := .buffered }) := by
  obtain ⟨hreq, hstage, hkind, hhere, hsent, hfirst, hfree, hseq, hlast⟩ := h
  have hno : ¬ (n < x.n ∨ (True ∧ x.d ≤ n) ∨ x.drawn.contains (n, passedMark) = true) := by
    rw [List.contains_iff_mem]
    rintro (h | ⟨-, h⟩ | h)
    · exact absurd hlater h.not_gt
    · exact absurd hlast h.not_gt
    · exact hmark h
  change execAtomoArrival id s = _
  unfold execAtomoArrival
  simp only [hreq, hkind, seqOf, hstage, hhere, hfirst, hfree, hsent, hseq, decide_true, Bool.not_false, Bool.and_self]
  rw [if_neg hno, if_neg hlater.ne', if_pos hroom]

theorem exec_atomoResend_again {s : State} {id : Nat} {r : Req} (hreq : s.req id = some r) (hstage : r.stage = .refused) :
    exec (.atomoResend id) s = .next (s.setReq { r with stage := .home }) := by
  change execAtomoResend id s = _
  unfold execAtomoResend
  rw [hreq]
  exact if_pos hstage

end Sys2Proof.Machine
end

