-- ==== Sys2Proof/Proofs/LineEvictions.lean ====
section
/-! Lines that leave L2 for memory (R54, R112). -/

namespace Sys2Proof.Machine

/-- A sector of L2 that holds nothing, or has been written whole. -/
def L2Sec.whole (x : L2Sec) : Prop := x.tr = [] ∨ (x.tr.length = 27 ∧ ∀ p ∈ x.tr, p.2.written = true)

/-- The image of a sector as its home reads it (R50, R54). -/
def State.secImage (s : State) (own : Nat) (k : Int) : List Nat :=
  atomImage ((List.range 27).map (fun (i : Nat) => s.homeTryte own (27 * k - 13 + (i : Int)) false)) 0 []

theorem topCode_lt (b : Nat) : topCode b < 256 := by
  unfold topCode
  split <;> decide

theorem getD_atomImage_lt (ts : List Int) (i : Nat) : (atomImage ts 0 []).getD i 0 < 256 := by
  by_cases hi : i < 49
  · rw [getD_atomImage ts 0 [] hi]
    exact (offF_le_topCode ..).trans_lt (topCode_lt i)
  · rw [atomImage, List.append_assoc, List.append_assoc, List.getD_append_right _ _ _ _ (by rw [length_pentads]; omega)]
    generalize i - (pentads ts).length = j
    by_cases hj : j < 15
    · revert j
      decide
    · rw [List.getD_eq_default _ _ (by simp; omega)]
      decide

theorem halfSecs_bounds (own : Nat) : 0 < halfSecs own ∧ halfSecs own ≤ 8000000000 := by
  unfold halfSecs
  split <;> decide

theorem physOk_sector {own : Nat} {k : Int} : physOk own (27 * k) = true ↔ -halfSecs own ≤ k ∧ k < halfSecs own := by
  have hshr : shr (27 * k) 3 = k := by
    have h := secOf_place k (i := 13) (by decide)
    rwa [secOf, show 27 * k - 13 + ((13 : Nat) : Int) = 27 * k by omega] at h
  rw [physOk, hshr, Bool.and_eq_true, decide_eq_true_eq, decide_eq_true_eq]

theorem State.homeTryte_place (s : State) (own : Nat) (k : Int) {i : Nat} (hi : i < 27) : s.homeTryte own (27 * k - 13 + (i : Int)) false =
    (Tab.find (s.sec own k false).tr i).elim ((s.readSec own k false).1.getD i 0) (fun t => if t.lost then 0 else t.val) := by
  rw [State.homeTryte, secOf_place k hi, secPos_place k hi]
  cases Tab.find (s.sec own k false).tr i <;> rfl

theorem State.evictSec_empty {s : State} {own : Nat} {k : Int} (hempty : (s.sec own k false).tr = []) : s.evictSec own k false = s.setSec own k false {} := by
  unfold State.evictSec
  simp [hempty, L2Sec.partly]

theorem State.evictSec_written {s : State} {own : Nat} {k : Int} (hlen : (s.sec own k false).tr.length = 27)
    (hall : ∀ p ∈ (s.sec own k false).tr, p.2.written = true) : s.evictSec own k false =
    (({ s with bad := s.bad.filter (fun b => b ≠ (0, cellKey own (atomNo own k))) }).setAtom own k (s.secImage own k)).setSec own k false {} := by
  have hwhole : (s.sec own k false).partly = false := by
    have : (s.sec own k false).tr.all (fun p => p.2.written) = true := List.all_eq_true.mpr hall
    simp [L2Sec.partly, hlen, this]
  have hsome : (s.sec own k false).tr.all (fun p => !p.2.written) = false := by
    obtain ⟨p, hp⟩ := List.exists_mem_of_length_pos (l := (s.sec own k false).tr) (by omega)
    rw [← Bool.not_eq_true, List.all_eq_true]
    intro h
    have hno := h p hp
    rw [hall p hp] at hno
    cases hno
  have himage : ∀ i ∈ List.range 27, (Tab.find (s.sec own k false).tr i).elim ((s.readSec own k false).1.getD i 0)
      (fun t => if t.written then (if t.lost then 0 else t.val) else (s.readSec own k false).1.getD i 0) =
      s.homeTryte own (27 * k - 13 + (i : Int)) false := fun i hi => by
    rw [State.homeTryte_place s own k (List.mem_range.mp hi)]
    cases hfind : Tab.find (s.sec own k false).tr i with
    | none => rfl
    | some t => exact if_pos (hall _ (Tab.mem_of_find hfind))
  unfold State.evictSec
  simp only [hwhole, hsome, Bool.not_false, Bool.false_and, Bool.and_false, Bool.false_eq_true, if_false, or_self]
  generalize hts : List.map _ (List.range 27) = ts
  have himages : s.secImage own k = atomImage ts 0 [] := by
    rw [State.secImage, ← hts, ← List.map_congr_left himage]
    refine congrArg (atomImage · 0 []) (List.map_congr_left fun i _ => ?_)
    cases Tab.find (s.sec own k false).tr i <;> rfl
  rw [himages]

/-- What a sector's departure from L2 changes (R54, R112). -/
structure State.Evicts (s t : State) (own : Nat) (k : Int) : Prop where
  rest : t = { s with mem := t.mem, die := t.die, bad := t.bad }
  gone : t.sec own k false = {}
  image : (s.sec own k false).tr ≠ [] → ∀ i, i < 64 → t.byte own (64 * atomNo own k + i) = (s.secImage own k).getD i 0
  secs : ∀ j, l2Key j false ≠ l2Key k false → t.sec own j false = s.sec own j false
  bytes : ∀ o b, b < 2 ^ 41 → (o = own → (s.sec own k false).tr = [] ∨ b < 64 * atomNo own k ∨ 64 * atomNo own k + 64 ≤ b) → t.byte o b = s.byte o b
  bad : ∀ j, atomNo own j ≠ atomNo own k → t.bad.contains (0, cellKey own (atomNo own j)) = s.bad.contains (0, cellKey own (atomNo own j))

theorem atomNo_fits {own : Nat} {k : Int} (hphys : physOk own (27 * k) = true) : 64 * atomNo own k + 64 ≤ 2 ^ 41 := by
  obtain ⟨hlow, hhigh⟩ := physOk_sector.mp hphys
  have hmax := (halfSecs_bounds own).2
  unfold atomNo
  omega

theorem atomNo_inj {own : Nat} {j k : Int} (hj : physOk own (27 * j) = true) (hk : physOk own (27 * k) = true) (h : atomNo own j = atomNo own k) : j = k := by
  have hjs := physOk_sector.mp hj
  have hks := physOk_sector.mp hk
  unfold atomNo at h
  omega

theorem State.evictSec_evicts {s : State} {own : Nat} {k : Int} (hphys : physOk own (27 * k) = true) (hwhole : (s.sec own k false).whole) :
    s.Evicts (s.evictSec own k false) own k := by
  rcases hwhole with hempty | ⟨hlen, hall⟩
  · rw [State.evictSec_empty hempty]
    exact ⟨rfl, State.sec_setSec_self .., fun h => absurd hempty h, fun j hj => State.sec_setSec_ne s own hj _, fun _ _ _ _ => rfl, fun _ _ => rfl⟩
  · have hfits : 64 * atomNo own k + (s.secImage own k).length ≤ 2 ^ 41 := by
      rw [State.secImage, length_atomImage]
      exact atomNo_fits hphys
    rw [State.evictSec_written hlen hall]
    obtain ⟨a, ha⟩ : ∃ a, ({ s with bad := s.bad.filter (fun b => b ≠ (0, cellKey own (atomNo own k))) } : State).setAtom own k (s.secImage own k) = a := ⟨_, rfl⟩
    have hrest : a = { s with mem := a.mem, bad := s.bad.filter (fun b => b ≠ (0, cellKey own (atomNo own k))) } := by
      rw [← ha, State.setAtom, State.setBytes_rest]
    have hbyte : ∀ o b, b < 2 ^ 41 → a.byte o b = if o = own ∧ 64 * atomNo own k ≤ b ∧ b < 64 * atomNo own k + 64 then
        (s.secImage own k).getD (b - 64 * atomNo own k) 0 % 256 else s.byte o b := fun o b hb => by
      rw [← ha, State.setAtom, State.byte_setBytes _ hfits _ hb, State.secImage, length_atomImage]
      rfl
    rw [ha]
    refine ⟨?_, State.sec_setSec_self .., fun _ i hi => ?_, fun j hj => ?_, fun o b hb hout => ?_, fun j hj => ?_⟩
    · obtain ⟨d, hd⟩ : ∃ d, a.setSec own k false {} = { a with die := d } := ⟨_, rfl⟩
      rw [hd, hrest]
    · refine (hbyte own _ (by have := atomNo_fits hphys; omega)).trans ?_
      rw [if_pos ⟨rfl, by omega, by omega⟩, Nat.add_sub_cancel_left]
      exact Nat.mod_eq_of_lt (getD_atomImage_lt _ i)
    · rw [State.sec_setSec_ne a own hj, State.sec, State.sec, State.dieSt, State.dieSt, hrest]
    · refine (hbyte o b hb).trans (if_neg ?_)
      rintro ⟨rfl, hle, hlt⟩
      rcases hout rfl with h | h
      · rw [h] at hlen
        cases hlen
      · omega
    · have hbad : (a.setSec own k false {}).bad = a.bad := rfl
      rw [hbad, hrest, Bool.eq_iff_iff, List.contains_iff_mem, List.contains_iff_mem, List.mem_filter, and_iff_left]
      refine decide_eq_true fun h => hj ?_
      have hkey := congrArg Prod.snd h
      unfold cellKey at hkey
      omega

theorem State.Evicts.secImage {s t : State} {own : Nat} {j k : Int} (h : s.Evicts t own k) (hkey : l2Key j false ≠ l2Key k false)
    (hj : physOk own (27 * j) = true) (hatom : atomNo own j ≠ atomNo own k) : t.secImage own j = s.secImage own j := by
  have hbytes : t.atom own j = s.atom own j := by
    refine List.map_congr_left fun i hi => h.bytes _ _ ?_ fun _ => ?_
    · have := atomNo_fits hj
      rw [List.mem_range] at hi
      omega
    · rw [List.mem_range] at hi
      omega
  have hread : t.readSec own j false = s.readSec own j false := by
    unfold State.readSec
    simp only [hbytes, h.bad j hatom, Bool.false_eq_true, if_false]
  refine congrArg (atomImage · 0 []) (List.map_congr_left fun i hi => ?_)
  rw [State.homeTryte_place _ _ _ (List.mem_range.mp hi), State.homeTryte_place _ _ _ (List.mem_range.mp hi), h.secs j hkey, hread]

/-- Sectors that leave L2 one after another, each at a place of its own. -/
theorem State.foldl_evictSec_spec (own : Nat) (ks : List Int) (hnodup : ks.Nodup) (hkeys : ∀ j ∈ ks, ∀ k ∈ ks, l2Key j false = l2Key k false → j = k)
    (hphys : ∀ k ∈ ks, physOk own (27 * k) = true) (s : State) (hwhole : ∀ k ∈ ks, (s.sec own k false).whole) (t : State)
    (ht : ks.foldl (fun a k => a.evictSec own k false) s = t) : t = { s with mem := t.mem, die := t.die, bad := t.bad } ∧
    (∀ k ∈ ks, t.sec own k false = {} ∧ ((s.sec own k false).tr ≠ [] → ∀ i, i < 64 → t.byte own (64 * atomNo own k + i) = (s.secImage own k).getD i 0)) ∧
    (∀ j, (∀ k ∈ ks, l2Key j false ≠ l2Key k false) → t.sec own j false = s.sec own j false) ∧
    ∀ o b, b < 2 ^ 41 → (o = own → ∀ k ∈ ks, (s.sec own k false).tr = [] ∨ b < 64 * atomNo own k ∨ 64 * atomNo own k + 64 ≤ b) →
      t.byte o b = s.byte o b := by
  induction ks generalizing s with
  | nil =>
    subst ht
    exact ⟨rfl, fun k hk => absurd hk List.not_mem_nil, fun _ _ => rfl, fun _ _ _ _ => rfl⟩
  | cons k ks ih =>
    obtain ⟨hk, hks⟩ := List.nodup_cons.mp hnodup
    have hphysk := hphys k List.mem_cons_self
    have hev := State.evictSec_evicts hphysk (hwhole k List.mem_cons_self)
    have hne : ∀ j ∈ ks, l2Key j false ≠ l2Key k false := fun j hj h =>
      hk (hkeys j (List.mem_cons_of_mem _ hj) k List.mem_cons_self h ▸ hj)
    have hatom : ∀ j ∈ ks, atomNo own j ≠ atomNo own k := fun j hj h =>
      hk (atomNo_inj (hphys j (List.mem_cons_of_mem _ hj)) hphysk h ▸ hj)
    obtain ⟨hrest, hin, hsecs, hbytes⟩ := ih hks (fun j hj l hl => hkeys j (List.mem_cons_of_mem _ hj) l (List.mem_cons_of_mem _ hl))
      (fun j hj => hphys j (List.mem_cons_of_mem _ hj)) (s.evictSec own k false)
      (fun j hj => by rw [hev.secs j (hne j hj)]; exact hwhole j (List.mem_cons_of_mem _ hj)) ht
    refine ⟨hrest.trans (by rw [hev.rest]), List.forall_mem_cons.mpr ⟨⟨?_, fun htr i hi => ?_⟩, fun j hj => ⟨(hin j hj).1, fun htr i hi => ?_⟩⟩,
      fun j hj => ?_, fun o b hb hout => ?_⟩
    · exact (hsecs k fun j hj => (hne j hj).symm).trans hev.gone
    · refine (hbytes own _ ?_ fun _ j hj => .inr ?_).trans (hev.image htr i hi)
      · have := atomNo_fits hphysk
        omega
      · have := hatom j hj
        omega
    · refine ((hin j hj).2 (by rw [hev.secs j (hne j hj)]; exact htr) i hi).trans ?_
      rw [hev.secImage (hne j hj) (hphys j (List.mem_cons_of_mem _ hj)) (hatom j hj)]
    · exact (hsecs j fun l hl => hj l (List.mem_cons_of_mem _ hl)).trans (hev.secs j (hj k List.mem_cons_self))
    · refine (hbytes o b hb fun ho j hj => ?_).trans (hev.bytes o b hb fun ho => hout ho k List.mem_cons_self)
      rw [hev.secs j (hne j hj)]
      exact hout ho j (List.mem_cons_of_mem _ hj)

/-- The line that an eviction's key names (R112). -/
theorem l2_line_of_key {own : Nat} {l : Int} (hl : |l| < half 43) : (own * partBase + 2 * ikey (3 * l)) / partBase = own ∧
    shr (unKey ((own * partBase + 2 * ikey (3 * l)) % partBase / 2)) 1 = l ∧ (own * partBase + 2 * ikey (3 * l)) % 2 = 0 := by
  have hbase : 2 * half 54 * 2 < partBase := by decide
  have hhalf : 3 * half 43 < half 54 := by decide
  have heven : partBase % 2 = 0 := by decide
  rw [abs_lt] at hl
  have hkey : (ikey (3 * l) : Int) = 3 * l + half 54 := by
    unfold ikey
    omega
  have hlt : 2 * ikey (3 * l) < partBase := by omega
  have hpos : 0 < partBase := by omega
  refine ⟨?_, ?_, ?_⟩
  · rw [mul_comm, Nat.mul_add_div hpos, Nat.div_eq_of_lt hlt, add_zero]
  · rw [mul_comm own, Nat.mul_add_mod, Nat.mod_eq_of_lt hlt, Nat.mul_div_cancel_left _ (by decide), unKey_ikey (by omega)]
    have hpow : pow3 1 = 3 := by decide
    have hone : half 1 = 1 := by decide
    rw [shr, hpow, hone]
    omega
  · rw [Nat.add_mod, Nat.mul_mod, heven]
    omega

theorem exec_l2Eviction_spec {s : State} {own : Nat} {l : Int} (hl : |l| < half 43)
    (hks : ∀ k ∈ [3 * l - 1, 3 * l, 3 * l + 1], physOk own (27 * k) = true ∧ (s.sec own k false).whole) :
    ∃ t, exec (.l2Eviction (own * partBase + 2 * ikey (3 * l))) s = .next t ∧ t = { s with mem := t.mem, die := t.die, bad := t.bad } ∧
    (∀ k ∈ [3 * l - 1, 3 * l, 3 * l + 1], t.sec own k false = {} ∧
      ((s.sec own k false).tr ≠ [] → ∀ i, i < 64 → t.byte own (64 * atomNo own k + i) = (s.secImage own k).getD i 0)) ∧
    ∀ o b, b < 2 ^ 41 → (o = own → ∀ k ∈ [3 * l - 1, 3 * l, 3 * l + 1], (s.sec own k false).tr = [] ∨ b < 64 * atomNo own k ∨
      64 * atomNo own k + 64 ≤ b) → t.byte o b = s.byte o b := by
  obtain ⟨hown, hline, heven⟩ := l2_line_of_key (own := own) hl
  have hbound : ∀ k ∈ [3 * l - 1, 3 * l, 3 * l + 1], |k| ≤ half 44 := by
    have hhalf : half 44 = 3 * half 43 + 1 := by decide
    rw [abs_lt] at hl
    simp only [List.mem_cons, List.not_mem_nil, or_false, abs_le]
    omega
  obtain ⟨hrest, hin, -, hbytes⟩ := State.foldl_evictSec_spec own [3 * l - 1, 3 * l, 3 * l + 1]
    (by simp only [List.nodup_cons, List.mem_cons, List.not_mem_nil, or_false, not_or, List.nodup_nil, not_false_eq_true, and_true]; omega)
    (fun j hj k _ h => (l2Key_inj (hbound j hj) h).1) (fun k hk => (hks k hk).1) s (fun k hk => (hks k hk).2) _ rfl
  refine ⟨_, ?_, hrest, hin, hbytes⟩
  change execL2Eviction _ s = _
  rw [execL2Eviction, hown, hline, heven]
  rfl

end Sys2Proof.Machine
end

