-- ==== Sys2Proof/Proofs/StorageErrors.lean ====
section
/-! Storage errors, and what homes do (R52, R112, R113, R119, R134, R229-R234, R247, R248, R437, R438). -/

namespace Sys2Proof.Machine

/-! Storage errors (R437, R438). -/

theorem exec_softError_corrected (s : State) (store key : Nat) : exec (.softError store key false) s = .next s := by
  change execSoftError store key false s = _
  rw [execSoftError]
  exact if_pos (Bool.not_false)

theorem Thread.lost_eq_owes (x : Thread) (r : Nat) : x.lost r = (x.putReg r 0).owes 17 := by
  unfold Thread.lost Thread.putReg
  split <;> rfl

theorem Thread.meetsAs_lost (x : Thread) (r : Nat) : x.MeetsAs (x.lost r) := by
  unfold Thread.lost Thread.putReg
  split <;> exact Thread.meetsAs_of_eq rfl rfl

theorem exec_softError_register {s : State} {u r : Nat} (hstill : Still s (warpOf u)) (hlive : (s.thread u).st ≠ .exited) (hr : r < 216) :
    ∃ t, exec (.softError 5 (u * 256 + r) true) s = .next t ∧ t = { s with thr := t.thr, ctxs := t.ctxs } ∧
    (∀ k, t.thread k = if k = u then (s.thread k).lost r else s.thread k) ∧
    ∀ c, t.ctx c = if c = (s.warp (warpOf u)).ctx then (s.ctx c).counted (dieIdx (coreOf (warpOf u))) 39 1 else s.ctx c := by
  have hthread : (u * 256 + r) / 256 = u := by omega
  have hnumber : (u * 256 + r) % 256 = r := by omega
  obtain ⟨hset, hregs⟩ := s.setReg_spec u r 0
  obtain ⟨a, ha⟩ : ∃ a, s.setReg u r 0 = a := ⟨_, rfl⟩
  rw [ha] at hset hregs
  obtain ⟨b, hb⟩ : ∃ b, a.count (a.warp (warpOf u)).ctx (dieIdx (coreOf (warpOf u))) 39 1 = b := ⟨_, rfl⟩
  have hbrest : b = { s with thr := a.thr, ctxs := b.ctxs } := by
    have hcount : b = { a with ctxs := b.ctxs } := by rw [← hb]; rfl
    exact hcount.trans (by rw [hset])
  have hself : b.thread u = (s.thread u).putReg r 0 := by
    refine (State.thread_congr ?_ u).trans ((hregs u).trans (if_pos rfl))
    rw [hbrest]
  obtain ⟨t, ht⟩ : ∃ t, b.defer u 17 0 = t := ⟨_, rfl⟩
  have hdefer : t = b.setThread u ((s.thread u).lost r) := by
    have hst : ((s.thread u).putReg r 0).st = (s.thread u).st := by unfold Thread.putReg; split <;> rfl
    rw [← ht, State.defer, hself, if_neg (by rw [hst]; exact hlive), Thread.lost_eq_owes]
    rfl
  have hthreads : ∀ k, t.thread k = if k = u then (s.thread k).lost r else s.thread k := fun k => by
    rw [hdefer, State.thread_setThread]
    by_cases hk : k = u
    · rw [if_pos hk, if_pos hk, hk]
    · rw [if_neg hk, if_neg hk]
      exact (State.thread_congr (by rw [hbrest]) k).trans ((hregs k).trans (if_neg hk))
  have hmeets : ∀ k, (s.thread k).MeetsAs (t.thread k) := fun k => by
    rw [hthreads k]
    split
    · exact Thread.meetsAs_lost ..
    · exact Thread.meetsAs_of_eq rfl rfl
  have hwarps : ∀ w, t.warp w = s.warp w := State.warp_congr (by rw [hdefer, hbrest]; rfl)
  have hsettle : t.settle (warpOf u) = t :=
    hstill.settle_eq_of_meetsAs (by rw [hwarps]; exact hstill.going) fun k _ => hmeets k
  have hexec : exec (.softError 5 (u * 256 + r) true) s = .next t := by
    change execSoftError 5 (u * 256 + r) true s = _
    rw [execSoftError, if_neg (by decide), if_neg (by decide), if_neg (by decide), if_neg (by decide), if_pos rfl]
    simp only [hthread, hnumber]
    rw [if_neg hlive, ha, hb, ht, hsettle]
  refine ⟨t, hexec, ?_, hthreads, fun c => ?_⟩
  · rw [hdefer, hbrest]; rfl
  · have hctx : t.ctx c = b.ctx c := State.ctx_congr (by rw [hdefer]; rfl) c
    rw [hctx, ← hb, State.ctx_count, State.warp_congr (show a.wrp = s.wrp by rw [hset]), State.ctx_congr (show a.ctxs = s.ctxs by rw [hset])]

theorem exec_softError_icLine (s : State) {c j : Nat} (hj : j < partBase) : ∃ t, exec (.softError 7 (c * partBase + j) true) s = .next t ∧
    t = { s with cor := t.cor } ∧ (∀ e, e ≠ c → t.core e = s.core e) ∧ t.core c = { s.core c with ic := (t.core c).ic } ∧
    ∀ i, Tab.find (t.core c).ic i = if i = j then none else Tab.find (s.core c).ic i := by
  have hcore : (c * partBase + j) / partBase = c := by
    rw [mul_comm, Nat.mul_add_div (by omega), Nat.div_eq_of_lt hj, add_zero]
  have hline : (c * partBase + j) % partBase = j := by rw [mul_comm, Nat.mul_add_mod, Nat.mod_eq_of_lt hj]
  have hexec : exec (.softError 7 (c * partBase + j) true) s = .next (s.setCore c { s.core c with ic := Tab.del j (s.core c).ic }) := by
    change execSoftError 7 _ true s = _
    rw [execSoftError, if_neg (by decide), if_neg (by decide), if_neg (by decide), if_pos rfl]
    simp only [hcore, hline]
  refine ⟨_, hexec, rfl, fun e he => (State.core_setCore ..).trans (if_neg he), by rw [State.core_setCore_self], fun i => ?_⟩
  rw [State.core_setCore_self]
  exact Tab.find_del ..

end Sys2Proof.Machine

namespace Sys2Proof
open Machine

/-- Settles O39: each event of a home unfolds to the reply, the write of its trytes or the change of its tables; an evicted line's
sectors leave one after another, each for an atom of its own. -/
theorem homesPerform : Obligations.HomesPerform := by
  unfold Obligations.HomesPerform
  refine ⟨⟨?_, ?_, ?_, ?_, ?_, ?_, ?_, ?_, ?_, ?_, ?_, ?_⟩, exec_softError_corrected, fun s u r => exec_softError_register, fun s c j => exec_softError_icLine s⟩
  case refine_1 => exact fun s id r op sz v d hreq _ => exec_homeRequest_atom hreq
  case refine_2 =>
    exact fun s id r sz e v d hreq _ hspace hready hkind hdet hhas hline hl2 _ => exec_homeRequest_cas hreq hspace hready hkind hdet hhas hline hl2
  case refine_3 => exact fun s id r b tt sa d hreq _ => exec_homeRequest_ldb hreq
  case refine_4 => exact fun s id r n v sa hreq _ => exec_homeRequest_stb hreq
  case refine_5 => exact fun s id r q d x hreq _ => exec_homeRequest_tkt hreq
  case refine_6 => exact fun s id r a => exec_sectorFill_spec
  case refine_7 => exact fun s id r sz v tm => exec_stvaArrival_waits
  case refine_8 => exact fun s id r sz v tm => exec_stvaPerform_due
  case refine_9 =>
    exact fun s id r q n x hreq hstage hkind hhere hsent hfirst hfree hseq hnext hlast =>
      exec_atomoArrival_passes ⟨hreq, hstage, hkind, hhere, hsent, hfirst, hfree, hseq, hlast⟩ hnext
  case refine_10 =>
    exact fun s id r q n x hreq hstage hkind hhere hsent hfirst hfree hseq hlater hlast =>
      exec_atomoArrival_waits ⟨hreq, hstage, hkind, hhere, hsent, hfirst, hfree, hseq, hlast⟩ hlater
  case refine_11 => exact fun s id r => exec_atomoResend_again
  case refine_12 => exact fun s own l => exec_l2Eviction_spec

end Sys2Proof
end

