-- ==== Sys2Proof/Proofs/FormTables.lean ====
section
/-! The form of a state (R113, R121, R158): what its parts need of a change, so that each function of the model keeps it by the functions it is made of. -/

namespace Sys2Proof.Machine

/-! Tables with rising keys. -/

theorem Tab.sorted_map {α β : Type} {f : Nat × α → Nat × β} (hf : ∀ p, (f p).1 = p.1) {t : Tab α} (h : Tab.sorted t = true) : Tab.sorted (t.map f) = true := by
  induction t with
  | nil => rfl
  | cons p t ih =>
    obtain ⟨hlow, ht⟩ := (Tab.sorted_cons p.1 p.2 t).mp h
    refine (Tab.sorted_cons (f p).1 (f p).2 _).mpr ⟨fun q hq => ?_, ih ht⟩
    obtain ⟨x, hx, rfl⟩ := List.mem_map.mp hq
    rw [hf, hf]
    exact hlow x hx

theorem Tab.fst_ite {α : Type} {c : Prop} [Decidable c] {p q : Nat × α} {k : Nat} (hp : p.1 = k) (hq : q.1 = k) : (if c then p else q).1 = k := by
  split
  · exact hp
  · exact hq

theorem Tab.sorted_foldl_put {α : Type} (f : Nat → Nat) (l t : Tab α) (h : Tab.sorted t = true) :
    Tab.sorted (l.foldl (fun t q => Tab.put (f q.1) q.2 t) t) = true := by
  induction l generalizing t with
  | nil => exact h
  | cons q l ih => exact ih _ (Tab.sorted_put _ _ h)

/-! States that share parts. -/

/-- The memories and the tables of a state. -/
def State.tables (s : State) : List Host.Cell × List Host.Cell × Tab Thread × Tab Warp × Tab CoreSt × Tab DieSt × Tab Ctx × Tab Part :=
  (s.mem, s.host, s.thr, s.wrp, s.cor, s.die, s.ctxs, s.parts)
/-- Everything that the form of a state speaks of. -/
def State.form (s : State) : (List Host.Cell × List Host.Cell × Tab Thread × Tab Warp × Tab CoreSt × Tab DieSt × Tab Ctx × Tab Part) × List Req × Nat :=
  (s.tables, s.reqs, s.nextId)

variable {s t : State}

theorem Formed.of_tables (h : Formed s) (htab : t.tables = s.tables) (hreqs : t.numbered) : Formed t := by
  simp only [State.tables, Prod.mk.injEq] at htab
  obtain ⟨hmem, hhost, hthr, hwrp, hcor, hdie, hctxs, hparts⟩ := htab
  exact ⟨hmem ▸ h.mem, hhost ▸ h.host, hthr ▸ h.thr, hwrp ▸ h.wrp, hcor ▸ h.cor, hdie ▸ h.die, hctxs ▸ h.ctxs, hparts ▸ h.parts, hreqs⟩

theorem Formed.later (h : Formed s) (htab : t.tables = s.tables) (hreqs : t.reqs = s.reqs) (hnext : s.nextId ≤ t.nextId) : Formed t :=
  h.of_tables htab ⟨hreqs ▸ h.reqs.1, fun r hr => (h.reqs.2 r (hreqs ▸ hr)).trans_le hnext⟩

theorem Formed.other (h : Formed s) (hform : t.form = s.form) : Formed t := by
  simp only [State.form, Prod.mk.injEq] at hform
  obtain ⟨htab, hreqs, hnext⟩ := hform
  exact h.later htab hreqs hnext.ge

/-! Requests that leave, and requests that change but their numbers. -/

theorem numbered_of_ids (h : s.numbered) (hids : (t.reqs.map (·.id)).Sublist (s.reqs.map (·.id))) (hnext : s.nextId ≤ t.nextId) : t.numbered := by
  refine ⟨h.1.sublist hids, fun r hr => ?_⟩
  obtain ⟨q, hq, hid⟩ := List.mem_map.mp (hids.subset (List.mem_map_of_mem hr))
  rw [← hid]
  exact (h.2 q hq).trans_le hnext

theorem id_ite {c : Prop} [Decidable c] {q r : Req} {i : Nat} (hq : q.id = i) (hr : r.id = i) : (if c then q else r).id = i := by
  split
  · exact hq
  · exact hr

theorem ids_filter {p : Req → Bool} {l : List Req} {m : List Nat} (h : (l.map (·.id)).Sublist m) : ((l.filter p).map (·.id)).Sublist m :=
  (List.filter_sublist.map _).trans h

theorem ids_map {f : Req → Req} {l : List Req} {m : List Nat} (h : (l.map (·.id)).Sublist m) (hf : ∀ r, (f r).id = r.id) :
    ((l.map f).map (·.id)).Sublist m := by
  rw [List.map_map]
  exact (List.map_congr_left fun r _ => hf r) ▸ h

theorem ids_filterMap {f : Req → Option Req} {l : List Req} {m : List Nat} (h : (l.map (·.id)).Sublist m) (hf : ∀ r q, f r = some q → q.id = r.id) :
    ((l.filterMap f).map (·.id)).Sublist m := by
  refine List.Sublist.trans ?_ h
  induction l with
  | nil => exact List.Sublist.slnil
  | cons r l ih =>
    rw [List.filterMap_cons]
    split
    · exact (ih (List.sublist_of_cons_sublist h)).cons _
    · next q hq =>
      rw [List.map_cons, List.map_cons, hf r q hq]
      exact (ih (List.sublist_of_cons_sublist h)).cons_cons _

theorem Formed.filterReqs (h : Formed s) (p : Req → Bool) : Formed { s with reqs := s.reqs.filter p } :=
  { h with reqs := numbered_of_ids h.reqs (ids_filter (List.Sublist.refl _)) le_rfl }

theorem Formed.mapReqs (h : Formed s) {f : Req → Req} (hf : ∀ r, (f r).id = r.id) : Formed { s with reqs := s.reqs.map f } :=
  { h with reqs := numbered_of_ids h.reqs (ids_map (List.Sublist.refl _) hf) le_rfl }

theorem Formed.filterMapReqs (h : Formed s) {f : Req → Option Req} (hf : ∀ r q, f r = some q → q.id = r.id) : Formed { s with reqs := s.reqs.filterMap f } :=
  { h with reqs := numbered_of_ids h.reqs (ids_filterMap (List.Sublist.refl _) hf) le_rfl }

theorem Formed.bump (h : Formed s) : Formed { s with nextId := s.nextId + 1 } := h.later rfl rfl (Nat.le_succ _)

/-- A request takes the next number (R121). -/
theorem Formed.addNext (h : Formed s) {r : Req} (hid : r.id = s.nextId) : Formed { s with nextId := s.nextId + 1, reqs := s.reqs ++ [r] } := by
  refine h.of_tables rfl ⟨?_, fun q hq => ?_⟩
  · rw [List.map_append, List.nodup_append]
    refine ⟨h.reqs.1, List.nodup_singleton _, fun i hi j hj => ?_⟩
    obtain ⟨q, hq, rfl⟩ := List.mem_map.mp hi
    obtain rfl : j = r.id := List.mem_singleton.mp hj
    exact hid ▸ (h.reqs.2 q hq).ne
  · rcases List.mem_append.mp hq with hq | hq
    · exact (h.reqs.2 q hq).trans_le (Nat.le_succ _)
    · rw [List.mem_singleton.mp hq, hid]
      exact Nat.lt_succ_self _

theorem Formed.withThr (h : Formed s) {x : Tab Thread} (hx : Tab.sorted x = true) : Formed { s with thr := x } := { h with thr := hx }
theorem Formed.withWrp (h : Formed s) {x : Tab Warp} (hx : Tab.sorted x = true) : Formed { s with wrp := x } := { h with wrp := hx }
theorem Formed.withCor (h : Formed s) {x : Tab CoreSt} (hx : Tab.sorted x = true) : Formed { s with cor := x } := { h with cor := hx }
theorem Formed.withDie (h : Formed s) {x : Tab DieSt} (hx : Tab.sorted x = true) : Formed { s with die := x } := { h with die := hx }
theorem Formed.withCtxs (h : Formed s) {x : Tab Ctx} (hx : Tab.sorted x = true) : Formed { s with ctxs := x } := { h with ctxs := hx }
theorem Formed.withParts (h : Formed s) {x : Tab Part} (hx : Tab.sorted x = true) : Formed { s with parts := x } := { h with parts := hx }
theorem Formed.withMem (h : Formed s) {x : List Host.Cell} (hx : Memory.wf x = true) : Formed { s with mem := x } := { h with mem := hx }

theorem Formed.mapDie (h : Formed s) {f : Nat × DieSt → Nat × DieSt} (hf : ∀ p, (f p).1 = p.1) : Formed { s with die := s.die.map f } :=
  h.withDie (Tab.sorted_map hf h.die)
theorem Formed.withMg (h : Formed s) {x : Mgmt} : Formed { s with mg := x } := h.other rfl
theorem Formed.withInputs (h : Formed s) {x : List Move} : Formed { s with inputs := x } := h.other rfl
theorem Formed.withFresh (h : Formed s) {n : Nat} : Formed { s with fresh := n } := h.other rfl
theorem Formed.withBad (h : Formed s) {x : List (Nat × Nat)} : Formed { s with bad := x } := h.other rfl

/-! Runs over a list, and states among other results. -/

theorem Formed.foldl {α : Type} {f : State → α → State} {l : List α} (h : Formed s) (hf : ∀ a x, Formed a → Formed (f a x)) : Formed (l.foldl f s) := by
  induction l generalizing s with
  | nil => exact h
  | cons x l ih => exact ih (hf s x h)

theorem Formed.foldl_fst {α β : Type} {f : State × β → α → State × β} {b : β} {l : List α} (h : Formed s)
    (hf : ∀ a x, Formed a.1 → Formed (f a x).1) : Formed (l.foldl f (s, b)).1 := by
  have hall : ∀ p : State × β, Formed p.1 → Formed (l.foldl f p).1 := by
    induction l with
    | nil => exact fun p hp => hp
    | cons x l ih => exact fun p hp => ih _ (hf p x hp)
  exact hall (s, b) h

theorem Formed.of_fst {α : Type} {p : State × α} {b : α} (h : Formed p.1) (e : p = (s, b)) : Formed s := by
  rw [e] at h
  exact h

theorem formed_of_some (h : Formed s) : ∀ t, some s = some t → Formed t := fun _ e => Option.some.inj e ▸ h

theorem formed_of_none : ∀ t, none = some t → Formed t := fun _ e => by cases e

theorem formed_fst_of_none {α : Type} : ∀ q : State × α, none = some q → Formed q.1 := fun _ e => by cases e

theorem formed_fst_of_some {α : Type} {p : State × α} (h : Formed p.1) : ∀ q, some p = some q → Formed q.1 := fun _ e => Option.some.inj e ▸ h

theorem formed_fst_of_ite {α : Type} {c : Prop} [Decidable c] {o p : Option (State × α)} (ho : ∀ q, o = some q → Formed q.1)
    (hp : ∀ q, p = some q → Formed q.1) : ∀ q, (if c then o else p) = some q → Formed q.1 := by
  split
  · exact ho
  · exact hp

theorem formed_of_ite {c : Prop} [Decidable c] {o p : Option State} (ho : ∀ t, o = some t → Formed t) (hp : ∀ t, p = some t → Formed t) :
    ∀ t, (if c then o else p) = some t → Formed t := by
  split
  · exact ho
  · exact hp

theorem Formed.ite {c : Prop} [Decidable c] (hs : Formed s) (ht : Formed t) : Formed (if c then s else t) := by
  split
  · exact hs
  · exact ht

theorem Formed.ite_fst {α : Type} {p q : State × α} {c : Prop} [Decidable c] (hp : Formed p.1) (hq : Formed q.1) : Formed (if c then p else q).1 := by
  split
  · exact hp
  · exact hq

/-- Where a step goes on, its state is in form. -/
def FormedOut : R → Prop
  | .next t => Formed t
  | .fault _ => True
  | .refused _ => True

theorem FormedOut.ite {r q : R} {c : Prop} [Decidable c] (hr : FormedOut r) (hq : FormedOut q) : FormedOut (if c then r else q) := by
  split
  · exact hr
  · exact hq

theorem formedOut_of_some {r : R} (h : FormedOut r) : ∀ q, some r = some q → FormedOut q := fun _ e => Option.some.inj e ▸ h

theorem formedOut_of_none : ∀ r, none = some r → FormedOut r := fun _ e => by cases e

theorem formedOut_of_ite {c : Prop} [Decidable c] {o p : Option R} (ho : ∀ r, o = some r → FormedOut r) (hp : ∀ r, p = some r → FormedOut r) :
    ∀ r, (if c then o else p) = some r → FormedOut r := by
  split
  · exact ho
  · exact hp

theorem formedOut_of_orElse {o p : Option R} (ho : ∀ r, o = some r → FormedOut r) (hp : ∀ r, p = some r → FormedOut r) :
    ∀ r, o.orElse (fun _ => p) = some r → FormedOut r := by
  cases o with
  | none => exact hp
  | some r => exact ho

theorem FormedOut.of_next {r : R} (h : FormedOut r) (e : r = .next t) : Formed t := by
  rw [e] at h
  exact h

/-- Where a copy moves on, its state is in form. -/
inductive FormedMove : Move1 → Prop
  | done {t : State} (h : Formed t) : FormedMove (.done t)
  | wait : FormedMove .wait
  | park {ea : Int} {m wr : Bool} : FormedMove (.park ea m wr)
  | ats {ea : Int} {wr : Bool} : FormedMove (.ats ea wr)
  | stop {st : Int} : FormedMove (.stop st)

theorem FormedMove.ite {m n : Move1} {c : Prop} [Decidable c] (hm : FormedMove m) (hn : FormedMove n) : FormedMove (if c then m else n) := by
  split
  · exact hm
  · exact hn

theorem FormedMove.of_done {m : Move1} (h : FormedMove m) (e : m = .done t) : Formed t := by
  rw [e] at h
  obtain ⟨h⟩ := h
  exact h

end Sys2Proof.Machine
end

