-- ==== Sys2Proof/Proofs/FormOps.lean ====
section
/-! The form of a state under the named operations, the issue of a unit and the results of its lanes (R58-R82, R151-R182, R398-R409). -/

namespace Sys2Proof.Machine

variable {s : State}

theorem Formed.setThread {t : Nat} {x : Thread} (h : Formed s) : Formed (s.setThread t x) := h.withThr (Tab.sorted_put _ _ h.thr)
theorem Formed.setWarp {w : Nat} {x : Warp} (h : Formed s) : Formed (s.setWarp w x) := h.withWrp (Tab.sorted_put _ _ h.wrp)
theorem Formed.setCore {c : Nat} {x : CoreSt} (h : Formed s) : Formed (s.setCore c x) := h.withCor (Tab.sorted_put _ _ h.cor)
theorem Formed.setDie {k : Nat} {x : DieSt} (h : Formed s) : Formed (s.setDie k x) := h.withDie (Tab.sorted_put _ _ h.die)
theorem Formed.setCtx {c : Nat} {x : Ctx} (h : Formed s) : Formed (s.setCtx c x) := h.withCtxs (Tab.sorted_put _ _ h.ctxs)
theorem Formed.setPart {p : Nat} {x : Part} (h : Formed s) : Formed (s.setPart p x) := h.withParts (Tab.sorted_put _ _ h.parts)

theorem Formed.raiseRT {w : Nat} {t : Int} (h : Formed s) : Formed (s.raiseRT w t) := by
  unfold State.raiseRT
  split
  · exact h
  · exact h.setWarp

theorem Formed.ctxRT {ctx : Nat} {t : Int} (h : Formed s) : Formed (s.ctxRT ctx t) := h.setCtx

theorem Formed.setReg {t r : Nat} {v : Int} (h : Formed s) : Formed (s.setReg t r v) := by
  unfold State.setReg
  exact Formed.ite h.setThread h

theorem Formed.setPair {t r : Nat} {v : Int} (h : Formed s) : Formed (s.setPair t r v) := by
  unfold State.setPair
  exact Formed.ite h.setReg.setReg h

theorem Formed.setPred {t f : Nat} {v : Int} (h : Formed s) : Formed (s.setPred t f v) := h.setThread
theorem Formed.count {ctx die n : Nat} {k : Int} (h : Formed s) : Formed (s.count ctx die n k) := h.setCtx
theorem Formed.openGrp {w : Nat} {c : Cls} {n : Nat} (h : Formed s) : Formed (s.openGrp w c n).1 := h.setWarp.later rfl rfl (Nat.le_succ _)

theorem Formed.doneLane {w gid : Nat} (h : Formed s) : Formed (s.doneLane w gid) := by
  unfold State.doneLane
  split
  · exact h
  · exact h.setWarp

theorem Formed.setPort {c q : Nat} {v : List Int} (h : Formed s) : Formed (s.setPort c q v) := h.setCore

theorem Formed.portPush {c ctx bid q : Nat} {v : List Int} (h : Formed s) : Formed (s.portPush c ctx bid q v) := by
  unfold State.portPush
  exact Formed.ite h.setCtx h.setPort

theorem Formed.pushToken {c q : Nat} {v w : Int} (h : Formed s) : Formed (s.pushToken c q v w) := h.setCore.setPort

theorem Formed.portPop {w q n : Nat} (h : Formed s) : Formed (s.portPop w q n) := by
  unfold State.portPop
  exact Formed.ite (h.setPort.setCore.foldl (fun _ _ h' => h'.raiseRT)) h.setPort

theorem Formed.flushRecs {c : Nat} (h : Formed s) : Formed (s.flushRecs c) :=
  h.foldl_fst (fun _ _ h' => Formed.ite_fst (Formed.ite_fst (h'.setPort.other rfl) h') h')

theorem Formed.pushRec {r : Rec} (h : Formed s) : Formed (s.pushRec r) := by
  unfold State.pushRec
  exact Formed.ite h (Formed.flushRecs (h.other rfl))

theorem Formed.notice {kind : Int} {ctx die : Nat} {body : List Int} (h : Formed s) : Formed (s.notice kind ctx die body) := h.pushRec

theorem Formed.meet {w : Nat} (h : Formed s) : Formed (s.meet w) := by
  unfold State.meet
  exact Formed.ite h (Formed.foldl (h.other rfl) (fun _ _ h' => h'.setThread))

theorem Formed.stopWarp {w : Nat} (h : Formed s) : Formed (s.stopWarp w) := h.foldl (fun _ _ h' => Formed.ite h' h'.setThread)

theorem Formed.dropKept {t : Nat} (h : Formed s) : Formed (s.dropKept t) := by
  unfold State.dropKept
  dsimp only
  split
  · exact h.doneLane.setThread
  · exact h

theorem Formed.endThread {t : Nat} (h : Formed s) : Formed (s.endThread t) :=
  { h.dropKept (t := t) with
    wrp := Tab.sorted_put _ _ h.dropKept.wrp
    thr := Tab.sorted_del _ h.dropKept.thr }

theorem Formed.retire {t : Nat} {pc : Int} (h : Formed s) : Formed (s.retire t pc) := by
  unfold State.retire
  exact Formed.ite (Formed.ite h.endThread h.setThread) h.setThread

theorem Formed.endWait {t : Nat} (h : Formed s) : Formed (s.endWait t) := h.retire
theorem Formed.waitLane {t : Nat} {k : Wait} (h : Formed s) : Formed (s.waitLane t k) := h.setThread

theorem Formed.liftPreps {w : Nat} (h : Formed s) : Formed (s.liftPreps w) :=
  { h with
    die := Tab.sorted_map (by intro p; rfl) h.die
    reqs := numbered_of_ids h.reqs (ids_filter (List.Sublist.refl _)) le_rfl }

theorem Formed.rollLane {w lane : Nat} {code info : Int} (h : Formed s) : Formed (s.rollLane w lane code info) := by
  unfold State.rollLane
  dsimp only
  generalize ha : List.foldl _ (s.dropKept (threadOf w lane)) _ = a
  have h' : Formed a := ha ▸ h.dropKept.foldl fun _ _ h' => h'.doneLane
  split
  · exact h'
  · exact { h' with
      thr := Tab.sorted_put _ _ h'.thr
      cor := Tab.sorted_put _ _ h'.cor
      reqs := numbered_of_ids h'.reqs (ids_filter (ids_map (ids_filter (List.Sublist.refl _)) fun _ => id_ite rfl rfl)) le_rfl }

theorem Formed.rollback {w : Nat} {lanes : List Nat} {code info : Int} (h : Formed s) : Formed (s.rollback w lanes code info) := by
  unfold State.rollback
  refine Formed.ite ((h.foldl (fun _ _ h' => h'.rollLane)).setWarp.liftPreps) ?_
  exact (h.foldl (fun _ _ h' => h'.rollLane)).setWarp

theorem Formed.abort {w : Nat} {code info : Int} (h : Formed s) : Formed (s.abort w code info) := by
  unfold State.abort
  exact Formed.ite h h.rollback

theorem Formed.raiseSet {t : Nat} {r : Raise} (h : Formed s) : Formed (s.raiseSet t r) := by
  unfold State.raiseSet
  exact Formed.ite h.setThread.setWarp h.setThread

theorem Formed.raise {t : Nat} {r : Raise} (h : Formed s) : Formed (s.raise t r) := by
  unfold State.raise
  exact Formed.ite h (Formed.ite (Formed.ite (Formed.ite h.rollback h.abort) h.abort.raiseSet) h.raiseSet)

theorem Formed.raiseAll {ts : List Nat} {r : Raise} (h : Formed s) : Formed (s.raiseAll ts r) := h.foldl (fun _ _ h' => Formed.ite h' h'.raise)

theorem Formed.defer {t c : Nat} {ea status : Int} (h : Formed s) : Formed (s.defer t c ea status) := by
  unfold State.defer
  exact Formed.ite h h.setThread

theorem Formed.startKill {ctx : Nat} {neg : Bool} (h : Formed s) : Formed (s.startKill ctx neg) :=
  (h.foldl (fun _ _ h' => Formed.ite h'.stopWarp h')).setCtx

theorem Formed.startSave {ctx bid : Nat} (h : Formed s) : Formed (s.startSave ctx bid) := by
  unfold State.startSave
  dsimp only
  split
  · exact (h.foldl (fun _ _ h' => h'.abort.stopWarp)).setCtx
  · exact h

theorem Formed.forceSave {ctx bid : Nat} (h : Formed s) : Formed (s.forceSave ctx bid) := by
  unfold State.forceSave
  exact Formed.ite h.startSave h.startKill

theorem Formed.supStop {w : Nat} (h : Formed s) : Formed (s.supStop w) := (h.foldl (fun _ _ h' => h'.stopWarp)).other rfl

theorem Formed.enter {w : Nat} (h : Formed s) : Formed (s.enter w) :=
  (h.foldl (fun _ _ h' => by dsimp only; split; exacts [h'.dropKept.setThread, h'])).setWarp.meet

theorem Formed.double {w : Nat} (h : Formed s) : Formed (s.double w) := by
  unfold State.double
  exact Formed.ite h.setWarp.supStop ((h.setWarp.foldl (fun _ _ h' => Formed.ite h'.setThread h')).notice.forceSave)

theorem Formed.unhandledTrap {w : Nat} (h : Formed s) : Formed (s.unhandledTrap w) := by
  unfold State.unhandledTrap
  refine Formed.ite h.setWarp.supStop ?_
  exact (h.setWarp.foldl (fun _ _ h' => by dsimp only; split; exacts [h'.dropKept.setThread, h'])).notice.forceSave

theorem Formed.deliver {w : Nat} (h : Formed s) : Formed (s.deliver w) := by
  unfold State.deliver
  refine Formed.ite h ?_
  refine Formed.ite (Formed.ite h.stopWarp.double h.setWarp) ?_
  exact Formed.ite h.stopWarp (Formed.ite h.stopWarp.unhandledTrap h.stopWarp.enter)

theorem Formed.freeWarp {w : Nat} (h : Formed s) : Formed (s.freeWarp w) := by
  unfold State.freeWarp
  split
  · exact h
  · refine Formed.ite (Formed.setCore ?_) h
    exact { h with
      ctxs := Tab.sorted_put _ _ h.ctxs
      wrp := Tab.sorted_del _ h.wrp
      thr := sorted_filter _ h.thr }

theorem Formed.settle {w : Nat} (h : Formed s) : Formed (s.settle w) := h.deliver.meet.freeWarp

theorem Formed.leave {w : Nat} (h : Formed s) : Formed (s.leave w) :=
  (h.foldl (fun _ _ h' => Formed.ite h' (Formed.ite (Formed.ite h'.setThread.retire h'.setThread) (Formed.ite h'.setThread h')))).setWarp.meet.settle

theorem Formed.takeGrans {w : Nat} {u : Uses} (h : Formed s) : ∀ t, s.takeGrans w u = some t → Formed t := by
  unfold State.takeGrans
  refine formed_of_ite ?_ ?_
  · exact formed_of_some h
  · refine formed_of_ite ?_ ?_
    · exact formed_of_none
    · exact formed_of_some h.setWarp

theorem Formed.applyWr {t : Nat} {a : Wr} (h : Formed s) : Formed (s.applyWr t a) := by
  unfold State.applyWr
  split
  · exact h.setReg
  · exact h.setPair
  · exact h.setPred
  · exact h.portPush
  · exact h.setThread
  · exact h.retire
  · exact h.setWarp

theorem Formed.applyOut {t : Nat} {o : Out} (h : Formed s) : Formed (s.applyOut t o) := by
  unfold State.applyOut
  dsimp only
  split
  · exact (Formed.ite h h.count).raise
  · exact (Formed.ite h h.count).retire.foldl (fun _ _ h' => h'.applyWr)

theorem Formed.stepTrap {w : Nat} {lanes : List Nat} (h : Formed s) : Formed (s.stepTrap w lanes) := by
  unfold State.stepTrap
  exact Formed.ite (h.foldl (fun _ _ h' => Formed.ite h'.raise h')) h

theorem Formed.started (h : Formed s) : Formed (s.started) := Formed.foldl (h.other rfl) (fun _ _ h' => h'.setThread)

theorem Formed.issue {hd : Hdr} {u : Uses} {body : List Nat → State → State} (h : Formed s) (hbody : ∀ x0 x1, Formed x1 → Formed (body x0 x1)) :
    Formed (s.issue hd u body) := by
  unfold State.issue
  refine Formed.ite ?_ ?_
  · split
    · exact h.foldl (fun _ _ h' => h'.waitLane)
    · exact h
  · refine Formed.ite h.started.raiseAll.settle ?_
    split
    · exact h.started.raiseAll.settle
    · refine Formed.ite ((h.started.foldl (fun _ _ h' => h'.retire)).stepTrap.settle) ?_
      refine Formed.ite ?_ ((hbody _ _ (h.started.foldl (fun _ _ h' => h'.retire))).stepTrap.settle)
      refine Formed.ite ((h.started.foldl (fun _ _ h' => h'.retire)).abort.stepTrap.settle) ?_
      split
      · rename_i heq
        exact (hbody _ _ ((h.started.foldl (fun _ _ h' => h'.retire)).takeGrans _ heq)).stepTrap.settle
      · exact (h.started.foldl (fun _ _ h' => h'.retire)).abort.stepTrap.settle

theorem Formed.readField {ts : List Nat} {r : Nat} (h : Formed s) : Formed (s.readField ts r).1 := by
  unfold State.readField
  refine Formed.ite_fst ?_ ?_
  · dsimp only
    exact h.portPop
  · dsimp only
    exact h

theorem Formed.readFields {ts fs : List Nat} (h : Formed s) : Formed (s.readFields ts fs).1 := by
  induction fs generalizing s with
  | nil => exact h
  | cons r rs ih =>
    rw [State.readFields]
    exact ih h.readField

theorem Formed.runLanes {f : State → Nat → List Int → Out} {s0 : State} {vs : List (List Int)} {i : Nat} {ts : List Nat} (h : Formed s) :
    Formed (s.runLanes f s0 vs i ts) := by
  induction ts generalizing s i with
  | nil => exact h
  | cons t ts ih =>
    rw [State.runLanes]
    exact ih (by split; exacts [h, h.applyOut])

theorem Formed.laneBody {u : Uses} {f : State → Nat → List Int → Out} {act : List Nat} (h : Formed s) : Formed (laneBody u f act s) := by
  unfold Machine.laneBody
  dsimp only
  split
  · exact h.raiseAll
  · exact h.foldl (fun _ _ h' => h'.waitLane)
  · exact h.readFields.runLanes

theorem Formed.perLane {hd : Hdr} {u : Uses} {f : State → Nat → List Int → Out} (h : Formed s) : Formed (s.perLane hd u f) :=
  h.issue (fun _ _ h' => h'.laneBody)

theorem Formed.perGroup {hd : Hdr} {u : Uses} {g : List Nat → Nat → State → State}
    (h : Formed s) (hg : ∀ x0 x1 x2, Formed x2 → Formed (g x0 x1 x2)) : Formed (s.perGroup hd u g) := h.issue (fun _ _ h' => hg _ _ _ h')

theorem Formed.retireAll {act : List Nat} (h : Formed s) : Formed (s.retireAll act) := h.foldl (fun _ _ h' => h'.retire)
theorem Formed.waitAll {act : List Nat} {k : Wait} (h : Formed s) : Formed (s.waitAll act k) := h.foldl (fun _ _ h' => h'.waitLane)
theorem Formed.faultAll {act : List Nat} {c : Nat} {status : Int} (h : Formed s) : Formed (s.faultAll act c status) := h.raiseAll

theorem Formed.alu {hd : Hdr} {t3 isSat : Bool} {op : Nat → Int → Int → Int → Int} {d : Nat} {fs : List Nat} (h : Formed s) :
    FormedOut (alu hd t3 isSat op d fs s) := h.perLane

theorem Formed.execAdd {hd : Hdr} {t3 sat : Bool} {d a b : Nat} (h : Formed s) : FormedOut (execAdd hd t3 sat d a b s) := h.alu
theorem Formed.execSub {hd : Hdr} {t3 sat : Bool} {d a b : Nat} (h : Formed s) : FormedOut (execSub hd t3 sat d a b s) := h.alu
theorem Formed.execNeg {hd : Hdr} {t3 : Bool} {d a : Nat} (h : Formed s) : FormedOut (execNeg hd t3 d a s) := h.alu
theorem Formed.execAbs {hd : Hdr} {t3 : Bool} {d a : Nat} (h : Formed s) : FormedOut (execAbs hd t3 d a s) := h.alu
theorem Formed.execSgn {hd : Hdr} {t3 : Bool} {d a : Nat} (h : Formed s) : FormedOut (execSgn hd t3 d a s) := h.alu
theorem Formed.execMul {hd : Hdr} {t3 sat : Bool} {d a b : Nat} (h : Formed s) : FormedOut (execMul hd t3 sat d a b s) := h.alu
theorem Formed.execMulh {hd : Hdr} {t3 : Bool} {d a b : Nat} (h : Formed s) : FormedOut (execMulh hd t3 d a b s) := h.alu
theorem Formed.execMad {hd : Hdr} {t3 sat : Bool} {d a b c : Nat} (h : Formed s) : FormedOut (execMad hd t3 sat d a b c s) := h.alu
theorem Formed.execMin {hd : Hdr} {t3 : Bool} {d a b : Nat} (h : Formed s) : FormedOut (execMin hd t3 d a b s) := h.alu
theorem Formed.execMax {hd : Hdr} {t3 : Bool} {d a b : Nat} (h : Formed s) : FormedOut (execMax hd t3 d a b s) := h.alu
theorem Formed.execClamp {hd : Hdr} {t3 : Bool} {d a b c : Nat} (h : Formed s) : FormedOut (execClamp hd t3 d a b c s) := h.alu

theorem Formed.execAddi {hd : Hdr} {t3 sat_ x : Bool} {d a : Nat} {imm : Int} (h : Formed s) : FormedOut (execAddi hd t3 sat_ x d a imm s) := by
  unfold Machine.execAddi
  exact FormedOut.ite h.perLane h.perLane

theorem Formed.execMulw {hd : Hdr} {d a b : Nat} (h : Formed s) : FormedOut (execMulw hd d a b s) := h.perLane
theorem Formed.divide {hd : Hdr} {rem t3 : Bool} {d a b : Nat} (h : Formed s) : FormedOut (divide hd rem t3 d a b s) := h.perLane
theorem Formed.execDiv {hd : Hdr} {t3 : Bool} {d a b : Nat} (h : Formed s) : FormedOut (execDiv hd t3 d a b s) := h.divide
theorem Formed.execRem {hd : Hdr} {t3 : Bool} {d a b : Nat} (h : Formed s) : FormedOut (execRem hd t3 d a b s) := h.divide
theorem Formed.execAddx {hd : Hdr} {d a b : Nat} (h : Formed s) : FormedOut (execAddx hd d a b s) := h.perLane
theorem Formed.execSubx {hd : Hdr} {d a b : Nat} (h : Formed s) : FormedOut (execSubx hd d a b s) := h.perLane
theorem Formed.execLea {hd : Hdr} {d : Nat} {m : MOp} (h : Formed s) : FormedOut (execLea hd d m s) := h.perLane

theorem Formed.execCmp {hd : Hdr} {t3 x : Bool} {d a b : Nat} (h : Formed s) : FormedOut (execCmp hd t3 x d a b s) := by
  unfold Machine.execCmp
  exact FormedOut.ite h.perLane h.perLane

theorem Formed.execCmpi {hd : Hdr} {x : Bool} {d a : Nat} {imm : Int} (h : Formed s) : FormedOut (execCmpi hd x d a imm s) := by
  unfold Machine.execCmpi
  exact FormedOut.ite h.perLane h.perLane

end Sys2Proof.Machine
end

