-- ==== Sys2Proof/Proofs/FormMemory.lean ====
section
/-! The form of a state under what homes and cores do with memory (R89, R108-R134, R214-R234, R419-R438). -/

namespace Sys2Proof.Machine

variable {s : State}

theorem Formed.setByte {own b v : Nat} (h : Formed s) : Formed (s.setByte own b v) := h.withMem (State.setByte_wf own b v h.mem)

theorem Formed.setBytes {own b : Nat} {bs : List Nat} (h : Formed s) : Formed (s.setBytes own b bs) := by
  rw [State.setBytes_rest]
  exact h.withMem (State.setBytes_wf own bs b h.mem)

theorem Formed.setHost {b : Nat} {bs : List Nat} (h : Formed s) : Formed (s.setHost b bs) := by
  rw [State.setHost_rest]
  exact { h with host := State.setHost_wf bs b h.host }

theorem Formed.setAtom {own : Nat} {k : Int} {bs : List Nat} (h : Formed s) : Formed (s.setAtom own k bs) := h.setBytes
theorem Formed.setSec {own : Nat} {k : Int} {cmp : Bool} {x : L2Sec} (h : Formed s) : Formed (s.setSec own k cmp x) := h.setDie
theorem Formed.countAll {ctx die : Nat} {cs : List Nat} (h : Formed s) : Formed (s.countAll ctx die cs) := h.foldl (fun _ _ h' => h'.count)

theorem Formed.lostRead {own : Nat} {pas : List Int} {cmp : Bool} {ctx die : Nat} (h : Formed s) : Formed (s.lostRead own pas cmp ctx die).1 := by
  unfold State.lostRead
  exact Formed.ite_fst h.count h

theorem Formed.evictSec {own : Nat} {k : Int} {cmp : Bool} (h : Formed s) : Formed (s.evictSec own k cmp) := by
  unfold State.evictSec
  refine Formed.ite ((Formed.ite h.countAll h).setSec) ?_
  exact Formed.setSec (Formed.setAtom ((Formed.ite h.countAll h).other rfl))

theorem Formed.evictLine {own : Nat} {l : Int} {cmp : Bool} (h : Formed s) : Formed (s.evictLine own l cmp) := h.foldl (fun _ _ h' => h'.evictSec)

theorem Formed.l2Room {own slice : Nat} {l : Int} {cmp : Bool} (h : Formed s) : Formed (s.l2Room own slice l cmp) := by
  unfold State.l2Room
  exact Formed.ite h h.evictLine

theorem Formed.fillSec {own : Nat} {k : Int} {cmp : Bool} {ctx die sl : Nat} (h : Formed s) : Formed (s.fillSec own k cmp ctx die sl).1 := by
  unfold State.fillSec
  exact h.l2Room.setSec.countAll

theorem Formed.fillFor {own : Nat} {pas : List Int} {cmp : Bool} {ctx die : Nat} {sl : Int → Nat} (h : Formed s) :
    Formed (s.fillFor own pas cmp ctx die sl).1 := h.foldl_fst (fun _ _ h' => Formed.ite_fst h' h'.fillSec)

theorem Formed.homePut {own : Nat} {cmp : Bool} {ctx : Nat} {tr : List (Int × Int)} {sl : Int → Nat} (h : Formed s) :
    Formed (s.homePut own cmp ctx tr sl) := h.foldl (fun _ _ h' => h'.l2Room.setSec)

theorem Formed.setHline {own : Nat} {l : Int} {x : HLine} (h : Formed s) : Formed (s.setHline own l x) := h.setDie
theorem Formed.wrote {own : Nat} {l : Int} (h : Formed s) : Formed (s.wrote own l) := h.setHline

theorem Formed.grantLease {own : Nat} {l : Int} {core : Nat} {leaf : Leaf} {cls : Lease} (h : Formed s) :
    Formed (s.grantLease own l core leaf cls).1 := by
  unfold State.grantLease
  exact Formed.ite_fst h h.setHline

theorem Formed.walkFills {own ctx die : Nat} {root off : Int} (h : Formed s) : Formed (s.walkFills own ctx die root off) :=
  h.fillFor.foldl (fun _ _ h' => h'.lostRead)

theorem Formed.tlbKeep {own core : Nat} {e : TlbE} (h : Formed s) : Formed (s.tlbKeep own core e) := h.setDie

theorem Formed.translate {own ctx core : Nat} {off : Int} (h : Formed s) : Formed (s.translate own ctx core off).1 := by
  unfold State.translate
  refine Formed.ite_fst h ?_
  refine Formed.ite_fst h ?_
  split
  · exact h
  · split
    · exact h.tlbKeep
    · refine Formed.ite_fst h ?_
      dsimp only
      split
      · exact h.walkFills.setDie.tlbKeep
      · exact h.walkFills

theorem Formed.reloadRoot {own ctx : Nat} (h : Formed s) : Formed (s.reloadRoot own ctx) := h.setDie
theorem Formed.reloadOwner {own : Nat} (h : Formed s) : Formed (s.reloadOwner own) := h.setDie
theorem Formed.setScr {c : Nat} {a v : Int} (h : Formed s) : Formed (s.setScr c a v) := h.setCore.other rfl

theorem Formed.setScrs {c : Nat} {a : Int} {vs : List Int} (h : Formed s) : Formed (s.setScrs c a vs) := by
  induction vs generalizing s a with
  | nil => exact h
  | cons v vs ih => exact ih h.setScr

theorem Formed.setScrWord {c : Nat} {a v : Int} (h : Formed s) : Formed (s.setScrWord c a v) := h.setScrs
theorem Formed.setVel {own : Nat} {a v : Int} (h : Formed s) : Formed (s.setVel own a v) := h.setDie.other rfl
theorem Formed.setL1 {c : Nat} {l : Int} {x : L1Line} (h : Formed s) : Formed (s.setL1 c l x) := h.setCore
theorem Formed.l1Store {c w : Nat} {ea : Int} {vs : List Int} (h : Formed s) : Formed (s.l1Store c w ea vs) := h.foldl (fun _ _ h' => h'.setL1)

theorem Formed.l1Place {c : Nat} {line : Int} {tr : Tab Int} {secs : List Nat} {e : LEnd} {g : Int} (h : Formed s) :
    Formed (s.l1Place c line tr secs e g) := h.setL1

theorem Formed.l1Clean {c : Nat} {l : Int} {secs : List Nat} (h : Formed s) : Formed (s.l1Clean c l secs) := h.setL1
theorem Formed.l1CleanAll {c : Nat} (h : Formed s) : Formed (s.l1CleanAll c) := h.setCore
theorem Formed.addReq {r : Req} (h : Formed s) : Formed (s.addReq r) := h.addNext rfl

theorem Formed.dropFills {c : Nat} {l : Int} (h : Formed s) : Formed (s.dropFills c l) :=
  { h with reqs := numbered_of_ids h.reqs (ids_map (ids_filter (List.Sublist.refl _)) fun _ => id_ite rfl rfl) le_rfl }

theorem Formed.dropCopies {c : Nat} {l : Int} (h : Formed s) : Formed (s.dropCopies c l) := h.l1Clean.dropFills

theorem Formed.wbLine {c w : Nat} {l : Int} {by_ gid : Nat} {lanes : List Nat} {pc : Int} (h : Formed s) :
    Formed (s.wbLine c w l by_ gid lanes pc) := by
  unfold State.wbLine
  exact Formed.ite h h.setL1.dropFills.addReq

theorem Formed.l1Room {c w : Nat} {l : Int} (h : Formed s) : Formed (s.l1Room c w l) := by
  unfold State.l1Room
  exact Formed.ite h h.wbLine.setCore

theorem Formed.velFill {c w : Nat} {k : Int} (h : Formed s) : Formed (s.velFill c w k) := by
  unfold State.velFill
  exact Formed.ite h.l1Room.l1Place.count h.l1Room.l1Place

theorem Formed.wbCore {c w by_ gid : Nat} {lanes : List Nat} {pc : Int} (h : Formed s) : Formed (s.wbCore c w by_ gid lanes pc) :=
  h.foldl (fun _ _ h' => h'.wbLine)

theorem Formed.wbfRec {ctx own core wid lane : Nat} {ea pc : Int} {mal : Bool} (h : Formed s) : Formed (s.wbfRec ctx own core wid lane ea pc mal) :=
  h.pushRec

/-- Held write-back faults are given to a unit (R220, R436). -/
theorem Formed.heldFaults {c w : Nat} {x : CoreSt} {faults : List HeldWbf} {lanes : List Nat} {pc : Int} (h : Formed s) :
    Formed (faults.foldl (fun a f =>
      let a1 := lanes.foldl (fun b l => b.defer (threadOf w l) 11 f.ea) a
      if f.recorded then a1 else a1.wbfRec (s.warp w).ctx f.own c (widOf w) (lanes.headD 0) f.ea pc f.malformed) (s.setCore c x)) :=
  h.setCore.foldl fun _ _ h' =>
    have h1 := h'.foldl fun _ _ h'' => h''.defer
    Formed.ite h1 h1.wbfRec

theorem Formed.flushRead {w : Nat} (h : Formed s) : Formed (s.flushRead w) := h.addReq

theorem Formed.fenceRun {w : Nat} {sc : Scope} {rel : Bool} {lanes : List Nat} {pc : Int} {a : Nat} (h : Formed s) :
    Formed (s.fenceRun w sc rel lanes pc a).1 := by
  unfold State.fenceRun
  split
  · exact Formed.ite_fst h (Formed.ite_fst h h.heldFaults.wbCore)
  · exact Formed.ite_fst h (Formed.ite_fst h.flushRead h)
  · exact h

theorem Formed.fenceStart {w : Nat} {sc : Scope} {rel : Bool} {lanes : List Nat} {pc : Int} (h : Formed s) :
    Formed (s.fenceStart w sc rel lanes pc).1 := by
  unfold State.fenceStart
  split
  · rename_i heq
    exact (h.fenceRun.of_fst heq).fenceRun
  · exact h.fenceRun

theorem Formed.fenceWait {act : List Nat} {sc : Scope} {rel ends : Bool} {ph : Nat} (h : Formed s) : Formed (s.fenceWait act sc rel ends ph) :=
  h.waitAll.setWarp

theorem Formed.afterFence {act : List Nat} {sc : Scope} {k : State → State} (h : Formed s) (hk : ∀ x0, Formed x0 → Formed (k x0)) :
    Formed (s.afterFence act sc k) := by
  unfold State.afterFence
  refine Formed.ite (hk _ h) ?_
  split
  · rename_i heq
    exact hk _ (h.fenceStart.of_fst heq)
  · rename_i heq
    exact (h.fenceStart.of_fst heq).fenceWait

theorem Formed.blotStore {w lane : Nat} {ea : Int} {vs : List Int} (h : Formed s) : ∀ t, s.blotStore w lane ea vs = some t → Formed t := by
  unfold State.blotStore
  refine formed_of_ite ?_ ?_
  · exact formed_of_none
  · exact formed_of_some h.setCore

theorem Formed.await {t : Nat} (h : Formed s) : Formed (s.await t) := h.setThread

theorem Formed.withPorts {u : Uses} {act : List Nat} {k : State → State} (h : Formed s) (hk : ∀ x0, Formed x0 → Formed (k x0)) :
    Formed (s.withPorts u act k) := by
  unfold State.withPorts
  split
  · exact h.raiseAll
  · exact h.waitAll
  · exact hk _ h

theorem Formed.eachLane {u : Uses} {act : List Nat} {k : State → Nat → List Int → State} {skip : State → Nat → State}
    (h : Formed s) (hk : ∀ x0 x1 x2, Formed x0 → Formed (k x0 x1 x2)) (hskip : ∀ x0 x1, Formed x0 → Formed (skip x0 x1)) : Formed
      (s.eachLane u act k skip) :=
  h.readFields.foldl (fun _ _ h' => Formed.ite (hskip _ _ h') (hk _ _ _ h'))

theorem Formed.laneSteps {u : Uses} {k : State → Nat → List Int → State} {act : List Nat}
    (h : Formed s) (hk : ∀ x0 x1 x2, Formed x0 → Formed (k x0 x1 x2)) : Formed (laneSteps u k act s) :=
  h.withPorts (fun _ h' => h'.eachLane hk (fun _ _ h'' => h''))

theorem Formed.goOn {u : Uses} {act : List Nat} {k : Nat → State → Nat → List Int → State}
    (h : Formed s) (hk : ∀ x0 x1 x2 x3, Formed x1 → Formed (k x0 x1 x2 x3)) : Formed (s.goOn u act k) :=
  h.foldl (fun _ _ h' => by dsimp only; split; exacts [Formed.ite h' (hk _ _ _ _ h'.setThread), h'])

theorem Formed.keepWords {t : Nat} {v : List Int} (h : Formed s) : Formed (s.keepWords t v) := by
  unfold State.keepWords
  dsimp only
  split
  · exact h.setThread
  · exact h.mapReqs fun _ => id_ite rfl rfl

theorem Formed.memLanes {u : Uses} {cls : Cls} {act : List Nat} {k : Nat → State → Nat → List Int → State}
    (h : Formed s) (hk : ∀ x0 x1 x2 x3, Formed x1 → Formed (k x0 x1 x2 x3)) : Formed (s.memLanes u cls act k) := by
  unfold State.memLanes
  refine Formed.ite h.waitAll ?_
  exact h.openGrp.eachLane (fun _ _ _ h' => (hk _ _ _ _ h').keepWords) (fun _ _ h' => h'.doneLane)

theorem Formed.memUnit {hd : Hdr} {u : Uses} {cls : Cls} {k : Nat → State → Nat → List Int → State}
    (h : Formed s) (hk : ∀ x0 x1 x2 x3, Formed x1 → Formed (k x0 x1 x2 x3)) : Formed (s.memUnit hd u cls k) := by
  unfold State.memUnit
  refine Formed.ite h ?_
  refine h.issue fun _ _ h' => ?_
  refine Formed.ite (h'.goOn (fun _ _ _ _ h'' => (hk _ _ _ _ h'').keepWords)) ?_
  exact h'.withPorts (fun _ h'' => h''.memLanes hk)

theorem Formed.freeLanes {u : Uses} {k : State → Nat → List Int → State} {act : List Nat}
    (h : Formed s) (hk : ∀ x0 x1 x2, Formed x0 → Formed (k x0 x1 x2)) : Formed (freeLanes u k act s) := by
  unfold Machine.freeLanes
  refine Formed.ite (h.goOn (fun _ _ _ _ h' => (hk _ _ _ h').keepWords)) ?_
  exact h.laneSteps (fun _ _ _ h' => (hk _ _ _ h').keepWords)

theorem Formed.freeUnit {hd : Hdr} {u : Uses} {k : State → Nat → List Int → State}
    (h : Formed s) (hk : ∀ x0 x1 x2, Formed x0 → Formed (k x0 x1 x2)) : Formed (s.freeUnit hd u k) := by
  unfold State.freeUnit
  exact Formed.ite h (h.issue (fun _ _ h' => h'.freeLanes hk))

theorem Formed.laneDone {t gid : Nat} (h : Formed s) : Formed (s.laneDone t gid) := h.retire.doneLane
theorem Formed.laneTrap {t gid cause : Nat} {status ea : Int} (h : Formed s) : Formed (s.laneTrap t gid cause status ea) := h.doneLane.raise
theorem Formed.laneWait {t gid : Nat} {k : Wait} (h : Formed s) : Formed (s.laneWait t gid k) := h.waitLane.setThread

theorem Formed.putLoad {t : Nat} {sz : Sz} {d : Nat} {v : Int} (h : Formed s) : Formed (s.putLoad t sz d v) := by
  unfold State.putLoad
  exact Formed.ite h (Formed.ite h.setPair h.setReg)

theorem Formed.dataHit {t : Nat} {hit : Bool} (h : Formed s) : Formed (s.dataHit t hit) := by
  unfold State.dataHit
  exact Formed.ite h.count.defer h

theorem Formed.localLoad {t gid : Nat} {sz : Sz} {d : Nat} {ea : Int} (h : Formed s) : Formed (s.localLoad t gid sz d ea) := by
  unfold State.localLoad
  dsimp only
  split
  · exact h.laneDone.putLoad.dataHit
  · exact Formed.ite h.laneDone.putLoad.dataHit h.laneDone.putLoad
  · refine Formed.ite h.setThread.laneWait ?_
    refine Formed.ite ((h.foldl (fun _ _ h' => h'.velFill)).laneDone.putLoad.defer) ?_
    exact (h.foldl (fun _ _ h' => h'.velFill)).laneDone.putLoad
  · exact h.laneTrap

theorem Formed.loadLane {sz : Sz} {o : Ord} {sc : Scope} {l : Lease} {d gid t : Nat} {ea : Int} (h : Formed s) :
    Formed (s.loadLane sz o sc l d gid t ea) := by
  unfold State.loadLane
  split
  · exact h.laneTrap
  · exact h.laneTrap
  · exact Formed.ite h.laneTrap (Formed.ite h.laneWait (Formed.ite h.addReq.await h.localLoad))

theorem Formed.execLd {hd : Hdr} {sz : Sz} {o : Acc} {l : Lease} {d : Nat} {m : MOp} (h : Formed s) : FormedOut (execLd hd sz o l d m s) :=
  h.memUnit (fun _ _ _ _ h' => h'.loadLane)

theorem Formed.execLdnb {hd : Hdr} {sz : Sz} {o : Acc} {l : Lease} {d : Nat} {m : MOp} {c : Nat} (h : Formed s) :
    FormedOut (execLdnb hd sz o l d m c s) := h.memUnit (fun _ _ _ _ h' => Formed.ite h'.setThread.laneWait h'.loadLane)

theorem Formed.storeLane {sz : Sz} {d gid t : Nat} {ea : Int} (h : Formed s) : Formed (s.storeLane sz d gid t ea) := by
  unfold State.storeLane
  dsimp only
  split
  · exact h.laneTrap
  · exact h.laneTrap
  · refine Formed.ite h.laneTrap ?_
    refine Formed.ite h.laneWait ?_
    refine Formed.ite ?_ ?_
    · exact Formed.ite h.doneLane.abort (Formed.ite h.laneTrap (Formed.ite h.laneWait h.addReq.await))
    · refine Formed.ite ?_ h.setScrs.laneDone
      split
      · rename_i heq
        exact (h.blotStore _ heq).laneDone
      · exact h.doneLane.abort

theorem Formed.released {hd : Hdr} {o : Acc} {m : MOp} {act : List Nat} {k : State → State} (h : Formed s) (hk : ∀ x0, Formed x0 → Formed (k x0)) :
    Formed (s.released hd o m act k) := by
  unfold State.released
  exact Formed.ite ((Formed.ite h h.heldFaults).afterFence hk) (hk _ h)

theorem Formed.relUnit {hd : Hdr} {u : Uses} {cls : Cls} {o : Acc} {m : MOp} {k : Nat → State → Nat → List Int → State}
    (h : Formed s) (hk : ∀ x0 x1 x2 x3, Formed x1 → Formed (k x0 x1 x2 x3)) : Formed (s.relUnit hd u cls o m k) := by
  unfold State.relUnit
  refine Formed.ite h ?_
  refine h.issue fun _ _ h' => ?_
  refine Formed.ite (h'.goOn (fun _ _ _ _ h'' => (hk _ _ _ _ h'').keepWords)) ?_
  exact h'.withPorts (fun _ h'' => h''.released (fun _ h₃ => h₃.memLanes hk))

theorem Formed.execSt {hd : Hdr} {sz : Sz} {o : Acc} {d : Nat} {m : MOp} (h : Formed s) : FormedOut (execSt hd sz o d m s) :=
  h.relUnit (fun _ _ _ _ h' => h'.storeLane)

theorem Formed.stvaLane {sz : Sz} {d c gid t : Nat} {ea : Int} (h : Formed s) : Formed (s.stvaLane sz d c gid t ea) := by
  unfold State.stvaLane
  split
  · exact h.laneTrap
  · exact h.laneTrap
  · exact Formed.ite h.laneTrap (Formed.ite h.laneWait (Formed.ite h.laneTrap h.addReq.await))

theorem Formed.execStva {hd : Hdr} {sz : Sz} {o : Acc} {d : Nat} {m : MOp} {c : Nat} (h : Formed s) : FormedOut (execStva hd sz o d m c s) :=
  h.relUnit (fun _ _ _ _ h' => h'.stvaLane)

theorem Formed.binLane {n : Nat} {kind : RK} {o : Ord} {sc : Scope} {gid t : Nat} {ea : Int} (h : Formed s) :
    Formed (s.binLane n kind o sc gid t ea) := by
  unfold State.binLane
  split
  · exact h.laneTrap
  · exact Formed.ite h.laneTrap (Formed.ite h.laneWait h.addReq.await)

theorem Formed.execLdb {hd : Hdr} {bt : BType} {tt : TType} {sat : Bool} {o : Acc} {d : Nat} {m : MOp} (h : Formed s) :
    FormedOut (execLdb hd bt tt sat o d m s) := h.memUnit (fun _ _ _ _ h' => h'.binLane)

theorem Formed.execStb {hd : Hdr} {bt : BType} {tt : TType} {sat : Bool} {o : Acc} {d : Nat} {m : MOp} (h : Formed s) :
    FormedOut (execStb hd bt tt sat o d m s) := h.relUnit (fun _ _ _ _ h' => Formed.ite h'.laneTrap h'.binLane)

theorem Formed.quietUnit {hd : Hdr} {m : MOp} {k : State → Nat → Int → State} (h : Formed s) (hk : ∀ x0 x1 x2, Formed x0 → Formed (k x0 x1 x2)) :
    Formed (s.quietUnit hd m k) := h.issue (fun _ _ h' => h'.laneSteps (fun _ _ _ h'' => (hk _ _ _ h'').retire))

theorem Formed.execPref {hd : Hdr} {l : Lease} {m : MOp} (h : Formed s) : FormedOut (execPref hd l m s) := by
  unfold Machine.execPref
  refine h.quietUnit fun _ _ _ h' => ?_
  dsimp only
  split
  · exact Formed.ite (h'.foldl (fun _ _ h'' => h''.addReq)) h'
  · exact Formed.ite (h'.foldl (fun _ _ h'' => h''.addReq)) (h'.foldl (fun _ _ h'' => h''.velFill))
  · exact h'

theorem Formed.wbGroup {act : List Nat} {k : Nat → State → State} (h : Formed s) (hk : ∀ x0 x1, Formed x1 → Formed (k x0 x1)) :
    Formed (s.wbGroup act k) := by
  unfold State.wbGroup
  exact Formed.ite h.waitAll ((hk _ _ h.heldFaults.openGrp).setWarp)

theorem Formed.execWb {hd : Hdr} {m : MOp} (h : Formed s) : FormedOut (execWb hd m s) := by
  unfold Machine.execWb
  refine h.issue fun _ _ h' => ?_
  refine h'.withPorts fun _ h'' => ?_
  exact h''.wbGroup fun _ _ h₃ => h₃.eachLane (fun _ _ _ h₄ => (Formed.ite h₄.wbLine h₄).retire) (fun _ _ h₄ => h₄)

theorem Formed.execWbAll {hd : Hdr} (h : Formed s) : FormedOut (execWbAll hd s) :=
  h.issue (fun _ _ h' => h'.wbGroup (fun _ _ h'' => h''.wbCore.retireAll))

theorem Formed.execInv {hd : Hdr} {m : MOp} (h : Formed s) : FormedOut (execInv hd m s) := h.quietUnit (fun _ _ _ h' => Formed.ite h'.l1Clean h')
theorem Formed.execInvAll {hd : Hdr} (h : Formed s) : FormedOut (execInvAll hd s) := h.issue (fun _ _ h' => h'.l1CleanAll.retireAll)

theorem Formed.atomLane {kind : RK} {ticket : Bool} {o : Ord} {gid t : Nat} {ea : Int} (h : Formed s) : Formed (s.atomLane kind ticket o gid t ea) := by
  unfold State.atomLane
  dsimp only
  split
  · exact h.laneTrap
  · refine Formed.ite ?_ h.laneTrap
    refine Formed.ite h.laneTrap ?_
    exact Formed.ite h.laneTrap (Formed.ite h.laneTrap (Formed.ite h.laneTrap h.addReq.await))
  · exact Formed.ite h.laneTrap (Formed.ite h.laneWait (Formed.ite h.laneTrap h.addReq.await))

theorem Formed.execAtom {hd : Hdr} {op : AOp} {sz : Sz} {o : Acc} {d : Nat} {m : MOp} {c : Nat} (h : Formed s) :
    FormedOut (execAtom hd op sz o d m c s) := h.relUnit (fun _ _ _ _ h' => h'.atomLane)

theorem Formed.execRed {hd : Hdr} {op : AOp} {sz : Sz} {o : Acc} {m : MOp} {c : Nat} (h : Formed s) : FormedOut (execRed hd op sz o m c s) :=
  h.relUnit (fun _ _ _ _ h' => Formed.ite h'.addReq.await h'.atomLane)

theorem Formed.execCas {hd : Hdr} {sz : Sz} {o : Acc} {d : Nat} {m : MOp} {c : Nat} (h : Formed s) : FormedOut (execCas hd sz o d m c s) :=
  h.relUnit (fun _ _ _ _ h' => h'.atomLane)

theorem Formed.execAtomo {hd : Hdr} {op : AOp} {sz : Sz} {o : Acc} {d a k : Nat} {disp : Int} {c : Nat} (h : Formed s) :
    FormedOut (execAtomo hd op sz o d a k disp c s) := h.relUnit (fun _ _ _ _ h' => h'.atomLane)

theorem Formed.execTkt {hd : Hdr} {q d : Nat} {m : MOp} (h : Formed s) : FormedOut (execTkt hd q d m s) := h.memUnit (fun _ _ _ _ h' => h'.atomLane)

theorem Formed.execTktOpen {hd : Hdr} {q : Nat} {m : MOp} (h : Formed s) : FormedOut (execTktOpen hd q m s) :=
  h.freeUnit (fun _ _ _ h' => h'.atomLane)

theorem Formed.execTktClose {hd : Hdr} {q : Nat} {m : MOp} (h : Formed s) : FormedOut (execTktClose hd q m s) :=
  h.freeUnit (fun _ _ _ h' => h'.atomLane)

theorem Formed.execTkp {hd : Hdr} {m : MOp} {c : Nat} (h : Formed s) : FormedOut (execTkp hd m c s) := h.memUnit (fun _ _ _ _ h' => h'.atomLane)

theorem Formed.homeStore {own ctx : Nat} {pa : Int} {sz : Sz} {v : Int} {sl : Int → Nat} (h : Formed s) :
    Formed (s.homeStore own ctx pa sz v sl).1 := by
  unfold State.homeStore
  exact h.homePut.wrote

theorem Formed.touchAs {ctx core bid key : Nat} {wr : Bool} {va : Int} (h : Formed s) : Formed (s.touchAs ctx core bid key wr va).1 := by
  unfold State.touchAs
  refine Formed.ite_fst h ?_
  split
  · exact h.setCtx
  · exact Formed.ite_fst h (Formed.ite_fst h h.setCtx.count)

theorem Formed.touch {r : Req} {va : Int} (h : Formed s) : Formed (s.touch r va).1 := h.touchAs

theorem Formed.setReq {r : Req} (h : Formed s) : Formed (s.setReq r) := h.mapReqs fun q => by
  split
  · next hid => exact hid.symm
  · rfl

theorem Formed.answer {r : Req} {st : Stage} (h : Formed s) : Formed (s.answer r st) := h.setReq
theorem Formed.reply {r : Req} {v w : Int} (h : Formed s) : Formed (s.reply r v w) := h.answer
theorem Formed.delReq {id : Nat} (h : Formed s) : Formed (s.delReq id) := h.filterReqs _

theorem Formed.notePhase {r : Req} {w : Int} (h : Formed s) : Formed (s.notePhase r w) := by
  unfold State.notePhase
  split
  · exact Formed.ite h.setCtx h
  · exact h

theorem Formed.perform {r : Req} (h : Formed s) : Formed (s.perform r) := by
  unfold State.perform
  dsimp only
  split
  · exact h.touch.fillFor.homeStore.notePhase.reply
  · exact h.touch.fillFor.reply

theorem Formed.setSeq {own slice q : Nat} {x : Option Seq} (h : Formed s) : Formed (s.setSeq own slice q x) := h.setDie
theorem Formed.noteDeps (h : Formed s) : Formed s.noteDeps := h.withCtxs (Tab.sorted_map (by intro p; exact Tab.fst_ite rfl rfl) h.ctxs)

theorem Formed.performSeq {r : Req} {det : Bool} (h : Formed s) : Formed (s.performSeq r det) := by
  unfold State.performSeq
  dsimp only
  split
  · exact (Formed.ite h.count h).reply
  · exact (Formed.ite h.count h).perform

theorem Formed.drainSeq {fuel own slice q : Nat} (h : Formed s) : Formed (State.drainSeq fuel s own slice q) := by
  induction fuel generalizing s with
  | zero => exact h
  | succ fuel ih =>
    rw [State.drainSeq]
    split
    · exact h
    · split
      · exact ih h.setSeq
      · split
        · split
          · exact h.setReq
          · exact ih h.performSeq.noteDeps.setSeq
        · exact h

theorem Formed.execAtomoArrival {id : Nat} (h : Formed s) : FormedOut (execAtomoArrival id s) := by
  unfold Machine.execAtomoArrival
  split
  · exact h
  · split
    · split
      · exact h.performSeq
      · refine FormedOut.ite h.performSeq ?_
        exact FormedOut.ite h.performSeq.noteDeps.setSeq.drainSeq (FormedOut.ite h.setReq h.setReq)
    · exact h

theorem Formed.execAtomoResend {id : Nat} (h : Formed s) : FormedOut (execAtomoResend id s) := by
  unfold Machine.execAtomoResend
  split
  · exact FormedOut.ite h.setReq h
  · exact h

theorem Formed.passDrawn {own ctx : Nat} {mine : Nat → Bool} (h : Formed s) : Formed (s.passDrawn own ctx mine) :=
  h.setDie.foldl (fun _ _ h' => h'.drainSeq)

theorem Formed.unbusy {ts : List Nat} (h : Formed s) : Formed (s.unbusy ts) := h.foldl (fun _ _ h' => h'.setThread)

theorem Formed.scribeBack {r : Req} (h : Formed s) : Formed (s.scribeBack r) := by
  unfold State.scribeBack
  exact Formed.ite h.setCore h

theorem Formed.refuse {r : Req} {cause : Nat} {status : Int} (h : Formed s) : Formed (s.refuse r cause status) := by
  unfold State.refuse
  refine Formed.ite h.delReq.scribeBack ?_
  exact (h.delReq.scribeBack.unbusy.doneLane.foldl (fun _ _ h' => (Formed.ite h'.setThread (Formed.ite h'.setThread h')).raise)).settle

theorem Formed.retireReq {r : Req} (h : Formed s) : Formed (s.retireReq r) := by
  unfold State.retireReq
  exact Formed.ite h h.retire.stepTrap.settle

theorem Formed.addFault {own ctx : Nat} {page ea : Int} {ak core wid lane : Nat} {pc : Int} {mal : Bool} (h : Formed s) :
    Formed (s.addFault own ctx page ea ak core wid lane pc mal) := by
  unfold State.addFault
  exact Formed.ite h (Formed.ite h.setDie h.setDie.pushRec)

theorem Formed.parkReq {r : Req} {st : Stage} (h : Formed s) : Formed (s.parkReq r st) :=
  (h.doneLane.foldl (fun _ _ h' => h'.setThread)).setReq.settle

theorem Formed.takeFault {r : Req} {m : Bool} (h : Formed s) : Formed (s.takeFault r m) := by
  unfold State.takeFault
  refine Formed.ite h.delReq ?_
  exact Formed.ite h.addFault.parkReq ((Formed.ite h.addFault.setReq h.addFault.delReq.doneLane).rollback.settle)

theorem Formed.missed {r : Req} {m : Bool} (h : Formed s) : Formed (s.missed r m) := by
  unfold State.missed
  split
  · exact h.takeFault
  · exact h.setReq.later rfl rfl (Nat.le_succ _)

theorem Formed.phaseStore {r : Req} {ts : List (Int × Int)} (h : Formed s) : ∀ t, s.phaseStore r ts = some t → Formed t := by
  unfold State.phaseStore
  refine formed_of_ite ?_ ?_
  · exact formed_of_none
  · exact formed_of_some h.setCore

theorem Formed.phaseRed {r : Req} {op : AOp} {sz : Sz} {v : Int} (h : Formed s) : ∀ t, s.phaseRed r op sz v = some t → Formed t := by
  unfold State.phaseRed
  refine formed_of_ite ?_ ?_
  · exact formed_of_none
  · exact formed_of_some h.setCore

theorem Formed.leaveCore {r : Req} {pa : Int} {l : Leaf} (h : Formed s) : Formed (s.leaveCore r pa l) := h.wbLine.dropCopies.delReq.addNext rfl
theorem Formed.oneMore {w gid : Nat} (h : Formed s) : Formed (s.oneMore w gid) := h.setWarp

theorem Formed.stvaLeave {r : Req} {sz : Sz} {v t : Int} {l : Leaf} (h : Formed s) : Formed (s.stvaLeave r sz v t l) := by
  unfold State.stvaLeave
  split
  · exact h.leaveCore
  · exact Formed.ite h.oneMore.leaveCore.leaveCore h.leaveCore

theorem Formed.accept {r : Req} {l : Leaf} (h : Formed s) : Formed (s.accept r l) := by
  unfold State.accept
  dsimp only
  split
  · exact h.setReq.retireReq
  · split
    · exact h.refuse
    · rename_i heq
      exact (((formed_of_ite (formed_of_some h) h.phaseStore _ heq).foldl (fun _ _ h' => h'.l1Room)).foldl
        (fun _ _ h' => h'.l1Store)).delReq.doneLane.retireReq
  · split
    · rename_i heq
      exact (h.blotStore _ heq).delReq.doneLane.retireReq
    · exact h.delReq.doneLane.abort.settle
  · exact h.stvaLeave.retireReq
  · refine Formed.ite ?_ h.leaveCore.retireReq
    split
    · rename_i heq
      exact (h.phaseRed _ heq).delReq.doneLane.retireReq
    · exact h.refuse
  · exact h.leaveCore.retireReq
  · split
    · exact Formed.ite h.leaveCore.retireReq h.refuse
    · exact h.refuse
  · split
    · exact Formed.ite h.setReq.retireReq h.refuse
    · exact h.refuse
  · split
    · exact Formed.ite h.refuse (Formed.ite h.refuse h.setReq.retireReq)
    · exact h.refuse
  · split
    · exact h.refuse
    · exact h.setSeq.delReq.doneLane.retireReq
  · split
    · exact Formed.ite h.refuse (Formed.ite h.setSeq.delReq.doneLane.retireReq h.delReq.unbusy.laneWait.keepWords)
    · exact h.refuse
  · exact h.setReq

theorem Formed.clampedStore {r : Req} (h : Formed s) : Formed (s.clampedStore r) := by
  unfold State.clampedStore
  split
  · exact h.count
  · exact h

theorem Formed.windowAnswer {r : Req} {n : Nat} {wr : Bool} (h : Formed s) : Formed (s.windowAnswer r n wr) := by
  unfold State.windowAnswer
  dsimp only
  split
  · exact h.refuse
  · refine Formed.ite h.refuse ?_
    refine Formed.ite h.refuse ?_
    refine Formed.ite h.refuse ?_
    exact Formed.ite h.refuse (Formed.ite h.clampedStore.setReq.retireReq h.clampedStore.setReq)

theorem Formed.translated {r : Req} (h : Formed s) : Formed (s.translated r) := by
  unfold State.translated
  dsimp only
  split
  · exact h.translate.missed
  · exact (Formed.ite_fst h.translate.translate h.translate).missed
  · split
    · exact (Formed.ite_fst h.translate.translate h.translate).refuse
    · exact (Formed.ite_fst h.translate.translate h.translate).accept

theorem Formed.ownerAnswer {r : Req} (h : Formed s) : Formed (s.ownerAnswer r) := by
  unfold State.ownerAnswer
  dsimp only
  split
  · exact Formed.ite h.windowAnswer h.refuse
  · exact Formed.ite h.windowAnswer h.refuse
  · split
    · exact h.refuse
    · exact Formed.ite h.refuse h.translated

theorem Formed.finishLdb {r : Req} {b : BType} {t : TType} {sat : Bool} {d bits : Nat} (h : Formed s) : Formed (s.finishLdb r b t sat d bits) := by
  unfold State.finishLdb
  refine Formed.ite h.refuse ?_
  exact ((Formed.ite (Formed.ite h.count h).delReq.doneLane.retire.setPair (Formed.ite h.count h).delReq.doneLane.retire.setReg).foldl
    (fun _ _ h' => h'.defer)).stepTrap.settle

theorem Formed.hostPerform {r : Req} {a : Nat} (h : Formed s) : Formed (s.hostPerform r a) := by
  unfold State.hostPerform
  dsimp only
  split
  · exact h.finishLdb
  · exact h.setWarp.clampedStore.setHost.reply.retireReq
  · exact h.setWarp.setHost.reply.retireReq
  · exact (Formed.ite h.setWarp.setHost h.setWarp).reply.retireReq
  · exact h.delReq

theorem Formed.execOwnerAnswer {id : Nat} (h : Formed s) : FormedOut (execOwnerAnswer id s) := by
  unfold Machine.execOwnerAnswer
  split
  · exact h
  · refine FormedOut.ite h.setReq ?_
    refine FormedOut.ite h ?_
    refine FormedOut.ite ?_ (FormedOut.ite h h.ownerAnswer)
    refine FormedOut.ite h ?_
    refine FormedOut.ite h.delReq ?_
    split
    · exact h.hostPerform
    · exact h

theorem Formed.execAtsInvalidation {pasid page : Nat} (h : Formed s) : FormedOut (execAtsInvalidation pasid page s) := h.other rfl

theorem Formed.execPageFault {id : Nat} (h : Formed s) : FormedOut (execPageFault id s) := by
  unfold Machine.execPageFault
  split
  · exact h
  · split
    · exact h
    · refine FormedOut.ite h ?_
      exact h.takeFault.foldl (fun _ _ h' => by split; exacts [h', (by split; exacts [h', h'.takeFault, h'])])
    · exact h

theorem Formed.execFaultRecordPush {die : Nat} (h : Formed s) : FormedOut (execFaultRecordPush die s) := h.flushRecs

theorem Formed.execDeferredWriteBackFault {id : Nat} (h : Formed s) : FormedOut (execDeferredWriteBackFault id s) := by
  unfold Machine.execDeferredWriteBackFault
  split
  · exact h
  · split
    · exact (h.count.delReq.foldl (fun _ _ h' => Formed.ite (Formed.ite h'.wbfRec h').setCore (h'.wbfRec.foldl
        (fun _ _ h'' => h''.defer)))).doneLane.settle
    · exact h

theorem Formed.fillReply {r : Req} {a : Int} {lease : Lease} (h : Formed s) : Formed (s.fillReply r a lease) :=
  (Formed.ite_fst h h.touch).grantLease.lostRead.answer

theorem Formed.lineReply {r : Req} (h : Formed s) : Formed (s.lineReply r) := h.lostRead.answer

theorem Formed.wbArrive {r : Req} {tr : Tab Int} (h : Formed s) : Formed (s.wbArrive r tr) := by
  unfold State.wbArrive
  dsimp only
  split
  · exact h.translate.setReq
  · split
    · exact h.translate.setReq
    · exact h.translate.touch.homePut.wrote.reply

theorem Formed.atomLost {own a ctx die : Nat} (h : Formed s) : Formed (s.atomLost own a ctx die).1 := by
  unfold State.atomLost
  exact Formed.ite_fst (Formed.count (Formed.setBytes (h.other rfl))) h

theorem Formed.winLost {r : Req} (h : Formed s) : Formed (s.winLost r).1 := h.atomLost

theorem Formed.windowArrive {r : Req} (h : Formed s) : Formed (s.windowArrive r) := by
  unfold State.windowArrive
  split
  · exact h.winLost.reply
  · exact h.winLost.setBytes.reply
  · exact h

theorem Formed.draw {r : Req} {q : Nat} (h : Formed s) : Formed (s.draw r q) := by
  unfold State.draw
  split
  · exact h.refuse
  · exact Formed.ite h h.setSeq.reply

theorem Formed.execHomeRequest {id : Nat} (h : Formed s) : FormedOut (execHomeRequest id s) := by
  unfold Machine.execHomeRequest
  split
  · exact h
  · refine FormedOut.ite (FormedOut.ite h.velFill.delReq h) ?_
    refine FormedOut.ite h ?_
    split
    · exact FormedOut.ite h.fillReply h
    · exact FormedOut.ite h.fillReply h
    · exact h.delReq
    · exact FormedOut.ite h.lineReply h
    · exact FormedOut.ite h.lineReply h
    · exact FormedOut.ite h.lineReply h
    · exact h.wbArrive
    · exact h.perform
    · exact h.perform
    · exact h.windowArrive
    · exact h.windowArrive
    · exact h.draw
    · exact h

theorem Formed.execSectorFill {id : Nat} (h : Formed s) : FormedOut (execSectorFill id s) := by
  unfold Machine.execSectorFill
  split
  · exact h
  · dsimp only
    split
    · exact h.fillSec.mapReqs fun _ => id_ite rfl rfl
    · exact h

theorem Formed.noteRead {r : Req} {a g : Int} {e : LEnd} (h : Formed s) : Formed (s.noteRead r a g e) := by
  unfold State.noteRead
  exact Formed.ite h h.setWarp

theorem Formed.execL1Fill {id : Nat} (h : Formed s) : FormedOut (execL1Fill id s) := by
  unfold Machine.execL1Fill
  split
  · exact h
  · split
    · exact FormedOut.ite h h.l1Room.l1Place.delReq
    · exact FormedOut.ite h h.l1Room.l1Place.setReq.noteRead
    · exact h

theorem Formed.noteServed {r : Req} (h : Formed s) : Formed (s.noteServed r) := by
  unfold State.noteServed
  refine h.foldl fun _ _ h' => ?_
  dsimp only
  split
  · exact Formed.ite h' (Formed.ite h'.noteRead h'.noteRead)
  · exact h'

theorem Formed.answered {r : Req} (h : Formed s) : Formed (s.answered r) :=
  (h.delReq.doneLane.foldl (fun _ _ h' => h'.foldl (fun _ _ h'' => h''.defer))).settle

theorem Formed.atomReply {r : Req} {sz : Sz} {d : Nat} {v w : Int} (h : Formed s) : Formed (s.atomReply r sz d v w) := by
  unfold State.atomReply
  exact Formed.ite ((Formed.ite h.dropCopies.putLoad.raiseRT h.dropCopies).ctxRT.answered) h

theorem Formed.tktPush {r : Req} {d : Nat} (h : Formed s) : Formed (s.tktPush r d) := by
  unfold State.tktPush
  exact Formed.ite h (h.portPush.foldl (fun _ _ h' => h'.answered))

theorem Formed.execLoadReply {id : Nat} (h : Formed s) : FormedOut (execLoadReply id s) := by
  unfold Machine.execLoadReply
  split
  · exact h
  · refine FormedOut.ite h ?_
    split
    · exact FormedOut.ite h h.noteServed.putLoad.answered
    · exact h.atomReply
    · exact h.atomReply
    · exact h.atomReply
    · exact h.finishLdb
    · exact FormedOut.ite h.tktPush h.putLoad.answered
    · exact h

theorem Formed.execWriteCompletion {id : Nat} (h : Formed s) : FormedOut (execWriteCompletion id s) := by
  unfold Machine.execWriteCompletion
  split
  · exact h
  · split
    · refine FormedOut.ite ?_ ?_
      · exact (Formed.foldl (by split; exacts [h, Formed.ite h.dropCopies h]) (fun _ _ h' => h'.raiseRT)).ctxRT.count.answered
      · exact (Formed.foldl (by split; exacts [h, Formed.ite h.dropCopies h]) (fun _ _ h' => h'.raiseRT)).ctxRT.answered
    · exact h

theorem Formed.execLeaseEnd {c : Nat} {line : Int} (h : Formed s) : FormedOut (execLeaseEnd c line s) := h.l1Clean
theorem Formed.execL1Eviction {c : Nat} {line : Int} (h : Formed s) : FormedOut (execL1Eviction c line s) := h.wbLine.setL1
theorem Formed.execL2Eviction {sec : Nat} (h : Formed s) : FormedOut (execL2Eviction sec s) := h.evictLine

theorem Formed.stvaStore {r : Req} {sz : Sz} {v w : Int} {late : Bool} (h : Formed s) : Formed (s.stvaStore r sz v w late) :=
  (h.touch.homePut.foldl (fun _ _ h' => h'.wrote)).reply

theorem Formed.execStvaArrival {id : Nat} (h : Formed s) : FormedOut (execStvaArrival id s) := by
  unfold Machine.execStvaArrival
  split
  · exact h
  · split
    · refine FormedOut.ite h ?_
      refine FormedOut.ite h.stvaStore ?_
      exact FormedOut.ite h.stvaStore (FormedOut.ite (h.setReq.later rfl rfl (Nat.le_succ _)) h.setReq)
    · exact h

theorem Formed.execStvaPerform {id : Nat} (h : Formed s) : FormedOut (execStvaPerform id s) := by
  unfold Machine.execStvaPerform
  split
  · exact h
  · split
    · exact FormedOut.ite h h.stvaStore
    · exact h

theorem Formed.execVellumWindowEnd {id : Nat} (h : Formed s) : FormedOut (execVellumWindowEnd id s) := by
  unfold Machine.execVellumWindowEnd
  exact FormedOut.ite h (h.foldl (fun _ _ h' => h'.setThread))

theorem Formed.execVwinAdvance {die : Nat} (h : Formed s) : FormedOut (execVwinAdvance die s) := by
  unfold Machine.execVwinAdvance
  exact FormedOut.ite h.setDie h

theorem Formed.execHairlineArrival {id : Nat} (h : Formed s) : FormedOut (execHairlineArrival id s) := by
  unfold Machine.execHairlineArrival
  split
  · exact h
  · exact FormedOut.ite h.setReq h

theorem Formed.bestEffort {r : Req} (h : Formed s) : Formed (s.bestEffort r) := by
  unfold State.bestEffort
  dsimp only
  split
  · exact h.count.setReq.retireReq
  · exact h.delReq
  · exact h.delReq
  · exact h.count.setReq
  · exact h.count.setReq
  · exact h.setReq.retireReq
  · exact h.setReq.retireReq
  · exact h.setReq.retireReq
  · exact h.setReq.retireReq
  · exact h.setReq.retireReq
  · exact h.delReq.retireReq
  · exact h.delReq.retireReq
  · exact h.count.finishLdb
  · exact h.count.setReq
  · exact h.setReq
  · exact h.count.setReq
  · exact h.count.delReq.doneLane.defer.retireReq

theorem Formed.execHairlineUndeliverable {id : Nat} (h : Formed s) : FormedOut (execHairlineUndeliverable id s) := by
  unfold Machine.execHairlineUndeliverable
  split
  · exact h
  · exact FormedOut.ite h.bestEffort h

theorem Formed.execSoftError {store key : Nat} {fatal : Bool} (h : Formed s) : FormedOut (execSoftError store key fatal s) := by
  unfold Machine.execSoftError
  refine FormedOut.ite h ?_
  refine FormedOut.ite (h.other rfl) ?_
  refine FormedOut.ite h.l1Clean ?_
  refine FormedOut.ite h.setCore ?_
  refine FormedOut.ite (FormedOut.ite h h.setReg.count.defer.settle) ?_
  refine FormedOut.ite (FormedOut.ite h h.setPred.count.defer.settle) ?_
  refine FormedOut.ite h.setSec ?_
  refine FormedOut.ite ?_ ?_
  · dsimp only
    split
    · exact h
    · exact h.setCore.count.defer.settle
  · refine FormedOut.ite ?_ h
    dsimp only
    split
    · exact h
    · exact h.setCore

end Sys2Proof.Machine
end

