-- ==== Sys2Proof/Proofs/FormSync.lean ====
section
/-! The form of a state under fences, barriers, messages, drafts, fetches and control (R240-R282). -/

namespace Sys2Proof.Machine

variable {s : State}

theorem Formed.execFence {hd : Hdr} {o : Acc} (h : Formed s) : FormedOut (execFence hd o s) := by
  unfold Machine.execFence
  refine h.issue fun _ _ h' => ?_
  dsimp only
  split
  · rename_i heq
    exact (h'.fenceStart.of_fst heq).retireAll
  · rename_i heq
    exact (h'.fenceStart.of_fst heq).fenceWait

theorem Formed.execFenceComplete {w : Nat} (h : Formed s) : FormedOut (execFenceComplete w s) := by
  unfold Machine.execFenceComplete
  split
  · exact h
  · dsimp only
    split
    · exact FormedOut.ite h (h.fenceRun.foldl (fun _ _ h' => h'.setThread))
    · refine FormedOut.ite ((h.fenceRun.setWarp.foldl (fun _ _ h' => h'.endWait)).stepTrap.settle) ?_
      exact (h.fenceRun.setWarp.foldl (fun _ _ h' => h'.setThread)).settle

theorem Formed.execTnow {hd : Hdr} {d : Nat} (h : Formed s) : FormedOut (execTnow hd d s) := h.perLane

theorem Formed.execTwait {hd : Hdr} {t : When} {scope : Scope} {imm : Int} (h : Formed s) : FormedOut (execTwait hd t scope imm s) :=
  h.issue (fun _ _ h' => h'.foldl (fun _ _ h'' => Formed.ite h''.retire h''.setThread.waitLane))

theorem Formed.execTimedWaitDeadline {t : Nat} (h : Formed s) : FormedOut (execTimedWaitDeadline t s) := by
  unfold Machine.execTimedWaitDeadline
  exact FormedOut.ite h ((h.foldl (fun _ _ h' => Formed.ite h'.endWait h'.setThread)).stepTrap.settle)

theorem Formed.execTalarm {hd : Hdr} {t : When} {a : Nat} {imm : Int} (h : Formed s) : FormedOut (execTalarm hd t a imm s) := by
  unfold Machine.execTalarm
  refine h.issue fun _ _ h' => ?_
  refine Formed.ite ((h'.foldl (fun _ _ h'' => h''.setThread)).waitAll) ?_
  exact h'.laneSteps (fun _ _ _ h'' => h''.setCore.retire)

theorem Formed.execAlarmDue {c : Nat} (h : Formed s) : FormedOut (execAlarmDue c s) := by
  unfold Machine.execAlarmDue
  dsimp only
  split
  · exact h
  · exact FormedOut.ite h h.setCore.setPort

theorem Formed.execQstat {hd : Hdr} {d a : Nat} (h : Formed s) : FormedOut (execQstat hd d a s) := h.perLane

theorem Formed.execQueueServe {w : Nat} (h : Formed s) : FormedOut (execQueueServe w s) :=
  h.foldl (fun _ _ h' => by dsimp only; split <;> exact h'.setThread)

theorem Formed.setBar {l : Level} {key k : Nat} {b : Bar} (h : Formed s) : Formed (s.setBar l key k b) := by
  unfold State.setBar
  exact Formed.ite h.setCore (h.other rfl)

theorem Formed.noteArr {w : Nat} {l : Level} {k : Nat} (h : Formed s) : Formed (s.noteArr w l k) := by
  unfold State.noteArr
  exact Formed.ite h h.setBar

theorem Formed.noteExit {w : Nat} (h : Formed s) : Formed (s.noteExit w) :=
  h.foldl (fun _ _ h' => Formed.ite h' (h'.foldl (fun _ _ h'' => h''.noteArr)))

theorem Formed.noteInPhase {ctx : Nat} {l : Level} {key k : Nat} (h : Formed s) : Formed (s.noteInPhase ctx l key k) := h.setBar
theorem Formed.closePhase {t : Nat} (h : Formed s) : Formed (s.closePhase t) := h.setCtx

theorem Formed.arrive {t : Nat} {l : Level} {k : Nat} {bv : Option (AOp × Nat)} {src dst : Int} (h : Formed s) :
    Formed (s.arrive t l k bv src dst) := by
  unfold State.arrive
  exact Formed.ite h.setWarp (Formed.ite h.setBar.noteArr.noteInPhase.closePhase h.setBar.noteArr)

theorem Formed.barUnit {hd : Hdr} {u : Uses} {l : Level} {k : Nat} {rlx : Bool} {go : List Nat → State → State}
    (h : Formed s) (hgo : ∀ x0 x1, Formed x1 → Formed (go x0 x1)) : Formed (s.barUnit hd u l k rlx go) := by
  unfold State.barUnit
  refine h.issue fun _ _ h' => ?_
  refine Formed.ite h'.faultAll ?_
  refine Formed.ite (Formed.ite h'.waitAll (hgo _ _ h'.waitAll)) ?_
  exact h'.afterFence (fun _ h'' => Formed.ite h''.waitAll (hgo _ _ h''.waitAll))

theorem Formed.execBar {hd : Hdr} {l : Level} {k : Nat} {rlx : Bool} (h : Formed s) : FormedOut (execBar hd l k rlx s) :=
  h.barUnit (fun _ _ h' => h'.foldl (fun _ _ h'' => h''.arrive.waitLane))

theorem Formed.execBara {hd : Hdr} {l : Level} {k : Nat} {rlx : Bool} {d : Nat} (h : Formed s) : FormedOut (execBara hd l k rlx d s) :=
  h.barUnit (fun _ _ h' => h'.laneSteps (fun _ _ _ h'' => h''.arrive.retire.applyWr))

theorem Formed.execBarw {hd : Hdr} {l : Level} {k : Nat} {rlx : Bool} {a : Nat} (h : Formed s) : FormedOut (execBarw hd l k rlx a s) := by
  unfold Machine.execBarw
  refine h.issue fun _ _ h' => ?_
  refine Formed.ite h'.faultAll ?_
  refine Formed.ite h'.waitAll ?_
  exact h'.laneSteps (fun _ _ _ h'' => Formed.ite h''.waitLane (Formed.ite h''.retire h''.waitLane))

theorem Formed.execBarv {hd : Hdr} {l : Level} {k : Nat} {rlx : Bool} {op : AOp} {a b : Nat} {n : Int} (h : Formed s) :
    FormedOut (execBarv hd l k rlx op a b n s) := by
  unfold Machine.execBarv
  refine h.barUnit fun _ _ h' => ?_
  dsimp only
  split
  · exact h'.faultAll
  · exact h'.waitAll
  · split
    · exact h'.faultAll
    · exact h'.readFields.foldl (fun _ _ h'' => h''.arrive.waitLane)

theorem Formed.putVec {c : Nat} {a : Int} {v : List Int} (h : Formed s) : Formed (s.putVec c a v) := h.foldl (fun _ _ h' => h'.setScrWord)

theorem Formed.releaseBar {l : Level} {key k : Nat} {phase : Int} {ok : Bool} (h : Formed s) : Formed (s.releaseBar l key k phase ok) := by
  unfold State.releaseBar
  refine (h.foldl (fun _ _ h' => by dsimp only; split; exacts [Formed.ite h'.setThread.raise h'.endWait.stepTrap, h'.setThread])).foldl fun _ _ h' => ?_
  exact h'.settle

theorem Formed.execBarrierPhaseComplete {l : Level} {key k : Nat} (h : Formed s) : FormedOut (execBarrierPhaseComplete l key k s) := by
  unfold Machine.execBarrierPhaseComplete
  split
  · exact FormedOut.ite h h.setWarp.releaseBar
  · refine FormedOut.ite h ?_
    exact (h.setBar.foldl (fun _ _ h' => by split; exacts [(by split; exacts [h'.putVec, h']), h'.setCtx])).releaseBar

theorem Formed.execBarrierSignal {key k : Nat} {n : Arrivals} {op : Option (AOp × Nat)} {part : List Int} (h : Formed s) :
    FormedOut (execBarrierSignal key k n op part s) := h.setBar

theorem Formed.send {t bid : Nat} {v : Int} (h : Formed s) : Formed (s.send t bid v) := h.addReq

theorem Formed.execMsg {hd : Hdr} {rlx : Bool} {a b : Nat} {nb : Option Nat} (h : Formed s) : FormedOut (execMsg hd rlx a b nb s) := by
  unfold Machine.execMsg
  refine h.issue fun _ _ h' => ?_
  dsimp only
  split
  · exact h'.faultAll
  · exact h'.waitAll
  · refine Formed.ite h'.waitAll ?_
    refine Formed.ite ?_ ?_
    · split
      · refine h'.readFields.foldl fun _ _ h'' => ?_
        split
        · exact h''.retire.setPred
        · exact h''.retire.setPred
        · exact Formed.ite h''.retire.send.setPred h''.retire.setPred
      · exact (h'.readFields.foldl (fun _ _ h'' => h''.send.retire)).raiseAll
    · refine h'.afterFence fun _ h'' => ?_
      split
      · refine h''.readFields.foldl fun _ _ h₃ => ?_
        split
        · exact h₃.retire.setPred
        · exact h₃.retire.setPred
        · exact Formed.ite h₃.retire.send.setPred h₃.retire.setPred
      · exact (h''.readFields.foldl (fun _ _ h₃ => h₃.send.retire)).raiseAll

theorem Formed.execMessageArrival {id : Nat} (h : Formed s) : FormedOut (execMessageArrival id s) := by
  unfold Machine.execMessageArrival
  split
  · exact h
  · split
    · refine FormedOut.ite h ?_
      dsimp only
      split
      · exact FormedOut.ite h h.delReq.setPort
      · exact FormedOut.ite h h.delReq.setCtx
      · exact h.delReq
    · exact h

theorem Formed.execDraft {hd : Hdr} {imm : Int} (h : Formed s) : FormedOut (execDraft hd imm s) := by
  unfold Machine.execDraft
  refine FormedOut.ite h ?_
  refine h.issue fun _ _ h' => ?_
  refine Formed.ite ?_ (Formed.ite h'.retireAll (Formed.ite h'.setWarp.retireAll h'.retireAll.abort))
  refine Formed.ite (h'.foldl (fun _ _ h'' => h''.retire.setThread)) ?_
  exact (h'.setWarp.foldl (fun _ _ h'' => h''.setThread)).retireAll

theorem Formed.draftScr {w : Nat} (h : Formed s) : Formed (s.draftScr w) := h.foldl (fun _ _ h' => h'.setScr)

theorem Formed.draftEnd {w : Nat} (h : Formed s) : Formed (s.draftEnd w) :=
  (h.draftScr.setCore.setWarp.foldl (fun _ _ h' => h'.endWait)).stepTrap.settle

theorem Formed.draftSend {w : Nat} (h : Formed s) : Formed (s.draftSend w) := by
  unfold State.draftSend
  exact Formed.ite h (Formed.ite h.draftEnd ((h.foldl (fun _ _ h' => h'.addReq)).setWarp))

theorem Formed.execInk {hd : Hdr} (h : Formed s) : FormedOut (execInk hd s) := by
  unfold Machine.execInk
  refine h.issue fun _ _ h' => ?_
  exact Formed.ite h'.retireAll (Formed.ite h'.setWarp.retireAll h'.retireAll.waitAll.setWarp.draftSend)

theorem Formed.execDraftPrepare {id : Nat} (h : Formed s) : FormedOut (execDraftPrepare id s) := by
  unfold Machine.execDraftPrepare
  split
  · exact h
  · split
    · refine FormedOut.ite h ?_
      dsimp only
      split
      · exact h.translate.reply
      · exact FormedOut.ite h.translate.reply h.translate.setHline.reply
    · exact h

theorem Formed.supersede {w : Nat} (h : Formed s) : Formed (s.supersede w) :=
  (h.mapReqs fun r => by split; exacts [id_ite rfl rfl, rfl]).foldl fun _ _ h' => h'.setL1.dropCopies

theorem Formed.inkAt {w : Nat} (h : Formed s) : Formed (s.inkAt w) := by
  unfold State.inkAt
  split
  · exact Formed.ite h h.supersede.raiseRT.draftEnd
  · exact h

theorem Formed.execDraftDecision {w : Nat} (h : Formed s) : FormedOut (execDraftDecision w s) := by
  unfold Machine.execDraftDecision
  dsimp only
  split
  · exact h.draftSend
  · exact h
  · refine FormedOut.ite h ?_
    refine FormedOut.ite h.abort.settle ?_
    refine FormedOut.ite h.count.abort.settle ?_
    exact (h.foldl (fun _ _ h' => by split; exacts [h'.delReq.addReq, h'.delReq])).setWarp.inkAt

theorem Formed.execDraftCommitArrival {id : Nat} (h : Formed s) : FormedOut (execDraftCommitArrival id s) := by
  unfold Machine.execDraftCommitArrival
  split
  · exact h
  · split
    · exact FormedOut.ite h h.touch.homePut.wrote.setHline.reply
    · exact h

theorem Formed.execInkRetire {w : Nat} (h : Formed s) : FormedOut (execInkRetire w s) := h.inkAt

theorem Formed.execErase {hd : Hdr} {code : Int} (h : Formed s) : FormedOut (execErase hd code s) :=
  h.issue (fun _ _ h' => Formed.ite h'.retireAll h'.retireAll.rollback)

theorem Formed.execDstat {hd : Hdr} {d : Nat} (h : Formed s) : FormedOut (execDstat hd d s) := h.perLane
theorem Formed.icPlace {c : Nat} {line : Int} {units : List Int} (h : Formed s) : Formed (s.icPlace c line units) := h.setCore.other rfl

theorem Formed.touchLine {c : Nat} {line : Int} (h : Formed s) : Formed (s.touchLine c line) := by
  unfold State.touchLine
  split
  · exact h.setCore.other rfl
  · exact h

theorem Formed.askLine {w : Nat} {lanes : List Nat} {pc line : Int} (h : Formed s) : Formed (s.askLine w lanes pc line) :=
  Formed.addReq (Formed.foldl (h.other rfl) (fun _ _ h' => h'.setThread))

theorem Formed.calltEnd {t d : Nat} {sig pc next e : Int} (h : Formed s) : Formed (s.calltEnd t d sig pc next e) := by
  unfold State.calltEnd
  exact Formed.ite h.raise (Formed.ite h.raise h.retire.setPair)

theorem Formed.codeEnd {units : List Int} {causes : List Nat} {r : Req} (h : Formed s) : Formed (s.codeEnd units causes r) := by
  unfold State.codeEnd
  dsimp only
  split
  · exact (h.delReq.unbusy.foldl (fun _ _ h' => h'.foldl (fun _ _ h'' => h''.defer))).settle
  · exact (h.delReq.unbusy.foldl (fun _ _ h' => h'.foldl (fun _ _ h'' => h''.defer))).calltEnd.stepTrap.settle
  · exact h.delReq

theorem Formed.execInstructionFetchFill {id : Nat} (h : Formed s) : FormedOut (execInstructionFetchFill id s) := by
  unfold Machine.execInstructionFetchFill
  split
  · exact h
  · split
    · refine FormedOut.ite h ?_
      refine FormedOut.ite h.delReq ?_
      refine FormedOut.ite h.setReq ?_
      exact h.icPlace.codeEnd.foldl (fun _ _ h' => by split; exacts [h'.codeEnd, h'])
    · exact h

theorem Formed.execIcpf {hd : Hdr} {cnt : Nat} {imm : Int} (h : Formed s) : FormedOut (execIcpf hd cnt imm s) :=
  h.issue (fun _ _ h' => (h'.foldl (fun _ _ h'' => Formed.ite h'' h''.addReq)).retireAll)

theorem Formed.execIfence {hd : Hdr} (h : Formed s) : FormedOut (execIfence hd s) :=
  h.issue (fun _ _ h' => Formed.ite h'.setWarp.retireAll h'.setWarp.fenceWait)

theorem Formed.dropCode {c : Nat} {p : Int → Bool} (h : Formed s) : Formed (s.dropCode c p) := h.mapReqs fun _ => id_ite rfl rfl

theorem Formed.execIcinv {hd : Hdr} {imm : Int} (h : Formed s) : FormedOut (execIcinv hd imm s) :=
  h.issue (fun _ _ h' => h'.setCore.dropCode.retireAll)

theorem Formed.execIcinvAll {hd : Hdr} (h : Formed s) : FormedOut (execIcinvAll hd s) := h.issue (fun _ _ h' => h'.setCore.dropCode.retireAll)
theorem Formed.execBr {hd : Hdr} {imm : Int} (h : Formed s) : FormedOut (execBr hd imm s) := h.perLane
theorem Formed.execCall {hd : Hdr} {d : Nat} {imm : Int} (h : Formed s) : FormedOut (execCall hd d imm s) := h.perLane
theorem Formed.execRet {hd : Hdr} {a : Nat} (h : Formed s) : FormedOut (execRet hd a s) := h.perLane

theorem Formed.execCallt {hd : Hdr} {d a : Nat} {sig : Int} (h : Formed s) : FormedOut (execCallt hd d a sig s) := by
  unfold Machine.execCallt
  refine h.issue fun _ _ h' => ?_
  refine h'.freeLanes fun _ _ _ h'' => ?_
  refine Formed.ite h''.raise ?_
  refine Formed.ite h''.raise ?_
  split
  · exact h''.touchLine.calltEnd
  · exact h''.addReq.await

theorem Formed.execSetmr {hd : Hdr} {imm : Int} (h : Formed s) : FormedOut (execSetmr hd imm s) := h.perLane
theorem Formed.execSetmrClr {hd : Hdr} (h : Formed s) : FormedOut (execSetmrClr hd s) := h.perLane
theorem Formed.execMovmrGet {hd : Hdr} {d : Nat} (h : Formed s) : FormedOut (execMovmrGet hd d s) := h.perLane
theorem Formed.execMovmrPut {hd : Hdr} {a : Nat} (h : Formed s) : FormedOut (execMovmrPut hd a s) := h.perLane

theorem Formed.execExit {hd : Hdr} (h : Formed s) : FormedOut (execExit hd s) := by
  unfold Machine.execExit
  refine h.issue fun _ _ h' => ?_
  refine Formed.ite ((h'.foldl (fun _ _ h'' => h''.endThread)).noteExit.leave) ?_
  exact (h'.foldl (fun _ _ h'' => h''.endThread)).noteExit

theorem Formed.execBrk {hd : Hdr} {code : Int} (h : Formed s) : FormedOut (execBrk hd code s) := h.issue (fun _ _ h' => h'.raiseAll)
theorem Formed.execTrap {hd : Hdr} {code : Int} (h : Formed s) : FormedOut (execTrap hd code s) := h.issue (fun _ _ h' => h'.retireAll.raiseAll)
theorem Formed.execYld {hd : Hdr} (h : Formed s) : FormedOut (execYld hd s) := h.issue (fun _ _ h' => h'.setWarp.retireAll)
theorem Formed.execNop {hd : Hdr} (h : Formed s) : FormedOut (execNop hd s) := h.issue (fun _ _ h' => h'.retireAll)
theorem Formed.execHint {_raw : Int} (h : Formed s) : FormedOut (execHint _raw s) := h.started.retireAll.stepTrap.settle
theorem Formed.execCvt {hd : Hdr} {t3 isSat : Bool} {ty : IntTy} {d a : Nat} (h : Formed s) : FormedOut (execCvt hd t3 isSat ty d a s) := h.perLane

theorem Formed.execCvtf {hd : Hdr} {isSat : Bool} {ty dty : CvtTy} {d a : Nat} (h : Formed s) : FormedOut (execCvtf hd isSat ty dty d a s) :=
  h.perLane

theorem Formed.execRng {hd : Hdr} {d a b : Nat} (h : Formed s) : FormedOut (execRng hd d a b s) := h.perLane

theorem Formed.execSpawn {hd : Hdr} {a b : Nat} {imm : Int} (h : Formed s) : FormedOut (execSpawn hd a b imm s) := by
  unfold Machine.execSpawn
  refine h.issue fun _ _ h' => ?_
  refine Formed.ite h'.faultAll ?_
  refine Formed.ite h'.faultAll ?_
  split
  · exact h'.faultAll
  · exact h'.waitAll
  · split
    · exact h'.setCore.waitAll
    · exact (Formed.ite h' h'.readFields.setCore).retireAll.waitAll

theorem Formed.execSpawnBinTimer {c b : Nat} (h : Formed s) : FormedOut (execSpawnBinTimer c b s) := by
  unfold Machine.execSpawnBinTimer
  dsimp only
  split
  · exact FormedOut.ite h.setCore h
  · exact h

theorem Formed.createWarp {c b : Nat} (h : Formed s) : Formed (s.createWarp c b) := by
  unfold State.createWarp
  dsimp only
  split
  · exact h
  · exact h.setWarp.setCore.foldl (fun _ _ h' => h'.setThread)

theorem Formed.loseRegs {w n : Nat} (h : Formed s) : Formed (s.loseRegs w n) :=
  (Formed.ite h h.setWarp).foldl (fun _ _ h' => by split; exacts [h'.setThread, h'])

theorem Formed.grantHead {c : Nat} (h : Formed s) : Formed (s.grantHead c) := by
  unfold State.grantHead
  dsimp only
  split
  · exact h
  · refine Formed.ite h ?_
    split
    · refine Formed.ite ((h.setCore.foldl (fun _ _ h' => h'.setThread.raise)).settle) ?_
      exact (h.setCore.loseRegs.setWarp.foldl (fun _ _ h' => h'.endWait)).stepTrap.settle
    · exact h.setCore.createWarp
    · exact (h.setCore.foldl (fun _ _ h' => h'.setThread)).setCore

theorem Formed.grantAll {c n : Nat} (h : Formed s) : Formed (s.grantAll c n) := by
  induction n generalizing s with
  | zero => exact h
  | succ n ih => exact ih h.grantHead

theorem Formed.regrant {c : Nat} (h : Formed s) : Formed (s.regrant c) := h.grantAll
theorem Formed.execClaimGrant {c : Nat} (h : Formed s) : FormedOut (execClaimGrant c s) := h.grantHead
theorem Formed.claim {c : Nat} {q : Claim} (h : Formed s) : Formed (s.claim c q) := h.setCore.regrant

theorem Formed.execSpawnWarpCreate {c b : Nat} (h : Formed s) : FormedOut (execSpawnWarpCreate c b s) := by
  unfold Machine.execSpawnWarpCreate
  dsimp only
  split
  · exact FormedOut.ite h h.setCore.claim
  · exact h

theorem Formed.execRclaim {hd : Hdr} {g : Int} (h : Formed s) : FormedOut (execRclaim hd g s) :=
  h.issue (fun _ _ h' => Formed.ite h'.faultAll h'.waitAll.claim)

theorem Formed.execRgive {hd : Hdr} {g : Int} (h : Formed s) : FormedOut (execRgive hd g s) := by
  unfold Machine.execRgive
  exact FormedOut.ite h (h.issue (fun _ _ h' => Formed.ite h'.faultAll h'.setWarp.loseRegs.retireAll.regrant))

theorem Formed.execWait {hd : Hdr} {bld bst bcp btl : Nat} (h : Formed s) : FormedOut (execWait hd bld bst bcp btl s) :=
  h.issue (fun _ _ h' => Formed.ite (Formed.ite h'.raiseRT h').retireAll h'.waitAll)

end Sys2Proof.Machine
end

