-- ==== Sys2Proof/Proofs/FormEngines.lean ====
section
/-! The form of a state under the Nib, copies, phases, the Scribe, privileged forms and video decode (R286-R351, R395-R408). -/

namespace Sys2Proof.Machine

variable {s : State}

theorem Formed.setFolio {c f : Nat} {x : Folio} (h : Formed s) : Formed (s.setFolio c f x) := h.setCore
theorem Formed.setRing {c r : Nat} {x : Ring} (h : Formed s) : Formed (s.setRing c r x) := h.setCore
theorem Formed.folioSt {c f st : Nat} (h : Formed s) : Formed (s.folioSt c f st) := h.setFolio

theorem Formed.folioReady {c f : Nat} {stag : Int} {nz : List Nat} (h : Formed s) : Formed (s.folioReady c f stag nz) := by
  unfold State.folioReady
  dsimp only
  split
  · exact h.setFolio.setRing
  · exact h.setFolio

theorem Formed.folioDone {c f : Nat} (h : Formed s) : Formed (s.folioDone c f) := by
  unfold State.folioDone
  dsimp only
  split
  · exact h.folioSt.setRing
  · exact h.folioSt

theorem Formed.writeFolio {c f : Nat} {ys : List Int} (h : Formed s) : Formed (s.writeFolio c f ys) := h.foldl (fun _ _ h' => h'.setScrWord)
theorem Formed.setSlot {c k : Nat} {x : Slot} (h : Formed s) : Formed (s.setSlot c k x) := h.setCore

theorem Formed.nibUnit {hd : Hdr} {u : Uses} {g : List Nat → Nat → State → State}
    (h : Formed s) (hg : ∀ x0 x1 x2, Formed x2 → Formed (g x0 x1 x2)) : Formed (s.nibUnit hd u g) := h.perGroup hg

theorem Formed.scaleAt {t : Nat} {bad : Bool} (h : Formed s) : Formed (s.scaleAt t bad) := by
  unfold State.scaleAt
  exact Formed.ite h.raise h

theorem Formed.execMcfg {hd : Hdr} {a : Nat} {g : CfgOp} (h : Formed s) : FormedOut (execMcfg hd a g s) :=
  h.nibUnit (fun _ _ _ h' => h'.setSlot.retireAll.scaleAt)

theorem Formed.execRing {hd : Hdr} {r first count : Nat} (h : Formed s) : FormedOut (execRing hd r first count s) := by
  unfold Machine.execRing
  refine h.nibUnit fun _ _ _ h' => ?_
  refine Formed.ite h'.faultAll ?_
  exact ((h'.foldl (fun _ _ h'' => h''.setFolio)).foldl (fun _ _ h'' => h''.setFolio)).setRing.retireAll

theorem Formed.execFstat {hd : Hdr} {wsel d a : Nat} {off : Int} (h : Formed s) : FormedOut (execFstat hd wsel d a off s) := h.perLane

theorem Formed.fset {c f : Nat} {ready : Bool} (h : Formed s) : ∀ t, s.fset c f ready = some t → Formed t := by
  unfold State.fset
  dsimp only
  split
  · refine formed_of_ite ?_ ?_
    · exact formed_of_some h.folioSt.setRing
    · exact formed_of_none
  · refine formed_of_ite ?_ ?_
    · exact formed_of_some h.folioSt.setRing
    · exact formed_of_none
  · refine formed_of_ite ?_ ?_
    · exact formed_of_some h.folioSt
    · exact formed_of_none
  · refine formed_of_ite ?_ ?_
    · exact formed_of_some h.folioSt
    · exact formed_of_none

theorem Formed.fsetUnit {hd : Hdr} {u : Uses} {a : Nat} {off : Int} {ready full : Bool} {tag : State → Nat → Option Int} (h : Formed s) :
    Formed (s.fsetUnit hd u a off ready full tag) := by
  unfold State.fsetUnit
  refine h.nibUnit fun _ _ _ h' => ?_
  refine Formed.ite h'.faultAll ?_
  split
  · exact h'.faultAll
  · rename_i heq
    exact (h'.fset _ heq).setFolio.retireAll

theorem Formed.execFsetReady {hd : Hdr} {full : Bool} {a b : Nat} {off : Int} (h : Formed s) : FormedOut (execFsetReady hd full a b off s) :=
  h.fsetUnit

theorem Formed.execFsetEmpty {hd : Hdr} {full : Bool} {a : Nat} {off : Int} (h : Formed s) : FormedOut (execFsetEmpty hd full a off s) := h.fsetUnit
theorem Formed.execMrdy {hd : Hdr} (h : Formed s) : FormedOut (execMrdy hd s) := h.nibUnit (fun _ _ _ h' => h'.retireAll)
theorem Formed.execMbudg {hd : Hdr} {d : Nat} (h : Formed s) : FormedOut (execMbudg hd d s) := h.perLane

theorem Formed.nibPush {w : Nat} {lanes : List Nat} {slot : Nat} {op : NibOp} {tok : Option Int} {counted soft : Bool} (h : Formed s) :
    Formed (s.nibPush w lanes slot op tok counted soft) := by
  refine Formed.setCore ?_
  split
  · exact h.openGrp
  · exact h.later rfl rfl (Nat.le_succ _)

theorem Formed.nibWait {act : List Nat} (h : Formed s) : ∀ t, s.nibWait act = some t → Formed t := by
  unfold State.nibWait
  refine formed_of_ite ?_ ?_
  · exact formed_of_some h.waitAll
  · refine formed_of_ite ?_ ?_
    · exact formed_of_some h.waitAll
    · exact formed_of_none

theorem Formed.execMzero {hd : Hdr} {slot : Nat} (h : Formed s) : FormedOut (execMzero hd slot s) :=
  h.nibUnit (fun _ _ _ h' => Formed.ite h'.waitAll h'.nibPush.retireAll)

theorem Formed.execMloop {hd : Hdr} {bhold tok : Bool} {a slot ra rb kc : Nat} (h : Formed s) :
    FormedOut (execMloop hd bhold tok a slot ra rb kc s) := by
  unfold Machine.execMloop
  refine h.nibUnit fun _ _ _ h' => ?_
  refine Formed.ite h'.faultAll ?_
  refine Formed.ite h'.faultAll ?_
  refine Formed.ite h'.faultAll ?_
  split
  · rename_i heq
    exact (h'.nibWait _ heq)
  · exact h'.nibPush.retireAll

theorem Formed.execMdrain {hd : Hdr} {o : DrainOp} (h : Formed s) : FormedOut (execMdrain hd o s) := by
  unfold Machine.execMdrain
  refine h.nibUnit fun _ _ _ h' => ?_
  refine Formed.ite h'.faultAll ?_
  refine Formed.ite h'.faultAll ?_
  split
  · rename_i heq
    exact (h'.nibWait _ heq)
  · exact h'.nibPush.retireAll.scaleAt

theorem Formed.execQscale {hd : Hdr} {tok : Bool} {d c slot : Nat} (h : Formed s) : FormedOut (execQscale hd tok d c slot s) := by
  unfold Machine.execQscale
  refine h.nibUnit fun _ _ _ h' => ?_
  refine Formed.ite h'.faultAll ?_
  split
  · rename_i heq
    exact (h'.nibWait _ heq)
  · exact h'.nibPush.retireAll.scaleAt

theorem Formed.execFitr {hd : Hdr} {clr : Bool} {d slot : Nat} (h : Formed s) : FormedOut (execFitr hd clr d slot s) :=
  h.nibUnit (fun _ _ _ h' => Formed.ite h'.waitAll h'.nibPush.waitAll)

theorem Formed.setCmd {c : Nat} {x : NibCmd} (h : Formed s) : Formed (s.setCmd c x) := h.setCore

theorem Formed.execNibStepStart {c : Nat} (h : Formed s) : FormedOut (execNibStepStart c s) := by
  unfold Machine.execNibStepStart
  split
  · exact ((h.foldl (fun _ _ h' => h'.folioSt)).foldl (fun _ _ h' => h'.folioSt)).setCmd
  · exact h
  · dsimp only
    split
    · exact ((h.setDie.foldl (fun _ _ h' => h'.folioSt)).foldl (fun _ _ h' => h'.folioSt)).setCmd
    · exact h.setDie.setCmd

theorem Formed.endCmd {c : Nat} {x : NibCmd} (h : Formed s) : Formed (s.endCmd c x) :=
  (h.later (t := { s with nextId := s.nextId + 1 }) rfl rfl (Nat.le_succ _)).setCmd

theorem Formed.healAcc {c k : Nat} (h : Formed s) : Formed (s.healAcc c k) := h.other rfl

theorem Formed.nibData {c : Nat} {x : NibCmd} {hit : Bool} (h : Formed s) : Formed (s.nibData c x hit).1 := by
  unfold State.nibData
  exact Formed.ite_fst h (h.count.foldl (fun _ _ h' => h'.defer))

theorem Formed.execNibStepComplete {c : Nat} (h : Formed s) : FormedOut (execNibStepComplete c s) := by
  unfold Machine.execNibStepComplete
  split
  · exact h
  · split
    · refine Formed.ite ?_ ?_
      · exact (Formed.ite h.nibData.setSlot.healAcc.folioDone.folioDone h.nibData.setSlot.healAcc.folioDone).endCmd
      · exact (Formed.ite h.nibData.setSlot.healAcc.folioDone.folioDone h.nibData.setSlot.healAcc.folioDone).setCmd
    · exact h

theorem Formed.execNibZeroPerform {c : Nat} (h : Formed s) : FormedOut (execNibZeroPerform c s) := by
  unfold Machine.execNibZeroPerform
  split
  · exact h
  · exact h.setSlot.healAcc.setCore

theorem Formed.execNibDrainComplete {c : Nat} (h : Formed s) : FormedOut (execNibDrainComplete c s) := by
  unfold Machine.execNibDrainComplete
  split
  · exact h
  · split
    · exact ((Formed.ite h.nibData.writeFolio.setSlot.healAcc h.nibData.writeFolio.setSlot).folioReady.foldl (fun _ _ h' => h'.folioDone)).endCmd
    · exact h

theorem Formed.execNibQscaleComplete {c : Nat} (h : Formed s) : FormedOut (execNibQscaleComplete c s) := by
  unfold Machine.execNibQscaleComplete
  split
  · exact h
  · split
    · exact (h.nibData.foldl (fun _ _ h' => Formed.ite h' h'.setReg.setPred)).endCmd.settle
    · exact h

theorem Formed.execNibCommandComplete {c : Nat} (h : Formed s) : FormedOut (execNibCommandComplete c s) := by
  unfold Machine.execNibCommandComplete
  dsimp only
  split
  · exact Formed.settle (by split; exacts [h.setCore.doneLane.setPort, h.setCore.doneLane])
  · split
    · split
      · exact (h.setCore.setSlot.foldl (fun _ _ h' => Formed.ite h'.endWait.setReg h')).stepTrap.settle
      · exact h
    · exact h

theorem Formed.execBudgetRefill {die : Nat} (h : Formed s) : FormedOut (execBudgetRefill die s) := by
  unfold Machine.execBudgetRefill
  exact FormedOut.ite h (h.setDie.foldl (fun _ _ h' => h'.foldl (fun _ _ h'' => h''.setCmd)))

theorem Formed.copyUnit {hd : Hdr} {u : Uses} {k : State → Nat → Copy → Issue} (h : Formed s) : Formed (s.copyUnit hd u k) := by
  unfold State.copyUnit
  refine h.perGroup fun _ _ _ h' => ?_
  dsimp only
  split
  · exact h'.faultAll
  · exact Formed.ite h'.waitAll (Formed.ite h'.waitAll h'.openGrp.setCore.retireAll)

theorem Formed.execCpy {hd : Hdr} {o : CpOpt} {d a b : Nat} (h : Formed s) : FormedOut (execCpy hd o d a b s) := h.copyUnit
theorem Formed.execCpys {hd : Hdr} {o : CpOpt} {d a c : Nat} (h : Formed s) : FormedOut (execCpys hd o d a c s) := h.copyUnit
theorem Formed.execCpyg {hd : Hdr} {o : CpOpt} {d a b c : Nat} (h : Formed s) : FormedOut (execCpyg hd o d a b c s) := h.copyUnit
theorem Formed.execCpyx {hd : Hdr} {o : CpOpt} {d a b c : Nat} (h : Formed s) : FormedOut (execCpyx hd o d a b c s) := h.copyUnit
theorem Formed.execCpyc {hd : Hdr} {tok : Bool} {tag : Int} {d a b : Nat} (h : Formed s) : FormedOut (execCpyc hd tok tag d a b s) := h.copyUnit
theorem Formed.execCpyv {hd : Hdr} {tok : Bool} {tag : Int} {d a b : Nat} (h : Formed s) : FormedOut (execCpyv hd tok tag d a b s) := h.copyUnit

theorem Formed.copyAt {c ctx : Nat} {tern : Bool} {k : CUse} {n : Nat} {ea : Int} (h : Formed s) : Formed (s.copyAt c ctx tern k n ea).1 := by
  unfold State.copyAt
  dsimp only
  split
  · refine Formed.ite_fst h ?_
    refine Formed.ite_fst h ?_
    refine Formed.ite_fst h ?_
    split
    · exact Formed.ite_fst h (Formed.ite_fst h (Formed.ite_fst h (Formed.ite_fst h h)))
    · refine Formed.ite_fst h ?_
      split
      · exact h.translate
      · exact Formed.ite_fst h.translate (Formed.ite_fst h.translate (Formed.ite_fst h.translate h.translate))
  · refine Formed.ite_fst h ?_
    refine Formed.ite_fst h ?_
    refine Formed.ite_fst h ?_
    refine Formed.ite_fst h ?_
    split
    · exact h
    · exact h
  · exact h
  · exact h
  · exact h

theorem Formed.copyAts {c ctx : Nat} {tern : Bool} {k : CUse} {n : Nat} {as : List Int} (h : Formed s) : Formed (s.copyAts c ctx tern k n as).1 := by
  induction as generalizing s n with
  | nil => exact h
  | cons a as ih =>
    rw [State.copyAts]
    split
    · exact ih h.copyAt
    · exact h.copyAt

theorem Formed.copyCause {x : Copy} {c : Nat} {status : Int} (h : Formed s) : Formed (s.copyCause x c status) := by
  unfold State.copyCause
  exact Formed.ite (h.foldl (fun _ _ h' => h'.defer)) h

theorem Formed.copySoft {x : Copy} {cs : List Nat} (h : Formed s) : Formed (s.copySoft x cs) := h.foldl (fun _ _ h' => h'.copyCause)

theorem Formed.copyRead {c ctx : Nat} {x : Copy} {a : Int} {p : CAt} (h : Formed s) : Formed (s.copyRead c ctx x a p).1 := by
  unfold State.copyRead
  dsimp only
  split
  · refine Formed.ite_fst ?_ ?_
    · dsimp only
      exact h.touchAs.copySoft
    · refine Formed.ite_fst ?_ ?_
      · refine Formed.ite_fst ?_ ?_
        · dsimp only
          exact h.touchAs.countAll.copySoft
        · dsimp only
          exact h.touchAs.fillFor.lostRead.copySoft
      · dsimp only
        exact h.touchAs.fillFor.lostRead.copySoft
  · dsimp only
    exact h.atomLost.copySoft
  · exact Formed.ite h.count.copySoft h
  · dsimp only
    exact h

theorem Formed.copyLoad {c ctx : Nat} {x : Copy} {a : Int} {p : CAt} (h : Formed s) : Formed (s.copyLoad c ctx x a p).1 := by
  unfold State.copyLoad
  split
  · exact h
  · exact h.copyRead

theorem Formed.copyLoads {c ctx : Nat} {x : Copy} {ps : List (Int × CAt)} (h : Formed s) : Formed (s.copyLoads c ctx x ps).1 :=
  h.foldl_fst (fun _ _ h' => Formed.ite_fst h'.copyLoad h')

theorem Formed.copyGet {c ctx : Nat} {x : Copy} {a : Int} {p : CAt} (h : Formed s) : Formed (s.copyGet c ctx x a p).1 := by
  unfold State.copyGet
  split
  · exact h
  · split
    · exact h
    · exact Formed.ite_fst h.count.copySoft h
    · exact h

theorem Formed.copyGets {c ctx : Nat} {x : Copy} {ps : List (Int × CAt)} (h : Formed s) : Formed (s.copyGets c ctx x ps).1 := by
  induction ps generalizing s x with
  | nil => exact h
  | cons p ps ih => exact ih h.copyGet

theorem Formed.copyPut {c ctx : Nat} {x : Copy} {a : Int} {p : CAt} {v : Int} (h : Formed s) : Formed (s.copyPut c ctx x a p v).1 := by
  unfold State.copyPut
  split
  · exact h.touchAs.homePut.wrote.copySoft
  · exact h.atomLost.copySoft.setByte
  · exact h.setHost
  · exact h.setVel
  · exact h

theorem Formed.copyPuts {c ctx : Nat} {x : Copy} {ps : List ((Int × CAt) × Int)} (h : Formed s) : Formed (s.copyPuts c ctx x ps).1 := by
  induction ps generalizing s x with
  | nil => exact h
  | cons p ps ih => exact ih h.copyPut

theorem Formed.setFolioElem {c f n : Nat} {v : Int} (h : Formed s) : Formed (s.setFolioElem c f n v) := h.foldl (fun _ _ h' => h'.setScrWord)
theorem Formed.setCopy {c : Nat} {x : Copy} (h : Formed s) : Formed (s.setCopy c x) := h.setCore

theorem Formed.copyFolio {c : Nat} {x : Copy} {dst : Bool} {r : Nat} (h : Formed s) : ∀ p, s.copyFolio c x dst r = some p → Formed p.1 := by
  unfold State.copyFolio
  dsimp only
  generalize (if dst then x.dfol else x.sfol)[x.pos / 729]? = taken
  cases taken with
  | some f => exact formed_fst_of_some (p := (s, x, f)) h
  | none =>
    refine formed_fst_of_ite formed_fst_of_none ?_
    generalize (if dst then s.atP c r 0 else s.atC c r 2) = next
    cases next with
    | none => exact formed_fst_of_none
    | some f => exact formed_fst_of_some h.folioSt

theorem formedMove_notOk {wr : Bool} {l : List (Int × CAt)} {m : Move1} (h : notOk wr l = some m) : FormedMove m := by
  obtain ⟨⟨a, q⟩, -, hq⟩ := List.exists_of_findSome?_eq_some h
  cases q <;> cases hq <;> constructor

/-- What the reads of some elements leave, or the move that they come to. -/
def FormedReads : Except Move1 (State × Copy × List (List Int)) → Prop
  | .ok g => Formed g.1
  | .error m => FormedMove m

theorem FormedReads.of_ok {e : Except Move1 (State × Copy × List (List Int))} {g : State × Copy × List (List Int)} (h :
    FormedReads e) (he : e = .ok g) :
    Formed g.1 := by
  rw [he] at h
  exact h

theorem FormedReads.of_error {e : Except Move1 (State × Copy × List (List Int))} {m : Move1} (h : FormedReads e) (he : e = .error m) :
    FormedMove m := by
  rw [he] at h
  exact h

theorem FormedReads.ite {c : Prop} [Decidable c] {d e : Except Move1 (State × Copy × List (List Int))} (hd : FormedReads d) (he : FormedReads e) :
    FormedReads (if c then d else e) := by
  split
  · exact hd
  · exact he

theorem Formed.copyReads {c ctx : Nat} {x : Copy} {k n : Nat} (h : Formed s) : FormedReads (s.copyReads c ctx x k n) := by
  induction n generalizing s x k with
  | zero => exact h
  | succ n ih =>
    rw [State.copyReads]
    refine FormedReads.ite .stop ?_
    generalize hd : notOk false _ = o
    cases o with
    | some m => exact formedMove_notOk hd
    | none =>
      refine FormedReads.ite (.done h.copyAts.copyLoads.setCopy) ?_
      dsimp only
      generalize he : State.copyReads _ c ctx _ (k + 1) n = e
      have hreads : FormedReads e := by
        rw [← he]
        exact ih (Formed.ite h.copyAts.copyGets.count h.copyAts.copyGets)
      cases e with
      | ok r => exact hreads
      | error m => exact hreads

theorem Formed.ringRead {c ctx : Nat} {x : Copy} {f n k : Nat} (h : Formed s) : Formed (s.ringRead c ctx x f n k).1 := by
  unfold State.ringRead
  exact h.foldl_fst (fun _ _ h' => Formed.ite (Formed.ite h'.count.copySoft h').count (Formed.ite h'.count.copySoft h'))

theorem Formed.padFolio {c f n : Nat} (h : Formed s) : Formed (s.padFolio c f n) := h.foldl (fun _ _ h' => h'.setFolioElem)

theorem Formed.copyWrites {c ctx : Nat} {x : Copy} {vs : List (List Int)} (h : Formed s) : FormedMove (s.copyWrites c ctx x vs) := by
  unfold State.copyWrites
  dsimp only
  split
  · split
    · exact .wait
    · rename_i heq
      exact .done (Formed.ite ((Formed.ite (h.copyFolio _ heq).setFolioElem.padFolio (h.copyFolio _ heq).setFolioElem).foldl
        (fun _ _ h' => h'.folioDone)) (Formed.ite (h.copyFolio _ heq).setFolioElem.padFolio (h.copyFolio _ heq).setFolioElem)).setCopy
  · split
    · exact FormedMove.ite .wait (.done (Formed.ite (h.setCore.foldl (fun _ _ h' => h'.folioDone)) h.setCore).setCopy)
    · split
      · rename_i heq
        exact (formedMove_notOk heq)
      · exact .done (Formed.ite (h.copyAts.copyPuts.foldl (fun _ _ h' => h'.folioDone)) h.copyAts.copyPuts).setCopy
    · refine FormedMove.ite .stop ?_
      split
      · rename_i heq
        exact (formedMove_notOk heq)
      · exact .done (Formed.ite (h.copyAts.copyPuts.foldl (fun _ _ h' => h'.folioDone)) h.copyAts.copyPuts).setCopy

theorem Formed.copyReadAll {c ctx : Nat} {x : Copy} {ps : List (Int × CAt)} (h : Formed s) : Formed (s.copyReadAll c ctx x ps).1 :=
  h.foldl_fst (fun _ _ h' => h'.copyLoads.copyGets)

theorem Formed.chunkMove {c ctx : Nat} {x : Copy} (h : Formed s) : FormedMove (s.chunkMove c ctx x) := by
  unfold State.chunkMove
  dsimp only
  split
  · rename_i heq
    exact formedMove_notOk heq
  · split
    · exact FormedMove.ite .wait (.done (Formed.setCopy (Formed.copySoft (Formed.foldl (Formed.foldl (Formed.foldl
        (h.copyAts.copyReadAll.copyAt.foldl_fst fun _ _ h' => h'.touchAs) fun _ _ h' => h'.setAtom.withBad)
        fun _ _ h' => h'.setSec.setSec) fun _ _ h' => h'.wrote))))
    · exact .wait
    · exact .park
    · exact .ats
    · exact .stop
    · exact .stop

theorem Formed.copyMove {c : Nat} {x0 : Copy} (h : Formed s) : FormedMove (s.copyMove c x0) := by
  unfold State.copyMove
  dsimp only
  refine FormedMove.ite .wait (FormedMove.ite h.chunkMove (FormedMove.ite .wait (FormedMove.ite ?_ (FormedMove.ite ?_ ?_))))
  · split
    · exact .done h.setCopy
    · split
      · exact .wait
      · rename_i heq
        exact .done (h.copyFolio _ heq).padFolio.setCopy
  · split
    · exact .stop
    · split
      · exact .done h.setPort.setCopy
      · exact FormedMove.ite .stop .wait
  · split
    · split
      · exact .wait
      · rename_i heq
        exact FormedMove.ite (.done (h.copyFolio _ heq).setCopy) (h.copyFolio _ heq).ringRead.copyWrites
    · split
      · rename_i heq
        exact h.copyReads.of_error heq
      · rename_i heq
        exact (h.copyReads.of_ok heq).copyWrites

theorem Formed.stopCopy {c : Nat} {x : Copy} {st : Int} (h : Formed s) : Formed (s.stopCopy c x st) :=
  (Formed.ite (h.copyCause.foldl (fun _ _ h' => Formed.ite h'.folioDone h')) h.copyCause).setCopy

theorem Formed.execCopyElementTransfer {c i : Nat} (h : Formed s) : FormedOut (execCopyElementTransfer c i s) := by
  unfold Machine.execCopyElementTransfer
  split
  · exact h
  · split
    · rename_i heq
      exact h.copyMove.of_done heq
    · exact h.translate.addFault.setCopy
    · exact h

theorem Formed.execCopyStop {c i : Nat} (h : Formed s) : FormedOut (execCopyStop c i s) := by
  unfold Machine.execCopyStop
  split
  · exact h
  · split
    · exact h.stopCopy
    · exact h

theorem Formed.execScaleQueueMatch {c i : Nat} (h : Formed s) : FormedOut (execScaleQueueMatch c i s) := by
  unfold Machine.execScaleQueueMatch
  split
  · exact h
  · refine FormedOut.ite h ?_
    split
    · exact FormedOut.ite h h.setCore.count
    · exact h.setCore.count.copySoft.setCopy
    · exact h.setCore.count.count.copySoft.setCopy

theorem Formed.velForget {die : Nat} {lo n : Int} (h : Formed s) : Formed (s.velForget die lo n) :=
  h.withCor (Tab.sorted_map (by intro p; exact Tab.fst_ite rfl rfl) h.cor)

theorem Formed.execCopyComplete {c i : Nat} (h : Formed s) : FormedOut (execCopyComplete c i s) := by
  unfold Machine.execCopyComplete
  split
  · exact h
  · extract_lets ctx status s1 s2 k s3 s4 s5
    have h2 : Formed s2 := (Formed.ite h.pushToken h).foldl fun _ _ h' => Formed.ite h'.folioReady h'
    have h4 : Formed s4 := Formed.ite h2.setCore.velForget h2.setCore
    have h5 : Formed s5 := by
      unfold s5
      split
      · exact h4.setWarp.ctxRT
      · exact h4.ctxRT
    exact FormedOut.ite h h5.doneLane.settle

theorem Formed.falu {hd : Hdr} {f : FFmt} {op : FmtF → Int → Int → Int → Int} {d : Nat} {fs : List Nat} (h : Formed s) :
    FormedOut (falu hd f op d fs s) := h.perLane

theorem Formed.execFadd {hd : Hdr} {f : FFmt} {d a b : Nat} (h : Formed s) : FormedOut (execFadd hd f d a b s) := h.falu
theorem Formed.execFsub {hd : Hdr} {f : FFmt} {d a b : Nat} (h : Formed s) : FormedOut (execFsub hd f d a b s) := h.falu
theorem Formed.execFmul {hd : Hdr} {f : FFmt} {d a b : Nat} (h : Formed s) : FormedOut (execFmul hd f d a b s) := h.falu
theorem Formed.execFfma {hd : Hdr} {f : FFmt} {d a b c : Nat} (h : Formed s) : FormedOut (execFfma hd f d a b c s) := h.falu
theorem Formed.execFmin {hd : Hdr} {f : FFmt} {d a b : Nat} (h : Formed s) : FormedOut (execFmin hd f d a b s) := h.falu
theorem Formed.execFmax {hd : Hdr} {f : FFmt} {d a b : Nat} (h : Formed s) : FormedOut (execFmax hd f d a b s) := h.falu
theorem Formed.execFneg {hd : Hdr} {f : FFmt} {d a : Nat} (h : Formed s) : FormedOut (execFneg hd f d a s) := h.falu
theorem Formed.execFabs {hd : Hdr} {f : FFmt} {d a : Nat} (h : Formed s) : FormedOut (execFabs hd f d a s) := h.falu
theorem Formed.execFscl {hd : Hdr} {f : FFmt} {d a b : Nat} {imm : Int} (h : Formed s) : FormedOut (execFscl hd f d a b imm s) := h.falu
theorem Formed.execFclass {hd : Hdr} {f : FFmt} {d a : Nat} (h : Formed s) : FormedOut (execFclass hd f d a s) := h.falu
theorem Formed.execFrnd {hd : Hdr} {f : FFmt} {d a : Nat} {imm : Int} (h : Formed s) : FormedOut (execFrnd hd f d a imm s) := h.falu
theorem Formed.execFcvtF9 {hd : Hdr} {d a : Nat} (h : Formed s) : FormedOut (execFcvtF9 hd d a s) := h.falu
theorem Formed.execFcvtF27 {hd : Hdr} {d a : Nat} (h : Formed s) : FormedOut (execFcvtF27 hd d a s) := h.falu
theorem Formed.execFcmp {hd : Hdr} {f : FFmt} {d a b : Nat} (h : Formed s) : FormedOut (execFcmp hd f d a b s) := h.perLane

theorem Formed.ffun {hd : Hdr} {f : FFmt} {op : FmtF → Int → Int → Int → Int} {d : Nat} {fs : List Nat} (h : Formed s) :
    FormedOut (ffun hd f op d fs s) := h.perLane

theorem Formed.execFdiv {hd : Hdr} {f : FFmt} {d a b : Nat} (h : Formed s) : FormedOut (execFdiv hd f d a b s) := h.ffun
theorem Formed.execFrcp {hd : Hdr} {f : FFmt} {d a : Nat} (h : Formed s) : FormedOut (execFrcp hd f d a s) := h.ffun
theorem Formed.execFsqrt {hd : Hdr} {f : FFmt} {d a : Nat} (h : Formed s) : FormedOut (execFsqrt hd f d a s) := h.ffun
theorem Formed.execFrsq {hd : Hdr} {f : FFmt} {d a : Nat} (h : Formed s) : FormedOut (execFrsq hd f d a s) := h.ffun
theorem Formed.execFexp {hd : Hdr} {f : FFmt} {d a : Nat} (h : Formed s) : FormedOut (execFexp hd f d a s) := h.ffun
theorem Formed.execFexp3 {hd : Hdr} {f : FFmt} {d a : Nat} (h : Formed s) : FormedOut (execFexp3 hd f d a s) := h.ffun
theorem Formed.execFlog {hd : Hdr} {f : FFmt} {d a : Nat} (h : Formed s) : FormedOut (execFlog hd f d a s) := h.ffun
theorem Formed.execFlog3 {hd : Hdr} {f : FFmt} {d a : Nat} (h : Formed s) : FormedOut (execFlog3 hd f d a s) := h.ffun
theorem Formed.execFsin {hd : Hdr} {f : FFmt} {d a : Nat} (h : Formed s) : FormedOut (execFsin hd f d a s) := h.ffun
theorem Formed.execFcos {hd : Hdr} {f : FFmt} {d a : Nat} (h : Formed s) : FormedOut (execFcos hd f d a s) := h.ffun
theorem Formed.execFtanh {hd : Hdr} {f : FFmt} {d a : Nat} (h : Formed s) : FormedOut (execFtanh hd f d a s) := h.ffun
theorem Formed.execFsigm {hd : Hdr} {f : FFmt} {d a : Nat} (h : Formed s) : FormedOut (execFsigm hd f d a s) := h.ffun
theorem Formed.execFerf {hd : Hdr} {f : FFmt} {d a : Nat} (h : Formed s) : FormedOut (execFerf hd f d a s) := h.ffun

theorem Formed.execFunctionResultWrite {w : Nat} (h : Formed s) : FormedOut (execFunctionResultWrite w s) := by
  unfold Machine.execFunctionResultWrite
  dsimp only
  split
  · exact h.setReg.setWarp.settle
  · exact h

theorem Formed.execPhase {hd : Hdr} (h : Formed s) : FormedOut (execPhase hd s) :=
  h.issue (fun _ _ h' => Formed.ite h'.faultAll (h'.foldl (fun _ _ h'' => h''.closePhase.waitLane)))

theorem Formed.lostEnt {ctx core : Nat} {e : PEnt} (h : Formed s) : Formed (s.lostEnt ctx core e) := by
  unfold State.lostEnt
  exact Formed.ite h (h.count.foldl (fun _ _ h' => h'.defer))

theorem Formed.applyEnt {ctx core : Nat} {e : PEnt} (h : Formed s) : Formed (s.applyEnt ctx core e).1 := by
  unfold State.applyEnt
  dsimp only
  split
  · exact h.lostEnt.translate.count.wbfRec
  · refine Formed.ite_fst h.lostEnt.translate.count.wbfRec ?_
    split
    · exact h.lostEnt.translate.homePut.wrote
    · exact h.lostEnt.translate.fillFor.homeStore

theorem Formed.applyEnts {ctx core : Nat} {w : Int} {es : List PEnt} (h : Formed s) : Formed (s.applyEnts ctx core w es).1 := by
  induction es generalizing s w with
  | nil => exact h
  | cons e es ih => exact ih h.applyEnt

theorem Formed.applyPhase {ctx : Nat} (h : Formed s) : Formed (s.applyPhase ctx).1 := by
  unfold State.applyPhase
  exact (h.foldl_fst (fun _ _ h' => h'.applyEnts)).setCtx.foldl (fun _ _ h' => by split; exacts [h'.setCore, h'])

theorem Formed.nextPhase {ctx : Nat} (h : Formed s) : Formed (s.nextPhase ctx) :=
  (h.setCtx.foldl (fun _ _ h' => h'.endWait.stepTrap)).foldl (fun _ _ h' => h'.settle)

theorem Formed.execPhaseEnd {ctx : Nat} (h : Formed s) : FormedOut (execPhaseEnd ctx s) := by
  unfold Machine.execPhaseEnd
  exact FormedOut.ite (FormedOut.ite h.nextPhase h) (FormedOut.ite h (FormedOut.ite h h.applyPhase.setCtx))

theorem Formed.gather {c : Nat} {start : Int} {len f : Nat} {us : List Int} (h : Formed s) : Formed (s.gather c start len f us).1 := by
  induction f generalizing s us with
  | zero => exact h
  | succ f ih =>
    rw [State.gather]
    split
    · exact h
    · split
      · exact h
      · exact ih h.touchLine

theorem Formed.scribeStart {c : Nat} {w0 w1 : Int} (h : Formed s) : Formed (s.scribeStart c w0 w1) :=
  h.setWarp.setCore.foldl (fun _ _ h' => h'.setThread)

theorem Formed.execScrb {hd : Hdr} {a b len g : Nat} {imm : Int} (h : Formed s) : FormedOut (execScrb hd a b len g imm s) := by
  unfold Machine.execScrb
  refine h.perGroup fun _ _ _ h' => ?_
  refine Formed.ite h'.faultAll ?_
  refine Formed.ite h'.setCore.waitAll.claim ?_
  refine Formed.ite ?_ h'.waitAll
  refine Formed.ite ?_ ?_
  · refine Formed.ite h'.gather.setCore.setCore.regrant.faultAll ?_
    exact (h'.gather.setCore.foldl (fun _ _ h'' => h''.setThread)).askLine
  · exact Formed.ite h'.gather.setCore.setCore.regrant.faultAll h'.gather.setCore.scribeStart.retireAll

theorem Formed.scribeEnd {c : Nat} (h : Formed s) : Formed (s.scribeEnd c) := h.setCore.freeWarp.regrant

theorem Formed.execScribeProgramEnd {c : Nat} (h : Formed s) : FormedOut (execScribeProgramEnd c s) := by
  unfold Machine.execScribeProgramEnd
  exact FormedOut.ite h.scribeEnd h

theorem Formed.execScrh {hd : Hdr} {d : Nat} (h : Formed s) : FormedOut (execScrh hd d s) := h.perLane

theorem Formed.scribeStop {c : Nat} (h : Formed s) : Formed (s.scribeStop c) := by
  unfold State.scribeStop
  dsimp only
  split
  · exact ((h.filterReqs _).foldl fun _ _ h' => h'.endThread).setWarp.scribeEnd
  · split
    · exact (h.setCore.foldl fun _ _ h' => Formed.ite h'.setThread h').regrant
    · exact h

theorem Formed.execScrhStop {hd : Hdr} {d : Nat} (h : Formed s) : FormedOut (execScrhStop hd d s) :=
  h.issue (fun _ _ h' => h'.scribeStop.foldl (fun _ _ h'' => h''.retire.setReg))

theorem Formed.execSloop {hd : Hdr} {a : Nat} {k : Int} {len : Nat} (h : Formed s) : FormedOut (execSloop hd a k len s) := by
  unfold Machine.execSloop
  refine h.perGroup fun _ _ _ h' => ?_
  exact Formed.ite h'.faultAll (h'.foldl (fun _ _ h'' => Formed.ite h''.retire h''.setThread.retire))

theorem Formed.execCsrr {hd : Hdr} {d n : Nat} (h : Formed s) : FormedOut (execCsrr hd d n s) := by
  unfold Machine.execCsrr
  split
  · exact h
  · exact FormedOut.ite h.perLane h.perLane

theorem Formed.setCsr {t n : Nat} {v : Int} (h : Formed s) : Formed (s.setCsr t n v) := by
  unfold State.setCsr
  refine Formed.ite h.setThread ?_
  refine Formed.ite h.setThread ?_
  refine Formed.ite h.setThread ?_
  refine Formed.ite h.setThread ?_
  refine Formed.ite h.setWarp ?_
  refine Formed.ite h.setPart ?_
  refine Formed.ite h.setDie ?_
  split
  · exact h.setCtx
  · exact h

theorem Formed.execCsrw {hd : Hdr} {a n : Nat} (h : Formed s) : FormedOut (execCsrw hd a n s) := by
  unfold Machine.execCsrw
  split
  · exact h
  · exact h.issue (fun _ _ h' => (h'.foldl (fun _ _ h'' => h''.setCsr)).retireAll.faultAll)

theorem Formed.execTret {hd : Hdr} (h : Formed s) : FormedOut (execTret hd s) := by
  unfold Machine.execTret
  refine h.issue fun _ _ h' => ?_
  refine Formed.ite h'.faultAll ?_
  refine Formed.ite ((h'.foldl (fun _ _ h'' => h''.waitLane.setThread)).leave) ?_
  exact h'.foldl (fun _ _ h'' => h''.waitLane.setThread)

theorem Formed.execClrc {hd : Hdr} {mask : Int} (h : Formed s) : FormedOut (execClrc hd mask s) :=
  h.issue (fun _ _ h' => h'.foldl (fun _ _ h'' => h''.retire.setThread))

theorem Formed.execHalt {hd : Hdr} (h : Formed s) : FormedOut (execHalt hd s) := h.issue (fun _ _ h' => Formed.ite h'.retireAll h'.waitAll)

theorem Formed.execTrapEntry {w : Nat} (h : Formed s) : FormedOut (execTrapEntry w s) := by
  unfold Machine.execTrapEntry
  exact FormedOut.ite h.settle h

theorem Formed.execDoubleTrap {w : Nat} (h : Formed s) : FormedOut (execDoubleTrap w s) := by
  unfold Machine.execDoubleTrap
  exact FormedOut.ite h.settle h

theorem Formed.execUnhandledTrap {w : Nat} (h : Formed s) : FormedOut (execUnhandledTrap w s) := by
  unfold Machine.execUnhandledTrap
  exact FormedOut.ite h.settle h

theorem Formed.execDeferredCause {t : Nat} (h : Formed s) : FormedOut (execDeferredCause t s) := by
  unfold Machine.execDeferredCause
  refine FormedOut.ite h ?_
  exact (h.foldl (fun _ _ h' => h'.setThread.foldl (fun _ _ h'' => Formed.ite h'' h''.raise))).settle

theorem Formed.setSession {ctx bid : Nat} {y : Session} (h : Formed s) : Formed (s.setSession ctx bid y) := h.setCtx

theorem Formed.pushOut {ctx bid : Nat} (h : Formed s) : Formed (s.pushOut ctx bid) := by
  unfold State.pushOut
  dsimp only
  split
  · exact Formed.ite h h.pushToken.setSession
  · exact h

theorem Formed.finish {ctx bid : Nat} {v t : Int} (h : Formed s) : Formed (s.finish ctx bid v t) := h.setSession.pushOut
theorem Formed.engineFault {ctx bid : Nat} {ea : Int} {m : Bool} (h : Formed s) : Formed (s.engineFault ctx bid ea m) := h.addFault.setSession

theorem Formed.engineRead_error {ctx : Nat} {tern : Bool} {as : List Int} {e : CAt} {t : State} {n : Int} (h : Formed s)
    (heq : s.engineRead ctx tern as = (.error e, t, n)) : Formed t := by
  unfold State.engineRead at heq
  dsimp only at heq
  split at heq
  · cases heq
    exact h.copyAts
  · cases heq

theorem Formed.engineRead_ok {ctx : Nat} {tern : Bool} {as bs : List Int} {t u : State} {n : Int} (h : Formed s)
    (heq : s.engineRead ctx tern as = (.ok (t, bs), u, n)) : Formed t := by
  unfold State.engineRead at heq
  dsimp only at heq
  split at heq
  · cases heq
  · cases heq
    exact h.copyAts.copyReadAll

theorem Formed.execDecode {ctx bid : Nat} (h : Formed s) : FormedOut (execDecode ctx bid s) := by
  unfold Machine.execDecode
  dsimp only
  split
  · exact h.pushOut
  · refine FormedOut.ite h.pushOut (FormedOut.ite h (FormedOut.ite h.setSession.finish ?_))
    split
    · rename_i heq
      exact (h.engineRead_error heq).engineFault
    · exact h
    · exact h.setSession.finish
    · rename_i heq
      have h1 := h.engineRead_ok heq
      refine FormedOut.ite h1.setSession.finish ?_
      split
      · rename_i heq1
        exact (h1.engineRead_error heq1).engineFault
      · exact h
      · exact h
      · exact h1.setSession.finish
      · rename_i heq1
        have h2 := h1.engineRead_ok heq1
        split
        · exact h2.setSession.finish
        · exact FormedOut.ite h2.setSession.finish (FormedOut.ite h h2.setSession.finish)

theorem Formed.execDecodeFlush {ctx bid : Nat} (h : Formed s) : FormedOut (execDecodeFlush ctx bid s) := by
  unfold Machine.execDecodeFlush
  refine FormedOut.ite h.pushOut ?_
  split
  · exact FormedOut.ite h.setSession.finish h
  · exact FormedOut.ite h h.setSession
  · exact h

theorem Formed.execDecodeReset {ctx bid : Nat} (h : Formed s) : FormedOut (execDecodeReset ctx bid s) := by
  unfold Machine.execDecodeReset
  dsimp only
  split
  · exact FormedOut.ite h h.setSession.finish
  · exact h

theorem Formed.framePut {ctx : Nat} {w : Int} {r : List (Int × Int)} (h : Formed s) : Formed (s.framePut ctx w r).1 := by
  induction r generalizing s w with
  | nil => exact h
  | cons p r ih =>
    rw [State.framePut]
    dsimp only
    split
    · exact ih h.copyAt.homePut.wrote
    · exact h.copyAt

theorem Formed.execDecodeFrameOutput {ctx bid : Nat} (h : Formed s) : FormedOut (execDecodeFrameOutput ctx bid s) := by
  unfold Machine.execDecodeFrameOutput
  refine FormedOut.ite h.pushOut ?_
  split
  · dsimp only
    split
    · exact h.framePut.setSession.finish.ctxRT
    · exact h.framePut
    · exact h.framePut.engineFault
    · exact h.framePut.setSession.finish.ctxRT
  · exact h

theorem Formed.rejectSession {ctx bid : Nat} (h : Formed s) : Formed (s.rejectSession ctx bid) := by
  unfold State.rejectSession
  dsimp only
  split
  · exact h.setSession.finish
  · exact h.setSession.finish
  · exact h.setSession

end Sys2Proof.Machine
end

