-- ==== Sys2Proof/Proofs/FormContexts.lean ====
section
/-! The form of a state under saves, hangs, kills, answers to faults and launches (R410-R448). -/

namespace Sys2Proof.Machine

variable {s : State}

theorem Formed.setBlk {ctx bid : Nat} {b : BlkSt} (h : Formed s) : Formed (s.setBlk ctx bid b) := h.setCtx
theorem Formed.unqueue {ctx bid : Nat} (h : Formed s) : Formed (s.unqueue ctx bid) := h.mapDie fun _ => rfl

theorem Formed.preemptOne {ctx bid : Nat} (h : Formed s) : Formed (s.preemptOne ctx bid) := by
  unfold State.preemptOne
  dsimp only
  split
  · exact h.setBlk
  · exact h.unqueue.setBlk
  · exact h.setCore.setBlk
  · exact h.startSave
  · exact h

theorem Formed.execPreempt {hd : Hdr} {a : Nat} (h : Formed s) : FormedOut (execPreempt hd a s) := by
  unfold Machine.execPreempt
  refine h.perGroup fun _ _ _ h' => ?_
  split
  · exact h'.faultAll
  · exact Formed.ite h'.faultAll (Formed.ite h'.retireAll ((h'.foldl (fun _ _ h'' => h''.preemptOne)).retireAll))

theorem Formed.execPreemptBlk {hd : Hdr} {a b : Nat} (h : Formed s) : FormedOut (execPreemptBlk hd a b s) := by
  unfold Machine.execPreemptBlk
  refine h.perGroup fun _ _ _ h' => ?_
  split
  · exact h'.faultAll
  · exact Formed.ite h'.faultAll (Formed.ite h'.retireAll h'.preemptOne.retireAll)

theorem Formed.findHome {ctx c : Nat} {ea : Int} (h : Formed s) : Formed (s.findHome ctx c ea).1 := by
  unfold State.findHome
  dsimp only
  split
  · exact h.translate
  · exact h.translate

theorem Formed.payOwed {w : Nat} (h : Formed s) : Formed (s.payOwed w) := (h.foldl (fun _ _ h' => h'.setReg)).setWarp

theorem Formed.keepLane {r : Req} (h : Formed s) : Formed (s.keepLane r) := by
  unfold State.keepLane
  exact Formed.ite h.doneLane h.setThread

theorem Formed.partReqs {c ctx bid : Nat} (h : Formed s) : Formed (s.partReqs c ctx bid) :=
  (h.foldl fun _ _ h' => h'.delReq.unbusy.keepLane).mapReqs fun _ => id_ite rfl rfl

theorem Formed.saveSector {c key : Nat} {line : Int} {k : Nat} (h : Formed s) : Formed (s.saveSector c key line k) := by
  unfold State.saveSector
  refine Formed.ite h ?_
  dsimp only
  split
  · exact ((Formed.ite (h.findHome.touchAs.homePut.wrote.foldl (fun _ _ h' => h'.defer)) h.findHome.touchAs.homePut.wrote).foldl
      (fun _ _ h' => h'.raiseRT)).ctxRT
  · exact h.findHome.count.wbfRec.foldl (fun _ _ h' => h'.defer)

theorem Formed.saveL1 {c : Nat} (h : Formed s) : Formed (s.saveL1 c) :=
  (h.later (t := { s with nextId := s.nextId + 1 }) rfl rfl (Nat.le_succ _)).foldl fun _ _ h' => h'.foldl fun _ _ h'' => h''.saveSector

theorem Formed.putRecWords {ctx : Nat} {low : Int} {ws : List (Nat × Int)} (h : Formed s) : Formed (s.putRecWords ctx low ws) :=
  h.foldl (fun _ _ h' => by dsimp only; split; exacts [h', h'.homePut.wrote.ctxRT])

theorem Formed.recFill {sup : Nat} {low : Int} {ks : List Nat} {die : Nat} (h : Formed s) : Formed (s.recFill sup low ks die) :=
  h.foldl (fun _ _ h' => h'.fillFor.lostRead)

theorem Formed.putRecord {ctx bid c : Nat} {t : Int} (h : Formed s) : Formed (s.putRecord ctx bid c t) :=
  Formed.withFresh (Formed.putRecWords (Formed.withFresh h.putRecWords))

theorem Formed.clearCore {c : Nat} (h : Formed s) : Formed (s.clearCore c) :=
  { h with
    cor := Tab.sorted_put _ _ h.cor
    thr := sorted_filter _ h.thr
    wrp := sorted_filter _ h.wrp }

theorem Formed.finishSave {ctx bid c : Nat} {t : Int} (h : Formed s) : Formed (s.finishSave ctx bid c t) :=
  (h.foldl (fun _ _ h' => h'.payOwed)).partReqs.saveL1.putRecord.setCtx.clearCore.notice

theorem Formed.recMiss {ctx key c : Nat} {ea : Int} {m : Bool} (h : Formed s) : Formed (s.recMiss ctx key c ea m) := h.addFault.setCtx

theorem Formed.hangNote {ctx : Nat} (h : Formed s) : Formed (s.hangNote ctx) := by
  unfold State.hangNote
  dsimp only
  split
  · exact h
  · exact h.setCtx.notice

theorem Formed.putGraph {ctx c : Nat} (h : Formed s) : Formed (s.putGraph ctx c) := by
  unfold State.putGraph
  dsimp only
  split
  · exact h
  · refine Formed.ite h.hangNote ?_
    split
    · exact h.putRecWords.hangNote
    · exact h.hangNote.startKill
    · exact h.recMiss

theorem Formed.execSaveComplete {ctx bid : Nat} (h : Formed s) : FormedOut (execSaveComplete ctx bid s) := by
  unfold Machine.execSaveComplete
  dsimp only
  split
  · refine FormedOut.ite h ?_
    refine FormedOut.ite (Formed.ite h h.putGraph) ?_
    refine FormedOut.ite h ?_
    split
    · exact h.finishSave
    · exact h.startKill
    · exact h.startKill
    · exact h.recMiss
    · exact h.recMiss
  · exact h

theorem Formed.readCore {sup : Nat} {low : Int} {c : Nat} {old : CoreSt} (h : Formed s) : Formed (s.readCore sup low c old) :=
  h.setCore.foldl (fun _ _ h' => h'.setScrWord)

theorem Formed.catchUp {ctx bid c : Nat} (h : Formed s) : Formed (s.catchUp ctx bid c) := by
  unfold State.catchUp
  refine (h.foldl (fun _ _ h' => by split; exacts [h'.putVec, h'])).setCtx.foldl fun _ _ h' => ?_
  refine h'.foldl fun _ _ h'' => ?_
  dsimp only
  split
  · exact Formed.ite h'' (Formed.ite h''.setThread.raise h''.endWait)
  · exact h''

theorem Formed.restore {ctx bid c : Nat} (h : Formed s) : Formed (s.restore ctx bid c) := by
  unfold State.restore
  split
  · exact h
  · refine Formed.foldl (Formed.catchUp (Formed.mapReqs (Formed.setCtx (Formed.foldl (Formed.foldl h.recFill.readCore fun _ _ h' => ?_)
      fun _ _ h' => h'.foldl fun _ _ h'' => Formed.ite h''
        (Formed.ite h''.setThread h''.setThread.dropKept))) fun _ => id_ite rfl rfl)) fun _ _ h' => h'.settle
    dsimp only
    split
    · exact h'.setWarp
    · exact h'

theorem Formed.noteHang (h : Formed s) : Formed s.noteHang := h.withCtxs (Tab.sorted_map (by intro p; exact Tab.fst_ite rfl rfl) h.ctxs)

theorem Formed.execHang {ctx : Nat} (h : Formed s) : FormedOut (execHang ctx s) := by
  unfold Machine.execHang
  extract_lets x die g s1
  have h1 : Formed s1 := h.foldl fun _ _ h' => h'.foldl fun _ _ h'' => h''.setThread
  split
  · exact h
  · refine FormedOut.ite h ?_
    extract_lets y s2 s3
    have h2 : Formed s2 := h1.setCtx.other rfl
    have h3 : Formed s3 := h2.foldl fun _ _ h' => by
      split
      · exact h'.forceSave
      · exact h'
    exact h3.putGraph

theorem Formed.execKill {hd : Hdr} {a : Nat} (h : Formed s) : FormedOut (execKill hd a s) :=
  h.perGroup (fun _ _ _ h' => by split; exacts [h'.faultAll, (Formed.ite h' h'.startKill).retireAll])

theorem Formed.endTickets {ctx : Nat} (h : Formed s) : Formed (s.endTickets ctx) := by
  unfold State.endTickets
  refine Formed.mapDie (Formed.foldl (Formed.foldl (Formed.mapReqs h ?_) fun _ _ h' => h'.passDrawn) fun _ _ h' => h'.performSeq.noteDeps) ?_
  · exact fun _ => id_ite rfl rfl
  · exact fun _ => rfl

theorem Formed.endBars {ctx : Nat} (h : Formed s) : Formed (s.endBars ctx) := h.other rfl
theorem Formed.endFaults {ctx : Nat} (h : Formed s) : Formed (s.endFaults ctx) := { h with die := Tab.sorted_map (by intro p; rfl) h.die }
theorem Formed.endQueued {ctx : Nat} (h : Formed s) : Formed (s.endQueued ctx) := h.mapDie fun _ => rfl
theorem Formed.endCores {ctx : Nat} (h : Formed s) : Formed (s.endCores ctx) := h.foldl (fun _ _ h' => h'.clearCore)
theorem Formed.endCtx {ctx : Nat} (h : Formed s) : Formed (s.endCtx ctx) := h.setCtx

theorem Formed.dropCtx {ctx : Nat} (h : Formed s) : Formed (s.dropCtx ctx) := by
  refine Formed.endCtx (Formed.endCores (Formed.endFaults (Formed.endBars (Formed.filterMapReqs (h.endTickets.foldl fun _ _ h' => h'.liftPreps) ?_))))
  intro r q hq
  split at hq
  · cases hq
    rfl
  · split at hq
    · cases hq
      rfl
    · cases hq
      rfl
    · cases hq

theorem Formed.execKillComplete {ctx : Nat} (h : Formed s) : FormedOut (execKillComplete ctx s) := by
  unfold Machine.execKillComplete
  exact FormedOut.ite h h.hangNote.dropCtx.notice

theorem Formed.wakeFetch {r : Req} (h : Formed s) : Formed (s.wakeFetch r) := by
  unfold State.wakeFetch
  exact Formed.ite (h.foldl (fun _ _ h' => h'.setThread)) h

theorem Formed.wakeRec {e : Nat × Nat} (h : Formed s) : Formed (s.wakeRec e) := h.setCtx

theorem Formed.denyRec {e : Nat × Nat} (h : Formed s) : Formed (s.denyRec e) := by
  unfold State.denyRec
  exact Formed.ite h h.wakeRec.hangNote.startKill

theorem Formed.wakeEngines {ctx : Nat} {p : Int → Bool} {cp : State → Nat → Copy → State} {se : State → Nat → State}
    (h : Formed s) (hcp : ∀ x0 x1 x2, Formed x0 → Formed (cp x0 x1 x2)) (hse : ∀ x0 x1, Formed x0 → Formed (se x0 x1)) : Formed
      (s.wakeEngines ctx p cp se) :=
  (h.foldl (fun _ _ h' => hcp _ _ _ h')).foldl (fun _ _ h' => hse _ _ h')

theorem Formed.wakeLaunch {r : Req} (h : Formed s) : Formed (s.wakeLaunch r) := h.delReq.foldl (fun _ _ h' => h'.setThread)

theorem Formed.execReplay {hd : Hdr} {d a b : Nat} (h : Formed s) : FormedOut (execReplay hd d a b s) := by
  unfold Machine.execReplay
  refine h.perGroup fun _ _ _ h' => ?_
  split
  · refine (((h'.setDie.foldl (fun _ _ h'' => Formed.ite h''.wakeLaunch h''.setReq.wakeFetch)).wakeEngines (fun _ _ _ h'' => h''.setCopy)
      (fun _ _ h'' => h''.setSession)).foldl (fun _ _ h'' => h''.wakeRec)).foldl fun _ _ h'' => ?_
    exact h''.retire.setReg
  · exact h'.faultAll

theorem Formed.execDeny {hd : Hdr} {a b : Nat} (h : Formed s) : FormedOut (execDeny hd a b s) := by
  unfold Machine.execDeny
  refine h.perGroup fun _ _ _ h' => ?_
  dsimp only
  split
  · refine (Formed.wakeEngines (Formed.foldl (h'.setDie.foldl fun _ _ h'' => ?_) fun _ _ h'' => h''.denyRec)
      (fun _ _ _ h'' => h''.stopCopy) fun _ _ h'' => h''.rejectSession).retireAll
    split
    · exact h''.wakeLaunch.foldl fun _ _ h₃ => h₃.retire.setReg
    · exact Formed.ite h''.refuse h''.refuse
  · exact h'.faultAll

theorem Formed.forgetLines {ctxs : Nat → Bool} {p : Int → Bool} (h : Formed s) : Formed (s.forgetLines ctxs p) :=
  h.withCor (Tab.sorted_map (by intro p; exact Tab.fst_ite rfl rfl) h.cor)

theorem Formed.tlbiUnit {act : List Nat} {busy : Req → Bool} {go : State → State} (h : Formed s) (hgo : ∀ x0, Formed x0 → Formed (go x0)) :
    Formed (s.tlbiUnit act busy go) := by
  unfold State.tlbiUnit
  exact Formed.ite h.waitAll ((hgo _ h).retireAll)

theorem Formed.dropTlb {own : Nat} {p : TlbE → Bool} (h : Formed s) : Formed (s.dropTlb own p) := h.setDie

theorem Formed.execTlbi {hd : Hdr} {a b : Nat} (h : Formed s) : FormedOut (execTlbi hd a b s) := by
  unfold Machine.execTlbi
  refine h.perGroup fun _ _ _ h' => ?_
  dsimp only
  split
  · exact h'.tlbiUnit (fun _ h'' => h''.dropTlb.forgetLines)
  · exact h'.faultAll

theorem Formed.dropCtxTlb {own ctx : Nat} (h : Formed s) : Formed (s.dropCtxTlb own ctx) := h.dropTlb.reloadRoot

theorem Formed.execTlbiCtx {hd : Hdr} {a b : Nat} (h : Formed s) : FormedOut (execTlbiCtx hd a b s) := by
  unfold Machine.execTlbiCtx
  refine h.perGroup fun _ _ _ h' => ?_
  split
  · exact h'.tlbiUnit (fun _ h'' => h''.dropCtxTlb.forgetLines)
  · exact h'.faultAll

theorem Formed.execTlbiDie {hd : Hdr} {b : Nat} (h : Formed s) : FormedOut (execTlbiDie hd b s) := by
  unfold Machine.execTlbiDie
  refine h.perGroup fun _ _ _ h' => ?_
  split
  · exact h'.tlbiUnit (fun _ h'' => h''.dropTlb.reloadOwner.forgetLines)
  · exact h'.faultAll

theorem Formed.atsPut {ctx : Nat} {ea : Int} {p : Nat} {wr : Bool} (h : Formed s) : Formed (s.atsPut ctx ea p wr) := h.other rfl

theorem Formed.execAtsTranslationCompletion {id : Nat} {spa : Option Nat} (h : Formed s) : FormedOut (execAtsTranslationCompletion id spa s) := by
  unfold Machine.execAtsTranslationCompletion
  split
  · refine FormedOut.ite h ?_
    split
    · exact h.atsPut.hostPerform
    · exact FormedOut.ite h h.parkReq
  · dsimp only
    split
    · exact h.atsPut
    · exact FormedOut.ite h h.setCopy
    · exact h
  · refine FormedOut.ite h ?_
    split
    · exact h.atsPut
    · exact FormedOut.ite h h.setSession
    · exact h

theorem Formed.execPriResponse {grp : Nat} {ok : Bool} (h : Formed s) : FormedOut (execPriResponse grp ok s) := by
  unfold Machine.execPriResponse
  split
  · exact FormedOut.ite h (FormedOut.ite h.setReq h.refuse)
  · exact FormedOut.ite h (FormedOut.ite h.setCopy h.stopCopy)
  · exact FormedOut.ite h (FormedOut.ite h.setSession h.rejectSession)

theorem Formed.freshFills {part sup die ctx : Nat} {ea : Int} (h : Formed s) : Formed (s.freshFills part sup die ctx ea) := by
  unfold State.freshFills
  exact Formed.ite h h.fillFor.walkFills

theorem Formed.entryFills {part sup die : Nat} {ea : Int} {ctx : Nat} (h : Formed s) : Formed (s.entryFills part sup die ea ctx).1 := by
  unfold State.entryFills
  split
  · refine Formed.ite_fst ?_ ?_
    · dsimp only
      exact h.fillFor.lostRead
    · dsimp only
      exact h
  · dsimp only
    exact h

theorem Formed.newCtx {part : Nat} {w : Nat → Int} (h : Formed s) : Formed (s.newCtx part w) :=
  Formed.later (Formed.setCtx (h.foldl fun _ _ h' => h'.dropCtxTlb)) rfl rfl (Nat.le_succ _)

theorem Formed.launchFills {part sup die : Nat} {w : Nat → Int} {reason : Nat} (h : Formed s) : Formed (s.launchFills part sup die w reason).1 := by
  unfold State.launchFills
  refine Formed.ite_fst h ?_
  refine Formed.ite_fst (h.foldl (fun _ _ h' => h'.freshFills)) ?_
  refine Formed.ite_fst ((h.foldl (fun _ _ h' => h'.freshFills)).freshFills.entryFills) ?_
  refine (h.foldl (fun _ _ h' => h'.freshFills)).freshFills.entryFills.foldl fun _ _ h' => ?_
  exact h'.foldl (fun _ _ h'' => h''.freshFills)

theorem Formed.launchEnd {act : List Nat} {d reason : Nat} (h : Formed s) : Formed (s.launchEnd act d reason) :=
  h.foldl (fun _ _ h' => h'.retire.setReg)

theorem Formed.execLaunch {hd : Hdr} {d a : Nat} (h : Formed s) : FormedOut (execLaunch hd d a s) := by
  unfold Machine.execLaunch
  refine h.perGroup fun _ _ _ h' => ?_
  refine h'.afterFence fun _ h'' => ?_
  refine Formed.ite h''.launchEnd ?_
  dsimp only
  split
  · exact (h''.translate.addFault.foldl (fun _ _ h₃ => h₃.setThread)).addReq
  · refine Formed.ite h''.translate.launchEnd ?_
    exact (Formed.ite ((h''.translate.fillFor.foldl (fun _ _ h₃ => h₃.foldl (fun _ _ h₄ => h₄.defer))).launchFills.foldl
      (fun _ _ h₃ => h₃.foldl (fun _ _ h₄ => h₄.defer))).newCtx ((h''.translate.fillFor.foldl (fun _ _ h₃ => h₃.foldl
        (fun _ _ h₄ => h₄.defer))).launchFills.foldl (fun _ _ h₃ => h₃.foldl (fun _ _ h₄ => h₄.defer)))).launchEnd

theorem Formed.enqueue {die ctx bid : Nat} {resume : Bool} (h : Formed s) : Formed (s.enqueue die ctx bid resume) := h.setDie.setBlk

theorem Formed.execBlockEligible {ctx bid : Nat} (h : Formed s) : FormedOut (execBlockEligible ctx bid s) := by
  unfold Machine.execBlockEligible
  dsimp only
  split
  · exact FormedOut.ite h (FormedOut.ite h.enqueue h)
  · exact h

theorem Formed.resumeOne {ctx bid : Nat} (h : Formed s) : Formed (s.resumeOne ctx bid) := by
  unfold State.resumeOne
  split
  · exact Formed.ite h.enqueue h.setBlk
  · exact h.enqueue
  · exact h

theorem Formed.execLaunchRes {hd : Hdr} {d a b : Nat} (h : Formed s) : FormedOut (execLaunchRes hd d a b s) := by
  unfold Machine.execLaunchRes
  refine h.perGroup fun _ _ _ h' => ?_
  split
  · exact h'.launchEnd
  · refine Formed.ite ((h'.foldl (fun _ _ h'' => h''.recFill)).launchEnd) ?_
    exact ((h'.foldl (fun _ _ h'' => h''.recFill)).foldl (fun _ _ h'' => h''.resumeOne)).launchEnd

theorem Formed.takeCore {ctx bid c : Nat} {resume : Bool} (h : Formed s) : Formed (s.takeCore ctx bid c resume) := h.unqueue.setBlk.setCtx.setCore

theorem Formed.execPlacement {die : Nat} (h : Formed s) : FormedOut (execPlacement die s) := by
  unfold Machine.execPlacement
  dsimp only
  split
  · exact h
  · exact h.foldl (fun _ _ h' => h'.takeCore)

theorem Formed.startWarps {ctx bid c : Nat} {pl : Int} (h : Formed s) : Formed (s.startWarps ctx bid c pl) :=
  h.foldl (fun _ _ h' => h'.setWarp.foldl (fun _ _ h'' => h''.setThread))

theorem Formed.execBlockStart {ctx bid : Nat} (h : Formed s) : FormedOut (execBlockStart ctx bid s) := by
  unfold Machine.execBlockStart
  refine FormedOut.ite h ?_
  split
  · exact h.restore.setBlk
  · exact h.startWarps.setBlk
  · exact h

theorem Formed.execBlockEnd {ctx bid : Nat} (h : Formed s) : FormedOut (execBlockEnd ctx bid s) := by
  unfold Machine.execBlockEnd
  split
  · refine FormedOut.ite h ?_
    exact Formed.clearCore (Formed.mapReqs (Formed.setCtx (Formed.foldl
      (h.saveL1.foldl fun _ _ h' => Formed.ite h' h'.wbfRec) fun _ _ h' => h'.passDrawn))
      fun _ => id_ite rfl rfl)
  · exact h

theorem Formed.addCmpa {ctx : Nat} (h : Formed s) : ∀ t, s.addCmpa ctx = some t → Formed t := by
  unfold State.addCmpa
  refine formed_of_ite ?_ ?_
  · exact formed_of_some h
  · dsimp only
    split
    · exact formed_of_some h.translate
    · refine formed_of_ite ?_ ?_
      · exact formed_of_none
      · exact formed_of_some h.translate.fillFor.homeStore

theorem Formed.execContextCompletion {ctx : Nat} (h : Formed s) : FormedOut (execContextCompletion ctx s) := by
  unfold Machine.execContextCompletion
  refine FormedOut.ite h ?_
  split
  · exact h
  · rename_i heq
    exact (h.addCmpa _ heq).endTickets.endBars.endQueued.endCtx

end Sys2Proof.Machine
end

