-- ==== Sys2Proof/Proofs/FormPackage.lean ====
section
/-! The form of a state under the host, the management of the package and the firmware (R453-R470). -/

namespace Sys2Proof.Machine

variable {s : State}

theorem Formed.linked {f : State → State} (h : Formed s) (hf : ∀ x0, Formed x0 → Formed (f x0)) : FormedOut (s.linked f) := Formed.ite h (hf _ h)
theorem Formed.inboxDrop {p : Nat} (h : Formed s) : Formed (s.inboxDrop p) := h.setPart.other rfl

theorem Formed.inboxPush {p n : Nat} (h : Formed s) : Formed (s.inboxPush p n) := by
  induction n generalizing s with
  | zero => exact h
  | succ n ih =>
    rw [State.inboxPush]
    split
    · exact h
    · split
      · exact ih h.setPart.setPort
      · exact h

theorem Formed.inboxTake {p n : Nat} (h : Formed s) : Formed (s.inboxTake p n) := by
  induction n generalizing s with
  | zero => exact h
  | succ n ih =>
    rw [State.inboxTake]
    dsimp only
    split
    · exact h
    · split
      · exact h
      · exact ih (Formed.inboxPush (by split; exacts [h.setPart.inboxDrop, h.setPart.setPart]))

theorem Formed.noteInbox (h : Formed s) : Formed (s.noteInbox) := h.foldl (fun _ _ h' => Formed.ite h' h'.inboxPush.inboxTake)

theorem Formed.execInbox {req part addr : Nat} {bytes : List (BitVec 8)} (h : Formed s) : FormedOut (execInbox req part addr bytes s) := by
  refine h.linked fun _ h' => ?_
  dsimp only
  split
  · exact h'
  · exact Formed.ite h'.inboxDrop h'.setPart.bump.noteInbox

theorem Formed.hostDrop (h : Formed s) : Formed (s.hostDrop) := h.other rfl
theorem Formed.hostReply {bs : List Nat} (h : Formed s) : Formed (s.hostReply bs) := h.other rfl

theorem Formed.post {req part own byte : Nat} {bytes : List Nat} {sector : Bool} (h : Formed s) : Formed (s.post req part own byte bytes sector) :=
  h.later rfl rfl (Nat.le_succ _)

theorem Formed.execSectorApertureRead {req part off n : Nat} (h : Formed s) : FormedOut (execSectorApertureRead req part off n s) := by
  unfold Machine.execSectorApertureRead
  refine h.linked fun _ h' => ?_
  split
  · exact h'.hostReply
  · exact Formed.ite h' (Formed.ite h'.hostReply h'.hostReply)

theorem Formed.sectorWrite {req part off : Nat} {bs : List Nat} {fuel : Nat} (h : Formed s) : Formed (s.sectorWrite req part off bs fuel) := by
  induction fuel generalizing s off bs with
  | zero => exact h
  | succ fuel ih =>
    rw [State.sectorWrite]
    split
    · exact h
    · refine ih ?_
      split
      · exact h
      · split
        · exact h.post
        · exact h.hostDrop

theorem Formed.execSectorApertureWrite {req part off : Nat} {bytes : List (BitVec 8)} (h : Formed s) :
    FormedOut (execSectorApertureWrite req part off bytes s) := h.linked (fun _ h' => by split; exacts [h', h'.sectorWrite])

theorem Formed.execWindowApertureRead {req part off n : Nat} (h : Formed s) : FormedOut (execWindowApertureRead req part off n s) := by
  unfold Machine.execWindowApertureRead
  refine h.linked fun _ h' => ?_
  split
  · exact h'.hostReply
  · exact Formed.ite h' (Formed.ite h'.hostReply h'.hostReply)

theorem Formed.windowWrite {req part off : Nat} {bs : List Nat} {fuel : Nat} (h : Formed s) : Formed (s.windowWrite req part off bs fuel) := by
  induction fuel generalizing s off bs with
  | zero => exact h
  | succ fuel ih =>
    rw [State.windowWrite]
    split
    · exact h
    · refine ih ?_
      split
      · exact h
      · exact h.post

theorem Formed.execWindowApertureWrite {req part off : Nat} {bytes : List (BitVec 8)} (h : Formed s) :
    FormedOut (execWindowApertureWrite req part off bytes s) := by
  unfold Machine.execWindowApertureWrite
  refine h.linked fun _ h' => ?_
  split
  · exact h'
  · exact Formed.ite h' (Formed.ite (h'.hostDrop.other rfl) h'.windowWrite)

theorem Formed.putSector {own : Nat} {k : Int} {bs : List Nat} (h : Formed s) : Formed (s.putSector own k bs) :=
  Formed.wrote (Formed.foldl (Formed.setSec (h.setAtom.other rfl)) (fun _ _ h' => h'.setSec))

theorem Formed.performPosted {x : Posted} (h : Formed s) : Formed (s.performPosted x) := by
  unfold State.performPosted
  exact Formed.ite h ((Formed.ite h.putSector h.setBytes).setPart.other rfl)

theorem Formed.execHostWrite {req : Nat} (h : Formed s) : FormedOut (execHostWrite req s) :=
  h.linked (fun _ h' => by split; exacts [h', h'.performPosted.noteInbox])

theorem Formed.noteFlush (h : Formed s) : Formed (s.noteFlush) := h.foldl (fun _ _ h' => Formed.ite h' (Formed.hostReply (h'.other rfl)))

theorem Formed.execFlush {part : Nat} (h : Formed s) : FormedOut (execFlush part s) := by
  refine h.linked fun _ h' => ?_
  split
  · exact h'.hostReply
  · exact h'.bump.withMg.noteFlush

theorem Formed.logic {hd : Hdr} {op : Nat → Int → Int → Int} {d a b : Nat} (h : Formed s) : FormedOut (logic hd op d a b s) := h.perLane
theorem Formed.execTand {hd : Hdr} {d a b : Nat} (h : Formed s) : FormedOut (execTand hd d a b s) := h.logic
theorem Formed.execTor {hd : Hdr} {d a b : Nat} (h : Formed s) : FormedOut (execTor hd d a b s) := h.logic
theorem Formed.execTsum {hd : Hdr} {d a b : Nat} (h : Formed s) : FormedOut (execTsum hd d a b s) := h.logic
theorem Formed.execTmult {hd : Hdr} {d a b : Nat} (h : Formed s) : FormedOut (execTmult hd d a b s) := h.logic
theorem Formed.execTcons {hd : Hdr} {d a b : Nat} (h : Formed s) : FormedOut (execTcons hd d a b s) := h.logic

theorem Formed.shift {hd : Hdr} {t3 : Bool} {op : Nat → Int → Int → Int} {d a : Nat} {n : Count} (h : Formed s) :
    FormedOut (shift hd t3 op d a n s) := h.perLane

theorem Formed.execShl {hd : Hdr} {t3 : Bool} {d a : Nat} {n : Count} (h : Formed s) : FormedOut (execShl hd t3 d a n s) := h.shift
theorem Formed.execShr {hd : Hdr} {t3 : Bool} {d a : Nat} {n : Count} (h : Formed s) : FormedOut (execShr hd t3 d a n s) := h.shift
theorem Formed.execRot {hd : Hdr} {t3 : Bool} {d a : Nat} {n : Count} (h : Formed s) : FormedOut (execRot hd t3 d a n s) := h.shift
theorem Formed.execFext {hd : Hdr} {d a l w : Nat} (h : Formed s) : FormedOut (execFext hd d a l w s) := h.perLane
theorem Formed.execFins {hd : Hdr} {d a b l w : Nat} (h : Formed s) : FormedOut (execFins hd d a b l w s) := h.perLane
theorem Formed.execTcnt {hd : Hdr} {v : Int} {d a : Nat} (h : Formed s) : FormedOut (execTcnt hd v d a s) := h.perLane
theorem Formed.execTlz {hd : Hdr} {d a : Nat} (h : Formed s) : FormedOut (execTlz hd d a s) := h.perLane
theorem Formed.execTrev {hd : Hdr} {d a : Nat} (h : Formed s) : FormedOut (execTrev hd d a s) := h.perLane
theorem Formed.msi {n : Nat} (h : Formed s) : Formed (s.msi n) := h.other rfl

theorem Formed.setBoot {v : Nat} (h : Formed s) : Formed (s.setBoot v) := by
  unfold State.setBoot
  exact Formed.ite h (Formed.msi (h.other rfl))

theorem Formed.byOwner {m : Nat} {f : State → State} (h : Formed s) (hf : ∀ x0, Formed x0 → Formed (f x0)) : Formed (s.byOwner m f) := by
  unfold State.byOwner
  exact Formed.ite (hf _ h) (h.other rfl)

theorem Formed.claimWrite {m value : Nat} (h : Formed s) : Formed (s.claimWrite m value) := by
  unfold State.claimWrite
  exact Formed.ite h (Formed.ite (Formed.ite (h.other rfl) (Formed.msi (h.other rfl))) (h.other rfl))

theorem Formed.execClaim {master value : Nat} (h : Formed s) : FormedOut (execClaim master value s) := h.linked (fun _ h' => h'.claimWrite)

theorem Formed.startSup {p : Nat} (h : Formed s) : Formed (s.startSup p) :=
  Formed.withMg (Formed.setPart (h.setCtx.bump.foldl fun _ _ h' => h'.setCore.startWarps.setBlk))

theorem Formed.killPart {p : Nat} (h : Formed s) : Formed (s.killPart p) := h.setPart.foldl (fun _ _ h' => h'.startKill)
theorem Formed.dropPart {p : Nat} (h : Formed s) : Formed (s.dropPart p) := (h.foldl (fun _ _ h' => h'.dropCtx)).other rfl

theorem Formed.resetOwners {wipe : Bool} (h : Formed s) : Formed (s.resetOwners wipe) :=
  h.foldl (fun _ _ h' => (Formed.ite (h'.foldl (fun _ _ h'' => h''.putSector)) h').setDie)

theorem Formed.applyLayout {wipe start : Bool} (h : Formed s) : Formed (s.applyLayout wipe start) := by
  have hlaid := (h.withParts (sorted_layoutOf s.mg.pending)).withMg (x := { s.mg with partcfg := s.mg.pending, applying := false })
  exact Formed.ite (hlaid.resetOwners.foldl fun _ _ h' => h'.startSup) hlaid.resetOwners

theorem Formed.noteRestart (h : Formed s) : Formed (s.noteRestart) := by
  unfold State.noteRestart
  refine Formed.ite (Formed.ite ((h.foldl (fun _ _ h' => h'.dropPart)).applyLayout) h) ?_
  exact h.foldl (fun _ _ h' => Formed.ite h'.dropPart.startSup h')

theorem Formed.startApply (h : Formed s) : Formed (s.startApply) := by
  unfold State.startApply
  exact Formed.ite h (Formed.noteRestart ((h.foldl (fun _ _ h' => h'.killPart)).other rfl))

theorem Formed.execPartctlApply {master : Nat} (h : Formed s) : FormedOut (execPartctlApply master s) :=
  h.linked (fun _ h' => h'.byOwner (fun _ h'' => h''.startApply))

theorem Formed.execFunctionLevelReset {fn : Nat} (h : Formed s) : FormedOut (execFunctionLevelReset fn s) := by
  unfold Machine.execFunctionLevelReset
  refine h.linked fun _ h' => ?_
  refine Formed.ite (h'.other rfl) ?_
  split
  · exact h'
  · exact Formed.ite h' h'.killPart.setPart.noteRestart

theorem Formed.verify (h : Formed s) : Formed (s.verify) := by
  unfold State.verify
  exact Formed.ite h (Formed.ite (Formed.setBoot (h.setBoot.other rfl)) (Formed.setBoot (h.setBoot.other rfl)))

theorem Formed.execFwgo {master : Nat} (h : Formed s) : FormedOut (execFwgo master s) := h.linked (fun _ h' => h'.byOwner (fun _ h'' => h''.verify))

theorem Formed.execFirmwareWindowWrite {master off : Nat} {bytes : List (BitVec 8)} (h : Formed s) :
    FormedOut (execFirmwareWindowWrite master off bytes s) := h.linked (fun _ h' => h'.byOwner (fun _ h'' => h''.other rfl))

theorem Formed.execMgmtRegisterWrite {master addr value : Nat} (h : Formed s) : FormedOut (execMgmtRegisterWrite master addr value s) := by
  unfold Machine.execMgmtRegisterWrite
  refine h.linked fun _ h' => ?_
  refine Formed.ite h'.claimWrite ?_
  refine h'.byOwner fun _ h'' => ?_
  refine Formed.ite (Formed.ite h'' (h''.other rfl)) ?_
  refine Formed.ite (Formed.ite (Formed.startApply (h''.other rfl)) (h''.other rfl)) ?_
  refine Formed.ite (h''.other rfl) ?_
  refine Formed.ite (Formed.ite h''.verify h'') ?_
  exact Formed.ite (h''.other rfl) (Formed.ite (Formed.ite (h''.other rfl) h'') h'')

theorem Formed.renumber {p : Nat} (h : Formed s) : Formed (s.renumber p) := by
  have hmem := State.renumber_wf p h.mem
  unfold State.renumber at hmem ⊢
  split
  · exact h
  · next hne =>
    rw [if_neg hne] at hmem
    exact Formed.other ((h.withDie (Tab.sorted_foldl_put _ s.die [] rfl)).withMem hmem) rfl

theorem Formed.startTime (h : Formed s) : Formed (s.startTime) := (h.foldl (fun _ _ h' => h'.setDie)).other rfl

theorem Formed.execBringUpComplete {ok : Bool} (h : Formed s) : FormedOut (execBringUpComplete ok s) := by
  unfold Machine.execBringUpComplete
  refine h.linked fun _ h' => ?_
  refine Formed.ite h' ?_
  exact Formed.ite h'.setBoot (Formed.setBoot (Formed.applyLayout (Formed.startTime (h'.renumber.other rfl))))

theorem formed_reset : Formed State.reset := ⟨rfl, rfl, rfl, rfl, rfl, rfl, rfl, rfl, List.nodup_nil, fun _ hr => absurd hr List.not_mem_nil⟩

theorem Formed.execPowerUp (h : Formed s) : FormedOut (execPowerUp s) :=
  { formed_reset with
    mem := h.renumber.mem
    host := h.renumber.host
    die := sorted_filter _ h.renumber.die
    reqs := ⟨List.nodup_nil, fun _ hr => absurd hr List.not_mem_nil⟩ }

theorem Formed.spdm {bs : List Nat} (h : Formed s) : Formed (s.spdm bs) := h.other rfl
theorem Formed.execGetVersion (h : Formed s) : FormedOut (execGetVersion s) := h.linked (fun _ h' => Formed.spdm (h'.other rfl))
theorem Formed.execGetCapabilities (h : Formed s) : FormedOut (execGetCapabilities s) := h.linked (fun _ h' => Formed.spdm (h'.other rfl))

theorem Formed.execNegotiateAlgorithms {alg : SpdmAlg} (h : Formed s) : FormedOut (execNegotiateAlgorithms alg s) :=
  h.linked (fun _ h' => Formed.spdm (h'.other rfl))

theorem Formed.execGetDigests (h : Formed s) : FormedOut (execGetDigests s) := h.linked (fun _ h' => h'.spdm)

theorem Formed.execGetCertificate {slot off len : Nat} (h : Formed s) : FormedOut (execGetCertificate slot off len s) :=
  h.linked (fun _ h' => Formed.ite h'.spdm h'.spdm)

theorem Formed.execChallenge {slot nonce : Nat} (h : Formed s) : FormedOut (execChallenge slot nonce s) :=
  h.linked (fun _ h' => Formed.ite h'.spdm h'.spdm)

theorem Formed.execGetMeasurements {idx nonce : Nat} (h : Formed s) : FormedOut (execGetMeasurements idx nonce s) :=
  h.linked (fun _ h' => Formed.ite h'.spdm (Formed.ite h'.spdm h'.spdm))

theorem Formed.execSpdmUnsupportedRequest {code : Nat} (h : Formed s) : FormedOut (execSpdmUnsupportedRequest code s) :=
  h.linked (fun _ h' => h'.spdm)

theorem Formed.execPowerWindow {watts temp : Nat} (h : Formed s) : FormedOut (execPowerWindow watts temp s) :=
  h.linked (fun _ h' => Formed.ite (h'.other rfl) (Formed.msi (h'.other rfl)))

theorem Formed.execThermalShutdown {temp : Nat} (h : Formed s) : FormedOut (execThermalShutdown temp s) :=
  h.linked fun _ h' => Formed.ite h'
    { formed_reset with
      mem := wfBytes_filter h'.mem _
      host := h'.host
      die := sorted_filter _ h'.die
      reqs := ⟨List.nodup_nil, fun _ hr => absurd hr List.not_mem_nil⟩ }

theorem Formed.execHairlinePortTraining {port : Nat} {ok : Bool} (h : Formed s) : FormedOut (execHairlinePortTraining port ok s) :=
  h.linked (fun _ h' => Formed.ite (h'.other rfl) h')

theorem Formed.clkSend {ps : List Nat} {k : Clk} (h : Formed s) : Formed (s.clkSend ps k) := h.other rfl

theorem Formed.execSync {offset : Int} {accepted : Bool} (h : Formed s) : FormedOut (execSync offset accepted s) :=
  h.linked (fun _ h' => Formed.ite h' (Formed.ite (h'.other rfl) (Formed.clkSend (h'.other rfl))))

theorem Formed.execSyncInterval (h : Formed s) : FormedOut (execSyncInterval s) :=
  h.linked (fun _ h' => Formed.clkSend (Formed.ite h'.clkSend (h'.other rfl)))

theorem Formed.execPdelay {port : Nat} {delay : Option Int} (h : Formed s) : FormedOut (execPdelay port delay s) := by
  unfold Machine.execPdelay
  exact h.linked (fun _ h' => Formed.ite h' (by split; exacts [h'.clkSend, h'.other rfl]))

theorem Formed.execHoldoverEntry (h : Formed s) : FormedOut (execHoldoverEntry s) := by
  unfold Machine.execHoldoverEntry
  refine h.linked fun _ h' => ?_
  refine Formed.ite h' ?_
  refine Formed.foldl (Formed.foldl (Formed.msi (h'.other rfl)) (fun _ _ h'' => Formed.ite (h''.foldl
    (fun _ _ h₃ => h₃.count)) h'')) fun _ _ h'' => ?_
  exact h''.defer

theorem Formed.execHoldoverExit (h : Formed s) : FormedOut (execHoldoverExit s) := h.linked (fun _ h' => Formed.ite (Formed.msi (h'.other rfl)) h')

theorem Formed.execMov {hd : Hdr} {x : Bool} {d a : Nat} (h : Formed s) : FormedOut (execMov hd x d a s) := by
  unfold Machine.execMov
  exact FormedOut.ite h.perLane h.perLane

theorem Formed.nbLane {d a c q : Nat} {pop : Bool} {t : Nat} (h : Formed s) : Formed (nbLane d a c q pop s t) := by
  unfold Machine.nbLane
  refine Formed.ite ?_ (Formed.ite h.retire.setPred h.retire.portPush.setPred)
  split
  · exact h.retire.portPop.setReg.setPred
  · exact h.retire.setPred

theorem Formed.execMovNb {hd : Hdr} {d a c : Nat} (h : Formed s) : FormedOut (execMovNb hd d a c s) := by
  unfold Machine.execMovNb
  refine h.issue fun _ _ h' => ?_
  exact Formed.ite (h'.foldl (fun _ _ h'' => h''.retire.setPred)) (h'.foldl (fun _ _ h'' => h''.nbLane))

theorem Formed.execMovi {hd : Hdr} {x : Bool} {d : Nat} {imm : Int} (h : Formed s) : FormedOut (execMovi hd x d imm s) := by
  unfold Machine.execMovi
  exact FormedOut.ite h.perLane h.perLane

theorem Formed.execSel3 {hd : Hdr} {p d a b c : Nat} (h : Formed s) : FormedOut (execSel3 hd p d a b c s) := h.perLane
theorem Formed.execPset {hd : Hdr} {d : Nat} {v : Int} (h : Formed s) : FormedOut (execPset hd d v s) := h.perLane
theorem Formed.execPsetTrit {hd : Hdr} {d a t : Nat} (h : Formed s) : FormedOut (execPsetTrit hd d a t s) := h.perLane
theorem Formed.execPmov {hd : Hdr} {d a : Nat} (h : Formed s) : FormedOut (execPmov hd d a s) := h.perLane
theorem Formed.execPmovTw {hd : Hdr} {d a : Nat} (h : Formed s) : FormedOut (execPmovTw hd d a s) := h.perLane
theorem Formed.execPmovFw {hd : Hdr} {d a : Nat} (h : Formed s) : FormedOut (execPmovFw hd d a s) := h.perLane
theorem Formed.execPand {hd : Hdr} {d a b : Nat} (h : Formed s) : FormedOut (execPand hd d a b s) := h.perLane
theorem Formed.execPor {hd : Hdr} {d a b : Nat} (h : Formed s) : FormedOut (execPor hd d a b s) := h.perLane
theorem Formed.execPnot {hd : Hdr} {d a : Nat} (h : Formed s) : FormedOut (execPnot hd d a s) := h.perLane

end Sys2Proof.Machine
end

