-- ==== Sys2Proof/Proofs/FormSteps.lean ====
section
/-! Every step keeps the form of the state. -/

namespace Sys2Proof.Machine

variable {s : State}

theorem Formed.exec {i : Instr} (h : Formed s) : FormedOut (exec i s) := by
  unfold Machine.exec
  split
  · exact h.execAdd
  · exact h.execAddi
  · exact h.execSub
  · exact h.execNeg
  · exact h.execAbs
  · exact h.execSgn
  · exact h.execMul
  · exact h.execMulh
  · exact h.execMulw
  · exact h.execMad
  · exact h.execDiv
  · exact h.execRem
  · exact h.execMin
  · exact h.execMax
  · exact h.execClamp
  · exact h.execAddx
  · exact h.execSubx
  · exact h.execLea
  · exact h.execCmp
  · exact h.execCmpi
  · exact h.execTand
  · exact h.execTor
  · exact h.execTsum
  · exact h.execTmult
  · exact h.execTcons
  · exact h.execShl
  · exact h.execShr
  · exact h.execRot
  · exact h.execFext
  · exact h.execFins
  · exact h.execTcnt
  · exact h.execTlz
  · exact h.execTrev
  · exact h.execMov
  · exact h.execMovNb
  · exact h.execMovi
  · exact h.execSel3
  · exact h.execPset
  · exact h.execPsetTrit
  · exact h.execPmov
  · exact h.execPmovTw
  · exact h.execPmovFw
  · exact h.execPand
  · exact h.execPor
  · exact h.execPnot
  · exact h.execCvt
  · exact h.execCvtf
  · exact h.execRng
  · exact h.execFadd
  · exact h.execFsub
  · exact h.execFmul
  · exact h.execFfma
  · exact h.execFmin
  · exact h.execFmax
  · exact h.execFneg
  · exact h.execFabs
  · exact h.execFscl
  · exact h.execFcmp
  · exact h.execFclass
  · exact h.execFrnd
  · exact h.execFcvtF9
  · exact h.execFcvtF27
  · exact h.execFdiv
  · exact h.execFsqrt
  · exact h.execFrcp
  · exact h.execFrsq
  · exact h.execFexp
  · exact h.execFexp3
  · exact h.execFlog
  · exact h.execFlog3
  · exact h.execFsin
  · exact h.execFcos
  · exact h.execFtanh
  · exact h.execFsigm
  · exact h.execFerf
  · exact h.execFunctionResultWrite
  · exact h.execLd
  · exact h.execSt
  · exact h.execLdb
  · exact h.execStb
  · exact h.execLdnb
  · exact h.execStva
  · exact h.execPref
  · exact h.execWb
  · exact h.execWbAll
  · exact h.execInv
  · exact h.execInvAll
  · exact h.execAtom
  · exact h.execCas
  · exact h.execRed
  · exact h.execAtomo
  · exact h.execFence
  · exact h.execFenceComplete
  · exact h.execTnow
  · exact h.execTwait
  · exact h.execTimedWaitDeadline
  · exact h.execTalarm
  · exact h.execAlarmDue
  · exact h.execBar
  · exact h.execBara
  · exact h.execBarw
  · exact h.execBarv
  · exact h.execBarrierPhaseComplete
  · exact h.execBarrierSignal
  · exact h.execTkt
  · exact h.execTktOpen
  · exact h.execTktClose
  · exact h.execTkp
  · exact h.execMsg
  · exact h.execMessageArrival
  · exact h.execQstat
  · exact h.execQueueServe
  · exact h.execDraft
  · exact h.execInk
  · exact h.execDraftPrepare
  · exact h.execDraftDecision
  · exact h.execDraftCommitArrival
  · exact h.execInkRetire
  · exact h.execErase
  · exact h.execDstat
  · exact h.execBr
  · exact h.execCall
  · exact h.execCallt
  · exact h.execRet
  · exact h.execSetmr
  · exact h.execSetmrClr
  · exact h.execMovmrGet
  · exact h.execMovmrPut
  · exact h.execExit
  · exact h.execBrk
  · exact h.execTrap
  · exact h.execYld
  · exact h.execNop
  · exact h.execHint
  · exact h.execSpawn
  · exact h.execSpawnBinTimer
  · exact h.execSpawnWarpCreate
  · exact h.execRclaim
  · exact h.execRgive
  · exact h.execClaimGrant
  · exact h.execWait
  · exact h.execIcpf
  · exact h.execIfence
  · exact h.execIcinv
  · exact h.execIcinvAll
  · exact h.execInstructionFetchFill
  · exact h.execMcfg
  · exact h.execRing
  · exact h.execFstat
  · exact h.execFsetReady
  · exact h.execFsetEmpty
  · exact h.execMzero
  · exact h.execMloop
  · exact h.execMrdy
  · exact h.execMdrain
  · exact h.execQscale
  · exact h.execFitr
  · exact h.execMbudg
  · exact h.execNibStepStart
  · exact h.execNibStepComplete
  · exact h.execNibZeroPerform
  · exact h.execNibDrainComplete
  · exact h.execNibQscaleComplete
  · exact h.execNibCommandComplete
  · exact h.execBudgetRefill
  · exact h.execCpy
  · exact h.execCpys
  · exact h.execCpyg
  · exact h.execCpyx
  · exact h.execCpyc
  · exact h.execCpyv
  · exact h.execCopyElementTransfer
  · exact h.execScaleQueueMatch
  · exact h.execCopyStop
  · exact h.execCopyComplete
  · exact h.execScrb
  · exact h.execScrh
  · exact h.execScrhStop
  · exact h.execSloop
  · exact h.execScribeProgramEnd
  · exact h.execDecode
  · exact h.execDecodeFlush
  · exact h.execDecodeReset
  · exact h.execDecodeFrameOutput
  · exact h.execPhase
  · exact h.execPhaseEnd
  · exact h.execCsrr
  · exact h.execCsrw
  · exact h.execTret
  · exact h.execClrc
  · exact h.execLaunch
  · exact h.execLaunchRes
  · exact h.execKill
  · exact h.execKillComplete
  · exact h.execPreempt
  · exact h.execPreemptBlk
  · exact h.execSaveComplete
  · exact h.execReplay
  · exact h.execDeny
  · exact h.execTlbi
  · exact h.execTlbiCtx
  · exact h.execTlbiDie
  · exact h.execHalt
  · exact h.execTrapEntry
  · exact h.execDoubleTrap
  · exact h.execUnhandledTrap
  · exact h.execDeferredCause
  · exact h.execHang
  · exact h.execLoadReply
  · exact h.execWriteCompletion
  · exact h.execHomeRequest
  · exact h.execSectorFill
  · exact h.execL1Fill
  · exact h.execLeaseEnd
  · exact h.execL1Eviction
  · exact h.execL2Eviction
  · exact h.execStvaArrival
  · exact h.execStvaPerform
  · exact h.execAtomoArrival
  · exact h.execAtomoResend
  · exact h.execBlockEnd
  · exact h.execVellumWindowEnd
  · exact h.execVwinAdvance
  · exact h.execPageFault
  · exact h.execFaultRecordPush
  · exact h.execDeferredWriteBackFault
  · exact h.execBlockEligible
  · exact h.execPlacement
  · exact h.execBlockStart
  · exact h.execContextCompletion
  · exact h.execHostWrite
  · exact h.execPowerUp
  · exact h.execGetVersion
  · exact h.execGetCapabilities
  · exact h.execGetDigests
  · exact h.execHoldoverEntry
  · exact h.execHoldoverExit
  · exact h.execHairlineArrival
  · exact h.execHairlineUndeliverable
  · exact h.execOwnerAnswer
  · exact h.execSyncInterval
  · exact h.execInbox
  · exact h.execSectorApertureRead
  · exact h.execSectorApertureWrite
  · exact h.execWindowApertureRead
  · exact h.execWindowApertureWrite
  · exact h.execFlush
  · exact h.execClaim
  · exact h.execPartctlApply
  · exact h.execMgmtRegisterWrite
  · exact h.execFunctionLevelReset
  · exact h.execFwgo
  · exact h.execBringUpComplete
  · exact h.execGetCertificate
  · exact h.execChallenge
  · exact h.execGetMeasurements
  · exact h.execSpdmUnsupportedRequest
  · exact h.execNegotiateAlgorithms
  · exact h.execPowerWindow
  · exact h.execThermalShutdown
  · exact h.execSync
  · exact h.execSoftError
  · exact h.execAtsTranslationCompletion
  · exact h.execHairlinePortTraining
  · exact h.execPdelay
  · exact h.execFirmwareWindowWrite
  · exact h.execPriResponse
  · exact h.execAtsInvalidation

theorem Formed.useLine {w : Nat} {pc n : Int} (h : Formed s) : Formed (s.useLine w pc n) := by
  unfold State.useLine
  dsimp only
  split
  · exact (Formed.ite h h.touchLine).setWarp.touchLine
  · exact h

theorem Formed.atUnit {w : Nat} {lanes : List Nat} {pc : Int} {k : Nat} (h : Formed s) : Formed (s.atUnit w lanes pc k) := h.useLine.other rfl
theorem Formed.holdLanes {w : Nat} {ls : List Nat} (h : Formed s) : Formed (s.holdLanes w ls) := (h.foldl (fun _ _ h' => h'.setThread)).meet

theorem Formed.groupFault {w : Nat} {lanes : List Nat} {pc : Int} {c : Nat} (h : Formed s) : Formed (s.groupFault w lanes pc c) :=
  Formed.settle (Formed.raiseAll (Formed.started (h.other rfl)))

theorem Formed.issueGroup {w : Nat} {lanes : List Nat} {l : Nat} (h : Formed s) : FormedOut (s.issueGroup w lanes l) := by
  unfold State.issueGroup
  refine FormedOut.ite h.holdLanes ?_
  split
  · exact FormedOut.ite h h.atUnit.exec
  · exact h.askLine
  · exact h.groupFault
  · exact h.groupFault

theorem Formed.issueFrom {w n : Nat} {past : List Nat} (h : Formed s) : FormedOut (s.issueFrom w n past) := by
  induction n generalizing past with
  | zero => exact h
  | succ n ih =>
    rw [State.issueFrom]
    split
    · exact h
    · exact FormedOut.ite ih h.issueGroup

theorem Formed.issueWarp {w : Nat} (h : Formed s) : FormedOut (s.issueWarp w) := h.issueFrom

theorem Formed.issueFirst {ws : List Nat} (h : Formed s) : FormedOut (s.issueFirst ws) := by
  induction ws with
  | nil => exact h
  | cons w ws ih =>
    rw [State.issueFirst]
    exact FormedOut.ite ih h.issueWarp

theorem Formed.issuePart {w : Nat} (h : Formed s) : FormedOut (s.issuePart w) := h.issueFirst
theorem Formed.noteReady (h : Formed s) : Formed s.noteReady := h.withThr (Tab.sorted_map (by intro p; rfl) h.thr)

theorem Formed.firstEvent {is : List Instr} (h : Formed s) : ∀ r, s.firstEvent is = some r → FormedOut r := by
  induction is with
  | nil => exact formedOut_of_none
  | cons i is ih =>
    rw [State.firstEvent]
    split
    · rename_i heq
      exact formedOut_of_ite ih (formedOut_of_some (r := .next _) (h.exec.of_next heq))
    · exact formedOut_of_some h.exec

theorem Formed.anEvent {turn : Nat} (h : Formed s) : ∀ t, s.anEvent turn = some t → FormedOut t := h.firstEvent

theorem Formed.anIssue {turn : Nat} (h : Formed s) : ∀ r, s.anIssue turn = some r → FormedOut r := fun r hr => by
  obtain ⟨w, -, hw⟩ := List.exists_of_findSome?_eq_some hr
  exact formedOut_of_ite formedOut_of_none (formedOut_of_some h.issuePart) r hw

theorem Formed.aService {turn : Nat} (h : Formed s) : ∀ t, s.aService turn = some t → FormedOut t := h.firstEvent

theorem Formed.advance (h : Formed s) : Formed (s.advance) := by
  unfold State.advance
  exact Formed.ite (h.foldl (fun _ _ h' => h'.setDie)) ((h.foldl (fun _ _ h' => h'.setDie)).other rfl)

theorem Formed.run {is : List Instr} (h : Formed s) : Formed (s.run is) := by
  refine h.foldl fun _ _ h' => ?_
  split
  · rename_i heq
    exact h'.exec.of_next heq
  · exact h'

theorem Formed.hurry (h : Formed s) : Formed (s.hurry) := h.foldl (fun _ _ h' => h'.run)
theorem Formed.dieDue (h : Formed s) : Formed (s.dieDue) := h.run.run
theorem Formed.tick (h : Formed s) : Formed (s.tick) := h.hurry.hurry.advance.dieDue.foldl (fun _ _ h' => h'.inkAt)
theorem Formed.noted (h : Formed s) : Formed (s.noted) := h.noteDeps.noteInbox.noteFlush.noteRestart.noteHang.noteReady

theorem FormedOut.noted {r : R} (h : FormedOut r) : FormedOut (noted r) := by
  cases r with
  | next t => exact Formed.noted h
  | fault f => exact h
  | refused q => exact h

theorem Formed.move {a : Move} (h : Formed s) : FormedOut (s.move a) := by
  unfold State.move
  split
  · exact h.issuePart
  · exact FormedOut.ite h.exec h
  · exact h.tick

theorem Formed.kindOfTurn {k turn : Nat} (h : Formed s) : ∀ t, s.kindOfTurn k turn = some t → FormedOut t := by
  unfold State.kindOfTurn
  split
  · exact h.anIssue
  · exact h.anEvent
  · exact h.aService

theorem Formed.idle (h : Formed s) : FormedOut s.idle := by
  unfold State.idle
  dsimp only
  generalize ho : Option.orElse (Option.orElse _ _) _ = o
  have hturns : ∀ r, o = some r → FormedOut r := by
    rw [← ho]
    exact formedOut_of_orElse (formedOut_of_orElse h.kindOfTurn h.kindOfTurn) h.kindOfTurn
  split
  · exact h.tick
  · exact Formed.tick (hturns _ rfl)
  · exact hturns _ rfl

theorem Formed.step (h : Formed s) : FormedOut (step s) := by
  unfold Machine.step
  split
  · exact FormedOut.ite h.withInputs h.withInputs.move.noted
  · exact FormedOut.ite h h.idle.noted

end Sys2Proof.Machine

namespace Sys2Proof
open Machine

/-- Settles O59: each function of the model keeps the form of a state, since the functions that it is made of do. -/
theorem stepKeepsForm : Obligations.StepKeepsForm := by
  unfold Obligations.StepKeepsForm
  exact fun s t h hstep => h.step.of_next hstep

end Sys2Proof
end
